-- ==== Sys2Proof/Word.lean ====
section
/-!
DEFINITION. The plainest types of the model: an octet, a 32-bit and a 64-bit word, and the shape of a sparse store.
-/
namespace Sys2Proof

/-- An octet. -/
abbrev Byte := BitVec 8

/-- The unit of a register access (R12, R13). -/
abbrev Word32 := BitVec 32

/-- The wide register access and the word of a wide register (R12). -/
abbrev Word64 := BitVec 64

/-- What is held under numbered places, most of which still hold their initial content: the listed entries only,
by rising place, none equal to that initial content. -/
abbrev Sparse (α : Type) := List (Nat × α)

end Sys2Proof
end

