-- ==== Sys2Proof/Syntax.lean ====
section
/-!
DEFINITION. The commands of the block: one constructor for each row of the opcode table, with its operands. A command is an event of
the part: an access by the host, the arrival of a frame or a message, the end of an internal interval, or one step of an engine.
What stands outside the part (octets received, what a memory or a line answered) is an operand; what the part decides is not.
-/
namespace Sys2Proof

/-- The commands, in the order of the opcode table. -/
inductive Instr where
  /-- R17. A host write of `width` octets; `space` 0 BAR0, 1 BAR2, 2 configuration space. -/
  | registerWrite (space : Nat) (addr : Nat) (width : Nat) (data : Nat)
  /-- R14. A host access that no register takes. -/
  | badRegisterAccess (write : Bool) (space : Nat) (addr : Nat) (width : Nat) (data : Nat)
  /-- R15. A 32-bit host read of BAR0. -/
  | read64LowWord (addr : Nat)
  /-- R16. A 32-bit host write of BAR0. -/
  | write64LowWord (addr : Nat) (data : Nat)
  /-- R17. A host read. -/
  | readClearField (space : Nat) (addr : Nat) (width : Nat)
  /-- R477. A host read of BAR0. -/
  | latchingRead (addr : Nat) (width : Nat)
  /-- R28. The direction, whether the flit in error is itself a replay of the flit in hand, and its channel. -/
  | flitCrcReplay (toTraffic : Bool) (again : Bool) (ch : Nat)
  /-- R31. The direction. -/
  | seamReplayFailure (toTraffic : Bool)
  /-- R32. The flits sent each way in the 1 s window that ends. -/
  | seamDegraded (flitsFwd : Nat) (flitsTrf : Nat)
  /-- R95. The ingress port, the octets without FCS, whether the FCS is good, whether they are the whole frame, and the sixteenth of a nanosecond of the stamp. -/
  | frameReceive (port : Nat) (octets : List (BitVec 8)) (fcsGood : Bool) (whole : Bool) (sub : Nat)
  /-- R97. The port. -/
  | pauseRepeat (p : Nat)
  /-- R97. The port and the quanta. -/
  | pauseFrameReceive (p : Nat) (quanta : Nat)
  /-- R97. The port. -/
  | pauseQuantaExpiry (p : Nat)
  /-- R125. The ingress port that weighted round robin serves (assumption 13). -/
  | contextGrant (port : Nat)
  /-- R154. The context, and whether the stage offers an empty slot within 64 cycles (R158). -/
  | earlyLookupIssue (c : Nat) (slotFree : Bool)
  /-- R129. The context. -/
  | programStart (c : Nat)
  /-- R139. One instruction of the program of context `c`. -/
  | sketchLd (c : Nat)
  /-- R140. One instruction of the program of context `c`. -/
  | sketchLdh (c : Nat)
  /-- R138. One instruction of the program of context `c`. -/
  | sketchMov (c : Nat)
  /-- R138. One instruction of the program of context `c`. -/
  | sketchAdd (c : Nat)
  /-- R138. One instruction of the program of context `c`. -/
  | sketchSub (c : Nat)
  /-- R138. One instruction of the program of context `c`. -/
  | sketchAnd (c : Nat)
  /-- R138. One instruction of the program of context `c`. -/
  | sketchOr (c : Nat)
  /-- R138. One instruction of the program of context `c`. -/
  | sketchXor (c : Nat)
  /-- R137. One instruction of the program of context `c`. -/
  | sketchShl (c : Nat)
  /-- R137. One instruction of the program of context `c`. -/
  | sketchShr (c : Nat)
  /-- R143. One instruction of the program of context `c`. -/
  | sketchCsum (c : Nat)
  /-- R141. One instruction of the program of context `c`. -/
  | sketchXcp (c : Nat)
  /-- R140. One instruction of the program of context `c`. -/
  | sketchSth (c : Nat)
  /-- R138. One instruction of the program of context `c`. -/
  | sketchGetc (c : Nat)
  /-- R131. One instruction of the program of context `c`. -/
  | sketchAdv (c : Nat)
  /-- R131. One instruction of the program of context `c`. -/
  | sketchSetc (c : Nat)
  /-- R142. One instruction of the program of context `c`. -/
  | sketchHdr (c : Nat)
  /-- R150. One instruction of the program of context `c`. -/
  | sketchLchk (c : Nat)
  /-- R138. One instruction of the program of context `c`. -/
  | sketchBeq (c : Nat)
  /-- R138. One instruction of the program of context `c`. -/
  | sketchBne (c : Nat)
  /-- R138. One instruction of the program of context `c`. -/
  | sketchBlt (c : Nat)
  /-- R138. One instruction of the program of context `c`. -/
  | sketchBge (c : Nat)
  /-- R138. One instruction of the program of context `c`. -/
  | sketchBts (c : Nat)
  /-- R138. One instruction of the program of context `c`. -/
  | sketchBtc (c : Nat)
  /-- R138. One instruction of the program of context `c`. -/
  | sketchJmp (c : Nat)
  /-- R138. One instruction of the program of context `c`. -/
  | sketchCall (c : Nat)
  /-- R138. One instruction of the program of context `c`. -/
  | sketchJr (c : Nat)
  /-- R156. One instruction of the program of context `c`. -/
  | sketchDone (c : Nat)
  /-- R147. One instruction of the program of context `c`. -/
  | sketchExc (c : Nat)
  /-- R148. One instruction of the program of context `c`. -/
  | sketchDrop (c : Nat)
  /-- R138. One instruction of the program of context `c`. -/
  | sketchNop (c : Nat)
  /-- R33. The context. -/
  | headerVectorSend (c : Nat)
  /-- R33. The packet. -/
  | queueHandoff (n : Nat)
  /-- R171. The packet at the head of the stage. -/
  | glazeStage (n : Nat)
  /-- R178. One instruction of the running action program of packet `n`. -/
  | actionLdf (n : Nat)
  /-- R178. One instruction of the running action program of packet `n`. -/
  | actionStf (n : Nat)
  /-- R177. One instruction of the running action program of packet `n`. -/
  | actionMov (n : Nat)
  /-- R177. One instruction of the running action program of packet `n`. -/
  | actionAdd (n : Nat)
  /-- R177. One instruction of the running action program of packet `n`. -/
  | actionSub (n : Nat)
  /-- R177. One instruction of the running action program of packet `n`. -/
  | actionAnd (n : Nat)
  /-- R177. One instruction of the running action program of packet `n`. -/
  | actionOr (n : Nat)
  /-- R177. One instruction of the running action program of packet `n`. -/
  | actionXor (n : Nat)
  /-- R177. One instruction of the running action program of packet `n`. -/
  | actionShl (n : Nat)
  /-- R177. One instruction of the running action program of packet `n`. -/
  | actionShr (n : Nat)
  /-- R177. One instruction of the running action program of packet `n`. -/
  | actionCsup (n : Nat)
  /-- R183. One instruction of the running action program of packet `n`. -/
  | actionIns (n : Nat)
  /-- R183. One instruction of the running action program of packet `n`. -/
  | actionDel (n : Nat)
  /-- R180. One instruction of the running action program of packet `n`. -/
  | actionSkz (n : Nat)
  /-- R180. One instruction of the running action program of packet `n`. -/
  | actionSknz (n : Nat)
  /-- R180. One instruction of the running action program of packet `n`. -/
  | actionEnd (n : Nat)
  /-- R617. One instruction of the running action program of packet `n`. -/
  | actionFwd (n : Nat)
  /-- R188. One instruction of the running action program of packet `n`. -/
  | actionFwdg (n : Nat)
  /-- R186. One instruction of the running action program of packet `n`. -/
  | actionDrop (n : Nat)
  /-- R186. One instruction of the running action program of packet `n`. -/
  | actionCopy (n : Nat)
  /-- R186. One instruction of the running action program of packet `n`. -/
  | actionTrap (n : Nat)
  /-- R186. One instruction of the running action program of packet `n`. -/
  | actionMirr (n : Nat)
  /-- R187. One instruction of the running action program of packet `n`. -/
  | actionRecirc (n : Nat)
  /-- R189. One instruction of the running action program of packet `n`. -/
  | actionPol (n : Nat)
  /-- R515. One instruction of the running action program of packet `n`. -/
  | actionCnt (n : Nat)
  /-- R188. One instruction of the running action program of packet `n`. -/
  | actionHash (n : Nat)
  /-- R240. One instruction of the running action program of packet `n`. -/
  | actionLearn (n : Nat)
  /-- R177. One instruction of the running action program of packet `n`. -/
  | actionNop (n : Nat)
  /-- R185. The packet. -/
  | ingressReorderSettle (n : Nat)
  /-- R190. The packet, its remaining octets, and whether the FCS is good. -/
  | chargeTrueUp (n : Nat) (tail : List (BitVec 8)) (fcsGood : Bool)
  /-- R303. The packet. -/
  | enqueue (n : Nat)
  /-- R306. The port node, and whether flits of the packet are still on their way into Canvas. -/
  | portSelection (n : Nat) (arriving : Bool)
  /-- R193. The packet. -/
  | egressEntry (n : Nat)
  /-- R615. The port node, and the sixteenth of a nanosecond of the transmit stamp. -/
  | frameTransmit (n : Nat) (sub : Nat)
  /-- R57. The cycles each of the 16 monitors completed in the window. -/
  | paceWindow (counts : List Nat)
  /-- R59. -/
  | supplyLoopStep
  /-- R65. -/
  | shedLevel2Entry
  /-- R67. -/
  | shedStepDown
  /-- R93. The port and the value written to ETH_PORT_CFG. -/
  | portEnable (p : Nat) (v : Nat)
  /-- R98. The port, the value written to ETH_PORT_CFG, and whether a frame is being transmitted. -/
  | portDisable (p : Nat) (v : Nat) (cut : Bool)
  /-- R98. The port, 112 + c for client c, and whether a frame is being transmitted. -/
  | linkDown (p : Nat) (cut : Bool)
  /-- R98. The port, 112 + c for client c. -/
  | linkUp (p : Nat)
  /-- R120. -/
  | secondLatch
  /-- R108. The instance, the candidate's block position, and whether the block checked has the required form. -/
  | ohCandidateCheck (i : Nat) (pos : Nat) (ok : Bool)
  /-- R111. The instance and what the position, and at the last of eight the frame, shows. -/
  | ohPositionCheck (i : Nat) (form : Bool) (crc : Bool) (cr : Bool) (ca : Bool) (ccc : Bool) (rpf : Bool) (mf : Bool) (gid : Nat) (cal : List (BitVec 16)) (mgmt : List (BitVec 8))
  /-- R112. The instance. -/
  | ohFieldAccept (i : Nat)
  /-- R113. The group, and whether software asks for the page exchange (R119); else the switch itself falls due. -/
  | txPageSwitch (g : Nat × Bool)
  /-- R116. The instance. -/
  | protHoldoffExpiry (i : Nat)
  /-- R118. The group. -/
  | protCaTimeout (g : Nat)
  /-- R198. -/
  | swapNow
  /-- R198. -/
  | swapArm
  /-- R198. -/
  | swapCancel
  /-- R198. -/
  | armedSwapTime
  /-- R197. -/
  | coatFlip
  /-- R51. -/
  | coatRetire
  /-- R563. -/
  | coatMeasure
  /-- R234. The agent. -/
  | agentRead (a : Nat)
  /-- R234. The agent. -/
  | agentWrite (a : Nat)
  /-- R209. The agent. -/
  | agentInsert (a : Nat)
  /-- R234. The agent. -/
  | agentDelete (a : Nat)
  /-- R234. The agent. -/
  | agentSearch (a : Nat)
  /-- R235. The agent. -/
  | agentMove (a : Nat)
  /-- R222. The position of the entry's first unit, 4,096 × bank + row. -/
  | suspectRepair (pos : Nat)
  /-- R223. The bank, and the soft errors that strike Stencil units from then on: bits of key and mask turned over, or an uncorrectable key copy. -/
  | stencilScrubStep (k : Nat) (hits : List (Nat × Option Nat))
  /-- R201. The soft errors that strike the on-die memories from then on: memory, word, uncorrectable. -/
  | sramScrub (hits : List (Nat × Nat × Bool))
  /-- R205. The bank, the table and the 64 bits written. -/
  | descWord0Write (b : Bool) (t : Nat) (v : Nat)
  /-- R215. The Stencil bank and the value written. -/
  | bankWidthWrite (k : Nat) (v : Nat)
  /-- R237. The table of the active bank. -/
  | ageUnitTick (t : Nat)
  /-- R237. The table of the active bank and the slot visited. -/
  | ageEntryVisit (t : Nat) (slot : Nat)
  /-- R250. The packet whose stage hands off. -/
  | pounceHandoff (n : Nat)
  /-- R259. The packet whose stage searches. -/
  | legacySearch (n : Nat)
  /-- R248. The bank, the set and the 64 bits written. -/
  | setDescWord0Write (b : Bool) (k : Nat) (v : Nat)
  /-- R249. The state word. -/
  | loadDataWrite (v : BitVec 128)
  /-- R271. The requester class, the owner of a class 6 request, and the pool. -/
  | bufferAllocate (c : Nat) (o : Nat) (pool : Nat)
  /-- R271. The pointer, and the length of the packet whose copy is asked. -/
  | bufferReference (p : Nat) (bytes : Nat)
  /-- R271. The pointer and the owner that frees. -/
  | bufferFree (p : Nat) (o : Nat)
  /-- R270. The pointer, the owner that gives and the owner that takes. -/
  | bufferTransfer (p : Nat) (a : Nat) (b : Nat)
  /-- R277. -/
  | headCacheRefill
  /-- R281. The queue; VOQ v is queue 1,048,576 + v. -/
  | spillMove (q : Nat)
  /-- R284. The queue; VOQ v is queue 1,048,576 + v. -/
  | runAheadStep (q : Nat)
  /-- R287. The queue; VOQ v is queue 1,048,576 + v. -/
  | runAheadLand (q : Nat)
  /-- R289. The queue; VOQ v is queue 1,048,576 + v. -/
  | queueFlush (q : Nat)
  /-- R293. -/
  | chainRebuild
  /-- R294. -/
  | auditStart
  /-- R294. -/
  | auditPeriod
  /-- R296. -/
  | auditSweepEnd
  /-- R294. -/
  | auditPop
  /-- R616. -/
  | swAlloc
  /-- R616. -/
  | swFree
  /-- R616. -/
  | swRead
  /-- R616. -/
  | swRetire
  /-- R616. -/
  | swUnretire
  /-- R312. The level, 0 service queue, 1 subscriber node, 2 port node, and the index. -/
  | shaperRefill (level : Nat) (i : Nat)
  /-- R320. The words of Canvas that soft errors strike before it: a byte address in the word, and whether it is uncorrectable. -/
  | voqDequeue (words : List (Nat × Bool))
  /-- R322. The port node and the value written to SCH_PNODE_CFG. -/
  | portNodeEnable (n : Nat) (v : Nat)
  /-- R322. The port node, and whether its oldest frame in the MAC is being transmitted. -/
  | portLinkLost (n : Nat) (cut : Bool)
  /-- R322. The port node. -/
  | portLinkReturn (n : Nat)
  /-- R322. The port node. -/
  | portHoldExpiry (n : Nat)
  /-- R322. The port node. -/
  | portFlushComplete (n : Nat)
  /-- R322. The port node and the value written to SCH_PNODE_CFG. -/
  | portNodeDisable (n : Nat) (v : Nat)
  /-- R325. The queue; VOQ v is queue 1,048,576 + v. -/
  | queueFlushComplete (q : Nat)
  /-- R326. -/
  | accRead
  /-- R327. -/
  | accWrite
  /-- R326. -/
  | accFlush
  /-- R330. -/
  | queueSample
  /-- R344. The channel, and the errors that strike it with the command (R350): codewords by a byte address in them, with the bits of DQ that turn over. -/
  | dramCommandIssue (ch : Nat) (strikes : List (Nat × Nat))
  /-- R341. The channel, and the errors that strike it before the read is checked: codewords by a byte address in them, with the bits of DQ and of CB that turn over, and devices that fail whole. -/
  | dramReadReturn (ch : Nat) (dq : List (Nat × Nat)) (cb : List (Nat × Nat)) (fails : List Nat)
  /-- R348. The channel. -/
  | refresh (ch : Nat)
  /-- R349. The octet written. -/
  | tempWrite (v : Nat)
  /-- R349. -/
  | tempStale
  /-- R343. The channel, and the errors that strike it from then on: codewords by a byte address in them, with the bits of DQ and of CB that turn over, and devices that fail whole. -/
  | patrolScrub (ch : Nat) (dq : List (Nat × Nat)) (cb : List (Nat × Nat)) (fails : List Nat)
  /-- R351. The channels on which it failed. -/
  | fullTraining (failed : List Nat)
  /-- R352. The channel. -/
  | periodicTrainingStep (ch : Nat)
  /-- R357. The channel. -/
  | trainingStepEnd (ch : Nat)
  /-- R354. The channel, and the cause judged, as LOST_CAUSE codes it. -/
  | channelLost (ch : Nat) (cause : Nat)
  /-- R342. -/
  | errPop
  /-- R357. The speed code written. -/
  | freqGo (target : Nat)
  /-- R357. -/
  | freqSwitchComplete
  /-- R357. The channels that failed at the new speed, and of them those that failed at the previous one too. -/
  | freqTrainingComplete (bad : List Nat) (worse : List Nat)
  /-- R361. The lane. -/
  | laneLock (l : Nat)
  /-- R384. The lane. -/
  | laneDown (l : Nat)
  /-- R384. The word of FAB_LANE_EN and the value written. -/
  | laneEnWrite (w : Nat) (v : Nat)
  /-- R376. The lane. -/
  | slotTransmit (l : Nat)
  /-- R380. The lane and the 272 octets of the slot. -/
  | swatchReceive (l : Nat) (octets : List (BitVec 8))
  /-- R367. The lane and the 272 octets of the slot. -/
  | creditSwatchReceive (l : Nat) (octets : List (BitVec 8))
  /-- R372. The lane and the 272 octets of the slot. -/
  | linkControlReceive (l : Nat) (octets : List (BitVec 8))
  /-- R368. The module that holds the VOQs, and the class. -/
  | creditIssue (d : Nat) (c : Nat)
  /-- R369. -/
  | creditRefresh
  /-- R373. -/
  | reachabilitySend
  /-- R378. The destination. -/
  | unreachExpiry (d : Nat)
  /-- R382. The source module and the class. -/
  | gapRelease (src : Nat) (cls : Nat)
  /-- R392. The tree and the value written to LOOM_TREE_CFG. -/
  | treeEnable (n : Nat) (v : Nat)
  /-- R395. The tree and the value written to LOOM_TREE_CFG. -/
  | treeDisable (n : Nat) (v : Nat)
  /-- R393. The tree. -/
  | downstreamFrame (n : Nat)
  /-- R432. The tree. -/
  | bwmapCompute (n : Nat)
  /-- R427. The tree. -/
  | dbaCycle (n : Nat)
  /-- R440. The tree, the offset from the expected end in 1/16 ns, the ONU-ID of the header, codewords that cannot be corrected, the phase and gain, and for each allocation the bytes filled and the occupancy reported. -/
  | burstReceive (n : Nat) (off : Int) (hdr : Nat) (bad : Nat) (phase : Nat) (gain : Nat) (reports : List (Nat × Option Nat))
  /-- R440. The tree, and whether PBR_SD was asserted during the burst. -/
  | burstMissed (n : Nat) (sd : Bool)
  /-- R397. The tree. -/
  | pbrResetPulse (n : Nat)
  /-- R409. The tree. -/
  | snWindowOpen (n : Nat)
  /-- R410. The tree, whether the burst can be decoded, its serial number, its arrival after E0 and its random delay in 1/16 ns, whether its MIC holds, and the message. -/
  | serialNumberOnu (n : Nat) (decoded : Bool) (sn : Nat) (arrival : Int) (delay : Nat) (micOk : Bool) (content : List (BitVec 8))
  /-- R413. The tree, the ONU-ID, the arrival after E0 in 1/16 ns, whether the MIC holds, the burst's phase and gain, and the message. -/
  | rangingResponse (n : Nat) (i : Nat) (arrival : Int) (micOk : Bool) (phase : Nat) (gain : Nat) (content : List (BitVec 8))
  /-- R412. The tree and the ONU-ID. -/
  | rangingWindowClose (n : Nat) (i : Nat)
  /-- R416. The tree and the ONU-ID. -/
  | to2Expiry (n : Nat) (i : Nat)
  /-- R406. The tree. -/
  | onuDeactivate (n : Nat)
  /-- R406. The tree. -/
  | onuDisable (n : Nat)
  /-- R406. The tree. -/
  | onuEnable (n : Nat)
  /-- R417. The tree. -/
  | onuReqReg (n : Nat)
  /-- R417. The tree, the ONU-ID, whether the MIC holds, the SeqNo acknowledged where it is an Acknowledgement, and the message. -/
  | upstreamPloam (n : Nat) (i : Nat) (micOk : Bool) (ack : Option Nat) (content : List (BitVec 8))
  /-- R420. The entry. -/
  | sndisClear (k : Nat)
  /-- R444. The Alloc-ID entry. -/
  | reassemblyTimeout (a : Nat)
  /-- R449. The tree, the allocation of the burst, the Port-ID, the key index, whether it is the last fragment, whether it has a byte in a codeword that cannot be corrected, and the payload. -/
  | upstreamXgemFrame (n : Nat) (j : Nat) (port : Nat) (idx : Nat) (last : Bool) (bad : Bool) (octets : List (BitVec 8))
  /-- R452. The packet. -/
  | downstreamGemExit (k : Nat)
  /-- R445. -/
  | keyWrite
  /-- R445. -/
  | keyClear
  /-- R446. -/
  | keySwitch
  /-- R455. The tree, the assertions of PBR_SD during the frame as intervals in ns from E0 of frame 0, and PBR_SD now. -/
  | rogueFrameEval (n : Nat) (seen : List (Nat × Nat)) (sdNow : Bool)
  /-- R456. The tree, the ONU-ID and the frames written. -/
  | probeGo (n : Nat) (onu : Nat) (frames : Nat)
  /-- R456. The tree. -/
  | probeEnd (n : Nat)
  /-- R422. The entry and the word 0 written. -/
  | allocEnable (a : Nat) (v : Nat)
  /-- R423. The entry and the word 0 written. -/
  | gemEnable (g : Nat) (v : Nat)
  /-- R459. -/
  | sysrefLoss
  /-- R459. -/
  | sysrefReturn
  /-- R463. -/
  | anchorArm
  /-- R463. -/
  | anchorCancel
  /-- R463. -/
  | anchorFlip
  /-- R477. -/
  | txtsPop
  /-- R479. The service queue. -/
  | launchEligible (q : Nat)
  /-- R480. The packet. -/
  | launchTimeReached (k : Nat)
  /-- R482. -/
  | ppsOutRise
  /-- R482. -/
  | ppsOutFall
  /-- R483. The sixteenth of a nanosecond of the stamp. -/
  | ppsInEdge (sub : Nat)
  /-- R489. The ring, the half (0 TAIL, 1 HEAD, 2 both), and the value written. -/
  | doorbellWrite (k : Nat) (half : Nat) (value : Nat)
  /-- R491. The punt ring, and the buffer address that the slot holds. -/
  | puntWrite (ring : Nat) (buf : Nat)
  /-- R493. The inject ring, the 64 octets of the descriptor at W, and the octets of its buffer. -/
  | injectFetch (r : Nat) (desc : List (BitVec 8)) (content : List (BitVec 8))
  /-- R487. The ring, and whether the failed read is of an inject descriptor's buffer. -/
  | dmaError (k : Nat) (buffer : Bool)
  /-- R494. The ring. -/
  | ringEnable (k : Nat)
  /-- R494. The ring. -/
  | ringDisable (k : Nat)
  /-- R497. -/
  | eventFire
  /-- R499. The vector. -/
  | coalesceTime (v : Nat)
  /-- R500. The vector. -/
  | vectorArbitration (v : Nat)
  /-- R503. The vector. -/
  | msixSend (v : Nat)
  /-- R501. The vector, and the source that the write names. -/
  | evcComplete (v : Nat) (src : Nat)
  /-- R505. The word and its new value. -/
  | evcPendingWrite (w : Nat) (value : Nat)
  /-- R499. The word and its new value. -/
  | evcMaskWrite (w : Nat) (value : Nat)
  /-- R506. The bits of WORDS. -/
  | evcRescan (words : Nat)
  /-- R509. -/
  | d3hotEntry
  /-- R509. -/
  | d0Return
  /-- R511. -/
  | l2Entry
  /-- R602. The speed and width the link trains at (the codes of HST_PCIE_STATUS), and whether the sleep save passes its check. -/
  | perstRelease (speed : Nat) (width : Nat) (good : Bool)
  /-- R519. The pair, and the errors that strike its DDR4 channel before it is read: codewords by a byte address in them, with the bits of DQ that turn over. -/
  | cntRead (i : Nat) (strikes : List (Nat × Nat))
  /-- R519. The pair, and the errors that strike its DDR4 channel before it is read: codewords by a byte address in them, with the bits of DQ that turn over. -/
  | cntReadClear (i : Nat) (strikes : List (Nat × Nat))
  /-- R519. The pair. -/
  | cntZero (i : Nat)
  /-- R517. The pair, and the errors that strike its DDR4 channel before it is read: codewords by a byte address in them, with the bits of DQ that turn over. -/
  | counterCacheWriteback (i : Nat) (strikes : List (Nat × Nat))
  /-- R520. -/
  | freeze
  /-- R521. -/
  | freezeInstant
  /-- R521. -/
  | thaw
  /-- R522. -/
  | snapshot
  /-- R522. -/
  | snapshotComplete
  /-- R525. -/
  | bwWindowBoundary
  /-- R529. -/
  | isampClear
  /-- R600. -/
  | powerUp
  /-- R596. The cause: 1 VIN undervoltage, 2 VIN overvoltage, 3 junction trip, 4 power-stage overtemperature, 5 rail fault. -/
  | powerShutdown (cause : Nat)
  /-- R596. -/
  | vinRestore
  /-- R599. The measurements in the units of EAS_PWR_TELEM, and whether VDDQ is outside its range. -/
  | telemetryUpdate (vin : Nat) (iin : Nat) (pin : Nat) (tjF : Int) (tjT : Int) (tStage : Int) (icoreF : Nat) (icoreT : Nat) (vddqBad : Bool)
  /-- R550. Seam wires that fail the test in each direction, DDR4 channels whose training fails, whether the flash can be read, whether a peer manager announces that it acts, and the time taken in ns. -/
  | coldStart (failFwd : Nat) (failTrf : Nat) (failed : List Nat) (flashOk : Bool) (peerActing : Bool) (took : Nat)
  /-- R558. The length of the WARMRST_N pulse in ns with whether one of 0.5 to 1 µs acts, Seam wires that fail the test in each direction, DDR4 channels whose retraining fails, whether Varnish passes its checks, whether a peer manager announces that it acts, and the time taken in ns. -/
  | warmRestart (pulse : Nat × Bool) (failFwd : Nat) (failTrf : Nat) (failed : List Nat) (varnishOk : Bool) (peerActing : Bool) (took : Nat)
  /-- R557. Whether the flash takes the write. -/
  | varnishMirror (flashOk : Bool)
  /-- R570. Whether the flash can be read. -/
  | getInfo (flashOk : Bool)
  /-- R570. Whether the flash can be read. -/
  | flashRead (flashOk : Bool)
  /-- R569. Whether the flash takes the write. -/
  | flashWrite (flashOk : Bool)
  /-- R543. Whether the flash can be read. -/
  | verifySlot (flashOk : Bool)
  /-- R534. Whether the flash takes the write. -/
  | setBoot (flashOk : Bool)
  /-- R570. Whether the flash takes the write. -/
  | confirm (flashOk : Bool)
  /-- R564. Whether the flash can be read, and the time taken in ns. -/
  | switchFw (flashOk : Bool) (took : Nat)
  /-- R565. Whether the flash can be read. -/
  | loomLoad (flashOk : Bool)
  /-- R566. -/
  | loomSwap
  /-- R562. Whether the flash can be read. -/
  | stageCoat (flashOk : Bool)
  /-- R560. Whether the flash can be read. -/
  | restartWarm (flashOk : Bool)
  /-- R567. -/
  | attest
  /-- R568. -/
  | getIdentity
  /-- R548. -/
  | keyProgram
  /-- R548. -/
  | keyRevoke
  /-- R549. -/
  | raiseVersion
  /-- R570. Whether the flash can be read. -/
  | logRead (flashOk : Bool)
  /-- R557. Whether the flash takes the write. -/
  | mirrorNow (flashOk : Bool)
  /-- R570. -/
  | restartCold
  /-- R578. -/
  | announceSend
  /-- R578. The sixteenth of a nanosecond of the stamp. -/
  | timeSend (sub : Nat)
  /-- R585. -/
  | mapSend
  /-- R576. The lane, the message, and whether its FCS is good. -/
  | announceReceive (l : Nat) (m : List (BitVec 8)) (fcs : Bool)
  /-- R584. The lane, the message, whether its FCS is good, and the sixteenth of a nanosecond of the stamp. -/
  | timeReceive (l : Nat) (m : List (BitVec 8)) (fcs : Bool) (sub : Nat)
  /-- R585. The lane, the message, and whether its FCS is good. -/
  | mapReceive (l : Nat) (m : List (BitVec 8)) (fcs : Bool)
  /-- R585. The lane, the message, and whether its FCS is good. -/
  | joinReceive (l : Nat) (m : List (BitVec 8)) (fcs : Bool)
  /-- R587. The lane, the message, and whether its FCS is good. -/
  | prepareReceive (l : Nat) (m : List (BitVec 8)) (fcs : Bool)
  /-- R588. The lane, the message, and whether its FCS is good. -/
  | replyReceive (l : Nat) (m : List (BitVec 8)) (fcs : Bool)
  /-- R588. -/
  | replyTimeout
  /-- R589. The lane, the message, and whether its FCS is good. -/
  | cancelReceive (l : Nat) (m : List (BitVec 8)) (fcs : Bool)
  /-- R581. Whether block lock is lost; else no message has arrived for LOSS ms. -/
  | uplinkLost (lock : Bool)
  /-- R579. -/
  | secondaryTakeover
  /-- R579. -/
  | revert
  /-- R586. The coat and the swap time in local whole nanoseconds. -/
  | commitGo (coat : Nat) (t : Nat)
  /-- R589. -/
  | commitDeadline
  /-- R590. -/
  | commitCompare
  /-- R585. The module. -/
  | mapRemove (md : Nat)
  /-- R98. The port (or, for the errored blocks of a FlexE client, its MAC), what its PCS now reports, and last HI_BER with what the FEC has counted since: codewords corrected, codewords or blocks uncorrectable, symbols corrected. -/
  | pcsStatusChange (p : Nat) (blockLock : Bool) (amLock : Bool) (lf : Bool) (rf : Bool) (errs : Bool × Nat × Nat × Nat)
  /-- R108. The instance and the block position. -/
  | markerCandidate (i : Nat) (pos : Nat)
  /-- R107. The instance and the value written to FLX_INST_CFG. -/
  | flexeInstanceEnable (i : Nat) (v : Nat)
  /-- R354. The channel, and on how many consecutive replays the error recurs. -/
  | caParityError (ch : Nat) (fails : Nat)
  /-- R597. How long PORST_N has been asserted, in ns, and whether a pulse of 1 to 10 µs acts. -/
  | porstNAssert (dur : Nat) (acts : Bool)
  /-- R599. -/
  | telemStale
  /-- R576. The lane, and whether block lock is lost; else no ANNOUNCE has arrived for LOSS ms. -/
  | emvexLaneDown (l : Nat) (lock : Bool)
  deriving DecidableEq, Repr

end Sys2Proof
end

