-- ==== Sys2Proof/Decode.lean ====
section
/-!
DEFINITION. Commands spelled by words. The opcode table of this part gives no row any bits: a command is an event of the part and no
word spells one.
-/
namespace Sys2Proof

/-- The command that a word spells by the table's bits: none, because no row has bits. -/
def decodeTableWord (_nbits _w : Nat) : Option Instr := none

end Sys2Proof
end

