-- ==== Sys2Proof/Config.lean ====
section
/-!
DEFINITION. What the specification leaves open or takes from a published standard that it does not itself state: uninterpreted
constants, so that no proof can see a value of them. Each is named in the assumption log.
-/
namespace Sys2Proof.Config

/-- A value the specification leaves open, the `n`-th one drawn (assumption 6). -/
opaque freeValue : Nat → Nat

/-- The count of each pace monitor that stands for a pace of 1000, which EAS_PM_RAW.TARGET takes from the Ground image: the section DEVICE_CFG,
whose fields the specification lists, has none for it (assumption 37). -/
opaque paceTarget : List Byte → Nat → Nat

/-- SHA-256 of FIPS 180-4 over a message, as a 256-bit number (assumption 7). -/
opaque sha256 : List Byte → Nat

/-- RSASSA-PSS verification of RFC 8017: key, digest and signature accepted (assumption 7). -/
opaque rsaVerify : List Byte → Nat → List Byte → Bool

/-- The Easel's quote signature over a message by its device key (assumption 7). -/
opaque deviceSign : List Byte → List Byte

/-- AES-128 counter encryption of a GEM payload, FIPS 197, under a key and a counter seed (assumption 7). -/
opaque aesGem : Nat → Nat → List Byte → List Byte

/-- The integrity check of a downstream PLOAM message under a key, none for the recommendation's default key, of the numbers that say
what the message carries (assumption 7). -/
opaque mic : Option Nat → List Nat → Nat

/-- EqD of 1/16 ns in the unit the recommendation defines for a tree type and upstream rate (assumption 27). -/
opaque eqdUnits : Bool → Nat → Nat → Nat

/-- The largest number of uncoded bytes of a burst whose LDPC coding takes at most so many bytes, and the coded bytes of so many uncoded
ones: the code is the recommendation's (assumption 27). -/
opaque ldpcFits : Nat → Nat
opaque ldpcCoded : Nat → Nat

/-- The octets of an FS frame that its header, so many allocation structures, so many PLOAM messages and its trailer take, those of an XGEM
frame's header, and those of the FS frame of 50G-PON: the formats are the recommendations' (assumption 69). -/
opaque fsTaken : Nat → Nat → Nat
opaque gemHeader : Nat
opaque fsOctets50 : Nat

/-- One move of a Pounce automaton: from a set's state words by their offset from its base, a state and an octet to the next state, the
patterns that the octet completes, and the state words read, each an offset from its base. The state word's layout is Yilea's own and is
given nowhere (assumption 8). -/
opaque pounceMove : Sparse (BitVec 128) → Nat → Byte → Nat × List Nat × List Nat

/-- The layout of the DETAIL bytes of a trace record at a point, which names its fields only (assumption 16). -/
opaque traceDetail : Nat → List Nat → List Byte

/-- The first content of the LFSR that samples instructions, by quad: R529 gives it a polynomial and no seed (assumption 17). -/
opaque isampSeed : Nat → BitVec 32

/-- The keyed hash that chooses a set of the notification filter, under its key (assumption 6). -/
opaque filterHash : Nat → List Byte → Nat

/-- The punt ring that takes the management channel of a FlexE instance: the specification names "a punt ring" and no register that
chooses it (assumption 26). -/
opaque mgmtRing : Nat → Nat

/-- The vendor key hashes of the boot ROM (R545), and the SHA-256 of the boot ROM (R567). -/
opaque vendorKeyHash : Nat → Nat
opaque mRom : Nat

/-- The modulus of the device identity key (R568). -/
opaque deviceModulus : List Byte

/-- Kind, code and detail of the log record with a sequence number: the specification gives the record and no numbering of what it logs
(assumption 34). -/
opaque logFields : Nat → List Byte

end Sys2Proof.Config
end

