-- ==== Sys2Proof/Machine/Regs.lean ====
section
/-!
DEFINITION. The register space of the part: one constructor of `Reg` for each register map of the chapters, with the place R53 and
the chapter's map give it, its width, the access code of each field (R17) as a mask, and the value the Reset column gives (R21).
A field whose Reset column reads "From Ground image" holds 0 here until `COLD_START` applies an image (assumption 4).
`F.<REGISTER>.<FIELD>` names a field, as the manual writes it.
-/
namespace Sys2Proof.Machine

/-- The registers of the BAR0 window, under the manual's own names. -/
inductive Reg where
  | EAS_DEVICE_ID | EAS_SEAM_STATUS | EAS_PACE_CFG | EAS_PACE_STATUS | EAS_VCORE | EAS_PACE_DEFICIT_CNT
  | ETH_OCTET_CFG | ETH_PORT_CFG | ETH_PORT_STATUS | ETH_LINK_TIMING | FLX_GRP_CFG | FLX_GRP_STATUS
  | FLX_INST_CFG | FLX_INST_STATUS | FLX_CLIENT_CFG | ETH_SEC_STATUS | SKT_BANK_STATUS | SKT_CTX_STATUS
  | SKT_EXC_CNT | SKT_PORT_PROFILE | SKT_PROFILE | SKT_PROG | GLZ_PORT_PIPE | GLZ_EGR_PIPE
  | GLZ_ACT | GLZ_IGRP | GLZ_POL | GLZ_EPROF | GLZ_REASON | GLZ_PUNT_AGG
  | GLZ_MIRROR | GLZ_FAULT_CFG | GLZ_COAT_CTRL | GLZ_COAT_STATUS | GLZ_COAT_AT | GLZ_COAT_ID
  | GLZ_COAT_INFLIGHT | STN_BANK_CFG | STN_SCRUB_CFG | STN_STATUS | TBL_AG_CMD | TBL_AG_STATUS
  | TBL_AG_META | TBL_LEARN_STATUS | TBL_ERR_STATUS | TBL_ERR_ADDR | PNC_LOAD_ADDR | PNC_LOAD_DATA
  | PNC_RES | PNC_LKEY | PNC_LGMASK | PNC_BUDGET | PNC_STATUS | PAL_POOL_CFG
  | PAL_FREE_CNT | PAL_POOL_STATUS | PAL_CLASS_CFG | PAL_CLASS_STATUS | PAL_SHARE | PAL_SPILL_CFG
  | PAL_RA_CNT | PAL_OWNER_CFG | PAL_ERR_STATUS | PAL_AUDIT_CTRL | PAL_AUDIT_STATUS | PAL_AUDIT_FIFO
  | PAL_RETIRE_CFG | PAL_SW_CMD | PAL_SW_RESULT | SCH_STATUS | SCH_PORT_HOLD | SCH_VOQ_CREDIT_CFG
  | SCH_SAMPLE_CFG | SCH_ACC_CMD | SCH_ACC_STATUS | SCH_ACC_DATA | SCH_VOQ_CLASS | SCH_ADM
  | SCH_PNODE_CFG | SCH_PNODE_SHAPER | SCH_PNODE_STATUS | SCH_WATCH | SCH_SAMPLE | DMC_CFG
  | DMC_SCHED_CFG | DMC_RT_CFG | DMC_REFRESH_CFG | DMC_ERR_CFG | DMC_TEMP | DMC_TRAIN_CFG
  | DMC_FREQ_CTRL | DMC_FREQ_STATUS | DMC_PART | DMC_CH_STATUS | FAB_CFG | FAB_LANE_EN
  | FAB_RSQ_CFG | FAB_RX_CFG | FAB_CRED_CFG | FAB_ERR_CNT | FAB_PEER | FAB_LANE_STATUS
  | FAB_DEST_STATUS | FAB_STREAM_CNT | LOOM_BUDGET | LOOM_PLOAM_CFG | LOOM_TREE_CFG | LOOM_TREE_TIMING
  | LOOM_TREE_STATUS | LOOM_OPT_CFG | LOOM_ONU_CMD | LOOM_ONU_CMD_STATUS | LOOM_SNDIS | LOOM_ONU
  | LOOM_ACT_CNT | LOOM_OMCI_CFG | LOOM_DBA_CFG | LOOM_ROGUE_STATUS | LOOM_PROFILE | LOOM_PROBE
  | LOOM_PROBE_STATUS | LOOM_KEY_CMD | LOOM_KEY_STATUS | LOOM_KEY_DATA | LOOM_GEM | LOOM_PHASE
  | LOOM_GRANT_CNT | TIM_CFG | TIM_STATUS | TIM_NOW | TIM_ANCHOR | TIM_ANCHOR_CTRL
  | TIM_TXTS_STATUS | TIM_TXTS_HEAD | TIM_TXTS_POP | TIM_PPS_CFG | TIM_PPS_IN | TIM_ERR_CNT
  | TIM_PON_SFC | EVC_STATUS | EVC_MASK | EVC_PENDING | EVC_SEQ | EVC_RESCAN
  | EVC_SRC_CFG | EVC_COAL | EVC_ACTIVE | EVC_COMPLETE | HST_ERR_STATUS | HST_PCIE_STATUS
  | HST_RING_CFG | HST_RING_STATUS | TLY_CNT_ACC | TLY_CNT_DATA | TLY_FREEZE | TLY_SNAP_BASE
  | TLY_SNAP_RANGE | TLY_STATUS | TLY_SAMP_CFG | TLY_SAMP_CNT | TLY_TRACE_CFG | TLY_TRACE_CNT
  | TLY_ISAMP_CFG | TLY_ISAMP_HIST | TLY_SPEC_CNT | TLY_BW_CFG | TLY_BW_RX | EAS_BOOT_STATUS
  | EAS_OTP_STATUS | EAS_ALARM | EAS_MBOX_CMD | EAS_MBOX_STATUS | VRN_STATUS | EMV_CFG
  | EMV_CTRL | EMV_STATUS | EMV_ALARM | EMV_LANE_STATUS | EMV_MAP | EMV_MAP_CTRL
  | EMV_COMMIT_CTRL | EMV_COMMIT_STATUS | EAS_PWR_STATUS | EAS_PWR_TELEM | EAS_PWR_ALARM | EAS_PWR_CFG
  | EAS_PM_RAW | GLZ_TPL | GLZ_TPL_EXT | GLZ_HASH | GLZ_HASH_KEY | GLZ_HASH_EXT
  | TBL_DESC | STN_GMASK | PNC_SET | DMC_ERR_LOG | DMC_ERR_POP | LOOM_ALLOC
  | SKT_EL_ISSUED | SKT_EL_SQUASHED | SKT_EL_NOSLOT | TBL_AG_KEY | TBL_AG_MASK | TBL_AG_DATA
  | FLX_CAL | FLX_PROT | ETH_RAW | ETH_LATCHED | LOOM_SEP_CNT | TLY_BW_TX
  deriving DecidableEq, Repr

/-- What the map of one register says: absolute base in BAR0, the stride and count of each index (outermost first), width in bits,
the masks of its RW, RC, WO and W1C fields, the mask of the fields retained over a warm restart, and its reset value. -/
structure RegInfo where
  base : Nat
  dims : List (Nat × Nat)
  width : Nat
  rw : Nat
  rc : Nat
  wo : Nat
  w1c : Nat
  kept : Nat
  reset : Nat
  deriving DecidableEq, Repr

/-- The map of each register (R12, R17, R21, R53 and the register maps of the chapters). -/
def Reg.info : Reg → RegInfo
  | .EAS_DEVICE_ID => ⟨0, [], 32, 0, 0, 0, 0, 0, 0x1006448⟩
  | .EAS_SEAM_STATUS => ⟨0x40, [], 32, 0, 0, 0, 0x40000, 0, 0⟩
  | .EAS_PACE_CFG => ⟨0x100, [], 32, 0xf00, 0, 0, 0, 3, 0x100⟩
  | .EAS_PACE_STATUS => ⟨0x108, [], 32, 0, 0, 0, 0x4000, 0, 0⟩
  | .EAS_VCORE => ⟨0x110, [], 32, 0, 0, 0, 0, 0, 0x3200320⟩
  | .EAS_PACE_DEFICIT_CNT => ⟨0x118, [], 32, 0, 0xffffffff, 0, 0, 0, 0⟩
  | .ETH_OCTET_CFG => ⟨0x400000, [(4, 8)], 32, 1, 0, 0, 0, 1, 0⟩
  | .ETH_PORT_CFG => ⟨0x410000, [(0x100, 64)], 64, 0x7f7f033fff01ff, 0, 0, 0, 0, 0x32500005ee0000⟩
  | .ETH_PORT_STATUS => ⟨0x410010, [(0x100, 64)], 32, 0, 0, 0, 0x1c0, 0, 0⟩
  | .ETH_LINK_TIMING => ⟨0x400100, [], 32, 0xffffffff, 0, 0, 0, 0, 0x64000a⟩
  | .FLX_GRP_CFG => ⟨0x600000, [(0x100, 16)], 64, 0x3fff00fffff3, 0, 0, 0, 0, 0x3200000000⟩
  | .FLX_GRP_STATUS => ⟨0x600008, [(0x100, 16)], 32, 0, 0, 0, 0x60, 0, 0⟩
  | .FLX_INST_CFG => ⟨0x610000, [(0x40, 64)], 32, 0xffff1ff, 0, 0, 0, 0, 0⟩
  | .FLX_INST_STATUS => ⟨0x610008, [(0x40, 64)], 32, 0, 0, 0, 8, 0, 0⟩
  | .FLX_CLIENT_CFG => ⟨0x620000, [(0x10, 64)], 64, 0x3fffffff001f, 0, 0, 0, 0, 0x5ee00000000⟩
  | .ETH_SEC_STATUS => ⟨0x400208, [], 32, 0, 0, 0, 0, 0, 0x10000⟩
  | .SKT_BANK_STATUS => ⟨0x1000000, [], 32, 0, 0xffff0000, 0, 0xc, 0, 0⟩
  | .SKT_CTX_STATUS => ⟨0x1000010, [], 64, 0, 0, 0, 0, 0, 0⟩
  | .SKT_EXC_CNT => ⟨0x1000100, [(8, 8)], 64, 0, 0, 0, 0, 0, 0⟩
  | .SKT_PORT_PROFILE => ⟨0x1060000, [(0x400, 2), (4, 208)], 32, 0x3f, 0, 0, 0, 0x3f, 0⟩
  | .SKT_PROFILE => ⟨0x1080000, [(0x1000, 2), (0x40, 64)], 128, 0xffffffff003fff01033f0fff, 0, 0, 0, 0xffffffff003fff01033f0fff, 0⟩
  | .SKT_PROG => ⟨0x1100000, [(0x8000, 2), (8, 4096)], 64, 0xffffffffffffffff, 0, 0, 0, 0xffffffffffffffff, 0⟩
  | .GLZ_PORT_PIPE => ⟨0x1401000, [(4, 208)], 32, 3, 0, 0, 0, 3, 0⟩
  | .GLZ_EGR_PIPE => ⟨0x1402000, [(4, 512)], 32, 3, 0, 0, 0, 3, 0⟩
  | .GLZ_ACT => ⟨0x1600000, [(0x10000, 2), (8, 8192)], 64, 0xffffffffffffffff, 0, 0, 0, 0xffffffffffffffff, 0⟩
  | .GLZ_IGRP => ⟨0x1480000, [(8, 4096)], 64, 0x3fffff003fffff, 0, 0, 0, 0, 0⟩
  | .GLZ_POL => ⟨0x1500000, [(0x10, 65536)], 128, 0xffffff3fffffff, 0, 0, 0, 0, 0⟩
  | .GLZ_EPROF => ⟨0x1420000, [(0x100, 2), (4, 64)], 32, 0x1ff, 0, 0, 0, 0x1ff, 0⟩
  | .GLZ_REASON => ⟨0x1403000, [(8, 64)], 64, 0xffff3fffff3f, 0, 0, 0, 0, 0x100000000⟩
  | .GLZ_PUNT_AGG => ⟨0x1400048, [], 64, 0xffff003fffff, 0, 0, 0, 0, 0x1000003d0900⟩
  | .GLZ_MIRROR => ⟨0x1403400, [(8, 16)], 64, 0x3fff001fffff, 0, 0, 0, 0, 0⟩
  | .GLZ_FAULT_CFG => ⟨0x1400040, [], 32, 0x3f3f, 0, 0, 0, 0, 0⟩
  | .GLZ_COAT_CTRL => ⟨0x1400000, [], 32, 0, 0, 3, 0, 0, 0⟩
  | .GLZ_COAT_STATUS => ⟨0x1400008, [], 32, 0, 0, 0, 0x78, 0, 0⟩
  | .GLZ_COAT_AT => ⟨0x1400010, [], 64, 0xffffffffffffffff, 0, 0, 0, 0, 0⟩
  | .GLZ_COAT_ID => ⟨0x1400020, [(4, 2)], 32, 0xffff, 0, 0, 0, 0xffff, 0⟩
  | .GLZ_COAT_INFLIGHT => ⟨0x1400030, [(4, 2)], 32, 0, 0, 0, 0, 0, 0⟩
  | .STN_BANK_CFG => ⟨0x1805000, [(4, 128)], 32, 3, 0, 0, 0, 3, 0⟩
  | .STN_SCRUB_CFG => ⟨0x1806000, [], 32, 0xff, 0, 0, 0, 0, 0xa⟩
  | .STN_STATUS => ⟨0x1806008, [], 64, 0, 0xffffffffffff, 0, 0x300000000000000, 0, 0⟩
  | .TBL_AG_CMD => ⟨0x1810000, [(0x400, 8)], 64, 0x7ffffffffff3ffff, 0, 0, 0, 0, 0⟩
  | .TBL_AG_STATUS => ⟨0x1810008, [(0x400, 8)], 64, 0, 0, 0, 0x20, 0, 0⟩
  | .TBL_AG_META => ⟨0x1810010, [(0x400, 8)], 64, 0x3fffff7f, 0, 0, 0, 0, 0⟩
  | .TBL_LEARN_STATUS => ⟨0x1806018, [], 64, 0, 0xffffffffffffffff, 0, 0, 0, 0⟩
  | .TBL_ERR_STATUS => ⟨0x1806010, [], 32, 0, 0xffff0000, 0, 7, 0, 0⟩
  | .TBL_ERR_ADDR => ⟨0x1806014, [], 32, 0, 0, 0, 0, 0, 0⟩
  | .PNC_LOAD_ADDR => ⟨0x1c00100, [], 32, 0x3ffff, 0, 0, 0, 0, 0⟩
  | .PNC_LOAD_DATA => ⟨0x1c00110, [], 128, 0, 0, 0xffffffffffffffffffffffffffffffff, 0, 0, 0⟩
  | .PNC_RES => ⟨0x1d00000, [(0x10, 8192)], 128, 0xffffffffffffffffffffffffffffffff, 0, 0, 0, 0xffffffffffffffffffffffffffffffff, 0⟩
  | .PNC_LKEY => ⟨0x1d40000, [(0x10, 8192)], 128, 0xffffffffffffffffffff, 0, 0, 0, 0xffffffffffffffffffff, 0⟩
  | .PNC_LGMASK => ⟨0x1c00200, [(0x20, 8)], 192, 0xffffffffffffffffffffffffffffffffffffffff, 0, 0, 0, 0, 0xffffffffffffffffffffffffffffffffffffffff⟩
  | .PNC_BUDGET => ⟨0x1c00000, [], 32, 0xffff07ff, 0, 0, 0, 0, 0x400640⟩
  | .PNC_STATUS => ⟨0x1c00008, [], 64, 0, 0xffffffffffffff, 0, 0x700000000000000, 0, 0⟩
  | .PAL_POOL_CFG => ⟨0x2000000, [(0x40, 2)], 64, 0x1fff00000000, 0, 0, 0, 0, 0x80000000000⟩
  | .PAL_FREE_CNT => ⟨0x2000008, [(0x40, 2)], 32, 0, 0, 0, 0, 0, 0⟩
  | .PAL_POOL_STATUS => ⟨0x2000010, [(0x40, 2)], 64, 0, 0xfffe000000000000, 0, 0x8000000, 0, 0⟩
  | .PAL_CLASS_CFG => ⟨0x2000100, [(0x10, 8)], 64, 0x1fffffff1fffffff, 0, 0, 0, 0x1fffffff1fffffff, 0⟩
  | .PAL_CLASS_STATUS => ⟨0x2000108, [(0x10, 8)], 64, 0, 0xffffffff00000000, 0, 0, 0, 0⟩
  | .PAL_SHARE => ⟨0x2000300, [(8, 16)], 64, 0xfffff00ffffff, 0, 0, 0, 0, 0x400000400040⟩
  | .PAL_SPILL_CFG => ⟨0x2000400, [], 64, 0xffff0fffffff0001, 0, 0, 0, 0, 0x1010001400400001⟩
  | .PAL_RA_CNT => ⟨0x2000480, [(8, 6)], 64, 0, 0, 0, 0, 0, 0⟩
  | .PAL_OWNER_CFG => ⟨0x2000800, [(8, 64)], 64, 0x1ffff, 0, 0, 0, 0, 0x7530⟩
  | .PAL_ERR_STATUS => ⟨0x2000080, [], 64, 0, 0xffff0000, 0, 7, 0, 0⟩
  | .PAL_AUDIT_CTRL => ⟨0x2000600, [], 32, 0xffff0000, 0, 3, 0, 0, 0⟩
  | .PAL_AUDIT_STATUS => ⟨0x2000608, [], 64, 0, 0xffffffff00000000, 0, 2, 0, 0⟩
  | .PAL_AUDIT_FIFO => ⟨0x2000610, [], 64, 0, 0, 0, 0, 0, 0xffffffff⟩
  | .PAL_RETIRE_CFG => ⟨0x2000700, [], 32, 0xf, 0, 0, 0, 0, 2⟩
  | .PAL_SW_CMD => ⟨0x2000500, [], 64, 0xffffffff000003ff, 0, 0, 0, 0, 0⟩
  | .PAL_SW_RESULT => ⟨0x2000508, [], 64, 0, 0, 0, 0, 0, 0⟩
  | .SCH_STATUS => ⟨0x2400000, [], 32, 0, 0xffff0000, 0, 1, 0, 0⟩
  | .SCH_PORT_HOLD => ⟨0x2400008, [], 32, 0xfffff, 0, 0, 0, 0xfffff, 0x7d0⟩
  | .SCH_VOQ_CREDIT_CFG => ⟨0x2400010, [], 32, 0xffff, 0, 0, 0, 0xffff, 0x40⟩
  | .SCH_SAMPLE_CFG => ⟨0x2400018, [], 32, 0xffff, 0, 0, 0, 0, 0⟩
  | .SCH_ACC_CMD => ⟨0x2400100, [], 32, 0xfffff73, 0, 0, 0, 0, 0⟩
  | .SCH_ACC_STATUS => ⟨0x2400108, [], 32, 0, 0, 0, 0x10, 0, 0⟩
  | .SCH_ACC_DATA => ⟨0x2400140, [(8, 4)], 64, 0xffffffffffffffff, 0, 0, 0, 0, 0⟩
  | .SCH_VOQ_CLASS => ⟨0x2400200, [(8, 8)], 64, 0xffff0003, 0, 0, 0, 0xffff0003, 0⟩
  | .SCH_ADM => ⟨0x2400400, [(0x10, 64)], 128, 0xffffff00ffffff00ffffff00ffffff, 0, 0, 0, 0xffffff00ffffff00ffffff00ffffff, 0⟩
  | .SCH_PNODE_CFG => ⟨0x2410000, [(0x40, 512)], 32, 0x7fff0f, 0, 0, 0, 0x7fff0f, 0⟩
  | .SCH_PNODE_SHAPER => ⟨0x2410010, [(0x40, 512)], 128, 0xffffffffffffffffffffffffffffffff, 0, 0, 0, 0xffffffffffffffffffffffffffffffff, 0⟩
  | .SCH_PNODE_STATUS => ⟨0x2410020, [(0x40, 512)], 128, 0, 0, 0, 0, 0, 0⟩
  | .SCH_WATCH => ⟨0x2420000, [(4, 1024)], 32, 0x3fffff, 0, 0, 0, 0, 0⟩
  | .SCH_SAMPLE => ⟨0x2430000, [(0x20, 1024)], 256, 0, 0xffffffff000000000000000fffffffff0000000000000000, 0, 0, 0, 0⟩
  | .DMC_CFG => ⟨0x2800000, [], 32, 0, 0, 0, 0, 0x7f, 0⟩
  | .DMC_SCHED_CFG => ⟨0x2800010, [], 32, 0xffffff, 0, 0, 0, 0, 0x103014⟩
  | .DMC_RT_CFG => ⟨0x2800020, [], 64, 0xf, 0xffffffff00000000, 0, 0, 0, 4⟩
  | .DMC_REFRESH_CFG => ⟨0x2800030, [], 32, 0x1f03, 0, 0, 0, 0, 0xa01⟩
  | .DMC_ERR_CFG => ⟨0x2800038, [], 32, 0xff00ff, 0, 0, 0, 0, 0x400018⟩
  | .DMC_TEMP => ⟨0x2800040, [], 32, 0xff, 0, 0, 0x200, 0, 0x155⟩
  | .DMC_TRAIN_CFG => ⟨0x2800050, [], 32, 0x1f01, 0, 0, 0, 0, 0xa01⟩
  | .DMC_FREQ_CTRL => ⟨0x2800060, [], 32, 3, 0, 4, 0, 3, 0⟩
  | .DMC_FREQ_STATUS => ⟨0x2800068, [], 32, 0, 0xffff0000, 0, 0x18, 0x300, 0⟩
  | .DMC_PART => ⟨0x2800200, [(0x10, 6)], 128, 0, 0, 0, 0, 0xffffffffff000000ffffffffff, 0⟩
  | .DMC_CH_STATUS => ⟨0x2801000, [(0x100, 16)], 64, 0, 0xffffffffffff0000, 0, 0, 0xff00, 0⟩
  | .FAB_CFG => ⟨0x2c00000, [], 32, 0, 0, 0, 0, 0x7ff03, 0⟩
  | .FAB_LANE_EN => ⟨0x2c00010, [(8, 2)], 64, 0xffffffffffffffff, 0, 0, 0, 0xffffffffffffffff, 0⟩
  | .FAB_RSQ_CFG => ⟨0x2c00020, [], 32, 0x3ff, 0, 0, 0, 0x3ff, 0x14⟩
  | .FAB_RX_CFG => ⟨0x2c00028, [], 64, 0x1fffffffffffffff, 0, 0, 0, 0, 0x6000003e80064⟩
  | .FAB_CRED_CFG => ⟨0x2c00100, [(8, 8)], 32, 0x3ff, 0, 0, 0, 0x3ff, 0x40⟩
  | .FAB_ERR_CNT => ⟨0x2c00200, [(8, 8)], 64, 0, 0, 0, 0, 0, 0⟩
  | .FAB_PEER => ⟨0x2c00400, [(8, 32)], 64, 0xffffffffffffffff, 0, 0, 0, 0xffffffffffffffff, 0⟩
  | .FAB_LANE_STATUS => ⟨0x2c10000, [(0x40, 96)], 64, 0, 0xffff000000000000, 0, 0xc, 0, 0⟩
  | .FAB_DEST_STATUS => ⟨0x2c20000, [(8, 2048)], 64, 0, 0, 0, 0, 0, 0⟩
  | .FAB_STREAM_CNT => ⟨0x2d00000, [(0x100, 2048), (0x20, 8)], 256, 0, 0, 0, 0, 0, 0⟩
  | .LOOM_BUDGET => ⟨0x800000, [], 32, 0, 0, 0, 0, 0, 0⟩
  | .LOOM_PLOAM_CFG => ⟨0x800008, [], 32, 0x1f, 0, 0, 0, 0x1f, 0⟩
  | .LOOM_TREE_CFG => ⟨0x801000, [(0x100, 48)], 64, 0xffffffff0f3f3f3f, 0, 0, 0, 0xffffffff0f3f3f3f, 0⟩
  | .LOOM_TREE_TIMING => ⟨0x801008, [(0x100, 48)], 64, 0xffffffff3f03ff, 0, 0, 0, 0xffffffff3f03ff, 0x50006443040064⟩
  | .LOOM_TREE_STATUS => ⟨0x801010, [(0x100, 48)], 64, 0, 0, 0, 0x1c, 0, 0⟩
  | .LOOM_OPT_CFG => ⟨0x801018, [(0x100, 48)], 32, 0xffffff03, 0, 0, 0, 0xffffff07, 0x20140200⟩
  | .LOOM_ONU_CMD => ⟨0x801020, [(0x100, 48)], 32, 0xff, 0, 0x700, 0, 0, 0⟩
  | .LOOM_ONU_CMD_STATUS => ⟨0x801028, [(0x100, 48)], 32, 0, 0, 0, 0, 0, 0⟩
  | .LOOM_SNDIS => ⟨0x800800, [(0x10, 64)], 128, 0xffffffffffffffffff, 0, 0, 0, 0xffffffffffffffffff, 0⟩
  | .LOOM_ONU => ⟨0xc00000, [(0x2000, 48), (0x20, 256)], 256, 0x8ffffffffffffffff, 0, 0, 0, 0xffffffffffffffff0000000000000008ffffffffffffffff, 0⟩
  | .LOOM_ACT_CNT => ⟨0x810000, [(0x100, 48), (8, 12)], 64, 0, 0, 0, 0, 0, 0⟩
  | .LOOM_OMCI_CFG => ⟨0x800010, [], 32, 0x1f, 0, 0, 0, 0, 0⟩
  | .LOOM_DBA_CFG => ⟨0x801030, [(0x100, 48)], 128, 0x7ffffffffffffffff01ff, 0, 0, 0, 0x7ffffffffffffffff01ff, 0x340101020020807d00001⟩
  | .LOOM_ROGUE_STATUS => ⟨0x8010d0, [(0x100, 48)], 64, 0, 0xffffffff00000000, 0, 6, 0, 0⟩
  | .LOOM_PROFILE => ⟨0x801040, [(0x100, 48), (0x20, 4)], 192, 0xffffffffffffffffffffffffffffffff0000000000007f1f, 0, 0, 0, 0xffffffffffffffffffffffffffffffff0000000000007f1f, 0⟩
  | .LOOM_PROBE => ⟨0x8010c0, [(0x100, 48)], 32, 0xffff, 0, 0x10000, 0, 0, 0x1000⟩
  | .LOOM_PROBE_STATUS => ⟨0x8010c8, [(0x100, 48)], 64, 0, 0, 0, 0, 0, 0⟩
  | .LOOM_KEY_CMD => ⟨0x800400, [], 32, 0x1ffff8, 0, 7, 0, 0, 0⟩
  | .LOOM_KEY_STATUS => ⟨0x800408, [], 32, 0, 0, 0, 0, 0, 0⟩
  | .LOOM_KEY_DATA => ⟨0x800410, [], 128, 0, 0, 0xffffffffffffffffffffffffffffffff, 0, 0, 0⟩
  | .LOOM_GEM => ⟨0xa00000, [(0x20, 65536)], 256, 0xffffffff003fffffffffffff001fffffffffffff, 0, 0, 0, 0xffffffff003fffffffffffff001fffffffffffff, 0⟩
  | .LOOM_PHASE => ⟨0xc80000, [(0x800, 48), (8, 256)], 64, 0, 0, 0, 0, 0, 0xffffffff00000000⟩
  | .LOOM_GRANT_CNT => ⟨0x820000, [(0x100, 48), (8, 14)], 64, 0, 0, 0, 0, 0, 0⟩
  | .TIM_CFG => ⟨0x3000000, [], 32, 3, 0, 0, 0, 3, 0⟩
  | .TIM_STATUS => ⟨0x3000008, [], 32, 0, 0, 0, 0xe0, 5, 0⟩
  | .TIM_NOW => ⟨0x3000020, [], 192, 0, 0, 0, 0, 0, 0⟩
  | .TIM_ANCHOR => ⟨0x3000100, [(0x20, 2)], 192, 0xffffffffffffffffffffffffffffffffffffffffffffffff, 0, 0, 0, 0xffffffffffffffffffffffffffffffffffffffffffffffff, 0⟩
  | .TIM_ANCHOR_CTRL => ⟨0x3000180, [], 32, 0, 0, 3, 0, 0, 0⟩
  | .TIM_TXTS_STATUS => ⟨0x3000200, [], 64, 0, 0xffffffff00000000, 0, 0x10000, 0, 0⟩
  | .TIM_TXTS_HEAD => ⟨0x3000210, [], 128, 0, 0, 0, 0, 0, 0⟩
  | .TIM_TXTS_POP => ⟨0x3000220, [], 32, 0, 0, 1, 0, 0, 0⟩
  | .TIM_PPS_CFG => ⟨0x3000300, [], 64, 0xffffffff0000ff03, 0, 0, 0, 0xffffffff0000ff03, 0x6400⟩
  | .TIM_PPS_IN => ⟨0x3000310, [], 128, 0, 0, 0, 0x200000000000000000000, 0, 0⟩
  | .TIM_ERR_CNT => ⟨0x3000400, [(8, 5)], 64, 0, 0, 0, 0, 0, 0⟩
  | .TIM_PON_SFC => ⟨0x3001000, [(0x10, 48)], 128, 0, 0, 0, 0, 0, 0⟩
  | .EVC_STATUS => ⟨0x100000, [], 32, 0, 0, 0, 1, 0, 0⟩
  | .EVC_MASK => ⟨0x100100, [(4, 8)], 32, 0xffffffff, 0, 0, 0, 0xffffffff, 0xffffffff⟩
  | .EVC_PENDING => ⟨0x100200, [(4, 8)], 32, 0xffffffff, 0, 0, 0, 0, 0⟩
  | .EVC_SEQ => ⟨0x100300, [(4, 8)], 32, 0, 0, 0, 0, 0, 0⟩
  | .EVC_RESCAN => ⟨0x100400, [], 32, 0, 0, 0xff, 0, 0, 0⟩
  | .EVC_SRC_CFG => ⟨0x101000, [(4, 256)], 32, 0xff, 0, 0, 0, 0xff, 0x40⟩
  | .EVC_COAL => ⟨0x102000, [(8, 64)], 32, 0xffff00ff, 0, 0, 0, 0xffff00ff, 1⟩
  | .EVC_ACTIVE => ⟨0x103000, [(0x10, 64)], 32, 0, 0, 0, 0, 0, 0⟩
  | .EVC_COMPLETE => ⟨0x103008, [(0x10, 64)], 32, 0, 0, 0xff, 0, 0, 0⟩
  | .HST_ERR_STATUS => ⟨0x200000, [], 32, 0, 0, 0, 0xf, 0, 0⟩
  | .HST_PCIE_STATUS => ⟨0x200010, [], 32, 0, 0, 0, 0, 0, 0⟩
  | .HST_RING_CFG => ⟨0x201000, [(0x40, 67)], 128, 0x1ffffff010fffffffffffffffff, 0, 0, 0, 0x1ffffff000fffffffffffffffff, 0xa080000060000000000000000⟩
  | .HST_RING_STATUS => ⟨0x201010, [(0x40, 67)], 64, 0, 0, 0, 0, 0, 0⟩
  | .TLY_CNT_ACC => ⟨0x3400000, [], 64, 0x1ffffff3, 0, 0, 0, 0, 0⟩
  | .TLY_CNT_DATA => ⟨0x3400010, [], 128, 0, 0, 0, 0, 0, 0⟩
  | .TLY_FREEZE => ⟨0x3400100, [], 32, 0, 0, 3, 0x10, 0, 0⟩
  | .TLY_SNAP_BASE => ⟨0x3400108, [], 64, 0xffffffffffffffff, 0, 0, 0, 0, 0⟩
  | .TLY_SNAP_RANGE => ⟨0x3400110, [], 64, 0x1ffffff01ffffff, 0, 0, 0, 0, 0⟩
  | .TLY_STATUS => ⟨0x3400200, [], 64, 0, 0xffffffff0000ffff, 0, 0x30000, 0, 0⟩
  | .TLY_SAMP_CFG => ⟨0x3401000, [(0x20, 32)], 64, 0xffff00ff, 0xff00000000, 0, 0x100, 0, 0xffff0000⟩
  | .TLY_SAMP_CNT => ⟨0x3401010, [(0x20, 32)], 128, 0xffffffffffffffff, 0, 0, 0, 0, 0⟩
  | .TLY_TRACE_CFG => ⟨0x3402000, [], 64, 0xffffffff00ff1f03, 0, 0, 0, 0, 0x1000⟩
  | .TLY_TRACE_CNT => ⟨0x3402010, [(8, 4)], 64, 0, 0, 0, 0, 0, 0⟩
  | .TLY_ISAMP_CFG => ⟨0x3403000, [], 32, 0x1f01, 0, 2, 0, 0, 0x1000⟩
  | .TLY_ISAMP_HIST => ⟨0x3410000, [(0x4000, 2), (4, 4096)], 32, 0, 0, 0, 0, 0, 0⟩
  | .TLY_SPEC_CNT => ⟨0x3404000, [(8, 5)], 64, 0, 0, 0, 0, 0, 0⟩
  | .TLY_BW_CFG => ⟨0x3405000, [], 32, 0x3ff, 0, 0, 0, 0, 0x3e8⟩
  | .TLY_BW_RX => ⟨0x3406000, [(0x10, 208)], 128, 0, 0xffffffffffffffff0000000000000000, 0, 0, 0, 0⟩
  | .EAS_BOOT_STATUS => ⟨0x180, [], 64, 0, 0, 0, 0x180, 0, 0⟩
  | .EAS_OTP_STATUS => ⟨0x188, [], 32, 0, 0, 0, 0, 0, 0⟩
  | .EAS_ALARM => ⟨0x190, [], 32, 0, 0, 0, 0x7f, 0, 0⟩
  | .EAS_MBOX_CMD => ⟨0x200, [], 128, 0xffffffff0001ffffffff03ff, 0, 0, 0, 0, 0⟩
  | .EAS_MBOX_STATUS => ⟨0x210, [], 32, 0, 0, 0, 0, 0, 0⟩
  | .VRN_STATUS => ⟨0x3800000, [], 32, 0, 0, 0, 6, 0, 0⟩
  | .EMV_CFG => ⟨0x3200000, [], 32, 0x1f00000, 0, 0, 0, 0x1fff707, 0⟩
  | .EMV_CTRL => ⟨0x3200008, [], 32, 0, 0, 1, 0, 0, 0⟩
  | .EMV_STATUS => ⟨0x3200010, [], 64, 0, 0, 0, 0, 0, 3⟩
  | .EMV_ALARM => ⟨0x3200018, [], 32, 0, 0, 0, 0xff, 0, 0⟩
  | .EMV_LANE_STATUS => ⟨0x3200100, [(0x10, 18)], 64, 0, 0, 0, 2, 0, 0xffffffff00000000⟩
  | .EMV_MAP => ⟨0x3201000, [(8, 32)], 64, 0, 0, 0, 0, 0xffffffffffffffff, 0⟩
  | .EMV_MAP_CTRL => ⟨0x3201200, [], 32, 0x7ff, 0, 0x800, 0, 0, 0⟩
  | .EMV_COMMIT_CTRL => ⟨0x3202000, [], 128, 0xffffffffffffffff000000000000ffff, 0, 0x10000, 0, 0, 0⟩
  | .EMV_COMMIT_STATUS => ⟨0x3202010, [], 128, 0, 0, 0, 0, 0, 0⟩
  | .EAS_PWR_STATUS => ⟨0x400, [], 32, 0, 0, 0, 0, 0, 8⟩
  | .EAS_PWR_TELEM => ⟨0x408, [], 128, 0, 0, 0, 0, 0, 0⟩
  | .EAS_PWR_ALARM => ⟨0x420, [], 32, 0, 0, 0, 0x7f, 0, 0⟩
  | .EAS_PWR_CFG => ⟨0x418, [], 32, 0xff03ff, 0, 0, 0, 0xff03ff, 0x6e003c⟩
  | .EAS_PM_RAW => ⟨0x500, [(4, 16)], 32, 0, 0, 0, 0, 0xffff0000, 0⟩
  | .GLZ_TPL => ⟨0x1440000, [(0x4000, 2), (0x40, 256)], 64, 0x1fff1fffffffff07, 0, 0, 0, 0x1fff1fffffffff07, 0⟩
  | .GLZ_TPL_EXT => ⟨0x1440020, [(0x4000, 2), (0x40, 256), (4, 8)], 32, 0x1ffffff, 0, 0, 0, 0x1ffffff, 0⟩
  | .GLZ_HASH => ⟨0x1410000, [(0x1000, 2), (0x80, 16)], 128, 0xffffffffffffffff0000000000000003, 0, 0, 0, 0xffffffffffffffff0000000000000003, 0⟩
  | .GLZ_HASH_KEY => ⟨0x1410010, [(0x1000, 2), (0x80, 16)], 320, 0xffffffffffffffffffffffffffffffffffffffffffffffffffffffffffffffffffffffffffffffff, 0, 0, 0, 0xffffffffffffffffffffffffffffffffffffffffffffffffffffffffffffffffffffffffffffffff, 0⟩
  | .GLZ_HASH_EXT => ⟨0x1410040, [(0x1000, 2), (0x80, 16), (4, 8)], 32, 0x1ffffff, 0, 0, 0, 0x1ffffff, 0⟩
  | .TBL_DESC => ⟨0x1800000, [(0x2000, 2), (0x20, 256)], 192, 0xffffffffffffffff0000000000ff03ff7fff7fffffffff1f, 0, 0, 0, 0xffffffffffffffff0000000000ff03ff7fff7fffffffff1f, 0⟩
  | .STN_GMASK => ⟨0x1804000, [(0x40, 64)], 320, 0xffffffffffffffffffffffffffffffffffffffffffffffffffffffffffffffffffffffffffffffff, 0, 0, 0, 0, 0xffffffffffffffffffffffffffffffffffffffffffffffffffffffffffffffffffffffffffffffff⟩
  | .PNC_SET => ⟨0x1c01000, [(0x400, 2), (0x10, 64)], 128, 0x7ffff0003ffff00003fff001fff3f, 0, 0, 0, 0x7ffff0003ffff00003fff001fff3f, 0⟩
  | .DMC_ERR_LOG => ⟨0x2800100, [], 64, 0, 0, 0, 0, 0, 0⟩
  | .DMC_ERR_POP => ⟨0x2800108, [], 32, 0, 0, 1, 0, 0, 0⟩
  | .LOOM_ALLOC => ⟨0x900000, [(0x20, 32768)], 256, 0xffffff3fffffff3fffffff3fffffff3fffffff3fffffff0000ffff7fffff7f, 0, 0, 0, 0xffffff3fffffff3fffffff3fffffff3fffffff3fffffff0000ffff7fffff7f, 0x100000000⟩
  | .SKT_EL_ISSUED => ⟨0x1000020, [], 64, 0, 0, 0, 0, 0, 0⟩
  | .SKT_EL_SQUASHED => ⟨0x1000028, [], 64, 0, 0, 0, 0, 0, 0⟩
  | .SKT_EL_NOSLOT => ⟨0x1000030, [], 64, 0, 0, 0, 0, 0, 0⟩
  | .TBL_AG_KEY => ⟨0x1810040, [(0x400, 8)], 320, 0xffffffffffffffffffffffffffffffffffffffffffffffffffffffffffffffffffffffffffffffff, 0, 0, 0, 0, 0⟩
  | .TBL_AG_MASK => ⟨0x1810080, [(0x400, 8)], 320, 0xffffffffffffffffffffffffffffffffffffffffffffffffffffffffffffffffffffffffffffffff, 0, 0, 0, 0, 0⟩
  | .TBL_AG_DATA => ⟨0x1810100, [(0x400, 8), (8, 32)], 64, 0xffffffffffffffff, 0, 0, 0, 0, 0⟩
  | .FLX_CAL => ⟨0x630000, [(0x2000, 16), (0x800, 2), (4, 320)], 32, 0xffff, 0, 0, 0, 0, 0⟩
  | .FLX_PROT => ⟨0x660000, [(0x5000, 16), (0x500, 16), (4, 320)], 32, 0xffff, 0, 0, 0, 0, 0⟩
  | .ETH_RAW => ⟨0x500000, [(0x80, 192), (8, 16)], 64, 0, 0, 0, 0, 0, 0⟩
  | .ETH_LATCHED => ⟨0x580000, [(0x80, 192), (8, 16)], 64, 0, 0, 0, 0, 0, 0⟩
  | .LOOM_SEP_CNT => ⟨0x830000, [(0x100, 48), (8, 10)], 64, 0, 0, 0, 0, 0, 0⟩
  | .TLY_BW_TX => ⟨0x3600000, [(0x10, 512)], 128, 0, 0xffffffffffffffff0000000000000000, 0, 0, 0, 0⟩

/-- The registers, in the order of their declaration: part 1. -/
def Reg.part1 : List Reg := [.EAS_DEVICE_ID, .EAS_SEAM_STATUS, .EAS_PACE_CFG, .EAS_PACE_STATUS, .EAS_VCORE, .EAS_PACE_DEFICIT_CNT, .ETH_OCTET_CFG, .ETH_PORT_CFG, .ETH_PORT_STATUS, .ETH_LINK_TIMING, .FLX_GRP_CFG, .FLX_GRP_STATUS, .FLX_INST_CFG, .FLX_INST_STATUS, .FLX_CLIENT_CFG, .ETH_SEC_STATUS, .SKT_BANK_STATUS, .SKT_CTX_STATUS, .SKT_EXC_CNT, .SKT_PORT_PROFILE, .SKT_PROFILE, .SKT_PROG, .GLZ_PORT_PIPE, .GLZ_EGR_PIPE]

/-- The registers, in the order of their declaration: part 2. -/
def Reg.part2 : List Reg := [.GLZ_ACT, .GLZ_IGRP, .GLZ_POL, .GLZ_EPROF, .GLZ_REASON, .GLZ_PUNT_AGG, .GLZ_MIRROR, .GLZ_FAULT_CFG, .GLZ_COAT_CTRL, .GLZ_COAT_STATUS, .GLZ_COAT_AT, .GLZ_COAT_ID, .GLZ_COAT_INFLIGHT, .STN_BANK_CFG, .STN_SCRUB_CFG, .STN_STATUS, .TBL_AG_CMD, .TBL_AG_STATUS, .TBL_AG_META, .TBL_LEARN_STATUS, .TBL_ERR_STATUS, .TBL_ERR_ADDR, .PNC_LOAD_ADDR, .PNC_LOAD_DATA]

/-- The registers, in the order of their declaration: part 3. -/
def Reg.part3 : List Reg := [.PNC_RES, .PNC_LKEY, .PNC_LGMASK, .PNC_BUDGET, .PNC_STATUS, .PAL_POOL_CFG, .PAL_FREE_CNT, .PAL_POOL_STATUS, .PAL_CLASS_CFG, .PAL_CLASS_STATUS, .PAL_SHARE, .PAL_SPILL_CFG, .PAL_RA_CNT, .PAL_OWNER_CFG, .PAL_ERR_STATUS, .PAL_AUDIT_CTRL, .PAL_AUDIT_STATUS, .PAL_AUDIT_FIFO, .PAL_RETIRE_CFG, .PAL_SW_CMD, .PAL_SW_RESULT, .SCH_STATUS, .SCH_PORT_HOLD, .SCH_VOQ_CREDIT_CFG]

/-- The registers, in the order of their declaration: part 4. -/
def Reg.part4 : List Reg := [.SCH_SAMPLE_CFG, .SCH_ACC_CMD, .SCH_ACC_STATUS, .SCH_ACC_DATA, .SCH_VOQ_CLASS, .SCH_ADM, .SCH_PNODE_CFG, .SCH_PNODE_SHAPER, .SCH_PNODE_STATUS, .SCH_WATCH, .SCH_SAMPLE, .DMC_CFG, .DMC_SCHED_CFG, .DMC_RT_CFG, .DMC_REFRESH_CFG, .DMC_ERR_CFG, .DMC_TEMP, .DMC_TRAIN_CFG, .DMC_FREQ_CTRL, .DMC_FREQ_STATUS, .DMC_PART, .DMC_CH_STATUS, .FAB_CFG, .FAB_LANE_EN]

/-- The registers, in the order of their declaration: part 5. -/
def Reg.part5 : List Reg := [.FAB_RSQ_CFG, .FAB_RX_CFG, .FAB_CRED_CFG, .FAB_ERR_CNT, .FAB_PEER, .FAB_LANE_STATUS, .FAB_DEST_STATUS, .FAB_STREAM_CNT, .LOOM_BUDGET, .LOOM_PLOAM_CFG, .LOOM_TREE_CFG, .LOOM_TREE_TIMING, .LOOM_TREE_STATUS, .LOOM_OPT_CFG, .LOOM_ONU_CMD, .LOOM_ONU_CMD_STATUS, .LOOM_SNDIS, .LOOM_ONU, .LOOM_ACT_CNT, .LOOM_OMCI_CFG, .LOOM_DBA_CFG, .LOOM_ROGUE_STATUS, .LOOM_PROFILE, .LOOM_PROBE]

/-- The registers, in the order of their declaration: part 6. -/
def Reg.part6 : List Reg := [.LOOM_PROBE_STATUS, .LOOM_KEY_CMD, .LOOM_KEY_STATUS, .LOOM_KEY_DATA, .LOOM_GEM, .LOOM_PHASE, .LOOM_GRANT_CNT, .TIM_CFG, .TIM_STATUS, .TIM_NOW, .TIM_ANCHOR, .TIM_ANCHOR_CTRL, .TIM_TXTS_STATUS, .TIM_TXTS_HEAD, .TIM_TXTS_POP, .TIM_PPS_CFG, .TIM_PPS_IN, .TIM_ERR_CNT, .TIM_PON_SFC, .EVC_STATUS, .EVC_MASK, .EVC_PENDING, .EVC_SEQ, .EVC_RESCAN]

/-- The registers, in the order of their declaration: part 7. -/
def Reg.part7 : List Reg := [.EVC_SRC_CFG, .EVC_COAL, .EVC_ACTIVE, .EVC_COMPLETE, .HST_ERR_STATUS, .HST_PCIE_STATUS, .HST_RING_CFG, .HST_RING_STATUS, .TLY_CNT_ACC, .TLY_CNT_DATA, .TLY_FREEZE, .TLY_SNAP_BASE, .TLY_SNAP_RANGE, .TLY_STATUS, .TLY_SAMP_CFG, .TLY_SAMP_CNT, .TLY_TRACE_CFG, .TLY_TRACE_CNT, .TLY_ISAMP_CFG, .TLY_ISAMP_HIST, .TLY_SPEC_CNT, .TLY_BW_CFG, .TLY_BW_RX, .EAS_BOOT_STATUS]

/-- The registers, in the order of their declaration: part 8. -/
def Reg.part8 : List Reg := [.EAS_OTP_STATUS, .EAS_ALARM, .EAS_MBOX_CMD, .EAS_MBOX_STATUS, .VRN_STATUS, .EMV_CFG, .EMV_CTRL, .EMV_STATUS, .EMV_ALARM, .EMV_LANE_STATUS, .EMV_MAP, .EMV_MAP_CTRL, .EMV_COMMIT_CTRL, .EMV_COMMIT_STATUS, .EAS_PWR_STATUS, .EAS_PWR_TELEM, .EAS_PWR_ALARM, .EAS_PWR_CFG, .EAS_PM_RAW, .GLZ_TPL, .GLZ_TPL_EXT, .GLZ_HASH, .GLZ_HASH_KEY, .GLZ_HASH_EXT]

/-- The registers, in the order of their declaration: part 9. -/
def Reg.part9 : List Reg := [.TBL_DESC, .STN_GMASK, .PNC_SET, .DMC_ERR_LOG, .DMC_ERR_POP, .LOOM_ALLOC, .SKT_EL_ISSUED, .SKT_EL_SQUASHED, .SKT_EL_NOSLOT, .TBL_AG_KEY, .TBL_AG_MASK, .TBL_AG_DATA, .FLX_CAL, .FLX_PROT, .ETH_RAW, .ETH_LATCHED, .LOOM_SEP_CNT, .TLY_BW_TX]

/-- The registers, in the order of their declaration. -/
def Reg.all : List Reg :=
  Reg.part1 ++ (Reg.part2 ++ (Reg.part3 ++ (Reg.part4 ++ (Reg.part5 ++ (Reg.part6 ++ (Reg.part7 ++ (Reg.part8 ++ (Reg.part9))))))))

/-- A named field of a register: where its least significant bit stands and how many bits it has. -/
structure Fld where
  reg : Reg
  lo : Nat
  len : Nat
  deriving DecidableEq, Repr

namespace F

def EAS_DEVICE_ID.PART : Fld := ⟨.EAS_DEVICE_ID, 0, 16⟩
def EAS_DEVICE_ID.GRADE : Fld := ⟨.EAS_DEVICE_ID, 16, 2⟩
def EAS_DEVICE_ID.STEP_MINOR : Fld := ⟨.EAS_DEVICE_ID, 24, 4⟩
def EAS_DEVICE_ID.STEP_MAJOR : Fld := ⟨.EAS_DEVICE_ID, 28, 4⟩
def EAS_SEAM_STATUS.SPARE_USED_FWD : Fld := ⟨.EAS_SEAM_STATUS, 0, 6⟩
def EAS_SEAM_STATUS.SPARE_USED_TRF : Fld := ⟨.EAS_SEAM_STATUS, 8, 6⟩
def EAS_SEAM_STATUS.UP : Fld := ⟨.EAS_SEAM_STATUS, 16, 1⟩
def EAS_SEAM_STATUS.FAULT : Fld := ⟨.EAS_SEAM_STATUS, 17, 1⟩
def EAS_SEAM_STATUS.DEGRADED : Fld := ⟨.EAS_SEAM_STATUS, 18, 1⟩
def EAS_PACE_CFG.CLASS : Fld := ⟨.EAS_PACE_CFG, 0, 2⟩
def EAS_PACE_CFG.EXIT_HOLD : Fld := ⟨.EAS_PACE_CFG, 8, 4⟩
def EAS_PACE_STATUS.PACE : Fld := ⟨.EAS_PACE_STATUS, 0, 11⟩
def EAS_PACE_STATUS.SHED_LEVEL : Fld := ⟨.EAS_PACE_STATUS, 11, 2⟩
def EAS_PACE_STATUS.AT_CEILING : Fld := ⟨.EAS_PACE_STATUS, 13, 1⟩
def EAS_PACE_STATUS.DEFICIT : Fld := ⟨.EAS_PACE_STATUS, 14, 1⟩
def EAS_PACE_STATUS.SLOWEST : Fld := ⟨.EAS_PACE_STATUS, 16, 4⟩
def EAS_VCORE.VCORE_F : Fld := ⟨.EAS_VCORE, 0, 10⟩
def EAS_VCORE.VCORE_T : Fld := ⟨.EAS_VCORE, 16, 10⟩
def EAS_PACE_DEFICIT_CNT.COUNT : Fld := ⟨.EAS_PACE_DEFICIT_CNT, 0, 32⟩
def ETH_OCTET_CFG.MODE : Fld := ⟨.ETH_OCTET_CFG, 0, 1⟩
def ETH_OCTET_CFG.LOCKED : Fld := ⟨.ETH_OCTET_CFG, 1, 1⟩
def ETH_PORT_CFG.EN : Fld := ⟨.ETH_PORT_CFG, 0, 1⟩
def ETH_PORT_CFG.SPEED : Fld := ⟨.ETH_PORT_CFG, 1, 3⟩
def ETH_PORT_CFG.LANE_RATE : Fld := ⟨.ETH_PORT_CFG, 4, 2⟩
def ETH_PORT_CFG.FEC : Fld := ⟨.ETH_PORT_CFG, 6, 2⟩
def ETH_PORT_CFG.FLEXE_PHY : Fld := ⟨.ETH_PORT_CFG, 8, 1⟩
def ETH_PORT_CFG.MAX_FRAME : Fld := ⟨.ETH_PORT_CFG, 16, 14⟩
def ETH_PORT_CFG.PAUSE_TX : Fld := ⟨.ETH_PORT_CFG, 32, 1⟩
def ETH_PORT_CFG.PAUSE_RX : Fld := ⟨.ETH_PORT_CFG, 33, 1⟩
def ETH_PORT_CFG.XOFF : Fld := ⟨.ETH_PORT_CFG, 40, 7⟩
def ETH_PORT_CFG.XON : Fld := ⟨.ETH_PORT_CFG, 48, 7⟩
def ETH_PORT_STATUS.LINK : Fld := ⟨.ETH_PORT_STATUS, 0, 1⟩
def ETH_PORT_STATUS.BLOCK_LOCK : Fld := ⟨.ETH_PORT_STATUS, 1, 1⟩
def ETH_PORT_STATUS.AM_LOCK : Fld := ⟨.ETH_PORT_STATUS, 2, 1⟩
def ETH_PORT_STATUS.LF_RX : Fld := ⟨.ETH_PORT_STATUS, 3, 1⟩
def ETH_PORT_STATUS.RF_RX : Fld := ⟨.ETH_PORT_STATUS, 4, 1⟩
def ETH_PORT_STATUS.HI_BER : Fld := ⟨.ETH_PORT_STATUS, 5, 1⟩
def ETH_PORT_STATUS.CFG_ERR : Fld := ⟨.ETH_PORT_STATUS, 6, 1⟩
def ETH_PORT_STATUS.LINK_CHG : Fld := ⟨.ETH_PORT_STATUS, 7, 1⟩
def ETH_PORT_STATUS.FIFO_DROP : Fld := ⟨.ETH_PORT_STATUS, 8, 1⟩
def ETH_LINK_TIMING.DN_DEBOUNCE : Fld := ⟨.ETH_LINK_TIMING, 0, 16⟩
def ETH_LINK_TIMING.UP_HOLD : Fld := ⟨.ETH_LINK_TIMING, 16, 16⟩
def FLX_GRP_CFG.EN : Fld := ⟨.FLX_GRP_CFG, 0, 1⟩
def FLX_GRP_CFG.PROT_EN : Fld := ⟨.FLX_GRP_CFG, 1, 1⟩
def FLX_GRP_CFG.GROUP_NUM : Fld := ⟨.FLX_GRP_CFG, 4, 20⟩
def FLX_GRP_CFG.HOLDOFF : Fld := ⟨.FLX_GRP_CFG, 32, 14⟩
def FLX_GRP_STATUS.TX_PAGE : Fld := ⟨.FLX_GRP_STATUS, 0, 1⟩
def FLX_GRP_STATUS.RX_PAGE : Fld := ⟨.FLX_GRP_STATUS, 1, 1⟩
def FLX_GRP_STATUS.CR_TX : Fld := ⟨.FLX_GRP_STATUS, 2, 1⟩
def FLX_GRP_STATUS.CA_RX : Fld := ⟨.FLX_GRP_STATUS, 3, 1⟩
def FLX_GRP_STATUS.PROT_ACTIVE : Fld := ⟨.FLX_GRP_STATUS, 4, 1⟩
def FLX_GRP_STATUS.PROT_DONE : Fld := ⟨.FLX_GRP_STATUS, 5, 1⟩
def FLX_GRP_STATUS.PROT_FAIL : Fld := ⟨.FLX_GRP_STATUS, 6, 1⟩
def FLX_GRP_STATUS.FAILED_POS : Fld := ⟨.FLX_GRP_STATUS, 8, 4⟩
def FLX_INST_CFG.EN : Fld := ⟨.FLX_INST_CFG, 0, 1⟩
def FLX_INST_CFG.PORT : Fld := ⟨.FLX_INST_CFG, 1, 6⟩
def FLX_INST_CFG.SUB : Fld := ⟨.FLX_INST_CFG, 7, 2⟩
def FLX_INST_CFG.GROUP : Fld := ⟨.FLX_INST_CFG, 12, 4⟩
def FLX_INST_CFG.POS : Fld := ⟨.FLX_INST_CFG, 16, 4⟩
def FLX_INST_CFG.INST_NUM : Fld := ⟨.FLX_INST_CFG, 20, 8⟩
def FLX_INST_STATUS.OH_LOCK : Fld := ⟨.FLX_INST_STATUS, 0, 1⟩
def FLX_INST_STATUS.MF_LOCK : Fld := ⟨.FLX_INST_STATUS, 1, 1⟩
def FLX_INST_STATUS.RPF_RX : Fld := ⟨.FLX_INST_STATUS, 2, 1⟩
def FLX_INST_STATUS.LOCK_LOSS : Fld := ⟨.FLX_INST_STATUS, 3, 1⟩
def FLX_INST_STATUS.GID_MISMATCH : Fld := ⟨.FLX_INST_STATUS, 4, 1⟩
def FLX_INST_STATUS.MISS_CNT : Fld := ⟨.FLX_INST_STATUS, 8, 3⟩
def FLX_CLIENT_CFG.EN : Fld := ⟨.FLX_CLIENT_CFG, 0, 1⟩
def FLX_CLIENT_CFG.GROUP : Fld := ⟨.FLX_CLIENT_CFG, 1, 4⟩
def FLX_CLIENT_CFG.CLIENT_ID : Fld := ⟨.FLX_CLIENT_CFG, 16, 16⟩
def FLX_CLIENT_CFG.MAX_FRAME : Fld := ⟨.FLX_CLIENT_CFG, 32, 14⟩
def ETH_SEC_STATUS.SEQ : Fld := ⟨.ETH_SEC_STATUS, 0, 16⟩
def ETH_SEC_STATUS.NO_TIME : Fld := ⟨.ETH_SEC_STATUS, 16, 1⟩
def SKT_BANK_STATUS.ACTIVE : Fld := ⟨.SKT_BANK_STATUS, 0, 1⟩
def SKT_BANK_STATUS.RETIRING : Fld := ⟨.SKT_BANK_STATUS, 1, 1⟩
def SKT_BANK_STATUS.ACTIVE_WR : Fld := ⟨.SKT_BANK_STATUS, 2, 1⟩
def SKT_BANK_STATUS.ECC_UE : Fld := ⟨.SKT_BANK_STATUS, 3, 1⟩
def SKT_BANK_STATUS.ECC_CE_CNT : Fld := ⟨.SKT_BANK_STATUS, 16, 16⟩
def SKT_CTX_STATUS.BUSY_Q0 : Fld := ⟨.SKT_CTX_STATUS, 0, 11⟩
def SKT_CTX_STATUS.BUSY_Q1 : Fld := ⟨.SKT_CTX_STATUS, 16, 11⟩
def SKT_CTX_STATUS.BUSY_Q2 : Fld := ⟨.SKT_CTX_STATUS, 32, 11⟩
def SKT_CTX_STATUS.BUSY_Q3 : Fld := ⟨.SKT_CTX_STATUS, 48, 11⟩
def SKT_EXC_CNT.COUNT : Fld := ⟨.SKT_EXC_CNT, 0, 64⟩
def SKT_PORT_PROFILE.PROFILE : Fld := ⟨.SKT_PORT_PROFILE, 0, 6⟩
def SKT_PROFILE.START_PC : Fld := ⟨.SKT_PROFILE, 0, 12⟩
def SKT_PROFILE.RECIRC_PROFILE : Fld := ⟨.SKT_PROFILE, 16, 6⟩
def SKT_PROFILE.SHORT_ACT : Fld := ⟨.SKT_PROFILE, 24, 1⟩
def SKT_PROFILE.LEN_ACT : Fld := ⟨.SKT_PROFILE, 25, 1⟩
def SKT_PROFILE.EL_EN : Fld := ⟨.SKT_PROFILE, 32, 1⟩
def SKT_PROFILE.EL_TPL : Fld := ⟨.SKT_PROFILE, 40, 8⟩
def SKT_PROFILE.EL_GUARD_OFF : Fld := ⟨.SKT_PROFILE, 48, 6⟩
def SKT_PROFILE.EL_GUARD_VAL : Fld := ⟨.SKT_PROFILE, 64, 16⟩
def SKT_PROFILE.EL_GUARD_MASK : Fld := ⟨.SKT_PROFILE, 80, 16⟩
def SKT_PROG.INSN : Fld := ⟨.SKT_PROG, 0, 64⟩
def GLZ_PORT_PIPE.PIPE : Fld := ⟨.GLZ_PORT_PIPE, 0, 2⟩
def GLZ_EGR_PIPE.PIPE : Fld := ⟨.GLZ_EGR_PIPE, 0, 2⟩
def GLZ_ACT.INSN : Fld := ⟨.GLZ_ACT, 0, 64⟩
def GLZ_IGRP.BASE : Fld := ⟨.GLZ_IGRP, 0, 22⟩
def GLZ_IGRP.SIZE : Fld := ⟨.GLZ_IGRP, 32, 17⟩
def GLZ_IGRP.ROT : Fld := ⟨.GLZ_IGRP, 49, 5⟩
def GLZ_POL.RATE : Fld := ⟨.GLZ_POL, 0, 30⟩
def GLZ_POL.BURST : Fld := ⟨.GLZ_POL, 32, 24⟩
def GLZ_POL.LEVEL : Fld := ⟨.GLZ_POL, 64, 32⟩
def GLZ_EPROF.TPL : Fld := ⟨.GLZ_EPROF, 0, 8⟩
def GLZ_EPROF.ADJ_EN : Fld := ⟨.GLZ_EPROF, 8, 1⟩
def GLZ_REASON.RING : Fld := ⟨.GLZ_REASON, 0, 5⟩
def GLZ_REASON.EN : Fld := ⟨.GLZ_REASON, 5, 1⟩
def GLZ_REASON.RATE : Fld := ⟨.GLZ_REASON, 8, 22⟩
def GLZ_REASON.BURST : Fld := ⟨.GLZ_REASON, 32, 16⟩
def GLZ_PUNT_AGG.RATE : Fld := ⟨.GLZ_PUNT_AGG, 0, 22⟩
def GLZ_PUNT_AGG.BURST : Fld := ⟨.GLZ_PUNT_AGG, 32, 16⟩
def GLZ_MIRROR.QUEUE : Fld := ⟨.GLZ_MIRROR, 0, 20⟩
def GLZ_MIRROR.EN : Fld := ⟨.GLZ_MIRROR, 20, 1⟩
def GLZ_MIRROR.TRUNC : Fld := ⟨.GLZ_MIRROR, 32, 14⟩
def GLZ_FAULT_CFG.ACT_REASON : Fld := ⟨.GLZ_FAULT_CFG, 0, 6⟩
def GLZ_FAULT_CFG.NODISP_REASON : Fld := ⟨.GLZ_FAULT_CFG, 8, 6⟩
def GLZ_COAT_CTRL.CMD : Fld := ⟨.GLZ_COAT_CTRL, 0, 2⟩
def GLZ_COAT_STATUS.ACTIVE : Fld := ⟨.GLZ_COAT_STATUS, 0, 1⟩
def GLZ_COAT_STATUS.STATE : Fld := ⟨.GLZ_COAT_STATUS, 1, 2⟩
def GLZ_COAT_STATUS.DONE : Fld := ⟨.GLZ_COAT_STATUS, 3, 1⟩
def GLZ_COAT_STATUS.CMD_ERR : Fld := ⟨.GLZ_COAT_STATUS, 4, 1⟩
def GLZ_COAT_STATUS.CANCEL_LATE : Fld := ⟨.GLZ_COAT_STATUS, 5, 1⟩
def GLZ_COAT_STATUS.DEADLINE_FLIP : Fld := ⟨.GLZ_COAT_STATUS, 6, 1⟩
def GLZ_COAT_STATUS.LAST_PAUSE : Fld := ⟨.GLZ_COAT_STATUS, 16, 12⟩
def GLZ_COAT_AT.TIME : Fld := ⟨.GLZ_COAT_AT, 0, 64⟩
def GLZ_COAT_ID.ID : Fld := ⟨.GLZ_COAT_ID, 0, 16⟩
def GLZ_COAT_INFLIGHT.COUNT : Fld := ⟨.GLZ_COAT_INFLIGHT, 0, 32⟩
def STN_BANK_CFG.WIDTH : Fld := ⟨.STN_BANK_CFG, 0, 2⟩
def STN_SCRUB_CFG.PERIOD : Fld := ⟨.STN_SCRUB_CFG, 0, 8⟩
def STN_STATUS.FALSE_HIT_CNT : Fld := ⟨.STN_STATUS, 0, 16⟩
def STN_STATUS.GIVEUP_CNT : Fld := ⟨.STN_STATUS, 16, 16⟩
def STN_STATUS.REPAIR_CNT : Fld := ⟨.STN_STATUS, 32, 16⟩
def STN_STATUS.SUSPECT_NOW : Fld := ⟨.STN_STATUS, 48, 8⟩
def STN_STATUS.CFG_ERR : Fld := ⟨.STN_STATUS, 56, 1⟩
def STN_STATUS.COPY_UE : Fld := ⟨.STN_STATUS, 57, 1⟩
def TBL_AG_CMD.OP : Fld := ⟨.TBL_AG_CMD, 0, 3⟩
def TBL_AG_CMD.BANK : Fld := ⟨.TBL_AG_CMD, 3, 1⟩
def TBL_AG_CMD.TABLE : Fld := ⟨.TBL_AG_CMD, 4, 8⟩
def TBL_AG_CMD.SPACE : Fld := ⟨.TBL_AG_CMD, 12, 3⟩
def TBL_AG_CMD.IF_AGED : Fld := ⟨.TBL_AG_CMD, 15, 1⟩
def TBL_AG_CMD.CLR_HIT : Fld := ⟨.TBL_AG_CMD, 16, 1⟩
def TBL_AG_CMD.TAG_ONLY : Fld := ⟨.TBL_AG_CMD, 17, 1⟩
def TBL_AG_CMD.INDEX : Fld := ⟨.TBL_AG_CMD, 20, 24⟩
def TBL_AG_CMD.INDEX2 : Fld := ⟨.TBL_AG_CMD, 44, 19⟩
def TBL_AG_STATUS.BUSY : Fld := ⟨.TBL_AG_STATUS, 0, 1⟩
def TBL_AG_STATUS.CODE : Fld := ⟨.TBL_AG_STATUS, 1, 4⟩
def TBL_AG_STATUS.OVERRUN : Fld := ⟨.TBL_AG_STATUS, 5, 1⟩
def TBL_AG_STATUS.LONG : Fld := ⟨.TBL_AG_STATUS, 6, 1⟩
def TBL_AG_STATUS.RSLOT : Fld := ⟨.TBL_AG_STATUS, 8, 6⟩
def TBL_AG_STATUS.RINDEX : Fld := ⟨.TBL_AG_STATUS, 24, 24⟩
def TBL_AG_META.TAG : Fld := ⟨.TBL_AG_META, 0, 2⟩
def TBL_AG_META.HIT : Fld := ⟨.TBL_AG_META, 2, 1⟩
def TBL_AG_META.SUSPECT : Fld := ⟨.TBL_AG_META, 3, 1⟩
def TBL_AG_META.USED : Fld := ⟨.TBL_AG_META, 4, 1⟩
def TBL_AG_META.AGED : Fld := ⟨.TBL_AG_META, 5, 1⟩
def TBL_AG_META.AGE_EN : Fld := ⟨.TBL_AG_META, 6, 1⟩
def TBL_AG_META.GEN : Fld := ⟨.TBL_AG_META, 8, 4⟩
def TBL_AG_META.LCLASS : Fld := ⟨.TBL_AG_META, 12, 4⟩
def TBL_AG_META.AGE_TS : Fld := ⟨.TBL_AG_META, 16, 8⟩
def TBL_AG_META.GMASK : Fld := ⟨.TBL_AG_META, 24, 6⟩
def TBL_LEARN_STATUS.SUPPRESSED : Fld := ⟨.TBL_LEARN_STATUS, 0, 32⟩
def TBL_LEARN_STATUS.RING_FULL : Fld := ⟨.TBL_LEARN_STATUS, 32, 32⟩
def TBL_ERR_STATUS.DESC_ERR : Fld := ⟨.TBL_ERR_STATUS, 0, 1⟩
def TBL_ERR_STATUS.KIND_MISMATCH : Fld := ⟨.TBL_ERR_STATUS, 1, 1⟩
def TBL_ERR_STATUS.SRAM_UE : Fld := ⟨.TBL_ERR_STATUS, 2, 1⟩
def TBL_ERR_STATUS.SRAM_CE_CNT : Fld := ⟨.TBL_ERR_STATUS, 16, 16⟩
def TBL_ERR_ADDR.WORD : Fld := ⟨.TBL_ERR_ADDR, 0, 25⟩
def PNC_LOAD_ADDR.STATE : Fld := ⟨.PNC_LOAD_ADDR, 0, 18⟩
def PNC_LOAD_DATA.WORD : Fld := ⟨.PNC_LOAD_DATA, 0, 128⟩
def PNC_RES.RES : Fld := ⟨.PNC_RES, 0, 128⟩
def PNC_LKEY.KEY : Fld := ⟨.PNC_LKEY, 0, 80⟩
def PNC_LGMASK.MASK : Fld := ⟨.PNC_LGMASK, 0, 160⟩
def PNC_BUDGET.RATE : Fld := ⟨.PNC_BUDGET, 0, 11⟩
def PNC_BUDGET.BURST : Fld := ⟨.PNC_BUDGET, 16, 16⟩
def PNC_STATUS.NI_CNT : Fld := ⟨.PNC_STATUS, 0, 32⟩
def PNC_STATUS.CE_CNT : Fld := ⟨.PNC_STATUS, 32, 16⟩
def PNC_STATUS.MISMATCH_CNT : Fld := ⟨.PNC_STATUS, 48, 8⟩
def PNC_STATUS.UE : Fld := ⟨.PNC_STATUS, 56, 1⟩
def PNC_STATUS.SET_ERR : Fld := ⟨.PNC_STATUS, 57, 1⟩
def PNC_STATUS.WRITE_ERR : Fld := ⟨.PNC_STATUS, 58, 1⟩
def PAL_POOL_CFG.SIZE : Fld := ⟨.PAL_POOL_CFG, 0, 29⟩
def PAL_POOL_CFG.HC_LOW : Fld := ⟨.PAL_POOL_CFG, 32, 13⟩
def PAL_FREE_CNT.COUNT : Fld := ⟨.PAL_FREE_CNT, 0, 29⟩
def PAL_POOL_STATUS.HC_LEVEL : Fld := ⟨.PAL_POOL_STATUS, 0, 13⟩
def PAL_POOL_STATUS.PC_LEVEL : Fld := ⟨.PAL_POOL_STATUS, 16, 11⟩
def PAL_POOL_STATUS.RETIRE_FULL : Fld := ⟨.PAL_POOL_STATUS, 27, 1⟩
def PAL_POOL_STATUS.RETIRED : Fld := ⟨.PAL_POOL_STATUS, 32, 17⟩
def PAL_POOL_STATUS.CACHE_EMPTY : Fld := ⟨.PAL_POOL_STATUS, 49, 15⟩
def PAL_CLASS_CFG.FLOOR : Fld := ⟨.PAL_CLASS_CFG, 0, 29⟩
def PAL_CLASS_CFG.CEIL : Fld := ⟨.PAL_CLASS_CFG, 32, 29⟩
def PAL_CLASS_STATUS.USED : Fld := ⟨.PAL_CLASS_STATUS, 0, 29⟩
def PAL_CLASS_STATUS.EMPTY_CNT : Fld := ⟨.PAL_CLASS_STATUS, 32, 32⟩
def PAL_SHARE.SHARE_MIN : Fld := ⟨.PAL_SHARE, 0, 20⟩
def PAL_SHARE.ALPHA : Fld := ⟨.PAL_SHARE, 20, 4⟩
def PAL_SHARE.SHARE_MAX : Fld := ⟨.PAL_SHARE, 32, 20⟩
def PAL_SPILL_CFG.RA_EN : Fld := ⟨.PAL_SPILL_CFG, 0, 1⟩
def PAL_SPILL_CFG.SPILL_HYST : Fld := ⟨.PAL_SPILL_CFG, 16, 16⟩
def PAL_SPILL_CFG.RA_HORIZON : Fld := ⟨.PAL_SPILL_CFG, 32, 12⟩
def PAL_SPILL_CFG.RA_MIN : Fld := ⟨.PAL_SPILL_CFG, 48, 8⟩
def PAL_SPILL_CFG.RA_CHUNK : Fld := ⟨.PAL_SPILL_CFG, 56, 8⟩
def PAL_RA_CNT.COUNT : Fld := ⟨.PAL_RA_CNT, 0, 64⟩
def PAL_OWNER_CFG.MAX_AGE : Fld := ⟨.PAL_OWNER_CFG, 0, 16⟩
def PAL_OWNER_CFG.RECLAIM : Fld := ⟨.PAL_OWNER_CFG, 16, 1⟩
def PAL_OWNER_CFG.HELD : Fld := ⟨.PAL_OWNER_CFG, 32, 29⟩
def PAL_ERR_STATUS.DOUBLE_FREE : Fld := ⟨.PAL_ERR_STATUS, 0, 1⟩
def PAL_ERR_STATUS.FOREIGN_FREE : Fld := ⟨.PAL_ERR_STATUS, 1, 1⟩
def PAL_ERR_STATUS.CANVAS_UE : Fld := ⟨.PAL_ERR_STATUS, 2, 1⟩
def PAL_ERR_STATUS.BAD_OWNER : Fld := ⟨.PAL_ERR_STATUS, 8, 6⟩
def PAL_ERR_STATUS.EVT_CNT : Fld := ⟨.PAL_ERR_STATUS, 16, 16⟩
def PAL_ERR_STATUS.BAD_PTR : Fld := ⟨.PAL_ERR_STATUS, 32, 32⟩
def PAL_AUDIT_CTRL.START : Fld := ⟨.PAL_AUDIT_CTRL, 0, 1⟩
def PAL_AUDIT_CTRL.POP : Fld := ⟨.PAL_AUDIT_CTRL, 1, 1⟩
def PAL_AUDIT_CTRL.PERIOD : Fld := ⟨.PAL_AUDIT_CTRL, 16, 16⟩
def PAL_AUDIT_STATUS.RUNNING : Fld := ⟨.PAL_AUDIT_STATUS, 0, 1⟩
def PAL_AUDIT_STATUS.MISMATCH : Fld := ⟨.PAL_AUDIT_STATUS, 1, 1⟩
def PAL_AUDIT_STATUS.FIFO_LEVEL : Fld := ⟨.PAL_AUDIT_STATUS, 8, 7⟩
def PAL_AUDIT_STATUS.RECLAIMED : Fld := ⟨.PAL_AUDIT_STATUS, 32, 16⟩
def PAL_AUDIT_STATUS.OVERFLOW : Fld := ⟨.PAL_AUDIT_STATUS, 48, 16⟩
def PAL_AUDIT_FIFO.PTR : Fld := ⟨.PAL_AUDIT_FIFO, 0, 32⟩
def PAL_AUDIT_FIFO.OWNER : Fld := ⟨.PAL_AUDIT_FIFO, 32, 6⟩
def PAL_AUDIT_FIFO.RECLAIMED : Fld := ⟨.PAL_AUDIT_FIFO, 38, 1⟩
def PAL_AUDIT_FIFO.AGE : Fld := ⟨.PAL_AUDIT_FIFO, 48, 16⟩
def PAL_RETIRE_CFG.CE_LIMIT : Fld := ⟨.PAL_RETIRE_CFG, 0, 4⟩
def PAL_SW_CMD.OP : Fld := ⟨.PAL_SW_CMD, 0, 3⟩
def PAL_SW_CMD.POOL : Fld := ⟨.PAL_SW_CMD, 3, 1⟩
def PAL_SW_CMD.OWNER : Fld := ⟨.PAL_SW_CMD, 4, 6⟩
def PAL_SW_CMD.PTR : Fld := ⟨.PAL_SW_CMD, 32, 32⟩
def PAL_SW_RESULT.BUSY : Fld := ⟨.PAL_SW_RESULT, 0, 1⟩
def PAL_SW_RESULT.CODE : Fld := ⟨.PAL_SW_RESULT, 1, 3⟩
def PAL_SW_RESULT.VALUE : Fld := ⟨.PAL_SW_RESULT, 32, 32⟩
def SCH_STATUS.CFG_ERR : Fld := ⟨.SCH_STATUS, 0, 1⟩
def SCH_STATUS.CRED_DISCARD : Fld := ⟨.SCH_STATUS, 16, 16⟩
def SCH_PORT_HOLD.TIME : Fld := ⟨.SCH_PORT_HOLD, 0, 20⟩
def SCH_VOQ_CREDIT_CFG.CRED_MAX : Fld := ⟨.SCH_VOQ_CREDIT_CFG, 0, 16⟩
def SCH_SAMPLE_CFG.PERIOD : Fld := ⟨.SCH_SAMPLE_CFG, 0, 16⟩
def SCH_ACC_CMD.OP : Fld := ⟨.SCH_ACC_CMD, 0, 2⟩
def SCH_ACC_CMD.OBJ : Fld := ⟨.SCH_ACC_CMD, 4, 3⟩
def SCH_ACC_CMD.INDEX : Fld := ⟨.SCH_ACC_CMD, 8, 20⟩
def SCH_ACC_STATUS.BUSY : Fld := ⟨.SCH_ACC_STATUS, 0, 1⟩
def SCH_ACC_STATUS.CODE : Fld := ⟨.SCH_ACC_STATUS, 1, 3⟩
def SCH_ACC_STATUS.OVERRUN : Fld := ⟨.SCH_ACC_STATUS, 4, 1⟩
def SCH_ACC_DATA.WORD : Fld := ⟨.SCH_ACC_DATA, 0, 64⟩
def SCH_VOQ_CLASS.BAND : Fld := ⟨.SCH_VOQ_CLASS, 0, 2⟩
def SCH_VOQ_CLASS.WEIGHT : Fld := ⟨.SCH_VOQ_CLASS, 16, 16⟩
def SCH_ADM.LIMIT_DP0 : Fld := ⟨.SCH_ADM, 0, 24⟩
def SCH_ADM.LIMIT_DP1 : Fld := ⟨.SCH_ADM, 32, 24⟩
def SCH_ADM.LIMIT_DP2 : Fld := ⟨.SCH_ADM, 64, 24⟩
def SCH_ADM.LIMIT_DP3 : Fld := ⟨.SCH_ADM, 96, 24⟩
def SCH_PNODE_CFG.EN : Fld := ⟨.SCH_PNODE_CFG, 0, 1⟩
def SCH_PNODE_CFG.KIND : Fld := ⟨.SCH_PNODE_CFG, 1, 3⟩
def SCH_PNODE_CFG.TARGET : Fld := ⟨.SCH_PNODE_CFG, 8, 8⟩
def SCH_PNODE_CFG.LEN_ADJ : Fld := ⟨.SCH_PNODE_CFG, 16, 7⟩
def SCH_PNODE_SHAPER.SHAPER : Fld := ⟨.SCH_PNODE_SHAPER, 0, 128⟩
def SCH_PNODE_STATUS.STATE : Fld := ⟨.SCH_PNODE_STATUS, 0, 3⟩
def SCH_PNODE_STATUS.LINK : Fld := ⟨.SCH_PNODE_STATUS, 3, 1⟩
def SCH_PNODE_STATUS.RET_PENDING : Fld := ⟨.SCH_PNODE_STATUS, 4, 1⟩
def SCH_PNODE_STATUS.HOLD_LEFT : Fld := ⟨.SCH_PNODE_STATUS, 8, 20⟩
def SCH_PNODE_STATUS.FLUSHES : Fld := ⟨.SCH_PNODE_STATUS, 32, 32⟩
def SCH_PNODE_STATUS.LEVEL : Fld := ⟨.SCH_PNODE_STATUS, 64, 32⟩
def SCH_PNODE_STATUS.MIN_LEVEL : Fld := ⟨.SCH_PNODE_STATUS, 96, 32⟩
def SCH_WATCH.QUEUE : Fld := ⟨.SCH_WATCH, 0, 20⟩
def SCH_WATCH.VOQ : Fld := ⟨.SCH_WATCH, 20, 1⟩
def SCH_WATCH.EN : Fld := ⟨.SCH_WATCH, 21, 1⟩
def SCH_SAMPLE.DEPTH : Fld := ⟨.SCH_SAMPLE, 0, 36⟩
def SCH_SAMPLE.MAX_DEPTH : Fld := ⟨.SCH_SAMPLE, 64, 36⟩
def SCH_SAMPLE.SOJOURN : Fld := ⟨.SCH_SAMPLE, 128, 32⟩
def SCH_SAMPLE.MAX_SOJOURN : Fld := ⟨.SCH_SAMPLE, 160, 32⟩
def SCH_SAMPLE.SAMPLES : Fld := ⟨.SCH_SAMPLE, 192, 32⟩
def DMC_CFG.CHANNELS : Fld := ⟨.DMC_CFG, 0, 2⟩
def DMC_CFG.DEV_WIDTH : Fld := ⟨.DMC_CFG, 2, 1⟩
def DMC_CFG.DENSITY : Fld := ⟨.DMC_CFG, 3, 1⟩
def DMC_CFG.RANKS : Fld := ⟨.DMC_CFG, 4, 1⟩
def DMC_CFG.BOOT_SPEED : Fld := ⟨.DMC_CFG, 5, 2⟩
def DMC_SCHED_CFG.AGE_CAP : Fld := ⟨.DMC_SCHED_CFG, 0, 8⟩
def DMC_SCHED_CFG.WQ_HIGH : Fld := ⟨.DMC_SCHED_CFG, 8, 8⟩
def DMC_SCHED_CFG.WQ_LOW : Fld := ⟨.DMC_SCHED_CFG, 16, 8⟩
def DMC_RT_CFG.PANIC_LEVEL : Fld := ⟨.DMC_RT_CFG, 0, 4⟩
def DMC_RT_CFG.PANIC_CNT : Fld := ⟨.DMC_RT_CFG, 32, 32⟩
def DMC_REFRESH_CFG.NBR_EN : Fld := ⟨.DMC_REFRESH_CFG, 0, 1⟩
def DMC_REFRESH_CFG.NBR_DIST2 : Fld := ⟨.DMC_REFRESH_CFG, 1, 1⟩
def DMC_REFRESH_CFG.NBR_K : Fld := ⟨.DMC_REFRESH_CFG, 8, 5⟩
def DMC_ERR_CFG.SCRUB_PERIOD : Fld := ⟨.DMC_ERR_CFG, 0, 8⟩
def DMC_ERR_CFG.UE_LOST : Fld := ⟨.DMC_ERR_CFG, 16, 8⟩
def DMC_TEMP.TEMP : Fld := ⟨.DMC_TEMP, 0, 8⟩
def DMC_TEMP.STALE : Fld := ⟨.DMC_TEMP, 8, 1⟩
def DMC_TEMP.HOT : Fld := ⟨.DMC_TEMP, 9, 1⟩
def DMC_TRAIN_CFG.PERIODIC_EN : Fld := ⟨.DMC_TRAIN_CFG, 0, 1⟩
def DMC_TRAIN_CFG.TEMP_DELTA : Fld := ⟨.DMC_TRAIN_CFG, 8, 5⟩
def DMC_FREQ_CTRL.TARGET : Fld := ⟨.DMC_FREQ_CTRL, 0, 2⟩
def DMC_FREQ_CTRL.GO : Fld := ⟨.DMC_FREQ_CTRL, 2, 1⟩
def DMC_FREQ_STATUS.STATE : Fld := ⟨.DMC_FREQ_STATUS, 0, 3⟩
def DMC_FREQ_STATUS.DONE : Fld := ⟨.DMC_FREQ_STATUS, 3, 1⟩
def DMC_FREQ_STATUS.REFUSED : Fld := ⟨.DMC_FREQ_STATUS, 4, 1⟩
def DMC_FREQ_STATUS.CURRENT : Fld := ⟨.DMC_FREQ_STATUS, 8, 2⟩
def DMC_FREQ_STATUS.PENDING : Fld := ⟨.DMC_FREQ_STATUS, 10, 2⟩
def DMC_FREQ_STATUS.DISCARDS : Fld := ⟨.DMC_FREQ_STATUS, 16, 16⟩
def DMC_PART.BASE : Fld := ⟨.DMC_PART, 0, 40⟩
def DMC_PART.SIZE : Fld := ⟨.DMC_PART, 64, 40⟩
def DMC_CH_STATUS.UP : Fld := ⟨.DMC_CH_STATUS, 0, 1⟩
def DMC_CH_STATUS.LOST : Fld := ⟨.DMC_CH_STATUS, 1, 1⟩
def DMC_CH_STATUS.LOST_CAUSE : Fld := ⟨.DMC_CH_STATUS, 2, 2⟩
def DMC_CH_STATUS.TRAINING : Fld := ⟨.DMC_CH_STATUS, 4, 1⟩
def DMC_CH_STATUS.TEMP_AT_TRAIN : Fld := ⟨.DMC_CH_STATUS, 8, 8⟩
def DMC_CH_STATUS.PARITY_CNT : Fld := ⟨.DMC_CH_STATUS, 16, 16⟩
def DMC_CH_STATUS.CE_CNT : Fld := ⟨.DMC_CH_STATUS, 32, 16⟩
def DMC_CH_STATUS.UE_CNT : Fld := ⟨.DMC_CH_STATUS, 48, 16⟩
def FAB_CFG.MODE : Fld := ⟨.FAB_CFG, 0, 2⟩
def FAB_CFG.MOD_ID : Fld := ⟨.FAB_CFG, 8, 11⟩
def FAB_CFG.EPOCH : Fld := ⟨.FAB_CFG, 24, 8⟩
def FAB_LANE_EN.EN : Fld := ⟨.FAB_LANE_EN, 0, 64⟩
def FAB_RSQ_CFG.HOLD : Fld := ⟨.FAB_RSQ_CFG, 0, 10⟩
def FAB_RX_CFG.REFRESH : Fld := ⟨.FAB_RX_CFG, 0, 16⟩
def FAB_RX_CFG.UNREACH : Fld := ⟨.FAB_RX_CFG, 16, 16⟩
def FAB_RX_CFG.STOP_LEVEL : Fld := ⟨.FAB_RX_CFG, 32, 29⟩
def FAB_CRED_CFG.WINDOW : Fld := ⟨.FAB_CRED_CFG, 0, 10⟩
def FAB_ERR_CNT.COUNT : Fld := ⟨.FAB_ERR_CNT, 0, 64⟩
def FAB_PEER.EXPECT : Fld := ⟨.FAB_PEER, 0, 64⟩
def FAB_LANE_STATUS.UP : Fld := ⟨.FAB_LANE_STATUS, 0, 1⟩
def FAB_LANE_STATUS.IN_CYCLE : Fld := ⟨.FAB_LANE_STATUS, 1, 1⟩
def FAB_LANE_STATUS.WIRING_ERR : Fld := ⟨.FAB_LANE_STATUS, 2, 1⟩
def FAB_LANE_STATUS.DOWN_CHG : Fld := ⟨.FAB_LANE_STATUS, 3, 1⟩
def FAB_LANE_STATUS.NBR_NODE : Fld := ⟨.FAB_LANE_STATUS, 8, 11⟩
def FAB_LANE_STATUS.NBR_ELEMENT : Fld := ⟨.FAB_LANE_STATUS, 19, 1⟩
def FAB_LANE_STATUS.NBR_PORT : Fld := ⟨.FAB_LANE_STATUS, 32, 11⟩
def FAB_LANE_STATUS.DOWN_CNT : Fld := ⟨.FAB_LANE_STATUS, 48, 16⟩
def FAB_DEST_STATUS.LINKS : Fld := ⟨.FAB_DEST_STATUS, 0, 7⟩
def FAB_DEST_STATUS.REACHABLE : Fld := ⟨.FAB_DEST_STATUS, 7, 1⟩
def FAB_DEST_STATUS.EPOCH_KNOWN : Fld := ⟨.FAB_DEST_STATUS, 8, 1⟩
def FAB_DEST_STATUS.UNREACH_FLUSH : Fld := ⟨.FAB_DEST_STATUS, 9, 1⟩
def FAB_DEST_STATUS.PEER_EPOCH : Fld := ⟨.FAB_DEST_STATUS, 16, 8⟩
def FAB_STREAM_CNT.RELEASED : Fld := ⟨.FAB_STREAM_CNT, 0, 64⟩
def FAB_STREAM_CNT.GAP_RELEASES : Fld := ⟨.FAB_STREAM_CNT, 64, 64⟩
def FAB_STREAM_CNT.LATE : Fld := ⟨.FAB_STREAM_CNT, 128, 64⟩
def FAB_STREAM_CNT.DISCARDED : Fld := ⟨.FAB_STREAM_CNT, 192, 64⟩
def LOOM_BUDGET.USED : Fld := ⟨.LOOM_BUDGET, 0, 6⟩
def LOOM_PLOAM_CFG.RING : Fld := ⟨.LOOM_PLOAM_CFG, 0, 5⟩
def LOOM_TREE_CFG.EN : Fld := ⟨.LOOM_TREE_CFG, 0, 1⟩
def LOOM_TREE_CFG.TYPE : Fld := ⟨.LOOM_TREE_CFG, 1, 1⟩
def LOOM_TREE_CFG.US_RATE : Fld := ⟨.LOOM_TREE_CFG, 2, 2⟩
def LOOM_TREE_CFG.SN_EN : Fld := ⟨.LOOM_TREE_CFG, 4, 1⟩
def LOOM_TREE_CFG.SN_MODE : Fld := ⟨.LOOM_TREE_CFG, 5, 1⟩
def LOOM_TREE_CFG.MIN_KM : Fld := ⟨.LOOM_TREE_CFG, 8, 6⟩
def LOOM_TREE_CFG.DIFF_KM : Fld := ⟨.LOOM_TREE_CFG, 16, 6⟩
def LOOM_TREE_CFG.TOL : Fld := ⟨.LOOM_TREE_CFG, 24, 4⟩
def LOOM_TREE_CFG.PON_ID : Fld := ⟨.LOOM_TREE_CFG, 32, 32⟩
def LOOM_TREE_TIMING.SN_PERIOD : Fld := ⟨.LOOM_TREE_TIMING, 0, 10⟩
def LOOM_TREE_TIMING.RANGE_MARGIN : Fld := ⟨.LOOM_TREE_TIMING, 16, 6⟩
def LOOM_TREE_TIMING.RANGE_RETRY : Fld := ⟨.LOOM_TREE_TIMING, 24, 4⟩
def LOOM_TREE_TIMING.LOB_LIMIT : Fld := ⟨.LOOM_TREE_TIMING, 28, 4⟩
def LOOM_TREE_TIMING.TO2 : Fld := ⟨.LOOM_TREE_TIMING, 32, 16⟩
def LOOM_TREE_TIMING.BP_PERIOD : Fld := ⟨.LOOM_TREE_TIMING, 48, 8⟩
def LOOM_TREE_STATUS.UP : Fld := ⟨.LOOM_TREE_STATUS, 0, 1⟩
def LOOM_TREE_STATUS.US_LOS : Fld := ⟨.LOOM_TREE_STATUS, 1, 1⟩
def LOOM_TREE_STATUS.CFG_ERR : Fld := ⟨.LOOM_TREE_STATUS, 2, 1⟩
def LOOM_TREE_STATUS.SN_UNKNOWN : Fld := ⟨.LOOM_TREE_STATUS, 3, 1⟩
def LOOM_TREE_STATUS.TREE_FULL : Fld := ⟨.LOOM_TREE_STATUS, 4, 1⟩
def LOOM_TREE_STATUS.OPERATING : Fld := ⟨.LOOM_TREE_STATUS, 16, 9⟩
def LOOM_TREE_STATUS.TEQD : Fld := ⟨.LOOM_TREE_STATUS, 32, 10⟩
def LOOM_OPT_CFG.RESET_POL : Fld := ⟨.LOOM_OPT_CFG, 0, 1⟩
def LOOM_OPT_CFG.SD_POL : Fld := ⟨.LOOM_OPT_CFG, 1, 1⟩
def LOOM_OPT_CFG.SD_NOW : Fld := ⟨.LOOM_OPT_CFG, 2, 1⟩
def LOOM_OPT_CFG.RESET_DELAY : Fld := ⟨.LOOM_OPT_CFG, 8, 8⟩
def LOOM_OPT_CFG.RESET_WIDTH : Fld := ⟨.LOOM_OPT_CFG, 16, 8⟩
def LOOM_OPT_CFG.GUARD : Fld := ⟨.LOOM_OPT_CFG, 24, 8⟩
def LOOM_ONU_CMD.ONU : Fld := ⟨.LOOM_ONU_CMD, 0, 8⟩
def LOOM_ONU_CMD.OP : Fld := ⟨.LOOM_ONU_CMD, 8, 3⟩
def LOOM_ONU_CMD_STATUS.BUSY : Fld := ⟨.LOOM_ONU_CMD_STATUS, 0, 1⟩
def LOOM_ONU_CMD_STATUS.CODE : Fld := ⟨.LOOM_ONU_CMD_STATUS, 1, 2⟩
def LOOM_SNDIS.SN : Fld := ⟨.LOOM_SNDIS, 0, 64⟩
def LOOM_SNDIS.EN : Fld := ⟨.LOOM_SNDIS, 64, 1⟩
def LOOM_SNDIS.ALL : Fld := ⟨.LOOM_SNDIS, 65, 1⟩
def LOOM_SNDIS.TREE : Fld := ⟨.LOOM_SNDIS, 66, 6⟩
def LOOM_ONU.SN : Fld := ⟨.LOOM_ONU, 0, 64⟩
def LOOM_ONU.STATE : Fld := ⟨.LOOM_ONU, 64, 3⟩
def LOOM_ONU.PROV : Fld := ⟨.LOOM_ONU, 67, 1⟩
def LOOM_ONU.ATTEMPTS : Fld := ⟨.LOOM_ONU, 68, 4⟩
def LOOM_ONU.LAST_FAIL : Fld := ⟨.LOOM_ONU, 72, 4⟩
def LOOM_ONU.LOB_RUN : Fld := ⟨.LOOM_ONU, 80, 8⟩
def LOOM_ONU.RTD : Fld := ⟨.LOOM_ONU, 128, 32⟩
def LOOM_ONU.EQD : Fld := ⟨.LOOM_ONU, 160, 32⟩
def LOOM_ONU.ACTIVATIONS : Fld := ⟨.LOOM_ONU, 192, 32⟩
def LOOM_ACT_CNT.COUNT : Fld := ⟨.LOOM_ACT_CNT, 0, 64⟩
def LOOM_OMCI_CFG.RING : Fld := ⟨.LOOM_OMCI_CFG, 0, 5⟩
def LOOM_DBA_CFG.CYCLE : Fld := ⟨.LOOM_DBA_CFG, 0, 4⟩
def LOOM_DBA_CFG.FULL_PROF : Fld := ⟨.LOOM_DBA_CFG, 4, 2⟩
def LOOM_DBA_CFG.SHORT_PROF : Fld := ⟨.LOOM_DBA_CFG, 6, 2⟩
def LOOM_DBA_CFG.SHORT_EN : Fld := ⟨.LOOM_DBA_CFG, 8, 1⟩
def LOOM_DBA_CFG.T_FRESH : Fld := ⟨.LOOM_DBA_CFG, 16, 16⟩
def LOOM_DBA_CFG.PH_TOL : Fld := ⟨.LOOM_DBA_CFG, 32, 8⟩
def LOOM_DBA_CFG.LVL_TOL : Fld := ⟨.LOOM_DBA_CFG, 40, 8⟩
def LOOM_DBA_CFG.ARR_TOL : Fld := ⟨.LOOM_DBA_CFG, 48, 8⟩
def LOOM_DBA_CFG.DRIFT_LIMIT : Fld := ⟨.LOOM_DBA_CFG, 56, 8⟩
def LOOM_DBA_CFG.POLL_FRAMES : Fld := ⟨.LOOM_DBA_CFG, 64, 8⟩
def LOOM_DBA_CFG.ROGUE_NS : Fld := ⟨.LOOM_DBA_CFG, 72, 8⟩
def LOOM_DBA_CFG.ROGUE_FRAMES : Fld := ⟨.LOOM_DBA_CFG, 80, 3⟩
def LOOM_ROGUE_STATUS.ROGUE : Fld := ⟨.LOOM_ROGUE_STATUS, 0, 1⟩
def LOOM_ROGUE_STATUS.ROGUE_SEEN : Fld := ⟨.LOOM_ROGUE_STATUS, 1, 1⟩
def LOOM_ROGUE_STATUS.LONG_BURST : Fld := ⟨.LOOM_ROGUE_STATUS, 2, 1⟩
def LOOM_ROGUE_STATUS.SUSPECT : Fld := ⟨.LOOM_ROGUE_STATUS, 8, 8⟩
def LOOM_ROGUE_STATUS.OBS_FRAMES : Fld := ⟨.LOOM_ROGUE_STATUS, 32, 32⟩
def LOOM_PROFILE.VALID : Fld := ⟨.LOOM_PROFILE, 0, 1⟩
def LOOM_PROFILE.FEC : Fld := ⟨.LOOM_PROFILE, 1, 1⟩
def LOOM_PROFILE.DELIM_ERR : Fld := ⟨.LOOM_PROFILE, 2, 3⟩
def LOOM_PROFILE.REPEAT : Fld := ⟨.LOOM_PROFILE, 8, 7⟩
def LOOM_PROFILE.PAT : Fld := ⟨.LOOM_PROFILE, 64, 64⟩
def LOOM_PROFILE.DELIM : Fld := ⟨.LOOM_PROFILE, 128, 64⟩
def LOOM_PROBE.ONU : Fld := ⟨.LOOM_PROBE, 0, 8⟩
def LOOM_PROBE.FRAMES : Fld := ⟨.LOOM_PROBE, 8, 8⟩
def LOOM_PROBE.GO : Fld := ⟨.LOOM_PROBE, 16, 1⟩
def LOOM_PROBE_STATUS.RUNNING : Fld := ⟨.LOOM_PROBE_STATUS, 0, 1⟩
def LOOM_PROBE_STATUS.RESULT : Fld := ⟨.LOOM_PROBE_STATUS, 1, 3⟩
def LOOM_PROBE_STATUS.ONU : Fld := ⟨.LOOM_PROBE_STATUS, 8, 8⟩
def LOOM_PROBE_STATUS.BASELINE : Fld := ⟨.LOOM_PROBE_STATUS, 32, 16⟩
def LOOM_PROBE_STATUS.DURING : Fld := ⟨.LOOM_PROBE_STATUS, 48, 16⟩
def LOOM_KEY_CMD.OP : Fld := ⟨.LOOM_KEY_CMD, 0, 3⟩
def LOOM_KEY_CMD.KIND : Fld := ⟨.LOOM_KEY_CMD, 3, 2⟩
def LOOM_KEY_CMD.IDX : Fld := ⟨.LOOM_KEY_CMD, 5, 2⟩
def LOOM_KEY_CMD.TREE : Fld := ⟨.LOOM_KEY_CMD, 7, 6⟩
def LOOM_KEY_CMD.ONU : Fld := ⟨.LOOM_KEY_CMD, 13, 8⟩
def LOOM_KEY_STATUS.BUSY : Fld := ⟨.LOOM_KEY_STATUS, 0, 1⟩
def LOOM_KEY_STATUS.CODE : Fld := ⟨.LOOM_KEY_STATUS, 1, 3⟩
def LOOM_KEY_DATA.DATA : Fld := ⟨.LOOM_KEY_DATA, 0, 128⟩
def LOOM_GEM.EN : Fld := ⟨.LOOM_GEM, 0, 1⟩
def LOOM_GEM.TREE : Fld := ⟨.LOOM_GEM, 1, 6⟩
def LOOM_GEM.MCAST : Fld := ⟨.LOOM_GEM, 7, 1⟩
def LOOM_GEM.ONU : Fld := ⟨.LOOM_GEM, 8, 8⟩
def LOOM_GEM.PORT_ID : Fld := ⟨.LOOM_GEM, 16, 16⟩
def LOOM_GEM.SUB_CTX : Fld := ⟨.LOOM_GEM, 32, 18⟩
def LOOM_GEM.ENC : Fld := ⟨.LOOM_GEM, 50, 1⟩
def LOOM_GEM.BIND : Fld := ⟨.LOOM_GEM, 51, 2⟩
def LOOM_GEM.BIND_MAC : Fld := ⟨.LOOM_GEM, 64, 48⟩
def LOOM_GEM.BIND_V4_LEN : Fld := ⟨.LOOM_GEM, 112, 6⟩
def LOOM_GEM.BIND_V4 : Fld := ⟨.LOOM_GEM, 128, 32⟩
def LOOM_PHASE.PHASE : Fld := ⟨.LOOM_PHASE, 0, 6⟩
def LOOM_PHASE.LEVEL : Fld := ⟨.LOOM_PHASE, 8, 8⟩
def LOOM_PHASE.VALID : Fld := ⟨.LOOM_PHASE, 16, 1⟩
def LOOM_PHASE.AGE_US : Fld := ⟨.LOOM_PHASE, 32, 32⟩
def LOOM_GRANT_CNT.COUNT : Fld := ⟨.LOOM_GRANT_CNT, 0, 64⟩
def TIM_CFG.SRC : Fld := ⟨.TIM_CFG, 0, 1⟩
def TIM_CFG.LATE_ACT : Fld := ⟨.TIM_CFG, 1, 1⟩
def TIM_STATUS.ACTIVE : Fld := ⟨.TIM_STATUS, 0, 1⟩
def TIM_STATUS.ARMED : Fld := ⟨.TIM_STATUS, 1, 1⟩
def TIM_STATUS.VALID : Fld := ⟨.TIM_STATUS, 2, 1⟩
def TIM_STATUS.HOLDOVER : Fld := ⟨.TIM_STATUS, 3, 1⟩
def TIM_STATUS.SYSREF_LOSS : Fld := ⟨.TIM_STATUS, 4, 1⟩
def TIM_STATUS.LATE_FLIP : Fld := ⟨.TIM_STATUS, 5, 1⟩
def TIM_STATUS.CFG_ERR : Fld := ⟨.TIM_STATUS, 6, 1⟩
def TIM_STATUS.TCW_ERR : Fld := ⟨.TIM_STATUS, 7, 1⟩
def TIM_NOW.FRC : Fld := ⟨.TIM_NOW, 0, 64⟩
def TIM_NOW.FRC_FRAC : Fld := ⟨.TIM_NOW, 64, 16⟩
def TIM_NOW.LOCAL_FRAC : Fld := ⟨.TIM_NOW, 80, 16⟩
def TIM_NOW.ANCHOR : Fld := ⟨.TIM_NOW, 96, 1⟩
def TIM_NOW.LOCAL : Fld := ⟨.TIM_NOW, 128, 64⟩
def TIM_ANCHOR.F0 : Fld := ⟨.TIM_ANCHOR, 0, 64⟩
def TIM_ANCHOR.F0_FRAC : Fld := ⟨.TIM_ANCHOR, 64, 16⟩
def TIM_ANCHOR.T0_FRAC : Fld := ⟨.TIM_ANCHOR, 80, 16⟩
def TIM_ANCHOR.RATE : Fld := ⟨.TIM_ANCHOR, 96, 32⟩
def TIM_ANCHOR.T0 : Fld := ⟨.TIM_ANCHOR, 128, 64⟩
def TIM_ANCHOR_CTRL.CMD : Fld := ⟨.TIM_ANCHOR_CTRL, 0, 2⟩
def TIM_TXTS_STATUS.LEVEL : Fld := ⟨.TIM_TXTS_STATUS, 0, 10⟩
def TIM_TXTS_STATUS.OVF : Fld := ⟨.TIM_TXTS_STATUS, 16, 1⟩
def TIM_TXTS_STATUS.DISCARDS : Fld := ⟨.TIM_TXTS_STATUS, 32, 32⟩
def TIM_TXTS_HEAD.TS : Fld := ⟨.TIM_TXTS_HEAD, 0, 64⟩
def TIM_TXTS_HEAD.TS_FRAC : Fld := ⟨.TIM_TXTS_HEAD, 64, 16⟩
def TIM_TXTS_HEAD.ID : Fld := ⟨.TIM_TXTS_HEAD, 80, 16⟩
def TIM_TXTS_HEAD.EXIT : Fld := ⟨.TIM_TXTS_HEAD, 96, 8⟩
def TIM_TXTS_HEAD.ANCHOR : Fld := ⟨.TIM_TXTS_HEAD, 104, 1⟩
def TIM_TXTS_HEAD.LATE : Fld := ⟨.TIM_TXTS_HEAD, 105, 1⟩
def TIM_TXTS_HEAD.DROPPED : Fld := ⟨.TIM_TXTS_HEAD, 106, 1⟩
def TIM_TXTS_HEAD.VALID : Fld := ⟨.TIM_TXTS_HEAD, 107, 1⟩
def TIM_TXTS_POP.POP : Fld := ⟨.TIM_TXTS_POP, 0, 1⟩
def TIM_PPS_CFG.OUT_EN : Fld := ⟨.TIM_PPS_CFG, 0, 1⟩
def TIM_PPS_CFG.IN_EN : Fld := ⟨.TIM_PPS_CFG, 1, 1⟩
def TIM_PPS_CFG.WIDTH : Fld := ⟨.TIM_PPS_CFG, 8, 8⟩
def TIM_PPS_CFG.OFFSET : Fld := ⟨.TIM_PPS_CFG, 32, 32⟩
def TIM_PPS_IN.TS : Fld := ⟨.TIM_PPS_IN, 0, 64⟩
def TIM_PPS_IN.TS_FRAC : Fld := ⟨.TIM_PPS_IN, 64, 16⟩
def TIM_PPS_IN.ANCHOR : Fld := ⟨.TIM_PPS_IN, 80, 1⟩
def TIM_PPS_IN.NEW : Fld := ⟨.TIM_PPS_IN, 81, 1⟩
def TIM_ERR_CNT.COUNT : Fld := ⟨.TIM_ERR_CNT, 0, 64⟩
def TIM_PON_SFC.FRC : Fld := ⟨.TIM_PON_SFC, 0, 64⟩
def TIM_PON_SFC.SFC : Fld := ⟨.TIM_PON_SFC, 64, 51⟩
def EVC_STATUS.BAD_COMPLETE : Fld := ⟨.EVC_STATUS, 0, 1⟩
def EVC_MASK.MASK : Fld := ⟨.EVC_MASK, 0, 32⟩
def EVC_PENDING.PENDING : Fld := ⟨.EVC_PENDING, 0, 32⟩
def EVC_SEQ.COUNT : Fld := ⟨.EVC_SEQ, 0, 32⟩
def EVC_RESCAN.WORDS : Fld := ⟨.EVC_RESCAN, 0, 8⟩
def EVC_SRC_CFG.VECTOR : Fld := ⟨.EVC_SRC_CFG, 0, 6⟩
def EVC_SRC_CFG.WAKE : Fld := ⟨.EVC_SRC_CFG, 6, 1⟩
def EVC_SRC_CFG.PIN : Fld := ⟨.EVC_SRC_CFG, 7, 1⟩
def EVC_COAL.COUNT : Fld := ⟨.EVC_COAL, 0, 8⟩
def EVC_COAL.TIME : Fld := ⟨.EVC_COAL, 16, 16⟩
def EVC_ACTIVE.SOURCE : Fld := ⟨.EVC_ACTIVE, 0, 8⟩
def EVC_ACTIVE.AP : Fld := ⟨.EVC_ACTIVE, 30, 1⟩
def EVC_ACTIVE.VALID : Fld := ⟨.EVC_ACTIVE, 31, 1⟩
def EVC_COMPLETE.SOURCE : Fld := ⟨.EVC_COMPLETE, 0, 8⟩
def HST_ERR_STATUS.BAD_ACCESS : Fld := ⟨.HST_ERR_STATUS, 0, 1⟩
def HST_ERR_STATUS.SEAM_DOWN : Fld := ⟨.HST_ERR_STATUS, 1, 1⟩
def HST_ERR_STATUS.DMA_ERR : Fld := ⟨.HST_ERR_STATUS, 2, 1⟩
def HST_ERR_STATUS.BAD_DOORBELL : Fld := ⟨.HST_ERR_STATUS, 3, 1⟩
def HST_ERR_STATUS.DMA_RING : Fld := ⟨.HST_ERR_STATUS, 8, 7⟩
def HST_PCIE_STATUS.SPEED : Fld := ⟨.HST_PCIE_STATUS, 0, 3⟩
def HST_PCIE_STATUS.WIDTH : Fld := ⟨.HST_PCIE_STATUS, 3, 4⟩
def HST_PCIE_STATUS.DSTATE : Fld := ⟨.HST_PCIE_STATUS, 7, 2⟩
def HST_PCIE_STATUS.L1 : Fld := ⟨.HST_PCIE_STATUS, 9, 1⟩
def HST_RING_CFG.BASE : Fld := ⟨.HST_RING_CFG, 0, 64⟩
def HST_RING_CFG.SIZE_LOG2 : Fld := ⟨.HST_RING_CFG, 64, 4⟩
def HST_RING_CFG.EN : Fld := ⟨.HST_RING_CFG, 72, 1⟩
def HST_RING_CFG.BUF_SIZE : Fld := ⟨.HST_RING_CFG, 80, 16⟩
def HST_RING_CFG.RATE : Fld := ⟨.HST_RING_CFG, 96, 9⟩
def HST_RING_STATUS.RUN : Fld := ⟨.HST_RING_STATUS, 0, 1⟩
def HST_RING_STATUS.ERR : Fld := ⟨.HST_RING_STATUS, 1, 1⟩
def HST_RING_STATUS.W : Fld := ⟨.HST_RING_STATUS, 32, 32⟩
def TLY_CNT_ACC.OP : Fld := ⟨.TLY_CNT_ACC, 0, 2⟩
def TLY_CNT_ACC.INDEX : Fld := ⟨.TLY_CNT_ACC, 4, 25⟩
def TLY_CNT_ACC.BUSY : Fld := ⟨.TLY_CNT_ACC, 32, 1⟩
def TLY_CNT_ACC.CODE : Fld := ⟨.TLY_CNT_ACC, 33, 2⟩
def TLY_CNT_DATA.PAIR : Fld := ⟨.TLY_CNT_DATA, 0, 128⟩
def TLY_FREEZE.CMD : Fld := ⟨.TLY_FREEZE, 0, 2⟩
def TLY_FREEZE.STATE : Fld := ⟨.TLY_FREEZE, 2, 2⟩
def TLY_FREEZE.DONE : Fld := ⟨.TLY_FREEZE, 4, 1⟩
def TLY_SNAP_BASE.BASE : Fld := ⟨.TLY_SNAP_BASE, 0, 64⟩
def TLY_SNAP_RANGE.FIRST : Fld := ⟨.TLY_SNAP_RANGE, 0, 25⟩
def TLY_SNAP_RANGE.COUNT : Fld := ⟨.TLY_SNAP_RANGE, 32, 25⟩
def TLY_STATUS.RANGE_CNT : Fld := ⟨.TLY_STATUS, 0, 16⟩
def TLY_STATUS.INVALID_SEEN : Fld := ⟨.TLY_STATUS, 16, 1⟩
def TLY_STATUS.CACHE_OVF : Fld := ⟨.TLY_STATUS, 17, 1⟩
def TLY_STATUS.LOST : Fld := ⟨.TLY_STATUS, 32, 32⟩
def TLY_SAMP_CFG.EVENT : Fld := ⟨.TLY_SAMP_CFG, 0, 8⟩
def TLY_SAMP_CFG.OVF : Fld := ⟨.TLY_SAMP_CFG, 8, 1⟩
def TLY_SAMP_CFG.FILTER : Fld := ⟨.TLY_SAMP_CFG, 16, 16⟩
def TLY_SAMP_CFG.MISSED : Fld := ⟨.TLY_SAMP_CFG, 32, 8⟩
def TLY_SAMP_CNT.COUNT : Fld := ⟨.TLY_SAMP_CNT, 0, 32⟩
def TLY_SAMP_CNT.RELOAD : Fld := ⟨.TLY_SAMP_CNT, 32, 32⟩
def TLY_SAMP_CNT.OVF_TS : Fld := ⟨.TLY_SAMP_CNT, 64, 64⟩
def TLY_TRACE_CFG.EN : Fld := ⟨.TLY_TRACE_CFG, 0, 1⟩
def TLY_TRACE_CFG.PORT_EN : Fld := ⟨.TLY_TRACE_CFG, 1, 1⟩
def TLY_TRACE_CFG.K : Fld := ⟨.TLY_TRACE_CFG, 8, 5⟩
def TLY_TRACE_CFG.PORT : Fld := ⟨.TLY_TRACE_CFG, 16, 8⟩
def TLY_TRACE_CFG.SEED : Fld := ⟨.TLY_TRACE_CFG, 32, 32⟩
def TLY_TRACE_CNT.COUNT : Fld := ⟨.TLY_TRACE_CNT, 0, 64⟩
def TLY_ISAMP_CFG.EN : Fld := ⟨.TLY_ISAMP_CFG, 0, 1⟩
def TLY_ISAMP_CFG.CLEAR : Fld := ⟨.TLY_ISAMP_CFG, 1, 1⟩
def TLY_ISAMP_CFG.J : Fld := ⟨.TLY_ISAMP_CFG, 8, 5⟩
def TLY_ISAMP_HIST.COUNT : Fld := ⟨.TLY_ISAMP_HIST, 0, 32⟩
def TLY_SPEC_CNT.COUNT : Fld := ⟨.TLY_SPEC_CNT, 0, 64⟩
def TLY_BW_CFG.WINDOW : Fld := ⟨.TLY_BW_CFG, 0, 10⟩
def TLY_BW_CFG.SEQ : Fld := ⟨.TLY_BW_CFG, 16, 16⟩
def TLY_BW_RX.OCTETS : Fld := ⟨.TLY_BW_RX, 0, 64⟩
def TLY_BW_RX.MAX_OCTETS : Fld := ⟨.TLY_BW_RX, 64, 64⟩
def EAS_BOOT_STATUS.STATE : Fld := ⟨.EAS_BOOT_STATUS, 0, 3⟩
def EAS_BOOT_STATUS.RUN_SLOT : Fld := ⟨.EAS_BOOT_STATUS, 3, 1⟩
def EAS_BOOT_STATUS.TRIAL : Fld := ⟨.EAS_BOOT_STATUS, 4, 1⟩
def EAS_BOOT_STATUS.UNPROVISIONED : Fld := ⟨.EAS_BOOT_STATUS, 5, 1⟩
def EAS_BOOT_STATUS.WARM : Fld := ⟨.EAS_BOOT_STATUS, 6, 1⟩
def EAS_BOOT_STATUS.WARM_FAIL : Fld := ⟨.EAS_BOOT_STATUS, 7, 1⟩
def EAS_BOOT_STATUS.CFG_WARN : Fld := ⟨.EAS_BOOT_STATUS, 8, 1⟩
def EAS_BOOT_STATUS.FW_SLOT : Fld := ⟨.EAS_BOOT_STATUS, 9, 1⟩
def EAS_BOOT_STATUS.KEY_SLOT : Fld := ⟨.EAS_BOOT_STATUS, 10, 2⟩
def EAS_BOOT_STATUS.FAIL_A : Fld := ⟨.EAS_BOOT_STATUS, 16, 4⟩
def EAS_BOOT_STATUS.FAIL_B : Fld := ⟨.EAS_BOOT_STATUS, 20, 4⟩
def EAS_BOOT_STATUS.START_MS : Fld := ⟨.EAS_BOOT_STATUS, 32, 16⟩
def EAS_OTP_STATUS.PROGRAMMED : Fld := ⟨.EAS_OTP_STATUS, 0, 4⟩
def EAS_OTP_STATUS.REVOKED : Fld := ⟨.EAS_OTP_STATUS, 4, 4⟩
def EAS_OTP_STATUS.VREVOKED : Fld := ⟨.EAS_OTP_STATUS, 8, 2⟩
def EAS_OTP_STATUS.SEC_VERSION : Fld := ⟨.EAS_OTP_STATUS, 16, 7⟩
def EAS_ALARM.MBOX_DONE : Fld := ⟨.EAS_ALARM, 0, 1⟩
def EAS_ALARM.VARNISH_ERR : Fld := ⟨.EAS_ALARM, 1, 1⟩
def EAS_ALARM.MIRROR_FAIL : Fld := ⟨.EAS_ALARM, 2, 1⟩
def EAS_ALARM.FW_SWITCHED : Fld := ⟨.EAS_ALARM, 3, 1⟩
def EAS_ALARM.LOOM_SWAPPED : Fld := ⟨.EAS_ALARM, 4, 1⟩
def EAS_ALARM.TRIAL_REVERTED : Fld := ⟨.EAS_ALARM, 5, 1⟩
def EAS_ALARM.START_FAULT : Fld := ⟨.EAS_ALARM, 6, 1⟩
def EAS_MBOX_CMD.OP : Fld := ⟨.EAS_MBOX_CMD, 0, 8⟩
def EAS_MBOX_CMD.SLOT : Fld := ⟨.EAS_MBOX_CMD, 8, 1⟩
def EAS_MBOX_CMD.FLAG : Fld := ⟨.EAS_MBOX_CMD, 9, 1⟩
def EAS_MBOX_CMD.ARG : Fld := ⟨.EAS_MBOX_CMD, 16, 16⟩
def EAS_MBOX_CMD.LEN : Fld := ⟨.EAS_MBOX_CMD, 32, 17⟩
def EAS_MBOX_CMD.ADDR : Fld := ⟨.EAS_MBOX_CMD, 64, 32⟩
def EAS_MBOX_STATUS.BUSY : Fld := ⟨.EAS_MBOX_STATUS, 0, 1⟩
def EAS_MBOX_STATUS.CODE : Fld := ⟨.EAS_MBOX_STATUS, 1, 4⟩
def EAS_MBOX_STATUS.RESULT_LEN : Fld := ⟨.EAS_MBOX_STATUS, 7, 17⟩
def VRN_STATUS.RESTORED : Fld := ⟨.VRN_STATUS, 0, 1⟩
def VRN_STATUS.REGION_ERR : Fld := ⟨.VRN_STATUS, 1, 1⟩
def VRN_STATUS.MIRROR_ERR : Fld := ⟨.VRN_STATUS, 2, 1⟩
def VRN_STATUS.MIRROR_SEQ : Fld := ⟨.VRN_STATUS, 16, 16⟩
def EMV_CFG.ROLE : Fld := ⟨.EMV_CFG, 0, 2⟩
def EMV_CFG.PRIMARY : Fld := ⟨.EMV_CFG, 2, 1⟩
def EMV_CFG.CLUSTER : Fld := ⟨.EMV_CFG, 8, 3⟩
def EMV_CFG.SHELF : Fld := ⟨.EMV_CFG, 12, 4⟩
def EMV_CFG.SLOT : Fld := ⟨.EMV_CFG, 16, 4⟩
def EMV_CFG.LOSS : Fld := ⟨.EMV_CFG, 20, 5⟩
def EMV_CTRL.REVERT : Fld := ⟨.EMV_CTRL, 0, 1⟩
def EMV_STATUS.FOLLOW : Fld := ⟨.EMV_STATUS, 0, 2⟩
def EMV_STATUS.ACTING : Fld := ⟨.EMV_STATUS, 2, 1⟩
def EMV_STATUS.TIME_OK : Fld := ⟨.EMV_STATUS, 3, 1⟩
def EMV_STATUS.HOPS : Fld := ⟨.EMV_STATUS, 4, 3⟩
def EMV_STATUS.TAKEOVERS : Fld := ⟨.EMV_STATUS, 32, 32⟩
def EMV_ALARM.UPLINK_LOST : Fld := ⟨.EMV_ALARM, 0, 1⟩
def EMV_ALARM.TAKEOVER : Fld := ⟨.EMV_ALARM, 1, 1⟩
def EMV_ALARM.WIRING_ERR : Fld := ⟨.EMV_ALARM, 2, 1⟩
def EMV_ALARM.MAP_CHG : Fld := ⟨.EMV_ALARM, 3, 1⟩
def EMV_ALARM.COMMIT_DONE : Fld := ⟨.EMV_ALARM, 4, 1⟩
def EMV_ALARM.COMMIT_FAIL : Fld := ⟨.EMV_ALARM, 5, 1⟩
def EMV_ALARM.COMMIT_SPLIT : Fld := ⟨.EMV_ALARM, 6, 1⟩
def EMV_ALARM.CMD_ERR : Fld := ⟨.EMV_ALARM, 7, 1⟩
def EMV_LANE_STATUS.UP : Fld := ⟨.EMV_LANE_STATUS, 0, 1⟩
def EMV_LANE_STATUS.WIRING_ERR : Fld := ⟨.EMV_LANE_STATUS, 1, 1⟩
def EMV_LANE_STATUS.PEER_ACTING : Fld := ⟨.EMV_LANE_STATUS, 2, 1⟩
def EMV_LANE_STATUS.PEER_PRIMARY : Fld := ⟨.EMV_LANE_STATUS, 3, 1⟩
def EMV_LANE_STATUS.PEER_ROLE : Fld := ⟨.EMV_LANE_STATUS, 4, 2⟩
def EMV_LANE_STATUS.PEER_MOD : Fld := ⟨.EMV_LANE_STATUS, 8, 11⟩
def EMV_LANE_STATUS.LAST_RX : Fld := ⟨.EMV_LANE_STATUS, 32, 32⟩
def EMV_MAP.MAP : Fld := ⟨.EMV_MAP, 0, 64⟩
def EMV_MAP_CTRL.MOD_ID : Fld := ⟨.EMV_MAP_CTRL, 0, 11⟩
def EMV_MAP_CTRL.REMOVE : Fld := ⟨.EMV_MAP_CTRL, 11, 1⟩
def EMV_COMMIT_CTRL.COAT_ID : Fld := ⟨.EMV_COMMIT_CTRL, 0, 16⟩
def EMV_COMMIT_CTRL.GO : Fld := ⟨.EMV_COMMIT_CTRL, 16, 1⟩
def EMV_COMMIT_CTRL.T : Fld := ⟨.EMV_COMMIT_CTRL, 64, 64⟩
def EMV_COMMIT_STATUS.STATE : Fld := ⟨.EMV_COMMIT_STATUS, 0, 3⟩
def EMV_COMMIT_STATUS.REASON : Fld := ⟨.EMV_COMMIT_STATUS, 8, 3⟩
def EMV_COMMIT_STATUS.FIRST_REFUSER : Fld := ⟨.EMV_COMMIT_STATUS, 16, 11⟩
def EMV_COMMIT_STATUS.ARMED : Fld := ⟨.EMV_COMMIT_STATUS, 32, 12⟩
def EMV_COMMIT_STATUS.REFUSED : Fld := ⟨.EMV_COMMIT_STATUS, 48, 12⟩
def EMV_COMMIT_STATUS.SWAPPED : Fld := ⟨.EMV_COMMIT_STATUS, 64, 12⟩
def EMV_COMMIT_STATUS.MISSING : Fld := ⟨.EMV_COMMIT_STATUS, 80, 12⟩
def EAS_PWR_STATUS.LAST_SHUTDOWN : Fld := ⟨.EAS_PWR_STATUS, 0, 3⟩
def EAS_PWR_STATUS.PWR_OK : Fld := ⟨.EAS_PWR_STATUS, 3, 1⟩
def EAS_PWR_STATUS.SHUTDOWNS : Fld := ⟨.EAS_PWR_STATUS, 8, 8⟩
def EAS_PWR_TELEM.VIN : Fld := ⟨.EAS_PWR_TELEM, 0, 16⟩
def EAS_PWR_TELEM.IIN : Fld := ⟨.EAS_PWR_TELEM, 16, 16⟩
def EAS_PWR_TELEM.PIN : Fld := ⟨.EAS_PWR_TELEM, 32, 16⟩
def EAS_PWR_TELEM.TJ_F : Fld := ⟨.EAS_PWR_TELEM, 48, 8⟩
def EAS_PWR_TELEM.TJ_T : Fld := ⟨.EAS_PWR_TELEM, 56, 8⟩
def EAS_PWR_TELEM.T_STAGE : Fld := ⟨.EAS_PWR_TELEM, 64, 8⟩
def EAS_PWR_TELEM.ICORE_F : Fld := ⟨.EAS_PWR_TELEM, 72, 16⟩
def EAS_PWR_TELEM.ICORE_T : Fld := ⟨.EAS_PWR_TELEM, 88, 16⟩
def EAS_PWR_TELEM.SEQ : Fld := ⟨.EAS_PWR_TELEM, 104, 16⟩
def EAS_PWR_ALARM.VIN_LOW : Fld := ⟨.EAS_PWR_ALARM, 0, 1⟩
def EAS_PWR_ALARM.VIN_HIGH : Fld := ⟨.EAS_PWR_ALARM, 1, 1⟩
def EAS_PWR_ALARM.TJ_WARN : Fld := ⟨.EAS_PWR_ALARM, 2, 1⟩
def EAS_PWR_ALARM.STAGE_HOT : Fld := ⟨.EAS_PWR_ALARM, 3, 1⟩
def EAS_PWR_ALARM.VDDQ_FAULT : Fld := ⟨.EAS_PWR_ALARM, 4, 1⟩
def EAS_PWR_ALARM.CURRENT_LIMIT : Fld := ⟨.EAS_PWR_ALARM, 5, 1⟩
def EAS_PWR_ALARM.TELEM_STALE : Fld := ⟨.EAS_PWR_ALARM, 6, 1⟩
def EAS_PWR_CFG.VIN_WARN : Fld := ⟨.EAS_PWR_CFG, 0, 10⟩
def EAS_PWR_CFG.TJ_WARN : Fld := ⟨.EAS_PWR_CFG, 16, 8⟩
def EAS_PM_RAW.COUNT : Fld := ⟨.EAS_PM_RAW, 0, 16⟩
def EAS_PM_RAW.TARGET : Fld := ⟨.EAS_PM_RAW, 16, 16⟩
def GLZ_TPL.KIND : Fld := ⟨.GLZ_TPL, 0, 3⟩
def GLZ_TPL.TABLE : Fld := ⟨.GLZ_TPL, 8, 8⟩
def GLZ_TPL.KEYW : Fld := ⟨.GLZ_TPL, 16, 2⟩
def GLZ_TPL.GMASK : Fld := ⟨.GLZ_TPL, 18, 6⟩
def GLZ_TPL.NEXT : Fld := ⟨.GLZ_TPL, 24, 8⟩
def GLZ_TPL.MISS_PC : Fld := ⟨.GLZ_TPL, 32, 13⟩
def GLZ_TPL.NI_PC : Fld := ⟨.GLZ_TPL, 48, 13⟩
def GLZ_TPL_EXT.BITOFF : Fld := ⟨.GLZ_TPL_EXT, 0, 12⟩
def GLZ_TPL_EXT.WIDTH : Fld := ⟨.GLZ_TPL_EXT, 12, 7⟩
def GLZ_TPL_EXT.REL : Fld := ⟨.GLZ_TPL_EXT, 19, 1⟩
def GLZ_TPL_EXT.REC : Fld := ⟨.GLZ_TPL_EXT, 20, 4⟩
def GLZ_TPL_EXT.VALID : Fld := ⟨.GLZ_TPL_EXT, 24, 1⟩
def GLZ_HASH.ALG : Fld := ⟨.GLZ_HASH, 0, 1⟩
def GLZ_HASH.SYM : Fld := ⟨.GLZ_HASH, 1, 1⟩
def GLZ_HASH.POLY : Fld := ⟨.GLZ_HASH, 64, 32⟩
def GLZ_HASH.SEED : Fld := ⟨.GLZ_HASH, 96, 32⟩
def GLZ_HASH_KEY.KEY : Fld := ⟨.GLZ_HASH_KEY, 0, 320⟩
def GLZ_HASH_EXT.BITOFF : Fld := ⟨.GLZ_HASH_EXT, 0, 12⟩
def GLZ_HASH_EXT.WIDTH : Fld := ⟨.GLZ_HASH_EXT, 12, 7⟩
def GLZ_HASH_EXT.REL : Fld := ⟨.GLZ_HASH_EXT, 19, 1⟩
def GLZ_HASH_EXT.REC : Fld := ⟨.GLZ_HASH_EXT, 20, 4⟩
def GLZ_HASH_EXT.VALID : Fld := ⟨.GLZ_HASH_EXT, 24, 1⟩
def TBL_DESC.KIND : Fld := ⟨.TBL_DESC, 0, 3⟩
def TBL_DESC.KEYW : Fld := ⟨.TBL_DESC, 3, 2⟩
def TBL_DESC.PART_BASE : Fld := ⟨.TBL_DESC, 8, 8⟩
def TBL_DESC.PART_CNT : Fld := ⟨.TBL_DESC, 16, 8⟩
def TBL_DESC.RES_BASE : Fld := ⟨.TBL_DESC, 24, 8⟩
def TBL_DESC.RES_CNT : Fld := ⟨.TBL_DESC, 32, 8⟩
def TBL_DESC.FIRST_BANK : Fld := ⟨.TBL_DESC, 40, 7⟩
def TBL_DESC.NBANKS : Fld := ⟨.TBL_DESC, 48, 8⟩
def TBL_DESC.LONG_FIRST_BANK : Fld := ⟨.TBL_DESC, 56, 7⟩
def TBL_DESC.LONG_NBANKS : Fld := ⟨.TBL_DESC, 64, 8⟩
def TBL_DESC.AGE_UNIT : Fld := ⟨.TBL_DESC, 72, 2⟩
def TBL_DESC.AGE_LIMIT : Fld := ⟨.TBL_DESC, 80, 8⟩
def TBL_DESC.SEED1 : Fld := ⟨.TBL_DESC, 128, 32⟩
def TBL_DESC.SEED2 : Fld := ⟨.TBL_DESC, 160, 32⟩
def STN_GMASK.MASK : Fld := ⟨.STN_GMASK, 0, 320⟩
def PNC_SET.MODE : Fld := ⟨.PNC_SET, 0, 2⟩
def PNC_SET.LKEYW : Fld := ⟨.PNC_SET, 2, 1⟩
def PNC_SET.LGMASK : Fld := ⟨.PNC_SET, 3, 3⟩
def PNC_SET.PAT_BASE : Fld := ⟨.PNC_SET, 8, 13⟩
def PNC_SET.PAT_CNT : Fld := ⟨.PNC_SET, 32, 14⟩
def PNC_SET.STATE_BASE : Fld := ⟨.PNC_SET, 64, 18⟩
def PNC_SET.STATE_CNT : Fld := ⟨.PNC_SET, 96, 19⟩
def DMC_ERR_LOG.VALID : Fld := ⟨.DMC_ERR_LOG, 0, 1⟩
def DMC_ERR_LOG.KIND : Fld := ⟨.DMC_ERR_LOG, 1, 2⟩
def DMC_ERR_LOG.CH : Fld := ⟨.DMC_ERR_LOG, 3, 4⟩
def DMC_ERR_LOG.RANK : Fld := ⟨.DMC_ERR_LOG, 7, 1⟩
def DMC_ERR_LOG.BG : Fld := ⟨.DMC_ERR_LOG, 8, 2⟩
def DMC_ERR_LOG.BANK : Fld := ⟨.DMC_ERR_LOG, 10, 2⟩
def DMC_ERR_LOG.ROW : Fld := ⟨.DMC_ERR_LOG, 12, 18⟩
def DMC_ERR_LOG.COLUMN : Fld := ⟨.DMC_ERR_LOG, 30, 10⟩
def DMC_ERR_LOG.SYMBOL : Fld := ⟨.DMC_ERR_LOG, 40, 5⟩
def DMC_ERR_LOG.OVF : Fld := ⟨.DMC_ERR_LOG, 47, 1⟩
def DMC_ERR_LOG.TIME : Fld := ⟨.DMC_ERR_LOG, 48, 16⟩
def DMC_ERR_POP.POP : Fld := ⟨.DMC_ERR_POP, 0, 1⟩
def LOOM_ALLOC.EN : Fld := ⟨.LOOM_ALLOC, 0, 1⟩
def LOOM_ALLOC.TREE : Fld := ⟨.LOOM_ALLOC, 1, 6⟩
def LOOM_ALLOC.ONU : Fld := ⟨.LOOM_ALLOC, 8, 8⟩
def LOOM_ALLOC.ALLOC_ID : Fld := ⟨.LOOM_ALLOC, 16, 14⟩
def LOOM_ALLOC.DBRU : Fld := ⟨.LOOM_ALLOC, 30, 1⟩
def LOOM_ALLOC.WEIGHT : Fld := ⟨.LOOM_ALLOC, 32, 16⟩
def LOOM_ALLOC.FIXED : Fld := ⟨.LOOM_ALLOC, 64, 30⟩
def LOOM_ALLOC.ASSURED : Fld := ⟨.LOOM_ALLOC, 96, 30⟩
def LOOM_ALLOC.NA_MAX : Fld := ⟨.LOOM_ALLOC, 128, 30⟩
def LOOM_ALLOC.BE_MAX : Fld := ⟨.LOOM_ALLOC, 160, 30⟩
def LOOM_ALLOC.POL_RATE : Fld := ⟨.LOOM_ALLOC, 192, 30⟩
def LOOM_ALLOC.POL_BURST : Fld := ⟨.LOOM_ALLOC, 224, 24⟩
def SKT_EL_ISSUED.COUNT : Fld := ⟨.SKT_EL_ISSUED, 0, 64⟩
def SKT_EL_SQUASHED.COUNT : Fld := ⟨.SKT_EL_SQUASHED, 0, 64⟩
def SKT_EL_NOSLOT.COUNT : Fld := ⟨.SKT_EL_NOSLOT, 0, 64⟩
def TBL_AG_KEY.KEY : Fld := ⟨.TBL_AG_KEY, 0, 320⟩
def TBL_AG_MASK.MASK : Fld := ⟨.TBL_AG_MASK, 0, 320⟩
def TBL_AG_DATA.WORD : Fld := ⟨.TBL_AG_DATA, 0, 64⟩
def FLX_CAL.CLIENT : Fld := ⟨.FLX_CAL, 0, 16⟩
def FLX_PROT.CLIENT : Fld := ⟨.FLX_PROT, 0, 16⟩
def ETH_RAW.COUNT : Fld := ⟨.ETH_RAW, 0, 64⟩
def ETH_LATCHED.COUNT : Fld := ⟨.ETH_LATCHED, 0, 64⟩
def LOOM_SEP_CNT.COUNT : Fld := ⟨.LOOM_SEP_CNT, 0, 64⟩
def TLY_BW_TX.OCTETS : Fld := ⟨.TLY_BW_TX, 0, 64⟩
def TLY_BW_TX.MAX_OCTETS : Fld := ⟨.TLY_BW_TX, 64, 64⟩

end F
end Sys2Proof.Machine
end

