-- ==== Sys2Proof/Machine/State.lean ====
section
/-!
DEFINITION. The state of the ZX6448 as plain data: the register space, the free-running counter, every memory, queue, context and
timer the chapters name, and the queue of commands waiting. Also the reasons a command can stop with, and the state after reset.
-/
namespace Sys2Proof.Machine

/-- Reasons to stop with a fault. No meaning of this model stops with one: every command has an effect or none. Safe. -/
inductive Fault where
  /-- Raised by nothing: the block names no condition that stops it whole (safe). -/
  | none
  deriving DecidableEq, Repr

/-- Reasons to refuse a command. -/
inductive Refusal where
  /-- Answered by an arm of `exec` whose command has no meaning yet; safe. -/
  | notModelled (mnemonic : String)
  deriving DecidableEq, Repr

/-- What a downstream PLOAM message of the Loom says (R402, R417); the octets of a message are the recommendation's. -/
inductive PloamKind where
  | deactivate
  | disableSn (on : Bool) (sn : Nat)
  | assign (sn : Nat)
  | rangingTime (eqd : Nat)
  | requestRegistration
  | burstProfile (p : Nat)
  | host (content : List Byte)
  deriving DecidableEq, Repr

/-- A downstream PLOAM message as sent: the ONU-ID, 1,023 for the broadcast one, its SeqNo and its MIC (R418, R419). -/
structure Ploam where
  onu : Nat
  kind : PloamKind
  seq : Nat
  mic : Nat
  deriving DecidableEq, Repr

/-- One burst of a BWmap (R429, R432): the frame that grants it, the ONU-ID, its allocations as Alloc-ID entry and payload bytes, the burst
profile, its place from the start of the upstream frame and its length in bytes of line time; what it is, 0 data, 1 a PLOAMu burst of a
LOST ONU, 2 ranging, 3 a serial-number window; and whether it has been withdrawn after its BWmap was sent (R434). -/
structure Grant where
  frame : Nat
  onu : Nat
  allocs : List (Nat × Nat)
  profile : Nat
  start : Nat
  len : Nat
  kind : Nat
  withdrawn : Bool
  deriving DecidableEq, Repr

/-- How the part drives a pin. -/
inductive Drive where
  | low | high | floating
  deriving DecidableEq, Repr

/-- R606: how the part drives the pins of a DDR4 channel: RESET_N, both CKE, CK_T, CK_C, the other command and address pins, and DQ, CB and
DQS; and whether their termination is on. -/
structure DdrPins where
  resetN : Drive
  cke : Drive
  ckT : Drive
  ckC : Drive
  command : Drive
  data : Drive
  termination : Bool
  deriving DecidableEq, Repr

/-- R606: the pins of a channel that is not enabled. -/
def DdrPins.off : DdrPins := ⟨.low, .low, .low, .high, .high, .floating, false⟩

/-- What the part sends out of itself, in the order sent: the record of the model's own outputs (assumption 5). -/
inductive Output where
  /-- A frame on an exit (R615), its octets without FCS, and whether its FCS is sent good (R290). -/
  | frame (exit : Nat) (octets : List Byte) (fcsGood : Bool)
  /-- A PAUSE frame on a port with its quanta (R97). -/
  | pause (port quanta : Nat)
  /-- Remote Fault ordered sets start or stop on a port (R100). -/
  | remoteFault (port : Nat) (on : Bool)
  /-- A posted write to host memory (R486). -/
  | hostWrite (addr : Nat) (octets : List Byte)
  /-- An MSI-X message (R503). -/
  | msix (vector : Nat) (addr data : Nat)
  /-- PM_PME (R509). -/
  | pme
  /-- A flit replayed on a Seam channel (R28). -/
  | seamReplay (toTraffic : Bool) (channel : Nat)
  /-- A 272-octet slot content on a fabric lane (R360). -/
  | swatch (lane : Nat) (octets : List Byte)
  /-- A link-control message on a fabric lane (R372). -/
  | linkControl (lane : Nat) (octets : List Byte)
  /-- A command on a DDR4 channel (R344): channel, command and its operand. -/
  | dram (channel : Nat) (command : String) (operand : Nat)
  /-- The pins of a DDR4 channel that is not enabled (R606). -/
  | ddrPins (channel : Nat) (pins : DdrPins)
  /-- A downstream frame of a tree (R393, R400): its superframe counter, PON-ID and TOL, BWmap, PLOAM messages, and XGEM frames as
  Port-ID, key index and payload. -/
  | dsFrame (tree sfc ponId tol : Nat) (bwmap : List Grant) (ploam : List Ploam) (xgem : List (Nat × Nat × List Byte))
  /-- Octets for the management channel of a FlexE instance (R106, R495). -/
  | flexeMgmt (inst : Nat) (octets : List Byte)
  /-- A pulse on a tree's burst-mode receiver reset pin: its width in ns and the level it takes (R397). -/
  | pbrReset (tree width : Nat) (level : Bool)
  /-- The burst-mode receiver reset pin of a tree is held at its asserted level, or released (R397). -/
  | pbrHold (tree : Nat) (held : Bool)
  /-- PPS_OUT rises or falls (R482). -/
  | ppsOut (level : Bool)
  /-- A message on an Emvex lane (R578). -/
  | emvex (lane : Nat) (octets : List Byte)
  deriving DecidableEq, Repr

/-! ### Time (chapter 14) -/

/-- One entry of the transmit timestamp queue (R475). -/
structure TxStamp where
  stamp : BitVec 80
  id : Nat
  exit : Nat
  anchor : Bool
  late : Bool
  dropped : Bool
  deriving DecidableEq, Repr

/-- What the time chapter keeps beside its registers and the counter. -/
structure Time where
  /-- R476: the transmit timestamp queue, oldest first, at most 512. -/
  txts : List TxStamp
  /-- R465: the last local second the per-second latch acted on, none before the first. -/
  latchedSecond : Option Nat
  /-- R465: the last local second PPS_OUT acted on. -/
  ppsSecond : Option Nat
  /-- R482: the level of PPS_OUT, and the FRC value at which it falls. -/
  ppsOut : Bool
  ppsFall : Nat
  /-- R483: the FRC value of the last captured edge of PPS_IN. -/
  ppsLast : Option Nat
  deriving DecidableEq, Repr

/-! ### Events and the host interface (chapter 15) -/

/-- One MSI-X vector of the event controller (R498 to R503). -/
structure Vec where
  /-- R498: the active source, if any. -/
  active : Option Nat
  /-- R499: an open coalescing window. -/
  window : Bool
  /-- R499: the FRC value at which the window opened. -/
  opened : Nat
  /-- R499: unmasked fires counted in the window. -/
  fires : Nat
  /-- R499: EVC_COAL(v) as it stood when the window opened. -/
  needFires : Nat
  needTime : Nat
  /-- R499, R502: the vector is due. -/
  due : Bool
  /-- R503: a committed message not yet sent; it shows in the pending-bit array. -/
  message : Bool
  deriving DecidableEq, Repr

/-- A vector at reset. -/
def Vec.idle : Vec := ⟨none, false, 0, 0, 0, 0, false, false⟩

/-- The state of the PCIe link (R508, R511). -/
inductive Link where
  | down | l0 | l1 | l2
  deriving DecidableEq, Repr

/-- One ring's indices (R489); RUN, ERR and W are in HST_RING_STATUS. -/
structure Ring where
  tail : BitVec 32
  head : BitVec 32
  deriving DecidableEq, Repr

/-- A ring at reset. -/
def Ring.idle : Ring := ⟨0, 0⟩

/-- A message bound for a punt ring outside the packet path (KIND 2 to 4 of the punt entry): its ring, octets 12 to 62 of its entry, and
its content. -/
structure Msg where
  ring : Nat
  fields : List Byte
  content : List Byte
  deriving DecidableEq, Repr

/-- What R511 saves to Varnish when the host-interface domain sleeps. -/
structure SleepImage where
  regs : Sparse (BitVec 320)
  vecs : Sparse Vec
  rings : Sparse Ring
  msix : Sparse (BitVec 32)
  deriving DecidableEq, Repr

/-- The host interface and event controller beside their registers. -/
structure HostIf where
  link : Link
  d3hot : Bool
  /-- The enables of the PCIe function that the model keeps of its configuration space (R484, R614). -/
  msixEnable : Bool
  functionMask : Bool
  pmeEn : Bool
  pmeStatus : Bool
  /-- R485: the MSI-X table, 256 words of 32 bits. -/
  msix : Sparse (BitVec 32)
  vecs : Sparse Vec
  rings : Sparse Ring
  /-- R497: fires of sources whose cause has been set and that the event controller has not yet taken, oldest first. -/
  raised : List Nat
  /-- Messages that wait for a slot of their punt ring. -/
  messages : List Msg
  /-- R511: the host-interface domain sleeps; fires latched in the shadow. -/
  asleep : Bool
  shadow : List Nat
  wakeN : Bool
  saved : Option SleepImage
  /-- R15: latched high words of 64-bit registers, by the address of the high word. -/
  readLatch : Sparse (Option (BitVec 32))
  /-- R16: held low words of 64-bit registers, by their address. -/
  writeHold : Sparse (Option (BitVec 32))
  /-- R477, R481: words latched by a read of word 0 of a multi-word register, by the address of word 0: word 1 and word 2. -/
  wordLatch : Sparse (Option (BitVec 64 × BitVec 64))
  /-- What the last read returned (the model's own). -/
  readData : BitVec 64
  deriving DecidableEq, Repr

/-! ### Tally (chapter 16) -/

/-- A counter pair (R514). -/
structure Pair where
  bytes : BitVec 64
  pkts : BitVec 56
  invalid : Bool
  deriving DecidableEq, Repr

/-- A pair that has counted nothing. -/
def Pair.zero : Pair := ⟨0, 0, false⟩

/-- Tally beside its registers. -/
structure Tally where
  /-- R514: on-die pairs, and the DRAM value of DRAM-backed ones. -/
  pairs : Sparse Pair
  /-- R514: P, the DRAM-backed pairs the Ground image gives. -/
  dramPairs : Nat
  /-- R517: the update cache of DRAM-backed pairs: pending sums, and the FRC value of the first update of each entry. -/
  cache : Sparse Pair
  cacheFirst : Sparse Nat
  /-- R520: the readable values while a freeze is in force. -/
  frozenPairs : Option (Sparse Pair)
  frozenRegs : Sparse (BitVec 320)
  /-- R521: a THAW held while FREEZING. -/
  thawHeld : Bool
  /-- R525: octets of the running window by ingress port and by port node, and the next boundary's window length in ms. -/
  rxOctets : Sparse Nat
  txOctets : Sparse Nat
  bwNext : Nat
  /-- R525: the boundary at which the last window was latched. -/
  bwAt : Nat
  /-- R526, R529: the two LFSRs of each quad. -/
  traceLfsr : Sparse (BitVec 32)
  isampLfsr : Sparse (BitVec 32)
  /-- R527: tagged packets in flight, and the next TRACE_ID. -/
  tagged : Nat
  nextTrace : BitVec 32
  /-- R528: trace records written in the running second of the FRC, and that second. -/
  traceSecond : Nat
  traceWritten : Nat
  deriving DecidableEq, Repr

/-! ### Seam, pace and power (chapters 1, 2 and 19) -/

/-- The Seam (R26 to R32). -/
structure Seam where
  /-- R31: replays of the flit in hand that failed one after another, by direction. -/
  failedFwd : Nat
  failedTrf : Nat
  /-- R32: flits replayed in the running 1 s window, by direction. -/
  replaysFwd : Nat
  replaysTrf : Nat
  deriving DecidableEq, Repr

/-- The Seam at reset. -/
def Seam.idle : Seam := ⟨0, 0, 0, 0⟩

/-- The pace loop (R57 to R67). -/
structure Pace where
  /-- R58: the rails' setpoints as steps k of 2.5 mV above 680 mV. -/
  railF : Nat
  railT : Nat
  /-- R59: the last windows reported, each by the FRC value at which it ended and the lowest pace of each die's monitors in it. -/
  lowF : List (Nat × Nat)
  lowT : List (Nat × Nat)
  /-- R57, R59: FRC values of the last boundary of windows and of the last step of the loop. -/
  windowAt : Nat
  loopAt : Nat
  /-- R61: consecutive windows in which every monitor reported at least 1000; admission opens at 100. -/
  goodRun : Nat
  admitOpen : Bool
  /-- R64: consecutive short windows at the ceiling, and whether this run has declared its deficit. -/
  shortRun : Nat
  /-- R65: FRC value at which level 1 was entered. -/
  level1At : Nat
  /-- R67: FRC value since which the recovery condition has held without a break. -/
  recoverAt : Option Nat
  /-- R66: admissions still allowed in the running window at level 2, and those that each ingress port has had in it. -/
  admitLeft : Nat
  admitted : Sparse Nat
  /-- R125: the weighted round robin of admission: what each port has been served for its weight, and the level each quad has reached. -/
  served : Sparse Nat
  quadV : Sparse Nat
  deriving DecidableEq, Repr

/-- The pace loop at reset: both rails at 0.80 V (R61). -/
def Pace.idle : Pace := ⟨48, 48, [], [], 0, 0, 0, false, 0, 0, none, 0, [], [], []⟩

/-! ### Ethernet and FlexE (chapter 3) -/

/-- One MAC or client beside its registers. -/
structure Mac where
  /-- R98: FRC value since which a down condition has been present, or absent. -/
  badSince : Option Nat
  goodSince : Option Nat
  /-- R97: PAUSE sent and not yet released, and the FRC value of the next repeat. -/
  pauseSent : Bool
  pauseNext : Nat
  /-- R97: transmission paused until this FRC value. -/
  txPaused : Bool
  txResume : Nat
  /-- R101: octets held in the port FIFO. -/
  fill : Nat
  /-- R35: packets of the ingress port in order of arrival, not yet released. -/
  order : List Nat
  /-- R98: of a FlexE client, its link is up. -/
  up : Bool
  /-- R94: the configuration in force while the frame being received is still governed by it; none where the register's is. -/
  held : Option Nat
  /-- R121: of a FlexE client under Local Fault, the FRC value up to which the microseconds of the fault have been counted. -/
  faultAt : Option Nat
  deriving DecidableEq, Repr

/-- A MAC at reset. -/
def Mac.idle : Mac := ⟨none, none, false, 0, false, 0, 0, [], false, none, none⟩

/-- The running value of a received overhead field and how many frames in a row have carried it (R112). -/
structure Debounce where
  value : Nat
  run : Nat
  deriving DecidableEq, Repr

/-- One FlexE instance (R108 to R115). -/
structure Inst where
  /-- R109: tracked candidates, by block position, at most 16. -/
  candidates : List Nat
  /-- R112: received CR, CA, CCC and advertised calendar. -/
  cr : Debounce
  ca : Debounce
  ccc : Debounce
  cal : Debounce
  /-- R111: position within the overhead frame of the next overhead block, 0 the marker. -/
  phase : Nat
  /-- R115: RPF sent in the transmitted overhead. -/
  rpfTx : Bool
  /-- R116: FRC value since which the instance has been failed. -/
  failedAt : Option Nat
  deriving DecidableEq, Repr

/-- An instance at reset. -/
def Inst.idle : Inst := ⟨[], ⟨0, 0⟩, ⟨0, 0⟩, ⟨0, 0⟩, ⟨0, 0⟩, 0, false, none⟩

/-- One FlexE group's exchange (R112 to R118). -/
structure Grp where
  /-- R118: FRC value at which CR was set. -/
  crAt : Nat
  /-- R113: CCC flipped and the new page not yet in use. -/
  flipping : Bool
  /-- R112: the calendar the peer advertises: by page, the client of each calendar position. -/
  rxCalA : Sparse Nat
  rxCalB : Sparse Nat
  /-- CA set in the transmitted overhead, in answer to a received CR. -/
  caTx : Bool
  deriving DecidableEq, Repr

/-- A group at reset. -/
def Grp.idle : Grp := ⟨0, false, [], [], false⟩

/-! ### Packets, contexts and stages (chapters 4 and 5) -/

/-- Where a packet stands on its path (R33). -/
inductive Loc where
  | fifo | ctx (c : Nat) | pipeIn | stageIn (s : Nat) | acting (s : Nat) | stageDone (s : Nat) | reorder
  | seamUp | enqueueIn | queued (q : Nat) | voq (v : Nat) | hostOut (ring : Nat)
  | reading | building | seamDown | egressIn | egStageIn (s : Nat) | egActing (s : Nat) | egStageDone (s : Nat) | txFifo | gone
  deriving DecidableEq, Repr

/-- The entry a lookup's commit acts on (R173, R236): none, an exact-match slot by its first SRAM word with the place of its
table's unit count, or a Stencil position; with its generation. -/
inductive HitRef where
  | none | exact (word : Nat) (gen : Nat) (age : Nat) | stencil (unit : Nat) (gen : Nat)
  deriving DecidableEq, Repr

/-- What one lookup yields (R172). -/
structure Lookup where
  hit : Bool
  res : BitVec 128
  ref : HitRef
  /-- R172: "not inspected" of a Pounce handoff. -/
  ni : Bool
  deriving DecidableEq, Repr

/-- An early lookup in flight (R154 to R156). -/
structure Early where
  tpl : Nat
  key : Nat
  result : Lookup
  deriving DecidableEq, Repr

/-- A running action program (R177, R180). -/
structure Act where
  pc : Nat
  pos : Nat
  t : Sparse (BitVec 32)
  res : BitVec 128
  key : Nat
  tpl : Nat
  /-- The stage waits for the Pounce engine's answer (R250). -/
  pounce : Bool
  executed : Nat
  hit : Bool
  deriving DecidableEq, Repr

/-- A trace tag (R526 to R528). -/
structure Tag where
  id : BitVec 32
  seq : Nat
  lost : Bool
  deriving DecidableEq, Repr

/-- The fields that travel with a packet to the egress stages (R194). -/
structure Carry where
  destMod : Nat
  queue : Nat
  adj : Nat
  cls : Nat
  dp : Nat
  eprof : Nat
  etag : Nat
  deriving DecidableEq, Repr

/-- Why a packet is bound for the host (R491): entry kind, reason and ring. -/
structure Punt where
  kind : Nat
  reason : Nat
  ring : Nat
  deriving DecidableEq, Repr

/-- A copy or mirror made at the enqueue (R38, R185): to the host under a reason, or a mirror session. -/
inductive Copy where
  | host (p : Punt)
  | mirror (session : Nat)
  deriving DecidableEq, Repr

/-- What the ingress reorder point has settled for a packet (R185): nothing yet, forwarded, another pass, to the host, or only
its copies go on. -/
inductive Fate where
  | open | forward | recirc | host (p : Punt) | copiesOnly
  deriving DecidableEq, Repr

/-- What was observed of a frame as it was received. -/
structure Rx where
  inPort : Nat
  /-- R35: the port whose order it keeps: its ingress port, or 208 + pipe on passes 2 and 3. -/
  oport : Nat
  stamp : BitVec 80
  anchor : Bool
  gem : Nat
  subCtx : Nat
  injTag : Nat
  /-- R102: FCS failed, or longer than MAX_FRAME, or cut short (R621). -/
  bad : Bool
  /-- The whole frame has arrived. -/
  arrived : Bool
  /-- R103: the frame found no room after its header was admitted. -/
  overflow : Bool
  /-- Octets of the frame on the line, FCS included. -/
  size : Nat
  /-- Octets it holds in its port FIFO. -/
  held : Nat
  /-- R103: while it arrives, the FRC value at which its first octets had been written, and the FIFO's fill just before each release since:
  FRC value and octets. -/
  since : Nat
  fills : List (Nat × Nat)
  deriving DecidableEq, Repr

/-- A packet in the module. -/
structure Pkt where
  /-- R246: its octets as they stood at the start of the running pass, without FCS. -/
  data : List Byte
  rx : Rx
  loc : Loc
  /-- R46, R47: the stamp of the ingress pass, and the stamp of the egress stages. -/
  coat : Bool
  stamped : Bool
  /-- R51: how many flips had been made when it was stamped. -/
  coatGen : Nat
  egCoat : Bool
  egStamped : Bool
  pass : Nat
  pipe : Nat
  /-- R28, R168: its place in the order of the pipe or of the Seam channel it stands in. -/
  seq : Nat
  /-- R132: the header vector, 512 octets; R175: the disposition record, 32 octets. -/
  hv : Sparse Byte
  drec : Sparse Byte
  early : Option Early
  act : Option Act
  /-- R189: found in excess by a policer; R181: an action fault ended a stage; R148: DROP ended the parse. -/
  excess : Bool
  fault : Bool
  parseDrop : Bool
  /-- R516: the per-stage index of the stage that first set DROP. -/
  dropStage : Option Nat
  /-- R34, R516: the per-stage index of the last stage it ran. -/
  lastStage : Nat
  /-- R190: policers (true) and counter pairs (false) charged on a provisional length, with the charge made. -/
  charges : List (Bool × Nat × Nat)
  carry : Carry
  fate : Fate
  copies : List Copy
  tag : Option Tag
  /-- R290: the error mark. -/
  err : Bool
  /-- R478: launch value in FRC units, and whether the packet carries a launch time. -/
  launch : Option Nat
  late : Bool
  /-- R330: the FRC value of its enqueue. -/
  enqAt : Nat
  /-- Buffers of its Canvas copy, and of its DRAM segment (R266, R281). -/
  canvas : List Nat
  dram : List Nat
  /-- R286: its Canvas buffers are those of a run-ahead copy that has committed. -/
  ahead : Bool
  /-- R287, R341: bursts of its DRAM segment still to be returned, by a run-ahead step or to the scheduler; a word among them has been
  uncorrectable; and it has been served from DRAM. -/
  reads : Nat
  spoilt : Bool
  fromDram : Bool
  /-- The port node that dequeued it, whether it was cut through while still arriving, and its octets in the MAC transmit FIFO (R615). -/
  node : Nat
  cut : Bool
  inFifo : Nat
  /-- The octets a mirror copy is cut to, 0 for none. -/
  trunc : Nat
  /-- Where it joined the traffic die: 0 from an ingress pipe, 1 from the resequencer, 2 injected in direct mode. -/
  origin : Nat
  deriving DecidableEq, Repr

/-- A Sketch thread context (R123 and the execution model of chapter 4). -/
structure Ctx where
  pkt : Nat
  g : Sparse (BitVec 32)
  cursor : Nat
  pc : Nat
  running : Bool
  ended : Bool
  insns : Nat
  deriving DecidableEq, Repr

/-- What the coat swap keeps beside its registers (R50, R51, R197, R198). -/
structure Coat where
  /-- R50: flips made since the start. -/
  gen : Nat
  /-- R50: FRC value at which admission and entry stopped. -/
  pausedAt : Nat
  /-- R51: FRC value of the last flip. -/
  flippedAt : Nat
  /-- R51: the 64 µs deadline has expired without the bank having retired. -/
  expired : Bool
  /-- R52: packets that won against the deadline. -/
  winners : List Nat
  /-- R198: the running pause began at the armed time. -/
  byTime : Bool
  deriving DecidableEq, Repr

/-- A token bucket with a carried fraction (R189): level, fraction of a unit, time of last access; `none` before the first. -/
structure Bucket where
  level : Int
  frac : Nat
  last : Nat
  deriving DecidableEq, Repr

/-! ### Tables (chapters 6 and 7) -/

/-- One Stencil unit: the unit itself and its key copy (chapter 6, the Stencil memory). -/
structure StnUnit where
  key : BitVec 80
  mask : BitVec 80
  tag : BitVec 2
  copyKey : BitVec 80
  copyMask : BitVec 80
  hit : Bool
  suspect : Bool
  gen : BitVec 4
  /-- The key copy holds an uncorrectable error. -/
  copyUe : Bool
  deriving DecidableEq, Repr

/-- A unit at reset. -/
def StnUnit.free : StnUnit := ⟨0, 0, 0, 0, 0, false, false, 0, false⟩

/-- The unit count of an ageing table (R237). -/
structure AgeCount where
  u : Nat
  /-- FRC value at which it next increments. -/
  next : Nat
  /-- The AGE_LIMIT that applies until then. -/
  limit : Nat
  deriving DecidableEq, Repr

/-- One notification remembered by the filter (R241). -/
structure Noted where
  kind : Nat
  bank : Nat
  table : Nat
  key : Nat
  keyw : Nat
  time : Nat
  deriving DecidableEq, Repr

/-- Memory words found in error by their code: correctable and uncorrectable (R159, R182, R201, R258). -/
structure BadWords where
  sketchCe : List Nat
  sketchUe : List Nat
  actionCe : List Nat
  actionUe : List Nat
  /-- R182: single-bit errors of action memory corrected on fetch; the specification names no register that shows it. -/
  actionFixed : Nat
  sramCe : List Nat
  sramUe : List Nat
  pounceCe : List Nat
  pounceUe : List Nat
  /-- R290: words of Canvas in error, each by a byte address in it. -/
  canvasCe : List Nat
  canvasUe : List Nat
  deriving DecidableEq, Repr

/-- The tables and the Stencil memory. -/
structure Tables where
  /-- R200: the table SRAM by 64-bit word. -/
  sram : Sparse (BitVec 64)
  /-- The Stencil units by position 4,096 × bank + row. -/
  stn : Sparse StnUnit
  /-- R213: USED bits of the adjacencies. -/
  used : Sparse Bool
  /-- R237: unit counts by 256 × bank + table. -/
  ages : Sparse AgeCount
  /-- R241: the sets of the notification filter. -/
  filter : Sparse (List Noted)
  /-- R241: the key of the filter's hash, drawn at every start. -/
  hashKey : Nat
  /-- R223: the row each bank's scrub visits next, and when. -/
  scrubRow : Sparse Nat
  scrubAt : Sparse Nat
  /-- R249: the state words of the Pounce engine. -/
  pncState : Sparse (BitVec 128)
  /-- R256: the inspection budget in bits. -/
  budget : Option Bucket
  deriving DecidableEq, Repr

/-! ### Easel, OTP, flash and Varnish (chapter 17), and the power stage (chapter 19) -/

/-- The persistent region of Varnish (R554): the fabric epoch, retired buffers and marks for retirement, and the start counters. -/
structure Persist where
  epoch : Nat
  retired : List Nat
  marks : List Nat
  coldStarts : Nat
  deriving DecidableEq, Repr

/-- What Easel, the flash, OTP and Varnish hold. -/
structure Easel where
  /-- R532: the attached flash; an octet never written reads as 0xFF (assumption 25). -/
  flash : Sparse Byte
  /-- EAS_MBOX_BUF. -/
  mbox : Sparse Byte
  /-- R546: the key hashes of OTP; the bits are in EAS_OTP_STATUS. -/
  keyHash : Sparse (BitVec 256)
  serial : BitVec 128
  /-- R557: the two mirror copies with their write counts, and the FRC value of the first change not yet mirrored. -/
  mirrors : Sparse (Option (Nat × Persist))
  persist : Persist
  dirtySince : Option Nat
  warmStarts : Nat
  warmFailed : Bool
  /-- R567: the measurements. -/
  mEasel : BitVec 256
  mImage : BitVec 256
  mCoat : BitVec 256
  measPending : Bool
  /-- R565, R566: the measurement of each Loom bank's microcode, the trees on bank 1, and the bank last loaded. -/
  mLoom0 : Option (BitVec 256)
  mLoom1 : Option (BitVec 256)
  trees1 : BitVec 64
  lastLoaded : Bool
  /-- R566: the trees that a LOOM_SWAP in progress has yet to move. -/
  swapping : BitVec 64
  /-- The sequence number of the next log record. -/
  logSeq : Nat
  /-- R538, R560: DEVICE_CFG and SEC_VERSION of the running image. -/
  deviceCfg : List Byte
  secVersion : Nat
  /-- R553: STATE has become READY since PORST_N was released. -/
  readyOnce : Bool
  /-- R558, R560: a warm restart that RESTART_WARM has asked for: the slot of a new image, or none to keep the running one. -/
  warmAsked : Option (Option Nat)
  /-- R561: sectors of the flash that an aborted write has left unfinished. -/
  badSectors : List Nat
  deriving DecidableEq, Repr

/-- The power stage (R596 to R601). -/
structure Power where
  /-- Every rail is up. -/
  on : Bool
  /-- R597: a latched shutdown holds. -/
  latched : Bool
  /-- R601: the FRC-independent hold after PWR_OK has ended and PORST_N has been released: a cold start may run. -/
  released : Bool
  /-- R599: the alarm conditions entered and not yet cleared by their hysteresis, as the bits of EAS_PWR_ALARM. -/
  inAlarm : BitVec 7
  /-- The FRC value of the last telemetry update. -/
  lastTelem : Nat
  /-- R601: the cold start to come was asked by a short pulse. -/
  shortReset : Bool
  deriving DecidableEq, Repr

/-! ### Palette (chapter 8) -/

/-- What Palette keeps beside its registers. A buffer is named by its pointer (R263). -/
structure Palette where
  /-- R265: metadata and link words. -/
  words : Sparse (BitVec 32)
  links : Sparse (BitVec 32)
  /-- ALLOC and PREFETCH buffers held, by 2 × owner + pool. -/
  held : Sparse Nat
  /-- R263, R273, R274: the octets of each buffer by its pointer: Canvas byte 256 i + j is octet j of buffer i. An octet past the end of a
  listed content is 0, and a buffer not listed holds what the last building of the free lists put into it. -/
  contents : Sparse (List Byte)
  /-- R273, R274: the head of each list: stripe k at place k, chain c at place 16 + c. A head not listed is where that building put it. -/
  heads : Sparse Nat
  /-- The buffers, and the DRAM channels, that the last building of the lists left out. -/
  skip : List Nat
  skipCh : List Nat
  lastStripe : Nat
  /-- R277, R278: the head cache and the push cache. -/
  headCache : List Nat
  pushCache : List Nat
  popChain : Nat
  pushChain : Nat
  /-- R293: the chains are being rebuilt. -/
  rebuilding : Bool
  /-- R341: pointers lost with bundles whose read failed. -/
  bundleLost : Nat
  /-- R291: the error tracker: pointer and corrected errors, oldest first. -/
  tracker : List (Nat × Nat)
  /-- R294 to R296: the running sweep's tally, the audit FIFO (pointer, owner, reclaimed, age), and the FRC value of the last
  automatic sweep. -/
  tally : Int
  audit : List (Nat × Nat × Bool × Nat)
  auditAt : Nat
  /-- The answer to the last request made by a command of its own: a pointer, or null for "pool empty". -/
  answer : Nat
  deriving DecidableEq, Repr

/-! ### The scheduler (chapter 9) -/

/-- Shaper levels and virtual times of a queue or node (R308, R312): levels with carried fractions in 1/8000 byte, the FRC value of the
last refill and the period in force, the tag, and V of each band for the children. -/
structure Node where
  /-- R315: the shaper record in force, that of the last refill. -/
  sh : Nat
  level : Int
  minLevel : Int
  frac : Nat
  minFrac : Nat
  last : Nat
  period : Nat
  tag : Nat
  v : List Nat
  /-- Of a port node: the packets dequeued under it and not yet gone, oldest first. -/
  out : List Nat
  deriving DecidableEq, Repr

/-- A node at reset. -/
def Node.idle : Node := ⟨0, 0, 0, 0, 0, 0, 0, 0, [0, 0, 0, 0], []⟩

/-- A service queue or VOQ (R304, R325 and the segments of chapter 8). -/
structure Queue where
  /-- 0 DISABLED, 1 EMPTY, 2 BACKLOGGED, 3 FLUSHING. -/
  state : Nat
  depth : Nat
  /-- Packets of H, S and T in queue order. -/
  head : List Nat
  spill : List Nat
  tail : List Nat
  /-- R280: S exists. -/
  split : Bool
  /-- R284: packets of S with a run-ahead copy, and whether it has landed. -/
  copies : List (Nat × Bool)
  drops : Nat
  /-- R311: dequeues of the last 10 µs: FRC value and octets. -/
  recent : List (Nat × Nat)
  /-- R319: the credit balance of a VOQ. -/
  cred : Int
  deriving DecidableEq, Repr

/-- A queue at reset. -/
def Queue.idle : Queue := ⟨0, 0, [], [], [], false, [], 0, [], 0⟩

/-- The scheduler beside its registers. VOQ v is queue 1,048,576 + v. -/
structure Sched where
  queueCfg : Sparse (BitVec 64)
  queueShaper : Sparse (BitVec 128)
  subCfg : Sparse (BitVec 64)
  subShaper : Sparse (BitVec 128)
  voqCfg : Sparse (BitVec 64)
  /-- SCH_PNODE_SHAPER as applied when word 1 was written. -/
  portShaper : Sparse (BitVec 128)
  queueNode : Sparse Node
  subNode : Sparse Node
  portNode : Sparse Node
  queues : Sparse Queue
  /-- R322: the FRC value at which a port hold ends. -/
  holdEnd : Sparse Nat
  /-- R320: tags of the VOQ classes, V of their bands, and the module each class served last. -/
  classTag : Sparse Nat
  bandV : Sparse Nat
  lastMod : Sparse Nat
  /-- R330: the FRC value of the last sampling of the watched queues. -/
  sampledAt : Nat
  deriving DecidableEq, Repr

/-! ### DRAM (chapter 10) -/

/-- What a read is for: nothing that waits for it, a packet served from DRAM, or the run-ahead copy of one (R285, R287). -/
inductive ReadFor where
  | nothing | serve (k : Nat) | copy (k : Nat)
  deriving DecidableEq, Repr

/-- A queued burst of a channel (R344): its arrival, whether it writes, its channel address, the real-time port it reads for, 0 for
none, and what it is for; of a write, that its bank is in in-order mode until it issues (R345); of a read, that a write to its burst has
issued since (R340). -/
structure Req where
  at_ : Nat
  write : Bool
  addr : Nat
  rt : Nat
  for_ : ReadFor
  ordered : Bool
  stale : Bool
  deriving DecidableEq, Repr

/-- One DDR4 channel. -/
structure Channel where
  /-- R344: queued requests in order of arrival, and reads issued and not yet returned, oldest first. -/
  requests : List Req
  inFlight : List Req
  /-- R344: the write queue is being drained. -/
  draining : Bool
  /-- Open rows by 16 × rank + 4 × bank group + bank. -/
  openRows : Sparse (Option Nat)
  /-- R348: refresh intervals postponed, and the FRC value of the last refresh. -/
  owed : Nat
  refreshedAt : Nat
  /-- R350: neighbour rows to refresh before another ACT of their bank: bank and row. -/
  nbr : List (Nat × Nat)
  /-- R354: uncorrectable codewords by the FRC value they were met at, those of the last second. -/
  ueAt : List Nat
  /-- R352: the FRC value of the last pass of the 128 ms timer, and the training steps left of the running pass. -/
  periodicAt : Nat
  steps : Nat
  /-- R343: the burst that the patrol scrub reads next, by its address, and the FRC value of its last read. -/
  scrubPtr : Nat
  scrubAt : Nat
  deriving DecidableEq, Repr

/-- A channel at reset. -/
def Channel.idle : Channel := ⟨[], [], false, [], 0, 0, [], [], 0, 0, 0, 0⟩

/-- The DDR4 subsystem beside its registers. -/
structure Dram where
  channels : Sparse Channel
  /-- R342: the error log: entries of 64 bits, oldest first, at most 32; and whether one has been lost since the last was posted. -/
  log : List (BitVec 64)
  lost : Bool
  tempAt : Nat
  /-- R357: a further GO waits for the running training step to end. -/
  goHeld : Bool
  /-- R346: the real-time ports in panic. -/
  panic : List Nat
  /-- R341, R358: Alloc-IDs whose history record is stale. -/
  staleAllocs : List Nat
  /-- R338: the 80 bits by which a codeword differs from what was written, by 2^40 × channel + byte address / 8. -/
  struck : Sparse Nat
  /-- R339: devices that have failed whole: channel and device. -/
  dead : List (Nat × Nat)
  deriving DecidableEq, Repr


/-! ### The fabric (chapter 11) -/

/-- A Swatch: its 128-bit header (R363) and its payload of 256 octets. -/
structure Swatch where
  hdr : Nat
  payload : List Byte
  deriving DecidableEq, Repr

/-- One fabric lane beside its registers. -/
structure Lane where
  /-- R360: the slot of the group of 20 that comes next. -/
  pos : Nat
  /-- R376: the transmit queue, relayed data, relayed credit and own credit Swatches, and a reachability Swatch that is due. -/
  tx : List Swatch
  relayData : List Swatch
  relayCred : List Swatch
  credits : List Swatch
  reach : Bool
  /-- R372, R374: the neighbour has been heard; its latest bitmap, bit d for module d; the MSG_SEQ last applied. -/
  heard : Bool
  bits : Nat
  lastMsg : Option Nat
  deriving DecidableEq, Repr

/-- A lane at reset. -/
def Lane.idle : Lane := ⟨0, [], [], [], [], false, false, 0, none⟩

/-- R380: a Swatch held in a stream's window: its SEQ, its arrival, its buffer and itself. -/
structure Held where
  seq : Nat
  at_ : Nat
  ptr : Nat
  sw : Swatch
  deriving DecidableEq, Repr

/-- R368, R380, R382: the receiving side of one stream: expected sequence number, units issued in all and outstanding, the Swatches
held, and the deadline of its gap. -/
structure Stream where
  e : Nat
  cum : BitVec 32
  out : Nat
  held : List Held
  deadline : Option Nat
  /-- R382: the arrival that the deadline counts from: a change of HOLD leaves a deadline as it was computed. -/
  since : Option Nat
  /-- R266: Swatches discarded for want of a buffer: SEQ, whether FIRST, and octets. -/
  refused : List (Nat × Bool × Nat)
  deriving DecidableEq, Repr

/-- A stream at reset. -/
def Stream.idle : Stream := ⟨0, 0, 0, [], none, none, []⟩

/-- The fabric interface beside its registers. Streams are numbered 8 × module + class. -/
structure Fab where
  lanes : Sparse Lane
  /-- R375: by destination, the lane from which the pointer looks for the next of the cycle. -/
  ptrs : Sparse Nat
  /-- R365, R367: SEQ of the next Swatch and the last CUM applied, by stream. -/
  seqs : Sparse Nat
  lasts : Sparse (BitVec 32)
  streams : Sparse Stream
  /-- R372, R373: MSG_SEQ, what the module can deliver to, and the FRC value of the last reachability Swatches. -/
  msgSeq : Nat
  deliver : Nat
  reachAt : Nat
  /-- R369: the FRC value of the last refresh. -/
  refreshAt : Nat
  /-- R378: the FRC value at which a destination became unreachable, by destination; the start where nothing is listed. -/
  unreachAt : Sparse Nat
  startAt : Nat
  /-- R371: the FRC value before which no data or credit Swatch is sent; none until the new epoch is set. -/
  quiet : Option Nat
  /-- R376: packets dequeued from VOQs and not yet cut whole, oldest first, and the Swatches that the one being cut has given. -/
  building : List Nat
  cutAt : Nat
  /-- R385: Swatches of lanes that have left their cycle, still to be assigned again. -/
  again : List Swatch
  /-- R378: destinations that have been unreachable beyond UNREACH and are unreachable still. -/
  gone : List Nat
  deriving DecidableEq, Repr

/-! ### The Loom (chapters 12 and 13) -/

/-- A downstream PLOAM message that waits for a frame (R402, R403): its ONU-ID and content, the FRC value from which a frame may carry it,
how often it is still to be sent, whether LOOM_ONU_CMD waits for it, and the host's tag. -/
structure Waiting where
  onu : Nat
  kind : PloamKind
  ready : Nat
  times : Nat
  cmd : Bool
  tag : Option Nat
  deriving DecidableEq, Repr

/-- A BWmap computed and not yet sent (R432): its frame, its bursts, and the allocations deferred from it (R429). -/
structure BwMap where
  frame : Nat
  grants : List Grant
  deferred : List (Nat × Nat)
  deriving DecidableEq, Repr

/-- One tree beside its registers. -/
structure Tree where
  /-- R400: the superframe counter of the current frame, and the FRC value of its start; none before the first. -/
  sfc : Nat
  frameAt : Option Nat
  maps : List BwMap
  /-- Grants of ranging and serial-number windows to come. -/
  special : List Grant
  /-- Bursts whose BWmap has been sent and that have not yet arrived, in order of arrival. -/
  expected : List Grant
  /-- The burst being received, and its arrival stamp. -/
  burst : Option Grant
  stamp : BitVec 80
  stampAnchor : Bool
  /-- R427: the frame at which the running DBA cycle starts, and its length. -/
  cycleStart : Nat
  cycleLen : Nat
  /-- R402: messages waiting, by their place in the order. -/
  urgent : List Waiting
  assign : List Waiting
  host : List Waiting
  /-- R404: the frame of the last Burst_Profile, the profile whose turn it is, how often each has been sent, and that count when VALID
  was set. -/
  bpFrame : Nat
  bpNext : Nat
  bpSent : List Nat
  bpValid : List Nat
  /-- Quiet intervals to come, in ns from E0 of frame 0. -/
  quiets : List (Nat × Nat)
  /-- R409: the FRC value of the last serial-number window, and the open window's frame. -/
  snAt : Nat
  snOpen : Option Nat
  /-- R396: frames in a row without signal, and the frame being gathered with whether a signal was seen. -/
  losRun : Nat
  losFrame : Option (Nat × Bool)
  /-- R397: PBR_RESET pulses due. -/
  resetDue : Nat
  /-- XGEM frames that wait for a downstream frame: Port-ID, GEM entry plus 1 (0 of an OMCC frame) and payload in the clear. -/
  xgem : List (Nat × Nat × List Byte)
  /-- R455, R456: observations of the last 255 frames, newest first; frames in a row without one; and frames left of a probe. -/
  obs : List Bool
  quietRun : Nat
  probeLeft : Nat
  /-- R446: the active broadcast key index and a switch to come. -/
  active : Nat
  switch : Option (Nat × Nat)
  /-- SeqNo of the last broadcast message. -/
  seq : Nat
  /-- R394: LOOM_TREE_TIMING as the running downstream frame found it. -/
  timing : Option Nat
  /-- R431: LOOM_DBA_CFG as the running DBA cycle found it. -/
  dba : Option Nat
  /-- R454: intervals of granted bursts, in ns from E0 of frame 0, each with its ONU. -/
  granted : List (Nat × Nat × Nat)
  deriving DecidableEq, Repr

/-- A tree at reset. -/
def Tree.idle : Tree where
  sfc := 0
  frameAt := none
  maps := []
  special := []
  expected := []
  burst := none
  stamp := 0
  stampAnchor := false
  cycleStart := 0
  cycleLen := 0
  urgent := []
  assign := []
  host := []
  bpFrame := 0
  bpNext := 0
  bpSent := [0, 0, 0, 0]
  bpValid := [0, 0, 0, 0]
  quiets := []
  snAt := 0
  snOpen := none
  losRun := 0
  losFrame := none
  resetDue := 0
  xgem := []
  obs := []
  quietRun := 0
  probeLeft := 0
  active := 0
  switch := none
  seq := 0
  timing := none
  dba := none
  granted := []

/-- One ONU record beside its register. -/
structure Onu where
  /-- R412: RTD_est in 1/16 ns, and whether the ranging window is open. -/
  rtdEst : Int
  window : Bool
  /-- R416: the FRC value at which TO2 expires, and the frame of the last PLOAMu burst. -/
  to2At : Nat
  pollFrame : Nat
  /-- R443: offsets of the last locked bursts in 1/16 ns, newest first. -/
  offsets : List Int
  /-- R437: phase and gain of the locked burst before the last, and the FRC value of the last. -/
  prev : Option (Nat × Nat)
  lockedAt : Option Nat
  /-- R436: no burst has been received since OPERATING was entered; how often each profile had been broadcast then. -/
  fresh : Bool
  bpAt : List Nat
  /-- R418: SeqNo of the last message, and the messages sent by SeqNo, with the host's tag. -/
  seq : Nat
  sent : List (Nat × Option Nat)
  /-- R446. -/
  active : Nat
  switch : Option (Nat × Nat)
  deriving DecidableEq, Repr

/-- A record at reset. -/
def Onu.idle : Onu := ⟨0, false, 0, 0, [], none, none, false, [0, 0, 0, 0], 0, [], 0, none⟩

/-- One Alloc-ID entry beside its register. -/
structure AllocSt where
  /-- R427: the total of the running cycle, and the bytes deferred to the next frame. -/
  total : Nat
  deferred : Nat
  /-- R427: fractional remainders of the four rates, in 1/64 byte. -/
  rems : List Nat
  /-- R426: the occupancy last reported less later grants; payload granted and filled in the cycle; demand carried from a dropped grant. -/
  demand : Nat
  granted : Nat
  filled : Nat
  carried : Nat
  /-- Payload committed by frame, of bursts not yet received. -/
  committed : List (Nat × Nat)
  /-- R430: the frame of the last burst. -/
  lastFrame : Nat
  /-- R444: the partial XGEM frame: its Port-ID and octets; its stamp; and the FRC value of the last burst. -/
  partial_ : Option (Nat × List Byte)
  partialStamp : BitVec 80
  /-- R444: the frame of the burst that brought its last fragment. -/
  partialFrame : Nat
  burstAt : Nat
  /-- R450. -/
  bucket : Option Bucket
  /-- R415, R431: the running DBA cycle found the entry enabled, and its DBRU. -/
  inCycle : Bool
  dbru : Bool
  deriving DecidableEq, Repr

/-- An entry at reset. -/
def AllocSt.idle : AllocSt := ⟨0, 0, [0, 0, 0, 0], 0, 0, 0, 0, [], 0, none, 0, 0, 0, none, false, false⟩

/-- The Loom beside its registers. -/
structure Loom where
  trees : Sparse Tree
  /-- By 256 × tree + ONU-ID. -/
  onus : Sparse Onu
  allocs : Sparse AllocSt
  /-- R445: keys: 4 × (256 × tree + ONU-ID) + 1 and + 2 unicast, + 3 PLOAM integrity; 65,536 + 4 × tree + index broadcast. -/
  keys : Sparse (Option Nat)
  deriving DecidableEq, Repr

/-! ### Emvex (chapter 18) -/

/-- One Emvex lane beside its register: the FRC values of the last message and of the last ANNOUNCE; what the peer last announced; the SEQ
of the next message; the T_TX of the last TIME received with its receive stamp in local time; and the last REPLY of the running commit:
ARMED, REFUSED, SWAPPED, first refuser and its reason. -/
structure EmvLane where
  heardAt : Option Nat
  announceAt : Option Nat
  hops : Nat
  timeOk : Bool
  seq : Nat
  echo : Option (Nat × Nat)
  reply : Option (List Nat)
  deriving DecidableEq, Repr

/-- A lane at reset. -/
def EmvLane.idle : EmvLane := ⟨none, none, 0, false, 0, none, none⟩

/-- A commit as a module knows it (R586 to R590): its identifier, T and coat; its own result: 0 armed, else the reason of its refusal;
whether it has swapped; the FRC value at which its REPLY is due, and whether that has been sent; and whether the comparison at
T + 100 ms is still to come. -/
structure Commit where
  id : Nat
  at_ : Nat
  coat : Nat
  own : Nat
  swapped : Bool
  due : Nat
  sent : Bool
  live : Bool
  deriving DecidableEq, Repr

/-- Emvex beside its registers. -/
structure Emv where
  lanes : Sparse EmvLane
  /-- R573: the MOD_ID expected at the far end of each downlink, 65,535 for none. -/
  children : List Nat
  /-- R585: modules this shelf manager has heard announce READY; MAP_VER; whether a MAP has arrived. -/
  ready : List Nat
  mapVer : Nat
  mapHeard : Bool
  /-- R584: offsets of the last TIME messages from the followed uplink in units of 2^-16 ns, newest first, at most 3. -/
  offsets : List Int
  /-- R582, R584: the uplink that was followed last. -/
  lastFollow : Option Nat
  /-- R578: the multiples at which ANNOUNCE, TIME and MAP were last sent. -/
  announcedAt : Nat
  timeAt : Nat
  mapAt : Nat
  /-- R579: the FRC value since which this manager acts, and since which its peer link has been down. -/
  actAt : Nat
  peerDownAt : Nat
  /-- R586: the last COMMIT_ID, and the commit known. -/
  commitId : Nat
  commit : Option Commit
  /-- R590: the active coat each module last announced, and when. -/
  coats : Sparse (Option (Nat × Nat))
  /-- Messages discarded and counted (R575, R577, R587). -/
  discards : Nat
  deriving DecidableEq, Repr

/-! ### The machine -/

/-- The whole block. -/
structure State where
  /-- The commands waiting, first in, first out. -/
  pending : List Instr
  /-- The register space: key 256 × index + code of the register; an unlisted register holds its reset value (R21). -/
  regs : Sparse (BitVec 320)
  /-- R458: the free-running counter, in units of 2^-16 ns. -/
  frc : BitVec 80
  time : Time
  host : HostIf
  tally : Tally
  seam : Seam
  pace : Pace
  /-- By ingress port number of R104 and R132; recirculation on pipe k is 208 + k. -/
  macs : Sparse Mac
  insts : Sparse Inst
  grps : Sparse Grp
  /-- Packets by number, and the next number. -/
  pkts : Sparse (Option Pkt)
  nextPkt : Nat
  ctxs : Sparse (Option Ctx)
  coat : Coat
  policers : Sparse (Option Bucket)
  reasons : Sparse (Option Bucket)
  puntAgg : Option Bucket
  /-- R49: packets holding a stamp of each bank. -/
  inflightA : Nat
  inflightB : Nat
  badWords : BadWords
  tables : Tables
  easel : Easel
  power : Power
  palette : Palette
  sched : Sched
  dram : Dram
  fab : Fab
  loom : Loom
  emv : Emv
  /-- How many values the specification leaves open have been drawn (assumption 6). The model's own field. -/
  freeCtr : Nat
  /-- What the part has sent out, oldest first. The model's own field. -/
  outputs : List Output
  deriving DecidableEq, Repr

/-- The machine right after reset: every register at its Reset column (R21), every memory and queue empty. -/
def State.reset : State where
  pending := []
  regs := []
  frc := 0
  time := ⟨[], none, none, false, 0, none⟩
  host := ⟨.down, false, false, false, false, false, [], [], [], [], [], false, [], false, none, [], [], [], 0⟩
  tally := ⟨[], 0, [], [], none, [], false, [], [], 1000, 0, [], [], 0, 0, 0, 0⟩
  seam := Seam.idle
  pace := Pace.idle
  macs := []
  insts := []
  grps := []
  pkts := []
  nextPkt := 0
  ctxs := []
  coat := ⟨0, 0, 0, false, [], false⟩
  policers := []
  reasons := []
  puntAgg := none
  inflightA := 0
  inflightB := 0
  badWords := ⟨[], [], [], [], 0, [], [], [], [], [], []⟩
  tables := ⟨[], [], [], [], [], 0, [], [], [], none⟩
  easel := ⟨[], [], [], 0, [], ⟨0, [], [], 0⟩, none, 0, false, 0, 0, 0, false, none, none, 0, false, 0, 0, [], 0, false, none, []⟩
  power := ⟨true, false, true, 0, 0, false⟩
  palette := ⟨[], [], [], [], [], [], [], 15, [], [], 7, 7, false, 0, [], 0, [], 0, 0xFFFFFFFF⟩
  sched := ⟨[], [], [], [], [], [], [], [], [], [], [], [], [], [], 0⟩
  dram := ⟨[], [], false, 0, false, [], [], [], []⟩
  fab := ⟨[], [], [], [], [], 0, 0, 0, 0, [], 0, none, [], 0, [], []⟩
  loom := ⟨[], [], [], []⟩
  emv := ⟨[], List.replicate 16 65535, [], 0, false, [], none, 0, 0, 0, 0, 0, 0, none, [], 0⟩
  freeCtr := 0
  outputs := []

end Sys2Proof.Machine
end

