-- ==== Sys2Proof/Machine/Store.lean ====
section
/-!
DEFINITION. Reading and writing a sparse store, in its one canonical form: places strictly rising, and no listed entry equal to
what an unlisted place reads as. The register file, the table SRAM, the buffer metadata and every other large array of the part are
such stores.
-/
namespace Sys2Proof.Machine

/-- What place `k` holds; an unlisted place holds `d`. -/
def Sparse.read {α : Type} (d : α) : Sparse α → Nat → α
  | [], _ => d
  | (j, v) :: m, k => if j = k then v else Sparse.read d m k

/-- List nothing at place `k`. -/
def Sparse.forget {α : Type} : Sparse α → Nat → Sparse α
  | [], _ => []
  | (j, w) :: m, k => if j = k then Sparse.forget m k else (j, w) :: Sparse.forget m k

/-- Put `v` at place `k`, whose initial content is `d`, in the rising order of places. -/
def Sparse.write {α : Type} [DecidableEq α] (d : α) : Sparse α → Nat → α → Sparse α
  | [], k, v => if v = d then [] else [(k, v)]
  | (j, w) :: m, k, v =>
    if v = d then Sparse.forget ((j, w) :: m) k
    else if k < j then (k, v) :: (j, w) :: m
    else if k = j then (k, v) :: m
    else (j, w) :: Sparse.write d m k v

/-- The canonical form: places strictly rising from `lo`, none holding its initial content. -/
def Sparse.wfFrom {α : Type} [DecidableEq α] (d : Nat → α) : Nat → Sparse α → Bool
  | _, [] => true
  | lo, (j, v) :: m => decide (lo ≤ j) && !decide (v = d j) && Sparse.wfFrom d (j + 1) m

/-- The canonical form of a whole store. -/
def Sparse.wf {α : Type} [DecidableEq α] (d : Nat → α) (m : Sparse α) : Bool :=
  Sparse.wfFrom d 0 m

/-- Forget every entry whose place lies from `lo` to `lo + n - 1`. -/
def Sparse.clear {α : Type} (m : Sparse α) (lo n : Nat) : Sparse α :=
  m.filter (fun e => !(decide (lo ≤ e.1) && decide (e.1 < lo + n)))

/-- Octets from a place on, as a big-endian number: the octet of the lowest place is the most significant (R11). -/
def Sparse.readBE (m : Sparse Byte) (a : Nat) : Nat → Nat
  | 0 => 0
  | n + 1 => (Sparse.read 0 m a).toNat * 256 ^ n + Sparse.readBE m (a + 1) n

/-- Write the low `n` octets of `v` from a place on, the most significant first (R11). -/
def Sparse.writeBE (m : Sparse Byte) (a : Nat) : Nat → Nat → Sparse Byte
  | 0, _ => m
  | n + 1, v => Sparse.writeBE (Sparse.write 0 m a (BitVec.ofNat 8 (v / 256 ^ n))) (a + 1) n v

/-- Octets from a place on, as a little-endian number (R10). -/
def Sparse.readLE (m : Sparse Byte) (a : Nat) : Nat → Nat
  | 0 => 0
  | n + 1 => (Sparse.read 0 m a).toNat + 256 * Sparse.readLE m (a + 1) n

/-- Write the low `n` octets of `v` from a place on, the least significant first (R10). -/
def Sparse.writeLE (m : Sparse Byte) (a : Nat) : Nat → Nat → Sparse Byte
  | 0, _ => m
  | n + 1, v => Sparse.writeLE (Sparse.write 0 m a (BitVec.ofNat 8 v)) (a + 1) n (v / 256)

/-- The octets from a place on, as a list. -/
def Sparse.octets (m : Sparse Byte) (a : Nat) : Nat → List Byte
  | 0 => []
  | n + 1 => Sparse.read 0 m a :: Sparse.octets m (a + 1) n

/-- Write a list of octets from a place on. -/
def Sparse.putOctets (m : Sparse Byte) (a : Nat) : List Byte → Sparse Byte
  | [] => m
  | b :: bs => Sparse.putOctets (Sparse.write 0 m a b) (a + 1) bs

/-- Bits `[lo + len - 1 : lo]` of a number. -/
def bitsOf (v lo len : Nat) : Nat := v / 2 ^ lo % 2 ^ len

/-- A number with its bits `[lo + len - 1 : lo]` replaced. -/
def setBits (v lo len x : Nat) : Nat :=
  v / 2 ^ (lo + len) * 2 ^ (lo + len) + x % 2 ^ len * 2 ^ lo + v % 2 ^ lo

/-- The octets of a number, the most significant first, `n` of them (R11). -/
def octetsBE : Nat → Nat → List Byte
  | 0, _ => []
  | n + 1, v => BitVec.ofNat 8 (v / 256 ^ n) :: octetsBE n v

/-- A list of octets as a number, the first the most significant (R11). -/
def natBE (bs : List Byte) : Nat := bs.foldl (fun a b => a * 256 + b.toNat) 0

/-- A list of octets as a number, the first the least significant (R10). -/
def natLE : List Byte → Nat
  | [] => 0
  | b :: bs => b.toNat + 256 * natLE bs

/-- The octets of a number, the least significant first, `n` of them (R10). -/
def octetsLE : Nat → Nat → List Byte
  | 0, _ => []
  | n + 1, v => BitVec.ofNat 8 v :: octetsLE n (v / 256)

end Sys2Proof.Machine
end

