-- ==== Sys2Proof/Machine/Ops.lean ====
section
/-!
DEFINITION. The named operations every meaning is written with: registers and their fields, the counter and local time, events,
counters and sampling, packets, and what the part sends out.
-/
namespace Sys2Proof.Machine

/-! ### Replacing one part of the state -/

def State.withRegs (s : State) (x : Sparse (BitVec 320)) : State := { s with regs := x }
def State.withFrc (s : State) (x : BitVec 80) : State := { s with frc := x }
def State.withTime (s : State) (x : Time) : State := { s with time := x }
def State.withHost (s : State) (x : HostIf) : State := { s with host := x }
def State.withTally (s : State) (x : Tally) : State := { s with tally := x }
def State.withSeam (s : State) (x : Seam) : State := { s with seam := x }
def State.withPace (s : State) (x : Pace) : State := { s with pace := x }
def State.withMacs (s : State) (x : Sparse Mac) : State := { s with macs := x }
def State.withInsts (s : State) (x : Sparse Inst) : State := { s with insts := x }
def State.withGrps (s : State) (x : Sparse Grp) : State := { s with grps := x }
def State.withPkts (s : State) (x : Sparse (Option Pkt)) : State := { s with pkts := x }
def State.withNextPkt (s : State) (x : Nat) : State := { s with nextPkt := x }
def State.withCtxs (s : State) (x : Sparse (Option Ctx)) : State := { s with ctxs := x }
def State.withCoat (s : State) (x : Coat) : State := { s with coat := x }
def State.withPolicers (s : State) (x : Sparse (Option Bucket)) : State := { s with policers := x }
def State.withReasons (s : State) (x : Sparse (Option Bucket)) : State := { s with reasons := x }
def State.withPuntAgg (s : State) (x : Option Bucket) : State := { s with puntAgg := x }
def State.withInflightA (s : State) (x : Nat) : State := { s with inflightA := x }
def State.withInflightB (s : State) (x : Nat) : State := { s with inflightB := x }
def State.withBadWords (s : State) (x : BadWords) : State := { s with badWords := x }
def State.withTables (s : State) (x : Tables) : State := { s with tables := x }
def State.withEasel (s : State) (x : Easel) : State := { s with easel := x }
def State.withPower (s : State) (x : Power) : State := { s with power := x }
def State.withPalette (s : State) (x : Palette) : State := { s with palette := x }
def State.withSched (s : State) (x : Sched) : State := { s with sched := x }
def State.withDram (s : State) (x : Dram) : State := { s with dram := x }
def State.withFab (s : State) (x : Fab) : State := { s with fab := x }
def State.withLoom (s : State) (x : Loom) : State := { s with loom := x }
def State.withEmv (s : State) (x : Emv) : State := { s with emv := x }
def State.withFreeCtr (s : State) (x : Nat) : State := { s with freeCtr := x }
def State.withOutputs (s : State) (x : List Output) : State := { s with outputs := x }

/-! ### Registers -/

/-- The Reset column of entry `i` of a register (R21), for the maps whose reset value depends on the entry too. -/
def Reg.resetAt (r : Reg) (i : Nat) : BitVec 320 :=
  match r with
  | .GLZ_EPROF => if i < 64 then 0 else 0xFF
  | .PAL_POOL_CFG => BitVec.ofNat 320 ((if i = 0 then 655360 else 0) + 2048 * 2 ^ 32)
  | .PAL_FREE_CNT => if i = 0 then 655360 else 0
  | .EVC_SRC_CFG => BitVec.ofNat 320 (i % 64 + 64)
  | .LOOM_ALLOC =>
    BitVec.ofNat 320 (2 ^ 32 + (if i < 12288 then i / 256 * 2 + i % 256 * 2 ^ 8 + i % 256 * 2 ^ 16 else 0))
  | r => BitVec.ofNat 320 r.info.reset

/-- The place of entry `i` of a register in the register space. -/
def Reg.key (r : Reg) (i : Nat) : Nat := i * 256 + r.ctorIdx

/-- What the register space holds at reset, by place. -/
def regsReset (k : Nat) : BitVec 320 :=
  match Reg.all[k % 256]? with
  | some r => r.resetAt (k / 256)
  | none => 0

/-- Entry `i` of a register. -/
def State.reg (s : State) (r : Reg) (i : Nat) : BitVec 320 :=
  Sparse.read (r.resetAt i) s.regs (r.key i)

/-- Put a value in entry `i` of a register. -/
def State.setReg (s : State) (r : Reg) (i : Nat) (v : BitVec 320) : State :=
  s.withRegs (Sparse.write (r.resetAt i) s.regs (r.key i) v)

/-- A field of entry `i` of its register. -/
def State.rd (s : State) (f : Fld) (i : Nat := 0) : Nat :=
  bitsOf (s.reg f.reg i).toNat f.lo f.len

/-- Set a field of entry `i` of its register, modulo its width. -/
def State.wr (s : State) (f : Fld) (i : Nat) (v : Nat) : State :=
  s.setReg f.reg i (BitVec.ofNat 320 (setBits (s.reg f.reg i).toNat f.lo f.len v))

/-- A one-bit field as a truth value. -/
def State.on (s : State) (f : Fld) (i : Nat := 0) : Bool := s.rd f i != 0

/-- Set or clear a one-bit field. -/
def State.wrBit (s : State) (f : Fld) (i : Nat) (b : Bool) : State := s.wr f i (if b then 1 else 0)

/-- Count in a field that wraps. -/
def State.incWrap (s : State) (f : Fld) (i : Nat := 0) (n : Nat := 1) : State := s.wr f i (s.rd f i + n)

/-- Count in a field that saturates at all ones. -/
def State.incSat (s : State) (f : Fld) (i : Nat := 0) (n : Nat := 1) : State :=
  s.wr f i (min (s.rd f i + n) (2 ^ f.len - 1))

/-- Raise a field to a value it is below. -/
def State.raiseTo (s : State) (f : Fld) (i : Nat) (v : Nat) : State :=
  if s.rd f i < v then s.wr f i (min v (2 ^ f.len - 1)) else s

/-! ### Events and outputs -/

/-- R497: a cause of source `n` has been set; the event controller takes the fire with EVENT_FIRE. -/
def State.raise (s : State) (n : Nat) : State :=
  s.withHost { s.host with raised := s.host.raised ++ [n] }

/-- Hardware sets a status bit that is a cause of source `n` (R497). -/
def State.setCause (s : State) (f : Fld) (i : Nat) (n : Nat) : State := (s.wr f i 1).raise n

/-- Send something out of the part. -/
def State.emit (s : State) (o : Output) : State := s.withOutputs (s.outputs ++ [o])

/-- Draw `n` values the specification leaves open (assumption 6). -/
def State.freeDraws (s : State) (n : Nat) : State := s.withFreeCtr (s.freeCtr + n)

/-- Draw a value the specification leaves open (assumption 6). -/
def State.freeDraw (s : State) : State := s.freeDraws 1

/-- The value that `freeDraw` draws. -/
def State.freeVal (s : State) : Nat := Config.freeValue s.freeCtr

/-! ### The counter and local time (R458, R460) -/

/-- The FRC in units of 2^-16 ns. -/
def State.now (s : State) : Nat := s.frc.toNat

/-- The whole nanoseconds of the FRC (R458). -/
def State.nowNs (s : State) : Nat := s.now / 65536

/-- Nanoseconds, microseconds and milliseconds in units of the FRC. -/
def ns (n : Nat) : Nat := n * 65536
def us (n : Nat) : Nat := n * 65536000
def ms (n : Nat) : Nat := n * 65536000000

/-- The FRC reaches `t`; it never runs back (R458), and a time its 80 bits cannot hold is not reached. -/
def State.advanceTo (s : State) (t : Nat) : State :=
  if s.now < t ∧ t < 2 ^ 80 then s.withFrc (BitVec.ofNat 80 t) else s

/-- The next multiple of `period` after the FRC. -/
def State.nextMultiple (s : State) (period : Nat) : Nat := (s.now / period + 1) * period

/-- The multiple of `period` that is acted upon next, when `last` was acted upon last: the FRC's own value or the next one. -/
def State.boundary (s : State) (last period : Nat) : Nat :=
  if s.now % period = 0 ∧ last < s.now then s.now else s.nextMultiple period

/-- A stamp of 1/16 ns resolution: the FRC with fraction bits 11:0 at 0 (R468), `sub` sixteenths after it. -/
def State.stampAt (s : State) (sub : Nat) : BitVec 80 := BitVec.ofNat 80 ((s.now / 4096 + sub) * 4096)

/-- R460: the FRC reading `f` as local time under anchor set `a`, modulo 2^80. -/
def State.localOf (s : State) (a f : Nat) : Nat :=
  let f0 : Int := s.rd F.TIM_ANCHOR.F0 a * 65536 + s.rd F.TIM_ANCHOR.F0_FRAC a
  let t0 : Int := s.rd F.TIM_ANCHOR.T0 a * 65536 + s.rd F.TIM_ANCHOR.T0_FRAC a
  let rate : Int := (BitVec.ofNat 32 (s.rd F.TIM_ANCHOR.RATE a)).toInt
  let d : Int := (f : Int) - f0
  ((t0 + d + d * rate / 2 ^ 40) % 2 ^ 80).toNat

/-- F0 of the inactive set, in units of the FRC. -/
def State.armedF0 (s : State) : Nat :=
  s.rd F.TIM_ANCHOR.F0 (1 - s.rd F.TIM_STATUS.ACTIVE) * 65536 + s.rd F.TIM_ANCHOR.F0_FRAC (1 - s.rd F.TIM_STATUS.ACTIVE)

/-- R461, R463: the active anchor set: from its F0 onward it is the armed one. -/
def State.anchor (s : State) : Nat :=
  if s.on F.TIM_STATUS.ARMED ∧ s.armedF0 ≤ s.now then 1 - s.rd F.TIM_STATUS.ACTIVE else s.rd F.TIM_STATUS.ACTIVE

/-- Local time now, in units of 2^-16 ns (R461). -/
def State.localNow (s : State) : Nat := s.localOf s.anchor s.now

/-- Local time now in whole nanoseconds. -/
def State.localNs (s : State) : Nat := s.localNow / 65536

/-- R464. -/
def State.timeValid (s : State) : Bool := s.on F.TIM_STATUS.VALID

/-- R465, R478: the FRC value at which a local time is first reached: the inverse of R460 under the active set, by its rate. -/
def State.frcOfLocal (s : State) (localUnits : Nat) : Nat :=
  let a := s.anchor
  let f0 : Int := s.rd F.TIM_ANCHOR.F0 a * 65536 + s.rd F.TIM_ANCHOR.F0_FRAC a
  let t0 : Int := s.rd F.TIM_ANCHOR.T0 a * 65536 + s.rd F.TIM_ANCHOR.T0_FRAC a
  let rate : Int := (BitVec.ofNat 32 (s.rd F.TIM_ANCHOR.RATE a)).toInt
  let c : Int := f0 + ((localUnits : Int) - t0) * 2 ^ 40 / (2 ^ 40 + rate)
  let reaches (f : Int) : Bool := decide ((localUnits : Int) ≤ t0 + (f - f0) + (f - f0) * rate / 2 ^ 40)
  (([c - 1, c, c + 1].find? reaches).getD (c + 2)).toNat

/-! ### Tally: device pairs, sampling counters, undo counters (chapter 16) -/

/-- R514, R516: a device pair counts one packet of `bytes` octets. -/
def State.tally1 (s : State) (i bytes : Nat) : State :=
  let p := Sparse.read Pair.zero s.tally.pairs i
  s.withTally { s.tally with
    pairs := Sparse.write Pair.zero s.tally.pairs i
      { p with bytes := p.bytes + BitVec.ofNat 64 bytes, pkts := p.pkts + 1 } }

/-- R335: the number of enabled channels. -/
def State.channelCount (s : State) : Nat := 8 + 4 * s.rd F.DMC_CFG.CHANNELS

/-- R336, R518: the channel of a DRAM-backed pair is lost. -/
def State.pairLost (s : State) (i : Nat) : Bool :=
  decide (262144 ≤ i) && s.on F.DMC_CH_STATUS.LOST (i % s.channelCount)

/-- R515, R517: `pkts` and `bytes` (which may be negative for a true-up) are added to pair `i`; a DRAM-backed pair through the
update cache. -/
def State.pairAdd (s : State) (i : Nat) (pkts : Nat) (bytes : Int) : State :=
  let add (p : Pair) : Pair := { p with bytes := p.bytes + BitVec.ofInt 64 bytes, pkts := p.pkts + BitVec.ofNat 56 pkts }
  if i < 262144 then
    s.withTally { s.tally with
      pairs := Sparse.write Pair.zero s.tally.pairs i (add (Sparse.read Pair.zero s.tally.pairs i)) }
  else if s.pairLost i then s.incSat F.TLY_STATUS.LOST
  else
    let old := Sparse.read Pair.zero s.tally.cache i
    if old = Pair.zero ∧ 65536 ≤ s.tally.cache.length then (s.wr F.TLY_STATUS.CACHE_OVF 0 1).incSat F.TLY_STATUS.LOST
    else
      s.withTally { s.tally with
        cache := Sparse.write Pair.zero s.tally.cache i (add old)
        cacheFirst := if old = Pair.zero then Sparse.write 0 s.tally.cacheFirst i s.now else s.tally.cacheFirst }

/-- R514: pair `i` is one that a program may count in. -/
def State.programPair (s : State) (i : Nat) : Bool :=
  decide (98304 ≤ i) && decide (i < 262144 + s.tally.dramPairs)

/-- R524: sampling counter `i` counts one event. -/
def State.sampleAt (s : State) (i : Nat) : State :=
  if s.rd F.TLY_SAMP_CNT.COUNT i = 0xFFFFFFFF then
    let s1 := (s.wr F.TLY_SAMP_CNT.COUNT i (s.rd F.TLY_SAMP_CNT.RELOAD i)).wr F.TLY_SAMP_CNT.OVF_TS i s.nowNs
    let s2 := if s.on F.TLY_SAMP_CFG.OVF i then s1.incSat F.TLY_SAMP_CFG.MISSED i else s1.wr F.TLY_SAMP_CFG.OVF i 1
    s2.raise (212 + i)
  else s.incWrap F.TLY_SAMP_CNT.COUNT i

/-- R523: an event of kind `ev` with its filter value; every counter that matches counts it. -/
def State.sample (s : State) (ev filt : Nat) : State :=
  (List.range 32).foldl (fun s i =>
    if s.rd F.TLY_SAMP_CFG.EVENT i = ev ∧
        (s.rd F.TLY_SAMP_CFG.FILTER i = 0xFFFF ∨ s.rd F.TLY_SAMP_CFG.FILTER i = filt)
    then s.sampleAt i else s) s

/-- R34, R523: a discard at row `row` of the table of points of discard. -/
def State.discardAt (s : State) (row : Nat) : State := s.sample 2 row

/-- R530: an undo of kind `j`. -/
def State.undo (s : State) (j : Nat) : State := s.incWrap F.TLY_SPEC_CNT.COUNT j

/-! ### Rings (R488 to R494) -/

/-- Ring `k`. -/
def State.ring (s : State) (k : Nat) : Ring := Sparse.read Ring.idle s.host.rings k

/-- Replace ring `k`. -/
def State.setRing (s : State) (k : Nat) (r : Ring) : State :=
  s.withHost { s.host with rings := Sparse.write Ring.idle s.host.rings k r }

/-- The entries of ring `k` (R488). -/
def State.ringSize (s : State) (k : Nat) : Nat := 2 ^ s.rd F.HST_RING_CFG.SIZE_LOG2 k

/-- The device index W of ring `k`. -/
def State.ringW (s : State) (k : Nat) : BitVec 32 := BitVec.ofNat 32 (s.rd F.HST_RING_STATUS.W k)

/-- R509, R511: the device issues no memory request. -/
def State.dmaStopped (s : State) : Bool := s.host.d3hot || s.host.asleep

/-- R491, R492, R493, R509: ring `k` takes no further entry. A ring that does not run takes none (assumption 15). -/
def State.ringFull (s : State) (k : Nat) : Bool :=
  s.dmaStopped || !s.on F.HST_RING_STATUS.RUN k ||
    (if k < 64 then s.ringW k == (s.ring k).tail
     else decide ((s.ringW k - (s.ring k).head).toNat = s.ringSize k))

/-- The event source of ring `k` (R497). -/
def ringSource (k : Nat) : Nat := 144 + k

/-- The host address of the slot index W names (R488). -/
def State.ringSlot (s : State) (k : Nat) : Nat :=
  s.rd F.HST_RING_CFG.BASE k + 64 * ((s.ringW k).toNat % s.ringSize k)

/-- W of ring `k` advances and its source fires (R497). -/
def State.ringAdvance (s : State) (k : Nat) : State :=
  (s.wr F.HST_RING_STATUS.W k ((s.ringW k).toNat + 1)).raise (ringSource k)

/-- R508: the device leaves L1 for a write or a message. -/
def State.leaveL1 (s : State) : State :=
  if s.host.link = .l1 then (s.withHost { s.host with link := .l0 }).wr F.HST_PCIE_STATUS.L1 0 0 else s

/-- R486: a posted write of the device to host memory. -/
def State.hostPost (s : State) (a : Nat) (bs : List Byte) : State := s.leaveL1.emit (.hostWrite a bs)

/-- R490: a 64-octet entry, DONE set, is written to ring `k` as one write, and W advances. -/
def State.ringPost (s : State) (k : Nat) (entry : List Byte) : State :=
  (s.hostPost (s.ringSlot k) (entry.take 63 ++ [0x80])).ringAdvance k

/-- A list of octets cut or filled with zeros to `n` octets. -/
def padTo (n : Nat) (bs : List Byte) : List Byte := bs.take n ++ List.replicate (n - bs.length) 0

/-! ### Ports and their FIFOs (chapter 3) -/

/-- The MAC, client, tree, ring or recirculation entry of ingress port `p`. -/
def State.mac (s : State) (p : Nat) : Mac := Sparse.read Mac.idle s.macs p

/-- Replace it. -/
def State.setMac (s : State) (p : Nat) (m : Mac) : State := s.withMacs (Sparse.write Mac.idle s.macs p m)

/-- The rate of an Ethernet port in Mb/s (R91). -/
def speedMbps (speed : Nat) : Nat :=
  match speed with
  | 0 => 10000 | 1 => 25000 | 2 => 50000 | 3 => 100000 | 4 => 200000 | 5 => 400000 | 6 => 800000 | _ => 0

/-- R105: the calendar slots of 5 Gb/s that carry a client on the transmit page in use. -/
def State.clientSlots (s : State) (c : Nat) : Nat :=
  let g := s.rd F.FLX_CLIENT_CFG.GROUP c
  let page := s.rd F.FLX_GRP_STATUS.TX_PAGE g
  ((List.range 320).filter (fun k =>
    s.rd F.FLX_CAL.CLIENT (640 * g + 320 * page + k) == s.rd F.FLX_CLIENT_CFG.CLIENT_ID c)).length

/-- The rate of an ingress port in kb/s (R101, R125); that of a recirculation entry, which R125 does not name, is the model's
(assumption 13). -/
def State.portKbps (s : State) (p : Nat) : Nat :=
  if p < 64 then speedMbps (s.rd F.ETH_PORT_CFG.SPEED p) * 1000
  else if p < 112 then
    if !s.on F.LOOM_TREE_CFG.TYPE (p - 64) then 9953280
    else match s.rd F.LOOM_TREE_CFG.US_RATE (p - 64) with
      | 0 => 12441600 | 1 => 24883200 | _ => 49766400
  else if p < 176 then 5000000 * s.clientSlots (p - 112)
  else if p < 208 then s.rd F.HST_RING_CFG.RATE (p - 144) * 1000000
  else 100000000

/-! ### Packets and contexts -/

/-- Packet `n`, if it is in the module. -/
def State.pkt (s : State) (n : Nat) : Option Pkt := Sparse.read none s.pkts n

/-- Replace packet `n`. -/
def State.setPkt (s : State) (n : Nat) (p : Pkt) : State := s.withPkts (Sparse.write none s.pkts n (some p))

/-- Forget packet `n`. -/
def State.dropPkt (s : State) (n : Nat) : State := s.withPkts (Sparse.write none s.pkts n none)

/-- A new packet takes the next number. -/
def State.addPkt (s : State) (p : Pkt) : State :=
  (s.setPkt s.nextPkt p).withNextPkt (s.nextPkt + 1)

/-- Context `c`, if it is in use. -/
def State.ctx (s : State) (c : Nat) : Option Ctx := Sparse.read none s.ctxs c

/-- Replace context `c`. -/
def State.setCtx (s : State) (c : Nat) (x : Option Ctx) : State := s.withCtxs (Sparse.write none s.ctxs c x)

/-- Packets standing at a place that `f` picks out. -/
def State.countPkts (s : State) (f : Pkt → Bool) : Nat :=
  (s.pkts.filter (fun e => match e.2 with | some p => f p | none => false)).length

/-- R49: packets holding a stamp of bank `b` become `n`. -/
def State.setInflight (s : State) (b : Bool) (n : Nat) : State :=
  if b then (s.withInflightB n) else s.withInflightA n

/-- R49. -/
def State.inflight (s : State) (b : Bool) : Nat := if b then s.inflightB else s.inflightA

/-- A bank as a number: 0 A, 1 B. -/
def bankNo (b : Bool) : Nat := if b then 1 else 0

/-! ### The gates of a register access (R53 to R56, R553, R597) -/

/-- R597, R601: PORST_N is asserted, or PWR_OK is low: no access is answered. -/
def State.inReset (s : State) : Bool := !s.power.on || !s.power.released

/-- R53: the windows of EAS and of HST. -/
def easWindow (a : Nat) : Bool := decide (a < 0x100000)
def hstWindow (a : Nat) : Bool := decide (0x200000 ≤ a) && decide (a < 0x400000)

/-- R53: the windows of the traffic die. -/
def trafficWindow (a : Nat) : Bool :=
  (decide (0x2000000 ≤ a) && decide (a < 0x3000000)) || (decide (0x3600000 ≤ a) && decide (a < 0x3800000))

/-- R553: until STATE first becomes READY the block of this address does not work. -/
def State.gateBoot (s : State) (a : Nat) : Bool := !s.easel.readyOnce && !easWindow a && !hstWindow a

/-- R56: the Seam does not carry accesses to this address. -/
def State.gateSeam (s : State) (a : Nat) : Bool := s.easel.readyOnce && trafficWindow a && !s.on F.EAS_SEAM_STATUS.UP

/-- HST_ERR_STATUS takes an error (R14, R56, R487, R489). -/
def State.hostError (s : State) (f : Fld) : State := s.setCause f 0 3

/-- R53, R56, R553: a host write of register `r`, commanded by a row of its own, reaches it. -/
def State.takes (s : State) (r : Reg) : Bool :=
  !s.host.asleep && !s.inReset && !s.gateBoot r.info.base && !s.gateSeam r.info.base

/-- A host write of register `r`, commanded by a row of its own, whose effect is `f`: it passes the gates that every write passes, or is
discarded as they say. -/
def State.landed (s : State) (r : Reg) (f : State → State) : State :=
  if s.host.asleep || s.inReset then s
  else if s.gateBoot r.info.base then s.hostError F.HST_ERR_STATUS.BAD_ACCESS
  else if s.gateSeam r.info.base then s.hostError F.HST_ERR_STATUS.SEAM_DOWN
  else f s

/-! ### Forwarding (R30, R31) -/

/-- R30, R31: the Seam has failed: ports are held down and nothing is forwarded. -/
def State.halted (s : State) : Bool := s.on F.EAS_SEAM_STATUS.FAULT

/-- The Seam carries flits (R29, R31). -/
def State.seamUp (s : State) : Bool := s.on F.EAS_SEAM_STATUS.UP

/-- R28, R168: the place that follows every place now taken in a pipe or a Seam channel. -/
def State.nextSeq (s : State) : Nat :=
  s.pkts.foldl (fun m e => match e.2 with | some p => max m (p.seq + 1) | none => m) 0

/-- R28, R168: some packet that `f` picks out stands before the place `k`. -/
def State.someBefore (s : State) (k : Nat) (f : Pkt → Bool) : Bool :=
  s.pkts.any (fun e => match e.2 with | some p => f p && decide (p.seq < k) | none => false)

/-- The active coat bank (R46). -/
def State.activeBank (s : State) : Bool := s.on F.GLZ_COAT_STATUS.ACTIVE

/-- GLZ_COAT_STATUS.STATE: 0 IDLE, 1 ARMED, 2 PAUSED, 3 RETIRING. -/
def State.coatState (s : State) : Nat := s.rd F.GLZ_COAT_STATUS.STATE

/-- A field of the header vector or of DREC, in network order (R132, R175). -/
def hvGet (hv : Sparse Byte) (off n : Nat) : Nat := Sparse.readBE hv off n

/-- Set a field of the header vector or of DREC. -/
def hvSet (hv : Sparse Byte) (off n v : Nat) : Sparse Byte := Sparse.writeBE hv off n v

/-- Set or clear a bit of HFLAGS (R132). -/
def hvFlag (hv : Sparse Byte) (bit : Nat) (b : Bool) : Sparse Byte :=
  hvSet hv 0x112 1 (setBits (hvGet hv 0x112 1) bit 1 (if b then 1 else 0))

/-- A bit of HFLAGS. -/
def hvHas (hv : Sparse Byte) (bit : Nat) : Bool := bitsOf (hvGet hv 0x112 1) bit 1 == 1

/-- Bits of a byte space counted from the most significant bit of octet 0 (R170, R178); octets beyond `size` read as zero. -/
def bitField (m : Sparse Byte) (size bitoff width : Nat) : Nat :=
  let a := bitoff / 8
  let n := (bitoff % 8 + width + 7) / 8
  let v := (List.range n).foldl
    (fun v i => v * 256 + (if a + i < size then (Sparse.read 0 m (a + i)).toNat else 0)) 0
  v / 2 ^ (8 * n - bitoff % 8 - width) % 2 ^ width

/-- Write `width` bits of a byte space, counted as in `bitField` (R178). -/
def setBitField (m : Sparse Byte) (bitoff width v : Nat) : Sparse Byte :=
  let a := bitoff / 8
  let n := (bitoff % 8 + width + 7) / 8
  Sparse.writeBE m a n (setBits (Sparse.readBE m a n) (8 * n - bitoff % 8 - width) width v)

/-! ### Trace records (R526 to R528) -/

/-- R528: the second of the FRC in which records are counted against the committed rate (assumption 16). -/
def State.traceRoom (s : State) : Bool :=
  decide (s.tally.traceSecond ≠ s.nowNs / 1000000000) || decide (s.tally.traceWritten < 20000000)

/-- The 64 octets of a trace record (R528); the layout inside DETAIL is left open (assumption 16). -/
def traceRecord (p : Pkt) (t : Tag) (point stage time : Nat) (detail : List Nat) : List Byte :=
  octetsBE 4 t.id.toNat ++ octetsBE 1 point ++ octetsBE 1 t.seq ++
  octetsBE 1 (if point ≤ 3 ∨ point = 8 then p.pass else 0) ++
  octetsBE 1 ((if p.coat then 1 else 0) + (if p.rx.anchor then 2 else 0) + (if t.lost then 4 else 0)) ++
  octetsBE 8 time ++ octetsBE 2 p.rx.inPort ++ octetsBE 1 stage ++ [0] ++
  padTo 28 (Config.traceDetail point detail) ++ List.replicate 15 0 ++ [0x80]

/-- R528: packet `n` passes a trace point; nothing happens to a packet that is not tagged. -/
def State.trace (s : State) (n : Nat) (point stage : Nat) (detail : List Nat) (time : Option Nat := none) : State :=
  match s.pkt n with
  | none => s
  | some p =>
    match p.tag with
    | none => s
    | some t =>
      if s.ringFull 66 || !s.traceRoom then
        (s.setPkt n { p with tag := some { t with seq := t.seq + 1, lost := true } }).incWrap F.TLY_TRACE_CNT.COUNT 3
      else
        let sec := s.nowNs / 1000000000
        let w := if s.tally.traceSecond = sec then s.tally.traceWritten + 1 else 1
        let s1 := s.ringPost 66 (traceRecord p t point stage (time.getD s.nowNs) detail)
        let s2 := s1.withTally { s1.tally with traceSecond := sec, traceWritten := w }
        (s2.setPkt n { p with tag := some { t with seq := t.seq + 1, lost := false } }).incWrap F.TLY_TRACE_CNT.COUNT 2

/-- A tagged packet leaves the module: one tagged packet fewer in flight (R527). -/
def State.untag (s : State) (p : Pkt) : State :=
  match p.tag with
  | none => s
  | some _ => s.withTally { s.tally with tagged := s.tally.tagged - 1 }

/-- R49: packet `p` holds its ingress stamp, its egress stamp, or none any longer. -/
def State.releaseStamps (s : State) (p : Pkt) : State :=
  let s1 := if p.stamped then s.setInflight p.coat (s.inflight p.coat - 1) else s
  if p.egStamped then s1.setInflight p.egCoat (s1.inflight p.egCoat - 1) else s1

/-- A bit of DFLAGS: 0 FWD, 1 DROP, 2 COPY, 3 RECIRC. -/
def dflag (p : Pkt) (bit : Nat) : Bool := bitsOf (hvGet p.drec 0 1) bit 1 == 1

/-- R49: a packet whose last pass is over gives up its ingress stamp. -/
def State.unstamp (s : State) (p : Pkt) : State × Pkt :=
  if p.stamped then (s.setInflight p.coat (s.inflight p.coat - 1), { p with stamped := false }) else (s, p)

/-- R37: the pass ends in another one. -/
def recirculates (p : Pkt) : Bool :=
  dflag p 3 && !dflag p 1 && !p.excess && !p.fault && !hvHas p.hv 7 && decide (p.pass < 3)

/-- R49: packet `n` leaves the last ingress stage of its pass for the ingress reorder point: where the pass is its final one, it gives up
its ingress stamp. -/
def State.leaveIngress (s : State) (n : Nat) (p : Pkt) : State :=
  let r := if recirculates p then (s, p) else s.unstamp p
  r.1.setPkt n { r.2 with loc := .reorder }

/-- R103: before octets of a FIFO are freed, the frame that is being written into it keeps what the fill has been so far. -/
def State.noteFill (s : State) (port : Nat) : State :=
  (s.mac port).order.foldl (fun s k =>
    match s.pkt k with
    | none => s
    | some q =>
      if q.rx.arrived then s
      else s.setPkt k { q with rx := { q.rx with fills := q.rx.fills ++ [(s.now, (s.mac port).fill)] } }) s

/-- Packet `n` gives up its place in its port's order and its octets in the port FIFO (R35, R101). -/
def State.freeFifo (s : State) (n : Nat) (p : Pkt) : State :=
  let m := s.mac p.rx.oport
  (s.noteFill p.rx.oport).setMac p.rx.oport { m with fill := m.fill - p.rx.held, order := m.order.filter (· != n) }

/-- Packet `n` is discarded at row `row` of R34: sampled, traced at point 7, and gone. -/
def State.discardPkt (s : State) (n row reason : Nat) : State :=
  match s.pkt n with
  | none => s
  | some p =>
    let s1 := (s.trace n 7 0 [row, reason]).discardAt row
    ((s1.releaseStamps p).untag p).dropPkt n

end Sys2Proof.Machine
end

