-- ==== Sys2Proof/Machine/Operands.lean ====
section
/-!
DEFINITION. Operand forms: the instruction words of the Sketch engines (R135) and of the action programs (R176), field extracts and
keys (R169, R170), and the checksums, CRCs and hashes the chapters define over bits and octets.
-/
namespace Sys2Proof.Machine

/-! ### CRCs and checksums -/

/-- One bit into a 32-bit CRC without reflection (R188, R207). -/
def crcStep (poly crc : Nat) (b : Bool) : Nat :=
  let sh := crc * 2 % 4294967296
  if (crc / 2147483648 % 2 == 1) != b then Nat.xor sh poly else sh

/-- The low `n` bits of `v`, most significant first, through a 32-bit CRC. -/
def crcBits (poly crc v : Nat) : Nat → Nat
  | 0 => crc
  | n + 1 => crcBits poly (crcStep poly crc (v.testBit n)) v n

/-- CRC-32C as R207 runs it over a key. -/
def crc32c (v n seed : Nat) : Nat := crcBits 0x1EDC6F41 seed v n

/-- One bit into an 8-bit CRC with polynomial 0x07 (R364). -/
def crc8Step (crc : Nat) (b : Bool) : Nat :=
  let sh := crc * 2 % 256
  if (crc / 128 % 2 == 1) != b then Nat.xor sh 7 else sh

/-- The low `n` bits of `v`, most significant first, through CRC-8. -/
def crc8Bits (crc v : Nat) : Nat → Nat
  | 0 => crc
  | n + 1 => crc8Bits (crc8Step crc (v.testBit n)) v n

/-- Toeplitz hash (R188): `key` of 320 bits, input of `n` bits. -/
def toeplitz (key v n : Nat) : Nat :=
  (List.range n).foldl
    (fun h i => if v.testBit (n - 1 - i) then Nat.xor h (key / 2 ^ (320 - 32 - i) % 2 ^ 32) else h) 0

/-- Ones'-complement addition of 16-bit numbers with end-around carry (R143). -/
def onesAdd (a b : Nat) : Nat := let t := a + b; if t < 65536 then t else t - 65535

/-- Ones'-complement sum of octets as 16-bit words (R143). -/
def onesSum : List Byte → Nat
  | a :: b :: r => onesAdd (a.toNat * 256 + b.toNat) (onesSum r)
  | [a] => a.toNat * 256
  | [] => 0

/-- R177: the checksum `hc` updated for one 16-bit word changed from `m` to `m'`. -/
def csumUpdate (hc m m' : Nat) : Nat :=
  65535 - onesAdd (onesAdd (65535 - hc % 65536) (65535 - m % 65536)) (m' % 65536)

/-- One step of a 32-bit Galois LFSR with polynomial x^32 + x^22 + x^2 + x + 1 (R526; assumption 17). -/
def lfsrStep (v : BitVec 32) : BitVec 32 :=
  if v.msb then (v <<< 1) ^^^ 0x00400007 else v <<< 1

/-! ### Sketch instructions (R135) -/

/-- A Sketch instruction word, field by field. -/
structure SInsn where
  op : Nat
  rd : Nat
  ra : Nat
  rb : Nat
  ib : Bool
  tgt : Nat
  t : Bool
  imm : Nat
  deriving DecidableEq, Repr

/-- The fields of a Sketch instruction word (R135). -/
def sketchDecode (w : Nat) : SInsn where
  op := bitsOf w 58 6
  rd := bitsOf w 54 4
  ra := bitsOf w 50 4
  rb := bitsOf w 46 4
  ib := bitsOf w 45 1 == 1
  tgt := bitsOf w 32 12
  t := bitsOf w 32 1 == 1
  imm := bitsOf w 0 32

/-- The opcodes of R138. -/
def sketchOps : List Nat :=
  [0x01, 0x02, 0x03, 0x04, 0x05, 0x06, 0x07, 0x08, 0x09, 0x0A, 0x0B, 0x0C, 0x0D, 0x0E, 0x10, 0x11, 0x12, 0x13,
   0x20, 0x21, 0x22, 0x23, 0x24, 0x25, 0x26, 0x27, 0x28, 0x30, 0x31, 0x32, 0x3E]

/-- A general register of a context. -/
def Ctx.reg (x : Ctx) (r : Nat) : BitVec 32 := Sparse.read 0 x.g r

/-- Set a general register of a context. -/
def Ctx.setR (x : Ctx) (r : Nat) (v : BitVec 32) : Ctx := { x with g := Sparse.write 0 x.g r v }

/-- Operand B of a Sketch instruction (R135). -/
def sketchB (i : SInsn) (x : Ctx) : BitVec 32 := if i.ib then BitVec.ofNat 32 i.imm else x.reg i.rb

/-- R139, R137: the address a window descriptor forms, modulo 2^32: OFF, relative to the cursor unless ABS, plus g[ra] when IDX. -/
def windowAddr (off : Nat) (abs idx : Bool) (cursor : Nat) (ra : BitVec 32) : Nat :=
  (off + (if abs then 0 else cursor) + (if idx then ra.toNat else 0)) % 2 ^ 32

/-- R139: the reason raised by reading window octets `a` to `a + n - 1`, 0 for none. -/
def windowCheck (winLen a n : Nat) : Nat :=
  if a + n - 1 ≥ 256 then 2 else if a + n - 1 ≥ winLen then 4 else 0

/-- R140: whether STH and XCP may write octets `a` to `a + n - 1` of the header vector. -/
def sketchWritable (a n : Nat) : Bool :=
  (decide (0x120 ≤ a) && decide (a + n ≤ 0x124)) || (decide (0x130 ≤ a) && decide (a + n ≤ 0x140)) ||
  (decide (0x180 ≤ a) && decide (a + n ≤ 0x200))

/-! ### Action instructions (R176) -/

/-- An action instruction word, field by field. -/
structure AInsn where
  op : Nat
  td : Nat
  ta : Nat
  tb : Nat
  ib : Bool
  imm : Nat
  deriving DecidableEq, Repr

/-- The fields of an action instruction word (R176). -/
def actionDecode (w : Nat) : AInsn where
  op := bitsOf w 58 6
  td := bitsOf w 56 2
  ta := bitsOf w 54 2
  tb := bitsOf w 52 2
  ib := bitsOf w 51 1 == 1
  imm := bitsOf w 0 32

/-- The opcodes of R177. -/
def actionOps : List Nat :=
  [0x02, 0x03, 0x04, 0x05, 0x06, 0x07, 0x08, 0x09, 0x0A, 0x0B, 0x0C, 0x0D, 0x0E, 0x10, 0x11, 0x12,
   0x18, 0x19, 0x1A, 0x1B, 0x1C, 0x1D, 0x1E, 0x1F, 0x20, 0x21, 0x22, 0x3E]

/-- A temporary of a running action program. -/
def Act.tmp (a : Act) (r : Nat) : BitVec 32 := Sparse.read 0 a.t r

/-- Set a temporary. -/
def Act.setT (a : Act) (r : Nat) (v : BitVec 32) : Act := { a with t := Sparse.write 0 a.t r v }

/-- Operand B of an action instruction (R176). -/
def actionB (i : AInsn) (a : Act) : BitVec 32 := if i.ib then BitVec.ofNat 32 i.imm else a.tmp i.tb

/-! ### Extracts and keys (R169, R170) -/

/-- A field extract descriptor. -/
structure Extract where
  bitoff : Nat
  width : Nat
  rel : Bool
  hrec : Nat
  valid : Bool
  deriving DecidableEq, Repr

/-- A descriptor word as a field extract. -/
def extractDecode (w : Nat) : Extract where
  bitoff := bitsOf w 0 12
  width := bitsOf w 12 7 + 1
  rel := bitsOf w 19 1 == 1
  hrec := bitsOf w 20 4
  valid := bitsOf w 24 1 == 1

/-- R170: the bits an extract reads of a header vector. -/
def extractBits (hv : Sparse Byte) (e : Extract) : Nat :=
  if e.rel then
    if e.hrec < hvGet hv 0x113 1 then
      bitField hv 512 (e.bitoff + 8 * hvGet hv (0x140 + 4 * e.hrec + 1) 1) e.width
    else 0
  else bitField hv 512 e.bitoff e.width

/-- The eight extracts of a template or hash profile: entries `8 × i` to `8 × i + 7` of its descriptor register. -/
def State.extracts (s : State) (r : Reg) (i : Nat) : List Extract :=
  (List.range 8).map (fun j => extractDecode (s.reg r (8 * i + j)).toNat)

/-- The valid extracts concatenated, most significant first, and how many bits they are (R169, R188). -/
def concatBits (hv : Sparse Byte) (es : List Extract) : Nat × Nat :=
  es.foldl (fun (acc : Nat × Nat) e =>
    if e.valid then (acc.1 * 2 ^ e.width + extractBits hv e, acc.2 + e.width) else acc) (0, 0)

/-- Keep the first `w` bits of `n`, zeros following where there are fewer (R169). -/
def fitBits (v n w : Nat) : Nat := if n ≤ w then v * 2 ^ (w - n) else v / 2 ^ (n - w)

/-- Key widths as GLZ_TPL encodes them. -/
def keyBits (keyw : Nat) : Nat := if keyw = 0 then 80 else if keyw = 1 then 160 else 320

/-- R169: the key template `t` of bank `b` forms from a header vector. -/
def State.keyOf (s : State) (b : Bool) (t : Nat) (hv : Sparse Byte) : Nat :=
  let i := bankNo b * 256 + t
  let c := concatBits hv (s.extracts .GLZ_TPL_EXT i)
  fitBits c.1 c.2 (keyBits (s.rd F.GLZ_TPL.KEYW i))

/-- R188: the extracts of a symmetric profile with the values of each equal-width pair in order. -/
def symPairs (hv : Sparse Byte) (es : List Extract) : List (Nat × Nat) :=
  let v (e : Extract) : List (Nat × Nat) := if e.valid then [(extractBits hv e, e.width)] else []
  match es with
  | a :: b :: r =>
    if a.valid && b.valid && a.width == b.width && decide (extractBits hv b < extractBits hv a)
    then v b ++ v a ++ symPairs hv r else v a ++ v b ++ symPairs hv r
  | [a] => v a
  | [] => []

/-- R188: the hash of a packet by hash profile `h` of bank `b`. -/
def State.hashOf (s : State) (b : Bool) (h : Nat) (hv : Sparse Byte) : Nat :=
  let i := bankNo b * 16 + h
  let es := s.extracts .GLZ_HASH_EXT i
  let rest (l : List Extract) : List (Nat × Nat) :=
    l.flatMap (fun e => if e.valid then [(extractBits hv e, e.width)] else [])
  let vs := if s.on F.GLZ_HASH.SYM i then symPairs hv (es.take 4) ++ rest (es.drop 4) else rest es
  let c := vs.foldl (fun (acc : Nat × Nat) x => (acc.1 * 2 ^ x.2 + x.1, acc.2 + x.2)) (0, 0)
  let n := min c.2 288
  let v := c.1 / 2 ^ (c.2 - n)
  if s.on F.GLZ_HASH.ALG i then toeplitz (natBE (octetsLE 40 (s.rd F.GLZ_HASH_KEY.KEY i))) v n
  else crcBits (s.rd F.GLZ_HASH.POLY i) (s.rd F.GLZ_HASH.SEED i) v n

end Sys2Proof.Machine
end

