-- ==== Sys2Proof/Machine/Lookup.lean ====
section
/-!
DEFINITION. Table SRAM, table descriptors and the five kinds of lookup (chapter 6): direct, exact-match, ternary with verify, and the
two-step route lookup; and the commit of a lookup (R173, R236).
-/
namespace Sys2Proof.Machine

/-! ### Table SRAM (R200 to R202) -/

/-- R200: the first 64-bit word of the associated data of a Stencil unit position. -/
def assocWord (pos : Nat) : Nat := 2 * pos

/-- R200: the word of an indirection entry. -/
def indirWord (e : Nat) : Nat := 1048576 + e

/-- R200: the first word of an adjacency entry. -/
def adjWord (i : Nat) : Nat := 5242880 + 2 * i

/-- R200: the first word of a shared partition. -/
def partWord (p : Nat) : Nat := 7340032 + 131072 * p

/-- The number that `n` words of table SRAM hold, the first word least significant (assumption 18). -/
def State.sramVal (s : State) (w : Nat) : Nat → Nat
  | 0 => 0
  | n + 1 => (Sparse.read 0 s.tables.sram w).toNat + 2 ^ 64 * s.sramVal (w + 1) n

/-- Store a number in `n` words of table SRAM; a whole-entry write clears errors of those words (R202). -/
def State.sramPut (s : State) (w n v : Nat) : State :=
  let sram := (List.range n).foldl
    (fun m i => Sparse.write 0 m (w + i) (BitVec.ofNat 64 (v / 2 ^ (64 * i)))) s.tables.sram
  (s.withTables { s.tables with sram := sram }).withBadWords { s.badWords with
    sramUe := s.badWords.sramUe.filter (fun x => x < w || w + n ≤ x)
    sramCe := s.badWords.sramCe.filter (fun x => x < w || w + n ≤ x) }

/-- R202: the words `w` to `w + n - 1` hold an uncorrectable error. -/
def State.sramUe (s : State) (w n : Nat) : Bool := s.badWords.sramUe.any (fun x => w ≤ x && x < w + n)

/-- R201, R202: what reading words `w` to `w + n - 1` records of their errors. -/
def State.sramTouch (s : State) (w n : Nat) : State :=
  let ce := (s.badWords.sramCe.filter (fun x => w ≤ x && x < w + n)).length
  let s1 := if ce = 0 then s else s.incSat F.TBL_ERR_STATUS.SRAM_CE_CNT 0 ce
  match s.badWords.sramUe.find? (fun x => w ≤ x && x < w + n) with
  | none => s1
  | some x => (s1.wr F.TBL_ERR_ADDR.WORD 0 x).setCause F.TBL_ERR_STATUS.SRAM_UE 0 6

/-! ### Lookup answers -/

/-- A miss (R172). -/
def Lookup.miss : Lookup := ⟨false, 0, .none, false⟩

/-- A hit with its result word (R172). -/
def Lookup.found (res : Nat) (ref : HitRef) : Lookup := ⟨true, BitVec.ofNat 128 res, ref, false⟩

/-- A Pounce handoff that returns "not inspected" (R172). -/
def Lookup.notInspected : Lookup := ⟨false, 0, .none, true⟩

/-! ### Exact match (R207, R208) -/

/-- R207: the two candidate buckets of a key under descriptor `d`. -/
def State.exactBuckets (s : State) (d key : Nat) : Nat × Nat :=
  let n := 8192 * s.rd F.TBL_DESC.PART_CNT d
  let kb := keyBits (s.rd F.TBL_DESC.KEYW d)
  (crc32c key kb (s.rd F.TBL_DESC.SEED1 d) * n / 2 ^ 32, crc32c key kb (s.rd F.TBL_DESC.SEED2 d) * n / 2 ^ 32)

/-- The candidate buckets without the second when they agree. -/
def State.exactCandidates (s : State) (d key : Nat) : List Nat :=
  let b := s.exactBuckets d key
  if b.1 = b.2 then [b.1] else [b.1, b.2]

/-- R619: the first SRAM word of slot `i` of descriptor `d`. -/
def State.slotWord (s : State) (d i : Nat) : Nat := partWord (s.rd F.TBL_DESC.PART_BASE d) + 4 * i

/-- The 256 bits of slot `i` (R208). -/
def State.slotVal (s : State) (d i : Nat) : Nat := s.sramVal (s.slotWord d i) 4

/-- R208: the fields of a slot. -/
def slotKey (v : Nat) : Nat := bitsOf v 176 80
def slotRes (v : Nat) : Nat := bitsOf v 48 128
def slotAgeTs (v : Nat) : Nat := bitsOf v 40 8
def slotHit (v : Nat) : Nat := bitsOf v 39 1
def slotAged (v : Nat) : Nat := bitsOf v 38 1
def slotAgeEn (v : Nat) : Nat := bitsOf v 37 1
def slotWidth (v : Nat) : Nat := bitsOf v 35 2
def slotClass (v : Nat) : Nat := bitsOf v 31 4
def slotGen (v : Nat) : Nat := bitsOf v 27 4

/-- R208: slot `i` holds the entry of `key`, of one slot or the first of two. -/
def State.slotMatches (s : State) (d key i : Nat) : Bool :=
  let v := s.slotVal d i
  if s.rd F.TBL_DESC.KEYW d = 0 then slotWidth v == 1 && slotKey v == key % 2 ^ 80
  else i % 2 == 0 && slotWidth v == 2 && slotKey v == key / 2 ^ 80 % 2 ^ 80 &&
    slotWidth (s.slotVal d (i + 1)) == 3 && slotKey (s.slotVal d (i + 1)) == key % 2 ^ 80

/-- R208, R619: the slot index of the entry of `key`, if the table holds one. -/
def State.exactFind (s : State) (d key : Nat) : Option Nat :=
  ((s.exactCandidates d key).flatMap (fun b => [4 * b, 4 * b + 1, 4 * b + 2, 4 * b + 3])).find? (s.slotMatches d key)

/-- The words of a bucket are read: 16 words each (R208). -/
def State.bucketsUe (s : State) (d key : Nat) : Bool :=
  (s.exactCandidates d key).any (fun b => s.sramUe (s.slotWord d (4 * b)) 16)

/-- What reading the candidate buckets records. -/
def State.bucketsTouch (s : State) (d key : Nat) : State :=
  (s.exactCandidates d key).foldl (fun s b => s.sramTouch (s.slotWord d (4 * b)) 16) s

/-- R208: an exact-match lookup. -/
def State.lookupExact (s : State) (d key : Nat) : State × Lookup :=
  let s1 := s.bucketsTouch d key
  if s.bucketsUe d key then (s1, Lookup.miss)
  else match s.exactFind d key with
    | none => (s1, Lookup.miss)
    | some i =>
      let v := s.slotVal d i
      (s1, Lookup.found (slotRes v) (.exact (s.slotWord d i) (slotGen v) d))

/-! ### Direct (R212) -/

/-- R212: a direct lookup, by key bits 23:0. -/
def State.lookupDirect (s : State) (d key : Nat) : State × Lookup :=
  let i := key % 2 ^ 24
  if s.rd F.TBL_DESC.PART_CNT d * 65536 ≤ i then (s, Lookup.miss)
  else
    let w := partWord (s.rd F.TBL_DESC.PART_BASE d) + 2 * i
    let s1 := s.sramTouch w 2
    if s.sramUe w 2 then (s1, Lookup.miss) else (s1, Lookup.found (s.sramVal w 2) .none)

/-! ### The Stencil memory (R214 to R221) -/

/-- A Stencil unit by position 4,096 × bank + row. -/
def State.unit (s : State) (pos : Nat) : StnUnit := Sparse.read StnUnit.free s.tables.stn pos

/-- Replace a unit. -/
def State.setUnit (s : State) (pos : Nat) (u : StnUnit) : State :=
  s.withTables { s.tables with stn := Sparse.write StnUnit.free s.tables.stn pos u }

/-- A run of banks of one entry width in units (R214, R216). -/
structure Region where
  first : Nat
  banks : Nat
  width : Nat
  deriving DecidableEq, Repr

/-- The number of entries of a region. -/
def Region.entries (r : Region) : Nat := r.banks * (4096 / r.width)

/-- R216: the position of the first unit of entry `e`. -/
def Region.pos (r : Region) (e : Nat) : Nat := 4096 * r.first + r.width * e

/-- The key, mask and their copies of the `w`-unit entry at `pos`, the first unit most significant (R214). -/
def State.entryBits (s : State) (f : StnUnit → BitVec 80) (pos w : Nat) : Nat :=
  (List.range w).foldl (fun v j => v * 2 ^ 80 + (f (s.unit (pos + j))).toNat) 0

/-- R214: entry width in units of a key width. -/
def keyUnits (keyw : Nat) : Nat := if keyw = 0 then 1 else if keyw = 1 then 2 else 4

/-- R216: bits that differ where both masks compare. -/
def ternaryEq (key k m g : Nat) : Bool := Nat.land (Nat.land (Nat.xor key k) m) g == 0

/-- R216: the global mask `m` for a search of `w` units. -/
def State.gmask (s : State) (m w : Nat) : Nat := s.rd F.STN_GMASK.MASK m % 2 ^ (80 * w)

/-- R216: the entry at `pos` matches under stamp `b`. -/
def State.entryMatches (s : State) (b : Bool) (key g pos w : Nat) : Bool :=
  let u := s.unit pos
  u.tag.toNat.testBit (bankNo b) && !u.suspect &&
    ternaryEq key (s.entryBits (·.key) pos w) (s.entryBits (·.mask) pos w) g

/-- R217: the position of the matching entry of lowest index. -/
def State.regionWinner (s : State) (r : Region) (b : Bool) (key g : Nat) : Option Nat :=
  ((s.tables.stn.map (·.1)).filter
    (fun p => 4096 * r.first ≤ p && p < 4096 * (r.first + r.banks) && p % r.width == 0)).find?
    (fun p => s.entryMatches b key g p r.width)

/-- R220: the key copy of the entry at `pos` agrees. -/
def State.copyAgrees (s : State) (key g pos w : Nat) : Bool :=
  !(List.range w).any (fun j => (s.unit (pos + j)).copyUe) &&
    ternaryEq key (s.entryBits (·.copyKey) pos w) (s.entryBits (·.copyMask) pos w) g

/-- STN_STATUS.SUSPECT_NOW shows how many entries are suspect, at most 255. -/
def State.showSuspects (s : State) : State :=
  s.wr F.STN_STATUS.SUSPECT_NOW 0 (min 255 (s.tables.stn.filter (fun e => e.2.suspect)).length)

/-- Mark the entry at `pos` suspect (R220). -/
def State.markSuspect (s : State) (pos : Nat) : State :=
  (s.setUnit pos { s.unit pos with suspect := true }).showSuspects

/-- R220: a false hit on the entry at `pos`. -/
def State.falseHit (s : State) (pos : Nat) : State :=
  (((s.markSuspect pos).incSat F.STN_STATUS.FALSE_HIT_CNT).undo 1).sample 4 (pos / 4096)

/-- R221: the lookup ends after its third repeat. -/
def State.giveUp (s : State) : State := (s.incSat F.STN_STATUS.GIVEUP_CNT).raise 6

/-- R220, R221: search a region and verify the winner, repeating at most `fuel` times; the verified position and the repeats
left, or `none` with the lookup ended as a miss. -/
def State.searchVerify (s : State) (r : Region) (b : Bool) (key g : Nat) : Nat → State × Option (Option Nat × Nat)
  | 0 =>
    match s.regionWinner r b key g with
    | none => (s, some (none, 0))
    | some p => if s.copyAgrees key g p r.width then (s, some (some p, 0)) else ((s.falseHit p).giveUp, none)
  | fuel + 1 =>
    match s.regionWinner r b key g with
    | none => (s, some (none, fuel + 1))
    | some p =>
      if s.copyAgrees key g p r.width then (s, some (some p, fuel + 1))
      else (s.falseHit p).searchVerify r b key g fuel

/-- The region of a TERNARY descriptor or of the short pivots of an LPM one (R214). -/
def State.mainRegion (s : State) (d : Nat) : Region :=
  ⟨s.rd F.TBL_DESC.FIRST_BANK d, s.rd F.TBL_DESC.NBANKS d,
    if s.rd F.TBL_DESC.KIND d = 4 then keyUnits (s.rd F.TBL_DESC.KEYW d) else 1⟩

/-- The region of the long pivots of an IPv6 LPM descriptor (R214, R618). -/
def State.longRegion (s : State) (d : Nat) : Region :=
  ⟨s.rd F.TBL_DESC.LONG_FIRST_BANK d,
    if s.rd F.TBL_DESC.KEYW d = 0 then 0 else s.rd F.TBL_DESC.LONG_NBANKS d, 2⟩

/-- R216, R220: a ternary lookup. -/
def State.lookupTernary (s : State) (d : Nat) (b : Bool) (gm key : Nat) : State × Lookup :=
  let r := s.mainRegion d
  match s.searchVerify r b key (s.gmask gm r.width) 3 with
  | (s1, some (some p, _)) =>
    let s2 := s1.sramTouch (assocWord p) 2
    if s1.sramUe (assocWord p) 2 then (s2, Lookup.miss)
    else (s2, Lookup.found (s1.sramVal (assocWord p) 2) (.stencil p (s1.unit p).gen.toNat))
  | (s1, _) => (s1, Lookup.miss)

/-! ### Route tables (R225 to R227) -/

/-- The winning pivot of a route lookup: whether it is a long one, and its position; `none` for no pivot. The early end of
R221 gives `none` in the outer option. -/
def State.lpmPivot (s : State) (d : Nat) (b : Bool) (gm key : Nat) : State × Option (Option (Bool × Nat)) :=
  let short := s.mainRegion d
  if s.rd F.TBL_DESC.KEYW d = 0 then
    match s.searchVerify short b key (s.gmask gm 1) 3 with
    | (s1, some (some p, _)) => (s1, some (some (false, p)))
    | (s1, some (none, _)) => (s1, some none)
    | (s1, none) => (s1, none)
  else
    match s.searchVerify (s.longRegion d) b key (s.gmask gm 2) 3 with
    | (s1, some (some p, _)) => (s1, some (some (true, p)))
    | (s1, none) => (s1, none)
    | (s1, some (none, left)) =>
      match s1.searchVerify short b (key / 2 ^ 80) (s.gmask gm 1) left with
      | (s2, some (some p, _)) => (s2, some (some (false, p)))
      | (s2, some (none, _)) => (s2, some none)
      | (s2, none) => (s2, none)

/-- The search address of a route key as a number of 128 bits, its first bit most significant (R225). -/
def lpmAddr (v6 : Bool) (key : Nat) : Nat :=
  if v6 then bitsOf key 16 128 else bitsOf key 32 32 * 2 ^ 96

/-- R226: the address a head and its continuations carry, as a number of 128 bits. -/
def State.headAddr (s : State) (w slot slots : Nat) : Nat :=
  let c (j : Nat) : Nat := if j < slots && decide (slot + j < 32) then s.sramVal (w + slot + j) 1 else 0
  (s.sramVal (w + slot) 1 % 2 ^ 32) * 2 ^ 96 + c 1 * 2 ^ 32 + c 2 / 2 ^ 32

/-- R227: walk the slots of a bucket from slot `k`, with `n` left, skipping the continuations of each head; the best head so
far is its slot, length and result index. -/
def State.bucketWalk (s : State) (w : Nat) (v6 : Bool) (addr : Nat) :
    Nat → Nat → Nat → Option (Nat × Nat × Nat) → Option (Nat × Nat × Nat)
  | 0, _, _, best => best
  | n + 1, k, skip, best =>
    if skip ≠ 0 then s.bucketWalk w v6 addr n (k + 1) (skip - 1) best
    else
      let v := s.sramVal (w + k) 1
      let kind := bitsOf v 62 2
      let slots := if kind = 3 then 4 else kind
      let len := bitsOf v 54 8
      let ok := kind != 0 && decide (len ≤ (if v6 then 128 else 32)) &&
        s.headAddr w k slots / 2 ^ (128 - len) == addr / 2 ^ (128 - len)
      let better := match best with
        | none => true
        | some (_, l, _) => decide (l < len)
      s.bucketWalk w v6 addr n (k + 1) (slots - 1)
        (if ok && better then some (k, len, bitsOf v 34 20) else best)

/-- What a route lookup finds: the result index and the winning head's slot, 32 for DEF_RES. `inr true` is a mismatch under
R227, `inr false` a plain miss. -/
def State.lpmRoute (s : State) (d p : Nat) (key : Nat) : State × (Nat × Nat ⊕ Bool) :=
  let s1 := s.sramTouch (assocWord p) 2
  if s.sramUe (assocWord p) 2 then (s1, .inr false)
  else
    let a := s.sramVal (assocWord p) 2
    let bucket := bitsOf a 108 20
    if s.rd F.TBL_DESC.PART_CNT d * 4096 ≤ bucket then (s1, .inr true)
    else
      let w := partWord (s.rd F.TBL_DESC.PART_BASE d) + 32 * bucket
      let s2 := s1.sramTouch w 32
      if s.sramUe w 32 then (s2, .inr false)
      else
        let v6 := s.rd F.TBL_DESC.KEYW d != 0
        match s.bucketWalk w v6 (lpmAddr v6 key) 32 0 0 none with
        | some (k, _, r) => (s2, .inl (r, k))
        | none => if bitsOf a 87 1 = 1 then (s2, .inl (bitsOf a 88 20, 32)) else (s2, .inr false)

/-- R227: the result word of a result index: `inr true` when it lies beyond the array. -/
def State.lpmResult (s : State) (d r : Nat) : State × (Nat ⊕ Bool) :=
  if s.rd F.TBL_DESC.RES_CNT d * 65536 ≤ r then (s, .inr true)
  else
    let w := partWord (s.rd F.TBL_DESC.RES_BASE d) + 2 * r
    if s.sramUe w 2 then (s.sramTouch w 2, .inr false) else (s.sramTouch w 2, .inl (s.sramVal w 2))

/-- R206, R227: a lookup that misses for a mismatch. -/
def State.kindMismatch (s : State) : State := s.wr F.TBL_ERR_STATUS.KIND_MISMATCH 0 1

/-- R225 to R227: a route lookup. -/
def State.lookupLpm (s : State) (d : Nat) (b : Bool) (gm key : Nat) : State × Lookup :=
  match s.lpmPivot d b gm key with
  | (s1, some (some (_, p))) =>
    match s1.lpmRoute d p key with
    | (s2, .inr true) => (s2.kindMismatch, Lookup.miss)
    | (s2, .inr false) => (s2, Lookup.miss)
    | (s2, .inl (r, _)) =>
      match s2.lpmResult d r with
      | (s3, .inr true) => (s3.kindMismatch, Lookup.miss)
      | (s3, .inr false) => (s3, Lookup.miss)
      | (s3, .inl v) => (s3, Lookup.found v (.stencil p (s1.unit p).gen.toNat))
  | (s1, _) => (s1, Lookup.miss)

/-- R171, R206: the lookup of template `t` of bank `b` with a key, for every kind but POUNCE. -/
def State.lookupFor (s : State) (b : Bool) (t key : Nat) : State × Lookup :=
  let i := bankNo b * 256 + t
  let kind := s.rd F.GLZ_TPL.KIND i
  let d := bankNo b * 256 + s.rd F.GLZ_TPL.TABLE i
  if kind = 0 then (s, Lookup.miss)
  else if s.rd F.TBL_DESC.KIND d ≠ kind ∨ (kind ≠ 1 ∧ s.rd F.GLZ_TPL.KEYW i ≠ s.rd F.TBL_DESC.KEYW d) then
    (s.kindMismatch, Lookup.miss)
  else if kind = 1 then s.lookupDirect d key
  else if kind = 2 then s.lookupExact d key
  else if kind = 3 then s.lookupLpm d b (s.rd F.GLZ_TPL.GMASK i) key
  else s.lookupTernary d b (s.rd F.GLZ_TPL.GMASK i) key

/-! ### Commit (R173, R236, R237) -/

/-- The unit count of the ageing table whose descriptor is `d` (R237). -/
def State.age (s : State) (d : Nat) : AgeCount := Sparse.read ⟨0, 0, 0⟩ s.tables.ages d

/-- R237: descriptor `d` is an ageing table: of the active bank, EXACT, with an ageing unit. -/
def State.isAgeing (s : State) (d : Nat) : Bool :=
  d / 256 == bankNo s.activeBank && s.rd F.TBL_DESC.KIND d == 2 && s.rd F.TBL_DESC.AGE_UNIT d != 3

/-- R237: the ageing table whose entries descriptor `d` names: itself, or the active bank's descriptor of the same partitions. -/
def State.ageingOf (s : State) (d : Nat) : Option Nat :=
  if s.isAgeing d then some d
  else ((List.range 256).map (fun t => bankNo s.activeBank * 256 + t)).find? (fun e =>
    s.isAgeing e && s.rd F.TBL_DESC.PART_BASE e == s.rd F.TBL_DESC.PART_BASE d &&
      s.rd F.TBL_DESC.PART_CNT e == s.rd F.TBL_DESC.PART_CNT d)

/-- R173, R201, R202, R236: a lookup commits: the entry's hit bit is set and its ageing time refreshed, unless the position has changed or
can no longer be read. -/
def State.commitLookup (s : State) (r : HitRef) : State :=
  match r with
  | .none => s
  | .exact w gen d =>
    let v := s.sramVal w 4
    let s0 := s.sramTouch w 4
    if s.sramUe w 4 ∨ slotGen v ≠ gen then s0
    else
      let v1 := setBits v 39 1 1
      let v2 := match (if slotAgeEn v = 1 then s.ageingOf d else none) with
        | some e => setBits (setBits v1 40 8 (s.age e).u) 38 1 0
        | none => v1
      s0.sramPut w 4 v2
  | .stencil p gen =>
    let u := s.unit p
    if u.gen.toNat ≠ gen then s else s.setUnit p { u with hit := true }

end Sys2Proof.Machine
end

