-- ==== Sys2Proof/Machine/Sketch.lean ====
section
/-!
DEFINITION. The Sketch engines (chapter 4): the grant of a context, the early lookup, the start of a program, and one meaning for each
instruction of R138.
-/
namespace Sys2Proof.Machine

/-- What every meaning answers when it completes. -/
abbrev Result := Host.Outcome State Fault Refusal

/-! ### Contexts -/

/-- SKT_CTX_STATUS.BUSY_Qk of quad `k`. -/
def busyFld (k : Nat) : Fld := ⟨.SKT_CTX_STATUS, 16 * k, 11⟩

/-- A free context of quad `k` (R123). -/
def State.freeCtx (s : State) (k : Nat) : Option Nat :=
  ((List.range 1024).map (fun j => 1024 * k + j)).find? (fun c => (s.ctx c).isNone)

/-- The first packet of a port that waits for a context. -/
def State.waiting (s : State) (port : Nat) : Option Nat :=
  (s.mac port).order.find? (fun n => match s.pkt n with | some p => p.loc == .fifo | none => false)

/-- R31, R50, R61, R65: Sketch admission is open. -/
def State.admits (s : State) : Bool :=
  s.pace.admitOpen && s.coatState != 2 && s.on F.EAS_SEAM_STATUS.UP && !s.on F.EAS_SEAM_STATUS.FAULT &&
  (s.rd F.EAS_PACE_STATUS.SHED_LEVEL != 2 || decide (0 < s.pace.admitLeft))

/-- R51, R52: the packet's stamp is for a bank whose deadline has expired, and it is not the packet that won. -/
def State.stampRetired (s : State) (n : Nat) (p : Pkt) : Bool :=
  p.stamped && decide (p.coatGen < s.coat.gen) && !s.coat.winners.contains n &&
    (s.coatState != 3 || s.coat.expired || decide (p.coatGen + 1 < s.coat.gen))

/-- R124: the quad that serves ingress port `port`; a recirculated packet returns to its pipe (R187). -/
def State.quadOf (s : State) (port : Nat) (p : Pkt) : Nat := if 208 ≤ port then p.pipe else s.rd F.GLZ_PORT_PIPE.PIPE port

/-- R65: the ingress ports that are configured, whose rates share the admission of level 2. -/
def State.configuredPorts (s : State) : List Nat :=
  (List.range 208).filter (fun p =>
    if p < 64 then s.on F.ETH_PORT_CFG.EN p && !s.on F.ETH_PORT_CFG.FLEXE_PHY p
    else if p < 112 then s.on F.LOOM_TREE_CFG.EN (p - 64)
    else if p < 176 then s.on F.FLX_CLIENT_CFG.EN (p - 112)
    else s.on F.HST_RING_CFG.EN (p - 144))

/-- R65, R66: the admissions of a window of 1 µs at level 2 in all, and the share of an ingress port in them; whole packets (assumption
103). -/
def State.windowAdmits (s : State) : Nat :=
  (if s.rd F.EAS_PACE_CFG.CLASS = 0 then 4800 else 3600) * s.rd F.EAS_PACE_STATUS.PACE / 1000
def State.portShare (s : State) (port : Nat) : Nat :=
  s.windowAdmits * s.portKbps port / (s.configuredPorts.map s.portKbps).sum

/-- R65: level 2 leaves port `port` an admission in the running window; a recirculated packet draws on the whole only. -/
def State.shareLeft (s : State) (port : Nat) : Bool :=
  s.rd F.EAS_PACE_STATUS.SHED_LEVEL != 2 || decide (208 ≤ port) ||
    decide (Sparse.read 0 s.pace.admitted port < s.portShare port)

/-- R125: the level at which port `port` would be served in quad `quad`. -/
def State.servedAt (s : State) (quad port : Nat) : Nat :=
  max (Sparse.read 0 s.pace.quadV quad) (Sparse.read 0 s.pace.served port)

/-- R125: the port that weighted round robin serves next in quad `quad`: of those with a frame waiting and a share left, the one that has
been served least for its weight. -/
def State.roundRobin (s : State) (quad : Nat) : Option Nat :=
  (s.macs.map (·.1)).foldl (fun best port =>
    match s.waiting port with
    | none => best
    | some n =>
      match s.pkt n with
      | none => best
      | some p =>
        if s.quadOf port p ≠ quad || s.stampRetired n p || !s.shareLeft port then best
        else
          match best with
          | none => some port
          | some b => if s.servedAt quad port < s.servedAt quad b then some port else best) none

/-- R125, R65: port `port` of quad `quad` is served once. -/
def State.serve (s : State) (quad port : Nat) : State :=
  let v := s.servedAt quad port
  s.withPace { s.pace with
    quadV := Sparse.write 0 s.pace.quadV quad v
    served := Sparse.write 0 s.pace.served port (v + 10 ^ 15 / max 1 (s.portKbps port))
    admitLeft := s.pace.admitLeft - 1
    admitted := Sparse.write 0 s.pace.admitted port (Sparse.read 0 s.pace.admitted port + 1) }

/-- R52: a packet admitted under its old stamp at the very moment of the deadline has won. -/
def State.winsDeadline (s : State) (p : Pkt) : Bool :=
  p.stamped && s.coatState == 3 && decide (p.coatGen + 1 = s.coat.gen) && !s.coat.expired &&
    decide (s.coat.flippedAt + us 64 ≤ s.now)

/-- R162: the profile of a pass under bank `b`. -/
def State.profileOf (s : State) (b : Bool) (inPort pass : Nat) : Nat :=
  let pr := s.rd F.SKT_PORT_PROFILE.PROFILE (bankNo b * 208 + inPort)
  if pass = 1 then pr else s.rd F.SKT_PROFILE.RECIRC_PROFILE (bankNo b * 64 + pr)

/-- R132, R133: the header vector at the grant: the device-written fields, USER carried over from the pass before. -/
def startVector (p : Pkt) (b : Bool) (profile pass : Nat) : Sparse Byte :=
  let user := Sparse.octets p.hv 0x130 16
  let i := p.rx.inPort
  let flags := (if b then 1 else 0) + (if p.rx.anchor then 2 else 0) + (if 64 ≤ i ∧ i < 112 then 4 else 0) +
    (if 176 ≤ i then 8 else 0) + (if 112 ≤ i ∧ i < 176 then 16 else 0)
  let h := hvSet [] 0x100 2 i
  let h := hvSet h 0x102 1 profile
  let h := hvSet h 0x103 1 pass
  let h := hvSet h 0x108 8 (p.rx.stamp.toNat / 65536)
  let h := hvSet h 0x110 2 (p.rx.stamp.toNat % 65536)
  let h := hvSet h 0x112 1 flags
  let h := hvSet h 0x114 2 p.rx.gem
  let h := hvSet h 0x117 3 p.rx.subCtx
  let h := hvSet h 0x11A 2 p.rx.injTag
  if pass = 1 then h else Sparse.putOctets h 0x130 user

/-- R526, R527: the quad's LFSR advances for a pass-1 admission that passes the port filter; the packet may be tagged. -/
def State.traceTag (s : State) (n : Nat) (p : Pkt) (quad : Nat) : State :=
  if !s.on F.TLY_TRACE_CFG.EN || (s.on F.TLY_TRACE_CFG.PORT_EN && s.rd F.TLY_TRACE_CFG.PORT != p.rx.inPort) then s
  else
    let v := lfsrStep (Sparse.read 0 s.tally.traceLfsr quad)
    let s1 := s.withTally { s.tally with traceLfsr := Sparse.write 0 s.tally.traceLfsr quad v }
    if v.toNat % 2 ^ s.rd F.TLY_TRACE_CFG.K ≠ 0 then s1
    else if 4096 ≤ s.tally.tagged then s1.incWrap F.TLY_TRACE_CNT.COUNT 1
    else
      let s2 := s1.withTally
        { s1.tally with tagged := s1.tally.tagged + 1, nextTrace := s1.tally.nextTrace + 1 }
      (s2.setPkt n { p with tag := some ⟨s.tally.nextTrace, 0, false⟩ }).incWrap F.TLY_TRACE_CNT.COUNT 0

/-- The octets of the header window (R129). -/
def window (p : Pkt) : List Byte := p.data.take 256

/-- R125, R46: context `c` is granted to packet `n`, first in line on port `port`. -/
def State.grant (s : State) (port n : Nat) (p : Pkt) (c : Nat) : State :=
  let won := s.winsDeadline p
  let pass := p.pass + 1
  let b := if p.stamped then p.coat else s.activeBank
  let quad := c / 1024
  let profile := s.profileOf b p.rx.inPort pass
  let p1 : Pkt := { p with
    loc := .ctx c, pass := pass, pipe := quad, coat := b, stamped := true
    coatGen := if p.stamped then p.coatGen else s.coat.gen
    hv := startVector p b profile pass, drec := [], early := none, act := none
    excess := false, fault := false, parseDrop := false, dropStage := none, lastStage := 16 * quad, charges := [], cut := false
    inFifo := 0 }
  let s1 := s.setPkt n p1
  let s2 := if p.stamped then s1 else s1.setInflight b (s1.inflight b + 1)
  let s3 := if won then (s2.withCoat { s2.coat with winners := n :: s2.coat.winners }) else s2
  let s4 := s3.setCtx c (some ⟨n, [], 0, 0, false, false, 0⟩)
  let s5 := s4.incSat (busyFld quad)
  let s6 := s5.serve quad port
  let s7 := s6.sample 1 p.rx.inPort
  let s8 := if pass = 1 then s7.traceTag n p1 quad else s7
  s8.trace n 0 0 [profile, min p.data.length 256, if p.rx.arrived then p.data.length else 0xFFFF]

/-- CONTEXT_GRANT (R125, R128, R51): the packet first in line on `port` gets a context of its quad when weighted round robin serves that
port next; a packet whose stamp is for a retired bank is discarded. -/
def execContextGrant (port : Nat) (s : State) : Result :=
  .next <|
    match s.waiting port with
    | none => s
    | some n =>
      match s.pkt n with
      | none => s
      | some p =>
        let quad := s.quadOf port p
        if !s.admits then s
        else if s.stampRetired n p then
          (((s.freeFifo n p).tally1 769 p.data.length).discardPkt n 5 1)
        else if s.roundRobin quad ≠ some port then s
        else
          match s.freeCtx quad with
          | none => s
          | some c => s.grant port n p c

/-- R154: the predicted header vector of R155. -/
def predictedVector (p : Pkt) : Sparse Byte :=
  let h := Sparse.putOctets [] 0 (p.data.take 64)
  let h := Sparse.putOctets h 0x100 (Sparse.octets p.hv 0x100 4)
  let h := Sparse.putOctets h 0x108 (Sparse.octets p.hv 0x108 10)
  let h := hvSet h 0x112 1 (hvGet p.hv 0x112 1 % 32)
  let h := Sparse.putOctets h 0x114 (Sparse.octets p.hv 0x114 2)
  let h := Sparse.putOctets h 0x117 (Sparse.octets p.hv 0x117 5)
  Sparse.putOctets h 0x130 (Sparse.octets p.hv 0x130 16)

/-- R129, R154: the first `n` octets of a packet of length L are present, or all of them where L is below `n`. -/
def Pkt.present (p : Pkt) (n : Nat) : Bool := p.rx.arrived || decide (n ≤ p.data.length)

/-- R154: the guard of a profile holds on a packet. -/
def State.guardHolds (s : State) (pr : Nat) (p : Pkt) : Bool :=
  let off := s.rd F.SKT_PROFILE.EL_GUARD_OFF pr
  let m := s.rd F.SKT_PROFILE.EL_GUARD_MASK pr
  decide (off + 2 ≤ p.data.length) &&
    Nat.land (natBE ((p.data.drop off).take 2)) m == Nat.land (s.rd F.SKT_PROFILE.EL_GUARD_VAL pr) m

/-- EARLY_LOOKUP_ISSUE (R154, R155, R158): the predicted lookup of context `c` is issued, or not for want of a slot. -/
def execEarlyLookupIssue (c : Nat) (slotFree : Bool) (s : State) : Result :=
  .next <|
    match s.ctx c with
    | none => s
    | some x =>
      match s.pkt x.pkt with
      | none => s
      | some p =>
        let pr := bankNo p.coat * 64 + hvGet p.hv 0x102 1
        let tpl := s.rd F.SKT_PROFILE.EL_TPL pr
        if x.running || x.ended || p.early.isSome || !p.present 64 || !s.on F.SKT_PROFILE.EL_EN pr || !s.guardHolds pr p ||
            s.rd F.GLZ_TPL.KIND (bankNo p.coat * 256 + tpl) == 5 || tpl == 0xFF then s
        else if !slotFree then s.incWrap F.SKT_EL_NOSLOT.COUNT
        else
          let key := s.keyOf p.coat tpl (predictedVector p)
          let p1 := { p with
            early := some ⟨tpl, key, (s.lookupFor p.coat tpl key).2⟩
            hv := hvSet p.hv 0x116 1 1 }
          (s.setPkt x.pkt p1).incWrap F.SKT_EL_ISSUED.COUNT

/-- R175: the disposition record at the start of a pass. -/
def startDrec (winLen : Nat) : Sparse Byte :=
  let d := hvSet [] 0x03 1 0xFF
  let d := hvSet d 0x13 1 0xFF
  let d := hvSet d 0x18 2 winLen
  hvSet d 0x1A 2 winLen

/-- PROGRAM_START (R129, R130, R175): the header window is in the header vector and the program starts at START_PC. -/
def execProgramStart (c : Nat) (s : State) : Result :=
  .next <|
    match s.ctx c with
    | none => s
    | some x =>
      match s.pkt x.pkt with
      | none => s
      | some p =>
        if x.running || x.ended || !p.present 256 then s
        else
          let wl := min p.data.length 256
          let hv := hvSet (Sparse.putOctets p.hv 0 (window p)) 0x106 2 wl
          let pr := bankNo p.coat * 64 + hvGet p.hv 0x102 1
          (s.setPkt x.pkt { p with hv := hv, drec := startDrec wl }).setCtx c
            (some { x with g := [], cursor := 0, pc := s.rd F.SKT_PROFILE.START_PC pr, running := true, insns := 0 })

/-! ### The execution model (R135 to R149) -/

/-- What one instruction does to its context. -/
inductive SRes where
  /-- Goes on: the context, the header vector, and the next program counter. -/
  | go (x : Ctx) (hv : Sparse Byte) (pc : Nat)
  /-- Raises a reason from 1 to 7 (R145), the header vector as it then stands. -/
  | raise (hv : Sparse Byte) (reason : Nat)
  /-- DONE, EXC with reason and sub-code, DROP with reason. -/
  | done
  | exc (reason sub : Nat)
  | drop (reason : Nat)
  deriving DecidableEq, Repr

/-- R156, R157: the early lookup of a pass is squashed. -/
def State.squash (s : State) (n : Nat) (finalTpl : Nat) : State :=
  match s.pkt n with
  | none => s
  | some p =>
    match p.early with
    | none => s
    | some e =>
      let s1 := (s.setPkt n { p with early := none }).incWrap F.SKT_EL_SQUASHED.COUNT
      ((s1.undo 0).sample 3 p.pipe).trace n 8 0 [e.tpl, finalTpl]

/-- R156: at DONE the early lookup is compared with the final template and key. -/
def State.compareEarly (s : State) (n : Nat) : State :=
  match s.pkt n with
  | none => s
  | some p =>
    match p.early with
    | none => s
    | some e =>
      let tpl := hvGet p.hv 0x122 1
      if tpl = e.tpl ∧ s.keyOf p.coat tpl p.hv = e.key then s.setPkt n { p with hv := hvSet p.hv 0x116 1 3 }
      else s.squash n tpl

/-- R529: instruction sampling of the instruction at `pc` under the packet's bank. -/
def State.isample (s : State) (p : Pkt) (pc : Nat) : State :=
  if !s.on F.TLY_ISAMP_CFG.EN then s
  else
    let v := lfsrStep (Sparse.read (Config.isampSeed p.pipe) s.tally.isampLfsr p.pipe)
    let s1 := s.withTally { s.tally with isampLfsr := Sparse.write (Config.isampSeed p.pipe) s.tally.isampLfsr p.pipe v }
    if v.toNat % 2 ^ s.rd F.TLY_ISAMP_CFG.J = 0 then
      s1.incSat F.TLY_ISAMP_HIST.COUNT (bankNo p.coat * 4096 + pc % 4096) else s1

/-- The program of context `c` ends (R145 to R148, R156, R157): `reason` and `sub` as EXC_REASON and EXC_SUB, `slot` the entry of
SKT_EXC_CNT that counts it, none for DONE. -/
def State.endPass (s : State) (c : Nat) (x : Ctx) (hv : Sparse Byte) (insns reason sub : Nat) (slot : Option Nat)
    (drop : Bool) : State :=
  match s.pkt x.pkt with
  | none => s
  | some p =>
    let hv1 := hvSet hv 0x104 2 (if p.rx.arrived then p.data.length else 0xFFFF)
    let hv2 := hvSet (hvSet (hvSet hv1 0x11E 2 insns) 0x11C 1 reason) 0x11D 1 sub
    let hv3 := if slot.isSome then hvFlag hv2 7 true else hv2
    let s1 := (s.setPkt x.pkt { p with hv := hv3, parseDrop := drop }).setCtx c
      (some { x with running := false, ended := true, insns := insns })
    let s2 := match slot with
      | none => s1.compareEarly x.pkt
      | some r => (s1.incWrap F.SKT_EXC_CNT.COUNT r).squash x.pkt 0xFF
    s2.trace x.pkt 1 0 [insns, reason, hvGet hv3 0x122 1,
      match s2.pkt x.pkt with | some q => hvGet q.hv 0x116 1 | none => 0]

/-- R149: an uncorrectable program word raises the Sketch memory event. -/
def State.sketchUe (s : State) : State := s.setCause F.SKT_BANK_STATUS.ECC_UE 0 7

/-- One step of the program of context `c` by the instruction with opcode `op`: the attempt is counted (R146), the word fetched and
checked (R159), the instruction executed by `body`. A word that holds another legal instruction is not this step: nothing
happens (assumption 12). -/
def State.sketchStep (s : State) (c op : Nat) (body : SInsn → Ctx → Sparse Byte → SRes) : State :=
  match s.ctx c with
  | none => s
  | some x =>
    match s.pkt x.pkt with
    | none => s
    | some p =>
      let a := bankNo p.coat * 4096 + x.pc
      let i := sketchDecode (s.rd F.SKT_PROG.INSN a)
      let cnt := x.insns + 1
      if !x.running then s
      else if 256 ≤ x.insns then s.endPass c x p.hv x.insns 3 0 (some 3) false
      else if 4096 ≤ x.pc then s.endPass c x p.hv cnt 6 0 (some 6) false
      else if s.badWords.sketchUe.contains a then
        ((s.isample p x.pc).sketchUe).endPass c x p.hv cnt 7 0 (some 7) false
      else
        let s0 := if s.badWords.sketchCe.contains a then s.incSat F.SKT_BANK_STATUS.ECC_CE_CNT else s
        if i.op = op then
          let s1 := s0.isample p x.pc
          match body i x p.hv with
          | .go x1 hv pc => (s1.setPkt x.pkt { p with hv := hv }).setCtx c (some { x1 with pc := pc, insns := cnt })
          | .raise hv r => s1.endPass c x hv cnt r 0 (some r) false
          | .done => s1.endPass c x p.hv cnt 0 0 none false
          | .exc r sub => s1.endPass c x p.hv cnt r sub (some 0) false
          | .drop r => s1.endPass c x p.hv cnt r 0 (some 0) true
        else if sketchOps.contains i.op then s
        else (s0.isample p x.pc).endPass c x p.hv cnt 6 0 (some 6) false

/-- An instruction that writes a general register and falls through (R136). -/
def writeR (i : SInsn) (x : Ctx) (hv : Sparse Byte) (v : BitVec 32) : SRes := .go (x.setR i.rd v) hv (x.pc + 1)

/-- A branch: to TGT when taken, else to the next instruction (R136). -/
def branch (i : SInsn) (x : Ctx) (hv : Sparse Byte) (taken : Bool) : SRes :=
  .go x hv (if taken then i.tgt else x.pc + 1)

/-- WIN_LEN of a header vector (R130). -/
def winLen (hv : Sparse Byte) : Nat := hvGet hv 0x106 2

/-- R139. -/
def bodyLd (i : SInsn) (x : Ctx) (hv : Sparse Byte) : SRes :=
  let bit := bitsOf i.imm 9 3
  let width := bitsOf i.imm 12 5 + 1
  let a := windowAddr (bitsOf i.imm 0 9) (i.imm.testBit 17) (i.imm.testBit 18) x.cursor (x.reg i.ra)
  let n := (bit + width + 7) / 8
  let r := windowCheck (winLen hv) a n
  if r ≠ 0 then .raise hv r
  else writeR i x hv (BitVec.ofNat 32 (Sparse.readBE hv a n / 2 ^ (8 * n - bit - width) % 2 ^ width))

/-- SKETCH_LD (R139). -/
def execSketchLd (c : Nat) (s : State) : Result := .next (s.sketchStep c 0x01 bodyLd)

/-- R140: size in octets of an LDH or STH descriptor, 0 for the reserved code. -/
def hvSize (imm : Nat) : Nat :=
  match bitsOf imm 9 2 with
  | 0 => 1
  | 1 => 2
  | 2 => 4
  | _ => 0

/-- R140. -/
def bodyLdh (i : SInsn) (x : Ctx) (hv : Sparse Byte) : SRes :=
  let off := bitsOf i.imm 0 9
  let n := hvSize i.imm
  if n = 0 ∨ 512 < off + n then .raise hv 6
  else if winLen hv < 256 ∧ off < 256 ∧ winLen hv < min (off + n) 256 then .raise hv 4
  else writeR i x hv (BitVec.ofNat 32 (hvGet hv off n))

/-- SKETCH_LDH (R140). -/
def execSketchLdh (c : Nat) (s : State) : Result := .next (s.sketchStep c 0x02 bodyLdh)

/-- SKETCH_MOV (R138). -/
def execSketchMov (c : Nat) (s : State) : Result :=
  .next (s.sketchStep c 0x03 fun i x hv => writeR i x hv (sketchB i x))

/-- SKETCH_ADD (R137, R138). -/
def execSketchAdd (c : Nat) (s : State) : Result :=
  .next (s.sketchStep c 0x04 fun i x hv => writeR i x hv (x.reg i.ra + sketchB i x))

/-- SKETCH_SUB (R137, R138). -/
def execSketchSub (c : Nat) (s : State) : Result :=
  .next (s.sketchStep c 0x05 fun i x hv => writeR i x hv (x.reg i.ra - sketchB i x))

/-- SKETCH_AND (R138). -/
def execSketchAnd (c : Nat) (s : State) : Result :=
  .next (s.sketchStep c 0x06 fun i x hv => writeR i x hv (x.reg i.ra &&& sketchB i x))

/-- SKETCH_OR (R138). -/
def execSketchOr (c : Nat) (s : State) : Result :=
  .next (s.sketchStep c 0x07 fun i x hv => writeR i x hv (x.reg i.ra ||| sketchB i x))

/-- SKETCH_XOR (R138). -/
def execSketchXor (c : Nat) (s : State) : Result :=
  .next (s.sketchStep c 0x08 fun i x hv => writeR i x hv (x.reg i.ra ^^^ sketchB i x))

/-- SKETCH_SHL (R137): the count is B[4:0]. -/
def execSketchShl (c : Nat) (s : State) : Result :=
  .next (s.sketchStep c 0x09 fun i x hv => writeR i x hv (x.reg i.ra <<< ((sketchB i x).toNat % 32)))

/-- SKETCH_SHR (R137): logical, the count is B[4:0]. -/
def execSketchShr (c : Nat) (s : State) : Result :=
  .next (s.sketchStep c 0x0A fun i x hv => writeR i x hv (x.reg i.ra >>> ((sketchB i x).toNat % 32)))

/-- R143. -/
def bodyCsum (i : SInsn) (x : Ctx) (hv : Sparse Byte) : SRes :=
  let n := (sketchB i x).toNat
  if n % 2 = 1 ∨ n < 2 ∨ 64 < n then .raise hv 6
  else
    let r := windowCheck (winLen hv) x.cursor n
    if r ≠ 0 then .raise hv r
    else writeR i x hv (BitVec.ofNat 32 (onesSum (Sparse.octets hv x.cursor n)))

/-- SKETCH_CSUM (R143). -/
def execSketchCsum (c : Nat) (s : State) : Result := .next (s.sketchStep c 0x0B bodyCsum)

/-- R141: the source is checked first, then the destination. -/
def bodyXcp (i : SInsn) (x : Ctx) (hv : Sparse Byte) : SRes :=
  let n := bitsOf i.imm 18 6 + 1
  let a := windowAddr (bitsOf i.imm 0 9) (i.imm.testBit 24) (i.imm.testBit 25) x.cursor (x.reg i.ra)
  let d := bitsOf i.imm 9 9
  let r := windowCheck (winLen hv) a n
  if r ≠ 0 then .raise hv r
  else if !sketchWritable d n then .raise hv 6
  else .go x (Sparse.putOctets hv d (Sparse.octets hv a n)) (x.pc + 1)

/-- SKETCH_XCP (R141). -/
def execSketchXcp (c : Nat) (s : State) : Result := .next (s.sketchStep c 0x0C bodyXcp)

/-- R140. -/
def bodySth (i : SInsn) (x : Ctx) (hv : Sparse Byte) : SRes :=
  let off := bitsOf i.imm 0 9
  let n := hvSize i.imm
  if n = 0 || decide (512 < off + n) || !sketchWritable off n then .raise hv 6
  else .go x (hvSet hv off n ((x.reg i.ra).toNat % 256 ^ n)) (x.pc + 1)

/-- SKETCH_STH (R140). -/
def execSketchSth (c : Nat) (s : State) : Result := .next (s.sketchStep c 0x0D bodySth)

/-- SKETCH_GETC (R138). -/
def execSketchGetc (c : Nat) (s : State) : Result :=
  .next (s.sketchStep c 0x0E fun i x hv => writeR i x hv (BitVec.ofNat 32 x.cursor))

/-- R131: the cursor moves to `v`, or reason 2 is raised. -/
def moveCursor (x : Ctx) (hv : Sparse Byte) (v : Nat) : SRes :=
  if 256 < v then .raise hv 2 else .go { x with cursor := v } hv (x.pc + 1)

/-- SKETCH_ADV (R131, R137: modulo 2^32). -/
def execSketchAdv (c : Nat) (s : State) : Result :=
  .next (s.sketchStep c 0x10 fun i x hv => moveCursor x hv ((x.cursor + (sketchB i x).toNat) % 2 ^ 32))

/-- SKETCH_SETC (R131). -/
def execSketchSetc (c : Nat) (s : State) : Result :=
  .next (s.sketchStep c 0x11 fun i x hv => moveCursor x hv (sketchB i x).toNat)

/-- R142: HDR writes the next header record and may advance the cursor (R137: modulo 2^32). A LEN_IMM from 257 to 511, for which the
specification states nothing, is taken as that length (assumption 104). -/
def bodyHdr (i : SInsn) (x : Ctx) (hv : Sparse Byte) : SRes :=
  let h := if i.ib then bitsOf i.imm 16 9 else (x.reg i.rb).toNat
  let cnt := hvGet hv 0x113 1
  if h = 0 then .raise hv 6
  else if 16 ≤ cnt then .raise hv 1
  else if x.cursor = 256 then .raise hv 2
  else
    let room := 256 - x.cursor
    let rec4 := bitsOf i.imm 0 8 * 2 ^ 24 + x.cursor % 256 * 2 ^ 16 + min h room % 256 * 2 ^ 8 +
      (if room < h then 128 else 0) + bitsOf i.imm 8 7
    let hv1 := hvSet (hvSet hv (0x140 + 4 * cnt) 4 rec4) 0x113 1 (cnt + 1)
    if i.imm.testBit 25 then
      moveCursor x hv1 ((x.cursor + h) % 2 ^ 32)
    else .go x hv1 (x.pc + 1)

/-- SKETCH_HDR (R142). -/
def execSketchHdr (c : Nat) (s : State) : Result := .next (s.sketchStep c 0x12 bodyHdr)

/-- R150, R137. -/
def bodyLchk (i : SInsn) (x : Ctx) (hv : Sparse Byte) : SRes :=
  let e := (x.cursor + (sketchB i x).toNat) % 2 ^ 32
  if 65535 < e then .raise hv 6
  else .go x (hvFlag (hvFlag (hvSet hv 0x124 2 e) 5 true) 6 i.t) (x.pc + 1)

/-- SKETCH_LCHK (R150). -/
def execSketchLchk (c : Nat) (s : State) : Result := .next (s.sketchStep c 0x13 bodyLchk)

/-- SKETCH_BEQ (R138). -/
def execSketchBeq (c : Nat) (s : State) : Result :=
  .next (s.sketchStep c 0x20 fun i x hv => branch i x hv (x.reg i.ra == sketchB i x))

/-- SKETCH_BNE (R138). -/
def execSketchBne (c : Nat) (s : State) : Result :=
  .next (s.sketchStep c 0x21 fun i x hv => branch i x hv (x.reg i.ra != sketchB i x))

/-- SKETCH_BLT (R137): unsigned. -/
def execSketchBlt (c : Nat) (s : State) : Result :=
  .next (s.sketchStep c 0x22 fun i x hv => branch i x hv ((x.reg i.ra).ult (sketchB i x)))

/-- SKETCH_BGE (R137): unsigned. -/
def execSketchBge (c : Nat) (s : State) : Result :=
  .next (s.sketchStep c 0x23 fun i x hv => branch i x hv (!(x.reg i.ra).ult (sketchB i x)))

/-- SKETCH_BTS (R138). -/
def execSketchBts (c : Nat) (s : State) : Result :=
  .next (s.sketchStep c 0x24 fun i x hv => branch i x hv (x.reg i.ra &&& sketchB i x != 0))

/-- SKETCH_BTC (R138). -/
def execSketchBtc (c : Nat) (s : State) : Result :=
  .next (s.sketchStep c 0x25 fun i x hv => branch i x hv (x.reg i.ra &&& sketchB i x == 0))

/-- SKETCH_JMP (R138). -/
def execSketchJmp (c : Nat) (s : State) : Result :=
  .next (s.sketchStep c 0x26 fun i x hv => branch i x hv true)

/-- SKETCH_CALL (R138): g15 takes the address that follows. -/
def execSketchCall (c : Nat) (s : State) : Result :=
  .next (s.sketchStep c 0x27 fun i x hv => .go (x.setR 15 (BitVec.ofNat 32 (x.pc + 1))) hv i.tgt)

/-- SKETCH_JR (R138). -/
def execSketchJr (c : Nat) (s : State) : Result :=
  .next (s.sketchStep c 0x28 fun i x hv => .go x hv ((x.reg i.ra).toNat % 4096))

/-- SKETCH_DONE (R138, R156). -/
def execSketchDone (c : Nat) (s : State) : Result := .next (s.sketchStep c 0x30 fun _ _ _ => .done)

/-- SKETCH_EXC (R138, R145): reasons below 8 are a bad operand. -/
def execSketchExc (c : Nat) (s : State) : Result :=
  .next (s.sketchStep c 0x31 fun i _ hv =>
    if bitsOf i.imm 0 6 < 8 then .raise hv 6 else .exc (bitsOf i.imm 0 6) (bitsOf i.imm 8 8))

/-- SKETCH_DROP (R138, R148). -/
def execSketchDrop (c : Nat) (s : State) : Result :=
  .next (s.sketchStep c 0x32 fun i _ hv => if bitsOf i.imm 0 6 < 8 then .raise hv 6 else .drop (bitsOf i.imm 0 6))

/-- SKETCH_NOP (R138). -/
def execSketchNop (c : Nat) (s : State) : Result :=
  .next (s.sketchStep c 0x3E fun _ x hv => .go x hv (x.pc + 1))

/-- R33: header vectors held at the input of a pipe. -/
def State.pipeInDepth (s : State) (pipe : Nat) : Nat := s.countPkts (fun p => p.loc == .pipeIn && p.pipe == pipe)

/-- HEADER_VECTOR_SEND (R33, R147): the header vector goes to its pipe's input against credit and the context is freed; one that
ended with an exception or DROP passes the pipe without running a stage. It is last in its pipe's order (R168). -/
def execHeaderVectorSend (c : Nat) (s : State) : Result :=
  .next <|
    match s.ctx c with
    | none => s
    | some x =>
      match s.pkt x.pkt with
      | none => s
      | some p =>
        if !x.ended || decide (256 ≤ s.pipeInDepth p.pipe) then s
        else
          let q : Pkt := { p with loc := .pipeIn, seq := s.nextSeq }
          let s1 := (if hvHas p.hv 7 then s.leaveIngress x.pkt q else s.setPkt x.pkt q).setCtx c none
          s1.wr (busyFld (c / 1024)) 0 (s1.rd (busyFld (c / 1024)) - 1)

end Sys2Proof.Machine
end

