-- ==== Sys2Proof/Machine/Glaze.lean ====
section
/-!
DEFINITION. The Glaze stages (chapter 5): a stage's lookup and the start of its program, one meaning for each action instruction of
R177, policers, notifications, and the charge true-up.
-/
namespace Sys2Proof.Machine

/-! ### Policers (R189 to R192) -/

/-- R189: refill a bucket at `rate` units per `den` FRC units up to `cap`; a level the refill lifts to the cap keeps no
fraction. -/
def Bucket.refill (b : Bucket) (rate den cap now : Nat) : Bucket :=
  let num := b.frac + rate * (now - b.last)
  let lvl := b.level + (num / den : Nat)
  if (cap : Int) ≤ lvl then ⟨cap, 0, now⟩ else ⟨lvl, num % den, now⟩

/-- R192, R195: a bucket that has not been accessed since the start is full. -/
def State.bucketNow (s : State) (b : Option Bucket) (rate den cap : Nat) : Bucket :=
  match b with
  | none => ⟨cap, 0, s.now⟩
  | some b => b.refill rate den cap s.now

/-- R189: bytes refill at RATE kb/s: RATE × Δt / 8,000,000 with Δt in ns, so 8,000,000 × 65,536 per FRC unit. -/
def policerDen : Nat := 8000000 * 65536

/-- Ingress policer `i` as it stands now. -/
def State.policer (s : State) (i : Nat) : Bucket :=
  s.bucketNow (Sparse.read none s.policers i) (s.rd F.GLZ_POL.RATE i) policerDen (s.rd F.GLZ_POL.BURST i)

/-- Keep the state of policer `i`. -/
def State.setPolicer (s : State) (i : Nat) (b : Bucket) : State :=
  s.withPolicers (Sparse.write none s.policers i (some b))

/-- R190: the charge C of a packet, by its header vector. -/
def chargeOf (hv : Sparse Byte) : Nat :=
  let f := hvGet hv 0x104 2
  if f ≠ 0xFFFF then f else if hvHas hv 5 then hvGet hv 0x124 2 else winLen hv

/-- R190: an entry is owed to the charge list when FRAME_LEN is not known. -/
def owesEntry (hv : Sparse Byte) : Bool := hvGet hv 0x104 2 == 0xFFFF

/-! ### Notifications (R240 to R242, R492) -/

/-- The octets a notification's set is chosen by (R241). -/
def notedOctets (k : Noted) : List Byte :=
  octetsBE 1 k.kind ++ octetsBE 1 k.bank ++ octetsBE 1 k.table ++ octetsBE 1 k.keyw ++ octetsBE 40 k.key

/-- R241: two notifications are equal. -/
def Noted.same (a b : Noted) : Bool := a.kind == b.kind && a.bank == b.bank && a.table == b.table && a.key == b.key

/-- R241, R242: a notification passes the filter and is posted to its ring, or is suppressed, or is discarded for a full ring. -/
def State.notify (s : State) (k : Noted) (ring : Nat) (entry : List Byte) : State :=
  let set := Config.filterHash s.tables.hashKey (notedOctets k) % 1024
  let es := Sparse.read [] s.tables.filter set
  if es.any (fun e => e.same k && decide (s.now < e.time + ms 1)) then s.incSat F.TBL_LEARN_STATUS.SUPPRESSED
  else if s.ringFull ring then s.incSat F.TBL_LEARN_STATUS.RING_FULL
  else
    let es1 := es.filter (fun e => !e.same k)
    let es2 := (if 4 ≤ es1.length then es1.drop 1 else es1) ++ [k]
    (s.withTables { s.tables with filter := Sparse.write [] s.tables.filter set es2 }).ringPost ring entry

/-- A learn ring entry (chapter 15, learn and age entries): `keyw` is the table's key width, `tplw` that of the stage's key. -/
def learnEntry (bank table keyw tplw key cls port sub time : Nat) : List Byte :=
  octetsBE 1 0 ++ octetsBE 1 bank ++ octetsBE 1 table ++ octetsBE 1 keyw ++
  padTo 40 (padTo (keyBits keyw / 8) (octetsBE (keyBits tplw / 8) key)) ++ octetsBE 1 cls ++ [0] ++ octetsBE 2 port ++ octetsBE 3 sub ++ [0] ++
  octetsBE 8 time ++ [0, 0, 0, 0x80]

/-! ### Stages -/

/-- The stage a packet is in: egress or ingress, and its number from 1. -/
def Loc.stage? : Loc → Option (Bool × Nat)
  | .acting n => some (false, n)
  | .egActing n => some (true, n)
  | _ => none

/-- R516: the index of a stage among 16 per pipe. -/
def State.stageIndex (s : State) (p : Pkt) (eg : Bool) (n : Nat) : Nat :=
  if eg then 16 * s.rd F.GLZ_EGR_PIPE.PIPE p.node + 12 + (n - 1) else 16 * p.pipe + (n - 1)

/-- The bank a stage runs under (R46, R47). -/
def stageBank (p : Pkt) (eg : Bool) : Bool := if eg then p.egCoat else p.coat

/-- R172, R173: the stage begins its action program on the lookup's answer: the lookup commits, NEXT_TPL takes the template's
NEXT (R166). -/
def State.startAction (s : State) (n : Nat) (p : Pkt) (eg : Bool) (st tpl key : Nat) (l : Lookup) : State :=
  let i := bankNo (stageBank p eg) * 256 + tpl
  let pc := if l.ni then s.rd F.GLZ_TPL.NI_PC i else if l.hit then l.res.toNat / 2 ^ 115 else s.rd F.GLZ_TPL.MISS_PC i
  let s1 := if l.hit then s.commitLookup l.ref else s
  s1.setPkt n { p with
    loc := if eg then .egActing st else .acting st
    lastStage := s.stageIndex p eg st
    early := none
    drec := hvSet p.drec 0x13 1 (s.rd F.GLZ_TPL.NEXT i)
    act := some ⟨pc, 1, [], if l.hit then l.res else 0, key, tpl, false, 0, l.hit⟩ }

/-- R167, R180, R528: the stage's program has ended; the packet waits to be handed on. -/
def State.endStage (s : State) (n : Nat) (p : Pkt) (eg : Bool) (st : Nat) : State :=
  let a := p.act.getD ⟨0, 0, [], 0, 0, 0, false, 0, false⟩
  let s1 := s.setPkt n { p with loc := if eg then .egStageDone st else .stageDone st, act := none }
  s1.trace n (if eg then 6 else 2) st
    [a.tpl, s.rd F.GLZ_TPL.KIND (bankNo (stageBank p eg) * 256 + a.tpl), if a.hit then 1 else 0,
     a.res.toNat / 2 ^ 115, a.executed]

/-- The stage that `GLAZE_STAGE` would run for a packet: egress or ingress, its number and its template (R166, R167). -/
def nextStage (p : Pkt) : Option (Bool × Nat × Nat) :=
  match p.loc with
  | .pipeIn => some (false, 1, hvGet p.hv 0x122 1)
  | .stageIn k => some (false, k, hvGet p.drec 0x13 1)
  | .egStageIn k => some (true, k, hvGet p.drec 0x13 1)
  | _ => none

/-- The pipe whose stages a packet runs, ingress or egress. -/
def State.pipeOf (s : State) (p : Pkt) (eg : Bool) : Nat := if eg then s.rd F.GLZ_EGR_PIPE.PIPE p.node else p.pipe

/-- R85, R168: no packet before `p` in its pipe stands at a place that `f` picks out. -/
def State.inPipeOrder (s : State) (p : Pkt) (eg : Bool) (f : Loc → Bool) : Bool :=
  !s.someBefore p.seq (fun q => f q.loc && s.pipeOf q eg == s.pipeOf p eg)

/-- GLAZE_STAGE (R85, R166 to R168, R171 to R174): the packet is the first that waits at the stage in its pipe; the stage forms its key, makes its one lookup and begins its program; a POUNCE stage waits
for the engine's answer; template 0xFF bypasses the stages. -/
def execGlazeStage (n : Nat) (s : State) : Result :=
  .next <|
    match s.pkt n with
    | none => s
    | some p =>
      match nextStage p with
      | none => s
      | some (eg, st, tpl) =>
        if s.halted || !s.inPipeOrder p eg (· == p.loc) then s
        else if tpl = 0xFF then (if eg then s.setPkt n { p with loc := .egStageDone 4 } else s.leaveIngress n p)
        else
          let b := stageBank p eg
          let key := s.keyOf b tpl p.hv
          match (if st = 1 && !eg && hvGet p.hv 0x116 1 == 3 then p.early else none) with
          | some e => s.startAction n p eg st tpl key e.result
          | none =>
            if s.rd F.GLZ_TPL.KIND (bankNo b * 256 + tpl) = 5 then
              s.setPkt n { p with
                loc := if eg then .egActing st else .acting st
                lastStage := s.stageIndex p eg st
                act := some ⟨0, 0, [], 0, key, tpl, true, 0, false⟩ }
            else
              let r := s.lookupFor b tpl key
              r.1.startAction n p eg st tpl key r.2

/-! ### Action programs (R176 to R181) -/

/-- What one action instruction does. -/
inductive ARes where
  /-- Goes on, skipping some of the following instructions (R180). -/
  | go (p : Pkt) (a : Act) (skip : Nat)
  /-- END. -/
  | finish
  /-- An action fault (R181). -/
  | fault
  /-- A policer excess (R189). -/
  | excess (p : Pkt)
  deriving DecidableEq, Repr

/-- R181: an action fault ends the program at once; at ingress every disposition is cancelled and the remaining stages are
bypassed. -/
def State.actionFault (s : State) (n : Nat) (p : Pkt) (eg : Bool) (st : Nat) : State :=
  let s1 := s.tally1 (704 + s.stageIndex p eg st) p.data.length
  let s2 := s1.endStage n { p with fault := true } eg st
  match s2.pkt n with
  | none => s2
  | some q => if eg then s2.setPkt n { q with loc := .egStageDone 4 } else s2.leaveIngress n q

/-- R182: word `w` of action memory is fetched: a single-bit error is corrected and counted. -/
def State.actionFetched (s : State) (w : Nat) : State :=
  if s.badWords.actionCe.contains w then s.withBadWords { s.badWords with actionFixed := s.badWords.actionFixed + 1 } else s

/-- One step of the action program of packet `n` by the instruction with opcode `op`; as `sketchStep` (assumption 12). -/
def State.actionStep (s : State) (n op : Nat) (body : AInsn → Act → Pkt → Bool → State → State × ARes) : State :=
  match s.pkt n with
  | none => s
  | some p =>
    match p.loc.stage?, p.act with
    | some (eg, st), some a =>
      let w := bankNo (stageBank p eg) * 8192 + a.pc
      let i := actionDecode (s.rd F.GLZ_ACT.INSN w)
      if a.pounce then s
      else if 8192 ≤ a.pc || s.badWords.actionUe.contains w then s.actionFault n p eg st
      else if i.op = op then
        match body i { a with executed := a.executed + 1 } p eg (s.actionFetched w) with
        | (s1, .go p1 a1 skip) =>
          let a2 := { a1 with pc := a.pc + 1 + skip, pos := a.pos + 1 + skip }
          if 16 < a2.pos then s1.endStage n { p1 with act := some a2 } eg st
          else s1.setPkt n { p1 with act := some a2 }
        | (s1, .finish) => s1.endStage n { p with act := some { a with executed := a.executed + 1 } } eg st
        | (s1, .fault) => s1.actionFault n { p with act := some { a with executed := a.executed + 1 } } eg st
        | (s1, .excess p1) =>
          let s2 := s1.endStage n { p1 with excess := true } eg st
          match s2.pkt n with
          | none => s2
          | some q => s2.leaveIngress n q
      else if actionOps.contains i.op then s
      else (s.actionFetched w).actionFault n p eg st
    | _, _ => s

/-- An instruction that writes a temporary and nothing else. -/
def writeT (i : AInsn) (a : Act) (p : Pkt) (s : State) (v : BitVec 32) : State × ARes := (s, .go p (a.setT i.td v) 0)

/-- The fields of the descriptor of LDF and STF (R178): BITOFF, width and SPACE. -/
def fieldDesc (imm : Nat) : Nat × Nat × Nat := (bitsOf imm 0 12, bitsOf imm 12 5 + 1, bitsOf imm 17 2)

/-- The size of a space in bits (R178). -/
def spaceBits (sp : Nat) : Nat := if sp = 0 then 4096 else if sp = 1 then 128 else if sp = 2 then 256 else 0

/-- R178: octets `a` to `a + n - 1` of the header vector may be written by STF and CSUP. -/
def stfWritable (p : Pkt) (a n : Nat) : Bool :=
  decide (a + n ≤ min (hvGet p.drec 0x18 2) 256) || sketchWritable a n

/-- R178. -/
def bodyLdf (i : AInsn) (a : Act) (p : Pkt) (_ : Bool) (s : State) : State × ARes :=
  let (off, w, sp) := fieldDesc i.imm
  if spaceBits sp < off + w then (s, .fault)
  else
    let v := if sp = 0 then bitField p.hv 512 off w
      else if sp = 1 then a.res.toNat / 2 ^ (128 - off - w) % 2 ^ w else bitField p.drec 32 off w
    writeT i a p s (BitVec.ofNat 32 v)

/-- ACTION_LDF (R178). -/
def execActionLdf (n : Nat) (s : State) : Result := .next (s.actionStep n 0x02 bodyLdf)

/-- R178: the range-restricted fields of DREC are stored modulo their ranges. -/
def drecClamp (d : Sparse Byte) : Sparse Byte :=
  let d := hvSet d 0x10 1 (hvGet d 0x10 1 % 8)
  let d := hvSet d 0x11 1 (hvGet d 0x11 1 % 4)
  hvSet d 0x12 1 (hvGet d 0x12 1 % 64)

/-- R178. -/
def bodyStf (i : AInsn) (a : Act) (p : Pkt) (_ : Bool) (s : State) : State × ARes :=
  let (off, w, sp) := fieldDesc i.imm
  let o := off / 8
  let n := (off % 8 + w + 7) / 8
  let v := (a.tmp i.ta).toNat % 2 ^ w
  if spaceBits sp < off + w then (s, .fault)
  else if sp = 0 then
    if stfWritable p o n then (s, .go { p with hv := setBitField p.hv off w v } a 0) else (s, .fault)
  else if sp = 2 && decide (0x10 ≤ o) && decide (o + n ≤ 0x16) then
    (s, .go { p with drec := drecClamp (setBitField p.drec off w v) } a 0)
  else (s, .fault)

/-- ACTION_STF (R178). -/
def execActionStf (n : Nat) (s : State) : Result := .next (s.actionStep n 0x03 bodyStf)

/-- ACTION_MOV (R177). -/
def execActionMov (n : Nat) (s : State) : Result :=
  .next (s.actionStep n 0x04 fun i a p _ s => writeT i a p s (actionB i a))

/-- ACTION_ADD (R177). -/
def execActionAdd (n : Nat) (s : State) : Result :=
  .next (s.actionStep n 0x05 fun i a p _ s => writeT i a p s (a.tmp i.ta + actionB i a))

/-- ACTION_SUB (R177). -/
def execActionSub (n : Nat) (s : State) : Result :=
  .next (s.actionStep n 0x06 fun i a p _ s => writeT i a p s (a.tmp i.ta - actionB i a))

/-- ACTION_AND (R177). -/
def execActionAnd (n : Nat) (s : State) : Result :=
  .next (s.actionStep n 0x07 fun i a p _ s => writeT i a p s (a.tmp i.ta &&& actionB i a))

/-- ACTION_OR (R177). -/
def execActionOr (n : Nat) (s : State) : Result :=
  .next (s.actionStep n 0x08 fun i a p _ s => writeT i a p s (a.tmp i.ta ||| actionB i a))

/-- ACTION_XOR (R177). -/
def execActionXor (n : Nat) (s : State) : Result :=
  .next (s.actionStep n 0x09 fun i a p _ s => writeT i a p s (a.tmp i.ta ^^^ actionB i a))

/-- ACTION_SHL (R177): the count is B[4:0]. -/
def execActionShl (n : Nat) (s : State) : Result :=
  .next (s.actionStep n 0x0A fun i a p _ s => writeT i a p s (a.tmp i.ta <<< ((actionB i a).toNat % 32)))

/-- ACTION_SHR (R177): logical, the count is B[4:0]. -/
def execActionShr (n : Nat) (s : State) : Result :=
  .next (s.actionStep n 0x0B fun i a p _ s => writeT i a p s (a.tmp i.ta >>> ((actionB i a).toNat % 32)))

/-- R177, R178: the checksum at IMM[8:0] updated for one changed 16-bit word. -/
def bodyCsup (i : AInsn) (a : Act) (p : Pkt) (_ : Bool) (s : State) : State × ARes :=
  let off := bitsOf i.imm 0 9
  if decide (512 < off + 2) || !stfWritable p off 2 then (s, .fault)
  else
    let hc := csumUpdate (hvGet p.hv off 2) ((a.tmp i.ta).toNat % 65536) ((a.tmp i.tb).toNat % 65536)
    (s, .go { p with hv := hvSet p.hv off 2 hc } a 0)

/-- ACTION_CSUP (R177, R178). -/
def execActionCsup (n : Nat) (s : State) : Result := .next (s.actionStep n 0x0C bodyCsup)

/-- R183: INS. -/
def bodyIns (i : AInsn) (a : Act) (p : Pkt) (_ : Bool) (s : State) : State × ARes :=
  let o := bitsOf i.imm 0 8
  let n := bitsOf i.imm 8 7 + 1
  let hl := hvGet p.drec 0x18 2
  if hl < o ∨ 256 < hl + n then (s, .fault)
  else
    let moved := Sparse.octets p.hv o (hl - o)
    let hv1 := Sparse.putOctets p.hv o (List.replicate n 0 ++ moved)
    (s, .go { p with hv := hv1, drec := hvSet p.drec 0x18 2 (hl + n) } a 0)

/-- ACTION_INS (R183). -/
def execActionIns (n : Nat) (s : State) : Result := .next (s.actionStep n 0x0D bodyIns)

/-- R183: DEL. -/
def bodyDel (i : AInsn) (a : Act) (p : Pkt) (_ : Bool) (s : State) : State × ARes :=
  let o := bitsOf i.imm 0 8
  let n := bitsOf i.imm 8 7 + 1
  let hl := hvGet p.drec 0x18 2
  if hl < o + n then (s, .fault)
  else
    let moved := Sparse.octets p.hv (o + n) (hl - (o + n))
    (s, .go { p with hv := Sparse.putOctets p.hv o moved, drec := hvSet p.drec 0x18 2 (hl - n) } a 0)

/-- ACTION_DEL (R183). -/
def execActionDel (n : Nat) (s : State) : Result := .next (s.actionStep n 0x0E bodyDel)

/-- ACTION_SKZ (R177, R180). -/
def execActionSkz (n : Nat) (s : State) : Result :=
  .next (s.actionStep n 0x10 fun i a p _ s => (s, .go p a (if a.tmp i.ta = 0 then bitsOf i.imm 0 4 else 0)))

/-- ACTION_SKNZ (R177, R180). -/
def execActionSknz (n : Nat) (s : State) : Result :=
  .next (s.actionStep n 0x11 fun i a p _ s => (s, .go p a (if a.tmp i.ta = 0 then 0 else bitsOf i.imm 0 4)))

/-- ACTION_END (R180). -/
def execActionEnd (n : Nat) (s : State) : Result := .next (s.actionStep n 0x12 fun _ _ _ _ s => (s, .finish))

/-! ### Dispositions (R185 to R188, R617) -/

/-- Set or clear a bit of DFLAGS. -/
def setDflag (p : Pkt) (bit : Nat) (v : Bool) : Pkt :=
  { p with drec := hvSet p.drec 0 1 (setBits (hvGet p.drec 0 1) bit 1 (if v then 1 else 0)) }

/-- R186, R188: a PATH record: FWD replaces an earlier RECIRC, with its destination. -/
def setPath (p : Pkt) (r : Nat) : Pkt :=
  let p1 := setDflag (setDflag p 0 true) 3 false
  { p1 with drec := hvSet (hvSet (hvSet p1.drec 0x04 2 (bitsOf r 20 11)) 0x08 4 (bitsOf r 0 20)) 0x0C 4 (bitsOf r 32 20) }

/-- R188: an indirection entry applied by its kind; a record without VALID has no effect and is a group miss. -/
def applyEntry (r : Nat) (a : Act) (p : Pkt) (s : State) : State × ARes :=
  if bitsOf r 31 1 = 0 then (s.tally1 774 p.data.length, .go p a 0)
  else
    match bitsOf r 52 2 with
    | 0 => (s, .go (setPath p r) a 0)
    | 1 => if dflag p 0 then (s, .go { p with drec := hvSet p.drec 0x08 4 (bitsOf r 0 20) } a 0) else (s, .fault)
    | 2 => (s, .go { p with drec := hvSet p.drec 0x03 1 (bitsOf r 0 5) } a 0)
    | _ => (s, .fault)

/-- R617. -/
def bodyFwd (i : AInsn) (a : Act) (p : Pkt) (eg : Bool) (s : State) : State × ARes :=
  let r := if i.ib then a.res.toNat % 2 ^ 64 else (a.tmp i.ta).toNat * 2 ^ 32 + (a.tmp i.tb).toNat
  if eg || bitsOf r 52 2 != 0 then (s, .fault) else applyEntry r a p s

/-- ACTION_FWD (R617). -/
def execActionFwd (n : Nat) (s : State) : Result := .next (s.actionStep n 0x18 bodyFwd)

/-- R188: rotate a 32-bit number right. -/
def rotr32 (v k : Nat) : Nat := (v / 2 ^ k + v % 2 ^ k * 2 ^ (32 - k)) % 2 ^ 32

/-- R188: an indirection group is indexed and its entry applied; an uncorrectable entry reads as VALID = 0 (R202). -/
def bodyFwdg (i : AInsn) (a : Act) (p : Pkt) (eg : Bool) (s : State) : State × ARes :=
  let g := (actionB i a).toNat % 4096
  let size := s.rd F.GLZ_IGRP.SIZE g
  let base := s.rd F.GLZ_IGRP.BASE g
  if eg || size == 0 || decide (4194304 < base + size) then (s, .fault)
  else
    let v := rotr32 (a.tmp i.ta).toNat (s.rd F.GLZ_IGRP.ROT g)
    let w := indirWord (base + v / 65536 * size / 65536)
    applyEntry (if s.sramUe w 1 then 0 else s.sramVal w 1) a p (s.sramTouch w 1)

/-- ACTION_FWDG (R188). -/
def execActionFwdg (n : Nat) (s : State) : Result := .next (s.actionStep n 0x19 bodyFwdg)

/-- R186: DROP, once set, stays set and keeps its first reason. -/
def setDrop (p : Pkt) (reason stage : Nat) : Pkt :=
  if dflag p 1 then p
  else
    let p1 := setDflag p 1 true
    { p1 with drec := hvSet p1.drec 0x01 1 reason, dropStage := some stage }

/-- R186: of several COPY or TRAP requests the one with the lowest reason stands. -/
def setCopy (p : Pkt) (reason : Nat) : Pkt :=
  if dflag p 2 && decide (hvGet p.drec 0x02 1 ≤ reason) then p
  else
    let p1 := setDflag p 2 true
    { p1 with drec := hvSet p1.drec 0x02 1 reason }

/-- The index of the stage a packet is in. -/
def State.myStage (s : State) (p : Pkt) : Nat :=
  match p.loc.stage? with
  | some (eg, st) => s.stageIndex p eg st
  | none => 0

/-- ACTION_DROP (R179, R186, R193). -/
def execActionDrop (n : Nat) (s : State) : Result :=
  .next (s.actionStep n 0x1A fun i a p _ s =>
    let r := (actionB i a).toNat % 64
    if r < 8 then (s, .fault) else (s, .go (setDrop p r (s.myStage p)) a 0))

/-- ACTION_COPY (R179, R186). -/
def execActionCopy (n : Nat) (s : State) : Result :=
  .next (s.actionStep n 0x1B fun i a p eg s =>
    let r := (actionB i a).toNat % 64
    if eg || decide (r < 8) then (s, .fault) else (s, .go (setCopy p r) a 0))

/-- ACTION_TRAP (R177, R179): COPY and DROP together. -/
def execActionTrap (n : Nat) (s : State) : Result :=
  .next (s.actionStep n 0x1C fun i a p eg s =>
    let r := (actionB i a).toNat % 64
    if eg || decide (r < 8) then (s, .fault) else (s, .go (setDrop (setCopy p r) r (s.myStage p)) a 0))

/-- The mirror sessions requested, lowest first (R186). -/
def mirrors (p : Pkt) : List Nat := (List.range 16).filter (fun k => (hvGet p.drec 0x06 2).testBit k)

/-- R186: the two lowest-numbered sessions stand; each further request is a mirror excess (assumption 20 for a repeated one). -/
def bodyMirr (i : AInsn) (a : Act) (p : Pkt) (eg : Bool) (s : State) : State × ARes :=
  let k := (actionB i a).toNat % 16
  if eg || !s.on F.GLZ_MIRROR.EN k then (s, .fault)
  else
    let bits := setBits (hvGet p.drec 0x06 2) k 1 1
    let kept := ((List.range 16).filter (fun j => bits.testBit j)).take 2
    let p1 := { p with drec := hvSet p.drec 0x06 2 (kept.foldl (fun v j => v + 2 ^ j) 0) }
    let taken := ((List.range 16).filter (fun j => bits.testBit j)).length
    (if 2 < taken then s.tally1 772 p.data.length else s, .go p1 a 0)

/-- ACTION_MIRR (R179, R186). -/
def execActionMirr (n : Nat) (s : State) : Result := .next (s.actionStep n 0x1D bodyMirr)

/-- ACTION_RECIRC (R186, R187): replaces an earlier FWD. -/
def execActionRecirc (n : Nat) (s : State) : Result :=
  .next (s.actionStep n 0x1E fun _ a p eg s =>
    if eg then (s, .fault) else (s, .go (setDflag (setDflag p 3 true) 0 false) a 0))

/-- R175, R190: how many entries the pass's charge list has had. -/
def chargeCount (p : Pkt) : Nat := hvGet p.drec 0x16 1

/-- R190: one entry more on the charge list, beside those of `cs` that still wait. -/
def addCharge (p : Pkt) (cs : List (Bool × Nat × Nat)) : Pkt :=
  { p with charges := p.charges ++ cs, drec := hvSet p.drec 0x16 1 (chargeCount p + 1) }

/-- R190: each policer and counter on a charge list is charged with L − C. -/
def State.trueUp (s : State) (len : Nat) (cs : List (Bool × Nat × Nat)) : State :=
  cs.foldl (fun s e =>
    let d : Int := (len : Int) - e.2.2
    if e.1 then
      let b := s.policer e.2.1
      s.setPolicer e.2.1 { b with level := b.level - d }
    else s.pairAdd e.2.1 0 d) s

/-- R190: a packet is charged `c` on policer or pair `k` while its FRAME_LEN is unknown: the entry waits for the packet's full arrival, or is
settled at once where it has fully arrived since. -/
def State.owe (s : State) (p : Pkt) (isPol : Bool) (k c : Nat) : State × Pkt :=
  if !owesEntry p.hv then (s, p)
  else if p.rx.arrived && !p.cut then (s.trueUp p.data.length [(isPol, k, c)], addCharge p [])
  else (s, addCharge p [(isPol, k, c)])

/-- R189, R190: POL. -/
def bodyPol (i : AInsn) (a : Act) (p : Pkt) (eg : Bool) (s : State) : State × ARes :=
  let k := (actionB i a).toNat % 65536
  let b := s.policer k
  let c := chargeOf p.hv
  if eg then (s, .fault)
  else if s.rd F.GLZ_POL.RATE k = 0 ∨ b.level < (c : Int) then
    ((s.setPolicer k b).tally1 (32768 + k) p.data.length, .excess { p with act := some a })
  else if owesEntry p.hv && decide (8 ≤ chargeCount p) then (s, .fault)
  else
    let r := (s.setPolicer k { b with level := b.level - c }).owe p true k c
    (r.1, .go r.2 a 0)

/-- ACTION_POL (R189, R190). -/
def execActionPol (n : Nat) (s : State) : Result := .next (s.actionStep n 0x1F bodyPol)

/-- R515, R190: CNT. -/
def bodyCnt (i : AInsn) (a : Act) (p : Pkt) (_ : Bool) (s : State) : State × ARes :=
  let k := (actionB i a).toNat % 2 ^ 25
  let c := chargeOf p.hv
  if !s.programPair k then (s.incSat F.TLY_STATUS.RANGE_CNT, .go p a 0)
  else if owesEntry p.hv && decide (8 ≤ chargeCount p) then (s, .fault)
  else
    let r := (s.pairAdd k 1 c).owe p false k c
    (r.1, .go r.2 a 0)

/-- ACTION_CNT (R515, R190). -/
def execActionCnt (n : Nat) (s : State) : Result := .next (s.actionStep n 0x20 bodyCnt)

/-- ACTION_HASH (R188). -/
def execActionHash (n : Nat) (s : State) : Result :=
  .next (s.actionStep n 0x21 fun i a p eg s =>
    writeT i a p s (BitVec.ofNat 32 (s.hashOf (stageBank p eg) ((actionB i a).toNat % 16) p.hv)))

/-- R240: LEARN posts a learn notification of the stage's key. -/
def bodyLearn (i : AInsn) (a : Act) (p : Pkt) (eg : Bool) (s : State) : State × ARes :=
  let b := bankNo (stageBank p eg)
  let table := s.rd F.GLZ_TPL.TABLE (b * 256 + a.tpl)
  let keyw := s.rd F.TBL_DESC.KEYW (b * 256 + table)
  (s.notify ⟨0, b, table, a.key, keyw, s.now⟩ 64
    (learnEntry b table keyw (s.rd F.GLZ_TPL.KEYW (b * 256 + a.tpl)) a.key ((actionB i a).toNat % 16) p.rx.inPort p.rx.subCtx s.localNs), .go p a 0)

/-- ACTION_LEARN (R240 to R242). -/
def execActionLearn (n : Nat) (s : State) : Result := .next (s.actionStep n 0x22 bodyLearn)

/-- ACTION_NOP (R177). -/
def execActionNop (n : Nat) (s : State) : Result :=
  .next (s.actionStep n 0x3E fun _ a p _ s => (s, .go p a 0))

end Sys2Proof.Machine
end

