-- ==== Sys2Proof/Machine/Agents.lean ====
section
/-!
DEFINITION. The command agents of the tables (R230 to R235, R209 to R211, R619).
-/
namespace Sys2Proof.Machine

/-! ### Answers -/

/-- The status codes of an agent (TBL_AG_STATUS.CODE). -/
inductive AgCode where
  | ok | exists_ | notFound | full | badCmd | range | refreshed | ue | noTable | miss
  deriving DecidableEq, Repr

/-- The code's number. -/
def AgCode.num : AgCode → Nat
  | .ok => 0 | .exists_ => 1 | .notFound => 2 | .full => 3 | .badCmd => 4 | .range => 5
  | .refreshed => 6 | .ue => 7 | .noTable => 8 | .miss => 9

/-- R230: agent `a` completes with a code; BUSY clears. -/
def State.agDone (s : State) (a : Nat) (c : AgCode) : State :=
  (s.wr F.TBL_AG_STATUS.CODE a c.num).wr F.TBL_AG_STATUS.BUSY a 0

/-- Agent `a` returns an index. -/
def State.agIndex (s : State) (a i : Nat) : State := s.wr F.TBL_AG_STATUS.RINDEX a i

/-- Agent `a` returns `n` words of data. -/
def State.agData (s : State) (a n v : Nat) : State :=
  (List.range n).foldl (fun s j => s.wr F.TBL_AG_DATA.WORD (32 * a + j) (v / 2 ^ (64 * j))) s

/-- The first `n` data words of agent `a` as one number. -/
def State.agDataVal (s : State) (a n : Nat) : Nat :=
  (List.range n).foldl (fun v j => v + s.rd F.TBL_AG_DATA.WORD (32 * a + j) * 2 ^ (64 * j)) 0

/-! ### Spaces (R234, R619) -/

/-- The kinds of space a command acts on. -/
inductive Space where
  /-- Slots of an exact-match table with its descriptor. -/
  | exact (d : Nat)
  /-- Entries of a Stencil region. -/
  | stencil (r : Region) (d : Nat)
  /-- `count` entries of `words` 64-bit words from word `base`. -/
  | index (base count words : Nat)
  deriving DecidableEq, Repr

/-- What SPACE and TABLE name: a space, or the code that answers. -/
def State.agSpace (s : State) (a : Nat) : Space ⊕ AgCode :=
  let sp := s.rd F.TBL_AG_CMD.SPACE a
  let d := s.rd F.TBL_AG_CMD.BANK a * 256 + s.rd F.TBL_AG_CMD.TABLE a
  let part := partWord (s.rd F.TBL_DESC.PART_BASE d)
  let cnt := s.rd F.TBL_DESC.PART_CNT d
  if sp = 4 then .inl (.index (adjWord 0) 1048576 2)
  else if sp = 5 then .inl (.index (indirWord 0) 4194304 1)
  else if 5 < sp then .inr .badCmd
  else
    match s.rd F.TBL_DESC.KIND d, sp with
    | 0, _ => .inr .noTable
    | 1, 0 => .inl (.index part (cnt * 65536) 2)
    | 2, 0 => .inl (.exact d)
    | 3, 0 => .inl (.stencil (s.mainRegion d) d)
    | 3, 1 => if s.rd F.TBL_DESC.KEYW d = 0 then .inr .badCmd else .inl (.stencil (s.longRegion d) d)
    | 3, 2 => .inl (.index part (cnt * 4096) 32)
    | 3, 3 => .inl (.index (partWord (s.rd F.TBL_DESC.RES_BASE d)) (s.rd F.TBL_DESC.RES_CNT d * 65536) 2)
    | 4, 0 => .inl (.stencil (s.mainRegion d) d)
    | _, _ => .inr .badCmd

/-- The key of a command in the width of descriptor `d`. -/
def State.agKey (s : State) (a d : Nat) : Nat :=
  s.rd F.TBL_AG_KEY.KEY a % 2 ^ keyBits (s.rd F.TBL_DESC.KEYW d)

/-- The slots of an exact-match table: 32,768 to a partition (R207). -/
def State.slotCount (s : State) (d : Nat) : Nat := s.rd F.TBL_DESC.PART_CNT d * 32768

/-! ### Exact-match slots (R208 to R211, R619) -/

/-- Store slot `i`, its GEN one more than it was (R234). -/
def State.putSlot (s : State) (d i v : Nat) : State :=
  s.sramPut (s.slotWord d i) 4 (setBits v 27 4 (slotGen (s.slotVal d i) + 1))

/-- The slots an entry whose first slot is `i` fills. -/
def State.slotsOf (s : State) (d i : Nat) : List Nat :=
  if s.rd F.TBL_DESC.KEYW d = 0 then [i] else [i, i + 1]

/-- Clear the entry whose first slot is `i`. -/
def State.clearEntry (s : State) (d i : Nat) : State := (s.slotsOf d i).foldl (fun s j => s.putSlot d j 0) s

/-- Copy the entry whose first slot is `i` to first slot `j`. -/
def State.copyEntry (s : State) (d i j : Nat) : State :=
  let v0 := s.slotVal d i
  let v1 := s.slotVal d (i + 1)
  if s.rd F.TBL_DESC.KEYW d = 0 then s.putSlot d j v0 else (s.putSlot d j v0).putSlot d (j + 1) v1

/-- The key that the entry with first slot `i` holds. -/
def State.entryKey (s : State) (d i : Nat) : Nat :=
  if s.rd F.TBL_DESC.KEYW d = 0 then slotKey (s.slotVal d i)
  else slotKey (s.slotVal d i) * 2 ^ 80 + slotKey (s.slotVal d (i + 1))

/-- The first slots at which an entry of this table may start in bucket `b`. -/
def State.starts (s : State) (d b : Nat) : List Nat :=
  if s.rd F.TBL_DESC.KEYW d = 0 then [4 * b, 4 * b + 1, 4 * b + 2, 4 * b + 3] else [4 * b, 4 * b + 2]

/-- The first free place for an entry in bucket `b`. -/
def State.freeIn (s : State) (d b : Nat) : Option Nat :=
  (s.starts d b).find? (fun i => (s.slotsOf d i).all (fun j => slotWidth (s.slotVal d j) == 0))

/-- The entries of bucket `b`, in slot order. -/
def State.entriesOf (s : State) (d b : Nat) : List Nat :=
  (s.starts d b).filter (fun i =>
    slotWidth (s.slotVal d i) == (if s.rd F.TBL_DESC.KEYW d = 0 then 1 else 2))

/-- The other candidate bucket of the entry with first slot `i`. -/
def State.otherBucket (s : State) (d i : Nat) : Nat :=
  let b := s.exactBuckets d (s.entryKey d i)
  if b.1 = i / 4 then b.2 else b.1

/-- What the search for a path of relocations finds: a path with the free place at its far end, none, or a bucket that cannot be read. -/
inductive Room where
  | path (entries : List Nat) (free : Nat) | none | unreadable
  deriving DecidableEq, Repr

/-- R209: breadth first over at most `fuel` entries: the queue holds paths, the entry to move first at the head of each. Every bucket that the
search reads is checked (R201, R202). -/
def State.findPath (s : State) (d : Nat) : Nat → List (List Nat) → List Nat → State × Room
  | 0, _, _ => (s, .none)
  | _ + 1, [], _ => (s, .none)
  | fuel + 1, p :: queue, seen =>
    match p with
    | [] => s.findPath d fuel queue seen
    | e :: _ =>
      let ob := s.otherBucket d e
      if ob = e / 4 then s.findPath d fuel queue seen
      else
        let s1 := s.sramTouch (s.slotWord d (4 * ob)) 16
        if s.sramUe (s.slotWord d (4 * ob)) 16 then (s1, .unreadable)
        else
          match s.freeIn d ob with
          | some f => (s1, .path p f)
          | none =>
            let next := if 4 ≤ p.length then [] else (s.entriesOf d ob).filter (fun x => !seen.contains x)
            s1.findPath d fuel (queue ++ next.map (fun x => x :: p)) (seen ++ next)

/-- R209, R210: carry out a path from its far end: each entry is written to its new place before it is cleared from its old one;
the place freed last is answered. -/
def State.carryPath (s : State) (d : Nat) : List Nat → Nat → State × Nat
  | [], f => (s, f)
  | e :: rest, f => ((s.copyEntry d e f).clearEntry d e).carryPath d rest e

/-- R202, R209: a place for a new entry of `key`, after relocations where they are needed, or the code that ends the command. -/
def State.makeRoom (s : State) (d key : Nat) : State × (Nat ⊕ AgCode) :=
  let bs := s.exactCandidates d key
  match bs.filterMap (s.freeIn d) with
  | f :: _ => (s, .inl f)
  | [] =>
    let es := bs.flatMap (s.entriesOf d)
    match s.findPath d 128 (es.map (fun e => [e])) es with
    | (s1, .none) => (s1, .inr .full)
    | (s1, .unreadable) => (s1, .inr .ue)
    | (s1, .path p f) =>
      let r := s1.carryPath d p f
      (r.1, .inl r.2)

/-- The unit count that an entry of descriptor `d` is stamped with (R211). -/
def State.unitCount (s : State) (d : Nat) : Nat :=
  match s.ageingOf d with
  | some e => (s.age e).u
  | none => 0

/-- R211: the slot word of a new entry. -/
def State.newSlot (s : State) (a d key : Nat) : Nat :=
  let w80 := s.rd F.TBL_DESC.KEYW d = 0
  let v := setBits 0 176 80 (if w80 then key else key / 2 ^ 80)
  let v := setBits v 48 128 (s.agDataVal a 2)
  let v := setBits v 40 8 (s.unitCount d)
  let v := setBits v 37 1 (s.rd F.TBL_AG_META.AGE_EN a)
  let v := setBits v 35 2 (if w80 then 1 else 2)
  setBits v 31 4 (s.rd F.TBL_AG_META.LCLASS a)

/-- Place the new entry of a command at first slot `i`. -/
def State.placeNew (s : State) (a d key i : Nat) : State :=
  let s1 := s.putSlot d i (s.newSlot a d key)
  if s.rd F.TBL_DESC.KEYW d = 0 then s1
  else s1.putSlot d (i + 1) (setBits (setBits 0 176 80 (key % 2 ^ 80)) 35 2 3)

/-- Return the META of a slot to agent `a`. -/
def State.agSlotMeta (s : State) (a v : Nat) : State :=
  let s1 := (s.wr F.TBL_AG_META.TAG a 0).wr F.TBL_AG_META.HIT a (slotHit v)
  let s2 := (s1.wr F.TBL_AG_META.SUSPECT a 0).wr F.TBL_AG_META.USED a 0
  let s3 := (s2.wr F.TBL_AG_META.AGED a (slotAged v)).wr F.TBL_AG_META.AGE_EN a (slotAgeEn v)
  let s4 := (s3.wr F.TBL_AG_META.GEN a (slotGen v)).wr F.TBL_AG_META.LCLASS a (slotClass v)
  s4.wr F.TBL_AG_META.AGE_TS a (slotAgeTs v)

/-- The first slot of the entry that slot `i` belongs to (R619). -/
def State.firstSlot (s : State) (d i : Nat) : Nat := if slotWidth (s.slotVal d i) = 3 then i - 1 else i

/-- The words of the slots of an entry hold an uncorrectable error. -/
def State.slotUe (s : State) (d i : Nat) : Bool :=
  (s.slotsOf d i).any (fun j => s.sramUe (s.slotWord d j) 4)

/-- R201, R202: the words of an entry are read. -/
def State.readEntry (s : State) (d i : Nat) : State := (s.slotsOf d i).foldl (fun s j => s.sramTouch (s.slotWord d j) 4) s

/-- READ of an exact-match slot (R619). -/
def State.readExact (s : State) (a d i : Nat) : State :=
  if s.slotCount d ≤ i then s.agDone a .range
  else
    let f := s.firstSlot d i
    let s0 := s.readEntry d f
    if s.slotUe d f then s0.agDone a .ue
    else
      let v := s0.slotVal d f
      let s1 := s0.wr F.TBL_AG_KEY.KEY a (s0.entryKey d f)
      let s2 := ((s1.agData a 2 (slotRes v)).agSlotMeta a v).agIndex a f
      let s3 := if s.on F.TBL_AG_CMD.CLR_HIT a then s2.sramPut (s2.slotWord d f) 4 (setBits v 39 1 0) else s2
      s3.agDone a .ok

/-- WRITE by KEY (R211). -/
def State.writeExact (s : State) (a d : Nat) : State :=
  let key := s.agKey a d
  let s0 := s.bucketsTouch d key
  if s.bucketsUe d key then s0.agDone a .ue
  else
    match s0.exactFind d key with
    | none => s0.agDone a .notFound
    | some i =>
      let v := s0.slotVal d i
      let v := setBits v 48 128 (s0.agDataVal a 2)
      let v := setBits v 37 1 (s0.rd F.TBL_AG_META.AGE_EN a)
      let v := setBits v 31 4 (s0.rd F.TBL_AG_META.LCLASS a)
      ((s0.putSlot d i v).agIndex a i).agDone a .ok

/-- INSERT by KEY (R209 to R211). -/
def State.insertExact (s : State) (a d : Nat) : State :=
  let key := s.agKey a d
  let s0 := s.bucketsTouch d key
  if s.bucketsUe d key then s0.agDone a .ue
  else
    match s0.exactFind d key with
    | some i => (s0.agIndex a i).agDone a .exists_
    | none =>
      match s0.makeRoom d key with
      | (s1, .inr c) => s1.agDone a c
      | (s1, .inl i) => ((s1.placeNew a d key i).agIndex a i).agDone a .ok

/-- DELETE by KEY, only an aged entry where IF_AGED asks it (R234, R239). -/
def State.deleteExact (s : State) (a d : Nat) : State :=
  let key := s.agKey a d
  let s0 := s.bucketsTouch d key
  if s.bucketsUe d key then s0.agDone a .ue
  else
    match s0.exactFind d key with
    | none => s0.agDone a .notFound
    | some i =>
      if s0.on F.TBL_AG_CMD.IF_AGED a && slotAged (s0.slotVal d i) == 0 then s0.agDone a .refreshed
      else ((s0.clearEntry d i).agIndex a i).agDone a .ok

/-- SEARCH by KEY: a management read (R234). -/
def State.searchExact (s : State) (a d : Nat) : State :=
  let key := s.agKey a d
  let s0 := s.bucketsTouch d key
  if s.bucketsUe d key then s0.agDone a .ue
  else
    match s0.exactFind d key with
    | none => s0.agDone a .miss
    | some i =>
      let v := s0.slotVal d i
      (((s0.agData a 2 (slotRes v)).agSlotMeta a v).agIndex a i).agDone a .ok

/-! ### Stencil entries -/

/-- Update every unit of the `w`-unit entry at `pos`. -/
def State.mapEntry (s : State) (pos w : Nat) (f : Nat → StnUnit → StnUnit) : State :=
  (List.range w).foldl (fun s j => s.setUnit (pos + j) (f j (s.unit (pos + j)))) s

/-- The 80 bits of unit `j` of a `w`-unit key or mask (R214). -/
def unitBits (v w j : Nat) : BitVec 80 := BitVec.ofNat 80 (v / 2 ^ (80 * (w - 1 - j)))

/-- Return the META of the Stencil entry at `pos` to agent `a`. -/
def State.agUnitMeta (s : State) (a pos : Nat) : State :=
  let u := s.unit pos
  let s1 := (s.wr F.TBL_AG_META.TAG a u.tag.toNat).wrBit F.TBL_AG_META.HIT a u.hit
  let s2 := (s1.wrBit F.TBL_AG_META.SUSPECT a u.suspect).wr F.TBL_AG_META.USED a 0
  let s3 := (s2.wr F.TBL_AG_META.AGED a 0).wr F.TBL_AG_META.AGE_EN a 0
  ((s3.wr F.TBL_AG_META.GEN a u.gen.toNat).wr F.TBL_AG_META.LCLASS a 0).wr F.TBL_AG_META.AGE_TS a 0

/-- READ of a Stencil entry. -/
def State.readStencil (s : State) (a : Nat) (r : Region) (i : Nat) : State :=
  let pos := r.pos i
  if r.entries ≤ i then s.agDone a .range
  else
    let s0 := s.sramTouch (assocWord pos) 2
    if s.sramUe (assocWord pos) 2 then s0.agDone a .ue
    else
      let s1 := (s0.wr F.TBL_AG_KEY.KEY a (s0.entryBits (·.key) pos r.width)).wr F.TBL_AG_MASK.MASK a
        (s0.entryBits (·.mask) pos r.width)
      let s2 := ((s1.agData a 2 (s1.sramVal (assocWord pos) 2)).agUnitMeta a pos).agIndex a i
      let s3 := if s.on F.TBL_AG_CMD.CLR_HIT a then s2.setUnit pos { s2.unit pos with hit := false } else s2
      s3.agDone a .ok

/-- WRITE of a Stencil entry, whole or its tag only (R219, R222, R234). -/
def State.writeStencil (s : State) (a : Nat) (r : Region) (i : Nat) : State :=
  let pos := r.pos i
  let tag := BitVec.ofNat 2 (s.rd F.TBL_AG_META.TAG a)
  if r.entries ≤ i then s.agDone a .range
  else if s.on F.TBL_AG_CMD.TAG_ONLY a then
    let u := s.unit pos
    ((s.setUnit pos { u with tag := tag, gen := u.gen + 1 }).agIndex a i).agDone a .ok
  else
    let k := s.rd F.TBL_AG_KEY.KEY a
    let m := s.rd F.TBL_AG_MASK.MASK a
    let s1 := s.mapEntry pos r.width (fun j u =>
      { u with key := unitBits k r.width j, mask := unitBits m r.width j
               copyKey := unitBits k r.width j, copyMask := unitBits m r.width j
               copyUe := false, suspect := false })
    let u := s1.unit pos
    let s2 := s1.setUnit pos { u with tag := tag, gen := u.gen + 1, hit := s.on F.TBL_AG_META.HIT a }
    (((s2.sramPut (assocWord pos) 2 (s.agDataVal a 2)).showSuspects).agIndex a i).agDone a .ok

/-- R219: the tag of an entry becomes 0b00, and after it its units and their key copies are cleared, with the hit and suspect bits. -/
def State.clearUnits (s : State) (pos w : Nat) : State :=
  let u := s.unit pos
  ((s.setUnit pos { u with tag := 0, gen := u.gen + 1 }).mapEntry pos w (fun _ u =>
    { u with key := 0, mask := 0, copyKey := 0, copyMask := 0, copyUe := false, hit := false, suspect := false })).showSuspects

/-- DELETE of a Stencil entry: its tag becomes 0b00 (R219, R234). -/
def State.deleteStencil (s : State) (a : Nat) (r : Region) (i : Nat) : State :=
  let pos := r.pos i
  if r.entries ≤ i then s.agDone a .range
  else
    ((s.clearUnits pos r.width).agIndex a i).agDone a .ok

/-- MOVE (R235): the key and mask come from the source's key copy. -/
def State.moveStencil (s : State) (a : Nat) (r : Region) (i j : Nat) : State :=
  let p := r.pos i
  let q := r.pos j
  if r.entries ≤ i ∨ r.entries ≤ j then s.agDone a .range
  else if (s.unit p).tag = 0 then s.agDone a .notFound
  else if (s.unit q).tag ≠ 0 then s.agDone a .exists_
  else
    let s0 := s.sramTouch (assocWord p) 2
    if s.sramUe (assocWord p) 2 || (List.range r.width).any (fun k => (s.unit (p + k)).copyUe) then
      s0.agDone a .ue
    else
      let src := s0.unit p
      let s1 := s0.mapEntry q r.width (fun k u =>
        { u with key := (s0.unit (p + k)).copyKey, mask := (s0.unit (p + k)).copyMask
                 copyKey := (s0.unit (p + k)).copyKey, copyMask := (s0.unit (p + k)).copyMask
                 copyUe := false, suspect := false })
      let s2 := s1.sramPut (assocWord q) 2 (s0.sramVal (assocWord p) 2)
      let u := s2.unit q
      let s3 := s2.setUnit q { u with tag := src.tag, gen := u.gen + 1, hit := u.hit || src.hit }
      ((s3.clearUnits p r.width).agIndex a j).agDone a .ok

/-- R202: the pivot at `p` or its bucket holds an uncorrectable error. -/
def State.routeUe (s : State) (d p : Nat) : Bool :=
  s.sramUe (assocWord p) 2 ||
    s.sramUe (partWord (s.rd F.TBL_DESC.PART_BASE d) + 32 * bitsOf (s.sramVal (assocWord p) 2) 108 20) 32

/-- SEARCH of a ternary table, or of a route table in full: a management read, which verifies nothing, sets no hit bit and counts
nothing (R234). -/
def State.searchStencil (s : State) (a d : Nat) : State :=
  let b := s.on F.TBL_AG_CMD.BANK a
  let gm := s.rd F.TBL_AG_META.GMASK a
  let key := s.agKey a d
  let idx (r : Region) (p : Nat) : Nat := (p - 4096 * r.first) / r.width
  let short := s.mainRegion d
  if s.rd F.TBL_DESC.KIND d = 4 then
    match s.regionWinner short b key (s.gmask gm short.width) with
    | none => s.agDone a .miss
    | some p =>
      let s0 := s.sramTouch (assocWord p) 2
      if s.sramUe (assocWord p) 2 then s0.agDone a .ue
      else (((s0.agData a 2 (s0.sramVal (assocWord p) 2)).agUnitMeta a p).agIndex a (idx short p)).agDone a .ok
  else
    let v6 := s.rd F.TBL_DESC.KEYW d != 0
    let long := s.longRegion d
    let w := match (if v6 then s.regionWinner long b key (s.gmask gm 2) else none) with
      | some p => some (true, p)
      | none => (s.regionWinner short b (if v6 then key / 2 ^ 80 else key) (s.gmask gm 1)).map (fun p => (false, p))
    match w with
    | none => s.agDone a .miss
    | some (isLong, p) =>
      let r := if isLong then long else short
      let ans := s.lpmRoute d p key
      match ans.2 with
      | .inr true => s.agDone a .miss
      | .inr false => if s.routeUe d p then ans.1.agDone a .ue else s.agDone a .miss
      | .inl (res, slot) =>
        match ans.1.lpmResult d res with
        | (s2, .inr true) => s2.agDone a .miss
        | (s2, .inr false) => s2.agDone a .ue
        | (s2, .inl v) =>
          let s3 := ((s2.agData a 2 v).agUnitMeta a p).agIndex a (idx r p)
          ((s3.wrBit F.TBL_AG_STATUS.LONG a isLong).wr F.TBL_AG_STATUS.RSLOT a slot).agDone a .ok

/-! ### Index spaces -/

/-- The adjacency whose first word is `w`, if that word lies in the adjacency region (R200). -/
def adjOf (w : Nat) : Option Nat := if 5242880 ≤ w ∧ w < 7340032 then some ((w - 5242880) / 2) else none

/-- READ of an index space; an adjacency returns and may clear USED (R213). -/
def State.readIndex (s : State) (a base count words i : Nat) : State :=
  let w := base + words * i
  if count ≤ i then s.agDone a .range
  else
    let s0 := s.sramTouch w words
    if s.sramUe w words then s0.agDone a .ue
    else
      let used := match adjOf w with
        | some k => Sparse.read false s.tables.used k
        | none => false
      let s1 := ((s0.agData a words (s0.sramVal w words)).agSlotMeta a 0).agIndex a i
      let s2 := s1.wrBit F.TBL_AG_META.USED a used
      let s3 := match adjOf w with
        | some k => if s.on F.TBL_AG_CMD.CLR_HIT a
            then (s2.withTables { s2.tables with used := Sparse.write false s2.tables.used k false }) else s2
        | none => s2
      s3.agDone a .ok

/-- WRITE of an index space: the whole entry, from DATA or zeros. -/
def State.writeIndex (s : State) (a base count words i v : Nat) : State :=
  if count ≤ i then s.agDone a .range
  else ((s.sramPut (base + words * i) words v).agIndex a i).agDone a .ok

/-! ### The commands -/

/-- Agent `a` runs a command with opcode `op`, and no other of its runs meanwhile (R230). -/
def State.agRuns (s : State) (a op : Nat) : Bool :=
  decide (a < 8) && s.on F.TBL_AG_STATUS.BUSY a && s.rd F.TBL_AG_CMD.OP a == op

/-- The body of a command by the kind of space it acts on. -/
def State.agCmd (s : State) (a op : Nat) (f : Space → State) : State :=
  if s.agRuns a op then
    match s.agSpace a with
    | .inl sp => f sp
    | .inr c => s.agDone a c
  else s

/-- AGENT_READ (R234, R619). -/
def execAgentRead (a : Nat) (s : State) : Result :=
  let i := s.rd F.TBL_AG_CMD.INDEX a
  .next <| s.agCmd a 0 fun
    | .exact d => s.readExact a d i
    | .stencil r _ => s.readStencil a r i
    | .index b c w => s.readIndex a b c w i

/-- AGENT_WRITE (R211, R219, R234). -/
def execAgentWrite (a : Nat) (s : State) : Result :=
  let i := s.rd F.TBL_AG_CMD.INDEX a
  .next <| s.agCmd a 1 fun
    | .exact d => s.writeExact a d
    | .stencil r _ => s.writeStencil a r i
    | .index b c w => s.writeIndex a b c w i (s.agDataVal a w)

/-- AGENT_INSERT (R209, R210, R234). -/
def execAgentInsert (a : Nat) (s : State) : Result :=
  .next <| s.agCmd a 2 fun
    | .exact d => s.insertExact a d
    | .stencil _ _ => s.agDone a .badCmd
    | .index _ _ _ => s.agDone a .badCmd

/-- AGENT_DELETE (R219, R234, R239). -/
def execAgentDelete (a : Nat) (s : State) : Result :=
  let i := s.rd F.TBL_AG_CMD.INDEX a
  .next <| s.agCmd a 3 fun
    | .exact d => s.deleteExact a d
    | .stencil r _ => s.deleteStencil a r i
    | .index b c w => s.writeIndex a b c w i 0

/-- AGENT_SEARCH (R234). -/
def execAgentSearch (a : Nat) (s : State) : Result :=
  .next <| s.agCmd a 4 fun
    | .exact d => s.searchExact a d
    | .stencil _ d => s.searchStencil a d
    | .index _ _ _ => s.agDone a .badCmd

/-- AGENT_MOVE (R235). -/
def execAgentMove (a : Nat) (s : State) : Result :=
  .next <| s.agCmd a 5 fun
    | .exact _ => s.agDone a .badCmd
    | .stencil r _ => s.moveStencil a r (s.rd F.TBL_AG_CMD.INDEX a) (s.rd F.TBL_AG_CMD.INDEX2 a)
    | .index _ _ _ => s.agDone a .badCmd

/-- R230: a landed write of TBL_AG_CMD starts agent `a`; a reserved opcode is answered at once. -/
def State.agStart (s : State) (a : Nat) : State :=
  let s1 := ((s.wr F.TBL_AG_STATUS.BUSY a 1).wr F.TBL_AG_STATUS.LONG a 0).wr F.TBL_AG_STATUS.RSLOT a 0
  if 6 ≤ s.rd F.TBL_AG_CMD.OP a then s1.agDone a .badCmd else s1

end Sys2Proof.Machine
end

