-- ==== Sys2Proof/Machine/Address.lean ====
section
/-!
DEFINITION. Which register, entry and octet a BAR0 address names (R53 and the register maps), and reading and storing entries by
their address.
-/
namespace Sys2Proof.Machine

/-- The entry and the octet within it that lie `off` octets from a register's base: the strides and counts are listed outermost
first. -/
def locateDims : List (Nat × Nat) → Nat → Nat → Option (Nat × Nat)
  | [], off, i => some (i, off)
  | (stride, count) :: dims, off, i =>
    if off / stride < count then locateDims dims (off % stride) (i * count + off / stride) else none

/-- The entry of register `r` and the octet within it that an address names, if any. -/
def Reg.locate (r : Reg) (addr : Nat) : Option (Nat × Nat) :=
  if addr < r.info.base then none
  else
    match locateDims r.info.dims (addr - r.info.base) 0 with
    | some (i, o) => if o < r.info.width / 8 then some (i, o) else none
    | none => none

/-- The register, entry and octet that an address names. -/
def Reg.find (addr : Nat) : Option (Reg × Nat × Nat) :=
  Reg.all.findSome? (fun r => (r.locate addr).map (fun x => (r, x.1, x.2)))

/-- The number of entries of a register. -/
def Reg.entries (r : Reg) : Nat := r.info.dims.foldl (fun n d => n * d.2) 1

/-- The 32-bit word at an address as its register holds it; a reserved place holds 0. -/
def State.heldWord (s : State) (addr : Nat) : Nat :=
  match Reg.find addr with
  | some (r, i, o) => bitsOf (s.reg r i).toNat (8 * o) 32
  | none => 0

/-- `n` octets from an address on as the registers hold them, in register byte order (R10). -/
def State.heldOctets (s : State) (addr n : Nat) : List Byte :=
  (List.range ((n + 3) / 4)).flatMap (fun k => octetsLE 4 (s.heldWord (addr + 4 * k)))

/-- Store a 32-bit word at an address, its writable bits only. -/
def State.storeWord (s : State) (addr v : Nat) : State :=
  match Reg.find addr with
  | some (r, i, o) =>
    let m := bitsOf r.info.rw (8 * o) 32
    let old := bitsOf (s.reg r i).toNat (8 * o) 32
    s.setReg r i (BitVec.ofNat 320
      (setBits (s.reg r i).toNat (8 * o) 32 (Nat.lor (Nat.land v m) (old - Nat.land old m))))
  | none => s

end Sys2Proof.Machine
end

