-- ==== Sys2Proof/Machine/Tables.lean ====
section
/-!
DEFINITION. What the tables do by themselves and by register writes: suspect repair and the scrubs (R201, R222, R223), descriptors
and bank widths (R205, R215), and ageing (R237).
-/
namespace Sys2Proof.Machine

/-! ### Repair and scrub of the Stencil memory -/

/-- The entry width of bank `k` in units (R214). -/
def State.bankWidth (s : State) (k : Nat) : Nat := 2 ^ s.rd F.STN_BANK_CFG.WIDTH k

/-- The first unit of the entry that the unit at `pos` belongs to (R214). -/
def State.entryStart (s : State) (pos : Nat) : Nat := pos - pos % s.bankWidth (pos / 4096)

/-- R222, R223: the unit at `pos` is rewritten from its key copy where they differ; the repair is counted. -/
def State.repairUnit (s : State) (pos : Nat) : State :=
  let u := s.unit pos
  if u.key = u.copyKey ∧ u.mask = u.copyMask then s
  else (s.setUnit pos { u with key := u.copyKey, mask := u.copyMask }).incSat F.STN_STATUS.REPAIR_CNT

/-- R222, R223: an uncorrectable key copy has been found. -/
def State.copyUncorrectable (s : State) : State := s.setCause F.STN_STATUS.COPY_UE 0 6

/-- SUSPECT_REPAIR (R222): the suspect entry whose first unit is at `pos` is rewritten from its key copy and its mark cleared. -/
def execSuspectRepair (pos : Nat) (s : State) : Result :=
  .next <|
    let u := s.unit pos
    let us := (List.range (s.bankWidth (pos / 4096))).map (fun j => pos + j)
    if !u.suspect then s
    else if us.any (fun p => (s.unit p).copyUe) then s.copyUncorrectable
    else
      let s1 := us.foldl (fun s p => s.repairUnit p) s
      (s1.setUnit pos { s1.unit pos with suspect := false }).showSuspects

/-- Soft errors strike Stencil memory: bits of a unit's key and mask (true) turn over, or a key copy becomes uncorrectable. -/
def State.strikeStencil (s : State) (hits : List (Nat × Option Nat)) : State :=
  hits.foldl (fun s h =>
    let u := s.unit h.1
    match h.2 with
    | some x => s.setUnit h.1 { u with key := u.key ^^^ BitVec.ofNat 80 (x / 2 ^ 80), mask := u.mask ^^^ BitVec.ofNat 80 x }
    | none => s.setUnit h.1 { u with copyUe := true }) s

/-- STENCIL_SCRUB_STEP (R223): after PERIOD µs bank `k` compares its next unit with its key copy. `hits` are the soft errors that
strike from then on. -/
def execStencilScrubStep (k : Nat) (hits : List (Nat × Option Nat)) (s : State) : Result :=
  .next <|
    let s0 := s.advanceTo (Sparse.read 0 s.tables.scrubAt k + us (s.rd F.STN_SCRUB_CFG.PERIOD))
    let row := Sparse.read 0 s0.tables.scrubRow k
    let pos := 4096 * k + row
    let s1 :=
      if (s0.unit pos).copyUe then
        let s2 := s0.copyUncorrectable
        if (s0.unit (s0.entryStart pos)).tag = 0 then s2 else s2.markSuspect (s0.entryStart pos)
      else s0.repairUnit pos
    let s3 := s1.withTables { s1.tables with
      scrubRow := Sparse.write 0 s1.tables.scrubRow k ((row + 1) % 4096)
      scrubAt := Sparse.write 0 s1.tables.scrubAt k s1.now }
    s3.strikeStencil hits

/-- A soft error strikes a word of an on-die memory: 0 table SRAM, 1 Sketch program memory, 2 action memory, 3 Pounce state memory, 4 Canvas,
whose words are named by a byte address in them; uncorrectable or not. -/
def BadWords.strike (b : BadWords) (h : Nat × Nat × Bool) : BadWords :=
  match h with
  | (0, w, true) => { b with sramUe := w :: b.sramUe }
  | (0, w, false) => { b with sramCe := w :: b.sramCe }
  | (1, w, true) => { b with sketchUe := w :: b.sketchUe }
  | (1, w, false) => { b with sketchCe := w :: b.sketchCe }
  | (2, w, true) => { b with actionUe := w :: b.actionUe }
  | (2, w, false) => { b with actionCe := w :: b.actionCe }
  | (4, w, true) => { b with canvasUe := w :: b.canvasUe }
  | (4, w, false) => { b with canvasCe := w :: b.canvasCe }
  | (_, w, true) => { b with pounceUe := w :: b.pounceUe }
  | (_, w, false) => { b with pounceCe := w :: b.pounceCe }

/-- SRAM_SCRUB (R201): every word of table SRAM is read and its single-bit errors corrected in place. `hits` are the soft errors that
strike the on-die memories from then on. -/
def execSramScrub (hits : List (Nat × Nat × Bool)) (s : State) : Result :=
  let n := s.badWords.sramCe.length
  let s1 := if n = 0 then s else s.incSat F.TBL_ERR_STATUS.SRAM_CE_CNT 0 n
  let s2 := s1.badWords.sramUe.foldl
    (fun s w => (s.wr F.TBL_ERR_ADDR.WORD 0 w).setCause F.TBL_ERR_STATUS.SRAM_UE 0 6) s1
  .next (s2.withBadWords (hits.foldl BadWords.strike { s2.badWords with sramCe := [] }))

/-! ### Descriptors (R204 to R206, R237, R238) -/

/-- The fields of a descriptor's three words that R205 looks at. -/
structure Desc where
  kind : Nat
  keyw : Nat
  parts : List (Nat × Nat)
  banks : List (Nat × Nat × Nat)
  counts : List Nat
  base : Nat
  cnt : Nat
  ageUnit : Nat
  deriving DecidableEq, Repr

/-- A descriptor's fields from its 192 bits: partitions and banks as first and count, banks with the width they need. -/
def descOf (v : Nat) : Desc :=
  let kind := bitsOf v 0 3
  let keyw := bitsOf v 3 2
  let part := (bitsOf v 8 8, bitsOf v 16 8)
  let res := (bitsOf v 24 8, bitsOf v 32 8)
  let short := (bitsOf v 40 7, bitsOf v 48 8)
  let long := (bitsOf v 56 7, bitsOf v 64 8)
  { kind := kind, keyw := keyw
    parts := if kind = 1 ∨ kind = 2 then [part] else if kind = 3 then [part, res] else []
    banks := if kind = 4 then [(short.1, short.2, keyUnits keyw)]
      else if kind = 3 then (short.1, short.2, 1) :: (if keyw = 0 then [] else [(long.1, long.2, 2)]) else []
    counts := if kind = 1 ∨ kind = 2 then [part.2] else if kind = 3 then [part.2, res.2, short.2] else [short.2]
    base := part.1, cnt := part.2, ageUnit := bitsOf v 72 2 }

/-- Two runs of places, each a first and a count, meet; an empty one meets none. -/
def runsMeet (a b : Nat × Nat) : Bool :=
  decide (0 < a.2) && decide (0 < b.2) && decide (a.1 < b.1 + b.2) && decide (b.1 < a.1 + a.2)

/-- R205: two descriptors' partitions or banks overlap. -/
def Desc.overlaps (x y : Desc) : Bool :=
  x.parts.any (fun p => y.parts.any (runsMeet p)) ||
    x.banks.any (fun p => y.banks.any (fun q => runsMeet (p.1, p.2.1) (q.1, q.2.1)))

/-- Descriptor `i` of both banks (256 × bank + table). -/
def State.desc (s : State) (i : Nat) : Desc := descOf (s.reg .TBL_DESC i).toNat

/-- R238: sweeps of a partition of 32,768 slots in 10 s. -/
def Desc.sweeps (d : Desc) : Nat :=
  if d.kind ≠ 2 ∨ d.ageUnit = 3 then 0 else d.cnt * 32768 * 10 ^ (2 - d.ageUnit)

/-- R238: slots visited in 10 s over the ageing descriptors of both banks, one that both name counted once with the shorter unit;
`f` gives the descriptors. -/
def sweepLoad (f : Nat → Desc) : Nat :=
  let a := ((List.range 256).map f).filter (fun d => d.sweeps != 0)
  let b := ((List.range 256).map (fun t => f (256 + t))).filter (fun d => d.sweeps != 0)
  let same (x y : Desc) : Bool := x.base == y.base && x.cnt == y.cnt
  (a.map (fun x => (b.filter (same x)).foldl (fun m y => max m y.sweeps) x.sweeps)).sum +
    ((b.filter (fun y => !a.any (same y))).map Desc.sweeps).sum

/-- R205, R238, R618: the descriptor with bits `v` at place `i` is accepted. -/
def State.descOk (s : State) (i v : Nat) : Bool :=
  let d := descOf v
  let others := ((List.range 256).map (fun t => i / 256 * 256 + t)).filter (fun j => j != i)
  d.kind == 0 ||
  (decide (d.kind ≤ 4) &&
    !others.any (fun j => let e := s.desc j; e.kind != 0 && d.overlaps e) &&
    d.parts.all (fun p => decide (p.1 + p.2 ≤ 136)) &&
    d.banks.all (fun b => decide (b.1 + b.2.1 ≤ 128)) &&
    (d.kind == 1 || d.kind == 4 || decide (d.keyw ≤ 1)) &&
    d.banks.all (fun b => (List.range b.2.1).all (fun k => s.bankWidth (b.1 + k) == b.2.2)) &&
    d.counts.all (fun n => n != 0) &&
    decide (sweepLoad (fun j => if j = i then d else s.desc j) ≤ 640000000))

/-- R237: the length of an ageing unit in units of the FRC. -/
def ageUnitLen (u : Nat) : Nat := ms (100 * 10 ^ u)

/-- R237: an ageing table starts to count. -/
def State.ageStart (s : State) (i : Nat) : State :=
  s.withTables { s.tables with
      ages := Sparse.write ⟨0, 0, 0⟩ s.tables.ages i
        ⟨0, s.now + ageUnitLen (s.rd F.TBL_DESC.AGE_UNIT i), s.rd F.TBL_DESC.AGE_LIMIT i⟩ }

/-- R205, R237: word 0 of descriptor `i` is written with `v` and checked with the current words 1 and 2. -/
def State.descWord0 (s : State) (i v : Nat) : State :=
  let v0 := if bitsOf v 3 2 = 3 then setBits v 3 2 2 else v
  let w := setBits (s.reg .TBL_DESC i).toNat 0 64 (v0 % 2 ^ 64)
  let w := setBits (setBits w 5 3 0) 47 1 0
  let w := setBits w 63 1 0
  if s.descOk i w then
    let s1 := s.setReg .TBL_DESC i (BitVec.ofNat 320 w)
    if s1.isAgeing i then s1.ageStart i else s1
  else (s.setReg .TBL_DESC i (BitVec.ofNat 320 (setBits w 0 3 0))).wr F.TBL_ERR_STATUS.DESC_ERR 0 1

/-- R204, R196: a write to bank state is taken: bank `b` is the standby bank and no swap is under way. -/
def State.bankWritable (s : State) (b : Bool) : Bool := b != s.activeBank && s.coatState == 0

/-- DESC_WORD0_WRITE (R204, R205): the host writes word 0 of descriptor `t` of bank `b`. -/
def execDescWord0Write (b : Bool) (t v : Nat) (s : State) : Result :=
  .next <| s.landed .TBL_DESC fun s =>
    if s.bankWritable b then s.descWord0 (bankNo b * 256 + t % 256) v
    else s.wr F.GLZ_COAT_STATUS.CMD_ERR 0 1

/-- R215: the width of Stencil bank `k` is written. -/
def State.bankWidthWrite (s : State) (k v : Nat) : State :=
  let inRegion := (List.range 512).any (fun i =>
    (s.desc i).kind != 0 && (s.desc i).banks.any (fun b => decide (b.1 ≤ k) && decide (k < b.1 + b.2.1)))
  let tagged := s.tables.stn.any (fun e => e.1 / 4096 == k && e.2.tag != 0)
  if inRegion || tagged then s.wr F.STN_STATUS.CFG_ERR 0 1
  else s.wr F.STN_BANK_CFG.WIDTH k (if v % 4 = 3 then 2 else v % 4)

/-- BANK_WIDTH_WRITE (R215): the host writes the width of Stencil bank `k`. -/
def execBankWidthWrite (k v : Nat) (s : State) : Result :=
  .next (s.landed .STN_BANK_CFG (fun s => s.bankWidthWrite k v))

/-! ### Ageing (R237, R240) -/

/-- AGE_UNIT_TICK (R237): the unit count of ageing table `t` of the active bank increments. -/
def execAgeUnitTick (t : Nat) (s : State) : Result :=
  .next <|
    let i := bankNo s.activeBank * 256 + t % 256
    if !s.isAgeing i then s
    else
      let c := s.age i
      let s1 := s.advanceTo c.next
      (s1.withTables { s1.tables with
          ages := Sparse.write ⟨0, 0, 0⟩ s1.tables.ages i
            ⟨(c.u + 1) % 256, c.next + ageUnitLen (s.rd F.TBL_DESC.AGE_UNIT i), s.rd F.TBL_DESC.AGE_LIMIT i⟩ })

/-- An age ring entry (chapter 15, learn and age entries). -/
def ageEntry (bank table keyw key cls slot : Nat) : List Byte :=
  octetsBE 1 1 ++ octetsBE 1 bank ++ octetsBE 1 table ++ octetsBE 1 keyw ++
  padTo 40 (octetsBE (keyBits keyw / 8) key) ++ octetsBE 1 cls ++ [0, 0, 0, 0, 0, 0, 0] ++
  octetsBE 4 slot ++ [0, 0, 0, 0, 0, 0, 0, 0x80]

/-- AGE_ENTRY_VISIT (R201, R202, R237, R240, R242): Easel visits the entry at `slot` of ageing table `t`; one whose words cannot be read
is left as it is. -/
def execAgeEntryVisit (t slot : Nat) (s : State) : Result :=
  .next <|
    let b := bankNo s.activeBank
    let i := b * 256 + t % 256
    if !s.isAgeing i || decide (s.slotCount i ≤ slot) then s
    else
      let s0 := s.readEntry i slot
      let v := s.slotVal i slot
      let ready := slotAgeEn v == 1 && slotAged v == 0 &&
        (slotWidth v == 1 || slotWidth v == 2) &&
        decide ((s.age i).limit ≤ ((s.age i).u + 256 - slotAgeTs v) % 256)
      if s.slotUe i slot || !ready then s0
      else
      let s1 := s0.sramPut (s.slotWord i slot) 4 (setBits v 38 1 1)
      let kw := s.rd F.TBL_DESC.KEYW i
      let key := s.entryKey i slot
      s1.notify ⟨1, b, t % 256, key, kw, s.now⟩ 65 (ageEntry b (t % 256) kw key (slotClass v) slot)

/-- R237, R564: exact-match ageing pauses for `t`. -/
def Tables.pauseAges (x : Tables) (t : Nat) : Tables :=
  { x with ages := x.ages.map (fun (e : Nat × AgeCount) => (e.1, { e.2 with next := e.2.next + t })) }

/-- R237: the unit counts at a flip: a table of the new active bank whose partitions an ageing table of the old one named goes on;
every other starts. -/
def State.ageFlip (s : State) : State :=
  let new := bankNo s.activeBank
  let old := 1 - new
  (List.range 256).foldl (fun st t =>
    let i := new * 256 + t
    if !s.isAgeing i then st
    else
      match ((List.range 256).map (fun u => old * 256 + u)).find? (fun j =>
        s.rd F.TBL_DESC.KIND j == 2 && s.rd F.TBL_DESC.AGE_UNIT j != 3 &&
        s.rd F.TBL_DESC.PART_BASE j == s.rd F.TBL_DESC.PART_BASE i &&
        s.rd F.TBL_DESC.PART_CNT j == s.rd F.TBL_DESC.PART_CNT i) with
      | some j => st.withTables { st.tables with ages := Sparse.write ⟨0, 0, 0⟩ st.tables.ages i (s.age j) }
      | none => st.ageStart i) s

end Sys2Proof.Machine
end

