-- ==== Sys2Proof/Machine/Pounce.lean ====
section
/-!
DEFINITION. The Pounce engine (chapter 7): pattern sets, the handoff of a DFA set, legacy searches, and the inspection budget.
-/
namespace Sys2Proof.Machine

/-! ### The inspection budget (R256, R65) -/

/-- The largest inspection rate of the pace class in Gb/s (R245). -/
def State.pncRateMax (s : State) : Nat := if s.rd F.EAS_PACE_CFG.CLASS = 1 then 1200 else 1600

/-- The refill rate of the budget: configured, or configured × PACE / 1000 while shedding, in 1/1000 of a bit per ns. -/
def State.budgetRate (s : State) : Nat :=
  min (s.rd F.PNC_BUDGET.RATE) s.pncRateMax * (if s.rd F.EAS_PACE_STATUS.SHED_LEVEL = 0 then 1000 else s.rd F.EAS_PACE_STATUS.PACE)

/-- The size of the budget in bits. -/
def State.budgetCap (s : State) : Nat := s.rd F.PNC_BUDGET.BURST * 8192

/-- The budget as it stands now. -/
def State.budgetNow (s : State) : Bucket :=
  s.bucketNow s.tables.budget s.budgetRate 65536000 s.budgetCap

/-- Keep a budget. -/
def State.setBudget (s : State) (b : Bucket) : State := s.withTables { s.tables with budget := some b }

/-- The budget is brought up to now, before its rate changes. -/
def State.settleBudget (s : State) : State := s.setBudget s.budgetNow

/-! ### Memory errors (R258) -/

/-- Where a state word, a result word or a legacy key stands among the memory errors of the engine. -/
def pncStateAt (i : Nat) : Nat := i
def pncResAt (p : Nat) : Nat := 262144 + p
def pncKeyAt (p : Nat) : Nat := 270336 + p

/-- R258: words of the engine's memories are read: single-bit errors are counted, an uncorrectable one is recorded. -/
def State.pncRead (s : State) (ws : List Nat) : State × Bool :=
  let ce := (ws.filter (fun w => s.badWords.pounceCe.contains w)).length
  let s1 := if ce = 0 then s else s.incSat F.PNC_STATUS.CE_CNT 0 ce
  if ws.any (fun w => s.badWords.pounceUe.contains w) then (s1.setCause F.PNC_STATUS.UE 0 8, false) else (s1, true)

/-- R258: a word that software rewrites is no longer in error. -/
def State.pncRewrite (s : State) (w : Nat) : State :=
  s.withBadWords { s.badWords with
      pounceCe := s.badWords.pounceCe.filter (· != w), pounceUe := s.badWords.pounceUe.filter (· != w) }

/-! ### Sets (R247 to R249) -/

/-- Where a set's states and pattern slots lie: first and count. -/
structure PncSet where
  mode : Nat
  wide : Bool
  states : Nat × Nat
  slots : Nat × Nat
  deriving DecidableEq, Repr

/-- A set from its 128 bits; a legacy set has no states. -/
def pncSetOf (v : Nat) : PncSet :=
  let mode := bitsOf v 0 2
  ⟨mode, bitsOf v 2 1 == 1, if mode = 3 then (0, 0) else (bitsOf v 64 18, bitsOf v 96 19),
    (bitsOf v 8 13, bitsOf v 32 14)⟩

/-- Set `i` (64 × bank + set). -/
def State.pncSet (s : State) (i : Nat) : PncSet := pncSetOf (s.reg .PNC_SET i).toNat

/-- R248: the descriptor with bits `v` at place `i` is accepted. -/
def State.pncSetOk (s : State) (i v : Nat) : Bool :=
  let d := pncSetOf v
  let others := ((List.range 64).map (fun t => i / 64 * 64 + t)).filter (fun j => j != i)
  !others.any (fun j => let e := s.pncSet j
      e.mode != 0 && (runsMeet d.states e.states || runsMeet d.slots e.slots)) &&
    decide (d.states.1 + d.states.2 ≤ 262144) && decide (d.slots.1 + d.slots.2 ≤ 8192) &&
    (d.mode == 0 || (d.slots.2 != 0 && (d.mode == 3 || d.states.2 != 0))) &&
    (d.mode != 3 || !d.wide || (d.slots.1 % 2 == 0 && d.slots.2 % 2 == 0))

/-- R248: word 0 of set `i` is written with `v` and checked with the current word 1. -/
def State.pncSetWord0 (s : State) (i v : Nat) : State :=
  let w := setBits (s.reg .PNC_SET i).toNat 0 64 (Nat.land v 0x3fff001fff3f)
  if s.pncSetOk i w then s.setReg .PNC_SET i (BitVec.ofNat 320 w)
  else (s.setReg .PNC_SET i (BitVec.ofNat 320 (setBits w 0 2 0))).wr F.PNC_STATUS.SET_ERR 0 1

/-- SET_DESC_WORD0_WRITE (R248, R249): the host writes word 0 of set `k` of bank `b`. -/
def execSetDescWord0Write (b : Bool) (k v : Nat) (s : State) : Result :=
  .next <| s.landed .PNC_SET fun s =>
    if s.bankWritable b then s.pncSetWord0 (bankNo b * 64 + k % 64) v else s.wr F.PNC_STATUS.WRITE_ERR 0 1

/-- R249: a place of the state memory (true) or the pattern memory lies in no live set of the active bank, and no swap is under
way. -/
def State.pncFree (s : State) (isState : Bool) (i : Nat) : Bool :=
  s.coatState == 0 && !(List.range 64).any (fun k =>
    let d := s.pncSet (bankNo s.activeBank * 64 + k)
    d.mode != 0 && (let r := if isState then d.states else d.slots
      decide (r.1 ≤ i) && decide (i < r.1 + r.2)))

/-- A state word is stored. -/
def State.putStateWord (s : State) (i : Nat) (v : BitVec 128) : State :=
  (s.withTables { s.tables with pncState := Sparse.write 0 s.tables.pncState i v }).pncRewrite (pncStateAt i)

/-- LOAD_DATA_WRITE (R249, PNC_LOAD_DATA): the high word of PNC_LOAD_DATA lands: the word goes to PNC_LOAD_ADDR.STATE, which
increments. -/
def execLoadDataWrite (v : BitVec 128) (s : State) : Result :=
  .next <| s.landed .PNC_LOAD_DATA fun s =>
    let i := s.rd F.PNC_LOAD_ADDR.STATE
    if s.pncFree true i then (s.putStateWord i v).wr F.PNC_LOAD_ADDR.STATE 0 (i + 1)
    else s.wr F.PNC_STATUS.WRITE_ERR 0 1

/-! ### The handoff (R250 to R253) -/

/-- R250: the inspected range of a key of width `k` over a packet of `len` octets: START and E. -/
def inspectRange (key k len : Nat) : Nat × Nat :=
  let start := key / 2 ^ (k - 9) % 512
  let n := key / 2 ^ (k - 19) % 1024
  (start, if n = 0 then min len 512 else min (start + min n 512) (min len 512))

/-- The state words of a set, by their offset from its base. -/
def State.setStates (s : State) (d : PncSet) : Sparse (BitVec 128) :=
  (s.tables.pncState.filter (fun e => decide (d.states.1 ≤ e.1) && decide (e.1 < d.states.1 + d.states.2))).map
    (fun e => (e.1 - d.states.1, e.2))

/-- What a run of the automaton finds: the winning pattern and the offset of the octet that first completed it, the completions seen, and the
state words read. -/
structure PncRun where
  win : Option (Nat × Nat)
  count : Nat
  read : List Nat
  deriving DecidableEq, Repr

/-- R251: the lower of the pattern that leads and of those completed at offset `off`. -/
def lowestSlot (off : Nat) (win : Option (Nat × Nat)) (done : List Nat) : Option (Nat × Nat) :=
  done.foldl (fun w p => match w with
    | none => some (p, off)
    | some (q, o) => if p < q then some (p, off) else some (q, o)) win

/-- R251: the automaton consumes octets from state `st` on, the next of them at offset `off`; in first-match mode up to the first that completes
a pattern. -/
def pounceScan (words : Sparse (BitVec 128)) (best : Bool) : List Byte → Nat → Nat → PncRun → PncRun
  | [], _, _, r => r
  | b :: bs, st, off, r =>
    let m := Config.pounceMove words st b
    let r1 : PncRun := ⟨lowestSlot off r.win m.2.1, r.count + m.2.1.length, r.read ++ m.2.2⟩
    if !best && m.2.1 != [] then r1 else pounceScan words best bs m.1 (off + 1) r1

/-- R251 to R253, R256, R258: a DFA set inspects a range of a packet. -/
def State.inspect (s : State) (d : PncSet) (data : List Byte) (start e : Nat) : State × Lookup :=
  let b := s.budgetNow
  let charge := 8 * (e - start)
  if e ≤ start then (s, Lookup.miss)
  else if b.level < (charge : Int) then ((s.setBudget b).incSat F.PNC_STATUS.NI_CNT, Lookup.notInspected)
  else
    let s1 := s.setBudget { b with level := b.level - charge }
    let range := (data.take e).drop start
    let best := d.mode == 2
    let r := pounceScan (s1.setStates d) best range 0 start ⟨none, 0, []⟩
    let slot := match r.win with
      | some (p, _) => [pncResAt (d.slots.1 + p)]
      | none => []
    match s1.pncRead (r.read.map (fun i => pncStateAt (d.states.1 + i)) ++ slot) with
    | (s2, false) => (s2, Lookup.notInspected)
    | (s2, true) =>
      match r.win with
      | none => (s2, Lookup.miss)
      | some (p, off) =>
        let res := s2.rd F.PNC_RES.RES (d.slots.1 + p)
        (s2, Lookup.found (setBits (setBits res 7 9 off) 0 7 (if best then min r.count 127 else 1)) .none)

/-- The packet whose stage waits for the engine: its stage, its set and its key. -/
def State.handoff (s : State) (n : Nat) : Option (Pkt × Bool × Nat × Act × Option PncSet) :=
  match s.pkt n with
  | none => none
  | some p =>
    match p.loc.stage?, p.act with
    | some (eg, st), some a =>
      if a.pounce then
        let b := stageBank p eg
        let t := s.rd F.GLZ_TPL.TABLE (bankNo b * 256 + a.tpl)
        some (p, eg, st, a, if t < 64 then some (s.pncSet (bankNo b * 64 + t)) else none)
      else none
    | _, _ => none

/-- The width of the key of a waiting stage. -/
def State.handoffWidth (s : State) (p : Pkt) (eg : Bool) (a : Act) : Nat :=
  s.rd F.GLZ_TPL.KEYW (bankNo (stageBank p eg) * 256 + a.tpl)

/-- POUNCE_HANDOFF (R247, R250 to R258): the stage of packet `n` hands its range to a DFA set; a set that is not there is a miss. -/
def execPounceHandoff (n : Nat) (s : State) : Result :=
  .next <|
    match s.handoff n with
    | none => s
    | some (p, eg, st, a, d) =>
      match d with
      | none => s.startAction n p eg st a.tpl a.key Lookup.miss
      | some d =>
        if d.mode = 3 then s
        else if d.mode = 0 then s.startAction n p eg st a.tpl a.key Lookup.miss
        else
          let r := inspectRange a.key (keyBits (s.handoffWidth p eg a)) p.data.length
          let whole := inspectRange a.key (keyBits (s.handoffWidth p eg a)) 512
          -- R254: the engine waits for octet E − 1
          if !p.rx.arrived && decide (p.data.length < whole.2) then s
          else
            let ans := s.inspect d p.data r.1 r.2
            ans.1.startAction n p eg st a.tpl a.key ans.2

/-- R259: the first entry of a legacy set that matches a key, by its slot. -/
def State.legacyFind (s : State) (d : PncSet) (key g : Nat) : Option Nat :=
  let starts := if d.wide then (List.range (d.slots.2 / 2)).map (fun j => d.slots.1 + 2 * j)
    else (List.range d.slots.2).map (fun j => d.slots.1 + j)
  starts.find? (fun p =>
    let k := if d.wide then s.rd F.PNC_LKEY.KEY p * 2 ^ 80 + s.rd F.PNC_LKEY.KEY (p + 1) else s.rd F.PNC_LKEY.KEY p
    Nat.land (Nat.xor key k) g == 0)

/-- R259, R260: a legacy search. -/
def State.legacySearch (s : State) (d : PncSet) (lgmask keyw key : Nat) : State × Lookup :=
  if keyw ≠ (if d.wide then 1 else 0) then (s.incSat F.PNC_STATUS.MISMATCH_CNT, Lookup.miss)
  else
    let g := s.rd F.PNC_LGMASK.MASK lgmask % (if d.wide then 2 ^ 160 else 2 ^ 80)
    match s.pncRead ((List.range d.slots.2).map (fun j => pncKeyAt (d.slots.1 + j))) with
    | (s1, false) => (s1, Lookup.notInspected)
    | (s1, true) =>
      match s1.legacyFind d key g with
      | none => (s1, Lookup.miss)
      | some p =>
        match s1.pncRead [pncResAt p] with
        | (s2, false) => (s2, Lookup.notInspected)
        | (s2, true) => (s2, Lookup.found (s2.rd F.PNC_RES.RES p) .none)

/-- LEGACY_SEARCH (R259 to R261): the stage of packet `n` searches a legacy set. -/
def execLegacySearch (n : Nat) (s : State) : Result :=
  .next <|
    match s.handoff n with
    | some (p, eg, st, a, some d) =>
      if d.mode = 3 then
        let b := bankNo (stageBank p eg)
        let set := s.rd F.GLZ_TPL.TABLE (b * 256 + a.tpl)
        let ans := s.legacySearch d (s.rd F.PNC_SET.LGMASK (b * 64 + set)) (s.handoffWidth p eg a) a.key
        ans.1.startAction n p eg st a.tpl a.key ans.2
      else s
    | _ => s

end Sys2Proof.Machine
end

