-- ==== Sys2Proof/Machine/Pace.lean ====
section
/-!
DEFINITION. The Seam's replays (R26 to R32), the pace monitors, the supply loop and load shedding (R57 to R67).
-/
namespace Sys2Proof.Machine

/-! ### The Seam (chapter 1) -/

/-- R28: one replay more in a direction; `again` when the flit in error is itself a replay of the flit in hand. -/
def Seam.replay (m : Seam) (toTraffic again : Bool) : Seam :=
  if toTraffic then
    { m with failedFwd := if again then m.failedFwd + 1 else 0, replaysFwd := m.replaysFwd + 1 }
  else { m with failedTrf := if again then m.failedTrf + 1 else 0, replaysTrf := m.replaysTrf + 1 }

/-- FLIT_CRC_REPLAY (R28): a flit of channel `ch` arrives with a CRC error and is replayed from the sender's buffer. -/
def execFlitCrcReplay (toTraffic again : Bool) (ch : Nat) (s : State) : Result :=
  .next ((s.withSeam (s.seam.replay toTraffic again)).emit (.seamReplay toTraffic ch))

/-- SEAM_REPLAY_FAILURE (R31): 16 consecutive replays of one flit have failed in a direction. -/
def execSeamReplayFailure (toTraffic : Bool) (s : State) : Result :=
  .next <|
    if s.on F.EAS_SEAM_STATUS.UP && decide (16 ≤ if toTraffic then s.seam.failedFwd else s.seam.failedTrf) then
      (s.wr F.EAS_SEAM_STATUS.UP 0 0).setCause F.EAS_SEAM_STATUS.FAULT 0 0
    else s

/-- SEAM_DEGRADED (R32): a 1 s window ends in which `flitsFwd` and `flitsTrf` flits were sent. -/
def execSeamDegraded (flitsFwd flitsTrf : Nat) (s : State) : Result :=
  let s1 := if flitsFwd < 1000000 * s.seam.replaysFwd ∨ flitsTrf < 1000000 * s.seam.replaysTrf
    then s.setCause F.EAS_SEAM_STATUS.DEGRADED 0 0 else s
  .next (s1.withSeam { s1.seam with replaysFwd := 0, replaysTrf := 0 })

/-! ### Pace windows -/

/-- The pace of a monitor with `count` cycles in a window: floor(1000 × COUNT / TARGET), at most 2,047; a free value of each monitor's own
where TARGET is 0 (assumption 37). -/
def State.paceOf (s : State) (m count : Nat) : Nat :=
  let t := s.rd F.EAS_PM_RAW.TARGET m
  min 2047 (if t = 0 then Config.freeValue (s.freeCtr + m) else 1000 * count / t)

/-- The lowest number of a list and its first place. -/
def lowest : List Nat → Nat × Nat
  | [] => (2047, 0)
  | [x] => (x, 0)
  | x :: y :: l =>
    let r := lowest (y :: l)
    if x ≤ r.1 then (x, 0) else (r.1, r.2 + 1)

/-- R64: a deficit is declared. -/
def State.declareDeficit (s : State) : State :=
  let s1 := ((s.setCause F.EAS_PACE_STATUS.DEFICIT 0 4).incSat F.EAS_PACE_DEFICIT_CNT.COUNT)
  if s1.rd F.EAS_PACE_STATUS.SHED_LEVEL = 0 then
    (s1.wr F.EAS_PACE_STATUS.SHED_LEVEL 0 1).withPace { s1.pace with level1At := s1.now, recoverAt := none }
  else s1

/-- R64: the run of short windows at the ceiling. -/
def State.deficitRun (s : State) : State :=
  if s.on F.EAS_PACE_STATUS.AT_CEILING && decide (s.rd F.EAS_PACE_STATUS.PACE < 1000) then
    let s1 := s.withPace { s.pace with shortRun := s.pace.shortRun + 1 }
    if s1.pace.shortRun = 4 then s1.declareDeficit else s1
  else s.withPace { s.pace with shortRun := 0 }

/-- R67: the recovery condition holds. -/
def State.recovering (s : State) : Bool :=
  decide (1030 ≤ s.rd F.EAS_PACE_STATUS.PACE) && !s.on F.EAS_PACE_STATUS.AT_CEILING

/-- R67: since when the recovery condition has held. -/
def State.recoverMark (s : State) : State :=
  s.withPace { s.pace with
      recoverAt := if s.recovering then some (s.pace.recoverAt.getD s.now) else none }

/-- R57: the boundary of windows that the monitors report at next: one that the FRC stands at and that has not been reported, or the
next one. -/
def State.windowEnd (s : State) : Nat := s.boundary s.pace.windowAt (ns 1000)

/-- The last twenty of a list: at least the ten windows before any step of the loop that is still due. -/
def lastTwenty (l : List (Nat × Nat)) : List (Nat × Nat) := l.drop (l.length - 20)

/-- PACE_WINDOW (R57, R61, R64 to R66): the boundary of a 1 µs window is reached, with each monitor's cycle count in it. -/
def execPaceWindow (counts : List Nat) (s : State) : Result :=
  let t := s.windowEnd
  let s0 := (s.advanceTo t).settleBudget
  let ms := List.range 16
  let raw := ms.map (fun m => counts.getD m 0)
  let paces := ms.map (fun m => s0.paceOf m (raw.getD m 0))
  let s1 := ms.foldl (fun s m => s.wr F.EAS_PM_RAW.COUNT m (min (raw.getD m 0) 65535)) s0
  let low := lowest paces
  let s2 := (s1.wr F.EAS_PACE_STATUS.PACE 0 low.1).wr F.EAS_PACE_STATUS.SLOWEST 0 low.2
  let run := if decide (1000 ≤ low.1) then s2.pace.goodRun + 1 else 0
  let s3 := (s2.freeDraws 16).withPace { s2.pace with
    lowF := lastTwenty (s2.pace.lowF ++ [(t, (lowest (paces.take 8)).1)])
    lowT := lastTwenty (s2.pace.lowT ++ [(t, (lowest (paces.drop 8)).1)])
    windowAt := t
    goodRun := run
    admitOpen := s2.pace.admitOpen || decide (100 ≤ run) }
  let s4 := (s3.deficitRun).recoverMark
  let s5 := s4.withPace { s4.pace with admitLeft := s4.windowAdmits, admitted := [] }
  .next (if low.1 < 1000 then s5.sample 9 low.2 else s5)

/-! ### The supply loop (R58, R59) -/

/-- R58: the setpoint of step `k` in whole mV, rounded down. -/
def railMv (k : Nat) : Nat := 680 + 5 * k / 2

/-- R59: the next step of a rail by the lowest pace of its die in the last ten windows. -/
def railStep (k low : Nat) : Nat :=
  if low < 1030 then min (k + 1) 72 else if 1060 < low then k - 1 else k

/-- R59: the paces reported in the ten windows that have ended by `t`. -/
def tenWindows (ws : List (Nat × Nat)) (t : Nat) : List Nat :=
  (ws.filter (fun w => decide (w.1 ≤ t) && decide (t < w.1 + ns 10000))).map (·.2)

/-- R59: a rail after the step at `t`; one of whose die no window has been reported keeps its setpoint (assumption 105). -/
def railAfter (k : Nat) (ws : List (Nat × Nat)) (t : Nat) : Nat :=
  if tenWindows ws t = [] then k else railStep k (lowest (tenWindows ws t)).1

/-- Publish the rails' setpoints (R58). -/
def State.showRails (s : State) : State :=
  let s1 := (s.wr F.EAS_VCORE.VCORE_F 0 (railMv s.pace.railF)).wr F.EAS_VCORE.VCORE_T 0 (railMv s.pace.railT)
  s1.wrBit F.EAS_PACE_STATUS.AT_CEILING 0 (s.pace.railF == 72 || s.pace.railT == 72)

/-- SUPPLY_LOOP_STEP (R58, R59): the loop acts at the last multiple of 10,000 ns up to which the windows have been reported, once. -/
def execSupplyLoopStep (s : State) : Result :=
  .next <|
    let t := s.pace.windowAt / ns 10000 * ns 10000
    if t ≤ s.pace.loopAt then s
    else
      let s1 := s.withPace { s.pace with
        railF := railAfter s.pace.railF s.pace.lowF t, railT := railAfter s.pace.railT s.pace.lowT t, loopAt := t }
      (s1.showRails).recoverMark

/-! ### Load shedding (R65 to R67) -/

/-- SHED_LEVEL_2_ENTRY (R65): level 1 has held for 20 µs and the pace is still short. -/
def execShedLevel2Entry (s : State) : Result :=
  .next <|
    if s.rd F.EAS_PACE_STATUS.SHED_LEVEL = 1 ∧ s.rd F.EAS_PACE_STATUS.PACE < 1000 then
      let s1 := (s.advanceTo (s.pace.level1At + us 20)).wr F.EAS_PACE_STATUS.SHED_LEVEL 0 2
      (s1.withPace { s1.pace with admitLeft := s1.windowAdmits, admitted := [] })
    else s

/-- SHED_STEP_DOWN (R67): the recovery condition has held for EXIT_HOLD. -/
def execShedStepDown (s : State) : Result :=
  .next <|
    match s.pace.recoverAt with
    | none => s
    | some t =>
      let l := s.rd F.EAS_PACE_STATUS.SHED_LEVEL
      if l = 0 then s
      else
        let s1 := ((s.advanceTo (t + ms (s.rd F.EAS_PACE_CFG.EXIT_HOLD))).settleBudget).wr F.EAS_PACE_STATUS.SHED_LEVEL 0 (l - 1)
        (s1.withPace { s1.pace with recoverAt := some s1.now, level1At := s1.now })

end Sys2Proof.Machine
end

