-- ==== Sys2Proof/Machine/Coat.lean ====
section
/-!
DEFINITION. The coat swap (R46 to R52, R196 to R199): commands, the pause, the retirement of the old bank, and the measurement of the
active bank (R563). The flip itself is with the Emvex commit that it answers.
-/
namespace Sys2Proof.Machine

/-! ### The coat memories (R540) -/

/-- A coat memory: its entry size, whether it is banked, its entries in a bank, the address of entry 0 of bank A, and the distance of
entries and of banks. -/
structure CoatMem where
  size : Nat
  banked : Bool
  count : Nat
  base : Nat
  stride : Nat
  bankStride : Nat
  deriving DecidableEq, Repr

/-- R540: the memories by MEM; 11 (state words) is reached by its own port. -/
def coatMem : Nat → Option CoatMem
  | 1 => some ⟨8, true, 4096, Reg.SKT_PROG.info.base, 8, 0x8000⟩
  | 2 => some ⟨16, true, 64, Reg.SKT_PROFILE.info.base, 0x40, 0x1000⟩
  | 3 => some ⟨4, true, 208, Reg.SKT_PORT_PROFILE.info.base, 4, 0x400⟩
  | 4 => some ⟨8, true, 8192, Reg.GLZ_ACT.info.base, 8, 0x10000⟩
  | 5 => some ⟨64, true, 256, Reg.GLZ_TPL.info.base, 0x40, 0x4000⟩
  | 6 => some ⟨128, true, 16, Reg.GLZ_HASH.info.base, 0x80, 0x1000⟩
  | 7 => some ⟨4, true, 64, Reg.GLZ_EPROF.info.base, 4, 0x100⟩
  | 8 => some ⟨32, true, 256, Reg.TBL_DESC.info.base, 0x20, 0x2000⟩
  | 9 => some ⟨16, true, 64, Reg.PNC_SET.info.base, 0x10, 0x400⟩
  | 10 => some ⟨4, true, 1, Reg.GLZ_COAT_ID.info.base, 4, 4⟩
  | 12 => some ⟨16, false, 8192, Reg.PNC_RES.info.base, 0x10, 0⟩
  | 13 => some ⟨16, false, 8192, Reg.PNC_LKEY.info.base, 0x10, 0⟩
  | _ => none

/-- The address of entry `i` of a coat memory in a bank. -/
def CoatMem.addr (m : CoatMem) (b : Bool) (i : Nat) : Nat :=
  m.base + (if m.banked then bankNo b * m.bankStride else 0) + i * m.stride

/-- R563: what the measurement of a bank is taken over. -/
def State.coatImage (s : State) (b : Bool) : List Byte :=
  let banked := ([1, 2, 3, 4, 5, 6, 7, 8, 9, 10].filterMap coatMem).flatMap (fun m =>
    (List.range m.count).flatMap (fun i => s.heldOctets (m.addr b i) m.size))
  let sets := ((List.range 64).map (fun k => s.pncSet (bankNo b * 64 + k))).filter (fun d => d.mode != 0)
  let slots (d : PncSet) (r : Reg) : List Byte :=
    (List.range d.slots.2).flatMap (fun j => octetsLE 16 (s.reg r (d.slots.1 + j)).toNat)
  banked ++ sets.flatMap (fun d =>
    (List.range d.states.2).flatMap (fun j =>
      octetsLE 16 (Sparse.read 0 s.tables.pncState (d.states.1 + j)).toNat) ++
    slots d .PNC_RES ++ slots d .PNC_LKEY)

/-- COAT_MEASURE (R563): Easel has computed the SHA-256 of the active bank. -/
def execCoatMeasure (s : State) : Result :=
  .next (if !s.easel.measPending then s
    else s.withEasel { s.easel with
      mCoat := BitVec.ofNat 256 (Config.sha256 (s.coatImage s.activeBank)), measPending := false })

/-! ### Commands (R198) -/

/-- Set GLZ_COAT_STATUS.STATE. -/
def State.setCoatState (s : State) (n : Nat) : State := s.wr F.GLZ_COAT_STATUS.STATE 0 n

/-- R50: admission and egress-stage entry stop. -/
def State.coatPause (s : State) (byTime : Bool) : State :=
  (s.setCoatState 2).withCoat { s.coat with pausedAt := s.now, byTime := byTime }

/-- A refused command or write (R165, R196, R198). -/
def State.coatRefuse (s : State) : State := s.wr F.GLZ_COAT_STATUS.CMD_ERR 0 1

/-- R198: swap now. -/
def State.swapNow (s : State) : State := if s.coatState = 0 then s.coatPause false else s.coatRefuse

/-- R198: arm a swap for GLZ_COAT_AT. -/
def State.swapArm (s : State) : State := if s.coatState = 0 then s.setCoatState 1 else s.coatRefuse

/-- R198: cancel an armed swap; a cancel at the very moment of the armed time, which the time has won, sets CANCEL_LATE. -/
def State.swapCancel (s : State) : State :=
  if s.coatState = 1 then s.setCoatState 0
  else if s.coatState = 2 && s.coat.byTime && s.coat.pausedAt == s.now then s.wr F.GLZ_COAT_STATUS.CANCEL_LATE 0 1
  else s

/-- SWAP_NOW (R198, R50). -/
def execSwapNow (s : State) : Result := .next (s.landed .GLZ_COAT_CTRL State.swapNow)

/-- SWAP_ARM (R198). -/
def execSwapArm (s : State) : Result := .next (s.landed .GLZ_COAT_CTRL State.swapArm)

/-- SWAP_CANCEL (R198). -/
def execSwapCancel (s : State) : Result := .next (s.landed .GLZ_COAT_CTRL State.swapCancel)

/-- ARMED_SWAP_TIME (R198, R464, R465): local time is first at or after GLZ_COAT_AT. -/
def execArmedSwapTime (s : State) : Result :=
  .next <|
    if s.coatState = 1 ∧ s.timeValid then
      let at_ := s.rd F.GLZ_COAT_AT.TIME * 65536
      (if s.localNow < at_ then s.advanceTo (s.frcOfLocal at_) else s).coatPause true
    else s

/-! ### The flip and the retirement (R50, R51, R197, R199) -/

/-- R197: a packet in the Sketch engines or in a stage. -/
def Loc.inStages : Loc → Bool
  | .ctx _ | .pipeIn | .stageIn _ | .acting _ | .stageDone _ | .egressIn | .egStageIn _ | .egActing _ | .egStageDone _ => true
  | _ => false

/-- R197: the Sketch engines and all stages hold no packet. -/
def State.drained (s : State) : Bool := s.countPkts (fun p => p.loc.inStages && (p.stamped || p.egStamped)) == 0

/-- R50, R197, R199: the active bank flips: the swap's own registers and events. -/
def State.coatFlip (s : State) : State :=
  let deadline := s.coat.pausedAt + ns 3500
  let s0 := if s.drained then s else s.advanceTo deadline
  let b := !s0.activeBank
  let s1 := (s0.wrBit F.GLZ_COAT_STATUS.ACTIVE 0 b).wrBit F.SKT_BANK_STATUS.ACTIVE 0 b
  let s2 := (s1.setCoatState 3).wr F.SKT_BANK_STATUS.RETIRING 0 1
  let s3 := s2.wr F.GLZ_COAT_STATUS.LAST_PAUSE 0 (min 4000 ((s0.now - s.coat.pausedAt) / 65536))
  let s4 := if s.drained then s3 else s3.wr F.GLZ_COAT_STATUS.DEADLINE_FLIP 0 1
  let s5 := s4.setCause F.GLZ_COAT_STATUS.DONE 0 14
  let s6 := s5.ageFlip
  (s6.withCoat { s6.coat with gen := s6.coat.gen + 1, flippedAt := s6.now, expired := false, winners := [] }).withEasel
    { s6.easel with measPending := true }

/-- R51, R52, R199: the old bank retires. -/
def State.coatRetired (s : State) : State :=
  let s1 := (s.setCoatState 0).wr F.SKT_BANK_STATUS.RETIRING 0 0
  ((s1.raise 14).withCoat { s1.coat with expired := false, winners := [] })

/-- R52: a packet that won against the deadline still holds its stamp. -/
def State.winnerLives (s : State) : Bool :=
  s.coat.winners.any (fun n => match s.pkt n with
    | some p => p.stamped
    | none => false)

/-- COAT_RETIRE (R51, R52, R199): the old bank's in-flight count has reached zero, or 64 µs have passed since the flip; a packet that
won at the deadline holds the retirement back until it is through. -/
def execCoatRetire (s : State) : Result :=
  .next <|
    if s.coatState ≠ 3 then s
    else if s.inflight (!s.activeBank) = 0 then s.coatRetired
    else
      let s1 := s.advanceTo (s.coat.flippedAt + us 64)
      let s2 := s1.withCoat { s1.coat with expired := true }
      if s2.winnerLives then s2 else s2.coatRetired

end Sys2Proof.Machine
end

