-- ==== Sys2Proof/Machine/Code.lean ====
section
/-!
DEFINITION. What Palette (chapter 8) and the DDR4 subsystem (chapter 10) share: buffers and where they lie, marks and retirement, the code
that protects DRAM, the error log, and the loss of a channel.
-/
namespace Sys2Proof.Machine

/-! ### Pointers and words (R263, R265) -/

/-- The null pointer (R263). -/
def nullPtr : Nat := 0xFFFFFFFF

/-- The pool of a pointer. -/
def ptrPool (p : Nat) : Nat := bitsOf p 31 1

/-- The index of a pointer. -/
def ptrIndex (p : Nat) : Nat := bitsOf p 0 28

/-- The pointer of buffer `i` of a pool. -/
def mkPtr (pool i : Nat) : Nat := pool * 2 ^ 31 + i

/-- R272: the pointer lies within the pools. -/
def State.ptrOk (s : State) (p : Nat) : Bool :=
  decide (p < 2 ^ 32) && bitsOf p 28 3 == 0 && decide (ptrIndex p < s.rd F.PAL_POOL_CFG.SIZE (ptrPool p))

/-- The metadata word of a buffer (R265, R620). -/
def State.bufWord (s : State) (p : Nat) : Nat := (Sparse.read 0 s.palette.words p).toNat

/-- Its fields. -/
def bufRef (w : Nat) : Nat := bitsOf w 0 8
def bufOwner (w : Nat) : Nat := bitsOf w 8 6
def bufState (w : Nat) : Nat := bitsOf w 14 2
def bufAge (w : Nat) : Nat := bitsOf w 16 16

/-- A metadata word from its fields. -/
def mkWord (ref owner st age : Nat) : Nat := ref % 256 + owner % 64 * 2 ^ 8 + st % 4 * 2 ^ 14 + age % 65536 * 2 ^ 16

/-- Replace a metadata word. -/
def State.setBuf (s : State) (p w : Nat) : State :=
  s.withPalette { s.palette with words := Sparse.write 0 s.palette.words p (BitVec.ofNat 32 w) }

/-- Replace a link word. -/
def State.setLink (s : State) (p next : Nat) : State :=
  s.withPalette { s.palette with links := Sparse.write 0 s.palette.links p (BitVec.ofNat 32 next) }

/-- Local time in ms, modulo 65,536 (R265). -/
def State.ageNow (s : State) : Nat := s.localNs / 1000000 % 65536

/-- R335: the channel a DRAM buffer lies in. -/
def State.bufChannel (s : State) (i : Nat) : Nat := i % s.channelCount

/-- The buffer is one of a lost channel (R293). -/
def State.bufLost (s : State) (p : Nat) : Bool := ptrPool p == 1 && s.on F.DMC_CH_STATUS.LOST (s.bufChannel (ptrIndex p))

/-- R291, R293: the buffer is marked for retirement. -/
def State.marked (s : State) (p : Nat) : Bool := s.easel.persist.marks.contains p || s.bufLost p

/-! ### Channels and addresses (R331 to R337) -/

/-- A channel. -/
def State.chan (s : State) (ch : Nat) : Channel := Sparse.read Channel.idle s.dram.channels ch

/-- Replace a channel. -/
def State.setChan (s : State) (ch : Nat) (c : Channel) : State :=
  s.withDram { s.dram with channels := Sparse.write Channel.idle s.dram.channels ch c }

/-- R332: the enabled channels. -/
def State.channels (s : State) : List Nat := List.range (min 16 s.channelCount)

/-- R354: the channel is enabled and not lost. -/
def State.chanLives (s : State) (ch : Nat) : Bool := decide (ch < min 16 s.channelCount) && !s.on F.DMC_CH_STATUS.LOST ch

/-- R331: the bytes of a channel. -/
def State.chanBytes (s : State) : Nat :=
  2 ^ (33 + (if s.on F.DMC_CFG.DEV_WIDTH then 0 else 1) + s.rd F.DMC_CFG.DENSITY + s.rd F.DMC_CFG.RANKS)

/-- R334: where a channel address lies. -/
structure Place where
  rank : Nat
  bg : Nat
  bank : Nat
  row : Nat
  column : Nat
  deriving DecidableEq, Repr

/-- R334: the address map. -/
def State.place (s : State) (a : Nat) : Place :=
  let two := s.on F.DMC_CFG.RANKS
  let row := a / (if two then 2 ^ 18 else 2 ^ 17)
  { rank := if two then bitsOf a 17 1 else 0
    bg := Nat.xor (bitsOf a 13 2) (bitsOf row 0 2)
    bank := Nat.xor (bitsOf a 15 2) (bitsOf row 2 2)
    row := row
    column := bitsOf a 6 7 * 8 }

/-- The number of a bank within its channel. -/
def Place.key (p : Place) : Nat := 16 * p.rank + 4 * p.bg + p.bank

/-- R331, R334: rows of a bank: the row address bits of the population's density and width. -/
def State.rows (s : State) : Nat :=
  2 ^ (16 + (if s.on F.DMC_CFG.DEV_WIDTH then 0 else 1) + s.rd F.DMC_CFG.DENSITY)

/-- R337: the partition that holds a channel address and the offset into it. -/
def State.partition (s : State) (a : Nat) : Option (Nat × Nat) :=
  match (List.range 6).find? (fun i =>
    decide (s.rd F.DMC_PART.BASE i ≤ a) && decide (a < s.rd F.DMC_PART.BASE i + s.rd F.DMC_PART.SIZE i)) with
  | some i => some (i, a - s.rd F.DMC_PART.BASE i)
  | none => none

/-- The DRAM-pool buffer at an index of a channel (R335). -/
def State.bufAt (s : State) (ch j : Nat) : Nat := mkPtr 1 (j * s.channelCount + ch)

/-- R335: the channel address of the data of DRAM-pool buffer `i`, and of its metadata and link words. -/
def State.bufData (s : State) (i : Nat) : Nat := s.rd F.DMC_PART.BASE 0 + 256 * (i / s.channelCount)
def State.bufMeta (s : State) (i : Nat) : Nat := s.rd F.DMC_PART.BASE 1 + 8 * (i / s.channelCount)

/-- R336: the channel and the address of an extended counter pair, and of the history record of an Alloc-ID. -/
def State.pairChannel (s : State) (i : Nat) : Nat := i % s.channelCount
def State.pairAddr (s : State) (i : Nat) : Nat := s.rd F.DMC_PART.BASE 2 + 16 * ((i - 262144) / s.channelCount)
def State.histAddr (s : State) (a : Nat) : Nat := s.rd F.DMC_PART.BASE 3 + 256 * (a / s.channelCount)

/-- R336: the extended counter pair at place `j` of a channel. -/
def State.pairAt (s : State) (ch j : Nat) : Nat :=
  let n := s.channelCount
  262144 + (ch + n - 262144 % n) % n + n * j

/-- R358: DRAM serves nothing. -/
def State.dramStopped (s : State) : Bool := s.rd F.DMC_FREQ_STATUS.STATE == 2 || s.rd F.DMC_FREQ_STATUS.STATE == 3

/-! ### Buffers' octets (R263, R273, R274) -/

/-- R263: the Canvas buffer that holds a Canvas byte, and the octet of it. -/
def canvasByteAt (a : Nat) : Nat × Nat := (mkPtr 0 (a / 256), a % 256)

/-- The last building of the free lists left the buffer out. -/
def State.leftOut (s : State) (p : Nat) : Bool :=
  s.palette.skip.contains p || (ptrPool p == 1 && s.palette.skipCh.contains (s.bufChannel (ptrIndex p)))

/-- The first Canvas buffer of its stripe, from index `i` on, that was not left out, or null. -/
def State.stripeFrom (s : State) : Nat → Nat → Nat
  | 0, _ => nullPtr
  | n + 1, i =>
    if s.rd F.PAL_POOL_CFG.SIZE 0 ≤ i then nullPtr
    else if s.leftOut (mkPtr 0 i) then s.stripeFrom n (i + 16) else mkPtr 0 i

/-- The DRAM buffers of the `g`-th 63 indices that were not left out: a bundle as the chains are built. -/
def State.groupOf (s : State) (g : Nat) : List Nat :=
  ((List.range 63).map (fun k => 63 * g + k)).filterMap (fun i =>
    if i < s.rd F.PAL_POOL_CFG.SIZE 1 ∧ !s.leftOut (mkPtr 1 i) then some (mkPtr 1 i) else none)

/-- The bundle buffer of the first group of a chain, from group `g` on, that has one, or null. -/
def State.groupFrom (s : State) : Nat → Nat → Nat
  | 0, _ => nullPtr
  | n + 1, g =>
    if s.rd F.PAL_POOL_CFG.SIZE 1 ≤ 63 * g then nullPtr
    else match s.groupOf g with
      | [] => s.groupFrom n (g + 8)
      | p :: _ => p

/-- How far the search for the next of a list has to go. -/
def State.skipFuel (s : State) : Nat := s.palette.skip.length + 2

/-- R274: the octets of a bundle: the next bundle of its chain, and the pointers it holds. -/
def bundleOctets (next chain : Nat) (ptrs : List Nat) : List Byte :=
  octetsBE 4 next ++ octetsBE 1 ptrs.length ++ octetsBE 1 chain ++ [0, 0] ++ ptrs.flatMap (octetsBE 4)

/-- What the last building of the lists put into a buffer: a link to the next of its stripe, or a bundle. -/
def State.builtOctets (s : State) (p : Nat) : List Byte :=
  let i := ptrIndex p
  if s.leftOut p then []
  else if ptrPool p = 0 then octetsBE 4 (s.stripeFrom s.skipFuel (i + 16))
  else
    match s.groupOf (i / 63) with
    | [] => []
    | h :: ps => if h = p then bundleOctets (s.groupFrom s.skipFuel (i / 63 + 8)) (i / 63 % 8) ps else []

/-- The octets of a buffer. -/
def State.bufOctets (s : State) (p : Nat) : List Byte := Sparse.read (s.builtOctets p) s.palette.contents p

/-- R338, R290: octets written over the whole of a buffer end the errors in it. -/
def State.healBuf (s : State) (p : Nat) : State :=
  if ptrPool p = 1 then
    let k := s.bufChannel (ptrIndex p) * 2 ^ 40 + s.bufData (ptrIndex p) / 8
    s.withDram { s.dram with struck := Sparse.clear s.dram.struck k 32 }
  else
    let clean (l : List Nat) : List Nat := l.filter (fun a => a / 256 != ptrIndex p)
    s.withBadWords { s.badWords with canvasCe := clean s.badWords.canvasCe, canvasUe := clean s.badWords.canvasUe }

/-- A buffer takes octets from its first on; those beyond stay. -/
def State.setOctets (s : State) (p : Nat) (bs : List Byte) : State :=
  s.withPalette { s.palette with
    contents := Sparse.write (s.builtOctets p) s.palette.contents p (bs ++ (s.bufOctets p).drop bs.length) }

/-- The octets of a packet are written into its buffers, 256 to each. -/
def State.putOctets (s : State) : List Nat → List Byte → State
  | [], _ => s
  | p :: ps, bs => ((s.healBuf p).setOctets p (bs.take 256)).putOctets ps (bs.drop 256)

/-- The `n` octets that lie in a packet's buffers. -/
def State.getOctets (s : State) (ps : List Nat) (n : Nat) : List Byte :=
  padTo n (ps.flatMap (fun p => padTo 256 (s.bufOctets p)))

/-! ### Marks, retirement and the error tracker (R291, R292) -/

/-- R292: the list of retired buffers has room. -/
def State.retireRoom (s : State) : Bool := decide (s.easel.persist.retired.length < 65536)

/-- Change the persistent region of Varnish; the mirror is then out of date (R557). -/
def State.setPersist (s : State) (p : Persist) : State :=
  s.withEasel { s.easel with
      persist := p, dirtySince := match s.easel.dirtySince with
        | some t => some t
        | none => some s.now }

/-- PAL_POOL_STATUS.RETIRED counts the list of retired buffers by pool. -/
def State.showRetired (s : State) : State :=
  let n (p : Nat) : Nat := (s.easel.persist.retired.filter (fun q => ptrPool q == p)).length
  (s.wr F.PAL_POOL_STATUS.RETIRED 0 (n 0)).wr F.PAL_POOL_STATUS.RETIRED 1 (n 1)

/-- Mark a buffer for retirement (R291). -/
def State.markBuf (s : State) (p : Nat) : State :=
  if s.easel.persist.marks.contains p ∨ bufState (s.bufWord p) = 2 then s
  else s.setPersist { s.easel.persist with marks := s.easel.persist.marks ++ [p] }

/-- R291, R293: an uncorrectable error marks a buffer; one of a lost channel is marked already, without the list. -/
def State.markBad (s : State) (p : Nat) : State := if s.marked p then s else s.markBuf p

/-- R291: the entry of a full tracker that gives way: the fewest errors, and of those the oldest. -/
def evict (es : List (Nat × Nat)) : List (Nat × Nat) :=
  match (es.map (·.2)).min? with
  | none => es
  | some m => es.eraseP (fun e => e.2 == m)

/-- R291: a corrected error of a buffer enters the tracker. -/
def State.trackCe (s : State) (p : Nat) : State :=
  let es := s.palette.tracker
  let n := match es.find? (fun e => e.1 == p) with
    | some e => e.2 + 1
    | none => 1
  let lim := s.rd F.PAL_RETIRE_CFG.CE_LIMIT
  let es1 := if es.any (fun e => e.1 == p) then es.map (fun e => if e.1 = p then (p, n) else e)
    else (if 1024 ≤ es.length then evict es else es) ++ [(p, 1)]
  let s1 := s.withPalette { s.palette with tracker := es1 }
  if lim ≠ 0 ∧ lim ≤ n then s1.markBad p else s1

/-! ### The error log (R342) -/

/-- DMC_ERR_LOG shows the head entry. -/
def State.showErrLog (s : State) : State :=
  s.setReg .DMC_ERR_LOG 0 (match s.dram.log with | e :: _ => e.zeroExtend 320 | [] => 0)

/-- An entry of the log. -/
def State.errEntry (s : State) (kind ch symbol : Nat) (p : Place) : BitVec 64 :=
  BitVec.ofNat 64 (1 + kind * 2 + ch % 16 * 2 ^ 3 + p.rank % 2 * 2 ^ 7 + p.bg % 4 * 2 ^ 8 + p.bank % 4 * 2 ^ 10 + p.row % 2 ^ 18 * 2 ^ 12 +
    p.column % 1024 * 2 ^ 30 + symbol % 32 * 2 ^ 40 + (if s.dram.lost then 2 ^ 47 else 0) + s.localNs / 1000000 % 65536 * 2 ^ 48)

/-- R342: an entry is posted, or discarded where the FIFO holds 32; VALID becoming 1 fires the DRAM event (R497). -/
def State.errPost (s : State) (kind ch symbol : Nat) (p : Place) : State :=
  if 32 ≤ s.dram.log.length then s.withDram { s.dram with lost := true }
  else
    let s1 := (s.withDram { s.dram with log := s.dram.log ++ [s.errEntry kind ch symbol p], lost := false }).showErrLog
    if s.dram.log = [] then s1.raise 5 else s1

/-- The place of an entry that names none. -/
def noPlace : Place := ⟨0, 0, 0, 0, 0⟩

/-! ### Channel loss (R293, R354, R357) -/

/-- R357: SWITCHING begins: training in hand is given up, and the channels enter self-refresh. -/
def State.switching (s : State) : State :=
  let s1 := s.channels.foldl (fun s ch =>
    let s2 := (s.wr F.DMC_CH_STATUS.TRAINING ch 0).setChan ch { s.chan ch with steps := 0 }
    if s2.chanLives ch then s2.emit (.dram ch "SRE" 0) else s2) s
  s1.wr F.DMC_FREQ_STATUS.STATE 0 2

/-- R293: the DRAM buffers that lie in lost channels. -/
def State.lostBuffers (s : State) : Nat :=
  ((s.channels.filter (fun ch => s.on F.DMC_CH_STATUS.LOST ch)).map (fun ch =>
    (s.rd F.PAL_POOL_CFG.SIZE 1 + s.channelCount - 1 - ch) / s.channelCount)).sum

/-- The DRAM buffers that are FREE by their metadata and lie in no lost channel. -/
def State.freeDram (s : State) : Nat :=
  s.rd F.PAL_POOL_CFG.SIZE 1 - s.lostBuffers -
    (s.palette.words.filter (fun e => ptrPool e.1 == 1 && bufState e.2.toNat != 0 && !s.bufLost e.1)).length

/-- PAL_POOL_STATUS shows the levels of the two caches. -/
def State.showCaches (s : State) : State :=
  (s.wr F.PAL_POOL_STATUS.HC_LEVEL 1 s.palette.headCache.length).wr F.PAL_POOL_STATUS.PC_LEVEL 1 s.palette.pushCache.length

/-- R293: cached pointers in lost channels are dropped, and the chains are to be rebuilt. -/
def State.dropLost (s : State) : State :=
  let live (l : List Nat) : List Nat := l.filter (fun p => !s.bufLost p)
  let s1 := s.withPalette { s.palette with
    headCache := live s.palette.headCache, pushCache := live s.palette.pushCache, rebuilding := true }
  (s1.wr F.PAL_FREE_CNT.COUNT 1 (s.freeDram - s.palette.bundleLost)).showCaches

/-- R354, R293: channel `ch` is lost: its writes are discarded, and its reads wait to be answered as uncorrectable. A change that waited
for its training step goes on (R357). -/
def State.loseChannel (s : State) (ch cause : Nat) : State :=
  if !s.chanLives ch then s
  else
    let c := s.chan ch
    let stepOver := s.on F.DMC_CH_STATUS.TRAINING ch && s.rd F.DMC_FREQ_STATUS.STATE == 1
    let s1 := (((s.wr F.DMC_CH_STATUS.LOST ch 1).wr F.DMC_CH_STATUS.LOST_CAUSE ch cause).wr F.DMC_CH_STATUS.UP ch 0).wr
      F.DMC_CH_STATUS.TRAINING ch 0
    let s2 := ((s1.raise 5).setChan ch { c with
      requests := [], inFlight := c.inFlight ++ c.requests.filter (fun r => !r.write), draining := false, nbr := [], openRows := []
      owed := 0, steps := 0 }).dropLost
    if stepOver then (s2.incSat F.DMC_FREQ_STATUS.DISCARDS).switching else s2

/-- R354: an uncorrectable codeword counts toward the rate that loses the channel. -/
def State.countUe (s : State) (ch : Nat) : State :=
  let c := s.chan ch
  let at_ := c.ueAt.filter (fun t => decide (s.now < t + ms 1000)) ++ [s.now]
  let s1 := s.setChan ch { c with ueAt := at_ }
  let lim := s.rd F.DMC_ERR_CFG.UE_LOST
  if lim ≠ 0 ∧ lim ≤ at_.length then s1.loseChannel ch 1 else s1

/-! ### The code (R338 to R341) -/

/-- What the code finds in a codeword: nothing, a symbol that it corrects, an error that it cannot correct, an error of three or more
symbols that it takes for one of the symbol named, or one that it misses. -/
inductive Found where
  | good | corrected (symbol : Nat) | uncorrectable | miscorrected (symbol : Nat) | missed
  deriving DecidableEq, Repr

/-- R338: the symbols in which a codeword differs from what was written: symbol s is bits 4s + 3 to 4s, DQ before CB. -/
def symbolsHit (e : Nat) : List Nat := (List.range 20).filter (fun x => bitsOf e (4 * x) 4 != 0)

/-- R338: what the code finds in an error; which of the three an error of three or more symbols is, is open: `v` chooses. -/
def codeFinds (e v : Nat) : Found :=
  match symbolsHit e with
  | [] => .good
  | [x] => .corrected x
  | [_, _] => .uncorrectable
  | _ => match v % 3 with
    | 0 => .uncorrectable
    | 1 => .miscorrected (v / 3 % 20)
    | _ => .missed

/-- R339: the bits of a codeword that device `d` of a rank carries: one symbol of an x4 device, two of an x8 device. -/
def deviceBits (x8 : Bool) (d : Nat) : Nat := if x8 then 0xFF * 2 ^ (8 * d) else 0xF * 2 ^ (4 * d)

/-- R339: the error that the failed devices of a rank make in its codewords. -/
def State.deadBits (s : State) (ch rank : Nat) : Nat :=
  let x8 := s.on F.DMC_CFG.DEV_WIDTH
  let n := if x8 then 10 else 20
  (s.dram.dead.filter (fun e => e.1 == ch && e.2 / n == rank)).foldl (fun m e => Nat.lor m (deviceBits x8 (e.2 % n))) 0

/-- The place of a codeword in the store of errors. -/
def wordKey (ch a : Nat) : Nat := ch * 2 ^ 40 + a / 8

/-- R338, R339: the error of the codeword at a channel address. -/
def State.wordError (s : State) (ch a : Nat) : Nat :=
  Nat.lor (Sparse.read 0 s.dram.struck (wordKey ch a)) (s.deadBits ch (s.place a).rank)

/-- R338, R339: soft errors strike codewords of a channel, each by a byte address in it, with the bits of DQ (`dq`) or of CB (`cb`) that turn
over, and devices fail whole. -/
def State.strikeDram (s : State) (ch : Nat) (dq cb : List (Nat × Nat)) (fails : List Nat) : State :=
  let hit (m : Sparse Nat) (e : Nat × Nat) : Sparse Nat :=
    let k := wordKey ch (e.1 % s.chanBytes)
    Sparse.write 0 m k (Nat.xor (Sparse.read 0 m k) e.2)
  let m1 := (dq.map (fun e => (e.1, e.2 % 2 ^ 64))).foldl hit s.dram.struck
  let m2 := (cb.map (fun e => (e.1, e.2 % 2 ^ 16 * 2 ^ 64))).foldl hit m1
  s.withDram { s.dram with struck := m2, dead := s.dram.dead ++ fails.map (fun d => (ch, d % 20)) }

/-- R290: soft errors strike words of Canvas, each by a byte address in it; true: it is uncorrectable. -/
def State.strikeCanvas (s : State) (words : List (Nat × Bool)) : State :=
  s.withBadWords { s.badWords with
    canvasUe := (words.filter (·.2)).map (·.1) ++ s.badWords.canvasUe
    canvasCe := (words.filter (!·.2)).map (·.1) ++ s.badWords.canvasCe }

/-- The data that an error of three or more symbols leaves behind is open: of a pool buffer, its octets; of metadata, its words; of a
counter pair, its half. -/
def State.openData (s : State) (ch a : Nat) : State :=
  let v := s.freeVal
  match s.partition a with
  | some (0, o) =>
    let p := s.bufAt ch (o / 256)
    let old := padTo 256 (s.bufOctets p)
    let at_ := o % 256 / 8 * 8
    s.freeDraw.setOctets p (old.take at_ ++ octetsBE 8 v ++ old.drop (at_ + 8))
  | some (1, o) => let p := s.bufAt ch (o / 8); (s.freeDraw.setBuf p (v % 2 ^ 32)).setLink p (v / 2 ^ 32 % 2 ^ 32)
  | some (2, o) =>
    let i := s.pairAt ch (o / 16)
    let x := Sparse.read Pair.zero s.tally.pairs i
    let y : Pair := if o % 16 < 8 then { x with bytes := BitVec.ofNat 64 v } else { x with pkts := BitVec.ofNat 56 v }
    s.freeDraw.withTally { s.tally with pairs := Sparse.write Pair.zero s.tally.pairs i y }
  | _ => s

/-- R340, R341, R342: what was found in the codeword at a channel address is counted and logged. -/
def State.noteWord (s : State) (ch a : Nat) (f : Found) : State :=
  let fixed (s : State) (x : Nat) : State :=
    let s1 := (s.incSat F.DMC_CH_STATUS.CE_CNT ch).errPost 0 ch x (s.place a)
    match s.partition a with
    | some (0, o) => let p := s.bufAt ch (o / 256); if s.ptrOk p then s1.trackCe p else s1
    | _ => s1
  match f with
  | .good => s
  | .missed => s.openData ch a
  | .corrected x => fixed s x
  | .miscorrected x => fixed (s.openData ch a) x
  | .uncorrectable => (((s.incSat F.DMC_CH_STATUS.UE_CNT ch).errPost 1 ch 31 (s.place a)).raise 5).countUe ch

/-- R338, R354: a codeword is read; every one of a lost channel is uncorrectable. -/
def State.codeword (s : State) (ch a : Nat) : State × Found :=
  let e := s.wordError ch a
  let f := if s.on F.DMC_CH_STATUS.LOST ch then .uncorrectable else codeFinds e s.freeVal
  let s1 := if 3 ≤ (symbolsHit e).length then s.freeDraw else s
  (s1.noteWord ch a f, f)

/-- The addresses of the 8 codewords of a burst. -/
def burstWords (a : Nat) : List Nat := (List.range 8).map (fun i => a / 64 * 64 + 8 * i)

/-- Codewords are read; those found uncorrectable, and whether any was corrected. -/
def State.codewords (s : State) (ch : Nat) : List Nat → State × List Nat × Bool
  | [] => (s, [], false)
  | a :: as =>
    let r := s.codeword ch a
    let t := r.1.codewords ch as
    match r.2 with
    | .uncorrectable => (t.1, a :: t.2.1, t.2.2)
    | .corrected _ => (t.1, t.2.1, true)
    | .miscorrected _ => (t.1, t.2.1, true)
    | _ => t

/-- R338: a write of a burst ends the errors struck into it. -/
def State.healBurst (s : State) (ch a : Nat) : State :=
  s.withDram { s.dram with struck := Sparse.clear s.dram.struck (wordKey ch (a / 64 * 64)) 8 }

/-- R340: the corrected burst is written back, unless a write to it waits, or has issued since the read did. -/
def State.writeBack (s : State) (ch a : Nat) (stale : Bool) : State :=
  let c := s.chan ch
  if stale || !s.chanLives ch || c.requests.any (fun r => r.write && r.addr / 64 == a / 64) then s
  else s.setChan ch { c with requests := c.requests ++ [⟨s.now, true, a / 64 * 64, 0, .nothing, false, false⟩] }

/-- R340, R341: a read that no request of the channel's queue stands for: the words at `as`, which lie in one channel; those found
uncorrectable. -/
def State.readDirect (s : State) (ch : Nat) (as : List Nat) : State × List Nat :=
  let r := s.codewords ch as
  let s1 := if r.2.2 then ((as.map (· / 64)).eraseDups).foldl (fun s b => s.writeBack ch (64 * b) false) r.1 else r.1
  (s1, r.2.1)

/-! ### The channels' queues (R344, R345, R354) -/

/-- R344, R345, R354: a request joins the queue of channel `ch`; a read puts the bank of an earlier write to its row into in-order mode. Of a
lost channel a write is discarded, and a read waits to be answered. -/
def State.dramPut (s : State) (ch : Nat) (r : Req) : State :=
  let c := s.chan ch
  if s.on F.DMC_CH_STATUS.LOST ch then (if r.write then s else s.setChan ch { c with inFlight := c.inFlight ++ [r] })
  else
    let p := s.place r.addr
    let row (w : Req) : Bool := w.write && (s.place w.addr).key == p.key && (s.place w.addr).row == p.row
    let old := if r.write then c.requests else c.requests.map (fun w => if row w then { w with ordered := true } else w)
    s.setChan ch { c with requests := old ++ [r] }

/-- R281, R335: the bursts of `len` octets in DRAM buffers: channel and address. -/
def State.segmentBursts (s : State) (ps : List Nat) (len : Nat) : List (Nat × Nat) :=
  (List.range (max 1 ((len + 63) / 64))).map (fun j =>
    let i := ptrIndex (ps.getD (j / 4) 0)
    (s.bufChannel i, s.bufData i + 64 * (j % 4)))

/-- Bursts join the queues of their channels. -/
def State.dramPutAll (s : State) (write : Bool) (rt : Nat) (for_ : ReadFor) (bs : List (Nat × Nat)) : State :=
  bs.foldl (fun s b => s.dramPut b.1 ⟨s.now, write, b.2, rt, for_, false, false⟩) s

/-- Nothing waits any longer for the reads made for packet `k`: those not issued are taken back. -/
def State.cancelReads (s : State) (k : Nat) : State :=
  let mine (r : Req) : Bool := r.for_ == .serve k || r.for_ == .copy k
  s.channels.foldl (fun s ch =>
    let c := s.chan ch
    s.setChan ch { c with
      requests := c.requests.filter (fun r => !mine r)
      inFlight := c.inFlight.map (fun r => if mine r then { r with for_ := .nothing } else r) }) s

end Sys2Proof.Machine
end

