-- ==== Sys2Proof/Machine/Palette.lean ====
section
/-!
DEFINITION. Palette (chapter 8): buffers, their states and reference counts, the free lists, retirement, the leaked-buffer audit and
the software command.
-/
namespace Sys2Proof.Machine

/-! ### Classes and usage (R266, R267) -/

/-- R266: the class an owner belongs to; 7 for a reserved owner. -/
def ownerClass (o : Nat) : Nat :=
  if o = 1 then 0 else if o = 2 then 1 else if o = 3 then 2 else if o = 5 then 3 else if o = 4 then 4
  else if o = 62 then 5 else if 48 ≤ o ∧ o ≤ 61 then 6 else 7

/-- The owner that a class allocates for; class 6 names its own. -/
def classOwner (c : Nat) : Nat :=
  if c = 0 then 1 else if c = 1 then 2 else if c = 2 then 3 else if c = 3 then 5 else if c = 4 then 4 else 62

/-- R267: class `c` belongs to pool `p`. -/
def classInPool (c p : Nat) : Bool := c == 6 || (c == 4 && p == 1) || (c != 4 && decide (c < 6) && p == 0)

/-- Buffers of a pool held by an owner. -/
def State.heldBy (s : State) (o p : Nat) : Nat := Sparse.read 0 s.palette.held (2 * o + p)

/-- R267: USED of a class in a pool. -/
def State.used (s : State) (c p : Nat) : Nat :=
  (((List.range 64).filter (fun o => ownerClass o == c)).map (fun o => s.heldBy o p)).sum

/-- The buffers held by an owner change by one; PAL_OWNER_CFG.HELD and PAL_CLASS_STATUS.USED follow. -/
def State.hold (s : State) (o p : Nat) (more : Bool) : State :=
  let n := s.heldBy o p
  let s1 := s.withPalette { s.palette with
    held := Sparse.write 0 s.palette.held (2 * o + p) (if more then n + 1 else n - 1) }
  let s2 := s1.wr F.PAL_OWNER_CFG.HELD o (s1.heldBy o 0 + s1.heldBy o 1)
  s2.wr F.PAL_CLASS_STATUS.USED (ownerClass o) (s2.used (ownerClass o) 0 + s2.used (ownerClass o) 1)

/-- PAL_FREE_CNT changes by one, and the tally of a running sweep with it (R296). -/
def State.freeCount (s : State) (p : Nat) (more : Bool) : State :=
  let n := s.rd F.PAL_FREE_CNT.COUNT p
  let s1 := s.wr F.PAL_FREE_CNT.COUNT p (if more then n + 1 else n - 1)
  if s.on F.PAL_AUDIT_STATUS.RUNNING then
    s1.withPalette { s1.palette with tally := s1.palette.tally + (if more then 1 else -1) }
  else s1

/-- R267: FREE(p): what can be handed out at once. -/
def State.freeNow (s : State) (p : Nat) : Nat :=
  if p = 0 then s.rd F.PAL_FREE_CNT.COUNT 0 else s.palette.headCache.length

/-- R267: a request of class `c` from pool `p` succeeds. -/
def State.mayAlloc (s : State) (c p : Nat) : Bool :=
  let floors := (((List.range 7).filter (fun d => d != c && classInPool d p)).map
    (fun d => s.rd F.PAL_CLASS_CFG.FLOOR d - s.used d p)).sum
  decide (s.used c p < s.rd F.PAL_CLASS_CFG.CEIL c) && decide (floors < s.freeNow p)

/-! ### Free lists (R273 to R278) -/

/-- R273: the head of stripe `k`. -/
def State.stripeHead (s : State) (k : Nat) : Nat := Sparse.read (s.stripeFrom s.skipFuel k) s.palette.heads k

/-- R274: the head of chain `c`. -/
def State.chainHead (s : State) (c : Nat) : Nat := Sparse.read (s.groupFrom s.skipFuel c) s.palette.heads (16 + c)

/-- A list's head changes. -/
def State.setStripeHead (s : State) (k p : Nat) : State :=
  s.withPalette { s.palette with heads := Sparse.write (s.stripeFrom s.skipFuel k) s.palette.heads k p }
def State.setChainHead (s : State) (c p : Nat) : State :=
  s.withPalette { s.palette with heads := Sparse.write (s.groupFrom s.skipFuel c) s.palette.heads (16 + c) p }

/-- R273, R274: octets 0 to 3 of a free buffer or bundle: the next of its list. -/
def State.nextOf (s : State) (p : Nat) : Nat := natBE (padTo 4 (s.bufOctets p))

/-- R273: pop stripe `k`: the next pointer is read before the head changes (R275). -/
def State.popStripe (s : State) (k : Nat) : Option (State × Nat) :=
  let b := s.stripeHead k
  if b = nullPtr then none
  else
    let s1 := s.setStripeHead k (s.nextOf b)
    some ((s1.withPalette { s1.palette with lastStripe := k }), b)

/-- R273: pop from the next stripe in turn that is not empty. -/
def State.popCanvas (s : State) : Option (State × Nat) :=
  ((List.range 16).map (fun j => (s.palette.lastStripe + 1 + j) % 16)).findSome? s.popStripe

/-- R273: a Canvas buffer is pushed on its stripe: its next pointer is written before the head changes (R275). -/
def State.pushStripe (s : State) (p : Nat) : State :=
  let k := ptrIndex p % 16
  (s.setOctets p (octetsBE 4 (s.stripeHead k))).setStripeHead k p

/-- R277: pop the head cache. -/
def State.popHead (s : State) : Option (State × Nat) :=
  match s.palette.headCache with
  | [] => none
  | b :: rest => some ((s.withPalette { s.palette with headCache := rest }).showCaches, b)

/-- R274, R278: write pointers as a bundle, the first of them its buffer, and push it on the next chain. -/
def State.pushBundle (s : State) (ptrs : List Nat) : State :=
  match ptrs with
  | [] => s
  | b :: rest =>
    let c := (s.palette.pushChain + 1) % 8
    let s1 := ((s.healBuf b).setOctets b (bundleOctets (s.chainHead c) c rest)).setChainHead c b
    s1.withPalette { s1.palette with pushChain := c }

/-- R278: a DRAM buffer enters the push cache; 63 that the head cache does not need leave as a bundle, and so do 63 where the cache of 1,024
has no room. -/
def State.pushDram (s : State) (b : Nat) : State :=
  let pc := s.palette.pushCache ++ [b]
  let need := s.rd F.PAL_POOL_CFG.HC_LOW 1 - s.palette.headCache.length
  if 63 + need ≤ pc.length ∨ 1024 < pc.length then
    ((s.withPalette { s.palette with pushCache := pc.drop 63 }).pushBundle (pc.take 63)).showCaches
  else (s.withPalette { s.palette with pushCache := pc }).showCaches

/-- A FREE buffer returns to its pool's list (R273, R278). -/
def State.pushFree (s : State) (p : Nat) : State := if ptrPool p = 1 then s.pushDram p else s.pushStripe p

/-- R274: the pointers that a bundle holds. -/
def State.bundlePtrs (s : State) (b : Nat) : List Nat :=
  let bs := padTo 256 (s.bufOctets b)
  (List.range (min 62 (natBE ((bs.drop 4).take 1)))).map (fun k => natBE ((bs.drop (8 + 4 * k)).take 4))

/-- R341: the pointers of the bundles of a chain from `b` on, counted. -/
def State.chainCount (s : State) : Nat → Nat → Nat
  | 0, _ => 0
  | n + 1, b => if b = nullPtr then 0 else (s.bundlePtrs b).length + 1 + s.chainCount n (s.nextOf b)

/-- R341: pointers are lost from the chains until the chains are rebuilt. -/
def State.losePtrs (s : State) (n : Nat) : State :=
  let s1 := s.withPalette { s.palette with bundleLost := s.palette.bundleLost + n }
  s1.wr F.PAL_FREE_CNT.COUNT 1 (s.rd F.PAL_FREE_CNT.COUNT 1 - n)

/-- R274, R341: pop a bundle of chain `c`: the pointers it yields. Of one whose read fails the pointers are lost; where the word with NEXT is
good the chain goes on with it, and otherwise it ends, and what stands behind is lost with it (assumption 108). -/
def State.popBundle (s : State) (c : Nat) : Option (State × List Nat) :=
  let b := s.chainHead c
  if b = nullPtr then none
  else
    let a := s.bufData (ptrIndex b)
    let r := s.readDirect (s.bufChannel (ptrIndex b)) ((List.range 32).map (fun i => a + 8 * i))
    let ps := r.1.bundlePtrs b
    let next := r.1.nextOf b
    let s1 := r.1.withPalette { r.1.palette with popChain := c }
    if r.2 = [] then some (s1.setChainHead c next, ps ++ [b])
    else if r.2.contains a then
      some (((s1.losePtrs (s1.chainCount (s1.rd F.PAL_POOL_CFG.SIZE 1) b)).markBad b).setChainHead c nullPtr, [])
    else some (((s1.losePtrs (ps.length + 1)).markBad b).setChainHead c next, [])

/-- R277: pop bundles in turn until the head cache reaches HC_LOW, at most `fuel` of them. -/
def State.refillChains (s : State) : Nat → State
  | 0 => s
  | fuel + 1 =>
    if s.rd F.PAL_POOL_CFG.HC_LOW 1 ≤ s.palette.headCache.length then s
    else
      match ((List.range 8).map (fun j => (s.palette.popChain + 1 + j) % 8)).findSome? s.popBundle with
      | none => s
      | some (s1, ps) =>
        (s1.withPalette { s1.palette with headCache := s1.palette.headCache ++ ps }).refillChains fuel

/-- R277: the head cache is below HC_LOW and is refilled, from the push cache first; bundles are read while DRAM serves reads (R358). -/
def State.headRefill (s : State) : State :=
  if s.rd F.PAL_POOL_CFG.HC_LOW 1 ≤ s.palette.headCache.length ∨ s.palette.rebuilding then s
  else
    let room := s.rd F.PAL_POOL_CFG.HC_LOW 1 - s.palette.headCache.length
    let s1 := s.withPalette { s.palette with
      headCache := s.palette.headCache ++ s.palette.pushCache.take room
      pushCache := s.palette.pushCache.drop room }
    (if s.dramStopped then s1 else s1.refillChains 4096).showCaches

/-- HEAD_CACHE_REFILL (R277). -/
def execHeadCacheRefill (s : State) : Result := .next s.headRefill

/-- Pointers go back from a cache to the chains in bundles of 63 (R295, R297). -/
def State.pushBack (s : State) : Nat → List Nat → State
  | 0, _ => s
  | fuel + 1, ps => if ps = [] then s else (s.pushBundle (ps.take 63)).pushBack fuel (ps.drop 63)

/-- R295, R530: the head cache goes back to the chains, each pointer an undo. -/
def State.headCacheBack (s : State) : State :=
  let ps := s.palette.headCache
  let s1 := (s.withPalette { s.palette with headCache := [] }).pushBack (ps.length + 1) ps
  (s1.incWrap F.TLY_SPEC_CNT.COUNT 3 ps.length).showCaches

/-! ### Operations on one buffer (R271, R272) -/

/-- R272: a refused operation is recorded and counted: a double free (true) or a foreign one. -/
def State.palError (s : State) (double : Bool) (p o : Nat) : State :=
  let s1 := ((s.wr F.PAL_ERR_STATUS.BAD_PTR 0 p).wr F.PAL_ERR_STATUS.BAD_OWNER 0 o).incSat F.PAL_ERR_STATUS.EVT_CNT
  if double then s1.setCause F.PAL_ERR_STATUS.DOUBLE_FREE 0 9 else s1.setCause F.PAL_ERR_STATUS.FOREIGN_FREE 0 10

/-- R269: "pool empty" is answered to a class. -/
def State.poolEmpty (s : State) (c : Nat) : State := (s.incSat F.PAL_CLASS_STATUS.EMPTY_CNT c).sample 6 c

/-- R267, R271, R277, R293, R358: a request of class `c` for owner `o` from a pool: a buffer in ALLOC or PREFETCH, or "pool empty". -/
def State.palAlloc (s : State) (c o pool : Nat) : State × Option Nat :=
  let s0 := if c = 4 ∧ s.palette.headCache = [] then s.incSat F.PAL_POOL_STATUS.CACHE_EMPTY 1 else s
  if (c = 4 ∧ (s.palette.rebuilding ∨ s.dramStopped)) ∨ !s.mayAlloc c pool then (s0.poolEmpty c, none)
  else
    match (if pool = 1 then s.popHead else s.popCanvas) with
    | none => (s0.poolEmpty c, none)
    | some (s1, p) =>
      let s2 := (s1.setBuf p (mkWord 1 o (if c = 5 then 3 else 1) s.ageNow)).setLink p 0
      ((s2.hold o pool true).freeCount pool false, some p)

/-- R271, R292, R293: a buffer whose last reference has gone becomes FREE, or RETIRED when it is marked. -/
def State.release (s : State) (p : Nat) : State :=
  let w := s.bufWord p
  let pool := ptrPool p
  let s1 := s.hold (bufOwner w) pool false
  let lost := !s.easel.persist.marks.contains p
  if s.marked p && (lost || s.retireRoom) then
    let s2 := s1.setBuf p (mkWord 0 (bufOwner w) 2 (bufAge w))
    if lost then s2
    else (s2.setPersist { s2.easel.persist with
      retired := s2.easel.persist.retired ++ [p], marks := s2.easel.persist.marks.filter (· != p) }).showRetired
  else
    let s2 := if s.marked p then
        (s1.wr F.PAL_POOL_STATUS.RETIRE_FULL pool 1).setPersist
          { s1.easel.persist with marks := s1.easel.persist.marks.filter (· != p) }
      else s1
    ((s2.setBuf p (mkWord 0 (bufOwner w) 0 (bufAge w))).freeCount pool true).pushFree p

/-- R271: a free by owner `o`; whether it was taken. -/
def State.palFree (s : State) (p o : Nat) : State × Bool :=
  let w := s.bufWord p
  if !s.ptrOk p then (s.palError false p o, false)
  else if ownerClass o = 7 then (s.palError false p o, false)
  else if bufState w = 0 ∨ bufState w = 2 then (s.palError true p o, false)
  else if bufOwner w ≠ o then (s.palError false p o, false)
  else if bufState w = 3 then (s.release p, true)
  else if bufRef w = 0 then (s.palError true p o, false)
  else if 1 < bufRef w then (s.setBuf p (w - 1), true)
  else (s.release p, true)

/-- R271, R38: one more reference; whether it was taken. -/
def State.palRef (s : State) (p : Nat) : State × Bool :=
  let w := s.bufWord p
  if !s.ptrOk p then (s.palError false p (bufOwner w), false)
  else if bufState w ≠ 1 then (s.palError false p (bufOwner w), false)
  else if bufRef w = 255 then (s, false)
  else (s.setBuf p (w + 1), true)

/-- R270, R271: a transfer from owner `a` to owner `b`, which also commits a PREFETCH buffer of owner 62. -/
def State.palTransfer (s : State) (p a b : Nat) : State × Bool :=
  let w := s.bufWord p
  if !s.ptrOk p ∨ ownerClass b = 7 ∨ bufState w = 0 ∨ bufState w = 2 ∨ bufOwner w ≠ a then (s.palError false p a, false)
  else
    let s1 := s.setBuf p (mkWord (bufRef w) b 1 s.ageNow)
    ((s1.hold a (ptrPool p) false).hold b (ptrPool p) true, true)

/-- Free each of a list of buffers. -/
def State.palFreeAll (s : State) (ps : List Nat) (o : Nat) : State := ps.foldl (fun s p => (s.palFree p o).1) s

/-- Allocate `n` buffers for one packet, all or none; they are linked in order (R265). -/
def State.allocN (s : State) (c o pool : Nat) : Nat → List Nat → State × Option (List Nat)
  | 0, got => (s, some got)
  | n + 1, got =>
    match s.palAlloc c o pool with
    | (s1, none) => (s1.palFreeAll got o, none)
    | (s1, some p) =>
      let s2 := match got.getLast? with
        | some q => s1.setLink q p
        | none => s1
      (s2.setLink p nullPtr).allocN c o pool n (got ++ [p])

/-! ### The primitive commands -/

/-- BUFFER_ALLOCATE (R266, R267, R269, R271): a request of class `c` from a pool, for owner `o` where the class is 6. -/
def execBufferAllocate (c o pool : Nat) (s : State) : Result :=
  .next <|
    if !classInPool c pool ∨ (c = 6 ∧ ownerClass o ≠ 6) then s
    else
      let r := s.palAlloc c (if c = 6 then o else classOwner c) pool
      r.1.withPalette { r.1.palette with answer := r.2.getD nullPtr }

/-- BUFFER_REFERENCE (R271): a copy that is not made counts as a copy refusal, of `bytes` octets. -/
def execBufferReference (p bytes : Nat) (s : State) : Result :=
  .next (match s.palRef p with
    | (s1, true) => s1
    | (s1, false) => s1.tally1 773 bytes)

/-- BUFFER_FREE (R271, R272). -/
def execBufferFree (p o : Nat) (s : State) : Result := .next (s.palFree p o).1

/-- BUFFER_TRANSFER (R270, R271). -/
def execBufferTransfer (p a b : Nat) (s : State) : Result := .next (s.palTransfer p a b).1

/-! ### Building the lists (R273, R274, R292, R293, R297) -/

/-- The Canvas stripes are built from the buffers that are FREE. -/
def State.buildStripes (s : State) : State :=
  let busy := (s.palette.words.filter (fun e => ptrPool e.1 == 0 && bufState e.2.toNat != 0)).map (·.1)
  s.withPalette { s.palette with
    contents := s.palette.contents.filter (fun e => ptrPool e.1 == 1 || busy.contains e.1)
    heads := s.palette.heads.filter (fun e => decide (16 ≤ e.1))
    skip := busy ++ s.palette.skip.filter (fun p => ptrPool p == 1), lastStripe := 15 }

/-- R293: the chains are built from the metadata of the DRAM buffers that are FREE, stand in no cache and lie in no lost channel. -/
def State.buildChains (s : State) : State :=
  let busy := (s.palette.words.filter (fun e => ptrPool e.1 == 1 && bufState e.2.toNat != 0)).map (·.1)
  let x := { s.palette with
    contents := s.palette.contents.filter (fun e => ptrPool e.1 == 0 || busy.contains e.1)
    heads := s.palette.heads.filter (fun e => decide (e.1 < 16))
    skip := s.palette.skip.filter (fun p => ptrPool p == 0) ++ busy ++ s.palette.headCache ++ s.palette.pushCache
    skipCh := s.channels.filter (fun ch => s.on F.DMC_CH_STATUS.LOST ch)
    rebuilding := false, bundleLost := 0, popChain := 7, pushChain := 7 }
  ((s.withPalette x).wr F.PAL_FREE_CNT.COUNT 1 s.freeDram).showCaches

/-- CHAIN_REBUILD (R293, R341). -/
def execChainRebuild (s : State) : Result := .next (if s.palette.rebuilding then s.buildChains else s)

/-! ### The audit (R294 to R296) -/

/-- PAL_AUDIT_FIFO and FIFO_LEVEL show the audit FIFO. -/
def State.showAudit (s : State) : State :=
  let s1 := s.wr F.PAL_AUDIT_STATUS.FIFO_LEVEL 0 s.palette.audit.length
  match s.palette.audit with
  | [] => (((s1.wr F.PAL_AUDIT_FIFO.PTR 0 nullPtr).wr F.PAL_AUDIT_FIFO.OWNER 0 0).wr F.PAL_AUDIT_FIFO.RECLAIMED 0 0).wr
      F.PAL_AUDIT_FIFO.AGE 0 0
  | (p, o, r, a) :: _ => (((s1.wr F.PAL_AUDIT_FIFO.PTR 0 p).wr F.PAL_AUDIT_FIFO.OWNER 0 o).wrBit
      F.PAL_AUDIT_FIFO.RECLAIMED 0 r).wr F.PAL_AUDIT_FIFO.AGE 0 a

/-- Post an entry to the audit FIFO. -/
def State.auditPost (s : State) (e : Nat × Nat × Bool × Nat) : State :=
  if 64 ≤ s.palette.audit.length then s.incSat F.PAL_AUDIT_STATUS.OVERFLOW
  else
    let s1 := (s.withPalette { s.palette with audit := s.palette.audit ++ [e] }).showAudit
    if s.palette.audit = [] then s1.raise 11 else s1

/-- R295: one ALLOC buffer is looked at. -/
def State.auditBuf (s : State) (p : Nat) : State :=
  let w := s.bufWord p
  let o := bufOwner w
  let age := (s.ageNow + 65536 - bufAge w) % 65536
  let lim := s.rd F.PAL_OWNER_CFG.MAX_AGE o
  let recl := s.on F.PAL_OWNER_CFG.RECLAIM o
  if bufState w ≠ 1 ∨ lim = 0 ∨ age < lim then s
  else
    let s1 := s.auditPost (p, o, recl, age)
    if recl then (s1.release p).incSat F.PAL_AUDIT_STATUS.RECLAIMED else s1

/-- R296: the FREE buffers of both pools by their metadata. -/
def State.freeByMeta (s : State) : Int :=
  (s.rd F.PAL_POOL_CFG.SIZE 0 + s.freeDram : Nat) -
    ((s.palette.words.filter (fun e => ptrPool e.1 == 0 && bufState e.2.toNat != 0)).length : Int)

/-- R294, R295: a sweep of both pools begins; one that runs already goes on. -/
def State.auditSweep (s : State) : State :=
  if s.on F.PAL_AUDIT_STATUS.RUNNING then s
  else
    let s1 := s.headCacheBack
    let s2 := (s1.palette.words.map (·.1)).foldl State.auditBuf s1
    (s2.wr F.PAL_AUDIT_STATUS.RUNNING 0 1).withPalette { s2.palette with tally := s2.freeByMeta }

/-- AUDIT_START (R294, R295): PAL_AUDIT_CTRL.START is written. -/
def execAuditStart (s : State) : Result := .next (s.landed .PAL_AUDIT_CTRL State.auditSweep)

/-- AUDIT_PERIOD (R294): PERIOD s have passed since the last automatic sweep. -/
def execAuditPeriod (s : State) : Result :=
  .next <|
    let p := s.rd F.PAL_AUDIT_CTRL.PERIOD
    if p = 0 then s
    else
      let s1 := s.advanceTo (s.palette.auditAt + ms (1000 * p))
      (s1.withPalette { s1.palette with auditAt := s1.now }).auditSweep

/-- AUDIT_SWEEP_END (R296): the sweep has passed every buffer. Pointers lost with a bundle are then found again (R341). -/
def execAuditSweepEnd (s : State) : Result :=
  .next <|
    if !s.on F.PAL_AUDIT_STATUS.RUNNING then s
    else
      let s0 := s.wr F.PAL_AUDIT_STATUS.RUNNING 0 0
      let s1 := s0.withPalette { s0.palette with rebuilding := s.palette.rebuilding || decide (0 < s.palette.bundleLost) }
      if s.palette.tally = (s.rd F.PAL_FREE_CNT.COUNT 0 + s.rd F.PAL_FREE_CNT.COUNT 1 : Nat) then s1
      else s1.setCause F.PAL_AUDIT_STATUS.MISMATCH 0 11

/-- AUDIT_POP (PAL_AUDIT_CTRL.POP): the head of the audit FIFO is removed. -/
def execAuditPop (s : State) : Result :=
  .next (s.landed .PAL_AUDIT_CTRL (fun s => (s.withPalette { s.palette with audit := s.palette.audit.drop 1 }).showAudit))

/-! ### PAL_SW_CMD (R616) -/

/-- A software command completes. -/
def State.swDone (s : State) (code : Nat) (value : Nat := 0) : State :=
  ((s.wr F.PAL_SW_RESULT.CODE 0 code).wr F.PAL_SW_RESULT.VALUE 0 value).wr F.PAL_SW_RESULT.BUSY 0 0

/-- A landed write of PAL_SW_CMD starts its command; a reserved opcode is answered at once. -/
def State.swStart (s : State) : State :=
  let op := s.rd F.PAL_SW_CMD.OP
  let s1 := s.wr F.PAL_SW_RESULT.BUSY 0 1
  if op = 0 ∨ 6 ≤ op then s1.swDone 3 else s1

/-- The software command with opcode `op` runs. -/
def State.swRuns (s : State) (op : Nat) : Bool := s.on F.PAL_SW_RESULT.BUSY && s.rd F.PAL_SW_CMD.OP == op

/-- SW_ALLOC (R616). -/
def execSwAlloc (s : State) : Result :=
  .next <|
    let o := s.rd F.PAL_SW_CMD.OWNER
    if !s.swRuns 1 then s
    else if ownerClass o ≠ 6 then s.swDone 4
    else
      match s.palAlloc 6 o (s.rd F.PAL_SW_CMD.POOL) with
      | (s1, some p) => s1.swDone 0 p
      | (s1, none) => s1.swDone 1

/-- SW_FREE (R616): the claimed owner may be any. -/
def execSwFree (s : State) : Result :=
  .next <|
    let p := s.rd F.PAL_SW_CMD.PTR
    if !s.swRuns 2 then s
    else if !s.ptrOk p then s.swDone 4
    else
      match s.palFree p (s.rd F.PAL_SW_CMD.OWNER) with
      | (s1, true) => s1.swDone 0
      | (s1, false) => s1.swDone 2

/-- SW_READ (R616, R620). -/
def execSwRead (s : State) : Result :=
  .next <|
    let p := s.rd F.PAL_SW_CMD.PTR
    if !s.swRuns 3 then s else if !s.ptrOk p then s.swDone 4 else s.swDone 0 (s.bufWord p)

/-- SW_RETIRE (R616): the buffer is marked for retirement. -/
def execSwRetire (s : State) : Result :=
  .next <|
    let p := s.rd F.PAL_SW_CMD.PTR
    if !s.swRuns 4 then s else if !s.ptrOk p then s.swDone 4 else (s.markBuf p).swDone 0

/-- SW_UNRETIRE (R616): a RETIRED buffer leaves the list and is pushed FREE. -/
def execSwUnretire (s : State) : Result :=
  .next <|
    let p := s.rd F.PAL_SW_CMD.PTR
    let w := s.bufWord p
    if !s.swRuns 5 then s
    else if !s.ptrOk p then s.swDone 4
    else if bufState w ≠ 2 then s.swDone 2
    else
      let s1 := (s.setPersist { s.easel.persist with
        retired := s.easel.persist.retired.filter (· != p), marks := s.easel.persist.marks.filter (· != p) }).showRetired
      let s2 := s1.setBuf p (mkWord 0 (bufOwner w) 0 (bufAge w))
      (if s.bufLost p then s2 else (s2.freeCount (ptrPool p) true).pushFree p).swDone 0

end Sys2Proof.Machine
end

