-- ==== Sys2Proof/Machine/Stamps.lean ====
section
/-!
DEFINITION. The time-control word and the transmit timestamp queue (chapter 14, R470 to R477), which the ingress reorder point, the
MACs and the port nodes share.
-/
namespace Sys2Proof.Machine

/-! ### The transmit timestamp queue (R475 to R477) -/

/-- TIM_TXTS_STATUS.LEVEL and TIM_TXTS_HEAD show the queue. -/
def State.showTxts (s : State) : State :=
  let s1 := s.wr F.TIM_TXTS_STATUS.LEVEL 0 s.time.txts.length
  match s.time.txts with
  | [] => s1.setReg .TIM_TXTS_HEAD 0 0
  | e :: _ =>
    let s2 := (s1.wr F.TIM_TXTS_HEAD.TS 0 (e.stamp.toNat / 65536)).wr F.TIM_TXTS_HEAD.TS_FRAC 0 (e.stamp.toNat % 65536)
    let s3 := ((s2.wr F.TIM_TXTS_HEAD.ID 0 e.id).wr F.TIM_TXTS_HEAD.EXIT 0 e.exit).wrBit F.TIM_TXTS_HEAD.ANCHOR 0 e.anchor
    ((s3.wrBit F.TIM_TXTS_HEAD.LATE 0 e.late).wrBit F.TIM_TXTS_HEAD.DROPPED 0 e.dropped).wr F.TIM_TXTS_HEAD.VALID 0 1

/-- R476: an entry is posted, or is discarded for a full queue. -/
def State.txtsPost (s : State) (e : TxStamp) : State :=
  if 512 ≤ s.time.txts.length then
    let s1 := s.incSat F.TIM_TXTS_STATUS.DISCARDS
    if s.on F.TIM_TXTS_STATUS.OVF then s1 else s1.setCause F.TIM_TXTS_STATUS.OVF 0 13
  else
    let s1 := (s.withTime { s.time with txts := s.time.txts ++ [e] }).showTxts
    if s.time.txts = [] then s1.raise 13 else s1

/-! ### The time-control word (R470, R471) -/

/-- A time-control word, field by field. -/
structure Tcw where
  word : Nat
  tsReq : Bool
  oneStep : Bool
  cfOut : Bool
  cfIn : Bool
  ck : Nat
  ptp : Nat
  ckOff : Nat
  id : Nat
  deriving DecidableEq, Repr

/-- The TCW of a header vector. -/
def tcwOf (hv : Sparse Byte) : Tcw :=
  let v := hvGet hv 0x1F8 8
  ⟨v, v.testBit 39, v.testBit 38, v.testBit 37, v.testBit 36, bitsOf v 34 2, bitsOf v 24 8, bitsOf v 16 8, bitsOf v 0 16⟩

/-- The octets a TCW would change at a point: offset and length (R472, R473). -/
def Tcw.fields (t : Tcw) (egress : Bool) : List (Nat × Nat) :=
  if egress then
    (if t.oneStep then [(t.ptp + 34, 10)] else []) ++ (if t.cfOut then [(t.ptp + 8, 8), (t.ptp + 16, 4)] else [])
  else if t.cfIn then [(t.ptp + 16, 4)] else []

/-- R471: the device ignores the whole TCW. -/
def Tcw.refused (t : Tcw) (egress stamped : Bool) (len : Nat) : Bool :=
  let fs := t.fields egress ++ (if t.fields egress ≠ [] ∧ t.ck ≠ 0 then [(t.ckOff, 2)] else [])
  bitsOf t.word 40 24 != 0 || bitsOf t.word 32 2 != 0 || t.ck == 3 ||
  (if egress then t.cfIn || ((t.tsReq || t.oneStep || t.cfOut) && !stamped) else t.tsReq || t.oneStep || t.cfOut) ||
  fs.any (fun f => decide (min len 256 < f.1 + f.2))

/-- R471: an ignored TCW is flagged and counted. -/
def State.tcwError (s : State) : State := (s.wr F.TIM_STATUS.TCW_ERR 0 1).incWrap F.TIM_ERR_CNT.COUNT 0

/-- A TCW that asks for nothing of the transmit point has no ID to give back (R475). -/
def Tcw.txId (t : Tcw) : Nat := if t.tsReq ∨ t.oneStep ∨ t.cfOut then t.id else 0

/-- Octets put in place of those from `off` on. -/
def putAt (bs : List Byte) (off : Nat) (v : List Byte) : List Byte := bs.take off ++ v ++ bs.drop (off + v.length)

/-- The 16-bit word at an offset; octets that are not there read as zero. -/
def word16 (bs : List Byte) (off : Nat) : Nat := natBE (padTo 2 (bs.drop off))

/-- R473: CK_MODE over the words that were written, aligned as the checksum is. -/
def Tcw.checksum (t : Tcw) (fields : List (Nat × Nat)) (old new : List Byte) : List Byte :=
  if t.ck = 1 then
    let touched (o : Nat) : Bool := fields.any (fun f => decide (o < f.1 + f.2) && decide (f.1 < o + 2))
    let words := (List.range 256).filter (fun o => o % 2 == t.ckOff % 2 && touched o)
    let hc := words.foldl (fun hc o => csumUpdate hc (word16 old o) (word16 new o)) (word16 old t.ckOff)
    putAt new t.ckOff (octetsBE 2 hc)
  else if t.ck = 2 then putAt new t.ckOff [0, 0]
  else new

/-- R470, R471: the TCW at the egress point, of a packet of `len` octets whose exit takes transmit stamps or not: one that is to be ignored is
counted, and asks for nothing from then on. -/
def State.tcwEgress (s : State) (hv : Sparse Byte) (stamped : Bool) (len : Nat) : State × Sparse Byte :=
  let t := tcwOf hv
  if t.word ≠ 0 ∧ t.refused true stamped len then (s.tcwError, hvSet hv 0x1F8 8 0) else (s, hv)

/-- R472: the TCW at the ingress point: CF_IN records the arrival. -/
def State.tcwIngress (s : State) (hv : Sparse Byte) (rx : Rx) (data : List Byte) : State × List Byte :=
  let t := tcwOf hv
  if t.word = 0 then (s, data)
  else if t.refused false true data.length then (s.tcwError, data)
  else if !t.cfIn then (s, data)
  else
    let ns := s.localOf (if rx.anchor then 1 else 0) rx.stamp.toNat / 65536
    (s, t.checksum (t.fields false) data (putAt data (t.ptp + 16) (octetsBE 4 ns)))

/-- R473: what ONE_STEP and CF_OUT write for a local transmit time in FRC units. -/
def Tcw.egress (t : Tcw) (localTime : Nat) (data : List Byte) : List Byte :=
  let ns := localTime / 65536
  let d1 := if t.oneStep then
      putAt data (t.ptp + 34) (octetsBE 6 (ns / 1000000000) ++ octetsBE 4 (ns % 1000000000)) else data
  let d2 := if t.cfOut then
      let u := natBE (padTo 4 (d1.drop (t.ptp + 16)))
      let r := (ns % 2 ^ 32 + 2 ^ 32 - u) % 2 ^ 32
      let cf := natBE (padTo 8 (d1.drop (t.ptp + 8)))
      putAt (putAt d1 (t.ptp + 8) (octetsBE 8 (cf + r * 65536))) (t.ptp + 16) [0, 0, 0, 0]
    else d1
  if t.oneStep || t.cfOut then t.checksum (t.fields true) data d2 else data

end Sys2Proof.Machine
end

