-- ==== Sys2Proof/Machine/Sched.lean ====
section
/-!
DEFINITION. Queues, hierarchical scheduling and shaping (chapter 9), with the queue segments of Palette (R279 to R289).
-/
namespace Sys2Proof.Machine

/-! ### Records (R298 to R329) -/

/-- VOQ v is queue 1,048,576 + v. -/
def voqBase : Nat := 1048576

/-- Queue `q`. -/
def State.queue (s : State) (q : Nat) : Queue := Sparse.read Queue.idle s.sched.queues q

/-- Replace queue `q`. -/
def State.setQueue (s : State) (q : Nat) (x : Queue) : State :=
  s.withSched { s.sched with queues := Sparse.write Queue.idle s.sched.queues q x }

/-- The configuration record of a queue, and of a subscriber node. -/
def State.queueCfg (s : State) (q : Nat) : Nat :=
  if q < voqBase then (Sparse.read 0 s.sched.queueCfg q).toNat else (Sparse.read 0 s.sched.voqCfg (q - voqBase)).toNat
def State.subCfg (s : State) (u : Nat) : Nat := (Sparse.read 0 s.sched.subCfg u).toNat

/-- The fields of a configuration record; a subscriber node's parent is a port node. -/
def cfgEn (c : Nat) : Bool := c.testBit 0
def cfgLaunch (c : Nat) : Bool := c.testBit 1
def cfgBand (c : Nat) : Nat := bitsOf c 2 2
def cfgShare (c : Nat) : Nat := bitsOf c 4 4
def cfgAdm (c : Nat) : Nat := bitsOf c 8 6
def cfgWeight (c : Nat) : Nat := max 1 (bitsOf c 16 16)
def cfgParent (c : Nat) : Nat := bitsOf c 32 18

/-- The subscriber node and the port node of a service queue. -/
def State.subOf (s : State) (q : Nat) : Nat := cfgParent (s.queueCfg q)
def State.nodeOf (s : State) (q : Nat) : Nat := cfgParent (s.subCfg (s.subOf q)) % 512

/-- A record is of a child of `parent` and has been written. -/
def childrenOf (m : Sparse (BitVec 64)) (parent : Nat) : List Nat :=
  (m.filter (fun e => cfgParent e.2.toNat == parent)).map (·.1)

/-- The service queues of a subscriber node, the subscriber nodes of a port node, and the service queues of a port node. -/
def State.subQueues (s : State) (u : Nat) : List Nat := childrenOf s.sched.queueCfg u
def State.nodeSubs (s : State) (n : Nat) : List Nat := childrenOf s.sched.subCfg n
def State.nodeQueues (s : State) (n : Nat) : List Nat := (s.nodeSubs n).flatMap s.subQueues

/-- The packets of a queue, oldest first. -/
def Queue.packets (x : Queue) : List Nat := x.head ++ x.spill ++ x.tail

/-- A queue holds a packet. -/
def State.holds (s : State) (q : Nat) : Bool := !(s.queue q).packets.isEmpty

/-- The length of packet `n` as the queues count it. -/
def Pkt.length (p : Pkt) : Nat := if p.trunc = 0 then p.data.length else min p.trunc p.data.length
def State.lenOf (s : State) (n : Nat) : Nat := match s.pkt n with | some p => p.length | none => 0

/-! ### Port nodes (R299 to R302, R322) -/

/-- SCH_PNODE_CFG.KIND and TARGET of a port node. -/
def State.nodeKind (s : State) (n : Nat) : Nat := s.rd F.SCH_PNODE_CFG.KIND n
def State.nodeTarget (s : State) (n : Nat) : Nat := s.rd F.SCH_PNODE_CFG.TARGET n

/-- R104: the port number of a port node's exit. -/
def State.exitOf (s : State) (n : Nat) : Nat :=
  let t := s.nodeTarget n
  match s.nodeKind n with
  | 0 => t
  | 1 => 64 + t
  | 2 => 112 + t
  | 3 => 176 + t
  | 4 => 208 + t
  | _ => 256

/-- R299: TARGET lies within its kind's range. -/
def targetOk (kind target : Nat) : Bool :=
  match kind with
  | 0 => decide (target < 64)
  | 1 => decide (target < 48)
  | 2 => decide (target < 64)
  | 3 => decide (target < 32)
  | 4 => decide (target < 4)
  | 5 => target == 0
  | _ => false

/-- The enabled port node of a kind and target (R299, R300). -/
def State.nodeFor (s : State) (kind target : Nat) : Option Nat :=
  (List.range 512).find? (fun n =>
    s.on F.SCH_PNODE_CFG.EN n && s.nodeKind n == kind && s.nodeTarget n == target)

/-- R299: the link state of a port node's exit. -/
def State.linkOf (s : State) (n : Nat) : Bool :=
  let t := s.nodeTarget n
  match s.nodeKind n with
  | 0 => s.on F.ETH_PORT_STATUS.LINK t
  | 1 => s.on F.LOOM_TREE_STATUS.UP t
  | 2 => (s.mac (112 + t)).up
  | 3 => s.on F.HST_RING_CFG.EN t
  | 4 => true
  | 5 => true
  | _ => false

/-- States of a port node: 0 DISABLED, 1 UP, 2 HOLD, 3 FLUSH, 4 DOWN. -/
def State.nodeState (s : State) (n : Nat) : Nat := s.rd F.SCH_PNODE_STATUS.STATE n
def State.setNodeState (s : State) (n st : Nat) : State := s.wr F.SCH_PNODE_STATUS.STATE n st

/-- The scheduling records of a port node, subscriber node and service queue. -/
def State.portNode (s : State) (n : Nat) : Node := Sparse.read Node.idle s.sched.portNode n
def State.setPortNode (s : State) (n : Nat) (x : Node) : State :=
  s.withSched { s.sched with portNode := Sparse.write Node.idle s.sched.portNode n x }
def State.subNode (s : State) (u : Nat) : Node := Sparse.read Node.idle s.sched.subNode u
def State.setSubNode (s : State) (u : Nat) (x : Node) : State :=
  s.withSched { s.sched with subNode := Sparse.write Node.idle s.sched.subNode u x }
def State.queueNode (s : State) (q : Nat) : Node := Sparse.read Node.idle s.sched.queueNode q
def State.setQueueNode (s : State) (q : Nat) (x : Node) : State :=
  s.withSched { s.sched with queueNode := Sparse.write Node.idle s.sched.queueNode q x }

/-- A packet is on its way from its dequeue to its exit. -/
def Loc.leaving : Loc → Bool
  | .reading | .seamDown | .egressIn | .egStageIn _ | .egActing _ | .egStageDone _ | .txFifo | .hostOut _ => true
  | _ => false

/-- The packets dequeued under port node `n` and not yet gone, oldest first. -/
def State.nodeOut (s : State) (n : Nat) : List Nat :=
  (s.portNode n).out.filter (fun k => match s.pkt k with | some p => p.loc.leaving && p.node == n | none => false)

/-- The octets of those packets that stand at a place `f` picks out. -/
def State.nodeOctets (s : State) (n : Nat) (f : Loc → Bool) : Nat :=
  ((s.nodeOut n).map (fun k => match s.pkt k with | some p => if f p.loc then p.data.length else 0 | none => 0)).sum

/-! ### The MAC transmit FIFO (R33, R615) -/

/-- The rate of an exit in Mb/s. -/
def State.exitMbps (s : State) (n : Nat) : Nat :=
  match s.nodeKind n with
  | 0 => speedMbps (s.rd F.ETH_PORT_CFG.SPEED (s.nodeTarget n))
  | 1 => if s.on F.LOOM_TREE_CFG.TYPE (s.nodeTarget n) then 50000 else 10000
  | 2 => 5000 * s.clientSlots (s.nodeTarget n)
  | _ => 800000

/-- R33: the depth of a MAC transmit FIFO: 2 µs at the port's rate in Mb/s, at least one flit. -/
def txFifoSize (mbps : Nat) : Nat := max 64 (mbps * 2 / 8)

/-- R615: the octets of frames that stand in the MAC transmit FIFO of port node `n`, and the octets free. -/
def State.txFill (s : State) (n : Nat) : Nat :=
  ((s.nodeOut n).map (fun k => match s.pkt k with
    | some p => if p.loc = .txFifo then p.inFifo else 0
    | none => 0)).sum
def State.txFree (s : State) (n : Nat) : Nat := txFifoSize (s.exitMbps n) - s.txFill n

/-- R615: `n` octets that wait, as far as the flits that `free` octets hold can take them. -/
def txTake (free n : Nat) : Nat := if n ≤ free then n else free / 64 * 64

/-- R615: packet `p` goes on into the transmit FIFO of its node, flit by flit as there is room. -/
def State.intoFifo (s : State) (p : Pkt) : Pkt :=
  { p with loc := .txFifo, inFifo := p.inFifo + txTake (s.txFree p.node) (p.data.length - p.inFifo) }

/-- R615: the MAC may start frame `p`: it is whole in the FIFO, or the FIFO is full. -/
def State.txReady (s : State) (p : Pkt) : Bool := p.inFifo == p.data.length || decide (s.txFree p.node < 64)

/-! ### Virtual times (R306 to R310) -/

/-- R308: `a` is smaller than `b`, modulo 2^48. -/
def tagLess (a b : Nat) : Bool :=
  let d := (b + 2 ^ 48 - a % 2 ^ 48) % 2 ^ 48
  decide (1 ≤ d) && decide (d ≤ 2 ^ 47 - 1)

/-- The larger of two tags. -/
def tagMax (a b : Nat) : Nat := if tagLess a b then b else a

/-- R308: what a selection adds to the tag. -/
def tagStep (leff weight : Nat) : Nat := (leff * 65536 + weight - 1) / weight

/-- V of a band. -/
def Node.vAt (x : Node) (band : Nat) : Nat := x.v.getD band 0

/-- R308: a child of `parent` is selected in a band: the parent's V and the child's tag. -/
def Node.selected (parent : Node) (band tag leff weight : Nat) : Node × Nat :=
  let v := tagMax (parent.vAt band) tag
  ({ parent with v := parent.v.set band v }, (tag + tagStep leff weight) % 2 ^ 48)

/-- A child that may be chosen (R305, R306). -/
structure Cand where
  idx : Nat
  within : Bool
  band : Nat
  tag : Nat
  deriving DecidableEq, Repr

/-- R306: `a` comes before `b`. -/
def Cand.before (a b : Cand) : Bool :=
  if a.within != b.within then a.within
  else if a.band ≠ b.band then decide (a.band < b.band)
  else if a.tag ≠ b.tag then tagLess a.tag b.tag
  else decide (a.idx < b.idx)

/-- R306: the child that comes first. -/
def pick (cs : List Cand) : Option Cand :=
  cs.foldl (fun best c => match best with
    | none => some c
    | some b => if c.before b then some c else best) none

/-! ### Shapers (R312 to R315) -/

/-- The fields of a shaper record. -/
def shRate (v : Nat) : Nat := bitsOf v 0 30
def shPeriod (v : Nat) : Nat := max 1 (bitsOf v 30 10)
def shBurst (v : Nat) : Nat := bitsOf v 40 24
def shMinRate (v : Nat) : Nat := bitsOf v 64 30
def shMinBurst (v : Nat) : Nat := bitsOf v 94 24

/-- The values a shaper record is stored with. -/
def shStore (v : Nat) : BitVec 128 :=
  let v1 := setBits (v % 2 ^ 118) 0 30 (min (shRate v) 800000000)
  let v2 := setBits v1 30 10 (min (shPeriod v) 1000)
  BitVec.ofNat 128 (setBits v2 64 30 (min (shMinRate v) 800000000))

/-- R312, R314: one bucket after `elapsed` µs. -/
def refillBucket (level : Int) (frac rate period burst elapsed : Nat) : Int × Nat :=
  let num := frac + rate * elapsed
  let cap : Int := max burst (rate * period / 8000)
  (min (level + (num / 8000 : Nat)) cap, num % 8000)

/-- R312 to R315: a node's refill at the FRC value `t`. -/
def Node.refill (x : Node) (sh t : Nat) : Node :=
  let elapsed := (t - x.last) / us 1
  let a := refillBucket x.level x.frac (shRate sh) (shPeriod sh) (shBurst sh) elapsed
  let b := refillBucket x.minLevel x.minFrac (shMinRate sh) (shPeriod sh) (shMinBurst sh) elapsed
  { x with
    sh := sh
    level := if shRate sh = 0 then 0 else a.1, frac := if shRate sh = 0 then 0 else a.2
    minLevel := b.1, minFrac := b.2, last := t, period := shPeriod sh }

/-- R312: a node's first refill after a start is one period after the start. -/
def Node.since (x : Node) (start : Nat) : Node := { x with last := max x.last start }

/-- R312: when a node's next refill is due: one period in force after the last; of missed periods the last. -/
def Node.due (x : Node) (now : Nat) : Nat :=
  let p := us (max 1 x.period)
  if now < x.last + p then x.last + p else x.last + (now - x.last) / p * p

/-- R305, R314, R315: the maximum-rate bucket of the record in force allows the node. -/
def Node.allowed (x : Node) : Bool := shRate x.sh == 0 || decide (0 ≤ x.level)

/-- R305, R315: the node has credit within its minimum. -/
def Node.withinMin (x : Node) : Bool := shMinRate x.sh != 0 && decide (0 < x.minLevel)

/-- R313: the charge of a selection. -/
def Node.charge (x : Node) (leff : Nat) : Node :=
  { x with level := if shRate x.sh = 0 then 0 else x.level - leff, minLevel := x.minLevel - leff }

/-- The shaper records as written; a node takes its own at its next refill (R315). -/
def State.queueSh (s : State) (q : Nat) : Nat := (Sparse.read 0 s.sched.queueShaper q).toNat
def State.subSh (s : State) (u : Nat) : Nat := (Sparse.read 0 s.sched.subShaper u).toNat
def State.portSh (s : State) (n : Nat) : Nat := (Sparse.read 0 s.sched.portShaper n).toNat

/-- SHAPER_REFILL (R312, R314, R315): the refill of a service queue (0), subscriber node (1) or port node (2) falls due. -/
def execShaperRefill (level i : Nat) (s : State) : Result :=
  .next <|
    match level with
    | 0 => let x := (s.queueNode i).since s.fab.startAt
           let t := x.due s.now
           (s.advanceTo t).setQueueNode i (x.refill (s.queueSh i) t)
    | 1 => let x := (s.subNode i).since s.fab.startAt
           let t := x.due s.now
           (s.advanceTo t).setSubNode i (x.refill (s.subSh i) t)
    | _ => let x := (s.portNode i).since s.fab.startAt
           let t := x.due s.now
           (s.advanceTo t).setPortNode i (x.refill (s.portSh i) t)

/-! ### Buffers of queued packets -/

/-- Free buffers with the owner each has. -/
def State.freeOwned (s : State) (ps : List Nat) : State := ps.foldl (fun s p => (s.palFree p (bufOwner (s.bufWord p))).1) s

/-- A run-ahead copy is undone (R43, R530): its buffers return, and it is counted in PAL_RA_CNT(j). -/
def State.undoCopy (s : State) (k j : Nat) : State :=
  match s.pkt k with
  | none => s
  | some p =>
    let s1 := ((s.cancelReads k).palFreeAll p.canvas 62).setPkt k { p with canvas := [], reads := 0, spoilt := false }
    ((s1.incWrap F.PAL_RA_CNT.COUNT j).undo 2).sample 5 0xFFFF

/-- R266: the requester class of an enqueue. -/
def enqueueClass (p : Pkt) (q : Nat) : Nat :=
  if p.fate = .recirc ∨ p.origin = 2 then 3 else if q < voqBase then 0 else 1

/-- R282: where S is empty, T joins H. -/
def Queue.rejoin (x : Queue) : Queue :=
  if x.spill = [] then { x with head := x.head ++ x.tail, tail := [], split := false } else x

/-- R282, R286: the copy of packet `k` commits: PREFETCH becomes ALLOC for the queue's owner, the packet leaves S for H, its DRAM buffers
are freed. -/
def State.commitCopy (s : State) (q k : Nat) : State :=
  match s.pkt k with
  | none => s
  | some p =>
    let s1 := p.canvas.foldl (fun s b => (s.palTransfer b 62 (classOwner (enqueueClass p q))).1) s
    let s2 := (s1.palFreeAll p.dram 4).setPkt k { p with dram := [], ahead := true }
    let x := s2.queue q
    let x1 := { x with
      head := x.head ++ [k], spill := x.spill.filter (· != k), copies := x.copies.filter (fun c => c.1 != k) }
    (s2.setQueue q x1.rejoin).incWrap F.PAL_RA_CNT.COUNT 1

/-- The queue head advances: a landed copy of the oldest packet commits (R286); when S is empty, T joins H (R282). -/
def State.advanceHead (s : State) (q : Nat) : State :=
  let x := s.queue q
  match x.head, x.spill with
  | [], k :: _ => if x.copies.any (fun c => c.1 == k && c.2) then s.commitCopy q k else s
  | [], [] => s.setQueue q x.rejoin
  | _, _ => s

/-! ### Flush (R289) -/

/-- Remove packet `k` from the module without a discard of R34. -/
def State.removePkt (s : State) (k : Nat) : State :=
  match s.pkt k with
  | none => s
  | some p => ((s.releaseStamps p).untag p).dropPkt k

/-- R289, R34: the row and the pair that count a packet that a flush of queue `q` discards: a per-port flush drop, and of a VOQ a per-class
drop. -/
def State.flushCounts (s : State) (q : Nat) : Nat × Nat :=
  if q < voqBase then (9, 1536 + s.nodeOf q) else (14, 1024 + (q - voqBase) % 8)

/-- R289: the packets of queue `q` go, each copy undone before its DRAM buffers are freed. -/
def State.flushQueue (s : State) (q : Nat) : State :=
  let x := s.queue q
  let c := s.flushCounts q
  let s1 := x.copies.foldl (fun s c => s.undoCopy c.1 2) s
  let s2 := x.packets.foldl (fun s k =>
    match s.pkt k with
    | none => s
    | some p => (((s.freeOwned p.canvas).palFreeAll p.dram 4).tally1 c.2 p.length).discardPkt k c.1 0) s1
  s2.setQueue q { x with state := 3, depth := 0, head := [], spill := [], tail := [], split := false, copies := [] }

/-- R325: a flush of a queue that is not DISABLED. -/
def State.flush (s : State) (q : Nat) : State := if (s.queue q).state = 0 then s else s.flushQueue q

/-- The access in hand completes with a code: 0 OK, 1 BAD_CMD, 2 RANGE, 3 REFUSED (R326). -/
def State.accDone (s : State) (code : Nat) : State :=
  (s.wr F.SCH_ACC_STATUS.BUSY 0 0).wr F.SCH_ACC_STATUS.CODE 0 code

/-- An access of kind `op` is running. -/
def State.accRuns (s : State) (op : Nat) : Bool := s.on F.SCH_ACC_STATUS.BUSY && s.rd F.SCH_ACC_CMD.OP == op

/-- R325, R326: the flush of a queue completes, and with it a FLUSH of the access port that asked for it. -/
def State.flushDone (s : State) (q : Nat) : State :=
  if (s.queue q).state ≠ 3 then s
  else
    let i := s.rd F.SCH_ACC_CMD.INDEX
    let mine := s.accRuns 2 && (if s.rd F.SCH_ACC_CMD.OBJ = 0 then q == i else q == voqBase + i)
    let s1 := s.setQueue q { s.queue q with state := if cfgEn (s.queueCfg q) then 1 else 0 }
    if mine then s1.accDone 0 else s1

/-- QUEUE_FLUSH (R289). -/
def execQueueFlush (q : Nat) (s : State) : Result := .next (s.flush q)

/-- A frame that has left the egress stages is discarded: TS_REQ or a launch time posts an entry (R475). -/
def State.postDropped (s : State) (p : Pkt) (late : Bool) : State :=
  let t := tcwOf p.hv
  if p.loc = .txFifo ∧ (t.tsReq ∨ p.launch.isSome) then
    s.txtsPost ⟨0, t.txId, s.exitOf p.node, false, late, true⟩
  else s

/-- A frame of port node `n` behind its dequeue is discarded as a per-port flush drop. -/
def State.dropHeld (s : State) (n k : Nat) : State :=
  match s.pkt k with
  | none => s
  | some p =>
    let s1 := if p.dram = [] then s else (s.cancelReads k).palFreeAll p.dram 4
    (((s1.trueUp p.data.length p.charges).postDropped p false).tally1 (1536 + n) p.data.length).discardPkt k 9 0

/-! ### Port node states (R322) -/

/-- The node enters FLUSH: held frames and every queue are discarded as per-port flush drops. -/
def State.nodeFlush (s : State) (n : Nat) : State :=
  let s1 := (s.setNodeState n 3).incWrap F.SCH_PNODE_STATUS.FLUSHES n
  let s2 := (s1.nodeOut n).foldl (fun s k => s.dropHeld n k) s1
  (s2.nodeQueues n).foldl (fun s q => s.flush q) s2

/-- R300, R322: EN is written 1 with KIND and TARGET `kind` and `target`. -/
def State.nodeEnable (s : State) (n kind target : Nat) : State :=
  let taken := (List.range 512).any (fun m =>
    m != n && s.on F.SCH_PNODE_CFG.EN m && s.nodeKind m == kind && s.nodeTarget m == target)
  if taken || !targetOk kind target then (s.wr F.SCH_PNODE_CFG.EN n 0).wr F.SCH_STATUS.CFG_ERR 0 1
  else
    let s1 := s.wr F.SCH_PNODE_CFG.EN n 1
    let s2 := s1.wrBit F.SCH_PNODE_STATUS.LINK n (s1.linkOf n)
    if s2.nodeState n = 0 then s2.setNodeState n (if s2.linkOf n then 1 else 4) else s2

/-- R322: EN is written 0. -/
def State.nodeDisable (s : State) (n : Nat) : State :=
  let s1 := s.wr F.SCH_PNODE_CFG.EN n 0
  if s1.nodeState n = 1 ∨ s1.nodeState n = 2 ∨ s1.nodeState n = 4 then s1.nodeFlush n else s1

/-- A write of SCH_PNODE_CFG(n): KIND and TARGET are locked while EN is 1. -/
def State.nodeCfgWrite (s : State) (n v : Nat) : State :=
  let kind := bitsOf v 1 3
  let target := bitsOf v 8 8
  if s.on F.SCH_PNODE_CFG.EN n ∧ (kind ≠ s.nodeKind n ∨ target ≠ s.nodeTarget n) then s.wr F.SCH_STATUS.CFG_ERR 0 1
  else
    let s1 := ((s.wr F.SCH_PNODE_CFG.KIND n kind).wr F.SCH_PNODE_CFG.TARGET n target).wr F.SCH_PNODE_CFG.LEN_ADJ n (bitsOf v 16 7)
    if v.testBit 0 then (if s1.on F.SCH_PNODE_CFG.EN n then s1 else s1.nodeEnable n kind target)
    else if s1.on F.SCH_PNODE_CFG.EN n then s1.nodeDisable n
    else s1

/-- PORT_NODE_ENABLE (R322, R300): a write of SCH_PNODE_CFG(n) with EN 1. -/
def execPortNodeEnable (n v : Nat) (s : State) : Result :=
  .next (s.landed .SCH_PNODE_CFG (fun s => s.nodeCfgWrite (n % 512) (setBits v 0 1 1)))

/-- PORT_NODE_DISABLE (R322): a write of SCH_PNODE_CFG(n) with EN 0. -/
def execPortNodeDisable (n v : Nat) (s : State) : Result :=
  .next (s.landed .SCH_PNODE_CFG (fun s => s.nodeCfgWrite (n % 512) (setBits v 0 1 0)))

/-- R322: the oldest frame of a node in its MAC is cut off if it is being transmitted. -/
def State.nodeCut (s : State) (n : Nat) (cut : Bool) : State :=
  match (s.nodeOut n).find? (fun k => match s.pkt k with | some p => p.loc == .txFifo | none => false) with
  | some k => if cut && (match s.pkt k with | some p => s.txReady p | none => false) then s.dropHeld n k else s
  | none => s

/-- R322, R324: the link of port node `n` is lost; `cut` says that its oldest frame in the MAC is being transmitted. -/
def State.nodeLost (s : State) (n : Nat) (cut : Bool) : State :=
  let s1 := s.wr F.SCH_PNODE_STATUS.LINK n 0
  match s.nodeState n with
  | 1 =>
    let s2 := s1.nodeCut n cut
    if s2.rd F.SCH_PORT_HOLD.TIME = 0 then s2.nodeFlush n
    else
      (s2.setNodeState n 2).withSched { s2.sched with
          holdEnd := Sparse.write 0 s2.sched.holdEnd n (s2.now + us (s2.rd F.SCH_PORT_HOLD.TIME)) }
  | 3 => s1.wr F.SCH_PNODE_STATUS.RET_PENDING n 0
  | _ => s1

/-- R322: the link of port node `n` returns. -/
def State.nodeReturned (s : State) (n : Nat) : State :=
  let s1 := s.wr F.SCH_PNODE_STATUS.LINK n 1
  match s.nodeState n with
  | 2 => s1.setNodeState n 1
  | 3 => s1.wr F.SCH_PNODE_STATUS.RET_PENDING n 1
  | 4 => s1.setNodeState n 1
  | _ => s1

/-- PORT_LINK_LOST (R322): the link of R299 is down and the node has not seen it. -/
def execPortLinkLost (n : Nat) (cut : Bool) (s : State) : Result :=
  .next (if s.linkOf n || !s.on F.SCH_PNODE_STATUS.LINK n then s else s.nodeLost n cut)

/-- PORT_LINK_RETURN (R322): the link of R299 is up and the node has not seen it. -/
def execPortLinkReturn (n : Nat) (s : State) : Result :=
  .next (if !s.linkOf n || s.on F.SCH_PNODE_STATUS.LINK n then s else s.nodeReturned n)

/-- PORT_HOLD_EXPIRY (R322): the hold of node `n` ends. -/
def execPortHoldExpiry (n : Nat) (s : State) : Result :=
  .next <|
    if s.nodeState n ≠ 2 then s
    else (s.advanceTo (Sparse.read 0 s.sched.holdEnd n)).nodeFlush n

/-- PORT_FLUSH_COMPLETE (R322, R325). -/
def execPortFlushComplete (n : Nat) (s : State) : Result :=
  .next <|
    if s.nodeState n ≠ 3 then s
    else
      let s1 := (s.nodeQueues n).foldl (fun s q => s.flushDone q) s
      let s2 := s1.wr F.SCH_PNODE_STATUS.RET_PENDING n 0
      if !s.on F.SCH_PNODE_CFG.EN n then s2.setNodeState n 0
      else if s.on F.SCH_PNODE_STATUS.RET_PENDING n then s2.setNodeState n 1
      else s2.setNodeState n 4

/-! ### Admission (R303, R304, R308, R325) -/

/-- R279: the share of a queue in bytes. -/
def State.shareOf (s : State) (q : Nat) : Nat :=
  let k := cfgShare (s.queueCfg q)
  let cfree := s.rd F.PAL_FREE_CNT.COUNT 0 * 256
  min (s.rd F.PAL_SHARE.SHARE_MAX k * 1024) (max (s.rd F.PAL_SHARE.SHARE_MIN k * 1024) (cfree / 2 ^ s.rd F.PAL_SHARE.ALPHA k))

/-- The packets from the front that lie wholly within `share` bytes, and the rest (R280). -/
def splitAt (len : Nat → Nat) (share : Nat) : List Nat → List Nat × List Nat
  | [] => ([], [])
  | k :: ks =>
    if len k ≤ share then let r := splitAt len (share - len k) ks; (k :: r.1, r.2) else ([], k :: ks)

/-- The buffers of a packet in Canvas. -/
def State.buffersOf (s : State) (k : Nat) : Nat := match s.pkt k with | some p => p.canvas.length | none => 0

/-- The Canvas occupancy of a queue: 256 bytes for each buffer of H and T. -/
def State.canvasOf (s : State) (q : Nat) : Nat := 256 * (((s.queue q).head ++ (s.queue q).tail).map s.buffersOf).sum

/-- R280: a queue without S that exceeds its share is split; a DRAM pool of size 0 disables spill (R262). -/
def State.splitQueue (s : State) (q : Nat) : State :=
  let x := s.queue q
  if x.split || s.rd F.PAL_POOL_CFG.SIZE 1 == 0 || decide (s.canvasOf q ≤ s.shareOf q) then s
  else
    let r := splitAt s.lenOf (s.shareOf q) x.head
    s.setQueue q { x with head := r.1, tail := r.2, split := true }

/-- R308: queue `q` wakes, and its subscriber node with it when no other child holds a packet. -/
def State.wake (s : State) (q : Nat) : State :=
  if q < voqBase then
    let u := s.subOf q
    let n := s.nodeOf q
    let s1 := s.setQueueNode q { s.queueNode q with tag := (s.subNode u).vAt (cfgBand (s.queueCfg q)) }
    if (s.subQueues u).any s.holds then s1
    else s1.setSubNode u { s1.subNode u with tag := (s1.portNode n).vAt (cfgBand (s1.subCfg u)) }
  else
    let c := (q - voqBase) % 8
    if (List.range 2048).any (fun d => s.holds (voqBase + 8 * d + c)) then s
    else
      s.withSched { s.sched with
          classTag := Sparse.write 0 s.sched.classTag c (Sparse.read 0 s.sched.bandV (s.rd F.SCH_VOQ_CLASS.BAND c)) }

/-- R303: the first test that an arriving packet fails: 0 none, 1 to 3. -/
def State.admission (s : State) (q len dp : Nat) : Nat :=
  let c := s.queueCfg q
  let n := s.nodeOf q
  let x := s.queue q
  let limit := match dp % 4 with
    | 0 => s.rd F.SCH_ADM.LIMIT_DP0 (cfgAdm c)
    | 1 => s.rd F.SCH_ADM.LIMIT_DP1 (cfgAdm c)
    | 2 => s.rd F.SCH_ADM.LIMIT_DP2 (cfgAdm c)
    | _ => s.rd F.SCH_ADM.LIMIT_DP3 (cfgAdm c)
  if q < voqBase ∧ (s.nodeState n = 3 ∨ s.nodeState n = 4) then 1
  else if !cfgEn c ∨ x.state = 3 ∨ (q < voqBase ∧ (!cfgEn (s.subCfg (s.subOf q)) ∨ !s.on F.SCH_PNODE_CFG.EN n)) then 2
  else if 1024 * limit < x.depth + len then 3
  else 0

/-- R304, R280, R325: packet `k`, whose buffers it has, joins queue `q`. -/
def State.linkTo (s : State) (q k : Nat) : State :=
  match s.pkt k with
  | none => s
  | some p =>
    let x := s.queue q
    let s1 := if x.packets = [] then s.wake q else s
    let s2 := s1.setPkt k { p with loc := if q < voqBase then .queued q else .voq (q - voqBase), enqAt := s.now, ahead := false }
    let x1 := { x with
      state := 2, depth := x.depth + p.length
      head := if x.split then x.head else x.head ++ [k]
      tail := if x.split then x.tail ++ [k] else x.tail }
    ((s2.setQueue q x1).splitQueue q).trace k 4 0 [q, x1.depth]

/-- R303: an arriving packet that fails a test is discarded: a per-port flush drop, or a per-class enqueue drop. -/
def State.refuseAdmission (s : State) (q k test : Nat) : State :=
  match s.pkt k with
  | none => s
  | some p =>
    if test = 1 then (s.tally1 (1536 + s.nodeOf q) p.length).discardPkt k 9 0
    else
      let s1 := if test = 4 then s else s.setQueue q { s.queue q with drops := (s.queue q).drops + 1 }
      (s1.tally1 (1024 + p.carry.cls % 8) p.length).discardPkt k 6 test

/-- The lowest-numbered enabled service queue under the port node of a kind and target. -/
def State.queueUnder (s : State) (kind target : Nat) : Option Nat :=
  match s.nodeFor kind target with
  | none => none
  | some n => (s.nodeQueues n).foldl (fun best q =>
      if cfgEn (s.queueCfg q) && cfgEn (s.subCfg (s.subOf q)) then
        (match best with | none => some q | some b => some (min b q)) else best) none

/-- Where a packet's fate sends it (R187, R195, R318): the queue, none where no queue is there. -/
def State.queueFor (s : State) (p : Pkt) : Option Nat :=
  match p.fate with
  | .forward =>
    if p.carry.destMod = s.rd F.FAB_CFG.MOD_ID ∨ p.origin ≠ 0 then some p.carry.queue
    else some (voqBase + 8 * (p.carry.destMod % 2048) + p.carry.cls % 8)
  | .recirc => s.queueUnder 4 p.pipe
  | .host t => s.queueUnder 3 t.ring
  | _ => none

/-- R378: VOQ `q` leads to a destination that has been unreachable beyond UNREACH and still is. -/
def State.unreachable (s : State) (q : Nat) : Bool := decide (voqBase ≤ q) && s.fab.gone.contains ((q - voqBase) / 8)

/-- R478, R480: the launch time of a packet injected in direct mode, converted at its admission to queue `q`. -/
def State.settleLaunch (s : State) (q k : Nat) : State :=
  match s.pkt k with
  | none => s
  | some p =>
    if voqBase ≤ q || !cfgLaunch (s.queueCfg q) || s.nodeKind (s.nodeOf q) != 0 then s.setPkt k { p with launch := none }
    else
      match p.launch with
      | none => s.incWrap F.TIM_ERR_CNT.COUNT 3
      | some t =>
        let f := s.frcOfLocal (t * 65536)
        s.setPkt k { p with launch := some f, late := !s.timeValid || decide (f ≤ s.now) }

/-- R303: packet `k` seeks queue `q`; whether the enqueue is over (a class 3 request that finds the pool empty is retried). -/
def State.enqueueAt (s : State) (q k : Nat) : State × Bool :=
  match s.pkt k with
  | none => (s, true)
  | some p =>
    if s.unreachable q then ((s.tally1 (1024 + p.carry.cls % 8) p.length).discardPkt k 14 0, true)
    else
      match s.admission q p.length p.carry.dp with
      | 0 =>
        if p.canvas ≠ [] then
          -- R270: the resequencer's buffers pass to the service queue
          let s1 := if p.origin = 1 then p.canvas.foldl (fun s b => (s.palTransfer b 3 1).1) s else s
          ((s1.settleLaunch q k).linkTo q k, true)
        else
          let c := enqueueClass p q
          match s.allocN c (classOwner c) 0 (max 1 ((p.data.length + 255) / 256)) [] with
          | (s1, some bs) => ((((s1.putOctets bs p.data).setPkt k { p with canvas := bs }).settleLaunch q k).linkTo q k, true)
          | (s1, none) => if c = 3 then (s1, false) else (s1.refuseAdmission q k 4, true)
      | t => (s.refuseAdmission q k t, true)

/-- R38: the queue, fate and length limit of a copy. -/
def State.copyTarget (s : State) (c : Copy) : Option Nat × Fate × Nat :=
  match c with
  | .host p => (s.queueUnder 3 p.ring, .host p, 0)
  | .mirror k => (some (s.rd F.GLZ_MIRROR.QUEUE k), .copiesOnly, s.rd F.GLZ_MIRROR.TRUNC k)

/-- R38, R271: a further reference to each of a list of buffers, all or none. -/
def State.refAll (s : State) (ps : List Nat) : State × Bool :=
  let r : State × List Nat × Bool := ps.foldl (fun (acc : State × List Nat × Bool) b =>
    if acc.2.2 then
      (match acc.1.palRef b with
        | (s1, true) => (s1, b :: acc.2.1, true)
        | (s1, false) => (s1, acc.2.1, false))
    else acc) (s, [], true)
  if r.2.2 then (r.1, true) else (r.1.freeOwned r.2.1, false)

/-- R38: a copy of packet `p` with the buffers `shared`; the buffers it holds afterwards. -/
def State.enqueueCopy (s : State) (p : Pkt) (shared : List Nat) (c : Copy) : State × List Nat :=
  let t := s.copyTarget c
  let r := s.refAll shared
  if !r.2 then (r.1.tally1 773 p.data.length, shared)
  else
    let k := r.1.nextPkt
    let q : Pkt := { p with
      canvas := shared, fate := t.2.1, copies := [], trunc := t.2.2, launch := none, stamped := false, egStamped := false
      loc := .enqueueIn, tag := p.tag.map (fun g => { g with seq := 0, lost := false }) }
    let s1 := r.1.addPkt q
    let s2 := if p.tag.isSome then s1.withTally { s1.tally with tagged := s1.tally.tagged + 1 } else s1
    match t.1 with
    | none => ((s2.tally1 (1024 + p.carry.cls % 8) q.length).freeOwned shared |>.discardPkt k 6 2, shared)
    | some qu =>
      let s3 := (s2.enqueueAt qu k).1
      match s3.pkt k with
      | none => (s3.freeOwned shared, shared)
      | some q1 => (s3, q1.canvas)

/-- The copies of a packet one after another; the first takes buffers of its own where the packet left none. -/
def State.enqueueCopies (s : State) (p : Pkt) : List Nat → List Copy → State
  | _, [] => s
  | shared, c :: cs =>
    let r := s.enqueueCopy p shared c
    r.1.enqueueCopies p r.2 cs

/-- ENQUEUE (R303, R38): packet `n` arrives at the enqueue of the traffic die; it and its copies seek their queues. -/
def execEnqueue (n : Nat) (s : State) : Result :=
  .next <|
    match s.pkt n with
    | none => s
    | some p =>
      if p.loc ≠ .enqueueIn ∨ s.halted then s
      else if p.fate = .copiesOnly then (s.enqueueCopies p p.canvas p.copies).removePkt n
      else
        match s.queueFor p with
        | none => ((s.enqueueCopies p [] p.copies).tally1 (1024 + p.carry.cls % 8) p.data.length).discardPkt n 6 2
        | some q =>
          match s.enqueueAt q n with
          | (s1, false) => s1
          | (s1, true) =>
            match s1.pkt n with
            | some p1 => (s1.setPkt n { p1 with copies := [] }).enqueueCopies p p1.canvas p.copies
            | none => (s1.freeOwned p.canvas).enqueueCopies p [] p.copies

/-! ### Selection (R302, R305, R306, R311, R313) -/

/-- R302: the node's exit has credit. -/
def State.nodeCredit (s : State) (n len : Nat) : Bool :=
  let seam := decide (s.nodeOctets n (fun l => l == .seamDown || l == .reading) + len ≤ 32768)
  match s.nodeKind n with
  | 0 => seam && !(s.mac (s.nodeTarget n)).txPaused && decide (64 ≤ s.txFree n)
  | 1 => seam && decide (64 ≤ s.txFree n)
  | 2 => seam && !(s.mac (112 + s.nodeTarget n)).txPaused && decide (64 ≤ s.txFree n)
  | 3 => seam && !s.ringFull (s.nodeTarget n)
  | _ => seam

/-- R479: a packet that a LAUNCH queue holds back. -/
def State.launchHeld (s : State) (p : Pkt) : Bool :=
  match p.launch with
  | some f => !p.late && decide (s.now + us 2 < f)
  | none => false

/-- The oldest packet of a queue can be read now: R479 and R358. -/
def State.headReady (s : State) (q : Nat) : Bool :=
  match (s.queue q).packets with
  | [] => false
  | k :: _ =>
    match s.pkt k with
    | none => false
    | some p => !s.launchHeld p && !(p.dram != [] && s.dramStopped)

/-- R305: a service queue is eligible. -/
def State.queueEligible (s : State) (q : Nat) : Bool :=
  (s.queue q).state == 2 && s.headReady q && (s.queueNode q).allowed

/-- R305: a subscriber node is eligible. -/
def State.subEligible (s : State) (u : Nat) : Bool :=
  cfgEn (s.subCfg u) && (s.subNode u).allowed && (s.subQueues u).any s.queueEligible

/-- The candidates at a subscriber node and at a port node. -/
def State.queueCands (s : State) (u : Nat) : List Cand :=
  ((s.subQueues u).filter s.queueEligible).map (fun q =>
    ⟨q, (s.queueNode q).withinMin, cfgBand (s.queueCfg q), (s.queueNode q).tag⟩)
def State.subCands (s : State) (n : Nat) : List Cand :=
  ((s.nodeSubs n).filter s.subEligible).map (fun u =>
    ⟨u, (s.subNode u).withinMin, cfgBand (s.subCfg u), (s.subNode u).tag⟩)

/-- R309: the length a selection charges. -/
def State.leff (s : State) (n len : Nat) : Nat :=
  let adj := s.rd F.SCH_PNODE_CFG.LEN_ADJ n
  if adj < 64 then max 1 (len + adj) else max 1 (len - (128 - adj))

/-- R306, R308, R313: the selection of queue `q` under subscriber node `u` and port node `n` charges tags and shapers. -/
def State.chargeSelection (s : State) (n u q leff : Nat) : State :=
  let qc := s.queueCfg q
  let uc := s.subCfg u
  let a := (s.subNode u).selected (cfgBand qc) (s.queueNode q).tag leff (cfgWeight qc)
  let b := (s.portNode n).selected (cfgBand uc) (s.subNode u).tag leff (cfgWeight uc)
  let s1 := s.setQueueNode q (Node.charge { s.queueNode q with tag := a.2 } leff)
  let s2 := s1.setSubNode u (Node.charge { a.1 with tag := b.2 } leff)
  s2.setPortNode n (b.1.charge leff)

/-- R345: the real-time port that reads for a queue under node `n`, 0 for none. -/
def State.rtPort (s : State) (n q : Nat) : Nat :=
  if s.nodeKind n = 1 ∨ cfgLaunch (s.queueCfg q) then n + 1 else 0

/-- R290, R291: Canvas buffers are read: a buffer with an uncorrectable word is marked for retirement, corrected words enter the tracker; and
whether a word was uncorrectable. -/
def State.readCanvas (s : State) (ps : List Nat) : State × Bool :=
  ps.foldl (fun (acc : State × Bool) b =>
    let here (a : Nat) : Bool := a / 256 == ptrIndex b
    let s1 := (acc.1.badWords.canvasCe.filter here).foldl (fun s _ => s.trackCe b) acc.1
    if acc.1.badWords.canvasUe.any here then ((s1.wr F.PAL_ERR_STATUS.CANVAS_UE 0 1).markBad b, true) else (s1, acc.2)) (s, false)

/-- R290: packet `k` is read from Canvas. -/
def State.serveCanvas (s : State) (k : Nat) : State :=
  match s.pkt k with
  | none => s
  | some p =>
    let r := s.readCanvas p.canvas
    let s1 := r.1.setPkt k { p with canvas := [], err := p.err || r.2, data := s.getOctets p.canvas p.length }
    s1.freeOwned p.canvas

/-- R287, R341: packet `k` is read from DRAM: its buffers' words, and the bursts of its octets, for real-time port `rt`. -/
def State.serveDram (s : State) (k rt : Nat) : State :=
  match s.pkt k with
  | none => s
  | some p =>
    let r := p.dram.foldl (fun (acc : State × Bool) b =>
      let t := acc.1.readDirect (acc.1.bufChannel (ptrIndex b)) [acc.1.bufMeta (ptrIndex b)]
      if t.2 = [] then (t.1, acc.2) else (t.1.markBad b, true)) (s, false)
    let bursts := s.segmentBursts p.dram p.length
    (r.1.setPkt k { p with loc := .reading, reads := bursts.length, spoilt := r.2, fromDram := true }).dramPutAll false rt (.serve k) bursts

/-- R281 to R290, R304, R325: the oldest packet of queue `q` leaves it. Its number, and where it is read: 0 Canvas, 1 a run-ahead copy,
2 DRAM. -/
def State.takeHead (s : State) (q rt : Nat) : State × Option (Nat × Nat) :=
  let s0 := s.advanceHead q
  let x := s0.queue q
  match x.packets with
  | [] => (s0, none)
  | k :: _ =>
    match s0.pkt k with
    | none => (s0, none)
    | some p =>
      let fromDram := x.head.isEmpty && x.spill.contains k
      let x1 := { x with
        depth := x.depth - p.length
        head := x.head.filter (· != k), spill := x.spill.filter (· != k), tail := x.tail.filter (· != k)
        copies := x.copies.filter (fun c => c.1 != k)
        recent := (x.recent.filter (fun (r : Nat × Nat) => decide (s.now < r.1 + us 10))) ++ [(s.now, p.length)] }
      let x2 := if fromDram then x1.rejoin else x1
      let st := if x2.packets = [] then (if cfgEn (s0.queueCfg q) then 1 else 0) else x2.state
      -- R287: the selection wins against a copy that has not landed
      let s1 := if x.copies.any (fun c => c.1 == k) then s0.undoCopy k 3 else s0
      let s2 := s1.setQueue q { x2 with state := st }
      let s3 := if fromDram then s2.serveDram k rt else s2.serveCanvas k
      (s3.advanceHead q, some (k, if fromDram then 2 else if p.ahead then 1 else 0))

/-- R615: packet `p`, still arriving, may be cut through to port node `n`: its ingress port is at least as fast as the exit. -/
def State.cutsThrough (s : State) (n : Nat) (p : Pkt) : Bool :=
  p.origin == 0 && decide (s.nodeKind n < 3) && p.dram == [] && decide (s.exitMbps n * 1000 ≤ s.portKbps p.rx.inPort)

/-- R615: the head of queue `q` may be dequeued to node `n`: it is complete, or, where `arriving`, is cut through. -/
def State.mayLeave (s : State) (n q : Nat) (arriving : Bool) : Bool :=
  !arriving || (match (s.queue q).packets with
    | k :: _ => (match s.pkt k with | some p => s.cutsThrough n p | none => false)
    | [] => false)

/-- PORT_SELECTION (R287, R305, R306, R313, R615): port node `n` selects a packet, which is read from Canvas or, over the time its reads take,
from DRAM; `arriving`: flits of it are still on their way into Canvas. -/
def execPortSelection (n : Nat) (arriving : Bool) (s : State) : Result :=
  .next <|
    if s.halted || !s.on F.SCH_PNODE_CFG.EN n || s.nodeState n != 1 || !(s.portNode n).allowed then s
    else
      match pick (s.subCands n) with
      | none => s
      | some u =>
        match pick (s.queueCands u.idx) with
        | none => s
        | some q =>
          let len := match (s.queue q.idx).packets with | k :: _ => s.lenOf k | [] => 0
          if !s.nodeCredit n len || !s.mayLeave n q.idx arriving then s
          else
            let s1 := s.chargeSelection n u.idx q.idx (s.leff n len)
            match s1.takeHead q.idx (s1.rtPort n q.idx) with
            | (s2, none) => s2
            | (s2, some (k, source)) =>
              match s2.pkt k with
              | none => s2
              | some p =>
                let s3 := (s2.trace k 5 0 [q.idx, (s.now - p.enqAt) / 65536, source]).sample 10 n
                match s3.pkt k with
                | none => s3
                | some p1 =>
                  (s3.setPkt k { p1 with
                    loc := if source = 2 then .reading else .seamDown, node := n, cut := arriving, inFifo := 0, seq := s3.nextSeq }).setPortNode n
                    { s3.portNode n with out := s3.nodeOut n ++ [k] }

/-! ### Spill and run-ahead (R281 to R288) -/

/-- R281, R290: packet `k`, the oldest of T, is copied into DRAM buffers `bs` and linked into S. -/
def State.spillTo (s : State) (q k : Nat) (p : Pkt) (bs : List Nat) : State :=
  let x := s.queue q
  let r := s.readCanvas p.canvas
  let s1 := (r.1.putOctets bs (s.getOctets p.canvas p.length)).dramPutAll true 0 .nothing (s.segmentBursts bs p.length)
  let s2 := (s1.setQueue q { x with spill := x.spill ++ [k], tail := x.tail.filter (· != k) }).freeOwned p.canvas
  (s2.setPkt k { p with canvas := [], dram := bs, err := p.err || r.2 }).incWrap F.PAL_RA_CNT.COUNT 5

/-- SPILL_MOVE (R280, R281): a queue that exceeds its share is split, and the oldest packet of T, when it is complete, goes to S. -/
def execSpillMove (q : Nat) (s : State) : Result :=
  .next <|
    let s0 := s.splitQueue q
    let x := s0.queue q
    match x.tail with
    | [] => s0
    | k :: _ =>
      match s0.pkt k with
      | none => s0
      | some p =>
        if !x.split || !p.rx.arrived || decide (s0.canvasOf q + s0.rd F.PAL_SPILL_CFG.SPILL_HYST * 1024 ≤ s0.shareOf q) then s0
        else
          match s0.allocN 4 4 1 (max 1 ((p.length + 255) / 256)) [] with
          | (s1, none) => s1
          | (s1, some bs) => s1.spillTo q k p bs

/-- R311: octets dequeued from a queue in the last 10 µs. -/
def State.rateOf (s : State) (x : Queue) : Nat :=
  ((x.recent.filter (fun (r : Nat × Nat) => decide (s.now < r.1 + us 10))).map (·.2)).sum

/-- R284: the oldest packets of a list that fit whole in `room` bytes. -/
def fitChunk (len : Nat → Nat) (room : Nat) : List Nat → List Nat
  | [] => []
  | k :: ks => if len k ≤ room then k :: fitChunk len (room - len k) ks else []

/-- R266, R284, R288: Canvas buffers for the copies of a step's packets, all or none. -/
def State.copyBuffers (s : State) : List Nat → State × Option (List (Nat × List Nat))
  | [] => (s, some [])
  | k :: ks =>
    match s.allocN 5 62 0 (max 1 ((s.lenOf k + 255) / 256)) [] with
    | (s1, none) => (s1, none)
    | (s1, some bs) =>
      match s1.copyBuffers ks with
      | (s2, none) => (s2.palFreeAll bs 62, none)
      | (s2, some r) => (s2, some ((k, bs) :: r))

/-- R284, R285: the copy of packet `k` into Canvas buffers `bs` begins: its bursts are read as far as committed work leaves room (R45). -/
def State.copyBegin (s : State) (q k : Nat) (bs : List Nat) : State :=
  match s.pkt k with
  | none => s
  | some p =>
    let bursts := s.segmentBursts p.dram p.length
    let s1 := (s.setPkt k { p with canvas := bs, reads := bursts.length, spoilt := false }).dramPutAll false 0 (.copy k) bursts
    let x := s1.queue q
    s1.setQueue q { x with copies := x.copies ++ [(k, false)] }

/-- R266, R284, R288: a step for the packets `ks`; one that finds the pool empty is cancelled and not made. -/
def State.prefetch (s : State) (q : Nat) (ks : List Nat) : State :=
  match s.copyBuffers ks with
  | (s1, none) => ((s1.incWrap F.PAL_RA_CNT.COUNT 4).undo 2).sample 5 0xFFFF
  | (s1, some r) => (r.foldl (fun s e => s.copyBegin q e.1 e.2) s1).incWrap F.PAL_RA_CNT.COUNT 0

/-- RUN_AHEAD_STEP (R284, R288). -/
def execRunAheadStep (q : Nat) (s : State) : Result :=
  .next <|
    let x := s.queue q
    let landed := (x.copies.filter (·.2)).map (·.1)
    let lead := ((x.head ++ landed).map s.lenOf).sum
    let want := max (s.rd F.PAL_SPILL_CFG.RA_MIN * 1024) (s.rateOf x * s.rd F.PAL_SPILL_CFG.RA_HORIZON / 100)
    if !s.on F.PAL_SPILL_CFG.RA_EN ∨ x.spill = [] ∨ want ≤ lead ∨ x.copies.any (fun c => !c.2) ∨ s.dramStopped then s
    else
      let ks := fitChunk s.lenOf (max 1 (s.rd F.PAL_SPILL_CFG.RA_CHUNK) * 1024)
        (x.spill.filter (fun k => !x.copies.any (fun c => c.1 == k)))
      if ks = [] then s else s.prefetch q ks

/-- RUN_AHEAD_LAND (R287): the oldest copy of the queue that has not landed lands, when its reads have all returned. -/
def execRunAheadLand (q : Nat) (s : State) : Result :=
  .next <|
    let x := s.queue q
    match x.copies.find? (fun c => !c.2) with
    | none => s
    | some c =>
      match s.pkt c.1 with
      | none => s
      | some p =>
        if p.reads ≠ 0 then s
        else
          let s1 := s.putOctets p.canvas (s.getOctets p.dram p.length)
          (s1.setQueue q { x with copies := x.copies.map (fun d => if d.1 = c.1 then (d.1, true) else d) }).advanceHead q

/-! ### The access port (R326 to R329) -/

/-- The number of records of an access object (the table of access objects). -/
def accRange (obj : Nat) : Nat := if obj < 3 then 1048576 else if obj < 6 then 262144 else 16384

/-- R326: a write of SCH_ACC_CMD that is taken starts the access; OP 3 returns BAD_CMD at once. -/
def State.accStart (s : State) : State :=
  if s.rd F.SCH_ACC_CMD.OP = 3 then s.accDone 1 else s.wr F.SCH_ACC_STATUS.BUSY 0 1

/-- Word `j` of SCH_ACC_DATA. -/
def State.accWord (s : State) (j : Nat) : Nat := s.rd F.SCH_ACC_DATA.WORD j

/-- SOJOURN of a queue in ns (the state records). -/
def State.sojourn (s : State) (q : Nat) : Nat :=
  match (s.queue q).packets with
  | [] => 0
  | k :: _ => match s.pkt k with
    | none => 0
    | some p => min ((s.now - p.enqAt) / 65536) 0xFFFFFFFF

/-- A level as 32 bits of two's complement. -/
def level32 (l : Int) : Nat := (l % 2 ^ 32).toNat

/-- The words of a record. -/
def State.accRecord (s : State) (obj i : Nat) : List Nat :=
  match obj with
  | 0 => [s.queueCfg i]
  | 1 => [s.queueSh i % 2 ^ 64, s.queueSh i / 2 ^ 64]
  | 2 =>
    let x := s.queue i
    let nd := s.queueNode i
    [x.depth % 2 ^ 36 + x.packets.length % 2 ^ 28 * 2 ^ 36, level32 nd.level + level32 nd.minLevel * 2 ^ 32,
     nd.tag % 2 ^ 48 + x.state * 2 ^ 48, s.sojourn i + x.drops % 2 ^ 32 * 2 ^ 32]
  | 3 => [s.subCfg i]
  | 4 => [s.subSh i % 2 ^ 64, s.subSh i / 2 ^ 64]
  | 5 =>
    let nd := s.subNode i
    [nd.tag % 2 ^ 48 + ((s.subQueues i).filter s.holds).length * 2 ^ 48, level32 nd.level + level32 nd.minLevel * 2 ^ 32]
  | 6 => [s.queueCfg (voqBase + i)]
  | _ =>
    let x := s.queue (voqBase + i)
    [x.depth % 2 ^ 36 + x.packets.length % 2 ^ 28 * 2 ^ 36, level32 x.cred + s.sojourn (voqBase + i) * 2 ^ 32]

/-- ACC_READ (R326, R328). -/
def execAccRead (s : State) : Result :=
  .next <|
    let i := s.rd F.SCH_ACC_CMD.INDEX
    let obj := s.rd F.SCH_ACC_CMD.OBJ
    if !s.accRuns 0 then s
    else if accRange obj ≤ i then s.accDone 2
    else
      let ws := s.accRecord obj i
      let s1 := (List.range ws.length).foldl (fun s j => s.wr F.SCH_ACC_DATA.WORD j (ws.getD j 0)) s
      s1.accDone 0

/-- A queue or subscriber configuration record as it is stored. -/
def cfgStore (v : Nat) : BitVec 64 := BitVec.ofNat 64 (setBits v 16 16 (cfgWeight v))

/-- R325, R310: EN and BAND of service queue `i` change from record `old` to record `v`. -/
def State.queueCfgApply (s : State) (i old v : Nat) : State :=
  let x := s.queue i
  let st := if cfgEn v then (if x.state = 0 then 1 else x.state) else (if x.state = 1 then 0 else x.state)
  let s1 := s.withSched { s.sched with queueCfg := Sparse.write 0 s.sched.queueCfg i (cfgStore v) }
  let s2 := s1.setQueue i { x with state := st }
  if cfgBand v = cfgBand old then s2
  else s2.setQueueNode i { s2.queueNode i with tag := (s2.subNode (cfgParent v)).vAt (cfgBand v) }

/-- R327, R328: the record of an object is replaced; the code. -/
def State.accReplace (s : State) (obj i : Nat) : State × Nat :=
  let w0 := s.accWord 0
  let sh := shStore (w0 + s.accWord 1 * 2 ^ 64)
  match obj with
  | 0 =>
    let v := setBits (w0 % 2 ^ 50) 14 2 0
    let old := s.queueCfg i
    let full := ((s.subQueues (cfgParent v)).filter (fun q => q != i && cfgEn (s.queueCfg q))).length
    if cfgParent v ≠ cfgParent old ∧ (cfgEn old ∨ s.holds i) then (s, 3)
    else if cfgEn v ∧ 256 ≤ full then (s, 3)
    else (s.queueCfgApply i old v, 0)
  | 1 => ((s.withSched { s.sched with queueShaper := Sparse.write 0 s.sched.queueShaper i sh }), 0)
  | 3 =>
    let v := setBits (setBits (w0 % 2 ^ 41) 1 1 0) 4 12 0
    let old := s.subCfg i
    if cfgParent v ≠ cfgParent old ∧ (cfgEn old ∨ (s.subQueues i).any s.holds) then (s, 3)
    else
      let s1 := s.withSched { s.sched with subCfg := Sparse.write 0 s.sched.subCfg i (cfgStore v) }
      if cfgBand v = cfgBand old then (s1, 0)
      else (s1.setSubNode i { s1.subNode i with tag := (s1.portNode (cfgParent v)).vAt (cfgBand v) }, 0)
  | 4 => ((s.withSched { s.sched with subShaper := Sparse.write 0 s.sched.subShaper i sh }), 0)
  | 6 =>
    let v := w0 % 2 + bitsOf w0 4 4 * 2 ^ 4 + bitsOf w0 8 6 * 2 ^ 8
    let x := s.queue (voqBase + i)
    let st := if cfgEn v then (if x.state = 0 then 1 else x.state) else (if x.state = 1 then 0 else x.state)
    ((s.withSched { s.sched with voqCfg := Sparse.write 0 s.sched.voqCfg i (BitVec.ofNat 64 v) }).setQueue (voqBase + i)
      { x with state := st }, 0)
  | _ => (s, 3)

/-- ACC_WRITE (R327, R328). -/
def execAccWrite (s : State) : Result :=
  .next <|
    let i := s.rd F.SCH_ACC_CMD.INDEX
    let obj := s.rd F.SCH_ACC_CMD.OBJ
    if !s.accRuns 1 then s
    else if accRange obj ≤ i then s.accDone 2
    else let r := s.accReplace obj i; r.1.accDone r.2

/-- ACC_FLUSH (R326, R289): the flush command runs until QUEUE_FLUSH_COMPLETE. -/
def execAccFlush (s : State) : Result :=
  .next <|
    let i := s.rd F.SCH_ACC_CMD.INDEX
    let obj := s.rd F.SCH_ACC_CMD.OBJ
    let q := if obj = 0 then i else voqBase + i
    if !s.accRuns 2 then s
    else if obj ≠ 0 ∧ obj ≠ 6 then s.accDone 1
    else if accRange obj ≤ i then s.accDone 2
    else if (s.queue q).state = 0 then s.accDone 0
    else s.flush q

/-- QUEUE_FLUSH_COMPLETE (R325, R326). -/
def execQueueFlushComplete (q : Nat) (s : State) : Result :=
  .next <|
    if q < voqBase ∧ s.nodeState (s.nodeOf q) = 3 then s else s.flushDone q

/-! ### Sampling (R330) -/

/-- R330: one enabled entry of SCH_WATCH is sampled. -/
def State.sampleQueue (s : State) (i : Nat) : State :=
  let q := if s.on F.SCH_WATCH.VOQ i then voqBase + s.rd F.SCH_WATCH.QUEUE i % 16384 else s.rd F.SCH_WATCH.QUEUE i
  let d := (s.queue q).depth
  let t := s.sojourn q
  let s1 := (s.wr F.SCH_SAMPLE.DEPTH i d).wr F.SCH_SAMPLE.SOJOURN i t
  ((s1.raiseTo F.SCH_SAMPLE.MAX_DEPTH i d).raiseTo F.SCH_SAMPLE.MAX_SOJOURN i t).incWrap F.SCH_SAMPLE.SAMPLES i

/-- QUEUE_SAMPLE (R330): the next sampling time comes. -/
def execQueueSample (s : State) : Result :=
  .next <|
    let per := s.rd F.SCH_SAMPLE_CFG.PERIOD
    if per = 0 then s
    else
      let s1 := s.advanceTo (s.boundary s.sched.sampledAt (us per))
      (List.range 1024).foldl (fun s i => if s.on F.SCH_WATCH.EN i then s.sampleQueue i else s)
        (s1.withSched { s1.sched with sampledAt := s1.now })

end Sys2Proof.Machine
end

