-- ==== Sys2Proof/Machine/Ethernet.lean ====
section
/-!
DEFINITION. Ethernet ports, their MACs, FIFOs and links (chapter 3, R88 to R104, R621).
-/
namespace Sys2Proof.Machine

/-! ### Rates, lanes and FIFO sizes (R91 to R93, R101) -/

/-- R91: the lanes of a SPEED at a LANE_RATE, none where there is no such row. -/
def lanesOf (speed rate : Nat) : Option Nat :=
  match speed, rate with
  | 6, 3 => some 8 | 5, 3 => some 4 | 5, 2 => some 8 | 4, 3 => some 2 | 4, 2 => some 4
  | 3, 3 => some 1 | 3, 2 => some 2 | 3, 1 => some 4 | 2, 2 => some 1 | 1, 1 => some 1 | 0, 0 => some 1
  | _, _ => none

/-- R91: the FEC choices of a row. -/
def fecOk (speed rate fec : Nat) : Bool :=
  if rate = 3 ∨ rate = 2 then fec == 3
  else if rate = 1 ∧ speed = 3 then fec == 2 || fec == 3 || fec == 0
  else if rate = 1 then fec == 2 || fec == 1 || fec == 0
  else fec == 1 || fec == 0

/-- The lanes of port `p` as configured. -/
def State.portLanes (s : State) (p : Nat) : Nat :=
  (lanesOf (s.rd F.ETH_PORT_CFG.SPEED p) (s.rd F.ETH_PORT_CFG.LANE_RATE p)).getD 0

/-- R93: an enable of port `p` with the stored configuration is refused. -/
def State.portRefused (s : State) (p : Nat) : Bool :=
  let speed := s.rd F.ETH_PORT_CFG.SPEED p
  let rate := s.rd F.ETH_PORT_CFG.LANE_RATE p
  match lanesOf speed rate with
  | none => true
  | some n =>
    !fecOk speed rate (s.rd F.ETH_PORT_CFG.FEC p) || decide (p % n ≠ 0) || s.on F.ETH_OCTET_CFG.MODE (p / 8) ||
    (List.range 64).any (fun q => q != p && s.on F.ETH_PORT_CFG.EN q && runsMeet (p, n) (q, s.portLanes q))

/-- ETH_OCTET_CFG.LOCKED of every octet. -/
def State.lockOctets (s : State) : State :=
  (List.range 8).foldl (fun s k =>
    s.wrBit F.ETH_OCTET_CFG.LOCKED k ((List.range 64).any (fun q =>
      (s.on F.ETH_PORT_CFG.EN q && runsMeet (q, s.portLanes q) (8 * k, 8)) ||
      (decide (q < 48) && q / 8 == k && s.on F.LOOM_TREE_CFG.EN q)))) s

/-- R94: a field of the configuration of ingress port `p`, kept at entry `i` of its register, that takes effect at a frame boundary: as it
was for the frame still being received, else as it stands. -/
def State.inForce (s : State) (p : Nat) (f : Fld) (i : Nat) : Nat :=
  match (s.mac p).held with
  | some v => bitsOf v f.lo f.len
  | none => s.rd f i

/-- MAX_FRAME of an ingress port (R94, R101). -/
def State.maxFrame (s : State) (p : Nat) : Nat :=
  if p < 64 then s.inForce p F.ETH_PORT_CFG.MAX_FRAME p
  else if p < 112 then 9728
  else s.inForce p F.FLX_CLIENT_CFG.MAX_FRAME (p - 112)

/-- A frame of ingress port `p` is still being received. -/
def State.receiving (s : State) (p : Nat) : Bool :=
  (s.mac p).order.any (fun k => match s.pkt k with | some q => !q.rx.arrived | none => false)

/-- R94: before the configuration of ingress port `p` changes from `old`, the frame being received keeps it. -/
def State.holdCfg (s : State) (p : Nat) (old : BitVec 320) : State :=
  if s.receiving p && (s.mac p).held.isNone then s.setMac p { s.mac p with held := some old.toNat } else s

/-- R94: the frame boundary of ingress port `p`: its configuration is what its register says. -/
def State.frameEnd (s : State) (p : Nat) : State :=
  if (s.mac p).held.isNone then s else s.setMac p { s.mac p with held := none }

/-- R101: the size of a port FIFO. -/
def State.fifoSize (s : State) (p : Nat) : Nat := (max (s.portKbps p * 4 / 8000) (2 * s.maxFrame p) + 63) / 64 * 64

/-- Counter `j` of a port (below 64), an instance (64 + i) or a client (128 + c) counts `n` (R120). -/
def State.ethCount (s : State) (e j : Nat) (n : Nat := 1) : State := s.incWrap F.ETH_RAW.COUNT (16 * e + j) n

/-! ### PAUSE (R97) -/

/-- FRC units that `quanta` last at a rate: 512 bit times each. -/
def quantaTime (quanta kbps : Nat) : Nat := if kbps = 0 then 0 else quanta * 512 * 1000000 * 65536 / kbps

/-- R97: the fill of an Ethernet port's FIFO stands above XON. -/
def State.aboveXon (s : State) (p : Nat) : Bool :=
  decide (s.fifoSize p * s.inForce p F.ETH_PORT_CFG.XON p < (s.mac p).fill * 100)

/-- R97: the fill of an Ethernet port's FIFO has changed. -/
def State.pauseCheck (s : State) (p : Nat) : State :=
  let m := s.mac p
  let on := s.inForce p F.ETH_PORT_CFG.PAUSE_TX p != 0
  if 64 ≤ p then s
  else if on && !m.pauseSent && decide (s.fifoSize p * s.inForce p F.ETH_PORT_CFG.XOFF p < m.fill * 100) then
    (s.setMac p { m with pauseSent := true, pauseNext := s.now + quantaTime 65535 (s.portKbps p) / 2 }).emit (.pause p 65535)
  else if m.pauseSent && !s.aboveXon p then
    let s1 := s.setMac p { m with pauseSent := false }
    if on then s1.emit (.pause p 0) else s1
  else s

/-- R97, R103: `n` octets, as far as there is room, are written into the FIFO of a port and leave it again with the frame that they belong
to, which is discarded. -/
def State.pausePeak (s : State) (p n : Nat) : State :=
  let m := s.mac p
  let s1 := (s.setMac p { m with fill := min (s.fifoSize p) (m.fill + n) }).pauseCheck p
  (s1.setMac p { s1.mac p with fill := m.fill }).pauseCheck p

/-- PAUSE_REPEAT (R97): half of the quanta have elapsed and the fill is still above XON. -/
def execPauseRepeat (p : Nat) (s : State) : Result :=
  .next <|
    let m := s.mac p
    if 64 ≤ p ∨ !m.pauseSent ∨ s.inForce p F.ETH_PORT_CFG.PAUSE_TX p = 0 ∨ !s.aboveXon p then s
    else
      let s1 := s.advanceTo m.pauseNext
      (s1.setMac p { m with pauseNext := s1.now + quantaTime 65535 (s.portKbps p) / 2 }).emit (.pause p 65535)

/-- PAUSE_QUANTA_EXPIRY (R97). -/
def execPauseQuantaExpiry (p : Nat) (s : State) : Result :=
  .next <|
    let m := s.mac p
    if !m.txPaused then s else (s.advanceTo m.txResume).setMac p { m with txPaused := false }

/-! ### Frames into the port FIFOs (R35, R95 to R103, R525) -/

/-- A packet that has just come to be. -/
def Pkt.fresh (data : List Byte) (rx : Rx) : Pkt where
  data := data
  rx := rx
  loc := .fifo
  coat := false
  stamped := false
  coatGen := 0
  egCoat := false
  egStamped := false
  pass := 0
  pipe := 0
  seq := 0
  hv := []
  drec := []
  early := none
  act := none
  excess := false
  fault := false
  parseDrop := false
  dropStage := none
  lastStage := 0
  charges := []
  carry := ⟨0, 0, 0xFFFFF, 0, 0, 0, 0⟩
  fate := .open
  copies := []
  tag := none
  err := false
  launch := none
  late := false
  enqAt := 0
  canvas := []
  dram := []
  ahead := false
  reads := 0
  spoilt := false
  fromDram := false
  node := 0
  cut := false
  inFifo := 0
  trunc := 0
  origin := 0

/-- What is observed of a frame with no tree or inject metadata (R132). -/
def plainRx (port : Nat) (stamp : BitVec 80) (anchor bad arrived : Bool) (size held : Nat) : Rx :=
  ⟨port, port, stamp, anchor, 0xFFFF, 0xFFFFFF, 0, bad, arrived, false, size, held, stamp.toNat, []⟩

/-- R525: octets that have entered the FIFO of an ingress port. -/
def State.rxOctets (s : State) (p n : Nat) : State :=
  s.withTally { s.tally with rxOctets := Sparse.write 0 s.tally.rxOctets p (Sparse.read 0 s.tally.rxOctets p + n) }

/-- The packet joins the FIFO of its port, last in its order (R35). -/
def State.enterFifo (s : State) (p : Pkt) : State :=
  let port := p.rx.oport
  let n := s.nextPkt
  let m := s.mac port
  let s1 := (s.addPkt p).setMac port { m with fill := m.fill + p.rx.held, order := m.order ++ [n] }
  (if p.rx.arrived then s1.rxOctets port p.rx.size else s1).pauseCheck port

/-- R34: a frame of `size` octets is discarded at the receive MAC. -/
def State.rxError (s : State) (port size : Nat) : State := (s.tally1 port size).discardAt 0

/-- R97: a received PAUSE frame stops the port's transmission for the time its quanta give. -/
def State.pauseReceived (s : State) (p quanta : Nat) : State :=
  let s1 := s.ethCount p 11
  if s.inForce p F.ETH_PORT_CFG.PAUSE_RX p = 0 then s1
  else
    s1.setMac p { s1.mac p with
      txPaused := decide (0 < quanta), txResume := s1.now + quantaTime quanta (s.portKbps p) }

/-- PAUSE_FRAME_RECEIVE (R97, R621): a PAUSE frame, of 64 octets, arrives at port `p`; while LINK is 0 it is a receive error. -/
def execPauseFrameReceive (p quanta : Nat) (s : State) : Result :=
  .next (if 64 ≤ p then s else if !s.on F.ETH_PORT_STATUS.LINK p then s.rxError p 64 else s.pauseReceived p (quanta % 65536))

/-- R103: FIFO_DROP is set, of an Ethernet port, and the drop is counted. -/
def State.markDrop (s : State) (port : Nat) : State :=
  if port < 64 then (s.wr F.ETH_PORT_STATUS.FIFO_DROP port 1).ethCount port 4 else s

/-- R103: a frame of `size` octets finds no room in the FIFO. -/
def State.fifoDrop (s : State) (port size : Nat) : State :=
  ((((s.pausePeak port size).markDrop port).tally1 (256 + port) size)).discardAt 1

/-- R95: what the counters of a port say of a complete frame of `size` octets (the counter index of chapter 3). -/
def State.countFrame (s : State) (port size : Nat) (fcsGood : Bool) : State :=
  if 112 ≤ port then (s.ethCount (port + 16) 0).ethCount (port + 16) 1 size
  else if s.maxFrame port < size ∨ size < 64 then s.ethCount port 3
  else if !fcsGood then s.ethCount port 2
  else (s.ethCount port 0).ethCount port 1 size

/-- The link of an ingress port with a MAC of its own is up. -/
def State.portUp (s : State) (port : Nat) : Bool :=
  if port < 64 then s.on F.ETH_PORT_STATUS.LINK port else decide (112 ≤ port) && decide (port < 176) && (s.mac port).up

/-- A PAUSE frame with its quanta, or a PFC frame (R96, R97). -/
def macControl (octets : List Byte) : Option (Option Nat) :=
  if natBE (padTo 2 (octets.drop 12)) = 0x8808 ∧ natBE (octets.take 6) = 0x0180C2000001 then
    match natBE (padTo 2 (octets.drop 14)) with
    | 0x0001 => some (some (natBE (padTo 2 (octets.drop 16))))
    | 0x0101 => some none
    | _ => none
  else none

/-- R96, R97: a MAC control frame that has arrived whole and good: it goes no further. A FlexE client has no counter of such frames and
obeys no PAUSE. -/
def State.macControlled (s : State) (port : Nat) (octets : List Byte) : State :=
  if 64 ≤ port then s
  else
    match macControl octets with
    | some (some quanta) => s.pauseReceived port quanta
    | _ => s.ethCount port 11

/-- FRAME_RECEIVE (R95, R96, R97, R103, R469, R621): the MAC of `port` receives the octets of a frame without its FCS. `whole`: they
are all of it; where not, the rest comes with CHARGE_TRUE_UP. `sub` places the end of the SFD in sixteenths of a nanosecond. -/
def execFrameReceive (port : Nat) (octets : List Byte) (fcsGood whole : Bool) (sub : Nat) (s : State) : Result :=
  .next <|
    let size := octets.length + 4
    if (64 ≤ port ∧ port < 112) ∨ 176 ≤ port ∨ (port < 64 ∧ s.on F.ETH_PORT_CFG.FLEXE_PHY port) then s
    else if !s.portUp port then s.rxError port size
    else if whole ∧ size < 64 then (if port < 64 then s.ethCount port 3 else s).rxError port size
    else if whole ∧ fcsGood ∧ (macControl octets).isSome then s.macControlled port octets
    else
      let bad := whole && (!fcsGood || decide (s.maxFrame port < size))
      let s1 := if whole then s.countFrame port size fcsGood else s
      let held := if whole then size else octets.length
      if s.fifoSize port < (s.mac port).fill + held then s1.fifoDrop port size
      else if bad then (s1.pausePeak port size).rxError port size
      else
        s1.enterFifo (Pkt.fresh octets
          (plainRx port (s.stampAt sub) (s.anchor == 1) false whole (if whole then size else 0) held))

/-- R102, R621: a frame still arriving is cut short, or found bad: it is discarded at once where its header has not been admitted, and
else at the ingress reorder point. -/
def State.spoil (s : State) (n : Nat) (p : Pkt) : State :=
  if p.loc = .fifo ∧ p.pass = 0 then ((s.freeFifo n p).tally1 p.rx.inPort p.rx.size).discardPkt n 0 0
  else s.setPkt n { p with rx := { p.rx with bad := true, arrived := true } }

/-- R103: the octets of frame `p` that had been written by the FRC value `t` beyond its first, of the `more` that came in all: they come at
the port's rate. -/
def State.writtenBy (s : State) (p : Pkt) (more t : Nat) : Nat :=
  min more ((t - p.rx.since) * s.portKbps p.rx.inPort / (8000000 * 65536))

/-- R103: some octet of the last `more` of frame `p` found no room when it was written: before a release of its FIFO, or at the end. -/
def State.overran (s : State) (p : Pkt) (more : Nat) : Bool :=
  let port := p.rx.inPort
  decide (s.fifoSize port < (s.mac port).fill + more) ||
    p.rx.fills.any (fun e => decide (s.fifoSize port < e.2 + s.writtenBy p more e.1))

/-- R103: frame `n`, of `size` octets, overflows: its space is freed before the next frame is written; it is discarded at once, or at the
ingress reorder point where its header has been admitted. -/
def State.overrun (s : State) (n : Nat) (p : Pkt) (more size : Nat) : State :=
  let port := p.rx.inPort
  let s1 := (s.pausePeak port more).markDrop port
  let m := s1.mac port
  let q : Pkt := { p with rx := { p.rx with overflow := true, arrived := true, held := 0, size := size } }
  let s2 := (s1.setMac port { m with fill := m.fill - p.rx.held }).setPkt n q
  (if p.loc = .fifo ∧ p.pass = 0 then ((s2.freeFifo n q).tally1 (256 + port) size).discardPkt n 1 0 else s2).pauseCheck port

/-- CHARGE_TRUE_UP (R190, R102, R103): the packet has fully arrived: `tail` are its remaining octets. Each listed policer and byte
counter is charged with L − C, whatever the packet's fate. -/
def execChargeTrueUp (n : Nat) (tail : List Byte) (fcsGood : Bool) (s : State) : Result :=
  .next <|
    match s.pkt n with
    | none => s
    | some p =>
      if p.rx.arrived then s
      else
        let data := p.data ++ tail
        let size := data.length + 4
        let port := p.rx.inPort
        let p1 : Pkt := { p with data := data, charges := [], rx := { p.rx with size := size } }
        if p.loc = .fifo ∧ 64 ≤ size ∧ fcsGood ∧ (macControl data).isSome then
          (((s.freeFifo n p).dropPkt n).macControlled port data).pauseCheck port |>.frameEnd port
        else
          let s1 := (s.countFrame port size fcsGood).trueUp data.length p.charges
          let bad := !fcsGood || decide (s.maxFrame port < size) || decide (size < 64)
          let more := tail.length + 4
          (if p.loc = .gone then s1.dropPkt n
            else if s1.overran p more then s1.overrun n p1 more size
            else
              let m := s1.mac port
              let p2 : Pkt := { p1 with rx := { p1.rx with arrived := !bad, held := p.rx.held + more, fills := [] } }
              let s2 := ((s1.setMac port { m with fill := m.fill + more }).setPkt n p2).rxOctets port size
              ((if bad then (s2.pauseCheck port).spoil n p2 else s2).pauseCheck port)).frameEnd port

/-! ### Links (R98 to R100, R621) -/

/-- R98: a down condition is present on an Ethernet port. -/
def State.portBad (s : State) (p : Nat) : Bool :=
  !s.on F.ETH_PORT_STATUS.BLOCK_LOCK p || !s.on F.ETH_PORT_STATUS.AM_LOCK p || s.on F.ETH_PORT_STATUS.HI_BER p ||
  s.on F.ETH_PORT_STATUS.LF_RX p

/-- R98: the times since which a down condition has been present or absent follow the condition. -/
def State.watchLink (s : State) (p : Nat) (bad : Bool) : State :=
  let m := s.mac p
  if bad then s.setMac p { m with badSince := some (m.badSince.getD s.now), goodSince := none }
  else s.setMac p { m with badSince := none, goodSince := some (m.goodSince.getD s.now) }

/-- R621: frames of port `p` still being received are cut short. -/
def State.cutShort (s : State) (p : Nat) : State :=
  (s.mac p).order.foldl (fun s n =>
    match s.pkt n with
    | none => s
    | some k => if k.rx.arrived then s else
        (s.trueUp k.data.length k.charges).spoil n
          { k with charges := [], rx := { k.rx with size := k.data.length } }) s |>.frameEnd p

/-- The port node of an Ethernet port or FlexE client. -/
def State.portNodeOf (s : State) (p : Nat) : Option Nat := if p < 64 then s.nodeFor 0 p else s.nodeFor 2 (p - 112)

/-- R98, R100: LINK of a port or client becomes 0. -/
def State.linkDown (s : State) (p : Nat) (cut : Bool) : State :=
  let s1 := if p < 64 then
      ((s.wr F.ETH_PORT_STATUS.LINK p 0).setCause F.ETH_PORT_STATUS.LINK_CHG p (64 + p)).ethCount p 10
    else s.setMac p { s.mac p with up := false }
  let s2 := s1.cutShort p
  match s2.portNodeOf p with
  | some n => s2.nodeLost n cut
  | none => s2

/-- R98, R100: LINK of a port or client becomes 1. -/
def State.linkUp (s : State) (p : Nat) : State :=
  let s1 := if p < 64 then
      (s.wr F.ETH_PORT_STATUS.LINK p 1).setCause F.ETH_PORT_STATUS.LINK_CHG p (64 + p)
    else s.setMac p { s.mac p with up := true }
  match s1.portNodeOf p with
  | some n => s1.nodeReturned n
  | none => s1

/-- LINK_DOWN (R98, R99): a down condition of a port, or of FlexE client c as port 112 + c, has persisted for DN_DEBOUNCE. `cut`: a
frame is being transmitted. -/
def execLinkDown (p : Nat) (cut : Bool) (s : State) : Result :=
  .next <|
    match (s.mac p).badSince with
    | none => s
    | some t => if !s.portUp p then s else (s.advanceTo (t + us (s.rd F.ETH_LINK_TIMING.DN_DEBOUNCE))).linkDown p cut

/-- LINK_UP (R30, R98): no down condition has been present for UP_HOLD. A failed Seam holds every port down. -/
def execLinkUp (p : Nat) (s : State) : Result :=
  .next <|
    match (s.mac p).goodSince with
    | none => s
    | some t =>
      if s.halted ∨ s.portUp p ∨ (p < 64 ∧ !s.on F.ETH_PORT_CFG.EN p) ∨ (64 ≤ p ∧ !s.on F.FLX_CLIENT_CFG.EN (p - 112)) then s
      else (s.advanceTo (t + us (s.rd F.ETH_LINK_TIMING.UP_HOLD))).linkUp p

/-- R97 map: AM_LOCK of a port whose markers read as `am`: on a single-lane port without RS-FEC it follows block lock. -/
def State.amLock (s : State) (p : Nat) (bl am : Bool) : Bool :=
  am || (bl && s.portLanes p == 1 && decide (s.rd F.ETH_PORT_CFG.FEC p < 2))

/-- PCS_STATUS_CHANGE (R98 to R100, R121): what the PCS of port `p` now reports, and what its FEC has counted since it last did: codewords
corrected and uncorrectable, and symbols corrected; of FlexE client c, as port 112 + c, the errored blocks received. Remote Fault is
sent while Local Fault is received. `errs` holds HI_BER and those three counts. -/
def execPcsStatusChange (p : Nat) (blockLock amLock lf rf : Bool) (errs : Bool × Nat × Nat × Nat) (s : State) : Result :=
  .next <|
    let (hiBer, corrected, uncorrectable, symbols) := errs
    if 112 ≤ p ∧ p < 176 then s.ethCount (p + 16) 4 uncorrectable
    else if 64 ≤ p then s
    else
      let was := s.on F.ETH_PORT_STATUS.LF_RX p
      let s0 := ((s.ethCount p 7 corrected).ethCount p 8 uncorrectable).ethCount p 9 symbols
      let s1 := (s0.wrBit F.ETH_PORT_STATUS.BLOCK_LOCK p blockLock).wrBit F.ETH_PORT_STATUS.AM_LOCK p (s.amLock p blockLock amLock)
      let s2 := ((s1.wrBit F.ETH_PORT_STATUS.LF_RX p lf).wrBit F.ETH_PORT_STATUS.RF_RX p rf).wrBit F.ETH_PORT_STATUS.HI_BER p hiBer
      let s3 := s2.watchLink p (s2.portBad p)
      if lf != was then s3.emit (.remoteFault p lf) else s3

/-! ### Port configuration (R93, R94, R98) -/

/-- What ETH_PORT_CFG stores of a value written, EN not yet set. -/
def portCfgStored (v : Nat) : BitVec 320 :=
  let xoff := bitsOf v 40 7
  let xon := bitsOf v 48 7
  BitVec.ofNat 320
    (bitsOf v 1 8 * 2 + min (bitsOf v 16 14) 9728 * 2 ^ 16 + bitsOf v 32 2 * 2 ^ 32 + xoff * 2 ^ 40 +
     (if xon < xoff then xon else xoff - 1) * 2 ^ 48)

/-- A write of ETH_PORT_CFG(p). `cut`: a frame is being transmitted. -/
def State.portCfgWrite (s : State) (p v : Nat) (cut : Bool) : State :=
  let en := s.on F.ETH_PORT_CFG.EN p
  if en ∧ bitsOf v 1 8 ≠ bitsOf (s.reg .ETH_PORT_CFG p).toNat 1 8 then s.wr F.ETH_PORT_STATUS.CFG_ERR p 1
  else
    let s1 := (if en then s.holdCfg p (s.reg .ETH_PORT_CFG p) else s).setReg .ETH_PORT_CFG p (portCfgStored v)
    if v.testBit 0 then
      if !en && s1.portRefused p then s1.wr F.ETH_PORT_STATUS.CFG_ERR p 1
      else
        let s2 := (s1.wr F.ETH_PORT_CFG.EN p 1).lockOctets
        if en then s2 else s2.watchLink p (s2.portBad p)
    else
      let s2 := if en then s1.lockOctets else s1
      if en && s.on F.ETH_PORT_STATUS.LINK p then s2.linkDown p cut else s2

/-- PORT_ENABLE (R93, R94): a write of ETH_PORT_CFG(p) with EN 1. -/
def execPortEnable (p v : Nat) (s : State) : Result :=
  .next (if 64 ≤ p then s else s.landed .ETH_PORT_CFG (fun s => s.portCfgWrite p (setBits v 0 1 1) false))

/-- PORT_DISABLE (R98, R94): a write of ETH_PORT_CFG(p) with EN 0. -/
def execPortDisable (p v : Nat) (cut : Bool) (s : State) : Result :=
  .next (if 64 ≤ p then s else s.landed .ETH_PORT_CFG (fun s => s.portCfgWrite p (setBits v 0 1 0) cut))

end Sys2Proof.Machine
end

