-- ==== Sys2Proof/Machine/Path.lean ====
section
/-!
DEFINITION. The packet path between the blocks: the queues of R33, the ingress reorder point (R35, R151, R184, R185, R195), the entry to
the egress stages (R193, R194) and the frame's transmission (R473, R615).
-/
namespace Sys2Proof.Machine

/-! ### Punts (R195) -/

/-- R195: buckets of packets refill at packets per second. -/
def punterDen : Nat := 1000000000 * 65536

/-- R195: a packet bound for the host under `reason` passes its reason's bucket and the aggregate bucket, or is counted as a punt
drop. `override` is COPY_RING. -/
def State.puntPolice (s : State) (p : Pkt) (kind reason override : Nat) : State × Option Punt :=
  let drop (s : State) : State × Option Punt := ((s.tally1 (576 + reason) p.data.length).discardAt 4, none)
  if !s.on F.GLZ_REASON.EN reason then drop s
  else
    let a := s.bucketNow (Sparse.read none s.reasons reason) (s.rd F.GLZ_REASON.RATE reason) punterDen
      (s.rd F.GLZ_REASON.BURST reason)
    let g := s.bucketNow s.puntAgg (s.rd F.GLZ_PUNT_AGG.RATE) punterDen (s.rd F.GLZ_PUNT_AGG.BURST)
    if a.level < 1 ∨ g.level < 1 then
      drop ((s.withReasons (Sparse.write none s.reasons reason (some a))).withPuntAgg (some g))
    else
      let s1 := (s.withReasons (Sparse.write none s.reasons reason (some { a with level := a.level - 1 }))).withPuntAgg
        (some { g with level := g.level - 1 })
      let ring := if override = 0xFF then s.rd F.GLZ_REASON.RING reason else override % 32
      if s1.ringFull ring then drop s1 else (s1, some ⟨kind, reason, ring⟩)

/-! ### The ingress reorder point (R35, R185) -/

/-- The rebuilt packet: the edited head and the unchanged remainder, cut by a length check that trims (R151, R184). -/
def rebuild (p : Pkt) : List Byte :=
  let headLen := hvGet p.drec 0x18 2
  let cut := hvGet p.drec 0x1A 2
  let lenEnd := hvGet p.hv 0x124 2
  let trims := hvHas p.hv 5 && hvHas p.hv 6 && decide (lenEnd < p.data.length)
  let rest := if trims then p.data.take lenEnd else p.data
  let head := Sparse.octets p.hv 0 headLen
  (if trims && decide (lenEnd < cut) then head.take (headLen - (cut - lenEnd)) else head) ++ rest.drop cut

/-- The fields of DREC that travel with the packet (R194). -/
def carryOf (d : Sparse Byte) : Carry :=
  ⟨hvGet d 0x04 2 % 2048, hvGet d 0x08 4 % 2 ^ 20, hvGet d 0x0C 4 % 2 ^ 20, hvGet d 0x10 1, hvGet d 0x11 1, hvGet d 0x12 1,
   hvGet d 0x14 2⟩

/-- The settlement of a packet: what it becomes, or the row and reason of R34 it is discarded under, with the pair that counts it. -/
inductive Settled where
  | goes (fate : Fate) (copies : List Copy) (data : List Byte)
  | discarded (row reason : Nat) (pair : Option Nat)
  deriving DecidableEq, Repr

/-- The profile of a packet's pass, as an entry of SKT_PROFILE. -/
def profileIndex (p : Pkt) : Nat := bankNo p.coat * 64 + hvGet p.hv 0x102 1

/-- To the host under a reason, as a punted packet (KIND 0); COPY_RING overrides its reason's ring (R195). -/
def State.settleHost (s : State) (p : Pkt) (reason : Nat) (data : List Byte) : State × Settled :=
  match s.puntPolice p 0 reason (hvGet p.drec 0x03 1) with
  | (s1, some t) => (s1, .goes (.host t) [] data)
  | (s1, none) => (s1, .discarded 4 reason none)

/-- R147, R148: a program that ended with a reason or with DROP. -/
def State.settleException (s : State) (p : Pkt) : State × Settled :=
  let r := hvGet p.hv 0x11C 1 % 64
  let act := (r == 4 && s.on F.SKT_PROFILE.SHORT_ACT (profileIndex p)) || (r == 5 && s.on F.SKT_PROFILE.LEN_ACT (profileIndex p))
  if p.parseDrop || act then (s, .discarded 2 r (some (512 + r))) else s.settleHost p r p.data

/-- R186, R195: the copy and the mirrors that stand, the copy past its policers. -/
def State.settleCopies (s : State) (p : Pkt) : State × List Copy :=
  let ms := ((mirrors p).filter (fun k => s.on F.GLZ_MIRROR.EN k)).map Copy.mirror
  if dflag p 2 then
    match s.puntPolice p 1 (hvGet p.drec 0x02 1 % 64) (hvGet p.drec 0x03 1) with
    | (s1, some t) => (s1, .host t :: ms)
    | (s1, none) => (s1, ms)
  else (s, ms)

/-- R37, R185 to R187: the main packet once its copies are made. -/
def State.settleMain (s : State) (p : Pkt) : State × Settled :=
  let data := rebuild p
  if dflag p 1 then (s, .discarded 3 (hvGet p.drec 0x01 1) (some (640 + p.dropStage.getD p.lastStage)))
  else if dflag p 3 then
    if 3 ≤ p.pass then (s, .discarded 5 0 (some 768)) else (s, .goes .recirc [] data)
  else if dflag p 0 then (s, .goes .forward [] data)
  else if s.rd F.GLZ_FAULT_CFG.NODISP_REASON = 0 then (s, .discarded 3 0 (some (640 + p.lastStage)))
  else s.settleHost p (s.rd F.GLZ_FAULT_CFG.NODISP_REASON) data

/-- R102, R103, R147 to R152, R181, R185: the fate of a packet that has fully arrived. -/
def State.settle (s : State) (p : Pkt) : State × Settled :=
  let lenEnd := hvGet p.hv 0x124 2
  if p.rx.bad then (s, .discarded 0 0 (some p.rx.inPort))
  else if p.rx.overflow then (s, .discarded 1 0 (some (256 + p.rx.inPort)))
  else if p.excess then (s, .discarded 3 0 none)
  else if hvHas p.hv 7 then s.settleException p
  else if hvHas p.hv 5 && decide (p.data.length < lenEnd) then
    let s1 := s.incWrap F.SKT_EXC_CNT.COUNT 5
    if s.on F.SKT_PROFILE.LEN_ACT (profileIndex p) then (s1, .discarded 2 5 (some 517)) else s1.settleHost p 5 (rebuild p)
  else if p.fault then
    if s.rd F.GLZ_FAULT_CFG.ACT_REASON = 0 then (s, .discarded 3 0 (some (640 + p.lastStage)))
    else s.settleHost p (s.rd F.GLZ_FAULT_CFG.ACT_REASON) (rebuild p)
  else
    let c := s.settleCopies p
    let m := c.1.settleMain p
    match m.2 with
    | .goes f _ d => (m.1, .goes f c.2 d)
    | .discarded row _ pair =>
      if c.2 = [] then m
      else
        let s1 := match pair with | some i => m.1.tally1 i p.data.length | none => m.1
        (s1.discardAt row, .goes .copiesOnly c.2 (rebuild p))

/-- Octets of packets at a place in one pipe (R33). -/
def State.octetsAt (s : State) (pipe : Nat) (l : Loc) : Nat :=
  (s.pkts.map (fun e => match e.2 with
    | some p => if p.loc = l ∧ p.pipe = pipe then p.data.length else 0
    | none => 0)).sum

/-- R185, R189, R190: the settled packet is discarded; an excess packet still arriving is owed its true-up. -/
def State.settleDiscard (s : State) (n : Nat) (p : Pkt) (row reason : Nat) (pair : Option Nat) : State :=
  let s2 := match pair with | some i => s.tally1 i p.data.length | none => s
  let s3 := (s2.freeFifo n p).discardPkt n row reason
  let s4 := if p.rx.arrived ∨ p.charges = [] then s3
    else s3.setPkt n { p with loc := .gone, stamped := false, tag := none }
  s4.pauseCheck p.rx.oport

/-- R185: the settled packet leaves for the Seam with its fate, its copies and its rebuilt octets. -/
def State.settleGo (s : State) (n : Nat) (p : Pkt) (fate : Fate) (copies : List Copy) (data : List Byte) : State :=
  match s.pkt n with
  | none => s
  | some q =>
    let t := if fate = .forward then s.tcwIngress q.hv q.rx data else (s, data)
    let u := if fate = .recirc then (t.1, q) else t.1.unstamp q
    let s2 := u.1.setPkt n { u.2 with
      loc := .seamUp, seq := s.nextSeq, data := t.2, fate := fate, copies := copies, carry := carryOf q.drec, charges := [] }
    (s2.freeFifo n p).pauseCheck p.rx.oport

/-- INGRESS_REORDER_SETTLE (R33, R35, R151, R181, R185, R195, R472): packet `n`, first of its port's order, is settled; where it goes on it
enters the Seam against the credit that its rebuilt octets need, and waits unsettled where there is none. -/
def execIngressReorderSettle (n : Nat) (s : State) : Result :=
  .next <|
    match s.pkt n with
    | none => s
    | some p =>
      if s.halted ∨ p.loc ≠ .reorder ∨ (s.mac p.rx.oport).order.head? ≠ some n ∨ (!p.rx.arrived ∧ !p.excess) then s
      else
        let s0 := s.trace n 3 0 [hvGet p.drec 0 1, hvGet p.drec 1 1, hvGet p.drec 2 1, hvGet p.drec 4 2, hvGet p.drec 8 4,
          hvGet p.drec 0x0C 4]
        match s0.settle p with
        | (s1, .discarded row reason pair) => s1.settleDiscard n p row reason pair
        | (s1, .goes fate copies data) =>
          if 98304 < s.octetsAt p.pipe .seamUp + data.length then s else s1.settleGo n p fate copies data

/-- The egress header vector (R194); FRAME_LEN of a packet cut through is not known (R132, R615). -/
def egressVector (p : Pkt) (b : Bool) : Sparse Byte :=
  let len := p.data.length
  let h := Sparse.putOctets [] 0 (p.data.take 256)
  let h := hvSet h 0x100 2 p.node
  let h := hvSet h 0x102 1 p.carry.eprof
  let h := hvSet h 0x104 2 (if p.cut then 0xFFFF else len)
  let h := hvSet h 0x106 2 (min len 256)
  let h := hvSet h 0x108 1 p.carry.cls
  let h := hvSet h 0x109 1 p.carry.dp
  let h := hvSet h 0x10A 2 p.carry.etag
  let h := hvSet h 0x10C 4 p.carry.adj
  hvSet h 0x112 1 (bankNo b)

/-- EGRESS_ENTRY (R36, R47, R193, R213, R243): packet `n` is stamped and its adjacency dereferenced. -/
def execEgressEntry (n : Nat) (s : State) : Result :=
  .next <|
    match s.pkt n with
    | none => s
    | some p =>
      if p.loc ≠ .egressIn ∨ s.coatState = 2 ∨ s.halted ∨ !s.inPipeOrder p true (· == .egressIn) then s
      else
        let b := s.activeBank
        let e := bankNo b * 64 + p.carry.eprof % 64
        let hv := egressVector p b
        let d0 := hvSet (startDrec (min p.data.length 256)) 0x13 1 (s.rd F.GLZ_EPROF.TPL e)
        let d := hvSet d0 0x14 2 p.carry.etag
        let q : Pkt := { p with
          loc := .egStageIn 1, seq := s.nextSeq, hv := hv, drec := d, egCoat := b, egStamped := true, act := none, early := none
          fault := false, dropStage := none, lastStage := s.stageIndex p true 1, charges := [] }
        let s1 := (s.setPkt n q).setInflight b (s.inflight b + 1)
        if s.on F.GLZ_EPROF.ADJ_EN e ∧ p.carry.adj ≠ 0xFFFFF then
          let w := adjWord p.carry.adj
          let s2 := s1.sramTouch w 2
          let s3 := s2.withTables { s2.tables with used := Sparse.write false s2.tables.used p.carry.adj true }
          let v := s3.sramVal w 2
          if s3.sramUe w 2 ∨ !v.testBit 127 then (s3.tally1 775 p.data.length).discardPkt n 3 0
          else s3.setPkt n { q with hv := hvSet hv 0x180 16 v }
        else s1

/-! ### The queues between blocks (R33) -/

/-- R33: the header vectors before a stage of a pipe, of the ingress stages or of a node's egress stages. -/
def State.stageDepth (s : State) (pipe : Nat) (l : Loc) : Nat := s.countPkts (fun p => p.loc == l && p.pipe == pipe)
def State.egDepth (s : State) (pipe : Nat) (f : Loc → Bool) : Nat :=
  s.countPkts (fun p => f p.loc && s.rd F.GLZ_EGR_PIPE.PIPE p.node == pipe)

/-- R193: the first packet in the order of port node `nd` that is not yet whole in the transmit FIFO. -/
def State.exitTurn (s : State) (nd : Nat) : Option Nat :=
  (s.nodeOut nd).find? (fun k => match s.pkt k with
    | some q => q.loc != .txFifo || q.inFifo != q.data.length
    | none => false)

/-- A packet leaves the last egress stage: it is discarded, or goes on to its MAC or Loom in its node's order, flit by flit against the
credit of the transmit FIFO (R33, R193, R615). -/
def State.leaveEgress (s : State) (n : Nat) (p : Pkt) : State :=
  if p.fault || dflag p 1 then
    ((s.trueUp p.data.length p.charges).tally1 (640 + (if p.fault then none else p.dropStage).getD p.lastStage) p.data.length).discardPkt n 3
      (if p.fault then 0 else hvGet p.drec 0x01 1)
  else if s.exitTurn p.node ≠ some n ∨ s.txFree p.node < 64 then s
  else
    let late := p.late || (match p.launch with | some f => decide (f < s.now) | none => false)
    let (s1, hv) := (s.setInflight p.egCoat (s.inflight p.egCoat - 1)).tcwEgress p.hv (s.nodeKind p.node == 0 || s.nodeKind p.node == 2)
      (rebuild p).length
    s1.setPkt n (s.intoFifo { p with hv := hv, data := rebuild p, egStamped := false, late := late, inFifo := 0 })

/-- R615: the rest of frame `n`, the only one of its node not whole in the FIFO, follows as there is room. -/
def State.restOfFrame (s : State) (n : Nat) (p : Pkt) : State := s.setPkt n (s.intoFifo p)

/-- R525: octets that have left through a port node. -/
def State.txOctets (s : State) (n k : Nat) : State :=
  s.withTally { s.tally with txOctets := Sparse.write 0 s.tally.txOctets n (Sparse.read 0 s.tally.txOctets n + k) }

/-- A packet that has crossed the Seam to the forwarding die goes where its port node's kind says (R299). -/
def State.arriveDown (s : State) (n : Nat) (p : Pkt) : State :=
  match s.nodeKind p.node with
  | 3 => s.setPkt n { p with loc := .hostOut (s.nodeTarget p.node) }
  | 4 =>
    let port := 208 + s.nodeTarget p.node
    let m := s.mac port
    let rx := { p.rx with oport := port, held := p.data.length, size := p.data.length, arrived := true }
    ((s.txOctets p.node (p.data.length + 4)).setPkt n { p with loc := .fifo, fate := .open, rx := rx, node := 0 }).setMac port
      { m with fill := m.fill + p.data.length, order := m.order ++ [n] }
  | 5 =>
    let s1 := ((s.txOctets p.node (p.data.length + 4)).emit (.frame 256 p.data (!p.err))).trace n 7 0 [256, 0]
    s1.removePkt n
  | _ => s.setPkt n { p with loc := .egressIn }

/-! ### The Seam's packet channels (R26, R28) -/

/-- R26: real-time traffic: packets bound for a fibre tree and packets with a launch time. -/
def State.realTime (s : State) (p : Pkt) : Bool :=
  p.launch.isSome ||
    (match p.loc with
      | .seamDown | .reading => s.nodeKind p.node == 1
      | _ => p.fate == .forward && p.carry.destMod == s.rd F.FAB_CFG.MOD_ID && s.nodeKind (s.nodeOf p.carry.queue) == 1)

/-- R28: no earlier packet of its queue waits for the same channel of the Seam, or for DRAM before it: the queue of its pipe, or of its port
node. -/
def State.firstInChannel (s : State) (p : Pkt) : Bool :=
  !s.someBefore p.seq (fun q =>
    (q.loc == p.loc || (p.loc == .seamDown && q.loc == .reading)) && s.realTime q == s.realTime p && (if p.loc = .seamUp then q.pipe == p.pipe else q.node == p.node))

/-- R33: there is credit beyond the Seam for a packet that waits to cross. -/
def State.seamCredit (s : State) (p : Pkt) : Bool :=
  if p.loc = .seamUp then decide (s.octetsAt p.pipe .enqueueIn + p.data.length ≤ 65536)
  else if 3 ≤ s.nodeKind p.node then true
  else decide (s.egDepth (s.rd F.GLZ_EGR_PIPE.PIPE p.node) (· == .egressIn) < 256)

/-- R26: a real-time packet that could cross from `loc` at this moment. -/
def State.realTimeReady (s : State) (loc : Loc) : Bool :=
  s.pkts.any (fun e => match e.2 with
    | some q => q.loc == loc && s.realTime q && s.firstInChannel q && s.seamCredit q
    | none => false)

/-- R26, R28, R33: packet `p` crosses the Seam now: it is first in its channel, has credit, and no packet of a channel before its own could
cross. Register accesses, and the memory channel's accesses, cross within the commands that make them (assumption 14). -/
def State.crosses (s : State) (p : Pkt) : Bool :=
  s.seamUp && s.firstInChannel p && s.seamCredit p && (s.realTime p || !s.realTimeReady p.loc)

/-- QUEUE_HANDOFF (R26, R28, R33, R167, R168, R615): packet or header vector `n` passes to the next block, against the credit of its queue
and in the order of its pipe or channel. -/
def execQueueHandoff (n : Nat) (s : State) : Result :=
  .next <|
    match s.pkt n with
    | none => s
    | some p =>
      if s.halted then s
      else
        match p.loc with
        | .stageDone st =>
          if hvGet p.drec 0x13 1 = 0xFF ∨ 12 ≤ st then s.leaveIngress n p
          else if !s.inPipeOrder p false (fun l => l == .acting st || l == .stageDone st) then s
          else if 32 ≤ s.stageDepth p.pipe (.stageIn (st + 1)) then s
          else s.setPkt n { p with loc := .stageIn (st + 1) }
        | .seamUp => if s.crosses p then s.setPkt n { p with loc := .enqueueIn } else s
        | .seamDown => if s.crosses p then s.arriveDown n p else s
        | .egStageDone st =>
          if hvGet p.drec 0x13 1 = 0xFF ∨ 4 ≤ st ∨ p.fault then s.leaveEgress n p
          else if !s.inPipeOrder p true (fun l => l == .egActing st || l == .egStageDone st) then s
          else if 32 ≤ s.egDepth (s.rd F.GLZ_EGR_PIPE.PIPE p.node) (· == .egStageIn (st + 1)) then s
          else s.setPkt n { p with loc := .egStageIn (st + 1) }
        | .txFifo => if p.inFifo = p.data.length then s else s.restOfFrame n p
        | _ => s

/-! ### Transmission (R153, R290, R473, R475, R480, R525, R615) -/

/-- A frame is sent by the MAC of its node's exit with the transmit stamp `stamp`. -/
def State.transmit (s : State) (n : Nat) (p : Pkt) (stamp : BitVec 80) : State :=
  let exit := s.exitOf p.node
  let anchor := s.anchor == 1
  let t := tcwOf p.hv
  let data := if t.word = 0 then p.data else t.egress (s.localOf s.anchor stamp.toNat) p.data
  let frame := padTo (max 60 data.length) data
  let size := frame.length + 4
  let s2 := if p.late then (s.incWrap F.TIM_ERR_CNT.COUNT 1).txtsPost ⟨stamp, t.txId, exit, anchor, true, false⟩
    else if t.tsReq then s.txtsPost ⟨stamp, t.id, exit, anchor, false, false⟩
    else s
  let s3 := if exit < 64 then (s2.ethCount exit 5).ethCount exit 6 size
    else (s2.ethCount (exit + 16) 2).ethCount (exit + 16) 3 size
  let s4 := ((s3.trueUp p.data.length p.charges).txOctets p.node size).emit (.frame exit frame (!p.err))
  (s4.trace n 7 0 [exit, 0] (some (stamp.toNat / 65536))).removePkt n

/-- R480: a late frame that LATE_ACT discards. -/
def State.lateDrop (s : State) (n : Nat) (p : Pkt) : State :=
  let s1 := (((s.trueUp p.data.length p.charges).tally1 770 p.data.length).incWrap F.TIM_ERR_CNT.COUNT 2).postDropped p true
  s1.discardPkt n 10 0

/-- The frame that the MAC of port node `n` may start: the oldest in its transmit FIFO, whole or filling it (R615). -/
def State.nextFrame (s : State) (n : Nat) : Option (Nat × Pkt) :=
  match s.nodeOut n with
  | [] => none
  | k :: _ => match s.pkt k with
    | some p => if p.loc = .txFifo ∧ s.txReady p then some (k, p) else none
    | none => none

/-- R97, R100: the MAC of an exit starts no frame: it is paused, or Local Fault or Remote Fault is received. -/
def State.macStopped (s : State) (n : Nat) : Bool :=
  s.nodeKind n == 0 && ((s.mac (s.nodeTarget n)).txPaused || s.on F.ETH_PORT_STATUS.LF_RX (s.nodeTarget n) ||
    s.on F.ETH_PORT_STATUS.RF_RX (s.nodeTarget n))

/-- FRAME_TRANSMIT (R615, R473, R475, R480): the MAC of port node `n` sends its next frame; `sub` places the end of the SFD in sixteenths
of a nanosecond. A frame with a launch time waits for it. -/
def execFrameTransmit (n sub : Nat) (s : State) : Result :=
  .next <|
    if s.halted ∨ s.nodeState n ≠ 1 ∨ s.macStopped n ∨ (s.nodeKind n ≠ 0 ∧ s.nodeKind n ≠ 2) then s
    else
      match s.nextFrame n with
      | none => s
      | some (k, p) =>
        if p.late then (if s.on F.TIM_CFG.LATE_ACT then s.lateDrop k p else s.transmit k p (s.stampAt sub))
        else
          match p.launch with
          | some f => if s.now < f then s else s.transmit k p (s.stampAt sub)
          | none => s.transmit k p (s.stampAt sub)

/-- LAUNCH_ELIGIBLE (R479): the FRC reaches the launch value less 2 µs of the head of LAUNCH queue `q`. -/
def execLaunchEligible (q : Nat) (s : State) : Result :=
  .next <|
    match (s.queue q).packets with
    | [] => s
    | k :: _ => match s.pkt k with
      | some p => match p.launch with
        | some f => if p.late then s else s.advanceTo (f - us 2)
        | none => s
      | none => s

/-- LAUNCH_TIME_REACHED (R480): the launch value of packet `k` arrives: the frame that waits at the MAC is sent, or the packet is
late. -/
def execLaunchTimeReached (k : Nat) (s : State) : Result :=
  .next <|
    match s.pkt k with
    | none => s
    | some p =>
      match p.launch with
      | none => s
      | some f =>
        if s.halted || p.late || p.loc == .enqueueIn then s
        else
          let s1 := s.advanceTo f
          match s1.nextFrame p.node with
          | some (j, _) =>
            if j = k ∧ s.now ≤ f ∧ s1.nodeState p.node = 1 ∧ !s1.macStopped p.node then s1.transmit k p (BitVec.ofNat 80 f)
            else if p.loc = .txFifo then s1
            else s1.setPkt k { p with late := true }
          | none => if p.loc = .txFifo then s1 else s1.setPkt k { p with late := true }

end Sys2Proof.Machine
end

