-- ==== Sys2Proof/Machine/FlexE.lean ====
section
/-!
DEFINITION. FlexE (chapter 3, R105 to R119): overhead lock, the calendar exchange, faults and protection; and the messages that reach a
punt ring outside the packet path.
-/
namespace Sys2Proof.Machine

/-! ### Messages to the host (the punt entry, KIND 2 to 4) -/

/-- Octets 12 to 62 of a punt ring entry. -/
def puntFields (kind reason flags pass inPort gem sub tree onu excSub tag inst : Nat) (stamp : BitVec 80) : List Byte :=
  octetsBE 1 kind ++ octetsBE 1 reason ++ octetsBE 1 flags ++ octetsBE 1 pass ++ octetsBE 2 inPort ++ octetsBE 2 gem ++
  octetsBE 3 sub ++ octetsBE 1 tree ++ octetsBE 1 onu ++ octetsBE 1 excSub ++ octetsBE 2 tag ++ octetsBE 1 inst ++
  [0, 0, 0] ++ octetsBE 8 (stamp.toNat / 65536) ++ octetsBE 2 (stamp.toNat % 65536) ++ List.replicate 21 0

/-- R491: a message joins those waiting for a punt ring; whether the ring had a free slot for it. -/
def State.puntMessage (s : State) (ring : Nat) (fields content : List Byte) : State × Bool :=
  let waiting := (s.host.messages.filter (fun m => m.ring == ring)).length
  if s.ringFull ring ∨ ((s.ring ring).tail - s.ringW ring).toNat ≤ waiting then (s, false)
  else ((s.withHost { s.host with messages := s.host.messages ++ [⟨ring, fields, content⟩] }), true)

/-! ### State of instances and groups -/

/-- Instance `i`. -/
def State.inst (s : State) (i : Nat) : Inst := Sparse.read Inst.idle s.insts i
def State.setInst (s : State) (i : Nat) (x : Inst) : State := s.withInsts (Sparse.write Inst.idle s.insts i x)

/-- Group `g`. -/
def State.grp (s : State) (g : Nat) : Grp := Sparse.read Grp.idle s.grps g
def State.setGrp (s : State) (g : Nat) (x : Grp) : State := s.withGrps (Sparse.write Grp.idle s.grps g x)

/-- The group and the position of instance `i`. -/
def State.instGroup (s : State) (i : Nat) : Nat := s.rd F.FLX_INST_CFG.GROUP i
def State.instPos (s : State) (i : Nat) : Nat := s.rd F.FLX_INST_CFG.POS i

/-- R111, R115: the instance at a position of a group carries client data. -/
def State.instGood (s : State) (g pos : Nat) : Bool :=
  (List.range 64).any (fun i =>
    s.on F.FLX_INST_CFG.EN i && s.instGroup i == g && s.instPos i == pos && s.on F.FLX_INST_STATUS.OH_LOCK i &&
    s.on F.FLX_INST_STATUS.MF_LOCK i && !s.on F.FLX_INST_STATUS.GID_MISMATCH i && !s.on F.FLX_INST_STATUS.RPF_RX i)

/-- The calendar positions of the active receive page that carry client `c`. -/
def State.rxSlots (s : State) (c : Nat) : List Nat :=
  let g := s.rd F.FLX_CLIENT_CFG.GROUP c
  let cal := if s.on F.FLX_GRP_STATUS.RX_PAGE g then (s.grp g).rxCalB else (s.grp g).rxCalA
  (cal.filter (fun e => e.2 == s.rd F.FLX_CLIENT_CFG.CLIENT_ID c)).map (·.1)

/-- R105, R106: the calendar slots of 5 Gb/s of a client rate that the device supports: 10 Gb/s, 40 Gb/s and m × 25 Gb/s. -/
def clientRateOk (slots : Nat) : Bool := slots == 2 || slots == 8 || (slots % 5 == 0 && decide (5 ≤ slots) && decide (slots ≤ 80))

/-- R105, R115, R119: a client receives its stream without Local Fault; one whose slots make no rate that the device supports is not carried
(assumption 106). -/
def State.clientGood (s : State) (c : Nat) : Bool :=
  let g := s.rd F.FLX_CLIENT_CFG.GROUP c
  s.on F.FLX_CLIENT_CFG.EN c && s.on F.FLX_GRP_CFG.EN g && clientRateOk (s.rxSlots c).length &&
  (s.rxSlots c).all (fun k => s.instGood g (k / 20))

/-- R121: the whole microseconds that client `c` has been under Local Fault and that have not been counted. -/
def State.faultTime (s : State) (c : Nat) : Nat :=
  match (s.mac (112 + c)).faultAt with
  | some t => (s.now - t) / us 1
  | none => 0

/-- R121: they are counted. -/
def State.countFault (s : State) (c : Nat) : State :=
  match (s.mac (112 + c)).faultAt with
  | some t =>
    let k := s.faultTime c
    (s.ethCount (128 + c) 5 k).setMac (112 + c) { s.mac (112 + c) with faultAt := some (t + us k) }
  | none => s

/-- R98, R115, R119, R121: the Local Fault of client `c` follows its instances; a client that is not enabled has no link. -/
def State.refreshClient (s : State) (c : Nat) : State :=
  if !s.on F.FLX_CLIENT_CFG.EN c then
    let s1 := s.countFault c
    let s2 := if (s1.mac (112 + c)).up then s1.linkDown (112 + c) true else s1
    if s2.mac (112 + c) = Mac.idle then s2
    else s2.setMac (112 + c) { s2.mac (112 + c) with badSince := none, goodSince := none, faultAt := none }
  else
    let good := s.clientGood c
    let s1 := s.countFault c
    let m := s1.mac (112 + c)
    (s1.setMac (112 + c) { m with faultAt := if good then none else some (m.faultAt.getD s1.now) }).watchLink (112 + c) (!good)
def State.refreshClients (s : State) : State := (List.range 64).foldl State.refreshClient s

/-! ### Overhead lock (R108 to R111) -/

/-- MARKER_CANDIDATE (R108, R109): a block of the marker's form at block position `pos` of instance `i`. -/
def execMarkerCandidate (i pos : Nat) (s : State) : Result :=
  .next <|
    let x := s.inst i
    if !s.on F.FLX_INST_CFG.EN i ∨ s.on F.FLX_INST_STATUS.OH_LOCK i then s
    else if 16 ≤ x.candidates.length then s.ethCount (64 + i) 3
    else s.setInst i { x with candidates := x.candidates ++ [pos] }

/-- R112: what was received before a loss of lock, or before a lock, counts toward no run. -/
def Inst.newLock (x : Inst) : Inst := { x with cr := ⟨0, 0⟩, ca := ⟨0, 0⟩, ccc := ⟨0, 0⟩, cal := ⟨0, 0⟩ }

/-- OH_CANDIDATE_CHECK (R108, R109, R117): 20,461 block positions after the candidate at `pos`; `ok`: an overhead block of the form that
the IA requires stands there. -/
def execOhCandidateCheck (i pos : Nat) (ok : Bool) (s : State) : Result :=
  .next <|
    let x := s.inst i
    if !s.on F.FLX_INST_CFG.EN i ∨ s.on F.FLX_INST_STATUS.OH_LOCK i ∨ !x.candidates.contains pos then s
    else if !ok then s.setInst i { x with candidates := x.candidates.filter (· != pos) }
    else
      let s1 := (s.wr F.FLX_INST_STATUS.OH_LOCK i 1).wr F.FLX_INST_STATUS.MISS_CNT i 0
      (s1.setInst i { x.newLock with
        candidates := [], phase := 2, rpfTx := false
        failedAt := if s.on F.FLX_INST_STATUS.RPF_RX i then x.failedAt else none }).refreshClients

/-- R116, R118: instance `i` has failed: the hold-off starts, or, while a switch runs or waits to be acknowledged, a second failure is
flagged; a further fault of the instance that caused the switch is taken as one too (assumption 107). -/
def State.instFailed (s : State) (i : Nat) : State :=
  let g := s.instGroup i
  if s.on F.FLX_GRP_STATUS.PROT_ACTIVE g ∨ s.on F.FLX_GRP_STATUS.PROT_DONE g then
    (s.wr F.FLX_GRP_STATUS.FAILED_POS g (s.instPos i)).setCause F.FLX_GRP_STATUS.PROT_FAIL g (128 + g)
  else s.setInst i { s.inst i with failedAt := some ((s.inst i).failedAt.getD s.now) }

/-- R111, R115: loss of lock is declared and the search restarts. -/
def State.lockLost (s : State) (i : Nat) : State :=
  let s1 := ((s.wr F.FLX_INST_STATUS.OH_LOCK i 0).wr F.FLX_INST_STATUS.MF_LOCK i 0).setCause F.FLX_INST_STATUS.LOCK_LOSS i
    (128 + s.instGroup i)
  let s2 := (s1.ethCount (64 + i) 1).setInst i { (s1.inst i).newLock with rpfTx := true, candidates := [] }
  (s2.instFailed i).refreshClients

/-- R112: a received value in one more overhead frame. -/
def Debounce.see (d : Debounce) (v : Nat) : Debounce := if d.value = v then ⟨v, d.run + 1⟩ else ⟨v, 1⟩

/-- A received calendar as one number: the entries of page A and then of page B, 20 each. -/
def calNumber (cal : List (BitVec 16)) : Nat := cal.foldl (fun n c => n * 65536 + c.toNat) 0

/-- The end of an overhead frame whose CRC-16 is good (R106, R111, R112). -/
def State.ohFrame (s : State) (i : Nat) (cr ca ccc rpf mf : Bool) (gid : Nat) (cal : List (BitVec 16)) (mgmt : List Byte) :
    State :=
  let x := s.inst i
  let g := s.instGroup i
  let s1 := s.setInst i { x with
    cr := x.cr.see (if cr then 1 else 0), ca := x.ca.see (if ca then 1 else 0), ccc := x.ccc.see (if ccc then 1 else 0)
    cal := if cal.length = 40 then x.cal.see (calNumber cal) else x.cal }
  let s2 := s1.wrBit F.FLX_INST_STATUS.GID_MISMATCH i (gid % 2 ^ 20 != s.rd F.FLX_GRP_CFG.GROUP_NUM g)
  let s3 := if s.on F.FLX_INST_STATUS.MF_LOCK i && !mf then s2.ethCount (64 + i) 2 else s2
  let s4 := s3.wrBit F.FLX_INST_STATUS.MF_LOCK i mf
  let was := s.on F.FLX_INST_STATUS.RPF_RX i
  let s5 := s4.wrBit F.FLX_INST_STATUS.RPF_RX i rpf
  let s6 := if rpf && !was then s5.instFailed i
    else if !rpf && was then s5.setInst i { s5.inst i with failedAt := none } else s5
  let s7 := if mgmt = [] then s6 else
    (s6.puntMessage (Config.mgmtRing i % 32) (puntFields 4 0 0 0 0 0xFFFF 0xFFFFFF 0 0 0 0 i (s6.stampAt 0)) mgmt).1.ethCount
      (64 + i) 5 mgmt.length
  s7.refreshClients

/-- OH_POSITION_CHECK (R111, R112, R115): the next expected overhead position of instance `i`. `form`: it has the form the IA requires.
At the last of the eight, `crc` says whether the frame's CRC-16 is good; the others are what the frame carries: CR, CA, CCC, RPF,
the OMF bit's multiframe lock, the group number, the advertised calendar (pages A and B of this instance, or nothing) and
management octets. -/
def execOhPositionCheck (i : Nat) (form crc cr ca ccc rpf mf : Bool) (gid : Nat) (cal : List (BitVec 16)) (mgmt : List Byte)
    (s : State) : Result :=
  .next <|
    let x := s.inst i
    if !s.on F.FLX_INST_CFG.EN i ∨ !s.on F.FLX_INST_STATUS.OH_LOCK i then s
    else
      let last := x.phase == 7
      let miss := !form || (last && !crc)
      let s1 := s.setInst i { x with phase := (x.phase + 1) % 8 }
      let s2 := if last && !crc then s1.ethCount (64 + i) 0 else s1
      let s3 := s2.wr F.FLX_INST_STATUS.MISS_CNT i (if miss then s.rd F.FLX_INST_STATUS.MISS_CNT i + 1 else 0)
      if miss && decide (5 ≤ s.rd F.FLX_INST_STATUS.MISS_CNT i + 1) then s3.lockLost i
      else if last && crc then s3.ohFrame i cr ca ccc rpf mf gid cal mgmt
      else s3

/-! ### The exchange (R112, R113) -/

/-- A page of a calendar as the peer advertises it, entry `k` of an instance's 20. -/
def calEntry (v page k : Nat) : Nat := v / 65536 ^ (39 - (20 * page + k)) % 65536

/-- R112: the calendar that instance `i` has carried in three frames becomes the receive calendar of its positions. -/
def State.acceptCal (s : State) (i v : Nat) : State :=
  let x := s.grp (s.instGroup i)
  let put (m : Sparse Nat) (page : Nat) : Sparse Nat :=
    (List.range 20).foldl (fun m k => Sparse.write 0 m (20 * s.instPos i + k) (calEntry v page k)) m
  s.setGrp (s.instGroup i) { x with rxCalA := put x.rxCalA 0, rxCalB := put x.rxCalB 1 }

/-- OH_FIELD_ACCEPT (R112, R113, R118): values that instance `i` has received in three consecutive overhead frames are acted upon: CR is
answered with CA, CA lets the device flip CCC, CCC switches the receive page, and the calendar is taken. -/
def execOhFieldAccept (i : Nat) (s : State) : Result :=
  .next <|
    let x := s.inst i
    let g := s.instGroup i
    if !s.on F.FLX_INST_STATUS.OH_LOCK i then s
    else
      let s1 := if 3 ≤ x.cr.run then s.setGrp g { s.grp g with caTx := x.cr.value == 1 } else s
      let s2 := if 3 ≤ x.ca.run then s1.wrBit F.FLX_GRP_STATUS.CA_RX g (x.ca.value == 1) else s1
      let s3 := if 3 ≤ x.ca.run ∧ x.ca.value = 1 ∧ s2.on F.FLX_GRP_STATUS.CR_TX g
        then s2.setGrp g { s2.grp g with flipping := true } else s2
      let s4 := if 3 ≤ x.ccc.run then s3.wr F.FLX_GRP_STATUS.RX_PAGE g x.ccc.value else s3
      (if 3 ≤ x.cal.run then s4.acceptCal i x.cal.value else s4).refreshClients

/-- R119: software asks for the ordinary exchange: CR is set in the transmitted overhead. The specification names no register for it
(assumption 53). -/
def State.askSwitch (s : State) (g : Nat) : State :=
  if s.on F.FLX_GRP_STATUS.CR_TX g ∨ (s.grp g).flipping ∨ !s.on F.FLX_GRP_CFG.EN g then s
  else (s.wr F.FLX_GRP_STATUS.CR_TX g 1).setGrp g { s.grp g with crAt := s.now }

/-- TX_PAGE_SWITCH (R113, R119), of a group: software asks for the page exchange, if the second part says so; else the overhead frame after
the one in which CCC was flipped begins. -/
def execTxPageSwitch (turn : Nat × Bool) (s : State) : Result :=
  .next <|
    let g := turn.1
    if turn.2 then s.askSwitch g
    else if !(s.grp g).flipping then s
    else
      let s1 := (s.setGrp g { s.grp g with flipping := false }).wr F.FLX_GRP_STATUS.TX_PAGE g
        (1 - s.rd F.FLX_GRP_STATUS.TX_PAGE g)
      let s2 := s1.wr F.FLX_GRP_STATUS.CR_TX g 0
      if s.on F.FLX_GRP_STATUS.PROT_ACTIVE g then
        (s2.wr F.FLX_GRP_STATUS.PROT_ACTIVE g 0).setCause F.FLX_GRP_STATUS.PROT_DONE g (128 + g)
      else s2

/-! ### Protection (R116 to R118) -/

/-- PROT_HOLDOFF_EXPIRY (R116): instance `i` has stayed failed for HOLDOFF. One that falls into a running switch does nothing, one after it
starts another (assumption 107). -/
def execProtHoldoffExpiry (i : Nat) (s : State) : Result :=
  .next <|
    let g := s.instGroup i
    match (s.inst i).failedAt with
    | none => s
    | some t =>
      if !s.on F.FLX_GRP_CFG.PROT_EN g ∨ s.on F.FLX_GRP_STATUS.PROT_ACTIVE g then s
      else
        let s1 := (s.advanceTo (t + ms (s.rd F.FLX_GRP_CFG.HOLDOFF g))).setInst i { s.inst i with failedAt := none }
        let k := s.instPos i
        let standby := 1 - s.rd F.FLX_GRP_STATUS.TX_PAGE g
        let s2 := (List.range 320).foldl (fun s j =>
          s.wr F.FLX_CAL.CLIENT (640 * g + 320 * standby + j) (s.rd F.FLX_PROT.CLIENT (5120 * g + 320 * k + j))) s1
        let s3 := ((s2.wr F.FLX_GRP_STATUS.CR_TX g 1).wr F.FLX_GRP_STATUS.PROT_ACTIVE g 1).wr F.FLX_GRP_STATUS.FAILED_POS g k
        s3.setGrp g { s3.grp g with crAt := s3.now, flipping := false }

/-- PROT_CA_TIMEOUT (R118): 100 ms after CR was set, no CA has been accepted. -/
def execProtCaTimeout (g : Nat) (s : State) : Result :=
  .next <|
    if !s.on F.FLX_GRP_STATUS.CR_TX g ∨ (s.grp g).flipping then s
    else
      let s1 := (s.advanceTo ((s.grp g).crAt + ms 100)).wr F.FLX_GRP_STATUS.CR_TX g 0
      (s1.wr F.FLX_GRP_STATUS.PROT_ACTIVE g 0).setCause F.FLX_GRP_STATUS.PROT_FAIL g (128 + g)

/-! ### Configuration (R107, R114) -/

/-- R107: an enabled instance of the same group lies on a PHY of another rate. -/
def State.rateDiffers (s : State) (i port group : Nat) : Bool :=
  (List.range 64).any (fun j =>
    j != i && s.on F.FLX_INST_CFG.EN j && s.instGroup j == group &&
    s.rd F.ETH_PORT_CFG.SPEED (s.rd F.FLX_INST_CFG.PORT j) != s.rd F.ETH_PORT_CFG.SPEED port)

/-- R105: the instances of 100 Gb/s that a port carries as a FlexE PHY: an enabled 100, 200 or 400 Gb/s port with RS-FEC; 0 of any other. -/
def State.phyInstances (s : State) (port : Nat) : Nat :=
  if s.on F.ETH_PORT_CFG.EN port && s.on F.ETH_PORT_CFG.FLEXE_PHY port && decide (2 ≤ s.rd F.ETH_PORT_CFG.FEC port) then
    match s.rd F.ETH_PORT_CFG.SPEED port with
    | 3 => 1 | 4 => 2 | 5 => 4 | _ => 0
  else 0

/-- R105: the enabled instances of a group beside `i`. -/
def State.groupInstances (s : State) (i group : Nat) : Nat :=
  ((List.range 64).filter (fun j => j != i && s.on F.FLX_INST_CFG.EN j && s.instGroup j == group)).length

/-- R105, R107: an enable of instance `i` with these fields is accepted. -/
def State.instAccepted (s : State) (i port sub group : Nat) : Bool :=
  decide (sub < s.phyInstances port) && decide (s.groupInstances i group < 16) && !s.rateDiffers i port group

/-- A write of FLX_INST_CFG(i). -/
def State.instCfgWrite (s : State) (i v : Nat) : State :=
  let en := v.testBit 0 && s.instAccepted i (bitsOf v 1 6) (bitsOf v 7 2) (bitsOf v 12 4)
  let s1 := s.setReg .FLX_INST_CFG i (BitVec.ofNat 320
    (bitsOf v 1 8 * 2 + bitsOf v 12 16 * 2 ^ 12 + (if en then 1 else 0)))
  if en then s1
  else
    (((s1.wr F.FLX_INST_STATUS.OH_LOCK i 0).wr F.FLX_INST_STATUS.MF_LOCK i 0).setInst i Inst.idle).refreshClients

/-- FLEXE_INSTANCE_ENABLE (R105, R107): a write of FLX_INST_CFG(i) with EN 1. -/
def execFlexeInstanceEnable (i v : Nat) (s : State) : Result :=
  .next (if 64 ≤ i then s else s.landed .FLX_INST_CFG (fun s => s.instCfgWrite i (setBits v 0 1 1)))

/-- R114: the instance at which a refused write for a position of group `g` is counted: the enabled one there, else one whose configuration
names that place, else one of the group, else the first (assumption 61). -/
def State.calCounter (s : State) (g pos : Nat) : Nat :=
  let here (i : Nat) : Bool := s.instGroup i == g && s.instPos i == pos
  match (List.range 64).find? (fun i => s.on F.FLX_INST_CFG.EN i && here i) with
  | some i => i
  | none =>
    match (List.range 64).find? here with
    | some i => i
    | none => ((List.range 64).find? (fun i => s.instGroup i == g)).getD 0

/-- R114: a write of a calendar entry of group `g`, page and position; a refused one is counted. -/
def State.calWrite (s : State) (g page pos v : Nat) : State :=
  if page = s.rd F.FLX_GRP_STATUS.TX_PAGE g ∨ s.on F.FLX_GRP_STATUS.PROT_ACTIVE g then
    s.ethCount (64 + s.calCounter g (pos / 20)) 4
  else s.wr F.FLX_CAL.CLIENT (640 * g + 320 * page + pos) v

end Sys2Proof.Machine
end

