-- ==== Sys2Proof/Machine/Pairs.lean ====
section
/-!
DEFINITION. Counter pairs as they are read and cleared (chapter 16, R514 to R519), and the part DRAM has in it (R341, R358).
-/
namespace Sys2Proof.Machine

/-- R517: the DRAM value plus the cached entry. -/
def Pair.add (a b : Pair) : Pair := ⟨a.bytes + b.bytes, a.pkts + b.pkts, a.invalid || b.invalid⟩

/-- The live value of pair `i`. -/
def State.livePair (s : State) (i : Nat) : Pair :=
  (Sparse.read Pair.zero s.tally.pairs i).add (Sparse.read Pair.zero s.tally.cache i)

/-- R514, R518, R520: the readable value of pair `i`. -/
def State.readPair (s : State) (i : Nat) : Pair :=
  if s.pairLost i then ⟨0, 0, true⟩
  else match s.tally.frozenPairs with
    | some f => Sparse.read Pair.zero f i
    | none => s.livePair i

/-- The pairs of the index space (R514). -/
def State.pairCount (s : State) : Nat := 262144 + s.tally.dramPairs

/-- The 128 bits of a pair (R514). -/
def Pair.bits (p : Pair) : Nat := p.bytes.toNat + p.pkts.toNat * 2 ^ 64 + (if p.invalid then 2 ^ 120 else 0)

/-- R338: a pair in DRAM is written, which ends the errors in its words. -/
def State.healPair (s : State) (i : Nat) : State :=
  if i < 262144 then s
  else s.withDram { s.dram with struck := Sparse.clear s.dram.struck (wordKey (s.pairChannel i) (s.pairAddr i)) 2 }

/-- R338: errors strike the channel that holds pair `i`, if one does. -/
def State.strikePair (s : State) (i : Nat) (strikes : List (Nat × Nat)) : State :=
  if i < 262144 then s else s.strikeDram (s.pairChannel i) strikes [] []

/-- Replace the DRAM or on-die value of pair `i`. -/
def State.setPair (s : State) (i : Nat) (p : Pair) : State :=
  (s.withTally { s.tally with pairs := Sparse.write Pair.zero s.tally.pairs i p }).healPair i

/-- The cached entry of pair `i` is gone. -/
def State.uncache (s : State) (i : Nat) : State :=
  s.withTally { s.tally with
    cache := Sparse.write Pair.zero s.tally.cache i Pair.zero
    cacheFirst := Sparse.write 0 s.tally.cacheFirst i 0 }

/-- R518: a word of pair `i` is uncorrectable: it counts on from zero, with what the cache holds; a frozen view shows it so too. -/
def State.pairInvalid (s : State) (i : Nat) : State :=
  let s1 := (s.setPair i ⟨0, 0, true⟩).wr F.TLY_STATUS.INVALID_SEEN 0 1
  match s1.tally.frozenPairs with
  | none => s1
  | some f => s1.withTally { s1.tally with frozenPairs := some (Sparse.write Pair.zero f i ⟨0, 0, true⟩) }

/-- R341, R518: pair `i` is read, from DRAM where it stands there: a word that is uncorrectable makes it invalid. -/
def State.fetchPair (s : State) (i : Nat) : State :=
  if i < 262144 ∨ s.pairLost i then s
  else
    let r := s.readDirect (s.pairChannel i) [s.pairAddr i, s.pairAddr i + 8]
    if r.2 = [] then r.1 else r.1.pairInvalid i

/-- R519, R521: pair `i` is cleared; `zero` also clears INVALID. While frozen the frozen value goes, and what has been counted since
stays. -/
def State.clearPair (s : State) (i : Nat) (zero : Bool) : State :=
  match s.tally.frozenPairs with
  | none => (s.uncache i).setPair i ⟨0, 0, !zero && (Sparse.read Pair.zero s.tally.pairs i).invalid⟩
  | some f =>
    let p := Sparse.read Pair.zero f i
    let l := Sparse.read Pair.zero s.tally.pairs i
    let s1 := s.setPair i ⟨l.bytes - p.bytes, l.pkts - p.pkts, !zero && l.invalid⟩
    s1.withTally { s1.tally with frozenPairs := some (Sparse.write Pair.zero f i ⟨0, 0, !zero && p.invalid⟩) }

/-- R519: the access that OP and INDEX name completes. -/
def State.cntFinish (s : State) : State :=
  let op := s.rd F.TLY_CNT_ACC.OP
  let i := s.rd F.TLY_CNT_ACC.INDEX
  let done (s : State) (code : Nat) : State := (s.wr F.TLY_CNT_ACC.CODE 0 code).wr F.TLY_CNT_ACC.BUSY 0 0
  if op = 3 then done s 2
  else if s.pairCount ≤ i then done s 1
  else
    let lost := s.pairLost i
    let s0 := if op = 2 then s else s.fetchPair i
    let s1 := if op = 2 then s0 else s0.wr F.TLY_CNT_DATA.PAIR 0 (s0.readPair i).bits
    let s2 := if op = 0 ∨ lost then s1 else s1.clearPair i (op == 2)
    done s2 (if lost then 3 else 0)

/-- R358, R519: a write of TLY_CNT_ACC has stored OP and INDEX: the access completes, or waits for DRAM while that serves nothing. -/
def State.cntAccess (s : State) : State :=
  let i := s.rd F.TLY_CNT_ACC.INDEX
  if s.dramStopped && s.rd F.TLY_CNT_ACC.OP != 3 && decide (262144 ≤ i) && decide (i < s.pairCount) && !s.pairLost i then
    s.wr F.TLY_CNT_ACC.BUSY 0 1
  else s.cntFinish

/-- R358: DRAM serves again, and the access that has waited for it completes. -/
def State.cntResume (s : State) : State := if s.on F.TLY_CNT_ACC.BUSY && !s.dramStopped then s.cntFinish else s

/-- An access by its own command; while one runs the write is discarded. -/
def State.cntCommand (s : State) (op i : Nat) : State :=
  if s.on F.TLY_CNT_ACC.BUSY then s else ((s.wr F.TLY_CNT_ACC.OP 0 op).wr F.TLY_CNT_ACC.INDEX 0 i).cntAccess

end Sys2Proof.Machine
end

