-- ==== Sys2Proof/Machine/Dram.lean ====
section
/-!
DEFINITION. The DDR4 subsystem (chapter 10): the address map, errors and their log, command scheduling, refresh, training, channel loss
and the frequency change.
-/
namespace Sys2Proof.Machine

/-! ### The error log (R342) and channel loss (R354) -/

/-- ERR_POP (R342): a write of 1 to DMC_ERR_POP removes the head. -/
def execErrPop (s : State) : Result :=
  .next (s.landed .DMC_ERR_POP (fun s => (s.withDram { s.dram with log := s.dram.log.drop 1 }).showErrLog))

/-- CHANNEL_LOST (R354), for a cause as LOST_CAUSE codes it: for 1 the uncorrectable codewords of the last second are held against UE_LOST, as
it now stands; a training that fails (0) and parity errors (2) lose the channel where they happen. -/
def execChannelLost (ch cause : Nat) (s : State) : Result :=
  .next <|
    let lim := s.rd F.DMC_ERR_CFG.UE_LOST
    let n := ((s.chan ch).ueAt.filter (fun t => decide (s.now < t + ms 1000))).length
    if cause ≠ 1 ∨ lim = 0 ∨ n < lim then s else s.loseChannel ch 1

/-! ### Reads that return (R340, R341, R343) -/

/-- The queue a packet waits in. -/
def State.queueOfPkt (s : State) (k : Nat) : Option Nat :=
  (s.sched.queues.find? (fun e => e.2.packets.contains k)).map (·.1)

/-- R341: packet `k` leaves its queue and is discarded at buffer read. -/
def State.dropAtRead (s : State) (k : Nat) : State :=
  match s.pkt k, s.queueOfPkt k with
  | some p, some q =>
    let s1 := s.undoCopy k 2
    let s2 := s1.palFreeAll p.dram 4
    let x := s2.queue q
    let keep (l : List Nat) : List Nat := l.filter (· != k)
    let x1 : Queue := { x with
      depth := x.depth - p.length, head := keep x.head, spill := keep x.spill, tail := keep x.tail
      copies := x.copies.filter (fun c => c.1 != k) }
    let st := if x1.packets = [] then (if cfgEn (s2.queueCfg q) then 1 else 0) else x1.state
    ((s2.setQueue q { x1.rejoin with state := st }).tally1 771 p.length).discardPkt k 8 0
  | _, _ => s

/-- R341, R343: an uncorrectable codeword at a channel address is treated by its partition. -/
def State.treatUe (s : State) (ch a : Nat) : State :=
  let mark (p : Nat) : State := if s.ptrOk p then s.markBad p else s
  match s.partition a with
  | some (0, o) => mark (s.bufAt ch (o / 256))
  | some (1, o) => mark (s.bufAt ch (o / 8))
  | some (2, o) => let i := s.pairAt ch (o / 16); if i < 262144 + s.tally.dramPairs then s.pairInvalid i else s
  | some (3, o) =>
    let a := o / 256 * s.channelCount + ch
    if a < 32768 ∧ !s.dram.staleAllocs.contains a then (s.withDram { s.dram with staleAllocs := s.dram.staleAllocs ++ [a] }) else s
  | _ => s

/-- R340, R341: the 8 codewords of a burst are read and checked; those found uncorrectable. -/
def State.checkBurst (s : State) (ch a : Nat) (stale : Bool) : State × List Nat :=
  let r := s.codewords ch (burstWords a)
  let s1 := if r.2.2 then r.1.writeBack ch a stale else r.1
  (r.2.1.foldl (fun s w => s.treatUe ch w) s1, r.2.1)

/-- R287, R341: the last burst of packet `k`, which is served from DRAM, has returned: its DRAM buffers are freed, and it goes on, or, where a
word was uncorrectable, is discarded at buffer read. -/
def State.served (s : State) (k : Nat) : State :=
  match s.pkt k with
  | none => s
  | some p =>
    let q := { p with data := s.getOctets p.dram p.length, dram := [], loc := if s.fab.building.contains k then .building else .seamDown }
    let s1 := (s.setPkt k q).palFreeAll p.dram 4
    if p.spoilt then
      ((s1.withFab { s1.fab with building := s1.fab.building.filter (· != k) }).tally1 771 p.length).discardPkt k 8 0
    else s1

/-- R341: a burst read for packet `k` has returned; `bad`: a word of it was uncorrectable. -/
def State.burstBack (s : State) (k : Nat) (bad : Bool) : State :=
  match s.pkt k with
  | none => s
  | some p => s.setPkt k { p with reads := p.reads - 1, spoilt := p.spoilt || bad }

/-- R346: the octets in the return FIFO of a real-time port: those returned of packets still being read, and packets from DRAM that wait to
cross the Seam. -/
def State.returnFill (s : State) (rt : Nat) : Nat :=
  ((s.nodeOut (rt - 1)).map (fun k => match s.pkt k with
    | some p =>
      if !p.fromDram then 0
      else if p.loc = .reading then p.length - 64 * p.reads
      else if p.loc = .seamDown then p.length
      else 0
    | none => 0)).sum

/-- R346: the real-time ports in panic: their return FIFO holds less than PANIC_LEVEL and they have requests outstanding; each entry into
panic counts. -/
def State.notePanic (s : State) : State :=
  let out := ((s.dram.channels.flatMap (fun e => e.2.requests ++ e.2.inFlight)).map (·.rt)).eraseDups
  let now_ := out.filter (fun p => p != 0 && decide (s.returnFill p < 1024 * s.rd F.DMC_RT_CFG.PANIC_LEVEL))
  let new := now_.filter (fun p => !s.dram.panic.contains p)
  ((s.incSat F.DMC_RT_CFG.PANIC_CNT 0 new.length).withDram { s.dram with panic := now_ })

/-- DRAM_READ_RETURN (R287, R338 to R341, R354): the oldest read that channel `ch` has issued returns. `dq`, `cb` and `fails` are the errors
that strike the channel before it is checked. -/
def execDramReadReturn (ch : Nat) (dq cb : List (Nat × Nat)) (fails : List Nat) (s0 : State) : Result :=
  .next <|
    let s := s0.strikeDram ch dq cb fails
    let c := s.chan ch
    match c.inFlight with
    | [] => s
    | r :: rest =>
      let t := (s.setChan ch { c with inFlight := rest }).checkBurst ch r.addr r.stale
      match r.for_ with
      | .nothing => t.1
      | .serve k =>
        let s1 := t.1.burstBack k (t.2 != [])
        (match s1.pkt k with | some p => if p.reads = 0 then s1.served k else s1 | none => s1).notePanic
      | .copy k => if t.2 = [] then t.1.burstBack k false else t.1.dropAtRead k

/-- PATROL_SCRUB (R343): the scrub's next burst of the channel is read, in a slot that no request needs, one burst in the time that passes
over the whole channel once in SCRUB_PERIOD. `dq`, `cb` and `fails` are the errors that strike the channel from then on. -/
def execPatrolScrub (ch : Nat) (dq cb : List (Nat × Nat)) (fails : List Nat) (s : State) : Result :=
  .next <|
    if 16 ≤ ch then s
    else
      let c := s.chan ch
      let hours := s.rd F.DMC_ERR_CFG.SCRUB_PERIOD
      let off := hours == 0 || !s.chanLives ch || !s.on F.DMC_CH_STATUS.UP ch || s.on F.DMC_CH_STATUS.TRAINING ch || s.dramStopped ||
        c.requests != []
      let s1 :=
        if off then s
        else
          let s2 := s.advanceTo (max c.scrubAt s.fab.startAt + ms (3600000 * hours) / (s.chanBytes / 64))
          let s3 := s2.setChan ch { c with scrubPtr := (c.scrubPtr + 64) % s.chanBytes, scrubAt := s2.now }
          (s3.checkBurst ch c.scrubPtr false).1
      s1.strikeDram ch dq cb fails

/-- CA_PARITY_ERROR (R354): a command/address parity error that recurs on `fails` consecutive replays; 16 lose the channel. -/
def execCaParityError (ch fails : Nat) (s : State) : Result :=
  .next <|
    if !s.chanLives ch then s
    else
      let n := 1 + min fails 16
      let s1 := (List.range n).foldl (fun s _ => (s.incSat F.DMC_CH_STATUS.PARITY_CNT ch).errPost 2 ch 31 noPlace) s
      if 16 ≤ fails then s1.loseChannel ch 2 else s1

/-! ### Command scheduling (R344 to R346, R348, R350) -/

/-- R344: the requests that the read queue of 128 and the write queue of 64 hold; one that finds its queue full keeps those behind it
out. -/
def visible : Nat → Nat → List Req → List Req
  | _, _, [] => []
  | r, w, x :: xs =>
    if x.write then (if w = 0 then [] else x :: visible r (w - 1) xs)
    else (if r = 0 then [] else x :: visible (r - 1) w xs)

/-- R345: `r`, with the requests before it, may be issued. -/
def State.issuable (s : State) (all before : List Req) (r : Req) : Bool :=
  let k := (s.place r.addr).key
  let inBank (q : Req) : Bool := (s.place q.addr).key == k
  let inOrder := all.any (fun w => w.write && w.ordered && inBank w)
  (!inOrder || !before.any inBank) && !(r.write && before.any (fun q => q.addr == r.addr))

/-- R345: the requests that may be issued, in order of arrival. -/
def State.issuables (s : State) (all : List Req) : List Req → List Req → List Req
  | _, [] => []
  | before, r :: rest =>
    if s.issuable all before r then r :: s.issuables all (before ++ [r]) rest else s.issuables all (before ++ [r]) rest

/-- The request hits an open row. -/
def State.rowHit (s : State) (c : Channel) (r : Req) : Bool :=
  Sparse.read none c.openRows (s.place r.addr).key == some (s.place r.addr).row

/-- R45: the request is one of a run-ahead step. -/
def Req.ahead (r : Req) : Bool := match r.for_ with | .copy _ => true | _ => false

/-- R344, steps 2 to 5: the request to be served next; one of a run-ahead step only where no committed one may be (R45). -/
def State.chooseReq (s : State) (c : Channel) (panic : List Nat) (all : List Req) : Option Req :=
  let cands := if all.all Req.ahead then all else all.filter (fun r => !r.ahead)
  match cands.find? (fun r => panic.contains r.rt) with
  | some r => some r
  | none =>
    let cs := if c.draining && cands.any (·.write) then cands.filter (·.write) else cands
    match cs.find? (fun r => decide (r.at_ + ns (100 * s.rd F.DMC_SCHED_CFG.AGE_CAP) < s.now)) with
    | some r => some r
    | none =>
      match cs.find? (s.rowHit c) with
      | some r => some r
      | none => cs.head?

/-- R348: a REF command to each rank, with every row closed. -/
def State.refreshNow (s : State) (ch : Nat) : State :=
  let c := s.chan ch
  let s1 := s.setChan ch { c with owed := c.owed - 1, openRows := [] }
  let s2 := if c.openRows = [] then s1 else s1.emit (.dram ch "PREA" 0)
  (List.range (1 + s.rd F.DMC_CFG.RANKS)).foldl (fun s r => s.emit (.dram ch "REF" r)) s2

/-- R350: the rows beside `row` that an ACT's draw refreshes. -/
def State.neighbours (s : State) (bank row : Nat) : List (Nat × Nat) :=
  let d : List Int := if s.on F.DMC_REFRESH_CFG.NBR_DIST2 then [-1, 1, -2, 2] else [-1, 1]
  (d.filter (fun x => decide (0 ≤ (row : Int) + x) && decide ((row : Int) + x < s.rows))).map (fun x => (bank, ((row : Int) + x).toNat))

/-- R350: the draw that an ACT to row `row` of a bank makes, which may call for its neighbours. -/
def State.drawNbr (s : State) (ch bank row : Nat) : State :=
  if s.on F.DMC_REFRESH_CFG.NBR_EN then
    let hit := decide (s.freeVal % 2 ^ s.rd F.DMC_REFRESH_CFG.NBR_K = 0)
    let c := s.chan ch
    (s.freeDraw).setChan ch (if hit then { c with nbr := c.nbr ++ s.neighbours bank row } else c)
  else s

/-- R350: row `row` of a bank is opened. -/
def State.activate (s : State) (ch bank row : Nat) : State :=
  let c := s.chan ch
  let s1 := s.setChan ch { c with openRows := Sparse.write none c.openRows bank (some row) }
  (s1.emit (.dram ch "ACT" (row * 32 + bank))).drawNbr ch bank row

/-- R340, R344: the RD or WR of request `r` issues: a read waits to return, and a write ends the errors in its burst and the write-backs
that reads of it in flight would make. -/
def State.issueBurst (s : State) (ch : Nat) (r : Req) : State :=
  let c := s.chan ch
  let left := c.requests.erase r
  if r.write then
    let fly := c.inFlight.map (fun q => if q.addr / 64 = r.addr / 64 then { q with stale := true } else q)
    ((s.setChan ch { c with requests := left, inFlight := fly }).healBurst ch r.addr).emit (.dram ch "WR" r.addr)
  else (s.setChan ch { c with requests := left, inFlight := c.inFlight ++ [r] }).emit (.dram ch "RD" r.addr)

/-- R344, R350: the next command that serves request `r`. -/
def State.issueFor (s : State) (ch : Nat) (r : Req) : State :=
  let c := s.chan ch
  let p := s.place r.addr
  match Sparse.read none c.openRows p.key with
  | some row =>
    if row = p.row then s.issueBurst ch r
    else (s.setChan ch { c with openRows := Sparse.write none c.openRows p.key none }).emit (.dram ch "PRE" p.key)
  | none =>
    match c.nbr.find? (fun e => e.1 == p.key) with
    | some e =>
      (((s.setChan ch { c with nbr := c.nbr.erase e }).emit (.dram ch "ACT" (e.2 * 32 + e.1))).drawNbr ch e.1 e.2).emit
        (.dram ch "PRE" e.1)
    | none => s.activate ch p.key p.row

/-- The channel is in service and takes commands. -/
def State.chanServes (s : State) (ch : Nat) : Bool :=
  s.chanLives ch && s.on F.DMC_CH_STATUS.UP ch && !s.on F.DMC_CH_STATUS.TRAINING ch && !s.dramStopped

/-- R344 to R350: channel `ch` issues its next command. -/
def State.issueNext (s : State) (ch : Nat) : State :=
  if !s.chanServes ch then s
  else
    let s0 := s.notePanic
    let c := s0.chan ch
    let all := visible 128 64 c.requests
    let w := (all.filter (·.write)).length
    let drain := if s.rd F.DMC_SCHED_CFG.WQ_HIGH ≤ w then true else if w ≤ s.rd F.DMC_SCHED_CFG.WQ_LOW then false else c.draining
    let c1 : Channel := { c with draining := drain }
    let s1 := s0.setChan ch c1
    let cands := s1.issuables all [] all
    let wanted := cands.any (fun r => s1.dram.panic.contains r.rt || s1.rowHit c1 r)
    if 8 ≤ c1.owed ∨ (0 < c1.owed ∧ !wanted) then s1.refreshNow ch
    else
      match s1.chooseReq c1 s1.dram.panic cands with
      | none => s1
      | some r => s1.issueFor ch r

/-- DRAM_COMMAND_ISSUE (R344 to R350): channel `ch` issues its next command; `strikes` are the errors that strike the channel with it. -/
def execDramCommandIssue (ch : Nat) (strikes : List (Nat × Nat)) (s : State) : Result :=
  .next ((s.issueNext ch).strikeDram ch strikes [] [])

/-- The DRAM temperature in degrees (R349). -/
def State.dramTemp (s : State) : Int := (BitVec.ofNat 8 (s.rd F.DMC_TEMP.TEMP)).toInt

/-- REFRESH (R348, R349): a refresh interval of the channel has passed; a ninth postponed refresh is issued at once. -/
def execRefresh (ch : Nat) (s : State) : Result :=
  .next <|
    if !s.chanLives ch || !s.on F.DMC_CH_STATUS.UP ch || s.rd F.DMC_FREQ_STATUS.STATE == 2 then s
    else
      let fast := s.on F.DMC_TEMP.STALE || decide (85 < s.dramTemp)
      let c := s.chan ch
      let t := c.refreshedAt + ns (if fast then 3900 else 7800)
      let s1 := (s.advanceTo t).setChan ch { c with owed := c.owed + 1, refreshedAt := max t c.refreshedAt }
      if 8 < c.owed + 1 then s1.refreshNow ch else s1

/-- TEMP_WRITE (R349): a write of DMC_TEMP. -/
def State.tempWrite (s : State) (v : Nat) : State :=
  let s1 := (s.wr F.DMC_TEMP.TEMP 0 v).wr F.DMC_TEMP.STALE 0 0
  let s2 := s1.withDram { s1.dram with tempAt := s1.now }
  if 95 < s2.dramTemp then s2.setCause F.DMC_TEMP.HOT 0 5 else s2

/-- TEMP_WRITE (R349). -/
def execTempWrite (v : Nat) (s : State) : Result := .next (s.landed .DMC_TEMP (fun s => s.tempWrite v))

/-- TEMP_STALE (R349): TEMP has not been written for 2 s. -/
def execTempStale (s : State) : Result :=
  .next (if s.on F.DMC_TEMP.STALE then s else (s.advanceTo (s.dram.tempAt + ms 2000)).setCause F.DMC_TEMP.STALE 0 5)

/-! ### Training (R351 to R353) -/

/-- A channel's training completes: it serves, and TEMP_AT_TRAIN takes the temperature. -/
def State.trained (s : State) (ch : Nat) : State :=
  let s1 := ((s.wr F.DMC_CH_STATUS.UP ch 1).wr F.DMC_CH_STATUS.TRAINING ch 0).wr F.DMC_CH_STATUS.TEMP_AT_TRAIN ch
    (s.rd F.DMC_TEMP.TEMP)
  s1.setChan ch { s1.chan ch with steps := 0, periodicAt := s1.now, refreshedAt := s1.now }

/-- R342, R351, R354: a channel's full training fails. -/
def State.trainFailed (s : State) (ch : Nat) : State := (s.errPost 3 ch 31 noPlace).loseChannel ch 0

/-- R333, R351: full training of a channel, whose mode registers are set for it; `failed`: it fails. -/
def State.trainOne (s : State) (failed : List Nat) (ch : Nat) : State :=
  if !s.chanLives ch then s
  else
    let s1 := s.emit (.dram ch "MRS" (s.rd F.DMC_FREQ_STATUS.CURRENT))
    if failed.contains ch then s1.trainFailed ch else s1.trained ch

/-- R351: full training of every enabled channel that is not lost; those of `failed` fail. -/
def State.fullTraining (s : State) (failed : List Nat) : State := s.channels.foldl (fun s ch => s.trainOne failed ch) s

/-- FULL_TRAINING (R351): outside a frequency change, full training of the channels that are not yet in service completes; those of `failed`
fail. -/
def execFullTraining (failed : List Nat) (s : State) : Result :=
  .next <|
    if s.rd F.DMC_FREQ_STATUS.STATE = 0 ∨ s.rd F.DMC_FREQ_STATUS.STATE = 4 then
      s.channels.foldl (fun s ch => if s.on F.DMC_CH_STATUS.UP ch then s else s.trainOne failed ch) s
    else s

/-- R352: the temperature has moved by TEMP_DELTA or more since the channel's last completed training. -/
def State.tempMoved (s : State) (ch : Nat) : Bool :=
  let t0 := (BitVec.ofNat 8 (s.rd F.DMC_CH_STATUS.TEMP_AT_TRAIN ch)).toInt
  decide (s.rd F.DMC_TRAIN_CFG.TEMP_DELTA ≤ (s.dramTemp - t0).natAbs)

/-- A training step is in progress on some channel. -/
def State.training (s : State) : Bool := s.channels.any (fun ch => s.on F.DMC_CH_STATUS.TRAINING ch)

/-- PERIODIC_TRAINING_STEP (R352): the next step of a pass begins on the channel: of a temperature trigger all four, of the 128 ms timer
read gate and read eye centring; a pass of all four that meets the timer serves both. -/
def execPeriodicTrainingStep (ch : Nat) (s : State) : Result :=
  .next <|
    let st := s.rd F.DMC_FREQ_STATUS.STATE
    if !s.chanLives ch || !s.on F.DMC_CH_STATUS.UP ch || s.training || (st != 0 && st != 4) then s
    else
      let c := s.chan ch
      let start (s : State) (c : Channel) : State := (s.setChan ch c).wr F.DMC_CH_STATUS.TRAINING ch 1
      if 0 < c.steps then start s c
      else if s.tempMoved ch then
        start s { c with steps := 4, periodicAt := if c.periodicAt + ms 128 ≤ s.now then s.now else c.periodicAt }
      else if s.on F.DMC_TRAIN_CFG.PERIODIC_EN then
        let s1 := s.advanceTo (c.periodicAt + ms 128)
        start s1 { c with steps := 2, periodicAt := s1.now }
      else s

/-! ### Frequency change (R356 to R358) -/

/-- R331, R356: the population allows the speed. -/
def State.speedOk (s : State) (v : Nat) : Bool := decide (v ≤ if s.on F.DMC_CFG.RANKS then 2 else 3)

/-- R356, R357: GO is written. -/
def State.freqGo (s : State) : State :=
  let target := s.rd F.DMC_FREQ_CTRL.TARGET
  let st := s.rd F.DMC_FREQ_STATUS.STATE
  if !s.speedOk target then s.setCause F.DMC_FREQ_STATUS.REFUSED 0 5
  else if st = 0 ∨ st = 4 then
    if target = s.rd F.DMC_FREQ_STATUS.CURRENT then (s.wr F.DMC_FREQ_STATUS.STATE 0 0).setCause F.DMC_FREQ_STATUS.DONE 0 5
    else
      let s1 := s.wr F.DMC_FREQ_STATUS.PENDING 0 target
      if s.training then s1.wr F.DMC_FREQ_STATUS.STATE 0 1 else s1.switching
  else if st = 3 then
    (s.wr F.DMC_FREQ_STATUS.PENDING 0 target).withDram { s.dram with goHeld := true }
  else s.wr F.DMC_FREQ_STATUS.PENDING 0 target

/-- FREQ_GO (R356, R357): DMC_FREQ_CTRL is written with GO. -/
def execFreqGo (target : Nat) (s : State) : Result :=
  .next (s.landed .DMC_FREQ_CTRL (fun s => (s.wr F.DMC_FREQ_CTRL.TARGET 0 target).freqGo))

/-- Full training begins on every channel not lost. -/
def State.startTraining (s : State) : State :=
  s.channels.foldl (fun s ch => if s.chanLives ch then s.wr F.DMC_CH_STATUS.TRAINING ch 1 else s) s

/-- FREQ_SWITCH_COMPLETE (R357): outstanding commands have completed, the clock is changed and self-refresh exited; full training begins. -/
def execFreqSwitchComplete (s : State) : Result :=
  .next <|
    if s.rd F.DMC_FREQ_STATUS.STATE ≠ 2 || s.channels.any (fun ch => s.chanLives ch && (s.chan ch).inFlight != []) then s
    else
      let s1 := s.channels.foldl (fun s ch =>
        let s2 := s.setChan ch { s.chan ch with openRows := [] }
        if s2.chanLives ch then s2.emit (.dram ch "SRX" 0) else s2) s
      (s1.wr F.DMC_FREQ_STATUS.STATE 0 3).startTraining

/-- TRAINING_STEP_END (R352, R357): the step in progress on the channel ends. While a change is deferred, or a further GO is held, its
result is discarded. -/
def execTrainingStepEnd (ch : Nat) (s : State) : Result :=
  .next <|
    if !s.on F.DMC_CH_STATUS.TRAINING ch then s
    else
      let st := s.rd F.DMC_FREQ_STATUS.STATE
      let c := s.chan ch
      if st = 3 then
        if s.dram.goHeld then
          let s1 := s.incSat F.DMC_FREQ_STATUS.DISCARDS
          (s1.withDram { s1.dram with goHeld := false }).startTraining
        else s
      else
        let s1 := s.wr F.DMC_CH_STATUS.TRAINING ch 0
        if st = 1 then (s1.incSat F.DMC_FREQ_STATUS.DISCARDS).switching
        else
          let s2 := s1.setChan ch { c with steps := c.steps - 1 }
          if c.steps ≤ 1 then s2.wr F.DMC_CH_STATUS.TEMP_AT_TRAIN ch (s.rd F.DMC_TEMP.TEMP) else s2

/-- FREQ_TRAINING_COMPLETE (R357): full training at the new speed ends. `bad` failed at it, and `worse` of them at the previous speed
too. -/
def execFreqTrainingComplete (bad worse : List Nat) (s : State) : Result :=
  .next <|
    if s.rd F.DMC_FREQ_STATUS.STATE ≠ 3 || s.dram.goHeld then s
    else
      let lost := bad.filter (fun ch => worse.contains ch)
      let back := bad.any (fun ch => s.chanLives ch && !worse.contains ch)
      let s1 := (s.channels.filter (fun ch => bad.contains ch && s.chanLives ch)).foldl
        (fun s ch => s.errPost 3 ch 31 noPlace) s
      let speed := s.rd (if back then F.DMC_FREQ_STATUS.CURRENT else F.DMC_FREQ_STATUS.PENDING)
      let s2 := ((s1.wr F.DMC_FREQ_STATUS.CURRENT 0 speed).wr F.DMC_FREQ_STATUS.PENDING 0 0).fullTraining lost
      (if back then s2.wr F.DMC_FREQ_STATUS.STATE 0 4
      else (s2.wr F.DMC_FREQ_STATUS.STATE 0 0).setCause F.DMC_FREQ_STATUS.DONE 0 5).cntResume

end Sys2Proof.Machine
end

