-- ==== Sys2Proof/Machine/Fabric.lean ====
section
/-!
DEFINITION. The fabric interface (chapter 11): Swatches, lanes and spray cycles, the VOQ arbiter, credits, and the resequencer.
-/
namespace Sys2Proof.Machine

/-! ### The Swatch (R363 to R365) -/

/-- Header fields (R363). -/
def Swatch.kind (w : Swatch) : Nat := bitsOf w.hdr 126 2
def Swatch.src (w : Swatch) : Nat := bitsOf w.hdr 115 11
def Swatch.dst (w : Swatch) : Nat := bitsOf w.hdr 104 11
def Swatch.cls (w : Swatch) : Nat := bitsOf w.hdr 101 3
def Swatch.seq (w : Swatch) : Nat := bitsOf w.hdr 85 16
def Swatch.first (w : Swatch) : Bool := bitsOf w.hdr 84 1 == 1
def Swatch.last (w : Swatch) : Bool := bitsOf w.hdr 83 1 == 1
def Swatch.fill (w : Swatch) : Nat := bitsOf w.hdr 75 8
def Swatch.hop (w : Swatch) : Bool := bitsOf w.hdr 74 1 == 1
def Swatch.err (w : Swatch) : Bool := bitsOf w.hdr 73 1 == 1

/-- R364: the header check of a header, HCRC taken as zero. -/
def hcrc (hdr : Nat) : Nat := crc8Bits 0xFF (setBits hdr 64 8 0) 128

/-- A header with its check. -/
def checked (hdr : Nat) : Nat := setBits hdr 64 8 (hcrc hdr)

/-- R364: the check of a received Swatch holds. -/
def Swatch.good (w : Swatch) : Bool := bitsOf w.hdr 64 8 == hcrc w.hdr

/-- The 272 octets of a slot (R360). -/
def Swatch.octets (w : Swatch) : List Byte := octetsBE 16 w.hdr ++ padTo 256 w.payload

/-- A slot's octets as a Swatch. -/
def swatchOf (octets : List Byte) : Swatch := ⟨natBE (padTo 16 octets), padTo 256 (octets.drop 16)⟩

/-- The head of a header: KIND, SRC_MOD and DST_MOD. -/
def hdrHead (kind src dst : Nat) : Nat := kind * 2 ^ 126 + src % 2048 * 2 ^ 115 + dst % 2048 * 2 ^ 104

/-- R363, R365: Swatch `i` of `k` of a packet. -/
def dataSwatch (src dst cls seq i k : Nat) (p : Pkt) : Swatch :=
  let b (x : Bool) (n : Nat) : Nat := if x then 2 ^ n else 0
  let body := (p.data.drop (256 * i)).take 256
  let firstWord := if i = 0 then
      p.carry.queue % 2 ^ 20 * 2 ^ 44 + p.carry.adj % 2 ^ 20 * 2 ^ 24 + p.carry.eprof % 64 * 2 ^ 18 + p.carry.dp % 4 * 2 ^ 16 +
        p.carry.etag % 65536
    else 0
  ⟨checked (hdrHead 0 src dst + cls % 8 * 2 ^ 101 + seq % 65536 * 2 ^ 85 + b (i = 0) 84 + b (i + 1 = k) 83 +
    (body.length - 1) % 256 * 2 ^ 75 + b p.err 73 + firstWord), padTo 256 body⟩

/-- Own module number. -/
def State.own (s : State) : Nat := s.rd F.FAB_CFG.MOD_ID

/-- FAB_CFG.MODE (R362). -/
def State.fabMode (s : State) : Nat := s.rd F.FAB_CFG.MODE

/-- R371: data and credit Swatches may be sent. -/
def State.fabSpeaks (s : State) : Bool :=
  s.fabMode != 0 && (match s.fab.quiet with | some t => decide (t ≤ s.now) | none => false)

/-- A fabric counter (FAB_ERR_CNT). -/
def State.fabErr (s : State) (j : Nat) (n : Nat := 1) : State := s.incWrap F.FAB_ERR_CNT.COUNT j n

/-! ### Lanes and spray cycles (R361, R372 to R375) -/

/-- A lane. -/
def State.lane (s : State) (l : Nat) : Lane := Sparse.read Lane.idle s.fab.lanes l

/-- Replace a lane. -/
def State.setLane (s : State) (l : Nat) (x : Lane) : State :=
  s.withFab { s.fab with lanes := Sparse.write Lane.idle s.fab.lanes l x }

/-- The lane is enabled. -/
def State.laneEn (s : State) (l : Nat) : Bool := (s.rd F.FAB_LANE_EN.EN (l / 64)).testBit (l % 64)

/-- The lane is enabled and up, and its neighbour has been heard. -/
def State.laneHears (s : State) (l : Nat) : Bool :=
  decide (l < 96) && s.fabMode != 0 && s.laneEn l && s.on F.FAB_LANE_STATUS.UP l && (s.lane l).heard

/-- R374: the neighbour passes the second and third tests. -/
def State.laneWired (s : State) (l : Nat) : Bool :=
  let elem := s.on F.FAB_LANE_STATUS.NBR_ELEMENT l
  (elem == (s.fabMode == 1)) &&
    (s.fabMode != 3 ||
      (match (List.range 96).find? s.laneHears with
        | some k => s.rd F.FAB_LANE_STATUS.NBR_NODE l == s.rd F.FAB_LANE_STATUS.NBR_NODE k
        | none => true))

/-- R374: the destinations whose cycle holds lane `l`, bit d for module d. -/
def State.laneBits (s : State) (l : Nat) : Nat := if s.laneHears l && s.laneWired l then (s.lane l).bits else 0

/-- R375: the spray cycle of a destination. -/
def State.cycle (s : State) (d : Nat) : List Nat := (List.range 96).filter (fun l => (s.laneBits l).testBit d)

/-- The lane at the pointer. -/
def atPointer (cyc : List Nat) (p : Nat) : Option Nat :=
  match cyc.find? (fun l => decide (p ≤ l)) with
  | some l => some l
  | none => cyc.head?

/-- R375: the lane of the next Swatch built for `d`; the pointer moves on. -/
def State.spray (s : State) (d : Nat) : State × Option Nat :=
  match atPointer (s.cycle d) (Sparse.read 0 s.fab.ptrs d) with
  | some l => ((s.withFab { s.fab with ptrs := Sparse.write 0 s.fab.ptrs d (l + 1) }), some l)
  | none => (s, none)

/-- R373: the modules this one can deliver a Swatch to. -/
def State.canDeliver (s : State) : Nat :=
  (List.range 96).foldl (fun m l =>
    if s.fabMode == 2 && s.laneHears l && !s.on F.FAB_LANE_STATUS.NBR_ELEMENT l then
      Nat.lor m (2 ^ s.rd F.FAB_LANE_STATUS.NBR_NODE l)
    else m) (2 ^ s.own)

/-- R373: a reachability Swatch becomes due on every enabled lane. -/
def State.reachDue (s : State) : State :=
  (List.range 96).foldl (fun s l => if s.laneEn l then s.setLane l { s.lane l with reach := true } else s) s

/-- R373: a change in what the module can deliver is told. -/
def State.tellReach (s : State) : State :=
  let m := s.canDeliver
  if m = s.fab.deliver then s
  else (s.withFab { s.fab with deliver := m, msgSeq := (s.fab.msgSeq + 1) % 65536 }).reachDue

/-- R374, R378: after a change of the lanes, the registers that show the cycles follow; `old` are the cycles of the lanes before. -/
def State.recycle (s : State) (old : List Nat) : State :=
  let new := (List.range 96).map s.laneBits
  let diff := (List.zipWith Nat.xor old new).foldl Nat.lor 0
  let s1 := (List.range 96).foldl (fun s l => s.wrBit F.FAB_LANE_STATUS.IN_CYCLE l (new.getD l 0 != 0)) s
  let s2 := (List.range 2048).foldl (fun s d =>
    if !diff.testBit d then s
    else
      let n := (new.filter (fun b => b.testBit d)).length
      let was := s.on F.FAB_DEST_STATUS.REACHABLE d
      let s3 := (s.wr F.FAB_DEST_STATUS.LINKS d n).wrBit F.FAB_DEST_STATUS.REACHABLE d (n != 0)
      if was && n == 0 then (s3.withFab { s3.fab with unreachAt := Sparse.write 0 s3.fab.unreachAt d s3.now })
      else if n != 0 then (s3.withFab { s3.fab with gone := s3.fab.gone.filter (· != d) })
      else s3) s1
  s2.tellReach

/-- R374: lanes that are heard and fail the second or third test. -/
def State.wiring (s : State) : State :=
  (List.range 96).foldl (fun s l =>
    if s.laneHears l && !s.laneWired l && !s.on F.FAB_LANE_STATUS.WIRING_ERR l then s.setCause F.FAB_LANE_STATUS.WIRING_ERR l 12
    else s) s

/-- R377, R385: a relayed or credit Swatch of a lane that has left the cycle of its destination is assigned again. -/
def State.reassign (s : State) (relayed : Bool) (w : Swatch) : State :=
  match (s.fabErr 4).spray w.dst with
  | (s1, none) => (s1.fabErr 5).discardAt 13
  | (s1, some l) =>
    let x := s1.lane l
    s1.setLane l <|
      if w.kind = 0 then { x with relayData := x.relayData ++ [w] }
      else if relayed then { x with relayCred := x.relayCred ++ [w] }
      else { x with credits := x.credits ++ [w] }

/-- R385: Swatches of transmit queues that are to be assigned again are, in order, as far as the lanes at their turn have room. -/
def State.placeAgain (s : State) : Nat → State
  | 0 => s
  | n + 1 =>
    match s.fab.again with
    | [] => s
    | w :: ws =>
      let s1 := s.withFab { s.fab with again := ws }
      match s1.spray w.dst with
      | (s2, none) => (((s2.fabErr 4).fabErr 5).discardAt 13).placeAgain n
      | (s2, some l) =>
        if 8 ≤ (s.lane l).tx.length then s
        else ((s2.setLane l { s2.lane l with tx := (s2.lane l).tx ++ [w] }).fabErr 4).placeAgain n

/-- R385, R386: the Swatches queued on lane `l` for destinations whose cycle it has left are assigned again. -/
def State.leaveCycles (s : State) (l : Nat) : State :=
  let x := s.lane l
  let bits := s.laneBits l
  let stay (w : Swatch) : Bool := bits.testBit w.dst
  let go (ws : List Swatch) : List Swatch := ws.filter (fun w => !stay w)
  let s1 := s.setLane l { x with
    tx := x.tx.filter stay, relayData := x.relayData.filter stay, relayCred := x.relayCred.filter stay, credits := x.credits.filter stay }
  let s2 := (go x.relayCred).foldl (fun s w => s.reassign true w) s1
  let s3 := (go x.credits).foldl (fun s w => s.reassign false w) s2
  let s4 := (go x.relayData).foldl (fun s w => s.reassign true w) s3
  s4.withFab { s4.fab with again := s4.fab.again ++ go x.tx }

/-- R374, R384 to R386: change the lanes by `f` and let everything that follows from the cycles follow. -/
def State.withLanes (s : State) (f : State → State) : State :=
  let old := (List.range 96).map s.laneBits
  let s1 := ((f s).recycle old).wiring
  let left := (List.range 96).filter (fun l => s1.laneBits l != old.getD l 0)
  let s2 := left.foldl (fun s l => s.leaveCycles l) s1
  s2.placeAgain s2.fab.again.length

/-- LANE_LOCK (R361): 8 consecutive good groups of 20 slots have been found on lane `l`. -/
def execLaneLock (l : Nat) (s : State) : Result :=
  .next (if 96 ≤ l ∨ s.fabMode = 0 ∨ !s.laneEn l then s else s.withLanes (fun s => s.wr F.FAB_LANE_STATUS.UP l 1))

/-- R384, R385: lane `l` goes out of service as a loss; its neighbour is to be heard anew. -/
def State.laneDown (s : State) (l : Nat) (after : State → State) : State :=
  let s1 := s.withLanes (fun s =>
    after ((s.wr F.FAB_LANE_STATUS.UP l 0).setLane l { s.lane l with heard := false, bits := 0, lastMsg := none }))
  (s1.setCause F.FAB_LANE_STATUS.DOWN_CHG l 12).incSat F.FAB_LANE_STATUS.DOWN_CNT l

/-- LANE_DOWN (R361, R384, R385): lane `l` has lost PCS lock or 2 consecutive control positions. -/
def execLaneDown (l : Nat) (s : State) : Result :=
  .next (if 96 ≤ l ∨ !s.on F.FAB_LANE_STATUS.UP l then s else s.laneDown l id)

/-- R384: FAB_LANE_EN(w) takes a new value; each lane whose bit is cleared while it is up goes out of service. -/
def State.laneEnWrite (s : State) (w v : Nat) : State :=
  let v := if w = 0 then v % 2 ^ 64 else v % 2 ^ 32
  let lost := (List.range 64).filter (fun i =>
    decide (64 * w + i < 96) && s.laneEn (64 * w + i) && !v.testBit i && s.on F.FAB_LANE_STATUS.UP (64 * w + i))
  let off (s : State) (i : Nat) : State := s.wr F.FAB_LANE_EN.EN w (setBits (s.rd F.FAB_LANE_EN.EN w) i 1 0)
  (lost.foldl (fun s i => s.laneDown (64 * w + i) (fun s => off s i)) s).withLanes (fun s => s.wr F.FAB_LANE_EN.EN w v)

/-- LANE_EN_WRITE (R384). -/
def execLaneEnWrite (w v : Nat) (s : State) : Result := .next (if 2 ≤ w then s else s.landed .FAB_LANE_EN (fun s => s.laneEnWrite w v))

/-! ### Transmission (R360, R372, R376) -/

/-- A link-control Swatch of lane `l`. -/
def State.linkControl (s : State) (l sub : Nat) : Swatch :=
  let bitmap := octetsBE 256 ((List.range 2048).foldl (fun m d => if s.fab.deliver.testBit d then m + 2 ^ (2047 - d) else m) 0)
  ⟨checked (hdrHead 3 s.own l + sub * 2 ^ 101 + s.fab.msgSeq * 2 ^ 85), if sub = 1 then bitmap else List.replicate 256 0⟩

/-- REACHABILITY_SEND (R373): 100 µs have passed since the last reachability Swatches. -/
def execReachabilitySend (s : State) : Result :=
  .next <|
    if s.fabMode = 0 then s
    else
      let s1 := s.advanceTo (s.fab.reachAt + us 100)
      (s1.withFab { s1.fab with reachAt := s1.now, deliver := s1.canDeliver }).reachDue

/-! ### The VOQ arbiter (R318 to R321, R365, R375, R376) -/

/-- The Swatches of a packet (R365). -/
def swatchCount (len : Nat) : Nat := max 1 ((len + 255) / 256)

/-- R376: every lane that `k` Swatches to `d` will be assigned to has room; a lane never needs room for more than its queue holds. -/
def State.lanesRoom (s : State) (d k : Nat) : Bool :=
  let cyc := s.cycle d
  let go := (List.range k).foldl (fun (acc : Nat × List Nat) _ =>
    match atPointer cyc acc.1 with
    | some l => (l + 1, l :: acc.2)
    | none => acc) (Sparse.read 0 s.fab.ptrs d, [])
  !cyc.isEmpty && cyc.all (fun l => decide ((s.lane l).tx.length + min 8 ((go.2.filter (· == l)).length) ≤ 8))

/-- The VOQ that packet `p` was dequeued from. -/
def Pkt.voq (p : Pkt) : Nat := 8 * (p.carry.destMod % 2048) + p.carry.cls % 8

/-- R376: the arbiter may go on to VOQ `v`: no packet waits to be cut, and none of the VOQ is still being read. -/
def State.arbiterFree (s : State) (v : Nat) : Bool :=
  s.fab.again.isEmpty && s.fab.building.all (fun k => match s.pkt k with
    | some p => p.loc == .reading && p.voq != v
    | none => true)

/-- R305, R319, R376, R378: VOQ `v` may be dequeued. -/
def State.voqEligible (s : State) (v : Nat) : Bool :=
  let q := voqBase + v
  let x := s.queue q
  x.state == 2 && s.arbiterFree v && s.headReady q && decide (0 < x.cred) && decide (v / 8 ≠ s.own) &&
    s.on F.FAB_DEST_STATUS.REACHABLE (v / 8) && !s.on F.FAB_DEST_STATUS.UNREACH_FLUSH (v / 8) &&
    s.lanesRoom (v / 8) (swatchCount (match x.packets with | k :: _ => s.lenOf k | [] => 0))

/-- R320: the destinations of a class that may be served, by the VOQs that hold packets. -/
def State.classDests (s : State) (c : Nat) : List Nat :=
  (s.sched.queues.filter (fun e => decide (voqBase ≤ e.1) && (e.1 - voqBase) % 8 == c && s.voqEligible (e.1 - voqBase))).map
    (fun e => (e.1 - voqBase) / 8)

/-- R320: the classes that may be served. -/
def State.classCands (s : State) : List Cand :=
  ((List.range 8).filter (fun c => !(s.classDests c).isEmpty)).map (fun c =>
    ⟨c, false, s.rd F.SCH_VOQ_CLASS.BAND c, Sparse.read 0 s.sched.classTag c⟩)

/-- R308, R320: class `c` is selected: its band's V and its tag. -/
def State.chargeClass (s : State) (c leff : Nat) : State :=
  let b := s.rd F.SCH_VOQ_CLASS.BAND c
  let t := Sparse.read 0 s.sched.classTag c
  (s.withSched { s.sched with
      bandV := Sparse.write 0 s.sched.bandV b (tagMax (Sparse.read 0 s.sched.bandV b) t)
      classTag := Sparse.write 0 s.sched.classTag c ((t + tagStep leff (max 1 (s.rd F.SCH_VOQ_CLASS.WEIGHT c))) % 2 ^ 48) })

/-- The packet whose Swatches are assigned next: the one that has been begun, or the oldest that has been read. -/
def State.toCut (s : State) : Option (Nat × Pkt) :=
  s.fab.building.findSome? (fun k => match s.pkt k with
    | some p => if p.loc = .building then some (k, p) else none
    | none => none)

/-- R365, R375, R376: Swatch by Swatch, the packets dequeued from VOQs join the transmit queues, as far as the lanes at their turn have
room. -/
def State.build (s : State) : Nat → State
  | 0 => s
  | n + 1 =>
    match s.toCut with
    | none => s
    | some (k, p) =>
      let d := p.carry.destMod % 2048
      let i := s.fab.cutAt
      let all := swatchCount p.data.length
      let seq := Sparse.read 0 s.fab.seqs p.voq
      let last := decide (all ≤ i + 1)
      let next := s.withFab { s.fab with
        seqs := Sparse.write 0 s.fab.seqs p.voq ((seq + 1) % 65536)
        building := if last then s.fab.building.filter (· != k) else k :: s.fab.building.filter (· != k)
        cutAt := if last then 0 else i + 1 }
      let done (s : State) : State := if last then (s.trace k 7 0 [p.voq, 0]).removePkt k else s
      match next.spray d with
      | (s2, none) => (done ((s2.fabErr 5).discardAt 13)).build n
      | (s2, some l) =>
        if 8 ≤ (s.lane l).tx.length then s
        else
          let w := dataSwatch s.own d p.carry.cls seq i all p
          (done (s2.setLane l { s2.lane l with tx := (s2.lane l).tx ++ [w] })).build n

/-- R376, R385: what waits for room in the transmit queues takes it, Swatches assigned again first. -/
def State.fillLanes (s : State) : State := (s.placeAgain s.fab.again.length).build 800

/-- VOQ_DEQUEUE (R31, R290, R319, R320, R365): the arbiter serves a VOQ. `words` are the words of Canvas that soft errors strike before it. -/
def execVoqDequeue (words : List (Nat × Bool)) (s00 : State) : Result :=
  .next <|
    let s := s00.strikeCanvas words
    if !s.fabSpeaks || s.halted then s
    else
      let s0 := s.fillLanes
      match pick s0.classCands with
      | none => s0
      | some cand =>
        let c := cand.idx
        let ds := s0.classDests c
        let d := match ds.find? (fun d => decide (Sparse.read 0 s0.sched.lastMod c < d)) with
          | some d => d
          | none => ds.headD 0
        let q := voqBase + 8 * d + c
        let len := match (s0.queue q).packets with | k :: _ => s0.lenOf k | [] => 0
        let s1 := s0.chargeClass c (max 1 len)
        let s2 := s1.withSched { s1.sched with lastMod := Sparse.write 0 s1.sched.lastMod c d }
        match s2.takeHead q 0 with
        | (s3, none) => s3
        | (s3, some (k, source)) =>
          let s4 := s3.setQueue q { s3.queue q with cred := (s3.queue q).cred - 256 * swatchCount len }
          match s4.pkt k with
          | none => s4
          | some p =>
            let s5 := s4.trace k 5 0 [q, (s.now - p.enqAt) / 65536, source]
            let s6 := match s5.pkt k with
              | some p1 => if source = 2 then s5 else s5.setPkt k { p1 with loc := .building }
              | none => s5
            (s6.withFab { s6.fab with building := s6.fab.building ++ [k] }).fillLanes

/-- SLOT_TRANSMIT (R31, R360, R376): lane `l` sends one slot. -/
def execSlotTransmit (l : Nat) (s : State) : Result :=
  .next <|
    if 96 ≤ l ∨ s.fabMode = 0 ∨ !s.laneEn l then s
    else
      let x := s.lane l
      let speaks := s.fabSpeaks && !s.halted
      let y : Lane := { x with pos := (x.pos + 1) % 20 }
      if x.pos = 19 then
        match speaks, x.relayCred, x.credits with
        | true, w :: ws, _ => (s.setLane l { y with relayCred := ws }).emit (.swatch l w.octets)
        | true, [], w :: ws => (s.setLane l { y with credits := ws }).emit (.swatch l w.octets)
        | _, _, _ => (s.setLane l { y with reach := false }).emit (.linkControl l (s.linkControl l (if x.reach then 1 else 0)).octets)
      else
        match speaks, x.relayData, x.tx with
        | true, w :: ws, _ => (s.setLane l { y with relayData := ws }).emit (.swatch l w.octets)
        | true, [], w :: ws => ((s.setLane l { y with tx := ws }).emit (.swatch l w.octets)).fillLanes
        | _, _, _ => (s.setLane l y).emit (.swatch l (Swatch.octets ⟨checked (hdrHead 1 s.own 0), []⟩))

/-! ### The resequencer (R368, R380 to R382) -/

/-- A stream's receiving side. -/
def State.stream (s : State) (st : Nat) : Stream := Sparse.read Stream.idle s.fab.streams st

/-- Replace it. -/
def State.setStream (s : State) (st : Nat) (x : Stream) : State :=
  s.withFab { s.fab with streams := Sparse.write Stream.idle s.fab.streams st x }

/-- R368: the expected sequence number advances by `n`; each crossing of a multiple of 16 consumes a unit. -/
def Stream.advance (x : Stream) (n : Nat) : Stream :=
  { x with e := (x.e + n) % 65536, out := x.out - ((x.e + n) / 16 - x.e / 16) }

/-- The position of a sequence number in the window. -/
def Stream.off (x : Stream) (seq : Nat) : Nat := (seq + 65536 - x.e) % 65536

/-- The Swatch held at an offset. -/
def Stream.atOff (x : Stream) (o : Nat) : Option Held := x.held.find? (fun h => x.off h.seq == o)

/-- The deadline of the gap (R382). -/
def State.setDeadline (s : State) (st : Nat) : State :=
  let x := s.stream st
  let first := (x.held.map (·.at_)).min?
  if first = x.since then s
  else s.setStream st { x with since := first, deadline := first.map (· + us (s.rd F.FAB_RSQ_CFG.HOLD)) }

/-- A held Swatch is discarded at the resequencer (R34). -/
def State.dropHeldSw (s : State) (st : Nat) (h : Held) : State :=
  let x := s.stream st
  (((s.setStream st { x with held := x.held.erase h }).palFree h.ptr 3).1.incWrap F.FAB_STREAM_CNT.DISCARDED st).discardAt 7

/-- R381: the run of held Swatches from offset `o` up to the first LAST, oldest first. -/
def Stream.run (x : Stream) : Nat → Nat → Option (List Held)
  | 0, _ => none
  | n + 1, o =>
    match x.atOff o with
    | none => none
    | some h => if h.sw.last then some [h] else (x.run n (o + 1)).map (h :: ·)

/-- R381: a complete packet goes to the enqueue, its buffers linked in order. -/
def State.releasePacket (s : State) (st : Nat) (hs : List Held) : State :=
  match hs with
  | [] => s
  | h :: _ =>
    let fill := match hs.getLast? with | some g => g.sw.fill | none => 0
    let data := s.getOctets (hs.map (·.ptr)) (256 * (hs.length - 1) + fill + 1)
    let f := h.sw.hdr
    let ps := hs.map (·.ptr)
    let links := (List.zip ps (ps.drop 1 ++ [nullPtr])).foldl
      (fun m (e : Nat × Nat) => Sparse.write 0 m e.1 (BitVec.ofNat 32 e.2)) s.palette.links
    let p := { Pkt.fresh data (plainRx 0 0 false false true data.length 0) with
      loc := .enqueueIn, fate := .forward, origin := 1, canvas := ps, err := hs.any (·.sw.err)
      carry := ⟨s.own, bitsOf f 44 20, bitsOf f 24 20, h.sw.cls, bitsOf f 16 2, bitsOf f 18 6, bitsOf f 0 16⟩ }
    let x := s.stream st
    let s1 := s.setStream st ({ x with held := x.held.filter (fun g => !hs.contains g) }.advance hs.length)
    ((s1.withPalette { s1.palette with links := links }).addPkt p).incWrap F.FAB_STREAM_CNT.RELEASED st

/-- R381: the stream advances as far as it can. -/
def State.advanceStream (s : State) (st : Nat) : Nat → State
  | 0 => s
  | n + 1 =>
    let x := s.stream st
    match x.atOff 0 with
    | none => s
    | some h =>
      if !h.sw.first then
        let s1 := s.dropHeldSw st h
        (s1.setStream st ((s1.stream st).advance 1)).advanceStream st n
      else
        match x.run x.held.length 0 with
        | none => s
        | some hs => (s.releasePacket st hs).advanceStream st n

/-- R381 with the deadline that follows. -/
def State.runStream (s : State) (st : Nat) : State := (s.advanceStream st ((s.stream st).held.length + 1)).setDeadline st

/-- The reorder entries in use (R380). -/
def State.reorderUsed (s : State) : Nat := (s.fab.streams.map (fun e => e.2.held.length)).sum

/-- R380: a data Swatch for this module arrives. -/
def State.arrive (s : State) (w : Swatch) : State :=
  let st := 8 * w.src + w.cls
  let x := s.stream st
  let d := x.off w.seq
  if !s.on F.FAB_DEST_STATUS.EPOCH_KNOWN w.src then (s.fabErr 6).discardAt 13
  else if 32768 ≤ d then (((s.fabErr 7).incWrap F.FAB_STREAM_CNT.LATE st).sample 7 w.src).discardAt 7
  else if 8192 ≤ d ∨ x.held.any (fun h => h.seq == w.seq) then (s.incWrap F.FAB_STREAM_CNT.DISCARDED st).discardAt 13
  else if 131072 ≤ s.reorderUsed then (s.fabErr 2).discardAt 13
  else
    match s.palAlloc 2 3 0 with
    | (s1, none) =>
      ((s1.setStream st { x with refused := x.refused ++ [(w.seq, w.first, w.fill + 1)] }).fabErr 2).discardAt 13
    | (s1, some p) =>
      let refused := x.refused.filter (fun r => r.1 != w.seq && decide (x.off r.1 < 32768))
      ((s1.putOctets [p] w.payload).setStream st { x with held := x.held ++ [⟨w.seq, s.now, p, w⟩], refused := refused }).runStream st

/-- R377: a Swatch for another module, received in mesh mode, is relayed. -/
def State.relay (s : State) (w : Swatch) : State :=
  if s.fabMode ≠ 2 then (s.fabErr 5).discardAt 13
  else if w.hop then (s.fabErr 1).discardAt 13
  else
    match s.spray w.dst with
    | (s1, none) => (s1.fabErr 5).discardAt 13
    | (s1, some l) =>
      let w1 : Swatch := ⟨checked (setBits w.hdr 74 1 1), w.payload⟩
      let x := s1.lane l
      s1.setLane l (if w.kind = 0 then { x with relayData := x.relayData ++ [w1] } else { x with relayCred := x.relayCred ++ [w1] })

/-- R364: a slot with content of KIND `kind` arrives on lane `l`: discarded where its check fails, else handled by `f`. -/
def State.onSwatch (s : State) (l kind : Nat) (octets : List Byte) (f : Swatch → State) : State :=
  let w := swatchOf octets
  if 96 ≤ l ∨ s.fabMode = 0 ∨ !s.laneEn l ∨ !s.on F.FAB_LANE_STATUS.UP l then s
  else if !w.good then (s.fabErr 0).discardAt 13
  else if w.kind ≠ kind then s
  else f w

/-- SWATCH_RECEIVE (R31, R364, R377, R380, R381): a data Swatch arrives on lane `l`. -/
def execSwatchReceive (l : Nat) (octets : List Byte) (s : State) : Result :=
  .next (s.onSwatch l 0 octets (fun w => if s.halted then s else if w.dst = s.own then s.arrive w else s.relay w))

/-- R266: of the packets that lie before offset `upTo`, each that had a Swatch discarded for want of a buffer counts as a per-class enqueue
drop, of the octets seen of it: walked Swatch by Swatch from offset `o`, with the octets of the packet in hand and whether it lost one. -/
def State.countRefused (s : State) (x : Stream) (cls : Nat) : Nat → Nat → Nat → Bool → State
  | 0, _, bytes, lost => if lost then s.tally1 (1024 + cls) bytes else s
  | n + 1, o, bytes, lost =>
    let seen := match x.refused.find? (fun r => x.off r.1 == o), x.atOff o with
      | some r, _ => (r.2.1, r.2.2, true)
      | none, some h => (h.sw.first, h.sw.fill + 1, false)
      | none, none => (false, 0, false)
    if seen.1 then (if lost then s.tally1 (1024 + cls) bytes else s).countRefused x cls n (o + 1) seen.2.1 seen.2.2
    else s.countRefused x cls n (o + 1) (bytes + seen.2.1) (lost || seen.2.2)

/-- R266, R382: one release of the gap of a stream. -/
def State.gapOnce (s : State) (st : Nat) : State :=
  let x := s.stream st
  let offs := x.held.map (fun h => x.off h.seq)
  let miss := ((List.range (x.held.length + 1)).find? (fun o => !offs.contains o)).getD 0
  let p := ((x.held.filter (fun h => h.sw.first && decide (miss < x.off h.seq))).map (fun h => x.off h.seq)).min?
  let upTo := match p with
    | some o => o
    | none => match offs.max? with | some o => o + 1 | none => 0
  let s0 := s.countRefused x (st % 8) upTo 0 0 false
  let s1 := (x.held.filter (fun h => decide (x.off h.seq < upTo))).foldl (fun s h => s.dropHeldSw st h) s0
  let y := s1.stream st
  let s2 := s1.setStream st ({ y with refused := y.refused.filter (fun r => decide (upTo ≤ y.off r.1)) }.advance upTo)
  (s2.incWrap F.FAB_STREAM_CNT.GAP_RELEASES st).runStream st

/-- R382: releases of the gap while its deadline has passed. -/
def State.gapRelease (s : State) (st : Nat) : Nat → State
  | 0 => s
  | n + 1 =>
    match (s.stream st).deadline with
    | some t => if t ≤ s.now then (s.gapOnce st).gapRelease st n else s
    | none => s

/-- GAP_RELEASE (R382): the deadline of the gap of stream (src, cls) passes. -/
def execGapRelease (src cls : Nat) (s : State) : Result :=
  .next <|
    let st := 8 * (src % 2048) + cls % 8
    match (s.stream st).deadline with
    | none => s
    | some t => (s.advanceTo t).gapRelease st ((s.stream st).held.length + 1)

/-! ### Credit (R366 to R370) -/

/-- The module is marked in FAB_PEER (R379). -/
def State.peerMarked (s : State) (d : Nat) : Bool := (s.rd F.FAB_PEER.EXPECT (d / 64)).testBit (d % 64)

/-- R366: a credit message for stream (d, c). -/
def State.creditMsg (s : State) (d c : Nat) : Nat :=
  c * 2 ^ 61 + s.rd F.FAB_DEST_STATUS.PEER_EPOCH d * 2 ^ 52 + (s.stream (8 * d + c)).cum.toNat

/-- R366, R375: a credit Swatch to `d` with messages for the classes `cs` is sprayed; none is sent where no lane leads there. -/
def State.sendCredit (s : State) (d : Nat) (cs : List Nat) : State :=
  let payload := octetsBE 1 (s.rd F.FAB_CFG.EPOCH) ++ octetsBE 1 cs.length ++ List.replicate 6 0 ++
    cs.flatMap (fun c => octetsBE 8 (s.creditMsg d c))
  match s.spray d with
  | (s1, none) => s1
  | (s1, some l) =>
    s1.setLane l { s1.lane l with credits := (s1.lane l).credits ++ [⟨checked (hdrHead 2 s.own d), padTo 256 payload⟩] }

/-- CREDIT_ISSUE (R368, R370, R379): one unit is issued to stream (d, c) and its new CUM sent. -/
def execCreditIssue (d c : Nat) (s : State) : Result :=
  .next <|
    let st := 8 * d + c
    let x := s.stream st
    if 2048 ≤ d ∨ 8 ≤ c ∨ d = s.own ∨ !s.fabSpeaks ∨ !s.peerMarked d ∨ !s.on F.FAB_DEST_STATUS.EPOCH_KNOWN d ∨
        s.rd F.FAB_CRED_CFG.WINDOW c ≤ x.out ∨ s.rd F.FAB_RX_CFG.STOP_LEVEL < s.rd F.PAL_CLASS_STATUS.USED 2 then s
    else (s.setStream st { x with cum := x.cum + 1, out := x.out + 1 }).sendCredit d [c]

/-- CREDIT_REFRESH (R369): REFRESH µs have passed since the last refresh. -/
def execCreditRefresh (s : State) : Result :=
  .next <|
    let s1 := s.advanceTo (s.fab.refreshAt + us (s.rd F.FAB_RX_CFG.REFRESH))
    let s2 := s1.withFab { s1.fab with refreshAt := s1.now }
    if !s2.fabSpeaks then s2
    else
      (List.range 2048).foldl (fun s d =>
        if d = s.own ∨ !s.peerMarked d ∨ !s.on F.FAB_DEST_STATUS.REACHABLE d then s
        else s.sendCredit d (if s.on F.FAB_DEST_STATUS.EPOCH_KNOWN d then List.range 8 else [])) s2

/-- R370: a new epoch of module `d` resets both sides of its streams. -/
def State.newEpoch (s : State) (d epoch : Nat) : State :=
  let s1 := (s.wr F.FAB_DEST_STATUS.PEER_EPOCH d epoch).wr F.FAB_DEST_STATUS.EPOCH_KNOWN d 1
  (List.range 8).foldl (fun s c =>
    let st := 8 * d + c
    let q := voqBase + st
    let s2 := (s.stream st).held.foldl (fun s h => ((s.palFree h.ptr 3).1.fabErr 6).discardAt 13) s
    let s3 := (s2.setStream st Stream.idle).setQueue q { s2.queue q with cred := 0 }
    (s3.withFab { s3.fab with seqs := Sparse.write 0 s3.fab.seqs st 0, lasts := Sparse.write 0 s3.fab.lasts st 0 })) s1

/-- R319: `units` of credit for VOQ (d, c), up to the cap. -/
def State.addCredit (s : State) (st units : Nat) : State :=
  let x := s.queue (voqBase + st)
  let cap : Int := 4096 * s.rd F.SCH_VOQ_CREDIT_CFG.CRED_MAX
  let total : Int := x.cred + 4096 * units
  let new := if cap < total then max cap x.cred else total
  (s.setQueue (voqBase + st) { x with cred := new }).incSat F.SCH_STATUS.CRED_DISCARD 0 (((total - new).toNat + 4095) / 4096)

/-- R367: one message of a credit Swatch from `d`. -/
def State.creditMessage (s : State) (d m : Nat) : State :=
  let st := 8 * d + bitsOf m 61 3
  let cum := BitVec.ofNat 32 m
  let diff := cum - Sparse.read 0 s.fab.lasts st
  if bitsOf m 52 8 ≠ s.rd F.FAB_CFG.EPOCH ∨ diff.msb then s.fabErr 3
  else (s.withFab { s.fab with lasts := Sparse.write 0 s.fab.lasts st cum }).addCredit st diff.toNat

/-- CREDIT_SWATCH_RECEIVE (R367, R370, R377): a credit Swatch arrives on lane `l`. -/
def execCreditSwatchReceive (l : Nat) (octets : List Byte) (s : State) : Result :=
  .next (s.onSwatch l 2 octets (fun w =>
    if w.dst ≠ s.own then (if s.halted then s else s.relay w)
    else
      let d := w.src
      let epoch := natBE (w.payload.take 1)
      let s1 := if s.on F.FAB_DEST_STATUS.EPOCH_KNOWN d ∧ s.rd F.FAB_DEST_STATUS.PEER_EPOCH d = epoch then s else s.newEpoch d epoch
      let s2 := (List.range (natBE ((w.payload.drop 1).take 1) % 32)).foldl
        (fun s i => s.creditMessage d (natBE ((w.payload.drop (8 + 8 * i)).take 8))) s1
      if s2.on F.FAB_DEST_STATUS.REACHABLE d then s2.wr F.FAB_DEST_STATUS.UNREACH_FLUSH d 0 else s2))

/-! ### Links (R372, R378, R386) -/

/-- LINK_CONTROL_RECEIVE (R372, R374, R386): a link-control Swatch arrives on lane `l`. -/
def execLinkControlReceive (l : Nat) (octets : List Byte) (s : State) : Result :=
  .next (s.onSwatch l 3 octets (fun w =>
    let sub := w.cls
    if 2 ≤ sub then s
    else
      s.withLanes (fun s =>
        let s1 := ((s.wr F.FAB_LANE_STATUS.NBR_NODE l w.src).wr F.FAB_LANE_STATUS.NBR_PORT l w.dst).wrBit
          F.FAB_LANE_STATUS.NBR_ELEMENT l w.first
        let x : Lane := { s1.lane l with heard := true }
        let newer : Bool := match x.lastMsg with
          | none => true
          | some m => decide (0 < (w.seq + 65536 - m) % 65536) && decide ((w.seq + 65536 - m) % 65536 < 32768)
        if sub = 1 ∧ newer then
          let map := natBE w.payload
          let bits := (List.range 2048).foldl (fun b d => if map.testBit (2047 - d) then b + 2 ^ d else b) 0
          s1.setLane l { x with bits := bits, lastMsg := some w.seq }
        else s1.setLane l x)))

/-- The FRC value at which destination `d` became unreachable (R378). -/
def State.unreachSince (s : State) (d : Nat) : Nat := max (Sparse.read 0 s.fab.unreachAt d) s.fab.startAt

/-- UNREACH_EXPIRY (R378, R379): destination `d` has been unreachable for UNREACH µs. -/
def execUnreachExpiry (d : Nat) (s : State) : Result :=
  .next <|
    if 2048 ≤ d ∨ d = s.own ∨ s.fabMode = 0 ∨ s.on F.FAB_DEST_STATUS.REACHABLE d ∨ s.fab.gone.contains d then s
    else
      let s1 := s.advanceTo (s.unreachSince d + us (s.rd F.FAB_RX_CFG.UNREACH))
      let s2 := (List.range 8).foldl (fun s c => s.flush (voqBase + 8 * d + c)) s1
      ((s2.withFab { s2.fab with gone := s2.fab.gone ++ [d] }).wr F.FAB_DEST_STATUS.UNREACH_FLUSH d 1).raise 12

end Sys2Proof.Machine
end

