-- ==== Sys2Proof/Machine/Pon1.lean ====
section
/-!
DEFINITION. The Loom's trees and their activation (chapter 12): tree enables, ONU records and their states, PLOAM messages,
serial-number acquisition, ranging, and loss of bursts.
-/
namespace Sys2Proof.Machine

/-! ### Trees, records and entries -/

/-- A tree. -/
def State.tree (s : State) (n : Nat) : Tree := Sparse.read Tree.idle s.loom.trees n
def State.setTree (s : State) (n : Nat) (t : Tree) : State :=
  s.withLoom { s.loom with trees := Sparse.write Tree.idle s.loom.trees n t }

/-- An ONU record: place 256 × tree + ONU-ID. -/
def State.onu (s : State) (r : Nat) : Onu := Sparse.read Onu.idle s.loom.onus r
def State.setOnu (s : State) (r : Nat) (x : Onu) : State :=
  s.withLoom { s.loom with onus := Sparse.write Onu.idle s.loom.onus r x }

/-- An Alloc-ID entry. -/
def State.alloc (s : State) (a : Nat) : AllocSt := Sparse.read AllocSt.idle s.loom.allocs a
def State.setAlloc (s : State) (a : Nat) (x : AllocSt) : State :=
  s.withLoom { s.loom with allocs := Sparse.write AllocSt.idle s.loom.allocs a x }

/-- A key (R445), if it is set. -/
def State.key (s : State) (k : Nat) : Option Nat := Sparse.read none s.loom.keys k
def State.setKey (s : State) (k : Nat) (v : Option Nat) : State :=
  s.withLoom { s.loom with keys := Sparse.write none s.loom.keys k v }

/-- STATE of a record: 0 FREE, 1 ASSIGNED, 2 RANGING, 3 OPERATING, 4 LOST, 5 DEACTIVATING, 6 STOPPED. -/
def State.onuState (s : State) (r : Nat) : Nat := s.rd F.LOOM_ONU.STATE r

/-- The Loom event of tree `n` (R497). -/
def State.loomEvent (s : State) (n : Nat) : State := s.raise (16 + n)

/-- A counter of activation, of grants, of separation. -/
def State.actCnt (s : State) (n j : Nat) : State := s.incWrap F.LOOM_ACT_CNT.COUNT (12 * n + j)
def State.grantCnt (s : State) (n j : Nat) (k : Nat := 1) : State := s.incWrap F.LOOM_GRANT_CNT.COUNT (14 * n + j) k
def State.sepCnt (s : State) (n j : Nat) : State := s.incWrap F.LOOM_SEP_CNT.COUNT (10 * n + j)

/-- The tree is enabled. -/
def State.treeEn (s : State) (n : Nat) : Bool := decide (n < 48) && s.on F.LOOM_TREE_CFG.EN n

/-- R394: a field of LOOM_TREE_TIMING(n) in force: a write applies from the next downstream frame. -/
def State.timing (s : State) (n : Nat) (f : Fld) : Nat :=
  match (s.tree n).timing with
  | some w => bitsOf w f.lo f.len
  | none => s.rd f n

/-- R431: a field of LOOM_DBA_CFG(n) in force: a write applies from the next cycle. -/
def State.dba (s : State) (n : Nat) (f : Fld) : Nat :=
  match (s.tree n).dba with
  | some w => bitsOf w f.lo f.len
  | none => s.rd f n

/-- TEQD in 1/16 ns (R414). -/
def State.teqd (s : State) (n : Nat) : Nat := (10 * (s.rd F.LOOM_TREE_CFG.MIN_KM n + s.rd F.LOOM_TREE_CFG.DIFF_KM n) + 2) * 16000

/-- LOOM_TREE_STATUS.CFG_ERR. -/
def State.loomErr (s : State) (n : Nat) : State := if n < 48 then s.wr F.LOOM_TREE_STATUS.CFG_ERR n 1 else s

/-- LOOM_TREE_STATUS.OPERATING and the enable of default Alloc-IDs follow a record's new state (R421). -/
def State.setOnuState (s : State) (r st : Nat) : State :=
  let n := r / 256
  let old := s.onuState r
  let c := s.rd F.LOOM_TREE_STATUS.OPERATING n + (if st = 3 then 1 else 0) - (if old = 3 then 1 else 0)
  ((s.wr F.LOOM_ONU.STATE r st).wr F.LOOM_TREE_STATUS.OPERATING n c).wrBit F.LOOM_ALLOC.EN r (st == 3 || st == 4)

/-! ### Downstream PLOAM messages (R402, R403, R418) -/

/-- The broadcast ONU-ID of the recommendation. -/
def allOnus : Nat := 1023

/-- R403: a hardware message is ready for the first frame that starts at least 20 µs from now. -/
def State.waiting20 (s : State) (onu : Nat) (kind : PloamKind) (times : Nat) (cmd : Bool) : Waiting :=
  ⟨onu, kind, s.now + us 20, times, cmd, none⟩

/-- R402: a message joins its place in the order: Deactivate_ONU-ID and Disable_Serial_Number first, then the other hardware ones. -/
def State.sayUrgent (s : State) (n onu : Nat) (kind : PloamKind) (times : Nat := 1) (cmd : Bool := false) : State :=
  let t := s.tree n
  s.setTree n { t with urgent := t.urgent ++ [s.waiting20 onu kind times cmd] }

def State.sayAssign (s : State) (n onu : Nat) (kind : PloamKind) (cmd : Bool := false) : State :=
  let t := s.tree n
  s.setTree n { t with assign := t.assign ++ [s.waiting20 onu kind 1 cmd] }

/-- R418: a host message for a record that is FREE, STOPPED or DEACTIVATING is discarded and counted; whether it was taken. -/
def State.hostPloam (s : State) (n onu tag : Nat) (content : List Byte) : State × Bool :=
  let st := s.onuState (256 * n + onu % 256)
  if onu ≠ allOnus ∧ (st = 0 ∨ st = 5 ∨ st = 6) then (s.actCnt n 11, false)
  else
    let t := s.tree n
    (s.setTree n { t with host := t.host ++ [⟨onu, .host content, s.now, 1, false, some tag⟩] }, true)

/-- The bits per second of a tree's upstream in kb/s (R390). -/
def State.usKbps (s : State) (n : Nat) : Nat := s.portKbps (64 + n)

/-- R435: the coded bytes of `d` uncoded bytes under a profile. -/
def State.coded (s : State) (n prof d : Nat) : Nat :=
  if !s.on F.LOOM_PROFILE.FEC (4 * n + prof) then d
  else if s.on F.LOOM_TREE_CFG.TYPE n then Config.ldpcCoded d
  else d + 32 * ((d + 215) / 216)

/-- The preamble and delimiter of a profile in bytes (R435). -/
def State.preamble (s : State) (n prof : Nat) : Nat := 8 * s.rd F.LOOM_PROFILE.REPEAT (4 * n + prof) + 8

/-- The line time of a burst in bytes: preamble, delimiter, and its header, allocations with their DBRu fields and trailer coded. -/
def State.burstLen (s : State) (n prof : Nat) (allocs : List (Nat × Nat)) : Nat :=
  let body := (allocs.map (fun e => e.2 + (if (s.alloc e.1).dbru then 4 else 0))).sum
  s.preamble n prof + s.coded n prof (8 + body + 4)

/-- R436: SHORT_PROF has been broadcast twice since the ONU entered OPERATING and since its VALID was set. -/
def State.shortKnown (s : State) (n i : Nat) : Bool :=
  let p := s.dba n F.LOOM_DBA_CFG.SHORT_PROF
  let t := s.tree n
  s.on F.LOOM_PROFILE.VALID (4 * n + p) &&
    decide (max (t.bpValid.getD p 0) ((s.onu (256 * n + i)).bpAt.getD p 0) + 2 ≤ t.bpSent.getD p 0)

/-- The difference of two numbers. -/
def absDiff (a b : Nat) : Nat := (a - b) + (b - a)

/-- The difference of two sampling phases in 1/64 of a bit period, whichever way round is shorter. -/
def phaseDiff (a b : Nat) : Nat := min (absDiff a b) (64 - absDiff a b)

/-! ### The history records in DRAM (R336, R341, R358, R437) -/

/-- R336: the words of the history record of Alloc-ID entry `a`. -/
def State.histWords (s : State) (a : Nat) : List Nat := (List.range 32).map (fun j => s.histAddr a + 8 * j)

/-- R341, R354, R358: a read of the record of entry `a` would return stale. -/
def State.histBad (s : State) (a : Nat) : Bool :=
  let ch := a % s.channelCount
  s.dramStopped || s.on F.DMC_CH_STATUS.LOST ch || s.dram.staleAllocs.contains a ||
    (s.histWords a).any (fun w => (symbolsHit (s.wordError ch w)).length == 2)

/-- R341: a record of an Alloc-ID of ONU `i` of tree `n`, its default one among them, is stale. -/
def State.histStale (s : State) (n i : Nat) : Bool :=
  s.histBad (256 * n + i) || (s.regs.filter (fun e => e.1 % 256 == Reg.LOOM_ALLOC.ctorIdx)).any (fun e =>
    let a := e.1 / 256
    s.on F.LOOM_ALLOC.EN a && s.rd F.LOOM_ALLOC.TREE a == n && s.rd F.LOOM_ALLOC.ONU a == i && s.histBad a)

/-- R340, R341: the record of entry `a` is read. -/
def State.readHist (s : State) (a : Nat) : State :=
  if s.dramStopped then s
  else
    let r := s.readDirect (a % s.channelCount) (s.histWords a)
    if r.2 = [] ∨ r.1.dram.staleAllocs.contains a then r.1
    else r.1.withDram { r.1.dram with staleAllocs := r.1.dram.staleAllocs ++ [a] }

/-- R341, R354: new history is written into the record of entry `a`; a lost channel takes none. -/
def State.writeHist (s : State) (a : Nat) : State :=
  let ch := a % s.channelCount
  if s.on F.DMC_CH_STATUS.LOST ch then s
  else s.withDram { s.dram with
    staleAllocs := s.dram.staleAllocs.filter (· != a), struck := Sparse.clear s.dram.struck (wordKey ch (s.histAddr a)) 32 }

/-- R436, R438: the profile of a burst that is expected at the FRC value `t`. -/
def State.profileFor (s : State) (n i t : Nat) : Nat :=
  let r := 256 * n + i
  let x := s.onu r
  let short := (s.dba n F.LOOM_DBA_CFG.SHORT_EN == 1) && !x.fresh && s.shortKnown n i && s.on F.LOOM_PHASE.VALID r &&
    !s.histStale n i &&
    (match x.lockedAt with | some a => decide (t < a + us (s.dba n F.LOOM_DBA_CFG.T_FRESH)) | none => false) &&
    (match x.prev with
      | some (ph, lv) => decide (phaseDiff ph (s.rd F.LOOM_PHASE.PHASE r) ≤ s.dba n F.LOOM_DBA_CFG.PH_TOL) &&
          decide (absDiff lv (s.rd F.LOOM_PHASE.LEVEL r) ≤ s.dba n F.LOOM_DBA_CFG.LVL_TOL)
      | none => false)
  if short then s.dba n F.LOOM_DBA_CFG.SHORT_PROF else s.dba n F.LOOM_DBA_CFG.FULL_PROF

/-! ### Withdrawing grants (R433, R434) -/

/-- The FRC value at which the bursts of frame `f` are expected to begin (R432). -/
def State.expectAt (s : State) (n f : Nat) : Nat :=
  ((s.tree n).frameAt.getD 0) + ns (125000 * (f - (s.tree n).sfc)) + s.teqd n * 4096

/-- R433: the burst that a deferred allocation would make in a window freed. -/
def State.inWindow (s : State) (n : Nat) (freed : Grant) (e : Nat × Nat) : Grant :=
  let i := s.rd F.LOOM_ALLOC.ONU e.1
  let prof := s.profileFor n i (s.expectAt n freed.frame)
  { freed with onu := i, allocs := [e], profile := prof, len := s.burstLen n prof [e], kind := 0 }

/-- R433: the first deferred allocation whose burst fits in the window freed; one that a later map not yet sent has taken is deferred no
longer. -/
def State.refill (s : State) (n : Nat) (freed : Grant) (others : List Grant) (deferred : List (Nat × Nat)) : Option (Grant × (Nat × Nat)) :=
  let later (e : Nat × Nat) : Bool :=
    (s.tree n).maps.any (fun m => decide (freed.frame < m.frame) && m.grants.any (fun g => g.allocs.any (fun x => x.1 == e.1)))
  match deferred.find? (fun e =>
      let g := s.inWindow n freed e
      !others.any (fun h => h.onu == g.onu) && decide (g.len ≤ freed.len) && !later e) with
  | some e => some (s.inWindow n freed e, e)
  | none => none

/-- R43, R433: a grant withdrawn before its BWmap is sent is counted. -/
def State.withdrawn1 (s : State) (n : Nat) : State := ((s.grantCnt n 2).undo 4).sample 11 n

/-- R433: bursts of maps not yet sent that `hit` picks lose the allocations that `keep` does not keep; a burst left empty gives its window
to the first deferred allocation that fits. -/
def State.withdrawMap (s : State) (n : Nat) (hit : Grant → Bool) (keep : Nat × Nat → Bool) (m : BwMap) : State × BwMap :=
  m.grants.foldl (fun (acc : State × BwMap) g =>
    if !hit g then acc
    else
      let s1 := acc.1.withdrawn1 n
      let left := g.allocs.filter keep
      if left ≠ [] then
        (s1, { acc.2 with grants := acc.2.grants.map (fun h => if h = g then { g with allocs := left } else h) })
      else
        let others := acc.2.grants.filter (· != g)
        match s1.refill n g others (acc.2.deferred.filter keep) with
        | none => (s1, { acc.2 with grants := others })
        | some (h, e) => (s1, { acc.2 with grants := others ++ [h], deferred := acc.2.deferred.erase e })) (s, m)

/-- R433, R434: grants that `hit` picks are withdrawn where their BWmap has not been sent, and marked where it has. -/
def State.withdraw (s : State) (n : Nat) (hit : Grant → Bool) (keep : Nat × Nat → Bool) : State :=
  let t := s.tree n
  let r := t.maps.foldl (fun (acc : State × List BwMap) m =>
    let p := acc.1.withdrawMap n hit keep m
    (p.1, acc.2 ++ [p.2])) (s, [])
  let s1 := (t.special.filter hit).foldl (fun s _ => s.withdrawn1 n) r.1
  let mark (g : Grant) : Grant := if hit g then { g with withdrawn := true } else g
  s1.setTree n { s1.tree n with
    maps := r.2, special := t.special.filter (fun g => !hit g), expected := t.expected.map mark }

/-- R433: every grant of an ONU. -/
def State.withdrawOnu (s : State) (n i : Nat) : State :=
  s.withdraw n (fun g => g.onu == i && g.kind != 3) (fun _ => false)

/-- R433: every grant of an Alloc-ID entry. -/
def State.withdrawAlloc (s : State) (n a : Nat) : State :=
  s.withdraw n (fun g => g.allocs.any (fun e => e.1 == a)) (fun e => e.1 != a)

/-! ### Records (R406 to R408) -/

/-- R407, R457: what every entry to DEACTIVATING or STOPPED does. -/
def State.endService (s : State) (n i : Nat) (cmd : Bool) : State :=
  let r := 256 * n + i
  let s1 := s.withdrawOnu n i
  let s2 := (s1.wr F.LOOM_PHASE.VALID r 0).setOnu r { s1.onu r with prev := none, lockedAt := none, window := false, offsets := [] }
  let s3 :=
    if s2.on F.LOOM_PROBE_STATUS.RUNNING n ∧ s2.rd F.LOOM_PROBE_STATUS.ONU n = i then
      (((s2.wr F.LOOM_PROBE_STATUS.RUNNING n 0).wr F.LOOM_PROBE_STATUS.RESULT n 4).setTree n
        { s2.tree n with probeLeft := 0 }).loomEvent n
    else s2
  s3.sayUrgent n i .deactivate 3 cmd

/-- R406: a record enters DEACTIVATING for a reason. -/
def State.deactivate (s : State) (n i fail : Nat) (cmd : Bool := false) : State :=
  let r := 256 * n + i
  ((s.setOnuState r 5).wr F.LOOM_ONU.LAST_FAIL r fail).endService n i cmd

/-- R448: the keys of a record are cleared. -/
def State.clearKeys (s : State) (r : Nat) : State :=
  [1, 2, 3].foldl (fun s j => s.setKey (4 * r + j) none) s

/-- A record becomes FREE, SN and PROV kept. -/
def State.freeOnu (s : State) (r : Nat) : State :=
  ((s.setOnuState r 0).clearKeys r).setOnu r Onu.idle

/-- R406, R411: a ranging attempt has failed for a reason. -/
def State.rangeFailed (s : State) (n i fail : Nat) : State :=
  let r := 256 * n + i
  let k := s.rd F.LOOM_ONU.ATTEMPTS r + 1
  let s1 := (s.wr F.LOOM_ONU.ATTEMPTS r k).wr F.LOOM_ONU.LAST_FAIL r fail
  let s2 := s1.setOnu r { s1.onu r with window := false }
  if k < s.timing n F.LOOM_TREE_TIMING.RANGE_RETRY then
    (s2.setOnuState r 1).sayAssign n i (.assign (s.rd F.LOOM_ONU.SN r))
  else s2.deactivate n i fail

/-- LOOM_ONU_CMD: a command is refused with a code. -/
def State.onuRefuse (s : State) (n code : Nat) : State :=
  (s.wr F.LOOM_ONU_CMD_STATUS.BUSY n 0).wr F.LOOM_ONU_CMD_STATUS.CODE n code

/-- A command for the record that LOOM_ONU_CMD(n) names, while it is BUSY with OP. -/
def State.onuCmd (s : State) (n op : Nat) (f : Nat → Nat → Option State) : State :=
  let i := s.rd F.LOOM_ONU_CMD.ONU n
  if 48 ≤ n ∨ !s.on F.LOOM_ONU_CMD_STATUS.BUSY n ∨ s.rd F.LOOM_ONU_CMD.OP n ≠ op then s
  else
    match f i (s.onuState (256 * n + i)) with
    | some s1 => s1.wr F.LOOM_ONU_CMD_STATUS.CODE n 0
    | none => s.onuRefuse n 2

/-- A write of OP in LOOM_ONU_CMD(n): BUSY from then on, or refused. -/
def State.onuCmdStart (s : State) (n op : Nat) : State :=
  if op = 0 then s
  else if 5 ≤ op then s.onuRefuse n 1
  else (s.wr F.LOOM_ONU_CMD_STATUS.BUSY n 1).wr F.LOOM_ONU_CMD.OP n op

/-- ONU_DEACTIVATE (R406, R407). -/
def execOnuDeactivate (n : Nat) (s : State) : Result :=
  .next (s.onuCmd n 1 (fun i st => if st = 0 ∨ st = 6 then none else some (s.deactivate n i 6 true)))

/-- ONU_DISABLE (R406, R407). -/
def execOnuDisable (n : Nat) (s : State) : Result :=
  .next (s.onuCmd n 2 (fun i st =>
    if st = 0 then none
    else
      let r := 256 * n + i
      some (((s.setOnuState r 6).sayUrgent n allOnus (.disableSn true (s.rd F.LOOM_ONU.SN r)) 1 true).endService n i false)))

/-- ONU_ENABLE (R406, R448). -/
def execOnuEnable (n : Nat) (s : State) : Result :=
  .next (s.onuCmd n 3 (fun i st =>
    if st ≠ 6 then none
    else
      let r := 256 * n + i
      some ((s.freeOnu r).sayUrgent n allOnus (.disableSn false (s.rd F.LOOM_ONU.SN r)) 1 true)))

/-- ONU_REQ_REG (R417). -/
def execOnuReqReg (n : Nat) (s : State) : Result :=
  .next (s.onuCmd n 4 (fun i st => if st ≠ 3 then none else some (s.sayAssign n i .requestRegistration true)))

/-- R408: a write of word `w` of LOOM_ONU(n, i): SN and PROV only while the record is FREE. -/
def State.onuWrite (s : State) (r w v : Nat) : State :=
  if 2 ≤ w then s
  else if s.onuState r ≠ 0 then s.loomErr (r / 256)
  else if w = 0 then s.wr F.LOOM_ONU.SN r v
  else s.wr F.LOOM_ONU.PROV r (bitsOf v 3 1)

/-! ### Tree enables (R392 to R395) -/

/-- R392, R565: an enable of tree `n` with configuration `v` is refused. -/
def State.treeRefused (s : State) (n v : Nat) : Bool :=
  let fifty := bitsOf v 1 1 == 1
  let en50 (m : Nat) : Bool := s.on F.LOOM_TREE_CFG.EN m && s.on F.LOOM_TREE_CFG.TYPE m
  (s.easel.mLoom0.isNone && s.easel.mLoom1.isNone) || !s.on F.ETH_OCTET_CFG.MODE (n / 8) || (fifty && (n % 2 == 1 || s.on F.LOOM_TREE_CFG.EN (n + 1))) ||
  (n % 2 == 1 && en50 (n - 1)) || (fifty && bitsOf v 2 2 == 3) ||
  decide (60 < bitsOf v 8 6 + bitsOf v 16 6) || decide (40 < bitsOf v 16 6) ||
  decide (s.rd F.LOOM_OPT_CFG.GUARD n < s.rd F.LOOM_OPT_CFG.RESET_DELAY n + s.rd F.LOOM_OPT_CFG.RESET_WIDTH n + 2)

/-- LOOM_BUDGET.USED (R392). -/
def State.showBudget (s : State) : State :=
  s.wr F.LOOM_BUDGET.USED 0 (((List.range 48).map (fun n =>
    if !s.on F.LOOM_TREE_CFG.EN n then 0 else if s.on F.LOOM_TREE_CFG.TYPE n then 2 else 1)).sum)

/-- R395: the link of tree `n` follows. -/
def State.treeLink (s : State) (n : Nat) (up : Bool) : State :=
  let s1 := s.wrBit F.LOOM_TREE_STATUS.UP n up
  match s1.nodeFor 1 n with
  | some k => if up then s1.nodeReturned k else s1.nodeLost k false
  | none => s1

/-- A mailbox command completes with a code and the length of its result. -/
def State.mboxDone (s : State) (code len : Nat) : State :=
  (((s.wr F.EAS_MBOX_STATUS.CODE 0 code).wr F.EAS_MBOX_STATUS.RESULT_LEN 0 len).wr F.EAS_MBOX_STATUS.BUSY 0 0).setCause
    F.EAS_ALARM.MBOX_DONE 0 2

/-- R566: tree `n` moves to the bank last loaded, if a LOOM_SWAP has yet to move it; with the last tree the command completes. -/
def State.ucodeMove (s : State) (n : Nat) : State :=
  let e := s.easel
  let bit := BitVec.ofNat 64 (2 ^ n)
  if !e.swapping.toNat.testBit n then s
  else
    let left := e.swapping &&& ~~~bit
    let s1 := s.withEasel { e with trees1 := if e.lastLoaded then e.trees1 ||| bit else e.trees1 &&& ~~~bit, swapping := left }
    if left = 0 then (s1.setCause F.EAS_ALARM.LOOM_SWAPPED 0 2).mboxDone 0 0 else s1

/-- R395, R397: tree `n` is disabled: every record becomes FREE, SN and PROV kept, and PBR_RESET is held asserted; with no frame to come, a
move to another microcode bank is made now. -/
def State.treeStop (s : State) (n : Nat) : State :=
  let s1 := ((s.wr F.LOOM_TREE_CFG.EN n 0).ucodeMove n).treeLink n false
  let s2 := (List.range 256).foldl (fun s i => if s.onuState (256 * n + i) = 0 then s else s.freeOnu (256 * n + i)) s1
  let t := s2.tree n
  let s3 := if s2.on F.LOOM_ONU_CMD_STATUS.BUSY n then s2.onuRefuse n 2 else s2
  (((s3.setTree n { Tree.idle with sfc := t.sfc, obs := t.obs }).showBudget).lockOctets).emit (.pbrHold n true)

/-- R394: a write of LOOM_TREE_CFG(n) changes TYPE, US_RATE, SN_MODE, MIN_KM, DIFF_KM or PON_ID. -/
def State.treeChanges (s : State) (n v : Nat) : Bool :=
  bitsOf v 1 3 != s.rd F.LOOM_TREE_CFG.TYPE n + 2 * s.rd F.LOOM_TREE_CFG.US_RATE n ||
    bitsOf v 5 1 != s.rd F.LOOM_TREE_CFG.SN_MODE n || bitsOf v 8 6 != s.rd F.LOOM_TREE_CFG.MIN_KM n ||
    bitsOf v 16 6 != s.rd F.LOOM_TREE_CFG.DIFF_KM n || bitsOf v 32 32 != s.rd F.LOOM_TREE_CFG.PON_ID n

/-- LOOM_TREE_CFG(n) takes the value `v` (R392, R394, R395). -/
def State.treeCfgWrite (s : State) (n v : Nat) : State :=
  let en := v.testBit 0
  let store (s : State) (e : Nat) : State :=
    s.setReg .LOOM_TREE_CFG n (BitVec.ofNat 320 (e + Nat.land v 0xFFFFFFFF0F3F3F3E))
  if 48 ≤ n then s
  else if s.on F.LOOM_TREE_CFG.EN n then
    if s.treeChanges n v then s.loomErr n
    else if en then store s 1
    else (store s 1).treeStop n
  else if !en then store s 0
  else if s.treeRefused n v then (store s 0).loomErr n
  else
    let s1 := (store s 1).wr F.LOOM_TREE_STATUS.TEQD n (10 * (bitsOf v 8 6 + bitsOf v 16 6) + 2)
    (((s1.setTree n { s1.tree n with snAt := s1.now }).showBudget).lockOctets).emit (.pbrHold n false)

/-- TREE_ENABLE (R392): a write of LOOM_TREE_CFG(n) with EN 1. -/
def execTreeEnable (n v : Nat) (s : State) : Result :=
  .next (s.landed .LOOM_TREE_CFG (fun s => s.treeCfgWrite n (setBits v 0 1 1)))

/-- TREE_DISABLE (R395): a write of LOOM_TREE_CFG(n) with EN 0. -/
def execTreeDisable (n v : Nat) (s : State) : Result :=
  .next (s.landed .LOOM_TREE_CFG (fun s => s.treeCfgWrite n (setBits v 0 1 0)))

/-- LOOM_OPT_CFG(n) takes the value `v` (R394): while the tree is enabled, a write that changes a field is discarded. -/
def State.optCfgWrite (s : State) (n v : Nat) : State :=
  let s1 := (((s.wr F.LOOM_OPT_CFG.RESET_POL n (bitsOf v 0 1)).wr F.LOOM_OPT_CFG.SD_POL n (bitsOf v 1 1)).wr F.LOOM_OPT_CFG.RESET_DELAY n
    (bitsOf v 8 8)).wr F.LOOM_OPT_CFG.RESET_WIDTH n (max 1 (bitsOf v 16 8)) |>.wr F.LOOM_OPT_CFG.GUARD n (bitsOf v 24 8)
  if s.treeEn n then (if s1.reg .LOOM_OPT_CFG n = s.reg .LOOM_OPT_CFG n then s else s.loomErr n) else s1

/-- PBR_RESET_PULSE (R397): RESET_DELAY after a burst's last bit. -/
def execPbrResetPulse (n : Nat) (s : State) : Result :=
  .next <|
    let t := s.tree n
    if !s.treeEn n ∨ t.resetDue = 0 then s
    else (s.setTree n { t with resetDue := t.resetDue - 1 }).emit
      (.pbrReset n (s.rd F.LOOM_OPT_CFG.RESET_WIDTH n) (!s.on F.LOOM_OPT_CFG.RESET_POL n))

/-! ### Serial-number acquisition (R409 to R411, R420) -/

/-- The SN is disabled on tree `n` by an enabled LOOM_SNDIS entry. -/
def State.sndisFor (s : State) (n k : Nat) : Bool :=
  s.on F.LOOM_SNDIS.EN k && (s.on F.LOOM_SNDIS.ALL k || s.rd F.LOOM_SNDIS.TREE k == n)

/-- R409, R410: record `i` could accept a serial number. -/
def State.couldAccept (s : State) (n i : Nat) : Bool :=
  s.onuState (256 * n + i) == 0 && (!s.on F.LOOM_TREE_CFG.SN_MODE n || s.on F.LOOM_ONU.PROV (256 * n + i))

/-- Nanoseconds of E0-relative time to ns from E0 of frame 0. -/
def frameNs (f : Nat) : Nat := f * 125000

/-- SN_WINDOW_OPEN (R409, R420): SN_PERIOD ms after the last. The window lies far enough ahead that no BWmap already computed grants a
burst into its quiet interval. -/
def execSnWindowOpen (n : Nat) (s : State) : Result :=
  .next <|
    if !s.treeEn n ∨ !s.on F.LOOM_TREE_CFG.SN_EN n ∨ !(List.range 256).any (s.couldAccept n) then s
    else
      let s1 := s.advanceTo ((s.tree n).snAt + ms (s.timing n F.LOOM_TREE_TIMING.SN_PERIOD))
      let dis := (List.range 64).filter (s1.sndisFor n)
      let s2 := dis.foldl (fun s k => s.sayUrgent n allOnus (.disableSn true (s.rd F.LOOM_SNDIS.SN k))) s1
      let s3 := (List.range 256).foldl (fun s i =>
        if s.onuState (256 * n + i) = 6 then s.sayUrgent n allOnus (.disableSn true (s.rd F.LOOM_ONU.SN (256 * n + i))) else s) s2
      let t := s3.tree n
      let minKm := s.rd F.LOOM_TREE_CFG.MIN_KM n
      let f := t.sfc + 3 + (s.teqd n / 16000 + 124) / 125
      let quiet := (frameNs f + 10000 * minKm - 1000, frameNs f + 10000 * (minKm + s.rd F.LOOM_TREE_CFG.DIFF_KM n) + 51000)
      let g : Grant := ⟨f, allOnus, [], s.dba n F.LOOM_DBA_CFG.FULL_PROF, 0, 0, 3, false⟩
      (s3.setTree n { t with snAt := s3.now, special := t.special ++ [g], quiets := t.quiets ++ [quiet] }).actCnt n 0

/-- R410, R406: a serial number is accepted for record `i`. -/
def State.acceptSn (s : State) (n i sn : Nat) (rtdEst : Int) : State :=
  let r := 256 * n + i
  let s1 := ((s.wr F.LOOM_ONU.SN r sn).wr F.LOOM_ONU.ATTEMPTS r 0).setOnuState r 1
  (s1.setOnu r { s1.onu r with rtdEst := rtdEst }).sayAssign n i (.assign sn)

/-- R410: one Serial_Number_ONU message is matched. -/
def State.matchSn (s : State) (n sn : Nat) (rtdEst : Int) (content : List Byte) : State :=
  let recs (f : Nat → Bool) : Option Nat :=
    (List.range 256).find? (fun i => s.rd F.LOOM_ONU.SN (256 * n + i) == sn && f (s.onuState (256 * n + i)))
  if (List.range 64).any (fun k => s.sndisFor n k && s.rd F.LOOM_SNDIS.SN k == sn) || (recs (· == 6)).isSome then s.actCnt n 4
  else if (recs (fun st => st == 1 || st == 2 || st == 5)).isSome then s.actCnt n 5
  else
    match recs (fun st => st == 3 || st == 4) with
    | some i => s.deactivate n i 7
    | none =>
      let prov := (List.range 256).find? (fun i =>
        s.couldAccept n i && s.on F.LOOM_ONU.PROV (256 * n + i) && s.rd F.LOOM_ONU.SN (256 * n + i) == sn)
      if s.on F.LOOM_TREE_CFG.SN_MODE n then
        match prov with
        | some i => s.acceptSn n i sn rtdEst
        | none =>
          let s1 := (s.actCnt n 3).setCause F.LOOM_TREE_STATUS.SN_UNKNOWN n (16 + n)
          (s1.puntMessage (s.rd F.LOOM_PLOAM_CFG.RING) (puntFields 2 0 0 0 (64 + n) 0xFFFF 0xFFFFFF n 0 0 0 0 0) content).1
      else
        let auto := (List.range 256).find? (fun i =>
          s.couldAccept n i && (!s.on F.LOOM_ONU.PROV (256 * n + i) || s.rd F.LOOM_ONU.SN (256 * n + i) == sn))
        match auto with
        | some i => s.acceptSn n i sn rtdEst
        | none => (s.actCnt n 6).setCause F.LOOM_TREE_STATUS.TREE_FULL n (16 + n)

/-- R397: the last bit of an upstream burst has reached the OLT. -/
def State.burstOver (s : State) (n : Nat) : State :=
  let t := s.tree n
  s.setTree n { t with resetDue := t.resetDue + 1 }

/-- SERIAL_NUMBER_ONU (R410, R412, R419): a burst in the open serial-number window: whether it can be decoded, the SN, its arrival after E0
and the random delay it reports, in 1/16 ns, whether its MIC holds, and its 48 octets. -/
def execSerialNumberOnu (n : Nat) (decoded : Bool) (sn : Nat) (arrival : Int) (delay : Nat) (micOk : Bool) (content : List Byte) (s : State) : Result :=
  .next <|
    if !s.treeEn n ∨ (s.tree n).snOpen = none then s
    else
      let s1 := s.burstOver n
      if !decoded then s1.actCnt n 2
      else if !micOk then s1.actCnt n 10
      else (s1.actCnt n 1).matchSn n sn (arrival - delay) content

/-- SNDIS_CLEAR (R420): EN of an entry is written 0: the enable form goes out once on each tree to which it applied. -/
def State.sndisClear (s : State) (k : Nat) : State :=
  let ns_ := (List.range 48).filter (fun n => s.treeEn n && s.sndisFor n k)
  (ns_.foldl (fun s n => s.sayUrgent n allOnus (.disableSn false (s.rd F.LOOM_SNDIS.SN k))) s).wr F.LOOM_SNDIS.EN k 0

/-- SNDIS_CLEAR (R420). -/
def execSndisClear (k : Nat) (s : State) : Result :=
  .next (if 64 ≤ k then s else s.landed .LOOM_SNDIS (fun s => s.sndisClear k))

/-! ### Ranging (R412 to R415) -/

/-- R438, R443: the phase memory takes the phase and gain of a locked burst. -/
def State.lockPhase (s : State) (r phase gain : Nat) : State :=
  let x := s.onu r
  let old := (s.rd F.LOOM_PHASE.PHASE r, s.rd F.LOOM_PHASE.LEVEL r)
  let s1 := ((s.wr F.LOOM_PHASE.PHASE r phase).wr F.LOOM_PHASE.LEVEL r gain).wr F.LOOM_PHASE.VALID r 1
  let s2 := s1.setOnu r { x with prev := if x.lockedAt.isSome then some old else none, lockedAt := some s.now }
  s2.writeHist r

/-- R390, R417: a Registration message goes to the host. -/
def State.registration (s : State) (n i : Nat) (content : List Byte) : State :=
  (s.puntMessage (s.rd F.LOOM_PLOAM_CFG.RING) (puntFields 2 0 0 0 (64 + n) 0xFFFF 0xFFFFFF n i 0 0 0 0) content).1

/-- R414, R415: the response of ONU-ID `i` is used: its RTD is in range or not. -/
def State.ranged (s : State) (n i : Nat) (arrival : Int) (phase gain : Nat) : State :=
  let r := 256 * n + i
  let lo : Int := 160000 * s.rd F.LOOM_TREE_CFG.MIN_KM n - 16000
  let hi : Int := 160000 * (s.rd F.LOOM_TREE_CFG.MIN_KM n + s.rd F.LOOM_TREE_CFG.DIFF_KM n) + 16000
  if arrival < lo ∨ hi < arrival then (s.actCnt n 9).deactivate n i 3
  else
    let eqd := ((s.teqd n : Int) - arrival).toNat
    let s1 := ((s.wr F.LOOM_ONU.RTD r (arrival % 2 ^ 32).toNat).wr F.LOOM_ONU.EQD r eqd).incWrap F.LOOM_ONU.ACTIVATIONS r
    let s2 := ((s1.setOnuState r 3).wr F.LOOM_ONU.LOB_RUN r 0).lockPhase r phase gain
    let s3 := s2.setOnu r { s2.onu r with
      window := false, fresh := true, offsets := [], prev := none, bpAt := (s2.tree n).bpSent }
    s3.sayAssign n i (.rangingTime (Config.eqdUnits (s.on F.LOOM_TREE_CFG.TYPE n) (s.rd F.LOOM_TREE_CFG.US_RATE n) eqd))

/-- RANGING_RESPONSE (R413 to R415): a Registration from ONU-ID `i`: its arrival after E0 in 1/16 ns, whether its MIC holds, its phase and
gain, and its 48 octets. -/
def execRangingResponse (n i : Nat) (arrival : Int) (micOk : Bool) (phase gain : Nat) (content : List Byte) (s : State) : Result :=
  .next <|
    let r := 256 * n + i
    let x := s.onu r
    let margin : Int := s.timing n F.LOOM_TREE_TIMING.RANGE_MARGIN * 16000
    if !s.treeEn n ∨ 256 ≤ i then s
    else if s.onuState r ≠ 2 ∨ !x.window then
      -- R413: the window has closed; the response is late
      if s.onuState r = 1 ∨ s.onuState r = 2 ∨ s.onuState r = 5 then
        let s1 := (s.burstOver n).actCnt n 8
        if s.onuState r = 2 then s1 else s1.wr F.LOOM_ONU.LAST_FAIL r 1
      else s.burstOver n
    else if arrival < x.rtdEst - margin then s.burstOver n
    else if x.rtdEst + margin < arrival then ((s.burstOver n).actCnt n 8).rangeFailed n i 1
    else if !micOk then ((s.burstOver n).actCnt n 10).rangeFailed n i 4
    else ((s.burstOver n).ranged n i arrival phase gain).registration n i content

/-- RANGING_WINDOW_CLOSE (R412, R406): the window of record `i` closes first. -/
def execRangingWindowClose (n i : Nat) (s : State) : Result :=
  .next <|
    let r := 256 * n + i
    if !s.treeEn n ∨ 256 ≤ i ∨ s.onuState r ≠ 2 ∨ !(s.onu r).window then s else s.rangeFailed n i 2

/-- TO2_EXPIRY (R416). -/
def execTo2Expiry (n i : Nat) (s : State) : Result :=
  .next <|
    let r := 256 * n + i
    if !s.treeEn n ∨ 256 ≤ i ∨ s.onuState r ≠ 4 then s else (s.advanceTo (s.onu r).to2At).deactivate n i 5

/-! ### Upstream PLOAM messages (R417 to R419) -/

/-- UPSTREAM_PLOAM (R417, R418, R419): a message of ONU-ID `i` other than Serial_Number_ONU: whether its MIC holds, the SeqNo it
acknowledges where it is an Acknowledgement, and its 48 octets. -/
def execUpstreamPloam (n i : Nat) (micOk : Bool) (ack : Option Nat) (content : List Byte) (s : State) : Result :=
  .next <|
    if !s.treeEn n ∨ 256 ≤ i then s
    else if !micOk then s.actCnt n 10
    else
      let punt (tag : Nat) : State :=
        (s.puntMessage (s.rd F.LOOM_PLOAM_CFG.RING) (puntFields 2 0 0 0 (64 + n) 0xFFFF 0xFFFFFF n i 0 tag 0 0) content).1
      match ack with
      | none => punt 0
      | some q =>
        match (s.onu (256 * n + i)).sent.find? (fun e => e.1 == q) with
        | some (_, some tag) => punt tag
        | some (_, none) => s
        | none => punt 0

end Sys2Proof.Machine
end

