-- ==== Sys2Proof/Machine/Pon2.lean ====
section
/-!
DEFINITION. The Loom's grants, bursts, keys and the separation of subscribers (chapter 13), and the downstream frame (chapter 12).
-/
namespace Sys2Proof.Machine

/-! ### Alloc-ID and GEM entries (R421 to R424, R431, R435) -/

/-- Insert by a key, ascending. -/
def insertBy (key : Nat → Nat) (x : Nat) : List Nat → List Nat
  | [] => [x]
  | y :: ys => if key x ≤ key y then x :: y :: ys else y :: insertBy key x ys

/-- A list in ascending order of a key. -/
def sortBy (key : Nat → Nat) (l : List Nat) : List Nat := l.foldr (insertBy key) []

/-- The entries of a register that do not hold their reset value. -/
def State.listed (s : State) (r : Reg) : List Nat := (s.regs.filter (fun e => e.1 % 256 == r.ctorIdx)).map (fun e => e.1 / 256)

/-- The enabled Alloc-ID entries of tree `n`, in ascending order of Alloc-ID. -/
def State.allocsOf (s : State) (n : Nat) : List Nat :=
  sortBy (fun a => s.rd F.LOOM_ALLOC.ALLOC_ID a)
    ((s.listed .LOOM_ALLOC).filter (fun a => s.on F.LOOM_ALLOC.EN a && s.rd F.LOOM_ALLOC.TREE a == n))

/-- R422: an enable of entry `a` with word 0 `v` is refused. -/
def State.allocRefused (s : State) (a v : Nat) : Bool :=
  let n := bitsOf v 1 6
  let id := bitsOf v 16 14
  !s.treeEn n || decide (id < 1024) || (s.allocsOf n).any (fun b => b != a && s.rd F.LOOM_ALLOC.ALLOC_ID b == id)

/-- A 64-bit word of an entry of a register. -/
def State.regWord (s : State) (r : Reg) (i w : Nat) : Nat := bitsOf (s.reg r i).toNat (64 * w) 64

/-- Replace a 64-bit word of an entry of a register, the fields of `mask` only. -/
def State.setRegWord (s : State) (r : Reg) (i w v mask : Nat) : State :=
  let old := s.regWord r i w
  let new := Nat.lor (Nat.land old (2 ^ 64 - 1 - mask)) (Nat.land v mask)
  s.setReg r i (BitVec.ofNat 320 (setBits (s.reg r i).toNat (64 * w) 64 new))

/-- A write of word `w` of LOOM_ALLOC(a) (R422, R424, R433, R450). -/
def State.allocWrite (s : State) (a w v : Nat) : State :=
  let n := s.rd F.LOOM_ALLOC.TREE a
  let weight := setBits v 32 16 (max 1 (bitsOf v 32 16))
  match w with
  | 0 =>
    if a < 12288 then s.setRegWord .LOOM_ALLOC a 0 weight 0x0000FFFF40000000
    else
      let mask := 0x0000FFFF7FFFFF7F
      let ids (x : Nat) : Nat := Nat.land x 0x3FFFFF7E
      if s.on F.LOOM_ALLOC.EN a then
        if ids v ≠ ids (s.regWord .LOOM_ALLOC a 0) then s.loomErr n
        else if v.testBit 0 then s.setRegWord .LOOM_ALLOC a 0 weight mask
        else (s.withdrawAlloc n a).setRegWord .LOOM_ALLOC a 0 weight mask
      else if v.testBit 0 ∧ s.allocRefused a v then
        (s.setRegWord .LOOM_ALLOC a 0 (setBits weight 0 1 0) mask).loomErr (bitsOf v 1 6)
      else s.setRegWord .LOOM_ALLOC a 0 weight mask
  | 1 => s.setRegWord .LOOM_ALLOC a 1 v 0x3FFFFFFF3FFFFFFF
  | 2 => s.setRegWord .LOOM_ALLOC a 2 v 0x3FFFFFFF3FFFFFFF
  | 3 => s.setRegWord .LOOM_ALLOC a 3 v 0x00FFFFFF3FFFFFFF
  | _ => s

/-- ALLOC_ENABLE (R422): a write of word 0 of LOOM_ALLOC(a) with EN 1. -/
def execAllocEnable (a v : Nat) (s : State) : Result :=
  .next (if 32768 ≤ a then s else s.landed .LOOM_ALLOC (fun s => s.allocWrite a 0 (setBits v 0 1 1)))

/-- The enabled GEM port entry of a tree and Port-ID. -/
def State.gemFor (s : State) (n port : Nat) : Option Nat :=
  (s.listed .LOOM_GEM).find? (fun g =>
    s.on F.LOOM_GEM.EN g && s.rd F.LOOM_GEM.TREE g == n && s.rd F.LOOM_GEM.PORT_ID g == port)

/-- A write of word `w` of LOOM_GEM(g) (R423, R424). -/
def State.gemWrite (s : State) (g w v : Nat) : State :=
  match w with
  | 0 =>
    let n := bitsOf v 1 6
    let port := bitsOf v 16 16
    let taken := match s.gemFor n port with | some h => h != g | none => false
    let bad := decide (port < 256) || port == 0xFFFF || taken || !s.treeEn n
    if v.testBit 0 ∧ bad then (s.setRegWord .LOOM_GEM g 0 (setBits v 0 1 0) 0x001FFFFFFFFFFFFF).loomErr n
    else s.setRegWord .LOOM_GEM g 0 v 0x001FFFFFFFFFFFFF
  | 1 => s.setRegWord .LOOM_GEM g 1 (setBits v 48 6 (min 32 (bitsOf v 48 6))) 0x003FFFFFFFFFFFFF
  | 2 => s.setRegWord .LOOM_GEM g 2 v 0xFFFFFFFF
  | _ => s

/-- GEM_ENABLE (R423): a write of word 0 of LOOM_GEM(g) with EN 1. -/
def execGemEnable (g v : Nat) (s : State) : Result :=
  .next (if 65536 ≤ g then s else s.landed .LOOM_GEM (fun s => s.gemWrite g 0 (setBits v 0 1 1)))

/-- A write of word `w` of LOOM_PROFILE(n, p), entry 4 × n + p (R435). -/
def State.profileWrite (s : State) (k w v : Nat) : State :=
  let n := k / 4
  let p := k % 4
  let named := s.rd F.LOOM_DBA_CFG.FULL_PROF n == p || (s.on F.LOOM_DBA_CFG.SHORT_EN n && s.rd F.LOOM_DBA_CFG.SHORT_PROF n == p)
  if s.on F.LOOM_PROFILE.VALID k then
    if w = 0 ∧ !v.testBit 0 then (if named then s.loomErr n else s.wr F.LOOM_PROFILE.VALID k 0) else s
  else
    match w with
    | 0 =>
      let v1 := setBits v 2 3 (min 4 (bitsOf v 2 3))
      let s1 := s.setRegWord .LOOM_PROFILE k 0 v1 0x7F1F
      let t := s1.tree n
      if v.testBit 0 then s1.setTree n { t with bpValid := t.bpValid.set p (t.bpSent.getD p 0) } else s1
    | 1 => s.setRegWord .LOOM_PROFILE k 1 v (2 ^ 64 - 1)
    | 2 => s.setRegWord .LOOM_PROFILE k 2 v (2 ^ 64 - 1)
    | _ => s

/-! ### Dynamic bandwidth assignment (R426 to R430) -/

/-- The bytes of line time of one upstream frame (R400, R401). -/
def State.usFrame (s : State) (n : Nat) : Nat := s.usKbps n * 125 / 8000

/-- Nanoseconds as bytes of line time, rounded up. -/
def State.usBytes (s : State) (n ns_ : Nat) : Nat := (ns_ * s.usKbps n + 7999999) / 8000000

/-- The quiet intervals that fall in the arrivals of frame `f`, in bytes of line time from its start. -/
def State.quietIn (s : State) (n f : Nat) : List (Nat × Nat) :=
  let base := frameNs f + s.teqd n / 16
  ((s.tree n).quiets.filter (fun q => decide (base < q.2) && decide (q.1 < base + 125000))).map (fun q =>
    ((q.1 - base) * s.usKbps n / 8000000, s.usBytes n (q.2 - base)))

/-- R41: the frame of the last burst that a map, sent or computed ahead, gives by `gives`. -/
def State.lastGiven (s : State) (n last : Nat) (gives : Grant → Bool) : Nat :=
  ((s.tree n).maps.filter (fun m => m.grants.any gives)).foldl (fun k m => max k m.frame) last

/-- R430: entry `a` has had no burst for POLL_FRAMES frames at frame `f`. -/
def State.pollDue (s : State) (n a f : Nat) : Bool :=
  decide (s.dba n F.LOOM_DBA_CFG.POLL_FRAMES ≤ f - s.lastGiven n (s.alloc a).lastFrame (fun g => g.allocs.any (fun e => e.1 == a)))

/-- R429: the bytes of entry `a` that the last frame of the running cycle, sent or computed ahead, has deferred to the next. -/
def State.deferredOf (s : State) (n a : Nat) : Nat :=
  match (s.tree n).maps.getLast? with
  | some m =>
    if m.frame < (s.tree n).cycleStart then 0
    else match m.deferred.find? (fun e => e.1 == a) with | some e => e.2 | none => 0
  | none => (s.alloc a).deferred

/-- R426, R429: the demand of an Alloc-ID for a cycle of `c` frames; what was left unplaced is in a report's occupancy already. -/
def State.demandOf (s : State) (n a c : Nat) : Nat :=
  let x := s.alloc a
  let d := if x.dbru then x.demand
    else s.deferredOf n a + (if 16 * (x.granted - x.filled) < x.granted then x.filled + x.granted else x.filled)
  let cap := (s.rd F.LOOM_ALLOC.FIXED a + s.rd F.LOOM_ALLOC.ASSURED a + s.rd F.LOOM_ALLOC.NA_MAX a + s.rd F.LOOM_ALLOC.BE_MAX a) * c / 64
  min d cap

/-- R456: the ONU is granted nothing. -/
def State.probed (s : State) (n i : Nat) : Bool :=
  s.on F.LOOM_PROBE_STATUS.RUNNING n && s.rd F.LOOM_PROBE_STATUS.ONU n == i

/-- An Alloc-ID that may be granted (R422, R456). -/
def State.grantable (s : State) (n a : Nat) : Bool :=
  s.onuState (256 * n + s.rd F.LOOM_ALLOC.ONU a) == 3 && !s.probed n (s.rd F.LOOM_ALLOC.ONU a)

/-- The most uncoded bytes of a burst that `x` coded bytes hold under a profile. -/
def State.fits (s : State) (n prof x : Nat) : Nat :=
  if !s.on F.LOOM_PROFILE.FEC (4 * n + prof) then x
  else if s.on F.LOOM_TREE_CFG.TYPE n then Config.ldpcFits x
  else 216 * (x / 248) + (x % 248 - 32)

/-- R427: the payload bytes of frame `f` after one burst for each of `onus`, shared evenly, under FULL_PROF. -/
def State.frameCap (s : State) (n f : Nat) (onus : List Nat) (allocs : List Nat) : Nat :=
  let prof := s.dba n F.LOOM_DBA_CFG.FULL_PROF
  let quiet := ((s.quietIn n f).map (fun q => q.2 - q.1)).sum
  let k := onus.length
  let room := s.usFrame n - quiet - k * (s.usBytes n (s.rd F.LOOM_OPT_CFG.GUARD n) + s.preamble n prof)
  if k = 0 then 0
  else
    let d := s.fits n prof (room / k)
    (onus.map (fun i =>
      let dbru := (allocs.filter (fun a => s.rd F.LOOM_ALLOC.ONU a == i && (s.alloc a).dbru)).length
      d - 12 - 4 * dbru)).sum

/-- R427: `rem` shared among claimants (entry, limit, weight), max-min fair by weight, shares rounded down. -/
def fairShare : Nat → Nat → List (Nat × Nat × Nat) → List (Nat × Nat)
  | 0, _, l => l.map (fun e => (e.1, 0))
  | n + 1, rem, l =>
    let w := (l.map (fun e => e.2.2)).sum
    let full := l.filter (fun e => decide (e.2.1 * w ≤ rem * e.2.2))
    if full = [] then l.map (fun e => (e.1, if w = 0 then 0 else rem * e.2.2 / w))
    else
      full.map (fun e => (e.1, e.2.1)) ++
        fairShare n (rem - (full.map (fun e => e.2.1)).sum) (l.filter (fun e => !full.contains e))

/-- What a share gives an entry. -/
def shareOf (l : List (Nat × Nat)) (a : Nat) : Nat := match l.find? (fun e => e.1 == a) with | some e => e.2 | none => 0

/-- R427: rate number `j` of an entry over `c` frames with the carried remainder, and the new remainder. -/
def State.rateBytes (s : State) (a j rate c : Nat) : Nat × Nat :=
  let v := rate * c + (s.alloc a).rems.getD j 0
  (v / 64, v % 64)

/-- What one Alloc-ID brings to a cycle: entry, demand, and the bytes of its four rates. -/
structure Claim where
  a : Nat
  d : Nat
  f : Nat
  s : Nat
  na : Nat
  be : Nat
  weight : Nat
  deriving DecidableEq, Repr

/-- R415, R431: a cycle starts: LOOM_DBA_CFG(n) and the entries of the tree as it finds them. -/
def State.cycleTakes (s : State) (n : Nat) : State :=
  (s.allocsOf n).foldl (fun s a => s.setAlloc a { s.alloc a with inCycle := true, dbru := s.on F.LOOM_ALLOC.DBRU a })
    (s.setTree n { s.tree n with dba := some (s.reg .LOOM_DBA_CFG n).toNat })

/-- R427: the four rates of entry `a` over `c` frames with their remainders. -/
def State.rateSet (s : State) (a c : Nat) : List (Nat × Nat) :=
  [s.rateBytes a 0 (s.rd F.LOOM_ALLOC.FIXED a) c, s.rateBytes a 1 (s.rd F.LOOM_ALLOC.ASSURED a) c,
   s.rateBytes a 2 (s.rd F.LOOM_ALLOC.NA_MAX a) c, s.rateBytes a 3 (s.rd F.LOOM_ALLOC.BE_MAX a) c]

/-- R426, R427: what entry `a` brings to a cycle of `c` frames. -/
def State.claimOf (s : State) (n c a : Nat) : Claim :=
  let v (j : Nat) : Nat := ((s.rateSet a c).getD j (0, 0)).1
  let d := s.demandOf n a c
  ⟨a, d, v 0, min (v 1) (d - v 0), v 2, v 3, s.rd F.LOOM_ALLOC.WEIGHT a⟩

/-- R427: the totals of the claims in a capacity of `cap`, and whether it falls short of what is assured. -/
def cycleTotals (cap : Nat) (claims : List Claim) : List (Nat × Nat) × Bool :=
  let sum := (claims.map (fun x => x.f + x.s)).sum
  if cap < sum then (claims.map (fun x => (x.a, x.f * cap / sum + x.s * cap / sum)), true)
  else
    let rem := cap - sum
    let na := fairShare (claims.length + 1) rem ((claims.filter (fun x => decide (x.f + x.s < x.d))).map (fun x =>
      (x.a, min x.na (x.d - x.f - x.s), x.weight)))
    let rem2 := rem - (na.map (·.2)).sum
    let be := fairShare (claims.length + 1) rem2 ((claims.filter (fun x => decide (x.f + x.s + shareOf na x.a < x.d))).map (fun x =>
      (x.a, min x.be (x.d - x.f - x.s - shareOf na x.a), x.weight)))
    (claims.map (fun x => (x.a, x.f + x.s + shareOf na x.a + shareOf be x.a)), false)

/-- R429: entry `a` enters a cycle with its total; a remainder left unplaced is dropped and counted. -/
def State.enterCycle (s : State) (n c a total : Nat) : State :=
  let x := s.alloc a
  let left := s.deferredOf n a
  (if 0 < left then s.grantCnt n 10 else s).setAlloc a { x with
    total := total, deferred := 0, carried := left, granted := 0, filled := 0
    rems := if s.grantable n a then (s.rateSet a c).map (·.2) else x.rems }

/-- DBA_CYCLE (R426, R427, R431): the totals of the cycle that starts with the next frame to be computed. -/
def execDbaCycle (n : Nat) (s : State) : Result :=
  .next <|
    let t := s.tree n
    let start := t.sfc + 2
    if !s.treeEn n ∨ start < t.cycleStart + t.cycleLen then s
    else
      let s0 := s.cycleTakes n
      let c := s0.dba n F.LOOM_DBA_CFG.CYCLE
      let all := s0.allocsOf n
      let allocs := all.filter (s0.grantable n)
      let claims := allocs.map (s0.claimOf n c)
      let senders := ((claims.filter (fun x => decide (0 < x.d + x.f) || s0.pollDue n x.a (start + c - 1))).map (fun x =>
        s0.rd F.LOOM_ALLOC.ONU x.a)).eraseDups
      let totals := cycleTotals (((List.range c).map (fun k => s0.frameCap n (start + k) senders allocs)).sum) claims
      let s1 := all.foldl (fun s a => s.enterCycle n c a (shareOf totals.1 a)) s0
      let s2 := if totals.2 then s1.grantCnt n 11 else s1
      s2.setTree n { s2.tree n with cycleStart := start, cycleLen := c }

/-! ### The bandwidth map (R429, R430, R432, R436, R438) -/

/-- R398: the first place at or after `st` for a burst of `len` bytes clear of the quiet intervals. -/
def placeBurst (quiets : List (Nat × Nat)) (guard len limit : Nat) : Nat → Nat → Option Nat
  | 0, _ => none
  | k + 1, st =>
    match quiets.find? (fun q => decide (st < q.2 + guard) && decide (q.1 < st + len + guard)) with
    | some q => placeBurst quiets guard len limit k (q.2 + guard)
    | none => if st + len ≤ limit then some st else none

/-- A map as it is being made: bursts, deferred allocations, the end of the last burst, and allocation structures so far. -/
structure Making where
  grants : List Grant
  deferred : List (Nat × Nat)
  at_ : Nat
  count : Nat
  deriving DecidableEq, Repr

/-- R429: the burst of ONU `i` with the allocations it asks for, in order; those that do not fit are deferred. -/
def State.placeOnu (s : State) (n f i kind prof : Nat) (quiets : List (Nat × Nat)) (asks : List (Nat × Nat)) (m : Making) : Making :=
  let guard := s.usBytes n (s.rd F.LOOM_OPT_CFG.GUARD n)
  let fit (l : List (Nat × Nat)) : Option Nat :=
    let len := if kind = 1 then s.preamble n prof + s.coded n prof 60 else s.burstLen n prof l
    if 512 < m.count + max 1 l.length then none
    else placeBurst quiets guard len (s.usFrame n) (quiets.length + 1) (m.at_ + guard)
  let r := asks.foldl (fun (acc : List (Nat × Nat) × List (Nat × Nat)) e =>
    if (fit (acc.1 ++ [e])).isSome then (acc.1 ++ [e], acc.2) else (acc.1, acc.2 ++ [e])) ([], [])
  if kind ≠ 1 ∧ r.1 = [] then { m with deferred := m.deferred ++ r.2 }
  else
    match fit r.1 with
    | none => { m with deferred := m.deferred ++ r.2 }
    | some st =>
      let len := if kind = 1 then s.preamble n prof + s.coded n prof 60 else s.burstLen n prof r.1
      ⟨m.grants ++ [⟨f, i, r.1, prof, st, len, kind, false⟩], m.deferred ++ r.2, st + len, m.count + max 1 r.1.length⟩

/-- R429, R430: what entry `a` asks for in frame `f`: its part of the running cycle with what was deferred to it, or a poll. -/
def State.asksFor (s : State) (n f a : Nat) : Option (Nat × Nat) :=
  let t := s.tree n
  let x := s.alloc a
  let k := f - t.cycleStart
  let part := (if t.cycleStart ≤ f ∧ k < t.cycleLen then (k + 1) * x.total / t.cycleLen - k * x.total / t.cycleLen else 0) + s.deferredOf n a
  if 0 < part then some (a, part) else if s.pollDue n a f then some (a, if x.dbru then 0 else 64) else none

/-- R416: a LOST ONU has had no PLOAMu burst for 8 frames at frame `f`. -/
def State.ploamDue (s : State) (n i f : Nat) : Bool :=
  decide (8 ≤ f - s.lastGiven n (s.onu (256 * n + i)).pollFrame (fun g => g.kind == 1 && g.onu == i)) && !s.probed n i

/-- R416, R429, R430: ONU `i` in the map of frame `f`. -/
def State.mapOnu (s : State) (n f : Nat) (m : Making) (i : Nat) : Making :=
  let st := s.onuState (256 * n + i)
  let quiets := s.quietIn n f
  let asks := ((s.allocsOf n).filter (fun a =>
    s.rd F.LOOM_ALLOC.ONU a == i && (s.alloc a).inCycle && s.grantable n a)).filterMap (s.asksFor n f)
  if st = 4 then
    (if s.ploamDue n i f then s.placeOnu n f i 1 (s.dba n F.LOOM_DBA_CFG.FULL_PROF) quiets [] m else m)
  else if st = 3 ∧ asks ≠ [] then s.placeOnu n f i 0 (s.profileFor n i (s.expectAt n f)) quiets asks m
  else m

/-- BWMAP_COMPUTE (R41, R429, R430, R432): the map of the frame two after the current one, as work done ahead: it is kept, and nothing else
changes until it is sent. -/
def execBwmapCompute (n : Nat) (s : State) : Result :=
  .next <|
    let t := s.tree n
    let f := t.sfc + 2
    if !s.treeEn n ∨ t.frameAt = none ∨ t.maps.any (fun m => m.frame == f) then s
    else
      let m := (List.range 256).foldl (s.mapOnu n f) ⟨[], [], 0, 0⟩
      s.setTree n { t with maps := t.maps ++ [⟨f, m.grants, m.deferred⟩] }

/-! ### The downstream frame (R393, R395, R400 to R404, R411, R446, R481) -/

/-- R402: at most 4 messages, in order, one place at least for the host's. -/
def placePloam (urgent assign host : List Waiting) (bp : Bool) : List Waiting × List Waiting × List Waiting × Bool :=
  let room := if host = [] then 4 else 3
  let u := urgent.take room
  let a := assign.take (room - u.length)
  let h := host.take (4 - u.length - a.length)
  (u, a, h, bp && decide (u.length + a.length + h.length < 4))

/-- The key and SeqNo counter of a message (R418, R419). -/
def State.ploamKey (s : State) (n onu : Nat) : Option Nat := if onu = allOnus then none else s.key (4 * (256 * n + onu) + 3)

/-- What a message says, as numbers. -/
def ploamNumbers (k : PloamKind) (onu seq : Nat) : List Nat :=
  match k with
  | .deactivate => [onu, 0, seq]
  | .disableSn b sn => [onu, 1, seq, if b then 1 else 0, sn]
  | .assign sn => [onu, 2, seq, sn]
  | .rangingTime e => [onu, 3, seq, e]
  | .requestRegistration => [onu, 4, seq]
  | .burstProfile p => [onu, 5, seq, p]
  | .host c => [onu, 6, seq] ++ c.map (·.toNat)

/-- R418, R419: message `w` is sent: the next SeqNo of its ONU, or of the broadcast sequence, and its MIC. -/
def State.sendPloam (s : State) (n : Nat) (w : Waiting) : State × Ploam :=
  if w.onu = allOnus then
    let t := s.tree n
    let q := (t.seq + 1) % 256
    (s.setTree n { t with seq := q }, ⟨w.onu, w.kind, q, Config.mic none (ploamNumbers w.kind w.onu q)⟩)
  else
    let r := 256 * n + w.onu
    let x := s.onu r
    let q := (x.seq + 1) % 256
    let sent := (x.sent.filter (fun e => e.1 != q)) ++ [(q, w.tag)]
    (s.setOnu r { x with seq := q, sent := sent },
      ⟨w.onu, w.kind, q, Config.mic (s.ploamKey n w.onu) (ploamNumbers w.kind w.onu q)⟩)

/-- R406, R411: what follows when a hardware message has been transmitted in frame `f`. -/
def State.ploamSent (s : State) (n f : Nat) (w : Waiting) : State :=
  let s1 := if w.cmd then s.wr F.LOOM_ONU_CMD_STATUS.BUSY n 0 else s
  let r := 256 * n + w.onu
  match w.kind with
  | .deactivate => if w.times = 1 ∧ s1.onuState r = 5 then s1.freeOnu r else s1
  | .assign _ =>
    if s1.onuState r ≠ 1 then s1
    else
      let t := s1.tree n
      let e : Int := frameNs (f + 2) + (s1.onu r).rtdEst / 16
      let m : Int := 1000 * s1.timing n F.LOOM_TREE_TIMING.RANGE_MARGIN
      let g : Grant := ⟨f + 2, w.onu, [(r, 0)], s1.dba n F.LOOM_DBA_CFG.FULL_PROF, 0, 0, 2, false⟩
      ((s1.setOnuState r 2).setTree n { t with
        special := t.special ++ [g], quiets := t.quiets ++ [((e - m).toNat, (e + m + 2000).toNat)] }).actCnt n 7
  | _ => s1

/-- What a list keeps after the messages of `sent` have gone once. -/
def afterSend (waiting sent : List Waiting) : List Waiting :=
  waiting.filterMap (fun w =>
    if sent.contains w then (if w.times ≤ 1 then none else some { w with times := w.times - 1, cmd := false }) else some w)

/-- R446: switches of key index whose frame has come. -/
def State.keySwitches (s : State) (n f : Nat) : State :=
  let t := s.tree n
  let s1 := match t.switch with
    | some (i, q) => if q ≤ f then s.setTree n { t with active := i, switch := none } else s
    | none => s
  (List.range 256).foldl (fun s i =>
    let x := s.onu (256 * n + i)
    match x.switch with
    | some (k, q) => if q ≤ f then s.setOnu (256 * n + i) { x with active := k, switch := none } else s
    | none => s) s1

/-- R41, R416, R429, R430: what a map computed ahead leaves when it is sent in frame `f`: bursts given, and allocations deferred. -/
def State.commitMarks (s : State) (n f : Nat) (m : BwMap) : State :=
  let s1 := (s.allocsOf n).foldl (fun s a =>
    let x := s.alloc a
    let given := m.grants.any (fun g => g.allocs.any (fun e => e.1 == a))
    let left := match m.deferred.find? (fun e => e.1 == a) with | some e => e.2 | none => 0
    s.setAlloc a { x with
      lastFrame := if given then f else x.lastFrame, deferred := if f < (s.tree n).cycleStart then 0 else left }) s
  let s2 := (m.grants.filter (fun g => g.kind == 1)).foldl (fun s g =>
    s.setOnu (256 * n + g.onu) { s.onu (256 * n + g.onu) with pollFrame := f }) s1
  s2.grantCnt n 10 m.deferred.length

/-- R432: the grants of a map are committed with its BWmap. -/
def State.commitMap (s : State) (n : Nat) (gs : List Grant) : State :=
  gs.foldl (fun s g =>
    let s1 := g.allocs.foldl (fun s e =>
      let x := s.alloc e.1
      s.setAlloc e.1 { x with
        granted := x.granted + e.2, demand := x.demand - e.2, committed := x.committed ++ [(g.frame, e.2)] }) s
    let s2 := s1.grantCnt n 1 (max 1 g.allocs.length)
    if g.kind = 0 ∧ (s.dba n F.LOOM_DBA_CFG.SHORT_EN == 1) ∧ g.profile = s.dba n F.LOOM_DBA_CFG.SHORT_PROF then s2.grantCnt n 6 else s2) s

/-- R404: the profile whose broadcast is due in frame `f`. -/
def State.bpDue (s : State) (n f : Nat) : Option Nat :=
  let t := s.tree n
  if f < t.bpFrame + s.timing n F.LOOM_TREE_TIMING.BP_PERIOD then none
  else ((List.range 4).map (fun j => (t.bpNext + j) % 4)).find? (fun p => s.on F.LOOM_PROFILE.VALID (4 * n + p))

/-- R418: messages go out one after another. -/
def State.sendAllPloam (s : State) (n : Nat) (ws : List Waiting) : State × List Ploam :=
  ws.foldl (fun (acc : State × List Ploam) w =>
    let r := acc.1.sendPloam n w
    (r.1, acc.2 ++ [r.2])) (s, [])

/-- R404: profile `p` has been broadcast in frame `f`. -/
def State.profileSent (s : State) (n f p : Nat) : State :=
  let t := s.tree n
  s.setTree n { t with bpFrame := f, bpNext := (p + 1) % 4, bpSent := t.bpSent.set p (t.bpSent.getD p 0 + 1) }

/-- R393, R400: the FRC value at which tree `n` starts its next frame: 125 µs after the last, the first one at a multiple of 125 µs. -/
def State.nextFrameAt (s : State) (n : Nat) : Nat :=
  match (s.tree n).frameAt with
  | some a => a + ns 125000
  | none => (s.now + ns 125000 - 1) / ns 125000 * ns 125000

/-- R394, R395, R400, R446: frame `f` starts at `at_`: TIM_PON_SFC, LOOM_TREE_TIMING as it stands, the link with the first frame, and key
switches due. -/
def State.frameTurn (s : State) (n f at_ : Nat) : State :=
  let s1 := ((s.advanceTo at_).wr F.TIM_PON_SFC.FRC n (at_ / 65536)).wr F.TIM_PON_SFC.SFC n f
  let s2 := s1.setTree n { s1.tree n with timing := some (s1.reg .LOOM_TREE_TIMING n).toNat }
  (if (s.tree n).frameAt = none then s2.treeLink n true else s2).keySwitches n f

/-- R432: the BWmap that frame `f` of tree `n` carries. -/
def State.frameMap (s : State) (n f : Nat) : List Grant :=
  (((s.tree n).maps.filter (fun m => m.frame == f)).flatMap (·.grants)) ++ (s.tree n).special.filter (fun g => g.frame == f)

/-- R454: the interval in which a granted burst may light the fibre, in ns from E0 of frame 0, and its ONU. -/
def State.litBy (s : State) (n : Nat) (g : Grant) : Nat × Nat × Nat :=
  let base := frameNs g.frame + s.teqd n / 16
  let tol := s.dba n F.LOOM_DBA_CFG.ARR_TOL
  let at_ (b : Nat) : Nat := if s.usKbps n = 0 then 0 else b * 8000000 / s.usKbps n
  (base + at_ g.start - tol,
    base + at_ (g.start + g.len) + 1 + tol + s.rd F.LOOM_OPT_CFG.RESET_DELAY n + s.rd F.LOOM_OPT_CFG.RESET_WIDTH n, g.onu)

/-- R409, R412, R432: the bursts of frame `f` are now expected, and its windows open. -/
def State.frameCommit (s : State) (n f at_ : Nat) : State :=
  let t := s.tree n
  let mine := t.special.filter (fun g => g.frame == f)
  let map := s.frameMap n f
  let s1 := ((s.setTree n { t with
    sfc := f, frameAt := some at_, maps := t.maps.filter (fun m => decide (f < m.frame))
    special := t.special.filter (fun g => decide (f < g.frame))
    expected := t.expected ++ map.filter (fun g => decide (g.kind < 2))
    snOpen := if mine.any (fun g => g.kind == 3) then some f
      else t.snOpen.filter (fun g => decide (frameNs f < frameNs g + 209000 + s.teqd n / 16))
    quiets := t.quiets.filter (fun q => decide (frameNs f ≤ q.2 + 1000000))
    granted := (t.granted.filter (fun g => decide (frameNs f ≤ g.2.1 + 1000000))) ++ (map.filter (fun g => decide (g.kind < 2))).map (s.litBy n)
    }).grantCnt n 0).commitMap n map
  let s2 := (t.maps.filter (fun m => m.frame == f)).foldl (fun s m => s.commitMarks n f m) s1
  (mine.filter (fun g => g.kind == 2)).foldl (fun s g =>
    s.setOnu (256 * n + g.onu) { s.onu (256 * n + g.onu) with window := true }) s2

/-- R446: the active key index of entry `g`, 0 where there is none or the port is not encrypted, and its key. -/
def State.gemKey (s : State) (n g : Nat) : Nat × Option Nat :=
  if !s.on F.LOOM_GEM.ENC g then (0, none)
  else if s.on F.LOOM_GEM.MCAST g then ((s.tree n).active, s.key (65536 + 4 * n + (s.tree n).active))
  else
    let r := 256 * n + s.rd F.LOOM_GEM.ONU g
    ((s.onu r).active, s.key (4 * r + (s.onu r).active))

/-- R446: an XGEM frame that waits (Port-ID, GEM entry plus 1 or 0 for none, payload) as it goes in frame `f`: Port-ID, key index and
payload, encrypted by the index active in that frame. -/
def State.sealGem (s : State) (n f : Nat) (x : Nat × Nat × List Byte) : Nat × Nat × List Byte :=
  let key := if x.2.1 = 0 then (0, none) else s.gemKey n (x.2.1 - 1)
  match key.2 with
  | some v => (x.1, key.1, Config.aesGem v f x.2.2)
  | none => (x.1, 0, x.2.2)

/-- R400, R401: the longest run of waiting XGEM frames whose payloads and headers fit in `room` octets. -/
def gemFits (room : Nat) : List (Nat × Nat × List Byte) → Nat
  | [] => 0
  | x :: xs => if room < x.2.2.length + Config.gemHeader then 0 else 1 + gemFits (room - (x.2.2.length + Config.gemHeader)) xs

/-- R400, R401: the octets of the FS frame of a tree: 135,432 on XGS-PON, the recommendation's on 50G-PON. -/
def State.fsSize (s : State) (n : Nat) : Nat := if s.on F.LOOM_TREE_CFG.TYPE n then Config.fsOctets50 else 135432

/-- R402, R404: frame `f` takes its PLOAM messages in their order, and leaves with its BWmap and the XGEM frames that fit. -/
def State.frameSend (s : State) (n f at_ : Nat) (map : List Grant) : State :=
  let t := s.tree n
  let ready (l : List Waiting) : List Waiting := l.filter (fun w => decide (w.ready ≤ at_))
  let bp := s.bpDue n f
  let pl := placePloam (ready t.urgent) (ready t.assign) (ready t.host) bp.isSome
  let hw := pl.1 ++ pl.2.1
  let bpMsg : List Waiting := match bp with
    | some p => if pl.2.2.2 then [⟨allOnus, .burstProfile p, 0, 1, false, none⟩] else []
    | none => []
  let told := hw ++ pl.2.2.1 ++ bpMsg
  let k := gemFits (s.fsSize n - Config.fsTaken (map.map (fun g => max 1 g.allocs.length)).sum told.length) t.xgem
  let s1 := s.setTree n { t with
    urgent := afterSend t.urgent pl.1, assign := afterSend t.assign pl.2.1, host := afterSend t.host pl.2.2.1, xgem := t.xgem.drop k }
  let out := s1.sendAllPloam n told
  let s2 := hw.foldl (fun s w => s.ploamSent n f w) out.1
  let s3 := match bp with
    | some p => if pl.2.2.2 then s2.profileSent n f p else s2
    | none => s2
  s3.emit (.dsFrame n f (s.rd F.LOOM_TREE_CFG.PON_ID n) (s.rd F.LOOM_TREE_CFG.TOL n) map out.2 ((t.xgem.take k).map (s.sealGem n f)))

/-- DOWNSTREAM_FRAME (R393, R566): tree `n` starts its next frame. -/
def execDownstreamFrame (n : Nat) (s : State) : Result :=
  .next <|
    if !s.treeEn n then s
    else
      let at_ := s.nextFrameAt n
      let f := ((s.tree n).sfc + 1) % 2 ^ 51
      let s1 := (s.ucodeMove n).frameTurn n f at_
      (s1.frameCommit n f at_).frameSend n f at_ (s1.frameMap n f)

/-! ### Receiving bursts (R396, R416, R437 to R443) -/

/-- R396: a burst granted to an OPERATING ONU in frame `f` has come and gone, with or without signal; US_LOS follows when the frame is
over. -/
def State.losBurst (s : State) (n f : Nat) (sd : Bool) : State :=
  let t := s.tree n
  let before := match t.losFrame with
    | some (g, b) => if g = f then (t.losRun, b || sd) else (if b then 0 else t.losRun + 1, sd)
    | none => (t.losRun, sd)
  if t.expected.any (fun g => g.frame == f && g.kind == 0) then
    s.setTree n { t with losFrame := some (f, before.2), losRun := before.1 }
  else
    let run := if before.2 then 0 else before.1 + 1
    let s1 := s.setTree n { t with losFrame := none, losRun := run }
    if 8 ≤ run ∧ !s1.on F.LOOM_TREE_STATUS.US_LOS n then s1.setCause F.LOOM_TREE_STATUS.US_LOS n (16 + n) else s1

/-- R416, R439: the granted burst `g` is missed. -/
def State.missBurst (s : State) (n : Nat) (g : Grant) : State :=
  let r := 256 * n + g.onu
  let s1 := (s.grantCnt n 5).incSat F.LOOM_ONU.LOB_RUN r
  let short := (s.dba n F.LOOM_DBA_CFG.SHORT_EN == 1) && g.profile == s.dba n F.LOOM_DBA_CFG.SHORT_PROF && g.kind == 0
  let s2 := if short then (s1.wr F.LOOM_PHASE.VALID r 0).grantCnt n 7 else s1
  if s2.onuState r = 3 ∧ s2.timing n F.LOOM_TREE_TIMING.LOB_LIMIT ≤ s2.rd F.LOOM_ONU.LOB_RUN r then
    let s3 := s2.setOnuState r 4
    (s3.setOnu r { s3.onu r with to2At := s3.now + ms (s3.timing n F.LOOM_TREE_TIMING.TO2) }).loomEvent n
  else s2

/-- R433, R434: the grant has been withdrawn, or names a disabled Alloc-ID. -/
def State.grantDead (s : State) (g : Grant) : Bool := g.withdrawn || g.allocs.any (fun e => !s.on F.LOOM_ALLOC.EN e.1)

/-- R444: the partial frame of an entry is discarded. -/
def State.dropPartial (s : State) (n a : Nat) : State :=
  let x := s.alloc a
  if x.partial_.isNone then s else ((s.setAlloc a { x with partial_ := none }).grantCnt n 13).discardAt 11

/-- R444: the burst that was being received is over: a partial frame from before it, which no allocation of the burst went on with, is
discarded. -/
def State.endBurst (s : State) (n : Nat) : State :=
  match (s.tree n).burst with
  | none => s
  | some g => g.allocs.foldl (fun s e => if (s.alloc e.1).partialFrame = g.frame then s else s.dropPartial n e.1) s

/-- The next burst of a tree, taken from those expected. -/
def State.nextBurst (s : State) (n : Nat) : Option (State × Grant) :=
  let t := s.tree n
  match t.expected with
  | [] => none
  | g :: rest =>
    let s0 := s.endBurst n
    let s1 := s0.setTree n { s0.tree n with expected := rest, burst := none, resetDue := t.resetDue + 1 }
    let s2 := g.allocs.foldl (fun s e =>
      let x := s.alloc e.1
      s.setAlloc e.1 { x with committed := x.committed.erase (g.frame, e.2) }) s1
    some (s2, g)

/-- BURST_MISSED (R440): no delimiter is found within ARR_TOL; whether PBR_SD was asserted. -/
def execBurstMissed (n : Nat) (sd : Bool) (s : State) : Result :=
  .next <|
    match s.nextBurst n with
    | none => s
    | some (s1, g) => if s1.grantDead g then s1 else (if g.kind = 0 then s1.losBurst n g.frame sd else s1).missBurst n g

/-- R341, R426: the reports of a burst, one for each of its allocations: bytes filled, and the occupancy of its DBRu field where it has one that
can be used. -/
def State.takeReports (s : State) (g : Grant) : List (Nat × Nat) → List (Nat × Option Nat) → State
  | e :: es, (u, o) :: rs =>
    let x := s.alloc e.1
    let later := ((x.committed.filter (fun c => decide (g.frame < c.1))).map (·.2)).sum
    ((s.writeHist e.1).setAlloc e.1 { x with
      filled := x.filled + u, burstAt := s.now
      demand := match o with | some v => v - later | none => x.demand }).takeReports g es rs
  | _, _ => s

/-- R443: the mean offset of the last 16 locked bursts. -/
def State.drift (s : State) (n i : Nat) (off : Int) : State :=
  let r := 256 * n + i
  let x := s.onu r
  let os := (off :: x.offsets).take 16
  let mean : Int := os.sum / 16
  if os.length < 16 ∨ os.sum.natAbs ≤ s.dba n F.LOOM_DBA_CFG.DRIFT_LIMIT * 256 then s.setOnu r { x with offsets := os }
  else
    let s1 := s.setOnu r { x with offsets := [] }
    let eqd : Int := (s.rd F.LOOM_ONU.EQD r : Int) - mean
    if eqd < 0 then s1.deactivate n i 3
    else
      ((s1.wr F.LOOM_ONU.EQD r eqd.toNat).grantCnt n 12).sayAssign n i
        (.rangingTime (Config.eqdUnits (s.on F.LOOM_TREE_CFG.TYPE n) (s.rd F.LOOM_TREE_CFG.US_RATE n) eqd.toNat))

/-- BURST_RECEIVE (R434, R437, R440 to R443): the delimiter of the next granted burst is found: its offset from the expected end in
1/16 ns, the ONU-ID of its header, codewords that cannot be corrected, its phase and gain, and its reports. -/
def execBurstReceive (n : Nat) (off : Int) (hdr bad phase gain : Nat) (reports : List (Nat × Option Nat)) (s : State) : Result :=
  .next <|
    match s.nextBurst n with
    | none => s
    | some (s0, g) =>
      let r := 256 * n + g.onu
      -- R437: the receiver has been preset from the phase memory
      let s1 := s0.readHist r
      if s1.grantDead g then (s1.grantCnt n 3).discardAt 11
      else
        let s2 := if g.kind = 0 then s1.losBurst n g.frame true else s1
        if s.dba n F.LOOM_DBA_CFG.ARR_TOL * 16 < off.natAbs then s2.missBurst n g
        else if hdr ≠ g.onu then ((s2.grantCnt n 9).discardAt 11).missBurst n g
        else
          let s3 := ((s2.wr F.LOOM_TREE_STATUS.US_LOS n 0).grantCnt n 4).grantCnt n 8 bad
          let s4 := (s3.wr F.LOOM_ONU.LOB_RUN r 0).lockPhase r phase gain
          let s5 := if s4.onuState r = 4 then s4.setOnuState r 3 else s4
          let s6 := s5.setOnu r { s5.onu r with fresh := false }
          let s7 := s6.setTree n { s6.tree n with
            burst := some g, losRun := 0, stamp := s6.stampAt 0, stampAnchor := s6.anchor == 1 }
          (s7.takeReports g g.allocs reports).drift n g.onu off

/-! ### Upstream frames (R425, R444, R447, R449 to R451) -/

/-- REASSEMBLY_TIMEOUT (R444): entry `a` has had no burst for 2 ms. -/
def execReassemblyTimeout (a : Nat) (s : State) : Result :=
  .next <|
    let x := s.alloc a
    if x.partial_.isNone then s else (s.advanceTo (x.burstAt + ms 2)).dropPartial (s.rd F.LOOM_ALLOC.TREE a) a

/-- The Ethernet type of a frame after up to two VLAN tags, and the offset of what follows it (R451). -/
def etherType (data : List Byte) : Nat × Nat :=
  let ty (o : Nat) : Nat := word16 data o
  let tag (v : Nat) : Bool := v == 0x8100 || v == 0x88A8
  if !tag (ty 12) then (ty 12, 14) else if !tag (ty 16) then (ty 16, 18) else (ty 20, 22)

/-- R451: the source binding of an entry holds. -/
def State.bound (s : State) (g : Nat) (data : List Byte) : Bool :=
  let bind := s.rd F.LOOM_GEM.BIND g
  let mac := natBE ((data.drop 6).take 6) == s.rd F.LOOM_GEM.BIND_MAC g
  let e := etherType data
  let sh := 32 - s.rd F.LOOM_GEM.BIND_V4_LEN g
  let v4 (o : Nat) : Bool := natBE (padTo 4 (data.drop (e.2 + o))) / 2 ^ sh == s.rd F.LOOM_GEM.BIND_V4 g / 2 ^ sh
  let ip := (e.1 == 0x0800 && v4 12) || (e.1 == 0x0806 && v4 14)
  (bind % 2 == 0 || mac) && (decide (bind < 2) || ip)

/-- The bucket of entry `a` as it stands now (R450). -/
def State.allocBucket (s : State) (a : Nat) : Bucket :=
  s.bucketNow (s.alloc a).bucket (s.rd F.LOOM_ALLOC.POL_RATE a) policerDen (s.rd F.LOOM_ALLOC.POL_BURST a)

/-- R449, checks 5 and 6, and the entry to the port FIFO: a whole frame of GEM entry `g`. -/
def State.upstreamFrame (s : State) (n a g port : Nat) (stamp : BitVec 80) (anchor : Bool) (data : List Byte) : State :=
  let b := s.allocBucket a
  let pol := s.rd F.LOOM_ALLOC.POL_RATE a ≠ 0
  let s1 := if pol then s.setAlloc a { s.alloc a with bucket := some (if b.level < data.length then b
      else { b with level := b.level - data.length }) } else s
  if pol ∧ b.level < data.length then (s1.sepCnt n 4).discardAt 11
  else if !s1.bound g data then (s1.sepCnt n 5).discardAt 11
  else
    let p := 64 + n
    let size := data.length + 4
    if s1.fifoSize p < (s1.mac p).fill + size then s1.fifoDrop p size
    else
      s1.enterFifo (Pkt.fresh data ⟨p, p, stamp, anchor, port, s.rd F.LOOM_GEM.SUB_CTX g, 0, false, true, false, size, size, 0, []⟩)

/-- R425: a whole OMCC frame goes to the OMCI ring. -/
def State.omccFrame (s : State) (n i : Nat) (stamp : BitVec 80) (data : List Byte) : State :=
  match s.puntMessage (s.rd F.LOOM_OMCI_CFG.RING) (puntFields 3 0 0 0 (64 + n) i 0xFFFFFF n i 0 0 0 stamp) data with
  | (s1, true) => s1
  | (s1, false) => (s1.sepCnt n 9).discardAt 11

/-- R449, checks 1 to 3: the GEM entry of a frame of a burst granted in frame `frame` (none of an OMCC) and its payload in the clear, or the
counter of the check that fails. -/
def State.gemChecks (s : State) (n frame i port idx : Nat) (octets : List Byte) : Nat ⊕ (Option Nat × List Byte) :=
  let st (i : Nat) : Nat := s.onuState (256 * n + i)
  if port < 256 then
    if st port ≠ 3 ∧ st port ≠ 4 then .inl 0 else if port ≠ i then .inl 1 else .inr (none, octets)
  else
    match s.gemFor n port with
    | none => .inl 0
    | some g =>
      if s.on F.LOOM_GEM.MCAST g ∨ s.rd F.LOOM_GEM.ONU g ≠ i then .inl 1
      else if idx = 0 then (if s.on F.LOOM_GEM.ENC g then .inl 2 else .inr (some g, octets))
      else if 3 ≤ idx then .inl 3
      else
        match s.key (4 * (256 * n + i) + idx) with
        | none => .inl 3
        | some k => .inr (some g, Config.aesGem k frame octets)

/-- UPSTREAM_XGEM_FRAME (R441, R444, R447, R449 to R451): an XGEM frame of allocation `j` of the burst being received: its Port-ID, key
index, whether it is the last fragment, whether it has a byte in a codeword that cannot be corrected, and its payload. -/
def execUpstreamXgemFrame (n j port idx : Nat) (last bad : Bool) (octets : List Byte) (s : State) : Result :=
  .next <|
    match (s.tree n).burst with
    | none => s
    | some g =>
      match g.allocs[j]? with
      | none => s
      | some e =>
        let a := e.1
        if bad then (s.dropPartial n a).discardAt 11
        else
          match s.gemChecks n g.frame g.onu port idx octets with
          | .inl c => ((s.dropPartial n a).sepCnt n c).discardAt 11
          | .inr (entry, clear) =>
            let s1 := match (s.alloc a).partial_ with
              | some (q, _) => if q = port then s else s.dropPartial n a
              | none => s
            let x := s1.alloc a
            let data := (match x.partial_ with | some (_, d) => d | none => []) ++ clear
            let stamp := if x.partial_.isSome then x.partialStamp else (s.tree n).stamp
            if 9728 < data.length then ((s1.setAlloc a { x with partial_ := none }).grantCnt n 13).discardAt 11
            else if !last then s1.setAlloc a { x with partial_ := some (port, data), partialStamp := stamp, partialFrame := g.frame }
            else
              let s2 := s1.setAlloc a { x with partial_ := none }
              match entry with
              | none => s2.omccFrame n g.onu stamp data
              | some k => s2.upstreamFrame n a k port stamp (s.tree n).stampAnchor data

/-! ### Downstream frames (R446, R452, R453) -/

/-- R452: the counter of the check that a frame to tree `n` for GEM entry `g` fails. -/
def State.gemExitFails (s : State) (n g : Nat) (p : Pkt) : Option Nat :=
  let st := s.onuState (256 * n + s.rd F.LOOM_GEM.ONU g)
  if p.err then some 8
  else if !s.on F.LOOM_GEM.EN g ∨ s.rd F.LOOM_GEM.TREE g ≠ n then some 6
  else if s.on F.LOOM_GEM.MCAST g then none
  else if st ≠ 3 ∧ st ≠ 4 then some 6
  else if s.rd F.LOOM_GEM.SUB_CTX g ≠ s.subOf p.carry.queue then some 7
  else none

/-- R400, R401: a downstream frame's worth of XGEM frames already waits. -/
def State.gemWaits (s : State) (n : Nat) : Bool :=
  decide (s.fsSize n ≤ ((s.tree n).xgem.map (fun x => x.2.2.length + Config.gemHeader)).sum)

/-- DOWNSTREAM_GEM_EXIT (R452, R453, R446): packet `k` leaves the egress stages to its tree. -/
def execDownstreamGemExit (k : Nat) (s : State) : Result :=
  .next <|
    match s.pkt k with
    | none => s
    | some p =>
      let n := s.nodeTarget p.node
      if s.halted ∨ p.loc ≠ .txFifo ∨ s.nodeKind p.node ≠ 1 ∨ s.nodeState p.node ≠ 1 ∨ !s.txReady p ∨ s.gemWaits n then s
      else
        let g := hvGet p.drec 0x14 2
        match s.gemExitFails n g p with
        | some c => ((s.trueUp p.data.length p.charges).sepCnt n c).discardPkt k 12 0
        | none =>
          let t := s.tree n
          let s1 := s.setTree n { t with xgem := t.xgem ++ [(s.rd F.LOOM_GEM.PORT_ID g, g + 1, p.data)] }
          let s2 := (s1.trueUp p.data.length p.charges).txOctets p.node (p.data.length + 4)
          (s2.trace k 7 0 [64 + n, 0]).removePkt k

/-- R425, R495: an OMCC frame from the host for ONU-ID `i`; whether it was taken. -/
def State.hostOmcc (s : State) (n i : Nat) (data : List Byte) : State × Bool :=
  let st := s.onuState (256 * n + i)
  if st = 0 ∨ st = 5 ∨ st = 6 then (s.actCnt n 11, false)
  else
    let t := s.tree n
    (s.setTree n { t with xgem := t.xgem ++ [(i, 0, data)] }, true)

/-! ### Keys (R445, R446, R448) -/

/-- LOOM_KEY_CMD completes with a code. -/
def State.keyDone (s : State) (code : Nat) : State :=
  (s.wr F.LOOM_KEY_STATUS.BUSY 0 0).wr F.LOOM_KEY_STATUS.CODE 0 code

/-- A write of LOOM_KEY_CMD has stored its fields: the command runs, or is refused. -/
def State.keyStart (s : State) : State :=
  let op := s.rd F.LOOM_KEY_CMD.OP
  let kind := s.rd F.LOOM_KEY_CMD.KIND
  let idx := s.rd F.LOOM_KEY_CMD.IDX
  if op = 0 ∨ 4 ≤ op ∨ kind = 3 ∨ (kind < 2 ∧ (idx = 0 ∨ idx = 3)) ∨ 48 ≤ s.rd F.LOOM_KEY_CMD.TREE ∨ (op = 3 ∧ kind = 2) then s.keyDone 1
  else s.wr F.LOOM_KEY_STATUS.BUSY 0 1

/-- The record and the place of the key that LOOM_KEY_CMD names. -/
def State.keyRecord (s : State) : Nat := 256 * s.rd F.LOOM_KEY_CMD.TREE + s.rd F.LOOM_KEY_CMD.ONU
def State.keyPlace (s : State) : Nat :=
  match s.rd F.LOOM_KEY_CMD.KIND with
  | 0 => 4 * s.keyRecord + s.rd F.LOOM_KEY_CMD.IDX
  | 1 => 65536 + 4 * s.rd F.LOOM_KEY_CMD.TREE + s.rd F.LOOM_KEY_CMD.IDX
  | _ => 4 * s.keyRecord + 3

/-- A command of LOOM_KEY_CMD runs. -/
def State.keyRuns (s : State) (op : Nat) : Bool := s.on F.LOOM_KEY_STATUS.BUSY && s.rd F.LOOM_KEY_CMD.OP == op

/-- KEY_WRITE (R445). -/
def execKeyWrite (s : State) : Result :=
  .next <|
    if !s.keyRuns 1 then s
    else
      let st := s.onuState s.keyRecord
      if s.rd F.LOOM_KEY_CMD.KIND ≠ 1 ∧ (st = 0 ∨ st = 5 ∨ st = 6) then s.keyDone 2
      else (s.setKey s.keyPlace (some (s.rd F.LOOM_KEY_DATA.DATA))).keyDone 0

/-- KEY_CLEAR (R445). -/
def execKeyClear (s : State) : Result := .next (if !s.keyRuns 2 then s else (s.setKey s.keyPlace none).keyDone 0)

/-- KEY_SWITCH (R446). -/
def execKeySwitch (s : State) : Result :=
  .next <|
    if !s.keyRuns 3 then s
    else if (s.key s.keyPlace).isNone then s.keyDone 4
    else
      let n := s.rd F.LOOM_KEY_CMD.TREE
      let idx := s.rd F.LOOM_KEY_CMD.IDX
      let q := s.rd F.LOOM_KEY_DATA.DATA % 2 ^ 51
      let late := decide (q ≤ (s.tree n).sfc)
      let sw := some (idx, if late then (s.tree n).sfc + 1 else q)
      let s1 := if s.rd F.LOOM_KEY_CMD.KIND = 1 then s.setTree n { s.tree n with switch := sw }
        else s.setOnu s.keyRecord { s.onu s.keyRecord with switch := sw }
      s1.keyDone (if late then 3 else 0)

/-! ### Rogue ONUs and silence probes (R454 to R457) -/

/-- R454: what is left of an interval outside another. -/
def outside (x : Nat × Nat) (hole : Nat × Nat) : List (Nat × Nat) :=
  if hole.2 ≤ x.1 ∨ x.2 ≤ hole.1 then [x]
  else (if x.1 < hole.1 then [(x.1, hole.1)] else []) ++ (if hole.2 < x.2 then [(hole.2, x.2)] else [])

/-- R454: the observations of one assertion of PBR_SD: its unbroken pieces of ROGUE_NS or more in unallocated time. -/
def State.observations (s : State) (n : Nat) (x : Nat × Nat) : List (Nat × Nat) :=
  let t := s.tree n
  let holes := t.granted.map (fun g => (g.1, g.2.1)) ++ t.quiets
  (holes.foldl (fun ps h => ps.flatMap (fun p => outside p h)) [x]).filter (fun p => decide (s.dba n F.LOOM_DBA_CFG.ROGUE_NS ≤ p.2 - p.1))

/-- R454: the ONU of whose burst an assertion is a long burst: it began in the burst's interval and is observed from its end on. -/
def State.longBurst (s : State) (n : Nat) (x : Nat × Nat) : Option Nat :=
  let obs := s.observations n x
  ((s.tree n).granted.find? (fun g =>
    decide (g.1 ≤ x.1) && decide (x.1 < g.2.1) && obs.any (fun p => p.1 == g.2.1))).map (fun g => g.2.2)

/-- R455: ROGUE follows the observations of the last frames. -/
def State.rogueFollows (s : State) (n : Nat) : State :=
  let t := s.tree n
  if s.dba n F.LOOM_DBA_CFG.ROGUE_FRAMES ≤ ((t.obs.take 8).filter id).length then
    (if s.on F.LOOM_ROGUE_STATUS.ROGUE n then s
     else (s.wr F.LOOM_ROGUE_STATUS.ROGUE n 1).setCause F.LOOM_ROGUE_STATUS.ROGUE_SEEN n (16 + n))
  else if 64 ≤ t.quietRun then s.wr F.LOOM_ROGUE_STATUS.ROGUE n 0
  else s

/-- ROGUE_FRAME_EVAL (R399, R454, R455): an upstream frame is over: the assertions of PBR_SD in it, as intervals in ns from E0 of frame 0, and
PBR_SD now. -/
def execRogueFrameEval (n : Nat) (seen : List (Nat × Nat)) (sdNow : Bool) (s : State) : Result :=
  .next <|
    if !s.treeEn n then s
    else
      let hit := seen.any (fun x => s.observations n x ≠ [])
      let t := s.tree n
      let s1 := (s.setTree n { t with
        obs := (hit :: t.obs).take 255, quietRun := if hit then 0 else t.quietRun + 1, probeLeft := t.probeLeft - 1 }).wrBit
          F.LOOM_OPT_CFG.SD_NOW n sdNow
      let s2 := if hit then s1.incSat F.LOOM_ROGUE_STATUS.OBS_FRAMES n else s1
      let s3 := (seen.filterMap (s.longBurst n)).foldl (fun s i =>
        (s.setCause F.LOOM_ROGUE_STATUS.LONG_BURST n (16 + n)).wr F.LOOM_ROGUE_STATUS.SUSPECT n i) s2
      (if hit ∧ 0 < t.probeLeft then s3.incSat F.LOOM_PROBE_STATUS.DURING n else s3).rogueFollows n

/-- R456, R457: LOOM_PROBE(n) is written with GO. -/
def State.probeGo (s : State) (n : Nat) : State :=
  if s.on F.LOOM_PROBE_STATUS.RUNNING n then s.wr F.LOOM_PROBE_STATUS.RESULT n 5
  else
    let i := s.rd F.LOOM_PROBE.ONU n
    let k := s.rd F.LOOM_PROBE.FRAMES n
    let base := (((s.tree n).obs.take k).filter id).length
    let s1 := s.withdrawOnu n i
    let s2 := s1.setTree n { s1.tree n with probeLeft := k }
    ((((s2.wr F.LOOM_PROBE_STATUS.RUNNING n 1).wr F.LOOM_PROBE_STATUS.RESULT n 0).wr F.LOOM_PROBE_STATUS.ONU n i).wr
      F.LOOM_PROBE_STATUS.BASELINE n base).wr F.LOOM_PROBE_STATUS.DURING n 0

/-- PROBE_GO (R456, R457). -/
def execProbeGo (n onu frames : Nat) (s : State) : Result :=
  .next (s.landed .LOOM_PROBE (fun s =>
    if !s.treeEn n then s else ((s.wr F.LOOM_PROBE.ONU n onu).wr F.LOOM_PROBE.FRAMES n (max 1 (frames % 256))).probeGo n))

/-- PROBE_END (R456): the frames of the probe are over. -/
def execProbeEnd (n : Nat) (s : State) : Result :=
  .next <|
    if 48 ≤ n ∨ !s.on F.LOOM_PROBE_STATUS.RUNNING n ∨ 0 < (s.tree n).probeLeft then s
    else
      let code := if s.rd F.LOOM_PROBE_STATUS.BASELINE n = 0 then 3 else if s.rd F.LOOM_PROBE_STATUS.DURING n = 0 then 1 else 2
      ((s.wr F.LOOM_PROBE_STATUS.RUNNING n 0).wr F.LOOM_PROBE_STATUS.RESULT n code).loomEvent n

end Sys2Proof.Machine
end

