-- ==== Sys2Proof/Machine/TimeCmds.lean ====
section
/-!
DEFINITION. The commands of time (chapter 14): SYSREF, the anchor sets, the per-second latch of R120, the transmit timestamp queue's
pop, and the PPS pins.
-/
namespace Sys2Proof.Machine

/-- R459: SYSREF has shown no edge for 1 µs; the counter keeps running. -/
def execSysrefLoss (s : State) : Result :=
  .next (if s.on F.TIM_STATUS.SYSREF_LOSS then s else s.setCause F.TIM_STATUS.SYSREF_LOSS 0 13)

/-- R459: SYSREF is back and lock has been regained by rate; the counter is never stepped. -/
def execSysrefReturn (s : State) : Result := .next (s.wr F.TIM_STATUS.SYSREF_LOSS 0 0)

/-! ### Anchor sets (R463, R464) -/

/-- One second in units of the FRC. -/
def second : Nat := ns 1000000000

/-- R465: the last second boundary before `t`, in whole seconds, when `t` itself is yet to be acted on: none before second 0. -/
def secondBefore (t : Int) : Option Nat :=
  let c := (t + second - 1) / (second : Int)
  if c ≤ 0 then none else some (c.toNat - 1)

/-- The first second value greater than the last one acted upon (R465). -/
def secondNext (last : Option Nat) : Nat :=
  match last with
  | none => 0
  | some n => n + 1

/-- TIM_PPS_CFG.OFFSET in units of the FRC. -/
def State.ppsOffset (s : State) : Int := (BitVec.ofNat 32 (s.rd F.TIM_PPS_CFG.OFFSET)).toInt * 65536

/-- R482: PPS_OUT acts at boundaries from now on. -/
def State.ppsSync (s : State) : State :=
  s.withTime { s.time with ppsSecond := secondBefore ((s.localNow : Int) - s.ppsOffset) }

/-- R464: after a warm restart, which keeps the anchor sets, the seconds' actions go on with the next boundary (assumption 28). -/
def State.timeWarm (s : State) : State :=
  let s1 := s.wrBit F.ETH_SEC_STATUS.NO_TIME 0 (!s.timeValid)
  (s1.withTime { s1.time with latchedSecond := secondBefore s1.localNow }).ppsSync

/-- R463, R464: the inactive set becomes active; at the first flip local time becomes valid, and the second actions start with the next
boundary (assumption 28). -/
def State.flipAnchor (s : State) : State :=
  let s1 := (s.wr F.TIM_STATUS.ACTIVE 0 (1 - s.rd F.TIM_STATUS.ACTIVE)).wr F.TIM_STATUS.ARMED 0 0
  if s.timeValid then s1
  else
    let s2 := (s1.wr F.TIM_STATUS.VALID 0 1).wr F.ETH_SEC_STATUS.NO_TIME 0 0
    (s2.withTime { s2.time with latchedSecond := secondBefore s2.localNow }).ppsSync

/-- R463: CMD = ARM. An F0 that has passed, or is reached now, flips at once. -/
def State.anchorArm (s : State) : State :=
  if s.armedF0 < s.now then s.flipAnchor.wr F.TIM_STATUS.LATE_FLIP 0 1
  else if s.armedF0 = s.now then s.flipAnchor
  else s.wr F.TIM_STATUS.ARMED 0 1

/-- R463: CMD = CANCEL, effective only before the FRC reaches F0. -/
def State.anchorCancel (s : State) : State :=
  if s.on F.TIM_STATUS.ARMED ∧ s.now < s.armedF0 then s.wr F.TIM_STATUS.ARMED 0 0 else s

def execAnchorArm (s : State) : Result := .next (s.landed .TIM_ANCHOR_CTRL State.anchorArm)

def execAnchorCancel (s : State) : Result := .next (s.landed .TIM_ANCHOR_CTRL State.anchorCancel)

/-- R463: the FRC reaches the F0 of the armed set. -/
def execAnchorFlip (s : State) : Result :=
  .next (if s.on F.TIM_STATUS.ARMED then (s.advanceTo s.armedF0).flipAnchor else s)

/-! ### The per-second latch (R120, R121, R465) -/

/-- The entries of a register that the register space lists. -/
def State.listedOf (s : State) (r : Reg) : List Nat :=
  (s.regs.filter (fun (e : Nat × BitVec 320) => e.1 % 256 == r.ctorIdx)).map (fun (e : Nat × BitVec 320) => e.1 / 256)

/-- The raw bank is copied to the latched bank, and then SEQ increments. -/
def State.latchSecond (s : State) : State :=
  let s0 := (List.range 64).foldl State.countFault s
  let s1 := (s0.listedOf .ETH_LATCHED).foldl (fun s i => s.setReg .ETH_LATCHED i 0) s0
  let s2 := (s0.listedOf .ETH_RAW).foldl (fun s i => s.setReg .ETH_LATCHED i (s0.reg .ETH_RAW i)) s1
  s2.incWrap F.ETH_SEC_STATUS.SEQ

/-- R120, R465: local time reaches the next second boundary, or has stepped past it; one action. -/
def execSecondLatch (s : State) : Result :=
  .next (if !s.timeValid then s
    else
      let n := secondNext s.time.latchedSecond
      let s1 := if s.localNow < n * second then s.advanceTo (s.frcOfLocal (n * second)) else s
      let s2 := s1.withTime { s1.time with latchedSecond := some (max n (s1.localNow / second)) }
      s2.latchSecond)

/-! ### The transmit timestamp queue (R477) -/

/-- R477: the head is removed. -/
def State.txtsPop (s : State) : State := (s.withTime { s.time with txts := s.time.txts.drop 1 }).showTxts

def execTxtsPop (s : State) : Result :=
  .next (s.landed .TIM_TXTS_POP (fun s => if s.time.txts = [] then s else s.txtsPop))

/-! ### PPS (R482, R483) -/

/-- R482, R465: local time reaches the next second boundary plus OFFSET, or has stepped past it. -/
def execPpsOutRise (s : State) : Result :=
  .next (if !(s.on F.TIM_PPS_CFG.OUT_EN && s.timeValid) then s
    else
      let n := secondNext s.time.ppsSecond
      let at_ : Int := (n * second : Nat) + s.ppsOffset
      let s1 := if (s.localNow : Int) < at_ then s.advanceTo (s.frcOfLocal at_.toNat) else s
      let done := max n (((s1.localNow : Int) - s.ppsOffset) / (second : Int)).toNat
      let s2 := s1.withTime { s1.time with
            ppsSecond := some done
            ppsOut := true
            ppsFall := s1.now + ms (s1.rd F.TIM_PPS_CFG.WIDTH) }
      s2.emit (.ppsOut true))

/-- R482: WIDTH ms after the rise. -/
def execPpsOutFall (s : State) : Result :=
  .next (if !s.time.ppsOut then s
    else
      let s1 := s.advanceTo s.time.ppsFall
      (s1.withTime { s1.time with ppsOut := false }).emit (.ppsOut false))

/-- R483: an edge is captured. -/
def State.ppsCapture (s : State) (t : BitVec 80) : State :=
  let s1 := (s.wr F.TIM_PPS_IN.TS 0 (t.toNat / 65536)).wr F.TIM_PPS_IN.TS_FRAC 0 (t.toNat % 65536)
  let s2 := (s1.wr F.TIM_PPS_IN.ANCHOR 0 s.anchor).setCause F.TIM_PPS_IN.NEW 0 13
  (s2.withTime { s2.time with ppsLast := some t.toNat })

/-- R483: a rising edge of PPS_IN, `sub` sixteenths of a nanosecond after the counter's reading. -/
def execPpsInEdge (sub : Nat) (s : State) : Result :=
  .next (if !s.on F.TIM_PPS_CFG.IN_EN then s
    else
      let t := s.stampAt sub
      match s.time.ppsLast with
      | some l => if t.toNat < l + ms 500 then s.incWrap F.TIM_ERR_CNT.COUNT 4 else s.ppsCapture t
      | none => s.ppsCapture t)

end Sys2Proof.Machine
end

