-- ==== Sys2Proof/Machine/Events.lean ====
section
/-!
DEFINITION. The event controller (chapter 15, R497 to R513): sources, coalescing, arbitration, messages and the sleep of the function.
-/
namespace Sys2Proof.Machine

/-! ### Vectors and sources -/

/-- Vector `v`. -/
def State.vec (s : State) (v : Nat) : Vec := Sparse.read Vec.idle s.host.vecs v

/-- Replace vector `v`. -/
def State.setVec (s : State) (v : Nat) (x : Vec) : State :=
  s.withHost { s.host with vecs := Sparse.write Vec.idle s.host.vecs v x }

/-- A bit of a word by source: EVC_MASK and EVC_PENDING. -/
def State.srcMasked (s : State) (n : Nat) : Bool := (s.rd F.EVC_MASK.MASK (n / 32)).testBit (n % 32)
def State.srcPending (s : State) (n : Nat) : Bool := (s.rd F.EVC_PENDING.PENDING (n / 32)).testBit (n % 32)

/-- R498: source `n` is ACTIVE or ACTIVE_PENDING on some vector. -/
def State.srcActive (s : State) (n : Nat) : Bool :=
  (List.range 64).any (fun v => (s.vec v).active == some n)

/-- R505: hardware writes a pending bit; EVC_SEQ counts each change. -/
def State.setPending (s : State) (n : Nat) (b : Bool) : State :=
  if s.srcPending n = b then s
  else
    (s.wr F.EVC_PENDING.PENDING (n / 32) (setBits (s.rd F.EVC_PENDING.PENDING (n / 32)) (n % 32) 1 (if b then 1 else 0))).incWrap
      F.EVC_SEQ.COUNT (n / 32)

/-- The vector of source `n`. -/
def State.vectorOf (s : State) (n : Nat) : Nat := s.rd F.EVC_SRC_CFG.VECTOR n

/-- R499: an unmasked fire on vector `v` opens a window or is counted in the open one. -/
def State.countFire (s : State) (v : Nat) : State :=
  let x := s.vec v
  if x.window then s.setVec v { x with fires := x.fires + 1, due := x.due || decide (x.needFires ≤ x.fires + 1) }
  else if x.due || x.active.isSome then s
  else
    let c := s.rd F.EVC_COAL.COUNT v
    let t := s.rd F.EVC_COAL.TIME v
    s.setVec v { x with
      window := true, opened := s.now, fires := 1, needFires := c, needTime := t, due := decide (c ≤ 1) || decide (t = 0) }

/-- R501: a fire of source `n`. -/
def State.fireSource (s : State) (n : Nat) : State :=
  let s1 := s.setPending n true
  if s.srcActive n || s.srcMasked n then s1 else s1.countFire (s.vectorOf n)

/-- R497: sources 244 to 247 never fire, and the SOFT ones only by a host write. -/
def hardwareSource (n : Nat) : Bool := decide (n < 244)

/-- EVENT_FIRE (R497, R501, R511): the event controller takes the first fire of the blocks' causes; asleep, it is latched in the
shadow, and one that wakes asserts WAKE_N. -/
def execEventFire (s : State) : Result :=
  .next <|
    match s.host.raised with
    | [] => s
    | n :: rest =>
      let s1 := s.withHost { s.host with raised := rest }
      if !hardwareSource n then s1
      else if s.host.asleep then
        s1.withHost { s1.host with
            shadow := if n ∈ s1.host.shadow then s1.host.shadow else s1.host.shadow ++ [n]
            wakeN := s1.host.wakeN || s1.on F.EVC_SRC_CFG.WAKE n }
      else s1.fireSource n

/-- COALESCE_TIME (R499): TIME µs have passed since the window of vector `v` opened. -/
def execCoalesceTime (v : Nat) (s : State) : Result :=
  .next <|
    let x := s.vec v
    if !x.window ∨ x.due ∨ s.host.asleep then s
    else (s.advanceTo (x.opened + us x.needTime)).setVec v { x with due := true }

/-! ### Arbitration (R500) -/

/-- R500: the lowest-numbered source of vector `v` that is pending and unmasked. -/
def State.pick (s : State) (v : Nat) : Option Nat :=
  (List.range 256).find? (fun n => s.vectorOf n == v && s.srcPending n && !s.srcMasked n && !s.srcActive n)

/-- VECTOR_ARBITRATION (R500, R509): vector `v` is due with no active source: it takes one and commits a message. In D3hot a source that
wakes sets PME_Status. -/
def execVectorArbitration (v : Nat) (s : State) : Result :=
  .next <|
    let x := s.vec v
    if !x.due ∨ x.active.isSome ∨ s.host.asleep then s
    else
      match s.pick v with
      | none => s
      | some n =>
        let s1 := (s.setPending n false).setVec v
          { x with active := some n, window := false, fires := 0, due := false, message := true }
        if s.host.d3hot && s.on F.EVC_SRC_CFG.WAKE n then
          let s2 := s1.withHost { s1.host with pmeStatus := true }
          if s.host.pmeEn then s2.emit .pme else s2
        else s1

/-! ### Messages (R485, R486, R503, R508, R510) -/

/-- A word of the MSI-X table; a vector is masked at reset, as PCIe has it (assumption 29). -/
def State.msixWord (s : State) (i : Nat) : BitVec 32 := Sparse.read (if i % 4 = 3 then 1 else 0) s.host.msix i
def State.setMsixWord (s : State) (i : Nat) (v : BitVec 32) : State :=
  s.withHost { s.host with msix := Sparse.write (if i % 4 = 3 then 1 else 0) s.host.msix i v }

/-- R503: the message of vector `v` may be sent: D0, a link to send on, and neither mask. -/
def State.canSend (s : State) (v : Nat) : Bool :=
  (s.vec v).message && !s.dmaStopped && (s.host.link == .l0 || s.host.link == .l1) && s.host.msixEnable &&
    !s.host.functionMask && !(s.msixWord (4 * v + 3)).getLsbD 0

/-- The message of vector `v` is sent; the device leaves L1 for it (R508). -/
def State.sendMsix (s : State) (v : Nat) : State :=
  (s.leaveL1.setVec v { s.vec v with message := false }).emit
    (.msix v ((s.msixWord (4 * v + 1)).toNat * 2 ^ 32 + (s.msixWord (4 * v)).toNat / 4 * 4) (s.msixWord (4 * v + 2)).toNat)

/-- MSIX_SEND (R503). -/
def execMsixSend (v : Nat) (s : State) : Result := .next (if s.canSend v then s.sendMsix v else s)

/-- Every message that may be sent is sent. -/
def State.sendAll (s : State) : State :=
  (List.range 64).foldl (fun s v => if s.canSend v then s.sendMsix v else s) s

/-! ### Completion, pending, mask and rescan (R501 to R506) -/

/-- R502: vector `v` has no active source and an unmasked source is still pending: it is due at once. -/
def State.dueAgain (s : State) (v : Nat) : State :=
  if (s.vec v).active.isNone ∧ (s.pick v).isSome then s.setVec v { s.vec v with due := true } else s

/-- R501 to R503: a write of EVC_COMPLETE(v). A source that has been given another vector while it was active goes on there. -/
def State.evcComplete (s : State) (v src : Nat) : State :=
  let x := s.vec v
  if x.active = some src then
    let s1 := (s.setVec v { x with active := none }).dueAgain v
    if s1.srcPending src ∧ s1.vectorOf src ≠ v then s1.dueAgain (s1.vectorOf src) else s1
  else s.setCause F.EVC_STATUS.BAD_COMPLETE 0 3

def execEvcComplete (v src : Nat) (s : State) : Result :=
  .next (s.landed .EVC_COMPLETE (fun s => s.evcComplete (v % 64) (src % 256)))

/-- R501, R505: a host write of EVC_PENDING(w): each bit replaces the pending state of its source; a 1 over a 0 of an unmasked source that
is not active is a fire. -/
def State.evcPendingWrite (s : State) (w value : Nat) : State :=
  let old := s.rd F.EVC_PENDING.PENDING w
  (List.range 32).foldl (fun s i =>
    let n := 32 * w + i
    if value.testBit i && !old.testBit i && !s.srcActive n && !s.srcMasked n then s.countFire (s.vectorOf n) else s)
    (s.wr F.EVC_PENDING.PENDING w value)

def execEvcPendingWrite (w value : Nat) (s : State) : Result :=
  .next (s.landed .EVC_PENDING (fun s => s.evcPendingWrite (w % 8) value))

/-- R499: a host write of EVC_MASK(w): a source unmasked while it is pending counts as an unmasked fire. -/
def State.evcMaskWrite (s : State) (w value : Nat) : State :=
  let old := s.rd F.EVC_MASK.MASK w
  (List.range 32).foldl (fun s i =>
    let n := 32 * w + i
    if !value.testBit i && old.testBit i && s.srcPending n && !s.srcActive n then s.countFire (s.vectorOf n) else s)
    (s.wr F.EVC_MASK.MASK w value)

def execEvcMaskWrite (w value : Nat) (s : State) : Result :=
  .next (s.landed .EVC_MASK (fun s => s.evcMaskWrite (w % 8) value))

/-- R497: the cause of source `n` is set. -/
def State.causeSet (s : State) (n : Nat) : Bool :=
  let any (k : Nat) (p : Nat → Bool) : Bool := (List.range k).any p
  if n < 16 then
    match n with
    | 0 => s.on F.EAS_SEAM_STATUS.FAULT || s.on F.EAS_SEAM_STATUS.DEGRADED
    | 1 => s.reg .EAS_PWR_ALARM 0 != 0
    | 2 => s.reg .EAS_ALARM 0 != 0
    | 3 => (s.reg .HST_ERR_STATUS 0).toNat % 16 != 0 || s.on F.EVC_STATUS.BAD_COMPLETE
    | 4 => s.on F.EAS_PACE_STATUS.DEFICIT
    | 5 => s.on F.DMC_ERR_LOG.VALID || s.on F.DMC_TEMP.STALE || s.on F.DMC_TEMP.HOT || s.on F.DMC_FREQ_STATUS.DONE ||
        s.on F.DMC_FREQ_STATUS.REFUSED
    | 6 => s.on F.TBL_ERR_STATUS.SRAM_UE || s.on F.STN_STATUS.COPY_UE
    | 7 => s.on F.SKT_BANK_STATUS.ECC_UE
    | 8 => s.on F.PNC_STATUS.UE
    | 9 => s.on F.PAL_ERR_STATUS.DOUBLE_FREE
    | 10 => s.on F.PAL_ERR_STATUS.FOREIGN_FREE
    | 11 => s.on F.PAL_AUDIT_STATUS.MISMATCH || s.rd F.PAL_AUDIT_STATUS.FIFO_LEVEL != 0
    | 12 =>
      any 96 (fun l => s.on F.FAB_LANE_STATUS.WIRING_ERR l || s.on F.FAB_LANE_STATUS.DOWN_CHG l) ||
        any 2048 (fun d => s.on F.FAB_DEST_STATUS.UNREACH_FLUSH d || (s.peerMarked d && !s.on F.FAB_DEST_STATUS.REACHABLE d))
    | 13 => s.on F.TIM_STATUS.SYSREF_LOSS || s.on F.TIM_STATUS.HOLDOVER || s.rd F.TIM_TXTS_STATUS.LEVEL != 0 ||
        s.on F.TIM_TXTS_STATUS.OVF || s.on F.TIM_PPS_IN.NEW
    | 14 => s.on F.GLZ_COAT_STATUS.DONE
    | _ => s.reg .EMV_ALARM 0 != 0
  else if n < 64 then
    let t := n - 16
    s.on F.LOOM_TREE_STATUS.US_LOS t || s.on F.LOOM_TREE_STATUS.SN_UNKNOWN t || s.on F.LOOM_TREE_STATUS.TREE_FULL t ||
      s.on F.LOOM_ROGUE_STATUS.ROGUE_SEEN t || s.on F.LOOM_ROGUE_STATUS.LONG_BURST t || s.rd F.LOOM_PROBE_STATUS.RESULT t != 0
  else if n < 128 then s.on F.ETH_PORT_STATUS.LINK_CHG (n - 64)
  else if n < 144 then
    let g := n - 128
    s.on F.FLX_GRP_STATUS.PROT_DONE g || s.on F.FLX_GRP_STATUS.PROT_FAIL g ||
      any 64 (fun i => s.rd F.FLX_INST_CFG.GROUP i == g && s.on F.FLX_INST_STATUS.LOCK_LOSS i)
  else if n < 211 then
    let k := n - 144
    s.ringW k != (s.ring k).head || (decide (k < 64) && s.on F.HST_RING_STATUS.ERR k)
  else if n = 211 then s.on F.TLY_FREEZE.DONE
  else decide (n < 244) && s.on F.TLY_SAMP_CFG.OVF (n - 212)

/-- R506: a rescan of the words of `words`. -/
def State.rescan (s : State) (words : Nat) : State :=
  (List.range 244).foldl (fun s n =>
    if words.testBit (n / 32) && s.causeSet n && !s.srcPending n then s.fireSource n else s) s

def execEvcRescan (words : Nat) (s : State) : Result := .next (s.landed .EVC_RESCAN (fun s => s.rescan (words % 256)))

/-- R504: EVENT_N is asserted. -/
def State.eventN (s : State) : Bool :=
  (List.range 256).any (fun n => s.on F.EVC_SRC_CFG.PIN n && (s.srcPending n || s.srcActive n))

/-- EVC_ACTIVE(v) (R503). -/
def State.activeView (s : State) (v : Nat) : Nat :=
  match (s.vec v).active with
  | none => 0
  | some n => n + (if s.srcPending n then 2 ^ 30 else 0) + 2 ^ 31

/-- The pending-bit array (R485, R503). -/
def State.pbaView (s : State) : Nat := (List.range 64).foldl (fun a v => if (s.vec v).message then a + 2 ^ v else a) 0

/-! ### Sleep and wake (R509 to R513, R602) -/

/-- D3HOT_ENTRY (R509, R510): a message committed before the write is sent first. -/
def execD3hotEntry (s : State) : Result :=
  .next <|
    if s.host.asleep then s
    else
      let s1 := s.sendAll
      (s1.withHost { s1.host with d3hot := true }).wr F.HST_PCIE_STATUS.DSTATE 0 3

/-- D0_RETURN (R509): every held message is sent at once. -/
def execD0Return (s : State) : Result :=
  .next <|
    if !s.host.d3hot then s
    else ((s.withHost { s.host with d3hot := false }).wr F.HST_PCIE_STATUS.DSTATE 0 0).sendAll

/-- The registers of the host-interface domain. -/
def hostRegs : List Reg :=
  [.EVC_STATUS, .EVC_MASK, .EVC_PENDING, .EVC_SEQ, .EVC_SRC_CFG, .EVC_COAL, .HST_ERR_STATUS, .HST_PCIE_STATUS, .HST_RING_CFG,
   .HST_RING_STATUS]

/-- The entries of some registers that the register space lists. -/
def State.regsOf (s : State) (rs : List Reg) : Sparse (BitVec 320) :=
  s.regs.filter (fun (e : Nat × BitVec 320) => rs.any (fun r => e.1 % 256 == r.ctorIdx))

/-- Some registers go back to their Reset values (R21). -/
def State.resetRegs (s : State) (rs : List Reg) : State :=
  rs.foldl (fun s r => (s.listedOf r).foldl (fun s i => s.setReg r i (r.resetAt i)) s) s

/-- The entries of some registers come back as `image` has them. -/
def State.loadRegs (s : State) (rs : List Reg) (image : Sparse (BitVec 320)) : State :=
  rs.foldl (fun s r =>
    (image.filter (fun (e : Nat × BitVec 320) => e.1 % 256 == r.ctorIdx)).foldl
      (fun s (e : Nat × BitVec 320) => s.setReg r (e.1 / 256) e.2) s) (s.resetRegs rs)

/-- L2_ENTRY (R511): the host-interface domain is saved to Varnish and sleeps. -/
def execL2Entry (s : State) : Result :=
  .next <|
    if s.host.asleep ∨ s.host.link = .down then s
    else
      let image : SleepImage := ⟨s.regsOf hostRegs, s.host.vecs, s.host.rings, s.host.msix⟩
      let s1 := s.withHost { s.host with link := .l2, asleep := true, saved := some image }
      ((s1.wr F.HST_PCIE_STATUS.SPEED 0 0).wr F.HST_PCIE_STATUS.WIDTH 0 0).wr F.HST_PCIE_STATUS.L1 0 0

/-- R494: the link of a punt ring's port node follows EN. -/
def State.puntLink (s : State) (k : Nat) (up : Bool) : State :=
  if 32 ≤ k then s
  else match s.nodeFor 3 k with
    | none => s
    | some n => if up then s.nodeReturned n else s.nodeLost n false

/-- Every ring is disabled with its indices at 0 (R494, R602). -/
def State.ringsOff (s : State) : State :=
  (List.range 67).foldl (fun s k =>
    let was := s.on F.HST_RING_CFG.EN k
    let s1 := ((s.wr F.HST_RING_CFG.EN k 0).setReg .HST_RING_STATUS k 0).setRing k Ring.idle
    if was then s1.puntLink k false else s1) s

/-- Every source becomes IDLE and every window closes (R513). -/
def State.sourcesIdle (s : State) : State :=
  let s1 := s.resetRegs [.EVC_PENDING]
  (s1.withHost { s1.host with vecs := [] })

/-- R602: the host-interface domain without a save: retained fields stay, every other takes its Reset value. -/
def State.hostReset (s : State) : State :=
  let s1 := (s.ringsOff.sourcesIdle).resetRegs [.EVC_STATUS, .EVC_SEQ, .HST_ERR_STATUS, .HST_PCIE_STATUS]
  (s1.withHost { s1.host with msix := [] })

/-- R512: the shadow is merged into EVC_PENDING; what became due asleep is due at once. -/
def State.mergeShadow (s : State) : State :=
  s.host.shadow.foldl (fun s n =>
    let s1 := s.setPending n true
    let v := s.vectorOf n
    if s.srcActive n || s.srcMasked n || (s.vec v).active.isSome then s1
    else s1.setVec v { s1.vec v with due := true }) s

/-- PERST_RELEASE (R512, R556, R602): fundamental reset ends and the link has trained at `speed` and `width`, at the earliest 100 ms after
PORST_N was released, which the FRC counts from. After L2 the restore of R512
applies; `good`: the Sleep-save region passes its check. -/
def execPerstRelease (speed width : Nat) (good : Bool) (s : State) : Result :=
  .next <|
    if !s.power.released then s
    else
      let s1 :=
        if !s.host.asleep then s.hostReset
        else
          match good, s.host.saved with
          | true, some im =>
            let t := (s.loadRegs [.EVC_MASK, .EVC_PENDING, .EVC_SEQ, .EVC_SRC_CFG, .EVC_COAL, .HST_RING_CFG, .HST_RING_STATUS]
              im.regs).resetRegs [.EVC_STATUS, .HST_ERR_STATUS, .HST_PCIE_STATUS]
            (t.withHost { t.host with vecs := im.vecs, rings := im.rings, msix := im.msix })
          | _, _ =>
            (s.hostReset.resetRegs hostRegs).setCause F.EAS_ALARM.VARNISH_ERR 0 2
      let s2 := s1.withHost { s1.host with
        link := .l0, d3hot := false, asleep := false, wakeN := false, saved := none, msixEnable := false, functionMask := false
        pmeStatus := false }
      let s3 := if s.host.asleep then s2.mergeShadow else s2
      let s4 := (s3.withHost { s3.host with shadow := [], readLatch := [], writeHold := [], wordLatch := [] }).advanceTo (ms 100)
      (s4.wr F.HST_PCIE_STATUS.SPEED 0 speed).wr F.HST_PCIE_STATUS.WIDTH 0 width

end Sys2Proof.Machine
end

