-- ==== Sys2Proof/Machine/Rings.lean ====
section
/-!
DEFINITION. The host's rings (chapter 15, R486 to R496): doorbells, punt entries, inject descriptors, enable and DMA errors.
-/
namespace Sys2Proof.Machine

/-! ### Errors and doorbells (R487, R489) -/

/-- R489: a doorbell write that would pass the ring's bounds is discarded. -/
def State.doorbellBad (s : State) (k : Nat) (tail head : BitVec 32) : Bool :=
  (decide (k < 64) && decide (s.ringSize k < (tail - head).toNat)) || decide (s.ringSize k < (s.ringW k - head).toNat)

/-- R489: a write of the doorbell of ring `k`; `half` 0 is TAIL, 1 is HEAD, 2 both. -/
def State.doorbell (s : State) (k half value : Nat) : State :=
  let r := s.ring k
  let tail := if half = 1 ∨ 64 ≤ k then r.tail else BitVec.ofNat 32 value
  let head := if half = 0 then r.head else if half = 1 then BitVec.ofNat 32 value else BitVec.ofNat 32 (value / 2 ^ 32)
  if 67 ≤ k ∨ (64 ≤ k ∧ half = 0) then s
  else if s.doorbellBad k tail head then s.hostError F.HST_ERR_STATUS.BAD_DOORBELL
  else s.setRing k ⟨tail, head⟩

/-- DOORBELL_WRITE (R489). -/
def execDoorbellWrite (k half value : Nat) (s : State) : Result :=
  .next (if s.host.asleep || s.inReset then s else s.doorbell k half value)

/-- R489: a read of a doorbell. -/
def State.doorbellView (s : State) (k : Nat) : Nat := (s.ringW k).toNat + (s.ring k).head.toNat * 2 ^ 32

/-! ### Punt entries (R490, R491) -/

/-- A field of the header vector of a packet from the ingress stages, and of its reception otherwise. -/
def Pkt.meta (p : Pkt) (off n other : Nat) : Nat := if p.hv ≠ [] ∧ p.origin = 0 then hvGet p.hv off n else other

/-- Octets 12 to 62 of the entry of a packet; FLAGS without TRUNC. -/
def Pkt.puntFields (p : Pkt) : List Byte :=
  let t : Nat × Nat := match p.fate with | .host t => (t.kind, t.reason) | _ => (0, 0)
  let flags := (if p.err then 2 else 0) + (if p.rx.anchor then 4 else 0) + (if p.coat then 8 else 0)
  Sys2Proof.Machine.puntFields t.1 t.2 flags p.pass p.rx.inPort (p.meta 0x114 2 p.rx.gem) (p.meta 0x117 3 p.rx.subCtx) 0 0
    (p.meta 0x11D 1 0) p.rx.injTag 0 p.rx.stamp

/-- R491: content of `ring`, of `orig` octets before any cut, is written to the buffer at `buf`, cut at BUF_SIZE, and then the entry. -/
def State.puntEntry (s : State) (ring buf orig : Nat) (fields content : List Byte) : State :=
  let data := content.take (s.rd F.HST_RING_CFG.BUF_SIZE ring)
  let cut := decide (data.length < content.length)
  let fl := if cut then fields.take 2 ++ [fields.getD 2 0 ||| 1] ++ fields.drop 3 else fields
  let entry := octetsBE 8 buf ++ octetsBE 2 data.length ++ octetsBE 2 orig ++ fl
  ((s.hostPost buf data).ringPost ring entry).sample 8 ring

/-- The packet whose turn it is at punt ring `ring`: the oldest its port node has dequeued, once it has crossed the Seam. -/
def State.puntHead (s : State) (ring : Nat) : Option (Nat × Pkt) :=
  match s.nodeFor 3 ring with
  | none => none
  | some n =>
    match (s.nodeOut n).head? with
    | none => none
    | some k =>
      match s.pkt k with
      | some p => if p.loc = .hostOut ring then some (k, p) else none
      | none => none

/-- The first message that waits for `ring`, and the others. -/
def State.takeMessage (s : State) (ring : Nat) : Option (Msg × State) :=
  match s.host.messages.find? (fun m => m.ring == ring) with
  | none => none
  | some m => some (m, (s.withHost { s.host with messages := s.host.messages.erase m }))

/-- PUNT_WRITE (R491): the next message or packet for `ring` is written to the buffer at `buf`, the host's address in the slot. A
message goes before a packet (assumption 30). -/
def execPuntWrite (ring buf : Nat) (s : State) : Result :=
  .next <|
    if 32 ≤ ring ∨ s.ringFull ring then s
    else
      match s.takeMessage ring with
      | some (m, s1) => s1.puntEntry ring buf m.content.length m.fields m.content
      | none =>
        match s.puntHead ring with
        | none => s
        | some (k, p) =>
          let data := if p.trunc = 0 then p.data else p.data.take p.trunc
          let s1 := (s.puntEntry ring buf p.data.length p.puntFields data).txOctets p.node (data.length + 4)
          (s1.trace k 7 0 [176 + ring, 0]).removePkt k

/-! ### Inject descriptors (R493, R495, R496) -/

/-- A field of a descriptor. -/
def descField (d : List Byte) (off n : Nat) : Nat := natBE ((d.drop off).take n)

/-- R496: the descriptor is bad. -/
def State.descBad (s : State) (d : List Byte) : Bool :=
  let kind := descField d 10 1
  let len := descField d 8 2
  decide (4 < kind) || decide (len = 0) || decide (9728 < len) || (kind == 2 && len != 48) ||
    ((kind == 2 || kind == 3) && !s.treeEn (descField d 14 1)) ||
    (kind == 4 && !(decide (descField d 27 1 < 64) && s.on F.FLX_INST_CFG.EN (descField d 27 1))) ||
    descField d 11 1 / 2 != 0 || descField d 30 2 != 0 || descField d 40 22 != 0 || descField d 63 1 % 128 != 0

/-- R493: STATUS and DONE are written into the descriptor, and W advances. -/
def State.injectDone (s : State) (k status : Nat) : State :=
  (s.hostPost (s.ringSlot k + 62) [BitVec.ofNat 8 status, 0x80]).ringAdvance k

/-- R495: a packet injected in direct mode on ring `r`, without its launch time. -/
def State.directPkt (s : State) (r : Nat) (d data : List Byte) : Pkt :=
  let rx := plainRx (176 + r) s.frc (s.anchor == 1) false true (data.length + 4) 0
  let carry : Carry := ⟨s.rd F.FAB_CFG.MOD_ID, descField d 16 4 % 2 ^ 20, descField d 20 4 % 2 ^ 20, descField d 24 1,
    descField d 25 1, descField d 26 1, descField d 28 2⟩
  { Pkt.fresh data rx with
    loc := .enqueueIn, fate := .forward, origin := 2, carry := carry
    launch := if descField d 11 1 % 2 = 1 then some (descField d 32 8) else none }

/-- R495: the content of a descriptor is handed on; the STATUS to write, none where the packet must wait for a buffer (R269). -/
def State.handOn (s : State) (r : Nat) (d data : List Byte) : State × Option Nat :=
  match descField d 10 1 with
  | 0 =>
    let rx : Rx := { plainRx (176 + r) s.frc (s.anchor == 1) false true (data.length + 4) data.length with
      injTag := descField d 12 2 }
    (s.enterFifo (Pkt.fresh data rx), some 0)
  | 1 =>
    let n := s.nextPkt
    match (s.addPkt (s.directPkt r d data)).enqueueAt (descField d 16 4 % 2 ^ 20) n with
    | (s1, true) => (s1, some (if (s1.pkt n).isSome then 0 else 4))
    | (s1, false) => (s1.dropPkt n, none)
  | 2 =>
    let onu := if natBE (data.take 2) % 1024 = allOnus then allOnus else descField d 15 1
    match s.hostPloam (descField d 14 1) onu (descField d 12 2) data with
    | (s1, ok) => (s1, some (if ok then 0 else 3))
  | 3 =>
    match s.hostOmcc (descField d 14 1) (descField d 15 1) data with
    | (s1, ok) => (s1, some (if ok then 0 else 3))
  | _ => (s.emit (.flexeMgmt (descField d 27 1) data), some 0)

/-- INJECT_FETCH (R493, R495, R496): inject ring `r` reads the descriptor at W and its buffer, hands the content on, and completes it. -/
def execInjectFetch (r : Nat) (desc content : List Byte) (s : State) : Result :=
  .next <|
    let k := 32 + r
    let d := padTo 64 desc
    let len := descField d 8 2
    if 32 ≤ r ∨ s.ringFull k then s
    else if s.descBad d then (s.discardAt 15).injectDone k 1
    else if 32768 < (s.mac (176 + r)).fill + len then s
    else
      match s.handOn r d (padTo len content) with
      | (s1, some status) => s1.injectDone k status
      | (s1, none) => s1

/-! ### DMA errors (R487) -/

/-- R487: the ring stops. -/
def State.ringFail (s : State) (k : Nat) : State :=
  let s1 := (s.wr F.HST_RING_STATUS.RUN k 0).wr F.HST_RING_STATUS.ERR k 1
  ((s1.wr F.HST_ERR_STATUS.DMA_RING 0 k).hostError F.HST_ERR_STATUS.DMA_ERR).raise (ringSource k)

/-- DMA_ERROR (R34, R487): a read for ring `k` fails: of an inject descriptor's buffer where `buffer`, else of a descriptor or of a punt
ring entry. -/
def execDmaError (k : Nat) (buffer : Bool) (s : State) : Result :=
  .next <|
    if 64 ≤ k ∨ s.ringFull k then s
    else if 32 ≤ k then
      (if buffer then (s.discardAt 15).injectDone k 2 else s).ringFail k
    else
      match s.takeMessage k with
      | some (_, s1) => s1.ringFail k
      | none =>
        match s.puntHead k with
        | none => s
        | some (n, p) =>
          let reason := match p.fate with | .host q => q.reason | _ => 0
          ((s.tally1 (576 + reason) p.data.length).discardPkt n 4 reason).ringFail k

/-! ### Enable and disable (R494) -/

/-- R494: EN of ring `k` goes from 0 to 1. -/
def State.ringEnable (s : State) (k : Nat) : State :=
  if s.on F.HST_RING_CFG.EN k then s
  else
    let s1 := ((s.wr F.HST_RING_CFG.EN k 1).setReg .HST_RING_STATUS k 1).setRing k Ring.idle
    s1.puntLink k true

/-- R494: EN of ring `k` goes to 0; no entry is ever in progress between two commands. -/
def State.ringDisable (s : State) (k : Nat) : State :=
  if !s.on F.HST_RING_CFG.EN k then s
  else ((s.wr F.HST_RING_CFG.EN k 0).wr F.HST_RING_STATUS.RUN k 0).puntLink k false

def execRingEnable (k : Nat) (s : State) : Result :=
  .next (if 67 ≤ k then s else s.landed .HST_RING_CFG (fun s => s.ringEnable k))

def execRingDisable (k : Nat) (s : State) : Result :=
  .next (if 67 ≤ k then s else s.landed .HST_RING_CFG (fun s => s.ringDisable k))

end Sys2Proof.Machine
end

