-- ==== Sys2Proof/Machine/TallyCmds.lean ====
section
/-!
DEFINITION. Tally's commands (chapter 16, R514 to R525, R529): accesses to counter pairs, the freeze, the snapshot, bandwidth windows and
the instruction histograms.
-/
namespace Sys2Proof.Machine

/-! ### Accesses (R517 to R519) -/

/-- CNT_READ (R341, R519); `strikes` are the errors that strike the pair's channel before it. -/
def execCntRead (i : Nat) (strikes : List (Nat × Nat)) (s : State) : Result :=
  .next ((s.strikePair i strikes).landed .TLY_CNT_ACC (fun s => s.cntCommand 0 i))

/-- CNT_READ_CLEAR (R341, R519); `strikes` are the errors that strike the pair's channel before it. -/
def execCntReadClear (i : Nat) (strikes : List (Nat × Nat)) (s : State) : Result :=
  .next ((s.strikePair i strikes).landed .TLY_CNT_ACC (fun s => s.cntCommand 1 i))

/-- CNT_ZERO (R518, R519). -/
def execCntZero (i : Nat) (s : State) : Result := .next (s.landed .TLY_CNT_ACC (fun s => s.cntCommand 2 i))

/-- TLY_FREEZE.STATE: 0 LIVE, 1 FREEZING, 2 FROZEN, 3 SNAPSHOT. -/
def State.freezeState (s : State) : Nat := s.rd F.TLY_FREEZE.STATE

/-- COUNTER_CACHE_WRITEBACK (R341, R517, R518): the cached entry of pair `i` is added to DRAM. `strikes` are the errors that strike
the pair's channel before it is read. -/
def execCounterCacheWriteback (i : Nat) (strikes : List (Nat × Nat)) (s0 : State) : Result :=
  .next <|
    let s := s0.strikePair i strikes
    let c := Sparse.read Pair.zero s.tally.cache i
    if c = Pair.zero ∨ s.freezeState ≠ 0 ∨ s.dramStopped then s
    else if s.pairLost i then (s.uncache i).incSat F.TLY_STATUS.LOST
    else
      let s1 := s.fetchPair i
      (s1.setPair i ((Sparse.read Pair.zero s1.tally.pairs i).add c)).uncache i

/-! ### Freeze and snapshot (R520 to R522) -/

/-- The register counters subject to the freeze (R520). -/
def freezeRegs : List Reg :=
  [.SKT_EL_ISSUED, .SKT_EL_SQUASHED, .SKT_EL_NOSLOT, .FAB_ERR_CNT, .FAB_LANE_STATUS, .FAB_STREAM_CNT, .LOOM_ACT_CNT, .LOOM_GRANT_CNT,
   .LOOM_SEP_CNT, .TIM_ERR_CNT, .TLY_TRACE_CNT, .TLY_SPEC_CNT]

/-- R520: the readable values stop. -/
def State.freezeNow (s : State) : State :=
  let view := s.tally.cache.foldl (fun m (e : Nat × Pair) =>
    Sparse.write Pair.zero m e.1 ((Sparse.read Pair.zero m e.1).add e.2)) s.tally.pairs
  s.withTally { s.tally with frozenPairs := some view, frozenRegs := s.regsOf freezeRegs }

/-- R520, R521: the readable values are live again. -/
def State.thawNow (s : State) : State :=
  (s.withTally { s.tally with frozenPairs := none, frozenRegs := [], thawHeld := false }).wr F.TLY_FREEZE.STATE 0 0

/-- DONE is set (R521, R522). -/
def State.freezeDone (s : State) : State := s.setCause F.TLY_FREEZE.DONE 0 211

/-- R521, R522: a command of TLY_FREEZE: 1 FREEZE, 2 THAW, 3 SNAPSHOT. A SNAPSHOT while STATE is not LIVE is ignored, and one of no
pairs is refused (assumption 31). -/
def State.freezeCmd (s : State) (cmd : Nat) : State :=
  let st := s.freezeState
  if cmd = 1 then (if st = 0 then s.wr F.TLY_FREEZE.STATE 0 1 else s)
  else if cmd = 2 then
    (if st = 2 then s.thawNow
      else if st = 1 then s.withTally { s.tally with thawHeld := true }
      else s)
  else if cmd = 3 ∧ st = 0 then
    let n := s.rd F.TLY_SNAP_RANGE.COUNT
    if n = 0 ∨ s.pairCount < s.rd F.TLY_SNAP_RANGE.FIRST + n then s.incSat F.TLY_STATUS.RANGE_CNT
    else s.wr F.TLY_FREEZE.STATE 0 3
  else s

def execFreeze (s : State) : Result := .next (s.landed .TLY_FREEZE (fun s => s.freezeCmd 1))

def execThaw (s : State) : Result := .next (s.landed .TLY_FREEZE (fun s => s.freezeCmd 2))

def execSnapshot (s : State) : Result := .next (s.landed .TLY_FREEZE (fun s => s.freezeCmd 3))

/-- FREEZE_INSTANT (R521): the freeze instant is reached on both dies. -/
def execFreezeInstant (s : State) : Result :=
  .next <|
    if s.freezeState = 1 then
      let s1 := (s.freezeNow.wr F.TLY_FREEZE.STATE 0 2).freezeDone
      if s.tally.thawHeld then s1.thawNow else s1
    else if s.freezeState = 3 ∧ s.tally.frozenPairs.isNone then s.freezeNow
    else s

/-- R358, R522: the snapshot reaches into DRAM, which serves nothing now. -/
def State.snapWaits (s : State) : Bool :=
  s.dramStopped && decide (262144 < s.rd F.TLY_SNAP_RANGE.FIRST + s.rd F.TLY_SNAP_RANGE.COUNT)

/-- SNAPSHOT_COMPLETE (R341, R358, R522): the frozen pairs are in host memory; while memory requests are stopped, or DRAM serves no reads, the
snapshot waits. -/
def execSnapshotComplete (s : State) : Result :=
  .next <|
    if s.freezeState ≠ 3 ∨ s.tally.frozenPairs.isNone ∨ s.dmaStopped ∨ s.snapWaits then s
    else
      let is := (List.range (s.rd F.TLY_SNAP_RANGE.COUNT)).map (· + s.rd F.TLY_SNAP_RANGE.FIRST)
      let s1 := is.foldl State.fetchPair s
      let octets := is.flatMap (fun i => octetsBE 16 (s1.readPair i).bits)
      ((s1.hostPost (s.rd F.TLY_SNAP_BASE.BASE) octets).thawNow).freezeDone

/-! ### Bandwidth windows (R525) and the instruction histograms (R529) -/

/-- R525: one window of octets is latched. -/
def State.bwLatch (s : State) (octets max : Fld) (i n : Nat) : State := (s.wr octets i n).raiseTo max i n

/-- BW_WINDOW_BOUNDARY (R525): the FRC reaches the next multiple of the window. -/
def execBwWindowBoundary (s : State) : Result :=
  .next <|
    let s0 := s.advanceTo (s.boundary s.tally.bwAt (ms s.tally.bwNext))
    let s1 := (List.range 208).foldl (fun a p =>
      a.bwLatch F.TLY_BW_RX.OCTETS F.TLY_BW_RX.MAX_OCTETS p (Sparse.read 0 s.tally.rxOctets p)) s0
    let s2 := (List.range 512).foldl (fun a n =>
      a.bwLatch F.TLY_BW_TX.OCTETS F.TLY_BW_TX.MAX_OCTETS n (Sparse.read 0 s.tally.txOctets n)) s1
    let s3 := s2.withTally { s2.tally with rxOctets := [], txOctets := [], bwNext := s2.rd F.TLY_BW_CFG.WINDOW, bwAt := s2.now }
    s3.incWrap F.TLY_BW_CFG.SEQ

/-- ISAMP_CLEAR (R529). -/
def execIsampClear (s : State) : Result := .next (s.landed .TLY_ISAMP_CFG (fun s => s.resetRegs [.TLY_ISAMP_HIST]))

end Sys2Proof.Machine
end

