-- ==== Sys2Proof/Machine/Emvex.lean ====
section
/-!
DEFINITION. Emvex (chapter 18, R571 to R590): lanes and their messages, acting managers, uplinks, time, the module map and coat commits;
and the flip of a coat swap, which a commit reports.
-/
namespace Sys2Proof.Machine

/-! ### Roles, lanes and what a lane's peer must be (R571 to R576) -/

/-- ROLE: 0 worker, 1 shelf, 2 cluster, 3 system manager; and the module's own numbers. -/
def State.emvRole (s : State) : Nat := s.rd F.EMV_CFG.ROLE
def State.emvPrimary (s : State) : Bool := s.on F.EMV_CFG.PRIMARY
def State.modId (s : State) : Nat := s.rd F.FAB_CFG.MOD_ID
def State.acting (s : State) : Bool := s.on F.EMV_STATUS.ACTING

/-- The lanes of a module with a READY image send and receive; in recovery Emvex is not set up. -/
def State.emvReady (s : State) : Bool := s.rd F.EAS_BOOT_STATUS.STATE == 2

/-- Lane `l`: 0 EMU0, 1 EMU1, 2 + i EMDi. -/
def State.emvLane (s : State) (l : Nat) : EmvLane := Sparse.read EmvLane.idle s.emv.lanes l
def State.setEmvLane (s : State) (l : Nat) (x : EmvLane) : State :=
  s.withEmv { s.emv with lanes := Sparse.write EmvLane.idle s.emv.lanes l x }

/-- The MOD_ID expected on lane `l` of the downlinks. -/
def State.child (s : State) (l : Nat) : Nat := s.emv.children.getD (l - 2) 65535

/-- R574: lane `l` is wired. -/
def State.wired (s : State) (l : Nat) : Bool :=
  match l with
  | 0 => s.emvRole != 3
  | 1 => true
  | l => decide (l < 18) && s.emvRole != 0 && s.child l != 65535

/-- The downlinks in use. -/
def State.downlinks (s : State) : List Nat := ((List.range 16).map (· + 2)).filter s.wired

/-- R574, R576: what lane `l` requires of its peer's MOD_ID, ROLE and PRIMARY. -/
def State.peerFits (s : State) (l md role : Nat) (primary : Bool) : Bool :=
  let r := s.emvRole
  let group := if max r 1 = 1 then md / 16 == s.modId / 16 else if r = 2 then md / 256 == s.modId / 256 else true
  s.wired l &&
    match l with
    | 0 =>
      role == r + 1 && primary == (r == 0 || s.emvPrimary) &&
        (if r = 0 then md / 16 == s.modId / 16 else if r = 1 then md / 256 == s.modId / 256 else true)
    | 1 => (if r = 0 then role == 1 && !primary else role == r && primary == !s.emvPrimary) && group
    | l => md == s.child l && role + 1 == r && primary == (r != 1 && s.emvPrimary)

/-- Lane `l` is up (R576). -/
def State.laneUp (s : State) (l : Nat) : Bool := s.on F.EMV_LANE_STATUS.UP l

/-- The loss time in units of the FRC. -/
def State.emvLoss (s : State) : Nat := ms (s.rd F.EMV_CFG.LOSS)

/-- A bit of EMV_ALARM is set and fires source 15. -/
def State.emvAlarm (s : State) (f : Fld) : State := s.setCause f 0 15

/-! ### Sending (R575 to R578) -/

/-- R580: TIME_OK as announced: the acting system manager's while local time is valid. -/
def State.ownTimeOk (s : State) : Bool :=
  if s.emvRole = 3 ∧ s.acting then s.timeValid else s.on F.EMV_STATUS.TIME_OK

/-- The header of a message (R577), with the lane's SEQ. -/
def State.emvHeader (s : State) (l type dst : Nat) : List Byte :=
  let flags := (if s.emvPrimary then 1 else 0) + (if s.acting then 2 else 0) + (if s.ownTimeOk then 4 else 0)
  octetsBE 1 1 ++ octetsBE 1 type ++ octetsBE 2 s.modId ++ octetsBE 2 dst ++ octetsBE 1 flags ++ octetsBE 1 s.emvRole ++
    octetsBE 4 (s.emvLane l).seq ++ octetsBE 4 0

/-- A message is sent on lane `l`. -/
def State.emvSend (s : State) (l type dst : Nat) (body : List Byte) : State :=
  let s1 := s.emit (.emvex l (s.emvHeader l type dst ++ body))
  s1.setEmvLane l { s.emvLane l with seq := ((s.emvLane l).seq + 1) % 2 ^ 32 }

/-- R580: a downward message goes on the downlinks, and on the peer link unless it came from there. -/
def State.sendDown (s : State) (type : Nat) (body : List Byte) (fromPeer : Bool) : State :=
  if s.emvRole = 0 then s
  else (s.downlinks ++ (if fromPeer then [] else [1])).foldl (fun s l => s.emvSend l type 0xFFFF body) s

/-- The followed uplink (R580). -/
def State.follow (s : State) : Option Nat :=
  match s.rd F.EMV_STATUS.FOLLOW with
  | 0 => some 0
  | 1 => some 1
  | _ => none

/-- An upward message goes on the followed uplink. -/
def State.sendUp (s : State) (type : Nat) (body : List Byte) : State :=
  match s.follow with
  | some l => s.emvSend l type (s.rd F.EMV_LANE_STATUS.PEER_MOD l) body
  | none => s

/-- The active coat's number. -/
def State.coatId (s : State) : Nat := s.rd F.GLZ_COAT_ID.ID (bankNo s.activeBank)

/-- ANNOUNCE_SEND (R578): a multiple of 1 ms is reached. -/
def execAnnounceSend (s : State) : Result :=
  .next <|
    if !s.emvReady then s
    else
      let s0 := s.advanceTo (s.boundary s.emv.announcedAt (ms 1))
      let s1 := s0.withEmv { s0.emv with announcedAt := s0.now }
      let body := octetsBE 2 s1.coatId ++ octetsBE 1 s1.coatState ++ octetsBE 1 (s1.rd F.EAS_BOOT_STATUS.STATE) ++
        octetsBE 1 (s1.rd F.FAB_CFG.EPOCH) ++ octetsBE 1 (s1.rd F.EMV_STATUS.HOPS) ++ octetsBE 4 s1.emv.mapVer
      ((List.range 18).filter s1.wired).foldl (fun s l => s.emvSend l 1 0xFFFF body) s1

/-- TIME_SEND (R578): a multiple of 1 ms is reached; T_TX is the local time at the end of the SFD, `sub` sixteenths of a nanosecond
later. -/
def execTimeSend (sub : Nat) (s : State) : Result :=
  .next <|
    if !s.emvReady then s
    else
      let s0 := s.advanceTo (s.boundary s.emv.timeAt (ms 1))
      let s1 := s0.withEmv { s0.emv with timeAt := s0.now }
      let t := s1.localOf s1.anchor (s1.stampAt sub).toNat
      ((List.range 18).filter s1.wired).foldl (fun s l =>
        let e := (s.emvLane l).echo.getD (0, 0)
        s.emvSend l 2 0xFFFF (octetsBE 10 t ++ octetsBE 10 e.1 ++ octetsBE 10 e.2)) s1

/-! ### The uplink (R580, R581, R583) -/

/-- R580: uplink `l` is eligible. -/
def State.eligible (s : State) (l : Nat) : Bool := s.laneUp l && (s.emvLane l).timeOk

/-- R580: the uplinks a module considers. -/
def State.uplinks (s : State) : List Nat :=
  if s.emvRole = 3 then (if s.acting then [] else [1]) else [0, 1]

/-- R580: of the eligible uplinks, the one with the smallest HOPS, then the one whose peer acts, then EMU0. -/
def State.bestUplink (s : State) : Option Nat :=
  let rank (l : Nat) : Nat := 4 * (s.emvLane l).hops + (if s.on F.EMV_LANE_STATUS.PEER_ACTING l then 0 else 2) + l
  (s.uplinks.filter s.eligible).foldl (fun best l =>
    match best with
    | none => some l
    | some b => if rank l < rank b then some l else some b) none

/-- R467, R584: Easel stops writing anchors. -/
def State.holdover (s : State) : State :=
  if s.rd F.TIM_CFG.SRC = 1 ∧ !s.on F.TIM_STATUS.HOLDOVER then s.setCause F.TIM_STATUS.HOLDOVER 0 13 else s

/-- The module follows no uplink, and its time is no longer accepted (R581, R584). -/
def State.followNone (s : State) : State :=
  let s1 := (s.wr F.EMV_STATUS.FOLLOW 0 3).wr F.EMV_STATUS.TIME_OK 0 0
  s1.withEmv { s1.emv with offsets := [] }

/-- The module follows uplink `l` and takes up its time anew (R580, R583, R584); a change from another one is a holdover. -/
def State.followUp (s : State) (l : Nat) : State :=
  let s1 := ((s.followNone.wr F.EMV_STATUS.FOLLOW 0 l).wr F.EMV_STATUS.HOPS 0 (min 7 ((s.emvLane l).hops + 1))).incWrap
    F.EMV_STATUS.TAKEOVERS
  let s2 := s1.withEmv { s1.emv with lastFollow := some l }
  if s.emv.lastFollow.isSome then s2.holdover else s2

/-- R582: a module without an uplink follows `l`; where another was lost before, it has changed its uplink. -/
def State.takeUplink (s : State) (l : Nat) : State :=
  let s1 := s.followUp l
  match s.emv.lastFollow with
  | some k => if k = l then s1 else s1.emvAlarm F.EMV_ALARM.TAKEOVER
  | none => s1

/-- R581: the followed uplink is lost, and the module chooses again. -/
def State.uplinkLost (s : State) : State :=
  let s1 := (s.followNone.emvAlarm F.EMV_ALARM.UPLINK_LOST).holdover
  match s1.bestUplink with
  | none => s1
  | some l => s1.takeUplink l

/-- R580, R582: an uplink may have become eligible, or eligible with a smaller HOPS. -/
def State.reconsider (s : State) : State :=
  match s.follow, s.bestUplink with
  | none, some l => s.takeUplink l
  | some f, some l =>
    if (s.emvLane l).hops < (s.emvLane f).hops then s.followUp l
    else s.wr F.EMV_STATUS.HOPS 0 (min 7 ((s.emvLane f).hops + 1))
  | _, none => s

/-- R576: lane `l` is up no longer; EMU1 is a manager's peer link (R579). -/
def State.laneFell (s : State) (l : Nat) : State :=
  let s1 := s.wr F.EMV_LANE_STATUS.UP l 0
  if l = 1 ∧ s.laneUp 1 then s1.withEmv { s1.emv with peerDownAt := s1.now } else s1

/-- UPLINK_LOST (R581): block lock of the followed uplink is lost (`lock`), or no message has arrived on it for LOSS ms. -/
def execUplinkLost (lock : Bool) (s : State) : Result :=
  .next <|
    match s.follow with
    | none => s
    | some l =>
      let s1 := if lock then s else s.advanceTo ((s.emvLane l).heardAt.getD 0 + s.emvLoss)
      (s1.laneFell l).uplinkLost

/-- EMVEX_LANE_DOWN (R576): lane `l`, which is not followed, loses block lock (`lock`) or has received no ANNOUNCE for LOSS ms. -/
def execEmvexLaneDown (l : Nat) (lock : Bool) (s : State) : Result :=
  .next <|
    if s.follow = some l ∨ !s.laneUp l then s
    else
      let s1 := if lock then s else s.advanceTo ((s.emvLane l).announceAt.getD 0 + s.emvLoss)
      s1.laneFell l

/-! ### Acting managers (R579, R582) -/

/-- The manager stops acting and chooses an uplink. -/
def State.standBy (s : State) : State := (s.wr F.EMV_STATUS.ACTING 0 0).reconsider

/-- R582: a manager that stood by becomes acting; the system manager then follows no uplink and is the root of time (R580, R583). -/
def State.becomeActing (s : State) : State :=
  let s1 := ((s.wr F.EMV_STATUS.ACTING 0 1).incWrap F.EMV_STATUS.TAKEOVERS).emvAlarm F.EMV_ALARM.TAKEOVER
  let s2 := s1.withEmv { s1.emv with actAt := s1.now }
  if s.emvRole = 3 then s2.followNone.wr F.EMV_STATUS.HOPS 0 0 else s2

/-- SECONDARY_TAKEOVER (R579, R582): the peer link of a manager that stands by, a secondary one or a primary one that has returned, has been
down for LOSS ms. -/
def execSecondaryTakeover (s : State) : Result :=
  .next <|
    if !s.emvReady ∨ s.emvRole = 0 ∨ s.acting ∨ s.laneUp 1 then s
    else (s.advanceTo (s.emv.peerDownAt + s.emvLoss)).becomeActing

/-- R579: a write of EMV_CTRL.REVERT. -/
def State.emvRevert (s : State) : State := if s.emvRole ≠ 0 ∧ !s.emvPrimary ∧ s.acting then s.standBy else s

def execRevert (s : State) : Result := .next (s.landed .EMV_CTRL State.emvRevert)

/-! ### Receiving (R575 to R577) -/

/-- A number in a message. -/
def emvField (m : List Byte) (off n : Nat) : Nat := natBE (padTo n (m.drop off))

/-- A received frame is discarded and counted. -/
def State.emvDiscard (s : State) : State := s.withEmv { s.emv with discards := s.emv.discards + 1 }

/-- A message of type `type` arrives on lane `l`: it is heard, or discarded and counted; none where it is of another type. -/
def State.emvHear (s : State) (l type : Nat) (m : List Byte) (fcs : Bool) : State × Bool :=
  if !s.emvReady ∨ 18 ≤ l ∨ (fcs ∧ emvField m 0 1 = 1 ∧ emvField m 1 1 ≠ type) then (s, false)
  else if !fcs ∨ emvField m 0 1 ≠ 1 then (s.emvDiscard, false)
  else (s.setEmvLane l { s.emvLane l with heardAt := some s.now }, true)

/-- A bit of the module map. -/
def State.mapBit (s : State) (d : Nat) : Bool := (s.rd F.EMV_MAP.MAP (d / 64)).testBit (d % 64)

/-- R585: the module map, bit d for module d. -/
def State.mapNat (s : State) : Nat := (List.range 32).foldl (fun a w => a + s.rd F.EMV_MAP.MAP w * 2 ^ (64 * w)) 0

/-- R585: a new map goes into EMV_MAP and FAB_PEER. -/
def State.putMap (s : State) (v ver : Nat) : State :=
  let s1 := (List.range 32).foldl (fun s w =>
    (s.wr F.EMV_MAP.MAP w (v / 2 ^ (64 * w))).wr F.FAB_PEER.EXPECT w (v / 2 ^ (64 * w))) s
  (s1.withEmv { s1.emv with mapVer := ver % 2 ^ 32, mapHeard := true }).emvAlarm F.EMV_ALARM.MAP_CHG

/-- The map as a MAP message carries it: bit d in byte d / 8, bit 7 − d mod 8. -/
def mapOctets (v : Nat) : List Byte :=
  (List.range 256).map (fun i => BitVec.ofNat 8 ((List.range 8).foldl (fun a b => if v.testBit (8 * i + b) then a + 2 ^ (7 - b) else a) 0))

/-- The map that a MAP message carries. -/
def octetsMap (m : List Byte) : Nat :=
  (List.range 256).foldl (fun a i =>
    (List.range 8).foldl (fun a b => if (m.getD i 0).getLsbD (7 - b) then a + 2 ^ (8 * i + b) else a) a) 0

/-- A MAP message is sent down. -/
def State.sendMap (s : State) : State := s.sendDown 3 (octetsBE 4 s.emv.mapVer ++ mapOctets s.mapNat) false

/-- MAP_SEND (R578, R585): a multiple of 100 ms is reached at the acting system manager. -/
def execMapSend (s : State) : Result :=
  .next (if !s.emvReady ∨ !s.acting ∨ s.emvRole ≠ 3 then s
    else
      let s1 := s.advanceTo (s.boundary s.emv.mapAt (ms 100))
      (s1.withEmv { s1.emv with mapAt := s1.now }).sendMap)

/-- MAP_RECEIVE (R580, R585): a MAP on lane `l`; a newer one is taken, and every one from the followed uplink is relayed. -/
def execMapReceive (l : Nat) (m : List Byte) (fcs : Bool) (s : State) : Result :=
  .next <|
    match s.emvHear l 3 m fcs with
    | (s1, false) => s1
    | (s1, true) =>
      if s1.follow ≠ some l then s1.emvDiscard
      else
        let ver := emvField m 16 4
        let newer := !s1.emv.mapHeard || ((ver + 2 ^ 32 - s1.emv.mapVer) % 2 ^ 32 != 0 &&
          decide ((ver + 2 ^ 32 - s1.emv.mapVer) % 2 ^ 32 < 2 ^ 31))
        let s2 := if newer then s1.putMap (octetsMap (m.drop 20)) ver else s1
        s2.sendDown 3 (m.drop 16) (l == 1)

/-- R585: the acting system manager sets a module's bit. -/
def State.mapAdd (s : State) (md : Nat) : State :=
  if s.mapBit md then s else (s.putMap (s.mapNat + 2 ^ md) (s.emv.mapVer + 1)).sendMap

/-- R585: a JOIN goes up, or sets the bit at the acting system manager. -/
def State.join (s : State) (md : Nat) : State :=
  if s.emvRole = 3 ∧ s.acting then s.mapAdd md else s.sendUp 4 (octetsBE 2 md)

/-- JOIN_RECEIVE (R585). -/
def execJoinReceive (l : Nat) (m : List Byte) (fcs : Bool) (s : State) : Result :=
  .next <|
    match s.emvHear l 4 m fcs with
    | (s1, false) => s1
    | (s1, true) => if s1.follow = some l then s1.emvDiscard else s1.join (emvField m 16 2 % 2048)

/-- R585: a write of EMV_MAP_CTRL.REMOVE for module `md`. -/
def State.mapRemove (s : State) (md : Nat) : State :=
  if s.emvRole ≠ 3 ∨ !s.acting then s.emvAlarm F.EMV_ALARM.CMD_ERR
  else if !s.mapBit md then s
  else (s.putMap (s.mapNat - 2 ^ md) (s.emv.mapVer + 1)).sendMap

/-- MAP_REMOVE (R585). -/
def execMapRemove (md : Nat) (s : State) : Result :=
  .next (s.landed .EMV_MAP_CTRL (fun s => (s.wr F.EMV_MAP_CTRL.MOD_ID 0 md).mapRemove (md % 2048)))

/-- R579: what a peer manager's ACTING does to this one: a secondary that has not acted for 1 s stands by when the primary acts; a primary
stands by when the secondary has acted that long, and acts again when the secondary does not (assumption 109). -/
def State.hearActing (s : State) (acts primary : Bool) : State :=
  if s.emvRole = 0 ∨ primary = s.emvPrimary then s
  else if !s.emvPrimary then (if s.acting ∧ acts ∧ s.now < s.emv.actAt + ms 1000 then s.standBy else s)
  else if acts then (if s.acting ∧ s.emv.peerDownAt + s.emvLoss + ms 1000 ≤ s.now then s.standBy else s)
  else if s.acting then s
  else s.becomeActing

/-- ANNOUNCE_RECEIVE (R576, R579 to R581, R585, R590): an ANNOUNCE on lane `l`. -/
def execAnnounceReceive (l : Nat) (m : List Byte) (fcs : Bool) (s : State) : Result :=
  .next <|
    match s.emvHear l 1 m fcs with
    | (s0, false) => s0
    | (s0, true) =>
      let md := emvField m 2 2
      let flags := emvField m 6 1
      let role := emvField m 7 1
      let primary := flags.testBit 0
      let acts := flags.testBit 1
      let s1 := ((s0.wr F.EMV_LANE_STATUS.PEER_MOD l md).wr F.EMV_LANE_STATUS.PEER_ROLE l role).wrBit
        F.EMV_LANE_STATUS.PEER_PRIMARY l primary
      let s2 := s1.wrBit F.EMV_LANE_STATUS.PEER_ACTING l acts
      let s3 := s2.setEmvLane l { s2.emvLane l with
        announceAt := some s2.now, hops := emvField m 21 1, timeOk := flags.testBit 2 }
      if !s3.peerFits l md role primary then
        let t := ((s3.wr F.EMV_LANE_STATUS.WIRING_ERR l 1).laneFell l).emvAlarm F.EMV_ALARM.WIRING_ERR
        if t.follow = some l then t.uplinkLost else t
      else
        let s4 := s3.wr F.EMV_LANE_STATUS.UP l 1
        let s5 := s4.withEmv { s4.emv with coats := Sparse.write none s4.emv.coats md (some (emvField m 16 2, s4.now)) }
        let s6 := if s5.emvRole = 1 ∧ emvField m 19 1 = 2 ∧ md ∉ s5.emv.ready then
            (s5.withEmv { s5.emv with ready := md :: s5.emv.ready }).join md
          else s5
        let s7 := if l = 1 then s6.hearActing acts primary else s6
        let s8 := if s7.follow = some l ∧ !flags.testBit 2 then s7.uplinkLost else s7
        s8.reconsider

/-! ### Time (R467, R583, R584) -/

/-- R584: the sender's time minus this module's. -/
def timeOffset (t1 t2 t3 t4 : Int) : Int := ((t2 - t1) - (t4 - t3)) / 2

/-- R467, R584: Easel steers the anchor sets: the inactive set maps now to the sender's local time, within 4 ns a hop, and is made active;
how it steers within that bound is left open (assumption 32). -/
def State.steer (s : State) (offset : Int) : State :=
  if s.rd F.TIM_CFG.SRC ≠ 1 ∨ s.on F.TIM_STATUS.ARMED then s
  else
    let k := 1 - s.anchor
    let bound := ns (4 * s.rd F.EMV_STATUS.HOPS)
    let err : Int := (s.freeVal % (2 * bound + 1) : Nat) - bound
    let t0 : Int := (s.localNow : Int) + offset + err
    let t := (t0 % 2 ^ 80).toNat
    let s1 := s.freeDraw
    let s2 := (s1.wr F.TIM_ANCHOR.F0 k (s1.now / 65536)).wr F.TIM_ANCHOR.F0_FRAC k (s1.now % 65536)
    let s3 := (s2.wr F.TIM_ANCHOR.T0 k (t / 65536)).wr F.TIM_ANCHOR.T0_FRAC k (t % 65536)
    let s4 := s3.wr F.TIM_ANCHOR.RATE k (s3.rd F.TIM_ANCHOR.RATE s3.anchor)
    s4.flipAnchor.wr F.TIM_STATUS.HOLDOVER 0 0

/-- The last three offsets agree within 20 ns (R584). -/
def offsetsAgree (os : List Int) : Bool :=
  decide (3 ≤ os.length) && os.all (fun a => os.all (fun b => decide ((a - b).natAbs ≤ ns 20)))

/-- R584: a TIME message from the followed uplink with its offset. -/
def State.takeTime (s : State) (offset : Int) : State :=
  let s1 := s.withEmv { s.emv with offsets := (offset :: s.emv.offsets).take 3 }
  if s1.on F.EMV_STATUS.TIME_OK then s1.steer offset
  else if offsetsAgree s1.emv.offsets then ((s1.wr F.EMV_STATUS.TIME_OK 0 1).wr F.TIM_STATUS.HOLDOVER 0 0).steer offset
  else s1

/-- TIME_RECEIVE (R581, R584): a TIME message on lane `l`, `sub` sixteenths of a nanosecond after the counter's reading. -/
def execTimeReceive (l : Nat) (m : List Byte) (fcs : Bool) (sub : Nat) (s : State) : Result :=
  .next <|
    match s.emvHear l 2 m fcs with
    | (s1, false) => s1
    | (s1, true) =>
      let t4 := s1.localOf s1.anchor (s1.stampAt sub).toNat
      let t3 := emvField m 16 10
      let t1 := emvField m 26 10
      let s2 := s1.setEmvLane l { s1.emvLane l with echo := some (t3, t4), timeOk := (emvField m 6 1).testBit 2 }
      if s2.follow ≠ some l then s2
      else if !(emvField m 6 1).testBit 2 then s2.uplinkLost
      else if t1 = 0 then s2
      else s2.takeTime (timeOffset t1 (emvField m 36 10) t3 t4)

/-! ### Coat commits (R586 to R590) -/

/-- R587: the first test that fails, 0 where the module arms. -/
def State.prepareTest (s : State) (coat t : Nat) : Nat :=
  if !s.timeValid then 1
  else if s.coatState ≠ 0 then 2
  else if s.rd F.GLZ_COAT_ID.ID (bankNo (!s.activeBank)) ≠ coat then 3
  else if t * 65536 < s.localNow + ms 5 then 4
  else 0

/-- R586, R587: the module arms its swap for a commit or refuses. -/
def State.prepare (s : State) (id coat t : Nat) : State :=
  let r := s.prepareTest coat t
  let c : Commit := ⟨id, t, coat, r, false, s.now + ms 2, false, true⟩
  let s1 := (List.range 18).foldl (fun s l => s.setEmvLane l { s.emvLane l with reply := none }) s
  let s2 := s1.withEmv { s1.emv with commitId := id, commit := some c }
  if r = 0 then (s2.wr F.GLZ_COAT_AT.TIME 0 t).swapArm else s2

/-- R588: ARMED, REFUSED, SWAPPED, the first refuser and its reason, of the module and those below it. -/
def State.replySum (s : State) (c : Commit) : List Nat :=
  let own := if c.own = 0 then [1, 0, if c.swapped then 1 else 0, 0, 0] else [0, 1, 0, s.modId, c.own]
  (List.range 18).foldl (fun a l =>
    match (s.emvLane l).reply with
    | none => a
    | some r =>
      let first := if a.getD 4 0 = 0 then [r.getD 3 0, r.getD 4 0] else [a.getD 3 0, a.getD 4 0]
      [a.getD 0 0 + r.getD 0 0, a.getD 1 0 + r.getD 1 0, a.getD 2 0 + r.getD 2 0] ++ first) own

/-- R588: the results stand in EMV_COMMIT_STATUS at the acting system manager, and go up elsewhere. -/
def State.sendReply (s : State) (c : Commit) : State :=
  let r := s.replySum c
  if s.emvRole = 3 ∧ s.acting then
    let s1 := ((s.wr F.EMV_COMMIT_STATUS.ARMED 0 (r.getD 0 0)).wr F.EMV_COMMIT_STATUS.REFUSED 0 (r.getD 1 0)).wr
      F.EMV_COMMIT_STATUS.SWAPPED 0 (r.getD 2 0)
    (s1.wr F.EMV_COMMIT_STATUS.FIRST_REFUSER 0 (r.getD 3 0)).wr F.EMV_COMMIT_STATUS.REASON 0 (r.getD 4 0)
  else
    (s.withEmv { s.emv with commit := some { c with sent := true } }).sendUp 6
      (octetsBE 4 c.id ++ octetsBE 2 (r.getD 0 0) ++ octetsBE 2 (r.getD 1 0) ++ octetsBE 2 (r.getD 2 0) ++
        octetsBE 2 (r.getD 3 0) ++ octetsBE 1 (r.getD 4 0))

/-- R588: every child in the map has answered. -/
def State.allAnswered (s : State) : Bool :=
  s.downlinks.all (fun l => !s.mapBit (s.child l) || (s.emvLane l).reply.isSome)

/-- R588: a REPLY is due at once: at a worker, at the root, once every child has answered, or again after a first one. -/
def State.replyNow (s : State) : State :=
  match s.emv.commit with
  | none => s
  | some c => if s.emvRole = 0 ∨ (s.emvRole = 3 ∧ s.acting) ∨ c.sent ∨ s.allAnswered then s.sendReply c else s

/-- The body of a PREPARE. -/
def prepareBody (id coat t : Nat) : List Byte := octetsBE 4 id ++ octetsBE 2 coat ++ octetsBE 8 t

/-- PREPARE_RECEIVE (R587, R588). -/
def execPrepareReceive (l : Nat) (m : List Byte) (fcs : Bool) (s : State) : Result :=
  .next <|
    match s.emvHear l 5 m fcs with
    | (s1, false) => s1
    | (s1, true) =>
      if s1.follow ≠ some l then s1.emvDiscard
      else ((s1.sendDown 5 (m.drop 16) (l == 1)).prepare (emvField m 16 4) (emvField m 20 2) (emvField m 22 8)).replyNow

/-- REPLY_RECEIVE (R588): a REPLY from below, or over the peer link from a manager that follows this one. -/
def execReplyReceive (l : Nat) (m : List Byte) (fcs : Bool) (s : State) : Result :=
  .next <|
    match s.emvHear l 6 m fcs with
    | (s1, false) => s1
    | (s1, true) =>
      match s1.emv.commit with
      | none => s1.emvDiscard
      | some c =>
        if s1.follow = some l ∨ emvField m 16 4 ≠ c.id then s1.emvDiscard
        else
          (s1.setEmvLane l { s1.emvLane l with
            reply := some [emvField m 20 2, emvField m 22 2, emvField m 24 2, emvField m 26 2, emvField m 28 1] }).replyNow

/-- REPLY_TIMEOUT (R588): 2 ms after a manager relayed the PREPARE. -/
def execReplyTimeout (s : State) : Result :=
  .next <|
    match s.emv.commit with
    | none => s
    | some c => if c.sent ∨ s.emvRole = 0 then s else (s.advanceTo c.due).sendReply c

/-- R586: a write of EMV_COMMIT_CTRL.GO has stored COAT_ID and T. -/
def State.commitGo (s : State) : State :=
  let t := s.rd F.EMV_COMMIT_CTRL.T
  let coat := s.rd F.EMV_COMMIT_CTRL.COAT_ID
  let st := s.rd F.EMV_COMMIT_STATUS.STATE
  if s.emvRole ≠ 3 ∨ !s.acting ∨ st = 1 ∨ st = 2 ∨ t * 65536 < s.localNow + ms 10 then s.emvAlarm F.EMV_ALARM.CMD_ERR
  else
    let id := (s.emv.commitId + 1) % 2 ^ 32
    let s1 := (s.setReg .EMV_COMMIT_STATUS 0 0).wr F.EMV_COMMIT_STATUS.STATE 0 1
    ((s1.sendDown 5 (prepareBody id coat t) false).prepare id coat t).replyNow

/-- COMMIT_GO (R586): a write of EMV_COMMIT_CTRL with GO. -/
def execCommitGo (coat t : Nat) (s : State) : Result :=
  .next (s.landed .EMV_COMMIT_CTRL (fun s => ((s.wr F.EMV_COMMIT_CTRL.COAT_ID 0 coat).wr F.EMV_COMMIT_CTRL.T 0 t).commitGo))

/-- CANCEL_RECEIVE (R589). -/
def execCancelReceive (l : Nat) (m : List Byte) (fcs : Bool) (s : State) : Result :=
  .next <|
    match s.emvHear l 7 m fcs with
    | (s1, false) => s1
    | (s1, true) =>
      if s1.follow ≠ some l then s1.emvDiscard
      else
        let s2 := s1.sendDown 7 (m.drop 16) (l == 1)
        match s2.emv.commit with
        | some c => if emvField m 16 4 = c.id ∧ c.own = 0 ∧ !c.swapped then s2.swapCancel else s2
        | none => s2

/-- The modules of the map. -/
def State.mapModules (s : State) : List Nat := (List.range 2048).filter s.mapBit

/-- COMMIT_DEADLINE (R589): T − 3 ms at the acting system manager. -/
def execCommitDeadline (s : State) : Result :=
  .next <|
    match s.emv.commit with
    | none => s
    | some c =>
      if s.emvRole ≠ 3 ∨ !s.acting ∨ s.rd F.EMV_COMMIT_STATUS.STATE ≠ 1 then s
      else
        let at_ := (c.at_ - 3000000) * 65536
        let s1 := if s.localNow < at_ then s.advanceTo (s.frcOfLocal at_) else s
        let own := if c.own = 0 ∧ !s1.mapBit s1.modId then 1 else 0
        if s1.mapModules.length ≤ (s1.replySum c).getD 0 0 - own then s1.wr F.EMV_COMMIT_STATUS.STATE 0 2
        else
          let s2 := (s1.wr F.EMV_COMMIT_STATUS.STATE 0 3).sendDown 7 (octetsBE 4 c.id) false
          (if c.own = 0 ∧ !c.swapped then s2.swapCancel else s2).emvAlarm F.EMV_ALARM.COMMIT_FAIL

/-- The active coat that module `d` has announced since FRC value `t0`. -/
def State.announcedCoat (s : State) (t0 d : Nat) : Option Nat :=
  if d = s.modId then some s.coatId
  else match Sparse.read none s.emv.coats d with
    | some (c, t) => if t0 ≤ t then some c else none
    | none => none

/-- COMMIT_COMPARE (R590): T + 100 ms at the acting system manager. -/
def execCommitCompare (s : State) : Result :=
  .next <|
    match s.emv.commit with
    | none => s
    | some c =>
      if s.emvRole ≠ 3 ∨ !s.acting ∨ !c.live then s
      else
        let at_ := (c.at_ + 100000000) * 65536
        let s1 := if s.localNow < at_ then s.advanceTo (s.frcOfLocal at_) else s
        let s2 := s1.withEmv { s1.emv with commit := some { c with live := false } }
        let heard := s2.mapModules.filterMap (s2.announcedCoat (s2.frcOfLocal (c.at_ * 65536)))
        let missing := s2.mapModules.length - heard.length
        let same := heard.all (fun k => k == c.coat)
        let some_ := heard.any (fun k => k == c.coat)
        if same && missing == 0 then
          (s2.wr F.EMV_COMMIT_STATUS.STATE 0 4).emvAlarm F.EMV_ALARM.COMMIT_DONE
        else if some_ && !same then
          (s2.wr F.EMV_COMMIT_STATUS.STATE 0 5).emvAlarm F.EMV_ALARM.COMMIT_SPLIT
        else (s2.wr F.EMV_COMMIT_STATUS.MISSING 0 missing).emvAlarm F.EMV_ALARM.COMMIT_FAIL

/-- R588: a module reports the flip of a commit's swap. -/
def State.reportSwap (s : State) : State :=
  match s.emv.commit with
  | none => s
  | some c =>
    if c.own ≠ 0 ∨ c.swapped ∨ s.localNs < c.at_ ∨ s.rd F.GLZ_COAT_AT.TIME ≠ c.at_ then s
    else
      let c1 := { c with swapped := true }
      (s.withEmv { s.emv with commit := some c1 }).sendReply c1

/-- COAT_FLIP (R50, R197, R199, R588): the stages have drained, or 3.5 µs of the pause have passed. -/
def execCoatFlip (s : State) : Result := .next (if s.coatState ≠ 2 then s else s.coatFlip.reportSwap)

end Sys2Proof.Machine
end

