-- ==== Sys2Proof/Machine/HostAccess.lean ====
section
/-!
DEFINITION. Host accesses to the registers (R10 to R21, R53 to R56, R553): what a value written is stored as, which writes a chapter
discards, what a landed write starts, and what a read shows and clears. Easel's writes of a Ground image take the same path (R539).
-/
namespace Sys2Proof.Machine

/-! ### What a written value is stored as -/

/-- The fields that the maps store within a range: field, least and greatest value. -/
def Reg.ranges : Reg → List (Fld × Nat × Nat)
  | .EAS_PACE_CFG => [(F.EAS_PACE_CFG.EXIT_HOLD, 1, 15)]
  | .FLX_GRP_CFG => [(F.FLX_GRP_CFG.HOLDOFF, 0, 10000)]
  | .FLX_CLIENT_CFG => [(F.FLX_CLIENT_CFG.MAX_FRAME, 0, 9728)]
  | .SKT_PROFILE => [(F.SKT_PROFILE.EL_GUARD_OFF, 0, 62)]
  | .GLZ_TPL => [(F.GLZ_TPL.KEYW, 0, 2)]
  | .GLZ_REASON => [(F.GLZ_REASON.RATE, 0, 4000000), (F.GLZ_REASON.BURST, 1, 65535)]
  | .GLZ_PUNT_AGG => [(F.GLZ_PUNT_AGG.RATE, 0, 4000000)]
  | .TBL_DESC => [(F.TBL_DESC.AGE_LIMIT, 1, 254)]
  | .STN_SCRUB_CFG => [(F.STN_SCRUB_CFG.PERIOD, 1, 255)]
  | .PNC_BUDGET => [(F.PNC_BUDGET.BURST, 1, 65535)]
  | .PAL_POOL_CFG => [(F.PAL_POOL_CFG.HC_LOW, 64, 4032)]
  | .PAL_SPILL_CFG => [(F.PAL_SPILL_CFG.RA_CHUNK, 1, 255)]
  | .SCH_VOQ_CLASS => [(F.SCH_VOQ_CLASS.WEIGHT, 1, 65535)]
  | .SCH_PORT_HOLD => [(F.SCH_PORT_HOLD.TIME, 0, 1000000)]
  | .SCH_VOQ_CREDIT_CFG => [(F.SCH_VOQ_CREDIT_CFG.CRED_MAX, 1, 65535)]
  | .DMC_SCHED_CFG => [(F.DMC_SCHED_CFG.AGE_CAP, 1, 255)]
  | .DMC_RT_CFG => [(F.DMC_RT_CFG.PANIC_LEVEL, 1, 15)]
  | .DMC_REFRESH_CFG => [(F.DMC_REFRESH_CFG.NBR_K, 6, 16)]
  | .DMC_TRAIN_CFG => [(F.DMC_TRAIN_CFG.TEMP_DELTA, 2, 20)]
  | .FAB_RSQ_CFG => [(F.FAB_RSQ_CFG.HOLD, 1, 1000)]
  | .FAB_RX_CFG => [(F.FAB_RX_CFG.REFRESH, 10, 10000), (F.FAB_RX_CFG.UNREACH, 1, 65535)]
  | .FAB_CRED_CFG => [(F.FAB_CRED_CFG.WINDOW, 1, 512)]
  | .LOOM_TREE_TIMING => [(F.LOOM_TREE_TIMING.SN_PERIOD, 1, 1000), (F.LOOM_TREE_TIMING.RANGE_MARGIN, 1, 63),
      (F.LOOM_TREE_TIMING.RANGE_RETRY, 1, 15), (F.LOOM_TREE_TIMING.LOB_LIMIT, 1, 15), (F.LOOM_TREE_TIMING.TO2, 1, 65535),
      (F.LOOM_TREE_TIMING.BP_PERIOD, 1, 255)]
  | .LOOM_DBA_CFG => [(F.LOOM_DBA_CFG.CYCLE, 1, 15), (F.LOOM_DBA_CFG.T_FRESH, 125, 16000), (F.LOOM_DBA_CFG.ARR_TOL, 1, 255),
      (F.LOOM_DBA_CFG.DRIFT_LIMIT, 1, 255), (F.LOOM_DBA_CFG.POLL_FRAMES, 1, 255), (F.LOOM_DBA_CFG.ROGUE_NS, 1, 255),
      (F.LOOM_DBA_CFG.ROGUE_FRAMES, 1, 7)]
  | .LOOM_PROBE => [(F.LOOM_PROBE.FRAMES, 1, 255)]
  | .TIM_PPS_CFG => [(F.TIM_PPS_CFG.WIDTH, 1, 255)]
  | .EVC_COAL => [(F.EVC_COAL.COUNT, 1, 255)]
  | .HST_RING_CFG => [(F.HST_RING_CFG.SIZE_LOG2, 6, 16), (F.HST_RING_CFG.BUF_SIZE, 256, 16384), (F.HST_RING_CFG.RATE, 1, 400)]
  | .TLY_TRACE_CFG => [(F.TLY_TRACE_CFG.K, 8, 24)]
  | .TLY_ISAMP_CFG => [(F.TLY_ISAMP_CFG.J, 8, 24)]
  | .TLY_BW_CFG => [(F.TLY_BW_CFG.WINDOW, 1, 1000)]
  | .EMV_CFG => [(F.EMV_CFG.LOSS, 2, 20)]
  | .EAS_PWR_CFG => [(F.EAS_PWR_CFG.VIN_WARN, 56, 600), (F.EAS_PWR_CFG.TJ_WARN, 80, 120)]
  | _ => []

/-- A field of a number. -/
def Fld.of (f : Fld) (x : Nat) : Nat := bitsOf x f.lo f.len

/-- A number with a field replaced. -/
def Fld.set (f : Fld) (x v : Nat) : Nat := setBits x f.lo f.len v

/-- The values that a map stores as another value, a range apart. -/
def Reg.fixup (r : Reg) (x : Nat) : Nat :=
  match r with
  | .GLZ_TPL => if 6 ≤ F.GLZ_TPL.KIND.of x then F.GLZ_TPL.KIND.set x 0 else x
  | .GLZ_FAULT_CFG =>
    let low (f : Fld) (x : Nat) : Nat := if f.of x < 8 then f.set x 0 else x
    low F.GLZ_FAULT_CFG.NODISP_REASON (low F.GLZ_FAULT_CFG.ACT_REASON x)
  | .PAL_SHARE => F.PAL_SHARE.SHARE_MAX.set x (max (F.PAL_SHARE.SHARE_MIN.of x) (F.PAL_SHARE.SHARE_MAX.of x))
  | .DMC_SCHED_CFG => F.DMC_SCHED_CFG.WQ_LOW.set x (min (F.DMC_SCHED_CFG.WQ_LOW.of x) (F.DMC_SCHED_CFG.WQ_HIGH.of x - 1))
  | .HST_RING_CFG => setBits (setBits x 0 12 0) 80 8 0
  | .TLY_SNAP_BASE => setBits x 0 6 0
  | .TLY_SAMP_CFG => if 11 < F.TLY_SAMP_CFG.EVENT.of x then F.TLY_SAMP_CFG.EVENT.set x 0 else x
  | _ => x

/-- The number that the maps store for a number written. -/
def Reg.clamp (r : Reg) (x : Nat) : Nat :=
  r.fixup (r.ranges.foldl (fun x c => c.1.set x (max c.2.1 (min c.2.2 (c.1.of x)))) x)

/-- The RW fields that a host write replaces: TBL_AG_META has fields that are ignored on write. -/
def Reg.writeMask (r : Reg) : Nat :=
  match r with
  | .TBL_AG_META => 0x3F00F047
  | .HST_RING_CFG => r.info.rw - 2 ^ 72
  | r => r.info.rw

/-- The bits of the access unit of a register: its 64-bit words, or the whole of a 32-bit one. -/
def Reg.unit (r : Reg) : Nat := min 64 r.info.width

/-- The bits of `a` that are not in `b`. -/
def andNot (a b : Nat) : Nat := a - Nat.land a b

/-- R17: entry `i` of a register after a write of `v` to its word `w`: RW fields take the value as the map stores it, W1C bits written 1
are cleared, every other field keeps its value. -/
def State.merged (s : State) (r : Reg) (i w v : Nat) : Nat :=
  let old := (s.reg r i).toNat
  let rw := bitsOf r.writeMask (64 * w) r.unit
  let w1c := bitsOf r.info.w1c (64 * w) r.unit
  let o := bitsOf old (64 * w) r.unit
  let n := Nat.lor (andNot (andNot o rw) (Nat.land v w1c)) (Nat.land v rw)
  setBits old (64 * w) r.unit (bitsOf (r.clamp (setBits old (64 * w) r.unit n)) (64 * w) r.unit)

/-- The plain write of R17. -/
def State.store (s : State) (r : Reg) (i w v : Nat) : State := s.setReg r i (BitVec.ofNat 320 (s.merged r i w v))

/-! ### Writes that a chapter discards or acts on -/

/-- The bank of an entry of a banked memory. -/
def Reg.bankOf (r : Reg) (i : Nat) : Bool := decide (r.entries / 2 ≤ i)

/-- R160: a write to a bank of the Sketch memories; the word written is good again. -/
def State.sktWrite (s : State) (r : Reg) (i w v : Nat) : State :=
  if r.bankOf i = s.activeBank ∨ s.on F.SKT_BANK_STATUS.RETIRING then s.wr F.SKT_BANK_STATUS.ACTIVE_WR 0 1
  else
    let s1 := s.store r i w v
    if r = .SKT_PROG then
      s1.withBadWords { s1.badWords with
        sketchCe := s1.badWords.sketchCe.filter (· != i), sketchUe := s1.badWords.sketchUe.filter (· != i) }
    else s1

/-- R196: a write to Glaze bank state; the word written is good again. -/
def State.glzWrite (s : State) (r : Reg) (i w v : Nat) : State :=
  if !s.bankWritable (r.bankOf i) then s.wr F.GLZ_COAT_STATUS.CMD_ERR 0 1
  else
    let s1 := s.store r i w v
    if r = .GLZ_ACT then
      s1.withBadWords { s1.badWords with
        actionCe := s1.badWords.actionCe.filter (· != i), actionUe := s1.badWords.actionUe.filter (· != i) }
    else s1

/-- R165: ingress port `p` is enabled. -/
def State.portOn (s : State) (p : Nat) : Bool :=
  if p < 64 then s.on F.ETH_PORT_CFG.EN p
  else if p < 112 then s.on F.LOOM_TREE_CFG.EN (p - 64)
  else if p < 176 then s.on F.FLX_CLIENT_CFG.EN (p - 112)
  else s.on F.HST_RING_CFG.EN (p - 176 + 32)

/-- R230: a write to a register of agent `a`. -/
def State.agentWrite (s : State) (r : Reg) (a i w v : Nat) : State :=
  if s.on F.TBL_AG_STATUS.BUSY a then s.wr F.TBL_AG_STATUS.OVERRUN a 1
  else
    let s1 := s.store r i w v
    if r = .TBL_AG_CMD then s1.agStart a else s1

/-- R248, R249: a write to a descriptor or a pattern slot of the Pounce engine. -/
def State.pncWrite (s : State) (r : Reg) (i w v : Nat) : State :=
  match r with
  | .PNC_SET =>
    if !s.bankWritable (r.bankOf i) then s.wr F.PNC_STATUS.WRITE_ERR 0 1
    else if w = 0 then s.pncSetWord0 i v
    else s.store r i w v
  | _ =>
    if !s.pncFree false i then s.wr F.PNC_STATUS.WRITE_ERR 0 1
    else (s.store r i w v).pncRewrite (if r = .PNC_RES then pncResAt i else pncKeyAt i)

/-- PNC_LOAD_DATA: the low word is held; the high word stores the state word (R249). -/
def State.loadWrite (s : State) (w v : Nat) : State :=
  let s1 := s.setRegWord .PNC_LOAD_DATA 0 w v (2 ^ 64 - 1)
  let i := s.rd F.PNC_LOAD_ADDR.STATE
  if w = 0 then s1
  else if s.pncFree true i then
    (s1.putStateWord i (BitVec.ofNat 128 (s1.reg .PNC_LOAD_DATA 0).toNat)).wr F.PNC_LOAD_ADDR.STATE 0 (i + 1)
  else s1.wr F.PNC_STATUS.WRITE_ERR 0 1

/-- PNC_BUDGET (R256): the budget is brought up to now first. -/
def State.budgetWrite (s : State) (v : Nat) : State :=
  let s1 := s.settleBudget.store .PNC_BUDGET 0 0 v
  s1.wr F.PNC_BUDGET.RATE 0 (min (s1.rd F.PNC_BUDGET.RATE) s1.pncRateMax)

/-- R310: a class whose BAND changes joins the new band at its virtual time. -/
def State.voqClassWrite (s : State) (c v : Nat) : State :=
  let s1 := s.store .SCH_VOQ_CLASS c 0 v
  let band := s1.rd F.SCH_VOQ_CLASS.BAND c
  if band = s.rd F.SCH_VOQ_CLASS.BAND c then s1
  else s1.withSched { s1.sched with
    classTag := Sparse.write 0 s1.sched.classTag c (Sparse.read 0 s1.sched.bandV band) }

/-- SCH_PNODE_SHAPER(n): both words are applied when word 1 is written (R315). -/
def State.nodeShaperWrite (s : State) (n w v : Nat) : State :=
  let s1 := s.setRegWord .SCH_PNODE_SHAPER n w v (2 ^ 64 - 1)
  if w = 0 then s1
  else
    let rec_ := shStore (s1.reg .SCH_PNODE_SHAPER n).toNat
    let s2 := s1.setReg .SCH_PNODE_SHAPER n (BitVec.ofNat 320 rec_.toNat)
    (s2.withSched { s2.sched with portShaper := Sparse.write 0 s2.sched.portShaper n rec_ })

/-- R326: a write of SCH_ACC_CMD or SCH_ACC_DATA. -/
def State.accWrite (s : State) (r : Reg) (i v : Nat) : State :=
  if s.on F.SCH_ACC_STATUS.BUSY then s.wr F.SCH_ACC_STATUS.OVERRUN 0 1
  else
    let s1 := s.store r i 0 v
    if r = .SCH_ACC_CMD then s1.accStart else s1

/-- HST_RING_CFG(k) (R494): BASE, SIZE_LOG2 and BUF_SIZE are locked while EN is 1. -/
def State.ringCfgWrite (s : State) (k w v : Nat) : State :=
  let new := s.merged .HST_RING_CFG k w v
  let locked (x : Nat) : Nat := bitsOf x 0 68 + bitsOf x 80 16 * 2 ^ 68
  if s.on F.HST_RING_CFG.EN k ∧ locked new ≠ locked (s.reg .HST_RING_CFG k).toNat then s.hostError F.HST_ERR_STATUS.BAD_ACCESS
  else
    let s1 := s.setReg .HST_RING_CFG k (BitVec.ofNat 320 new)
    if w = 0 then s1 else if v.testBit 8 then s1.ringEnable k else s1.ringDisable k

/-- R462: a write of an anchor set. -/
def State.anchorWrite (s : State) (a w v : Nat) : State :=
  if a = s.anchor ∨ s.on F.TIM_STATUS.ARMED ∨ s.rd F.TIM_CFG.SRC = 1 then s.wr F.TIM_STATUS.CFG_ERR 0 1
  else s.store .TIM_ANCHOR a w v

/-- TIM_PPS_CFG (R482). -/
def State.ppsWrite (s : State) (v : Nat) : State :=
  let s1 := s.store .TIM_PPS_CFG 0 0 v
  if s1.on F.TIM_PPS_CFG.OUT_EN ∧ !s.on F.TIM_PPS_CFG.OUT_EN then s1.ppsSync else s1

/-- TLY_TRACE_CFG (R526): EN written 1 seeds the LFSR of every quad; a SEED of 0 has one drawn at random, which is not 0. -/
def State.traceCfgWrite (s : State) (v : Nat) : State :=
  let s1 := s.store .TLY_TRACE_CFG 0 0 v
  if !v.testBit 0 then s1
  else
    let given := s1.rd F.TLY_TRACE_CFG.SEED
    let seed := if given = 0 then s1.freeVal % (2 ^ 32 - 1) + 1 else given
    let s2 := if given = 0 then s1.freeDraw else s1
    s2.withTally { s2.tally with
      traceLfsr := (List.range 4).foldl (fun m q => Sparse.write 0 m q (BitVec.ofNat 32 (seed ^^^ q))) s2.tally.traceLfsr }

/-- LOOM_ONU_CMD(n): OP written while BUSY is 1 is OVERRUN. -/
def State.onuCmdWrite (s : State) (n v : Nat) : State :=
  let op := bitsOf v 8 3
  if s.on F.LOOM_ONU_CMD_STATUS.BUSY n then (if op = 0 then s else s.wr F.LOOM_ONU_CMD_STATUS.CODE n 3)
  else (s.store .LOOM_ONU_CMD n 0 v).onuCmdStart n op

/-- LOOM_KEY_CMD and LOOM_KEY_DATA (R445): discarded while BUSY is 1; the key waits in LOOM_KEY_DATA, which reads as 0. -/
def State.keyRegWrite (s : State) (r : Reg) (w v : Nat) : State :=
  if s.on F.LOOM_KEY_STATUS.BUSY then s
  else if r = .LOOM_KEY_DATA then s.setRegWord r 0 w v (2 ^ 64 - 1)
  else (s.setRegWord r 0 0 v 0x1FFFFF).keyStart

/-- LOOM_PROBE(n) (R456, R457). -/
def State.probeWrite (s : State) (n v : Nat) : State :=
  let s1 := s.store .LOOM_PROBE n 0 v
  if v.testBit 16 && s1.treeEn n then s1.probeGo n else s1

/-- LOOM_SNDIS(k) (R420). -/
def State.sndisWrite (s : State) (k w v : Nat) : State :=
  let s1 := if w = 1 && s.on F.LOOM_SNDIS.EN k && !v.testBit 0 then s.sndisClear k else s
  s1.store .LOOM_SNDIS k w v

/-- PAL_AUDIT_CTRL (R294). -/
def State.auditWrite (s : State) (v : Nat) : State :=
  let s1 := s.store .PAL_AUDIT_CTRL 0 0 v
  let s2 := if s1.rd F.PAL_AUDIT_CTRL.PERIOD = s.rd F.PAL_AUDIT_CTRL.PERIOD then s1
    else s1.withPalette { s1.palette with auditAt := s1.now }
  let s3 := if v.testBit 0 then s2.auditSweep else s2
  if v.testBit 1 then (s3.withPalette { s3.palette with audit := s3.palette.audit.drop 1 }).showAudit else s3

/-! ### The mailbox's start (R569) -/

/-- R570: an operation code of the command table, and one marked for recovery. -/
def mboxKnown (op : Nat) : Bool := decide (1 ≤ op) && decide (op ≤ 0x13)
def mboxRecovery (op : Nat) : Bool := [0x01, 0x02, 0x03, 0x04, 0x05, 0x11, 0x13].contains op

/-- Bits 63:32 of EAS_MBOX_CMD word 0 are written: the command runs, or is none that may. -/
def State.mboxStart (s : State) : State :=
  let op := s.rd F.EAS_MBOX_CMD.OP
  if !mboxKnown op || (s.rd F.EAS_BOOT_STATUS.STATE == 4 && !mboxRecovery op) then s.mboxDone 1 0
  else s.wr F.EAS_MBOX_STATUS.BUSY 0 1

/-- EAS_MBOX_CMD (R569): discarded while BUSY is 1. -/
def State.mboxWrite (s : State) (w v : Nat) : State :=
  if s.on F.EAS_MBOX_STATUS.BUSY then s
  else
    let s1 := s.store .EAS_MBOX_CMD 0 w v
    if w = 0 then s1.mboxStart else s1

/-! ### One landed write -/

/-- FLX_CLIENT_CFG: the client IDs 0x0000 and 0xFFFF are refused: EN stays 0 with either (assumption 102). -/
def clientWord (v : Nat) : Nat := if bitsOf v 16 16 = 0 ∨ bitsOf v 16 16 = 0xFFFF then v / 2 * 2 else v

/-- FLX_CLIENT_CFG(c): a frame being received keeps the configuration (R94); the client's link follows the new one (R119). -/
def State.clientCfgWrite (s : State) (c w v : Nat) : State :=
  ((s.holdCfg (112 + c) (s.reg .FLX_CLIENT_CFG c)).store .FLX_CLIENT_CFG c w (clientWord v)).refreshClients

/-- R98, R322, R615: the MAC of Ethernet port `p` is transmitting a frame: one that stands ready in its FIFO, of a node in service, starts at
once. -/
def State.portSending (s : State) (p : Nat) : Bool :=
  match s.nodeFor 0 p with
  | none => false
  | some n => s.nodeState n == 1 && !s.macStopped n &&
      (match s.nextFrame n with
        | some (_, q) => (match q.launch with | some f => q.late || decide (f ≤ s.now) | none => true)
        | none => false)

/-- A write of `v` to word `w` of entry `i` of a register has landed: both halves of a 64-bit word together (R16). -/
def State.writeWord (s : State) (r : Reg) (i w v : Nat) : State :=
  match r with
  | .ETH_OCTET_CFG => if s.on F.ETH_OCTET_CFG.LOCKED i ∨ (6 ≤ i ∧ v.testBit 0) then s else s.store r i w v
  | .ETH_PORT_CFG => s.portCfgWrite i v (s.portSending i)
  | .FLX_INST_CFG => s.instCfgWrite i v
  | .FLX_CAL => s.calWrite (i / 640) (i / 320 % 2) (i % 320) v
  | .FLX_GRP_CFG => (s.store r i w v).refreshClients
  | .FLX_CLIENT_CFG => s.clientCfgWrite i w v
  | .SKT_PROG => s.sktWrite r i w v
  | .SKT_PROFILE => s.sktWrite r i w v
  | .SKT_PORT_PROFILE => s.sktWrite r i w v
  | .GLZ_PORT_PIPE => if s.portOn i then s.wr F.GLZ_COAT_STATUS.CMD_ERR 0 1 else s.store r i w v
  | .GLZ_EGR_PIPE => if s.nodeState i ≠ 0 then s.wr F.GLZ_COAT_STATUS.CMD_ERR 0 1 else s.store r i w v
  | .GLZ_ACT => s.glzWrite r i w v
  | .GLZ_EPROF => s.glzWrite r i w v
  | .GLZ_TPL => s.glzWrite r i w v
  | .GLZ_TPL_EXT => s.glzWrite r i w v
  | .GLZ_HASH => s.glzWrite r i w v
  | .GLZ_HASH_KEY => s.glzWrite r i w v
  | .GLZ_HASH_EXT => s.glzWrite r i w v
  | .GLZ_COAT_ID => s.glzWrite r i w v
  | .GLZ_COAT_CTRL =>
    match v % 4 with
    | 1 => s.swapNow
    | 2 => s.swapArm
    | 3 => s.swapCancel
    | _ => s
  | .TBL_DESC =>
    if w = 0 then
      (if s.bankWritable (r.bankOf i) then s.descWord0 i v else s.wr F.GLZ_COAT_STATUS.CMD_ERR 0 1)
    else s.glzWrite r i w v
  | .STN_BANK_CFG => s.bankWidthWrite i v
  | .TBL_AG_CMD => s.agentWrite r i i w v
  | .TBL_AG_STATUS => s.agentWrite r i i w v
  | .TBL_AG_META => s.agentWrite r i i w v
  | .TBL_AG_KEY => s.agentWrite r i i w v
  | .TBL_AG_MASK => s.agentWrite r i i w v
  | .TBL_AG_DATA => s.agentWrite r (i / 32) i w v
  | .PNC_SET => s.pncWrite r i w v
  | .PNC_RES => s.pncWrite r i w v
  | .PNC_LKEY => s.pncWrite r i w v
  | .PNC_LOAD_DATA => s.loadWrite w v
  | .PNC_BUDGET => s.budgetWrite v
  | .PAL_AUDIT_CTRL => s.auditWrite v
  | .PAL_SW_CMD => if s.on F.PAL_SW_RESULT.BUSY then s else (s.store r i w v).swStart
  | .SCH_ACC_CMD => s.accWrite r i v
  | .SCH_ACC_DATA => s.accWrite r i v
  | .SCH_VOQ_CLASS => s.voqClassWrite i v
  | .SCH_PNODE_CFG => s.nodeCfgWrite i v
  | .SCH_PNODE_SHAPER => s.nodeShaperWrite i w v
  | .DMC_TEMP => (s.store r i w v).tempWrite (v % 256)
  | .DMC_FREQ_CTRL =>
    let s1 := s.store r i w v
    if v.testBit 2 then s1.freqGo else s1
  | .DMC_ERR_POP =>
    if v.testBit 0 then (s.withDram { s.dram with log := s.dram.log.drop 1 }).showErrLog else s
  | .FAB_LANE_EN => s.laneEnWrite i v
  | .LOOM_TREE_CFG => s.treeCfgWrite i v
  | .LOOM_OPT_CFG => s.optCfgWrite i v
  | .LOOM_ONU_CMD => s.onuCmdWrite i v
  | .LOOM_SNDIS => s.sndisWrite i w v
  | .LOOM_ONU => s.onuWrite i w v
  | .LOOM_PROFILE => s.profileWrite i w v
  | .LOOM_PROBE => s.probeWrite i v
  | .LOOM_KEY_CMD => s.keyRegWrite r w v
  | .LOOM_KEY_DATA => s.keyRegWrite r w v
  | .LOOM_ALLOC => s.allocWrite i w v
  | .LOOM_GEM => s.gemWrite i w v
  | .TIM_ANCHOR => s.anchorWrite i w v
  | .TIM_ANCHOR_CTRL =>
    match v % 4 with
    | 1 => s.anchorArm
    | 2 => s.anchorCancel
    | _ => s
  | .TIM_TXTS_POP => if s.time.txts ≠ [] ∧ v.testBit 0 then s.txtsPop else s
  | .TIM_PPS_CFG => s.ppsWrite v
  | .EVC_MASK => s.evcMaskWrite i v
  | .EVC_PENDING => s.evcPendingWrite i v
  | .EVC_RESCAN => s.rescan (v % 256)
  | .EVC_COMPLETE => s.evcComplete i (v % 256)
  | .HST_RING_CFG => s.ringCfgWrite i w v
  | .TLY_CNT_ACC => (s.store r i w v).cntAccess
  | .TLY_FREEZE => (s.store r i w v).freezeCmd (v % 4)
  | .TLY_TRACE_CFG => s.traceCfgWrite v
  | .TLY_ISAMP_CFG =>
    let s1 := s.store r i w v
    if v.testBit 1 then s1.resetRegs [.TLY_ISAMP_HIST] else s1
  | .EAS_MBOX_CMD => s.mboxWrite w v
  | .EMV_CTRL => if v.testBit 0 then s.emvRevert else s
  | .EMV_MAP_CTRL =>
    let s1 := s.store r i w v
    if v.testBit 11 then s1.mapRemove (v % 2048) else s1
  | .EMV_COMMIT_CTRL =>
    let s1 := s.store r i w v
    if w = 0 ∧ v.testBit 16 then s1.commitGo else s1
  | r => s.store r i w v

/-! ### Reads -/

/-- µs since an FRC value, saturating at all ones; all ones where there is none. -/
def State.usSince (s : State) (t : Option Nat) : Nat :=
  match t with
  | none => 0xFFFFFFFF
  | some t => min 0xFFFFFFFF ((s.now - t) / us 1)

/-- Entry `i` of a register as a read sees it: a field that follows something else as it stands now, and a counter under a freeze as it
stood (R520). -/
def State.viewReg (s : State) (r : Reg) (i : Nat) : Nat :=
  let v := (s.reg r i).toNat
  match r with
  | .TIM_NOW =>
    let l := s.localNow
    s.nowNs + s.now % 65536 * 2 ^ 64 + l % 65536 * 2 ^ 80 + s.anchor * 2 ^ 96 + l / 65536 * 2 ^ 128
  | .GLZ_POL =>
    let level : Int := match Sparse.read none s.policers i with
      | none => (s.rd F.GLZ_POL.BURST i : Int)
      | some b => b.level
    F.GLZ_POL.LEVEL.set v (level % 2 ^ 32).toNat
  | .GLZ_COAT_INFLIGHT => s.inflight (i == 1)
  | .SCH_PNODE_STATUS =>
    let n := s.portNode i
    let left := if s.nodeState i = 2 then (Sparse.read 0 s.sched.holdEnd i - s.now) / us 1 else 0
    F.SCH_PNODE_STATUS.MIN_LEVEL.set (F.SCH_PNODE_STATUS.LEVEL.set (F.SCH_PNODE_STATUS.HOLD_LEFT.set v left)
      (n.level % 2 ^ 32).toNat) (n.minLevel % 2 ^ 32).toNat
  | .ETH_RAW => if 2048 ≤ i ∧ i % 16 = 5 then (v + s.faultTime (i / 16 - 128)) % 2 ^ 64 else v
  | .LOOM_PHASE => F.LOOM_PHASE.AGE_US.set v (s.usSince (s.onu i).lockedAt)
  | .EVC_ACTIVE => s.activeView i
  | .EMV_LANE_STATUS => F.EMV_LANE_STATUS.LAST_RX.set v (s.usSince (s.emvLane i).heardAt)
  | .FAB_LANE_STATUS =>
    if s.tally.frozenPairs.isNone then v
    else F.FAB_LANE_STATUS.DOWN_CNT.set v
      (F.FAB_LANE_STATUS.DOWN_CNT.of (Sparse.read (r.resetAt i) s.tally.frozenRegs (r.key i)).toNat)
  | r =>
    if s.tally.frozenPairs.isSome && freezeRegs.contains r then
      (Sparse.read (r.resetAt i) s.tally.frozenRegs (r.key i)).toNat
    else v

/-- R17, R520: the bits `m` of word `w` of an entry have been read: its RC fields among them are cleared. Of a frozen counter the frozen
value goes, and what has been counted since stays. -/
def State.readClear (s : State) (r : Reg) (i w m : Nat) : State :=
  let rc := Nat.land (bitsOf r.info.rc (64 * w) r.unit) m
  if rc = 0 then s
  else if r = .FAB_LANE_STATUS ∧ s.tally.frozenPairs.isSome then
    let f := (Sparse.read (r.resetAt i) s.tally.frozenRegs (r.key i)).toNat
    let s1 := s.wr F.FAB_LANE_STATUS.DOWN_CNT i (s.rd F.FAB_LANE_STATUS.DOWN_CNT i - F.FAB_LANE_STATUS.DOWN_CNT.of f)
    s1.withTally { s1.tally with
      frozenRegs := Sparse.write (r.resetAt i) s1.tally.frozenRegs (r.key i)
        (BitVec.ofNat 320 (F.FAB_LANE_STATUS.DOWN_CNT.set f 0)) }
  else
    let old := (s.reg r i).toNat
    s.setReg r i (BitVec.ofNat 320 (setBits old (64 * w) r.unit (andNot (bitsOf old (64 * w) r.unit) rc)))

/-- The registers a read of whose word 0 latches their later words (R477, R481, and the maps of TIM_NOW and EAS_PWR_TELEM). -/
def latching (r : Reg) : Bool := [Reg.TIM_NOW, .TIM_TXTS_HEAD, .TIM_PON_SFC, .EAS_PWR_TELEM].contains r

/-- Word `w` of entry `i` of a register, whose place is `a`, is read, its bits `m`; WO fields read as 0 (R17). -/
def State.readWord (s : State) (r : Reg) (i w a m : Nat) : State × Nat :=
  let v := s.viewReg r i
  let live := Nat.land (andNot (bitsOf v (64 * w) r.unit) (bitsOf r.info.wo (64 * w) r.unit)) m
  if !latching r then (s.readClear r i w m, live)
  else if w = 0 then
    let later := (BitVec.ofNat 64 (bitsOf v 64 64), BitVec.ofNat 64 (bitsOf v 128 64))
    ((s.withHost { s.host with wordLatch := Sparse.write none s.host.wordLatch a (some later) }), live)
  else
    match Sparse.read none s.host.wordLatch (a - 8 * w) with
    | none => (s, live)
    | some (x, y) => (s, Nat.land (if w = 1 then x.toNat else y.toNat) m)

/-- EAS_MBOX_BUF. -/
def inMbox (a : Nat) : Bool := decide (0x10000 ≤ a) && decide (a < 0x20000)

/-- The MSI-X table and the pending-bit array (R485). -/
def inMsix (a : Nat) : Bool := decide (0x300000 ≤ a) && decide (a < 0x300400)
def inPba (a : Nat) : Bool := decide (0x301000 ≤ a) && decide (a < 0x301008)

/-- A 32-bit read of BAR0, past the gates of `hostRead`. -/
def State.read32 (s : State) (a : Nat) : State × Nat :=
  if inMbox a then (s, Sparse.readLE s.easel.mbox (a - 0x10000) 4)
  else if inMsix a then (s, (s.msixWord ((a - 0x300000) / 4)).toNat)
  else if inPba a then (s, bitsOf s.pbaView (8 * (a - 0x301000)) 32)
  else
    match Reg.find a with
    | none => (s, 0)
    | some (r, i, o) =>
      if r.info.width = 32 then s.readWord r i 0 a (2 ^ 32 - 1)
      else if o % 8 = 0 then
        -- R15: the low word is read, and the high word latched
        let (s1, v) := s.readWord r i (o / 8) a (2 ^ 64 - 1)
        ((s1.withHost { s1.host with
          readLatch := Sparse.write none s1.host.readLatch (a + 4) (some (BitVec.ofNat 32 (v / 2 ^ 32))) }), v % 2 ^ 32)
      else
        match Sparse.read none s.host.readLatch a with
        | some h => ((s.withHost { s.host with readLatch := Sparse.write none s.host.readLatch a none }), h.toNat)
        | none =>
          let (s1, v) := s.readWord r i (o / 8) (a - 4) (2 ^ 64 - 2 ^ 32)
          (s1, v / 2 ^ 32)

/-- A 64-bit read of two 32-bit places. -/
def State.readHalves (s : State) (a : Nat) : State × Nat :=
  let lo := s.read32 a
  let hi := lo.1.read32 (a + 4)
  (hi.1, lo.2 + hi.2 * 2 ^ 32)

/-- A 64-bit read of BAR0, past the gates of `hostRead`. -/
def State.read64 (s : State) (a : Nat) : State × Nat :=
  if inMbox a || inMsix a || inPba a then s.readHalves a
  else
    match Reg.find a with
    | some (r, i, o) => if r.info.width = 32 then s.readHalves a else s.readWord r i (o / 8) a (2 ^ 64 - 1)
    | none => s.readHalves a

/-- What a 32-bit write of the low word of a register becomes where the access in progress makes its chapter discard it (R230, R326, R445,
R569, R616): it is not held for the high word. -/
def State.busyWrite (s : State) (r : Reg) (i : Nat) : Option State :=
  let agent (a : Nat) : Option State := if s.on F.TBL_AG_STATUS.BUSY a then some (s.wr F.TBL_AG_STATUS.OVERRUN a 1) else none
  match r with
  | .TBL_AG_CMD => agent i
  | .TBL_AG_META => agent i
  | .TBL_AG_KEY => agent i
  | .TBL_AG_MASK => agent i
  | .TBL_AG_DATA => agent (i / 32)
  | .PAL_SW_CMD => if s.on F.PAL_SW_RESULT.BUSY then some s else none
  | .SCH_ACC_CMD => if s.on F.SCH_ACC_STATUS.BUSY then some (s.wr F.SCH_ACC_STATUS.OVERRUN 0 1) else none
  | .SCH_ACC_DATA => if s.on F.SCH_ACC_STATUS.BUSY then some (s.wr F.SCH_ACC_STATUS.OVERRUN 0 1) else none
  | .LOOM_KEY_CMD => if s.on F.LOOM_KEY_STATUS.BUSY then some s else none
  | .LOOM_KEY_DATA => if s.on F.LOOM_KEY_STATUS.BUSY then some s else none
  | .EAS_MBOX_CMD => if s.on F.EAS_MBOX_STATUS.BUSY then some s else none
  | .TLY_CNT_ACC => if s.on F.TLY_CNT_ACC.BUSY then some s else none
  | _ => none

/-- A 32-bit write of BAR0, past the gates of `hostWrite`. -/
def State.write32 (s : State) (a v : Nat) : State :=
  if inMbox a then
    if s.on F.EAS_MBOX_STATUS.BUSY then s
    else s.withEasel { s.easel with mbox := Sparse.writeLE s.easel.mbox (a - 0x10000) 4 v }
  else if inMsix a then s.setMsixWord ((a - 0x300000) / 4) (BitVec.ofNat 32 v)
  else
    match Reg.find a with
    | none => s
    | some (r, i, o) =>
      if r.info.width = 32 then s.writeWord r i 0 v
      else if o % 8 = 0 then
        -- R16: the low word is held
        (match s.busyWrite r i with
        | some s1 => s1
        | none => s.withHost { s.host with writeHold := Sparse.write none s.host.writeHold a (some (BitVec.ofNat 32 v)) })
      else
        let low := match Sparse.read none s.host.writeHold (a - 4) with
          | some l => l.toNat
          | none => bitsOf (s.reg r i).toNat (8 * o - 32) 32
        let s1 := s.withHost { s.host with writeHold := Sparse.write none s.host.writeHold (a - 4) none }
        s1.writeWord r i (o / 8) (low + v * 2 ^ 32)

/-- A 64-bit write of BAR0, past the gates of `hostWrite`. -/
def State.write64 (s : State) (a v : Nat) : State :=
  let two (s : State) : State := (s.write32 a (v % 2 ^ 32)).write32 (a + 4) (v / 2 ^ 32)
  if inMbox a || inMsix a then two s
  else
    match Reg.find a with
    | some (r, i, o) =>
      if r.info.width = 32 then two s
      else
        let s1 := s.withHost { s.host with writeHold := Sparse.write none s.host.writeHold a none }
        s1.writeWord r i (o / 8) v
    | none => two s

/-! ### The gates (R13, R14, R53 to R56, R553) -/

/-- R13: a naturally aligned access of 32 or 64 bits; the width in octets. -/
def goodAccess (addr width : Nat) : Bool := (width == 4 || width == 8) && addr % width == 0

/-- The Reset column of the word at an address (R553). -/
def resetWord (a : Nat) : Nat :=
  match Reg.find a with
  | some (r, i, o) => bitsOf (andNot (r.resetAt i).toNat r.info.wo) (8 * o) 32
  | none => 0

/-- A write into the configuration space: what the model keeps of it, the enables of MSI-X and of PME (assumption 33). -/
def State.cfgWrite (s : State) (addr v : Nat) : State :=
  let b := v.testBit 0
  match addr with
  | 0 => (s.withHost { s.host with msixEnable := b }).sendAll
  | 4 => (s.withHost { s.host with functionMask := b }).sendAll
  | 8 => s.withHost { s.host with pmeEn := b }
  | 12 => if b then (s.withHost { s.host with pmeStatus := false }) else s
  | _ => s

/-- What a read of the configuration space shows (assumption 33). -/
def State.cfgView (s : State) (addr : Nat) : Nat :=
  let b := match addr with
    | 0 => s.host.msixEnable
    | 4 => s.host.functionMask
    | 8 => s.host.pmeEn
    | 12 => s.host.pmeStatus
    | _ => false
  if b then 1 else 0

/-- The BARs and the configuration space, as an access names them. -/
def bar0 : Nat := 0
def bar2 : Nat := 1
def cfgSpace : Nat := 2

/-- A host write of `width` octets (R13 to R20, R55, R56, R489, R553). -/
def State.hostWrite (s : State) (space addr width v : Nat) : State :=
  if s.host.asleep || s.inReset then s
  else if space = cfgSpace then s.cfgWrite addr v
  else if !goodAccess addr width then s.hostError F.HST_ERR_STATUS.BAD_ACCESS
  else if space = bar2 then
    (if width = 8 then (if addr % 4096 = 0 then s.doorbell (addr / 4096) 2 v else s)
      else if addr % 4096 = 0 then s.doorbell (addr / 4096) 0 v
      else if addr % 4096 = 4 then s.doorbell (addr / 4096) 1 v
      else s)
  else if s.gateBoot addr then s.hostError F.HST_ERR_STATUS.BAD_ACCESS
  else if s.gateSeam addr then s.hostError F.HST_ERR_STATUS.SEAM_DOWN
  else if width = 8 then s.write64 addr v
  else s.write32 addr (v % 2 ^ 32)

/-- A host read of `width` octets, and what it returns. -/
def State.hostRead (s : State) (space addr width : Nat) : State × Nat :=
  let ones := if width ≤ 4 then 2 ^ 32 - 1 else 2 ^ 64 - 1
  if s.host.asleep || s.inReset then (s, ones)
  else if space = cfgSpace then (s, s.cfgView addr)
  else if !goodAccess addr width then (s.hostError F.HST_ERR_STATUS.BAD_ACCESS, ones)
  else if space = bar2 then
    let v := if addr / 4096 < 67 ∧ addr % 4096 < 8 then s.doorbellView (addr / 4096) else 0
    (s, if width = 8 then v else bitsOf v (8 * (addr % 8)) 32)
  else if s.gateBoot addr then (s, resetWord addr + (if width = 8 then resetWord (addr + 4) * 2 ^ 32 else 0))
  else if s.gateSeam addr then (s.hostError F.HST_ERR_STATUS.SEAM_DOWN, ones)
  else if width = 8 then s.read64 addr
  else s.read32 addr

/-- A host read leaves what it returned in `readData`. -/
def State.reads (s : State) (space addr width : Nat) : State :=
  let (s1, v) := s.hostRead space addr width
  (s1.withHost { s1.host with readData := BitVec.ofNat 64 v })

/-! ### The commands -/

/-- REGISTER_WRITE (R17, R55): a host write of `width` octets. -/
def execRegisterWrite (space addr width data : Nat) (s : State) : Result := .next (s.hostWrite space addr width data)

/-- BAD_REGISTER_ACCESS (R14, R56, R553): an access that no register takes, a write or a read. -/
def execBadRegisterAccess (write : Bool) (space addr width data : Nat) (s : State) : Result :=
  .next (if write then s.hostWrite space addr width data else s.reads space addr width)

/-- READ_64_LOW_WORD (R15): a 32-bit read of BAR0. -/
def execRead64LowWord (addr : Nat) (s : State) : Result := .next (s.reads bar0 addr 4)

/-- WRITE_64_LOW_WORD (R16): a 32-bit write of BAR0. -/
def execWrite64LowWord (addr data : Nat) (s : State) : Result := .next (s.hostWrite bar0 addr 4 data)

/-- READ_CLEAR_FIELD (R17): a read of `width` octets. -/
def execReadClearField (space addr width : Nat) (s : State) : Result := .next (s.reads space addr width)

/-- LATCHING_READ (R477, R481): a read of BAR0. -/
def execLatchingRead (addr width : Nat) (s : State) : Result := .next (s.reads bar0 addr width)

end Sys2Proof.Machine
end

