-- ==== Sys2Proof/Machine/Image.lean ====
section
/-!
DEFINITION. The flash, its boot records and log, the Ground image and its verification (R531 to R549).
-/
namespace Sys2Proof.Machine

/-! ### The flash (R532) -/

/-- Octets of the flash from an address on; one never written reads as 0xFF (assumption 25). -/
def State.flash (s : State) (a n : Nat) : List Byte :=
  (List.range n).map (fun i => Sparse.read 0xFF s.easel.flash (a + i))

/-- A number in network order. -/
def State.flashBE (s : State) (a n : Nat) : Nat := natBE (s.flash a n)

/-- Store octets in the flash. -/
def flashPut (m : Sparse Byte) (a : Nat) : List Byte → Sparse Byte
  | [] => m
  | b :: bs => flashPut (Sparse.write 0xFF m a b) (a + 1) bs

/-- Replace the flash. -/
def State.setFlash (s : State) (m : Sparse Byte) : State := s.withEasel { s.easel with flash := m }

/-- The octets of a write that has not been completed are open (assumption 6). -/
def State.flashSpoil (s : State) (a n : Nat) : State :=
  let bs := (List.range n).map (fun i => BitVec.ofNat 8 (Config.freeValue (s.freeCtr + i)))
  (s.setFlash (flashPut s.easel.flash a bs)).freeDraws n

/-- One step of the CRC-32 of IEEE 802.3, least significant bit first. -/
def crc32Bit (c : Nat) : Nat := if c % 2 = 1 then Nat.xor (c / 2) 0xEDB88320 else c / 2

/-- The CRC-32 of IEEE 802.3. -/
def crc32 (bs : List Byte) : Nat :=
  let step (c : Nat) (b : Byte) : Nat := (List.range 8).foldl (fun c _ => crc32Bit c) (Nat.xor c b.toNat)
  Nat.xor (bs.foldl step 0xFFFFFFFF) 0xFFFFFFFF

/-! ### Boot records (R533, R534) -/

/-- What a boot record says: SEQ, PRIMARY, TRIAL and TRIED. -/
structure BootRecord where
  seq : Nat
  primary : Nat
  trial : Bool
  tried : Bool
  deriving DecidableEq, Repr

/-- The address of copy `k`. -/
def bootAt (k : Nat) : Nat := 0x80000 * k

/-- Copy `k`, if it is valid. -/
def State.bootCopy (s : State) (k : Nat) : Option BootRecord :=
  let b := s.flash (bootAt k) 64
  let n (off len : Nat) : Nat := natBE ((b.drop off).take len)
  if n 0 4 = 0x5A584252 ∧ n 60 4 = crc32 (b.take 60) then
    some ⟨n 4 4, n 8 1, (n 9 1).testBit 0, (n 9 1).testBit 1⟩
  else none

/-- SEQ `a` is newer than SEQ `b`, modulo 2^32. -/
def newerSeq (a b : Nat) : Bool :=
  let d := (a + 2 ^ 32 - b) % 2 ^ 32
  d != 0 && decide (d < 2 ^ 31)

/-- The copy in force: the valid one with the newer SEQ. -/
def State.bootCurrent (s : State) : Option (Nat × BootRecord) :=
  match s.bootCopy 0, s.bootCopy 1 with
  | some a, some b => if newerSeq b.seq a.seq then some (1, b) else some (0, a)
  | some a, none => some (0, a)
  | none, some b => some (1, b)
  | none, none => none

/-- The boot record in force; where there is none, PRIMARY A and TRIAL 0. -/
def State.bootRecord (s : State) : BootRecord :=
  match s.bootCurrent with
  | some (_, r) => r
  | none => ⟨0, 0, false, false⟩

/-- The 64 octets of a record. -/
def BootRecord.octets (r : BootRecord) : List Byte :=
  let head := padTo 60 (octetsBE 4 0x5A584252 ++ octetsBE 4 r.seq ++ octetsBE 1 r.primary ++
    octetsBE 1 ((if r.trial then 1 else 0) + (if r.tried then 2 else 0)))
  head ++ octetsBE 4 (crc32 head)

/-- R534: a new record goes into an invalid copy or into the one whose SEQ is older, with SEQ one more. -/
def State.writeBoot (s : State) (primary : Nat) (trial tried : Bool) : State :=
  let place := match s.bootCurrent with
    | some (k, _) => 1 - k
    | none => 0
  s.setFlash (flashPut s.easel.flash (bootAt place)
    (BootRecord.octets ⟨(s.bootRecord.seq + 1) % 2 ^ 32, primary, trial, tried⟩))

/-! ### The log (R570) -/

/-- Easel writes its next log record; the region is circular (R532). -/
def State.logWrite (s : State) : State :=
  let n := s.easel.logSeq
  let head := octetsBE 4 n ++ padTo 4 (Config.logFields n) ++ octetsBE 8 s.nowNs ++
    padTo 44 ((Config.logFields n).drop 4)
  let s1 := s.setFlash (flashPut s.easel.flash (0x3200000 + 64 * (n % 229376)) (head ++ octetsBE 4 (crc32 head)))
  (s1.withEasel { s1.easel with logSeq := n + 1 })

/-! ### The Ground image (R535 to R537) -/

/-- The address of a slot: 0 A, 1 B. -/
def slotAt (k : Nat) : Nat := 0x100000 + 0x1800000 * k

/-- A field of the header. -/
def State.hdr (s : State) (k off n : Nat) : Nat := s.flashBE (slotAt k + off) n

/-- The sections of the table. -/
def State.sectionCount (s : State) (k : Nat) : Nat := s.hdr k 12 2

/-- An entry of the section table (R536). -/
structure Section where
  ty : Nat
  flags : Nat
  off : Nat
  len : Nat
  digest : Nat
  deriving DecidableEq, Repr

/-- Entry `i` of the section table. -/
def State.sectionAt (s : State) (k i : Nat) : Section :=
  let f (off n : Nat) : Nat := s.hdr k (256 + 64 * i + off) n
  ⟨f 0 2, f 2 2, f 4 4, f 8 4, f 32 32⟩

/-- The sections, in the order of the table. -/
def State.sections (s : State) (k : Nat) : List Section := (List.range (min 64 (s.sectionCount k))).map (s.sectionAt k)

/-- The sections of one type. -/
def State.sectionsOf (s : State) (k ty : Nat) : List Section := (s.sections k).filter (fun x => x.ty == ty)

/-- The octets of a section. -/
def State.sectionBytes (s : State) (k : Nat) (x : Section) : List Byte := s.flash (slotAt k + x.off) x.len

/-- The octets of a type's one section; none where the image has no such section. -/
def State.sectionOf (s : State) (k ty : Nat) : List Byte :=
  match s.sectionsOf k ty with
  | x :: _ => s.sectionBytes k x
  | [] => []

/-- R537: the types in the order in which they are applied. -/
def sectionOrder : List Nat := [1, 2, 7, 3, 4, 6, 5]

/-- R537: the most octets that the sections of a type may hold in all. -/
def sectionLimit (ty : Nat) : Nat :=
  match ty with
  | 1 => 4195328
  | 2 => 256
  | 7 => 65536
  | 3 => 8388608
  | 4 => 12582912
  | 6 => 263168
  | _ => 92274688

/-- Two sections overlap. -/
def Section.meets (x y : Section) : Bool := decide (x.off < y.off + y.len) && decide (y.off < x.off + x.len)

/-- The sections of a list that follow one another overlap nowhere. -/
def apart : List Section → Bool
  | [] => true
  | x :: xs => xs.all (fun y => !x.meets y) && apart xs

/-- R536, R537: the section table is valid; a CRITICAL section of unknown TYPE makes it invalid. -/
def State.tableOk (s : State) (k : Nat) : Bool :=
  let xs := s.sections k
  let n (ty : Nat) : Nat := (xs.filter (fun x => x.ty == ty)).length
  let room := s.hdr k 8 4 - 1024
  decide (1 ≤ s.sectionCount k) && decide (s.sectionCount k ≤ 64) &&
    xs.all (fun x => x.off % 256 == 0 && decide (256 + 64 * s.sectionCount k ≤ x.off) && decide (x.off + x.len ≤ room)) &&
    apart xs && n 1 == 1 && n 2 == 1 && decide (n 4 ≤ 1) && decide (n 6 ≤ 1) && decide (n 7 ≤ 1) &&
    xs.all (fun x => sectionOrder.contains x.ty || !x.flags.testBit 0) &&
    sectionOrder.all (fun ty => decide (((xs.filter (fun x => x.ty == ty)).map (·.len)).sum ≤ sectionLimit ty))

/-! ### Signatures (R542, R545) -/

/-- A signature block's KEY_SLOT, key (MODULUS and EXPONENT) and signature; none where MAGIC, SALT_LEN or EXPONENT do not hold. -/
def sigBlock (b : List Byte) : Option (Nat × List Byte × List Byte) :=
  let n (off len : Nat) : Nat := natBE ((b.drop off).take len)
  if n 0 4 = 0x5A585347 ∧ n 5 1 = 32 ∧ n 400 4 = 65537 then
    some (n 4 1, (b.drop 16).take 388, (b.drop 404).take 384)
  else none

/-- R545: the vendor signature at the front of a section holds. -/
def State.vendorOk (s : State) (b : List Byte) : Bool :=
  match sigBlock (b.take 1024) with
  | none => false
  | some (slot, key, sig) =>
    decide (slot < 2) && !(s.rd F.EAS_OTP_STATUS.VREVOKED).testBit slot &&
      Config.sha256 key == Config.vendorKeyHash slot &&
      Config.rsaVerify key (Config.sha256 (b.drop 1024)) sig

/-! ### DEVICE_CFG and SYSTEM (R538, R573) -/

/-- A field of DEVICE_CFG or of SYSTEM, in network order. -/
def cfgField (d : List Byte) (off n : Nat) : Nat := natBE (padTo n (d.drop off))

/-- The channels a code of DMC_CFG.CHANNELS stands for. -/
def channelsOf (code : Nat) : Nat := 8 + 4 * code

/-- R331: the capacity of a channel in bytes. -/
def capacity (d : List Byte) : Nat :=
  8 * 2 ^ 30 * (if cfgField d 5 1 = 0 then 2 else 1) * (if cfgField d 6 1 = 1 then 2 else 1) * (cfgField d 7 1 + 1)

/-- R337: the size of partition `i` on a channel, rounded up to 1 MiB. -/
def partNeed (d : List Byte) (i : Nat) : Nat :=
  let n := channelsOf (cfgField d 4 1)
  let pool := (cfgField d 12 4 * 1048576 + n - 1) / n
  let raw := match i with
    | 0 => pool * 256
    | 1 => pool * 8
    | 2 => (cfgField d 16 4 + n - 1) / n * 16
    | 3 => (32768 + n - 1) / n * 256
    | 4 => 4194304
    | _ => 1048576
  (raw + 1048575) / 1048576 * 1048576

/-- BASE and SIZE of partition `i`. -/
def partOf (d : List Byte) (i : Nat) : Nat × Nat := (cfgField d (24 + 16 * i) 8, cfgField d (32 + 16 * i) 8)

/-- R337: the partitions have room for what they hold, lie within the channel and do not overlap; training has the top 1 MiB. -/
def partsOk (d : List Byte) : Bool :=
  partOf d 5 == (capacity d - 1048576, 1048576) && (List.range 6).all (fun i =>
    let p := partOf d i
    decide (partNeed d i ≤ p.2) && decide (p.1 + p.2 ≤ capacity d) &&
      (List.range i).all (fun j => !runsMeet p (partOf d j)))

/-- R538: DEVICE_CFG is taken. -/
def deviceCfgOk (d : List Byte) : Bool :=
  decide (cfgField d 0 1 ≤ 1) && decide (cfgField d 1 1 ≤ 3) && decide (cfgField d 2 2 ≤ 2047) &&
    decide (cfgField d 4 1 ≤ 2) && decide (cfgField d 5 1 ≤ 1) && decide (cfgField d 6 1 ≤ 1) && decide (cfgField d 7 1 ≤ 1) &&
    decide (cfgField d 8 1 ≤ 3) && decide (cfgField d 9 1 ≤ 1) && decide (cfgField d 10 1 < 64) &&
    !(cfgField d 5 1 == 0 && cfgField d 7 1 == 1) && !(cfgField d 7 1 == 1 && cfgField d 8 1 == 3) &&
    decide (cfgField d 12 4 ≤ 256) && decide (cfgField d 16 4 ≤ 16777216) && partsOk d

/-- R573: SYSTEM is taken by a module with this MOD_ID. -/
def systemOk (modId : Nat) (y : List Byte) : Bool :=
  let b (i : Nat) : Nat := cfgField y i 1
  let kids := (List.range 16).map (fun i => cfgField y (32 + 2 * i) 2)
  decide (64 ≤ y.length) && decide (b 0 ≤ 3) && decide (b 1 ≤ 1) && decide (b 2 ≤ 7) && decide (b 3 ≤ 15) && decide (b 4 ≤ 15) &&
    modId == 256 * b 2 + 16 * b 3 + b 4 && !(b 0 == 0 && b 1 == 1) &&
    ((y.take 32).drop 6).all (· == 0) && (y.drop 64).all (· == 0) && !(b 0 == 0 && kids.any (· != 65535))

/-! ### Verification (R543, R544) -/

/-- R543 checks 1 to 6 of slot `k`: the reason of R544, 0 where all hold. -/
def State.headerReason (s : State) (k : Nat) : Nat :=
  let len := s.hdr k 8 4
  let block := s.flash (slotAt k + len - 1024) 1024
  let otp := s.rd F.EAS_OTP_STATUS.PROGRAMMED
  if s.hdr k 0 4 ≠ 0x5A584749 ∨ s.hdr k 4 2 ≠ 1 ∨ s.hdr k 6 2 ≠ 256 ∨ len % 256 ≠ 0 ∨ 25165824 < len then 1
  else if !s.tableOk k then 1
  else if s.hdr k 16 2 ≠ 0x6448 ∨ bitsOf (s.reg .EAS_DEVICE_ID 0).toNat 24 8 < s.hdr k 18 1 ∨
      !(s.hdr k 19 1).testBit (s.rd F.EAS_DEVICE_ID.GRADE) then 8
  else if s.hdr k 32 1 ≠ natBE ((block.drop 4).take 1) then 3
  else
    let slot := s.hdr k 32 1
    let key := (block.drop 16).take 388
    let keyOk := decide (slot < 4) && otp.testBit slot && !(s.rd F.EAS_OTP_STATUS.REVOKED).testBit slot &&
      Config.sha256 key == (Sparse.read 0 s.easel.keyHash slot).toNat
    if otp ≠ 0 ∧ !keyOk then 3
    else if s.hdr k 20 4 < s.rd F.EAS_OTP_STATUS.SEC_VERSION then 4
    else
      match sigBlock block with
      | none => 2
      | some (_, key, sig) =>
        if Config.rsaVerify key (Config.sha256 (s.flash (slotAt k) (256 + 64 * s.sectionCount k))) sig then 0 else 2

/-- The sectors of 64 KiB that `n` octets from `a` on lie in. -/
def sectorsOf (a n : Nat) : List Nat :=
  if n = 0 then [] else (List.range ((a + n - 1) / 65536 - a / 65536 + 1)).map (fun i => a / 65536 + i)

/-- R561: a sector of slot `k` holds the remains of a write that was aborted. -/
def State.slotBad (s : State) (k : Nat) : Bool :=
  s.easel.badSectors.any (fun i => decide (slotAt k ≤ i * 65536) && decide (i * 65536 < slotAt k + 0x1800000))

/-- The reason with which one section of slot `k` fails, 0 where it holds: its digest, and what its type asks. -/
def State.sectionReason (s : State) (k : Nat) (x : Section) : Nat :=
  let b := s.sectionBytes k x
  if Config.sha256 b ≠ x.digest ∨ s.slotBad k then 5
  else if (x.ty = 1 ∨ x.ty = 6) ∧ !s.vendorOk b then 6
  else if x.ty = 2 ∧ !deviceCfgOk b then 7
  else if x.ty = 7 ∧ !systemOk (cfgField (s.sectionOf k 2) 2 2) b then 7
  else 0

/-- The reason with which slot `k` fails at checks 1 to 6 or at its sections of the types `tys`, read in the order of R537; 0 where
nothing fails. -/
def State.slotReason (s : State) (k : Nat) (tys : List Nat) : Nat :=
  let h := s.headerReason k
  if h ≠ 0 then h
  else
    let xs := (sectionOrder.filter (fun ty => tys.contains ty)).flatMap (s.sectionsOf k)
    ((xs.map (s.sectionReason k)).find? (· != 0)).getD 0

/-! ### What a mailbox command may write (R548, R549, R569) -/

/-- R569: the octets that FLASH_WRITE names lie within the slot that neither runs nor gives the firmware, or within the log region. -/
def State.flashWritable (s : State) : Bool :=
  let a := s.rd F.EAS_MBOX_CMD.ADDR
  let e := a + s.rd F.EAS_MBOX_CMD.LEN
  let within (lo n : Nat) : Bool := decide (lo ≤ a) && decide (e ≤ lo + n)
  (List.range 2).any (fun k => k != s.rd F.EAS_BOOT_STATUS.RUN_SLOT && k != s.rd F.EAS_BOOT_STATUS.FW_SLOT && within (slotAt k) 0x1800000) ||
    within 0x3200000 0xE00000

/-- OTP slot `k` is programmed and not revoked. -/
def State.keyLive (s : State) (k : Nat) : Bool :=
  (s.rd F.EAS_OTP_STATUS.PROGRAMMED).testBit k && !(s.rd F.EAS_OTP_STATUS.REVOKED).testBit k

/-- R546, R548, R549: KEY_PROGRAM, KEY_REVOKE or RAISE_VERSION, as EAS_MBOX_CMD names it, and its code. -/
def State.otpCommand (s : State) : State × Nat :=
  let k := s.rd F.EAS_MBOX_CMD.ARG
  let prog := s.rd F.EAS_OTP_STATUS.PROGRAMMED
  let run := s.rd F.EAS_BOOT_STATUS.KEY_SLOT
  match s.rd F.EAS_MBOX_CMD.OP with
  | 0x0E =>
    if 4 ≤ k then (s, 2)
    else if prog.testBit k || !(prog == 0 || s.keyLive run) then (s, 3)
    else
      let h := BitVec.ofNat 256 (natBE ((List.range 32).map (fun i => Sparse.read 0 s.easel.mbox i)))
      let s1 := s.wr F.EAS_OTP_STATUS.PROGRAMMED 0 (prog + 2 ^ k)
      ((s1.withEasel { s1.easel with keyHash := Sparse.write 0 s1.easel.keyHash k h }), 0)
  | 0x0F =>
    if 4 ≤ k then (s, 2)
    else if k = run || !(List.range 4).any (fun j => j != k && s.keyLive j) then (s, 3)
    else (s.wr F.EAS_OTP_STATUS.REVOKED 0 (Nat.lor (s.rd F.EAS_OTP_STATUS.REVOKED) (2 ^ k)), 0)
  | 0x10 => (s.raiseTo F.EAS_OTP_STATUS.SEC_VERSION 0 s.easel.secVersion, 0)
  | _ => (s, 1)

/-- The measurement of a running image: its header and section table (R567). -/
def State.imageHash (s : State) (k : Nat) : BitVec 256 :=
  BitVec.ofNat 256 (Config.sha256 (s.flash (slotAt k) (256 + 64 * s.sectionCount k)))

/-- The measurement of a type's section. -/
def State.sectionHash (s : State) (k ty : Nat) : BitVec 256 := BitVec.ofNat 256 (Config.sha256 (s.sectionOf k ty))

end Sys2Proof.Machine
end

