-- ==== Sys2Proof/Machine/Start.lean ====
section
/-!
DEFINITION. Applying a Ground image, the cold start, and the warm restart (R537 to R541, R550 to R561, R297, R370).
-/
namespace Sys2Proof.Machine

/-! ### What outlives PORST_N -/

/-- R548, R549, R561, R569: the mailbox command in progress ends with a reset: an OTP write completes first, and a flash write leaves the
sectors it was writing unreadable to check 7, their octets open (assumption 6). With it the code that the command ends with, if one was
in progress. -/
def State.abortMailbox (s : State) : State × Option Nat :=
  let op := s.rd F.EAS_MBOX_CMD.OP
  if !s.on F.EAS_MBOX_STATUS.BUSY then (s, none)
  else if 0x0E ≤ op ∧ op ≤ 0x10 then let r := s.otpCommand; (r.1, some r.2)
  else if op = 0x03 ∧ s.flashWritable then
    let a := s.rd F.EAS_MBOX_CMD.ADDR
    let n := s.rd F.EAS_MBOX_CMD.LEN
    let s1 := s.flashSpoil a n
    ((s1.withEasel { s1.easel with badSectors := s1.easel.badSectors ++ sectorsOf a n }), some 6)
  else (s, some 6)

/-- The part in reset by PORST_N (R21): beside the flash, OTP and the power stage's record, nothing is kept; Varnish's persistent region
comes back from its mirror (R557). -/
def State.coldReset (s0 : State) : State :=
  let s := s0.abortMailbox.1
  let e := State.reset.easel
  { State.reset with
    pending := s.pending
    outputs := s.outputs
    freeCtr := s.freeCtr
    regs := s.regsOf [.EAS_DEVICE_ID, .EAS_OTP_STATUS, .EAS_PWR_STATUS]
    easel := { e with flash := s.easel.flash, keyHash := s.easel.keyHash, serial := s.easel.serial,
                      mirrors := s.easel.mirrors, logSeq := s.easel.logSeq, badSectors := s.easel.badSectors }
    power := { s.power with lastTelem := 0 }
    dram := { State.reset.dram with dead := s.dram.dead } }

/-! ### DEVICE_CFG and SYSTEM (R538, R573) -/

/-- R538: DEVICE_CFG sets its registers. -/
def State.applyDevice (s : State) (d : List Byte) : State :=
  let f (off n : Nat) : Nat := cfgField d off n
  let s1 := ((s.wr F.EAS_PACE_CFG.CLASS 0 (f 0 1)).wr F.FAB_CFG.MODE 0 (f 1 1)).wr F.FAB_CFG.MOD_ID 0 (f 2 2)
  let s2 := ((s1.wr F.DMC_CFG.CHANNELS 0 (f 4 1)).wr F.DMC_CFG.DEV_WIDTH 0 (f 5 1)).wr F.DMC_CFG.DENSITY 0 (f 6 1)
  let s3 := ((s2.wr F.DMC_CFG.RANKS 0 (f 7 1)).wr F.DMC_CFG.BOOT_SPEED 0 (f 8 1)).wr F.DMC_FREQ_STATUS.CURRENT 0 (f 8 1)
  let s4 := (s3.wr F.TIM_CFG.SRC 0 (f 9 1)).wr F.PAL_POOL_CFG.SIZE 1 (f 12 4 * 1048576)
  let s5 := (List.range 6).foldl (fun s k => s.wrBit F.ETH_OCTET_CFG.MODE k ((f 10 1).testBit k)) s4
  let s6 := (List.range 6).foldl (fun s i => (s.wr F.DMC_PART.BASE i (partOf d i).1).wr F.DMC_PART.SIZE i (partOf d i).2) s5
  let s6 := (List.range 16).foldl (fun s m => s.wr F.EAS_PM_RAW.TARGET m (Config.paceTarget d m)) s6
  let s7 := s6.withTally { s6.tally with dramPairs := f 16 4 }
  s7.withEasel { s7.easel with deviceCfg := padTo 256 d }

/-- R573: SYSTEM sets its fields and the downlinks' peers. -/
def State.applySystem (s : State) (y : List Byte) : State :=
  if y = [] then s
  else
    let b (i : Nat) : Nat := cfgField y i 1
    let loss := if 2 ≤ b 5 ∧ b 5 ≤ 20 then b 5 else 10
    let s1 := ((s.wr F.EMV_CFG.ROLE 0 (b 0)).wr F.EMV_CFG.PRIMARY 0 (b 1)).wr F.EMV_CFG.CLUSTER 0 (b 2)
    let s2 := ((s1.wr F.EMV_CFG.SHELF 0 (b 3)).wr F.EMV_CFG.SLOT 0 (b 4)).wr F.EMV_CFG.LOSS 0 loss
    (s2.withEmv { s2.emv with children := (List.range 16).map (fun i => cfgField y (32 + 2 * i) 2) })

/-! ### REG_BLOCKS (R539) -/

/-- A write or record was refused during start-up (R539, R541). -/
def State.startWarn (s : State) : State := (s.wr F.EAS_BOOT_STATUS.CFG_WARN 0 1).logWrite

/-- One write of Easel, as from the host. -/
def State.easelWrite (s : State) (a v : Nat) : State :=
  if goodAccess a 4 then s.write32 a v else s.hostError F.HST_ERR_STATUS.BAD_ACCESS

/-- The state a meaning goes on to. -/
def after (r : Result) (s : State) : State :=
  match r with
  | .next t => t
  | _ => s

/-- The command that agent `a` has started runs to its end. -/
def State.runAgent (s : State) (a : Nat) : State :=
  match s.rd F.TBL_AG_CMD.OP a with
  | 0 => after (execAgentRead a s) s
  | 1 => after (execAgentWrite a s) s
  | 2 => after (execAgentInsert a s) s
  | 3 => after (execAgentDelete a s) s
  | 4 => after (execAgentSearch a s) s
  | 5 => after (execAgentMove a s) s
  | _ => s

/-- R326, R329: the access to the scheduler's records that has been started runs to its end. -/
def State.runAcc (s : State) : State :=
  match s.rd F.SCH_ACC_CMD.OP with
  | 0 => after (execAccRead s) s
  | 1 => after (execAccWrite s) s
  | 2 =>
    let t := after (execAccFlush s) s
    let q := s.rd F.SCH_ACC_CMD.INDEX + (if s.rd F.SCH_ACC_CMD.OBJ = 0 then 0 else voqBase)
    if t.on F.SCH_ACC_STATUS.BUSY then after (execQueueFlushComplete q t) t else t
  | _ => s

/-- R616: the software command of Palette that has been started runs to its end. -/
def State.runSw (s : State) : State :=
  match s.rd F.PAL_SW_CMD.OP with
  | 1 => after (execSwAlloc s) s
  | 2 => after (execSwFree s) s
  | 3 => after (execSwRead s) s
  | 4 => after (execSwRetire s) s
  | 5 => after (execSwUnretire s) s
  | _ => s

/-- R539: what a write of Easel has started in a block runs to its end before the next. -/
def State.settleWrite (s : State) : State :=
  let s1 := if s.on F.SCH_ACC_STATUS.BUSY then s.runAcc else s
  let s2 := if s1.on F.PAL_SW_RESULT.BUSY then s1.runSw else s1
  (List.range 8).foldl (fun s a => if s.on F.TBL_AG_STATUS.BUSY a then s.runAgent a else s) s2

/-- The values of a record, in ascending address order. -/
def State.easelWrites (s : State) (a : Nat) : Nat → List Byte → State
  | 0, _ => s
  | n + 1, b =>
    if b.length < 4 then s else (s.easelWrite a (natLE (b.take 4))).settleWrite.easelWrites (a + 4) n (b.drop 4)

/-- The records of a REG_BLOCKS section; `fuel` bounds their number. -/
def State.regRecords (s : State) : Nat → List Byte → State
  | 0, _ => s
  | fuel + 1, b =>
    if b.length < 8 then s
    else
      let n := natBE ((b.drop 4).take 4)
      (s.easelWrites (natBE (b.take 4)) n (b.drop 8)).regRecords fuel (b.drop ((8 + 4 * n + 7) / 8 * 8))

/-- A CFG_ERR, CMD_ERR or DESC_ERR bit of the register maps is set. -/
def State.cfgErrors (s : State) : Bool :=
  [F.GLZ_COAT_STATUS.CMD_ERR, F.STN_STATUS.CFG_ERR, F.TBL_ERR_STATUS.DESC_ERR, F.SCH_STATUS.CFG_ERR, F.TIM_STATUS.CFG_ERR,
    F.EMV_ALARM.CMD_ERR].any (fun f => s.on f) ||
  (List.range 64).any (fun p => s.on F.ETH_PORT_STATUS.CFG_ERR p) ||
  (List.range 48).any (fun n => s.on F.LOOM_TREE_STATUS.CFG_ERR n)

/-- R539: a REG_BLOCKS section is applied. -/
def State.applyRegs (s : State) (b : List Byte) : State :=
  let s1 := s.regRecords b.length b
  if s1.cfgErrors then s1.startWarn else s1

/-! ### COAT (R540, R562) -/

/-- The words of an entry are stored at its address as the maps store them. -/
def State.putImage (s : State) (a : Nat) : Nat → List Byte → State
  | 0, _ => s
  | fuel + 1, b =>
    if b = [] then s
    else
      match Reg.find a with
      | none => s.putImage (a + 4) fuel (b.drop 4)
      | some (r, i, o) =>
        let n := r.unit / 8
        let s1 := s.store r i (o / n) (natLE (b.take n))
        (match r with
          | .SKT_PROG => s1.withBadWords { s1.badWords with
              sketchCe := s1.badWords.sketchCe.filter (· != i), sketchUe := s1.badWords.sketchUe.filter (· != i) }
          | .GLZ_ACT => s1.withBadWords { s1.badWords with
              actionCe := s1.badWords.actionCe.filter (· != i), actionUe := s1.badWords.actionUe.filter (· != i) }
          | .PNC_RES => s1.pncRewrite (pncResAt i)
          | .PNC_LKEY => s1.pncRewrite (pncKeyAt i)
          | _ => s1).putImage (a + n) fuel (b.drop n)

/-- Entry `i` of a coat memory is written into a bank; none where no such entry is, or, under `guard`, where R249 refuses it. -/
def State.coatEntry (s : State) (guard bank : Bool) (mem i : Nat) (b : List Byte) : Option State :=
  match mem with
  | 11 => if 262144 ≤ i || (guard && !s.pncFree true i) then none else some (s.putStateWord i (BitVec.ofNat 128 (natLE b)))
  | 8 =>
    let s1 := s.putImage (((coatMem 8).map (fun m => m.addr bank i)).getD 0 + 8) 6 (b.drop 8)
    if 256 ≤ i then none else some (s1.descWord0 (bankNo bank * 256 + i) (natLE (b.take 8)))
  | 9 =>
    let s1 := s.putImage (((coatMem 9).map (fun m => m.addr bank i)).getD 0 + 8) 2 (b.drop 8)
    if 64 ≤ i then none else some (s1.pncSetWord0 (bankNo bank * 64 + i) (natLE (b.take 8)))
  | mem =>
    match coatMem mem with
    | none => none
    | some m =>
      if m.count ≤ i || (guard && !m.banked && !s.pncFree false i) then none
      else some (s.putImage (m.addr bank i) 32 b)

/-- The entry size of a coat memory. -/
def coatSize (mem : Nat) : Nat := if mem = 11 then 16 else ((coatMem mem).map (·.size)).getD 4

/-- The entries of a record; the truth value says that none was refused. -/
def State.coatEntries (s : State) (guard bank : Bool) (mem i : Nat) : Nat → List Byte → State × Bool
  | 0, _ => (s, true)
  | n + 1, b =>
    match s.coatEntry guard bank mem i (b.take (coatSize mem)) with
    | none => (if guard then s.wr F.PNC_STATUS.WRITE_ERR 0 1 else s, false)
    | some s1 => s1.coatEntries guard bank mem (i + 1) n (b.drop (coatSize mem))

/-- The records of a COAT section, up to one that is refused; `fuel` bounds their number. -/
def State.coatRecords (s : State) (guard bank : Bool) : Nat → List Byte → State × Bool
  | 0, _ => (s, true)
  | fuel + 1, b =>
    if b.length < 16 then (s, true)
    else
      let mem := natBE (b.take 2)
      let n := natBE ((b.drop 8).take 4)
      let r := s.coatEntries guard bank mem (natBE ((b.drop 4).take 4)) n (b.drop 16)
      if r.2 then r.1.coatRecords guard bank fuel (b.drop (16 + n * coatSize mem)) else r

/-- R210: a seed of an exact-match table that the image leaves 0 is drawn. -/
def State.drawSeed (f : Fld) (s : State) (t : Nat) : State :=
  if s.rd F.TBL_DESC.KIND t = 2 ∧ s.rd f t = 0 then s.freeDraw.wr f t (s.freeVal % 2 ^ 32) else s

/-- R210: the seeds of bank A that the image leaves 0 are drawn. -/
def State.drawSeeds (s : State) : State :=
  (List.range 256).foldl (fun s t => (s.drawSeed F.TBL_DESC.SEED1 t).drawSeed F.TBL_DESC.SEED2 t) s

/-- R210, R540: the COAT section is applied to bank A at a cold start. -/
def State.applyCoat (s : State) (b : List Byte) : State :=
  let r := s.coatRecords false false b.length b
  (if r.2 then r.1 else r.1.startWarn).drawSeeds

/-! ### TABLE_INIT (R541) -/

/-- The records of a TABLE_INIT section. -/
def State.applyTables (s : State) : Nat → List Byte → State
  | 0, _ => s
  | fuel + 1, b =>
    if b.length < 352 then s
    else
      let word (off : Nat) : Nat := natLE ((b.drop off).take 8)
      let block (off : Nat) : BitVec 320 := BitVec.ofNat 320 (natLE ((b.drop off).take 40))
      let s1 := ((s.store .TBL_AG_META 0 0 (word 8)).setReg .TBL_AG_KEY 0 (block 16)).setReg .TBL_AG_MASK 0 (block 56)
      let s2 := (List.range 32).foldl (fun s j => s.setReg .TBL_AG_DATA j (BitVec.ofNat 320 (word (96 + 8 * j)))) s1
      let s3 := ((s2.store .TBL_AG_CMD 0 0 (word 0)).agStart 0).runAgent 0
      (if s3.on F.TBL_AG_STATUS.CODE then s3.startWarn else s3).applyTables fuel (b.drop 352)

/-! ### Microcode, Palette and Varnish -/

/-- R559, R560: LOOM_UCODE goes into bank 0, and every tree runs it. -/
def State.applyUcode (s : State) (k : Nat) : State :=
  if s.sectionsOf k 6 = [] then s
  else s.withEasel { s.easel with mLoom0 := some (s.sectionHash k 6), trees1 := 0, lastLoaded := false }

/-- R292: of the buffers marked for retirement, those for which the list of retired ones has room. -/
def Persist.keeps (p : Persist) : List Nat := p.marks.take (65536 - p.retired.length)

/-- R292: the marks become retirements while the list has room; where it has none, RETIRE_FULL is set. -/
def State.takeMarks (s : State) : State :=
  let p := s.easel.persist
  if p.marks = [] then s.showRetired
  else
    let s1 := s.setPersist { p with retired := p.retired ++ p.keeps, marks := [] }
    ((p.marks.drop p.keeps.length).foldl (fun s q => s.wr F.PAL_POOL_STATUS.RETIRE_FULL (ptrPool q) 1) s1).showRetired

/-- R293, R297, R620: the metadata of the buffers after a start: of those in the list or in lost channels RETIRED, and of the others FREE, each
with the OWNER and AGE of its last holder. -/
def State.startWords (s : State) : Sparse (BitVec 32) :=
  let out := s.easel.persist.retired
  let st (p w : Nat) : Nat := if out.contains p || s.bufLost p || bufState w == 2 then 2 else 0
  let held := s.palette.words.foldl (fun m e =>
    let w := e.2.toNat
    Sparse.write 0 m e.1 (BitVec.ofNat 32 (mkWord 0 (bufOwner w) (st e.1 w) (bufAge w)))) ([] : Sparse (BitVec 32))
  out.foldl (fun m p =>
    let w := s.bufWord p
    Sparse.write 0 m p (BitVec.ofNat 32 (mkWord 0 (bufOwner w) 2 (bufAge w)))) held

/-- R292, R297: every buffer becomes FREE but for those retired, and the lists are built; `cold`: of a cold start. A warm restart keeps the
chains unless a buffer that stands in them has been retired or lost, or pointers were lost with a bundle; the DRAM buffers that it frees go
to them after the head cache has been refilled. -/
def State.palStart (s : State) (cold : Bool) : State :=
  let fresh := cold || s.palette.rebuilding || decide (0 < s.palette.bundleLost) ||
    s.easel.persist.marks.any (fun p => ptrPool p == 1 && bufState (s.bufWord p) == 0)
  let s1 := s.takeMarks
  let freed := (s1.palette.words.filter (fun e => ptrPool e.1 == 1 && (bufState e.2.toNat == 1 || bufState e.2.toNat == 3) &&
    !s1.easel.persist.retired.contains e.1 && !s1.bufLost e.1)).map (·.1)
  let s2 := (s1.withPalette { s1.palette with words := s1.startWords }).buildStripes
  let busy := (s2.palette.words.filter (fun e => ptrPool e.1 == 0 && bufState e.2.toNat != 0)).length
  let s3 := s2.wr F.PAL_FREE_CNT.COUNT 0 (s2.rd F.PAL_POOL_CFG.SIZE 0 - busy)
  (if fresh then s3.buildChains.headRefill
  else
    let s4 := freed.foldl (fun s p => s.pushDram p) s3.headRefill
    s4.wr F.PAL_FREE_CNT.COUNT 1 s4.freeDram).showAudit

/-- The newer valid mirror copy (R557). -/
def State.mirrorNewest (s : State) : Option (Nat × Persist) :=
  match Sparse.read none s.easel.mirrors 0, Sparse.read none s.easel.mirrors 1 with
  | some a, some b => if a.1 < b.1 then some b else some a
  | some a, none => some a
  | none, b => b

/-- R557: the persistent region comes back from the newer valid mirror copy. -/
def State.restorePersist (s : State) : State :=
  match s.mirrorNewest with
  | some (n, p) => (s.wr F.VRN_STATUS.MIRROR_SEQ 0 n).withEasel { s.easel with persist := p }
  | none => s.wr F.VRN_STATUS.MIRROR_ERR 0 1

/-- R370, R371: the fabric epoch advances; every stream starts anew, and no packet or credit Swatch is sent for 10 ms from the release of reset
or the start of the warm restart. -/
def State.nextEpoch (s : State) : State :=
  let p := s.easel.persist
  let e := (p.epoch + 1) % 256
  let s1 := (s.setPersist { p with epoch := e }).wr F.FAB_CFG.EPOCH 0 e
  s1.withFab { s1.fab with quiet := some (s.now + ms 10) }

/-- R241: the key of the notification filter's hash is drawn. -/
def State.drawKey (s : State) : State := s.freeDraw.withTables { s.tables with hashKey := s.freeVal }

/-- R606: the pins of the DDR4 channels that are not enabled. -/
def State.parkChannels (s : State) : State :=
  ((List.range 16).filter (fun ch => !decide (ch < s.channelCount))).foldl (fun s ch => s.emit (.ddrPins ch DdrPins.off)) s

/-! ### The Seam and READY -/

/-- R29, R30: the wires that failed are mapped onto spares; whether the Seam came up. -/
def State.seamStart (s : State) (failFwd failTrf : Nat) : State × Bool :=
  if 32 < failFwd ∨ 32 < failTrf then
    ((((s.setCause F.EAS_SEAM_STATUS.FAULT 0 0).wr F.EAS_BOOT_STATUS.STATE 0 3).setCause F.EAS_ALARM.START_FAULT 0 2), false)
  else
    ((((s.wr F.EAS_SEAM_STATUS.SPARE_USED_FWD 0 failFwd).wr F.EAS_SEAM_STATUS.SPARE_USED_TRF 0 failTrf).wr
      F.EAS_SEAM_STATUS.UP 0 1).wr F.EAS_SEAM_STATUS.FAULT 0 0, true)

/-- R579: a primary manager acts from the moment it is READY, unless it hears its peer act. -/
def State.managerStart (s : State) (peerActing : Bool) : State :=
  if s.emvRole ≠ 0 && s.emvPrimary && !peerActing then
    let s1 := (s.wr F.EMV_STATUS.ACTING 0 1).incWrap F.EMV_STATUS.TAKEOVERS
    (s1.withEmv { s1.emv with actAt := s1.now })
  else s

/-- R550 step 10, R558 step 8: the monitors have settled, admission opens and STATE is READY, `took` ns after the release or request. -/
def State.becomeReady (s : State) (took : Nat) (peerActing : Bool) : State :=
  let s1 := (s.wr F.EAS_BOOT_STATUS.STATE 0 2).wr F.EAS_BOOT_STATUS.START_MS 0 (took / 1000000)
  let s2 := ((s1.withPace { s1.pace with goodRun := 0, admitOpen := false, loopAt := s1.now }).withEasel
    { s1.easel with readyOnce := true }).withFab { s1.fab with startAt := s1.now } |>.withEmv { s1.emv with peerDownAt := s1.now }
  (s2.managerStart peerActing).raise 2

/-- R537: what the device knows of the image it runs. -/
def State.runImage (s : State) (k : Nat) : State :=
  let s1 := ((s.wr F.EAS_BOOT_STATUS.RUN_SLOT 0 k).wr F.EAS_BOOT_STATUS.FW_SLOT 0 k).wr F.EAS_BOOT_STATUS.KEY_SLOT 0 (s.hdr k 32 1)
  let s2 := s1.wrBit F.EAS_BOOT_STATUS.UNPROVISIONED 0 (s.rd F.EAS_OTP_STATUS.PROGRAMMED == 0)
  (s2.withEasel { s2.easel with
    mEasel := s.sectionHash k 1, mImage := s.imageHash k, secVersion := s.hdr k 20 4 })

/-! ### The cold start (R550 to R553) -/

/-- R550, from step 3: the image of slot `k`, which verifies, is applied. `failed` are the channels whose training fails. -/
def State.startFrom (s : State) (k failFwd failTrf : Nat) (failed : List Nat) (took : Nat) (peerActing : Bool) : State :=
  let s1 := ((s.runImage k).applyDevice (s.sectionOf k 2)).applySystem (s.sectionOf k 7)
  match s1.showRails.seamStart failFwd failTrf with
  | (s2, false) => s2.advanceTo (ns took)
  | (s2, true) =>
    let s3 := s2.restorePersist.nextEpoch.drawKey
    let s4 := s3.setPersist { s3.easel.persist with coldStarts := s3.easel.persist.coldStarts + 1 }
    let s5 := s4.parkChannels.fullTraining failed
    let s6 := (s5.sectionsOf k 3).foldl (fun s x => s.applyRegs (s.sectionBytes k x)) s5
    let s7 := ((s6.sectionsOf k 4).foldl (fun s x => s.applyCoat (s.sectionBytes k x)) s6).applyUcode k
    let s9 := s7.palStart true
    let s10 := (s9.sectionsOf k 5).foldl (fun s x => s.applyTables x.len (s.sectionBytes k x)) s9
    let s11 := s10.withEasel { s10.easel with measPending := true }
    (s11.advanceTo (ns took)).becomeReady took peerActing

/-- R551: the slot that the boot record selects, with the record that this start writes, and whether the image is on trial. -/
def State.bootSelect (s : State) : State × Nat × Bool :=
  let r := s.bootRecord
  if r.trial && !r.tried then (s.writeBoot r.primary true true, r.primary % 2, true)
  else if r.trial then
    ((s.writeBoot (1 - r.primary) false false).setCause F.EAS_ALARM.TRIAL_REVERTED 0 2, 1 - r.primary, false)
  else (s, r.primary % 2, false)

/-- The reason with which slot `k` failed is recorded (R551). -/
def State.slotFailed (s : State) (k reason : Nat) : State :=
  if k = 0 then s.wr F.EAS_BOOT_STATUS.FAIL_A 0 reason else s.wr F.EAS_BOOT_STATUS.FAIL_B 0 reason

/-- R551, R552: the start from slot `k`, with the other slot where it fails, and in recovery where both do. -/
def State.startSlots (s : State) (k failFwd failTrf : Nat) (failed : List Nat) (took : Nat) (peerActing : Bool) : State :=
  let why (k : Nat) : Nat := s.slotReason k sectionOrder
  if why k = 0 then s.startFrom k failFwd failTrf failed took peerActing
  else
    let s1 := s.slotFailed k (why k)
    if why (1 - k) = 0 then (s1.wr F.EAS_BOOT_STATUS.TRIAL 0 0).startFrom (1 - k) failFwd failTrf failed took peerActing
    else ((s1.slotFailed (1 - k) (why (1 - k))).wr F.EAS_BOOT_STATUS.STATE 0 4).advanceTo (ns took)

/-- R550: the steps after the release of PORST_N. -/
def State.coldStart (s : State) (failFwd failTrf : Nat) (failed : List Nat) (flashOk peerActing : Bool) (took : Nat) : State :=
  let s0 := s.coldReset
  let s1 := s0.withPower { s0.power with released := true, shortReset := false }
  let s2 := (if s.power.shortReset then s1.logWrite else s1).wrBit F.EAS_BOOT_STATUS.UNPROVISIONED 0 (s.rd F.EAS_OTP_STATUS.PROGRAMMED == 0)
  if !flashOk then (((s2.slotFailed 0 9).slotFailed 1 9).wr F.EAS_BOOT_STATUS.STATE 0 4).advanceTo (ns took)
  else
    let (s3, k, trial) := s2.bootSelect
    (s3.wrBit F.EAS_BOOT_STATUS.TRIAL 0 trial).startSlots k failFwd failTrf failed took peerActing

/-- COLD_START (R550 to R553): PORST_N is released. `failFwd` and `failTrf` wires fail the Seam's test, the channels of `failed` their
training; `flashOk`: the flash can be read; `peerActing`: a peer manager announces that it acts; `took` ns pass, at most 1.8 s. While
PWR_OK is low the device stays in reset (R597); a device that has left its reset is not started again without one. -/
def execColdStart (failFwd failTrf : Nat) (failed : List Nat) (flashOk peerActing : Bool) (took : Nat) (s : State) : Result :=
  .next (if s.power.on ∧ (!s.power.released ∨ s.rd F.EAS_BOOT_STATUS.STATE = 0) then s.coldStart failFwd failTrf failed flashOk peerActing (min took 1800000000) else s)

/-! ### The warm restart (R555 to R561) -/

/-- The fields of a register that a warm restart keeps (R21, R559, R614, and the power stage's and OTP's own). -/
def Reg.keptMask (r : Reg) : Nat :=
  match r with
  | .PAL_POOL_CFG => 0x1FFFFFFF
  | .DMC_CH_STATUS => 0xFF0E
  | .EAS_DEVICE_ID => 0xFFFFFFFF
  | .EAS_OTP_STATUS => 0xFFFFFFFF
  | .EAS_PWR_STATUS => 0xFFFFFFFF
  | .HST_PCIE_STATUS => 0xFFFFFFFF
  | .GLZ_COAT_STATUS => 1
  | .SKT_BANK_STATUS => 2 ^ F.SKT_BANK_STATUS.ACTIVE.lo
  | .EAS_BOOT_STATUS => 0xE38
  | r => r.info.kept

/-- The registers after a warm restart: kept fields as they were, every other at its Reset value (R21). -/
def warmRegs (m : Sparse (BitVec 320)) : Sparse (BitVec 320) :=
  m.filterMap (fun (e : Nat × BitVec 320) =>
    let k := match Reg.all[e.1 % 256]? with
      | some r => r.keptMask
      | none => 0
    let d := regsReset e.1
    let v := BitVec.ofNat 320 (Nat.lor (andNot d.toNat k) (Nat.land e.2.toNat k))
    if v = d then none else some (e.1, v))

/-- R329: the scheduler's records after a warm restart. -/
def Sched.warm (x : Sched) : Sched :=
  let up (base : Nat) (m : Sparse (BitVec 64)) : Sparse Queue :=
    (m.filter (fun (e : Nat × BitVec 64) => cfgEn e.2.toNat)).map (fun (e : Nat × BitVec 64) => (base + e.1, { Queue.idle with state := 1 }))
  { x with queueNode := [], subNode := [], portNode := [], queues := up 0 x.queueCfg ++ up voqBase x.voqCfg
           holdEnd := [], classTag := [], bandV := [], lastMod := [] }

/-- The port nodes that are enabled after a warm restart. -/
def State.nodesWarm (s : State) : State :=
  (List.range 512).foldl (fun s n =>
    if !s.on F.SCH_PNODE_CFG.EN n then s
    else (s.wrBit F.SCH_PNODE_STATUS.LINK n (s.linkOf n)).setNodeState n (if s.linkOf n then 1 else 4)) s

/-- R297 step 1, R353: the caches are pushed back to the chains, and the channels enter self-refresh. -/
def State.palWarm (s : State) : State :=
  let ps := s.palette.headCache ++ s.palette.pushCache
  let s1 := (s.withPalette { s.palette with
    headCache := [], pushCache := [], links := [], held := [], tracker := [], tally := 0, audit := [] }).pushBack (ps.length + 1) ps
  s1.channels.foldl (fun s ch => if s.chanLives ch then s.emit (.dram ch "SRE" 0) else s) s1

/-- R342, R353: channel `ch` leaves self-refresh with the kept training results, and a pass of read gate and read eye centring, or, where the
temperature has moved since they were found, of all four steps, completes; `failed`: it fails. -/
def State.retrain (failed : List Nat) (s : State) (ch : Nat) : State :=
  if !s.chanLives ch then s
  else
    let s1 := (s.emit (.dram ch "SRX" 0)).emit (.dram ch "TRAIN" (if s.tempMoved ch then 4 else 2))
    if failed.contains ch then s1.trainFailed ch else s1.trained ch

/-- R517: the counter cache is added to DRAM. -/
def State.cacheBack (s : State) : State :=
  let sum := s.tally.cache.foldl (fun m (e : Nat × Pair) =>
    let p := Sparse.read Pair.zero m e.1
    Sparse.write Pair.zero m e.1 ⟨p.bytes + e.2.bytes, p.pkts + e.2.pkts, p.invalid⟩) s.tally.pairs
  s.withTally { s.tally with
    pairs := sum.filter (fun (e : Nat × Pair) => decide (262144 ≤ e.1)), cache := [], cacheFirst := [] }

/-- R558 step 3, R559: both dies are reset; what a warm restart keeps stays. -/
def State.warmReset (s : State) : State :=
  let s1 := s.palWarm.cacheBack
  let z := State.reset
  { s1 with
    regs := warmRegs s1.regs
    time := z.time
    host := { s1.host with vecs := [], rings := [], raised := [], messages := [], shadow := [], readLatch := [], writeHold := [], wordLatch := [] }
    tally := { z.tally with pairs := s1.tally.pairs, dramPairs := s1.tally.dramPairs }
    seam := z.seam, pace := z.pace, macs := [], insts := [], grps := [], pkts := [], ctxs := [], coat := z.coat
    policers := [], reasons := [], puntAgg := none, inflightA := 0, inflightB := 0
    tables := { s1.tables with filter := [], scrubRow := [], scrubAt := [], budget := none }
    easel := { s1.easel with mbox := [], warmAsked := none, swapping := 0 }
    sched := s1.sched.warm
    dram := { z.dram with struck := s1.dram.struck, dead := s1.dram.dead }
    fab := z.fab
    loom := z.loom
    emv := { z.emv with children := s1.emv.children, mapVer := s1.emv.mapVer } }

/-- R560: what a new image changes. -/
def State.warmImage (s : State) (k : Nat) : State :=
  let r := s.bootRecord
  let s1 := (s.wr F.EAS_PACE_CFG.CLASS 0 (cfgField (s.sectionOf k 2) 0 1)).wrBit F.EAS_BOOT_STATUS.TRIAL 0 (r.trial && r.primary == k)
  let s2 := s1.withEasel { s1.easel with deviceCfg := padTo 256 (s.sectionOf k 2) }
  (s2.applySystem (s.sectionOf k 7)).applyUcode k

/-- R558 steps 3 to 8 from slot `k`, a new image or the running one. The ageing counts stand still while Easel does not run, which is some part
of the restart (R237). -/
def State.warmFrom (s : State) (k : Nat) (fresh : Bool) (failFwd failTrf : Nat) (failed : List Nat) (peerActing : Bool) (took : Nat) :
    State :=
  let ab := s.abortMailbox
  let low := if ab.1.time.ppsOut then ab.1.emit (.ppsOut false) else ab.1
  let s1 := low.warmReset.runImage k
  match s1.showRails.seamStart failFwd failTrf with
  | (s2, false) => (s2.advanceTo (s.now + ns took)).timeWarm
  | (s2, true) =>
    let s3 := if fresh then s2.warmImage k else s2
    let s4 := (s3.wr F.VRN_STATUS.RESTORED 0 1).wr F.VRN_STATUS.MIRROR_SEQ 0 (match s3.mirrorNewest with | some m => m.1 | none => 0)
    let s5 := s4.nextEpoch.drawKey.parkChannels
    let s6 := s5.channels.foldl (fun s ch => s.retrain failed ch) s5
    let s7 := if fresh then
        ((s6.sectionsOf k 3).filter (fun x => x.flags.testBit 1)).foldl (fun s x => s.applyRegs (s.sectionBytes k x)) s6
      else s6
    let s9 := (s7.palStart false).nodesWarm
    let down := s9.freeVal % (ns took + 1)
    let s10 := (s9.freeDraw.withTables (s9.tables.pauseAges down)).wr F.EAS_BOOT_STATUS.WARM 0 1
    let s11 := s10.withEasel { s10.easel with warmStarts := s10.easel.warmStarts + 1 }
    let s12 := ((s11.advanceTo (s.now + ns took)).timeWarm.becomeReady took peerActing).rescan 0xFF
    match ab.2 with
    | some code => s12.mboxDone code 0
    | none => s12

/-- R614: the PCIe function as it stood: its link, its configuration space and its MSI-X table. -/
def State.keepFunction (s old : State) : State :=
  let h := old.host
  (s.withHost { s.host with
    link := h.link, d3hot := h.d3hot, msixEnable := h.msixEnable, functionMask := h.functionMask, pmeEn := h.pmeEn
    pmeStatus := h.pmeStatus, msix := h.msix, asleep := h.asleep, wakeN := h.wakeN, saved := h.saved }).setReg .HST_PCIE_STATUS 0
    (old.reg .HST_PCIE_STATUS 0)

/-- R556: the warm restart is discarded and a cold start made from step 2 with the running slot: `region`, a region of Varnish failed its check.
The PCIe function stays in service, as in any warm restart. -/
def State.warmFailed (s : State) (region : Bool) (failFwd failTrf : Nat) (failed : List Nat) (peerActing : Bool) (took : Nat) :
    State :=
  let s0 := s.coldReset.keepFunction s
  let s1 := (s0.withEasel { s0.easel with warmFailed := true }).logWrite
  let s2 := (s1.wr F.EAS_BOOT_STATUS.WARM_FAIL 0 1).wrBit F.VRN_STATUS.REGION_ERR 0 region
  (s2.wrBit F.EAS_BOOT_STATUS.TRIAL 0 (s.on F.EAS_BOOT_STATUS.TRIAL)).startSlots (s.rd F.EAS_BOOT_STATUS.RUN_SLOT) failFwd failTrf failed
    took peerActing

/-- R561: a coat-swap pause ends before the warm request takes effect. -/
def State.pauseEnds (s : State) : State := if s.coatState = 2 then s.coatFlip.reportSwap else s

/-- R558: a warm restart begins. -/
def State.warmStart (s : State) (failFwd failTrf : Nat) (failed : List Nat) (varnishOk peerActing : Bool) (took : Nat) : State :=
  let s0 := s.pauseEnds
  let k := (s.easel.warmAsked.getD none).getD (s.rd F.EAS_BOOT_STATUS.RUN_SLOT)
  let fresh := (s.easel.warmAsked.getD none).isSome
  let why := s.slotReason k (if fresh then sectionOrder else [1])
  if !varnishOk ∨ why ≠ 0 then s0.warmFailed (!varnishOk) failFwd failTrf failed peerActing took
  else s0.warmFrom k fresh failFwd failTrf failed peerActing took

/-- WARM_RESTART (R558, R561, R601): WARMRST_N has been asserted for as many ns as `pulse` says first, or a RESTART_WARM has been accepted. A pulse of 0.5 µs to
1 µs acts if `pulse` says so, and that is logged. `failFwd` and `failTrf` wires fail the Seam's test, the channels of `failed` their
retraining; `varnishOk`: the regions of Varnish pass their checks; `peerActing`: a peer manager announces that it acts; `took` ns pass, at
most 250 ms. -/
def execWarmRestart (pulse : Nat × Bool) (failFwd failTrf : Nat) (failed : List Nat) (varnishOk peerActing : Bool) (took : Nat)
    (s : State) : Result :=
  .next <|
    let dur := pulse.1
    let t := min took 250000000
    if s.easel.warmAsked.isSome then s.warmStart failFwd failTrf failed varnishOk peerActing t
    else if !s.power.on ∨ !s.power.released ∨ dur < 500 then s
    else if dur < 1000 ∧ !pulse.2 then s
    else if s.rd F.EAS_BOOT_STATUS.STATE ≠ 2 then s.logWrite
    else if dur < 1000 then s.logWrite.warmStart failFwd failTrf failed varnishOk peerActing t
    else s.warmStart failFwd failTrf failed varnishOk peerActing t

end Sys2Proof.Machine
end

