-- ==== Sys2Proof/Machine/Mailbox.lean ====
section
/-!
DEFINITION. The commands of the attestation mailbox (R562 to R570) and the mirror of Varnish's persistent region (R557).
-/
namespace Sys2Proof.Machine

/-! ### Running a command -/

/-- R569: the command in EAS_MBOX_CMD runs and has operation code `op`; its body is `f`. -/
def State.mboxRun (s : State) (op : Nat) (f : State → State) : State :=
  if s.on F.EAS_MBOX_STATUS.BUSY && s.rd F.EAS_MBOX_CMD.OP == op then f s else s

/-- A command completes with a result in the buffer. -/
def State.mboxResult (s : State) (code : Nat) (bs : List Byte) : State :=
  (s.withEasel { s.easel with mbox := Sparse.putOctets s.easel.mbox 0 bs }).mboxDone code bs.length

/-- The arguments of a command. -/
def State.argSlot (s : State) : Nat := s.rd F.EAS_MBOX_CMD.SLOT
def State.argFlag (s : State) : Bool := s.on F.EAS_MBOX_CMD.FLAG
def State.argAddr (s : State) : Nat := s.rd F.EAS_MBOX_CMD.ADDR
def State.argLen (s : State) : Nat := s.rd F.EAS_MBOX_CMD.LEN

/-- Octets of the buffer. -/
def State.mboxOctets (s : State) (n : Nat) : List Byte := (List.range n).map (fun i => Sparse.read 0 s.easel.mbox i)

/-- R544: VERIFY_FAIL with its reason in buffer octet 0. -/
def State.verifyFail (s : State) (reason : Nat) : State := s.mboxResult 4 [BitVec.ofNat 8 reason]

/-! ### The flash -/

/-- GET_INFO (R570). -/
def execGetInfo (flashOk : Bool) (s : State) : Result :=
  .next <| s.mboxRun 0x01 fun s =>
    if !flashOk then s.mboxDone 5 0
    else s.mboxResult 0 (s.flash (bootAt 0) 64 ++ s.flash (bootAt 1) 64 ++ s.flash (slotAt 0) 256 ++ s.flash (slotAt 1) 256 ++
      octetsBE 1 (s.rd F.EAS_BOOT_STATUS.FAIL_A) ++ octetsBE 1 (s.rd F.EAS_BOOT_STATUS.FAIL_B))

/-- FLASH_READ (R570): LEN is at most 65,536, and addresses from 0x0400_0000 upward are not used (R532). -/
def execFlashRead (flashOk : Bool) (s : State) : Result :=
  .next <| s.mboxRun 0x02 fun s =>
    if 65536 < s.argLen ∨ 0x4000000 < s.argAddr + s.argLen then s.mboxDone 2 0
    else if !flashOk then s.mboxDone 5 0
    else s.mboxResult 0 (s.flash s.argAddr s.argLen)

/-- R570: octets are programmed from an address on; each sector of 64 KiB is erased when the address enters it at its start.
Programming clears bits (assumption 35). -/
def flashProgram (m : Sparse Byte) (a : Nat) : List Byte → Sparse Byte
  | [] => m
  | b :: bs =>
    let m1 := if a % 65536 = 0 then m.filter (fun (e : Nat × Byte) => e.1 / 65536 != a / 65536) else m
    flashProgram (Sparse.write 0xFF m1 a (b &&& Sparse.read 0xFF m1 a)) (a + 1) bs

/-- FLASH_WRITE (R569, R570, R561): a sector erased by it is whole again; a write that the flash fails leaves its octets open. -/
def execFlashWrite (flashOk : Bool) (s : State) : Result :=
  .next <| s.mboxRun 0x03 fun s =>
    let a := s.argAddr
    if 65536 < s.argLen || !s.flashWritable then s.mboxDone 2 0
    else if !flashOk then (s.flashSpoil a s.argLen).mboxDone 5 0
    else
      let fresh := (sectorsOf a s.argLen).filter (fun i => decide (a ≤ i * 65536))
      let s1 := s.setFlash (flashProgram s.easel.flash a (s.mboxOctets s.argLen))
      (s1.withEasel { s1.easel with badSectors := s1.easel.badSectors.filter (fun i => !fresh.contains i) }).mboxDone 0 0

/-- VERIFY_SLOT (R543, R544). -/
def execVerifySlot (flashOk : Bool) (s : State) : Result :=
  .next <| s.mboxRun 0x04 fun s =>
    let why := if flashOk then s.slotReason s.argSlot sectionOrder else 9
    if why = 0 then s.mboxDone 0 0 else s.verifyFail why

/-- SET_BOOT (R534, R570). -/
def execSetBoot (flashOk : Bool) (s : State) : Result :=
  .next <| s.mboxRun 0x05 fun s =>
    if !flashOk then s.mboxDone 5 0 else (s.writeBoot s.argSlot s.argFlag false).mboxDone 0 0

/-- CONFIRM (R570): the running image is no longer on trial. -/
def execConfirm (flashOk : Bool) (s : State) : Result :=
  .next <| s.mboxRun 0x06 fun s =>
    if !flashOk then s.mboxDone 5 0
    else ((s.writeBoot (s.rd F.EAS_BOOT_STATUS.RUN_SLOT) false false).wr F.EAS_BOOT_STATUS.TRIAL 0 0).mboxDone 0 0

/-- LOG_READ (R570, R532): 1,024 records from record 1,024 × ARG on. -/
def execLogRead (flashOk : Bool) (s : State) : Result :=
  .next <| s.mboxRun 0x11 fun s =>
    let k := s.rd F.EAS_MBOX_CMD.ARG
    if 224 ≤ k then s.mboxDone 2 0
    else if !flashOk then s.mboxDone 5 0
    else s.mboxResult 0 (s.flash (0x3200000 + 65536 * k) 65536)

/-! ### Firmware, microcode and coats in service (R562 to R566) -/

/-- SWITCH_FW (R564): Easel restarts into a slot's firmware; `took` ns pass, at most 500 ms. -/
def execSwitchFw (flashOk : Bool) (took : Nat) (s : State) : Result :=
  .next <| s.mboxRun 0x07 fun s =>
    let why := if flashOk then s.slotReason s.argSlot [1] else 9
    if why ≠ 0 then s.verifyFail why
    else
      let t := ns (min took 500000000)
      let s1 := if s.rd F.TIM_CFG.SRC = 1 then s.holdover else s
      let s2 := (s1.advanceTo (s1.now + t)).wr F.EAS_BOOT_STATUS.FW_SLOT 0 s.argSlot
      let s3 := (s2.withTables (s2.tables.pauseAges t)).withEasel
        { s2.easel with mEasel := s.sectionHash s.argSlot 1 }
      (s3.setCause F.EAS_ALARM.FW_SWITCHED 0 2).mboxDone 0 0

/-- R565: an enabled tree runs bank `b` of the Loom microcode. -/
def State.ucodeUsed (s : State) (b : Bool) : Bool :=
  (List.range 48).any (fun n => s.treeEn n && s.easel.trees1.toNat.testBit n == b)

/-- R565: the bank that LOOM_LOAD writes: one that no enabled tree uses, an empty one or the one not loaded last where both are. -/
def State.ucodeBank (s : State) : Option Bool :=
  let free := [false, true].filter (fun b => !s.ucodeUsed b)
  let empty (b : Bool) : Bool := (if b then s.easel.mLoom1 else s.easel.mLoom0).isNone
  match free.find? empty with
  | some b => some b
  | none =>
    match free.find? (fun b => b != s.easel.lastLoaded) with
    | some b => some b
    | none => free.head?

/-- LOOM_LOAD (R565). -/
def execLoomLoad (flashOk : Bool) (s : State) : Result :=
  .next <| s.mboxRun 0x08 fun s =>
    let k := s.argSlot
    let why := if !flashOk then 9 else if s.slotReason k [6] ≠ 0 then s.slotReason k [6]
      else if s.sectionsOf k 6 = [] then 1 else 0
    if why ≠ 0 then s.verifyFail why
    else
      match s.ucodeBank with
      | none => s.mboxDone 3 0
      | some b =>
        let h := some (s.sectionHash k 6)
        let e := if b then { s.easel with mLoom1 := h, lastLoaded := true } else { s.easel with mLoom0 := h, lastLoaded := false }
        (s.withEasel e).mboxDone 0 0

/-- LOOM_SWAP (R566): the trees of the mask are to move to the bank last loaded, each at the start of its next downstream frame; those
that are not enabled, which have none, move now. -/
def execLoomSwap (s : State) : Result :=
  .next <| s.mboxRun 0x09 fun s =>
    let mask := natBE (s.mboxOctets 8) % 2 ^ 48
    if s.easel.swapping ≠ 0 then s
    else if (if s.easel.lastLoaded then s.easel.mLoom1 else s.easel.mLoom0).isNone then s.mboxDone 3 0
    else if mask = 0 then (s.setCause F.EAS_ALARM.LOOM_SWAPPED 0 2).mboxDone 0 0
    else
      let s1 := s.withEasel { s.easel with swapping := BitVec.ofNat 64 mask }
      (List.range 48).foldl (fun s n => if s.treeEn n then s else s.ucodeMove n) s1

/-- STAGE_COAT (R562). -/
def execStageCoat (flashOk : Bool) (s : State) : Result :=
  .next <| s.mboxRun 0x0A fun s =>
    let why := if flashOk then s.slotReason s.argSlot [4] else 9
    if s.coatState ≠ 0 then s.mboxDone 3 0
    else if why ≠ 0 then s.verifyFail why
    else
      let b := s.sectionOf s.argSlot 4
      let r := s.coatRecords true (!s.activeBank) b.length b
      r.1.mboxDone (if r.2 then 0 else 3) 0

/-! ### Restarts (R558, R560, R570) -/

/-- RESTART_WARM (R558, R560): a warm restart is asked for; WARM_RESTART makes it. -/
def execRestartWarm (flashOk : Bool) (s : State) : Result :=
  .next <| s.mboxRun 0x0B fun s =>
    let k := s.argSlot
    let why := if flashOk then s.slotReason k sectionOrder else 9
    if s.rd F.EAS_BOOT_STATUS.STATE ≠ 2 then s.mboxDone 3 0
    else if !s.argFlag then (s.withEasel { s.easel with warmAsked := some none }).mboxDone 0 0
    else if why ≠ 0 then s.verifyFail why
    else if (padTo 256 (s.sectionOf k 2)).drop 1 ≠ s.easel.deviceCfg.drop 1 then s.mboxDone 7 0
    else (s.withEasel { s.easel with warmAsked := some (some k) }).mboxDone 0 0

/-- RESTART_COLD (R570): as PORST_N: the device is reset and COLD_START follows. -/
def execRestartCold (s : State) : Result := .next (s.mboxRun 0x13 State.coldReset)

/-! ### Attestation (R567, R568) -/

/-- Octets 0 to 383 of the report (R567). -/
def State.report (s : State) (nonce : List Byte) : List Byte :=
  let b (f : Fld) (k : Nat) : Nat := s.rd f * 2 ^ k
  let hash (h : BitVec 256) : List Byte := octetsBE 32 h.toNat
  let flags := b F.EAS_BOOT_STATUS.UNPROVISIONED 0 + b F.EAS_BOOT_STATUS.TRIAL 1 + b F.EAS_BOOT_STATUS.RUN_SLOT 2 +
    b F.EAS_BOOT_STATUS.FW_SLOT 3 + (if s.easel.measPending then 16 else 0) + (if s.easel.warmFailed then 32 else 0)
  padTo 384 (octetsBE 4 0x5A584152 ++ octetsBE 4 (s.reg .EAS_DEVICE_ID 0).toNat ++ octetsBE 4 flags ++
    octetsBE 4 (s.reg .EAS_OTP_STATUS 0).toNat ++ octetsBE 16 s.easel.serial.toNat ++ padTo 32 nonce ++ octetsBE 8 s.nowNs ++
    octetsBE 4 s.easel.persist.coldStarts ++ octetsBE 4 s.easel.warmStarts ++ octetsBE 2 s.coatId ++ List.replicate 14 0 ++
    octetsBE 32 Config.mRom ++ hash s.easel.mEasel ++ hash s.easel.mImage ++
    hash (if s.easel.measPending then 0 else s.easel.mCoat) ++
    hash (s.easel.mLoom0.getD 0) ++ octetsBE 8 (2 ^ 48 - 1 - s.easel.trees1.toNat % 2 ^ 48) ++
    hash (s.easel.mLoom1.getD 0) ++ octetsBE 8 (s.easel.trees1.toNat % 2 ^ 48))

/-- ATTEST (R567). -/
def execAttest (s : State) : Result :=
  .next <| s.mboxRun 0x0C fun s =>
    let r := s.report (s.mboxOctets 32)
    s.mboxResult 0 (r ++ padTo 384 (Config.deviceSign r))

/-- GET_IDENTITY (R568). -/
def execGetIdentity (s : State) : Result :=
  .next <| s.mboxRun 0x0D fun s =>
    s.mboxResult 0 (padTo 384 Config.deviceModulus ++ octetsBE 4 65537 ++ octetsBE 16 s.easel.serial.toNat)

/-! ### OTP (R546 to R549) -/

/-- A command that writes OTP. -/
def State.otpRun (s : State) : State := let r := s.otpCommand; r.1.mboxDone r.2 0

/-- KEY_PROGRAM (R548). -/
def execKeyProgram (s : State) : Result := .next (s.mboxRun 0x0E State.otpRun)

/-- KEY_REVOKE (R548). -/
def execKeyRevoke (s : State) : Result := .next (s.mboxRun 0x0F State.otpRun)

/-- RAISE_VERSION (R549). -/
def execRaiseVersion (s : State) : Result := .next (s.mboxRun 0x10 State.otpRun)

/-! ### The mirror (R557) -/

/-- The older mirror copy, or one that is not valid. -/
def State.mirrorOlder (s : State) : Nat :=
  match Sparse.read none s.easel.mirrors 0, Sparse.read none s.easel.mirrors 1 with
  | some a, some b => if a.1 < b.1 then 0 else 1
  | some _, none => 1
  | none, _ => 0

/-- The persistent region is copied to the older mirror copy; a write that fails leaves that copy invalid. -/
def State.mirrorWrite (s : State) (flashOk : Bool) : State :=
  let k := s.mirrorOlder
  if !flashOk then
    (s.withEasel { s.easel with mirrors := Sparse.write none s.easel.mirrors k none }).setCause F.EAS_ALARM.MIRROR_FAIL 0 2
  else
    let n := (match s.mirrorNewest with | some m => m.1 | none => 0) + 1
    (s.withEasel { s.easel with
      mirrors := Sparse.write none s.easel.mirrors k (some (n, s.easel.persist)), dirtySince := none }).wr F.VRN_STATUS.MIRROR_SEQ 0 n

/-- VARNISH_MIRROR (R557): Easel mirrors a change, at the latest 10 s after it. -/
def execVarnishMirror (flashOk : Bool) (s : State) : Result :=
  .next (if s.easel.dirtySince.isSome ∧ s.rd F.EAS_BOOT_STATUS.STATE = 2 then s.mirrorWrite flashOk else s)

/-- MIRROR_NOW (R557). -/
def execMirrorNow (flashOk : Bool) (s : State) : Result :=
  .next <| s.mboxRun 0x12 fun s => (s.mirrorWrite flashOk).mboxDone (if flashOk then 0 else 5) 0

end Sys2Proof.Machine
end

