-- ==== Sys2Proof/Machine/PowerStage.lean ====
section
/-!
DEFINITION. The power stage and the reset pin (R596 to R601).
-/
namespace Sys2Proof.Machine

/-- The rails come up and PWR_OK goes high; the part is in reset until PORST_N is released (R600, R601). -/
def State.railsUp (s : State) : State :=
  let s1 := s.wr F.EAS_PWR_STATUS.PWR_OK 0 1
  (s1.withPower { s1.power with on := true, latched := false, released := false })

/-- POWER_UP (R600, R597): VIN rises through 5.8 V. -/
def execPowerUp (s : State) : Result := .next (if s.power.on then s else s.railsUp)

/-- VIN_RESTORE (R596): VIN returns within its range after an undervoltage or an overvoltage. -/
def execVinRestore (s : State) : Result :=
  .next (if s.power.on || s.power.latched || decide (2 < s.rd F.EAS_PWR_STATUS.LAST_SHUTDOWN) then s else s.railsUp)

/-- POWER_SHUTDOWN (R596, R597): cause 1 VIN undervoltage, 2 VIN overvoltage, 3 junction trip, 4 power-stage overtemperature, 5 rail
fault; the last three latch. -/
def execPowerShutdown (cause : Nat) (s : State) : Result :=
  .next <|
    if !s.power.on || cause == 0 || decide (5 < cause) then s
    else
      let s1 := s.coldReset
      let s2 := ((s1.wr F.EAS_PWR_STATUS.LAST_SHUTDOWN 0 cause).incSat F.EAS_PWR_STATUS.SHUTDOWNS).wr F.EAS_PWR_STATUS.PWR_OK 0 0
      (s2.withPower { s2.power with on := false, latched := decide (3 ≤ cause), released := false, shortReset := false, inAlarm := 0 })

/-- PORST_N_ASSERT (R597, R601): PORST_N has been asserted for `dur` ns; a pulse of 1 µs to 10 µs acts if `acts` says so. -/
def execPorstNAssert (dur : Nat) (acts : Bool) (s : State) : Result :=
  .next <|
    if !s.power.on then (if s.power.latched ∧ 10000 ≤ dur then s.railsUp else s)
    else if dur < 1000 ∨ (dur < 10000 ∧ !acts) then s
    else
      let s1 := s.coldReset
      (s1.withPower { s1.power with released := false, shortReset := decide (dur < 10000) })

/-- R599: alarm bit `k`, whose field is `f`: its condition holds, or has cleared by its hysteresis. -/
def State.powerAlarm (s : State) (f : Fld) (k : Nat) (holds clear : Bool) : State :=
  let was := s.power.inAlarm.toNat.testBit k
  let put (s : State) (b : Bool) : State :=
    s.withPower { s.power with inAlarm := BitVec.ofNat 7 (setBits s.power.inAlarm.toNat k 1 (if b then 1 else 0)) }
  if holds && !was then put (s.setCause f 0 1) true
  else if was && clear then put s false
  else s

/-- TELEMETRY_UPDATE (R599): the power stage's measurements: VIN in mV, input current in 10 mA, input power in 0.1 W, the hottest sensor of
each die and the stage's in °C, the core currents in 0.1 A, and whether VDDQ is outside its range. -/
def execTelemetryUpdate (vin iin pin : Nat) (tjF tjT tStage : Int) (icoreF icoreT : Nat) (vddqBad : Bool) (s : State) : Result :=
  .next <|
    if s.inReset then s
    else
      let byte (t : Int) : Nat := (t % 256).toNat
      let s0 := s.advanceTo (s.power.lastTelem + ms 1)
      let s1 := ((s0.wr F.EAS_PWR_TELEM.VIN 0 vin).wr F.EAS_PWR_TELEM.IIN 0 iin).wr F.EAS_PWR_TELEM.PIN 0 pin
      let s2 := ((s1.wr F.EAS_PWR_TELEM.TJ_F 0 (byte tjF)).wr F.EAS_PWR_TELEM.TJ_T 0 (byte tjT)).wr F.EAS_PWR_TELEM.T_STAGE 0 (byte tStage)
      let s3 := ((s2.wr F.EAS_PWR_TELEM.ICORE_F 0 icoreF).wr F.EAS_PWR_TELEM.ICORE_T 0 icoreT).incWrap F.EAS_PWR_TELEM.SEQ
      let warn := 100 * s.rd F.EAS_PWR_CFG.VIN_WARN
      let tj := max tjF tjT
      let tw : Int := (s.rd F.EAS_PWR_CFG.TJ_WARN : Nat)
      let s4 := s3.powerAlarm F.EAS_PWR_ALARM.VIN_LOW 0 (decide (vin < warn)) (decide (warn + 200 ≤ vin))
      let s5 := s4.powerAlarm F.EAS_PWR_ALARM.VIN_HIGH 1 (decide (60500 < vin)) (decide (vin ≤ 60300))
      let s6 := s5.powerAlarm F.EAS_PWR_ALARM.TJ_WARN 2 (decide (tw ≤ tj)) (decide (tj ≤ tw - 2))
      let s7 := s6.powerAlarm F.EAS_PWR_ALARM.STAGE_HOT 3 (decide (110 ≤ tStage)) (decide (tStage ≤ 108))
      let s8 := s7.powerAlarm F.EAS_PWR_ALARM.VDDQ_FAULT 4 vddqBad (!vddqBad)
      let s9 := s8.powerAlarm F.EAS_PWR_ALARM.CURRENT_LIMIT 5 (decide (5000 ≤ iin)) (decide (iin < 5000))
      let s10 := s9.powerAlarm F.EAS_PWR_ALARM.TELEM_STALE 6 false true
      s10.withPower { s10.power with lastTelem := s0.now }

/-- TELEM_STALE (R599): no telemetry update has occurred for 10 ms. -/
def execTelemStale (s : State) : Result :=
  .next <|
    if s.inReset || s.power.inAlarm.toNat.testBit 6 then s
    else (s.advanceTo (s.power.lastTelem + ms 10)).powerAlarm F.EAS_PWR_ALARM.TELEM_STALE 6 true false

end Sys2Proof.Machine
end

