-- ==== Sys2Proof/Machine/Dispatch.lean ====
section
/-!
DEFINITION. What each command does: one arm for each constructor, each a direct call of its meaning.
-/
namespace Sys2Proof.Machine

/-- The effect of a command on everything but the queue. -/
def exec (i : Instr) (s : State) : Host.Outcome State Fault Refusal :=
  match i with
  | .registerWrite space addr width data => Sys2Proof.Machine.execRegisterWrite space addr width data s
  | .badRegisterAccess write space addr width data => Sys2Proof.Machine.execBadRegisterAccess write space addr width data s
  | .read64LowWord addr => Sys2Proof.Machine.execRead64LowWord addr s
  | .write64LowWord addr data => Sys2Proof.Machine.execWrite64LowWord addr data s
  | .readClearField space addr width => Sys2Proof.Machine.execReadClearField space addr width s
  | .latchingRead addr width => Sys2Proof.Machine.execLatchingRead addr width s
  | .flitCrcReplay toTraffic again ch => Sys2Proof.Machine.execFlitCrcReplay toTraffic again ch s
  | .seamReplayFailure toTraffic => Sys2Proof.Machine.execSeamReplayFailure toTraffic s
  | .seamDegraded flitsFwd flitsTrf => Sys2Proof.Machine.execSeamDegraded flitsFwd flitsTrf s
  | .frameReceive port octets fcsGood whole sub => Sys2Proof.Machine.execFrameReceive port octets fcsGood whole sub s
  | .pauseRepeat p => Sys2Proof.Machine.execPauseRepeat p s
  | .pauseFrameReceive p quanta => Sys2Proof.Machine.execPauseFrameReceive p quanta s
  | .pauseQuantaExpiry p => Sys2Proof.Machine.execPauseQuantaExpiry p s
  | .contextGrant port => Sys2Proof.Machine.execContextGrant port s
  | .earlyLookupIssue c slotFree => Sys2Proof.Machine.execEarlyLookupIssue c slotFree s
  | .programStart c => Sys2Proof.Machine.execProgramStart c s
  | .sketchLd c => Sys2Proof.Machine.execSketchLd c s
  | .sketchLdh c => Sys2Proof.Machine.execSketchLdh c s
  | .sketchMov c => Sys2Proof.Machine.execSketchMov c s
  | .sketchAdd c => Sys2Proof.Machine.execSketchAdd c s
  | .sketchSub c => Sys2Proof.Machine.execSketchSub c s
  | .sketchAnd c => Sys2Proof.Machine.execSketchAnd c s
  | .sketchOr c => Sys2Proof.Machine.execSketchOr c s
  | .sketchXor c => Sys2Proof.Machine.execSketchXor c s
  | .sketchShl c => Sys2Proof.Machine.execSketchShl c s
  | .sketchShr c => Sys2Proof.Machine.execSketchShr c s
  | .sketchCsum c => Sys2Proof.Machine.execSketchCsum c s
  | .sketchXcp c => Sys2Proof.Machine.execSketchXcp c s
  | .sketchSth c => Sys2Proof.Machine.execSketchSth c s
  | .sketchGetc c => Sys2Proof.Machine.execSketchGetc c s
  | .sketchAdv c => Sys2Proof.Machine.execSketchAdv c s
  | .sketchSetc c => Sys2Proof.Machine.execSketchSetc c s
  | .sketchHdr c => Sys2Proof.Machine.execSketchHdr c s
  | .sketchLchk c => Sys2Proof.Machine.execSketchLchk c s
  | .sketchBeq c => Sys2Proof.Machine.execSketchBeq c s
  | .sketchBne c => Sys2Proof.Machine.execSketchBne c s
  | .sketchBlt c => Sys2Proof.Machine.execSketchBlt c s
  | .sketchBge c => Sys2Proof.Machine.execSketchBge c s
  | .sketchBts c => Sys2Proof.Machine.execSketchBts c s
  | .sketchBtc c => Sys2Proof.Machine.execSketchBtc c s
  | .sketchJmp c => Sys2Proof.Machine.execSketchJmp c s
  | .sketchCall c => Sys2Proof.Machine.execSketchCall c s
  | .sketchJr c => Sys2Proof.Machine.execSketchJr c s
  | .sketchDone c => Sys2Proof.Machine.execSketchDone c s
  | .sketchExc c => Sys2Proof.Machine.execSketchExc c s
  | .sketchDrop c => Sys2Proof.Machine.execSketchDrop c s
  | .sketchNop c => Sys2Proof.Machine.execSketchNop c s
  | .headerVectorSend c => Sys2Proof.Machine.execHeaderVectorSend c s
  | .queueHandoff n => Sys2Proof.Machine.execQueueHandoff n s
  | .glazeStage n => Sys2Proof.Machine.execGlazeStage n s
  | .actionLdf n => Sys2Proof.Machine.execActionLdf n s
  | .actionStf n => Sys2Proof.Machine.execActionStf n s
  | .actionMov n => Sys2Proof.Machine.execActionMov n s
  | .actionAdd n => Sys2Proof.Machine.execActionAdd n s
  | .actionSub n => Sys2Proof.Machine.execActionSub n s
  | .actionAnd n => Sys2Proof.Machine.execActionAnd n s
  | .actionOr n => Sys2Proof.Machine.execActionOr n s
  | .actionXor n => Sys2Proof.Machine.execActionXor n s
  | .actionShl n => Sys2Proof.Machine.execActionShl n s
  | .actionShr n => Sys2Proof.Machine.execActionShr n s
  | .actionCsup n => Sys2Proof.Machine.execActionCsup n s
  | .actionIns n => Sys2Proof.Machine.execActionIns n s
  | .actionDel n => Sys2Proof.Machine.execActionDel n s
  | .actionSkz n => Sys2Proof.Machine.execActionSkz n s
  | .actionSknz n => Sys2Proof.Machine.execActionSknz n s
  | .actionEnd n => Sys2Proof.Machine.execActionEnd n s
  | .actionFwd n => Sys2Proof.Machine.execActionFwd n s
  | .actionFwdg n => Sys2Proof.Machine.execActionFwdg n s
  | .actionDrop n => Sys2Proof.Machine.execActionDrop n s
  | .actionCopy n => Sys2Proof.Machine.execActionCopy n s
  | .actionTrap n => Sys2Proof.Machine.execActionTrap n s
  | .actionMirr n => Sys2Proof.Machine.execActionMirr n s
  | .actionRecirc n => Sys2Proof.Machine.execActionRecirc n s
  | .actionPol n => Sys2Proof.Machine.execActionPol n s
  | .actionCnt n => Sys2Proof.Machine.execActionCnt n s
  | .actionHash n => Sys2Proof.Machine.execActionHash n s
  | .actionLearn n => Sys2Proof.Machine.execActionLearn n s
  | .actionNop n => Sys2Proof.Machine.execActionNop n s
  | .ingressReorderSettle n => Sys2Proof.Machine.execIngressReorderSettle n s
  | .chargeTrueUp n tail fcsGood => Sys2Proof.Machine.execChargeTrueUp n tail fcsGood s
  | .enqueue n => Sys2Proof.Machine.execEnqueue n s
  | .portSelection n arriving => Sys2Proof.Machine.execPortSelection n arriving s
  | .egressEntry n => Sys2Proof.Machine.execEgressEntry n s
  | .frameTransmit n sub => Sys2Proof.Machine.execFrameTransmit n sub s
  | .paceWindow counts => Sys2Proof.Machine.execPaceWindow counts s
  | .supplyLoopStep => Sys2Proof.Machine.execSupplyLoopStep s
  | .shedLevel2Entry => Sys2Proof.Machine.execShedLevel2Entry s
  | .shedStepDown => Sys2Proof.Machine.execShedStepDown s
  | .portEnable p v => Sys2Proof.Machine.execPortEnable p v s
  | .portDisable p v cut => Sys2Proof.Machine.execPortDisable p v cut s
  | .linkDown p cut => Sys2Proof.Machine.execLinkDown p cut s
  | .linkUp p => Sys2Proof.Machine.execLinkUp p s
  | .secondLatch => Sys2Proof.Machine.execSecondLatch s
  | .ohCandidateCheck ix pos ok => Sys2Proof.Machine.execOhCandidateCheck ix pos ok s
  | .ohPositionCheck ix form crc cr ca ccc rpf mf gid cal mgmt => Sys2Proof.Machine.execOhPositionCheck ix form crc cr ca ccc rpf mf gid cal mgmt s
  | .ohFieldAccept ix => Sys2Proof.Machine.execOhFieldAccept ix s
  | .txPageSwitch g => Sys2Proof.Machine.execTxPageSwitch g s
  | .protHoldoffExpiry ix => Sys2Proof.Machine.execProtHoldoffExpiry ix s
  | .protCaTimeout g => Sys2Proof.Machine.execProtCaTimeout g s
  | .swapNow => Sys2Proof.Machine.execSwapNow s
  | .swapArm => Sys2Proof.Machine.execSwapArm s
  | .swapCancel => Sys2Proof.Machine.execSwapCancel s
  | .armedSwapTime => Sys2Proof.Machine.execArmedSwapTime s
  | .coatFlip => Sys2Proof.Machine.execCoatFlip s
  | .coatRetire => Sys2Proof.Machine.execCoatRetire s
  | .coatMeasure => Sys2Proof.Machine.execCoatMeasure s
  | .agentRead a => Sys2Proof.Machine.execAgentRead a s
  | .agentWrite a => Sys2Proof.Machine.execAgentWrite a s
  | .agentInsert a => Sys2Proof.Machine.execAgentInsert a s
  | .agentDelete a => Sys2Proof.Machine.execAgentDelete a s
  | .agentSearch a => Sys2Proof.Machine.execAgentSearch a s
  | .agentMove a => Sys2Proof.Machine.execAgentMove a s
  | .suspectRepair pos => Sys2Proof.Machine.execSuspectRepair pos s
  | .stencilScrubStep k hits => Sys2Proof.Machine.execStencilScrubStep k hits s
  | .sramScrub hits => Sys2Proof.Machine.execSramScrub hits s
  | .descWord0Write b t v => Sys2Proof.Machine.execDescWord0Write b t v s
  | .bankWidthWrite k v => Sys2Proof.Machine.execBankWidthWrite k v s
  | .ageUnitTick t => Sys2Proof.Machine.execAgeUnitTick t s
  | .ageEntryVisit t slot => Sys2Proof.Machine.execAgeEntryVisit t slot s
  | .pounceHandoff n => Sys2Proof.Machine.execPounceHandoff n s
  | .legacySearch n => Sys2Proof.Machine.execLegacySearch n s
  | .setDescWord0Write b k v => Sys2Proof.Machine.execSetDescWord0Write b k v s
  | .loadDataWrite v => Sys2Proof.Machine.execLoadDataWrite v s
  | .bufferAllocate c o pool => Sys2Proof.Machine.execBufferAllocate c o pool s
  | .bufferReference p bytes => Sys2Proof.Machine.execBufferReference p bytes s
  | .bufferFree p o => Sys2Proof.Machine.execBufferFree p o s
  | .bufferTransfer p a b => Sys2Proof.Machine.execBufferTransfer p a b s
  | .headCacheRefill => Sys2Proof.Machine.execHeadCacheRefill s
  | .spillMove q => Sys2Proof.Machine.execSpillMove q s
  | .runAheadStep q => Sys2Proof.Machine.execRunAheadStep q s
  | .runAheadLand q => Sys2Proof.Machine.execRunAheadLand q s
  | .queueFlush q => Sys2Proof.Machine.execQueueFlush q s
  | .chainRebuild => Sys2Proof.Machine.execChainRebuild s
  | .auditStart => Sys2Proof.Machine.execAuditStart s
  | .auditPeriod => Sys2Proof.Machine.execAuditPeriod s
  | .auditSweepEnd => Sys2Proof.Machine.execAuditSweepEnd s
  | .auditPop => Sys2Proof.Machine.execAuditPop s
  | .swAlloc => Sys2Proof.Machine.execSwAlloc s
  | .swFree => Sys2Proof.Machine.execSwFree s
  | .swRead => Sys2Proof.Machine.execSwRead s
  | .swRetire => Sys2Proof.Machine.execSwRetire s
  | .swUnretire => Sys2Proof.Machine.execSwUnretire s
  | .shaperRefill level ix => Sys2Proof.Machine.execShaperRefill level ix s
  | .voqDequeue words => Sys2Proof.Machine.execVoqDequeue words s
  | .portNodeEnable n v => Sys2Proof.Machine.execPortNodeEnable n v s
  | .portLinkLost n cut => Sys2Proof.Machine.execPortLinkLost n cut s
  | .portLinkReturn n => Sys2Proof.Machine.execPortLinkReturn n s
  | .portHoldExpiry n => Sys2Proof.Machine.execPortHoldExpiry n s
  | .portFlushComplete n => Sys2Proof.Machine.execPortFlushComplete n s
  | .portNodeDisable n v => Sys2Proof.Machine.execPortNodeDisable n v s
  | .queueFlushComplete q => Sys2Proof.Machine.execQueueFlushComplete q s
  | .accRead => Sys2Proof.Machine.execAccRead s
  | .accWrite => Sys2Proof.Machine.execAccWrite s
  | .accFlush => Sys2Proof.Machine.execAccFlush s
  | .queueSample => Sys2Proof.Machine.execQueueSample s
  | .dramCommandIssue ch strikes => Sys2Proof.Machine.execDramCommandIssue ch strikes s
  | .dramReadReturn ch dq cb fails => Sys2Proof.Machine.execDramReadReturn ch dq cb fails s
  | .refresh ch => Sys2Proof.Machine.execRefresh ch s
  | .tempWrite v => Sys2Proof.Machine.execTempWrite v s
  | .tempStale => Sys2Proof.Machine.execTempStale s
  | .patrolScrub ch dq cb fails => Sys2Proof.Machine.execPatrolScrub ch dq cb fails s
  | .fullTraining failed => Sys2Proof.Machine.execFullTraining failed s
  | .periodicTrainingStep ch => Sys2Proof.Machine.execPeriodicTrainingStep ch s
  | .trainingStepEnd ch => Sys2Proof.Machine.execTrainingStepEnd ch s
  | .channelLost ch cause => Sys2Proof.Machine.execChannelLost ch cause s
  | .errPop => Sys2Proof.Machine.execErrPop s
  | .freqGo target => Sys2Proof.Machine.execFreqGo target s
  | .freqSwitchComplete => Sys2Proof.Machine.execFreqSwitchComplete s
  | .freqTrainingComplete bad worse => Sys2Proof.Machine.execFreqTrainingComplete bad worse s
  | .laneLock l => Sys2Proof.Machine.execLaneLock l s
  | .laneDown l => Sys2Proof.Machine.execLaneDown l s
  | .laneEnWrite w v => Sys2Proof.Machine.execLaneEnWrite w v s
  | .slotTransmit l => Sys2Proof.Machine.execSlotTransmit l s
  | .swatchReceive l octets => Sys2Proof.Machine.execSwatchReceive l octets s
  | .creditSwatchReceive l octets => Sys2Proof.Machine.execCreditSwatchReceive l octets s
  | .linkControlReceive l octets => Sys2Proof.Machine.execLinkControlReceive l octets s
  | .creditIssue d c => Sys2Proof.Machine.execCreditIssue d c s
  | .creditRefresh => Sys2Proof.Machine.execCreditRefresh s
  | .reachabilitySend => Sys2Proof.Machine.execReachabilitySend s
  | .unreachExpiry d => Sys2Proof.Machine.execUnreachExpiry d s
  | .gapRelease src cls => Sys2Proof.Machine.execGapRelease src cls s
  | .treeEnable n v => Sys2Proof.Machine.execTreeEnable n v s
  | .treeDisable n v => Sys2Proof.Machine.execTreeDisable n v s
  | .downstreamFrame n => Sys2Proof.Machine.execDownstreamFrame n s
  | .bwmapCompute n => Sys2Proof.Machine.execBwmapCompute n s
  | .dbaCycle n => Sys2Proof.Machine.execDbaCycle n s
  | .burstReceive n off hdr bad phase gain reports => Sys2Proof.Machine.execBurstReceive n off hdr bad phase gain reports s
  | .burstMissed n sd => Sys2Proof.Machine.execBurstMissed n sd s
  | .pbrResetPulse n => Sys2Proof.Machine.execPbrResetPulse n s
  | .snWindowOpen n => Sys2Proof.Machine.execSnWindowOpen n s
  | .serialNumberOnu n decoded sn arrival delay micOk content => Sys2Proof.Machine.execSerialNumberOnu n decoded sn arrival delay micOk content s
  | .rangingResponse n ix arrival micOk phase gain content => Sys2Proof.Machine.execRangingResponse n ix arrival micOk phase gain content s
  | .rangingWindowClose n ix => Sys2Proof.Machine.execRangingWindowClose n ix s
  | .to2Expiry n ix => Sys2Proof.Machine.execTo2Expiry n ix s
  | .onuDeactivate n => Sys2Proof.Machine.execOnuDeactivate n s
  | .onuDisable n => Sys2Proof.Machine.execOnuDisable n s
  | .onuEnable n => Sys2Proof.Machine.execOnuEnable n s
  | .onuReqReg n => Sys2Proof.Machine.execOnuReqReg n s
  | .upstreamPloam n ix micOk ack content => Sys2Proof.Machine.execUpstreamPloam n ix micOk ack content s
  | .sndisClear k => Sys2Proof.Machine.execSndisClear k s
  | .reassemblyTimeout a => Sys2Proof.Machine.execReassemblyTimeout a s
  | .upstreamXgemFrame n j port idx last bad octets => Sys2Proof.Machine.execUpstreamXgemFrame n j port idx last bad octets s
  | .downstreamGemExit k => Sys2Proof.Machine.execDownstreamGemExit k s
  | .keyWrite => Sys2Proof.Machine.execKeyWrite s
  | .keyClear => Sys2Proof.Machine.execKeyClear s
  | .keySwitch => Sys2Proof.Machine.execKeySwitch s
  | .rogueFrameEval n seen sdNow => Sys2Proof.Machine.execRogueFrameEval n seen sdNow s
  | .probeGo n onu frames => Sys2Proof.Machine.execProbeGo n onu frames s
  | .probeEnd n => Sys2Proof.Machine.execProbeEnd n s
  | .allocEnable a v => Sys2Proof.Machine.execAllocEnable a v s
  | .gemEnable g v => Sys2Proof.Machine.execGemEnable g v s
  | .sysrefLoss => Sys2Proof.Machine.execSysrefLoss s
  | .sysrefReturn => Sys2Proof.Machine.execSysrefReturn s
  | .anchorArm => Sys2Proof.Machine.execAnchorArm s
  | .anchorCancel => Sys2Proof.Machine.execAnchorCancel s
  | .anchorFlip => Sys2Proof.Machine.execAnchorFlip s
  | .txtsPop => Sys2Proof.Machine.execTxtsPop s
  | .launchEligible q => Sys2Proof.Machine.execLaunchEligible q s
  | .launchTimeReached k => Sys2Proof.Machine.execLaunchTimeReached k s
  | .ppsOutRise => Sys2Proof.Machine.execPpsOutRise s
  | .ppsOutFall => Sys2Proof.Machine.execPpsOutFall s
  | .ppsInEdge sub => Sys2Proof.Machine.execPpsInEdge sub s
  | .doorbellWrite k half value => Sys2Proof.Machine.execDoorbellWrite k half value s
  | .puntWrite ring buf => Sys2Proof.Machine.execPuntWrite ring buf s
  | .injectFetch r desc content => Sys2Proof.Machine.execInjectFetch r desc content s
  | .dmaError k buffer => Sys2Proof.Machine.execDmaError k buffer s
  | .ringEnable k => Sys2Proof.Machine.execRingEnable k s
  | .ringDisable k => Sys2Proof.Machine.execRingDisable k s
  | .eventFire => Sys2Proof.Machine.execEventFire s
  | .coalesceTime v => Sys2Proof.Machine.execCoalesceTime v s
  | .vectorArbitration v => Sys2Proof.Machine.execVectorArbitration v s
  | .msixSend v => Sys2Proof.Machine.execMsixSend v s
  | .evcComplete v src => Sys2Proof.Machine.execEvcComplete v src s
  | .evcPendingWrite w value => Sys2Proof.Machine.execEvcPendingWrite w value s
  | .evcMaskWrite w value => Sys2Proof.Machine.execEvcMaskWrite w value s
  | .evcRescan words => Sys2Proof.Machine.execEvcRescan words s
  | .d3hotEntry => Sys2Proof.Machine.execD3hotEntry s
  | .d0Return => Sys2Proof.Machine.execD0Return s
  | .l2Entry => Sys2Proof.Machine.execL2Entry s
  | .perstRelease speed width good => Sys2Proof.Machine.execPerstRelease speed width good s
  | .cntRead ix strikes => Sys2Proof.Machine.execCntRead ix strikes s
  | .cntReadClear ix strikes => Sys2Proof.Machine.execCntReadClear ix strikes s
  | .cntZero ix => Sys2Proof.Machine.execCntZero ix s
  | .counterCacheWriteback ix strikes => Sys2Proof.Machine.execCounterCacheWriteback ix strikes s
  | .freeze => Sys2Proof.Machine.execFreeze s
  | .freezeInstant => Sys2Proof.Machine.execFreezeInstant s
  | .thaw => Sys2Proof.Machine.execThaw s
  | .snapshot => Sys2Proof.Machine.execSnapshot s
  | .snapshotComplete => Sys2Proof.Machine.execSnapshotComplete s
  | .bwWindowBoundary => Sys2Proof.Machine.execBwWindowBoundary s
  | .isampClear => Sys2Proof.Machine.execIsampClear s
  | .powerUp => Sys2Proof.Machine.execPowerUp s
  | .powerShutdown cause => Sys2Proof.Machine.execPowerShutdown cause s
  | .vinRestore => Sys2Proof.Machine.execVinRestore s
  | .telemetryUpdate vin iin pin tjF tjT tStage icoreF icoreT vddqBad => Sys2Proof.Machine.execTelemetryUpdate vin iin pin tjF tjT tStage icoreF icoreT vddqBad s
  | .coldStart failFwd failTrf failed flashOk peerActing took => Sys2Proof.Machine.execColdStart failFwd failTrf failed flashOk peerActing took s
  | .warmRestart pulse failFwd failTrf failed varnishOk peerActing took => Sys2Proof.Machine.execWarmRestart pulse failFwd failTrf failed varnishOk peerActing took s
  | .varnishMirror flashOk => Sys2Proof.Machine.execVarnishMirror flashOk s
  | .getInfo flashOk => Sys2Proof.Machine.execGetInfo flashOk s
  | .flashRead flashOk => Sys2Proof.Machine.execFlashRead flashOk s
  | .flashWrite flashOk => Sys2Proof.Machine.execFlashWrite flashOk s
  | .verifySlot flashOk => Sys2Proof.Machine.execVerifySlot flashOk s
  | .setBoot flashOk => Sys2Proof.Machine.execSetBoot flashOk s
  | .confirm flashOk => Sys2Proof.Machine.execConfirm flashOk s
  | .switchFw flashOk took => Sys2Proof.Machine.execSwitchFw flashOk took s
  | .loomLoad flashOk => Sys2Proof.Machine.execLoomLoad flashOk s
  | .loomSwap => Sys2Proof.Machine.execLoomSwap s
  | .stageCoat flashOk => Sys2Proof.Machine.execStageCoat flashOk s
  | .restartWarm flashOk => Sys2Proof.Machine.execRestartWarm flashOk s
  | .attest => Sys2Proof.Machine.execAttest s
  | .getIdentity => Sys2Proof.Machine.execGetIdentity s
  | .keyProgram => Sys2Proof.Machine.execKeyProgram s
  | .keyRevoke => Sys2Proof.Machine.execKeyRevoke s
  | .raiseVersion => Sys2Proof.Machine.execRaiseVersion s
  | .logRead flashOk => Sys2Proof.Machine.execLogRead flashOk s
  | .mirrorNow flashOk => Sys2Proof.Machine.execMirrorNow flashOk s
  | .restartCold => Sys2Proof.Machine.execRestartCold s
  | .announceSend => Sys2Proof.Machine.execAnnounceSend s
  | .timeSend sub => Sys2Proof.Machine.execTimeSend sub s
  | .mapSend => Sys2Proof.Machine.execMapSend s
  | .announceReceive l m fcs => Sys2Proof.Machine.execAnnounceReceive l m fcs s
  | .timeReceive l m fcs sub => Sys2Proof.Machine.execTimeReceive l m fcs sub s
  | .mapReceive l m fcs => Sys2Proof.Machine.execMapReceive l m fcs s
  | .joinReceive l m fcs => Sys2Proof.Machine.execJoinReceive l m fcs s
  | .prepareReceive l m fcs => Sys2Proof.Machine.execPrepareReceive l m fcs s
  | .replyReceive l m fcs => Sys2Proof.Machine.execReplyReceive l m fcs s
  | .replyTimeout => Sys2Proof.Machine.execReplyTimeout s
  | .cancelReceive l m fcs => Sys2Proof.Machine.execCancelReceive l m fcs s
  | .uplinkLost lock => Sys2Proof.Machine.execUplinkLost lock s
  | .secondaryTakeover => Sys2Proof.Machine.execSecondaryTakeover s
  | .revert => Sys2Proof.Machine.execRevert s
  | .commitGo coat t => Sys2Proof.Machine.execCommitGo coat t s
  | .commitDeadline => Sys2Proof.Machine.execCommitDeadline s
  | .commitCompare => Sys2Proof.Machine.execCommitCompare s
  | .mapRemove md => Sys2Proof.Machine.execMapRemove md s
  | .pcsStatusChange p blockLock amLock lf rf errs => Sys2Proof.Machine.execPcsStatusChange p blockLock amLock lf rf errs s
  | .markerCandidate ix pos => Sys2Proof.Machine.execMarkerCandidate ix pos s
  | .flexeInstanceEnable ix v => Sys2Proof.Machine.execFlexeInstanceEnable ix v s
  | .caParityError ch fails => Sys2Proof.Machine.execCaParityError ch fails s
  | .porstNAssert dur acts => Sys2Proof.Machine.execPorstNAssert dur acts s
  | .telemStale => Sys2Proof.Machine.execTelemStale s
  | .emvexLaneDown l lock => Sys2Proof.Machine.execEmvexLaneDown l lock s

end Sys2Proof.Machine
end

