-- ==== Sys2Proof/Machine/Idle.lean ====
section
/-!
DEFINITION. What the block does when no command waits.
-/
namespace Sys2Proof.Machine

/-- R458, assumption 1: with no command waiting one cycle of SYSREF passes: while SYSREF is present the FRC counts 40 ns of it. -/
def State.idle (s : State) : State := s.advanceTo (s.now + ns 40)

end Sys2Proof.Machine
end

