-- ==== Sys2Proof/WellFormed.lean ====
section
/-!
DEFINITION. Which commands are well formed: every operand lies in the range that the part's numbering gives it.
-/
namespace Sys2Proof

/-- The operands of a command lie in their ranges. -/
def Instr.wf (i : Instr) : Bool :=
  match i with
  | .registerWrite space addr _ data => decide (space < 3) && decide (addr < 2 ^ 26) && decide (data < 2 ^ 64)
  | .badRegisterAccess _ space addr _ data => decide (space < 3) && decide (addr < 2 ^ 26) && decide (data < 2 ^ 64)
  | .read64LowWord addr => decide (addr < 2 ^ 26)
  | .write64LowWord addr data => decide (addr < 2 ^ 26) && decide (data < 2 ^ 32)
  | .readClearField space addr _ => decide (space < 3) && decide (addr < 2 ^ 26)
  | .latchingRead addr _ => decide (addr < 2 ^ 26)
  | .flitCrcReplay _ _ ch => decide (ch < 4)
  | .seamReplayFailure _ => true
  | .seamDegraded _ _ => true
  | .frameReceive port _ _ _ sub => decide (port < 176) && decide (sub < 640)
  | .pauseRepeat p => decide (p < 64)
  | .pauseFrameReceive p quanta => decide (p < 64) && decide (quanta < 65536)
  | .pauseQuantaExpiry p => decide (p < 64)
  | .contextGrant port => decide (port < 212)
  | .earlyLookupIssue c _ => decide (c < 4096)
  | .programStart c => decide (c < 4096)
  | .sketchLd c => decide (c < 4096)
  | .sketchLdh c => decide (c < 4096)
  | .sketchMov c => decide (c < 4096)
  | .sketchAdd c => decide (c < 4096)
  | .sketchSub c => decide (c < 4096)
  | .sketchAnd c => decide (c < 4096)
  | .sketchOr c => decide (c < 4096)
  | .sketchXor c => decide (c < 4096)
  | .sketchShl c => decide (c < 4096)
  | .sketchShr c => decide (c < 4096)
  | .sketchCsum c => decide (c < 4096)
  | .sketchXcp c => decide (c < 4096)
  | .sketchSth c => decide (c < 4096)
  | .sketchGetc c => decide (c < 4096)
  | .sketchAdv c => decide (c < 4096)
  | .sketchSetc c => decide (c < 4096)
  | .sketchHdr c => decide (c < 4096)
  | .sketchLchk c => decide (c < 4096)
  | .sketchBeq c => decide (c < 4096)
  | .sketchBne c => decide (c < 4096)
  | .sketchBlt c => decide (c < 4096)
  | .sketchBge c => decide (c < 4096)
  | .sketchBts c => decide (c < 4096)
  | .sketchBtc c => decide (c < 4096)
  | .sketchJmp c => decide (c < 4096)
  | .sketchCall c => decide (c < 4096)
  | .sketchJr c => decide (c < 4096)
  | .sketchDone c => decide (c < 4096)
  | .sketchExc c => decide (c < 4096)
  | .sketchDrop c => decide (c < 4096)
  | .sketchNop c => decide (c < 4096)
  | .headerVectorSend c => decide (c < 4096)
  | .queueHandoff _ => true
  | .glazeStage _ => true
  | .actionLdf _ => true
  | .actionStf _ => true
  | .actionMov _ => true
  | .actionAdd _ => true
  | .actionSub _ => true
  | .actionAnd _ => true
  | .actionOr _ => true
  | .actionXor _ => true
  | .actionShl _ => true
  | .actionShr _ => true
  | .actionCsup _ => true
  | .actionIns _ => true
  | .actionDel _ => true
  | .actionSkz _ => true
  | .actionSknz _ => true
  | .actionEnd _ => true
  | .actionFwd _ => true
  | .actionFwdg _ => true
  | .actionDrop _ => true
  | .actionCopy _ => true
  | .actionTrap _ => true
  | .actionMirr _ => true
  | .actionRecirc _ => true
  | .actionPol _ => true
  | .actionCnt _ => true
  | .actionHash _ => true
  | .actionLearn _ => true
  | .actionNop _ => true
  | .ingressReorderSettle _ => true
  | .chargeTrueUp _ _ _ => true
  | .enqueue _ => true
  | .portSelection n _ => decide (n < 512)
  | .egressEntry _ => true
  | .frameTransmit n sub => decide (n < 512) && decide (sub < 640)
  | .paceWindow counts => counts.length == 16
  | .supplyLoopStep => true
  | .shedLevel2Entry => true
  | .shedStepDown => true
  | .portEnable p v => decide (p < 64) && decide (v < 2 ^ 64)
  | .portDisable p v _ => decide (p < 64) && decide (v < 2 ^ 64)
  | .linkDown p _ => (decide (p < 64) || (decide (112 ≤ p) && decide (p < 176)))
  | .linkUp p => (decide (p < 64) || (decide (112 ≤ p) && decide (p < 176)))
  | .secondLatch => true
  | .ohCandidateCheck i _ _ => decide (i < 64)
  | .ohPositionCheck i _ _ _ _ _ _ _ gid _ _ => decide (i < 64) && decide (gid < 2 ^ 20)
  | .ohFieldAccept i => decide (i < 64)
  | .txPageSwitch g => decide (g.1 < 16)
  | .protHoldoffExpiry i => decide (i < 64)
  | .protCaTimeout g => decide (g < 16)
  | .swapNow => true
  | .swapArm => true
  | .swapCancel => true
  | .armedSwapTime => true
  | .coatFlip => true
  | .coatRetire => true
  | .coatMeasure => true
  | .agentRead a => decide (a < 8)
  | .agentWrite a => decide (a < 8)
  | .agentInsert a => decide (a < 8)
  | .agentDelete a => decide (a < 8)
  | .agentSearch a => decide (a < 8)
  | .agentMove a => decide (a < 8)
  | .suspectRepair pos => decide (pos < 524288)
  | .stencilScrubStep k hits => decide (k < 128) && hits.all (fun h => decide (h.1 < 524288))
  | .sramScrub hits => hits.all (fun h => decide (h.1 < 5))
  | .descWord0Write _ t v => decide (t < 256) && decide (v < 2 ^ 64)
  | .bankWidthWrite k v => decide (k < 128) && decide (v < 4)
  | .ageUnitTick t => decide (t < 256)
  | .ageEntryVisit t _ => decide (t < 256)
  | .pounceHandoff _ => true
  | .legacySearch _ => true
  | .setDescWord0Write _ k v => decide (k < 64) && decide (v < 2 ^ 64)
  | .loadDataWrite _ => true
  | .bufferAllocate c o pool => decide (c < 7) && decide (o < 64) && decide (pool < 2)
  | .bufferReference p _ => decide (p < 2 ^ 32)
  | .bufferFree p o => decide (p < 2 ^ 32) && decide (o < 64)
  | .bufferTransfer p a b => decide (p < 2 ^ 32) && decide (a < 64) && decide (b < 64)
  | .headCacheRefill => true
  | .spillMove q => decide (q < 1064960)
  | .runAheadStep q => decide (q < 1064960)
  | .runAheadLand q => decide (q < 1064960)
  | .queueFlush q => decide (q < 1064960)
  | .chainRebuild => true
  | .auditStart => true
  | .auditPeriod => true
  | .auditSweepEnd => true
  | .auditPop => true
  | .swAlloc => true
  | .swFree => true
  | .swRead => true
  | .swRetire => true
  | .swUnretire => true
  | .shaperRefill level i => decide (level < 3) && decide (i < (if level = 0 then 1048576 else if level = 1 then 262144 else 512))
  | .voqDequeue words => words.all (fun w => decide (w.1 < 167772160))
  | .portNodeEnable n v => decide (n < 512) && decide (v < 2 ^ 32)
  | .portLinkLost n _ => decide (n < 512)
  | .portLinkReturn n => decide (n < 512)
  | .portHoldExpiry n => decide (n < 512)
  | .portFlushComplete n => decide (n < 512)
  | .portNodeDisable n v => decide (n < 512) && decide (v < 2 ^ 32)
  | .queueFlushComplete q => decide (q < 1064960)
  | .accRead => true
  | .accWrite => true
  | .accFlush => true
  | .queueSample => true
  | .dramCommandIssue ch strikes => decide (ch < 16) && strikes.all (fun e => decide (e.1 < 2 ^ 40) && decide (e.2 < 2 ^ 64))
  | .dramReadReturn ch dq cb fails => decide (ch < 16) && dq.all (fun e => decide (e.1 < 2 ^ 40) && decide (e.2 < 2 ^ 64)) && cb.all (fun e => decide (e.1 < 2 ^ 40) && decide (e.2 < 2 ^ 16)) && fails.all (fun d => decide (d < 20))
  | .refresh ch => decide (ch < 16)
  | .tempWrite v => decide (v < 256)
  | .tempStale => true
  | .patrolScrub ch dq cb fails => decide (ch < 16) && dq.all (fun e => decide (e.1 < 2 ^ 40) && decide (e.2 < 2 ^ 64)) && cb.all (fun e => decide (e.1 < 2 ^ 40) && decide (e.2 < 2 ^ 16)) && fails.all (fun d => decide (d < 20))
  | .fullTraining failed => failed.all (fun c => decide (c < 16))
  | .periodicTrainingStep ch => decide (ch < 16)
  | .trainingStepEnd ch => decide (ch < 16)
  | .channelLost ch cause => decide (ch < 16) && decide (cause < 3)
  | .errPop => true
  | .freqGo target => decide (target < 4)
  | .freqSwitchComplete => true
  | .freqTrainingComplete bad worse => worse.all (fun c => decide (c < 16)) && bad.all (fun c => decide (c < 16))
  | .laneLock l => decide (l < 96)
  | .laneDown l => decide (l < 96)
  | .laneEnWrite w v => decide (w < 2) && decide (v < 2 ^ 64)
  | .slotTransmit l => decide (l < 96)
  | .swatchReceive l octets => decide (l < 96) && octets.length == 272
  | .creditSwatchReceive l octets => decide (l < 96) && octets.length == 272
  | .linkControlReceive l octets => decide (l < 96) && octets.length == 272
  | .creditIssue d c => decide (d < 2048) && decide (c < 8)
  | .creditRefresh => true
  | .reachabilitySend => true
  | .unreachExpiry d => decide (d < 2048)
  | .gapRelease src cls => decide (src < 2048) && decide (cls < 8)
  | .treeEnable n v => decide (n < 48) && decide (v < 2 ^ 64)
  | .treeDisable n v => decide (n < 48) && decide (v < 2 ^ 64)
  | .downstreamFrame n => decide (n < 48)
  | .bwmapCompute n => decide (n < 48)
  | .dbaCycle n => decide (n < 48)
  | .burstReceive n _ _ _ _ _ _ => decide (n < 48)
  | .burstMissed n _ => decide (n < 48)
  | .pbrResetPulse n => decide (n < 48)
  | .snWindowOpen n => decide (n < 48)
  | .serialNumberOnu n _ sn _ _ _ _ => decide (n < 48) && decide (sn < 2 ^ 64)
  | .rangingResponse n i _ _ _ _ _ => decide (n < 48) && decide (i < 256)
  | .rangingWindowClose n i => decide (n < 48) && decide (i < 256)
  | .to2Expiry n i => decide (n < 48) && decide (i < 256)
  | .onuDeactivate n => decide (n < 48)
  | .onuDisable n => decide (n < 48)
  | .onuEnable n => decide (n < 48)
  | .onuReqReg n => decide (n < 48)
  | .upstreamPloam n i _ _ _ => decide (n < 48) && decide (i < 256)
  | .sndisClear k => decide (k < 64)
  | .reassemblyTimeout a => decide (a < 32768)
  | .upstreamXgemFrame n _ port idx _ _ _ => decide (n < 48) && decide (port < 65536) && decide (idx < 4)
  | .downstreamGemExit _ => true
  | .keyWrite => true
  | .keyClear => true
  | .keySwitch => true
  | .rogueFrameEval n _ _ => decide (n < 48)
  | .probeGo n onu frames => decide (n < 48) && decide (onu < 256) && decide (frames < 256)
  | .probeEnd n => decide (n < 48)
  | .allocEnable a v => decide (a < 32768) && decide (v < 2 ^ 64)
  | .gemEnable g v => decide (g < 65536) && decide (v < 2 ^ 64)
  | .sysrefLoss => true
  | .sysrefReturn => true
  | .anchorArm => true
  | .anchorCancel => true
  | .anchorFlip => true
  | .txtsPop => true
  | .launchEligible q => decide (q < 1048576)
  | .launchTimeReached _ => true
  | .ppsOutRise => true
  | .ppsOutFall => true
  | .ppsInEdge sub => decide (sub < 640)
  | .doorbellWrite k half value => decide (k < 67) && decide (half < 3) && decide (value < 2 ^ 64)
  | .puntWrite ring buf => decide (ring < 32) && decide (buf < 2 ^ 64)
  | .injectFetch r desc _ => decide (r < 32) && desc.length == 64
  | .dmaError k _ => decide (k < 67)
  | .ringEnable k => decide (k < 67)
  | .ringDisable k => decide (k < 67)
  | .eventFire => true
  | .coalesceTime v => decide (v < 64)
  | .vectorArbitration v => decide (v < 64)
  | .msixSend v => decide (v < 64)
  | .evcComplete v src => decide (v < 64) && decide (src < 256)
  | .evcPendingWrite w value => decide (w < 8) && decide (value < 2 ^ 32)
  | .evcMaskWrite w value => decide (w < 8) && decide (value < 2 ^ 32)
  | .evcRescan words => decide (words < 256)
  | .d3hotEntry => true
  | .d0Return => true
  | .l2Entry => true
  | .perstRelease speed width _ => decide (speed < 8) && decide (width < 16)
  | .cntRead i strikes => strikes.all (fun e => decide (e.1 < 2 ^ 40) && decide (e.2 < 2 ^ 64)) && decide (i < 17039360)
  | .cntReadClear i strikes => strikes.all (fun e => decide (e.1 < 2 ^ 40) && decide (e.2 < 2 ^ 64)) && decide (i < 17039360)
  | .cntZero i => decide (i < 17039360)
  | .counterCacheWriteback i strikes => strikes.all (fun e => decide (e.1 < 2 ^ 40) && decide (e.2 < 2 ^ 64)) && decide (i < 17039360)
  | .freeze => true
  | .freezeInstant => true
  | .thaw => true
  | .snapshot => true
  | .snapshotComplete => true
  | .bwWindowBoundary => true
  | .isampClear => true
  | .powerUp => true
  | .powerShutdown cause => (decide (1 ≤ cause) && decide (cause ≤ 5))
  | .vinRestore => true
  | .telemetryUpdate vin iin pin _ _ _ icoreF icoreT _ => decide (vin < 65536) && decide (iin < 65536) && decide (pin < 65536) && decide (icoreF < 65536) && decide (icoreT < 65536)
  | .coldStart _ _ failed _ _ took => failed.all (fun c => decide (c < 16)) && decide (took < 1800000001)
  | .warmRestart _ _ _ failed _ _ took => failed.all (fun c => decide (c < 16)) && decide (took < 250000001)
  | .varnishMirror _ => true
  | .getInfo _ => true
  | .flashRead _ => true
  | .flashWrite _ => true
  | .verifySlot _ => true
  | .setBoot _ => true
  | .confirm _ => true
  | .switchFw _ took => decide (took < 500000001)
  | .loomLoad _ => true
  | .loomSwap => true
  | .stageCoat _ => true
  | .restartWarm _ => true
  | .attest => true
  | .getIdentity => true
  | .keyProgram => true
  | .keyRevoke => true
  | .raiseVersion => true
  | .logRead _ => true
  | .mirrorNow _ => true
  | .restartCold => true
  | .announceSend => true
  | .timeSend sub => decide (sub < 640)
  | .mapSend => true
  | .announceReceive l _ _ => decide (l < 18)
  | .timeReceive l _ _ sub => decide (l < 18) && decide (sub < 640)
  | .mapReceive l _ _ => decide (l < 18)
  | .joinReceive l _ _ => decide (l < 18)
  | .prepareReceive l _ _ => decide (l < 18)
  | .replyReceive l _ _ => decide (l < 18)
  | .replyTimeout => true
  | .cancelReceive l _ _ => decide (l < 18)
  | .uplinkLost _ => true
  | .secondaryTakeover => true
  | .revert => true
  | .commitGo coat t => decide (coat < 65536) && decide (t < 2 ^ 64)
  | .commitDeadline => true
  | .commitCompare => true
  | .mapRemove md => decide (md < 2048)
  | .pcsStatusChange p _ _ _ _ _ => (decide (p < 64) || (decide (112 ≤ p) && decide (p < 176)))
  | .markerCandidate i _ => decide (i < 64)
  | .flexeInstanceEnable i v => decide (i < 64) && decide (v < 2 ^ 32)
  | .caParityError ch _ => decide (ch < 16)
  | .porstNAssert _ _ => true
  | .telemStale => true
  | .emvexLaneDown l _ => decide (l < 18)

end Sys2Proof
end

