-- ==== Sys2Proof/Safety.lean ====
section
/-!
DEFINITION. What a safe state and a safe run are, in the words statements use: the register space in its one canonical form, every
waiting command well formed, and a run that no fault or refusal ends.
-/
namespace Sys2Proof.Machine

/-- The register space is in its one canonical form: places strictly rising and no register listed that holds its reset value. -/
def State.regsOk (s : State) : Bool := Sparse.wf regsReset s.regs

/-- Every command that waits is well formed. -/
def State.pendingOk (s : State) : Bool := s.pending.all Instr.wf

/-- Every field of a register lies within the widest register (R12 to R14). -/
def Fld.fits (f : Fld) : Bool := decide (f.lo + f.len ≤ 320)

/-- Two fields share no bit: they belong to different registers, or to different places of one. -/
def Fld.apart (f g : Fld) : Bool := f.reg != g.reg || decide (f.lo + f.len ≤ g.lo) || decide (g.lo + g.len ≤ f.lo)

/-- Of all fields of all registers, only the listed ones, each of the entry named, may read differently in `t` than in `s`. -/
def State.onlyFields (l : List (Fld × Nat)) (s t : State) : Prop :=
  ∀ (g : Fld) (j : Nat), g.fits = true → (∀ e ∈ l, e.2 = j → e.1.apart g = true) → t.rd g j = s.rd g j

/-- R13, R14, R53 to R56, R553, R597: an access of `width` octets at `addr` of BAR0 reaches a register. -/
def State.reaches (s : State) (addr width : Nat) : Bool :=
  !s.host.asleep && !s.inReset && goodAccess addr width && !s.gateBoot addr && !s.gateSeam addr &&
    !inMbox addr && !inMsix addr && !inPba addr

/-- How far entry `i` of a register lies from its base (R53 and the register maps): the entries are counted with the last index changing
fastest, and the strides and counts are listed outermost first. -/
def entryOffset : List (Nat × Nat) → Nat → Nat
  | [], _ => 0
  | (stride, _) :: dims, i =>
    let inner := dims.foldl (fun n d => n * d.2) 1
    stride * (i / inner) + entryOffset dims (i % inner)

/-- The BAR0 address of octet `o` of entry `i` of a register. -/
def Reg.addr (r : Reg) (i o : Nat) : Nat := r.info.base + entryOffset r.info.dims i + o

/-- A register whose writes do nothing but what the access codes say (R17): no map gives it a range or an action. -/
def Reg.plain (r : Reg) : Bool :=
  r.ranges.isEmpty && !([
    Reg.DMC_ERR_POP, .DMC_FREQ_CTRL, .DMC_SCHED_CFG, .DMC_TEMP, .EAS_MBOX_CMD, .EMV_COMMIT_CTRL, .EMV_CTRL, .EMV_MAP_CTRL,
    .ETH_OCTET_CFG, .ETH_PORT_CFG, .EVC_COMPLETE, .EVC_MASK, .EVC_PENDING, .EVC_RESCAN, .FAB_LANE_EN, .FLX_CAL, .FLX_CLIENT_CFG,
    .FLX_GRP_CFG, .FLX_INST_CFG, .GLZ_ACT, .GLZ_COAT_CTRL, .GLZ_COAT_ID, .GLZ_EGR_PIPE, .GLZ_EPROF, .GLZ_FAULT_CFG, .GLZ_HASH,
    .GLZ_HASH_EXT, .GLZ_HASH_KEY, .GLZ_POL, .GLZ_PORT_PIPE, .GLZ_TPL, .GLZ_TPL_EXT, .HST_RING_CFG, .LOOM_ALLOC, .LOOM_GEM,
    .LOOM_KEY_CMD, .LOOM_KEY_DATA, .LOOM_ONU, .LOOM_ONU_CMD, .LOOM_OPT_CFG, .LOOM_PROBE, .LOOM_PROFILE, .LOOM_SNDIS, .LOOM_TREE_CFG,
    .PAL_AUDIT_CTRL, .PAL_SHARE, .PAL_SW_CMD, .PNC_BUDGET, .PNC_LKEY, .PNC_LOAD_DATA, .PNC_RES, .PNC_SET, .SCH_ACC_CMD, .SCH_ACC_DATA,
    .SCH_PNODE_CFG, .SCH_PNODE_SHAPER, .SCH_VOQ_CLASS, .SKT_PORT_PROFILE, .SKT_PROFILE, .SKT_PROG, .STN_BANK_CFG, .TBL_AG_CMD,
    .TBL_AG_DATA, .TBL_AG_KEY, .TBL_AG_MASK, .TBL_AG_META, .TBL_AG_STATUS, .TBL_DESC, .TIM_ANCHOR, .TIM_ANCHOR_CTRL, .TIM_PPS_CFG,
    .TIM_TXTS_POP, .TLY_CNT_ACC, .TLY_FREEZE, .TLY_ISAMP_CFG, .TLY_SAMP_CFG, .TLY_SNAP_BASE, .TLY_TRACE_CFG].contains r)

/-- A register whose reads show what is stored in it, word by word. -/
def Reg.shown (r : Reg) : Bool :=
  !latching r && !([Reg.ETH_RAW, .GLZ_POL, .GLZ_COAT_INFLIGHT, .SCH_PNODE_STATUS, .LOOM_PHASE, .EVC_ACTIVE, .EMV_LANE_STATUS].contains r)

/-- The register whose host write a command of its own stands for, where the register maps give the write that effect. -/
def writeOf : Instr → Option Reg
  | .swapNow => some .GLZ_COAT_CTRL
  | .swapArm => some .GLZ_COAT_CTRL
  | .swapCancel => some .GLZ_COAT_CTRL
  | .errPop => some .DMC_ERR_POP
  | .tempWrite _ => some .DMC_TEMP
  | .freqGo _ => some .DMC_FREQ_CTRL
  | .revert => some .EMV_CTRL
  | .mapRemove _ => some .EMV_MAP_CTRL
  | .commitGo _ _ => some .EMV_COMMIT_CTRL
  | .portEnable _ _ => some .ETH_PORT_CFG
  | .portDisable _ _ _ => some .ETH_PORT_CFG
  | .evcComplete _ _ => some .EVC_COMPLETE
  | .evcPendingWrite _ _ => some .EVC_PENDING
  | .evcMaskWrite _ _ => some .EVC_MASK
  | .evcRescan _ => some .EVC_RESCAN
  | .laneEnWrite _ _ => some .FAB_LANE_EN
  | .flexeInstanceEnable _ _ => some .FLX_INST_CFG
  | .auditStart => some .PAL_AUDIT_CTRL
  | .auditPop => some .PAL_AUDIT_CTRL
  | .treeEnable _ _ => some .LOOM_TREE_CFG
  | .treeDisable _ _ => some .LOOM_TREE_CFG
  | .sndisClear _ => some .LOOM_SNDIS
  | .allocEnable _ _ => some .LOOM_ALLOC
  | .gemEnable _ _ => some .LOOM_GEM
  | .probeGo _ _ _ => some .LOOM_PROBE
  | .setDescWord0Write _ _ _ => some .PNC_SET
  | .loadDataWrite _ => some .PNC_LOAD_DATA
  | .ringEnable _ => some .HST_RING_CFG
  | .ringDisable _ => some .HST_RING_CFG
  | .portNodeEnable _ _ => some .SCH_PNODE_CFG
  | .portNodeDisable _ _ => some .SCH_PNODE_CFG
  | .descWord0Write _ _ _ => some .TBL_DESC
  | .bankWidthWrite _ _ => some .STN_BANK_CFG
  | .cntRead _ _ => some .TLY_CNT_ACC
  | .cntReadClear _ _ => some .TLY_CNT_ACC
  | .cntZero _ => some .TLY_CNT_ACC
  | .freeze => some .TLY_FREEZE
  | .thaw => some .TLY_FREEZE
  | .snapshot => some .TLY_FREEZE
  | .isampClear => some .TLY_ISAMP_CFG
  | .anchorArm => some .TIM_ANCHOR_CTRL
  | .anchorCancel => some .TIM_ANCHOR_CTRL
  | .txtsPop => some .TIM_TXTS_POP
  | _ => none

/-- The parts of a state beside the registers. -/
inductive Part where
  | pending | frc | time | host | tally | seam | pace | macs | insts | grps
  | pkts | nextPkt | ctxs | coat | policers | reasons | puntAgg | inflightA | inflightB | badWords
  | tables | easel | power | palette | sched | dram | fab | loom | emv | freeCtr
  | outputs
  deriving DecidableEq, Repr

/-- One part of `t` is as it is in `s`. -/
def State.same (p : Part) (s t : State) : Prop :=
  match p with
  | .pending => t.pending = s.pending
  | .frc => t.frc = s.frc
  | .time => t.time = s.time
  | .host => t.host = s.host
  | .tally => t.tally = s.tally
  | .seam => t.seam = s.seam
  | .pace => t.pace = s.pace
  | .macs => t.macs = s.macs
  | .insts => t.insts = s.insts
  | .grps => t.grps = s.grps
  | .pkts => t.pkts = s.pkts
  | .nextPkt => t.nextPkt = s.nextPkt
  | .ctxs => t.ctxs = s.ctxs
  | .coat => t.coat = s.coat
  | .policers => t.policers = s.policers
  | .reasons => t.reasons = s.reasons
  | .puntAgg => t.puntAgg = s.puntAgg
  | .inflightA => t.inflightA = s.inflightA
  | .inflightB => t.inflightB = s.inflightB
  | .badWords => t.badWords = s.badWords
  | .tables => t.tables = s.tables
  | .easel => t.easel = s.easel
  | .power => t.power = s.power
  | .palette => t.palette = s.palette
  | .sched => t.sched = s.sched
  | .dram => t.dram = s.dram
  | .fab => t.fab = s.fab
  | .loom => t.loom = s.loom
  | .emv => t.emv = s.emv
  | .freeCtr => t.freeCtr = s.freeCtr
  | .outputs => t.outputs = s.outputs

/-- Every part that is not listed is as it is in `s`. -/
def State.onlyParts (l : List Part) (s t : State) : Prop := ∀ p, p ∉ l → State.same p s t

/-- Between `s` and `t` nothing differs but the parts listed and the register fields listed. -/
def State.frame (l : List Part) (m : List (Fld × Nat)) (s t : State) : Prop := State.onlyParts l s t ∧ State.onlyFields m s t

/-- Between `s` and `t` nothing differs but the parts listed and the entries of the registers listed. -/
def State.touches (l : List Part) (m : List Reg) (s t : State) : Prop :=
  State.onlyParts l s t ∧ ∀ (r : Reg) (i : Nat), r ∉ m → t.reg r i = s.reg r i

/-- A counter pair that has counted one packet more, of `n` octets (R514). -/
def Pair.plus (p : Pair) (n : Nat) : Pair := { p with bytes := p.bytes + BitVec.ofNat 64 n, pkts := p.pkts + 1 }

/-- Pair `i`, of those on the die. -/
def State.pair (s : State) (i : Nat) : Pair := Sparse.read Pair.zero s.tally.pairs i

/-- A packet without the fills that are noted while it still arrives (R103). -/
def Pkt.noFills (p : Pkt) : Pkt := { p with rx := { p.rx with fills := [] } }

/-- No packet but `n` differs, save for the fills noted with frames that still arrive. -/
def State.othersSame (n : Nat) (s t : State) : Prop := ∀ m, m ≠ n → (t.pkt m).map Pkt.noFills = (s.pkt m).map Pkt.noFills

/-- A packet that leaves the ingress stages gives up its ingress stamp, unless it recirculates (R51); nothing else of it but its place changes. -/
def State.leavesIngress (s : State) (p q : Pkt) (t : State) : Prop :=
  q = { p with loc := .reorder, stamped := q.stamped } ∧ q.stamped = (recirculates p && p.stamped) ∧
  (∀ b, t.inflight b = s.inflight b - (if p.stamped = true ∧ recirculates p = false ∧ b = p.coat then 1 else 0))

/-- The registers that a discard or a trace record may count in (R34, R523, R526). -/
def traceRegs : List Reg := [.HST_PCIE_STATUS, .HST_RING_STATUS, .TLY_SAMP_CFG, .TLY_SAMP_CNT, .TLY_TRACE_CNT]

/-- The registers that giving back packet buffers may count in (chapter 8). -/
def bufferRegs : List Reg :=
  [.PAL_CLASS_STATUS, .PAL_ERR_STATUS, .PAL_FREE_CNT, .PAL_OWNER_CFG, .PAL_POOL_STATUS, .PAL_RA_CNT, .TLY_SPEC_CNT]

/-- What the loss of a link may change beside the link itself (R98, R322, R621): frames cut short, the port node's queues and their buffers. -/
def linkParts : List Part :=
  [.badWords, .dram, .easel, .host, .inflightA, .inflightB, .macs, .outputs, .palette, .pkts, .policers, .sched, .tally, .time]
def linkRegs : List Reg := [.SCH_PNODE_STATUS, .TIM_TXTS_HEAD, .TIM_TXTS_STATUS, .TLY_STATUS] ++ traceRegs ++ bufferRegs

/-! ### A Sketch instruction that is about to execute, and what it may leave -/

/-- Context `c`, whose state is `x`, runs on packet `p`, fewer than 256 instructions are counted, and the word at its program counter can
be read and is `i`, with opcode `op` (R129, R135, R146, R149). -/
structure State.sketchReady (s : State) (c op : Nat) (x : Ctx) (p : Pkt) (i : SInsn) : Prop where
  ctx : s.ctx c = some x
  pkt : s.pkt x.pkt = some p
  running : x.running = true
  steps : x.insns < 256
  inside : x.pc < 4096
  good : s.badWords.sketchUe.contains (bankNo p.coat * 4096 + x.pc) = false
  word : sketchDecode (s.rd F.SKT_PROG.INSN (bankNo p.coat * 4096 + x.pc)) = i
  opcode : i.op = op

/-- The program goes on: context `c` is `x'`, its packet's header vector is `hv`, the instruction is counted, and nothing else changes
but what sampling and error counting may count. -/
def State.sketchGoes (s : State) (c : Nat) (x x' : Ctx) (p : Pkt) (hv : Sparse Byte) (t : State) : Prop :=
  t.ctx c = some { x' with insns := x.insns + 1 } ∧ (∀ d, d ≠ c → t.ctx d = s.ctx d) ∧
  t.pkt x.pkt = some { p with hv := hv } ∧ (∀ n, n ≠ x.pkt → t.pkt n = s.pkt n) ∧
  State.touches [.ctxs, .pkts, .tally] [.SKT_BANK_STATUS, .TLY_ISAMP_HIST] s t

/-- The program ends with `n` instructions counted (R145 to R148): the reason, sub-code and count stand in the header vector, and the
reason's counter, if the ending has one, counts one. -/
def State.sketchEnds (s : State) (c : Nat) (x : Ctx) (p : Pkt) (n reason sub : Nat) (slot : Option Nat) (drop : Bool) (t : State) : Prop :=
  t.ctx c = some { x with running := false, ended := true, insns := n } ∧ (∀ d, d ≠ c → t.ctx d = s.ctx d) ∧
  (∃ q, t.pkt x.pkt = some q ∧ q.parseDrop = drop ∧ q.data = p.data ∧ q.loc = p.loc ∧
    hvGet q.hv 0x11C 1 = reason % 256 ∧ hvGet q.hv 0x11D 1 = sub % 256 ∧ hvGet q.hv 0x11E 2 = n % 65536 ∧
    (slot.isSome = true → hvHas q.hv 7 = true ∧ q.early = none)) ∧
  (∀ m, m ≠ x.pkt → t.pkt m = s.pkt m) ∧
  (∀ r, slot = some r → t.rd F.SKT_EXC_CNT.COUNT r = (s.rd F.SKT_EXC_CNT.COUNT r + 1) % 2 ^ F.SKT_EXC_CNT.COUNT.len) ∧
  State.touches [.ctxs, .host, .outputs, .pkts, .tally]
    ([.SKT_BANK_STATUS, .SKT_EL_SQUASHED, .SKT_EXC_CNT, .TLY_ISAMP_HIST, .TLY_SPEC_CNT] ++ traceRegs) s t

/-- The Sketch instruction `mk`, of opcode `op`, writes `v` to its general register and falls through, where `ok` holds. -/
def State.sketchWrites (mk : Nat → Instr) (op : Nat) (ok : SInsn → Ctx → Sparse Byte → Prop)
    (v : SInsn → Ctx → Sparse Byte → BitVec 32) : Prop :=
  ∀ (s : State) (c : Nat) (x : Ctx) (p : Pkt) (i : SInsn), s.sketchReady c op x p i → ok i x p.hv →
    ∃ t x', exec (mk c) s = .next t ∧ s.sketchGoes c x x' p p.hv t ∧ x'.reg i.rd = v i x p.hv ∧
      (∀ r, r ≠ i.rd → x'.reg r = x.reg r) ∧ x'.pc = x.pc + 1 ∧ x'.cursor = x.cursor ∧ x'.pkt = x.pkt ∧ x'.running = true

/-- The Sketch instruction `mk`, of opcode `op`, raises reason `r` where `bad` holds. -/
def State.sketchRaises (mk : Nat → Instr) (op : Nat) (bad : SInsn → Ctx → Sparse Byte → Prop) (r : SInsn → Ctx → Sparse Byte → Nat) :
    Prop :=
  ∀ (s : State) (c : Nat) (x : Ctx) (p : Pkt) (i : SInsn), s.sketchReady c op x p i → bad i x p.hv →
    ∃ t, exec (mk c) s = .next t ∧ s.sketchEnds c x p (x.insns + 1) (r i x p.hv) 0 (some (r i x p.hv)) false t

/-- The Sketch instruction `mk`, of opcode `op`, goes to `pc` and changes nothing else. -/
def State.sketchJumps (mk : Nat → Instr) (op : Nat) (pc : SInsn → Ctx → Nat) : Prop :=
  ∀ (s : State) (c : Nat) (x : Ctx) (p : Pkt) (i : SInsn), s.sketchReady c op x p i →
    ∃ t, exec (mk c) s = .next t ∧ s.sketchGoes c x { x with pc := pc i x } p p.hv t

/-- The Sketch instructions with their opcodes (R138). -/
def sketchInstrs : List ((Nat → Instr) × Nat) :=
  [(.sketchLd, 0x01), (.sketchLdh, 0x02), (.sketchMov, 0x03), (.sketchAdd, 0x04), (.sketchSub, 0x05), (.sketchAnd, 0x06),
   (.sketchOr, 0x07), (.sketchXor, 0x08), (.sketchShl, 0x09), (.sketchShr, 0x0A), (.sketchCsum, 0x0B), (.sketchXcp, 0x0C),
   (.sketchSth, 0x0D), (.sketchGetc, 0x0E), (.sketchAdv, 0x10), (.sketchSetc, 0x11), (.sketchHdr, 0x12), (.sketchLchk, 0x13),
   (.sketchBeq, 0x20), (.sketchBne, 0x21), (.sketchBlt, 0x22), (.sketchBge, 0x23), (.sketchBts, 0x24), (.sketchBtc, 0x25),
   (.sketchJmp, 0x26), (.sketchCall, 0x27), (.sketchJr, 0x28), (.sketchDone, 0x30), (.sketchExc, 0x31), (.sketchDrop, 0x32),
   (.sketchNop, 0x3E)]

/-! ### An action instruction that is about to execute, and what it may leave -/

/-- Packet `n`, which is `p`, is in stage `st` (`eg` an egress one), its program `a` runs, and the word at its program counter can be
read and is `i`, with opcode `op` (R176, R180, R181). -/
structure State.actionReady (s : State) (n op : Nat) (p : Pkt) (a : Act) (i : AInsn) (eg : Bool) (st : Nat) : Prop where
  pkt : s.pkt n = some p
  stage : p.loc.stage? = some (eg, st)
  act : p.act = some a
  free : a.pounce = false
  inside : a.pc < 8192
  good : s.badWords.actionUe.contains (bankNo (stageBank p eg) * 8192 + a.pc) = false
  word : actionDecode (s.rd F.GLZ_ACT.INSN (bankNo (stageBank p eg) * 8192 + a.pc)) = i
  opcode : i.op = op

/-- The program goes on with packet `p'` and program state `a'`, or, past position 16, ends its stage; no other packet changes, and of
the rest only the parts and registers that tracing, error correction and the lists name. -/
def State.actionGoes (s : State) (n : Nat) (p' : Pkt) (a' : Act) (eg : Bool) (st : Nat) (l : List Part) (m : List Reg) (t : State) :
    Prop :=
  (∃ q, t.pkt n = some q ∧
    if a'.pos ≤ 16 then q = { p' with act := some a' }
    else q.act = none ∧ q.loc = (if eg then .egStageDone st else .stageDone st) ∧ q.hv = p'.hv ∧ q.drec = p'.drec ∧
      q.charges = p'.charges ∧ q.data = p'.data) ∧
  (∀ k, k ≠ n → t.pkt k = s.pkt k) ∧
  t.badWords = { s.badWords with actionFixed := t.badWords.actionFixed } ∧
  State.touches ([.badWords, .host, .outputs, .pkts, .tally] ++ l) ([.HST_PCIE_STATUS, .HST_RING_STATUS, .TLY_TRACE_CNT] ++ m) s t

/-- The program state after an instruction that skips `skip` words (R180). -/
def Act.after (a : Act) (skip : Nat) : Act :=
  { a with pc := a.pc + 1 + skip, pos := a.pos + 1 + skip, executed := a.executed + 1 }

/-- An action fault (R181): the stage's fault counter counts the packet, the program ends, and the packet bypasses the stages that are
left; at ingress it gives up its stamp, since it does not recirculate (R51). -/
def State.actionFaults (s : State) (n : Nat) (p : Pkt) (eg : Bool) (st : Nat) (t : State) : Prop :=
  (∃ q, t.pkt n = some q ∧ q.fault = true ∧ q.act = none ∧ q.loc = (if eg then .egStageDone 4 else .reorder) ∧ q.hv = p.hv ∧
    q.drec = p.drec ∧ q.data = p.data ∧ (eg = false → q.stamped = false)) ∧
  (∀ k, k ≠ n → t.pkt k = s.pkt k) ∧
  (eg = false → p.stamped = true → t.inflight p.coat = s.inflight p.coat - 1) ∧
  t.pair (704 + s.stageIndex p eg st) = (s.pair (704 + s.stageIndex p eg st)).plus p.data.length ∧
  State.touches [.badWords, .host, .inflightA, .inflightB, .outputs, .pkts, .tally]
    [.HST_PCIE_STATUS, .HST_RING_STATUS, .TLY_TRACE_CNT] s t

/-- The action instruction `mk`, of opcode `op`, writes `v` to its temporary and falls through, where `ok` holds. -/
def State.actionWrites (mk : Nat → Instr) (op : Nat) (ok : AInsn → Act → Pkt → Prop) (v : State → AInsn → Act → Pkt → Bool → BitVec 32) :
    Prop :=
  ∀ (s : State) (n : Nat) (p : Pkt) (a : Act) (i : AInsn) (eg : Bool) (st : Nat), s.actionReady n op p a i eg st → ok i a p →
    ∃ t a', exec (mk n) s = .next t ∧ s.actionGoes n p a' eg st [] [] t ∧ a'.tmp i.td = v s i a p eg ∧
      (∀ r, r ≠ i.td → a'.tmp r = a.tmp r) ∧ a' = { a.after 0 with t := a'.t }

/-- The action instruction `mk`, of opcode `op`, makes the packet `f` of it and falls through, where `ok` holds, and is an action fault
where it does not. -/
def State.actionEdits (mk : Nat → Instr) (op : Nat) (ok : State → AInsn → Act → Pkt → Bool → Prop) (f : State → AInsn → Act → Pkt → Pkt) :
    Prop :=
  ∀ (s : State) (n : Nat) (p : Pkt) (a : Act) (i : AInsn) (eg : Bool) (st : Nat), s.actionReady n op p a i eg st →
    (ok s i a p eg → ∃ t, exec (mk n) s = .next t ∧ s.actionGoes n (f s i a p) (a.after 0) eg st [] [] t) ∧
    (¬ ok s i a p eg → ∃ t, exec (mk n) s = .next t ∧ s.actionFaults n p eg st t)

/-- The state after `n` steps, none where a step stops. -/
def runSteps : Nat → State → Option State
  | 0, s => some s
  | n + 1, s =>
    match step s with
    | .next t => runSteps n t
    | _ => none

end Sys2Proof.Machine
end

