-- ==== Sys2Proof/Certificates/Slice0/Obligations.lean ====
section
/-!
DEFINITION. The statements for the provers: what each command of the block leaves of the state, under hypotheses on the state and the
operands alone, and what holds of every step. A state `s` is any state, reached by a run or not. `State.frame l m s t` says that `t`
is `s` but for the parts listed in `l` and the fields, each of one entry of a register, listed in `m`; `State.touches l m s t` says it
of whole registers.
-/
open Sys2Proof Sys2Proof.Machine

/-- A step runs the command at the front of the queue: it is `exec` of that command on the state with the queue's rest, whatever the
command and whatever `exec` answers. -/
def Obligations.StepRunsFrontCommand : Prop :=
  ∀ (c : Instr) (rest : List Instr) (s : State), s.pending = c :: rest → step s = exec c { s with pending := rest }

/-- On an empty queue a step lets 40 ns pass and changes nothing else; a time that the 80 bits of the free-running counter cannot hold is
not reached. That the part idles for one cycle of SYSREF is the model's choice (assumption 1). -/
def Obligations.EmptyQueueIdles : Prop :=
  ∀ s : State, s.pending = [] →
    ∃ t, step s = .next t ∧ t.now = (if s.now + ns 40 < 2 ^ 80 then s.now + ns 40 else s.now) ∧ State.frame [.frc] [] s t

/-- R21, R458: at reset every entry of every register reads as its Reset column, the register space and the queue are in their form, the
free-running counter is 0, no packet, context, output or event is there, and a field whose Reset column is not 0 reads as it says. -/
def Obligations.ResetHoldsTheResetColumn : Prop :=
  State.reset.regsOk = true ∧ State.reset.pendingOk = true ∧ State.reset.pending = [] ∧ State.reset.now = 0 ∧
    State.reset.pkts = [] ∧ State.reset.ctxs = [] ∧ State.reset.outputs = [] ∧ State.reset.host.raised = [] ∧
    (∀ (r : Reg) (i : Nat), State.reset.reg r i = r.resetAt i) ∧
    (∀ w, w < 8 → State.reset.rd F.EVC_MASK.MASK w = 0xFFFFFFFF) ∧ State.reset.rd F.EAS_BOOT_STATUS.STATE = 0 ∧
    State.reset.rd F.EAS_SEAM_STATUS.UP = 0

/-- From every state whose register space is in its one canonical form and whose waiting commands are all well formed, a step that answers
a next state answers one of which both hold again. -/
def Obligations.StepKeepsTheInvariant : Prop :=
  ∀ s t : State, s.regsOk = true ∧ s.pendingOk = true → step s = .next t → t.regsOk = true ∧ t.pendingOk = true

/-- No run stops: after any number of steps there is a state, the commands taken are those that came first, no output has been taken back,
no free value has been drawn twice, and the register space keeps its canonical form; so every queue drains. -/
def Obligations.EveryRunGoesOnAndDrainsTheQueue : Prop :=
  (∀ (n : Nat) (s : State), ∃ t, runSteps n s = some t ∧ t.pending = s.pending.drop n ∧ (∃ l, t.outputs = s.outputs ++ l) ∧
    s.freeCtr ≤ t.freeCtr ∧ (s.regsOk = true → t.regsOk = true)) ∧
  (∀ s : State, ∃ t, runSteps s.pending.length s = some t ∧ t.pending = [])

/-- R53: every octet of every entry of every register has an address of its own: looking the address up gives the register, the entry and
the octet it was made of, so no two registers, entries or octets share one. -/
def Obligations.EveryRegisterEntryHasItsAddress : Prop :=
  ∀ (r : Reg) (i o : Nat), i < r.entries → o < r.info.width / 8 → Reg.find (r.addr i o) = some (r, i, o)

/-- R459: the loss of SYSREF sets SYSREF_LOSS and is a cause of the time event, and the counter is not touched; its return clears the bit
and steps nothing. R463, R464: ARM arms the inactive set while its F0 lies ahead; CANCEL disarms it while its F0 lies ahead and has no
effect otherwise; when the counter reaches F0 the inactive set becomes the active one and is no longer armed; an F0 that has passed at the
moment of the arm flips at once and sets LATE_FLIP. The first flip makes local time valid. -/
def Obligations.SysrefAndTheAnchorSets : Prop :=
  ((∀ s : State, s.rd F.TIM_STATUS.SYSREF_LOSS = 0 →
    ∃ t, exec .sysrefLoss s = .next t ∧ t.rd F.TIM_STATUS.SYSREF_LOSS = 1 ∧ t.host = { s.host with raised := s.host.raised ++ [13] } ∧
      State.frame [.host] [(F.TIM_STATUS.SYSREF_LOSS, 0)] s t) ∧
  (∀ s : State,
    ∃ t, exec .sysrefReturn s = .next t ∧ t.rd F.TIM_STATUS.SYSREF_LOSS = 0 ∧ State.frame [] [(F.TIM_STATUS.SYSREF_LOSS, 0)] s t)) ∧
  ((∀ s : State, s.takes .TIM_ANCHOR_CTRL = true → s.now < s.armedF0 →
    ∃ t, exec .anchorArm s = .next t ∧ t.rd F.TIM_STATUS.ARMED = 1 ∧ State.frame [] [(F.TIM_STATUS.ARMED, 0)] s t) ∧
  (∀ s : State, s.takes .TIM_ANCHOR_CTRL = true → s.armedF0 < s.now → s.timeValid = true →
    ∃ t, exec .anchorArm s = .next t ∧ t.rd F.TIM_STATUS.ACTIVE = 1 - s.rd F.TIM_STATUS.ACTIVE ∧
      t.rd F.TIM_STATUS.ARMED = 0 ∧ t.rd F.TIM_STATUS.LATE_FLIP = 1 ∧ State.frame [] [(F.TIM_STATUS.ACTIVE, 0), (F.TIM_STATUS.ARMED, 0), (F.TIM_STATUS.LATE_FLIP, 0)] s t) ∧
  (∀ s : State, s.takes .TIM_ANCHOR_CTRL = true → s.rd F.TIM_STATUS.ARMED = 1 → s.now < s.armedF0 →
    ∃ t, exec .anchorCancel s = .next t ∧ t.rd F.TIM_STATUS.ARMED = 0 ∧ State.frame [] [(F.TIM_STATUS.ARMED, 0)] s t) ∧
  (∀ s : State, s.takes .TIM_ANCHOR_CTRL = true → s.armedF0 ≤ s.now → exec .anchorCancel s = .next s) ∧
  (∀ s : State, s.rd F.TIM_STATUS.ARMED = 1 → s.timeValid = true →
    ∃ t, exec .anchorFlip s = .next t ∧ t.rd F.TIM_STATUS.ACTIVE = 1 - s.rd F.TIM_STATUS.ACTIVE ∧
      t.rd F.TIM_STATUS.ARMED = 0 ∧ t.now = max s.now s.armedF0 ∧ State.frame [.frc] [(F.TIM_STATUS.ACTIVE, 0), (F.TIM_STATUS.ARMED, 0)] s t) ∧
  (∀ s : State, s.rd F.TIM_STATUS.ARMED = 1 → s.timeValid = false →
    ∃ t, exec .anchorFlip s = .next t ∧ t.rd F.TIM_STATUS.ACTIVE = 1 - s.rd F.TIM_STATUS.ACTIVE ∧
      t.rd F.TIM_STATUS.ARMED = 0 ∧ t.rd F.TIM_STATUS.VALID = 1 ∧ t.rd F.ETH_SEC_STATUS.NO_TIME = 0 ∧
      t.now = max s.now s.armedF0 ∧ t.time = { s.time with latchedSecond := t.time.latchedSecond, ppsSecond := t.time.ppsSecond } ∧
      State.frame [.frc, .time] [(F.TIM_STATUS.ACTIVE, 0), (F.TIM_STATUS.ARMED, 0), (F.TIM_STATUS.VALID, 0),
        (F.ETH_SEC_STATUS.NO_TIME, 0)] s t))

/-- R120, R121, R465: at a second boundary every raw statistic, the time a client's local fault has run so far included, is copied to the
latched bank, SEQ counts one, and nothing but these registers, the counter (which never runs back), the second last acted upon and the
time from which a fault is still to be counted changes; before the first flip the boundary acts on nothing. R477: a pop removes the head
of the transmit timestamp queue, so that the registers show the level that is left and the next entry; on an empty queue it has no effect. -/
def Obligations.SecondsAreLatchedAndStampsPopped : Prop :=
  ((∀ s : State, s.timeValid = true →
    ∃ t, exec .secondLatch s = .next t ∧
      (∀ i, t.reg .ETH_LATCHED i = t.reg .ETH_RAW i) ∧
      ((∀ c, c < 64 → (s.mac (112 + c)).faultAt = none) → ∀ i, t.reg .ETH_RAW i = s.reg .ETH_RAW i) ∧
      t.rd F.ETH_SEC_STATUS.SEQ = (s.rd F.ETH_SEC_STATUS.SEQ + 1) % 2 ^ F.ETH_SEC_STATUS.SEQ.len ∧
      (∀ r i, r ∉ [Reg.ETH_LATCHED, .ETH_RAW, .ETH_SEC_STATUS] → t.reg r i = s.reg r i) ∧
      s.now ≤ t.now ∧
      t.time = { s.time with latchedSecond := t.time.latchedSecond } ∧
      (∃ m, t.time.latchedSecond = some m ∧ ∀ l, s.time.latchedSecond = some l → l < m) ∧
      State.onlyParts [.frc, .macs, .time] s t) ∧
  (∀ s : State, s.timeValid = false → exec .secondLatch s = .next s)) ∧
  ((∀ (s : State) (e : TxStamp) (q : List TxStamp), s.takes .TIM_TXTS_POP = true → s.time.txts = e :: q → q.length < 512 →
    ∃ t, exec .txtsPop s = .next t ∧ t.time = { s.time with txts := q } ∧
      t.rd F.TIM_TXTS_STATUS.LEVEL = q.length ∧
      (∀ x r, q = x :: r → t.rd F.TIM_TXTS_HEAD.VALID = 1 ∧ t.rd F.TIM_TXTS_HEAD.TS = x.stamp.toNat / 65536 ∧
        t.rd F.TIM_TXTS_HEAD.TS_FRAC = x.stamp.toNat % 65536 ∧
        t.rd F.TIM_TXTS_HEAD.ID = x.id % 2 ^ F.TIM_TXTS_HEAD.ID.len) ∧
      (q = [] → t.rd F.TIM_TXTS_HEAD.VALID = 0) ∧
      State.frame [.time] [(F.TIM_TXTS_STATUS.LEVEL, 0), (⟨.TIM_TXTS_HEAD, 0, 320⟩, 0)] s t) ∧
  (∀ s : State, s.takes .TIM_TXTS_POP = true → s.time.txts = [] → exec .txtsPop s = .next s))

/-- R482: at a second boundary plus OFFSET, while OUT_EN and VALID are both 1, PPS_OUT rises and its fall is due WIDTH ms later; it falls
there. R483: while IN_EN is 1, an edge of PPS_IN is stamped into TIM_PPS_IN, sets NEW and raises the time event; one less than 500 ms
after the last captured one is ignored and counted in TIM_ERR_CNT(4); while IN_EN is 0 no edge does anything. -/
def Obligations.PulsesPerSecondGoOutAndAreStamped : Prop :=
  ((∀ s : State, s.rd F.TIM_PPS_CFG.OUT_EN = 1 → s.timeValid = true →
    ∃ t, exec .ppsOutRise s = .next t ∧ t.time.ppsOut = true ∧
      t.time.ppsFall = t.now + ms (s.rd F.TIM_PPS_CFG.WIDTH) ∧ s.now ≤ t.now ∧
      t.outputs = s.outputs ++ [.ppsOut true] ∧
      (∃ m, t.time.ppsSecond = some m ∧ ∀ l, s.time.ppsSecond = some l → l < m) ∧
      t.time = { s.time with ppsSecond := t.time.ppsSecond, ppsOut := true, ppsFall := t.time.ppsFall } ∧
      State.frame [.frc, .time, .outputs] [] s t) ∧
  (∀ s : State, (s.rd F.TIM_PPS_CFG.OUT_EN = 0 ∨ s.timeValid = false) → exec .ppsOutRise s = .next s) ∧
  (∀ s : State, s.time.ppsOut = true → s.time.ppsFall < 2 ^ 80 →
    ∃ t, exec .ppsOutFall s = .next t ∧ t.time = { s.time with ppsOut := false } ∧
      t.now = max s.now s.time.ppsFall ∧ t.outputs = s.outputs ++ [.ppsOut false] ∧
      State.frame [.frc, .time, .outputs] [] s t)) ∧
  ((∀ (s : State) (sub : Nat), s.rd F.TIM_PPS_CFG.IN_EN = 1 →
    (∀ l, s.time.ppsLast = some l → l + ms 500 ≤ (s.stampAt sub).toNat) →
    ∃ t, exec (.ppsInEdge sub) s = .next t ∧
      t.rd F.TIM_PPS_IN.TS = (s.stampAt sub).toNat / 65536 ∧ t.rd F.TIM_PPS_IN.TS_FRAC = (s.stampAt sub).toNat % 65536 ∧
      t.rd F.TIM_PPS_IN.NEW = 1 ∧ t.host = { s.host with raised := s.host.raised ++ [13] } ∧
      t.time = { s.time with ppsLast := some (s.stampAt sub).toNat } ∧
      State.frame [.time, .host] [(F.TIM_PPS_IN.TS, 0), (F.TIM_PPS_IN.TS_FRAC, 0), (F.TIM_PPS_IN.ANCHOR, 0), (F.TIM_PPS_IN.NEW, 0)] s t) ∧
  (∀ (s : State) (sub l : Nat), s.rd F.TIM_PPS_CFG.IN_EN = 1 → s.time.ppsLast = some l →
    (s.stampAt sub).toNat < l + ms 500 →
    ∃ t, exec (.ppsInEdge sub) s = .next t ∧
      t.rd F.TIM_ERR_CNT.COUNT 4 = (s.rd F.TIM_ERR_CNT.COUNT 4 + 1) % 2 ^ F.TIM_ERR_CNT.COUNT.len ∧
      State.frame [] [(F.TIM_ERR_CNT.COUNT, 4)] s t) ∧
  (∀ (s : State) (sub : Nat), s.rd F.TIM_PPS_CFG.IN_EN = 0 → exec (.ppsInEdge sub) s = .next s))

/-- R14: a register access that is narrower than 32 bits or misaligned sets BAD_ACCESS; a read of it returns 0xFFFF_FFFF for each 32-bit
word and a write of it is discarded. R56: while the Seam is not UP after STATE first became READY, a read of a traffic-die window returns
0xFFFF_FFFF and sets SEAM_DOWN, and a write there is discarded and sets it too. R553: until STATE first becomes READY, a read of a block
other than EAS and HST returns the Reset values, whatever the registers hold, and a write there is discarded and sets BAD_ACCESS. R54 to
R56, R553: a command that stands for a host write of a register does nothing in reset, in sleep and behind a gate that stops the write,
but for the error that the gate sets: BAD_ACCESS before STATE first becomes READY, SEAM_DOWN while the Seam is not UP. -/
def Obligations.RefusedAccessesSayWhy : Prop :=
  (∀ (s : State) (space addr width v : Nat), s.host.asleep = false → s.inReset = false → space ≠ cfgSpace →
    goodAccess addr width = false →
    (∃ t, exec (.badRegisterAccess true space addr width v) s = .next t ∧ t.rd F.HST_ERR_STATUS.BAD_ACCESS = 1 ∧
      t.host = { s.host with raised := s.host.raised ++ [3] } ∧ State.frame [.host] [(F.HST_ERR_STATUS.BAD_ACCESS, 0)] s t) ∧
    (∃ t, exec (.badRegisterAccess false space addr width v) s = .next t ∧ t.rd F.HST_ERR_STATUS.BAD_ACCESS = 1 ∧
      t.host.readData = (if width ≤ 4 then 0xFFFFFFFF else 0xFFFFFFFFFFFFFFFF) ∧
      t.host = { s.host with raised := s.host.raised ++ [3], readData := t.host.readData } ∧
      State.frame [.host] [(F.HST_ERR_STATUS.BAD_ACCESS, 0)] s t)) ∧
  (∀ (s : State) (addr width v : Nat), s.host.asleep = false → s.inReset = false → goodAccess addr width = true →
    s.easel.readyOnce = true → trafficWindow addr = true → s.rd F.EAS_SEAM_STATUS.UP = 0 →
    (∃ t, exec (.registerWrite bar0 addr width v) s = .next t ∧ t.rd F.HST_ERR_STATUS.SEAM_DOWN = 1 ∧
      t.host = { s.host with raised := s.host.raised ++ [3] } ∧ State.frame [.host] [(F.HST_ERR_STATUS.SEAM_DOWN, 0)] s t) ∧
    (∃ t, exec (.badRegisterAccess false bar0 addr width v) s = .next t ∧ t.rd F.HST_ERR_STATUS.SEAM_DOWN = 1 ∧
      t.host.readData = (if width ≤ 4 then 0xFFFFFFFF else 0xFFFFFFFFFFFFFFFF) ∧
      t.host = { s.host with raised := s.host.raised ++ [3], readData := t.host.readData } ∧
      State.frame [.host] [(F.HST_ERR_STATUS.SEAM_DOWN, 0)] s t)) ∧
  (∀ (s : State) (addr v : Nat), s.host.asleep = false → s.inReset = false → addr % 4 = 0 →
    s.easel.readyOnce = false → easWindow addr = false → hstWindow addr = false →
    (∃ t, exec (.registerWrite bar0 addr 4 v) s = .next t ∧ t.rd F.HST_ERR_STATUS.BAD_ACCESS = 1 ∧
      t.host = { s.host with raised := s.host.raised ++ [3] } ∧ State.frame [.host] [(F.HST_ERR_STATUS.BAD_ACCESS, 0)] s t) ∧
    (∃ t, exec (.readClearField bar0 addr 4) s = .next t ∧
      (∀ r i o, Reg.find addr = some (r, i, o) → r.info.wo = 0 →
        t.host.readData = BitVec.ofNat 64 (bitsOf (r.resetAt i).toNat (8 * o) 32)) ∧
      t.host = { s.host with readData := t.host.readData } ∧ State.frame [.host] [] s t)) ∧
  (∀ (s : State) (c : Instr) (r : Reg), writeOf c = some r → c.wf = true →
    (s.host.asleep = true ∨ s.inReset = true → exec c s = .next s) ∧
    (s.host.asleep = false → s.inReset = false → s.gateBoot r.info.base = true →
      exec c s = .next (s.hostError F.HST_ERR_STATUS.BAD_ACCESS)) ∧
    (s.host.asleep = false → s.inReset = false → s.gateBoot r.info.base = false → s.gateSeam r.info.base = true →
      exec c s = .next (s.hostError F.HST_ERR_STATUS.SEAM_DOWN)))

/-- R17: a 64-bit write of a register without a rule of its own sets each RW bit to the value written, clears each W1C bit written 1, and
leaves every other bit of the word, every other word and every other register as it was. -/
def Obligations.HostWriteFollowsTheAccessCodes : Prop :=
  ∀ (s : State) (addr v : Nat) (r : Reg) (i o : Nat), s.reaches addr 8 = true → Reg.find addr = some (r, i, o) →
    r.plain = true → r.info.width ≠ 32 →
    ∃ t, exec (.registerWrite bar0 addr 8 v) s = .next t ∧
      (∀ k, k < 320 → (t.reg r i).toNat.testBit k =
        if k / 64 = o / 8 then
          (if r.info.rw.testBit k then v.testBit (k % 64)
          else (s.reg r i).toNat.testBit k && !(r.info.w1c.testBit k && v.testBit (k % 64)))
        else (s.reg r i).toNat.testBit k) ∧
      t.host = { s.host with writeHold := t.host.writeHold } ∧ State.frame [.host] [(⟨r, 0, 320⟩, i)] s t

/-- R17: a 64-bit read returns the word as it stands, WO fields as 0, and clears the RC fields in it; nothing else of the registers
changes. R477: a read of word 0 of TIM_TXTS_HEAD returns the word and latches word 1, which a read of word 1 then returns whatever the
queue's head has become. -/
def Obligations.HostReadsClearAndLatch : Prop :=
  (∀ (s : State) (addr : Nat) (r : Reg) (i o : Nat), s.reaches addr 8 = true → Reg.find addr = some (r, i, o) →
    r.shown = true → r.info.width ≠ 32 → s.tally.frozenPairs = none →
    ∃ t, exec (.readClearField bar0 addr 8) s = .next t ∧
      (∀ k, k < 64 → t.host.readData.toNat.testBit k =
        ((s.reg r i).toNat.testBit (64 * (o / 8) + k) && !r.info.wo.testBit (64 * (o / 8) + k))) ∧
      (∀ k, k < 320 → (t.reg r i).toNat.testBit k =
        ((s.reg r i).toNat.testBit k && !(decide (k / 64 = o / 8) && r.info.rc.testBit k))) ∧
      t.host = { s.host with readData := t.host.readData } ∧ State.frame [.host] [(⟨r, 0, 320⟩, i)] s t) ∧
  ((∀ (s : State) (addr : Nat), s.reaches addr 8 = true → Reg.find addr = some (.TIM_TXTS_HEAD, 0, 0) → s.tally.frozenPairs = none →
    ∃ t, exec (.latchingRead addr 8) s = .next t ∧
      t.host.readData = BitVec.ofNat 64 (s.rd F.TIM_TXTS_HEAD.TS) ∧
      (∃ y, t.host.wordLatch = Sparse.write none s.host.wordLatch addr
        (some (BitVec.ofNat 64 (bitsOf (s.reg .TIM_TXTS_HEAD 0).toNat 64 64), y))) ∧
      t.host = { s.host with readData := t.host.readData, wordLatch := t.host.wordLatch } ∧ State.frame [.host] [] s t) ∧
  (∀ (s : State) (addr : Nat) (x y : BitVec 64), s.reaches (addr + 8) 8 = true → Reg.find (addr + 8) = some (.TIM_TXTS_HEAD, 0, 8) →
    Sparse.read none s.host.wordLatch addr = some (x, y) → s.tally.frozenPairs = none →
    ∃ t, exec (.latchingRead (addr + 8) 8) s = .next t ∧ t.host.readData = x ∧
      t.host = { s.host with readData := t.host.readData } ∧ State.frame [.host] [] s t))

/-- R15, R16: a 32-bit read of the low word of a 64-bit register returns it and latches the high word, which the next read of the high
word returns; a 32-bit write of the low word is held, and the write of the high word applies both together. -/
def Obligations.SixtyFourBitRegistersByTwoAccesses : Prop :=
  (∀ (s : State) (addr : Nat) (r : Reg) (i o : Nat), s.reaches addr 4 = true → Reg.find addr = some (r, i, o) → o % 8 = 0 →
    r.info.width ≠ 32 → r.shown = true → s.tally.frozenPairs = none → r.info.wo = 0 →
    ∃ t, exec (.read64LowWord addr) s = .next t ∧
      t.host.readData = BitVec.ofNat 64 (bitsOf (s.reg r i).toNat (8 * o) 32) ∧
      t.host.readLatch = Sparse.write none s.host.readLatch (addr + 4)
        (some (BitVec.ofNat 32 (bitsOf (s.reg r i).toNat (8 * o + 32) 32))) ∧
      t.host = { s.host with readData := t.host.readData, readLatch := t.host.readLatch } ∧
      State.onlyParts [.host] s t) ∧
  (∀ (s : State) (addr : Nat) (r : Reg) (i o : Nat) (h : BitVec 32), s.reaches (addr + 4) 4 = true →
    Reg.find (addr + 4) = some (r, i, o) → o % 8 = 4 → r.info.width ≠ 32 → Sparse.read none s.host.readLatch (addr + 4) = some h →
    ∃ t, exec (.readClearField bar0 (addr + 4) 4) s = .next t ∧ t.host.readData = BitVec.ofNat 64 h.toNat ∧
      t.host = { s.host with readData := t.host.readData, readLatch := t.host.readLatch } ∧ State.frame [.host] [] s t) ∧
  (∀ (s : State) (addr v : Nat) (r : Reg) (i o : Nat), s.reaches addr 4 = true → Reg.find addr = some (r, i, o) → o % 8 = 0 →
    r.info.width ≠ 32 → v < 2 ^ 32 → s.busyWrite r i = none →
    ∃ t, exec (.write64LowWord addr v) s = .next t ∧
      t.host = { s.host with writeHold := Sparse.write none s.host.writeHold addr (some (BitVec.ofNat 32 v)) } ∧
      State.frame [.host] [] s t) ∧
  (∀ (s : State) (addr v : Nat) (r : Reg) (i o : Nat) (low : BitVec 32), s.reaches (addr + 4) 4 = true →
    Reg.find (addr + 4) = some (r, i, o) → o % 8 = 4 → r.info.width ≠ 32 → v < 2 ^ 32 →
    Sparse.read none s.host.writeHold addr = some low →
    exec (.registerWrite bar0 (addr + 4) 4 v) s =
      .next ((s.withHost { s.host with writeHold := Sparse.write none s.host.writeHold addr none }).writeWord r i (o / 8)
        (low.toNat + v * 2 ^ 32)))

/-- R28, R31, R32: a flit with a CRC error is replayed and counted in its direction; when 16 consecutive replays of one flit have failed,
the Seam is declared failed; a 1 s window with more than one replay in 10^6 flits of a direction sets DEGRADED, and the next window starts
from zero. -/
def Obligations.SeamReplaysAreCountedAndSixteenFail : Prop :=
  (∀ (s : State) (toTraffic again : Bool) (ch : Nat), ∃ t, exec (.flitCrcReplay toTraffic again ch) s = .next t ∧
    t.seam.replaysFwd = s.seam.replaysFwd + (if toTraffic then 1 else 0) ∧
    t.seam.replaysTrf = s.seam.replaysTrf + (if toTraffic then 0 else 1) ∧
    (toTraffic = true → t.seam.failedFwd = (if again then s.seam.failedFwd + 1 else 0) ∧ t.seam.failedTrf = s.seam.failedTrf) ∧
    (toTraffic = false → t.seam.failedTrf = (if again then s.seam.failedTrf + 1 else 0) ∧ t.seam.failedFwd = s.seam.failedFwd) ∧
    t.outputs = s.outputs ++ [.seamReplay toTraffic ch] ∧ State.frame [.seam, .outputs] [] s t) ∧
  (∀ (s : State) (toTraffic : Bool), s.rd F.EAS_SEAM_STATUS.UP = 1 →
    16 ≤ (if toTraffic then s.seam.failedFwd else s.seam.failedTrf) →
    ∃ t, exec (.seamReplayFailure toTraffic) s = .next t ∧ t.rd F.EAS_SEAM_STATUS.UP = 0 ∧ t.rd F.EAS_SEAM_STATUS.FAULT = 1 ∧
      t.host = { s.host with raised := s.host.raised ++ [0] } ∧
      State.frame [.host] [(F.EAS_SEAM_STATUS.UP, 0), (F.EAS_SEAM_STATUS.FAULT, 0)] s t) ∧
  (∀ (s : State) (f g : Nat), (f < 1000000 * s.seam.replaysFwd ∨ g < 1000000 * s.seam.replaysTrf) →
    ∃ t, exec (.seamDegraded f g) s = .next t ∧ t.rd F.EAS_SEAM_STATUS.DEGRADED = 1 ∧
      t.host = { s.host with raised := s.host.raised ++ [0] } ∧ t.seam = { s.seam with replaysFwd := 0, replaysTrf := 0 } ∧
      State.frame [.host, .seam] [(F.EAS_SEAM_STATUS.DEGRADED, 0)] s t) ∧
  (∀ (s : State) (f g : Nat), 1000000 * s.seam.replaysFwd ≤ f → 1000000 * s.seam.replaysTrf ≤ g →
    ∃ t, exec (.seamDegraded f g) s = .next t ∧ t.seam = { s.seam with replaysFwd := 0, replaysTrf := 0 } ∧
      State.frame [.seam] [] s t)

/-- R57: at the boundary of a pace window, once every monitor has its TARGET, EAS_PM_RAW shows each monitor's count, PACE is the lowest of
the 16 paces, which SLOWEST names, and no other register changes but the deficit's and the sampling counters'. R58, R59: each rail goes up
one step of 2.5 mV where the lowest pace of its die in the last ten windows is below 1030, down one where it is above 1060, and stays
otherwise; it stays within k = 0 to 72, and EAS_VCORE shows 680 mV + 2.5 mV × k rounded down. It acts once at each multiple of 10,000 ns
up to which windows have been reported. R65, R67: level 2 is entered from level 1 while the pace is short, and each step down goes one
level, once EXIT_HOLD has passed with the recovery condition holding. -/
def Obligations.PaceSupplyAndLoadShedding : Prop :=
  (∀ (s : State) (counts : List Nat), counts.length = 16 → (∀ m, m < 16 → s.rd F.EAS_PM_RAW.TARGET m ≠ 0) →
    ∃ t, exec (.paceWindow counts) s = .next t ∧
      (∀ m, m < 16 → t.rd F.EAS_PM_RAW.COUNT m = min (counts.getD m 0) 65535 ∧
        t.rd F.EAS_PM_RAW.TARGET m = s.rd F.EAS_PM_RAW.TARGET m ∧
        t.rd F.EAS_PACE_STATUS.PACE ≤ min 2047 (1000 * counts.getD m 0 / s.rd F.EAS_PM_RAW.TARGET m)) ∧
      (∃ m, m < 16 ∧ t.rd F.EAS_PACE_STATUS.SLOWEST = m ∧
        t.rd F.EAS_PACE_STATUS.PACE = min 2047 (1000 * counts.getD m 0 / s.rd F.EAS_PM_RAW.TARGET m)) ∧
      s.now ≤ t.now ∧
      State.touches [.frc, .freeCtr, .host, .pace, .tables]
        [.EAS_PM_RAW, .EAS_PACE_STATUS, .EAS_PACE_DEFICIT_CNT, .TLY_SAMP_CFG, .TLY_SAMP_CNT] s t) ∧
  ((∀ (s : State) (b : Nat), b = s.pace.windowAt / ns 10000 * ns 10000 → s.pace.loopAt < b →
    tenWindows s.pace.lowF b ≠ [] → tenWindows s.pace.lowT b ≠ [] → s.pace.railF ≤ 72 → s.pace.railT ≤ 72 →
    ∃ t, exec .supplyLoopStep s = .next t ∧
      t.pace.railF = (if (lowest (tenWindows s.pace.lowF b)).1 < 1030 then min (s.pace.railF + 1) 72
        else if 1060 < (lowest (tenWindows s.pace.lowF b)).1 then s.pace.railF - 1 else s.pace.railF) ∧
      t.pace.railT = (if (lowest (tenWindows s.pace.lowT b)).1 < 1030 then min (s.pace.railT + 1) 72
        else if 1060 < (lowest (tenWindows s.pace.lowT b)).1 then s.pace.railT - 1 else s.pace.railT) ∧
      t.pace.railF ≤ 72 ∧ t.pace.railT ≤ 72 ∧
      t.pace = { s.pace with railF := t.pace.railF, railT := t.pace.railT, loopAt := b, recoverAt := t.pace.recoverAt } ∧
      t.rd F.EAS_VCORE.VCORE_F = (6800 + 25 * t.pace.railF) / 10 ∧ t.rd F.EAS_VCORE.VCORE_T = (6800 + 25 * t.pace.railT) / 10 ∧
      t.rd F.EAS_PACE_STATUS.AT_CEILING = (if t.pace.railF = 72 ∨ t.pace.railT = 72 then 1 else 0) ∧
      State.frame [.pace] [(F.EAS_VCORE.VCORE_F, 0), (F.EAS_VCORE.VCORE_T, 0), (F.EAS_PACE_STATUS.AT_CEILING, 0)] s t) ∧
  (∀ s : State, s.pace.windowAt / ns 10000 * ns 10000 ≤ s.pace.loopAt → exec .supplyLoopStep s = .next s)) ∧
  ((∀ s : State, s.rd F.EAS_PACE_STATUS.SHED_LEVEL = 1 → s.rd F.EAS_PACE_STATUS.PACE < 1000 →
    ∃ t, exec .shedLevel2Entry s = .next t ∧ t.rd F.EAS_PACE_STATUS.SHED_LEVEL = 2 ∧
      t.pace = { s.pace with admitLeft := t.windowAdmits, admitted := [] } ∧
      (s.pace.level1At + us 20 < 2 ^ 80 → t.now = max s.now (s.pace.level1At + us 20)) ∧
      State.frame [.frc, .pace] [(F.EAS_PACE_STATUS.SHED_LEVEL, 0)] s t) ∧
  (∀ (s : State) (since : Nat), s.rd F.EAS_PACE_STATUS.SHED_LEVEL ≠ 0 → s.pace.recoverAt = some since →
    ∃ t, exec .shedStepDown s = .next t ∧ t.rd F.EAS_PACE_STATUS.SHED_LEVEL = s.rd F.EAS_PACE_STATUS.SHED_LEVEL - 1 ∧
      t.pace = { s.pace with recoverAt := some t.now, level1At := t.now } ∧
      (since + ms (s.rd F.EAS_PACE_CFG.EXIT_HOLD) < 2 ^ 80 → t.now = max s.now (since + ms (s.rd F.EAS_PACE_CFG.EXIT_HOLD))) ∧
      State.frame [.frc, .pace, .tables] [(F.EAS_PACE_STATUS.SHED_LEVEL, 0)] s t) ∧
  (∀ s : State, s.rd F.EAS_PACE_STATUS.SHED_LEVEL = 0 → exec .shedStepDown s = .next s))

/-- R198: in IDLE a swap pauses admission at once and an arm waits for its time; in any other state both are refused with CMD_ERR; a
cancel disarms an armed swap. R50, R51, R197, R199: the flip makes the standby bank the active one in the stages and in Sketch, sets DONE
and raises the coat event, and the old bank begins to retire; it retires, raising the coat event again, when nothing holds its stamp, or
64 µs after the flip. -/
def Obligations.CoatsSwapFlipAndRetire : Prop :=
  ((∀ s : State, s.takes .GLZ_COAT_CTRL = true → s.coatState = 0 →
    ∃ t, exec .swapNow s = .next t ∧ t.coatState = 2 ∧ t.coat = { s.coat with pausedAt := s.now, byTime := false } ∧
      State.frame [.coat] [(F.GLZ_COAT_STATUS.STATE, 0)] s t) ∧
  (∀ s : State, s.takes .GLZ_COAT_CTRL = true → s.coatState = 0 →
    ∃ t, exec .swapArm s = .next t ∧ t.coatState = 1 ∧ State.frame [] [(F.GLZ_COAT_STATUS.STATE, 0)] s t) ∧
  (∀ s : State, s.takes .GLZ_COAT_CTRL = true → s.coatState ≠ 0 →
    (∃ t, exec .swapNow s = .next t ∧ t.rd F.GLZ_COAT_STATUS.CMD_ERR = 1 ∧ State.frame [] [(F.GLZ_COAT_STATUS.CMD_ERR, 0)] s t) ∧
    (∃ t, exec .swapArm s = .next t ∧ t.rd F.GLZ_COAT_STATUS.CMD_ERR = 1 ∧ State.frame [] [(F.GLZ_COAT_STATUS.CMD_ERR, 0)] s t)) ∧
  (∀ s : State, s.takes .GLZ_COAT_CTRL = true → s.coatState = 1 →
    ∃ t, exec .swapCancel s = .next t ∧ t.coatState = 0 ∧ State.frame [] [(F.GLZ_COAT_STATUS.STATE, 0)] s t) ∧
  (∀ s : State, s.coatState = 1 → s.timeValid = true →
    ∃ t, exec .armedSwapTime s = .next t ∧ t.coatState = 2 ∧ t.coat = { s.coat with pausedAt := t.now, byTime := true } ∧
      s.now ≤ t.now ∧ State.frame [.frc, .coat] [(F.GLZ_COAT_STATUS.STATE, 0)] s t)) ∧
  ((∀ s : State, s.coatState = 2 →
    ∃ t, exec .coatFlip s = .next t ∧ t.activeBank = !s.activeBank ∧
      t.rd F.SKT_BANK_STATUS.ACTIVE = (if t.activeBank then 1 else 0) ∧ t.rd F.SKT_BANK_STATUS.RETIRING = 1 ∧
      t.coatState = 3 ∧ t.rd F.GLZ_COAT_STATUS.DONE = 1 ∧ t.easel = { s.easel with measPending := true } ∧
      t.host = { s.host with raised := s.host.raised ++ [14] } ∧ t.coat.flippedAt = t.now ∧
      (s.drained = false → t.rd F.GLZ_COAT_STATUS.DEADLINE_FLIP = 1) ∧ s.now ≤ t.now ∧
      State.touches [.frc, .host, .coat, .easel, .tables, .emv, .outputs]
        [.GLZ_COAT_STATUS, .SKT_BANK_STATUS, .EMV_COMMIT_STATUS] s t) ∧
  (∀ s : State, s.coatState = 3 → (s.inflight (!s.activeBank) = 0 ∨ s.winnerLives = false) →
    ∃ t, exec .coatRetire s = .next t ∧ t.coatState = 0 ∧ t.rd F.SKT_BANK_STATUS.RETIRING = 0 ∧
      t.host = { s.host with raised := s.host.raised ++ [14] } ∧ t.coat = { s.coat with expired := false, winners := [] } ∧
      (s.inflight (!s.activeBank) ≠ 0 → s.coat.flippedAt + us 64 < 2 ^ 80 → t.now = max s.now (s.coat.flippedAt + us 64)) ∧
      State.frame [.frc, .host, .coat] [(F.GLZ_COAT_STATUS.STATE, 0), (F.SKT_BANK_STATUS.RETIRING, 0)] s t) ∧
  (∀ s : State, s.easel.measPending = true → ∃ t, exec .coatMeasure s = .next t ∧
    t.easel = { s.easel with mCoat := BitVec.ofNat 256 (Config.sha256 (s.coatImage s.activeBank)), measPending := false } ∧
    State.frame [.easel] [] s t))

/-- R35, R95, R101, R103, R469: a whole frame of 64 octets or more, no longer than MAX_FRAME and with a good FCS, that is no MAC control
frame and finds room, becomes a packet with the stamp of its SFD, last in the order of its port, and is counted; no other packet and no
other port changes. -/
def Obligations.FrameReceiveQueuesAGoodFrame : Prop :=
  ∀ (s : State) (port sub : Nat) (octets : List Byte), (port < 64 ∨ (112 ≤ port ∧ port < 176)) →
    (port < 64 → s.rd F.ETH_PORT_CFG.FLEXE_PHY port = 0) → macControl octets = none → s.portUp port = true →
    60 ≤ octets.length → octets.length + 4 ≤ s.maxFrame port → (s.mac port).fill + (octets.length + 4) ≤ s.fifoSize port →
    ∃ t p, exec (.frameReceive port octets true true sub) s = .next t ∧
      t.pkt s.nextPkt = some p ∧ p.data = octets ∧ p.rx.inPort = port ∧ p.rx.stamp = s.stampAt sub ∧ p.rx.arrived = true ∧
      p.loc = .fifo ∧ p.pass = 0 ∧ p.stamped = false ∧
      (∀ n, n ≠ s.nextPkt → t.pkt n = s.pkt n) ∧ t.nextPkt = s.nextPkt + 1 ∧
      (t.mac port).fill = (s.mac port).fill + (octets.length + 4) ∧ (t.mac port).order = (s.mac port).order ++ [s.nextPkt] ∧
      (∀ q, q ≠ port → t.mac q = s.mac q) ∧
      State.frame [.pkts, .nextPkt, .macs, .tally, .outputs]
        [(F.ETH_RAW.COUNT, 16 * (if port < 64 then port else port + 16)),
          (F.ETH_RAW.COUNT, 16 * (if port < 64 then port else port + 16) + 1)] s t ∧
      t.rd F.ETH_RAW.COUNT (16 * (if port < 64 then port else port + 16)) =
        (s.rd F.ETH_RAW.COUNT (16 * (if port < 64 then port else port + 16)) + 1) % 2 ^ 64 ∧
      t.rd F.ETH_RAW.COUNT (16 * (if port < 64 then port else port + 16) + 1) =
        (s.rd F.ETH_RAW.COUNT (16 * (if port < 64 then port else port + 16) + 1) + (octets.length + 4)) % 2 ^ 64

/-- R95, R103, R621: a frame shorter than 64 octets, or one whose start arrives while LINK is 0, is discarded before the port FIFO and
counted as a receive error; one that finds no room sets FIFO_DROP and is counted as a FIFO drop; none of them becomes a packet. R102,
R103, R190: when a packet's last octets have arrived with a good FCS and each found room, it holds all of its frame, is marked arrived and
stays where it is, and every policer and counter that it was charged to before its length was known is charged with L - C. -/
def Obligations.RefusedFramesAndTheChargeTrueUp : Prop :=
  ((∀ (s : State) (port sub : Nat) (octets : List Byte) (good : Bool), port < 64 → s.rd F.ETH_PORT_CFG.FLEXE_PHY port = 0 →
    (s.rd F.ETH_PORT_STATUS.LINK port = 0 ∨ octets.length < 60) →
    ∃ t, exec (.frameReceive port octets good true sub) s = .next t ∧
      t.pair port = (s.pair port).plus (octets.length + 4) ∧
      State.touches [.tally, .host] [.ETH_RAW, .TLY_SAMP_CFG, .TLY_SAMP_CNT] s t) ∧
  (∀ (s : State) (port sub : Nat) (octets : List Byte), port < 64 →
    s.rd F.ETH_PORT_CFG.FLEXE_PHY port = 0 → macControl octets = none → s.portUp port = true →
    60 ≤ octets.length → octets.length + 4 ≤ s.maxFrame port → s.fifoSize port < (s.mac port).fill + (octets.length + 4) →
    ∃ t, exec (.frameReceive port octets true true sub) s = .next t ∧ t.rd F.ETH_PORT_STATUS.FIFO_DROP port = 1 ∧
      t.rd F.ETH_RAW.COUNT (16 * port + 4) = (s.rd F.ETH_RAW.COUNT (16 * port + 4) + 1) % 2 ^ 64 ∧
      t.pair (256 + port) = (s.pair (256 + port)).plus (octets.length + 4) ∧
      (t.mac port).fill = (s.mac port).fill ∧ (t.mac port).order = (s.mac port).order ∧
      State.touches [.tally, .host, .macs, .outputs] [.ETH_RAW, .ETH_PORT_STATUS, .TLY_SAMP_CFG, .TLY_SAMP_CNT] s t)) ∧
  (∀ (s : State) (n : Nat) (p : Pkt) (tail : List Byte), s.pkt n = some p → p.rx.arrived = false → p.loc ≠ .gone →
    (p.loc = .fifo → macControl (p.data ++ tail) = none) → 60 ≤ (p.data ++ tail).length →
    (p.data ++ tail).length + 4 ≤ s.maxFrame p.rx.inPort →
    ((s.countFrame p.rx.inPort ((p.data ++ tail).length + 4) true).trueUp (p.data ++ tail).length p.charges).overran p (tail.length + 4) =
      false →
    ∃ t, exec (.chargeTrueUp n tail true) s = .next t ∧
      t.pkt n = some { p with
        data := p.data ++ tail
        charges := []
        rx := { p.rx with arrived := true, size := (p.data ++ tail).length + 4, held := p.rx.held + (tail.length + 4), fills := [] } } ∧
      t.policers = (s.trueUp (p.data ++ tail).length p.charges).policers ∧
      (∀ i, t.pair i = (s.trueUp (p.data ++ tail).length p.charges).pair i) ∧
      (∀ m, m ≠ n → t.pkt m = s.pkt m) ∧
      (t.mac p.rx.inPort).fill = (s.mac p.rx.inPort).fill + (tail.length + 4) ∧
      State.touches [.pkts, .macs, .tally, .outputs, .policers] [.ETH_RAW, .TLY_STATUS] s t)

/-- R97: with PAUSE_RX set a PAUSE frame stops the port for the time its quanta give, and transmission goes on when that time has passed;
a sent PAUSE is repeated after half of its quanta while the fill stays above XON. A PAUSE frame that arrives while LINK is 0 is a receive
error (R621), and one that arrives with PAUSE_RX 0 is only counted. -/
def Obligations.PauseStopsAndResumesThePort : Prop :=
  (∀ (s : State) (p q : Nat), p < 64 → s.rd F.ETH_PORT_STATUS.LINK p = 0 →
    ∃ t, exec (.pauseFrameReceive p q) s = .next t ∧ t.pair p = (s.pair p).plus 64 ∧
      State.touches [.tally, .host] [.TLY_SAMP_CFG, .TLY_SAMP_CNT] s t) ∧
  (∀ (s : State) (p q : Nat), p < 64 → s.rd F.ETH_PORT_STATUS.LINK p = 1 → s.inForce p F.ETH_PORT_CFG.PAUSE_RX p = 0 →
    ∃ t, exec (.pauseFrameReceive p q) s = .next t ∧
      t.rd F.ETH_RAW.COUNT (16 * p + 11) = (s.rd F.ETH_RAW.COUNT (16 * p + 11) + 1) % 2 ^ 64 ∧
      State.frame [] [(F.ETH_RAW.COUNT, 16 * p + 11)] s t) ∧
  (∀ (s : State) (p q : Nat), p < 64 → s.rd F.ETH_PORT_STATUS.LINK p = 1 → s.inForce p F.ETH_PORT_CFG.PAUSE_RX p = 1 →
    ∃ t, exec (.pauseFrameReceive p q) s = .next t ∧
      t.mac p = { s.mac p with txPaused := decide (0 < q % 65536), txResume := s.now + quantaTime (q % 65536) (s.portKbps p) } ∧
      (∀ m, m ≠ p → t.mac m = s.mac m) ∧
      t.rd F.ETH_RAW.COUNT (16 * p + 11) = (s.rd F.ETH_RAW.COUNT (16 * p + 11) + 1) % 2 ^ 64 ∧
      State.frame [.macs] [(F.ETH_RAW.COUNT, 16 * p + 11)] s t) ∧
  (∀ (s : State) (p : Nat), (s.mac p).txPaused = true →
    ∃ t, exec (.pauseQuantaExpiry p) s = .next t ∧ t.mac p = { s.mac p with txPaused := false } ∧
      (∀ m, m ≠ p → t.mac m = s.mac m) ∧ ((s.mac p).txResume < 2 ^ 80 → t.now = max s.now (s.mac p).txResume) ∧
      State.frame [.frc, .macs] [] s t) ∧
  (∀ (s : State) (p : Nat), p < 64 → (s.mac p).pauseSent = true → s.inForce p F.ETH_PORT_CFG.PAUSE_TX p = 1 → s.aboveXon p = true →
    ∃ t, exec (.pauseRepeat p) s = .next t ∧ t.outputs = s.outputs ++ [.pause p 65535] ∧
      t.mac p = { s.mac p with pauseNext := t.now + quantaTime 65535 (s.portKbps p) / 2 } ∧
      (∀ m, m ≠ p → t.mac m = s.mac m) ∧ s.now ≤ t.now ∧ State.frame [.frc, .macs, .outputs] [] s t)

/-- R93, R94, R98: an enable is refused with CFG_ERR where the lanes do not allow it, and leaves EN at 0; else EN is 1 and the octet of
its lanes is locked, but the link does not yet come up; while EN is 1 a write that changes SPEED, LANE_RATE, FEC or FLEXE_PHY is discarded
with CFG_ERR; a write of EN = 0 takes a link that is up down at once. R98, R100: on each change of LINK of an Ethernet port the device
sets LINK_CHG and raises the port's link event, after DN_DEBOUNCE and UP_HOLD; what the PCS reports stands in ETH_PORT_STATUS, and Remote
Fault is sent while Local Fault is received. -/
def Obligations.EthernetPortsAndTheirLinks : Prop :=
  ((∀ (s : State) (p v : Nat), p < 64 → s.takes .ETH_PORT_CFG = true → s.rd F.ETH_PORT_CFG.EN p = 0 →
    (s.setReg .ETH_PORT_CFG p (portCfgStored (setBits v 0 1 1))).portRefused p = true →
    ∃ t, exec (.portEnable p v) s = .next t ∧ t.rd F.ETH_PORT_CFG.EN p = 0 ∧ t.rd F.ETH_PORT_STATUS.CFG_ERR p = 1 ∧
      State.frame [] [(⟨.ETH_PORT_CFG, 0, 320⟩, p), (F.ETH_PORT_STATUS.CFG_ERR, p)] s t) ∧
  (∀ (s : State) (p v : Nat), p < 64 → s.takes .ETH_PORT_CFG = true → s.rd F.ETH_PORT_CFG.EN p = 0 →
    (s.setReg .ETH_PORT_CFG p (portCfgStored (setBits v 0 1 1))).portRefused p = false →
    ∃ t, exec (.portEnable p v) s = .next t ∧ t.rd F.ETH_PORT_CFG.EN p = 1 ∧
      t.rd F.ETH_PORT_CFG.SPEED p = bitsOf v 1 3 ∧ t.rd F.ETH_PORT_CFG.LANE_RATE p = bitsOf v 4 2 ∧
      t.rd F.ETH_PORT_CFG.FEC p = bitsOf v 6 2 ∧ t.rd F.ETH_PORT_CFG.MAX_FRAME p = min (bitsOf v 16 14) 9728 ∧
      t.rd F.ETH_OCTET_CFG.LOCKED (p / 8) = 1 ∧ (∀ q, q ≠ p → t.mac q = s.mac q) ∧
      (∀ q, q ≠ p → t.reg .ETH_PORT_CFG q = s.reg .ETH_PORT_CFG q) ∧
      State.touches [.macs] [.ETH_PORT_CFG, .ETH_OCTET_CFG] s t) ∧
  (∀ (s : State) (p v : Nat) (cut : Bool), p < 64 → s.takes .ETH_PORT_CFG = true → s.rd F.ETH_PORT_CFG.EN p = 1 →
    bitsOf v 1 8 ≠ bitsOf (s.reg .ETH_PORT_CFG p).toNat 1 8 →
    (∃ t, exec (.portEnable p v) s = .next t ∧ t.rd F.ETH_PORT_STATUS.CFG_ERR p = 1 ∧
      State.frame [] [(F.ETH_PORT_STATUS.CFG_ERR, p)] s t) ∧
    (∃ t, exec (.portDisable p v cut) s = .next t ∧ t.rd F.ETH_PORT_STATUS.CFG_ERR p = 1 ∧
      State.frame [] [(F.ETH_PORT_STATUS.CFG_ERR, p)] s t)) ∧
  (∀ (s : State) (p v : Nat) (cut : Bool), p < 64 → s.takes .ETH_PORT_CFG = true → s.rd F.ETH_PORT_CFG.EN p = 1 → s.rd F.ETH_PORT_STATUS.LINK p = 1 →
    bitsOf v 1 8 = bitsOf (s.reg .ETH_PORT_CFG p).toNat 1 8 →
    ∃ t, exec (.portDisable p v cut) s = .next t ∧ t.rd F.ETH_PORT_CFG.EN p = 0 ∧ t.rd F.ETH_PORT_STATUS.LINK p = 0 ∧
      t.rd F.ETH_PORT_STATUS.LINK_CHG p = 1 ∧ (∃ l, t.host.raised = s.host.raised ++ [64 + p] ++ l) ∧
      State.touches linkParts ([.ETH_OCTET_CFG, .ETH_PORT_CFG, .ETH_PORT_STATUS, .ETH_RAW] ++ linkRegs) s t)) ∧
  ((∀ (s : State) (p since : Nat) (cut : Bool), p < 64 → (s.mac p).badSince = some since → s.rd F.ETH_PORT_STATUS.LINK p = 1 →
    ∃ t, exec (.linkDown p cut) s = .next t ∧ t.rd F.ETH_PORT_STATUS.LINK p = 0 ∧ t.rd F.ETH_PORT_STATUS.LINK_CHG p = 1 ∧
      t.rd F.ETH_RAW.COUNT (16 * p + 10) = (s.rd F.ETH_RAW.COUNT (16 * p + 10) + 1) % 2 ^ 64 ∧
      (∃ l, t.host.raised = s.host.raised ++ [64 + p] ++ l) ∧
      (since + us (s.rd F.ETH_LINK_TIMING.DN_DEBOUNCE) < 2 ^ 80 →
        t.now = max s.now (since + us (s.rd F.ETH_LINK_TIMING.DN_DEBOUNCE))) ∧
      State.touches (.frc :: linkParts) ([.ETH_PORT_STATUS, .ETH_RAW] ++ linkRegs) s t) ∧
  (∀ (s : State) (p since : Nat), p < 64 → (s.mac p).goodSince = some since → s.rd F.ETH_PORT_STATUS.LINK p = 0 →
    s.rd F.ETH_PORT_CFG.EN p = 1 → s.halted = false →
    ∃ t, exec (.linkUp p) s = .next t ∧ t.rd F.ETH_PORT_STATUS.LINK p = 1 ∧ t.rd F.ETH_PORT_STATUS.LINK_CHG p = 1 ∧
      t.host = { s.host with raised := s.host.raised ++ [64 + p] } ∧
      (since + us (s.rd F.ETH_LINK_TIMING.UP_HOLD) < 2 ^ 80 → t.now = max s.now (since + us (s.rd F.ETH_LINK_TIMING.UP_HOLD))) ∧
      State.touches [.frc, .host] [.ETH_PORT_STATUS, .SCH_PNODE_STATUS] s t) ∧
  (∀ (s : State) (p since : Nat), 112 ≤ p → p < 176 → (s.mac p).goodSince = some since → (s.mac p).up = false →
    s.rd F.FLX_CLIENT_CFG.EN (p - 112) = 1 → s.halted = false →
    ∃ t, exec (.linkUp p) s = .next t ∧ t.mac p = { s.mac p with up := true } ∧ (∀ q, q ≠ p → t.mac q = s.mac q) ∧
      State.touches [.frc, .macs] [.SCH_PNODE_STATUS] s t) ∧
  (∀ (s : State) (p since : Nat) (cut : Bool), 112 ≤ p → p < 176 → (s.mac p).badSince = some since → (s.mac p).up = true →
    ∃ t, exec (.linkDown p cut) s = .next t ∧ (t.mac p).up = false ∧
      (since + us (s.rd F.ETH_LINK_TIMING.DN_DEBOUNCE) < 2 ^ 80 →
        t.now = max s.now (since + us (s.rd F.ETH_LINK_TIMING.DN_DEBOUNCE))) ∧
      State.touches (.frc :: linkParts) linkRegs s t) ∧
  (∀ (s : State) (p corr bad syms : Nat) (bl am lf rf hb : Bool), p < 64 →
    ∃ t, exec (.pcsStatusChange p bl am lf rf (hb, corr, bad, syms)) s = .next t ∧
      t.on F.ETH_PORT_STATUS.BLOCK_LOCK p = bl ∧ t.on F.ETH_PORT_STATUS.AM_LOCK p = s.amLock p bl am ∧
      t.on F.ETH_PORT_STATUS.LF_RX p = lf ∧ t.on F.ETH_PORT_STATUS.RF_RX p = rf ∧ t.on F.ETH_PORT_STATUS.HI_BER p = hb ∧
      (t.mac p).badSince.isSome = (!bl || !s.amLock p bl am || hb || lf) ∧
      (t.mac p).goodSince.isSome = !(!bl || !s.amLock p bl am || hb || lf) ∧
      t.rd F.ETH_RAW.COUNT (16 * p + 7) = (s.rd F.ETH_RAW.COUNT (16 * p + 7) + corr) % 2 ^ 64 ∧
      t.rd F.ETH_RAW.COUNT (16 * p + 8) = (s.rd F.ETH_RAW.COUNT (16 * p + 8) + bad) % 2 ^ 64 ∧
      t.rd F.ETH_RAW.COUNT (16 * p + 9) = (s.rd F.ETH_RAW.COUNT (16 * p + 9) + syms) % 2 ^ 64 ∧
      t.outputs = s.outputs ++ (if s.on F.ETH_PORT_STATUS.LF_RX p = lf then [] else [.remoteFault p lf]) ∧
      State.frame [.macs, .outputs] [(F.ETH_PORT_STATUS.BLOCK_LOCK, p), (F.ETH_PORT_STATUS.AM_LOCK, p), (F.ETH_PORT_STATUS.LF_RX, p),
        (F.ETH_PORT_STATUS.RF_RX, p), (F.ETH_PORT_STATUS.HI_BER, p), (F.ETH_RAW.COUNT, 16 * p + 7), (F.ETH_RAW.COUNT, 16 * p + 8),
        (F.ETH_RAW.COUNT, 16 * p + 9)] s t) ∧
  (∀ (s : State) (p corr bad syms : Nat) (bl am lf rf hb : Bool), 112 ≤ p → p < 176 →
    ∃ t, exec (.pcsStatusChange p bl am lf rf (hb, corr, bad, syms)) s = .next t ∧
      t.rd F.ETH_RAW.COUNT (16 * (p + 16) + 4) = (s.rd F.ETH_RAW.COUNT (16 * (p + 16) + 4) + bad) % 2 ^ 64 ∧
      State.frame [] [(F.ETH_RAW.COUNT, 16 * (p + 16) + 4)] s t))

/-- R108, R109: a block of the marker's form becomes a candidate while fewer than 16 are tracked and is counted otherwise; a candidate
whose next expected position fails is rejected; one whose position holds is locked to. R111, R112: a checked overhead position that has
the form ends a run of misses, and one that lacks it counts as a miss; the fifth miss in a row declares loss of lock, sets LOCK_LOSS,
raises the group's event and restarts the search; at the end of a good frame the received fields are shown and their runs counted. -/
def Obligations.FlexeLockIsFoundAndLost : Prop :=
  ((∀ (s : State) (i pos : Nat), s.rd F.FLX_INST_CFG.EN i = 1 → s.rd F.FLX_INST_STATUS.OH_LOCK i = 0 →
    (s.inst i).candidates.length < 16 →
    ∃ t, exec (.markerCandidate i pos) s = .next t ∧ t.inst i = { s.inst i with candidates := (s.inst i).candidates ++ [pos] } ∧
      (∀ j, j ≠ i → t.inst j = s.inst j) ∧ State.frame [.insts] [] s t) ∧
  (∀ (s : State) (i pos : Nat), s.rd F.FLX_INST_CFG.EN i = 1 → s.rd F.FLX_INST_STATUS.OH_LOCK i = 0 →
    16 ≤ (s.inst i).candidates.length →
    ∃ t, exec (.markerCandidate i pos) s = .next t ∧
      t.rd F.ETH_RAW.COUNT (16 * (64 + i) + 3) = (s.rd F.ETH_RAW.COUNT (16 * (64 + i) + 3) + 1) % 2 ^ 64 ∧
      State.frame [] [(F.ETH_RAW.COUNT, 16 * (64 + i) + 3)] s t) ∧
  (∀ (s : State) (i pos : Nat), s.rd F.FLX_INST_CFG.EN i = 1 → s.rd F.FLX_INST_STATUS.OH_LOCK i = 0 →
    pos ∈ (s.inst i).candidates →
    (∃ t, exec (.ohCandidateCheck i pos true) s = .next t ∧ t.rd F.FLX_INST_STATUS.OH_LOCK i = 1 ∧
      t.rd F.FLX_INST_STATUS.MISS_CNT i = 0 ∧
      t.inst i = { (s.inst i).newLock with
        candidates := [], phase := 2, rpfTx := false
        failedAt := if s.rd F.FLX_INST_STATUS.RPF_RX i = 1 then (s.inst i).failedAt else none } ∧
      (∀ j, j ≠ i → t.inst j = s.inst j) ∧ State.touches (.insts :: linkParts) ([.ETH_RAW, .FLX_INST_STATUS] ++ linkRegs) s t) ∧
    (∃ t, exec (.ohCandidateCheck i pos false) s = .next t ∧
      t.inst i = { s.inst i with candidates := (s.inst i).candidates.filter (· != pos) } ∧
      (∀ j, j ≠ i → t.inst j = s.inst j) ∧ State.frame [.insts] [] s t))) ∧
  ((∀ (s : State) (i gid : Nat) (form crc cr ca ccc rpf mf : Bool) (cal : List (BitVec 16)) (mgmt : List Byte),
    s.rd F.FLX_INST_CFG.EN i = 1 → s.rd F.FLX_INST_STATUS.OH_LOCK i = 1 → (s.inst i).phase < 7 →
    (form = true ∨ s.rd F.FLX_INST_STATUS.MISS_CNT i < 4) →
    ∃ t, exec (.ohPositionCheck i form crc cr ca ccc rpf mf gid cal mgmt) s = .next t ∧
      t.rd F.FLX_INST_STATUS.MISS_CNT i = (if form then 0 else s.rd F.FLX_INST_STATUS.MISS_CNT i + 1) ∧
      t.inst i = { s.inst i with phase := (s.inst i).phase + 1 } ∧ (∀ j, j ≠ i → t.inst j = s.inst j) ∧
      State.frame [.insts] [(F.FLX_INST_STATUS.MISS_CNT, i)] s t) ∧
  (∀ (s : State) (i gid : Nat) (crc cr ca ccc rpf mf : Bool) (cal : List (BitVec 16)) (mgmt : List Byte),
    s.rd F.FLX_INST_CFG.EN i = 1 → s.rd F.FLX_INST_STATUS.OH_LOCK i = 1 → 4 ≤ s.rd F.FLX_INST_STATUS.MISS_CNT i →
    ∃ t, exec (.ohPositionCheck i false crc cr ca ccc rpf mf gid cal mgmt) s = .next t ∧
      t.rd F.FLX_INST_STATUS.OH_LOCK i = 0 ∧ t.rd F.FLX_INST_STATUS.MF_LOCK i = 0 ∧ t.rd F.FLX_INST_STATUS.LOCK_LOSS i = 1 ∧
      (t.inst i).candidates = [] ∧ (t.inst i).rpfTx = true ∧ (128 + s.instGroup i) ∈ t.host.raised ∧
      (∀ j, j ≠ i → t.inst j = s.inst j) ∧
      State.touches (.insts :: linkParts) ([.ETH_RAW, .FLX_GRP_STATUS, .FLX_INST_STATUS] ++ linkRegs) s t) ∧
  (∀ (s : State) (i gid : Nat) (cr ca ccc rpf mf : Bool) (cal : List (BitVec 16)) (mgmt : List Byte),
    s.rd F.FLX_INST_CFG.EN i = 1 → s.rd F.FLX_INST_STATUS.OH_LOCK i = 1 → (s.inst i).phase = 7 →
    ∃ t, exec (.ohPositionCheck i true true cr ca ccc rpf mf gid cal mgmt) s = .next t ∧
      t.rd F.FLX_INST_STATUS.MISS_CNT i = 0 ∧ t.on F.FLX_INST_STATUS.MF_LOCK i = mf ∧ t.on F.FLX_INST_STATUS.RPF_RX i = rpf ∧
      t.on F.FLX_INST_STATUS.GID_MISMATCH i = (gid % 2 ^ 20 != s.rd F.FLX_GRP_CFG.GROUP_NUM (s.instGroup i)) ∧
      (t.inst i).phase = 0 ∧ (t.inst i).cr = (s.inst i).cr.see (if cr then 1 else 0) ∧
      (t.inst i).ca = (s.inst i).ca.see (if ca then 1 else 0) ∧ (t.inst i).ccc = (s.inst i).ccc.see (if ccc then 1 else 0) ∧
      (∀ j, j ≠ i → t.inst j = s.inst j) ∧
      State.touches (.insts :: linkParts) ([.ETH_RAW, .FLX_GRP_STATUS, .FLX_INST_STATUS] ++ linkRegs) s t))

/-- R112, R113, R119: CR, CA, CCC and the calendar are acted upon only after three consecutive frames; a CA that answers a CR lets the
device flip CCC, and the transmit page changes at the next overhead frame; software may ask for the exchange. R116, R118: when an instance
has stayed failed for HOLDOFF under PROT_EN, its protection plan becomes the standby transmit page and CR is set; with no CA 100 ms after
that CR is cleared and PROT_FAIL set, and the pages stay. R105, R107: an instance is enabled where its port is a FlexE PHY that carries
its SUB, its group has fewer than 16 others enabled and they have its PHY's rate; else EN stays 0. -/
def Obligations.FlexePagesProtectionAndInstances : Prop :=
  ((∀ (s : State) (i : Nat), s.rd F.FLX_INST_STATUS.OH_LOCK i = 1 →
    ∃ t, exec (.ohFieldAccept i) s = .next t ∧
      t.rd F.FLX_GRP_STATUS.RX_PAGE (s.instGroup i) =
        (if 3 ≤ (s.inst i).ccc.run then (s.inst i).ccc.value % 2 else s.rd F.FLX_GRP_STATUS.RX_PAGE (s.instGroup i)) ∧
      t.rd F.FLX_GRP_STATUS.CA_RX (s.instGroup i) =
        (if 3 ≤ (s.inst i).ca.run then (if (s.inst i).ca.value = 1 then 1 else 0)
          else s.rd F.FLX_GRP_STATUS.CA_RX (s.instGroup i)) ∧
      (t.grp (s.instGroup i)).caTx =
        (if 3 ≤ (s.inst i).cr.run then (s.inst i).cr.value == 1 else (s.grp (s.instGroup i)).caTx) ∧
      (t.grp (s.instGroup i)).flipping =
        ((s.grp (s.instGroup i)).flipping ||
          (decide (3 ≤ (s.inst i).ca.run) && (s.inst i).ca.value == 1 && s.on F.FLX_GRP_STATUS.CR_TX (s.instGroup i))) ∧
      (3 ≤ (s.inst i).cal.run → ∀ k, k < 20 →
        Sparse.read 0 (t.grp (s.instGroup i)).rxCalA (20 * s.instPos i + k) = calEntry (s.inst i).cal.value 0 k ∧
        Sparse.read 0 (t.grp (s.instGroup i)).rxCalB (20 * s.instPos i + k) = calEntry (s.inst i).cal.value 1 k) ∧
      (∀ h, h ≠ s.instGroup i → t.grp h = s.grp h) ∧
      State.touches (.grps :: linkParts) ([.ETH_RAW, .FLX_GRP_STATUS] ++ linkRegs) s t) ∧
  (∀ (s : State) (g : Nat), (s.grp g).flipping = true →
    ∃ t, exec (.txPageSwitch (g, false)) s = .next t ∧ t.rd F.FLX_GRP_STATUS.TX_PAGE g = 1 - s.rd F.FLX_GRP_STATUS.TX_PAGE g ∧
      t.rd F.FLX_GRP_STATUS.CR_TX g = 0 ∧ t.grp g = { s.grp g with flipping := false } ∧ (∀ h, h ≠ g → t.grp h = s.grp h) ∧
      (s.rd F.FLX_GRP_STATUS.PROT_ACTIVE g = 1 →
        t.rd F.FLX_GRP_STATUS.PROT_ACTIVE g = 0 ∧ t.rd F.FLX_GRP_STATUS.PROT_DONE g = 1 ∧
        t.host = { s.host with raised := s.host.raised ++ [128 + g] }) ∧
      (s.rd F.FLX_GRP_STATUS.PROT_ACTIVE g = 0 → t.host = s.host ∧
        t.rd F.FLX_GRP_STATUS.PROT_DONE g = s.rd F.FLX_GRP_STATUS.PROT_DONE g) ∧
      State.frame [.grps, .host] [(F.FLX_GRP_STATUS.TX_PAGE, g), (F.FLX_GRP_STATUS.CR_TX, g), (F.FLX_GRP_STATUS.PROT_ACTIVE, g),
        (F.FLX_GRP_STATUS.PROT_DONE, g)] s t) ∧
  (∀ (s : State) (g : Nat), s.rd F.FLX_GRP_STATUS.CR_TX g = 0 → (s.grp g).flipping = false → s.rd F.FLX_GRP_CFG.EN g = 1 →
    ∃ t, exec (.txPageSwitch (g, true)) s = .next t ∧ t.rd F.FLX_GRP_STATUS.CR_TX g = 1 ∧
      t.grp g = { s.grp g with crAt := s.now } ∧ (∀ h, h ≠ g → t.grp h = s.grp h) ∧
      State.frame [.grps] [(F.FLX_GRP_STATUS.CR_TX, g)] s t)) ∧
  ((∀ (s : State) (i since : Nat), (s.inst i).failedAt = some since → s.rd F.FLX_GRP_CFG.PROT_EN (s.instGroup i) = 1 →
    s.rd F.FLX_GRP_STATUS.PROT_ACTIVE (s.instGroup i) = 0 →
    ∃ t, exec (.protHoldoffExpiry i) s = .next t ∧ t.rd F.FLX_GRP_STATUS.CR_TX (s.instGroup i) = 1 ∧
      t.rd F.FLX_GRP_STATUS.PROT_ACTIVE (s.instGroup i) = 1 ∧ t.rd F.FLX_GRP_STATUS.FAILED_POS (s.instGroup i) = s.instPos i ∧
      (∀ j, j < 320 →
        t.rd F.FLX_CAL.CLIENT (640 * s.instGroup i + 320 * (1 - s.rd F.FLX_GRP_STATUS.TX_PAGE (s.instGroup i)) + j) =
          s.rd F.FLX_PROT.CLIENT (5120 * s.instGroup i + 320 * s.instPos i + j)) ∧
      t.inst i = { s.inst i with failedAt := none } ∧ t.grp (s.instGroup i) = { s.grp (s.instGroup i) with crAt := t.now, flipping := false } ∧
      (since + ms (s.rd F.FLX_GRP_CFG.HOLDOFF (s.instGroup i)) < 2 ^ 80 →
        t.now = max s.now (since + ms (s.rd F.FLX_GRP_CFG.HOLDOFF (s.instGroup i)))) ∧
      State.touches [.frc, .grps, .insts] [.FLX_CAL, .FLX_GRP_STATUS] s t) ∧
  (∀ (s : State) (g : Nat), s.rd F.FLX_GRP_STATUS.CR_TX g = 1 → (s.grp g).flipping = false →
    ∃ t, exec (.protCaTimeout g) s = .next t ∧ t.rd F.FLX_GRP_STATUS.CR_TX g = 0 ∧ t.rd F.FLX_GRP_STATUS.PROT_ACTIVE g = 0 ∧
      t.rd F.FLX_GRP_STATUS.PROT_FAIL g = 1 ∧ t.host = { s.host with raised := s.host.raised ++ [128 + g] } ∧
      ((s.grp g).crAt + ms 100 < 2 ^ 80 → t.now = max s.now ((s.grp g).crAt + ms 100)) ∧
      State.frame [.frc, .host]
        [(F.FLX_GRP_STATUS.CR_TX, g), (F.FLX_GRP_STATUS.PROT_ACTIVE, g), (F.FLX_GRP_STATUS.PROT_FAIL, g)] s t)) ∧
  ((∀ (s : State) (i v : Nat), i < 64 → s.takes .FLX_INST_CFG = true → bitsOf v 7 2 < s.phyInstances (bitsOf v 1 6) →
    s.groupInstances i (bitsOf v 12 4) < 16 → s.rateDiffers i (bitsOf v 1 6) (bitsOf v 12 4) = false →
    ∃ t, exec (.flexeInstanceEnable i v) s = .next t ∧ t.rd F.FLX_INST_CFG.EN i = 1 ∧
      t.rd F.FLX_INST_CFG.PORT i = bitsOf v 1 6 ∧ t.rd F.FLX_INST_CFG.SUB i = bitsOf v 7 2 ∧
      t.rd F.FLX_INST_CFG.GROUP i = bitsOf v 12 4 ∧ State.frame [] [(⟨.FLX_INST_CFG, 0, 320⟩, i)] s t) ∧
  (∀ (s : State) (i v : Nat), i < 64 → s.takes .FLX_INST_CFG = true →
    (s.phyInstances (bitsOf v 1 6) ≤ bitsOf v 7 2 ∨ 16 ≤ s.groupInstances i (bitsOf v 12 4) ∨
      s.rateDiffers i (bitsOf v 1 6) (bitsOf v 12 4) = true) →
    ∃ t, exec (.flexeInstanceEnable i v) s = .next t ∧ t.rd F.FLX_INST_CFG.EN i = 0 ∧
      t.rd F.FLX_INST_STATUS.OH_LOCK i = 0 ∧ t.inst i = Inst.idle ∧ (∀ j, j ≠ i → t.inst j = s.inst j) ∧
      State.touches (.insts :: linkParts) ([.ETH_RAW, .FLX_INST_CFG, .FLX_INST_STATUS] ++ linkRegs) s t))

/-- R125, R46, R51, R65: the packet first in line on the port whose turn it is in a quad gets a free context of that quad, is stamped with
the active bank at its first admission and keeps its stamp at later ones, and counts against the port's weight and share (assumptions 13
and 103); a packet whose stamp is for a retired bank is discarded and counted as a coat-retire drop. R129, R130, R154, R158: a program
starts at START_PC with its registers and cursor 0, the header window in the header vector and WIN_LEN the smaller of the length and 256;
before it, an early lookup is issued under the profile's template where its guard holds, or counted as lacking a slot. R33, R147, R168: a
header vector whose program has ended leaves for its pipe against credit, last in the order of its pipe, and frees its context; one that
ended with an exception passes the pipe without running a stage and waits for its settlement at once. -/
def Obligations.SketchContextsArriveAndLeave : Prop :=
  ((∀ (s : State) (port n c : Nat) (p : Pkt), s.waiting port = some n → s.pkt n = some p → s.admits = true →
    s.stampRetired n p = false → s.roundRobin (s.quadOf port p) = some port → s.freeCtx (s.quadOf port p) = some c →
    ∃ t q, exec (.contextGrant port) s = .next t ∧ t.ctx c = some ⟨n, [], 0, 0, false, false, 0⟩ ∧
      (∀ d, d ≠ c → t.ctx d = s.ctx d) ∧ t.pkt n = some q ∧ q.loc = .ctx c ∧ q.pass = p.pass + 1 ∧ q.stamped = true ∧
      q.coat = (if p.stamped then p.coat else s.activeBank) ∧ q.data = p.data ∧ q.rx = p.rx ∧
      (∀ m, m ≠ n → t.pkt m = s.pkt m) ∧
      (p.stamped = false → t.inflight s.activeBank = s.inflight s.activeBank + 1) ∧
      Sparse.read 0 t.pace.served port = s.servedAt (s.quadOf port p) port + 10 ^ 15 / max 1 (s.portKbps port) ∧
      (∀ o, o ≠ port → Sparse.read 0 t.pace.served o = Sparse.read 0 s.pace.served o) ∧
      t.pace.admitLeft = s.pace.admitLeft - 1 ∧ Sparse.read 0 t.pace.admitted port = Sparse.read 0 s.pace.admitted port + 1 ∧
      (c < 4096 → t.rd (busyFld (c / 1024)) = min (s.rd (busyFld (c / 1024)) + 1) 2047) ∧
      State.touches [.coat, .ctxs, .host, .inflightA, .inflightB, .outputs, .pace, .pkts, .tally]
        (.SKT_CTX_STATUS :: traceRegs) s t) ∧
  (∀ (s : State) (port n : Nat) (p : Pkt), s.waiting port = some n → s.pkt n = some p → s.admits = true →
    s.stampRetired n p = true →
    ∃ t, exec (.contextGrant port) s = .next t ∧ t.pkt n = none ∧ State.othersSame n s t ∧
      t.pair 769 = (s.pair 769).plus p.data.length ∧
      State.touches [.host, .inflightA, .inflightB, .macs, .outputs, .pkts, .tally] traceRegs s t)) ∧
  ((∀ (s : State) (c : Nat) (x : Ctx) (p : Pkt), s.ctx c = some x → s.pkt x.pkt = some p → x.running = false → x.ended = false →
    p.present 256 = true →
    ∃ t q, exec (.programStart c) s = .next t ∧
      t.ctx c = some { x with
        g := [], cursor := 0, running := true, insns := 0
        pc := s.rd F.SKT_PROFILE.START_PC (bankNo p.coat * 64 + hvGet p.hv 0x102 1) } ∧
      t.pkt x.pkt = some q ∧ q = { p with hv := q.hv, drec := startDrec (min p.data.length 256) } ∧
      winLen q.hv = min p.data.length 256 ∧ (∀ k, k < min p.data.length 256 → Sparse.read 0 q.hv k = p.data.getD k 0) ∧
      (∀ d, d ≠ c → t.ctx d = s.ctx d) ∧ (∀ m, m ≠ x.pkt → t.pkt m = s.pkt m) ∧ State.frame [.ctxs, .pkts] [] s t) ∧
  (∀ (s : State) (c : Nat) (x : Ctx) (p : Pkt) (pr : Nat), s.ctx c = some x → s.pkt x.pkt = some p → x.running = false →
    x.ended = false → p.early = none → p.present 64 = true → pr = bankNo p.coat * 64 + hvGet p.hv 0x102 1 → s.rd F.SKT_PROFILE.EL_EN pr = 1 →
    s.guardHolds pr p = true → s.rd F.SKT_PROFILE.EL_TPL pr ≠ 0xFF →
    s.rd F.GLZ_TPL.KIND (bankNo p.coat * 256 + s.rd F.SKT_PROFILE.EL_TPL pr) ≠ 5 →
    (∃ t q e, exec (.earlyLookupIssue c true) s = .next t ∧ t.pkt x.pkt = some q ∧ q.early = some e ∧
      e.tpl = s.rd F.SKT_PROFILE.EL_TPL pr ∧ e.key = s.keyOf p.coat (s.rd F.SKT_PROFILE.EL_TPL pr) (predictedVector p) ∧
      hvGet q.hv 0x116 1 = 1 ∧ (∀ m, m ≠ x.pkt → t.pkt m = s.pkt m) ∧
      t.rd F.SKT_EL_ISSUED.COUNT = (s.rd F.SKT_EL_ISSUED.COUNT + 1) % 2 ^ F.SKT_EL_ISSUED.COUNT.len ∧
      State.frame [.pkts] [(F.SKT_EL_ISSUED.COUNT, 0)] s t) ∧
    (∃ t, exec (.earlyLookupIssue c false) s = .next t ∧
      t.rd F.SKT_EL_NOSLOT.COUNT = (s.rd F.SKT_EL_NOSLOT.COUNT + 1) % 2 ^ F.SKT_EL_NOSLOT.COUNT.len ∧
      State.frame [] [(F.SKT_EL_NOSLOT.COUNT, 0)] s t))) ∧
  (∀ (s : State) (c : Nat) (x : Ctx) (p : Pkt), s.ctx c = some x → s.pkt x.pkt = some p → x.ended = true → s.pipeInDepth p.pipe < 256 →
    ∃ t q, exec (.headerVectorSend c) s = .next t ∧ t.ctx c = none ∧ (∀ d, d ≠ c → t.ctx d = s.ctx d) ∧
      t.pkt x.pkt = some q ∧ q.seq = s.nextSeq ∧ q.loc = (if hvHas p.hv 7 then Loc.reorder else .pipeIn) ∧ q.data = p.data ∧ q.hv = p.hv ∧
      q.drec = p.drec ∧ q.rx = p.rx ∧ q.pipe = p.pipe ∧ (hvHas p.hv 7 = false → q = { p with loc := .pipeIn, seq := s.nextSeq }) ∧
      (hvHas p.hv 7 = false → ∀ b, t.inflight b = s.inflight b) ∧
      (∀ m, m ≠ x.pkt → t.pkt m = s.pkt m) ∧
      (c < 4096 → 0 < s.rd (busyFld (c / 1024)) → t.rd (busyFld (c / 1024)) = s.rd (busyFld (c / 1024)) - 1) ∧
      State.touches [.ctxs, .inflightA, .inflightB, .pkts] [.SKT_CTX_STATUS] s t)

/-- R136, R137, R138: the arithmetic and move instructions of the Sketch engines write one general register and fall through to the next
instruction; sums and differences are modulo 2^32 and shifts take the low five bits of their count. R139, R140, R143: within the window LD
reads the bit field its descriptor gives, LDH an octet field of the header vector, and CSUM the ones'-complement sum of B octets from the
cursor; outside it LD, LDH and CSUM raise the reason of the window, and a place or a count that is not allowed raises reason 6. R131,
R137, R140, R141, R142, R150: STH and XCP store into the writable parts of the header vector, ADV and SETC move the cursor within 256, HDR
writes the next header record, and LCHK records its end; each falls through, and a forbidden place, a cursor beyond 256 or a seventeenth
record raises its reason; sums are modulo 2^32. -/
def Obligations.SketchDataInstructions : Prop :=
  (State.sketchWrites .sketchMov 0x03 (fun _ _ _ => True) (fun i x _ => sketchB i x) ∧
  State.sketchWrites .sketchAdd 0x04 (fun _ _ _ => True) (fun i x _ => x.reg i.ra + sketchB i x) ∧
  State.sketchWrites .sketchSub 0x05 (fun _ _ _ => True) (fun i x _ => x.reg i.ra - sketchB i x) ∧
  State.sketchWrites .sketchAnd 0x06 (fun _ _ _ => True) (fun i x _ => x.reg i.ra &&& sketchB i x) ∧
  State.sketchWrites .sketchOr 0x07 (fun _ _ _ => True) (fun i x _ => x.reg i.ra ||| sketchB i x) ∧
  State.sketchWrites .sketchXor 0x08 (fun _ _ _ => True) (fun i x _ => x.reg i.ra ^^^ sketchB i x) ∧
  State.sketchWrites .sketchShl 0x09 (fun _ _ _ => True) (fun i x _ => x.reg i.ra <<< ((sketchB i x).toNat % 32)) ∧
  State.sketchWrites .sketchShr 0x0A (fun _ _ _ => True) (fun i x _ => x.reg i.ra >>> ((sketchB i x).toNat % 32)) ∧
  State.sketchWrites .sketchGetc 0x0E (fun _ _ _ => True) (fun _ x _ => BitVec.ofNat 32 x.cursor)) ∧
  (State.sketchWrites .sketchLd 0x01
    (fun i x hv => windowCheck (winLen hv) (windowAddr (bitsOf i.imm 0 9) (i.imm.testBit 17) (i.imm.testBit 18) x.cursor (x.reg i.ra))
      ((bitsOf i.imm 9 3 + (bitsOf i.imm 12 5 + 1) + 7) / 8) = 0)
    (fun i x hv =>
      let a := windowAddr (bitsOf i.imm 0 9) (i.imm.testBit 17) (i.imm.testBit 18) x.cursor (x.reg i.ra)
      let bit := bitsOf i.imm 9 3
      let width := bitsOf i.imm 12 5 + 1
      let n := (bit + width + 7) / 8
      BitVec.ofNat 32 (Sparse.readBE hv a n / 2 ^ (8 * n - bit - width) % 2 ^ width)) ∧
  State.sketchWrites .sketchLdh 0x02
    (fun i _ hv => hvSize i.imm ≠ 0 ∧ bitsOf i.imm 0 9 + hvSize i.imm ≤ 512 ∧
      (winLen hv < 256 → bitsOf i.imm 0 9 < 256 → min (bitsOf i.imm 0 9 + hvSize i.imm) 256 ≤ winLen hv))
    (fun i _ hv => BitVec.ofNat 32 (hvGet hv (bitsOf i.imm 0 9) (hvSize i.imm))) ∧
  State.sketchWrites .sketchCsum 0x0B
    (fun i x hv => (sketchB i x).toNat % 2 = 0 ∧ 2 ≤ (sketchB i x).toNat ∧ (sketchB i x).toNat ≤ 64 ∧
      windowCheck (winLen hv) x.cursor (sketchB i x).toNat = 0)
    (fun i x hv => BitVec.ofNat 32 (onesSum (Sparse.octets hv x.cursor (sketchB i x).toNat))) ∧
  State.sketchRaises .sketchLd 0x01
    (fun i x hv => windowCheck (winLen hv) (windowAddr (bitsOf i.imm 0 9) (i.imm.testBit 17) (i.imm.testBit 18) x.cursor (x.reg i.ra))
      ((bitsOf i.imm 9 3 + (bitsOf i.imm 12 5 + 1) + 7) / 8) ≠ 0)
    (fun i x hv => windowCheck (winLen hv) (windowAddr (bitsOf i.imm 0 9) (i.imm.testBit 17) (i.imm.testBit 18) x.cursor (x.reg i.ra))
      ((bitsOf i.imm 9 3 + (bitsOf i.imm 12 5 + 1) + 7) / 8)) ∧
  State.sketchRaises .sketchLdh 0x02 (fun i _ _ => hvSize i.imm = 0 ∨ 512 < bitsOf i.imm 0 9 + hvSize i.imm) (fun _ _ _ => 6) ∧
  State.sketchRaises .sketchLdh 0x02
    (fun i _ hv => hvSize i.imm ≠ 0 ∧ bitsOf i.imm 0 9 + hvSize i.imm ≤ 512 ∧ winLen hv < 256 ∧ bitsOf i.imm 0 9 < 256 ∧
      winLen hv < min (bitsOf i.imm 0 9 + hvSize i.imm) 256) (fun _ _ _ => 4) ∧
  State.sketchRaises .sketchCsum 0x0B
    (fun i x _ => (sketchB i x).toNat % 2 = 1 ∨ (sketchB i x).toNat < 2 ∨ 64 < (sketchB i x).toNat) (fun _ _ _ => 6) ∧
  State.sketchRaises .sketchCsum 0x0B
    (fun i x hv => (sketchB i x).toNat % 2 = 0 ∧ 2 ≤ (sketchB i x).toNat ∧ (sketchB i x).toNat ≤ 64 ∧
      windowCheck (winLen hv) x.cursor (sketchB i x).toNat ≠ 0)
    (fun i x hv => windowCheck (winLen hv) x.cursor (sketchB i x).toNat)) ∧
  ((∀ (s : State) (c : Nat) (x : Ctx) (p : Pkt) (i : SInsn), s.sketchReady c 0x0D x p i → ∃ t, exec (.sketchSth c) s = .next t ∧
      (if hvSize i.imm ≠ 0 ∧ bitsOf i.imm 0 9 + hvSize i.imm ≤ 512 ∧ sketchWritable (bitsOf i.imm 0 9) (hvSize i.imm) = true
      then s.sketchGoes c x { x with pc := x.pc + 1 } p
        (hvSet p.hv (bitsOf i.imm 0 9) (hvSize i.imm) ((x.reg i.ra).toNat % 256 ^ hvSize i.imm)) t
      else s.sketchEnds c x p (x.insns + 1) 6 0 (some 6) false t)) ∧
  (∀ (s : State) (c a n : Nat) (x : Ctx) (p : Pkt) (i : SInsn), s.sketchReady c 0x0C x p i → n = bitsOf i.imm 18 6 + 1 →
    a = windowAddr (bitsOf i.imm 0 9) (i.imm.testBit 24) (i.imm.testBit 25) x.cursor (x.reg i.ra) →
    windowCheck (winLen p.hv) a n = 0 → sketchWritable (bitsOf i.imm 9 9) n = true →
    ∃ t, exec (.sketchXcp c) s = .next t ∧
      s.sketchGoes c x { x with pc := x.pc + 1 } p (Sparse.putOctets p.hv (bitsOf i.imm 9 9) (Sparse.octets p.hv a n)) t) ∧
  (∀ (s : State) (c : Nat) (x : Ctx) (p : Pkt) (i : SInsn), s.sketchReady c 0x10 x p i →
    ∃ t, exec (.sketchAdv c) s = .next t ∧
      (if (x.cursor + (sketchB i x).toNat) % 2 ^ 32 ≤ 256
      then s.sketchGoes c x { x with cursor := (x.cursor + (sketchB i x).toNat) % 2 ^ 32, pc := x.pc + 1 } p p.hv t
      else s.sketchEnds c x p (x.insns + 1) 2 0 (some 2) false t)) ∧
  (∀ (s : State) (c : Nat) (x : Ctx) (p : Pkt) (i : SInsn), s.sketchReady c 0x11 x p i →
    ∃ t, exec (.sketchSetc c) s = .next t ∧
      (if (sketchB i x).toNat ≤ 256 then s.sketchGoes c x { x with cursor := (sketchB i x).toNat, pc := x.pc + 1 } p p.hv t
      else s.sketchEnds c x p (x.insns + 1) 2 0 (some 2) false t)) ∧
  (∀ (s : State) (c h : Nat) (x : Ctx) (p : Pkt) (i : SInsn), s.sketchReady c 0x12 x p i →
    h = (if i.ib then bitsOf i.imm 16 9 else (x.reg i.rb).toNat) → 0 < h → x.cursor < 256 → hvGet p.hv 0x113 1 < 16 →
    i.imm.testBit 25 = false →
    ∃ t hv, exec (.sketchHdr c) s = .next t ∧ s.sketchGoes c x { x with pc := x.pc + 1 } p hv t ∧
      hvGet hv 0x113 1 = hvGet p.hv 0x113 1 + 1 ∧
      hvGet hv (0x140 + 4 * hvGet p.hv 0x113 1) 1 = bitsOf i.imm 0 8 ∧
      hvGet hv (0x140 + 4 * hvGet p.hv 0x113 1 + 1) 1 = x.cursor) ∧
  (∀ (s : State) (c : Nat) (x : Ctx) (p : Pkt) (i : SInsn), s.sketchReady c 0x12 x p i →
    (if i.ib then bitsOf i.imm 16 9 else (x.reg i.rb).toNat) ≠ 0 → 16 ≤ hvGet p.hv 0x113 1 →
    ∃ t, exec (.sketchHdr c) s = .next t ∧ s.sketchEnds c x p (x.insns + 1) 1 0 (some 1) false t) ∧
  State.sketchRaises .sketchHdr 0x12 (fun i x _ => (if i.ib then bitsOf i.imm 16 9 else (x.reg i.rb).toNat) = 0) (fun _ _ _ => 6) ∧
  State.sketchRaises .sketchHdr 0x12
    (fun i x hv => (if i.ib then bitsOf i.imm 16 9 else (x.reg i.rb).toNat) ≠ 0 ∧ hvGet hv 0x113 1 < 16 ∧ x.cursor = 256) (fun _ _ _ => 2) ∧
  State.sketchRaises .sketchXcp 0x0C
    (fun i x hv => windowCheck (winLen hv) (windowAddr (bitsOf i.imm 0 9) (i.imm.testBit 24) (i.imm.testBit 25) x.cursor (x.reg i.ra))
      (bitsOf i.imm 18 6 + 1) = 0 ∧ sketchWritable (bitsOf i.imm 9 9) (bitsOf i.imm 18 6 + 1) = false) (fun _ _ _ => 6) ∧
  State.sketchRaises .sketchXcp 0x0C
    (fun i x hv => windowCheck (winLen hv) (windowAddr (bitsOf i.imm 0 9) (i.imm.testBit 24) (i.imm.testBit 25) x.cursor (x.reg i.ra))
      (bitsOf i.imm 18 6 + 1) ≠ 0)
    (fun i x hv => windowCheck (winLen hv) (windowAddr (bitsOf i.imm 0 9) (i.imm.testBit 24) (i.imm.testBit 25) x.cursor (x.reg i.ra))
      (bitsOf i.imm 18 6 + 1)) ∧
  State.sketchRaises .sketchLchk 0x13 (fun i x _ => 65535 < (x.cursor + (sketchB i x).toNat) % 2 ^ 32) (fun _ _ _ => 6) ∧
  (∀ (s : State) (c : Nat) (x : Ctx) (p : Pkt) (i : SInsn), s.sketchReady c 0x13 x p i → (x.cursor + (sketchB i x).toNat) % 2 ^ 32 ≤ 65535 →
    ∃ t hv, exec (.sketchLchk c) s = .next t ∧ s.sketchGoes c x { x with pc := x.pc + 1 } p hv t ∧
      hvGet hv 0x124 2 = (x.cursor + (sketchB i x).toNat) % 2 ^ 32 ∧ hvHas hv 5 = true ∧ hvHas hv 6 = i.t))

/-- R136, R137, R138: a branch goes to its target when taken and to the next instruction when not, comparing without sign; JMP always
goes, CALL leaves the address that follows in g15, and JR goes to its register's low twelve bits. -/
def Obligations.SketchBranchesGoToTheirTarget : Prop :=
  State.sketchJumps .sketchBeq 0x20 (fun i x => if x.reg i.ra = sketchB i x then i.tgt else x.pc + 1) ∧
  State.sketchJumps .sketchBne 0x21 (fun i x => if x.reg i.ra ≠ sketchB i x then i.tgt else x.pc + 1) ∧
  State.sketchJumps .sketchBlt 0x22 (fun i x => if (x.reg i.ra).toNat < (sketchB i x).toNat then i.tgt else x.pc + 1) ∧
  State.sketchJumps .sketchBge 0x23 (fun i x => if (sketchB i x).toNat ≤ (x.reg i.ra).toNat then i.tgt else x.pc + 1) ∧
  State.sketchJumps .sketchBts 0x24 (fun i x => if x.reg i.ra &&& sketchB i x ≠ 0 then i.tgt else x.pc + 1) ∧
  State.sketchJumps .sketchBtc 0x25 (fun i x => if x.reg i.ra &&& sketchB i x = 0 then i.tgt else x.pc + 1) ∧
  State.sketchJumps .sketchJmp 0x26 (fun i _ => i.tgt) ∧
  State.sketchJumps .sketchJr 0x28 (fun i x => (x.reg i.ra).toNat % 4096) ∧
  State.sketchJumps .sketchNop 0x3E (fun _ x => x.pc + 1) ∧
  (∀ (s : State) (c : Nat) (x : Ctx) (p : Pkt) (i : SInsn), s.sketchReady c 0x27 x p i →
    ∃ t x', exec (.sketchCall c) s = .next t ∧ s.sketchGoes c x x' p p.hv t ∧ x'.pc = i.tgt ∧
      x'.reg 15 = BitVec.ofNat 32 (x.pc + 1) ∧ (∀ r, r ≠ 15 → x'.reg r = x.reg r) ∧ x'.cursor = x.cursor)

/-- R145, R146, R147, R148: DONE ends the program without a reason, EXC and DROP end it with theirs, one of 8 or more, or reason 6 where
it is below 8; and, whatever the instruction, the 257th attempt of a pass raises reason 3 uncounted, and an attempt at address 4,096
raises reason 6 and counts. -/
def Obligations.SketchProgramsEndWithTheirReason : Prop :=
  (∀ (s : State) (c : Nat) (x : Ctx) (p : Pkt) (i : SInsn), s.sketchReady c 0x30 x p i →
    ∃ t, exec (.sketchDone c) s = .next t ∧ s.sketchEnds c x p (x.insns + 1) 0 0 none false t) ∧
  (∀ (s : State) (c : Nat) (x : Ctx) (p : Pkt) (i : SInsn), s.sketchReady c 0x31 x p i → 8 ≤ bitsOf i.imm 0 6 →
    ∃ t, exec (.sketchExc c) s = .next t ∧
      s.sketchEnds c x p (x.insns + 1) (bitsOf i.imm 0 6) (bitsOf i.imm 8 8) (some 0) false t) ∧
  (∀ (s : State) (c : Nat) (x : Ctx) (p : Pkt) (i : SInsn), s.sketchReady c 0x32 x p i → 8 ≤ bitsOf i.imm 0 6 →
    ∃ t, exec (.sketchDrop c) s = .next t ∧ s.sketchEnds c x p (x.insns + 1) (bitsOf i.imm 0 6) 0 (some 0) true t) ∧
  State.sketchRaises .sketchExc 0x31 (fun i _ _ => bitsOf i.imm 0 6 < 8) (fun _ _ _ => 6) ∧
  State.sketchRaises .sketchDrop 0x32 (fun i _ _ => bitsOf i.imm 0 6 < 8) (fun _ _ _ => 6) ∧
  (∀ (s : State) (c : Nat) (x : Ctx) (p : Pkt) (e : (Nat → Instr) × Nat), e ∈ sketchInstrs → s.ctx c = some x →
    s.pkt x.pkt = some p → x.running = true → 256 ≤ x.insns →
    ∃ t, exec (e.1 c) s = .next t ∧ s.sketchEnds c x p x.insns 3 0 (some 3) false t) ∧
  (∀ (s : State) (c : Nat) (x : Ctx) (p : Pkt) (e : (Nat → Instr) × Nat), e ∈ sketchInstrs → s.ctx c = some x →
    s.pkt x.pkt = some p → x.running = true → x.insns < 256 → 4096 ≤ x.pc →
    ∃ t, exec (e.1 c) s = .next t ∧ s.sketchEnds c x p (x.insns + 1) 6 0 (some 6) false t)

/-- R177, R178, R188: the action instructions that load, move, compute or hash write one temporary and fall through; arithmetic is modulo
2^32, shifts take the low five bits of their count, and LDF reads a field that lies inside its space. -/
def Obligations.ActionArithmeticWritesOneTemporary : Prop :=
  State.actionWrites .actionLdf 0x02 (fun i _ _ => bitsOf i.imm 0 12 + (bitsOf i.imm 12 5 + 1) ≤ spaceBits (bitsOf i.imm 17 2))
    (fun _ i a p _ =>
      let off := bitsOf i.imm 0 12
      let w := bitsOf i.imm 12 5 + 1
      BitVec.ofNat 32 (if bitsOf i.imm 17 2 = 0 then bitField p.hv 512 off w
        else if bitsOf i.imm 17 2 = 1 then a.res.toNat / 2 ^ (128 - off - w) % 2 ^ w else bitField p.drec 32 off w)) ∧
  State.actionWrites .actionMov 0x04 (fun _ _ _ => True) (fun _ i a _ _ => actionB i a) ∧
  State.actionWrites .actionAdd 0x05 (fun _ _ _ => True) (fun _ i a _ _ => a.tmp i.ta + actionB i a) ∧
  State.actionWrites .actionSub 0x06 (fun _ _ _ => True) (fun _ i a _ _ => a.tmp i.ta - actionB i a) ∧
  State.actionWrites .actionAnd 0x07 (fun _ _ _ => True) (fun _ i a _ _ => a.tmp i.ta &&& actionB i a) ∧
  State.actionWrites .actionOr 0x08 (fun _ _ _ => True) (fun _ i a _ _ => a.tmp i.ta ||| actionB i a) ∧
  State.actionWrites .actionXor 0x09 (fun _ _ _ => True) (fun _ i a _ _ => a.tmp i.ta ^^^ actionB i a) ∧
  State.actionWrites .actionShl 0x0A (fun _ _ _ => True) (fun _ i a _ _ => a.tmp i.ta <<< ((actionB i a).toNat % 32)) ∧
  State.actionWrites .actionShr 0x0B (fun _ _ _ => True) (fun _ i a _ _ => a.tmp i.ta >>> ((actionB i a).toNat % 32)) ∧
  State.actionWrites .actionHash 0x21 (fun _ _ _ => True)
    (fun s i a p eg => BitVec.ofNat 32 (s.hashOf (stageBank p eg) ((actionB i a).toNat % 16) p.hv))

/-- R51, R85, R156, R166 to R168, R171 to R173: a stage runs the first packet of its pipe that waits for it; template 0xFF ends the
ingress stages, where the packet gives up its stamp unless it recirculates; a stage of KIND NONE makes no lookup and runs MISS_PC with RES
0, one of KIND POUNCE waits for its answer, one with a lookup runs the entry's program on a hit, NI_PC where the answer says so and
MISS_PC otherwise, and the first stage takes the answer of an early lookup that stood; the next template is the running one's NEXT. R177,
R178, R180, R181, R183: STF and CSUP write the places they may, INS and DEL edit the window within HEAD_LEN and 256, and each is an action
fault elsewhere; SKZ and SKNZ skip forward, a skip past position 16 ends the program, END ends it and NOP falls through; an opcode of no
instruction is an action fault. -/
def Obligations.StagesBeginEditSkipAndEnd : Prop :=
  ((∀ (s : State) (n : Nat) (p : Pkt) (eg : Bool) (st : Nat), s.pkt n = some p → s.halted = false → s.inPipeOrder p eg (· == p.loc) = true →
    nextStage p = some (eg, st, 0xFF) →
    ∃ t q, exec (.glazeStage n) s = .next t ∧ t.pkt n = some q ∧
      (if eg then q = { p with loc := .egStageDone 4 } ∧ (∀ b, t.inflight b = s.inflight b) else s.leavesIngress p q t) ∧
      (∀ k, k ≠ n → t.pkt k = s.pkt k) ∧ State.frame [.inflightA, .inflightB, .pkts] [] s t) ∧
  (∀ (s : State) (n i : Nat) (p : Pkt) (eg : Bool) (st tpl : Nat), s.pkt n = some p → s.halted = false →
    s.inPipeOrder p eg (· == p.loc) = true → nextStage p = some (eg, st, tpl) → tpl ≠ 0xFF → i = bankNo (stageBank p eg) * 256 + tpl →
    ((p.early = none ∨ st ≠ 1 ∨ eg = true ∨ hvGet p.hv 0x116 1 ≠ 3) → s.rd F.GLZ_TPL.KIND i = 0 →
      ∃ t q a, exec (.glazeStage n) s = .next t ∧ t.pkt n = some q ∧ q.act = some a ∧
        q.loc = (if eg then .egActing st else .acting st) ∧ q.hv = p.hv ∧ q.data = p.data ∧
        hvGet q.drec 0x13 1 = s.rd F.GLZ_TPL.NEXT i ∧
        a.pc = s.rd F.GLZ_TPL.MISS_PC i ∧ a.res = 0 ∧ a.t = [] ∧ a.pos = 1 ∧ a.tpl = tpl ∧
        a.key = s.keyOf (stageBank p eg) tpl p.hv ∧ (∀ k, k ≠ n → t.pkt k = s.pkt k) ∧
        State.frame [.pkts] [] s t) ∧
    ((p.early = none ∨ st ≠ 1 ∨ eg = true ∨ hvGet p.hv 0x116 1 ≠ 3) → s.rd F.GLZ_TPL.KIND i = 5 →
      ∃ t q a, exec (.glazeStage n) s = .next t ∧ t.pkt n = some q ∧ q.act = some a ∧ a.pounce = true ∧
        q.loc = (if eg then .egActing st else .acting st) ∧ a.key = s.keyOf (stageBank p eg) tpl p.hv ∧
        (∀ k, k ≠ n → t.pkt k = s.pkt k) ∧ State.frame [.pkts] [] s t) ∧
    (∀ l, (p.early = none ∨ st ≠ 1 ∨ eg = true ∨ hvGet p.hv 0x116 1 ≠ 3) → s.rd F.GLZ_TPL.KIND i ≠ 5 →
      l = (s.lookupFor (stageBank p eg) tpl (s.keyOf (stageBank p eg) tpl p.hv)).2 →
      ∃ t q a, exec (.glazeStage n) s = .next t ∧ t.pkt n = some q ∧ q.act = some a ∧
        q.loc = (if eg then .egActing st else .acting st) ∧ q.hv = p.hv ∧ q.data = p.data ∧
        hvGet q.drec 0x13 1 = s.rd F.GLZ_TPL.NEXT i ∧
        a.pc = (if l.ni then s.rd F.GLZ_TPL.NI_PC i else if l.hit then l.res.toNat / 2 ^ 115 else s.rd F.GLZ_TPL.MISS_PC i) ∧
        a.res = (if l.hit then l.res else 0) ∧ a.t = [] ∧ a.pos = 1 ∧ a.tpl = tpl ∧ a.hit = l.hit ∧
        (∀ k, k ≠ n → t.pkt k = s.pkt k) ∧
        State.touches [.badWords, .host, .pkts, .tables]
          [.STN_STATUS, .TBL_ERR_ADDR, .TBL_ERR_STATUS, .TLY_SAMP_CFG, .TLY_SAMP_CNT, .TLY_SPEC_CNT] s t) ∧
    (∀ e, p.early = some e → st = 1 → eg = false → hvGet p.hv 0x116 1 = 3 →
      ∃ t q a, exec (.glazeStage n) s = .next t ∧ t.pkt n = some q ∧ q.act = some a ∧ q.early = none ∧ q.loc = .acting 1 ∧
        a.pc = (if e.result.ni then s.rd F.GLZ_TPL.NI_PC i else if e.result.hit then e.result.res.toNat / 2 ^ 115
          else s.rd F.GLZ_TPL.MISS_PC i) ∧
        a.res = (if e.result.hit then e.result.res else 0) ∧ (∀ k, k ≠ n → t.pkt k = s.pkt k) ∧
        State.touches [.badWords, .host, .pkts, .tables] [.TBL_ERR_ADDR, .TBL_ERR_STATUS] s t))) ∧
  (State.actionEdits .actionStf 0x03
    (fun _ i _ p _ =>
      let off := bitsOf i.imm 0 12
      let w := bitsOf i.imm 12 5 + 1
      let n := (off % 8 + w + 7) / 8
      off + w ≤ spaceBits (bitsOf i.imm 17 2) ∧
        (bitsOf i.imm 17 2 = 0 ∧ stfWritable p (off / 8) n = true ∨
          bitsOf i.imm 17 2 = 2 ∧ 0x10 ≤ off / 8 ∧ off / 8 + n ≤ 0x16))
    (fun _ i a p =>
      let off := bitsOf i.imm 0 12
      let w := bitsOf i.imm 12 5 + 1
      let v := (a.tmp i.ta).toNat % 2 ^ w
      if bitsOf i.imm 17 2 = 0 then { p with hv := setBitField p.hv off w v }
      else { p with drec := drecClamp (setBitField p.drec off w v) }) ∧
  State.actionEdits .actionCsup 0x0C
    (fun _ i _ p _ => bitsOf i.imm 0 9 + 2 ≤ 512 ∧ stfWritable p (bitsOf i.imm 0 9) 2 = true)
    (fun _ i a p => { p with
      hv := hvSet p.hv (bitsOf i.imm 0 9) 2
        (csumUpdate (hvGet p.hv (bitsOf i.imm 0 9) 2) ((a.tmp i.ta).toNat % 65536) ((a.tmp i.tb).toNat % 65536)) }) ∧
  State.actionEdits .actionIns 0x0D
    (fun _ i _ p _ => bitsOf i.imm 0 8 ≤ hvGet p.drec 0x18 2 ∧ hvGet p.drec 0x18 2 + (bitsOf i.imm 8 7 + 1) ≤ 256)
    (fun _ i _ p =>
      let o := bitsOf i.imm 0 8
      let n := bitsOf i.imm 8 7 + 1
      let hl := hvGet p.drec 0x18 2
      { p with
        hv := Sparse.putOctets p.hv o (List.replicate n 0 ++ Sparse.octets p.hv o (hl - o))
        drec := hvSet p.drec 0x18 2 (hl + n) }) ∧
  State.actionEdits .actionDel 0x0E
    (fun _ i _ p _ => bitsOf i.imm 0 8 + (bitsOf i.imm 8 7 + 1) ≤ hvGet p.drec 0x18 2)
    (fun _ i _ p =>
      let o := bitsOf i.imm 0 8
      let n := bitsOf i.imm 8 7 + 1
      let hl := hvGet p.drec 0x18 2
      { p with hv := Sparse.putOctets p.hv o (Sparse.octets p.hv (o + n) (hl - (o + n))), drec := hvSet p.drec 0x18 2 (hl - n) }) ∧
  (∀ (s : State) (n : Nat) (p : Pkt) (a : Act) (i : AInsn) (eg : Bool) (st : Nat), s.actionReady n 0x10 p a i eg st →
    ∃ t, exec (.actionSkz n) s = .next t ∧
      s.actionGoes n p (a.after (if a.tmp i.ta = 0 then bitsOf i.imm 0 4 else 0)) eg st [] [] t) ∧
  (∀ (s : State) (n : Nat) (p : Pkt) (a : Act) (i : AInsn) (eg : Bool) (st : Nat), s.actionReady n 0x11 p a i eg st →
    ∃ t, exec (.actionSknz n) s = .next t ∧
      s.actionGoes n p (a.after (if a.tmp i.ta = 0 then 0 else bitsOf i.imm 0 4)) eg st [] [] t) ∧
  (∀ (s : State) (n : Nat) (p : Pkt) (a : Act) (i : AInsn) (eg : Bool) (st : Nat), s.actionReady n 0x3E p a i eg st →
    ∃ t, exec (.actionNop n) s = .next t ∧ s.actionGoes n p (a.after 0) eg st [] [] t) ∧
  (∀ (s : State) (n : Nat) (p : Pkt) (a : Act) (i : AInsn) (eg : Bool) (st : Nat), s.actionReady n 0x12 p a i eg st →
    ∃ t q, exec (.actionEnd n) s = .next t ∧ t.pkt n = some q ∧ q.act = none ∧
      q.loc = (if eg then .egStageDone st else .stageDone st) ∧ q.hv = p.hv ∧ q.drec = p.drec ∧ q.data = p.data ∧
      (∀ k, k ≠ n → t.pkt k = s.pkt k) ∧ State.touches [.badWords, .host, .outputs, .pkts, .tally] [.HST_PCIE_STATUS, .HST_RING_STATUS, .TLY_TRACE_CNT] s t) ∧
  (∀ (s : State) (n op : Nat) (p : Pkt) (a : Act) (i : AInsn) (eg : Bool) (st : Nat), s.actionReady n op p a i eg st →
    op ∉ actionOps → ∃ t, exec (.actionNop n) s = .next t ∧ s.actionFaults n p eg st t))

/-- R185 to R188, R617: FWD stores its PATH record's destination and replaces a RECIRC, and a record of another KIND is an action fault;
FWDG indexes its group by the high bits of the rotated hash and applies its entry by KIND; RECIRC replaces a FWD and keeps the rest; each
is an action fault at egress. -/
def Obligations.ForwardingChoosesTheDestination : Prop :=
  (∀ (s : State) (n r : Nat) (p : Pkt) (a : Act) (i : AInsn) (st : Nat), s.actionReady n 0x18 p a i false st →
    r = (if i.ib then a.res.toNat % 2 ^ 64 else (a.tmp i.ta).toNat * 2 ^ 32 + (a.tmp i.tb).toNat) → bitsOf r 52 2 = 0 →
    bitsOf r 31 1 = 1 →
    ∃ t p', exec (.actionFwd n) s = .next t ∧ s.actionGoes n p' (a.after 0) false st [] [] t ∧ p' = { p with drec := p'.drec } ∧
      dflag p' 0 = true ∧ dflag p' 3 = false ∧ dflag p' 1 = dflag p 1 ∧ dflag p' 2 = dflag p 2 ∧
      hvGet p'.drec 0x04 2 = bitsOf r 20 11 ∧ hvGet p'.drec 0x08 4 = bitsOf r 0 20 ∧ hvGet p'.drec 0x0C 4 = bitsOf r 32 20 ∧
      (∀ k, 0x10 ≤ k → Sparse.read 0 p'.drec k = Sparse.read 0 p.drec k)) ∧
  (∀ (s : State) (n : Nat) (p : Pkt) (a : Act) (i : AInsn) (eg : Bool) (st : Nat), s.actionReady n 0x18 p a i eg st →
    (eg = true ∨
      bitsOf (if i.ib then a.res.toNat % 2 ^ 64 else (a.tmp i.ta).toNat * 2 ^ 32 + (a.tmp i.tb).toNat) 52 2 ≠ 0) →
    ∃ t, exec (.actionFwd n) s = .next t ∧ s.actionFaults n p eg st t) ∧
  (∀ (s : State) (n r : Nat) (p : Pkt) (a : Act) (i : AInsn) (st : Nat), s.actionReady n 0x18 p a i false st →
    r = (if i.ib then a.res.toNat % 2 ^ 64 else (a.tmp i.ta).toNat * 2 ^ 32 + (a.tmp i.tb).toNat) → bitsOf r 52 2 = 0 →
    bitsOf r 31 1 = 0 →
    ∃ t, exec (.actionFwd n) s = .next t ∧ s.actionGoes n p (a.after 0) false st [] [] t ∧
      t.pair 774 = (s.pair 774).plus p.data.length) ∧
  (∀ (s : State) (n g w r : Nat) (p : Pkt) (a : Act) (i : AInsn) (st : Nat), s.actionReady n 0x19 p a i false st →
    g = (actionB i a).toNat % 4096 → 0 < s.rd F.GLZ_IGRP.SIZE g →
    s.rd F.GLZ_IGRP.BASE g + s.rd F.GLZ_IGRP.SIZE g ≤ 4194304 →
    w = indirWord (s.rd F.GLZ_IGRP.BASE g +
      ((a.tmp i.ta).rotateRight (s.rd F.GLZ_IGRP.ROT g)).toNat / 65536 * s.rd F.GLZ_IGRP.SIZE g / 65536) →
    s.sramUe w 1 = false → r = s.sramVal w 1 → bitsOf r 31 1 = 1 →
    (bitsOf r 52 2 = 0 → ∃ t, exec (.actionFwdg n) s = .next t ∧
      s.actionGoes n (setPath p r) (a.after 0) false st [] [.TBL_ERR_STATUS] t) ∧
    (bitsOf r 52 2 = 2 → ∃ t, exec (.actionFwdg n) s = .next t ∧
      s.actionGoes n { p with drec := hvSet p.drec 0x03 1 (bitsOf r 0 5) } (a.after 0) false st [] [.TBL_ERR_STATUS] t) ∧
    (bitsOf r 52 2 = 1 → dflag p 0 = true → ∃ t, exec (.actionFwdg n) s = .next t ∧
      s.actionGoes n { p with drec := hvSet p.drec 0x08 4 (bitsOf r 0 20) } (a.after 0) false st [] [.TBL_ERR_STATUS] t)) ∧
  (∀ (s : State) (n g w : Nat) (p : Pkt) (a : Act) (i : AInsn) (st : Nat), s.actionReady n 0x19 p a i false st →
    g = (actionB i a).toNat % 4096 → 0 < s.rd F.GLZ_IGRP.SIZE g →
    s.rd F.GLZ_IGRP.BASE g + s.rd F.GLZ_IGRP.SIZE g ≤ 4194304 →
    w = indirWord (s.rd F.GLZ_IGRP.BASE g +
      ((a.tmp i.ta).rotateRight (s.rd F.GLZ_IGRP.ROT g)).toNat / 65536 * s.rd F.GLZ_IGRP.SIZE g / 65536) →
    (s.sramUe w 1 = true ∨ bitsOf (s.sramVal w 1) 31 1 = 0) →
    ∃ t, exec (.actionFwdg n) s = .next t ∧
      s.actionGoes n p (a.after 0) false st [] [.TBL_ERR_ADDR, .TBL_ERR_STATUS] t ∧ t.pair 774 = (s.pair 774).plus p.data.length ∧
      (s.sramUe w 1 = true → t.rd F.TBL_ERR_STATUS.SRAM_UE 0 = 1)) ∧
  (∀ (s : State) (n : Nat) (p : Pkt) (a : Act) (i : AInsn) (eg : Bool) (st : Nat), s.actionReady n 0x19 p a i eg st →
    (eg = true ∨ s.rd F.GLZ_IGRP.SIZE ((actionB i a).toNat % 4096) = 0 ∨
      4194304 < s.rd F.GLZ_IGRP.BASE ((actionB i a).toNat % 4096) + s.rd F.GLZ_IGRP.SIZE ((actionB i a).toNat % 4096)) →
    ∃ t, exec (.actionFwdg n) s = .next t ∧ s.actionFaults n p eg st t) ∧
  (∀ (s : State) (n : Nat) (p : Pkt) (a : Act) (i : AInsn) (st : Nat), s.actionReady n 0x1E p a i true st →
    ∃ t, exec (.actionRecirc n) s = .next t ∧ s.actionFaults n p true st t) ∧
  (∀ (s : State) (n : Nat) (p : Pkt) (a : Act) (i : AInsn) (st : Nat), s.actionReady n 0x1E p a i false st →
    ∃ t p', exec (.actionRecirc n) s = .next t ∧ s.actionGoes n p' (a.after 0) false st [] [] t ∧ p' = { p with drec := p'.drec } ∧
      dflag p' 3 = true ∧ dflag p' 0 = false ∧ dflag p' 1 = dflag p 1 ∧ dflag p' 2 = dflag p 2 ∧
      (∀ k, 1 ≤ k → Sparse.read 0 p'.drec k = Sparse.read 0 p.drec k))

/-- R177, R179, R186: DROP stays set and keeps its first reason, of several copies the lowest reason stands, TRAP is both, and of the
mirror sessions asked for the two lowest stand; a reason below 8 and a session that is not enabled are action faults. -/
def Obligations.DropsCopiesAndMirrorsStandByTheirRule : Prop :=
  State.actionEdits .actionDrop 0x1A (fun _ i a _ _ => 8 ≤ (actionB i a).toNat % 64)
    (fun s i a p =>
      if dflag p 1 then p
      else { p with
        drec := hvSet (hvSet p.drec 0 1 (setBits (hvGet p.drec 0 1) 1 1 1)) 0x01 1 ((actionB i a).toNat % 64)
        dropStage := some (s.myStage p) }) ∧
  State.actionEdits .actionCopy 0x1B (fun _ i a _ eg => eg = false ∧ 8 ≤ (actionB i a).toNat % 64)
    (fun _ i a p =>
      if dflag p 2 = true ∧ hvGet p.drec 0x02 1 ≤ (actionB i a).toNat % 64 then p
      else { p with drec := hvSet (hvSet p.drec 0 1 (setBits (hvGet p.drec 0 1) 2 1 1)) 0x02 1 ((actionB i a).toNat % 64) }) ∧
  State.actionEdits .actionTrap 0x1C (fun _ i a _ eg => eg = false ∧ 8 ≤ (actionB i a).toNat % 64)
    (fun s i a p => setDrop (setCopy p ((actionB i a).toNat % 64)) ((actionB i a).toNat % 64) (s.myStage p)) ∧
  State.actionEdits .actionMirr 0x1D (fun s i a _ eg => eg = false ∧ s.on F.GLZ_MIRROR.EN ((actionB i a).toNat % 16) = true)
    (fun _ i a p =>
      let asked := (List.range 16).filter (fun j => j == (actionB i a).toNat % 16 || (hvGet p.drec 0x06 2).testBit j)
      { p with drec := hvSet p.drec 0x06 2 ((asked.take 2).foldl (fun v j => v + 2 ^ j) 0) })

/-- R189, R190, R240 to R242, R514, R515: POL refills its policer and takes the charge, or discards the packet as an excess, counted per
policer; CNT counts one packet and the charge in a pair that a program may count in, and else only RANGE_CNT; where the length is not
known, each waits on the charge list, of at most 8 entries, or is settled at once where the packet has arrived since; LEARN posts a
notification of the stage's key unless an equal one was posted less than 1 ms earlier, or the ring is full. -/
def Obligations.PolicersCountersAndLearning : Prop :=
  (∀ (s : State) (n k : Nat) (owes late : Bool) (p : Pkt) (a : Act) (i : AInsn) (st : Nat), s.actionReady n 0x1F p a i false st →
    k = (actionB i a).toNat % 65536 → 0 < s.rd F.GLZ_POL.RATE k → (chargeOf p.hv : Int) ≤ (s.policer k).level →
    owes = (hvGet p.hv 0x104 2 == 0xFFFF) → late = (p.rx.arrived && !p.cut) → (owes = true → hvGet p.drec 0x16 1 < 8) →
    ∃ t p', exec (.actionPol n) s = .next t ∧ s.actionGoes n p' (a.after 0) false st [.policers] [] t ∧
      p'.charges = (if owes ∧ late = false then p.charges ++ [(true, k, chargeOf p.hv)] else p.charges) ∧
      p'.drec = (if owes then hvSet p.drec 0x16 1 (hvGet p.drec 0x16 1 + 1) else p.drec) ∧ p'.hv = p.hv ∧
      Sparse.read none t.policers k =
        some { s.policer k with
          level := (s.policer k).level - (if owes ∧ late then p.data.length else chargeOf p.hv : Nat) } ∧
      (∀ j, j ≠ k → Sparse.read none t.policers j = Sparse.read none s.policers j)) ∧
  (∀ (s : State) (n k : Nat) (p : Pkt) (a : Act) (i : AInsn) (st : Nat), s.actionReady n 0x1F p a i false st →
    k = (actionB i a).toNat % 65536 → (s.rd F.GLZ_POL.RATE k = 0 ∨ (s.policer k).level < (chargeOf p.hv : Int)) →
    ∃ t q, exec (.actionPol n) s = .next t ∧ t.pkt n = some q ∧ q.excess = true ∧ q.act = none ∧ q.loc = .reorder ∧
      q.charges = p.charges ∧ q.stamped = false ∧ (∀ j, j ≠ n → t.pkt j = s.pkt j) ∧
      Sparse.read none t.policers k = some (s.policer k) ∧
      t.pair (32768 + k) = (s.pair (32768 + k)).plus p.data.length ∧
      (p.stamped = true → t.inflight p.coat = s.inflight p.coat - 1) ∧
      State.touches [.badWords, .host, .inflightA, .inflightB, .outputs, .pkts, .policers, .tally]
        [.HST_PCIE_STATUS, .HST_RING_STATUS, .TLY_TRACE_CNT] s t) ∧
  (∀ (s : State) (n : Nat) (p : Pkt) (a : Act) (i : AInsn) (st : Nat), s.actionReady n 0x1F p a i true st →
    ∃ t, exec (.actionPol n) s = .next t ∧ s.actionFaults n p true st t) ∧
  (∀ (s : State) (n k : Nat) (owes late : Bool) (p : Pkt) (a : Act) (i : AInsn) (eg : Bool) (st : Nat), s.actionReady n 0x20 p a i eg st →
    k = (actionB i a).toNat % 2 ^ 25 → 98304 ≤ k → k < 262144 → owes = (hvGet p.hv 0x104 2 == 0xFFFF) →
    late = (p.rx.arrived && !p.cut) → (owes = true → hvGet p.drec 0x16 1 < 8) →
    ∃ t p', exec (.actionCnt n) s = .next t ∧ s.actionGoes n p' (a.after 0) eg st [] [] t ∧
      p'.charges = (if owes ∧ late = false then p.charges ++ [(false, k, chargeOf p.hv)] else p.charges) ∧
      p'.drec = (if owes then hvSet p.drec 0x16 1 (hvGet p.drec 0x16 1 + 1) else p.drec) ∧ p'.hv = p.hv ∧
      t.pair k = (s.pair k).plus (if owes ∧ late then p.data.length else chargeOf p.hv) ∧ (∀ j, j ≠ k → t.pair j = s.pair j)) ∧
  (∀ (s : State) (n k : Nat) (p : Pkt) (a : Act) (i : AInsn) (eg : Bool) (st : Nat), s.actionReady n 0x20 p a i eg st →
    k = (actionB i a).toNat % 2 ^ 25 → 262144 ≤ k → k < 262144 + s.tally.dramPairs → hvGet p.hv 0x104 2 ≠ 0xFFFF →
    s.pairLost k = false → (Sparse.read Pair.zero s.tally.cache k ≠ Pair.zero ∨ s.tally.cache.length < 65536) →
    ∃ t, exec (.actionCnt n) s = .next t ∧ s.actionGoes n p (a.after 0) eg st [] [] t ∧ t.tally.pairs = s.tally.pairs ∧
      Sparse.read Pair.zero t.tally.cache k = (Sparse.read Pair.zero s.tally.cache k).plus (hvGet p.hv 0x104 2) ∧
      (∀ j, j ≠ k → Sparse.read Pair.zero t.tally.cache j = Sparse.read Pair.zero s.tally.cache j)) ∧
  (∀ (s : State) (n : Nat) (p : Pkt) (a : Act) (i : AInsn) (eg : Bool) (st : Nat), s.actionReady n 0x20 p a i eg st →
    ((actionB i a).toNat % 2 ^ 25 < 98304 ∨ 262144 + s.tally.dramPairs ≤ (actionB i a).toNat % 2 ^ 25) →
    ∃ t, exec (.actionCnt n) s = .next t ∧ s.actionGoes n p (a.after 0) eg st [] [.TLY_STATUS] t ∧
      t.rd F.TLY_STATUS.RANGE_CNT = min (s.rd F.TLY_STATUS.RANGE_CNT + 1) (2 ^ F.TLY_STATUS.RANGE_CNT.len - 1) ∧
      t.tally.pairs = s.tally.pairs) ∧
  (∀ (s : State) (n : Nat) (p : Pkt) (a : Act) (i : AInsn) (st : Nat) (e : (Nat → Instr) × Nat),
    e ∈ [((.actionPol : Nat → Instr), 0x1F), (.actionCnt, 0x20)] → s.actionReady n e.2 p a i false st → hvGet p.hv 0x104 2 = 0xFFFF →
    8 ≤ hvGet p.drec 0x16 1 →
    (e.2 = 0x1F → 0 < s.rd F.GLZ_POL.RATE ((actionB i a).toNat % 65536) ∧
      (chargeOf p.hv : Int) ≤ (s.policer ((actionB i a).toNat % 65536)).level) →
    (e.2 = 0x20 → s.programPair ((actionB i a).toNat % 2 ^ 25) = true) →
    ∃ t, exec (e.1 n) s = .next t ∧ s.actionFaults n p false st t) ∧
  (∀ (s : State) (n set : Nat) (p : Pkt) (a : Act) (i : AInsn) (eg : Bool) (st : Nat) (k : Noted),
    s.actionReady n 0x22 p a i eg st →
    k.kind = 0 → k.bank = bankNo (stageBank p eg) → k.table = s.rd F.GLZ_TPL.TABLE (k.bank * 256 + a.tpl) → k.key = a.key →
    k.keyw = s.rd F.TBL_DESC.KEYW (k.bank * 256 + k.table) → k.time = s.now →
    set = Config.filterHash s.tables.hashKey (notedOctets k) % 1024 →
    ((∃ e, e ∈ Sparse.read [] s.tables.filter set ∧ e.same k = true ∧ s.now < e.time + ms 1) →
      ∃ t, exec (.actionLearn n) s = .next t ∧ s.actionGoes n p (a.after 0) eg st [] [.TBL_LEARN_STATUS] t ∧
        t.rd F.TBL_LEARN_STATUS.SUPPRESSED =
          min (s.rd F.TBL_LEARN_STATUS.SUPPRESSED + 1) (2 ^ F.TBL_LEARN_STATUS.SUPPRESSED.len - 1)) ∧
    (Sparse.read [] s.tables.filter set = [] → s.ringFull 64 = true →
      ∃ t, exec (.actionLearn n) s = .next t ∧ s.actionGoes n p (a.after 0) eg st [] [.TBL_LEARN_STATUS] t ∧
        t.rd F.TBL_LEARN_STATUS.RING_FULL =
          min (s.rd F.TBL_LEARN_STATUS.RING_FULL + 1) (2 ^ F.TBL_LEARN_STATUS.RING_FULL.len - 1)) ∧
    (Sparse.read [] s.tables.filter set = [] → s.ringFull 64 = false → a.pos < 16 →
      ∃ t w, exec (.actionLearn n) s = .next t ∧ s.actionGoes n p (a.after 0) eg st [.tables] [] t ∧
        Sparse.read [] t.tables.filter set = [k] ∧
        t.outputs = s.outputs ++ [.hostWrite (s.ringSlot 64) w] ∧ w.length = 64 ∧ w.getLast? = some 0x80 ∧
        t.host.raised = s.host.raised ++ [208] ∧
        t.rd F.HST_RING_STATUS.W 64 = (s.rd F.HST_RING_STATUS.W 64 + 1) % 2 ^ F.HST_RING_STATUS.W.len))

/-- R26, R28, R33, R167, R168, R193, R615: a packet or header vector passes to the next block only against credit and in the order of its
pipe or channel: the next stage of its pipe, the ingress reorder point, the Seam (real-time traffic first), the enqueue, the egress
stages, and at last its MAC in the order of its port node, flit by flit. R35, R37, R102, R185, R187: a packet first in its port's order
and wholly arrived leaves the ingress reorder point: discarded and counted where its frame was bad, where it asks for DROP or for a fourth
pass, and else with its rebuilt octets to its queue, giving up its place in the port's order and, on its last pass, its ingress stamp. -/
def Obligations.PacketsPassAndAreSettled : Prop :=
  ((∀ (s : State) (n st : Nat) (p : Pkt), s.pkt n = some p → s.halted = false → p.loc = .stageDone st →
    (hvGet p.drec 0x13 1 = 0xFF ∨ 12 ≤ st) →
    ∃ t q, exec (.queueHandoff n) s = .next t ∧ t.pkt n = some q ∧ s.leavesIngress p q t ∧ (∀ m, m ≠ n → t.pkt m = s.pkt m) ∧
      State.frame [.inflightA, .inflightB, .pkts] [] s t) ∧
  (∀ (s : State) (n st : Nat) (p : Pkt), s.pkt n = some p → s.halted = false → p.loc = .stageDone st →
    hvGet p.drec 0x13 1 ≠ 0xFF → st < 12 →
    ∃ t, exec (.queueHandoff n) s = .next t ∧
      t.pkt n = some { p with
        loc := if s.inPipeOrder p false (fun l => l == .acting st || l == .stageDone st) = true ∧ s.stageDepth p.pipe (.stageIn (st + 1)) < 32
          then .stageIn (st + 1) else .stageDone st } ∧
      (∀ m, m ≠ n → t.pkt m = s.pkt m) ∧ State.frame [.pkts] [] s t) ∧
  (∀ (s : State) (n : Nat) (p : Pkt), s.pkt n = some p → s.halted = false → p.loc = .seamUp →
    ∃ t, exec (.queueHandoff n) s = .next t ∧
      t.pkt n = some { p with
        loc := if s.rd F.EAS_SEAM_STATUS.UP = 1 ∧ s.firstInChannel p = true ∧ s.octetsAt p.pipe .enqueueIn + p.data.length ≤ 65536 ∧
          (s.realTime p = true ∨ s.realTimeReady .seamUp = false) then .enqueueIn else .seamUp } ∧
      (∀ m, m ≠ n → t.pkt m = s.pkt m) ∧ State.frame [.pkts] [] s t) ∧
  (∀ (s : State) (n : Nat) (p : Pkt), s.pkt n = some p → s.halted = false → p.loc = .seamDown → s.nodeKind p.node ≤ 3 →
    ∃ t, exec (.queueHandoff n) s = .next t ∧
      t.pkt n = some { p with
        loc := if s.rd F.EAS_SEAM_STATUS.UP = 1 ∧ s.firstInChannel p = true ∧
            (s.nodeKind p.node = 3 ∨ s.egDepth (s.rd F.GLZ_EGR_PIPE.PIPE p.node) (· == .egressIn) < 256) ∧
            (s.realTime p = true ∨ s.realTimeReady .seamDown = false) then
          (if s.nodeKind p.node = 3 then .hostOut (s.nodeTarget p.node) else .egressIn) else .seamDown } ∧
      (∀ m, m ≠ n → t.pkt m = s.pkt m) ∧ State.frame [.pkts] [] s t) ∧
  (∀ (s : State) (n port : Nat) (p : Pkt), s.pkt n = some p → s.halted = false → p.loc = .seamDown → s.nodeKind p.node = 4 →
    port = 208 + s.nodeTarget p.node → s.rd F.EAS_SEAM_STATUS.UP = 1 → s.firstInChannel p = true →
    (s.realTime p = true ∨ s.realTimeReady .seamDown = false) →
    ∃ t q, exec (.queueHandoff n) s = .next t ∧ t.pkt n = some q ∧ q.loc = .fifo ∧ q.data = p.data ∧ q.rx.oport = port ∧
      q.rx.inPort = p.rx.inPort ∧ (t.mac port).order = (s.mac port).order ++ [n] ∧
      (t.mac port).fill = (s.mac port).fill + p.data.length ∧ (∀ o, o ≠ port → t.mac o = s.mac o) ∧
      (∀ m, m ≠ n → t.pkt m = s.pkt m) ∧ State.frame [.macs, .pkts, .tally] [] s t) ∧
  (∀ (s : State) (n st : Nat) (p : Pkt), s.pkt n = some p → s.halted = false → p.loc = .egStageDone st → p.fault = false →
    hvGet p.drec 0x13 1 ≠ 0xFF → st < 4 →
    ∃ t, exec (.queueHandoff n) s = .next t ∧
      t.pkt n = some { p with
        loc := if s.inPipeOrder p true (fun l => l == .egActing st || l == .egStageDone st) = true ∧
            s.egDepth (s.rd F.GLZ_EGR_PIPE.PIPE p.node) (· == .egStageIn (st + 1)) < 32 then .egStageIn (st + 1)
          else .egStageDone st } ∧
      (∀ m, m ≠ n → t.pkt m = s.pkt m) ∧ State.frame [.pkts] [] s t) ∧
  (∀ (s : State) (n st : Nat) (p : Pkt), s.pkt n = some p → s.halted = false → p.loc = .egStageDone st →
    (hvGet p.drec 0x13 1 = 0xFF ∨ 4 ≤ st) → p.fault = false → dflag p 1 = false →
    s.exitTurn p.node = some n → 64 ≤ s.txFree p.node →
    ∃ t q, exec (.queueHandoff n) s = .next t ∧ t.pkt n = some q ∧ q.loc = .txFifo ∧ q.data = rebuild p ∧ q.egStamped = false ∧
      q.inFifo = (if (rebuild p).length ≤ s.txFree p.node then (rebuild p).length else s.txFree p.node / 64 * 64) ∧
      t.inflight p.egCoat = s.inflight p.egCoat - 1 ∧ (∀ m, m ≠ n → t.pkt m = s.pkt m) ∧
      State.touches [.pkts, .inflightA, .inflightB] [.TIM_ERR_CNT, .TIM_STATUS] s t) ∧
  (∀ (s : State) (n st : Nat) (p : Pkt), s.pkt n = some p → s.halted = false → p.loc = .egStageDone st →
    (hvGet p.drec 0x13 1 = 0xFF ∨ 4 ≤ st ∨ p.fault = true) → (p.fault = true ∨ dflag p 1 = true) → p.charges = [] →
    ∃ t, exec (.queueHandoff n) s = .next t ∧ t.pkt n = none ∧ (∀ m, m ≠ n → t.pkt m = s.pkt m) ∧
      (let i := 640 + (if p.fault then none else p.dropStage).getD p.lastStage
       t.pair i = (s.pair i).plus p.data.length) ∧
      State.touches [.host, .inflightA, .inflightB, .outputs, .pkts, .tally] traceRegs s t) ∧
  (∀ (s : State) (n : Nat) (p : Pkt), s.pkt n = some p → s.halted = false → p.loc = .txFifo → p.inFifo < p.data.length →
    ∃ t, exec (.queueHandoff n) s = .next t ∧
      t.pkt n = some { p with
        inFifo := p.inFifo + (if p.data.length - p.inFifo ≤ s.txFree p.node then p.data.length - p.inFifo
          else s.txFree p.node / 64 * 64) } ∧
      (∀ m, m ≠ n → t.pkt m = s.pkt m) ∧ State.frame [.pkts] [] s t)) ∧
  (∀ (s : State) (n : Nat) (p : Pkt), s.pkt n = some p → p.loc = .reorder → (s.mac p.rx.oport).order.head? = some n →
    p.rx.arrived = true → s.halted = false →
    (p.rx.bad = true →
      ∃ t, exec (.ingressReorderSettle n) s = .next t ∧ t.pkt n = none ∧
        t.pair p.rx.inPort = (s.pair p.rx.inPort).plus p.data.length ∧ State.othersSame n s t ∧
        (t.mac p.rx.oport).order = (s.mac p.rx.oport).order.filter (· != n) ∧
        State.touches [.host, .inflightA, .inflightB, .macs, .outputs, .pkts, .tally] traceRegs s t) ∧
    (p.rx.bad = false → p.rx.overflow = false → p.excess = false → hvHas p.hv 7 = false →
      (hvHas p.hv 5 = true → hvGet p.hv 0x124 2 ≤ p.data.length) → p.fault = false → dflag p 2 = false → hvGet p.drec 0x06 2 = 0 →
      (∀ st, dflag p 1 = true → p.dropStage = some st →
        ∃ t, exec (.ingressReorderSettle n) s = .next t ∧ t.pkt n = none ∧
          t.pair (640 + st) = (s.pair (640 + st)).plus p.data.length ∧ State.othersSame n s t ∧
          State.touches [.host, .inflightA, .inflightB, .macs, .outputs, .pkts, .tally] traceRegs s t) ∧
      (dflag p 1 = false → dflag p 3 = true → 3 ≤ p.pass →
        ∃ t, exec (.ingressReorderSettle n) s = .next t ∧ t.pkt n = none ∧
          t.pair 768 = (s.pair 768).plus p.data.length ∧ State.othersSame n s t ∧
          State.touches [.host, .inflightA, .inflightB, .macs, .outputs, .pkts, .tally] traceRegs s t) ∧
      (dflag p 1 = false → (dflag p 3 = true ∧ p.pass < 3 ∨ dflag p 3 = false ∧ dflag p 0 = true) →
        s.octetsAt p.pipe .seamUp + (rebuild p).length ≤ 98304 →
        ∃ t q, exec (.ingressReorderSettle n) s = .next t ∧ t.pkt n = some q ∧ q.loc = .seamUp ∧ q.seq = s.nextSeq ∧
          q.fate = (if dflag p 3 then Fate.recirc else .forward) ∧ q.carry = carryOf p.drec ∧ q.copies = [] ∧ q.charges = [] ∧
          (dflag p 3 = false → q.stamped = false) ∧
          ((tcwOf p.hv).word = 0 ∨ dflag p 3 = true → q.data = rebuild p) ∧ State.othersSame n s t ∧
          (t.mac p.rx.oport).order = (s.mac p.rx.oport).order.filter (· != n) ∧
          (t.mac p.rx.oport).fill = (s.mac p.rx.oport).fill - p.rx.held ∧
          State.touches [.host, .inflightA, .inflightB, .macs, .outputs, .pkts, .tally]
            [.HST_PCIE_STATUS, .HST_RING_STATUS, .TIM_ERR_CNT, .TIM_STATUS, .TLY_TRACE_CNT] s t)))

/-- R36, R47, R132, R193, R194, R213: at the egress entry a packet is stamped with the active bank, its egress header vector is formed
from its octets and what it carried, and its adjacency is read; an adjacency that is not VALID discards it, counted as invalid adjacency.
R473, R479, R480, R615: a MAC that may send transmits its node's next frame, of 64 octets at least with its FCS, and the packet leaves the
module; a frame with a launch time leaves at it, a LAUNCH queue's head may be selected from 2 µs before it, and a packet that is not at
its MAC by then is late. -/
def Obligations.EgressEntryAndTransmission : Prop :=
  (∀ (s : State) (n : Nat) (p : Pkt), s.pkt n = some p → p.loc = .egressIn → s.coatState ≠ 2 → s.halted = false →
    s.inPipeOrder p true (· == .egressIn) = true →
    ((s.rd F.GLZ_EPROF.ADJ_EN (bankNo s.activeBank * 64 + p.carry.eprof % 64) = 0 ∨ p.carry.adj = 0xFFFFF) →
      ∃ t q, exec (.egressEntry n) s = .next t ∧ t.pkt n = some q ∧ q.loc = .egStageIn 1 ∧ q.egStamped = true ∧ q.seq = s.nextSeq ∧
        q.egCoat = s.activeBank ∧ q.data = p.data ∧ hvGet q.hv 0x100 2 = p.node % 65536 ∧
        hvGet q.hv 0x104 2 = (if p.cut then 0xFFFF else p.data.length % 65536) ∧ hvGet q.hv 0x112 1 = bankNo s.activeBank ∧
        (∀ k, k < min p.data.length 256 → Sparse.read 0 q.hv k = p.data.getD k 0) ∧
        hvGet q.drec 0x13 1 = s.rd F.GLZ_EPROF.TPL (bankNo s.activeBank * 64 + p.carry.eprof % 64) ∧
        t.inflight s.activeBank = s.inflight s.activeBank + 1 ∧ (∀ m, m ≠ n → t.pkt m = s.pkt m) ∧
        State.frame [.pkts, .inflightA, .inflightB] [] s t) ∧
    (s.rd F.GLZ_EPROF.ADJ_EN (bankNo s.activeBank * 64 + p.carry.eprof % 64) = 1 → p.carry.adj ≠ 0xFFFFF →
      (s.sramUe (adjWord p.carry.adj) 2 = true ∨ (s.sramVal (adjWord p.carry.adj) 2).testBit 127 = false) →
      ∃ t, exec (.egressEntry n) s = .next t ∧ t.pkt n = none ∧ t.pair 775 = (s.pair 775).plus p.data.length ∧
        (∀ m, m ≠ n → t.pkt m = s.pkt m) ∧
        State.touches [.host, .inflightA, .inflightB, .outputs, .pkts, .tables, .tally] ([.TBL_ERR_ADDR, .TBL_ERR_STATUS] ++ traceRegs)
          s t) ∧
    (s.rd F.GLZ_EPROF.ADJ_EN (bankNo s.activeBank * 64 + p.carry.eprof % 64) = 1 → p.carry.adj ≠ 0xFFFFF →
      s.sramUe (adjWord p.carry.adj) 2 = false → (s.sramVal (adjWord p.carry.adj) 2).testBit 127 = true →
      ∃ t q, exec (.egressEntry n) s = .next t ∧ t.pkt n = some q ∧ q.loc = .egStageIn 1 ∧
        hvGet q.hv 0x180 16 = s.sramVal (adjWord p.carry.adj) 2 ∧ Sparse.read false t.tables.used p.carry.adj = true ∧
        (∀ m, m ≠ n → t.pkt m = s.pkt m) ∧ State.touches [.pkts, .inflightA, .inflightB, .tables] [.TBL_ERR_STATUS] s t)) ∧
  ((∀ (s : State) (n sub k : Nat) (p : Pkt), s.halted = false → s.nodeState n = 1 → s.macStopped n = false → (s.nodeKind n = 0 ∨ s.nodeKind n = 2) →
    s.nextFrame n = some (k, p) → p.late = false → (∀ f, p.launch = some f → f ≤ s.now) → (tcwOf p.hv).word = 0 →
    ∃ t l, exec (.frameTransmit n sub) s = .next t ∧ t.pkt k = none ∧ (∀ m, m ≠ k → t.pkt m = s.pkt m) ∧
      t.outputs = s.outputs ++ [.frame (s.exitOf p.node) (padTo (max 60 p.data.length) p.data) (!p.err)] ++ l ∧
      (s.exitOf p.node < 64 → t.rd F.ETH_RAW.COUNT (16 * s.exitOf p.node + 5) =
        (s.rd F.ETH_RAW.COUNT (16 * s.exitOf p.node + 5) + 1) % 2 ^ 64) ∧
      State.touches [.host, .inflightA, .inflightB, .outputs, .pkts, .policers, .tally] ([.ETH_RAW, .TLY_STATUS] ++ traceRegs) s t) ∧
  (∀ (s : State) (n sub k f : Nat) (p : Pkt), s.nextFrame n = some (k, p) → p.late = false → p.launch = some f → s.now < f →
    exec (.frameTransmit n sub) s = .next s) ∧
  (∀ (s : State) (q k f : Nat) (rest : List Nat) (p : Pkt), (s.queue q).packets = k :: rest → s.pkt k = some p →
    p.launch = some f → p.late = false → f < 2 ^ 80 →
    ∃ t, exec (.launchEligible q) s = .next t ∧ t.now = max s.now (f - us 2) ∧ t.launchHeld p = false ∧ State.frame [.frc] [] s t) ∧
  (∀ (s : State) (k f : Nat) (p : Pkt), s.pkt k = some p → p.launch = some f → p.late = false → f < 2 ^ 80 → s.now ≤ f →
    s.halted = false →
    (p.loc ≠ .enqueueIn → p.loc ≠ .txFifo →
      ∃ t, exec (.launchTimeReached k) s = .next t ∧ t.now = f ∧ t.pkt k = some { p with late := true } ∧
        (∀ m, m ≠ k → t.pkt m = s.pkt m) ∧ State.frame [.frc, .pkts] [] s t) ∧
    (s.nextFrame p.node = some (k, p) → s.nodeState p.node = 1 → s.macStopped p.node = false → (tcwOf p.hv).word = 0 →
      ∃ t l, exec (.launchTimeReached k) s = .next t ∧ t.now = f ∧ t.pkt k = none ∧ (∀ m, m ≠ k → t.pkt m = s.pkt m) ∧
        t.outputs = s.outputs ++ [.frame (s.exitOf p.node) (padTo (max 60 p.data.length) p.data) (!p.err)] ++ l ∧
        State.touches [.frc, .host, .inflightA, .inflightB, .outputs, .pkts, .policers, .tally]
          ([.ETH_RAW, .TLY_STATUS] ++ traceRegs) s t)))

/-- R303, R304, R308: a packet that finds buffers and passes the three tests joins its queue, whose depth grows by its length; one that
fails the first test is a drop of its port node, one that fails the second or third is counted in its queue and class, as is one for a
destination that is unreachable (R378); it then leaves the module. R302, R304 to R306, R313, R479: a port node that is up, has credit and
is within its rate takes the oldest packet of the queue that comes first under the subscriber node that comes first, and charges all
three; the packet is read from Canvas, with the error mark where a word of it is bad (R290), goes to the Seam, and its queue gives up its
length. -/
def Obligations.QueuesAdmitAndPortsSelect : Prop :=
  ((∀ (s s1 : State) (n q : Nat) (p : Pkt) (bs : List Nat), s.pkt n = some p → p.loc = .enqueueIn → s.halted = false → p.fate ≠ .copiesOnly →
    p.copies = [] → s.queueFor p = some q → s.unreachable q = false → s.admission q p.length p.carry.dp = 0 → p.canvas = [] →
    s.allocN (enqueueClass p q) (classOwner (enqueueClass p q)) 0 (max 1 ((p.data.length + 255) / 256)) [] =
      (s1, some bs) →
    ∃ t r, exec (.enqueue n) s = .next t ∧ t.pkt n = some r ∧
      r.loc = (if q < voqBase then Loc.queued q else .voq (q - voqBase)) ∧ r.canvas = bs ∧ r.enqAt = s.now ∧ r.data = p.data ∧
      (t.queue q).depth = (s.queue q).depth + p.length ∧ (t.queue q).state = 2 ∧ n ∈ (t.queue q).packets ∧
      ((s.queue q).split = true → (t.queue q).tail = (s.queue q).tail ++ [n]) ∧
      (∀ m, m ≠ n → t.pkt m = s.pkt m) ∧ (∀ k, k ≠ q → t.queue k = s.queue k) ∧
      State.touches [.badWords, .dram, .easel, .host, .outputs, .palette, .pkts, .sched, .tally] ([.TIM_ERR_CNT] ++ traceRegs ++ bufferRegs) s t) ∧
  (∀ (s : State) (n q k : Nat) (p : Pkt), s.pkt n = some p → p.loc = .enqueueIn → s.halted = false → p.fate ≠ .copiesOnly →
    p.copies = [] → s.queueFor p = some q → s.unreachable q = false → s.admission q p.length p.carry.dp = k → k ≠ 0 →
    ∃ t, exec (.enqueue n) s = .next t ∧ t.pkt n = none ∧ (∀ m, m ≠ n → t.pkt m = s.pkt m) ∧
      (let i := if k = 1 then 1536 + s.nodeOf q else 1024 + p.carry.cls % 8
       t.pair i = (s.pair i).plus p.length) ∧
      (t.queue q).drops = (s.queue q).drops + (if k = 1 then 0 else 1) ∧ (t.queue q).packets = (s.queue q).packets ∧
      State.touches [.badWords, .dram, .easel, .host, .inflightA, .inflightB, .outputs, .palette, .pkts, .sched, .tally]
        (traceRegs ++ bufferRegs) s t) ∧
  (∀ (s : State) (n q : Nat) (p : Pkt), s.pkt n = some p → p.loc = .enqueueIn → s.halted = false → p.fate ≠ .copiesOnly →
    p.copies = [] → s.queueFor p = some q → s.unreachable q = true →
    ∃ t, exec (.enqueue n) s = .next t ∧ t.pkt n = none ∧ (∀ m, m ≠ n → t.pkt m = s.pkt m) ∧
      t.pair (1024 + p.carry.cls % 8) = (s.pair (1024 + p.carry.cls % 8)).plus p.length ∧ (∀ k, t.queue k = s.queue k) ∧
      State.touches [.badWords, .dram, .easel, .host, .inflightA, .inflightB, .outputs, .palette, .pkts, .tally]
        (traceRegs ++ bufferRegs) s t)) ∧
  (∀ (s : State) (n k : Nat) (arriving : Bool) (p : Pkt) (u q : Cand) (rest : List Nat), s.halted = false →
    s.rd F.SCH_PNODE_CFG.EN n = 1 →
    s.nodeState n = 1 → (s.portNode n).allowed = true → pick (s.subCands n) = some u →
    pick (s.queueCands u.idx) = some q → (s.queue q.idx).head = k :: rest → (s.queue q.idx).copies = [] → s.pkt k = some p →
    s.nodeCredit n p.length = true → s.mayLeave n q.idx arriving = true →
    ∃ t r, exec (.portSelection n arriving) s = .next t ∧ t.pkt k = some r ∧ r.loc = .seamDown ∧ r.node = n ∧ r.canvas = [] ∧
      r.data = s.getOctets p.canvas p.length ∧
      r.err = (p.err || p.canvas.any (fun b => s.badWords.canvasUe.any (fun a => a / 256 == ptrIndex b))) ∧ r.cut = arriving ∧ (∀ m, m ≠ k → t.pkt m = s.pkt m) ∧
      (t.queue q.idx).depth = (s.queue q.idx).depth - p.length ∧
      (t.queue q.idx).packets = (s.queue q.idx).packets.filter (· != k) ∧ (∀ j, j ≠ q.idx → t.queue j = s.queue j) ∧
      (t.portNode n).out = s.nodeOut n ++ [k] ∧
      (t.portNode n).level = (if shRate (s.portNode n).sh = 0 then 0 else (s.portNode n).level - s.leff n p.length) ∧
      (t.subNode u.idx).minLevel = (s.subNode u.idx).minLevel - s.leff n p.length ∧
      (t.queueNode q.idx).tag = ((s.queueNode q.idx).tag + tagStep (s.leff n p.length) (cfgWeight (s.queueCfg q.idx))) % 2 ^ 48 ∧
      State.touches [.badWords, .dram, .easel, .host, .outputs, .palette, .pkts, .sched, .tally] (traceRegs ++ bufferRegs) s t)

/-- R299, R300, R322, R324, R325: a port node is enabled once KIND and TARGET name a free exit and is UP or DOWN as its link is; KIND and
TARGET are locked while EN is 1; a lost link holds its queues for TIME, its return ends the hold, and the end of the hold or EN = 0
flushes every queue under it. -/
def Obligations.PortNodesFollowTheirLink : Prop :=
  (∀ (s : State) (n v : Nat), n < 512 → s.takes .SCH_PNODE_CFG = true → s.rd F.SCH_PNODE_CFG.EN n = 0 → s.nodeState n = 0 →
    targetOk (bitsOf v 1 3) (bitsOf v 8 8) = true → s.nodeFor (bitsOf v 1 3) (bitsOf v 8 8) = none →
    ∃ t, exec (.portNodeEnable n v) s = .next t ∧ t.rd F.SCH_PNODE_CFG.EN n = 1 ∧ t.nodeKind n = bitsOf v 1 3 ∧
      t.nodeTarget n = bitsOf v 8 8 ∧ t.rd F.SCH_PNODE_CFG.LEN_ADJ n = bitsOf v 16 7 ∧
      t.on F.SCH_PNODE_STATUS.LINK n = t.linkOf n ∧ t.nodeState n = (if t.linkOf n then 1 else 4) ∧
      State.frame [] [(F.SCH_PNODE_CFG.EN, n), (F.SCH_PNODE_CFG.KIND, n), (F.SCH_PNODE_CFG.TARGET, n), (F.SCH_PNODE_CFG.LEN_ADJ, n),
        (F.SCH_PNODE_STATUS.LINK, n), (F.SCH_PNODE_STATUS.STATE, n)] s t) ∧
  (∀ (s : State) (n v : Nat), n < 512 → s.takes .SCH_PNODE_CFG = true → s.rd F.SCH_PNODE_CFG.EN n = 0 →
    (targetOk (bitsOf v 1 3) (bitsOf v 8 8) = false ∨
      ∃ m, m < 512 ∧ m ≠ n ∧ s.rd F.SCH_PNODE_CFG.EN m = 1 ∧ s.nodeKind m = bitsOf v 1 3 ∧ s.nodeTarget m = bitsOf v 8 8) →
    ∃ t, exec (.portNodeEnable n v) s = .next t ∧ t.rd F.SCH_PNODE_CFG.EN n = 0 ∧ t.rd F.SCH_STATUS.CFG_ERR = 1 ∧
      State.frame [] [(F.SCH_PNODE_CFG.EN, n), (F.SCH_PNODE_CFG.KIND, n), (F.SCH_PNODE_CFG.TARGET, n), (F.SCH_PNODE_CFG.LEN_ADJ, n),
        (F.SCH_STATUS.CFG_ERR, 0)] s t) ∧
  (∀ (s : State) (n v : Nat), n < 512 → s.takes .SCH_PNODE_CFG = true → s.rd F.SCH_PNODE_CFG.EN n = 1 →
    (bitsOf v 1 3 ≠ s.nodeKind n ∨ bitsOf v 8 8 ≠ s.nodeTarget n) →
    ∃ t, exec (.portNodeDisable n v) s = .next t ∧ t.rd F.SCH_STATUS.CFG_ERR = 1 ∧ State.frame [] [(F.SCH_STATUS.CFG_ERR, 0)] s t) ∧
  (∀ (s : State) (n v : Nat), n < 512 → s.takes .SCH_PNODE_CFG = true → s.rd F.SCH_PNODE_CFG.EN n = 1 → bitsOf v 1 3 = s.nodeKind n → bitsOf v 8 8 = s.nodeTarget n →
    (s.nodeState n = 1 ∨ s.nodeState n = 2 ∨ s.nodeState n = 4) →
    ∃ t, exec (.portNodeDisable n v) s = .next t ∧ t.rd F.SCH_PNODE_CFG.EN n = 0 ∧ t.nodeState n = 3 ∧
      (∀ q ∈ s.nodeQueues n, (s.queue q).state ≠ 0 → (t.queue q).state = 3 ∧ (t.queue q).packets = [] ∧ (t.queue q).depth = 0) ∧
      State.touches linkParts (.SCH_PNODE_CFG :: linkRegs) s t) ∧
  (∀ (s : State) (n : Nat) (cut : Bool), s.linkOf n = false → s.rd F.SCH_PNODE_STATUS.LINK n = 1 → s.nodeState n = 1 →
    ∃ t, exec (.portLinkLost n cut) s = .next t ∧ t.rd F.SCH_PNODE_STATUS.LINK n = 0 ∧
      t.nodeState n = (if s.rd F.SCH_PORT_HOLD.TIME = 0 then 3 else 2) ∧
      (s.rd F.SCH_PORT_HOLD.TIME ≠ 0 → Sparse.read 0 t.sched.holdEnd n = s.now + us (s.rd F.SCH_PORT_HOLD.TIME)) ∧
      (s.rd F.SCH_PORT_HOLD.TIME ≠ 0 → cut = false →
        State.frame [.sched] [(F.SCH_PNODE_STATUS.LINK, n), (F.SCH_PNODE_STATUS.STATE, n)] s t) ∧
      State.touches linkParts linkRegs s t) ∧
  (∀ (s : State) (n : Nat), s.linkOf n = true → s.rd F.SCH_PNODE_STATUS.LINK n = 0 →
    ∃ t, exec (.portLinkReturn n) s = .next t ∧ t.rd F.SCH_PNODE_STATUS.LINK n = 1 ∧
      t.nodeState n = (if s.nodeState n = 2 ∨ s.nodeState n = 4 then 1 else s.nodeState n) ∧
      t.rd F.SCH_PNODE_STATUS.RET_PENDING n = (if s.nodeState n = 3 then 1 else s.rd F.SCH_PNODE_STATUS.RET_PENDING n) ∧
      State.frame [] [(F.SCH_PNODE_STATUS.LINK, n), (F.SCH_PNODE_STATUS.STATE, n), (F.SCH_PNODE_STATUS.RET_PENDING, n)] s t) ∧
  (∀ (s : State) (n : Nat), s.nodeState n = 2 → Sparse.read 0 s.sched.holdEnd n < 2 ^ 80 →
    ∃ t, exec (.portHoldExpiry n) s = .next t ∧ t.nodeState n = 3 ∧ t.now = max s.now (Sparse.read 0 s.sched.holdEnd n) ∧
      t.rd F.SCH_PNODE_STATUS.FLUSHES n = (s.rd F.SCH_PNODE_STATUS.FLUSHES n + 1) % 2 ^ F.SCH_PNODE_STATUS.FLUSHES.len ∧
      (∀ q ∈ s.nodeQueues n, (s.queue q).state ≠ 0 → (t.queue q).state = 3 ∧ (t.queue q).packets = [] ∧ (t.queue q).depth = 0) ∧
      State.touches (.frc :: linkParts) linkRegs s t) ∧
  (∀ (s : State) (n : Nat), s.nodeState n = 3 →
    ∃ t, exec (.portFlushComplete n) s = .next t ∧
      t.nodeState n = (if s.rd F.SCH_PNODE_CFG.EN n = 0 then 0 else if s.rd F.SCH_PNODE_STATUS.RET_PENDING n = 1 then 1 else 4) ∧
      t.rd F.SCH_PNODE_STATUS.RET_PENDING n = 0 ∧
      (∀ q ∈ s.nodeQueues n, (s.queue q).state = 3 → (t.queue q).state = (if cfgEn (s.queueCfg q) then 1 else 0)) ∧
      State.frame [.sched]
        [(F.SCH_PNODE_STATUS.STATE, n), (F.SCH_PNODE_STATUS.RET_PENDING, n), (F.SCH_ACC_STATUS.BUSY, 0), (F.SCH_ACC_STATUS.CODE, 0)] s t)

/-- R34, R280 to R282, R284 to R289, R325, R326: the oldest packet of T, once complete, moves to DRAM; a run-ahead step copies the oldest
packets of S back, or is cancelled where Canvas has no room; a copy whose reads have returned lands and commits at the queue's head; and a
flush empties the queue, whose state is FLUSH until it completes, each packet counted as a flush drop of its port or class. -/
def Obligations.QueuesSpillRunAheadAndFlush : Prop :=
  (∀ (s s1 : State) (q k : Nat) (rest bs : List Nat) (p : Pkt), (s.queue q).tail = k :: rest → (s.queue q).split = true →
    s.pkt k = some p → p.rx.arrived = true → s.shareOf q < s.canvasOf q + s.rd F.PAL_SPILL_CFG.SPILL_HYST * 1024 →
    s.allocN 4 4 1 (max 1 ((p.length + 255) / 256)) [] = (s1, some bs) →
    ∃ t, exec (.spillMove q) s = .next t ∧
      t.queue q = { s.queue q with spill := (s.queue q).spill ++ [k], tail := rest.filter (· != k) } ∧
      (∀ j, j ≠ q → t.queue j = s.queue j) ∧
      t.pkt k = some { p with
        canvas := [], dram := bs, err := p.err || p.canvas.any (fun b => s.badWords.canvasUe.any (fun a => a / 256 == ptrIndex b)) } ∧
      (∀ m, m ≠ k → t.pkt m = s.pkt m) ∧
      State.touches [.badWords, .dram, .easel, .host, .palette, .pkts, .sched] (traceRegs ++ bufferRegs) s t) ∧
  (∀ (s s1 : State) (q k : Nat) (bs : List Nat) (p : Pkt), s.rd F.PAL_SPILL_CFG.RA_EN = 1 → (s.queue q).copies = [] →
    ((s.queue q).head.map s.lenOf).sum < s.rd F.PAL_SPILL_CFG.RA_MIN * 1024 → s.dramStopped = false →
    fitChunk s.lenOf (max 1 (s.rd F.PAL_SPILL_CFG.RA_CHUNK) * 1024) (s.queue q).spill = [k] → s.pkt k = some p →
    s.allocN 5 62 0 (max 1 ((p.length + 255) / 256)) [] = (s1, some bs) →
    ∃ t, exec (.runAheadStep q) s = .next t ∧ t.queue q = { s.queue q with copies := [(k, false)] } ∧
      (∀ j, j ≠ q → t.queue j = s.queue j) ∧
      t.pkt k = some { p with canvas := bs, reads := max 1 ((p.length + 63) / 64), spoilt := false } ∧ (∀ m, m ≠ k → t.pkt m = s.pkt m) ∧
      State.touches [.badWords, .dram, .easel, .host, .palette, .pkts, .sched] (traceRegs ++ bufferRegs) s t) ∧
  (∀ (s s1 : State) (q k : Nat) (p : Pkt), s.rd F.PAL_SPILL_CFG.RA_EN = 1 → (s.queue q).copies = [] →
    ((s.queue q).head.map s.lenOf).sum < s.rd F.PAL_SPILL_CFG.RA_MIN * 1024 → s.dramStopped = false →
    fitChunk s.lenOf (max 1 (s.rd F.PAL_SPILL_CFG.RA_CHUNK) * 1024) (s.queue q).spill = [k] → s.pkt k = some p →
    s.allocN 5 62 0 (max 1 ((p.length + 255) / 256)) [] = (s1, none) →
    ∃ t, exec (.runAheadStep q) s = .next t ∧ (∀ j, t.queue j = s.queue j) ∧ (∀ m, t.pkt m = s.pkt m) ∧
      t.rd F.PAL_RA_CNT.COUNT 4 = (s.rd F.PAL_RA_CNT.COUNT 4 + 1) % 2 ^ F.PAL_RA_CNT.COUNT.len ∧
      State.touches [.badWords, .dram, .easel, .host, .palette] (traceRegs ++ bufferRegs) s t) ∧
  (∀ (s : State) (q : Nat) (c : Nat × Bool) (p : Pkt), (s.queue q).copies.find? (fun c => !c.2) = some c → s.pkt c.1 = some p →
    p.reads = 0 → (s.queue q).head ≠ [] →
    ∃ t, exec (.runAheadLand q) s = .next t ∧
      t.queue q = { s.queue q with copies := (s.queue q).copies.map (fun d => if d.1 = c.1 then (d.1, true) else d) } ∧
      (∀ j, j ≠ q → t.queue j = s.queue j) ∧ State.touches [.badWords, .dram, .palette, .sched] [] s t) ∧
  (∀ (s : State) (q k : Nat) (rest : List Nat) (p : Pkt), (s.queue q).head = [] → (s.queue q).spill = k :: rest →
    (s.queue q).copies = [(k, false)] → s.pkt k = some p → p.reads = 0 →
    ∃ t, exec (.runAheadLand q) s = .next t ∧
      (t.queue q).head = (if rest.filter (· != k) = [] then k :: (s.queue q).tail else [k]) ∧ (t.queue q).spill = rest.filter (· != k) ∧
      (t.queue q).copies = [] ∧ t.pkt k = some { p with dram := [], ahead := true } ∧ (∀ m, m ≠ k → t.pkt m = s.pkt m) ∧
      State.touches [.badWords, .dram, .easel, .host, .palette, .pkts, .sched] (traceRegs ++ bufferRegs) s t) ∧
  (∀ (s : State) (q : Nat) (c : Nat × Bool) (p : Pkt), (s.queue q).copies.find? (fun c => !c.2) = some c → s.pkt c.1 = some p →
    p.reads ≠ 0 → exec (.runAheadLand q) s = .next s) ∧
  (∀ (s : State) (q : Nat), (s.queue q).state ≠ 0 →
    ∃ t, exec (.queueFlush q) s = .next t ∧ (t.queue q).state = 3 ∧ (t.queue q).depth = 0 ∧ (t.queue q).packets = [] ∧
      (∀ k ∈ (s.queue q).packets, t.pkt k = none) ∧
      (∀ k, (s.queue q).packets = [k] → ∀ p, s.pkt k = some p →
        t.pair (s.flushCounts q).2 = (s.pair (s.flushCounts q).2).plus p.length) ∧
      (∀ m, m ∉ (s.queue q).packets → (∀ c ∈ (s.queue q).copies, c.1 ≠ m) → t.pkt m = s.pkt m) ∧
      (∀ j, j ≠ q → t.queue j = s.queue j) ∧
      State.touches [.badWords, .dram, .easel, .host, .inflightA, .inflightB, .outputs, .palette, .pkts, .sched, .tally]
        (traceRegs ++ bufferRegs) s t) ∧
  (∀ (s : State) (q : Nat), (s.queue q).state = 3 → (q < voqBase → s.nodeState (s.nodeOf q) ≠ 3) →
    ∃ t, exec (.queueFlushComplete q) s = .next t ∧
      t.queue q = { s.queue q with state := if cfgEn (s.queueCfg q) then 1 else 0 } ∧ (∀ j, j ≠ q → t.queue j = s.queue j) ∧
      State.frame [.sched] [(F.SCH_ACC_STATUS.BUSY, 0), (F.SCH_ACC_STATUS.CODE, 0)] s t ∧
      (s.rd F.SCH_ACC_STATUS.BUSY = 1 → s.rd F.SCH_ACC_CMD.OP = 2 →
        (if s.rd F.SCH_ACC_CMD.OBJ = 0 then q = s.rd F.SCH_ACC_CMD.INDEX else q = voqBase + s.rd F.SCH_ACC_CMD.INDEX) →
        t.rd F.SCH_ACC_STATUS.BUSY = 0 ∧ t.rd F.SCH_ACC_STATUS.CODE = 0))

/-- R312 to R315, R326 to R328, R330: a refill adds one period's octets to both buckets of its node; the access port reads and replaces
the records of the table of access objects, refuses an INDEX beyond its object and a new parent of an enabled queue, and flushes; the
watched queues are sampled at the multiples of PERIOD. -/
def Obligations.ShapersAccessPortAndSamples : Prop :=
  (∀ (s : State) (i : Nat) (x : Node), x = (s.queueNode i).since s.fab.startAt → x.due s.now < 2 ^ 80 →
    ∃ t, exec (.shaperRefill 0 i) s = .next t ∧ t.now = max s.now (x.due s.now) ∧
      t.queueNode i = x.refill (s.queueSh i) (x.due s.now) ∧
      (∀ j, j ≠ i → t.queueNode j = s.queueNode j) ∧ State.frame [.frc, .sched] [] s t) ∧
  (∀ (s : State) (i : Nat) (x : Node), x = (s.subNode i).since s.fab.startAt → x.due s.now < 2 ^ 80 →
    ∃ t, exec (.shaperRefill 1 i) s = .next t ∧ t.now = max s.now (x.due s.now) ∧
      t.subNode i = x.refill (s.subSh i) (x.due s.now) ∧
      (∀ j, j ≠ i → t.subNode j = s.subNode j) ∧ State.frame [.frc, .sched] [] s t) ∧
  (∀ (s : State) (i : Nat) (x : Node), x = (s.portNode i).since s.fab.startAt → x.due s.now < 2 ^ 80 →
    ∃ t, exec (.shaperRefill 2 i) s = .next t ∧ t.now = max s.now (x.due s.now) ∧
      t.portNode i = x.refill (s.portSh i) (x.due s.now) ∧
      (∀ j, j ≠ i → t.portNode j = s.portNode j) ∧ State.frame [.frc, .sched] [] s t) ∧
  (∀ (s : State) (obj i : Nat), s.rd F.SCH_ACC_STATUS.BUSY = 1 → s.rd F.SCH_ACC_CMD.OP = 0 → s.rd F.SCH_ACC_CMD.OBJ = obj →
    s.rd F.SCH_ACC_CMD.INDEX = i →
    ∃ t, exec .accRead s = .next t ∧ t.rd F.SCH_ACC_STATUS.BUSY = 0 ∧
      t.rd F.SCH_ACC_STATUS.CODE = (if i < accRange obj then 0 else 2) ∧
      (i < accRange obj → ∀ j, j < (s.accRecord obj i).length → t.rd F.SCH_ACC_DATA.WORD j = (s.accRecord obj i).getD j 0 % 2 ^ 64) ∧
      State.touches [] [.SCH_ACC_STATUS, .SCH_ACC_DATA] s t) ∧
  (∀ (s : State) (i : Nat), s.rd F.SCH_ACC_STATUS.BUSY = 1 → s.rd F.SCH_ACC_CMD.OP = 1 → s.rd F.SCH_ACC_CMD.OBJ = 1 →
    s.rd F.SCH_ACC_CMD.INDEX = i → i < 1048576 →
    ∃ t, exec .accWrite s = .next t ∧ t.rd F.SCH_ACC_STATUS.BUSY = 0 ∧ t.rd F.SCH_ACC_STATUS.CODE = 0 ∧
      shRate (t.queueSh i) = min (bitsOf (s.accWord 0) 0 30) 800000000 ∧ shBurst (t.queueSh i) = bitsOf (s.accWord 0) 40 24 ∧
      (∀ j, j ≠ i → t.queueSh j = s.queueSh j) ∧ t.sched.queueCfg = s.sched.queueCfg ∧ t.sched.queues = s.sched.queues ∧
      State.frame [.sched] [(F.SCH_ACC_STATUS.BUSY, 0), (F.SCH_ACC_STATUS.CODE, 0)] s t) ∧
  (∀ (s : State) (i : Nat), s.rd F.SCH_ACC_STATUS.BUSY = 1 → s.rd F.SCH_ACC_CMD.OP = 1 → s.rd F.SCH_ACC_CMD.OBJ = 0 →
    s.rd F.SCH_ACC_CMD.INDEX = i → i < 1048576 → bitsOf (s.accWord 0) 32 18 ≠ cfgParent (s.queueCfg i) →
    cfgEn (s.queueCfg i) = true →
    ∃ t, exec .accWrite s = .next t ∧ t.rd F.SCH_ACC_STATUS.BUSY = 0 ∧ t.rd F.SCH_ACC_STATUS.CODE = 3 ∧
      State.frame [] [(F.SCH_ACC_STATUS.BUSY, 0), (F.SCH_ACC_STATUS.CODE, 0)] s t) ∧
  (∀ (s : State) (i : Nat), s.rd F.SCH_ACC_STATUS.BUSY = 1 → s.rd F.SCH_ACC_CMD.OP = 2 → s.rd F.SCH_ACC_CMD.OBJ = 0 →
    s.rd F.SCH_ACC_CMD.INDEX = i → i < 1048576 →
    ((s.queue i).state = 0 → ∃ t, exec .accFlush s = .next t ∧ t.rd F.SCH_ACC_STATUS.BUSY = 0 ∧ t.rd F.SCH_ACC_STATUS.CODE = 0 ∧
      State.frame [] [(F.SCH_ACC_STATUS.BUSY, 0), (F.SCH_ACC_STATUS.CODE, 0)] s t) ∧
    ((s.queue i).state ≠ 0 → ∃ t, exec .accFlush s = .next t ∧ (t.queue i).state = 3 ∧ (t.queue i).packets = [] ∧
      t.rd F.SCH_ACC_STATUS.BUSY = 1 ∧
      State.touches [.badWords, .dram, .easel, .host, .inflightA, .inflightB, .outputs, .palette, .pkts, .sched, .tally]
        (traceRegs ++ bufferRegs) s t)) ∧
  (∀ (s : State), s.rd F.SCH_SAMPLE_CFG.PERIOD ≠ 0 → s.boundary s.sched.sampledAt (us (s.rd F.SCH_SAMPLE_CFG.PERIOD)) < 2 ^ 80 →
    ∃ t, exec .queueSample s = .next t ∧ t.now = s.boundary s.sched.sampledAt (us (s.rd F.SCH_SAMPLE_CFG.PERIOD)) ∧
      t.sched = { s.sched with sampledAt := t.now } ∧
      (∀ i, i < 1024 → s.rd F.SCH_WATCH.EN i = 1 → s.rd F.SCH_WATCH.VOQ i = 0 →
        t.rd F.SCH_SAMPLE.DEPTH i = (s.queue (s.rd F.SCH_WATCH.QUEUE i)).depth % 2 ^ F.SCH_SAMPLE.DEPTH.len ∧
        t.rd F.SCH_SAMPLE.SAMPLES i = (s.rd F.SCH_SAMPLE.SAMPLES i + 1) % 2 ^ F.SCH_SAMPLE.SAMPLES.len) ∧
      (∀ i, s.rd F.SCH_WATCH.EN i = 0 → t.reg .SCH_SAMPLE i = s.reg .SCH_SAMPLE i) ∧
      State.touches [.frc, .sched] [.SCH_SAMPLE] s t)

/-- R230, R234, R619: a command agent acts only on the command it was started with, answers the code that fits, and clears BUSY: in the
indirection space a READ returns the entry, or UE, a WRITE replaces it whole, and an INDEX beyond the space is RANGE; a SPACE or TABLE
that names nothing is answered with its code. R208 to R211, R234, R239: in an exact-match table whose candidate buckets are readable,
INSERT places a new key in the first free place, answers EXISTS for a key that is there, SEARCH returns the entry without setting a hit
bit, and DELETE frees it, unless IF_AGED asks for an aged one. -/
def Obligations.AgentsReadWriteInsertAndDelete : Prop :=
  ((∀ (s : State) (a i : Nat), s.agRuns a 0 = true → s.rd F.TBL_AG_CMD.SPACE a = 5 → s.rd F.TBL_AG_CMD.INDEX a = i → i < 4194304 →
    ∃ t, exec (.agentRead a) s = .next t ∧ t.rd F.TBL_AG_STATUS.BUSY a = 0 ∧
      t.rd F.TBL_AG_STATUS.CODE a = (if s.sramUe (indirWord i) 1 then 7 else 0) ∧
      (s.sramUe (indirWord i) 1 = false →
        t.rd F.TBL_AG_DATA.WORD (32 * a) = s.sramVal (indirWord i) 1 ∧ t.rd F.TBL_AG_STATUS.RINDEX a = i) ∧
      (∀ b, b ≠ a → t.reg .TBL_AG_STATUS b = s.reg .TBL_AG_STATUS b) ∧
      State.touches [.host] [.TBL_AG_DATA, .TBL_AG_META, .TBL_AG_STATUS, .TBL_ERR_ADDR, .TBL_ERR_STATUS] s t) ∧
  (∀ (s : State) (a i : Nat), s.agRuns a 1 = true → s.rd F.TBL_AG_CMD.SPACE a = 5 → s.rd F.TBL_AG_CMD.INDEX a = i → i < 4194304 →
    ∃ t, exec (.agentWrite a) s = .next t ∧ t.rd F.TBL_AG_STATUS.BUSY a = 0 ∧ t.rd F.TBL_AG_STATUS.CODE a = 0 ∧
      t.rd F.TBL_AG_STATUS.RINDEX a = i ∧ t.sramVal (indirWord i) 1 = s.rd F.TBL_AG_DATA.WORD (32 * a) ∧
      (∀ w, w ≠ indirWord i → Sparse.read 0 t.tables.sram w = Sparse.read 0 s.tables.sram w) ∧ t.sramUe (indirWord i) 1 = false ∧
      State.frame [.tables, .badWords] [(F.TBL_AG_STATUS.BUSY, a), (F.TBL_AG_STATUS.CODE, a), (F.TBL_AG_STATUS.RINDEX, a)] s t) ∧
  (∀ (s : State) (a i : Nat), s.rd F.TBL_AG_CMD.SPACE a = 5 → s.rd F.TBL_AG_CMD.INDEX a = i → 4194304 ≤ i →
    (s.agRuns a 0 = true → ∃ t, exec (.agentRead a) s = .next t ∧ t.rd F.TBL_AG_STATUS.BUSY a = 0 ∧
      t.rd F.TBL_AG_STATUS.CODE a = 5 ∧ State.frame [] [(F.TBL_AG_STATUS.BUSY, a), (F.TBL_AG_STATUS.CODE, a)] s t) ∧
    (s.agRuns a 1 = true → ∃ t, exec (.agentWrite a) s = .next t ∧ t.rd F.TBL_AG_STATUS.BUSY a = 0 ∧
      t.rd F.TBL_AG_STATUS.CODE a = 5 ∧ State.frame [] [(F.TBL_AG_STATUS.BUSY, a), (F.TBL_AG_STATUS.CODE, a)] s t)) ∧
  (∀ (s : State) (a : Nat) (c : AgCode) (e : Instr × Nat),
    e ∈ [(Instr.agentRead a, 0), (.agentWrite a, 1), (.agentInsert a, 2), (.agentDelete a, 3), (.agentSearch a, 4), (.agentMove a, 5)] →
    s.agRuns a e.2 = true → s.agSpace a = .inr c →
    ∃ t, exec e.1 s = .next t ∧ t.rd F.TBL_AG_STATUS.BUSY a = 0 ∧ t.rd F.TBL_AG_STATUS.CODE a = c.num ∧
      State.frame [] [(F.TBL_AG_STATUS.BUSY, a), (F.TBL_AG_STATUS.CODE, a)] s t)) ∧
  (∀ (s : State) (a d key : Nat), s.agSpace a = .inl (.exact d) → key = s.agKey a d → s.bucketsUe d key = false →
    (∀ i, s.agRuns a 2 = true → s.exactFind d key = some i →
      ∃ t, exec (.agentInsert a) s = .next t ∧ t.rd F.TBL_AG_STATUS.BUSY a = 0 ∧ t.rd F.TBL_AG_STATUS.CODE a = 1 ∧
        t.rd F.TBL_AG_STATUS.RINDEX a = i % 2 ^ 24 ∧ State.touches [] [.TBL_AG_STATUS, .TBL_ERR_STATUS] s t) ∧
    (∀ f fs, s.agRuns a 2 = true → s.exactFind d key = none → s.rd F.TBL_DESC.KEYW d = 0 →
      (s.exactCandidates d key).filterMap (s.freeIn d) = f :: fs →
      ∃ t, exec (.agentInsert a) s = .next t ∧ t.rd F.TBL_AG_STATUS.BUSY a = 0 ∧ t.rd F.TBL_AG_STATUS.CODE a = 0 ∧
        t.rd F.TBL_AG_STATUS.RINDEX a = f % 2 ^ 24 ∧ slotKey (t.slotVal d f) = key ∧ slotWidth (t.slotVal d f) = 1 ∧
        slotRes (t.slotVal d f) = s.agDataVal a 2 ∧ slotGen (t.slotVal d f) = (slotGen (s.slotVal d f) + 1) % 16 ∧
        slotHit (t.slotVal d f) = 0 ∧
        (∀ w, (w < s.slotWord d f ∨ s.slotWord d f + 4 ≤ w) → Sparse.read 0 t.tables.sram w = Sparse.read 0 s.tables.sram w) ∧
        State.touches [.tables, .badWords] [.TBL_AG_STATUS, .TBL_ERR_STATUS] s t) ∧
    (∀ i, s.agRuns a 4 = true → s.exactFind d key = some i →
      ∃ t, exec (.agentSearch a) s = .next t ∧ t.rd F.TBL_AG_STATUS.BUSY a = 0 ∧ t.rd F.TBL_AG_STATUS.CODE a = 0 ∧
        t.rd F.TBL_AG_STATUS.RINDEX a = i % 2 ^ 24 ∧
        t.rd F.TBL_AG_DATA.WORD (32 * a) + 2 ^ 64 * t.rd F.TBL_AG_DATA.WORD (32 * a + 1) = slotRes (s.slotVal d i) ∧
        State.touches [] [.TBL_AG_DATA, .TBL_AG_META, .TBL_AG_STATUS, .TBL_ERR_STATUS] s t) ∧
    (s.exactFind d key = none →
      (s.agRuns a 4 = true → ∃ t, exec (.agentSearch a) s = .next t ∧ t.rd F.TBL_AG_STATUS.BUSY a = 0 ∧
        t.rd F.TBL_AG_STATUS.CODE a = 9 ∧ State.touches [] [.TBL_AG_STATUS, .TBL_ERR_STATUS] s t) ∧
      (s.agRuns a 3 = true → ∃ t, exec (.agentDelete a) s = .next t ∧ t.rd F.TBL_AG_STATUS.BUSY a = 0 ∧
        t.rd F.TBL_AG_STATUS.CODE a = 2 ∧ State.touches [] [.TBL_AG_STATUS, .TBL_ERR_STATUS] s t)) ∧
    (∀ i, s.agRuns a 3 = true → s.exactFind d key = some i → s.rd F.TBL_DESC.KEYW d = 0 →
      (s.rd F.TBL_AG_CMD.IF_AGED a = 0 ∨ slotAged (s.slotVal d i) = 1) →
      ∃ t, exec (.agentDelete a) s = .next t ∧ t.rd F.TBL_AG_STATUS.BUSY a = 0 ∧ t.rd F.TBL_AG_STATUS.CODE a = 0 ∧
        slotWidth (t.slotVal d i) = 0 ∧ slotGen (t.slotVal d i) = (slotGen (s.slotVal d i) + 1) % 16 ∧
        (∀ w, (w < s.slotWord d i ∨ s.slotWord d i + 4 ≤ w) → Sparse.read 0 t.tables.sram w = Sparse.read 0 s.tables.sram w) ∧
        State.touches [.tables, .badWords] [.TBL_AG_STATUS, .TBL_ERR_STATUS] s t) ∧
    (∀ i, s.agRuns a 3 = true → s.exactFind d key = some i → s.rd F.TBL_AG_CMD.IF_AGED a = 1 → slotAged (s.slotVal d i) = 0 →
      ∃ t, exec (.agentDelete a) s = .next t ∧ t.rd F.TBL_AG_STATUS.BUSY a = 0 ∧ t.rd F.TBL_AG_STATUS.CODE a = 6 ∧
        State.touches [] [.TBL_AG_STATUS, .TBL_ERR_STATUS] s t))

/-- R219, R222, R223, R235: MOVE takes a Stencil entry of one unit to a free place from its key copy and frees the old one, DELETE clears
an entry with its key copy and hit bit; a suspect entry is repaired from its key copy, and a scrub step repairs the next unit of its bank. -/
def Obligations.StencilEntriesMoveAndAreRepaired : Prop :=
  (∀ (s : State) (a i j d p q : Nat) (r : Region), s.agRuns a 5 = true → s.agSpace a = .inl (.stencil r d) →
    s.rd F.TBL_AG_CMD.INDEX a = i → s.rd F.TBL_AG_CMD.INDEX2 a = j → i < r.entries → j < r.entries → r.width = 1 →
    p = r.pos i → q = r.pos j → (s.unit p).tag ≠ 0 →
    ((s.unit q).tag ≠ 0 → ∃ t, exec (.agentMove a) s = .next t ∧ t.rd F.TBL_AG_STATUS.BUSY a = 0 ∧ t.rd F.TBL_AG_STATUS.CODE a = 1 ∧
      State.frame [] [(F.TBL_AG_STATUS.BUSY, a), (F.TBL_AG_STATUS.CODE, a)] s t) ∧
    ((s.unit q).tag = 0 → s.sramUe (assocWord p) 2 = false → (s.unit p).copyUe = false →
      ∃ t, exec (.agentMove a) s = .next t ∧ t.rd F.TBL_AG_STATUS.BUSY a = 0 ∧ t.rd F.TBL_AG_STATUS.CODE a = 0 ∧
        (t.unit q).tag = (s.unit p).tag ∧ (t.unit q).key = (s.unit p).copyKey ∧ (t.unit q).mask = (s.unit p).copyMask ∧
        (t.unit q).gen = (s.unit q).gen + 1 ∧ (t.unit q).hit = ((s.unit q).hit || (s.unit p).hit) ∧
        t.unit p = { (s.unit p) with
          tag := 0, gen := (s.unit p).gen + 1, key := 0, mask := 0, copyKey := 0, copyMask := 0, hit := false, suspect := false } ∧
        (∀ u, u ≠ p → u ≠ q → t.unit u = s.unit u) ∧
        t.sramVal (assocWord q) 2 = s.sramVal (assocWord p) 2 ∧
        State.touches [.tables, .badWords] [.STN_STATUS, .TBL_AG_STATUS, .TBL_ERR_STATUS] s t)) ∧
  (∀ (s : State) (a i d p : Nat) (r : Region), s.agRuns a 3 = true → s.agSpace a = .inl (.stencil r d) →
    s.rd F.TBL_AG_CMD.INDEX a = i → i < r.entries → r.width = 1 → p = r.pos i →
    ∃ t, exec (.agentDelete a) s = .next t ∧ t.rd F.TBL_AG_STATUS.BUSY a = 0 ∧ t.rd F.TBL_AG_STATUS.CODE a = 0 ∧
      t.unit p = { StnUnit.free with gen := (s.unit p).gen + 1 } ∧ (∀ u, u ≠ p → t.unit u = s.unit u) ∧
      State.touches [.tables] [.STN_STATUS, .TBL_AG_STATUS] s t) ∧
  (∀ (s : State) (pos : Nat), (s.unit pos).suspect = true → s.rd F.STN_BANK_CFG.WIDTH (pos / 4096) = 0 →
    ((s.unit pos).copyUe = true → ∃ t, exec (.suspectRepair pos) s = .next t ∧ t.rd F.STN_STATUS.COPY_UE = 1 ∧
      t.host = { s.host with raised := s.host.raised ++ [6] } ∧ State.frame [.host] [(F.STN_STATUS.COPY_UE, 0)] s t) ∧
    ((s.unit pos).copyUe = false → ∃ t, exec (.suspectRepair pos) s = .next t ∧
      t.unit pos = { s.unit pos with key := (s.unit pos).copyKey, mask := (s.unit pos).copyMask, suspect := false } ∧
      (∀ u, u ≠ pos → t.unit u = s.unit u) ∧
      (((s.unit pos).key ≠ (s.unit pos).copyKey ∨ (s.unit pos).mask ≠ (s.unit pos).copyMask) →
        t.rd F.STN_STATUS.REPAIR_CNT = min (s.rd F.STN_STATUS.REPAIR_CNT + 1) (2 ^ F.STN_STATUS.REPAIR_CNT.len - 1)) ∧
      State.touches [.tables] [.STN_STATUS] s t)) ∧
  (∀ (s : State) (k row pos due : Nat), Sparse.read 0 s.tables.scrubRow k = row → pos = 4096 * k + row →
    due = Sparse.read 0 s.tables.scrubAt k + us (s.rd F.STN_SCRUB_CFG.PERIOD) → due < 2 ^ 80 → (s.unit pos).copyUe = false →
    ∃ t, exec (.stencilScrubStep k []) s = .next t ∧ t.now = max s.now due ∧
      t.unit pos = { s.unit pos with key := (s.unit pos).copyKey, mask := (s.unit pos).copyMask } ∧
      (∀ u, u ≠ pos → t.unit u = s.unit u) ∧ Sparse.read 0 t.tables.scrubRow k = (row + 1) % 4096 ∧
      Sparse.read 0 t.tables.scrubAt k = t.now ∧
      State.frame [.frc, .tables] [(F.STN_STATUS.REPAIR_CNT, 0)] s t)

/-- R196, R201, R202, R204, R205, R215, R237: the scrub of table SRAM corrects every single-bit error and reports each uncorrectable word;
a descriptor is taken in the standby bank only, with KIND 0 and DESC_ERR where it may not stand; a bank's width changes only while no
region and no tagged entry lies in it; ageing tables count units and their entries age, but for one that cannot be read. -/
def Obligations.TablesAreScrubbedDescribedAndAged : Prop :=
  (∀ (s : State), s.badWords.sramUe = [] →
    ∃ t, exec (.sramScrub []) s = .next t ∧ t.badWords = { s.badWords with sramCe := [] } ∧
      t.rd F.TBL_ERR_STATUS.SRAM_CE_CNT =
        min (s.rd F.TBL_ERR_STATUS.SRAM_CE_CNT + s.badWords.sramCe.length) (2 ^ F.TBL_ERR_STATUS.SRAM_CE_CNT.len - 1) ∧
      State.frame [.badWords] [(F.TBL_ERR_STATUS.SRAM_CE_CNT, 0)] s t) ∧
  (∀ (s : State) (w : Nat), s.badWords.sramUe = [w] → s.badWords.sramCe = [] →
    ∃ t, exec (.sramScrub []) s = .next t ∧ t.rd F.TBL_ERR_STATUS.SRAM_UE = 1 ∧
      t.rd F.TBL_ERR_ADDR.WORD = w % 2 ^ F.TBL_ERR_ADDR.WORD.len ∧ t.host = { s.host with raised := s.host.raised ++ [6] } ∧
      t.badWords = s.badWords ∧ State.frame [.host] [(F.TBL_ERR_ADDR.WORD, 0), (F.TBL_ERR_STATUS.SRAM_UE, 0)] s t) ∧
  (∀ (s : State) (b : Bool) (i v : Nat), s.takes .TBL_DESC = true → s.bankWritable b = false →
    ∃ t, exec (.descWord0Write b i v) s = .next t ∧ t.rd F.GLZ_COAT_STATUS.CMD_ERR = 1 ∧
      State.frame [] [(F.GLZ_COAT_STATUS.CMD_ERR, 0)] s t) ∧
  (∀ (s : State) (b : Bool) (i v : Nat), s.takes .TBL_DESC = true → s.bankWritable b = true → i < 256 → bitsOf v 0 3 = 0 →
    ∃ t, exec (.descWord0Write b i v) s = .next t ∧ t.rd F.TBL_DESC.KIND (bankNo b * 256 + i) = 0 ∧
      State.touches [] [.TBL_DESC] s t ∧ (∀ j, j ≠ bankNo b * 256 + i → t.reg .TBL_DESC j = s.reg .TBL_DESC j)) ∧
  (∀ (s : State) (b : Bool) (i v : Nat), s.takes .TBL_DESC = true → s.bankWritable b = true → i < 256 → 4 < bitsOf v 0 3 →
    ∃ t, exec (.descWord0Write b i v) s = .next t ∧ t.rd F.TBL_DESC.KIND (bankNo b * 256 + i) = 0 ∧
      t.rd F.TBL_ERR_STATUS.DESC_ERR = 1 ∧ State.touches [] [.TBL_DESC, .TBL_ERR_STATUS] s t) ∧
  (∀ (s : State) (b : Bool) (i k v w : Nat), s.takes .TBL_DESC = true → s.bankWritable b = true → i < 256 → k = bankNo b * 256 + i →
    bitsOf v 3 2 ≠ 3 →
    w = setBits (setBits (setBits (setBits (s.reg .TBL_DESC k).toNat 0 64 (v % 2 ^ 64)) 5 3 0) 47 1 0) 63 1 0 → s.descOk k w = true →
    ∃ t, exec (.descWord0Write b i v) s = .next t ∧ t.reg .TBL_DESC k = BitVec.ofNat 320 w ∧
      (∀ j, j ≠ k → t.reg .TBL_DESC j = s.reg .TBL_DESC j) ∧
      (t.isAgeing k = true → t.age k = ⟨0, s.now + ms (100 * 10 ^ t.rd F.TBL_DESC.AGE_UNIT k), t.rd F.TBL_DESC.AGE_LIMIT k⟩) ∧
      (t.isAgeing k = false → t.tables = s.tables) ∧ State.touches [.tables] [.TBL_DESC] s t) ∧
  (∀ (s : State) (k v : Nat), s.takes .STN_BANK_CFG = true → (∀ i, i < 512 → s.rd F.TBL_DESC.KIND i = 0) → (∀ e ∈ s.tables.stn, e.1 / 4096 = k → e.2.tag = 0) →
    ∃ t, exec (.bankWidthWrite k v) s = .next t ∧ t.rd F.STN_BANK_CFG.WIDTH k = (if v % 4 = 3 then 2 else v % 4) ∧
      State.frame [] [(F.STN_BANK_CFG.WIDTH, k)] s t) ∧
  (∀ (s : State) (k v : Nat) (e : Nat × StnUnit), s.takes .STN_BANK_CFG = true → e ∈ s.tables.stn → e.1 / 4096 = k → e.2.tag ≠ 0 →
    ∃ t, exec (.bankWidthWrite k v) s = .next t ∧ t.rd F.STN_STATUS.CFG_ERR = 1 ∧ State.frame [] [(F.STN_STATUS.CFG_ERR, 0)] s t) ∧
  (∀ (s : State) (k v i : Nat), s.takes .STN_BANK_CFG = true → i < 512 → (s.desc i).kind ≠ 0 →
    (s.desc i).banks.any (fun b => decide (b.1 ≤ k) && decide (k < b.1 + b.2.1)) = true →
    ∃ t, exec (.bankWidthWrite k v) s = .next t ∧ t.rd F.STN_STATUS.CFG_ERR = 1 ∧ State.frame [] [(F.STN_STATUS.CFG_ERR, 0)] s t) ∧
  (∀ (s : State) (i k : Nat), i < 256 → k = bankNo s.activeBank * 256 + i → s.isAgeing k = true → (s.age k).next < 2 ^ 80 →
    ∃ t, exec (.ageUnitTick i) s = .next t ∧ t.now = max s.now (s.age k).next ∧
      t.age k = ⟨((s.age k).u + 1) % 256, (s.age k).next + ms (100 * 10 ^ s.rd F.TBL_DESC.AGE_UNIT k), s.rd F.TBL_DESC.AGE_LIMIT k⟩ ∧
      (∀ j, j ≠ k → t.age j = s.age j) ∧ State.frame [.frc, .tables] [] s t) ∧
  (∀ (s : State) (i k slot : Nat), i < 256 → k = bankNo s.activeBank * 256 + i → s.isAgeing k = true → slot < s.slotCount k →
    slotAgeEn (s.slotVal k slot) = 1 → slotAged (s.slotVal k slot) = 0 → (slotWidth (s.slotVal k slot) = 1 ∨ slotWidth (s.slotVal k slot) = 2) → s.slotUe k slot = false →
    (s.age k).limit ≤ ((s.age k).u + 256 - slotAgeTs (s.slotVal k slot)) % 256 →
    ∃ t, exec (.ageEntryVisit i slot) s = .next t ∧ t.slotVal k slot = setBits (s.slotVal k slot) 38 1 1 ∧
      slotAged (t.slotVal k slot) = 1 ∧
      (∀ w, (w < s.slotWord k slot ∨ s.slotWord k slot + 4 ≤ w) → Sparse.read 0 t.tables.sram w = Sparse.read 0 s.tables.sram w) ∧
      State.touches [.badWords, .host, .outputs, .tables] [.HST_PCIE_STATUS, .HST_RING_STATUS, .TBL_ERR_STATUS, .TBL_LEARN_STATUS] s t) ∧
  (∀ (s : State) (i k slot : Nat), i < 256 → k = bankNo s.activeBank * 256 + i → s.isAgeing k = true → slot < s.slotCount k →
    s.slotUe k slot = true →
    ∃ t, exec (.ageEntryVisit i slot) s = .next t ∧ t.rd F.TBL_ERR_STATUS.SRAM_UE = 1 ∧ t.tables = s.tables ∧
      State.touches [.host] [.TBL_ERR_ADDR, .TBL_ERR_STATUS] s t)

/-- R247 to R253, R256, R259, R260: pattern sets are described and loaded in the standby bank or outside the active bank's sets; a stage
whose set is not live misses, a run that completes patterns answers with the winner's result, where its match ended and how many there
were, a range the budget cannot pay is not inspected and counted, and a legacy set whose key width differs is a mismatch. -/
def Obligations.PounceSetsAndSearches : Prop :=
  (∀ (s : State) (b : Bool) (k v : Nat), k < 64 → s.takes .PNC_SET = true → s.bankWritable b = false →
    ∃ t, exec (.setDescWord0Write b k v) s = .next t ∧ t.rd F.PNC_STATUS.WRITE_ERR = 1 ∧
      State.frame [] [(F.PNC_STATUS.WRITE_ERR, 0)] s t) ∧
  (∀ (s : State) (b : Bool) (k i v w : Nat), k < 64 → s.takes .PNC_SET = true → s.bankWritable b = true → i = bankNo b * 64 + k →
    w = setBits (s.reg .PNC_SET i).toNat 0 64 (Nat.land v 0x3fff001fff3f) →
    ∃ t, exec (.setDescWord0Write b k v) s = .next t ∧
      (if s.pncSetOk i w then t.reg .PNC_SET i = BitVec.ofNat 320 w ∧ State.touches [] [.PNC_SET] s t
        else t.reg .PNC_SET i = BitVec.ofNat 320 (setBits w 0 2 0) ∧ t.rd F.PNC_STATUS.SET_ERR = 1 ∧
          State.touches [] [.PNC_SET, .PNC_STATUS] s t) ∧
      (∀ j, j ≠ i → t.reg .PNC_SET j = s.reg .PNC_SET j)) ∧
  (∀ (s : State) (v : BitVec 128), s.takes .PNC_LOAD_DATA = true → s.pncFree true (s.rd F.PNC_LOAD_ADDR.STATE) = true →
    ∃ t, exec (.loadDataWrite v) s = .next t ∧ Sparse.read 0 t.tables.pncState (s.rd F.PNC_LOAD_ADDR.STATE) = v ∧
      (∀ i, i ≠ s.rd F.PNC_LOAD_ADDR.STATE → Sparse.read 0 t.tables.pncState i = Sparse.read 0 s.tables.pncState i) ∧
      t.rd F.PNC_LOAD_ADDR.STATE = (s.rd F.PNC_LOAD_ADDR.STATE + 1) % 2 ^ F.PNC_LOAD_ADDR.STATE.len ∧
      State.frame [.tables, .badWords] [(F.PNC_LOAD_ADDR.STATE, 0)] s t) ∧
  (∀ (s : State) (v : BitVec 128), s.takes .PNC_LOAD_DATA = true → s.pncFree true (s.rd F.PNC_LOAD_ADDR.STATE) = false →
    ∃ t, exec (.loadDataWrite v) s = .next t ∧ t.rd F.PNC_STATUS.WRITE_ERR = 1 ∧
      State.frame [] [(F.PNC_STATUS.WRITE_ERR, 0)] s t) ∧
  (∀ (s : State) (n : Nat) (p : Pkt) (eg : Bool) (st : Nat) (a : Act) (d : PncSet), s.handoff n = some (p, eg, st, a, some d) →
    (d.mode = 0 →
      ∃ t q a', exec (.pounceHandoff n) s = .next t ∧ t.pkt n = some q ∧ q.act = some a' ∧ a'.pounce = false ∧ a'.hit = false ∧
        a'.res = 0 ∧ a'.pc = s.rd F.GLZ_TPL.MISS_PC (bankNo (stageBank p eg) * 256 + a.tpl) ∧ (∀ m, m ≠ n → t.pkt m = s.pkt m) ∧
        State.frame [.pkts] [] s t) ∧
    (d.mode = 1 ∨ d.mode = 2 → p.rx.arrived = true →
      (let r := inspectRange a.key (keyBits (s.handoffWidth p eg a)) p.data.length
       r.1 < r.2 ∧ s.budgetNow.level < ((8 * (r.2 - r.1) : Nat) : Int)) →
      ∃ t q a', exec (.pounceHandoff n) s = .next t ∧ t.pkt n = some q ∧ q.act = some a' ∧ a'.pounce = false ∧
        a'.pc = s.rd F.GLZ_TPL.NI_PC (bankNo (stageBank p eg) * 256 + a.tpl) ∧ (∀ m, m ≠ n → t.pkt m = s.pkt m) ∧
        t.rd F.PNC_STATUS.NI_CNT = min (s.rd F.PNC_STATUS.NI_CNT + 1) (2 ^ F.PNC_STATUS.NI_CNT.len - 1) ∧
        State.frame [.pkts, .tables] [(F.PNC_STATUS.NI_CNT, 0)] s t) ∧
    (∀ r lo hi, d.mode = 1 ∨ d.mode = 2 → p.rx.arrived = true →
      (lo, hi) = inspectRange a.key (keyBits (s.handoffWidth p eg a)) p.data.length → lo < hi →
      ((8 * (hi - lo) : Nat) : Int) ≤ s.budgetNow.level → s.badWords.pounceUe = [] → s.badWords.pounceCe = [] →
      r = pounceScan (s.setStates d) (d.mode == 2) ((p.data.take hi).drop lo) 0 lo ⟨none, 0, []⟩ →
      ∃ t q a', exec (.pounceHandoff n) s = .next t ∧ t.pkt n = some q ∧ q.act = some a' ∧ a'.pounce = false ∧ a'.hit = r.win.isSome ∧
        a'.res = (match r.win with
          | some (w, off) => BitVec.ofNat 128 (setBits (setBits (s.rd F.PNC_RES.RES (d.slots.1 + w)) 7 9 off) 0 7
              (if d.mode = 2 then min r.count 127 else 1))
          | none => 0) ∧
        a'.pc = (if r.win.isSome then a'.res.toNat / 2 ^ 115
          else s.rd F.GLZ_TPL.MISS_PC (bankNo (stageBank p eg) * 256 + a.tpl)) ∧
        t.tables.budget = some { s.budgetNow with level := s.budgetNow.level - (8 * (hi - lo) : Nat) } ∧
        (∀ m, m ≠ n → t.pkt m = s.pkt m) ∧ State.frame [.pkts, .tables] [] s t) ∧
    (d.mode = 3 → s.handoffWidth p eg a ≠ (if d.wide then 1 else 0) →
      ∃ t q a', exec (.legacySearch n) s = .next t ∧ t.pkt n = some q ∧ q.act = some a' ∧ a'.hit = false ∧ a'.res = 0 ∧
        a'.pc = s.rd F.GLZ_TPL.MISS_PC (bankNo (stageBank p eg) * 256 + a.tpl) ∧ (∀ m, m ≠ n → t.pkt m = s.pkt m) ∧
        t.rd F.PNC_STATUS.MISMATCH_CNT = min (s.rd F.PNC_STATUS.MISMATCH_CNT + 1) (2 ^ F.PNC_STATUS.MISMATCH_CNT.len - 1) ∧
        State.frame [.pkts] [(F.PNC_STATUS.MISMATCH_CNT, 0)] s t) ∧
    (∀ i, d.mode = 3 → s.handoffWidth p eg a = (if d.wide then 1 else 0) → s.badWords.pounceUe = [] → s.badWords.pounceCe = [] →
      s.legacyFind d a.key (s.rd F.PNC_LGMASK.MASK (s.rd F.PNC_SET.LGMASK (bankNo (stageBank p eg) * 64 +
        s.rd F.GLZ_TPL.TABLE (bankNo (stageBank p eg) * 256 + a.tpl))) % (if d.wide then 2 ^ 160 else 2 ^ 80)) = some i →
      ∃ t q a', exec (.legacySearch n) s = .next t ∧ t.pkt n = some q ∧ q.act = some a' ∧ a'.hit = true ∧
        a'.res.toNat = s.rd F.PNC_RES.RES i ∧ a'.pc = s.rd F.PNC_RES.RES i / 2 ^ 115 ∧ (∀ m, m ≠ n → t.pkt m = s.pkt m) ∧
        State.frame [.pkts] [] s t))

/-- R266, R267, R269 to R273, R277, R358: a request within its class's ceiling and the other classes' floors gets a buffer with one
reference of its owner; a further reference is refused at 255 and counted as a copy refusal; the last free returns the buffer to its
pool's list, a Canvas buffer with the old head of its stripe in its first four octets; a free of a FREE buffer is a double free, one by
another owner or a reserved one a foreign free; a transfer changes the owner. -/
def Obligations.BuffersAreOwnedAndCounted : Prop :=
  (∀ (s s1 : State) (c o p : Nat), c ≤ 6 → c ≠ 4 → (c = 6 → ownerClass o = 6) → s.mayAlloc c 0 = true → s.popCanvas = some (s1, p) →
    ∃ t, exec (.bufferAllocate c o 0) s = .next t ∧ t.palette.answer = p ∧ bufRef (t.bufWord p) = 1 ∧
      bufOwner (t.bufWord p) = (if c = 6 then o else classOwner c) ∧ bufState (t.bufWord p) = (if c = 5 then 3 else 1) ∧
      t.heldBy (if c = 6 then o else classOwner c) 0 = s.heldBy (if c = 6 then o else classOwner c) 0 + 1 ∧
      (0 < s.rd F.PAL_FREE_CNT.COUNT 0 → t.rd F.PAL_FREE_CNT.COUNT 0 = s.rd F.PAL_FREE_CNT.COUNT 0 - 1) ∧
      p = s.stripeHead t.palette.lastStripe ∧ t.stripeHead t.palette.lastStripe = s.nextOf p ∧
      (∀ q, q ≠ p → t.bufWord q = s.bufWord q) ∧
      State.touches [.palette] [.PAL_CLASS_STATUS, .PAL_FREE_CNT, .PAL_OWNER_CFG] s t) ∧
  (∀ (s : State) (c o p : Nat) (rest : List Nat), (c = 4 ∧ s.palette.rebuilding = false ∧ s.dramStopped = false ∨ c = 6 ∧ ownerClass o = 6) →
    s.mayAlloc c 1 = true → s.palette.headCache = p :: rest →
    ∃ t, exec (.bufferAllocate c o 1) s = .next t ∧ t.palette.answer = p ∧ bufRef (t.bufWord p) = 1 ∧
      bufOwner (t.bufWord p) = (if c = 6 then o else 4) ∧ bufState (t.bufWord p) = 1 ∧ t.palette.headCache = rest ∧
      t.palette.pushCache = s.palette.pushCache ∧ (∀ q, q ≠ p → t.bufWord q = s.bufWord q) ∧
      State.touches [.palette] [.PAL_CLASS_STATUS, .PAL_FREE_CNT, .PAL_OWNER_CFG, .PAL_POOL_STATUS] s t) ∧
  (∀ (s : State) (o : Nat), (s.palette.rebuilding = true ∨ s.dramStopped = true ∨ s.mayAlloc 4 1 = false) →
    ∃ t, exec (.bufferAllocate 4 o 1) s = .next t ∧ t.palette = { s.palette with answer := 0xFFFFFFFF } ∧
      t.rd F.PAL_CLASS_STATUS.EMPTY_CNT 4 =
        min (s.rd F.PAL_CLASS_STATUS.EMPTY_CNT 4 + 1) (2 ^ F.PAL_CLASS_STATUS.EMPTY_CNT.len - 1) ∧
      State.touches [.host, .palette] [.PAL_CLASS_STATUS, .PAL_POOL_STATUS, .TLY_SAMP_CFG, .TLY_SAMP_CNT] s t) ∧
  (∀ (s : State) (c o : Nat), c ≤ 5 → c ≠ 4 → s.mayAlloc c 0 = false →
    ∃ t, exec (.bufferAllocate c o 0) s = .next t ∧ t.palette = { s.palette with answer := 0xFFFFFFFF } ∧
      t.rd F.PAL_CLASS_STATUS.EMPTY_CNT c =
        min (s.rd F.PAL_CLASS_STATUS.EMPTY_CNT c + 1) (2 ^ F.PAL_CLASS_STATUS.EMPTY_CNT.len - 1) ∧
      State.touches [.host, .palette] [.PAL_CLASS_STATUS, .TLY_SAMP_CFG, .TLY_SAMP_CNT] s t) ∧
  (∀ (s : State) (p n : Nat), s.ptrOk p = true → bufState (s.bufWord p) = 1 →
    (bufRef (s.bufWord p) < 255 → ∃ t, exec (.bufferReference p n) s = .next t ∧ bufRef (t.bufWord p) = bufRef (s.bufWord p) + 1 ∧
      bufOwner (t.bufWord p) = bufOwner (s.bufWord p) ∧ bufState (t.bufWord p) = 1 ∧ (∀ q, q ≠ p → t.bufWord q = s.bufWord q) ∧
      State.frame [.palette] [] s t) ∧
    (bufRef (s.bufWord p) = 255 → ∃ t, exec (.bufferReference p n) s = .next t ∧ t.pair 773 = (s.pair 773).plus n ∧
      (∀ j, j ≠ 773 → t.pair j = s.pair j) ∧ State.frame [.tally] [] s t)) ∧
  (∀ (s : State) (p o : Nat), s.ptrOk p = true → bufState (s.bufWord p) = 1 → ownerClass o ≠ 7 → bufOwner (s.bufWord p) = o →
    (1 < bufRef (s.bufWord p) → ∃ t, exec (.bufferFree p o) s = .next t ∧ bufRef (t.bufWord p) = bufRef (s.bufWord p) - 1 ∧
      bufState (t.bufWord p) = 1 ∧ (∀ q, q ≠ p → t.bufWord q = s.bufWord q) ∧ State.frame [.palette] [] s t) ∧
    (bufRef (s.bufWord p) = 1 → s.marked p = false → ptrPool p = 0 →
      ∃ t, exec (.bufferFree p o) s = .next t ∧ bufState (t.bufWord p) = 0 ∧ bufRef (t.bufWord p) = 0 ∧
        t.heldBy o 0 = s.heldBy o 0 - 1 ∧
        t.rd F.PAL_FREE_CNT.COUNT 0 = (s.rd F.PAL_FREE_CNT.COUNT 0 + 1) % 2 ^ F.PAL_FREE_CNT.COUNT.len ∧
        t.stripeHead (ptrIndex p % 16) = p ∧ t.nextOf p = s.stripeHead (ptrIndex p % 16) % 2 ^ 32 ∧
        (∀ q, q ≠ p → t.bufWord q = s.bufWord q) ∧
        State.touches [.palette] [.PAL_CLASS_STATUS, .PAL_FREE_CNT, .PAL_OWNER_CFG] s t) ∧
    (bufRef (s.bufWord p) = 1 → s.marked p = false → ptrPool p = 1 → s.palette.pushCache.length < 1024 →
      s.palette.pushCache.length + 1 < 63 + (s.rd F.PAL_POOL_CFG.HC_LOW 1 - s.palette.headCache.length) →
      ∃ t, exec (.bufferFree p o) s = .next t ∧ bufState (t.bufWord p) = 0 ∧ bufRef (t.bufWord p) = 0 ∧
        t.rd F.PAL_FREE_CNT.COUNT 1 = (s.rd F.PAL_FREE_CNT.COUNT 1 + 1) % 2 ^ F.PAL_FREE_CNT.COUNT.len ∧
        t.palette.pushCache = s.palette.pushCache ++ [p] ∧ t.palette.headCache = s.palette.headCache ∧
        (∀ q, q ≠ p → t.bufWord q = s.bufWord q) ∧
        State.touches [.palette] [.PAL_CLASS_STATUS, .PAL_FREE_CNT, .PAL_OWNER_CFG, .PAL_POOL_STATUS] s t)) ∧
  (∀ (s : State) (p o : Nat), s.ptrOk p = true →
    (ownerClass o ≠ 7 → (bufState (s.bufWord p) = 0 ∨ bufState (s.bufWord p) = 2) →
      ∃ t, exec (.bufferFree p o) s = .next t ∧ t.rd F.PAL_ERR_STATUS.DOUBLE_FREE = 1 ∧ t.rd F.PAL_ERR_STATUS.BAD_PTR = p ∧
        t.rd F.PAL_ERR_STATUS.BAD_OWNER = o % 2 ^ F.PAL_ERR_STATUS.BAD_OWNER.len ∧
        t.host = { s.host with raised := s.host.raised ++ [9] } ∧ State.touches [.host] [.PAL_ERR_STATUS] s t) ∧
    ((ownerClass o = 7 ∨ (bufState (s.bufWord p) = 1 ∨ bufState (s.bufWord p) = 3) ∧ bufOwner (s.bufWord p) ≠ o) →
      ∃ t, exec (.bufferFree p o) s = .next t ∧ t.rd F.PAL_ERR_STATUS.FOREIGN_FREE = 1 ∧
        t.host = { s.host with raised := s.host.raised ++ [10] } ∧ State.touches [.host] [.PAL_ERR_STATUS] s t)) ∧
  (∀ (s : State) (p a b : Nat), s.ptrOk p = true → (bufState (s.bufWord p) = 1 ∨ bufState (s.bufWord p) = 3) →
    bufOwner (s.bufWord p) = a → ownerClass b ≠ 7 →
    ∃ t, exec (.bufferTransfer p a b) s = .next t ∧ bufOwner (t.bufWord p) = b ∧ bufState (t.bufWord p) = 1 ∧
      bufRef (t.bufWord p) = bufRef (s.bufWord p) ∧ bufAge (t.bufWord p) = s.ageNow ∧
      (a ≠ b → t.heldBy a (ptrPool p) = s.heldBy a (ptrPool p) - 1 ∧ t.heldBy b (ptrPool p) = s.heldBy b (ptrPool p) + 1) ∧
      (∀ q, q ≠ p → t.bufWord q = s.bufWord q) ∧ State.touches [.palette] [.PAL_CLASS_STATUS, .PAL_OWNER_CFG] s t)

/-- R277, R293 to R296: the head cache is refilled from the push cache first; a rebuild builds the chains from the buffers that are FREE
and stand in no cache, and ends; a sweep begins by giving the head cache back, each pointer an undo, and ends with MISMATCH where the
counts differ; a pop removes the head of the audit FIFO. R291, R292, R616, R620: PAL_SW_CMD allocates for a software owner, frees, reads,
retires and unretires one buffer and answers its code, 4 for a pointer outside the pools or an owner that is not software's; a retired
buffer is marked, and an unretired one is FREE again. -/
def Obligations.FreeListsAuditAndSoftware : Prop :=
  ((∀ (s : State), s.palette.headCache.length < s.rd F.PAL_POOL_CFG.HC_LOW 1 → s.palette.rebuilding = false →
    s.rd F.PAL_POOL_CFG.HC_LOW 1 ≤ s.palette.headCache.length + s.palette.pushCache.length →
    ∃ t, exec .headCacheRefill s = .next t ∧
      t.palette.headCache = s.palette.headCache ++ s.palette.pushCache.take (s.rd F.PAL_POOL_CFG.HC_LOW 1 - s.palette.headCache.length) ∧
      t.palette.pushCache = s.palette.pushCache.drop (s.rd F.PAL_POOL_CFG.HC_LOW 1 - s.palette.headCache.length) ∧
      t.palette.heads = s.palette.heads ∧
      State.frame [.palette] [(F.PAL_POOL_STATUS.HC_LEVEL, 1), (F.PAL_POOL_STATUS.PC_LEVEL, 1)] s t) ∧
  (∀ (s : State), s.palette.rebuilding = true →
    ∃ t, exec .chainRebuild s = .next t ∧ t.palette.headCache = s.palette.headCache ∧ t.palette.pushCache = s.palette.pushCache ∧
      t.palette.rebuilding = false ∧ t.palette.bundleLost = 0 ∧
      t.rd F.PAL_FREE_CNT.COUNT 1 = s.freeDram % 2 ^ F.PAL_FREE_CNT.COUNT.len ∧
      (∀ p, ptrPool p = 1 → (bufState (s.bufWord p) ≠ 0 ∨ p ∈ s.palette.headCache ∨ p ∈ s.palette.pushCache) → t.leftOut p = true) ∧
      State.frame [.palette] [(F.PAL_FREE_CNT.COUNT, 1), (F.PAL_POOL_STATUS.HC_LEVEL, 1), (F.PAL_POOL_STATUS.PC_LEVEL, 1)] s t) ∧
  (∀ (s : State), s.takes .PAL_AUDIT_CTRL = true → s.rd F.PAL_AUDIT_STATUS.RUNNING = 0 →
    ∃ t, exec .auditStart s = .next t ∧ t.rd F.PAL_AUDIT_STATUS.RUNNING = 1 ∧ t.palette.headCache = [] ∧
      t.palette.tally = t.freeByMeta ∧
      t.rd F.TLY_SPEC_CNT.COUNT 3 = (s.rd F.TLY_SPEC_CNT.COUNT 3 + s.palette.headCache.length) % 2 ^ F.TLY_SPEC_CNT.COUNT.len ∧
      State.touches [.badWords, .dram, .easel, .host, .palette] [.PAL_AUDIT_FIFO, .PAL_AUDIT_STATUS, .PAL_CLASS_STATUS, .PAL_FREE_CNT, .PAL_OWNER_CFG,
        .PAL_POOL_STATUS, .TLY_SPEC_CNT] s t) ∧
  (∀ (s : State), s.takes .PAL_AUDIT_CTRL = true → s.rd F.PAL_AUDIT_STATUS.RUNNING = 1 → exec .auditStart s = .next s) ∧
  (∀ (s : State) (due : Nat), s.rd F.PAL_AUDIT_CTRL.PERIOD ≠ 0 → due = s.palette.auditAt + ms (1000 * s.rd F.PAL_AUDIT_CTRL.PERIOD) →
    due < 2 ^ 80 →
    ∃ t, exec .auditPeriod s = .next t ∧ t.now = max s.now due ∧ t.palette.auditAt = t.now ∧ t.rd F.PAL_AUDIT_STATUS.RUNNING = 1 ∧
      State.touches [.badWords, .dram, .easel, .frc, .host, .palette] [.PAL_AUDIT_FIFO, .PAL_AUDIT_STATUS, .PAL_CLASS_STATUS, .PAL_FREE_CNT,
        .PAL_OWNER_CFG, .PAL_POOL_STATUS, .TLY_SPEC_CNT] s t) ∧
  (∀ (s : State) (same : Bool), s.rd F.PAL_AUDIT_STATUS.RUNNING = 1 →
    same = decide (s.palette.tally = (s.rd F.PAL_FREE_CNT.COUNT 0 + s.rd F.PAL_FREE_CNT.COUNT 1 : Nat)) →
    ∃ t, exec .auditSweepEnd s = .next t ∧ t.rd F.PAL_AUDIT_STATUS.RUNNING = 0 ∧
      t.rd F.PAL_AUDIT_STATUS.MISMATCH = (if same then s.rd F.PAL_AUDIT_STATUS.MISMATCH else 1) ∧
      t.host.raised = s.host.raised ++ (if same then [] else [11]) ∧
      t.palette.rebuilding = (s.palette.rebuilding || decide (0 < s.palette.bundleLost)) ∧
      State.frame [.host, .palette] [(F.PAL_AUDIT_STATUS.RUNNING, 0), (F.PAL_AUDIT_STATUS.MISMATCH, 0)] s t) ∧
  (∀ (s : State), s.takes .PAL_AUDIT_CTRL = true →
    ∃ t, exec .auditPop s = .next t ∧ t.palette = { s.palette with audit := s.palette.audit.drop 1 } ∧
      t.rd F.PAL_AUDIT_STATUS.FIFO_LEVEL = (s.palette.audit.length - 1) % 2 ^ F.PAL_AUDIT_STATUS.FIFO_LEVEL.len ∧
      (s.palette.audit.length ≤ 1 → t.rd F.PAL_AUDIT_FIFO.PTR = 0xFFFFFFFF) ∧
      State.touches [.palette] [.PAL_AUDIT_FIFO, .PAL_AUDIT_STATUS] s t)) ∧
  ((∀ (s s1 : State) (o p : Nat), s.swRuns 1 = true → s.rd F.PAL_SW_CMD.OWNER = o → ownerClass o = 6 → s.rd F.PAL_SW_CMD.POOL = 0 →
    s.mayAlloc 6 0 = true → s.popCanvas = some (s1, p) → p < 2 ^ 32 →
    ∃ t, exec .swAlloc s = .next t ∧ t.rd F.PAL_SW_RESULT.BUSY = 0 ∧ t.rd F.PAL_SW_RESULT.CODE = 0 ∧
      t.rd F.PAL_SW_RESULT.VALUE = p ∧ bufRef (t.bufWord p) = 1 ∧ bufOwner (t.bufWord p) = o ∧ bufState (t.bufWord p) = 1 ∧
      (∀ q, q ≠ p → t.bufWord q = s.bufWord q) ∧
      State.touches [.palette] [.PAL_CLASS_STATUS, .PAL_FREE_CNT, .PAL_OWNER_CFG, .PAL_SW_RESULT] s t) ∧
  (∀ (s : State), s.swRuns 1 = true → ownerClass (s.rd F.PAL_SW_CMD.OWNER) ≠ 6 →
    ∃ t, exec .swAlloc s = .next t ∧ t.rd F.PAL_SW_RESULT.BUSY = 0 ∧ t.rd F.PAL_SW_RESULT.CODE = 4 ∧
      State.touches [] [.PAL_SW_RESULT] s t) ∧
  (∀ (s : State) (e : Instr × Nat), e ∈ [(Instr.swFree, 2), (.swRead, 3), (.swRetire, 4), (.swUnretire, 5)] → s.swRuns e.2 = true →
    s.ptrOk (s.rd F.PAL_SW_CMD.PTR) = false →
    ∃ t, exec e.1 s = .next t ∧ t.rd F.PAL_SW_RESULT.BUSY = 0 ∧ t.rd F.PAL_SW_RESULT.CODE = 4 ∧
      State.touches [] [.PAL_SW_RESULT] s t) ∧
  (∀ (s : State) (p : Nat), s.rd F.PAL_SW_CMD.PTR = p → s.ptrOk p = true →
    (s.swRuns 2 = true → bufState (s.bufWord p) = 1 → ownerClass (s.rd F.PAL_SW_CMD.OWNER) ≠ 7 →
      bufOwner (s.bufWord p) = s.rd F.PAL_SW_CMD.OWNER → 1 < bufRef (s.bufWord p) →
      ∃ t, exec .swFree s = .next t ∧ t.rd F.PAL_SW_RESULT.BUSY = 0 ∧ t.rd F.PAL_SW_RESULT.CODE = 0 ∧
        bufRef (t.bufWord p) = bufRef (s.bufWord p) - 1 ∧ (∀ q, q ≠ p → t.bufWord q = s.bufWord q) ∧
        State.touches [.palette] [.PAL_SW_RESULT] s t) ∧
    (s.swRuns 3 = true →
      ∃ t, exec .swRead s = .next t ∧ t.rd F.PAL_SW_RESULT.BUSY = 0 ∧ t.rd F.PAL_SW_RESULT.CODE = 0 ∧
        t.rd F.PAL_SW_RESULT.VALUE = s.bufWord p ∧ State.touches [] [.PAL_SW_RESULT] s t) ∧
    (s.swRuns 4 = true → bufState (s.bufWord p) ≠ 2 → p ∉ s.easel.persist.marks →
      ∃ t, exec .swRetire s = .next t ∧ t.rd F.PAL_SW_RESULT.BUSY = 0 ∧ t.rd F.PAL_SW_RESULT.CODE = 0 ∧
        t.easel.persist = { s.easel.persist with marks := s.easel.persist.marks ++ [p] } ∧ t.easel.dirtySince.isSome = true ∧
        State.touches [.easel] [.PAL_SW_RESULT] s t) ∧
    (s.swRuns 5 = true → bufState (s.bufWord p) ≠ 2 →
      ∃ t, exec .swUnretire s = .next t ∧ t.rd F.PAL_SW_RESULT.BUSY = 0 ∧ t.rd F.PAL_SW_RESULT.CODE = 2 ∧
        State.touches [] [.PAL_SW_RESULT] s t) ∧
    (s.swRuns 5 = true → bufState (s.bufWord p) = 2 →
      ∃ t, exec .swUnretire s = .next t ∧ t.rd F.PAL_SW_RESULT.BUSY = 0 ∧ t.rd F.PAL_SW_RESULT.CODE = 0 ∧
        bufState (t.bufWord p) = 0 ∧ bufOwner (t.bufWord p) = bufOwner (s.bufWord p) ∧ bufAge (t.bufWord p) = bufAge (s.bufWord p) ∧
        p ∉ t.easel.persist.retired ∧ p ∉ t.easel.persist.marks ∧
        (s.bufLost p = false →
          t.rd F.PAL_FREE_CNT.COUNT (ptrPool p) = (s.rd F.PAL_FREE_CNT.COUNT (ptrPool p) + 1) % 2 ^ F.PAL_FREE_CNT.COUNT.len) ∧
        (s.bufLost p = true → t.rd F.PAL_FREE_CNT.COUNT (ptrPool p) = s.rd F.PAL_FREE_CNT.COUNT (ptrPool p)) ∧
        (∀ q, q ≠ p → t.bufWord q = s.bufWord q) ∧
        State.touches [.badWords, .dram, .easel, .palette] [.PAL_FREE_CNT, .PAL_POOL_STATUS, .PAL_SW_RESULT] s t)))

/-- R45, R340, R344, R345, R348 to R350: a channel that serves issues, for its one request, the WR or RD of an open row, the PRE of
another row, the refresh of a neighbour row that is due, or the ACT of a closed bank, which may call for its neighbours; with 8 refreshes
owed it closes its rows and refreshes each rank; an interval adds one owed refresh, and a ninth goes at once; a temperature above 95
degrees is HOT, and one not written for 2 s is STALE. Whether an ACT's draw calls for neighbours is a free value (log entry 62). R287,
R338 to R341, R354: the oldest read of a channel returns: a burst without an error counts off the packet it was read for, whose last burst
sends it on; one symbol in error is corrected, counted, logged and written back; two are an uncorrectable error, counted, logged and
reported, which discards the packet; every codeword of a lost channel is one. R338, R339, R342, R343, R354: an error turns over the bits
it strikes, and a failed device its own symbols; the patrol reads the next burst of a channel that serves and has no request, and no
packet is lost by it; a pop removes the log's head; a channel over its rate of uncorrectable codewords is lost, its writes discarded and
its reads left to be answered; 16 failed replays after a parity error lose it. -/
def Obligations.DramCommandsReadsAndErrors : Prop :=
  ((∀ (s : State) (ch : Nat) (r : Req), s.chanServes ch = true → (s.chan ch).requests = [r] → (s.chan ch).owed = 0 →
    (Sparse.read none (s.chan ch).openRows (s.place r.addr).key = some (s.place r.addr).row →
      ∃ t, exec (.dramCommandIssue ch []) s = .next t ∧ (t.chan ch).requests = [] ∧
        (r.write = false → (t.chan ch).inFlight = (s.chan ch).inFlight ++ [r] ∧ t.dram.struck = s.dram.struck) ∧
        (r.write = true → (t.chan ch).inFlight.length = (s.chan ch).inFlight.length ∧
          ∀ q ∈ (t.chan ch).inFlight, q.addr / 64 = r.addr / 64 → q.stale = true) ∧
        t.outputs = s.outputs ++ [.dram ch (if r.write then "WR" else "RD") r.addr] ∧ (∀ k, k ≠ ch → t.chan k = s.chan k) ∧
        State.frame [.dram, .outputs] [(F.DMC_RT_CFG.PANIC_CNT, 0)] s t) ∧
    (∀ row, Sparse.read none (s.chan ch).openRows (s.place r.addr).key = some row → row ≠ (s.place r.addr).row →
      ∃ t, exec (.dramCommandIssue ch []) s = .next t ∧ (t.chan ch).requests = [r] ∧
        Sparse.read none (t.chan ch).openRows (s.place r.addr).key = none ∧
        t.outputs = s.outputs ++ [.dram ch "PRE" (s.place r.addr).key] ∧
        State.frame [.dram, .outputs] [(F.DMC_RT_CFG.PANIC_CNT, 0)] s t) ∧
    (∀ e, Sparse.read none (s.chan ch).openRows (s.place r.addr).key = none → (s.chan ch).nbr = [e] → e.1 = (s.place r.addr).key →
      s.rd F.DMC_REFRESH_CFG.NBR_EN = 0 →
      ∃ t, exec (.dramCommandIssue ch []) s = .next t ∧ (t.chan ch).requests = [r] ∧ (t.chan ch).nbr = [] ∧
        (t.chan ch).openRows = (s.chan ch).openRows ∧
        t.outputs = s.outputs ++ [.dram ch "ACT" (e.2 * 32 + e.1), .dram ch "PRE" e.1] ∧
        State.frame [.dram, .outputs] [(F.DMC_RT_CFG.PANIC_CNT, 0)] s t) ∧
    (Sparse.read none (s.chan ch).openRows (s.place r.addr).key = none → (s.chan ch).nbr = [] →
      ∃ t, exec (.dramCommandIssue ch []) s = .next t ∧ (t.chan ch).requests = [r] ∧
        Sparse.read none (t.chan ch).openRows (s.place r.addr).key = some (s.place r.addr).row ∧
        t.outputs = s.outputs ++ [.dram ch "ACT" ((s.place r.addr).row * 32 + (s.place r.addr).key)] ∧
        (t.chan ch).nbr = (if s.rd F.DMC_REFRESH_CFG.NBR_EN = 1 ∧ s.freeVal % 2 ^ s.rd F.DMC_REFRESH_CFG.NBR_K = 0 then
          s.neighbours (s.place r.addr).key (s.place r.addr).row else []) ∧
        State.frame [.dram, .freeCtr, .outputs] [(F.DMC_RT_CFG.PANIC_CNT, 0)] s t)) ∧
  (∀ (s : State) (ch : Nat), s.chanServes ch = true → 8 ≤ (s.chan ch).owed →
    ∃ t, exec (.dramCommandIssue ch []) s = .next t ∧ (t.chan ch).owed = (s.chan ch).owed - 1 ∧ (t.chan ch).openRows = [] ∧
      (t.chan ch).requests = (s.chan ch).requests ∧
      t.outputs = s.outputs ++ (if (s.chan ch).openRows = [] then [] else [.dram ch "PREA" 0]) ++
        (List.range (1 + s.rd F.DMC_CFG.RANKS)).map (fun r => Output.dram ch "REF" r) ∧
      State.frame [.dram, .outputs] [(F.DMC_RT_CFG.PANIC_CNT, 0)] s t) ∧
  (∀ (s : State) (ch : Nat), s.chanServes ch = false → exec (.dramCommandIssue ch []) s = .next s) ∧
  (∀ (s u : State) (ch : Nat) (strikes : List (Nat × Nat)), exec (.dramCommandIssue ch []) s = .next u →
    exec (.dramCommandIssue ch strikes) s = .next (u.strikeDram ch strikes [] [])) ∧
  (∀ (s : State) (ch due : Nat), s.chanLives ch = true → s.rd F.DMC_CH_STATUS.UP ch = 1 → s.rd F.DMC_FREQ_STATUS.STATE ≠ 2 →
    due = (s.chan ch).refreshedAt + ns (if s.rd F.DMC_TEMP.STALE = 1 ∨ 85 < s.dramTemp then 3900 else 7800) → due < 2 ^ 80 →
    ∃ t, exec (.refresh ch) s = .next t ∧ t.now = max s.now due ∧
      (t.chan ch).owed = (if (s.chan ch).owed < 8 then (s.chan ch).owed + 1 else (s.chan ch).owed) ∧
      (t.chan ch).refreshedAt = max due (s.chan ch).refreshedAt ∧ (∀ k, k ≠ ch → t.chan k = s.chan k) ∧
      ((s.chan ch).owed < 8 → t.outputs = s.outputs) ∧ State.frame [.dram, .frc, .outputs] [] s t) ∧
  (∀ (s : State) (v : Nat), s.takes .DMC_TEMP = true →
    ∃ t, exec (.tempWrite v) s = .next t ∧ t.rd F.DMC_TEMP.TEMP = v % 256 ∧ t.rd F.DMC_TEMP.STALE = 0 ∧ t.dram.tempAt = s.now ∧
      (95 < (BitVec.ofNat 8 v).toInt → t.rd F.DMC_TEMP.HOT = 1 ∧ t.host.raised = s.host.raised ++ [5]) ∧
      ((BitVec.ofNat 8 v).toInt ≤ 95 → t.rd F.DMC_TEMP.HOT = s.rd F.DMC_TEMP.HOT ∧ t.host = s.host) ∧
      State.frame [.dram, .host] [(F.DMC_TEMP.TEMP, 0), (F.DMC_TEMP.STALE, 0), (F.DMC_TEMP.HOT, 0)] s t) ∧
  (∀ (s : State), s.rd F.DMC_TEMP.STALE = 0 → s.dram.tempAt + ms 2000 < 2 ^ 80 →
    ∃ t, exec .tempStale s = .next t ∧ t.rd F.DMC_TEMP.STALE = 1 ∧ t.now = max s.now (s.dram.tempAt + ms 2000) ∧
      t.host = { s.host with raised := s.host.raised ++ [5] } ∧ State.frame [.frc, .host] [(F.DMC_TEMP.STALE, 0)] s t)) ∧
  ((∀ (s : State) (ch : Nat), (s.chan ch).inFlight = [] → exec (.dramReadReturn ch [] [] []) s = .next s) ∧
  (∀ (s : State) (ch : Nat) (dq cb : List (Nat × Nat)) (fails : List Nat),
    exec (.dramReadReturn ch dq cb fails) s = exec (.dramReadReturn ch [] [] []) (s.strikeDram ch dq cb fails)) ∧
  (∀ (s : State) (ch : Nat) (r : Req) (rest : List Req), (s.chan ch).inFlight = r :: rest → s.rd F.DMC_CH_STATUS.LOST ch = 0 →
    (∀ a ∈ burstWords r.addr, s.wordError ch a = 0) →
    (r.for_ = .nothing → exec (.dramReadReturn ch [] [] []) s = .next (s.setChan ch { s.chan ch with inFlight := rest })) ∧
    (∀ (k : Nat) (p : Pkt), s.pkt k = some p → r.for_ = .copy k →
      ∃ t, exec (.dramReadReturn ch [] [] []) s = .next t ∧ (t.chan ch).inFlight = rest ∧ t.pkt k = some { p with reads := p.reads - 1 } ∧
        (∀ n, n ≠ k → t.pkt n = s.pkt n) ∧ State.frame [.dram, .pkts] [] s t) ∧
    (∀ (k : Nat) (p : Pkt), s.pkt k = some p → r.for_ = .serve k → 1 < p.reads →
      ∃ t, exec (.dramReadReturn ch [] [] []) s = .next t ∧ (t.chan ch).inFlight = rest ∧ t.pkt k = some { p with reads := p.reads - 1 } ∧
        (∀ n, n ≠ k → t.pkt n = s.pkt n) ∧ State.frame [.dram, .pkts] [(F.DMC_RT_CFG.PANIC_CNT, 0)] s t) ∧
    (∀ (k : Nat) (p : Pkt), s.pkt k = some p → r.for_ = .serve k → p.reads = 1 → p.spoilt = false → k ∉ s.fab.building →
      ∃ t, exec (.dramReadReturn ch [] [] []) s = .next t ∧ (t.chan ch).inFlight = rest ∧
        t.pkt k = some { p with reads := 0, data := s.getOctets p.dram p.length, dram := [], loc := .seamDown } ∧
        (∀ n, n ≠ k → t.pkt n = s.pkt n) ∧
        State.touches [.badWords, .dram, .easel, .host, .palette, .pkts] (.DMC_RT_CFG :: bufferRegs) s t) ∧
    (∀ (k : Nat) (p : Pkt), s.pkt k = some p → r.for_ = .serve k → p.reads = 1 → p.spoilt = true →
      ∃ t, exec (.dramReadReturn ch [] [] []) s = .next t ∧ t.pkt k = none ∧ (∀ n, n ≠ k → t.pkt n = s.pkt n) ∧
        (∀ j, j ≠ 771 → t.pair j = s.pair j) ∧ t.pair 771 = (s.pair 771).plus p.length)) ∧
  (∀ (s : State) (ch a x : Nat) (r : Req) (rest : List Req), (s.chan ch).inFlight = r :: rest → s.chanLives ch = true →
    s.rd F.DMC_CH_STATUS.LOST ch = 0 → r.for_ = .nothing → r.stale = false → s.dram.log.length < 32 → a ∈ burstWords r.addr →
    symbolsHit (s.wordError ch a) = [x] → (∀ b ∈ burstWords r.addr, b ≠ a → s.wordError ch b = 0) →
    ∃ t, exec (.dramReadReturn ch [] [] []) s = .next t ∧ t.rd F.DMC_CH_STATUS.CE_CNT ch = min (s.rd F.DMC_CH_STATUS.CE_CNT ch + 1) 65535 ∧
      t.dram.log = s.dram.log ++ [s.errEntry 0 ch x (s.place a)] ∧
      (∃ q ∈ (t.chan ch).requests, q.write = true ∧ q.addr / 64 = r.addr / 64) ∧ (t.chan ch).inFlight = rest ∧
      (∀ k, k ≠ ch → t.chan k = s.chan k) ∧
      State.touches [.dram, .easel, .host, .palette] [.DMC_CH_STATUS, .DMC_ERR_LOG] s t) ∧
  (∀ (s : State) (ch a x y : Nat) (r : Req) (rest : List Req), (s.chan ch).inFlight = r :: rest → s.rd F.DMC_CH_STATUS.LOST ch = 0 →
    s.dram.log.length < 32 → a ∈ burstWords r.addr → symbolsHit (s.wordError ch a) = [x, y] →
    (∀ b ∈ burstWords r.addr, b ≠ a → s.wordError ch b = 0) →
    ∃ t l, exec (.dramReadReturn ch [] [] []) s = .next t ∧ t.rd F.DMC_CH_STATUS.UE_CNT ch = min (s.rd F.DMC_CH_STATUS.UE_CNT ch + 1) 65535 ∧
      t.rd F.DMC_CH_STATUS.CE_CNT ch = s.rd F.DMC_CH_STATUS.CE_CNT ch ∧
      t.dram.log = s.dram.log ++ [s.errEntry 1 ch 31 (s.place a)] ∧ t.host.raised = s.host.raised ++ l ∧ 5 ∈ l ∧
      (∀ k p, r.for_ = .serve k → s.pkt k = some p → p.reads = 1 → t.pkt k = none) ∧
      (∀ k p, r.for_ = .serve k → s.pkt k = some p → 1 < p.reads → t.pkt k = some { p with reads := p.reads - 1, spoilt := true })) ∧
  (∀ (s : State) (ch : Nat) (r : Req) (rest : List Req), (s.chan ch).inFlight = r :: rest → s.rd F.DMC_CH_STATUS.LOST ch = 1 →
    (∀ a ∈ burstWords r.addr, (symbolsHit (s.wordError ch a)).length < 3) →
    ∃ t, exec (.dramReadReturn ch [] [] []) s = .next t ∧ t.rd F.DMC_CH_STATUS.UE_CNT ch = min (s.rd F.DMC_CH_STATUS.UE_CNT ch + 8) 65535 ∧
      (t.chan ch).inFlight.map (·.addr) = rest.map (·.addr) ∧ (∀ k p, r.for_ = .serve k → s.pkt k = some p → p.reads = 1 → t.pkt k = none))) ∧
  ((∀ (s : State) (ch a e : Nat), ch < 16 → s.rd F.DMC_ERR_CFG.SCRUB_PERIOD = 0 →
    (∃ t, exec (.patrolScrub ch [(a, e)] [] []) s = .next t ∧
      Sparse.read 0 t.dram.struck (wordKey ch (a % s.chanBytes)) =
        Nat.xor (Sparse.read 0 s.dram.struck (wordKey ch (a % s.chanBytes))) (e % 2 ^ 64) ∧
      t.dram.dead = s.dram.dead ∧ (∀ k, t.chan k = s.chan k) ∧ State.frame [.dram] [] s t) ∧
    (∃ t, exec (.patrolScrub ch [] [(a, e)] []) s = .next t ∧
      Sparse.read 0 t.dram.struck (wordKey ch (a % s.chanBytes)) =
        Nat.xor (Sparse.read 0 s.dram.struck (wordKey ch (a % s.chanBytes))) (e % 2 ^ 16 * 2 ^ 64) ∧
      t.dram.dead = s.dram.dead ∧ (∀ k, t.chan k = s.chan k) ∧ State.frame [.dram] [] s t)) ∧
  (∀ (s : State) (ch d : Nat), ch < 16 → d < (if s.rd F.DMC_CFG.DEV_WIDTH = 1 then 10 else 20) → s.rd F.DMC_ERR_CFG.SCRUB_PERIOD = 0 → s.dram.dead = [] →
    ∃ t, exec (.patrolScrub ch [] [] [d]) s = .next t ∧ State.frame [.dram] [] s t ∧
      (∀ a, (s.place a).rank = 0 → Sparse.read 0 s.dram.struck (wordKey ch a) = 0 →
        symbolsHit (t.wordError ch a) = (if s.rd F.DMC_CFG.DEV_WIDTH = 1 then [2 * d, 2 * d + 1] else [d]))) ∧
  (∀ (s : State) (ch due : Nat), ch < 16 → s.chanServes ch = true → (s.chan ch).requests = [] → s.rd F.DMC_ERR_CFG.SCRUB_PERIOD ≠ 0 →
    (∀ a ∈ burstWords (s.chan ch).scrubPtr, s.wordError ch a = 0) → due < 2 ^ 80 →
    due = max (s.chan ch).scrubAt s.fab.startAt + ms (3600000 * s.rd F.DMC_ERR_CFG.SCRUB_PERIOD) / (s.chanBytes / 64) →
    ∃ t, exec (.patrolScrub ch [] [] []) s = .next t ∧ t.now = max s.now due ∧
      t.chan ch = { s.chan ch with scrubPtr := ((s.chan ch).scrubPtr + 64) % s.chanBytes, scrubAt := t.now } ∧
      (∀ k, k ≠ ch → t.chan k = s.chan k) ∧ State.frame [.dram, .frc] [] s t) ∧
  (∀ (s : State), s.takes .DMC_ERR_POP = true → ∃ t, exec .errPop s = .next t ∧ t.dram = { s.dram with log := s.dram.log.drop 1 } ∧
    t.reg .DMC_ERR_LOG 0 = (match s.dram.log.drop 1 with | e :: _ => e.zeroExtend 320 | [] => 0) ∧
    State.touches [.dram] [.DMC_ERR_LOG] s t) ∧
  (∀ (s : State) (ch cause : Nat), cause ≠ 1 → exec (.channelLost ch cause) s = .next s) ∧
  (∀ (s : State) (ch lim : Nat), s.chanLives ch = true → lim = s.rd F.DMC_ERR_CFG.UE_LOST →
    ((lim = 0 ∨ ((s.chan ch).ueAt.filter (fun t => decide (s.now < t + ms 1000))).length < lim) → exec (.channelLost ch 1) s = .next s) ∧
    (lim ≠ 0 → lim ≤ ((s.chan ch).ueAt.filter (fun t => decide (s.now < t + ms 1000))).length →
      ∃ t, exec (.channelLost ch 1) s = .next t ∧ t.rd F.DMC_CH_STATUS.LOST ch = 1 ∧ t.rd F.DMC_CH_STATUS.LOST_CAUSE ch = 1 ∧
        t.rd F.DMC_CH_STATUS.UP ch = 0 ∧ (t.chan ch).requests = [] ∧
        (t.chan ch).inFlight = (s.chan ch).inFlight ++ (s.chan ch).requests.filter (fun r => !r.write) ∧
        t.palette.rebuilding = true ∧ (∀ p ∈ t.palette.headCache ++ t.palette.pushCache, t.bufLost p = false) ∧
        t.host = { s.host with raised := s.host.raised ++ [5] } ∧
        (s.rd F.DMC_FREQ_STATUS.STATE ≠ 1 → (∀ k, k ≠ ch → t.chan k = s.chan k) ∧
          State.frame [.dram, .host, .palette] [(F.DMC_CH_STATUS.LOST, ch), (F.DMC_CH_STATUS.LOST_CAUSE, ch), (F.DMC_CH_STATUS.UP, ch),
            (F.DMC_CH_STATUS.TRAINING, ch), (F.PAL_FREE_CNT.COUNT, 1), (F.PAL_POOL_STATUS.HC_LEVEL, 1), (F.PAL_POOL_STATUS.PC_LEVEL, 1)] s t) ∧
        (s.rd F.DMC_FREQ_STATUS.STATE = 1 → s.rd F.DMC_CH_STATUS.TRAINING ch = 1 → t.rd F.DMC_FREQ_STATUS.STATE = 2))) ∧
  (∀ (s : State) (ch k : Nat), s.chanLives ch = true →
    ∃ t, exec (.caParityError ch k) s = .next t ∧
      t.rd F.DMC_CH_STATUS.PARITY_CNT ch = min (s.rd F.DMC_CH_STATUS.PARITY_CNT ch + (1 + min k 16)) 65535 ∧
      t.rd F.DMC_CH_STATUS.LOST ch = (if 16 ≤ k then 1 else 0) ∧ (16 ≤ k → t.rd F.DMC_CH_STATUS.LOST_CAUSE ch = 2) ∧
      (k < 16 → State.touches [.dram, .host] [.DMC_CH_STATUS, .DMC_ERR_LOG] s t) ∧
      State.touches [.dram, .host, .outputs, .palette]
        [.DMC_CH_STATUS, .DMC_ERR_LOG, .DMC_FREQ_STATUS, .PAL_FREE_CNT, .PAL_POOL_STATUS] s t))

/-- R351, R352, R356, R357: full training brings up every channel it does not fail on; a periodic pass takes its steps one by one; a
change of frequency waits for a step in progress, whose result is discarded, goes through SWITCHING to TRAINING, and ends at the new speed
with DONE, or at the old one in state 4; a speed the population does not allow is refused. -/
def Obligations.DramTrainingAndFrequencyChange : Prop :=
  (∀ (s : State) (failed : List Nat) (ch : Nat), (s.rd F.DMC_FREQ_STATUS.STATE = 0 ∨ s.rd F.DMC_FREQ_STATUS.STATE = 4) →
    s.chanLives ch = true → s.rd F.DMC_CH_STATUS.UP ch = 0 →
    ∃ t, exec (.fullTraining failed) s = .next t ∧ t.rd F.DMC_CH_STATUS.UP ch = (if ch ∈ failed then 0 else 1) ∧
      t.rd F.DMC_CH_STATUS.TRAINING ch = 0 ∧ t.rd F.DMC_CH_STATUS.LOST ch = (if ch ∈ failed then 1 else 0) ∧
      (ch ∉ failed → t.rd F.DMC_CH_STATUS.TEMP_AT_TRAIN ch = s.rd F.DMC_TEMP.TEMP) ∧
      (∀ k, s.rd F.DMC_CH_STATUS.UP k = 1 → t.rd F.DMC_CH_STATUS.UP k = 1 ∧ t.chan k = s.chan k) ∧
      State.touches [.dram, .host, .outputs, .palette]
        [.DMC_CH_STATUS, .DMC_ERR_LOG, .DMC_FREQ_STATUS, .PAL_FREE_CNT, .PAL_POOL_STATUS] s t) ∧
  (∀ (s : State) (ch : Nat), s.chanLives ch = true → s.rd F.DMC_CH_STATUS.UP ch = 1 → s.training = false →
    (s.rd F.DMC_FREQ_STATUS.STATE = 0 ∨ s.rd F.DMC_FREQ_STATUS.STATE = 4) →
    (0 < (s.chan ch).steps → ∃ t, exec (.periodicTrainingStep ch) s = .next t ∧ t.rd F.DMC_CH_STATUS.TRAINING ch = 1 ∧
      t.chan ch = s.chan ch ∧ State.frame [.dram] [(F.DMC_CH_STATUS.TRAINING, ch)] s t) ∧
    ((s.chan ch).steps = 0 → s.tempMoved ch = true →
      ∃ t, exec (.periodicTrainingStep ch) s = .next t ∧ t.rd F.DMC_CH_STATUS.TRAINING ch = 1 ∧
        t.chan ch = { s.chan ch with
          steps := 4, periodicAt := if (s.chan ch).periodicAt + ms 128 ≤ s.now then s.now else (s.chan ch).periodicAt } ∧
        State.frame [.dram] [(F.DMC_CH_STATUS.TRAINING, ch)] s t) ∧
    ((s.chan ch).steps = 0 → s.tempMoved ch = false → s.rd F.DMC_TRAIN_CFG.PERIODIC_EN = 1 →
      (s.chan ch).periodicAt + ms 128 < 2 ^ 80 →
      ∃ t, exec (.periodicTrainingStep ch) s = .next t ∧ t.rd F.DMC_CH_STATUS.TRAINING ch = 1 ∧
        t.now = max s.now ((s.chan ch).periodicAt + ms 128) ∧ t.chan ch = { s.chan ch with steps := 2, periodicAt := t.now } ∧
        State.frame [.dram, .frc] [(F.DMC_CH_STATUS.TRAINING, ch)] s t)) ∧
  (∀ (s : State) (ch : Nat), s.rd F.DMC_CH_STATUS.TRAINING ch = 1 →
    ((s.rd F.DMC_FREQ_STATUS.STATE = 0 ∨ s.rd F.DMC_FREQ_STATUS.STATE = 4) →
      ∃ t, exec (.trainingStepEnd ch) s = .next t ∧ t.rd F.DMC_CH_STATUS.TRAINING ch = 0 ∧
        t.chan ch = { s.chan ch with steps := (s.chan ch).steps - 1 } ∧
        ((s.chan ch).steps ≤ 1 → t.rd F.DMC_CH_STATUS.TEMP_AT_TRAIN ch = s.rd F.DMC_TEMP.TEMP) ∧
        State.frame [.dram] [(F.DMC_CH_STATUS.TRAINING, ch), (F.DMC_CH_STATUS.TEMP_AT_TRAIN, ch)] s t) ∧
    (s.rd F.DMC_FREQ_STATUS.STATE = 1 →
      ∃ t, exec (.trainingStepEnd ch) s = .next t ∧ t.rd F.DMC_CH_STATUS.TRAINING ch = 0 ∧ t.rd F.DMC_FREQ_STATUS.STATE = 2 ∧
        t.rd F.DMC_FREQ_STATUS.DISCARDS = min (s.rd F.DMC_FREQ_STATUS.DISCARDS + 1) 65535 ∧
        State.touches [.dram, .outputs] [.DMC_CH_STATUS, .DMC_FREQ_STATUS] s t)) ∧
  (∀ (s : State) (v : Nat), v < 4 → s.takes .DMC_FREQ_CTRL = true →
    (s.speedOk v = false → ∃ t, exec (.freqGo v) s = .next t ∧ t.rd F.DMC_FREQ_STATUS.REFUSED = 1 ∧
      t.host = { s.host with raised := s.host.raised ++ [5] } ∧
      State.frame [.host] [(F.DMC_FREQ_CTRL.TARGET, 0), (F.DMC_FREQ_STATUS.REFUSED, 0)] s t) ∧
    (s.speedOk v = true → (s.rd F.DMC_FREQ_STATUS.STATE = 0 ∨ s.rd F.DMC_FREQ_STATUS.STATE = 4) →
      v = s.rd F.DMC_FREQ_STATUS.CURRENT →
      ∃ t, exec (.freqGo v) s = .next t ∧ t.rd F.DMC_FREQ_STATUS.DONE = 1 ∧ t.rd F.DMC_FREQ_STATUS.STATE = 0 ∧
        State.frame [.host] [(F.DMC_FREQ_CTRL.TARGET, 0), (F.DMC_FREQ_STATUS.DONE, 0), (F.DMC_FREQ_STATUS.STATE, 0)] s t) ∧
    (s.speedOk v = true → (s.rd F.DMC_FREQ_STATUS.STATE = 0 ∨ s.rd F.DMC_FREQ_STATUS.STATE = 4) →
      v ≠ s.rd F.DMC_FREQ_STATUS.CURRENT →
      ∃ t, exec (.freqGo v) s = .next t ∧ t.rd F.DMC_FREQ_STATUS.PENDING = v ∧
        t.rd F.DMC_FREQ_STATUS.STATE = (if s.training then 1 else 2) ∧
        t.rd F.DMC_FREQ_STATUS.CURRENT = s.rd F.DMC_FREQ_STATUS.CURRENT ∧
        State.touches [.dram, .outputs] [.DMC_FREQ_CTRL, .DMC_FREQ_STATUS, .DMC_CH_STATUS] s t) ∧
    (s.speedOk v = true → (s.rd F.DMC_FREQ_STATUS.STATE = 1 ∨ s.rd F.DMC_FREQ_STATUS.STATE = 2) →
      ∃ t, exec (.freqGo v) s = .next t ∧ t.rd F.DMC_FREQ_STATUS.PENDING = v ∧
        State.frame [] [(F.DMC_FREQ_CTRL.TARGET, 0), (F.DMC_FREQ_STATUS.PENDING, 0)] s t) ∧
    (s.speedOk v = true → s.rd F.DMC_FREQ_STATUS.STATE = 3 →
      ∃ t, exec (.freqGo v) s = .next t ∧ t.rd F.DMC_FREQ_STATUS.PENDING = v ∧ t.dram = { s.dram with goHeld := true } ∧
        State.frame [.dram] [(F.DMC_FREQ_CTRL.TARGET, 0), (F.DMC_FREQ_STATUS.PENDING, 0)] s t)) ∧
  (∀ (s : State), s.rd F.DMC_FREQ_STATUS.STATE = 2 → (∀ ch, ch < 16 → s.chanLives ch = true → (s.chan ch).inFlight = []) →
    ∃ t, exec .freqSwitchComplete s = .next t ∧ t.rd F.DMC_FREQ_STATUS.STATE = 3 ∧
      (∀ ch, s.chanLives ch = true → t.rd F.DMC_CH_STATUS.TRAINING ch = 1 ∧ (t.chan ch).openRows = []) ∧
      t.outputs = s.outputs ++ (s.channels.filter s.chanLives).map (fun ch => Output.dram ch "SRX" 0) ∧
      State.touches [.dram, .outputs] [.DMC_CH_STATUS, .DMC_FREQ_STATUS] s t) ∧
  (∀ (s : State) (bad : List Nat), s.rd F.DMC_FREQ_STATUS.STATE = 3 → s.dram.goHeld = false → s.rd F.TLY_CNT_ACC.BUSY = 0 →
    (bad = [] → ∃ t, exec (.freqTrainingComplete bad []) s = .next t ∧ t.rd F.DMC_FREQ_STATUS.STATE = 0 ∧
      t.rd F.DMC_FREQ_STATUS.CURRENT = s.rd F.DMC_FREQ_STATUS.PENDING ∧ t.rd F.DMC_FREQ_STATUS.PENDING = 0 ∧
      t.rd F.DMC_FREQ_STATUS.DONE = 1 ∧ (∀ ch, s.chanLives ch = true → t.rd F.DMC_CH_STATUS.UP ch = 1) ∧
      t.host.raised = s.host.raised ++ [5] ∧ State.touches [.dram, .host, .outputs] [.DMC_CH_STATUS, .DMC_FREQ_STATUS] s t) ∧
    ((∃ ch ∈ bad, s.chanLives ch = true) →
      ∃ t, exec (.freqTrainingComplete bad []) s = .next t ∧ t.rd F.DMC_FREQ_STATUS.STATE = 4 ∧
        t.rd F.DMC_FREQ_STATUS.CURRENT = s.rd F.DMC_FREQ_STATUS.CURRENT ∧ t.rd F.DMC_FREQ_STATUS.PENDING = 0 ∧
        (∀ ch, s.chanLives ch = true → t.rd F.DMC_CH_STATUS.UP ch = 1) ∧
        State.touches [.dram, .host, .outputs] [.DMC_CH_STATUS, .DMC_ERR_LOG, .DMC_FREQ_STATUS] s t)) ∧
  (∀ (s : State) (bad : List Nat) (ch : Nat), s.rd F.DMC_FREQ_STATUS.STATE = 3 → s.dram.goHeld = false → ch ∈ bad → s.chanLives ch = true →
    s.rd F.TLY_CNT_ACC.BUSY = 0 →
    ∃ t, exec (.freqTrainingComplete bad bad) s = .next t ∧ t.rd F.DMC_CH_STATUS.LOST ch = 1 ∧ t.rd F.DMC_CH_STATUS.LOST_CAUSE ch = 0 ∧
      t.rd F.DMC_FREQ_STATUS.STATE = 0 ∧ t.rd F.DMC_FREQ_STATUS.DONE = 1 ∧
      State.touches [.dram, .host, .outputs, .palette]
        [.DMC_CH_STATUS, .DMC_ERR_LOG, .DMC_FREQ_STATUS, .PAL_FREE_CNT, .PAL_POOL_STATUS] s t)

/-- R360, R361, R364, R372 to R376, R384, R385: a lane that locks is up and one that is lost is down, counted and reported; FAB_LANE_EN
takes its value and each lane it turns off goes down; a link-control Swatch says who the neighbour is; a Swatch whose check fails is
discarded and counted; each slot carries the oldest Swatch that waits, those relayed first, or says something of the link. -/
def Obligations.LanesComeUpSpeakAndGoDown : Prop :=
  (∀ (s : State) (l : Nat), l < 96 → s.fabMode ≠ 0 → s.laneEn l = true →
    ∃ t, exec (.laneLock l) s = .next t ∧ t.rd F.FAB_LANE_STATUS.UP l = 1 ∧
      (∀ k, k ≠ l → t.rd F.FAB_LANE_STATUS.UP k = s.rd F.FAB_LANE_STATUS.UP k) ∧
      State.touches [.fab, .host] [.FAB_DEST_STATUS, .FAB_ERR_CNT, .FAB_LANE_STATUS, .TLY_SAMP_CFG, .TLY_SAMP_CNT] s t) ∧
  (∀ (s : State) (l : Nat), l < 96 → s.rd F.FAB_LANE_STATUS.UP l = 1 →
    ∃ t m, exec (.laneDown l) s = .next t ∧ t.rd F.FAB_LANE_STATUS.UP l = 0 ∧ t.rd F.FAB_LANE_STATUS.DOWN_CHG l = 1 ∧
      t.rd F.FAB_LANE_STATUS.DOWN_CNT l = min (s.rd F.FAB_LANE_STATUS.DOWN_CNT l + 1) 65535 ∧ (t.lane l).heard = false ∧
      t.host.raised = s.host.raised ++ m ∧ 12 ∈ m ∧ (∀ k, k ≠ l → t.rd F.FAB_LANE_STATUS.UP k = s.rd F.FAB_LANE_STATUS.UP k) ∧
      State.touches [.fab, .host] [.FAB_DEST_STATUS, .FAB_ERR_CNT, .FAB_LANE_STATUS, .TLY_SAMP_CFG, .TLY_SAMP_CNT] s t) ∧
  (∀ (s : State) (w v : Nat), w < 2 → s.takes .FAB_LANE_EN = true →
    ∃ t, exec (.laneEnWrite w v) s = .next t ∧ t.rd F.FAB_LANE_EN.EN w = v % 2 ^ (if w = 0 then 64 else 32) ∧
      (∀ i, i < 64 → 64 * w + i < 96 → s.laneEn (64 * w + i) = true → v.testBit i = false → t.rd F.FAB_LANE_STATUS.UP (64 * w + i) = 0) ∧
      (∀ i, i < 64 → 64 * w + i < 96 → v.testBit i = true →
        t.rd F.FAB_LANE_STATUS.UP (64 * w + i) = s.rd F.FAB_LANE_STATUS.UP (64 * w + i)) ∧
      State.touches [.fab, .host] [.FAB_DEST_STATUS, .FAB_ERR_CNT, .FAB_LANE_EN, .FAB_LANE_STATUS, .TLY_SAMP_CFG, .TLY_SAMP_CNT] s t) ∧
  (∀ (s : State) (l : Nat) (o : List Byte) (w : Swatch), l < 96 → s.fabMode ≠ 0 → s.laneEn l = true →
    s.rd F.FAB_LANE_STATUS.UP l = 1 → w = swatchOf o → w.good = true → w.kind = 3 → w.cls < 2 →
    ∃ t, exec (.linkControlReceive l o) s = .next t ∧ t.rd F.FAB_LANE_STATUS.NBR_NODE l = w.src ∧
      t.rd F.FAB_LANE_STATUS.NBR_PORT l = w.dst ∧ t.on F.FAB_LANE_STATUS.NBR_ELEMENT l = w.first ∧ (t.lane l).heard = true ∧
      (w.cls = 1 → (s.lane l).lastMsg = none → (t.lane l).lastMsg = some w.seq ∧
        ∀ d, d < 2048 → (t.lane l).bits.testBit d = (natBE w.payload).testBit (2047 - d)) ∧
      State.touches [.fab, .host] [.FAB_DEST_STATUS, .FAB_ERR_CNT, .FAB_LANE_STATUS, .TLY_SAMP_CFG, .TLY_SAMP_CNT] s t) ∧
  (∀ (s : State) (l : Nat) (o : List Byte) (e : Instr), e ∈ [Instr.swatchReceive l o, .creditSwatchReceive l o, .linkControlReceive l o] →
    l < 96 → s.fabMode ≠ 0 → s.laneEn l = true → s.rd F.FAB_LANE_STATUS.UP l = 1 → (swatchOf o).good = false →
    ∃ t, exec e s = .next t ∧ t.rd F.FAB_ERR_CNT.COUNT 0 = (s.rd F.FAB_ERR_CNT.COUNT 0 + 1) % 2 ^ 64 ∧
      State.touches [.host] [.FAB_ERR_CNT, .TLY_SAMP_CFG, .TLY_SAMP_CNT] s t) ∧
  (∀ (s : State), s.fabMode ≠ 0 → s.fab.reachAt + us 100 < 2 ^ 80 →
    ∃ t, exec .reachabilitySend s = .next t ∧ t.now = max s.now (s.fab.reachAt + us 100) ∧ t.fab.reachAt = t.now ∧
      t.fab.deliver = s.canDeliver ∧ (∀ l, l < 96 → s.laneEn l = true → (t.lane l).reach = true) ∧ State.frame [.fab, .frc] [] s t) ∧
  (∀ (s : State) (l : Nat) (w : Swatch) (ws : List Swatch), l < 96 → s.fabMode ≠ 0 → s.laneEn l = true → s.fabSpeaks = true →
    s.halted = false →
    ((s.lane l).pos ≠ 19 → (s.lane l).relayData = w :: ws →
      ∃ t, exec (.slotTransmit l) s = .next t ∧ t.outputs = s.outputs ++ [.swatch l w.octets] ∧
        t.lane l = { s.lane l with pos := ((s.lane l).pos + 1) % 20, relayData := ws } ∧ State.frame [.fab, .outputs] [] s t) ∧
    ((s.lane l).pos = 19 → (s.lane l).relayCred = w :: ws →
      ∃ t, exec (.slotTransmit l) s = .next t ∧ t.outputs = s.outputs ++ [.swatch l w.octets] ∧
        t.lane l = { s.lane l with pos := 0, relayCred := ws } ∧ State.frame [.fab, .outputs] [] s t) ∧
    ((s.lane l).pos ≠ 19 → (s.lane l).relayData = [] → (s.lane l).tx = w :: ws → s.fab.again = [] → s.fab.building = [] →
      ∃ t, exec (.slotTransmit l) s = .next t ∧ t.outputs = s.outputs ++ [.swatch l w.octets] ∧
        t.lane l = { s.lane l with pos := ((s.lane l).pos + 1) % 20, tx := ws } ∧ State.frame [.fab, .outputs] [] s t) ∧
    ((s.lane l).pos = 19 → (s.lane l).relayCred = [] → (s.lane l).credits = w :: ws →
      ∃ t, exec (.slotTransmit l) s = .next t ∧ t.outputs = s.outputs ++ [.swatch l w.octets] ∧
        t.lane l = { s.lane l with pos := 0, credits := ws } ∧ State.frame [.fab, .outputs] [] s t)) ∧
  (∀ (s : State) (l : Nat), l < 96 → s.fabMode ≠ 0 → s.laneEn l = true → (s.fabSpeaks = false ∨ s.halted = true) →
    ∃ t, exec (.slotTransmit l) s = .next t ∧
      t.outputs = s.outputs ++ [.swatch l (if (s.lane l).pos = 19 then (s.linkControl l (if (s.lane l).reach then 1 else 0)).octets
        else Swatch.octets ⟨checked (hdrHead 1 s.own 0), []⟩)] ∧ (t.lane l).pos = ((s.lane l).pos + 1) % 20 ∧ (t.lane l).tx = (s.lane l).tx ∧
      State.frame [.fab, .outputs] [] s t)

/-- R31, R266, R319, R365 to R369, R376 to R382: a VOQ with credit sends its oldest packet as Swatches and pays for them; each unit of
credit issued is one more of CUM, and a credit message adds to its VOQ what is new, up to the cap; a packet of one Swatch in sequence is
released to the enqueue, one too late is discarded, and a gap is given up at its deadline; a destination unreachable for UNREACH is
flushed. -/
def Obligations.SwatchesCreditsAndStreams : Prop :=
  (∀ (s : State) (d c k q : Nat) (rest : List Nat) (p : Pkt) (x : Cand), s.fabSpeaks = true → s.halted = false →
    s.fab.again = [] → s.fab.building = [] → pick s.classCands = some x → x.idx = c →
    d = ((s.classDests c).find? (fun d => decide (Sparse.read 0 s.sched.lastMod c < d))).getD ((s.classDests c).headD 0) →
    q = voqBase + 8 * d + c → (s.queue q).head = k :: rest → (s.queue q).copies = [] → s.pkt k = some p →
    p.voq = 8 * d + c → swatchCount p.length ≤ 8 →
    ∃ t, exec (.voqDequeue []) s = .next t ∧ t.pkt k = none ∧ (∀ m, m ≠ k → t.pkt m = s.pkt m) ∧
      (t.queue q).depth = (s.queue q).depth - p.length ∧
      (t.queue q).cred = (s.queue q).cred - ((256 * swatchCount p.length : Nat) : Int) ∧
      (t.queue q).packets = (s.queue q).packets.filter (· != k) ∧ (∀ j, j ≠ q → t.queue j = s.queue j) ∧
      Sparse.read 0 t.sched.lastMod c = d ∧
      t.fab.building = [] ∧ Sparse.read 0 t.fab.seqs p.voq = (Sparse.read 0 s.fab.seqs p.voq + swatchCount p.length) % 65536 ∧
      State.touches [.badWords, .dram, .easel, .fab, .host, .inflightA, .inflightB, .outputs, .palette, .pkts, .sched, .tally]
        (traceRegs ++ bufferRegs) s t) ∧
  (∀ (s : State), (s.fabSpeaks = false ∨ s.halted = true) → exec (.voqDequeue []) s = .next s) ∧
  (∀ (s : State) (words : List (Nat × Bool)), exec (.voqDequeue words) s = exec (.voqDequeue []) (s.strikeCanvas words)) ∧
  (∀ (s : State) (d c : Nat), d < 2048 → c < 8 → d ≠ s.own → s.fabSpeaks = true → s.peerMarked d = true →
    s.rd F.FAB_DEST_STATUS.EPOCH_KNOWN d = 1 → (s.stream (8 * d + c)).out < s.rd F.FAB_CRED_CFG.WINDOW c →
    s.rd F.PAL_CLASS_STATUS.USED 2 ≤ s.rd F.FAB_RX_CFG.STOP_LEVEL →
    ∃ t, exec (.creditIssue d c) s = .next t ∧
      t.stream (8 * d + c) =
        { s.stream (8 * d + c) with cum := (s.stream (8 * d + c)).cum + 1, out := (s.stream (8 * d + c)).out + 1 } ∧
      (∀ k, k ≠ 8 * d + c → t.stream k = s.stream k) ∧ State.frame [.fab] [] s t) ∧
  (∀ (s : State) (due : Nat), due = s.fab.refreshAt + us (s.rd F.FAB_RX_CFG.REFRESH) → due < 2 ^ 80 →
    ∃ t, exec .creditRefresh s = .next t ∧ t.now = max s.now due ∧ t.fab.refreshAt = t.now ∧ t.fab.streams = s.fab.streams ∧
      State.frame [.fab, .frc] [] s t) ∧
  (∀ (s : State) (l d m st : Nat) (o : List Byte) (w : Swatch) (diff : BitVec 32), l < 96 → s.fabMode ≠ 0 → s.laneEn l = true →
    s.rd F.FAB_LANE_STATUS.UP l = 1 → w = swatchOf o → w.good = true → w.kind = 2 → w.dst = s.own → w.src = d →
    s.rd F.FAB_DEST_STATUS.EPOCH_KNOWN d = 1 → s.rd F.FAB_DEST_STATUS.PEER_EPOCH d = natBE (w.payload.take 1) →
    natBE ((w.payload.drop 1).take 1) = 1 → m = natBE ((w.payload.drop 8).take 8) → bitsOf m 52 8 = s.rd F.FAB_CFG.EPOCH →
    st = 8 * d + bitsOf m 61 3 → diff = BitVec.ofNat 32 m - Sparse.read 0 s.fab.lasts st → diff.msb = false →
    ∃ t, exec (.creditSwatchReceive l o) s = .next t ∧
      (let cap : Int := 4096 * s.rd F.SCH_VOQ_CREDIT_CFG.CRED_MAX
       let total : Int := (s.queue (voqBase + st)).cred + 4096 * diff.toNat
       (t.queue (voqBase + st)).cred = if cap < total then max cap (s.queue (voqBase + st)).cred else total) ∧
      Sparse.read 0 t.fab.lasts st = BitVec.ofNat 32 m ∧ (∀ q, q ≠ voqBase + st → t.queue q = s.queue q) ∧
      (s.rd F.FAB_DEST_STATUS.REACHABLE d = 1 → t.rd F.FAB_DEST_STATUS.UNREACH_FLUSH d = 0) ∧
      State.touches [.fab, .sched] [.FAB_DEST_STATUS, .SCH_STATUS] s t) ∧
  (∀ (s : State) (l st off : Nat) (o : List Byte) (w : Swatch), l < 96 → s.fabMode ≠ 0 → s.halted = false → s.laneEn l = true →
    s.rd F.FAB_LANE_STATUS.UP l = 1 → w = swatchOf o → w.good = true → w.kind = 0 → w.dst = s.own → st = 8 * w.src + w.cls →
    s.rd F.FAB_DEST_STATUS.EPOCH_KNOWN w.src = 1 → off = (s.stream st).off w.seq →
    (∀ s1 p, off = 0 → w.first = true → w.last = true → (s.stream st).held = [] → s.reorderUsed < 131072 →
      s.palAlloc 2 3 0 = (s1, some p) →
      ∃ t r, exec (.swatchReceive l o) s = .next t ∧ t.pkt s.nextPkt = some r ∧ r.data = w.payload.take (w.fill + 1) ∧
        r.loc = .enqueueIn ∧ r.fate = .forward ∧ r.canvas = [p] ∧ r.err = w.err ∧ r.carry.queue = bitsOf w.hdr 44 20 ∧
        (∀ n, n ≠ s.nextPkt → t.pkt n = s.pkt n) ∧ t.nextPkt = s.nextPkt + 1 ∧
        (t.stream st).e = ((s.stream st).e + 1) % 65536 ∧ (t.stream st).held = [] ∧
        t.rd F.FAB_STREAM_CNT.RELEASED st = (s.rd F.FAB_STREAM_CNT.RELEASED st + 1) % 2 ^ 64 ∧
        State.touches [.badWords, .dram, .easel, .fab, .host, .nextPkt, .palette, .pkts] ([.FAB_STREAM_CNT] ++ bufferRegs) s t) ∧
    (∀ s1, off < 8192 → (s.stream st).held.any (fun h => h.seq == w.seq) = false → s.reorderUsed < 131072 →
      s.palAlloc 2 3 0 = (s1, none) →
      ∃ t, exec (.swatchReceive l o) s = .next t ∧ t.rd F.FAB_ERR_CNT.COUNT 2 = (s.rd F.FAB_ERR_CNT.COUNT 2 + 1) % 2 ^ 64 ∧
        (t.stream st).held = (s.stream st).held ∧ (∀ n, t.pkt n = s.pkt n) ∧
        State.touches [.fab, .host, .palette] [.FAB_ERR_CNT, .PAL_CLASS_STATUS, .TLY_SAMP_CFG, .TLY_SAMP_CNT] s t) ∧
    (32768 ≤ off →
      ∃ t, exec (.swatchReceive l o) s = .next t ∧ t.rd F.FAB_ERR_CNT.COUNT 7 = (s.rd F.FAB_ERR_CNT.COUNT 7 + 1) % 2 ^ 64 ∧
        t.rd F.FAB_STREAM_CNT.LATE st = (s.rd F.FAB_STREAM_CNT.LATE st + 1) % 2 ^ 64 ∧
        State.touches [.host] [.FAB_ERR_CNT, .FAB_STREAM_CNT, .TLY_SAMP_CFG, .TLY_SAMP_CNT] s t)) ∧
  (∀ (s : State) (src cls st due off : Nat) (h : Held), src < 2048 → cls < 8 → st = 8 * src + cls → (s.stream st).held = [h] →
    (s.stream st).refused = [] → (s.stream st).since ≠ none →
    (s.stream st).deadline = some due → due < 2 ^ 80 → h.sw.first = false → off = (s.stream st).off h.seq →
    ∃ t, exec (.gapRelease src cls) s = .next t ∧ t.now = max s.now due ∧ (t.stream st).held = [] ∧
      (t.stream st).e = ((s.stream st).e + (off + 1)) % 65536 ∧ (t.stream st).deadline = none ∧
      t.rd F.FAB_STREAM_CNT.GAP_RELEASES st = (s.rd F.FAB_STREAM_CNT.GAP_RELEASES st + 1) % 2 ^ 64 ∧
      t.rd F.FAB_STREAM_CNT.DISCARDED st = (s.rd F.FAB_STREAM_CNT.DISCARDED st + 1) % 2 ^ 64 ∧
      (∀ k, k ≠ st → t.stream k = s.stream k) ∧
      State.touches [.badWords, .dram, .easel, .fab, .frc, .host, .palette] ([.FAB_STREAM_CNT, .TLY_SAMP_CFG, .TLY_SAMP_CNT] ++ bufferRegs)
        s t) ∧
  (∀ (s : State) (d due : Nat), d < 2048 → d ≠ s.own → s.fabMode ≠ 0 → s.rd F.FAB_DEST_STATUS.REACHABLE d = 0 →
    d ∉ s.fab.gone → due = s.unreachSince d + us (s.rd F.FAB_RX_CFG.UNREACH) → due < 2 ^ 80 →
    ∃ t m, exec (.unreachExpiry d) s = .next t ∧ t.rd F.FAB_DEST_STATUS.UNREACH_FLUSH d = 1 ∧ t.now = max s.now due ∧
      t.host.raised = s.host.raised ++ m ++ [12] ∧
      (∀ c, c < 8 → (s.queue (voqBase + 8 * d + c)).state ≠ 0 →
        (t.queue (voqBase + 8 * d + c)).state = 3 ∧ (t.queue (voqBase + 8 * d + c)).packets = []) ∧
      t.fab = { s.fab with gone := s.fab.gone ++ [d] } ∧
      State.touches [.badWords, .dram, .easel, .fab, .frc, .host, .inflightA, .inflightB, .outputs, .palette, .pkts, .sched, .tally]
        ([.FAB_DEST_STATUS] ++ traceRegs ++ bufferRegs) s t)

/-- R392, R394, R395, R397, R409, R422, R423, R432: an enable of a tree, of an Alloc-ID entry or of a GEM entry is refused with CFG_ERR
and leaves EN at 0 where its rules do not allow it, and else takes the fields written; a write that changes a field that EN locks is
discarded; a disabled tree has no record that is not FREE, and keeps each SN; a pulse of PBR_RESET goes out once for each burst; a
serial-number window is opened with its grant and its quiet interval. -/
def Obligations.TreesAndEntriesAreEnabled : Prop :=
  (∀ (s : State) (n v : Nat), n < 48 → s.takes .LOOM_TREE_CFG = true → s.rd F.LOOM_TREE_CFG.EN n = 0 →
    s.treeRefused n (setBits v 0 1 1) = false →
    ∃ t, exec (.treeEnable n v) s = .next t ∧ t.rd F.LOOM_TREE_CFG.EN n = 1 ∧ t.rd F.LOOM_TREE_CFG.TYPE n = bitsOf v 1 1 ∧
      t.rd F.LOOM_TREE_CFG.MIN_KM n = bitsOf v 8 6 ∧ t.rd F.LOOM_TREE_CFG.DIFF_KM n = bitsOf v 16 6 ∧
      t.rd F.LOOM_TREE_STATUS.TEQD n = 10 * (bitsOf v 8 6 + bitsOf v 16 6) + 2 ∧ t.rd F.ETH_OCTET_CFG.LOCKED (n / 8) = 1 ∧
      t.tree n = { s.tree n with snAt := s.now } ∧ (∀ m, m ≠ n → t.tree m = s.tree m) ∧ t.outputs = s.outputs ++ [.pbrHold n false] ∧
      State.touches [.loom, .outputs] [.ETH_OCTET_CFG, .LOOM_BUDGET, .LOOM_TREE_CFG, .LOOM_TREE_STATUS] s t) ∧
  (∀ (s : State) (n v : Nat), n < 48 → s.takes .LOOM_TREE_CFG = true → s.rd F.LOOM_TREE_CFG.EN n = 0 →
    s.treeRefused n (setBits v 0 1 1) = true →
    ∃ t, exec (.treeEnable n v) s = .next t ∧ t.rd F.LOOM_TREE_CFG.EN n = 0 ∧ t.rd F.LOOM_TREE_STATUS.CFG_ERR n = 1 ∧
      State.frame [] [(⟨.LOOM_TREE_CFG, 0, 320⟩, n), (F.LOOM_TREE_STATUS.CFG_ERR, n)] s t) ∧
  (∀ (s : State) (n v : Nat) (e : Instr × Nat), e ∈ [(Instr.treeEnable n v, 1), (.treeDisable n v, 0)] → n < 48 →
    s.takes .LOOM_TREE_CFG = true → s.rd F.LOOM_TREE_CFG.EN n = e.2 →
    (e.2 = 1 → s.treeChanges n (setBits v 0 1 1) = false) →
    ∃ t, exec e.1 s = .next t ∧ t.rd F.LOOM_TREE_CFG.EN n = e.2 ∧ t.rd F.LOOM_TREE_CFG.MIN_KM n = bitsOf v 8 6 ∧
      t.rd F.LOOM_TREE_CFG.DIFF_KM n = bitsOf v 16 6 ∧ t.rd F.LOOM_TREE_CFG.SN_EN n = bitsOf v 4 1 ∧
      State.frame [] [(⟨.LOOM_TREE_CFG, 0, 320⟩, n)] s t) ∧
  (∀ (s : State) (n v : Nat) (e : Instr), e ∈ [Instr.treeEnable n v, .treeDisable n v] → n < 48 → s.takes .LOOM_TREE_CFG = true →
    s.rd F.LOOM_TREE_CFG.EN n = 1 → s.treeChanges n (setBits v 0 1 0) = true →
    ∃ t, exec e s = .next t ∧ t.rd F.LOOM_TREE_STATUS.CFG_ERR n = 1 ∧
      State.frame [] [(F.LOOM_TREE_STATUS.CFG_ERR, n)] s t) ∧
  (∀ (s : State) (n v : Nat), n < 48 → s.takes .LOOM_TREE_CFG = true → s.rd F.LOOM_TREE_CFG.EN n = 1 →
    s.treeChanges n (setBits v 0 1 0) = false →
    ∃ t, exec (.treeDisable n v) s = .next t ∧ t.rd F.LOOM_TREE_CFG.EN n = 0 ∧ t.rd F.LOOM_TREE_STATUS.UP n = 0 ∧
      (∀ i, i < 256 → t.onuState (256 * n + i) = 0 ∧ t.rd F.LOOM_ONU.SN (256 * n + i) = s.rd F.LOOM_ONU.SN (256 * n + i)) ∧
      t.tree n = { Tree.idle with sfc := (s.tree n).sfc, obs := (s.tree n).obs } ∧ (∀ m, m ≠ n → t.tree m = s.tree m) ∧
      State.touches (.loom :: linkParts) ([.EAS_ALARM, .EAS_MBOX_STATUS, .ETH_OCTET_CFG, .ETH_RAW, .LOOM_ALLOC, .LOOM_BUDGET, .LOOM_ONU,
        .LOOM_ONU_CMD_STATUS, .LOOM_TREE_CFG, .LOOM_TREE_STATUS] ++ linkRegs) s t) ∧
  (∀ (s : State) (n k : Nat), s.treeEn n = true → (s.tree n).resetDue = k + 1 →
    ∃ t, exec (.pbrResetPulse n) s = .next t ∧ t.outputs = s.outputs ++ [.pbrReset n (s.rd F.LOOM_OPT_CFG.RESET_WIDTH n) (!s.on F.LOOM_OPT_CFG.RESET_POL n)] ∧
      t.tree n = { s.tree n with resetDue := k } ∧ (∀ m, m ≠ n → t.tree m = s.tree m) ∧
      t.loom = { s.loom with trees := t.loom.trees } ∧ State.frame [.loom, .outputs] [] s t) ∧
  (∀ (s : State) (n i : Nat), s.treeEn n = true → s.on F.LOOM_TREE_CFG.SN_EN n = true → i < 256 → s.couldAccept n i = true →
    ∃ t q, exec (.snWindowOpen n) s = .next t ∧
      (t.tree n).special = (s.tree n).special ++
        [⟨(s.tree n).sfc + 3 + (s.teqd n / 16000 + 124) / 125, 1023, [], s.dba n F.LOOM_DBA_CFG.FULL_PROF, 0, 0, 3, false⟩] ∧
      (t.tree n).quiets = (s.tree n).quiets ++ [q] ∧
      q.2 + 1000 = q.1 + 10000 * s.rd F.LOOM_TREE_CFG.DIFF_KM n + 53000 ∧ (t.tree n).snAt = t.now ∧
      ((s.tree n).snAt + ms (s.timing n F.LOOM_TREE_TIMING.SN_PERIOD) < 2 ^ 80 →
        t.now = max s.now ((s.tree n).snAt + ms (s.timing n F.LOOM_TREE_TIMING.SN_PERIOD))) ∧
      t.rd F.LOOM_ACT_CNT.COUNT (12 * n) = (s.rd F.LOOM_ACT_CNT.COUNT (12 * n) + 1) % 2 ^ 64 ∧ (∀ m, m ≠ n → t.tree m = s.tree m) ∧
      State.frame [.frc, .loom] [(F.LOOM_ACT_CNT.COUNT, 12 * n)] s t) ∧
  (∀ (s : State) (a v : Nat), a < 12288 → s.takes .LOOM_ALLOC = true →
    ∃ t, exec (.allocEnable a v) s = .next t ∧ t.rd F.LOOM_ALLOC.EN a = s.rd F.LOOM_ALLOC.EN a ∧
      t.rd F.LOOM_ALLOC.WEIGHT a = max 1 (bitsOf v 32 16) ∧ t.rd F.LOOM_ALLOC.DBRU a = bitsOf v 30 1 ∧
      State.frame [] [(F.LOOM_ALLOC.WEIGHT, a), (F.LOOM_ALLOC.DBRU, a)] s t) ∧
  (∀ (s : State) (a v : Nat), 12288 ≤ a → a < 32768 → s.takes .LOOM_ALLOC = true → s.rd F.LOOM_ALLOC.EN a = 0 →
    s.allocRefused a (setBits v 0 1 1) = false →
    ∃ t, exec (.allocEnable a v) s = .next t ∧ t.rd F.LOOM_ALLOC.EN a = 1 ∧ t.rd F.LOOM_ALLOC.TREE a = bitsOf v 1 6 ∧
      t.rd F.LOOM_ALLOC.ONU a = bitsOf v 8 8 ∧ t.rd F.LOOM_ALLOC.ALLOC_ID a = bitsOf v 16 14 ∧
      t.rd F.LOOM_ALLOC.WEIGHT a = max 1 (bitsOf v 32 16) ∧ State.frame [] [(⟨.LOOM_ALLOC, 0, 64⟩, a)] s t) ∧
  (∀ (s : State) (a v : Nat), 12288 ≤ a → a < 32768 → s.takes .LOOM_ALLOC = true → s.rd F.LOOM_ALLOC.EN a = 0 →
    s.allocRefused a (setBits v 0 1 1) = true →
    bitsOf v 1 6 < 48 →
    ∃ t, exec (.allocEnable a v) s = .next t ∧ t.rd F.LOOM_ALLOC.EN a = 0 ∧ t.rd F.LOOM_TREE_STATUS.CFG_ERR (bitsOf v 1 6) = 1 ∧
      State.frame [] [(⟨.LOOM_ALLOC, 0, 64⟩, a), (F.LOOM_TREE_STATUS.CFG_ERR, bitsOf v 1 6)] s t) ∧
  (∀ (s : State) (g v : Nat), g < 65536 → s.takes .LOOM_GEM = true → s.treeEn (bitsOf v 1 6) = true → 256 ≤ bitsOf v 16 16 → bitsOf v 16 16 ≠ 0xFFFF →
    (∀ h, s.gemFor (bitsOf v 1 6) (bitsOf v 16 16) = some h → h = g) →
    ∃ t, exec (.gemEnable g v) s = .next t ∧ t.rd F.LOOM_GEM.EN g = 1 ∧ t.rd F.LOOM_GEM.TREE g = bitsOf v 1 6 ∧
      t.rd F.LOOM_GEM.ONU g = bitsOf v 8 8 ∧ t.rd F.LOOM_GEM.PORT_ID g = bitsOf v 16 16 ∧ t.rd F.LOOM_GEM.SUB_CTX g = bitsOf v 32 18 ∧
      State.frame [] [(⟨.LOOM_GEM, 0, 64⟩, g)] s t) ∧
  (∀ (s : State) (g v : Nat), g < 65536 → s.takes .LOOM_GEM = true → bitsOf v 1 6 < 48 →
    (s.treeEn (bitsOf v 1 6) = false ∨ bitsOf v 16 16 < 256 ∨ bitsOf v 16 16 = 0xFFFF ∨
      (∃ h, s.gemFor (bitsOf v 1 6) (bitsOf v 16 16) = some h ∧ h ≠ g)) →
    ∃ t, exec (.gemEnable g v) s = .next t ∧ t.rd F.LOOM_GEM.EN g = 0 ∧ t.rd F.LOOM_TREE_STATUS.CFG_ERR (bitsOf v 1 6) = 1 ∧
      State.frame [] [(⟨.LOOM_GEM, 0, 64⟩, g), (F.LOOM_TREE_STATUS.CFG_ERR, bitsOf v 1 6)] s t)

/-- R406 to R420: a serial number is accepted for the first record that can take it, which becomes ASSIGNED; a good ranging response makes
the record OPERATING with the equalization delay that its arrival gives; a missed or late one costs an attempt; TO2 and the host's
commands move a record as their table says, or are refused; upstream messages go to the host where their MIC holds. -/
def Obligations.OnuRecordsFollowTheirStates : Prop :=
  (∀ (s : State) (n sn delay : Nat) (arrival : Int) (mic : Bool) (content : List Byte), s.treeEn n = true → (s.tree n).snOpen ≠ none →
    ∃ t, exec (.serialNumberOnu n false sn arrival delay mic content) s = .next t ∧
      t.rd F.LOOM_ACT_CNT.COUNT (12 * n + 2) = (s.rd F.LOOM_ACT_CNT.COUNT (12 * n + 2) + 1) % 2 ^ 64 ∧
      t.tree n = { s.tree n with resetDue := (s.tree n).resetDue + 1 } ∧ (∀ m, m ≠ n → t.tree m = s.tree m) ∧
      State.frame [.loom] [(F.LOOM_ACT_CNT.COUNT, 12 * n + 2)] s t) ∧
  (∀ (s : State) (n i sn delay : Nat) (arrival : Int) (content : List Byte), s.treeEn n = true → (s.tree n).snOpen ≠ none →
    s.on F.LOOM_TREE_CFG.SN_MODE n = false → (∀ k, k < 64 → s.sndisFor n k = true → s.rd F.LOOM_SNDIS.SN k ≠ sn) →
    (∀ j, j < 256 → s.rd F.LOOM_ONU.SN (256 * n + j) = sn → s.onuState (256 * n + j) = 0) →
    i < 256 → s.couldAccept n i = true → s.on F.LOOM_ONU.PROV (256 * n + i) = false → (∀ j, j < i → s.couldAccept n j = false) →
    ∃ t, exec (.serialNumberOnu n true sn arrival delay true content) s = .next t ∧ t.onuState (256 * n + i) = 1 ∧
      t.rd F.LOOM_ONU.SN (256 * n + i) = sn % 2 ^ 64 ∧ t.rd F.LOOM_ONU.ATTEMPTS (256 * n + i) = 0 ∧
      (t.onu (256 * n + i)).rtdEst = arrival - delay ∧
      (t.tree n).assign = (s.tree n).assign ++ [⟨i, .assign sn, s.now + us 20, 1, false, none⟩] ∧
      t.rd F.LOOM_ACT_CNT.COUNT (12 * n + 1) = (s.rd F.LOOM_ACT_CNT.COUNT (12 * n + 1) + 1) % 2 ^ 64 ∧
      State.frame [.loom] [(F.LOOM_ONU.SN, 256 * n + i), (F.LOOM_ONU.STATE, 256 * n + i), (F.LOOM_ONU.ATTEMPTS, 256 * n + i),
        (F.LOOM_TREE_STATUS.OPERATING, n), (F.LOOM_ALLOC.EN, 256 * n + i), (F.LOOM_ACT_CNT.COUNT, 12 * n + 1)] s t) ∧
  (∀ (s : State) (n i : Nat) (arrival : Int) (phase gain : Nat) (content : List Byte), s.treeEn n = true → i < 256 →
    s.onuState (256 * n + i) = 2 → (s.onu (256 * n + i)).window = true →
    (s.onu (256 * n + i)).rtdEst - (s.timing n F.LOOM_TREE_TIMING.RANGE_MARGIN * 16000 : Int) ≤ arrival →
    arrival ≤ (s.onu (256 * n + i)).rtdEst + (s.timing n F.LOOM_TREE_TIMING.RANGE_MARGIN * 16000 : Int) →
    (160000 * s.rd F.LOOM_TREE_CFG.MIN_KM n - 16000 : Int) ≤ arrival →
    arrival ≤ (160000 * (s.rd F.LOOM_TREE_CFG.MIN_KM n + s.rd F.LOOM_TREE_CFG.DIFF_KM n) + 16000 : Int) →
    ∃ t, exec (.rangingResponse n i arrival true phase gain content) s = .next t ∧ t.onuState (256 * n + i) = 3 ∧
      t.rd F.LOOM_ONU.EQD (256 * n + i) = (s.teqd n - arrival).toNat ∧ t.rd F.LOOM_ONU.RTD (256 * n + i) = (arrival % 2 ^ 32).toNat ∧
      t.rd F.LOOM_ONU.LOB_RUN (256 * n + i) = 0 ∧ t.rd F.LOOM_ALLOC.EN (256 * n + i) = 1 ∧
      t.rd F.LOOM_PHASE.VALID (256 * n + i) = 1 ∧ t.rd F.LOOM_PHASE.PHASE (256 * n + i) = phase % 64 ∧
      t.rd F.LOOM_PHASE.LEVEL (256 * n + i) = gain % 256 ∧ (t.onu (256 * n + i)).window = false ∧
      (t.tree n).assign = (s.tree n).assign ++ [⟨i, .rangingTime (Config.eqdUnits (s.on F.LOOM_TREE_CFG.TYPE n)
        (s.rd F.LOOM_TREE_CFG.US_RATE n) (s.teqd n - arrival).toNat), s.now + us 20, 1, false, none⟩] ∧
      State.touches [.dram, .host, .loom] [.LOOM_ALLOC, .LOOM_ONU, .LOOM_PHASE, .LOOM_TREE_STATUS] s t) ∧
  (∀ (s : State) (n i k : Nat) (c : Instr) (arrival : Int) (mic : Bool) (phase gain : Nat) (content : List Byte), s.treeEn n = true →
    i < 256 → s.onuState (256 * n + i) = 2 → (s.onu (256 * n + i)).window = true →
    (c = .rangingWindowClose n i ∧ k = 2 ∨
      c = .rangingResponse n i arrival mic phase gain content ∧ k = 1 ∧
        (s.onu (256 * n + i)).rtdEst + (s.timing n F.LOOM_TREE_TIMING.RANGE_MARGIN * 16000 : Int) < arrival) →
    ∃ t, exec c s = .next t ∧
      t.onuState (256 * n + i) =
        (if s.rd F.LOOM_ONU.ATTEMPTS (256 * n + i) + 1 < s.timing n F.LOOM_TREE_TIMING.RANGE_RETRY then 1 else 5) ∧
      t.rd F.LOOM_ONU.ATTEMPTS (256 * n + i) = (s.rd F.LOOM_ONU.ATTEMPTS (256 * n + i) + 1) % 16 ∧
      t.rd F.LOOM_ONU.LAST_FAIL (256 * n + i) = k ∧
      t.rd F.LOOM_ACT_CNT.COUNT (12 * n + 8) = (s.rd F.LOOM_ACT_CNT.COUNT (12 * n + 8) + (2 - k)) % 2 ^ 64 ∧
      State.touches [.host, .loom] [.LOOM_ACT_CNT, .LOOM_ALLOC, .LOOM_GRANT_CNT, .LOOM_ONU, .LOOM_PHASE, .LOOM_PROBE_STATUS,
        .LOOM_TREE_STATUS, .TLY_SAMP_CFG, .TLY_SAMP_CNT, .TLY_SPEC_CNT] s t) ∧
  (∀ (s : State) (n i : Nat), s.treeEn n = true → i < 256 → s.onuState (256 * n + i) = 4 →
    ∃ t, exec (.to2Expiry n i) s = .next t ∧ t.onuState (256 * n + i) = 5 ∧ t.rd F.LOOM_ONU.LAST_FAIL (256 * n + i) = 5 ∧
      t.rd F.LOOM_PHASE.VALID (256 * n + i) = 0 ∧
      ((s.onu (256 * n + i)).to2At < 2 ^ 80 → t.now = max s.now (s.onu (256 * n + i)).to2At) ∧
      State.touches [.frc, .host, .loom] [.LOOM_ALLOC, .LOOM_GRANT_CNT, .LOOM_ONU, .LOOM_PHASE, .LOOM_PROBE_STATUS,
        .LOOM_TREE_STATUS, .TLY_SAMP_CFG, .TLY_SAMP_CNT, .TLY_SPEC_CNT] s t) ∧
  (∀ (s : State) (n i op st : Nat) (c : Instr), n < 48 → s.rd F.LOOM_ONU_CMD_STATUS.BUSY n = 1 → s.rd F.LOOM_ONU_CMD.OP n = op →
    s.rd F.LOOM_ONU_CMD.ONU n = i →
    (op = 1 ∧ c = .onuDeactivate n ∧ s.onuState (256 * n + i) ≠ 0 ∧ s.onuState (256 * n + i) ≠ 6 ∧ st = 5 ∨
      op = 2 ∧ c = .onuDisable n ∧ s.onuState (256 * n + i) ≠ 0 ∧ st = 6 ∨
      op = 3 ∧ c = .onuEnable n ∧ s.onuState (256 * n + i) = 6 ∧ st = 0 ∨
      op = 4 ∧ c = .onuReqReg n ∧ s.onuState (256 * n + i) = 3 ∧ st = 3) →
    ∃ t, exec c s = .next t ∧ t.onuState (256 * n + i) = st ∧ t.rd F.LOOM_ONU_CMD_STATUS.CODE n = 0 ∧
      t.rd F.LOOM_ONU_CMD_STATUS.BUSY n = 1 ∧ t.rd F.LOOM_ONU.SN (256 * n + i) = s.rd F.LOOM_ONU.SN (256 * n + i) ∧
      (∃ w, (t.tree n).urgent = (s.tree n).urgent ++ w ∧ (t.tree n).assign = (s.tree n).assign ++
        (if op = 4 then [⟨i, .requestRegistration, s.now + us 20, 1, true, none⟩] else [])) ∧
      State.touches [.host, .loom] [.LOOM_ALLOC, .LOOM_GRANT_CNT, .LOOM_ONU, .LOOM_ONU_CMD_STATUS, .LOOM_PHASE, .LOOM_PROBE_STATUS,
        .LOOM_TREE_STATUS, .TLY_SAMP_CFG, .TLY_SAMP_CNT, .TLY_SPEC_CNT] s t) ∧
  (∀ (s : State) (n i op : Nat) (c : Instr), n < 48 → s.rd F.LOOM_ONU_CMD_STATUS.BUSY n = 1 → s.rd F.LOOM_ONU_CMD.OP n = op →
    s.rd F.LOOM_ONU_CMD.ONU n = i →
    (op = 1 ∧ c = .onuDeactivate n ∧ (s.onuState (256 * n + i) = 0 ∨ s.onuState (256 * n + i) = 6) ∨
      op = 2 ∧ c = .onuDisable n ∧ s.onuState (256 * n + i) = 0 ∨
      op = 3 ∧ c = .onuEnable n ∧ s.onuState (256 * n + i) ≠ 6 ∨
      op = 4 ∧ c = .onuReqReg n ∧ s.onuState (256 * n + i) ≠ 3) →
    ∃ t, exec c s = .next t ∧ t.rd F.LOOM_ONU_CMD_STATUS.BUSY n = 0 ∧ t.rd F.LOOM_ONU_CMD_STATUS.CODE n = 2 ∧
      State.frame [] [(F.LOOM_ONU_CMD_STATUS.BUSY, n), (F.LOOM_ONU_CMD_STATUS.CODE, n)] s t) ∧
  (∀ (s : State) (n i : Nat) (ack : Option Nat) (content : List Byte), s.treeEn n = true → i < 256 →
    ∃ t, exec (.upstreamPloam n i false ack content) s = .next t ∧
      t.rd F.LOOM_ACT_CNT.COUNT (12 * n + 10) = (s.rd F.LOOM_ACT_CNT.COUNT (12 * n + 10) + 1) % 2 ^ 64 ∧
      State.frame [] [(F.LOOM_ACT_CNT.COUNT, 12 * n + 10)] s t) ∧
  (∀ (s : State) (n i k : Nat) (content : List Byte), s.treeEn n = true → i < 256 → s.rd F.LOOM_PLOAM_CFG.RING = k →
    s.ringFull k = false → (s.host.messages.filter (fun m => m.ring == k)).length < ((s.ring k).tail - s.ringW k).toNat →
    ∃ t fs, exec (.upstreamPloam n i true none content) s = .next t ∧
      t.host = { s.host with messages := s.host.messages ++ [⟨k, fs, content⟩] } ∧ State.frame [.host] [] s t) ∧
  (∀ (s : State) (k : Nat), k < 64 → s.takes .LOOM_SNDIS = true →
    ∃ t, exec (.sndisClear k) s = .next t ∧ t.rd F.LOOM_SNDIS.EN k = 0 ∧
      (∀ n, (t.tree n).urgent = (s.tree n).urgent ++ (if s.treeEn n && s.sndisFor n k then
        [⟨1023, .disableSn false (s.rd F.LOOM_SNDIS.SN k), s.now + us 20, 1, false, none⟩] else [])) ∧
      t.loom = { s.loom with trees := t.loom.trees } ∧ State.frame [.loom] [(F.LOOM_SNDIS.EN, k)] s t)

/-- R393, R400, R402, R426 to R432, R434, R437 to R444: each downstream frame carries its BWmap, at most four messages and the XGEM frames
that wait; a map computed for a frame holds bursts of ONUs in service alone, in order, a guard time apart, inside the frame and with at
most 512 allocation structures; a burst received settles its grant and its ONU; one missed counts towards the loss of its ONU. -/
def Obligations.GrantsFramesAndBursts : Prop :=
  (∀ (s : State) (n a : Nat), s.treeEn n = true → (s.tree n).frameAt = some a →
    ∃ t ps, exec (.downstreamFrame n) s = .next t ∧ ps.length ≤ 4 ∧
      (let f := ((s.tree n).sfc + 1) % 2 ^ 51
       let map := s.frameMap n f
       let k := gemFits (s.fsSize n - Config.fsTaken (map.map (fun g => max 1 g.allocs.length)).sum ps.length) (s.tree n).xgem
       t.outputs = s.outputs ++ [.dsFrame n f (s.rd F.LOOM_TREE_CFG.PON_ID n) (s.rd F.LOOM_TREE_CFG.TOL n) map ps
         (((s.tree n).xgem.take k).map ((s.frameTurn n f (a + ns 125000)).sealGem n f))] ∧
       (t.tree n).xgem = (s.tree n).xgem.drop k) ∧
      (t.tree n).sfc = ((s.tree n).sfc + 1) % 2 ^ 51 ∧ (t.tree n).frameAt = some (a + ns 125000) ∧
      t.rd F.TIM_PON_SFC.SFC n = ((s.tree n).sfc + 1) % 2 ^ 51 ∧ t.rd F.TIM_PON_SFC.FRC n = (a + ns 125000) / 65536 % 2 ^ 64 ∧
      (a + ns 125000 < 2 ^ 80 → t.now = max s.now (a + ns 125000)) ∧
      t.rd F.LOOM_GRANT_CNT.COUNT (14 * n) = (s.rd F.LOOM_GRANT_CNT.COUNT (14 * n) + 1) % 2 ^ 64 ∧
      State.touches [.easel, .frc, .host, .loom, .outputs] [.EAS_ALARM, .EAS_MBOX_STATUS, .LOOM_ACT_CNT, .LOOM_ALLOC, .LOOM_GRANT_CNT, .LOOM_ONU, .LOOM_ONU_CMD_STATUS,
        .LOOM_TREE_STATUS, .TIM_PON_SFC] s t) ∧
  (∀ (s : State) (n : Nat), s.treeEn n = true → (s.tree n).frameAt = none → s.nextFrameAt n < 2 ^ 80 →
    ∃ t, exec (.downstreamFrame n) s = .next t ∧ t.rd F.LOOM_TREE_STATUS.UP n = 1 ∧ t.now % ns 125000 = 0 ∧ s.now ≤ t.now ∧
      t.now < s.now + ns 125000 ∧ (t.tree n).frameAt = some t.now) ∧
  (∀ (s : State) (n : Nat), s.treeEn n = true → (s.tree n).frameAt ≠ none →
    (∀ m ∈ (s.tree n).maps, m.frame ≠ (s.tree n).sfc + 2) →
    ∃ t gs ds, exec (.bwmapCompute n) s = .next t ∧
      t.tree n = { s.tree n with maps := (s.tree n).maps ++ [⟨(s.tree n).sfc + 2, gs, ds⟩] } ∧ (∀ m, m ≠ n → t.tree m = s.tree m) ∧
      (∀ g ∈ gs, g.frame = (s.tree n).sfc + 2 ∧ g.kind < 2 ∧ g.withdrawn = false ∧ g.start + g.len ≤ s.usFrame n ∧
        (s.onuState (256 * n + g.onu) = 3 ∨ s.onuState (256 * n + g.onu) = 4) ∧ s.probed n g.onu = false ∧
        ∀ e ∈ g.allocs, s.on F.LOOM_ALLOC.EN e.1 = true ∧ s.rd F.LOOM_ALLOC.ONU e.1 = g.onu) ∧
      gs.Pairwise (fun g h => g.start + g.len + s.usBytes n (s.rd F.LOOM_OPT_CFG.GUARD n) ≤ h.start) ∧
      (gs.map (fun g => max 1 g.allocs.length)).sum ≤ 512 ∧ State.frame [.loom] [] s t) ∧
  (∀ (s : State) (n : Nat), s.treeEn n = true → (s.tree n).cycleStart + (s.tree n).cycleLen ≤ (s.tree n).sfc + 2 →
    ∃ t, exec (.dbaCycle n) s = .next t ∧
      t.tree n = { s.tree n with
        cycleStart := (s.tree n).sfc + 2, cycleLen := s.rd F.LOOM_DBA_CFG.CYCLE n, dba := some (s.reg .LOOM_DBA_CFG n).toNat } ∧
      (∀ m, m ≠ n → t.tree m = s.tree m) ∧
      (∀ a ∈ s.allocsOf n, (t.alloc a).granted = 0 ∧ (t.alloc a).filled = 0 ∧ (t.alloc a).deferred = 0 ∧ (t.alloc a).inCycle = true ∧
        (t.alloc a).dbru = s.on F.LOOM_ALLOC.DBRU a) ∧
      (∀ a, a ∉ s.allocsOf n → t.alloc a = s.alloc a) ∧ State.touches [.loom] [.LOOM_GRANT_CNT] s t) ∧
  (∀ (s : State) (n : Nat) (g : Grant) (rest : List Grant) (off : Int) (bad phase gain : Nat) (reports : List (Nat × Option Nat)),
    (s.tree n).expected = g :: rest → s.grantDead g = false → off.natAbs ≤ s.dba n F.LOOM_DBA_CFG.ARR_TOL * 16 →
    (s.onu (256 * n + g.onu)).offsets.length < 15 →
    ∃ t, exec (.burstReceive n off g.onu bad phase gain reports) s = .next t ∧ t.rd F.LOOM_ONU.LOB_RUN (256 * n + g.onu) = 0 ∧
      t.rd F.LOOM_TREE_STATUS.US_LOS n = 0 ∧
      t.rd F.LOOM_GRANT_CNT.COUNT (14 * n + 4) = (s.rd F.LOOM_GRANT_CNT.COUNT (14 * n + 4) + 1) % 2 ^ 64 ∧
      t.rd F.LOOM_GRANT_CNT.COUNT (14 * n + 8) = (s.rd F.LOOM_GRANT_CNT.COUNT (14 * n + 8) + bad) % 2 ^ 64 ∧
      t.rd F.LOOM_PHASE.VALID (256 * n + g.onu) = 1 ∧ t.rd F.LOOM_PHASE.PHASE (256 * n + g.onu) = phase % 64 ∧
      t.rd F.LOOM_PHASE.LEVEL (256 * n + g.onu) = gain % 256 ∧
      t.onuState (256 * n + g.onu) = (if s.onuState (256 * n + g.onu) = 4 then 3 else s.onuState (256 * n + g.onu)) ∧
      (t.tree n).expected = rest ∧ (t.tree n).burst = some g ∧
      (t.onu (256 * n + g.onu)).offsets = off :: (s.onu (256 * n + g.onu)).offsets ∧
      (t.tree n).resetDue = (s.tree n).resetDue + 1 ∧
      State.touches [.dram, .easel, .freeCtr, .host, .loom, .outputs, .palette, .tally]
        ([.DMC_CH_STATUS, .DMC_ERR_LOG, .DMC_FREQ_STATUS, .LOOM_ALLOC, .LOOM_GRANT_CNT, .LOOM_ONU, .LOOM_PHASE, .LOOM_TREE_STATUS,
        .PAL_FREE_CNT, .PAL_POOL_STATUS, .TLY_SAMP_CFG, .TLY_SAMP_CNT]) s t) ∧
  (∀ (s : State) (n : Nat) (g : Grant) (rest : List Grant) (off : Int) (hdr bad phase gain : Nat) (reports : List (Nat × Option Nat)),
    (s.tree n).expected = g :: rest → s.grantDead g = true →
    ∃ t, exec (.burstReceive n off hdr bad phase gain reports) s = .next t ∧ (t.tree n).expected = rest ∧ (t.tree n).burst = none ∧
      t.rd F.LOOM_GRANT_CNT.COUNT (14 * n + 3) = (s.rd F.LOOM_GRANT_CNT.COUNT (14 * n + 3) + 1) % 2 ^ 64 ∧
      State.touches [.dram, .easel, .freeCtr, .host, .loom, .outputs, .palette, .tally]
        [.DMC_CH_STATUS, .DMC_ERR_LOG, .DMC_FREQ_STATUS, .LOOM_GRANT_CNT, .PAL_FREE_CNT, .PAL_POOL_STATUS, .TLY_SAMP_CFG, .TLY_SAMP_CNT] s t) ∧
  (∀ (s : State) (n : Nat) (g : Grant) (rest : List Grant) (sd : Bool), (s.tree n).expected = g :: rest → s.grantDead g = false →
    ∃ t, exec (.burstMissed n sd) s = .next t ∧ (t.tree n).expected = rest ∧ (t.tree n).burst = none ∧
      t.rd F.LOOM_GRANT_CNT.COUNT (14 * n + 5) = (s.rd F.LOOM_GRANT_CNT.COUNT (14 * n + 5) + 1) % 2 ^ 64 ∧
      t.rd F.LOOM_ONU.LOB_RUN (256 * n + g.onu) = min (s.rd F.LOOM_ONU.LOB_RUN (256 * n + g.onu) + 1) 255 ∧
      t.onuState (256 * n + g.onu) =
        (if s.onuState (256 * n + g.onu) = 3 ∧
          s.timing n F.LOOM_TREE_TIMING.LOB_LIMIT ≤ min (s.rd F.LOOM_ONU.LOB_RUN (256 * n + g.onu) + 1) 255 then 4
        else s.onuState (256 * n + g.onu)) ∧
      (t.tree n).resetDue = (s.tree n).resetDue + 1 ∧
      State.touches [.host, .loom]
        [.LOOM_ALLOC, .LOOM_GRANT_CNT, .LOOM_ONU, .LOOM_PHASE, .LOOM_TREE_STATUS, .TLY_SAMP_CFG, .TLY_SAMP_CNT] s t) ∧
  (∀ (s : State) (a : Nat), (s.alloc a).partial_ ≠ none →
    ∃ t, exec (.reassemblyTimeout a) s = .next t ∧ t.alloc a = { s.alloc a with partial_ := none } ∧
      (∀ b, b ≠ a → t.alloc b = s.alloc b) ∧
      t.rd F.LOOM_GRANT_CNT.COUNT (14 * s.rd F.LOOM_ALLOC.TREE a + 13) =
        (s.rd F.LOOM_GRANT_CNT.COUNT (14 * s.rd F.LOOM_ALLOC.TREE a + 13) + 1) % 2 ^ 64 ∧
      ((s.alloc a).burstAt + ms 2 < 2 ^ 80 → t.now = max s.now ((s.alloc a).burstAt + ms 2)) ∧
      State.touches [.frc, .host, .loom] [.LOOM_GRANT_CNT, .TLY_SAMP_CFG, .TLY_SAMP_CNT] s t)

/-- R445 to R457: frames pass between the network and a subscriber only by the checks of the entry they name, and a frame that fails one
is counted under it; keys are written, cleared and switched at a frame; rogue observations and silence probes show as their rules say. -/
def Obligations.SubscribersAreKeptApart : Prop :=
  (∀ (s : State) (n j port idx c : Nat) (last : Bool) (octets : List Byte) (g : Grant) (e : Nat × Nat),
    (s.tree n).burst = some g → g.allocs[j]? = some e → s.gemChecks n g.frame g.onu port idx octets = .inl c →
    ∃ t, exec (.upstreamXgemFrame n j port idx last false octets) s = .next t ∧
      t.rd F.LOOM_SEP_CNT.COUNT (10 * n + c) = (s.rd F.LOOM_SEP_CNT.COUNT (10 * n + c) + 1) % 2 ^ 64 ∧
      (t.alloc e.1).partial_ = none ∧ (∀ m, t.tree m = s.tree m) ∧ (∀ k, t.pkt k = s.pkt k) ∧
      State.touches [.host, .loom] [.LOOM_GRANT_CNT, .LOOM_SEP_CNT, .TLY_SAMP_CFG, .TLY_SAMP_CNT] s t) ∧
  (∀ (s : State) (n j port idx k : Nat) (octets clear : List Byte) (g : Grant) (e : Nat × Nat),
    (s.tree n).burst = some g → g.allocs[j]? = some e → s.gemChecks n g.frame g.onu port idx octets = .inr (some k, clear) →
    (s.alloc e.1).partial_ = none → clear.length ≤ 9728 → s.rd F.LOOM_ALLOC.POL_RATE e.1 = 0 → s.bound k clear = true →
    (s.mac (64 + n)).fill + (clear.length + 4) ≤ s.fifoSize (64 + n) →
    ∃ t p, exec (.upstreamXgemFrame n j port idx true false octets) s = .next t ∧ t.pkt s.nextPkt = some p ∧ p.data = clear ∧
      p.rx.inPort = 64 + n ∧ p.rx.stamp = (s.tree n).stamp ∧ p.loc = .fifo ∧ t.nextPkt = s.nextPkt + 1 ∧
      (∀ m, m ≠ s.nextPkt → t.pkt m = s.pkt m) ∧ (t.mac (64 + n)).order = (s.mac (64 + n)).order ++ [s.nextPkt] ∧
      (∀ a, t.alloc a = s.alloc a) ∧ (∀ m, t.tree m = s.tree m) ∧
      State.touches [.loom, .macs, .nextPkt, .outputs, .pkts, .tally] [] s t) ∧
  (∀ (s : State) (k c : Nat) (p : Pkt), s.pkt k = some p → p.loc = .txFifo → s.nodeKind p.node = 1 → s.nodeState p.node = 1 →
    s.halted = false → s.txReady p = true → s.gemWaits (s.nodeTarget p.node) = false →
    s.gemExitFails (s.nodeTarget p.node) (hvGet p.drec 0x14 2) p = some c →
    ∃ t, exec (.downstreamGemExit k) s = .next t ∧ t.pkt k = none ∧
      t.rd F.LOOM_SEP_CNT.COUNT (10 * s.nodeTarget p.node + c) = (s.rd F.LOOM_SEP_CNT.COUNT (10 * s.nodeTarget p.node + c) + 1) % 2 ^ 64 ∧
      t.loom = s.loom ∧
      State.touches [.host, .inflightA, .inflightB, .outputs, .pkts, .policers, .tally] ([.LOOM_SEP_CNT, .TLY_STATUS] ++ traceRegs) s t) ∧
  (∀ (s : State) (k : Nat) (p : Pkt), s.pkt k = some p → p.loc = .txFifo → s.nodeKind p.node = 1 → s.nodeState p.node = 1 →
    s.halted = false → s.txReady p = true → s.gemWaits (s.nodeTarget p.node) = false →
    s.gemExitFails (s.nodeTarget p.node) (hvGet p.drec 0x14 2) p = none →
    ∃ t, exec (.downstreamGemExit k) s = .next t ∧ t.pkt k = none ∧
      t.tree (s.nodeTarget p.node) = { s.tree (s.nodeTarget p.node) with
        xgem := (s.tree (s.nodeTarget p.node)).xgem ++ [(s.rd F.LOOM_GEM.PORT_ID (hvGet p.drec 0x14 2), hvGet p.drec 0x14 2 + 1, p.data)] } ∧
      (∀ m, m ≠ s.nodeTarget p.node → t.tree m = s.tree m) ∧
      State.touches [.host, .inflightA, .inflightB, .loom, .outputs, .pkts, .policers, .tally] ([.TLY_STATUS] ++ traceRegs) s t) ∧
  (∀ s : State, s.keyRuns 1 = true →
    (s.rd F.LOOM_KEY_CMD.KIND = 1 ∨ s.onuState s.keyRecord ∉ [0, 5, 6]) →
    ∃ t, exec .keyWrite s = .next t ∧ t.key s.keyPlace = some (s.rd F.LOOM_KEY_DATA.DATA) ∧
      (∀ k, k ≠ s.keyPlace → t.key k = s.key k) ∧ t.rd F.LOOM_KEY_STATUS.BUSY 0 = 0 ∧ t.rd F.LOOM_KEY_STATUS.CODE 0 = 0 ∧
      t.loom = { s.loom with keys := t.loom.keys } ∧
      State.frame [.loom] [(F.LOOM_KEY_STATUS.BUSY, 0), (F.LOOM_KEY_STATUS.CODE, 0)] s t) ∧
  (∀ s : State, s.keyRuns 1 = true → s.rd F.LOOM_KEY_CMD.KIND ≠ 1 → s.onuState s.keyRecord ∈ [0, 5, 6] →
    ∃ t, exec .keyWrite s = .next t ∧ t.rd F.LOOM_KEY_STATUS.BUSY 0 = 0 ∧ t.rd F.LOOM_KEY_STATUS.CODE 0 = 2 ∧
      State.frame [] [(F.LOOM_KEY_STATUS.BUSY, 0), (F.LOOM_KEY_STATUS.CODE, 0)] s t) ∧
  (∀ s : State, s.keyRuns 2 = true →
    ∃ t, exec .keyClear s = .next t ∧ t.key s.keyPlace = none ∧ (∀ k, k ≠ s.keyPlace → t.key k = s.key k) ∧
      t.rd F.LOOM_KEY_STATUS.BUSY 0 = 0 ∧ t.rd F.LOOM_KEY_STATUS.CODE 0 = 0 ∧ t.loom = { s.loom with keys := t.loom.keys } ∧
      State.frame [.loom] [(F.LOOM_KEY_STATUS.BUSY, 0), (F.LOOM_KEY_STATUS.CODE, 0)] s t) ∧
  (∀ (s : State) (q x : Nat), s.keyRuns 3 = true → s.key s.keyPlace = some x → s.rd F.LOOM_KEY_CMD.KIND ≠ 1 →
    s.rd F.LOOM_KEY_DATA.DATA % 2 ^ 51 = q →
    ∃ t, exec .keySwitch s = .next t ∧
      (t.onu s.keyRecord).switch = some (s.rd F.LOOM_KEY_CMD.IDX,
        if q ≤ (s.tree (s.rd F.LOOM_KEY_CMD.TREE)).sfc then (s.tree (s.rd F.LOOM_KEY_CMD.TREE)).sfc + 1 else q) ∧
      t.rd F.LOOM_KEY_STATUS.BUSY 0 = 0 ∧
      t.rd F.LOOM_KEY_STATUS.CODE 0 = (if q ≤ (s.tree (s.rd F.LOOM_KEY_CMD.TREE)).sfc then 3 else 0) ∧
      State.frame [.loom] [(F.LOOM_KEY_STATUS.BUSY, 0), (F.LOOM_KEY_STATUS.CODE, 0)] s t) ∧
  (∀ s : State, s.keyRuns 3 = true → s.key s.keyPlace = none →
    ∃ t, exec .keySwitch s = .next t ∧ t.rd F.LOOM_KEY_STATUS.BUSY 0 = 0 ∧ t.rd F.LOOM_KEY_STATUS.CODE 0 = 4 ∧
      State.frame [] [(F.LOOM_KEY_STATUS.BUSY, 0), (F.LOOM_KEY_STATUS.CODE, 0)] s t) ∧
  (∀ (s : State) (n : Nat) (seen : List (Nat × Nat)) (sd : Bool), s.treeEn n = true →
    ∃ t hit, exec (.rogueFrameEval n seen sd) s = .next t ∧ (hit = true ↔ ∃ x ∈ seen, s.observations n x ≠ []) ∧
      (∀ x ∈ seen, s.longBurst n x ≠ none → t.rd F.LOOM_ROGUE_STATUS.LONG_BURST n = 1) ∧
      (t.tree n).obs = (hit :: (s.tree n).obs).take 255 ∧ t.rd F.LOOM_OPT_CFG.SD_NOW n = sd.toNat ∧
      t.rd F.LOOM_ROGUE_STATUS.OBS_FRAMES n = min (s.rd F.LOOM_ROGUE_STATUS.OBS_FRAMES n + hit.toNat) (2 ^ 32 - 1) ∧
      (s.dba n F.LOOM_DBA_CFG.ROGUE_FRAMES ≤ (((hit :: (s.tree n).obs).take 8).filter id).length →
        t.rd F.LOOM_ROGUE_STATUS.ROGUE n = 1) ∧
      State.touches [.host, .loom] [.LOOM_OPT_CFG, .LOOM_PROBE_STATUS, .LOOM_ROGUE_STATUS] s t) ∧
  (∀ (s : State) (n onu frames : Nat), s.treeEn n = true → s.takes .LOOM_PROBE = true → s.rd F.LOOM_PROBE_STATUS.RUNNING n = 0 →
    ∃ t, exec (.probeGo n onu frames) s = .next t ∧ t.rd F.LOOM_PROBE_STATUS.RUNNING n = 1 ∧ t.rd F.LOOM_PROBE_STATUS.RESULT n = 0 ∧
      t.rd F.LOOM_PROBE_STATUS.ONU n = onu % 256 ∧ t.rd F.LOOM_PROBE_STATUS.DURING n = 0 ∧
      t.rd F.LOOM_PROBE_STATUS.BASELINE n = (((s.tree n).obs.take (max 1 (frames % 256))).filter id).length ∧
      (t.tree n).probeLeft = max 1 (frames % 256) ∧
      State.touches [.host, .loom] [.LOOM_GRANT_CNT, .LOOM_PROBE, .LOOM_PROBE_STATUS, .TLY_SAMP_CFG, .TLY_SAMP_CNT, .TLY_SPEC_CNT] s t) ∧
  (∀ (s : State) (n onu frames : Nat), s.treeEn n = true → s.takes .LOOM_PROBE = true → s.rd F.LOOM_PROBE_STATUS.RUNNING n = 1 →
    ∃ t, exec (.probeGo n onu frames) s = .next t ∧ t.rd F.LOOM_PROBE_STATUS.RESULT n = 5 ∧
      State.frame [] [(F.LOOM_PROBE.ONU, n), (F.LOOM_PROBE.FRAMES, n), (F.LOOM_PROBE_STATUS.RESULT, n)] s t) ∧
  (∀ (s : State) (n : Nat), n < 48 → s.rd F.LOOM_PROBE_STATUS.RUNNING n = 1 → (s.tree n).probeLeft = 0 →
    ∃ t, exec (.probeEnd n) s = .next t ∧ t.rd F.LOOM_PROBE_STATUS.RUNNING n = 0 ∧
      t.rd F.LOOM_PROBE_STATUS.RESULT n = (if s.rd F.LOOM_PROBE_STATUS.BASELINE n = 0 then 3
        else if s.rd F.LOOM_PROBE_STATUS.DURING n = 0 then 1 else 2) ∧
      t.host = { s.host with raised := s.host.raised ++ [16 + n] } ∧
      State.frame [.host] [(F.LOOM_PROBE_STATUS.RUNNING, n), (F.LOOM_PROBE_STATUS.RESULT, n)] s t)

/-- R487 to R494: a doorbell takes its indices unless they pass the ring's bounds; a ring enabled runs with its indices at 0, and one
disabled stops; a punt ring takes the next message, or the oldest packet, as one buffer and one entry; an inject ring completes each
descriptor with its status; a DMA error stops the ring and is reported. -/
def Obligations.RingsCarryEntries : Prop :=
  (∀ (s : State) (k half v : Nat) (tail head : BitVec 32), s.host.asleep = false → s.inReset = false → k < 67 → (64 ≤ k → half ≠ 0) →
    tail = (if half = 1 ∨ 64 ≤ k then (s.ring k).tail else BitVec.ofNat 32 v) →
    head = (if half = 0 then (s.ring k).head else if half = 1 then BitVec.ofNat 32 v else BitVec.ofNat 32 (v / 2 ^ 32)) →
    (k < 64 → (tail - head).toNat ≤ s.ringSize k) → (s.ringW k - head).toNat ≤ s.ringSize k →
    ∃ t, exec (.doorbellWrite k half v) s = .next t ∧ t.ring k = ⟨tail, head⟩ ∧ (∀ j, j ≠ k → t.ring j = s.ring j) ∧
      t.host = { s.host with rings := t.host.rings } ∧ State.frame [.host] [] s t) ∧
  (∀ (s : State) (k v : Nat), s.host.asleep = false → s.inReset = false → k < 67 →
    s.ringSize k < (s.ringW k - BitVec.ofNat 32 (v / 2 ^ 32)).toNat →
    ∃ t, exec (.doorbellWrite k 2 v) s = .next t ∧ t.rd F.HST_ERR_STATUS.BAD_DOORBELL 0 = 1 ∧
      t.host = { s.host with raised := s.host.raised ++ [3] } ∧
      State.frame [.host] [(F.HST_ERR_STATUS.BAD_DOORBELL, 0)] s t) ∧
  (∀ (s : State) (k : Nat), s.takes .HST_RING_CFG = true → k < 67 → s.rd F.HST_RING_CFG.EN k = 0 →
    ∃ t, exec (.ringEnable k) s = .next t ∧ t.rd F.HST_RING_CFG.EN k = 1 ∧ t.rd F.HST_RING_STATUS.RUN k = 1 ∧
      t.rd F.HST_RING_STATUS.W k = 0 ∧ t.ring k = ⟨0, 0⟩ ∧ (∀ j, j ≠ k → t.ring j = s.ring j) ∧
      State.touches [.host] [.HST_RING_CFG, .HST_RING_STATUS, .SCH_PNODE_STATUS] s t) ∧
  (∀ (s : State) (k : Nat), s.takes .HST_RING_CFG = true → k < 67 → s.rd F.HST_RING_CFG.EN k = 1 →
    ∃ t, exec (.ringDisable k) s = .next t ∧ t.rd F.HST_RING_CFG.EN k = 0 ∧ t.rd F.HST_RING_STATUS.RUN k = 0 ∧
      (32 ≤ k → State.frame [] [(F.HST_RING_CFG.EN, k), (F.HST_RING_STATUS.RUN, k)] s t) ∧
      State.touches linkParts (.HST_RING_CFG :: linkRegs) s t) ∧
  (∀ (s : State) (k buf : Nat) (m : Msg), k < 32 → s.ringFull k = false → s.host.messages.find? (fun x => x.ring == k) = some m →
    ∃ (t : State) (e : List Byte), exec (.puntWrite k buf) s = .next t ∧ e.take 12 =
        octetsBE 8 buf ++ octetsBE 2 (min (s.rd F.HST_RING_CFG.BUF_SIZE k) m.content.length) ++ octetsBE 2 m.content.length ∧
      t.outputs = s.outputs ++
        [.hostWrite buf (m.content.take (s.rd F.HST_RING_CFG.BUF_SIZE k)), .hostWrite (s.ringSlot k) (e.take 63 ++ [0x80])] ∧
      t.ringW k = s.ringW k + 1 ∧ t.host.messages = s.host.messages.erase m ∧
      State.touches [.host, .outputs] [.HST_PCIE_STATUS, .HST_RING_STATUS, .TLY_SAMP_CFG, .TLY_SAMP_CNT] s t) ∧
  (∀ (s : State) (k buf n : Nat) (p : Pkt) (data : List Byte), k < 32 → s.ringFull k = false →
    (∀ x ∈ s.host.messages, x.ring ≠ k) → s.puntHead k = some (n, p) →
    data = (if p.trunc = 0 then p.data else p.data.take p.trunc) →
    ∃ (t : State) (e : List Byte) (l : List Output), exec (.puntWrite k buf) s = .next t ∧ e.take 12 =
        octetsBE 8 buf ++ octetsBE 2 (min (s.rd F.HST_RING_CFG.BUF_SIZE k) data.length) ++ octetsBE 2 p.data.length ∧
      t.outputs = s.outputs ++
        [.hostWrite buf (data.take (s.rd F.HST_RING_CFG.BUF_SIZE k)), .hostWrite (s.ringSlot k) (e.take 63 ++ [0x80])] ++ l ∧
      t.pkt n = none ∧ (∀ m, m ≠ n → t.pkt m = s.pkt m) ∧
      State.touches [.host, .inflightA, .inflightB, .outputs, .pkts, .tally] traceRegs s t) ∧
  (∀ (s : State) (r : Nat) (d content : List Byte), r < 32 → s.ringFull (32 + r) = false → d.length = 64 → s.descBad d = true →
    ∃ t, exec (.injectFetch r d content) s = .next t ∧
      t.outputs = s.outputs ++ [.hostWrite (s.ringSlot (32 + r) + 62) [1, 0x80]] ∧ t.ringW (32 + r) = s.ringW (32 + r) + 1 ∧
      State.touches [.host, .outputs] [.HST_PCIE_STATUS, .HST_RING_STATUS, .TLY_SAMP_CFG, .TLY_SAMP_CNT] s t) ∧
  (∀ (s : State) (r : Nat) (d content : List Byte), r < 32 → s.ringFull (32 + r) = false → d.length = 64 → s.descBad d = false →
    descField d 10 1 = 0 → content.length = descField d 8 2 → (s.mac (176 + r)).fill + content.length ≤ 32768 →
    ∃ t p l, exec (.injectFetch r d content) s = .next t ∧ t.pkt s.nextPkt = some p ∧ p.data = content ∧ p.rx.inPort = 176 + r ∧
      p.rx.injTag = descField d 12 2 ∧ p.loc = .fifo ∧ t.nextPkt = s.nextPkt + 1 ∧ (∀ m, m ≠ s.nextPkt → t.pkt m = s.pkt m) ∧
      (t.mac (176 + r)).order = (s.mac (176 + r)).order ++ [s.nextPkt] ∧
      t.outputs = s.outputs ++ l ++ [.hostWrite (s.ringSlot (32 + r) + 62) [0, 0x80]] ∧ t.ringW (32 + r) = s.ringW (32 + r) + 1 ∧
      State.touches [.host, .macs, .nextPkt, .outputs, .pkts, .tally] [.HST_PCIE_STATUS, .HST_RING_STATUS] s t) ∧
  (∀ (s : State) (r n onu : Nat) (d content : List Byte), r < 32 → s.ringFull (32 + r) = false → d.length = 64 → s.descBad d = false →
    content.length = descField d 8 2 → (s.mac (176 + r)).fill + content.length ≤ 32768 → n = descField d 14 1 →
    (descField d 10 1 = 2 → onu = (if natBE (content.take 2) % 1024 = 1023 then 1023 else descField d 15 1) →
      (onu = 1023 ∨ s.onuState (256 * n + onu) ∉ [0, 5, 6]) →
      ∃ t, exec (.injectFetch r d content) s = .next t ∧
        t.tree n = { s.tree n with
          host := (s.tree n).host ++ [⟨onu, .host content, s.now, 1, false, some (descField d 12 2)⟩] } ∧
        (∀ m, m ≠ n → t.tree m = s.tree m) ∧ t.outputs = s.outputs ++ [.hostWrite (s.ringSlot (32 + r) + 62) [0, 0x80]] ∧
        State.touches [.host, .loom, .outputs] [.HST_PCIE_STATUS, .HST_RING_STATUS] s t) ∧
    (descField d 10 1 = 3 → onu = descField d 15 1 → s.onuState (256 * n + onu) ∉ [0, 5, 6] →
      ∃ t, exec (.injectFetch r d content) s = .next t ∧
        t.tree n = { s.tree n with xgem := (s.tree n).xgem ++ [(onu, 0, content)] } ∧
        (∀ m, m ≠ n → t.tree m = s.tree m) ∧ t.outputs = s.outputs ++ [.hostWrite (s.ringSlot (32 + r) + 62) [0, 0x80]] ∧
        State.touches [.host, .loom, .outputs] [.HST_PCIE_STATUS, .HST_RING_STATUS] s t) ∧
    (descField d 10 1 = 4 →
      ∃ t, exec (.injectFetch r d content) s = .next t ∧
        t.outputs = s.outputs ++ [.flexeMgmt (descField d 27 1) content, .hostWrite (s.ringSlot (32 + r) + 62) [0, 0x80]] ∧
        State.touches [.host, .outputs] [.HST_PCIE_STATUS, .HST_RING_STATUS] s t)) ∧
  (∀ (s : State) (k : Nat), 32 ≤ k → k < 64 → s.ringFull k = false →
    ∃ t, exec (.dmaError k false) s = .next t ∧ t.rd F.HST_RING_STATUS.RUN k = 0 ∧ t.rd F.HST_RING_STATUS.ERR k = 1 ∧
      t.rd F.HST_ERR_STATUS.DMA_RING 0 = k ∧ t.rd F.HST_ERR_STATUS.DMA_ERR 0 = 1 ∧
      t.host = { s.host with raised := s.host.raised ++ [3, 144 + k] } ∧
      State.frame [.host] [(F.HST_RING_STATUS.RUN, k), (F.HST_RING_STATUS.ERR, k), (F.HST_ERR_STATUS.DMA_RING, 0),
        (F.HST_ERR_STATUS.DMA_ERR, 0)] s t) ∧
  (∀ (s : State) (k : Nat), 32 ≤ k → k < 64 → s.ringFull k = false →
    ∃ t, exec (.dmaError k true) s = .next t ∧ t.rd F.HST_RING_STATUS.RUN k = 0 ∧ t.rd F.HST_RING_STATUS.ERR k = 1 ∧
      t.outputs = s.outputs ++ [.hostWrite (s.ringSlot k + 62) [2, 0x80]] ∧ t.ringW k = s.ringW k + 1 ∧
      State.touches [.host, .outputs] [.HST_ERR_STATUS, .HST_PCIE_STATUS, .HST_RING_STATUS, .TLY_SAMP_CFG, .TLY_SAMP_CNT] s t) ∧
  (∀ (s : State) (k n : Nat) (b : Bool) (p : Pkt), k < 32 → s.ringFull k = false → (∀ x ∈ s.host.messages, x.ring ≠ k) →
    s.puntHead k = some (n, p) →
    ∃ t, exec (.dmaError k b) s = .next t ∧ t.pkt n = none ∧ (∀ m, m ≠ n → t.pkt m = s.pkt m) ∧
      t.rd F.HST_RING_STATUS.RUN k = 0 ∧ t.rd F.HST_RING_STATUS.ERR k = 1 ∧ t.rd F.HST_ERR_STATUS.DMA_RING 0 = k ∧
      State.touches [.host, .inflightA, .inflightB, .outputs, .pkts, .tally] ([.HST_ERR_STATUS, .TLY_STATUS] ++ traceRegs) s t)

/-- R497 to R506, R509 to R512: a cause becomes pending at its source, and on a vector opens or fills a window; a vector that is due takes
its lowest pending, unmasked source and commits a message; a message leaves when nothing masks it; a completion frees the vector; in D3hot
messages wait until D0; the sleep of L2 keeps what PERST gives back. -/
def Obligations.EventsBecomeMessages : Prop :=
  (∀ (s : State) (n : Nat) (rest : List Nat), s.host.raised = n :: rest → n < 244 → s.host.asleep = false →
    ∃ t, exec .eventFire s = .next t ∧ t.srcPending n = true ∧ (∀ m, m < 256 → m ≠ n → t.srcPending m = s.srcPending m) ∧
      t.host.raised = rest ∧ (∀ v, v ≠ s.vectorOf n → t.vec v = s.vec v) ∧
      (s.srcMasked n = true → ∀ v, t.vec v = s.vec v) ∧
      (s.srcMasked n = false → s.srcActive n = false → (s.vec (s.vectorOf n)).window = false → (s.vec (s.vectorOf n)).due = false →
        (s.vec (s.vectorOf n)).active = none →
        (t.vec (s.vectorOf n)).window = true ∧ (t.vec (s.vectorOf n)).fires = 1 ∧
        ((t.vec (s.vectorOf n)).due = true ↔ s.rd F.EVC_COAL.COUNT (s.vectorOf n) ≤ 1 ∨ s.rd F.EVC_COAL.TIME (s.vectorOf n) = 0)) ∧
      State.touches [.host] [.EVC_PENDING, .EVC_SEQ] s t) ∧
  (∀ (s : State) (n : Nat) (rest : List Nat), s.host.raised = n :: rest → n < 244 → s.host.asleep = true →
    ∃ t, exec .eventFire s = .next t ∧ n ∈ t.host.shadow ∧ t.host.raised = rest ∧ (∀ v, t.vec v = s.vec v) ∧
      t.host.wakeN = (s.host.wakeN || s.on F.EVC_SRC_CFG.WAKE n) ∧ State.frame [.host] [] s t) ∧
  (∀ (s : State) (v : Nat), (s.vec v).window = true → (s.vec v).due = false → s.host.asleep = false →
    ∃ t, exec (.coalesceTime v) s = .next t ∧ t.vec v = { s.vec v with due := true } ∧ (∀ u, u ≠ v → t.vec u = s.vec u) ∧
      ((s.vec v).opened + us (s.vec v).needTime < 2 ^ 80 → t.now = max s.now ((s.vec v).opened + us (s.vec v).needTime)) ∧
      State.frame [.frc, .host] [] s t) ∧
  (∀ (s : State) (v n : Nat), v < 64 → (s.vec v).due = true → (s.vec v).active = none → s.host.asleep = false →
    n < 256 → s.vectorOf n = v → s.srcPending n = true → s.srcMasked n = false → s.srcActive n = false →
    (∀ m, m < n → s.vectorOf m = v → s.srcPending m = true → s.srcMasked m = true ∨ s.srcActive m = true) →
    ∃ t, exec (.vectorArbitration v) s = .next t ∧ t.srcPending n = false ∧
      (∀ m, m < 256 → m ≠ n → t.srcPending m = s.srcPending m) ∧
      t.vec v = { s.vec v with
        active := some n, window := false, fires := 0, due := false, message := true } ∧
      t.host.pmeStatus = (s.host.pmeStatus || s.host.d3hot && s.on F.EVC_SRC_CFG.WAKE n) ∧
      t.outputs = s.outputs ++ (if s.host.d3hot && s.on F.EVC_SRC_CFG.WAKE n && s.host.pmeEn then [.pme] else []) ∧
      (∀ u, u ≠ v → t.vec u = s.vec u) ∧ State.touches [.host, .outputs] [.EVC_PENDING, .EVC_SEQ] s t) ∧
  (∀ (s : State) (v : Nat), s.canSend v = true →
    ∃ t, exec (.msixSend v) s = .next t ∧ t.vec v = { s.vec v with message := false } ∧ (∀ u, u ≠ v → t.vec u = s.vec u) ∧
      t.outputs = s.outputs ++ [.msix v ((s.msixWord (4 * v + 1)).toNat * 2 ^ 32 + (s.msixWord (4 * v)).toNat / 4 * 4)
        (s.msixWord (4 * v + 2)).toNat] ∧
      State.frame [.host, .outputs] [(F.HST_PCIE_STATUS.L1, 0)] s t) ∧
  (∀ (s : State) (v n : Nat), v < 64 → n < 256 → s.takes .EVC_COMPLETE = true → (s.vec v).active = some n →
    ∃ t, exec (.evcComplete v n) s = .next t ∧ (t.vec v).active = none ∧
      (∀ u, u ≠ v → u ≠ s.vectorOf n → t.vec u = s.vec u) ∧ (∀ u, u ≠ v → (t.vec u).active = (s.vec u).active) ∧
      State.frame [.host] [] s t) ∧
  (∀ (s : State) (v n : Nat), v < 64 → n < 256 → s.takes .EVC_COMPLETE = true → (s.vec v).active ≠ some n →
    ∃ t, exec (.evcComplete v n) s = .next t ∧ t.rd F.EVC_STATUS.BAD_COMPLETE 0 = 1 ∧
      t.host = { s.host with raised := s.host.raised ++ [3] } ∧ State.frame [.host] [(F.EVC_STATUS.BAD_COMPLETE, 0)] s t) ∧
  (∀ (s : State) (w v : Nat), w < 8 → s.takes .EVC_PENDING = true → s.takes .EVC_MASK = true →
    (∃ t, exec (.evcPendingWrite w v) s = .next t ∧ t.rd F.EVC_PENDING.PENDING w = v % 2 ^ 32 ∧
      (∀ u, (t.vec u).active = (s.vec u).active ∧ (t.vec u).message = (s.vec u).message) ∧
      State.frame [.host] [(F.EVC_PENDING.PENDING, w)] s t) ∧
    (∃ t, exec (.evcMaskWrite w v) s = .next t ∧ t.rd F.EVC_MASK.MASK w = v % 2 ^ 32 ∧
      (∀ u, (t.vec u).active = (s.vec u).active ∧ (t.vec u).message = (s.vec u).message) ∧
      State.frame [.host] [(F.EVC_MASK.MASK, w)] s t)) ∧
  (∀ (s : State) (words : Nat), words < 256 → s.takes .EVC_RESCAN = true →
    ∃ t, exec (.evcRescan words) s = .next t ∧
      (∀ n, n < 244 → t.srcPending n = (s.srcPending n || (words.testBit (n / 32) && s.causeSet n))) ∧
      State.touches [.host] [.EVC_PENDING, .EVC_SEQ] s t) ∧
  (∀ s : State, s.host.asleep = false →
    ∃ t l, exec .d3hotEntry s = .next t ∧ t.host.d3hot = true ∧ t.rd F.HST_PCIE_STATUS.DSTATE 0 = 3 ∧ t.outputs = s.outputs ++ l ∧
      (∀ v, v < 64 → s.canSend v = true → (t.vec v).message = false) ∧
      State.frame [.host, .outputs] [(F.HST_PCIE_STATUS.L1, 0), (F.HST_PCIE_STATUS.DSTATE, 0)] s t) ∧
  (∀ s : State, s.host.d3hot = true →
    ∃ t l, exec .d0Return s = .next t ∧ t.host.d3hot = false ∧ t.rd F.HST_PCIE_STATUS.DSTATE 0 = 0 ∧ t.outputs = s.outputs ++ l ∧
      (∀ v, v < 64 → t.canSend v = false) ∧
      State.frame [.host, .outputs] [(F.HST_PCIE_STATUS.L1, 0), (F.HST_PCIE_STATUS.DSTATE, 0)] s t) ∧
  (∀ s : State, s.host.asleep = false → s.host.link ≠ .down →
    ∃ t im, exec .l2Entry s = .next t ∧ t.host = { s.host with link := .l2, asleep := true, saved := some im } ∧
      im.vecs = s.host.vecs ∧ im.rings = s.host.rings ∧ im.msix = s.host.msix ∧
      State.frame [.host] [(F.HST_PCIE_STATUS.SPEED, 0), (F.HST_PCIE_STATUS.WIDTH, 0), (F.HST_PCIE_STATUS.L1, 0)] s t) ∧
  (∀ (s : State) (speed width : Nat) (im : SleepImage), s.power.released = true → s.host.asleep = true → s.host.saved = some im →
    s.host.shadow = [] →
    ∃ t, exec (.perstRelease speed width true) s = .next t ∧ t.host.asleep = false ∧ t.host.link = .l0 ∧ t.host.d3hot = false ∧
      t.host.rings = im.rings ∧ t.host.vecs = im.vecs ∧ t.host.msix = im.msix ∧ t.rd F.HST_PCIE_STATUS.SPEED 0 = speed % 8 ∧
      t.rd F.HST_PCIE_STATUS.WIDTH 0 = width % 16 ∧
      t.now = max s.now (ms 100) ∧
      State.touches [.frc, .host] [.EVC_MASK, .EVC_PENDING, .EVC_SEQ, .EVC_SRC_CFG, .EVC_COAL, .EVC_STATUS, .HST_ERR_STATUS,
        .HST_PCIE_STATUS, .HST_RING_CFG, .HST_RING_STATUS] s t) ∧
  (∀ (s : State) (speed width : Nat) (good : Bool), s.power.released = true → s.host.asleep = false →
    ∃ t, exec (.perstRelease speed width good) s = .next t ∧ t.host.link = .l0 ∧ t.host.d3hot = false ∧ t.host.asleep = false ∧
      t.host.vecs = [] ∧ t.host.msix = [] ∧ t.now = max s.now (ms 100) ∧
      (∀ k, k < 67 → t.ring k = ⟨0, 0⟩ ∧ t.rd F.HST_RING_CFG.EN k = 0 ∧ t.rd F.HST_RING_STATUS.RUN k = 0) ∧
      State.touches (.frc :: linkParts) ([.EVC_PENDING, .EVC_SEQ, .EVC_STATUS, .HST_ERR_STATUS, .HST_RING_CFG] ++ linkRegs) s t)

/-- R341, R358, R514, R517 to R522, R525, R529: the accesses to a counter pair return its value and clear what they clear, or answer the
code of what is wrong; one that needs DRAM while that serves nothing waits; a write-back changes no readable value; a freeze stops the
readable values until it is thawed, and a snapshot writes them to the host and goes live again; bandwidth windows and the instruction
histograms follow. A pair in DRAM is taken with words that hold no error. -/
def Obligations.CounterPairsFreezeAndSnapshot : Prop :=
  (∀ (s : State) (i : Nat), i < s.pairCount → i < 2 ^ 25 → s.takes .TLY_CNT_ACC = true → s.rd F.TLY_CNT_ACC.BUSY = 0 →
    (i < 262144 ∨ s.dramStopped = false ∧ s.pairLost i = false ∧ s.wordError (s.pairChannel i) (s.pairAddr i) = 0 ∧
      s.wordError (s.pairChannel i) (s.pairAddr i + 8) = 0) →
    (∃ t, exec (.cntRead i []) s = .next t ∧ t.rd F.TLY_CNT_DATA.PAIR 0 = (s.readPair i).bits ∧ t.rd F.TLY_CNT_ACC.CODE 0 = 0 ∧
      t.rd F.TLY_CNT_ACC.BUSY = 0 ∧
      State.frame [] [(F.TLY_CNT_ACC.OP, 0), (F.TLY_CNT_ACC.INDEX, 0), (F.TLY_CNT_ACC.CODE, 0), (F.TLY_CNT_ACC.BUSY, 0),
        (F.TLY_CNT_DATA.PAIR, 0)] s t) ∧
    (s.tally.frozenPairs = none →
      (∃ t, exec (.cntReadClear i []) s = .next t ∧ t.rd F.TLY_CNT_DATA.PAIR 0 = (s.livePair i).bits ∧
        t.rd F.TLY_CNT_ACC.CODE 0 = 0 ∧ t.livePair i = ⟨0, 0, (s.pair i).invalid⟩ ∧ (∀ j, j ≠ i → t.livePair j = s.livePair j) ∧
        State.frame [.dram, .tally] [(F.TLY_CNT_ACC.OP, 0), (F.TLY_CNT_ACC.INDEX, 0), (F.TLY_CNT_ACC.CODE, 0), (F.TLY_CNT_ACC.BUSY, 0),
          (F.TLY_CNT_DATA.PAIR, 0)] s t) ∧
      (∃ t, exec (.cntZero i) s = .next t ∧ t.rd F.TLY_CNT_ACC.CODE 0 = 0 ∧ t.livePair i = ⟨0, 0, false⟩ ∧
        (∀ j, j ≠ i → t.livePair j = s.livePair j) ∧
        State.frame [.dram, .tally] [(F.TLY_CNT_ACC.OP, 0), (F.TLY_CNT_ACC.INDEX, 0), (F.TLY_CNT_ACC.CODE, 0), (F.TLY_CNT_ACC.BUSY, 0)]
          s t))) ∧
  (∀ (s : State) (i : Nat), i < 2 ^ 25 → s.pairCount ≤ i → s.takes .TLY_CNT_ACC = true → s.rd F.TLY_CNT_ACC.BUSY = 0 →
    ∃ t, exec (.cntRead i []) s = .next t ∧ t.rd F.TLY_CNT_ACC.CODE 0 = 1 ∧
      State.frame [] [(F.TLY_CNT_ACC.OP, 0), (F.TLY_CNT_ACC.INDEX, 0), (F.TLY_CNT_ACC.CODE, 0), (F.TLY_CNT_ACC.BUSY, 0)] s t) ∧
  (∀ (s : State) (i : Nat), i < s.pairCount → i < 2 ^ 25 → s.takes .TLY_CNT_ACC = true → s.rd F.TLY_CNT_ACC.BUSY = 0 →
    (s.pairLost i = true →
      ∃ t, exec (.cntReadClear i []) s = .next t ∧ t.rd F.TLY_CNT_DATA.PAIR 0 = 2 ^ 120 ∧ t.rd F.TLY_CNT_ACC.CODE 0 = 3 ∧
        State.frame [] [(F.TLY_CNT_ACC.OP, 0), (F.TLY_CNT_ACC.INDEX, 0), (F.TLY_CNT_ACC.CODE, 0), (F.TLY_CNT_ACC.BUSY, 0),
          (F.TLY_CNT_DATA.PAIR, 0)] s t) ∧
    (s.dramStopped = true → 262144 ≤ i → s.pairLost i = false →
      ∃ t, exec (.cntRead i []) s = .next t ∧ t.rd F.TLY_CNT_ACC.BUSY = 1 ∧
        State.frame [] [(F.TLY_CNT_ACC.OP, 0), (F.TLY_CNT_ACC.INDEX, 0), (F.TLY_CNT_ACC.BUSY, 0)] s t)) ∧
  (∀ (s : State) (i : Nat) (c : Instr), s.takes .TLY_CNT_ACC = true → s.rd F.TLY_CNT_ACC.BUSY = 1 →
    c ∈ [Instr.cntRead i [], .cntReadClear i [], .cntZero i] → exec c s = .next s) ∧
  (∀ (s : State) (i : Nat), Sparse.read Pair.zero s.tally.cache i ≠ Pair.zero → s.freezeState = 0 → s.dramStopped = false →
    (s.pairLost i = false → (i < 262144 ∨ s.wordError (s.pairChannel i) (s.pairAddr i) = 0 ∧
        s.wordError (s.pairChannel i) (s.pairAddr i + 8) = 0) →
      ∃ t, exec (.counterCacheWriteback i []) s = .next t ∧ t.pair i = (s.pair i).add (Sparse.read Pair.zero s.tally.cache i) ∧
        Sparse.read Pair.zero t.tally.cache i = Pair.zero ∧ (∀ j, t.livePair j = s.livePair j) ∧ State.frame [.dram, .tally] [] s t) ∧
    (s.pairLost i = true →
      ∃ t, exec (.counterCacheWriteback i []) s = .next t ∧ Sparse.read Pair.zero t.tally.cache i = Pair.zero ∧ t.tally.pairs = s.tally.pairs ∧
        t.rd F.TLY_STATUS.LOST 0 = min (s.rd F.TLY_STATUS.LOST 0 + 1) (2 ^ 32 - 1) ∧
        State.frame [.tally] [(F.TLY_STATUS.LOST, 0)] s t)) ∧
  (∀ (s : State) (i : Nat) (e : List (Nat × Nat)),
    exec (.cntRead i e) s = exec (.cntRead i []) (s.strikePair i e) ∧
    exec (.cntReadClear i e) s = exec (.cntReadClear i []) (s.strikePair i e) ∧
    exec (.counterCacheWriteback i e) s = exec (.counterCacheWriteback i []) (s.strikePair i e)) ∧
  (∀ (s : State) (i : Nat), (s.freezeState ≠ 0 ∨ s.dramStopped = true) → exec (.counterCacheWriteback i []) s = .next s) ∧
  (∀ s : State, s.takes .TLY_FREEZE = true → s.freezeState = 0 →
    (∃ t, exec .freeze s = .next t ∧ t.freezeState = 1 ∧ State.frame [] [(F.TLY_FREEZE.STATE, 0)] s t) ∧
    (s.rd F.TLY_SNAP_RANGE.COUNT ≠ 0 → s.rd F.TLY_SNAP_RANGE.FIRST + s.rd F.TLY_SNAP_RANGE.COUNT ≤ s.pairCount →
      ∃ t, exec .snapshot s = .next t ∧ t.freezeState = 3 ∧ State.frame [] [(F.TLY_FREEZE.STATE, 0)] s t) ∧
    (s.pairCount < s.rd F.TLY_SNAP_RANGE.FIRST + s.rd F.TLY_SNAP_RANGE.COUNT →
      ∃ t, exec .snapshot s = .next t ∧ t.freezeState = 0 ∧
        t.rd F.TLY_STATUS.RANGE_CNT 0 = min (s.rd F.TLY_STATUS.RANGE_CNT 0 + 1) 65535 ∧
        State.frame [] [(F.TLY_STATUS.RANGE_CNT, 0)] s t)) ∧
  (∀ s : State, s.freezeState = 1 →
    (s.tally.thawHeld = false →
      ∃ t f, exec .freezeInstant s = .next t ∧ t.freezeState = 2 ∧ t.rd F.TLY_FREEZE.DONE 0 = 1 ∧
        t.host = { s.host with raised := s.host.raised ++ [211] } ∧ t.tally.frozenPairs = some f ∧
        ((s.tally.cache.map (·.1)).Nodup → ∀ i, Sparse.read Pair.zero f i = s.livePair i) ∧ t.tally.pairs = s.tally.pairs ∧
        State.frame [.host, .tally] [(F.TLY_FREEZE.STATE, 0), (F.TLY_FREEZE.DONE, 0)] s t) ∧
    (s.tally.thawHeld = true →
      ∃ t, exec .freezeInstant s = .next t ∧ t.freezeState = 0 ∧ t.rd F.TLY_FREEZE.DONE 0 = 1 ∧ t.tally.frozenPairs = none ∧
        t.tally.thawHeld = false ∧ State.frame [.host, .tally] [(F.TLY_FREEZE.STATE, 0), (F.TLY_FREEZE.DONE, 0)] s t) ∧
    (s.takes .TLY_FREEZE = true →
      ∃ t, exec .thaw s = .next t ∧ t.tally.thawHeld = true ∧ t.freezeState = 1 ∧ State.frame [.tally] [] s t)) ∧
  (∀ s : State, s.freezeState = 3 → s.tally.frozenPairs = none →
    ∃ t f, exec .freezeInstant s = .next t ∧ t.freezeState = 3 ∧ t.tally.frozenPairs = some f ∧
      ((s.tally.cache.map (·.1)).Nodup → ∀ i, Sparse.read Pair.zero f i = s.livePair i) ∧ State.frame [.tally] [] s t) ∧
  (∀ s : State, s.takes .TLY_FREEZE = true → s.freezeState = 2 →
    ∃ t, exec .thaw s = .next t ∧ t.freezeState = 0 ∧ t.tally.frozenPairs = none ∧ (∀ i, t.livePair i = s.livePair i) ∧
      State.frame [.tally] [(F.TLY_FREEZE.STATE, 0)] s t) ∧
  (∀ s : State, s.freezeState = 3 → s.tally.frozenPairs ≠ none →
    (s.dmaStopped = false → s.snapWaits = false →
      (∀ j, j < s.rd F.TLY_SNAP_RANGE.COUNT → s.rd F.TLY_SNAP_RANGE.FIRST + j < 262144 ∨
        ∀ a ∈ [s.pairAddr (s.rd F.TLY_SNAP_RANGE.FIRST + j), s.pairAddr (s.rd F.TLY_SNAP_RANGE.FIRST + j) + 8],
          s.wordError (s.pairChannel (s.rd F.TLY_SNAP_RANGE.FIRST + j)) a = 0) →
      ∃ t, exec .snapshotComplete s = .next t ∧ t.freezeState = 0 ∧ t.tally.frozenPairs = none ∧ t.rd F.TLY_FREEZE.DONE 0 = 1 ∧
        t.outputs = s.outputs ++ [.hostWrite (s.rd F.TLY_SNAP_BASE.BASE)
          ((List.range (s.rd F.TLY_SNAP_RANGE.COUNT)).flatMap (fun j =>
            octetsBE 16 (s.readPair (s.rd F.TLY_SNAP_RANGE.FIRST + j)).bits))] ∧
        State.frame [.host, .outputs, .tally] [(F.TLY_FREEZE.STATE, 0), (F.TLY_FREEZE.DONE, 0), (F.HST_PCIE_STATUS.L1, 0)] s t) ∧
    ((s.dmaStopped = true ∨ s.snapWaits = true) → exec .snapshotComplete s = .next s)) ∧
  (∀ s : State, ∃ t, exec .bwWindowBoundary s = .next t ∧
    (∀ p, p < 208 → t.rd F.TLY_BW_RX.OCTETS p = Sparse.read 0 s.tally.rxOctets p % 2 ^ 64) ∧
    (∀ n, n < 512 → t.rd F.TLY_BW_TX.OCTETS n = Sparse.read 0 s.tally.txOctets n % 2 ^ 64) ∧
    (∀ p, p < 208 → Sparse.read 0 s.tally.rxOctets p < 2 ^ 64 →
      t.rd F.TLY_BW_RX.MAX_OCTETS p = max (s.rd F.TLY_BW_RX.MAX_OCTETS p) (Sparse.read 0 s.tally.rxOctets p)) ∧
    t.rd F.TLY_BW_CFG.SEQ 0 = (s.rd F.TLY_BW_CFG.SEQ 0 + 1) % 2 ^ 16 ∧ t.tally.rxOctets = [] ∧ t.tally.txOctets = [] ∧
    t.tally.bwNext = s.rd F.TLY_BW_CFG.WINDOW ∧ t.tally.bwAt = t.now ∧
    (s.boundary s.tally.bwAt (ms s.tally.bwNext) < 2 ^ 80 → t.now = max s.now (s.boundary s.tally.bwAt (ms s.tally.bwNext))) ∧
    State.touches [.frc, .tally] [.TLY_BW_CFG, .TLY_BW_RX, .TLY_BW_TX] s t) ∧
  (∀ s : State, s.takes .TLY_ISAMP_CFG = true →
    ∃ t, exec .isampClear s = .next t ∧ (∀ i, t.rd F.TLY_ISAMP_HIST.COUNT i = 0) ∧ State.touches [] [.TLY_ISAMP_HIST] s t)

/-- R21, R596 to R601: power comes up with the part in reset; a shutdown or PORST_N takes all of the part back to its reset values but the
flash, OTP and the power stage's record; telemetry shows as measured and sets the alarms. -/
def Obligations.PowerAndTheResetPin : Prop :=
  (∀ s : State, s.power.on = false →
    ∃ t, exec .powerUp s = .next t ∧ t.rd F.EAS_PWR_STATUS.PWR_OK 0 = 1 ∧ t.power.on = true ∧ t.inReset = true ∧
      State.frame [.power] [(F.EAS_PWR_STATUS.PWR_OK, 0)] s t) ∧
  (∀ s : State, s.power.on = false → s.power.latched = false → s.rd F.EAS_PWR_STATUS.LAST_SHUTDOWN ≤ 2 →
    ∃ t, exec .vinRestore s = .next t ∧ t.rd F.EAS_PWR_STATUS.PWR_OK 0 = 1 ∧ t.power.on = true ∧ t.inReset = true ∧
      State.frame [.power] [(F.EAS_PWR_STATUS.PWR_OK, 0)] s t) ∧
  (∀ (s : State) (cause : Nat), s.power.on = true → 1 ≤ cause → cause ≤ 5 →
    ∃ t, exec (.powerShutdown cause) s = .next t ∧ t.rd F.EAS_PWR_STATUS.LAST_SHUTDOWN 0 = cause ∧
      t.rd F.EAS_PWR_STATUS.PWR_OK 0 = 0 ∧
      t.rd F.EAS_PWR_STATUS.SHUTDOWNS 0 = min (s.rd F.EAS_PWR_STATUS.SHUTDOWNS 0 + 1) 255 ∧ t.power.on = false ∧
      (t.power.latched = true ↔ 3 ≤ cause) ∧ t.pending = s.pending ∧ t.outputs = s.outputs ∧
      (s.rd F.EAS_MBOX_STATUS.BUSY 0 = 0 → t.dram.dead = s.dram.dead ∧ t.easel.flash = s.easel.flash ∧ t.easel.keyHash = s.easel.keyHash ∧
        t.reg .EAS_OTP_STATUS 0 = s.reg .EAS_OTP_STATUS 0) ∧
      State.touches [.pending, .outputs, .freeCtr, .dram, .easel, .power] [.EAS_DEVICE_ID, .EAS_OTP_STATUS, .EAS_PWR_STATUS] State.reset t) ∧
  (∀ (s : State) (dur : Nat) (acts : Bool), s.power.on = true → (10000 ≤ dur ∨ 1000 ≤ dur ∧ acts = true) →
    ∃ t, exec (.porstNAssert dur acts) s = .next t ∧ t.inReset = true ∧ t.power.on = true ∧
      (t.power.shortReset = true ↔ dur < 10000) ∧ t.pending = s.pending ∧ t.outputs = s.outputs ∧
      t.reg .EAS_PWR_STATUS 0 = s.reg .EAS_PWR_STATUS 0 ∧
      State.touches [.pending, .outputs, .freeCtr, .dram, .easel, .power] [.EAS_DEVICE_ID, .EAS_OTP_STATUS, .EAS_PWR_STATUS] State.reset t) ∧
  (∀ (s : State) (vin iin pin icF icT : Nat) (tF tT tS : Int) (vddq : Bool), s.inReset = false →
    ∃ t, exec (.telemetryUpdate vin iin pin tF tT tS icF icT vddq) s = .next t ∧ t.rd F.EAS_PWR_TELEM.VIN 0 = vin % 2 ^ 16 ∧
      t.rd F.EAS_PWR_TELEM.IIN 0 = iin % 2 ^ 16 ∧ t.rd F.EAS_PWR_TELEM.PIN 0 = pin % 2 ^ 16 ∧
      t.rd F.EAS_PWR_TELEM.TJ_F 0 = (tF % 256).toNat ∧ t.rd F.EAS_PWR_TELEM.TJ_T 0 = (tT % 256).toNat ∧
      t.rd F.EAS_PWR_TELEM.SEQ 0 = (s.rd F.EAS_PWR_TELEM.SEQ 0 + 1) % 2 ^ 16 ∧
      (vin < 100 * s.rd F.EAS_PWR_CFG.VIN_WARN → s.power.inAlarm.toNat.testBit 0 = false → t.rd F.EAS_PWR_ALARM.VIN_LOW 0 = 1) ∧
      (60500 < vin → s.power.inAlarm.toNat.testBit 1 = false → t.rd F.EAS_PWR_ALARM.VIN_HIGH 0 = 1) ∧
      (110 ≤ tS → s.power.inAlarm.toNat.testBit 3 = false → t.rd F.EAS_PWR_ALARM.STAGE_HOT 0 = 1) ∧
      t.power.inAlarm.toNat.testBit 6 = false ∧
      (s.power.lastTelem + ms 1 < 2 ^ 80 → t.now = max s.now (s.power.lastTelem + ms 1)) ∧ t.power.lastTelem = t.now ∧
      State.touches [.frc, .host, .power] [.EAS_PWR_ALARM, .EAS_PWR_TELEM] s t) ∧
  (∀ s : State, s.inReset = false → s.power.inAlarm.toNat.testBit 6 = false →
    ∃ t, exec .telemStale s = .next t ∧ t.rd F.EAS_PWR_ALARM.TELEM_STALE 0 = 1 ∧
      t.host = { s.host with raised := s.host.raised ++ [1] } ∧ t.power.inAlarm.toNat.testBit 6 = true ∧
      (s.power.lastTelem + ms 10 < 2 ^ 80 → t.now = max s.now (s.power.lastTelem + ms 10)) ∧
      State.frame [.frc, .host, .power] [(F.EAS_PWR_ALARM.TELEM_STALE, 0)] s t)

/-- R537, R543, R550 to R553, R555 to R561: a cold start verifies the slot that the boot record selects, then the other, and ends READY,
in recovery where neither verifies, or in FAULT where the Seam does not come up; a warm restart from a READY part, by its pin or by the
mailbox, ends READY with WARM set, and becomes a cold start where its image or Varnish fails. -/
def Obligations.StartsEndReadyOrSayWhy : Prop :=
  (∀ (s s0 s1 : State) (failFwd failTrf k took : Nat) (failed : List Nat) (peer trial : Bool), s.power.on = true →
    (s.power.released = false ∨ s.rd F.EAS_BOOT_STATUS.STATE = 0) → s.power.shortReset = false →
    s0 = (s.coldReset.withPower { s.coldReset.power with released := true, shortReset := false }).wrBit F.EAS_BOOT_STATUS.UNPROVISIONED 0
      (s.rd F.EAS_OTP_STATUS.PROGRAMMED == 0) → s0.bootSelect = (s1, k, trial) →
    ∃ t, exec (.coldStart failFwd failTrf failed true peer took) s = .next t ∧
      t.rd F.EAS_BOOT_STATUS.STATE 0 =
        (if s1.slotReason k sectionOrder ≠ 0 ∧ s1.slotReason (1 - k) sectionOrder ≠ 0 then 4
          else if 32 < failFwd ∨ 32 < failTrf then 3 else 2) ∧
      ns (min took 1800000000) ≤ t.now ∧
      (t.rd F.EAS_BOOT_STATUS.STATE 0 = 2 → t.pace.admitOpen = false ∧ t.pace.goodRun = 0 ∧ t.easel.readyOnce = true ∧
        t.rd F.EAS_BOOT_STATUS.START_MS 0 = min took 1800000000 / 1000000) ∧
      (t.rd F.EAS_BOOT_STATUS.STATE 0 = 4 → k = 0 → t.rd F.EAS_BOOT_STATUS.FAIL_A 0 = s1.slotReason 0 sectionOrder % 16 ∧
        t.rd F.EAS_BOOT_STATUS.FAIL_B 0 = s1.slotReason 1 sectionOrder % 16 ∧ t.pkts = [] ∧
        (∀ p, t.rd F.ETH_PORT_CFG.EN p = 0))) ∧
  (∀ (s : State) (failFwd failTrf took : Nat) (failed : List Nat) (peer : Bool), s.power.on = true →
    (s.power.released = false ∨ s.rd F.EAS_BOOT_STATUS.STATE = 0) →
    ∃ t, exec (.coldStart failFwd failTrf failed false peer took) s = .next t ∧ t.rd F.EAS_BOOT_STATUS.STATE 0 = 4 ∧
      t.rd F.EAS_BOOT_STATUS.FAIL_A 0 = 9 ∧ t.rd F.EAS_BOOT_STATUS.FAIL_B 0 = 9 ∧ t.power.released = true ∧
      State.touches [.pending, .outputs, .freeCtr, .dram, .easel, .power, .frc]
        [.EAS_BOOT_STATUS, .EAS_DEVICE_ID, .EAS_OTP_STATUS, .EAS_PWR_STATUS] State.reset t) ∧
  (∀ (s : State) (failFwd failTrf took : Nat) (failed : List Nat) (flash peer : Bool),
    (s.power.on = false ∨ s.power.released = true ∧ s.rd F.EAS_BOOT_STATUS.STATE ≠ 0) →
    exec (.coldStart failFwd failTrf failed flash peer took) s = .next s) ∧
  (∀ (s : State) (dur failFwd failTrf took : Nat) (acts ok peer : Bool) (failed : List Nat), s.easel.warmAsked = none →
    s.inReset = false → 1000 ≤ dur → s.rd F.EAS_BOOT_STATUS.STATE 0 = 2 →
    ∃ t, exec (.warmRestart (dur, acts) failFwd failTrf failed ok peer took) s = .next t ∧
      (ok = true → s.slotReason (s.rd F.EAS_BOOT_STATUS.RUN_SLOT) [1] = 0 → failFwd ≤ 32 → failTrf ≤ 32 →
        t.rd F.EAS_BOOT_STATUS.STATE 0 = 2 ∧ t.rd F.EAS_BOOT_STATUS.WARM 0 = 1 ∧
        t.rd F.EAS_BOOT_STATUS.START_MS 0 = min took 250000000 / 1000000 ∧ t.pace.admitOpen = false ∧ t.pkts = []) ∧
      (ok = true → s.slotReason (s.rd F.EAS_BOOT_STATUS.RUN_SLOT) [1] = 0 → (32 < failFwd ∨ 32 < failTrf) →
        t.rd F.EAS_BOOT_STATUS.STATE 0 = 3 ∧ t.pkts = []) ∧
      t.rd F.EAS_BOOT_STATUS.STATE 0 ∈ [2, 3, 4]) ∧
  (∀ (s : State) (dur failFwd failTrf took k : Nat) (acts ok peer : Bool) (failed : List Nat), s.easel.warmAsked = some (some k) →
    ∃ t, exec (.warmRestart (dur, acts) failFwd failTrf failed ok peer took) s = .next t ∧
      (ok = true → s.slotReason k sectionOrder = 0 → failFwd ≤ 32 → failTrf ≤ 32 →
        t.rd F.EAS_BOOT_STATUS.STATE 0 = 2 ∧ t.rd F.EAS_BOOT_STATUS.WARM 0 = 1 ∧ t.easel.warmAsked = none) ∧
      t.rd F.EAS_BOOT_STATUS.STATE 0 ∈ [2, 3, 4]) ∧
  (∀ (s : State) (dur failFwd failTrf took : Nat) (acts ok peer : Bool) (failed : List Nat), s.easel.warmAsked = none →
    s.inReset = false → 1000 ≤ dur → s.rd F.EAS_BOOT_STATUS.STATE 0 ≠ 2 →
    ∃ t, exec (.warmRestart (dur, acts) failFwd failTrf failed ok peer took) s = .next t ∧ t.easel.logSeq = s.easel.logSeq + 1 ∧
      State.frame [.easel] [] s t)

/-- R557, R562 to R570: what a mailbox command reads comes into the buffer, what it writes goes where it names, and each completes with
its code, BUSY 0 and MBOX_DONE; a command that needs a verified slot completes with VERIFY_FAIL where the slot does not verify. -/
def Obligations.MailboxReadsAndAttests : Prop :=
  (∀ (s : State) (c : Instr) (op n : Nat) (bs : List Byte), s.rd F.EAS_MBOX_STATUS.BUSY 0 = 1 → s.rd F.EAS_MBOX_CMD.OP = op →
    (c = .getInfo true ∧ op = 0x01 ∧ n = 642 ∧ bs = s.flash 0 64 ++ s.flash 0x80000 64 ++ s.flash (slotAt 0) 256 ++
        s.flash (slotAt 1) 256 ++ octetsBE 1 (s.rd F.EAS_BOOT_STATUS.FAIL_A) ++ octetsBE 1 (s.rd F.EAS_BOOT_STATUS.FAIL_B) ∨
      c = .flashRead true ∧ op = 0x02 ∧ n = s.argLen ∧ s.argLen ≤ 65536 ∧ s.argAddr + s.argLen ≤ 0x4000000 ∧
        bs = s.flash s.argAddr s.argLen ∨
      c = .logRead true ∧ op = 0x11 ∧ n = 65536 ∧ s.rd F.EAS_MBOX_CMD.ARG < 224 ∧
        bs = s.flash (0x3200000 + 65536 * s.rd F.EAS_MBOX_CMD.ARG) 65536 ∨
      c = .attest ∧ op = 0x0C ∧ n = 768 ∧ bs = s.report (s.mboxOctets 32) ++ padTo 384 (Config.deviceSign (s.report (s.mboxOctets 32))) ∨
      c = .getIdentity ∧ op = 0x0D ∧ n = 404 ∧ bs = padTo 384 Config.deviceModulus ++ octetsBE 4 65537 ++ octetsBE 16 s.easel.serial.toNat) →
    ∃ t, exec c s = .next t ∧ (∀ i, i < bs.length → Sparse.read 0 t.easel.mbox i = bs.getD i 0) ∧
      t.rd F.EAS_MBOX_STATUS.RESULT_LEN 0 = n ∧ t.rd F.EAS_MBOX_STATUS.CODE 0 = 0 ∧ t.rd F.EAS_MBOX_STATUS.BUSY 0 = 0 ∧
      t.rd F.EAS_ALARM.MBOX_DONE 0 = 1 ∧ t.host = { s.host with raised := s.host.raised ++ [2] } ∧
      t.easel = { s.easel with mbox := t.easel.mbox } ∧
      State.touches [.easel, .host] [.EAS_ALARM, .EAS_MBOX_STATUS] s t) ∧
  (∀ s : State, s.rd F.EAS_MBOX_STATUS.BUSY 0 = 1 → s.rd F.EAS_MBOX_CMD.OP = 0x04 →
    ∃ t, exec (.verifySlot true) s = .next t ∧
      t.rd F.EAS_MBOX_STATUS.CODE 0 = (if s.slotReason s.argSlot sectionOrder = 0 then 0 else 4) ∧
      (s.slotReason s.argSlot sectionOrder ≠ 0 →
        Sparse.read 0 t.easel.mbox 0 = BitVec.ofNat 8 (s.slotReason s.argSlot sectionOrder)) ∧
      t.rd F.EAS_MBOX_STATUS.BUSY 0 = 0 ∧ State.touches [.easel, .host] [.EAS_ALARM, .EAS_MBOX_STATUS] s t) ∧
  (∀ (s : State) (took : Nat), s.rd F.EAS_MBOX_STATUS.BUSY 0 = 1 → s.rd F.EAS_MBOX_CMD.OP = 0x07 →
    ∃ t, exec (.switchFw true took) s = .next t ∧
      (s.slotReason s.argSlot [1] = 0 → t.rd F.EAS_MBOX_STATUS.CODE 0 = 0 ∧ t.rd F.EAS_BOOT_STATUS.FW_SLOT 0 = s.argSlot ∧
        t.easel.mEasel = s.sectionHash s.argSlot 1 ∧ t.rd F.EAS_ALARM.FW_SWITCHED 0 = 1 ∧
        (s.now + ns (min took 500000000) < 2 ^ 80 → t.now = s.now + ns (min took 500000000))) ∧
      (s.slotReason s.argSlot [1] ≠ 0 → t.rd F.EAS_MBOX_STATUS.CODE 0 = 4 ∧ t.now = s.now) ∧
      t.rd F.EAS_MBOX_STATUS.BUSY 0 = 0 ∧ t.pkts = s.pkts ∧
      State.touches [.easel, .frc, .host, .tables] [.EAS_ALARM, .EAS_BOOT_STATUS, .EAS_MBOX_STATUS, .TIM_STATUS] s t) ∧
  (∀ s : State, s.rd F.EAS_MBOX_STATUS.BUSY 0 = 1 → s.rd F.EAS_MBOX_CMD.OP = 0x08 →
    ∃ t, exec (.loomLoad true) s = .next t ∧ t.rd F.EAS_MBOX_STATUS.BUSY 0 = 0 ∧
      (s.slotReason s.argSlot [6] ≠ 0 ∨ s.sectionsOf s.argSlot 6 = [] → t.rd F.EAS_MBOX_STATUS.CODE 0 = 4 ∧
        t.easel.mLoom0 = s.easel.mLoom0 ∧ t.easel.mLoom1 = s.easel.mLoom1) ∧
      (∀ b, s.slotReason s.argSlot [6] = 0 → s.sectionsOf s.argSlot 6 ≠ [] → s.ucodeBank = some b →
        t.rd F.EAS_MBOX_STATUS.CODE 0 = 0 ∧ s.ucodeUsed b = false ∧ t.easel.lastLoaded = b ∧
        (if b then t.easel.mLoom1 else t.easel.mLoom0) = some (s.sectionHash s.argSlot 6)) ∧
      State.touches [.easel, .host] [.EAS_ALARM, .EAS_MBOX_STATUS] s t) ∧
  (∀ (s : State) (mask : Nat), s.rd F.EAS_MBOX_STATUS.BUSY 0 = 1 → s.rd F.EAS_MBOX_CMD.OP = 0x09 → mask = natBE (s.mboxOctets 8) % 2 ^ 48 →
    s.easel.swapping = 0 →
    ((if s.easel.lastLoaded then s.easel.mLoom1 else s.easel.mLoom0) = none →
      ∃ t, exec .loomSwap s = .next t ∧ t.rd F.EAS_MBOX_STATUS.CODE 0 = 3 ∧ t.easel = s.easel ∧
        State.touches [.host] [.EAS_ALARM, .EAS_MBOX_STATUS] s t) ∧
    ((if s.easel.lastLoaded then s.easel.mLoom1 else s.easel.mLoom0) ≠ none →
      ∃ t, exec .loomSwap s = .next t ∧
        (∀ n, n < 48 → t.easel.trees1.getLsbD n =
          (if mask.testBit n = true ∧ s.treeEn n = false then s.easel.lastLoaded else s.easel.trees1.getLsbD n)) ∧
        (∀ n, n < 48 → t.easel.swapping.getLsbD n = (mask.testBit n && s.treeEn n)) ∧
        ((∀ n, n < 48 → (mask.testBit n && s.treeEn n) = false) → t.rd F.EAS_MBOX_STATUS.CODE 0 = 0 ∧
          t.rd F.EAS_MBOX_STATUS.BUSY 0 = 0 ∧ t.rd F.EAS_ALARM.LOOM_SWAPPED 0 = 1) ∧
        ((∃ n, n < 48 ∧ (mask.testBit n && s.treeEn n) = true) → t.rd F.EAS_MBOX_STATUS.BUSY 0 = 1 ∧ t.host = s.host) ∧
        State.touches [.easel, .host] [.EAS_ALARM, .EAS_MBOX_STATUS] s t)) ∧
  (∀ s : State, s.rd F.EAS_MBOX_STATUS.BUSY 0 = 1 → s.rd F.EAS_MBOX_CMD.OP = 0x0A →
    ∃ t, exec (.stageCoat true) s = .next t ∧ t.rd F.EAS_MBOX_STATUS.BUSY 0 = 0 ∧
      (s.coatState ≠ 0 → t.rd F.EAS_MBOX_STATUS.CODE 0 = 3 ∧ State.frame [.host] [(F.EAS_MBOX_STATUS.CODE, 0),
        (F.EAS_MBOX_STATUS.RESULT_LEN, 0), (F.EAS_MBOX_STATUS.BUSY, 0), (F.EAS_ALARM.MBOX_DONE, 0)] s t) ∧
      (s.coatState = 0 → s.slotReason s.argSlot [4] ≠ 0 → t.rd F.EAS_MBOX_STATUS.CODE 0 = 4) ∧
      (s.coatState = 0 → s.slotReason s.argSlot [4] = 0 → s.sectionOf s.argSlot 4 = [] → t.rd F.EAS_MBOX_STATUS.CODE 0 = 0) ∧
      State.touches [.badWords, .easel, .host, .tables] [.EAS_ALARM, .EAS_MBOX_STATUS, .SKT_PROG, .SKT_PROFILE, .SKT_PORT_PROFILE, .GLZ_ACT,
        .GLZ_TPL, .GLZ_HASH, .GLZ_EPROF, .GLZ_COAT_ID, .TBL_DESC, .TBL_ERR_STATUS, .PNC_SET, .PNC_RES, .PNC_LKEY, .PNC_STATUS] s t) ∧
  (∀ (s : State) (c : Instr), s.rd F.EAS_MBOX_STATUS.BUSY 0 = 1 →
    (c = .getInfo false ∧ s.rd F.EAS_MBOX_CMD.OP = 0x01 ∨
      c = .flashRead false ∧ s.rd F.EAS_MBOX_CMD.OP = 0x02 ∧ s.argLen ≤ 65536 ∧ s.argAddr + s.argLen ≤ 0x4000000 ∨
      c = .setBoot false ∧ s.rd F.EAS_MBOX_CMD.OP = 0x05 ∨ c = .confirm false ∧ s.rd F.EAS_MBOX_CMD.OP = 0x06 ∨
      c = .logRead false ∧ s.rd F.EAS_MBOX_CMD.OP = 0x11 ∧ s.rd F.EAS_MBOX_CMD.ARG < 224) →
    ∃ t, exec c s = .next t ∧ t.rd F.EAS_MBOX_STATUS.CODE 0 = 5 ∧ t.rd F.EAS_MBOX_STATUS.BUSY 0 = 0 ∧
      t.rd F.EAS_ALARM.MBOX_DONE 0 = 1 ∧ State.touches [.host] [.EAS_ALARM, .EAS_MBOX_STATUS] s t)

/-- R534, R546, R548, R549, R557, R560, R570: a flash write that starts at a sector leaves its octets there and no other sector changed; a
boot record written is the one in force, with SEQ one more; OTP bits are only ever added; the persistent region is mirrored; a warm
restart is asked for; a cold one resets the part. -/
def Obligations.MailboxWritesAndRestarts : Prop :=
  (∀ s : State, s.rd F.EAS_MBOX_STATUS.BUSY 0 = 1 → s.rd F.EAS_MBOX_CMD.OP = 0x03 → s.argLen ≤ 65536 → s.flashWritable = true →
    s.argAddr % 65536 = 0 →
    ∃ t, exec (.flashWrite true) s = .next t ∧ t.rd F.EAS_MBOX_STATUS.CODE 0 = 0 ∧ t.rd F.EAS_MBOX_STATUS.BUSY 0 = 0 ∧
      (∀ i, i < s.argLen → Sparse.read 0xFF t.easel.flash (s.argAddr + i) = Sparse.read 0 s.easel.mbox i) ∧
      (∀ a, a / 65536 ≠ s.argAddr / 65536 → Sparse.read 0xFF t.easel.flash a = Sparse.read 0xFF s.easel.flash a) ∧
      State.touches [.easel, .host] [.EAS_ALARM, .EAS_MBOX_STATUS] s t) ∧
  (∀ (s : State) (c : Instr) (k : Nat) (trial : Bool), s.rd F.EAS_MBOX_STATUS.BUSY 0 = 1 →
    (c = .setBoot true ∧ s.rd F.EAS_MBOX_CMD.OP = 0x05 ∧ k = s.argSlot ∧ trial = s.argFlag ∨
      c = .confirm true ∧ s.rd F.EAS_MBOX_CMD.OP = 0x06 ∧ k = s.rd F.EAS_BOOT_STATUS.RUN_SLOT ∧ trial = false) →
    ∃ t, exec c s = .next t ∧ t.bootRecord = ⟨(s.bootRecord.seq + 1) % 2 ^ 32, k, trial, false⟩ ∧
      (∀ a, 0x100000 ≤ a → Sparse.read 0xFF t.easel.flash a = Sparse.read 0xFF s.easel.flash a) ∧
      (c = .confirm true → t.rd F.EAS_BOOT_STATUS.TRIAL 0 = 0) ∧ t.rd F.EAS_MBOX_STATUS.CODE 0 = 0 ∧
      State.touches [.easel, .host] [.EAS_ALARM, .EAS_BOOT_STATUS, .EAS_MBOX_STATUS] s t) ∧
  (∀ (s : State) (k : Nat), s.rd F.EAS_MBOX_STATUS.BUSY 0 = 1 → s.rd F.EAS_MBOX_CMD.ARG = k → k < 4 →
    (s.rd F.EAS_MBOX_CMD.OP = 0x0E → (s.rd F.EAS_OTP_STATUS.PROGRAMMED).testBit k = false →
      (s.rd F.EAS_OTP_STATUS.PROGRAMMED = 0 ∨ s.keyLive (s.rd F.EAS_BOOT_STATUS.KEY_SLOT) = true) →
      ∃ t, exec .keyProgram s = .next t ∧ t.rd F.EAS_OTP_STATUS.PROGRAMMED 0 = s.rd F.EAS_OTP_STATUS.PROGRAMMED + 2 ^ k ∧
        Sparse.read 0 t.easel.keyHash k = BitVec.ofNat 256 (natBE (s.mboxOctets 32)) ∧
        (∀ j, j ≠ k → Sparse.read 0 t.easel.keyHash j = Sparse.read 0 s.easel.keyHash j) ∧ t.rd F.EAS_MBOX_STATUS.CODE 0 = 0 ∧
        State.touches [.easel, .host] [.EAS_ALARM, .EAS_MBOX_STATUS, .EAS_OTP_STATUS] s t) ∧
    (s.rd F.EAS_MBOX_CMD.OP = 0x0F → k ≠ s.rd F.EAS_BOOT_STATUS.KEY_SLOT → (∃ j, j < 4 ∧ j ≠ k ∧ s.keyLive j = true) →
      ∃ t, exec .keyRevoke s = .next t ∧
        (∀ j, (t.rd F.EAS_OTP_STATUS.REVOKED 0).testBit j = ((s.rd F.EAS_OTP_STATUS.REVOKED).testBit j || j == k)) ∧
        t.rd F.EAS_OTP_STATUS.PROGRAMMED 0 = s.rd F.EAS_OTP_STATUS.PROGRAMMED ∧ t.rd F.EAS_MBOX_STATUS.CODE 0 = 0 ∧
        State.touches [.host] [.EAS_ALARM, .EAS_MBOX_STATUS, .EAS_OTP_STATUS] s t) ∧
    (s.rd F.EAS_MBOX_CMD.OP = 0x0F → k = s.rd F.EAS_BOOT_STATUS.KEY_SLOT →
      ∃ t, exec .keyRevoke s = .next t ∧ t.rd F.EAS_MBOX_STATUS.CODE 0 = 3 ∧
        State.touches [.host] [.EAS_ALARM, .EAS_MBOX_STATUS] s t)) ∧
  (∀ s : State, s.rd F.EAS_MBOX_STATUS.BUSY 0 = 1 → s.rd F.EAS_MBOX_CMD.OP = 0x10 → s.easel.secVersion < 128 →
    ∃ t, exec .raiseVersion s = .next t ∧
      t.rd F.EAS_OTP_STATUS.SEC_VERSION 0 = max (s.rd F.EAS_OTP_STATUS.SEC_VERSION) s.easel.secVersion ∧
      t.rd F.EAS_MBOX_STATUS.CODE 0 = 0 ∧ State.touches [.host] [.EAS_ALARM, .EAS_MBOX_STATUS, .EAS_OTP_STATUS] s t) ∧
  (∀ (s : State) (c : Instr),
    (c = .varnishMirror true ∧ s.easel.dirtySince ≠ none ∧ s.rd F.EAS_BOOT_STATUS.STATE = 2 ∨
      c = .mirrorNow true ∧ s.rd F.EAS_MBOX_STATUS.BUSY 0 = 1 ∧ s.rd F.EAS_MBOX_CMD.OP = 0x12) →
    ∃ t n, exec c s = .next t ∧ t.mirrorNewest = some (n, s.easel.persist) ∧ t.rd F.VRN_STATUS.MIRROR_SEQ 0 = n % 2 ^ F.VRN_STATUS.MIRROR_SEQ.len ∧
      t.easel.dirtySince = none ∧ t.easel.persist = s.easel.persist ∧
      State.touches [.easel, .host] [.EAS_ALARM, .EAS_MBOX_STATUS, .VRN_STATUS] s t) ∧
  (∀ s : State, s.rd F.EAS_MBOX_STATUS.BUSY 0 = 1 → s.rd F.EAS_MBOX_CMD.OP = 0x0B → s.rd F.EAS_BOOT_STATUS.STATE = 2 →
    (s.argFlag = false →
      ∃ t, exec (.restartWarm true) s = .next t ∧ t.easel = { s.easel with warmAsked := some none } ∧ t.rd F.EAS_MBOX_STATUS.CODE 0 = 0 ∧
        State.touches [.easel, .host] [.EAS_ALARM, .EAS_MBOX_STATUS] s t) ∧
    (s.argFlag = true →
      ∃ t, exec (.restartWarm true) s = .next t ∧
        t.rd F.EAS_MBOX_STATUS.CODE 0 = (if s.slotReason s.argSlot sectionOrder ≠ 0 then 4
          else if (padTo 256 (s.sectionOf s.argSlot 2)).drop 1 = s.easel.deviceCfg.drop 1 then 0 else 7) ∧
        (t.rd F.EAS_MBOX_STATUS.CODE 0 = 0 → t.easel = { s.easel with warmAsked := some (some s.argSlot) }) ∧
        (t.rd F.EAS_MBOX_STATUS.CODE 0 = 7 → t.easel = s.easel) ∧ State.touches [.easel, .host] [.EAS_ALARM, .EAS_MBOX_STATUS] s t)) ∧
  (∀ s : State, s.rd F.EAS_MBOX_STATUS.BUSY 0 = 1 → s.rd F.EAS_MBOX_CMD.OP = 0x13 →
    ∃ t, exec .restartCold s = .next t ∧ t.pending = s.pending ∧ t.outputs = s.outputs ∧ t.easel.flash = s.easel.flash ∧
      t.dram.dead = s.dram.dead ∧ State.touches [.pending, .outputs, .freeCtr, .dram, .easel, .power] [.EAS_DEVICE_ID, .EAS_OTP_STATUS, .EAS_PWR_STATUS] State.reset t)

/-- R575 to R585: ANNOUNCE, TIME and MAP go out on the lanes in use, each with the lane's own sequence number; an ANNOUNCE brings its lane
up where the peer fits and is a wiring error where it does not; a TIME from the followed uplink gives an offset; a MAP from it is taken;
the acting system manager keeps the module map; a lost uplink is followed no more; a manager that stands by takes over when its peer link
is down (which manager then acts: the choice of log entry 109), and a secondary one stands by when host software says so. -/
def Obligations.EmvexLanesTimeAndMap : Prop :=
  (∀ s : State, s.emvReady = true →
    (∃ t, exec .announceSend s = .next t ∧
      t.outputs = s.outputs ++ ((List.range 18).filter s.wired).map (fun l => .emvex l (s.emvHeader l 1 0xFFFF ++
        (octetsBE 2 s.coatId ++ octetsBE 1 s.coatState ++ octetsBE 1 (s.rd F.EAS_BOOT_STATUS.STATE) ++ octetsBE 1 (s.rd F.FAB_CFG.EPOCH) ++
          octetsBE 1 (s.rd F.EMV_STATUS.HOPS) ++ octetsBE 4 s.emv.mapVer))) ∧
      (∀ l, (t.emvLane l).seq = (if l < 18 ∧ s.wired l = true then ((s.emvLane l).seq + 1) % 2 ^ 32 else (s.emvLane l).seq)) ∧
      (s.boundary s.emv.announcedAt (ms 1) < 2 ^ 80 → t.now = s.boundary s.emv.announcedAt (ms 1)) ∧ t.emv.announcedAt = t.now ∧
      State.frame [.emv, .frc, .outputs] [] s t) ∧
    (∀ sub : Nat, ∃ t τ, exec (.timeSend sub) s = .next t ∧ τ = t.localOf t.anchor (t.stampAt sub).toNat ∧
      t.outputs = s.outputs ++ ((List.range 18).filter s.wired).map (fun l => .emvex l (s.emvHeader l 2 0xFFFF ++
        (octetsBE 10 τ ++ octetsBE 10 ((s.emvLane l).echo.getD (0, 0)).1 ++ octetsBE 10 ((s.emvLane l).echo.getD (0, 0)).2))) ∧
      (s.boundary s.emv.timeAt (ms 1) < 2 ^ 80 → t.now = s.boundary s.emv.timeAt (ms 1)) ∧ t.emv.timeAt = t.now ∧
      State.frame [.emv, .frc, .outputs] [] s t) ∧
    (s.acting = true → s.emvRole = 3 → ∃ t, exec .mapSend s = .next t ∧
      t.outputs = s.outputs ++ (s.downlinks ++ [1]).map (fun l =>
        .emvex l (s.emvHeader l 3 0xFFFF ++ (octetsBE 4 s.emv.mapVer ++ mapOctets s.mapNat))) ∧
      (s.boundary s.emv.mapAt (ms 100) < 2 ^ 80 → t.now = s.boundary s.emv.mapAt (ms 100)) ∧ t.emv.mapAt = t.now ∧ State.frame [.emv, .frc, .outputs] [] s t)) ∧
  (∀ (s : State) (l sub : Nat) (m : List Byte) (c : Instr), s.emvReady = true → l < 18 →
    c ∈ [.announceReceive l m false, .timeReceive l m false sub, .mapReceive l m false, .joinReceive l m false,
      .prepareReceive l m false, .replyReceive l m false, .cancelReceive l m false] →
    ∃ t, exec c s = .next t ∧ t.emv = { s.emv with discards := s.emv.discards + 1 } ∧ State.frame [.emv] [] s t) ∧
  (∀ (s : State) (l : Nat) (m : List Byte), s.emvReady = true → l < 18 → emvField m 0 1 = 1 → emvField m 1 1 = 1 →
    ∃ t, exec (.announceReceive l m true) s = .next t ∧
      t.rd F.EMV_LANE_STATUS.UP l =
        (if s.peerFits l (emvField m 2 2) (emvField m 7 1) ((emvField m 6 1).testBit 0) then 1 else 0) ∧
      (s.peerFits l (emvField m 2 2) (emvField m 7 1) ((emvField m 6 1).testBit 0) = false →
        t.rd F.EMV_LANE_STATUS.WIRING_ERR l = 1 ∧ t.rd F.EMV_ALARM.WIRING_ERR 0 = 1) ∧
      t.rd F.EMV_LANE_STATUS.PEER_MOD l = emvField m 2 2 % 2048 ∧ (t.emvLane l).announceAt = some s.now ∧
      (t.emvLane l).heardAt = some s.now ∧ (t.emvLane l).hops = emvField m 21 1 ∧
      State.touches [.emv, .host, .outputs] [.EMV_ALARM, .EMV_LANE_STATUS, .EMV_MAP, .EMV_STATUS, .FAB_PEER, .TIM_STATUS] s t) ∧
  (∀ (s : State) (l sub : Nat) (m : List Byte), s.emvReady = true → l < 18 → emvField m 0 1 = 1 → emvField m 1 1 = 2 →
    (s.follow ≠ some l → ∃ t, exec (.timeReceive l m true sub) s = .next t ∧
      (t.emvLane l).echo = some (emvField m 16 10, s.localOf s.anchor (s.stampAt sub).toNat) ∧
      (∀ k, k ≠ l → t.emvLane k = s.emvLane k) ∧ State.frame [.emv] [] s t) ∧
    (s.follow = some l → (emvField m 6 1).testBit 2 = true → emvField m 26 10 ≠ 0 →
      ∃ t off, exec (.timeReceive l m true sub) s = .next t ∧
        off = timeOffset (emvField m 26 10) (emvField m 36 10) (emvField m 16 10) (s.localOf s.anchor (s.stampAt sub).toNat) ∧
        t.emv.offsets = (off :: s.emv.offsets).take 3 ∧
        (t.rd F.EMV_STATUS.TIME_OK 0 = 1 ↔ s.rd F.EMV_STATUS.TIME_OK 0 = 1 ∨ offsetsAgree ((off :: s.emv.offsets).take 3) = true) ∧
        State.touches [.emv, .freeCtr, .host, .time] [.EMV_STATUS, .ETH_SEC_STATUS, .TIM_ANCHOR, .TIM_STATUS] s t) ∧
    (s.follow = some l → (emvField m 6 1).testBit 2 = false → ∃ t, exec (.timeReceive l m true sub) s = .next t ∧
      t.rd F.EMV_ALARM.UPLINK_LOST 0 = 1 ∧ t.rd F.EMV_STATUS.TIME_OK 0 = 0 ∧ t.follow ≠ some l ∧
      State.touches [.emv, .host] [.EMV_ALARM, .EMV_STATUS, .TIM_STATUS] s t)) ∧
  (∀ (s : State) (l : Nat) (m : List Byte), s.emvReady = true → l < 18 → emvField m 0 1 = 1 → emvField m 1 1 = 3 →
    s.follow = some l → s.emv.mapHeard = false →
    ∃ t, exec (.mapReceive l m true) s = .next t ∧ t.emv.mapVer = emvField m 16 4 ∧ t.emv.mapHeard = true ∧
      (∀ w, w < 32 → t.rd F.EMV_MAP.MAP w = octetsMap (m.drop 20) / 2 ^ (64 * w) % 2 ^ 64 ∧
        t.rd F.FAB_PEER.EXPECT w = octetsMap (m.drop 20) / 2 ^ (64 * w) % 2 ^ 64) ∧ t.rd F.EMV_ALARM.MAP_CHG 0 = 1 ∧
      State.touches [.emv, .host, .outputs] [.EMV_ALARM, .EMV_MAP, .FAB_PEER] s t) ∧
  (∀ (s : State) (l md : Nat) (m : List Byte), s.emvReady = true → l < 18 → emvField m 0 1 = 1 → emvField m 1 1 = 4 →
    s.follow ≠ some l → emvField m 16 2 = md → md < 2048 →
    (s.emvRole = 3 → s.acting = true → ∃ t, exec (.joinReceive l m true) s = .next t ∧
      (∀ d, d < 2048 → t.mapBit d = (s.mapBit d || d == md)) ∧
      (s.mapBit md = false → t.emv.mapVer = (s.emv.mapVer + 1) % 2 ^ 32) ∧
      State.touches [.emv, .host, .outputs] [.EMV_ALARM, .EMV_MAP, .FAB_PEER] s t) ∧
    (∀ f, s.emvRole ≠ 3 → s.follow = some f → ∃ t, exec (.joinReceive l m true) s = .next t ∧
      t.outputs = s.outputs ++ [.emvex f (s.emvHeader f 4 (s.rd F.EMV_LANE_STATUS.PEER_MOD f) ++ octetsBE 2 md)] ∧
      State.frame [.emv, .outputs] [] s t)) ∧
  (∀ (s : State) (md : Nat), md < 2048 → s.takes .EMV_MAP_CTRL = true →
    (s.emvRole = 3 → s.acting = true → s.mapBit md = true → ∃ t, exec (.mapRemove md) s = .next t ∧
      (∀ d, d < 2048 → t.mapBit d = (s.mapBit d && d != md)) ∧ t.emv.mapVer = (s.emv.mapVer + 1) % 2 ^ 32 ∧
      State.touches [.emv, .host, .outputs] [.EMV_ALARM, .EMV_MAP, .EMV_MAP_CTRL, .FAB_PEER] s t) ∧
    ((s.emvRole ≠ 3 ∨ s.acting = false) → ∃ t, exec (.mapRemove md) s = .next t ∧ t.rd F.EMV_ALARM.CMD_ERR 0 = 1 ∧
      State.frame [.host] [(F.EMV_ALARM.CMD_ERR, 0), (F.EMV_MAP_CTRL.MOD_ID, 0)] s t)) ∧
  (∀ (s : State) (l : Nat), s.follow = some l →
    ∃ t, exec (.uplinkLost true) s = .next t ∧ t.rd F.EMV_LANE_STATUS.UP l = 0 ∧ t.rd F.EMV_ALARM.UPLINK_LOST 0 = 1 ∧
      t.follow ≠ some l ∧ t.rd F.EMV_STATUS.TIME_OK 0 = 0 ∧ t.now = s.now ∧
      State.touches [.emv, .host] [.EMV_ALARM, .EMV_LANE_STATUS, .EMV_STATUS, .TIM_STATUS] s t) ∧
  (∀ (s : State) (l due : Nat), s.follow = some l → due = (s.emvLane l).heardAt.getD 0 + s.emvLoss → due < 2 ^ 80 →
    ∃ t, exec (.uplinkLost false) s = .next t ∧ t.rd F.EMV_LANE_STATUS.UP l = 0 ∧ t.rd F.EMV_ALARM.UPLINK_LOST 0 = 1 ∧
      t.follow ≠ some l ∧ t.rd F.EMV_STATUS.TIME_OK 0 = 0 ∧ t.now = max s.now due ∧
      State.touches [.emv, .frc, .host] [.EMV_ALARM, .EMV_LANE_STATUS, .EMV_STATUS, .TIM_STATUS] s t) ∧
  (∀ (s : State) (l : Nat), s.follow ≠ some l → s.laneUp l = true →
    ∃ t, exec (.emvexLaneDown l true) s = .next t ∧ t.rd F.EMV_LANE_STATUS.UP l = 0 ∧ t.emv = { s.emv with peerDownAt := t.emv.peerDownAt } ∧
      (l = 1 → t.emv.peerDownAt = s.now) ∧ State.frame [.emv] [(F.EMV_LANE_STATUS.UP, l)] s t) ∧
  (∀ s : State, s.emvReady = true → s.emvRole ≠ 0 →
    (s.acting = false → s.laneUp 1 = false → ∃ t, exec .secondaryTakeover s = .next t ∧ t.acting = true ∧
      t.rd F.EMV_ALARM.TAKEOVER 0 = 1 ∧ t.rd F.EMV_STATUS.TAKEOVERS 0 = (s.rd F.EMV_STATUS.TAKEOVERS 0 + 1) % 2 ^ 32 ∧
      (s.emv.peerDownAt + s.emvLoss < 2 ^ 80 → t.now = max s.now (s.emv.peerDownAt + s.emvLoss)) ∧
      State.touches [.emv, .frc, .host] [.EMV_ALARM, .EMV_STATUS] s t) ∧
    (s.emvPrimary = false → s.acting = true → s.takes .EMV_CTRL = true → ∃ t, exec .revert s = .next t ∧ t.acting = false ∧
      State.touches [.emv, .host] [.EMV_ALARM, .EMV_STATUS, .TIM_STATUS] s t))

/-- R586 to R590: a commit is refused with CMD_ERR where the module does not act or T is too near, and else goes to every module; a module
arms its swap or refuses with the first test that fails, and replies; the replies are summed; at its deadline the acting system manager
lets the commit stand or cancels it, and at the comparison says whether the coats agree. -/
def Obligations.CoatCommitsAcrossModules : Prop :=
  (∀ (s : State) (coat T : Nat), coat < 65536 → T < 2 ^ 64 → s.emvRole = 3 → s.acting = true →
    s.takes .EMV_COMMIT_CTRL = true → s.rd F.EMV_COMMIT_STATUS.STATE ≠ 1 → s.rd F.EMV_COMMIT_STATUS.STATE ≠ 2 →
    s.localNow + ms 10 ≤ T * 65536 →
    ∃ t c, exec (.commitGo coat T) s = .next t ∧ t.rd F.EMV_COMMIT_STATUS.STATE 0 = 1 ∧ t.emv.commit = some c ∧
      c.id = (s.emv.commitId + 1) % 2 ^ 32 ∧ c.at_ = T ∧ c.coat = coat ∧ c.own = s.prepareTest coat T ∧ t.emv.commitId = c.id ∧
      t.rd F.EMV_COMMIT_STATUS.ARMED 0 = (if c.own = 0 then 1 else 0) ∧
      (c.own = 0 → t.coatState = 1 ∧ t.rd F.GLZ_COAT_AT.TIME 0 = T) ∧ (c.own ≠ 0 → t.coatState = s.coatState) ∧
      t.outputs = s.outputs ++ (s.downlinks ++ [1]).map (fun l => .emvex l (s.emvHeader l 5 0xFFFF ++ prepareBody c.id coat T)) ∧
      State.touches [.emv, .outputs] [.EMV_COMMIT_CTRL, .EMV_COMMIT_STATUS, .GLZ_COAT_AT, .GLZ_COAT_STATUS] s t) ∧
  (∀ (s : State) (coat T : Nat), coat < 65536 → T < 2 ^ 64 → s.takes .EMV_COMMIT_CTRL = true →
    (s.emvRole ≠ 3 ∨ s.acting = false ∨ s.rd F.EMV_COMMIT_STATUS.STATE = 1 ∨ s.rd F.EMV_COMMIT_STATUS.STATE = 2 ∨
      T * 65536 < s.localNow + ms 10) →
    ∃ t, exec (.commitGo coat T) s = .next t ∧ t.rd F.EMV_ALARM.CMD_ERR 0 = 1 ∧ t.emv = s.emv ∧ t.outputs = s.outputs ∧
      State.touches [.host] [.EMV_ALARM, .EMV_COMMIT_CTRL] s t) ∧
  (∀ (s : State) (l : Nat) (m : List Byte), s.emvReady = true → l < 18 → emvField m 0 1 = 1 → emvField m 1 1 = 5 →
    s.follow = some l → s.emvRole = 0 →
    ∃ t c body, exec (.prepareReceive l m true) s = .next t ∧ t.emv.commit = some c ∧ c.id = emvField m 16 4 ∧ c.sent = true ∧
      c.own = s.prepareTest (emvField m 20 2) (emvField m 22 8) ∧
      (c.own = 0 → t.coatState = 1 ∧ t.rd F.GLZ_COAT_AT.TIME 0 = emvField m 22 8) ∧ (c.own ≠ 0 → t.coatState = s.coatState) ∧
      t.outputs = s.outputs ++ [.emvex l (s.emvHeader l 6 (s.rd F.EMV_LANE_STATUS.PEER_MOD l) ++ (octetsBE 4 c.id ++ body))] ∧
      State.touches [.emv, .outputs] [.GLZ_COAT_AT, .GLZ_COAT_STATUS] s t) ∧
  (∀ (s : State) (l : Nat) (m : List Byte) (c : Commit), s.emvReady = true → l < 18 → emvField m 0 1 = 1 → emvField m 1 1 = 6 →
    s.follow ≠ some l → s.emv.commit = some c → emvField m 16 4 = c.id →
    ∃ t, exec (.replyReceive l m true) s = .next t ∧
      (t.emvLane l).reply = some [emvField m 20 2, emvField m 22 2, emvField m 24 2, emvField m 26 2, emvField m 28 1] ∧
      (∀ k, k ≠ l → (t.emvLane k).reply = (s.emvLane k).reply) ∧ State.touches [.emv, .outputs] [.EMV_COMMIT_STATUS] s t) ∧
  (∀ (s : State) (c : Commit), s.emv.commit = some c → c.sent = false → s.emvRole ≠ 0 →
    (s.emvRole = 3 → s.acting = true → ∃ t, exec .replyTimeout s = .next t ∧
      t.rd F.EMV_COMMIT_STATUS.ARMED 0 = (s.replySum c).getD 0 0 % 4096 ∧
      t.rd F.EMV_COMMIT_STATUS.REFUSED 0 = (s.replySum c).getD 1 0 % 4096 ∧ (c.due < 2 ^ 80 → t.now = max s.now c.due) ∧
      State.touches [.frc] [.EMV_COMMIT_STATUS] s t) ∧
    (∀ f, s.emvRole ≠ 3 → s.follow = some f → ∃ t, exec .replyTimeout s = .next t ∧ t.emv.commit = some { c with sent := true } ∧
      (∃ body, t.outputs = s.outputs ++ [.emvex f body]) ∧ State.frame [.emv, .frc, .outputs] [] s t)) ∧
  (∀ (s : State) (l : Nat) (m : List Byte) (c : Commit), s.emvReady = true → l < 18 → emvField m 0 1 = 1 → emvField m 1 1 = 7 →
    s.follow = some l → s.emv.commit = some c → emvField m 16 4 = c.id → c.own = 0 → c.swapped = false → s.coatState = 1 →
    ∃ t, exec (.cancelReceive l m true) s = .next t ∧ t.coatState = 0 ∧
      State.touches [.emv, .outputs] [.GLZ_COAT_STATUS] s t) ∧
  (∀ (s : State) (c : Commit), s.emv.commit = some c → s.emvRole = 3 → s.acting = true → s.rd F.EMV_COMMIT_STATUS.STATE = 1 →
    ∃ t n, exec .commitDeadline s = .next t ∧ n = (s.replySum c).getD 0 0 - (if c.own = 0 ∧ s.mapBit s.modId = false then 1 else 0) ∧
      t.rd F.EMV_COMMIT_STATUS.STATE 0 = (if s.mapModules.length ≤ n then 2 else 3) ∧
      (n < s.mapModules.length → t.rd F.EMV_ALARM.COMMIT_FAIL 0 = 1 ∧
        (c.own = 0 → c.swapped = false → s.coatState = 1 → t.coatState = 0)) ∧
      State.touches [.emv, .frc, .host, .outputs] [.EMV_ALARM, .EMV_COMMIT_STATUS, .GLZ_COAT_STATUS] s t) ∧
  (∀ (s : State) (c : Commit) (heard : List Nat), s.emv.commit = some c → s.emvRole = 3 → s.acting = true → c.live = true →
    heard = s.mapModules.filterMap (s.announcedCoat (s.frcOfLocal (c.at_ * 65536))) →
    ∃ t, exec .commitCompare s = .next t ∧ t.emv.commit = some { c with live := false } ∧
      ((∀ k ∈ heard, k = c.coat) → heard.length = s.mapModules.length →
        t.rd F.EMV_COMMIT_STATUS.STATE 0 = 4 ∧ t.rd F.EMV_ALARM.COMMIT_DONE 0 = 1) ∧
      ((∃ k ∈ heard, k = c.coat) → (∃ k ∈ heard, k ≠ c.coat) →
        t.rd F.EMV_COMMIT_STATUS.STATE 0 = 5 ∧ t.rd F.EMV_ALARM.COMMIT_SPLIT 0 = 1) ∧
      ((∀ k ∈ heard, k = c.coat) ∨ (∀ k ∈ heard, k ≠ c.coat) → heard.length < s.mapModules.length →
        t.rd F.EMV_ALARM.COMMIT_FAIL 0 = 1 ∧
        t.rd F.EMV_COMMIT_STATUS.MISSING 0 = (s.mapModules.length - heard.length) % 4096) ∧
      State.touches [.emv, .frc, .host] [.EMV_ALARM, .EMV_COMMIT_STATUS] s t)
end

