-- ==== Sys2Proof/Laws/Bits.lean ====
section
/-!
SUPPORT. What replacing the bits of a field does to the field and to every other field of the same word.
-/
namespace Sys2Proof.Machine

/-- A replaced field reads as the new value modulo its width. -/
theorem bitsOf_setBits_same (v lo len x : Nat) : bitsOf (setBits v lo len x) lo len = x % 2 ^ len := by
  have hlo : 0 < 2 ^ lo := Nat.two_pow_pos lo
  have hc : v % 2 ^ lo < 2 ^ lo := Nat.mod_lt _ hlo
  have hs : setBits v lo len x
      = v % 2 ^ lo + 2 ^ lo * (x % 2 ^ len + 2 ^ len * (v / 2 ^ (lo + len))) := by
    unfold setBits; rw [Nat.pow_add]; simp only [Nat.mul_add]; ac_rfl
  rw [hs, bitsOf, Nat.add_mul_div_left _ _ hlo, Nat.div_eq_of_lt hc, Nat.zero_add, Nat.add_mul_mod_self_left,
    Nat.mod_mod]

/-- A field that lies wholly above a replaced one keeps its value. -/
theorem bitsOf_setBits_above (v lo len x lo' len' : Nat) (h : lo + len ≤ lo') :
    bitsOf (setBits v lo len x) lo' len' = bitsOf v lo' len' := by
  have hp : 0 < 2 ^ (lo + len) := Nat.two_pow_pos _
  have hx : x % 2 ^ len < 2 ^ len := Nat.mod_lt _ (Nat.two_pow_pos len)
  have hv : v % 2 ^ lo < 2 ^ lo := Nat.mod_lt _ (Nat.two_pow_pos lo)
  have hlt : x % 2 ^ len * 2 ^ lo + v % 2 ^ lo < 2 ^ (lo + len) := by
    have h1 : (x % 2 ^ len + 1) * 2 ^ lo ≤ 2 ^ len * 2 ^ lo := Nat.mul_le_mul_right _ hx
    rw [Nat.pow_add, Nat.mul_comm (2 ^ lo)]; rw [Nat.add_mul] at h1; omega
  have hd : setBits v lo len x / 2 ^ (lo + len) = v / 2 ^ (lo + len) := by
    unfold setBits
    rw [Nat.add_assoc, Nat.mul_comm (v / _), Nat.mul_add_div hp, Nat.div_eq_of_lt hlt, Nat.add_zero]
  obtain ⟨k, rfl⟩ := Nat.exists_eq_add_of_le h
  unfold bitsOf
  rw [Nat.pow_add 2 (lo + len) k, ← Nat.div_div_eq_div_mul, hd, Nat.div_div_eq_div_mul, ← Nat.pow_add]

/-- Bits below `n` are those of the number modulo `2 ^ n`. -/
theorem bitsOf_mod (v lo len n : Nat) (h : lo + len ≤ n) : bitsOf (v % 2 ^ n) lo len = bitsOf v lo len := by
  apply Nat.eq_of_testBit_eq; intro i
  unfold bitsOf
  simp only [Nat.testBit_mod_two_pow, Nat.testBit_div_two_pow]
  by_cases hi : i < len
  · have : i + lo < n := by omega
    simp [hi, this]
  · simp [hi]

/-- A field that lies wholly below a replaced one keeps its value. -/
theorem bitsOf_setBits_below (v lo len x lo' len' : Nat) (h : lo' + len' ≤ lo) :
    bitsOf (setBits v lo len x) lo' len' = bitsOf v lo' len' := by
  rw [← bitsOf_mod (setBits v lo len x) lo' len' lo h, ← bitsOf_mod v lo' len' lo h]
  congr 1
  unfold setBits
  rw [Nat.pow_add, ← Nat.mul_assoc, Nat.mul_right_comm, ← Nat.add_mul, Nat.add_mod, Nat.mul_mod_left, Nat.zero_add,
    Nat.mod_mod, Nat.mod_mod]

/-- A field is smaller than `2 ^` its width. -/
theorem bitsOf_lt (v lo len : Nat) : bitsOf v lo len < 2 ^ len := Nat.mod_lt _ (Nat.two_pow_pos len)

end Sys2Proof.Machine
end

