-- ==== Sys2Proof/Laws/Exec.lean ====
section
/-!
SUPPORT. What `exec` does with each command: its meaning, by name.
-/
namespace Sys2Proof.Machine

@[simp] theorem exec_registerWrite (space : Nat) (addr : Nat) (width : Nat) (data : Nat) (s : State) :
    exec (.registerWrite space addr width data) s = execRegisterWrite space addr width data s := rfl
@[simp] theorem exec_badRegisterAccess (write : Bool) (space : Nat) (addr : Nat) (width : Nat) (data : Nat) (s : State) :
    exec (.badRegisterAccess write space addr width data) s = execBadRegisterAccess write space addr width data s := rfl
@[simp] theorem exec_read64LowWord (addr : Nat) (s : State) : exec (.read64LowWord addr) s = execRead64LowWord addr s := rfl
@[simp] theorem exec_write64LowWord (addr : Nat) (data : Nat) (s : State) :
    exec (.write64LowWord addr data) s = execWrite64LowWord addr data s := rfl
@[simp] theorem exec_readClearField (space : Nat) (addr : Nat) (width : Nat) (s : State) :
    exec (.readClearField space addr width) s = execReadClearField space addr width s := rfl
@[simp] theorem exec_latchingRead (addr : Nat) (width : Nat) (s : State) :
    exec (.latchingRead addr width) s = execLatchingRead addr width s := rfl
@[simp] theorem exec_flitCrcReplay (toTraffic : Bool) (again : Bool) (ch : Nat) (s : State) :
    exec (.flitCrcReplay toTraffic again ch) s = execFlitCrcReplay toTraffic again ch s := rfl
@[simp] theorem exec_seamReplayFailure (toTraffic : Bool) (s : State) :
    exec (.seamReplayFailure toTraffic) s = execSeamReplayFailure toTraffic s := rfl
@[simp] theorem exec_seamDegraded (flitsFwd : Nat) (flitsTrf : Nat) (s : State) :
    exec (.seamDegraded flitsFwd flitsTrf) s = execSeamDegraded flitsFwd flitsTrf s := rfl
@[simp] theorem exec_frameReceive (port : Nat) (octets : List (BitVec 8)) (fcsGood : Bool) (whole : Bool) (sub : Nat) (s : State) :
    exec (.frameReceive port octets fcsGood whole sub) s = execFrameReceive port octets fcsGood whole sub s := rfl
@[simp] theorem exec_pauseRepeat (p : Nat) (s : State) : exec (.pauseRepeat p) s = execPauseRepeat p s := rfl
@[simp] theorem exec_pauseFrameReceive (p : Nat) (quanta : Nat) (s : State) :
    exec (.pauseFrameReceive p quanta) s = execPauseFrameReceive p quanta s := rfl
@[simp] theorem exec_pauseQuantaExpiry (p : Nat) (s : State) : exec (.pauseQuantaExpiry p) s = execPauseQuantaExpiry p s := rfl
@[simp] theorem exec_contextGrant (port : Nat) (s : State) : exec (.contextGrant port) s = execContextGrant port s := rfl
@[simp] theorem exec_earlyLookupIssue (c : Nat) (slotFree : Bool) (s : State) :
    exec (.earlyLookupIssue c slotFree) s = execEarlyLookupIssue c slotFree s := rfl
@[simp] theorem exec_programStart (c : Nat) (s : State) : exec (.programStart c) s = execProgramStart c s := rfl
@[simp] theorem exec_sketchLd (c : Nat) (s : State) : exec (.sketchLd c) s = execSketchLd c s := rfl
@[simp] theorem exec_sketchLdh (c : Nat) (s : State) : exec (.sketchLdh c) s = execSketchLdh c s := rfl
@[simp] theorem exec_sketchMov (c : Nat) (s : State) : exec (.sketchMov c) s = execSketchMov c s := rfl
@[simp] theorem exec_sketchAdd (c : Nat) (s : State) : exec (.sketchAdd c) s = execSketchAdd c s := rfl
@[simp] theorem exec_sketchSub (c : Nat) (s : State) : exec (.sketchSub c) s = execSketchSub c s := rfl
@[simp] theorem exec_sketchAnd (c : Nat) (s : State) : exec (.sketchAnd c) s = execSketchAnd c s := rfl
@[simp] theorem exec_sketchOr (c : Nat) (s : State) : exec (.sketchOr c) s = execSketchOr c s := rfl
@[simp] theorem exec_sketchXor (c : Nat) (s : State) : exec (.sketchXor c) s = execSketchXor c s := rfl
@[simp] theorem exec_sketchShl (c : Nat) (s : State) : exec (.sketchShl c) s = execSketchShl c s := rfl
@[simp] theorem exec_sketchShr (c : Nat) (s : State) : exec (.sketchShr c) s = execSketchShr c s := rfl
@[simp] theorem exec_sketchCsum (c : Nat) (s : State) : exec (.sketchCsum c) s = execSketchCsum c s := rfl
@[simp] theorem exec_sketchXcp (c : Nat) (s : State) : exec (.sketchXcp c) s = execSketchXcp c s := rfl
@[simp] theorem exec_sketchSth (c : Nat) (s : State) : exec (.sketchSth c) s = execSketchSth c s := rfl
@[simp] theorem exec_sketchGetc (c : Nat) (s : State) : exec (.sketchGetc c) s = execSketchGetc c s := rfl
@[simp] theorem exec_sketchAdv (c : Nat) (s : State) : exec (.sketchAdv c) s = execSketchAdv c s := rfl
@[simp] theorem exec_sketchSetc (c : Nat) (s : State) : exec (.sketchSetc c) s = execSketchSetc c s := rfl
@[simp] theorem exec_sketchHdr (c : Nat) (s : State) : exec (.sketchHdr c) s = execSketchHdr c s := rfl
@[simp] theorem exec_sketchLchk (c : Nat) (s : State) : exec (.sketchLchk c) s = execSketchLchk c s := rfl
@[simp] theorem exec_sketchBeq (c : Nat) (s : State) : exec (.sketchBeq c) s = execSketchBeq c s := rfl
@[simp] theorem exec_sketchBne (c : Nat) (s : State) : exec (.sketchBne c) s = execSketchBne c s := rfl
@[simp] theorem exec_sketchBlt (c : Nat) (s : State) : exec (.sketchBlt c) s = execSketchBlt c s := rfl
@[simp] theorem exec_sketchBge (c : Nat) (s : State) : exec (.sketchBge c) s = execSketchBge c s := rfl
@[simp] theorem exec_sketchBts (c : Nat) (s : State) : exec (.sketchBts c) s = execSketchBts c s := rfl
@[simp] theorem exec_sketchBtc (c : Nat) (s : State) : exec (.sketchBtc c) s = execSketchBtc c s := rfl
@[simp] theorem exec_sketchJmp (c : Nat) (s : State) : exec (.sketchJmp c) s = execSketchJmp c s := rfl
@[simp] theorem exec_sketchCall (c : Nat) (s : State) : exec (.sketchCall c) s = execSketchCall c s := rfl
@[simp] theorem exec_sketchJr (c : Nat) (s : State) : exec (.sketchJr c) s = execSketchJr c s := rfl
@[simp] theorem exec_sketchDone (c : Nat) (s : State) : exec (.sketchDone c) s = execSketchDone c s := rfl
@[simp] theorem exec_sketchExc (c : Nat) (s : State) : exec (.sketchExc c) s = execSketchExc c s := rfl
@[simp] theorem exec_sketchDrop (c : Nat) (s : State) : exec (.sketchDrop c) s = execSketchDrop c s := rfl
@[simp] theorem exec_sketchNop (c : Nat) (s : State) : exec (.sketchNop c) s = execSketchNop c s := rfl
@[simp] theorem exec_headerVectorSend (c : Nat) (s : State) : exec (.headerVectorSend c) s = execHeaderVectorSend c s := rfl
@[simp] theorem exec_queueHandoff (n : Nat) (s : State) : exec (.queueHandoff n) s = execQueueHandoff n s := rfl
@[simp] theorem exec_glazeStage (n : Nat) (s : State) : exec (.glazeStage n) s = execGlazeStage n s := rfl
@[simp] theorem exec_actionLdf (n : Nat) (s : State) : exec (.actionLdf n) s = execActionLdf n s := rfl
@[simp] theorem exec_actionStf (n : Nat) (s : State) : exec (.actionStf n) s = execActionStf n s := rfl
@[simp] theorem exec_actionMov (n : Nat) (s : State) : exec (.actionMov n) s = execActionMov n s := rfl
@[simp] theorem exec_actionAdd (n : Nat) (s : State) : exec (.actionAdd n) s = execActionAdd n s := rfl
@[simp] theorem exec_actionSub (n : Nat) (s : State) : exec (.actionSub n) s = execActionSub n s := rfl
@[simp] theorem exec_actionAnd (n : Nat) (s : State) : exec (.actionAnd n) s = execActionAnd n s := rfl
@[simp] theorem exec_actionOr (n : Nat) (s : State) : exec (.actionOr n) s = execActionOr n s := rfl
@[simp] theorem exec_actionXor (n : Nat) (s : State) : exec (.actionXor n) s = execActionXor n s := rfl
@[simp] theorem exec_actionShl (n : Nat) (s : State) : exec (.actionShl n) s = execActionShl n s := rfl
@[simp] theorem exec_actionShr (n : Nat) (s : State) : exec (.actionShr n) s = execActionShr n s := rfl
@[simp] theorem exec_actionCsup (n : Nat) (s : State) : exec (.actionCsup n) s = execActionCsup n s := rfl
@[simp] theorem exec_actionIns (n : Nat) (s : State) : exec (.actionIns n) s = execActionIns n s := rfl
@[simp] theorem exec_actionDel (n : Nat) (s : State) : exec (.actionDel n) s = execActionDel n s := rfl
@[simp] theorem exec_actionSkz (n : Nat) (s : State) : exec (.actionSkz n) s = execActionSkz n s := rfl
@[simp] theorem exec_actionSknz (n : Nat) (s : State) : exec (.actionSknz n) s = execActionSknz n s := rfl
@[simp] theorem exec_actionEnd (n : Nat) (s : State) : exec (.actionEnd n) s = execActionEnd n s := rfl
@[simp] theorem exec_actionFwd (n : Nat) (s : State) : exec (.actionFwd n) s = execActionFwd n s := rfl
@[simp] theorem exec_actionFwdg (n : Nat) (s : State) : exec (.actionFwdg n) s = execActionFwdg n s := rfl
@[simp] theorem exec_actionDrop (n : Nat) (s : State) : exec (.actionDrop n) s = execActionDrop n s := rfl
@[simp] theorem exec_actionCopy (n : Nat) (s : State) : exec (.actionCopy n) s = execActionCopy n s := rfl
@[simp] theorem exec_actionTrap (n : Nat) (s : State) : exec (.actionTrap n) s = execActionTrap n s := rfl
@[simp] theorem exec_actionMirr (n : Nat) (s : State) : exec (.actionMirr n) s = execActionMirr n s := rfl
@[simp] theorem exec_actionRecirc (n : Nat) (s : State) : exec (.actionRecirc n) s = execActionRecirc n s := rfl
@[simp] theorem exec_actionPol (n : Nat) (s : State) : exec (.actionPol n) s = execActionPol n s := rfl
@[simp] theorem exec_actionCnt (n : Nat) (s : State) : exec (.actionCnt n) s = execActionCnt n s := rfl
@[simp] theorem exec_actionHash (n : Nat) (s : State) : exec (.actionHash n) s = execActionHash n s := rfl
@[simp] theorem exec_actionLearn (n : Nat) (s : State) : exec (.actionLearn n) s = execActionLearn n s := rfl
@[simp] theorem exec_actionNop (n : Nat) (s : State) : exec (.actionNop n) s = execActionNop n s := rfl
@[simp] theorem exec_ingressReorderSettle (n : Nat) (s : State) : exec (.ingressReorderSettle n) s = execIngressReorderSettle n s := rfl
@[simp] theorem exec_chargeTrueUp (n : Nat) (tail : List (BitVec 8)) (fcsGood : Bool) (s : State) :
    exec (.chargeTrueUp n tail fcsGood) s = execChargeTrueUp n tail fcsGood s := rfl
@[simp] theorem exec_enqueue (n : Nat) (s : State) : exec (.enqueue n) s = execEnqueue n s := rfl
@[simp] theorem exec_portSelection (n : Nat) (arriving : Bool) (s : State) :
    exec (.portSelection n arriving) s = execPortSelection n arriving s := rfl
@[simp] theorem exec_egressEntry (n : Nat) (s : State) : exec (.egressEntry n) s = execEgressEntry n s := rfl
@[simp] theorem exec_frameTransmit (n : Nat) (sub : Nat) (s : State) : exec (.frameTransmit n sub) s = execFrameTransmit n sub s := rfl
@[simp] theorem exec_paceWindow (counts : List Nat) (s : State) : exec (.paceWindow counts) s = execPaceWindow counts s := rfl
@[simp] theorem exec_supplyLoopStep (s : State) : exec .supplyLoopStep s = execSupplyLoopStep s := rfl
@[simp] theorem exec_shedLevel2Entry (s : State) : exec .shedLevel2Entry s = execShedLevel2Entry s := rfl
@[simp] theorem exec_shedStepDown (s : State) : exec .shedStepDown s = execShedStepDown s := rfl
@[simp] theorem exec_portEnable (p : Nat) (v : Nat) (s : State) : exec (.portEnable p v) s = execPortEnable p v s := rfl
@[simp] theorem exec_portDisable (p : Nat) (v : Nat) (cut : Bool) (s : State) :
    exec (.portDisable p v cut) s = execPortDisable p v cut s := rfl
@[simp] theorem exec_linkDown (p : Nat) (cut : Bool) (s : State) : exec (.linkDown p cut) s = execLinkDown p cut s := rfl
@[simp] theorem exec_linkUp (p : Nat) (s : State) : exec (.linkUp p) s = execLinkUp p s := rfl
@[simp] theorem exec_secondLatch (s : State) : exec .secondLatch s = execSecondLatch s := rfl
@[simp] theorem exec_ohCandidateCheck (i : Nat) (pos : Nat) (ok : Bool) (s : State) :
    exec (.ohCandidateCheck i pos ok) s = execOhCandidateCheck i pos ok s := rfl
@[simp] theorem exec_ohPositionCheck (i : Nat) (form : Bool) (crc : Bool) (cr : Bool) (ca : Bool) (ccc : Bool) (rpf : Bool) (mf : Bool) (gid : Nat) (cal : List (BitVec 16)) (mgmt : List (BitVec 8)) (s : State) :
    exec (.ohPositionCheck i form crc cr ca ccc rpf mf gid cal mgmt) s = execOhPositionCheck i form crc cr ca ccc rpf mf gid cal mgmt s := rfl
@[simp] theorem exec_ohFieldAccept (i : Nat) (s : State) : exec (.ohFieldAccept i) s = execOhFieldAccept i s := rfl
@[simp] theorem exec_txPageSwitch (g : Nat × Bool) (s : State) : exec (.txPageSwitch g) s = execTxPageSwitch g s := rfl
@[simp] theorem exec_protHoldoffExpiry (i : Nat) (s : State) : exec (.protHoldoffExpiry i) s = execProtHoldoffExpiry i s := rfl
@[simp] theorem exec_protCaTimeout (g : Nat) (s : State) : exec (.protCaTimeout g) s = execProtCaTimeout g s := rfl
@[simp] theorem exec_swapNow (s : State) : exec .swapNow s = execSwapNow s := rfl
@[simp] theorem exec_swapArm (s : State) : exec .swapArm s = execSwapArm s := rfl
@[simp] theorem exec_swapCancel (s : State) : exec .swapCancel s = execSwapCancel s := rfl
@[simp] theorem exec_armedSwapTime (s : State) : exec .armedSwapTime s = execArmedSwapTime s := rfl
@[simp] theorem exec_coatFlip (s : State) : exec .coatFlip s = execCoatFlip s := rfl
@[simp] theorem exec_coatRetire (s : State) : exec .coatRetire s = execCoatRetire s := rfl
@[simp] theorem exec_coatMeasure (s : State) : exec .coatMeasure s = execCoatMeasure s := rfl
@[simp] theorem exec_agentRead (a : Nat) (s : State) : exec (.agentRead a) s = execAgentRead a s := rfl
@[simp] theorem exec_agentWrite (a : Nat) (s : State) : exec (.agentWrite a) s = execAgentWrite a s := rfl
@[simp] theorem exec_agentInsert (a : Nat) (s : State) : exec (.agentInsert a) s = execAgentInsert a s := rfl
@[simp] theorem exec_agentDelete (a : Nat) (s : State) : exec (.agentDelete a) s = execAgentDelete a s := rfl
@[simp] theorem exec_agentSearch (a : Nat) (s : State) : exec (.agentSearch a) s = execAgentSearch a s := rfl
@[simp] theorem exec_agentMove (a : Nat) (s : State) : exec (.agentMove a) s = execAgentMove a s := rfl
@[simp] theorem exec_suspectRepair (pos : Nat) (s : State) : exec (.suspectRepair pos) s = execSuspectRepair pos s := rfl
@[simp] theorem exec_stencilScrubStep (k : Nat) (hits : List (Nat × Option Nat)) (s : State) :
    exec (.stencilScrubStep k hits) s = execStencilScrubStep k hits s := rfl
@[simp] theorem exec_sramScrub (hits : List (Nat × Nat × Bool)) (s : State) : exec (.sramScrub hits) s = execSramScrub hits s := rfl
@[simp] theorem exec_descWord0Write (b : Bool) (t : Nat) (v : Nat) (s : State) :
    exec (.descWord0Write b t v) s = execDescWord0Write b t v s := rfl
@[simp] theorem exec_bankWidthWrite (k : Nat) (v : Nat) (s : State) : exec (.bankWidthWrite k v) s = execBankWidthWrite k v s := rfl
@[simp] theorem exec_ageUnitTick (t : Nat) (s : State) : exec (.ageUnitTick t) s = execAgeUnitTick t s := rfl
@[simp] theorem exec_ageEntryVisit (t : Nat) (slot : Nat) (s : State) : exec (.ageEntryVisit t slot) s = execAgeEntryVisit t slot s := rfl
@[simp] theorem exec_pounceHandoff (n : Nat) (s : State) : exec (.pounceHandoff n) s = execPounceHandoff n s := rfl
@[simp] theorem exec_legacySearch (n : Nat) (s : State) : exec (.legacySearch n) s = execLegacySearch n s := rfl
@[simp] theorem exec_setDescWord0Write (b : Bool) (k : Nat) (v : Nat) (s : State) :
    exec (.setDescWord0Write b k v) s = execSetDescWord0Write b k v s := rfl
@[simp] theorem exec_loadDataWrite (v : BitVec 128) (s : State) : exec (.loadDataWrite v) s = execLoadDataWrite v s := rfl
@[simp] theorem exec_bufferAllocate (c : Nat) (o : Nat) (pool : Nat) (s : State) :
    exec (.bufferAllocate c o pool) s = execBufferAllocate c o pool s := rfl
@[simp] theorem exec_bufferReference (p : Nat) (bytes : Nat) (s : State) :
    exec (.bufferReference p bytes) s = execBufferReference p bytes s := rfl
@[simp] theorem exec_bufferFree (p : Nat) (o : Nat) (s : State) : exec (.bufferFree p o) s = execBufferFree p o s := rfl
@[simp] theorem exec_bufferTransfer (p : Nat) (a : Nat) (b : Nat) (s : State) :
    exec (.bufferTransfer p a b) s = execBufferTransfer p a b s := rfl
@[simp] theorem exec_headCacheRefill (s : State) : exec .headCacheRefill s = execHeadCacheRefill s := rfl
@[simp] theorem exec_spillMove (q : Nat) (s : State) : exec (.spillMove q) s = execSpillMove q s := rfl
@[simp] theorem exec_runAheadStep (q : Nat) (s : State) : exec (.runAheadStep q) s = execRunAheadStep q s := rfl
@[simp] theorem exec_runAheadLand (q : Nat) (s : State) : exec (.runAheadLand q) s = execRunAheadLand q s := rfl
@[simp] theorem exec_queueFlush (q : Nat) (s : State) : exec (.queueFlush q) s = execQueueFlush q s := rfl
@[simp] theorem exec_chainRebuild (s : State) : exec .chainRebuild s = execChainRebuild s := rfl
@[simp] theorem exec_auditStart (s : State) : exec .auditStart s = execAuditStart s := rfl
@[simp] theorem exec_auditPeriod (s : State) : exec .auditPeriod s = execAuditPeriod s := rfl
@[simp] theorem exec_auditSweepEnd (s : State) : exec .auditSweepEnd s = execAuditSweepEnd s := rfl
@[simp] theorem exec_auditPop (s : State) : exec .auditPop s = execAuditPop s := rfl
@[simp] theorem exec_swAlloc (s : State) : exec .swAlloc s = execSwAlloc s := rfl
@[simp] theorem exec_swFree (s : State) : exec .swFree s = execSwFree s := rfl
@[simp] theorem exec_swRead (s : State) : exec .swRead s = execSwRead s := rfl
@[simp] theorem exec_swRetire (s : State) : exec .swRetire s = execSwRetire s := rfl
@[simp] theorem exec_swUnretire (s : State) : exec .swUnretire s = execSwUnretire s := rfl
@[simp] theorem exec_shaperRefill (level : Nat) (i : Nat) (s : State) : exec (.shaperRefill level i) s = execShaperRefill level i s := rfl
@[simp] theorem exec_voqDequeue (words : List (Nat × Bool)) (s : State) : exec (.voqDequeue words) s = execVoqDequeue words s := rfl
@[simp] theorem exec_portNodeEnable (n : Nat) (v : Nat) (s : State) : exec (.portNodeEnable n v) s = execPortNodeEnable n v s := rfl
@[simp] theorem exec_portLinkLost (n : Nat) (cut : Bool) (s : State) : exec (.portLinkLost n cut) s = execPortLinkLost n cut s := rfl
@[simp] theorem exec_portLinkReturn (n : Nat) (s : State) : exec (.portLinkReturn n) s = execPortLinkReturn n s := rfl
@[simp] theorem exec_portHoldExpiry (n : Nat) (s : State) : exec (.portHoldExpiry n) s = execPortHoldExpiry n s := rfl
@[simp] theorem exec_portFlushComplete (n : Nat) (s : State) : exec (.portFlushComplete n) s = execPortFlushComplete n s := rfl
@[simp] theorem exec_portNodeDisable (n : Nat) (v : Nat) (s : State) : exec (.portNodeDisable n v) s = execPortNodeDisable n v s := rfl
@[simp] theorem exec_queueFlushComplete (q : Nat) (s : State) : exec (.queueFlushComplete q) s = execQueueFlushComplete q s := rfl
@[simp] theorem exec_accRead (s : State) : exec .accRead s = execAccRead s := rfl
@[simp] theorem exec_accWrite (s : State) : exec .accWrite s = execAccWrite s := rfl
@[simp] theorem exec_accFlush (s : State) : exec .accFlush s = execAccFlush s := rfl
@[simp] theorem exec_queueSample (s : State) : exec .queueSample s = execQueueSample s := rfl
@[simp] theorem exec_dramCommandIssue (ch : Nat) (strikes : List (Nat × Nat)) (s : State) :
    exec (.dramCommandIssue ch strikes) s = execDramCommandIssue ch strikes s := rfl
@[simp] theorem exec_dramReadReturn (ch : Nat) (dq : List (Nat × Nat)) (cb : List (Nat × Nat)) (fails : List Nat) (s : State) :
    exec (.dramReadReturn ch dq cb fails) s = execDramReadReturn ch dq cb fails s := rfl
@[simp] theorem exec_refresh (ch : Nat) (s : State) : exec (.refresh ch) s = execRefresh ch s := rfl
@[simp] theorem exec_tempWrite (v : Nat) (s : State) : exec (.tempWrite v) s = execTempWrite v s := rfl
@[simp] theorem exec_tempStale (s : State) : exec .tempStale s = execTempStale s := rfl
@[simp] theorem exec_patrolScrub (ch : Nat) (dq : List (Nat × Nat)) (cb : List (Nat × Nat)) (fails : List Nat) (s : State) :
    exec (.patrolScrub ch dq cb fails) s = execPatrolScrub ch dq cb fails s := rfl
@[simp] theorem exec_fullTraining (failed : List Nat) (s : State) : exec (.fullTraining failed) s = execFullTraining failed s := rfl
@[simp] theorem exec_periodicTrainingStep (ch : Nat) (s : State) : exec (.periodicTrainingStep ch) s = execPeriodicTrainingStep ch s := rfl
@[simp] theorem exec_trainingStepEnd (ch : Nat) (s : State) : exec (.trainingStepEnd ch) s = execTrainingStepEnd ch s := rfl
@[simp] theorem exec_channelLost (ch : Nat) (cause : Nat) (s : State) : exec (.channelLost ch cause) s = execChannelLost ch cause s := rfl
@[simp] theorem exec_errPop (s : State) : exec .errPop s = execErrPop s := rfl
@[simp] theorem exec_freqGo (target : Nat) (s : State) : exec (.freqGo target) s = execFreqGo target s := rfl
@[simp] theorem exec_freqSwitchComplete (s : State) : exec .freqSwitchComplete s = execFreqSwitchComplete s := rfl
@[simp] theorem exec_freqTrainingComplete (bad : List Nat) (worse : List Nat) (s : State) :
    exec (.freqTrainingComplete bad worse) s = execFreqTrainingComplete bad worse s := rfl
@[simp] theorem exec_laneLock (l : Nat) (s : State) : exec (.laneLock l) s = execLaneLock l s := rfl
@[simp] theorem exec_laneDown (l : Nat) (s : State) : exec (.laneDown l) s = execLaneDown l s := rfl
@[simp] theorem exec_laneEnWrite (w : Nat) (v : Nat) (s : State) : exec (.laneEnWrite w v) s = execLaneEnWrite w v s := rfl
@[simp] theorem exec_slotTransmit (l : Nat) (s : State) : exec (.slotTransmit l) s = execSlotTransmit l s := rfl
@[simp] theorem exec_swatchReceive (l : Nat) (octets : List (BitVec 8)) (s : State) :
    exec (.swatchReceive l octets) s = execSwatchReceive l octets s := rfl
@[simp] theorem exec_creditSwatchReceive (l : Nat) (octets : List (BitVec 8)) (s : State) :
    exec (.creditSwatchReceive l octets) s = execCreditSwatchReceive l octets s := rfl
@[simp] theorem exec_linkControlReceive (l : Nat) (octets : List (BitVec 8)) (s : State) :
    exec (.linkControlReceive l octets) s = execLinkControlReceive l octets s := rfl
@[simp] theorem exec_creditIssue (d : Nat) (c : Nat) (s : State) : exec (.creditIssue d c) s = execCreditIssue d c s := rfl
@[simp] theorem exec_creditRefresh (s : State) : exec .creditRefresh s = execCreditRefresh s := rfl
@[simp] theorem exec_reachabilitySend (s : State) : exec .reachabilitySend s = execReachabilitySend s := rfl
@[simp] theorem exec_unreachExpiry (d : Nat) (s : State) : exec (.unreachExpiry d) s = execUnreachExpiry d s := rfl
@[simp] theorem exec_gapRelease (src : Nat) (cls : Nat) (s : State) : exec (.gapRelease src cls) s = execGapRelease src cls s := rfl
@[simp] theorem exec_treeEnable (n : Nat) (v : Nat) (s : State) : exec (.treeEnable n v) s = execTreeEnable n v s := rfl
@[simp] theorem exec_treeDisable (n : Nat) (v : Nat) (s : State) : exec (.treeDisable n v) s = execTreeDisable n v s := rfl
@[simp] theorem exec_downstreamFrame (n : Nat) (s : State) : exec (.downstreamFrame n) s = execDownstreamFrame n s := rfl
@[simp] theorem exec_bwmapCompute (n : Nat) (s : State) : exec (.bwmapCompute n) s = execBwmapCompute n s := rfl
@[simp] theorem exec_dbaCycle (n : Nat) (s : State) : exec (.dbaCycle n) s = execDbaCycle n s := rfl
@[simp] theorem exec_burstReceive (n : Nat) (off : Int) (hdr : Nat) (bad : Nat) (phase : Nat) (gain : Nat) (reports : List (Nat × Option Nat)) (s : State) :
    exec (.burstReceive n off hdr bad phase gain reports) s = execBurstReceive n off hdr bad phase gain reports s := rfl
@[simp] theorem exec_burstMissed (n : Nat) (sd : Bool) (s : State) : exec (.burstMissed n sd) s = execBurstMissed n sd s := rfl
@[simp] theorem exec_pbrResetPulse (n : Nat) (s : State) : exec (.pbrResetPulse n) s = execPbrResetPulse n s := rfl
@[simp] theorem exec_snWindowOpen (n : Nat) (s : State) : exec (.snWindowOpen n) s = execSnWindowOpen n s := rfl
@[simp] theorem exec_serialNumberOnu (n : Nat) (decoded : Bool) (sn : Nat) (arrival : Int) (delay : Nat) (micOk : Bool) (content : List (BitVec 8)) (s : State) :
    exec (.serialNumberOnu n decoded sn arrival delay micOk content) s = execSerialNumberOnu n decoded sn arrival delay micOk content s := rfl
@[simp] theorem exec_rangingResponse (n : Nat) (i : Nat) (arrival : Int) (micOk : Bool) (phase : Nat) (gain : Nat) (content : List (BitVec 8)) (s : State) :
    exec (.rangingResponse n i arrival micOk phase gain content) s = execRangingResponse n i arrival micOk phase gain content s := rfl
@[simp] theorem exec_rangingWindowClose (n : Nat) (i : Nat) (s : State) :
    exec (.rangingWindowClose n i) s = execRangingWindowClose n i s := rfl
@[simp] theorem exec_to2Expiry (n : Nat) (i : Nat) (s : State) : exec (.to2Expiry n i) s = execTo2Expiry n i s := rfl
@[simp] theorem exec_onuDeactivate (n : Nat) (s : State) : exec (.onuDeactivate n) s = execOnuDeactivate n s := rfl
@[simp] theorem exec_onuDisable (n : Nat) (s : State) : exec (.onuDisable n) s = execOnuDisable n s := rfl
@[simp] theorem exec_onuEnable (n : Nat) (s : State) : exec (.onuEnable n) s = execOnuEnable n s := rfl
@[simp] theorem exec_onuReqReg (n : Nat) (s : State) : exec (.onuReqReg n) s = execOnuReqReg n s := rfl
@[simp] theorem exec_upstreamPloam (n : Nat) (i : Nat) (micOk : Bool) (ack : Option Nat) (content : List (BitVec 8)) (s : State) :
    exec (.upstreamPloam n i micOk ack content) s = execUpstreamPloam n i micOk ack content s := rfl
@[simp] theorem exec_sndisClear (k : Nat) (s : State) : exec (.sndisClear k) s = execSndisClear k s := rfl
@[simp] theorem exec_reassemblyTimeout (a : Nat) (s : State) : exec (.reassemblyTimeout a) s = execReassemblyTimeout a s := rfl
@[simp] theorem exec_upstreamXgemFrame (n : Nat) (j : Nat) (port : Nat) (idx : Nat) (last : Bool) (bad : Bool) (octets : List (BitVec 8)) (s : State) :
    exec (.upstreamXgemFrame n j port idx last bad octets) s = execUpstreamXgemFrame n j port idx last bad octets s := rfl
@[simp] theorem exec_downstreamGemExit (k : Nat) (s : State) : exec (.downstreamGemExit k) s = execDownstreamGemExit k s := rfl
@[simp] theorem exec_keyWrite (s : State) : exec .keyWrite s = execKeyWrite s := rfl
@[simp] theorem exec_keyClear (s : State) : exec .keyClear s = execKeyClear s := rfl
@[simp] theorem exec_keySwitch (s : State) : exec .keySwitch s = execKeySwitch s := rfl
@[simp] theorem exec_rogueFrameEval (n : Nat) (seen : List (Nat × Nat)) (sdNow : Bool) (s : State) :
    exec (.rogueFrameEval n seen sdNow) s = execRogueFrameEval n seen sdNow s := rfl
@[simp] theorem exec_probeGo (n : Nat) (onu : Nat) (frames : Nat) (s : State) :
    exec (.probeGo n onu frames) s = execProbeGo n onu frames s := rfl
@[simp] theorem exec_probeEnd (n : Nat) (s : State) : exec (.probeEnd n) s = execProbeEnd n s := rfl
@[simp] theorem exec_allocEnable (a : Nat) (v : Nat) (s : State) : exec (.allocEnable a v) s = execAllocEnable a v s := rfl
@[simp] theorem exec_gemEnable (g : Nat) (v : Nat) (s : State) : exec (.gemEnable g v) s = execGemEnable g v s := rfl
@[simp] theorem exec_sysrefLoss (s : State) : exec .sysrefLoss s = execSysrefLoss s := rfl
@[simp] theorem exec_sysrefReturn (s : State) : exec .sysrefReturn s = execSysrefReturn s := rfl
@[simp] theorem exec_anchorArm (s : State) : exec .anchorArm s = execAnchorArm s := rfl
@[simp] theorem exec_anchorCancel (s : State) : exec .anchorCancel s = execAnchorCancel s := rfl
@[simp] theorem exec_anchorFlip (s : State) : exec .anchorFlip s = execAnchorFlip s := rfl
@[simp] theorem exec_txtsPop (s : State) : exec .txtsPop s = execTxtsPop s := rfl
@[simp] theorem exec_launchEligible (q : Nat) (s : State) : exec (.launchEligible q) s = execLaunchEligible q s := rfl
@[simp] theorem exec_launchTimeReached (k : Nat) (s : State) : exec (.launchTimeReached k) s = execLaunchTimeReached k s := rfl
@[simp] theorem exec_ppsOutRise (s : State) : exec .ppsOutRise s = execPpsOutRise s := rfl
@[simp] theorem exec_ppsOutFall (s : State) : exec .ppsOutFall s = execPpsOutFall s := rfl
@[simp] theorem exec_ppsInEdge (sub : Nat) (s : State) : exec (.ppsInEdge sub) s = execPpsInEdge sub s := rfl
@[simp] theorem exec_doorbellWrite (k : Nat) (half : Nat) (value : Nat) (s : State) :
    exec (.doorbellWrite k half value) s = execDoorbellWrite k half value s := rfl
@[simp] theorem exec_puntWrite (ring : Nat) (buf : Nat) (s : State) : exec (.puntWrite ring buf) s = execPuntWrite ring buf s := rfl
@[simp] theorem exec_injectFetch (r : Nat) (desc : List (BitVec 8)) (content : List (BitVec 8)) (s : State) :
    exec (.injectFetch r desc content) s = execInjectFetch r desc content s := rfl
@[simp] theorem exec_dmaError (k : Nat) (buffer : Bool) (s : State) : exec (.dmaError k buffer) s = execDmaError k buffer s := rfl
@[simp] theorem exec_ringEnable (k : Nat) (s : State) : exec (.ringEnable k) s = execRingEnable k s := rfl
@[simp] theorem exec_ringDisable (k : Nat) (s : State) : exec (.ringDisable k) s = execRingDisable k s := rfl
@[simp] theorem exec_eventFire (s : State) : exec .eventFire s = execEventFire s := rfl
@[simp] theorem exec_coalesceTime (v : Nat) (s : State) : exec (.coalesceTime v) s = execCoalesceTime v s := rfl
@[simp] theorem exec_vectorArbitration (v : Nat) (s : State) : exec (.vectorArbitration v) s = execVectorArbitration v s := rfl
@[simp] theorem exec_msixSend (v : Nat) (s : State) : exec (.msixSend v) s = execMsixSend v s := rfl
@[simp] theorem exec_evcComplete (v : Nat) (src : Nat) (s : State) : exec (.evcComplete v src) s = execEvcComplete v src s := rfl
@[simp] theorem exec_evcPendingWrite (w : Nat) (value : Nat) (s : State) :
    exec (.evcPendingWrite w value) s = execEvcPendingWrite w value s := rfl
@[simp] theorem exec_evcMaskWrite (w : Nat) (value : Nat) (s : State) : exec (.evcMaskWrite w value) s = execEvcMaskWrite w value s := rfl
@[simp] theorem exec_evcRescan (words : Nat) (s : State) : exec (.evcRescan words) s = execEvcRescan words s := rfl
@[simp] theorem exec_d3hotEntry (s : State) : exec .d3hotEntry s = execD3hotEntry s := rfl
@[simp] theorem exec_d0Return (s : State) : exec .d0Return s = execD0Return s := rfl
@[simp] theorem exec_l2Entry (s : State) : exec .l2Entry s = execL2Entry s := rfl
@[simp] theorem exec_perstRelease (speed : Nat) (width : Nat) (good : Bool) (s : State) :
    exec (.perstRelease speed width good) s = execPerstRelease speed width good s := rfl
@[simp] theorem exec_cntRead (i : Nat) (strikes : List (Nat × Nat)) (s : State) :
    exec (.cntRead i strikes) s = execCntRead i strikes s := rfl
@[simp] theorem exec_cntReadClear (i : Nat) (strikes : List (Nat × Nat)) (s : State) :
    exec (.cntReadClear i strikes) s = execCntReadClear i strikes s := rfl
@[simp] theorem exec_cntZero (i : Nat) (s : State) : exec (.cntZero i) s = execCntZero i s := rfl
@[simp] theorem exec_counterCacheWriteback (i : Nat) (strikes : List (Nat × Nat)) (s : State) :
    exec (.counterCacheWriteback i strikes) s = execCounterCacheWriteback i strikes s := rfl
@[simp] theorem exec_freeze (s : State) : exec .freeze s = execFreeze s := rfl
@[simp] theorem exec_freezeInstant (s : State) : exec .freezeInstant s = execFreezeInstant s := rfl
@[simp] theorem exec_thaw (s : State) : exec .thaw s = execThaw s := rfl
@[simp] theorem exec_snapshot (s : State) : exec .snapshot s = execSnapshot s := rfl
@[simp] theorem exec_snapshotComplete (s : State) : exec .snapshotComplete s = execSnapshotComplete s := rfl
@[simp] theorem exec_bwWindowBoundary (s : State) : exec .bwWindowBoundary s = execBwWindowBoundary s := rfl
@[simp] theorem exec_isampClear (s : State) : exec .isampClear s = execIsampClear s := rfl
@[simp] theorem exec_powerUp (s : State) : exec .powerUp s = execPowerUp s := rfl
@[simp] theorem exec_powerShutdown (cause : Nat) (s : State) : exec (.powerShutdown cause) s = execPowerShutdown cause s := rfl
@[simp] theorem exec_vinRestore (s : State) : exec .vinRestore s = execVinRestore s := rfl
@[simp] theorem exec_telemetryUpdate (vin : Nat) (iin : Nat) (pin : Nat) (tjF : Int) (tjT : Int) (tStage : Int) (icoreF : Nat) (icoreT : Nat) (vddqBad : Bool) (s : State) :
    exec (.telemetryUpdate vin iin pin tjF tjT tStage icoreF icoreT vddqBad) s = execTelemetryUpdate vin iin pin tjF tjT tStage icoreF icoreT vddqBad s := rfl
@[simp] theorem exec_coldStart (failFwd : Nat) (failTrf : Nat) (failed : List Nat) (flashOk : Bool) (peerActing : Bool) (took : Nat) (s : State) :
    exec (.coldStart failFwd failTrf failed flashOk peerActing took) s = execColdStart failFwd failTrf failed flashOk peerActing took s := rfl
@[simp] theorem exec_warmRestart (pulse : Nat × Bool) (failFwd : Nat) (failTrf : Nat) (failed : List Nat) (varnishOk : Bool) (peerActing : Bool) (took : Nat) (s : State) :
    exec (.warmRestart pulse failFwd failTrf failed varnishOk peerActing took) s = execWarmRestart pulse failFwd failTrf failed varnishOk peerActing took s := rfl
@[simp] theorem exec_varnishMirror (flashOk : Bool) (s : State) : exec (.varnishMirror flashOk) s = execVarnishMirror flashOk s := rfl
@[simp] theorem exec_getInfo (flashOk : Bool) (s : State) : exec (.getInfo flashOk) s = execGetInfo flashOk s := rfl
@[simp] theorem exec_flashRead (flashOk : Bool) (s : State) : exec (.flashRead flashOk) s = execFlashRead flashOk s := rfl
@[simp] theorem exec_flashWrite (flashOk : Bool) (s : State) : exec (.flashWrite flashOk) s = execFlashWrite flashOk s := rfl
@[simp] theorem exec_verifySlot (flashOk : Bool) (s : State) : exec (.verifySlot flashOk) s = execVerifySlot flashOk s := rfl
@[simp] theorem exec_setBoot (flashOk : Bool) (s : State) : exec (.setBoot flashOk) s = execSetBoot flashOk s := rfl
@[simp] theorem exec_confirm (flashOk : Bool) (s : State) : exec (.confirm flashOk) s = execConfirm flashOk s := rfl
@[simp] theorem exec_switchFw (flashOk : Bool) (took : Nat) (s : State) :
    exec (.switchFw flashOk took) s = execSwitchFw flashOk took s := rfl
@[simp] theorem exec_loomLoad (flashOk : Bool) (s : State) : exec (.loomLoad flashOk) s = execLoomLoad flashOk s := rfl
@[simp] theorem exec_loomSwap (s : State) : exec .loomSwap s = execLoomSwap s := rfl
@[simp] theorem exec_stageCoat (flashOk : Bool) (s : State) : exec (.stageCoat flashOk) s = execStageCoat flashOk s := rfl
@[simp] theorem exec_restartWarm (flashOk : Bool) (s : State) : exec (.restartWarm flashOk) s = execRestartWarm flashOk s := rfl
@[simp] theorem exec_attest (s : State) : exec .attest s = execAttest s := rfl
@[simp] theorem exec_getIdentity (s : State) : exec .getIdentity s = execGetIdentity s := rfl
@[simp] theorem exec_keyProgram (s : State) : exec .keyProgram s = execKeyProgram s := rfl
@[simp] theorem exec_keyRevoke (s : State) : exec .keyRevoke s = execKeyRevoke s := rfl
@[simp] theorem exec_raiseVersion (s : State) : exec .raiseVersion s = execRaiseVersion s := rfl
@[simp] theorem exec_logRead (flashOk : Bool) (s : State) : exec (.logRead flashOk) s = execLogRead flashOk s := rfl
@[simp] theorem exec_mirrorNow (flashOk : Bool) (s : State) : exec (.mirrorNow flashOk) s = execMirrorNow flashOk s := rfl
@[simp] theorem exec_restartCold (s : State) : exec .restartCold s = execRestartCold s := rfl
@[simp] theorem exec_announceSend (s : State) : exec .announceSend s = execAnnounceSend s := rfl
@[simp] theorem exec_timeSend (sub : Nat) (s : State) : exec (.timeSend sub) s = execTimeSend sub s := rfl
@[simp] theorem exec_mapSend (s : State) : exec .mapSend s = execMapSend s := rfl
@[simp] theorem exec_announceReceive (l : Nat) (m : List (BitVec 8)) (fcs : Bool) (s : State) :
    exec (.announceReceive l m fcs) s = execAnnounceReceive l m fcs s := rfl
@[simp] theorem exec_timeReceive (l : Nat) (m : List (BitVec 8)) (fcs : Bool) (sub : Nat) (s : State) :
    exec (.timeReceive l m fcs sub) s = execTimeReceive l m fcs sub s := rfl
@[simp] theorem exec_mapReceive (l : Nat) (m : List (BitVec 8)) (fcs : Bool) (s : State) :
    exec (.mapReceive l m fcs) s = execMapReceive l m fcs s := rfl
@[simp] theorem exec_joinReceive (l : Nat) (m : List (BitVec 8)) (fcs : Bool) (s : State) :
    exec (.joinReceive l m fcs) s = execJoinReceive l m fcs s := rfl
@[simp] theorem exec_prepareReceive (l : Nat) (m : List (BitVec 8)) (fcs : Bool) (s : State) :
    exec (.prepareReceive l m fcs) s = execPrepareReceive l m fcs s := rfl
@[simp] theorem exec_replyReceive (l : Nat) (m : List (BitVec 8)) (fcs : Bool) (s : State) :
    exec (.replyReceive l m fcs) s = execReplyReceive l m fcs s := rfl
@[simp] theorem exec_replyTimeout (s : State) : exec .replyTimeout s = execReplyTimeout s := rfl
@[simp] theorem exec_cancelReceive (l : Nat) (m : List (BitVec 8)) (fcs : Bool) (s : State) :
    exec (.cancelReceive l m fcs) s = execCancelReceive l m fcs s := rfl
@[simp] theorem exec_uplinkLost (lock : Bool) (s : State) : exec (.uplinkLost lock) s = execUplinkLost lock s := rfl
@[simp] theorem exec_secondaryTakeover (s : State) : exec .secondaryTakeover s = execSecondaryTakeover s := rfl
@[simp] theorem exec_revert (s : State) : exec .revert s = execRevert s := rfl
@[simp] theorem exec_commitGo (coat : Nat) (t : Nat) (s : State) : exec (.commitGo coat t) s = execCommitGo coat t s := rfl
@[simp] theorem exec_commitDeadline (s : State) : exec .commitDeadline s = execCommitDeadline s := rfl
@[simp] theorem exec_commitCompare (s : State) : exec .commitCompare s = execCommitCompare s := rfl
@[simp] theorem exec_mapRemove (md : Nat) (s : State) : exec (.mapRemove md) s = execMapRemove md s := rfl
@[simp] theorem exec_pcsStatusChange (p : Nat) (blockLock : Bool) (amLock : Bool) (lf : Bool) (rf : Bool) (errs : Bool × Nat × Nat × Nat) (s : State) :
    exec (.pcsStatusChange p blockLock amLock lf rf errs) s = execPcsStatusChange p blockLock amLock lf rf errs s := rfl
@[simp] theorem exec_markerCandidate (i : Nat) (pos : Nat) (s : State) :
    exec (.markerCandidate i pos) s = execMarkerCandidate i pos s := rfl
@[simp] theorem exec_flexeInstanceEnable (i : Nat) (v : Nat) (s : State) :
    exec (.flexeInstanceEnable i v) s = execFlexeInstanceEnable i v s := rfl
@[simp] theorem exec_caParityError (ch : Nat) (fails : Nat) (s : State) :
    exec (.caParityError ch fails) s = execCaParityError ch fails s := rfl
@[simp] theorem exec_porstNAssert (dur : Nat) (acts : Bool) (s : State) :
    exec (.porstNAssert dur acts) s = execPorstNAssert dur acts s := rfl
@[simp] theorem exec_telemStale (s : State) : exec .telemStale s = execTelemStale s := rfl
@[simp] theorem exec_emvexLaneDown (l : Nat) (lock : Bool) (s : State) : exec (.emvexLaneDown l lock) s = execEmvexLaneDown l lock s := rfl

end Sys2Proof.Machine
end

