-- ==== Sys2Proof/Laws/Store.lean ====
section
/-!
SUPPORT. What a sparse store does: a place reads as what was last written there, every other place as before, and every operation
keeps the canonical form.
-/
namespace Sys2Proof.Machine

/-! ### Read after write -/

theorem Sparse.read_forget_self {α : Type} (d : α) (m : Sparse α) (k : Nat) : Sparse.read d (Sparse.forget m k) k = d := by
  induction m with
  | nil => rfl
  | cons e m ih =>
    obtain ⟨j, w⟩ := e
    by_cases h : j = k <;> simp [Sparse.forget, Sparse.read, h, ih]

theorem Sparse.read_forget_other {α : Type} (d : α) (m : Sparse α) (k k' : Nat) (hk : k' ≠ k) :
    Sparse.read d (Sparse.forget m k) k' = Sparse.read d m k' := by
  induction m with
  | nil => rfl
  | cons e m ih =>
    obtain ⟨j, w⟩ := e
    by_cases h : j = k
    · subst h
      simp [Sparse.forget, Sparse.read, ih, hk.symm]
    · by_cases h' : j = k'
      · subst h'
        simp [Sparse.forget, Sparse.read, hk]
      · simp [Sparse.forget, Sparse.read, h, h', ih]

/-- A place reads as what was written there. -/
@[simp] theorem Sparse.read_write_self {α : Type} [DecidableEq α] (d : α) (m : Sparse α) (k : Nat) (v : α) :
    Sparse.read d (Sparse.write d m k v) k = v := by
  induction m with
  | nil => by_cases hv : v = d <;> simp [Sparse.write, Sparse.read, hv]
  | cons e m ih =>
    obtain ⟨j, w⟩ := e
    unfold Sparse.write
    split
    · rename_i h
      rw [Sparse.read_forget_self, h]
    · split
      · simp [Sparse.read]
      · split
        · simp [Sparse.read]
        · rename_i h
          have h' : ¬ j = k := fun e => h e.symm
          simp [Sparse.read, ih, h']

/-- Every other place reads as before. -/
theorem Sparse.read_write_other {α : Type} [DecidableEq α] (d d' : α) (m : Sparse α) (k k' : Nat) (v : α) (hk : k' ≠ k) :
    Sparse.read d' (Sparse.write d m k v) k' = Sparse.read d' m k' := by
  have hk' : ¬ k = k' := fun h => hk h.symm
  induction m with
  | nil => by_cases hv : v = d <;> simp [Sparse.write, Sparse.read, hv, hk']
  | cons e m ih =>
    obtain ⟨j, w⟩ := e
    unfold Sparse.write
    split
    · exact Sparse.read_forget_other d' _ k k' hk
    · split
      · simp [Sparse.read, hk']
      · split
        · rename_i h
          subst h
          simp [Sparse.read, hk']
        · simp [Sparse.read, ih]

/-! ### The canonical form is kept -/

theorem Sparse.wfFrom_mono {α : Type} [DecidableEq α] (dd : Nat → α) (m : Sparse α) {lo lo' : Nat} (hl : lo' ≤ lo)
    (h : Sparse.wfFrom dd lo m = true) : Sparse.wfFrom dd lo' m = true := by
  cases m with
  | nil => rfl
  | cons e m =>
    simp only [Sparse.wfFrom, Bool.and_eq_true, decide_eq_true_eq] at h ⊢
    exact ⟨⟨by omega, h.1.2⟩, h.2⟩

theorem Sparse.forget_wfFrom {α : Type} [DecidableEq α] (dd : Nat → α) (m : Sparse α) (k : Nat) :
    ∀ lo, Sparse.wfFrom dd lo m = true → Sparse.wfFrom dd lo (Sparse.forget m k) = true := by
  induction m with
  | nil => intro lo _; rfl
  | cons e m ih =>
    obtain ⟨j, w⟩ := e
    intro lo h
    simp only [Sparse.wfFrom, Bool.and_eq_true, decide_eq_true_eq] at h
    obtain ⟨⟨h1, h2⟩, h3⟩ := h
    unfold Sparse.forget
    split
    · exact Sparse.wfFrom_mono dd _ (by omega) (ih (j + 1) h3)
    · simp only [Sparse.wfFrom, h1, h2, ih (j + 1) h3]
      simp

/-- A write keeps the canonical form. -/
theorem Sparse.write_wfFrom {α : Type} [DecidableEq α] (dd : Nat → α) (m : Sparse α) (k : Nat) (v : α) :
    ∀ lo, lo ≤ k → Sparse.wfFrom dd lo m = true → Sparse.wfFrom dd lo (Sparse.write (dd k) m k v) = true := by
  induction m with
  | nil =>
    intro lo hk _
    by_cases hv : v = dd k
    · simp [Sparse.write, Sparse.wfFrom, hv]
    · simp [Sparse.write, Sparse.wfFrom, hv, hk]
  | cons e m ih =>
    obtain ⟨j, w⟩ := e
    intro lo hk h
    have h0 := h
    simp only [Sparse.wfFrom, Bool.and_eq_true, decide_eq_true_eq, Bool.not_eq_true'] at h
    obtain ⟨⟨h1, h2⟩, h3⟩ := h
    unfold Sparse.write
    split
    · exact Sparse.forget_wfFrom dd _ k lo h0
    · rename_i hv
      split
      · simp only [Sparse.wfFrom, h2, h3, hk, hv]
        simp
        omega
      · split
        · rename_i b
          subst b
          simp [hv, Sparse.wfFrom, h3, hk]
        · simp only [Sparse.wfFrom, h1, h2]
          simp [ih (j + 1) (by omega) h3]

/-- A write keeps the canonical form of a whole store. -/
theorem Sparse.write_wf {α : Type} [DecidableEq α] (dd : Nat → α) (m : Sparse α) (k : Nat) (v : α) (h : Sparse.wf dd m = true) :
    Sparse.wf dd (Sparse.write (dd k) m k v) = true :=
  Sparse.write_wfFrom dd m k v 0 (Nat.zero_le k) h

/-- Forgetting entries keeps the canonical form. -/
theorem Sparse.filter_wfFrom {α : Type} [DecidableEq α] (dd : Nat → α) (p : Nat × α → Bool) (m : Sparse α) :
    ∀ lo, Sparse.wfFrom dd lo m = true → Sparse.wfFrom dd lo (m.filter p) = true := by
  induction m with
  | nil => intro lo _; rfl
  | cons e m ih =>
    obtain ⟨j, w⟩ := e
    intro lo h
    simp only [Sparse.wfFrom, Bool.and_eq_true, decide_eq_true_eq] at h
    obtain ⟨⟨h1, h2⟩, h3⟩ := h
    by_cases hp : p (j, w) = true
    · simp only [List.filter_cons, hp, if_true, Sparse.wfFrom, h1, h2, ih (j + 1) h3]
      simp
    · simp only [List.filter_cons, hp]
      exact Sparse.wfFrom_mono dd _ (by omega) (ih (j + 1) h3)

/-- `Sparse.clear` keeps the canonical form. -/
theorem Sparse.clear_wf {α : Type} [DecidableEq α] (dd : Nat → α) (m : Sparse α) (lo n : Nat) (h : Sparse.wf dd m = true) :
    Sparse.wf dd (Sparse.clear m lo n) = true :=
  Sparse.filter_wfFrom dd _ m 0 h

/-- The empty store is in canonical form. -/
@[simp] theorem Sparse.nil_wf {α : Type} [DecidableEq α] (dd : Nat → α) : Sparse.wf dd ([] : Sparse α) = true := rfl

/-- Writing octets keeps the canonical form. -/
theorem Sparse.putOctets_wf (m : Sparse Byte) (a : Nat) (bs : List Byte) (h : Sparse.wf (fun _ => 0) m = true) :
    Sparse.wf (fun _ => 0) (Sparse.putOctets m a bs) = true := by
  induction bs generalizing m a with
  | nil => exact h
  | cons b bs ih => exact ih _ _ (Sparse.write_wf (fun _ => (0 : Byte)) m a b h)

theorem Sparse.writeBE_wf (m : Sparse Byte) (a n v : Nat) (h : Sparse.wf (fun _ => 0) m = true) :
    Sparse.wf (fun _ => 0) (Sparse.writeBE m a n v) = true := by
  induction n generalizing m a v with
  | zero => exact h
  | succ n ih => exact ih _ _ _ (Sparse.write_wf (fun _ => (0 : Byte)) m a _ h)

theorem Sparse.writeLE_wf (m : Sparse Byte) (a n v : Nat) (h : Sparse.wf (fun _ => 0) m = true) :
    Sparse.wf (fun _ => 0) (Sparse.writeLE m a n v) = true := by
  induction n generalizing m a v with
  | zero => exact h
  | succ n ih => exact ih _ _ _ (Sparse.write_wf (fun _ => (0 : Byte)) m a _ h)

end Sys2Proof.Machine
end

