-- ==== Sys2Proof/Laws/Regs.lean ====
section
/-!
SUPPORT. The register space: an entry reads as what was last put there, every other entry as before; a field reads as what was last
written, and every other field, of the same register or of another, as before.
-/
namespace Sys2Proof.Machine

/-- The list of registers numbers them as their constructors stand. -/
theorem Reg.all_ctorIdx (r : Reg) : Reg.all[r.ctorIdx]? = some r := by cases r <;> rfl

theorem Reg.ctorIdx_lt (r : Reg) : r.ctorIdx < 256 := by cases r <;> decide

/-- What the register space holds at reset at the place of an entry. -/
theorem regsReset_key (r : Reg) (i : Nat) : regsReset (r.key i) = r.resetAt i := by
  have h := Reg.ctorIdx_lt r
  have h1 : r.key i % 256 = r.ctorIdx := by unfold Reg.key; omega
  have h2 : r.key i / 256 = i := by unfold Reg.key; omega
  unfold regsReset
  rw [h1, h2, Reg.all_ctorIdx]

/-- Two entries of registers share no place. -/
theorem Reg.key_inj {r q : Reg} {i j : Nat} (h : r.key i = q.key j) : r = q ∧ i = j := by
  have hr := Reg.ctorIdx_lt r
  have hq := Reg.ctorIdx_lt q
  unfold Reg.key at h
  have h1 : r.ctorIdx = q.ctorIdx := by omega
  have h2 : i = j := by omega
  have h3 := Reg.all_ctorIdx r
  rw [h1, Reg.all_ctorIdx q] at h3
  exact ⟨(Option.some.inj h3).symm, h2⟩

/-- An entry reads as what was put there. -/
@[simp] theorem State.reg_setReg_same (s : State) (r : Reg) (i : Nat) (v : BitVec 320) : (s.setReg r i v).reg r i = v :=
  Sparse.read_write_self _ s.regs (r.key i) v

/-- Every other entry reads as before. -/
theorem State.reg_setReg_other (s : State) (r q : Reg) (i j : Nat) (v : BitVec 320)
    (hn : ¬ (q = r ∧ j = i)) : (s.setReg r i v).reg q j = s.reg q j :=
  Sparse.read_write_other _ _ s.regs _ _ v (fun e => hn (Reg.key_inj e))

/-- Putting a value keeps the canonical form. -/
theorem State.setReg_regsOk (s : State) (r : Reg) (i : Nat) (v : BitVec 320) (h : s.regsOk = true) :
    (s.setReg r i v).regsOk = true := by
  have := Sparse.write_wf regsReset s.regs (r.key i) v h
  rwa [regsReset_key] at this

/-- Writing a field keeps the canonical form. -/
@[simp] theorem State.wr_regsOk (s : State) (f : Fld) (i v : Nat) (h : s.regsOk = true) : (s.wr f i v).regsOk = true :=
  State.setReg_regsOk _ _ _ _ h

/-- A field reads as what was written, modulo its width. -/
theorem State.rd_wr_same (s : State) (f : Fld) (i v : Nat) (hf : f.fits = true) :
    (s.wr f i v).rd f i = v % 2 ^ f.len := by
  unfold State.rd State.wr
  rw [State.reg_setReg_same, BitVec.toNat_ofNat, bitsOf_mod _ _ _ 320 (by simpa [Fld.fits] using hf),
    bitsOf_setBits_same]

/-- A field of another register, or of another entry, reads as before. -/
theorem State.rd_wr_reg (s : State) (f g : Fld) (i j v : Nat) (hn : ¬ (g.reg = f.reg ∧ j = i)) :
    (s.wr f i v).rd g j = s.rd g j := by
  unfold State.rd State.wr
  rw [State.reg_setReg_other _ _ _ _ _ _ hn]

/-- Another field of the same register reads as before. -/
theorem State.rd_wr_field (s : State) (f g : Fld) (i v : Nat) (hr : g.reg = f.reg) (hg : g.fits = true)
    (hd : f.lo + f.len ≤ g.lo ∨ g.lo + g.len ≤ f.lo) : (s.wr f i v).rd g i = s.rd g i := by
  unfold State.rd State.wr
  rw [hr, State.reg_setReg_same, BitVec.toNat_ofNat, bitsOf_mod _ _ _ 320 (by simpa [Fld.fits] using hg)]
  cases hd with
  | inl hd => exact bitsOf_setBits_above _ _ _ _ _ _ hd
  | inr hd => exact bitsOf_setBits_below _ _ _ _ _ _ hd

/-- Another register, or another entry, reads whole as before. -/
theorem State.reg_wr_other (s : State) (f : Fld) (q : Reg) (i j v : Nat) (hn : ¬ (q = f.reg ∧ j = i)) :
    (s.wr f i v).reg q j = s.reg q j :=
  State.reg_setReg_other _ _ _ _ _ _ hn

/-- A field is smaller than `2 ^` its width. -/
theorem State.rd_lt (s : State) (f : Fld) (i : Nat) : s.rd f i < 2 ^ f.len := bitsOf_lt _ _ _

/-- The register space after reset is in canonical form. -/
theorem State.reset_regsOk : State.reset.regsOk = true := rfl

/-- After reset every register reads as its Reset column. -/
theorem State.reset_reg (r : Reg) (i : Nat) : State.reset.reg r i = r.resetAt i := rfl

end Sys2Proof.Machine
end

