-- ==== Sys2Proof/Laws/State.lean ====
section
/-!
SUPPORT. One lemma per field per update: what each named update of the state leaves in each of its parts. No later proof unfolds an update.
-/
namespace Sys2Proof.Machine

/-! ### `State.withRegs` -/

@[simp] theorem State.withRegs_pending (s : State) (x : Sparse (BitVec 320)) : (s.withRegs x).pending = s.pending := (rfl)
@[simp] theorem State.withRegs_regs (s : State) (x : Sparse (BitVec 320)) : (s.withRegs x).regs = x := (rfl)
@[simp] theorem State.withRegs_frc (s : State) (x : Sparse (BitVec 320)) : (s.withRegs x).frc = s.frc := (rfl)
@[simp] theorem State.withRegs_time (s : State) (x : Sparse (BitVec 320)) : (s.withRegs x).time = s.time := (rfl)
@[simp] theorem State.withRegs_host (s : State) (x : Sparse (BitVec 320)) : (s.withRegs x).host = s.host := (rfl)
@[simp] theorem State.withRegs_tally (s : State) (x : Sparse (BitVec 320)) : (s.withRegs x).tally = s.tally := (rfl)
@[simp] theorem State.withRegs_seam (s : State) (x : Sparse (BitVec 320)) : (s.withRegs x).seam = s.seam := (rfl)
@[simp] theorem State.withRegs_pace (s : State) (x : Sparse (BitVec 320)) : (s.withRegs x).pace = s.pace := (rfl)
@[simp] theorem State.withRegs_macs (s : State) (x : Sparse (BitVec 320)) : (s.withRegs x).macs = s.macs := (rfl)
@[simp] theorem State.withRegs_insts (s : State) (x : Sparse (BitVec 320)) : (s.withRegs x).insts = s.insts := (rfl)
@[simp] theorem State.withRegs_grps (s : State) (x : Sparse (BitVec 320)) : (s.withRegs x).grps = s.grps := (rfl)
@[simp] theorem State.withRegs_pkts (s : State) (x : Sparse (BitVec 320)) : (s.withRegs x).pkts = s.pkts := (rfl)
@[simp] theorem State.withRegs_nextPkt (s : State) (x : Sparse (BitVec 320)) : (s.withRegs x).nextPkt = s.nextPkt := (rfl)
@[simp] theorem State.withRegs_ctxs (s : State) (x : Sparse (BitVec 320)) : (s.withRegs x).ctxs = s.ctxs := (rfl)
@[simp] theorem State.withRegs_coat (s : State) (x : Sparse (BitVec 320)) : (s.withRegs x).coat = s.coat := (rfl)
@[simp] theorem State.withRegs_policers (s : State) (x : Sparse (BitVec 320)) : (s.withRegs x).policers = s.policers := (rfl)
@[simp] theorem State.withRegs_reasons (s : State) (x : Sparse (BitVec 320)) : (s.withRegs x).reasons = s.reasons := (rfl)
@[simp] theorem State.withRegs_puntAgg (s : State) (x : Sparse (BitVec 320)) : (s.withRegs x).puntAgg = s.puntAgg := (rfl)
@[simp] theorem State.withRegs_inflightA (s : State) (x : Sparse (BitVec 320)) : (s.withRegs x).inflightA = s.inflightA := (rfl)
@[simp] theorem State.withRegs_inflightB (s : State) (x : Sparse (BitVec 320)) : (s.withRegs x).inflightB = s.inflightB := (rfl)
@[simp] theorem State.withRegs_badWords (s : State) (x : Sparse (BitVec 320)) : (s.withRegs x).badWords = s.badWords := (rfl)
@[simp] theorem State.withRegs_tables (s : State) (x : Sparse (BitVec 320)) : (s.withRegs x).tables = s.tables := (rfl)
@[simp] theorem State.withRegs_easel (s : State) (x : Sparse (BitVec 320)) : (s.withRegs x).easel = s.easel := (rfl)
@[simp] theorem State.withRegs_power (s : State) (x : Sparse (BitVec 320)) : (s.withRegs x).power = s.power := (rfl)
@[simp] theorem State.withRegs_palette (s : State) (x : Sparse (BitVec 320)) : (s.withRegs x).palette = s.palette := (rfl)
@[simp] theorem State.withRegs_sched (s : State) (x : Sparse (BitVec 320)) : (s.withRegs x).sched = s.sched := (rfl)
@[simp] theorem State.withRegs_dram (s : State) (x : Sparse (BitVec 320)) : (s.withRegs x).dram = s.dram := (rfl)
@[simp] theorem State.withRegs_fab (s : State) (x : Sparse (BitVec 320)) : (s.withRegs x).fab = s.fab := (rfl)
@[simp] theorem State.withRegs_loom (s : State) (x : Sparse (BitVec 320)) : (s.withRegs x).loom = s.loom := (rfl)
@[simp] theorem State.withRegs_emv (s : State) (x : Sparse (BitVec 320)) : (s.withRegs x).emv = s.emv := (rfl)
@[simp] theorem State.withRegs_freeCtr (s : State) (x : Sparse (BitVec 320)) : (s.withRegs x).freeCtr = s.freeCtr := (rfl)
@[simp] theorem State.withRegs_outputs (s : State) (x : Sparse (BitVec 320)) : (s.withRegs x).outputs = s.outputs := (rfl)

/-! ### `State.withFrc` -/

@[simp] theorem State.withFrc_pending (s : State) (x : BitVec 80) : (s.withFrc x).pending = s.pending := (rfl)
@[simp] theorem State.withFrc_regs (s : State) (x : BitVec 80) : (s.withFrc x).regs = s.regs := (rfl)
@[simp] theorem State.withFrc_frc (s : State) (x : BitVec 80) : (s.withFrc x).frc = x := (rfl)
@[simp] theorem State.withFrc_time (s : State) (x : BitVec 80) : (s.withFrc x).time = s.time := (rfl)
@[simp] theorem State.withFrc_host (s : State) (x : BitVec 80) : (s.withFrc x).host = s.host := (rfl)
@[simp] theorem State.withFrc_tally (s : State) (x : BitVec 80) : (s.withFrc x).tally = s.tally := (rfl)
@[simp] theorem State.withFrc_seam (s : State) (x : BitVec 80) : (s.withFrc x).seam = s.seam := (rfl)
@[simp] theorem State.withFrc_pace (s : State) (x : BitVec 80) : (s.withFrc x).pace = s.pace := (rfl)
@[simp] theorem State.withFrc_macs (s : State) (x : BitVec 80) : (s.withFrc x).macs = s.macs := (rfl)
@[simp] theorem State.withFrc_insts (s : State) (x : BitVec 80) : (s.withFrc x).insts = s.insts := (rfl)
@[simp] theorem State.withFrc_grps (s : State) (x : BitVec 80) : (s.withFrc x).grps = s.grps := (rfl)
@[simp] theorem State.withFrc_pkts (s : State) (x : BitVec 80) : (s.withFrc x).pkts = s.pkts := (rfl)
@[simp] theorem State.withFrc_nextPkt (s : State) (x : BitVec 80) : (s.withFrc x).nextPkt = s.nextPkt := (rfl)
@[simp] theorem State.withFrc_ctxs (s : State) (x : BitVec 80) : (s.withFrc x).ctxs = s.ctxs := (rfl)
@[simp] theorem State.withFrc_coat (s : State) (x : BitVec 80) : (s.withFrc x).coat = s.coat := (rfl)
@[simp] theorem State.withFrc_policers (s : State) (x : BitVec 80) : (s.withFrc x).policers = s.policers := (rfl)
@[simp] theorem State.withFrc_reasons (s : State) (x : BitVec 80) : (s.withFrc x).reasons = s.reasons := (rfl)
@[simp] theorem State.withFrc_puntAgg (s : State) (x : BitVec 80) : (s.withFrc x).puntAgg = s.puntAgg := (rfl)
@[simp] theorem State.withFrc_inflightA (s : State) (x : BitVec 80) : (s.withFrc x).inflightA = s.inflightA := (rfl)
@[simp] theorem State.withFrc_inflightB (s : State) (x : BitVec 80) : (s.withFrc x).inflightB = s.inflightB := (rfl)
@[simp] theorem State.withFrc_badWords (s : State) (x : BitVec 80) : (s.withFrc x).badWords = s.badWords := (rfl)
@[simp] theorem State.withFrc_tables (s : State) (x : BitVec 80) : (s.withFrc x).tables = s.tables := (rfl)
@[simp] theorem State.withFrc_easel (s : State) (x : BitVec 80) : (s.withFrc x).easel = s.easel := (rfl)
@[simp] theorem State.withFrc_power (s : State) (x : BitVec 80) : (s.withFrc x).power = s.power := (rfl)
@[simp] theorem State.withFrc_palette (s : State) (x : BitVec 80) : (s.withFrc x).palette = s.palette := (rfl)
@[simp] theorem State.withFrc_sched (s : State) (x : BitVec 80) : (s.withFrc x).sched = s.sched := (rfl)
@[simp] theorem State.withFrc_dram (s : State) (x : BitVec 80) : (s.withFrc x).dram = s.dram := (rfl)
@[simp] theorem State.withFrc_fab (s : State) (x : BitVec 80) : (s.withFrc x).fab = s.fab := (rfl)
@[simp] theorem State.withFrc_loom (s : State) (x : BitVec 80) : (s.withFrc x).loom = s.loom := (rfl)
@[simp] theorem State.withFrc_emv (s : State) (x : BitVec 80) : (s.withFrc x).emv = s.emv := (rfl)
@[simp] theorem State.withFrc_freeCtr (s : State) (x : BitVec 80) : (s.withFrc x).freeCtr = s.freeCtr := (rfl)
@[simp] theorem State.withFrc_outputs (s : State) (x : BitVec 80) : (s.withFrc x).outputs = s.outputs := (rfl)
@[simp] theorem State.withFrc_reg (s : State) (x : BitVec 80) (r : Reg) (i : Nat) : (s.withFrc x).reg r i = s.reg r i := (rfl)
@[simp] theorem State.withFrc_rd (s : State) (x : BitVec 80) (f : Fld) (i : Nat) : (s.withFrc x).rd f i = s.rd f i := (rfl)
@[simp] theorem State.withFrc_on (s : State) (x : BitVec 80) (f : Fld) (i : Nat) : (s.withFrc x).on f i = s.on f i := (rfl)
@[simp] theorem State.withFrc_regsOk (s : State) (x : BitVec 80) : (s.withFrc x).regsOk = s.regsOk := (rfl)

/-! ### `State.withTime` -/

@[simp] theorem State.withTime_pending (s : State) (x : Time) : (s.withTime x).pending = s.pending := (rfl)
@[simp] theorem State.withTime_regs (s : State) (x : Time) : (s.withTime x).regs = s.regs := (rfl)
@[simp] theorem State.withTime_frc (s : State) (x : Time) : (s.withTime x).frc = s.frc := (rfl)
@[simp] theorem State.withTime_time (s : State) (x : Time) : (s.withTime x).time = x := (rfl)
@[simp] theorem State.withTime_host (s : State) (x : Time) : (s.withTime x).host = s.host := (rfl)
@[simp] theorem State.withTime_tally (s : State) (x : Time) : (s.withTime x).tally = s.tally := (rfl)
@[simp] theorem State.withTime_seam (s : State) (x : Time) : (s.withTime x).seam = s.seam := (rfl)
@[simp] theorem State.withTime_pace (s : State) (x : Time) : (s.withTime x).pace = s.pace := (rfl)
@[simp] theorem State.withTime_macs (s : State) (x : Time) : (s.withTime x).macs = s.macs := (rfl)
@[simp] theorem State.withTime_insts (s : State) (x : Time) : (s.withTime x).insts = s.insts := (rfl)
@[simp] theorem State.withTime_grps (s : State) (x : Time) : (s.withTime x).grps = s.grps := (rfl)
@[simp] theorem State.withTime_pkts (s : State) (x : Time) : (s.withTime x).pkts = s.pkts := (rfl)
@[simp] theorem State.withTime_nextPkt (s : State) (x : Time) : (s.withTime x).nextPkt = s.nextPkt := (rfl)
@[simp] theorem State.withTime_ctxs (s : State) (x : Time) : (s.withTime x).ctxs = s.ctxs := (rfl)
@[simp] theorem State.withTime_coat (s : State) (x : Time) : (s.withTime x).coat = s.coat := (rfl)
@[simp] theorem State.withTime_policers (s : State) (x : Time) : (s.withTime x).policers = s.policers := (rfl)
@[simp] theorem State.withTime_reasons (s : State) (x : Time) : (s.withTime x).reasons = s.reasons := (rfl)
@[simp] theorem State.withTime_puntAgg (s : State) (x : Time) : (s.withTime x).puntAgg = s.puntAgg := (rfl)
@[simp] theorem State.withTime_inflightA (s : State) (x : Time) : (s.withTime x).inflightA = s.inflightA := (rfl)
@[simp] theorem State.withTime_inflightB (s : State) (x : Time) : (s.withTime x).inflightB = s.inflightB := (rfl)
@[simp] theorem State.withTime_badWords (s : State) (x : Time) : (s.withTime x).badWords = s.badWords := (rfl)
@[simp] theorem State.withTime_tables (s : State) (x : Time) : (s.withTime x).tables = s.tables := (rfl)
@[simp] theorem State.withTime_easel (s : State) (x : Time) : (s.withTime x).easel = s.easel := (rfl)
@[simp] theorem State.withTime_power (s : State) (x : Time) : (s.withTime x).power = s.power := (rfl)
@[simp] theorem State.withTime_palette (s : State) (x : Time) : (s.withTime x).palette = s.palette := (rfl)
@[simp] theorem State.withTime_sched (s : State) (x : Time) : (s.withTime x).sched = s.sched := (rfl)
@[simp] theorem State.withTime_dram (s : State) (x : Time) : (s.withTime x).dram = s.dram := (rfl)
@[simp] theorem State.withTime_fab (s : State) (x : Time) : (s.withTime x).fab = s.fab := (rfl)
@[simp] theorem State.withTime_loom (s : State) (x : Time) : (s.withTime x).loom = s.loom := (rfl)
@[simp] theorem State.withTime_emv (s : State) (x : Time) : (s.withTime x).emv = s.emv := (rfl)
@[simp] theorem State.withTime_freeCtr (s : State) (x : Time) : (s.withTime x).freeCtr = s.freeCtr := (rfl)
@[simp] theorem State.withTime_outputs (s : State) (x : Time) : (s.withTime x).outputs = s.outputs := (rfl)
@[simp] theorem State.withTime_reg (s : State) (x : Time) (r : Reg) (i : Nat) : (s.withTime x).reg r i = s.reg r i := (rfl)
@[simp] theorem State.withTime_rd (s : State) (x : Time) (f : Fld) (i : Nat) : (s.withTime x).rd f i = s.rd f i := (rfl)
@[simp] theorem State.withTime_on (s : State) (x : Time) (f : Fld) (i : Nat) : (s.withTime x).on f i = s.on f i := (rfl)
@[simp] theorem State.withTime_regsOk (s : State) (x : Time) : (s.withTime x).regsOk = s.regsOk := (rfl)

/-! ### `State.withHost` -/

@[simp] theorem State.withHost_pending (s : State) (x : HostIf) : (s.withHost x).pending = s.pending := (rfl)
@[simp] theorem State.withHost_regs (s : State) (x : HostIf) : (s.withHost x).regs = s.regs := (rfl)
@[simp] theorem State.withHost_frc (s : State) (x : HostIf) : (s.withHost x).frc = s.frc := (rfl)
@[simp] theorem State.withHost_time (s : State) (x : HostIf) : (s.withHost x).time = s.time := (rfl)
@[simp] theorem State.withHost_host (s : State) (x : HostIf) : (s.withHost x).host = x := (rfl)
@[simp] theorem State.withHost_tally (s : State) (x : HostIf) : (s.withHost x).tally = s.tally := (rfl)
@[simp] theorem State.withHost_seam (s : State) (x : HostIf) : (s.withHost x).seam = s.seam := (rfl)
@[simp] theorem State.withHost_pace (s : State) (x : HostIf) : (s.withHost x).pace = s.pace := (rfl)
@[simp] theorem State.withHost_macs (s : State) (x : HostIf) : (s.withHost x).macs = s.macs := (rfl)
@[simp] theorem State.withHost_insts (s : State) (x : HostIf) : (s.withHost x).insts = s.insts := (rfl)
@[simp] theorem State.withHost_grps (s : State) (x : HostIf) : (s.withHost x).grps = s.grps := (rfl)
@[simp] theorem State.withHost_pkts (s : State) (x : HostIf) : (s.withHost x).pkts = s.pkts := (rfl)
@[simp] theorem State.withHost_nextPkt (s : State) (x : HostIf) : (s.withHost x).nextPkt = s.nextPkt := (rfl)
@[simp] theorem State.withHost_ctxs (s : State) (x : HostIf) : (s.withHost x).ctxs = s.ctxs := (rfl)
@[simp] theorem State.withHost_coat (s : State) (x : HostIf) : (s.withHost x).coat = s.coat := (rfl)
@[simp] theorem State.withHost_policers (s : State) (x : HostIf) : (s.withHost x).policers = s.policers := (rfl)
@[simp] theorem State.withHost_reasons (s : State) (x : HostIf) : (s.withHost x).reasons = s.reasons := (rfl)
@[simp] theorem State.withHost_puntAgg (s : State) (x : HostIf) : (s.withHost x).puntAgg = s.puntAgg := (rfl)
@[simp] theorem State.withHost_inflightA (s : State) (x : HostIf) : (s.withHost x).inflightA = s.inflightA := (rfl)
@[simp] theorem State.withHost_inflightB (s : State) (x : HostIf) : (s.withHost x).inflightB = s.inflightB := (rfl)
@[simp] theorem State.withHost_badWords (s : State) (x : HostIf) : (s.withHost x).badWords = s.badWords := (rfl)
@[simp] theorem State.withHost_tables (s : State) (x : HostIf) : (s.withHost x).tables = s.tables := (rfl)
@[simp] theorem State.withHost_easel (s : State) (x : HostIf) : (s.withHost x).easel = s.easel := (rfl)
@[simp] theorem State.withHost_power (s : State) (x : HostIf) : (s.withHost x).power = s.power := (rfl)
@[simp] theorem State.withHost_palette (s : State) (x : HostIf) : (s.withHost x).palette = s.palette := (rfl)
@[simp] theorem State.withHost_sched (s : State) (x : HostIf) : (s.withHost x).sched = s.sched := (rfl)
@[simp] theorem State.withHost_dram (s : State) (x : HostIf) : (s.withHost x).dram = s.dram := (rfl)
@[simp] theorem State.withHost_fab (s : State) (x : HostIf) : (s.withHost x).fab = s.fab := (rfl)
@[simp] theorem State.withHost_loom (s : State) (x : HostIf) : (s.withHost x).loom = s.loom := (rfl)
@[simp] theorem State.withHost_emv (s : State) (x : HostIf) : (s.withHost x).emv = s.emv := (rfl)
@[simp] theorem State.withHost_freeCtr (s : State) (x : HostIf) : (s.withHost x).freeCtr = s.freeCtr := (rfl)
@[simp] theorem State.withHost_outputs (s : State) (x : HostIf) : (s.withHost x).outputs = s.outputs := (rfl)
@[simp] theorem State.withHost_reg (s : State) (x : HostIf) (r : Reg) (i : Nat) : (s.withHost x).reg r i = s.reg r i := (rfl)
@[simp] theorem State.withHost_rd (s : State) (x : HostIf) (f : Fld) (i : Nat) : (s.withHost x).rd f i = s.rd f i := (rfl)
@[simp] theorem State.withHost_on (s : State) (x : HostIf) (f : Fld) (i : Nat) : (s.withHost x).on f i = s.on f i := (rfl)
@[simp] theorem State.withHost_regsOk (s : State) (x : HostIf) : (s.withHost x).regsOk = s.regsOk := (rfl)

/-! ### `State.withTally` -/

@[simp] theorem State.withTally_pending (s : State) (x : Tally) : (s.withTally x).pending = s.pending := (rfl)
@[simp] theorem State.withTally_regs (s : State) (x : Tally) : (s.withTally x).regs = s.regs := (rfl)
@[simp] theorem State.withTally_frc (s : State) (x : Tally) : (s.withTally x).frc = s.frc := (rfl)
@[simp] theorem State.withTally_time (s : State) (x : Tally) : (s.withTally x).time = s.time := (rfl)
@[simp] theorem State.withTally_host (s : State) (x : Tally) : (s.withTally x).host = s.host := (rfl)
@[simp] theorem State.withTally_tally (s : State) (x : Tally) : (s.withTally x).tally = x := (rfl)
@[simp] theorem State.withTally_seam (s : State) (x : Tally) : (s.withTally x).seam = s.seam := (rfl)
@[simp] theorem State.withTally_pace (s : State) (x : Tally) : (s.withTally x).pace = s.pace := (rfl)
@[simp] theorem State.withTally_macs (s : State) (x : Tally) : (s.withTally x).macs = s.macs := (rfl)
@[simp] theorem State.withTally_insts (s : State) (x : Tally) : (s.withTally x).insts = s.insts := (rfl)
@[simp] theorem State.withTally_grps (s : State) (x : Tally) : (s.withTally x).grps = s.grps := (rfl)
@[simp] theorem State.withTally_pkts (s : State) (x : Tally) : (s.withTally x).pkts = s.pkts := (rfl)
@[simp] theorem State.withTally_nextPkt (s : State) (x : Tally) : (s.withTally x).nextPkt = s.nextPkt := (rfl)
@[simp] theorem State.withTally_ctxs (s : State) (x : Tally) : (s.withTally x).ctxs = s.ctxs := (rfl)
@[simp] theorem State.withTally_coat (s : State) (x : Tally) : (s.withTally x).coat = s.coat := (rfl)
@[simp] theorem State.withTally_policers (s : State) (x : Tally) : (s.withTally x).policers = s.policers := (rfl)
@[simp] theorem State.withTally_reasons (s : State) (x : Tally) : (s.withTally x).reasons = s.reasons := (rfl)
@[simp] theorem State.withTally_puntAgg (s : State) (x : Tally) : (s.withTally x).puntAgg = s.puntAgg := (rfl)
@[simp] theorem State.withTally_inflightA (s : State) (x : Tally) : (s.withTally x).inflightA = s.inflightA := (rfl)
@[simp] theorem State.withTally_inflightB (s : State) (x : Tally) : (s.withTally x).inflightB = s.inflightB := (rfl)
@[simp] theorem State.withTally_badWords (s : State) (x : Tally) : (s.withTally x).badWords = s.badWords := (rfl)
@[simp] theorem State.withTally_tables (s : State) (x : Tally) : (s.withTally x).tables = s.tables := (rfl)
@[simp] theorem State.withTally_easel (s : State) (x : Tally) : (s.withTally x).easel = s.easel := (rfl)
@[simp] theorem State.withTally_power (s : State) (x : Tally) : (s.withTally x).power = s.power := (rfl)
@[simp] theorem State.withTally_palette (s : State) (x : Tally) : (s.withTally x).palette = s.palette := (rfl)
@[simp] theorem State.withTally_sched (s : State) (x : Tally) : (s.withTally x).sched = s.sched := (rfl)
@[simp] theorem State.withTally_dram (s : State) (x : Tally) : (s.withTally x).dram = s.dram := (rfl)
@[simp] theorem State.withTally_fab (s : State) (x : Tally) : (s.withTally x).fab = s.fab := (rfl)
@[simp] theorem State.withTally_loom (s : State) (x : Tally) : (s.withTally x).loom = s.loom := (rfl)
@[simp] theorem State.withTally_emv (s : State) (x : Tally) : (s.withTally x).emv = s.emv := (rfl)
@[simp] theorem State.withTally_freeCtr (s : State) (x : Tally) : (s.withTally x).freeCtr = s.freeCtr := (rfl)
@[simp] theorem State.withTally_outputs (s : State) (x : Tally) : (s.withTally x).outputs = s.outputs := (rfl)
@[simp] theorem State.withTally_reg (s : State) (x : Tally) (r : Reg) (i : Nat) : (s.withTally x).reg r i = s.reg r i := (rfl)
@[simp] theorem State.withTally_rd (s : State) (x : Tally) (f : Fld) (i : Nat) : (s.withTally x).rd f i = s.rd f i := (rfl)
@[simp] theorem State.withTally_on (s : State) (x : Tally) (f : Fld) (i : Nat) : (s.withTally x).on f i = s.on f i := (rfl)
@[simp] theorem State.withTally_regsOk (s : State) (x : Tally) : (s.withTally x).regsOk = s.regsOk := (rfl)

/-! ### `State.withSeam` -/

@[simp] theorem State.withSeam_pending (s : State) (x : Seam) : (s.withSeam x).pending = s.pending := (rfl)
@[simp] theorem State.withSeam_regs (s : State) (x : Seam) : (s.withSeam x).regs = s.regs := (rfl)
@[simp] theorem State.withSeam_frc (s : State) (x : Seam) : (s.withSeam x).frc = s.frc := (rfl)
@[simp] theorem State.withSeam_time (s : State) (x : Seam) : (s.withSeam x).time = s.time := (rfl)
@[simp] theorem State.withSeam_host (s : State) (x : Seam) : (s.withSeam x).host = s.host := (rfl)
@[simp] theorem State.withSeam_tally (s : State) (x : Seam) : (s.withSeam x).tally = s.tally := (rfl)
@[simp] theorem State.withSeam_seam (s : State) (x : Seam) : (s.withSeam x).seam = x := (rfl)
@[simp] theorem State.withSeam_pace (s : State) (x : Seam) : (s.withSeam x).pace = s.pace := (rfl)
@[simp] theorem State.withSeam_macs (s : State) (x : Seam) : (s.withSeam x).macs = s.macs := (rfl)
@[simp] theorem State.withSeam_insts (s : State) (x : Seam) : (s.withSeam x).insts = s.insts := (rfl)
@[simp] theorem State.withSeam_grps (s : State) (x : Seam) : (s.withSeam x).grps = s.grps := (rfl)
@[simp] theorem State.withSeam_pkts (s : State) (x : Seam) : (s.withSeam x).pkts = s.pkts := (rfl)
@[simp] theorem State.withSeam_nextPkt (s : State) (x : Seam) : (s.withSeam x).nextPkt = s.nextPkt := (rfl)
@[simp] theorem State.withSeam_ctxs (s : State) (x : Seam) : (s.withSeam x).ctxs = s.ctxs := (rfl)
@[simp] theorem State.withSeam_coat (s : State) (x : Seam) : (s.withSeam x).coat = s.coat := (rfl)
@[simp] theorem State.withSeam_policers (s : State) (x : Seam) : (s.withSeam x).policers = s.policers := (rfl)
@[simp] theorem State.withSeam_reasons (s : State) (x : Seam) : (s.withSeam x).reasons = s.reasons := (rfl)
@[simp] theorem State.withSeam_puntAgg (s : State) (x : Seam) : (s.withSeam x).puntAgg = s.puntAgg := (rfl)
@[simp] theorem State.withSeam_inflightA (s : State) (x : Seam) : (s.withSeam x).inflightA = s.inflightA := (rfl)
@[simp] theorem State.withSeam_inflightB (s : State) (x : Seam) : (s.withSeam x).inflightB = s.inflightB := (rfl)
@[simp] theorem State.withSeam_badWords (s : State) (x : Seam) : (s.withSeam x).badWords = s.badWords := (rfl)
@[simp] theorem State.withSeam_tables (s : State) (x : Seam) : (s.withSeam x).tables = s.tables := (rfl)
@[simp] theorem State.withSeam_easel (s : State) (x : Seam) : (s.withSeam x).easel = s.easel := (rfl)
@[simp] theorem State.withSeam_power (s : State) (x : Seam) : (s.withSeam x).power = s.power := (rfl)
@[simp] theorem State.withSeam_palette (s : State) (x : Seam) : (s.withSeam x).palette = s.palette := (rfl)
@[simp] theorem State.withSeam_sched (s : State) (x : Seam) : (s.withSeam x).sched = s.sched := (rfl)
@[simp] theorem State.withSeam_dram (s : State) (x : Seam) : (s.withSeam x).dram = s.dram := (rfl)
@[simp] theorem State.withSeam_fab (s : State) (x : Seam) : (s.withSeam x).fab = s.fab := (rfl)
@[simp] theorem State.withSeam_loom (s : State) (x : Seam) : (s.withSeam x).loom = s.loom := (rfl)
@[simp] theorem State.withSeam_emv (s : State) (x : Seam) : (s.withSeam x).emv = s.emv := (rfl)
@[simp] theorem State.withSeam_freeCtr (s : State) (x : Seam) : (s.withSeam x).freeCtr = s.freeCtr := (rfl)
@[simp] theorem State.withSeam_outputs (s : State) (x : Seam) : (s.withSeam x).outputs = s.outputs := (rfl)
@[simp] theorem State.withSeam_reg (s : State) (x : Seam) (r : Reg) (i : Nat) : (s.withSeam x).reg r i = s.reg r i := (rfl)
@[simp] theorem State.withSeam_rd (s : State) (x : Seam) (f : Fld) (i : Nat) : (s.withSeam x).rd f i = s.rd f i := (rfl)
@[simp] theorem State.withSeam_on (s : State) (x : Seam) (f : Fld) (i : Nat) : (s.withSeam x).on f i = s.on f i := (rfl)
@[simp] theorem State.withSeam_regsOk (s : State) (x : Seam) : (s.withSeam x).regsOk = s.regsOk := (rfl)

/-! ### `State.withPace` -/

@[simp] theorem State.withPace_pending (s : State) (x : Pace) : (s.withPace x).pending = s.pending := (rfl)
@[simp] theorem State.withPace_regs (s : State) (x : Pace) : (s.withPace x).regs = s.regs := (rfl)
@[simp] theorem State.withPace_frc (s : State) (x : Pace) : (s.withPace x).frc = s.frc := (rfl)
@[simp] theorem State.withPace_time (s : State) (x : Pace) : (s.withPace x).time = s.time := (rfl)
@[simp] theorem State.withPace_host (s : State) (x : Pace) : (s.withPace x).host = s.host := (rfl)
@[simp] theorem State.withPace_tally (s : State) (x : Pace) : (s.withPace x).tally = s.tally := (rfl)
@[simp] theorem State.withPace_seam (s : State) (x : Pace) : (s.withPace x).seam = s.seam := (rfl)
@[simp] theorem State.withPace_pace (s : State) (x : Pace) : (s.withPace x).pace = x := (rfl)
@[simp] theorem State.withPace_macs (s : State) (x : Pace) : (s.withPace x).macs = s.macs := (rfl)
@[simp] theorem State.withPace_insts (s : State) (x : Pace) : (s.withPace x).insts = s.insts := (rfl)
@[simp] theorem State.withPace_grps (s : State) (x : Pace) : (s.withPace x).grps = s.grps := (rfl)
@[simp] theorem State.withPace_pkts (s : State) (x : Pace) : (s.withPace x).pkts = s.pkts := (rfl)
@[simp] theorem State.withPace_nextPkt (s : State) (x : Pace) : (s.withPace x).nextPkt = s.nextPkt := (rfl)
@[simp] theorem State.withPace_ctxs (s : State) (x : Pace) : (s.withPace x).ctxs = s.ctxs := (rfl)
@[simp] theorem State.withPace_coat (s : State) (x : Pace) : (s.withPace x).coat = s.coat := (rfl)
@[simp] theorem State.withPace_policers (s : State) (x : Pace) : (s.withPace x).policers = s.policers := (rfl)
@[simp] theorem State.withPace_reasons (s : State) (x : Pace) : (s.withPace x).reasons = s.reasons := (rfl)
@[simp] theorem State.withPace_puntAgg (s : State) (x : Pace) : (s.withPace x).puntAgg = s.puntAgg := (rfl)
@[simp] theorem State.withPace_inflightA (s : State) (x : Pace) : (s.withPace x).inflightA = s.inflightA := (rfl)
@[simp] theorem State.withPace_inflightB (s : State) (x : Pace) : (s.withPace x).inflightB = s.inflightB := (rfl)
@[simp] theorem State.withPace_badWords (s : State) (x : Pace) : (s.withPace x).badWords = s.badWords := (rfl)
@[simp] theorem State.withPace_tables (s : State) (x : Pace) : (s.withPace x).tables = s.tables := (rfl)
@[simp] theorem State.withPace_easel (s : State) (x : Pace) : (s.withPace x).easel = s.easel := (rfl)
@[simp] theorem State.withPace_power (s : State) (x : Pace) : (s.withPace x).power = s.power := (rfl)
@[simp] theorem State.withPace_palette (s : State) (x : Pace) : (s.withPace x).palette = s.palette := (rfl)
@[simp] theorem State.withPace_sched (s : State) (x : Pace) : (s.withPace x).sched = s.sched := (rfl)
@[simp] theorem State.withPace_dram (s : State) (x : Pace) : (s.withPace x).dram = s.dram := (rfl)
@[simp] theorem State.withPace_fab (s : State) (x : Pace) : (s.withPace x).fab = s.fab := (rfl)
@[simp] theorem State.withPace_loom (s : State) (x : Pace) : (s.withPace x).loom = s.loom := (rfl)
@[simp] theorem State.withPace_emv (s : State) (x : Pace) : (s.withPace x).emv = s.emv := (rfl)
@[simp] theorem State.withPace_freeCtr (s : State) (x : Pace) : (s.withPace x).freeCtr = s.freeCtr := (rfl)
@[simp] theorem State.withPace_outputs (s : State) (x : Pace) : (s.withPace x).outputs = s.outputs := (rfl)
@[simp] theorem State.withPace_reg (s : State) (x : Pace) (r : Reg) (i : Nat) : (s.withPace x).reg r i = s.reg r i := (rfl)
@[simp] theorem State.withPace_rd (s : State) (x : Pace) (f : Fld) (i : Nat) : (s.withPace x).rd f i = s.rd f i := (rfl)
@[simp] theorem State.withPace_on (s : State) (x : Pace) (f : Fld) (i : Nat) : (s.withPace x).on f i = s.on f i := (rfl)
@[simp] theorem State.withPace_regsOk (s : State) (x : Pace) : (s.withPace x).regsOk = s.regsOk := (rfl)

/-! ### `State.withMacs` -/

@[simp] theorem State.withMacs_pending (s : State) (x : Sparse Mac) : (s.withMacs x).pending = s.pending := (rfl)
@[simp] theorem State.withMacs_regs (s : State) (x : Sparse Mac) : (s.withMacs x).regs = s.regs := (rfl)
@[simp] theorem State.withMacs_frc (s : State) (x : Sparse Mac) : (s.withMacs x).frc = s.frc := (rfl)
@[simp] theorem State.withMacs_time (s : State) (x : Sparse Mac) : (s.withMacs x).time = s.time := (rfl)
@[simp] theorem State.withMacs_host (s : State) (x : Sparse Mac) : (s.withMacs x).host = s.host := (rfl)
@[simp] theorem State.withMacs_tally (s : State) (x : Sparse Mac) : (s.withMacs x).tally = s.tally := (rfl)
@[simp] theorem State.withMacs_seam (s : State) (x : Sparse Mac) : (s.withMacs x).seam = s.seam := (rfl)
@[simp] theorem State.withMacs_pace (s : State) (x : Sparse Mac) : (s.withMacs x).pace = s.pace := (rfl)
@[simp] theorem State.withMacs_macs (s : State) (x : Sparse Mac) : (s.withMacs x).macs = x := (rfl)
@[simp] theorem State.withMacs_insts (s : State) (x : Sparse Mac) : (s.withMacs x).insts = s.insts := (rfl)
@[simp] theorem State.withMacs_grps (s : State) (x : Sparse Mac) : (s.withMacs x).grps = s.grps := (rfl)
@[simp] theorem State.withMacs_pkts (s : State) (x : Sparse Mac) : (s.withMacs x).pkts = s.pkts := (rfl)
@[simp] theorem State.withMacs_nextPkt (s : State) (x : Sparse Mac) : (s.withMacs x).nextPkt = s.nextPkt := (rfl)
@[simp] theorem State.withMacs_ctxs (s : State) (x : Sparse Mac) : (s.withMacs x).ctxs = s.ctxs := (rfl)
@[simp] theorem State.withMacs_coat (s : State) (x : Sparse Mac) : (s.withMacs x).coat = s.coat := (rfl)
@[simp] theorem State.withMacs_policers (s : State) (x : Sparse Mac) : (s.withMacs x).policers = s.policers := (rfl)
@[simp] theorem State.withMacs_reasons (s : State) (x : Sparse Mac) : (s.withMacs x).reasons = s.reasons := (rfl)
@[simp] theorem State.withMacs_puntAgg (s : State) (x : Sparse Mac) : (s.withMacs x).puntAgg = s.puntAgg := (rfl)
@[simp] theorem State.withMacs_inflightA (s : State) (x : Sparse Mac) : (s.withMacs x).inflightA = s.inflightA := (rfl)
@[simp] theorem State.withMacs_inflightB (s : State) (x : Sparse Mac) : (s.withMacs x).inflightB = s.inflightB := (rfl)
@[simp] theorem State.withMacs_badWords (s : State) (x : Sparse Mac) : (s.withMacs x).badWords = s.badWords := (rfl)
@[simp] theorem State.withMacs_tables (s : State) (x : Sparse Mac) : (s.withMacs x).tables = s.tables := (rfl)
@[simp] theorem State.withMacs_easel (s : State) (x : Sparse Mac) : (s.withMacs x).easel = s.easel := (rfl)
@[simp] theorem State.withMacs_power (s : State) (x : Sparse Mac) : (s.withMacs x).power = s.power := (rfl)
@[simp] theorem State.withMacs_palette (s : State) (x : Sparse Mac) : (s.withMacs x).palette = s.palette := (rfl)
@[simp] theorem State.withMacs_sched (s : State) (x : Sparse Mac) : (s.withMacs x).sched = s.sched := (rfl)
@[simp] theorem State.withMacs_dram (s : State) (x : Sparse Mac) : (s.withMacs x).dram = s.dram := (rfl)
@[simp] theorem State.withMacs_fab (s : State) (x : Sparse Mac) : (s.withMacs x).fab = s.fab := (rfl)
@[simp] theorem State.withMacs_loom (s : State) (x : Sparse Mac) : (s.withMacs x).loom = s.loom := (rfl)
@[simp] theorem State.withMacs_emv (s : State) (x : Sparse Mac) : (s.withMacs x).emv = s.emv := (rfl)
@[simp] theorem State.withMacs_freeCtr (s : State) (x : Sparse Mac) : (s.withMacs x).freeCtr = s.freeCtr := (rfl)
@[simp] theorem State.withMacs_outputs (s : State) (x : Sparse Mac) : (s.withMacs x).outputs = s.outputs := (rfl)
@[simp] theorem State.withMacs_reg (s : State) (x : Sparse Mac) (r : Reg) (i : Nat) : (s.withMacs x).reg r i = s.reg r i := (rfl)
@[simp] theorem State.withMacs_rd (s : State) (x : Sparse Mac) (f : Fld) (i : Nat) : (s.withMacs x).rd f i = s.rd f i := (rfl)
@[simp] theorem State.withMacs_on (s : State) (x : Sparse Mac) (f : Fld) (i : Nat) : (s.withMacs x).on f i = s.on f i := (rfl)
@[simp] theorem State.withMacs_regsOk (s : State) (x : Sparse Mac) : (s.withMacs x).regsOk = s.regsOk := (rfl)

/-! ### `State.withInsts` -/

@[simp] theorem State.withInsts_pending (s : State) (x : Sparse Inst) : (s.withInsts x).pending = s.pending := (rfl)
@[simp] theorem State.withInsts_regs (s : State) (x : Sparse Inst) : (s.withInsts x).regs = s.regs := (rfl)
@[simp] theorem State.withInsts_frc (s : State) (x : Sparse Inst) : (s.withInsts x).frc = s.frc := (rfl)
@[simp] theorem State.withInsts_time (s : State) (x : Sparse Inst) : (s.withInsts x).time = s.time := (rfl)
@[simp] theorem State.withInsts_host (s : State) (x : Sparse Inst) : (s.withInsts x).host = s.host := (rfl)
@[simp] theorem State.withInsts_tally (s : State) (x : Sparse Inst) : (s.withInsts x).tally = s.tally := (rfl)
@[simp] theorem State.withInsts_seam (s : State) (x : Sparse Inst) : (s.withInsts x).seam = s.seam := (rfl)
@[simp] theorem State.withInsts_pace (s : State) (x : Sparse Inst) : (s.withInsts x).pace = s.pace := (rfl)
@[simp] theorem State.withInsts_macs (s : State) (x : Sparse Inst) : (s.withInsts x).macs = s.macs := (rfl)
@[simp] theorem State.withInsts_insts (s : State) (x : Sparse Inst) : (s.withInsts x).insts = x := (rfl)
@[simp] theorem State.withInsts_grps (s : State) (x : Sparse Inst) : (s.withInsts x).grps = s.grps := (rfl)
@[simp] theorem State.withInsts_pkts (s : State) (x : Sparse Inst) : (s.withInsts x).pkts = s.pkts := (rfl)
@[simp] theorem State.withInsts_nextPkt (s : State) (x : Sparse Inst) : (s.withInsts x).nextPkt = s.nextPkt := (rfl)
@[simp] theorem State.withInsts_ctxs (s : State) (x : Sparse Inst) : (s.withInsts x).ctxs = s.ctxs := (rfl)
@[simp] theorem State.withInsts_coat (s : State) (x : Sparse Inst) : (s.withInsts x).coat = s.coat := (rfl)
@[simp] theorem State.withInsts_policers (s : State) (x : Sparse Inst) : (s.withInsts x).policers = s.policers := (rfl)
@[simp] theorem State.withInsts_reasons (s : State) (x : Sparse Inst) : (s.withInsts x).reasons = s.reasons := (rfl)
@[simp] theorem State.withInsts_puntAgg (s : State) (x : Sparse Inst) : (s.withInsts x).puntAgg = s.puntAgg := (rfl)
@[simp] theorem State.withInsts_inflightA (s : State) (x : Sparse Inst) : (s.withInsts x).inflightA = s.inflightA := (rfl)
@[simp] theorem State.withInsts_inflightB (s : State) (x : Sparse Inst) : (s.withInsts x).inflightB = s.inflightB := (rfl)
@[simp] theorem State.withInsts_badWords (s : State) (x : Sparse Inst) : (s.withInsts x).badWords = s.badWords := (rfl)
@[simp] theorem State.withInsts_tables (s : State) (x : Sparse Inst) : (s.withInsts x).tables = s.tables := (rfl)
@[simp] theorem State.withInsts_easel (s : State) (x : Sparse Inst) : (s.withInsts x).easel = s.easel := (rfl)
@[simp] theorem State.withInsts_power (s : State) (x : Sparse Inst) : (s.withInsts x).power = s.power := (rfl)
@[simp] theorem State.withInsts_palette (s : State) (x : Sparse Inst) : (s.withInsts x).palette = s.palette := (rfl)
@[simp] theorem State.withInsts_sched (s : State) (x : Sparse Inst) : (s.withInsts x).sched = s.sched := (rfl)
@[simp] theorem State.withInsts_dram (s : State) (x : Sparse Inst) : (s.withInsts x).dram = s.dram := (rfl)
@[simp] theorem State.withInsts_fab (s : State) (x : Sparse Inst) : (s.withInsts x).fab = s.fab := (rfl)
@[simp] theorem State.withInsts_loom (s : State) (x : Sparse Inst) : (s.withInsts x).loom = s.loom := (rfl)
@[simp] theorem State.withInsts_emv (s : State) (x : Sparse Inst) : (s.withInsts x).emv = s.emv := (rfl)
@[simp] theorem State.withInsts_freeCtr (s : State) (x : Sparse Inst) : (s.withInsts x).freeCtr = s.freeCtr := (rfl)
@[simp] theorem State.withInsts_outputs (s : State) (x : Sparse Inst) : (s.withInsts x).outputs = s.outputs := (rfl)
@[simp] theorem State.withInsts_reg (s : State) (x : Sparse Inst) (r : Reg) (i : Nat) : (s.withInsts x).reg r i = s.reg r i := (rfl)
@[simp] theorem State.withInsts_rd (s : State) (x : Sparse Inst) (f : Fld) (i : Nat) : (s.withInsts x).rd f i = s.rd f i := (rfl)
@[simp] theorem State.withInsts_on (s : State) (x : Sparse Inst) (f : Fld) (i : Nat) : (s.withInsts x).on f i = s.on f i := (rfl)
@[simp] theorem State.withInsts_regsOk (s : State) (x : Sparse Inst) : (s.withInsts x).regsOk = s.regsOk := (rfl)

/-! ### `State.withGrps` -/

@[simp] theorem State.withGrps_pending (s : State) (x : Sparse Grp) : (s.withGrps x).pending = s.pending := (rfl)
@[simp] theorem State.withGrps_regs (s : State) (x : Sparse Grp) : (s.withGrps x).regs = s.regs := (rfl)
@[simp] theorem State.withGrps_frc (s : State) (x : Sparse Grp) : (s.withGrps x).frc = s.frc := (rfl)
@[simp] theorem State.withGrps_time (s : State) (x : Sparse Grp) : (s.withGrps x).time = s.time := (rfl)
@[simp] theorem State.withGrps_host (s : State) (x : Sparse Grp) : (s.withGrps x).host = s.host := (rfl)
@[simp] theorem State.withGrps_tally (s : State) (x : Sparse Grp) : (s.withGrps x).tally = s.tally := (rfl)
@[simp] theorem State.withGrps_seam (s : State) (x : Sparse Grp) : (s.withGrps x).seam = s.seam := (rfl)
@[simp] theorem State.withGrps_pace (s : State) (x : Sparse Grp) : (s.withGrps x).pace = s.pace := (rfl)
@[simp] theorem State.withGrps_macs (s : State) (x : Sparse Grp) : (s.withGrps x).macs = s.macs := (rfl)
@[simp] theorem State.withGrps_insts (s : State) (x : Sparse Grp) : (s.withGrps x).insts = s.insts := (rfl)
@[simp] theorem State.withGrps_grps (s : State) (x : Sparse Grp) : (s.withGrps x).grps = x := (rfl)
@[simp] theorem State.withGrps_pkts (s : State) (x : Sparse Grp) : (s.withGrps x).pkts = s.pkts := (rfl)
@[simp] theorem State.withGrps_nextPkt (s : State) (x : Sparse Grp) : (s.withGrps x).nextPkt = s.nextPkt := (rfl)
@[simp] theorem State.withGrps_ctxs (s : State) (x : Sparse Grp) : (s.withGrps x).ctxs = s.ctxs := (rfl)
@[simp] theorem State.withGrps_coat (s : State) (x : Sparse Grp) : (s.withGrps x).coat = s.coat := (rfl)
@[simp] theorem State.withGrps_policers (s : State) (x : Sparse Grp) : (s.withGrps x).policers = s.policers := (rfl)
@[simp] theorem State.withGrps_reasons (s : State) (x : Sparse Grp) : (s.withGrps x).reasons = s.reasons := (rfl)
@[simp] theorem State.withGrps_puntAgg (s : State) (x : Sparse Grp) : (s.withGrps x).puntAgg = s.puntAgg := (rfl)
@[simp] theorem State.withGrps_inflightA (s : State) (x : Sparse Grp) : (s.withGrps x).inflightA = s.inflightA := (rfl)
@[simp] theorem State.withGrps_inflightB (s : State) (x : Sparse Grp) : (s.withGrps x).inflightB = s.inflightB := (rfl)
@[simp] theorem State.withGrps_badWords (s : State) (x : Sparse Grp) : (s.withGrps x).badWords = s.badWords := (rfl)
@[simp] theorem State.withGrps_tables (s : State) (x : Sparse Grp) : (s.withGrps x).tables = s.tables := (rfl)
@[simp] theorem State.withGrps_easel (s : State) (x : Sparse Grp) : (s.withGrps x).easel = s.easel := (rfl)
@[simp] theorem State.withGrps_power (s : State) (x : Sparse Grp) : (s.withGrps x).power = s.power := (rfl)
@[simp] theorem State.withGrps_palette (s : State) (x : Sparse Grp) : (s.withGrps x).palette = s.palette := (rfl)
@[simp] theorem State.withGrps_sched (s : State) (x : Sparse Grp) : (s.withGrps x).sched = s.sched := (rfl)
@[simp] theorem State.withGrps_dram (s : State) (x : Sparse Grp) : (s.withGrps x).dram = s.dram := (rfl)
@[simp] theorem State.withGrps_fab (s : State) (x : Sparse Grp) : (s.withGrps x).fab = s.fab := (rfl)
@[simp] theorem State.withGrps_loom (s : State) (x : Sparse Grp) : (s.withGrps x).loom = s.loom := (rfl)
@[simp] theorem State.withGrps_emv (s : State) (x : Sparse Grp) : (s.withGrps x).emv = s.emv := (rfl)
@[simp] theorem State.withGrps_freeCtr (s : State) (x : Sparse Grp) : (s.withGrps x).freeCtr = s.freeCtr := (rfl)
@[simp] theorem State.withGrps_outputs (s : State) (x : Sparse Grp) : (s.withGrps x).outputs = s.outputs := (rfl)
@[simp] theorem State.withGrps_reg (s : State) (x : Sparse Grp) (r : Reg) (i : Nat) : (s.withGrps x).reg r i = s.reg r i := (rfl)
@[simp] theorem State.withGrps_rd (s : State) (x : Sparse Grp) (f : Fld) (i : Nat) : (s.withGrps x).rd f i = s.rd f i := (rfl)
@[simp] theorem State.withGrps_on (s : State) (x : Sparse Grp) (f : Fld) (i : Nat) : (s.withGrps x).on f i = s.on f i := (rfl)
@[simp] theorem State.withGrps_regsOk (s : State) (x : Sparse Grp) : (s.withGrps x).regsOk = s.regsOk := (rfl)

/-! ### `State.withPkts` -/

@[simp] theorem State.withPkts_pending (s : State) (x : Sparse (Option Pkt)) : (s.withPkts x).pending = s.pending := (rfl)
@[simp] theorem State.withPkts_regs (s : State) (x : Sparse (Option Pkt)) : (s.withPkts x).regs = s.regs := (rfl)
@[simp] theorem State.withPkts_frc (s : State) (x : Sparse (Option Pkt)) : (s.withPkts x).frc = s.frc := (rfl)
@[simp] theorem State.withPkts_time (s : State) (x : Sparse (Option Pkt)) : (s.withPkts x).time = s.time := (rfl)
@[simp] theorem State.withPkts_host (s : State) (x : Sparse (Option Pkt)) : (s.withPkts x).host = s.host := (rfl)
@[simp] theorem State.withPkts_tally (s : State) (x : Sparse (Option Pkt)) : (s.withPkts x).tally = s.tally := (rfl)
@[simp] theorem State.withPkts_seam (s : State) (x : Sparse (Option Pkt)) : (s.withPkts x).seam = s.seam := (rfl)
@[simp] theorem State.withPkts_pace (s : State) (x : Sparse (Option Pkt)) : (s.withPkts x).pace = s.pace := (rfl)
@[simp] theorem State.withPkts_macs (s : State) (x : Sparse (Option Pkt)) : (s.withPkts x).macs = s.macs := (rfl)
@[simp] theorem State.withPkts_insts (s : State) (x : Sparse (Option Pkt)) : (s.withPkts x).insts = s.insts := (rfl)
@[simp] theorem State.withPkts_grps (s : State) (x : Sparse (Option Pkt)) : (s.withPkts x).grps = s.grps := (rfl)
@[simp] theorem State.withPkts_pkts (s : State) (x : Sparse (Option Pkt)) : (s.withPkts x).pkts = x := (rfl)
@[simp] theorem State.withPkts_nextPkt (s : State) (x : Sparse (Option Pkt)) : (s.withPkts x).nextPkt = s.nextPkt := (rfl)
@[simp] theorem State.withPkts_ctxs (s : State) (x : Sparse (Option Pkt)) : (s.withPkts x).ctxs = s.ctxs := (rfl)
@[simp] theorem State.withPkts_coat (s : State) (x : Sparse (Option Pkt)) : (s.withPkts x).coat = s.coat := (rfl)
@[simp] theorem State.withPkts_policers (s : State) (x : Sparse (Option Pkt)) : (s.withPkts x).policers = s.policers := (rfl)
@[simp] theorem State.withPkts_reasons (s : State) (x : Sparse (Option Pkt)) : (s.withPkts x).reasons = s.reasons := (rfl)
@[simp] theorem State.withPkts_puntAgg (s : State) (x : Sparse (Option Pkt)) : (s.withPkts x).puntAgg = s.puntAgg := (rfl)
@[simp] theorem State.withPkts_inflightA (s : State) (x : Sparse (Option Pkt)) : (s.withPkts x).inflightA = s.inflightA := (rfl)
@[simp] theorem State.withPkts_inflightB (s : State) (x : Sparse (Option Pkt)) : (s.withPkts x).inflightB = s.inflightB := (rfl)
@[simp] theorem State.withPkts_badWords (s : State) (x : Sparse (Option Pkt)) : (s.withPkts x).badWords = s.badWords := (rfl)
@[simp] theorem State.withPkts_tables (s : State) (x : Sparse (Option Pkt)) : (s.withPkts x).tables = s.tables := (rfl)
@[simp] theorem State.withPkts_easel (s : State) (x : Sparse (Option Pkt)) : (s.withPkts x).easel = s.easel := (rfl)
@[simp] theorem State.withPkts_power (s : State) (x : Sparse (Option Pkt)) : (s.withPkts x).power = s.power := (rfl)
@[simp] theorem State.withPkts_palette (s : State) (x : Sparse (Option Pkt)) : (s.withPkts x).palette = s.palette := (rfl)
@[simp] theorem State.withPkts_sched (s : State) (x : Sparse (Option Pkt)) : (s.withPkts x).sched = s.sched := (rfl)
@[simp] theorem State.withPkts_dram (s : State) (x : Sparse (Option Pkt)) : (s.withPkts x).dram = s.dram := (rfl)
@[simp] theorem State.withPkts_fab (s : State) (x : Sparse (Option Pkt)) : (s.withPkts x).fab = s.fab := (rfl)
@[simp] theorem State.withPkts_loom (s : State) (x : Sparse (Option Pkt)) : (s.withPkts x).loom = s.loom := (rfl)
@[simp] theorem State.withPkts_emv (s : State) (x : Sparse (Option Pkt)) : (s.withPkts x).emv = s.emv := (rfl)
@[simp] theorem State.withPkts_freeCtr (s : State) (x : Sparse (Option Pkt)) : (s.withPkts x).freeCtr = s.freeCtr := (rfl)
@[simp] theorem State.withPkts_outputs (s : State) (x : Sparse (Option Pkt)) : (s.withPkts x).outputs = s.outputs := (rfl)
@[simp] theorem State.withPkts_reg (s : State) (x : Sparse (Option Pkt)) (r : Reg) (i : Nat) : (s.withPkts x).reg r i = s.reg r i := (rfl)
@[simp] theorem State.withPkts_rd (s : State) (x : Sparse (Option Pkt)) (f : Fld) (i : Nat) : (s.withPkts x).rd f i = s.rd f i := (rfl)
@[simp] theorem State.withPkts_on (s : State) (x : Sparse (Option Pkt)) (f : Fld) (i : Nat) : (s.withPkts x).on f i = s.on f i := (rfl)
@[simp] theorem State.withPkts_regsOk (s : State) (x : Sparse (Option Pkt)) : (s.withPkts x).regsOk = s.regsOk := (rfl)

/-! ### `State.withNextPkt` -/

@[simp] theorem State.withNextPkt_pending (s : State) (x : Nat) : (s.withNextPkt x).pending = s.pending := (rfl)
@[simp] theorem State.withNextPkt_regs (s : State) (x : Nat) : (s.withNextPkt x).regs = s.regs := (rfl)
@[simp] theorem State.withNextPkt_frc (s : State) (x : Nat) : (s.withNextPkt x).frc = s.frc := (rfl)
@[simp] theorem State.withNextPkt_time (s : State) (x : Nat) : (s.withNextPkt x).time = s.time := (rfl)
@[simp] theorem State.withNextPkt_host (s : State) (x : Nat) : (s.withNextPkt x).host = s.host := (rfl)
@[simp] theorem State.withNextPkt_tally (s : State) (x : Nat) : (s.withNextPkt x).tally = s.tally := (rfl)
@[simp] theorem State.withNextPkt_seam (s : State) (x : Nat) : (s.withNextPkt x).seam = s.seam := (rfl)
@[simp] theorem State.withNextPkt_pace (s : State) (x : Nat) : (s.withNextPkt x).pace = s.pace := (rfl)
@[simp] theorem State.withNextPkt_macs (s : State) (x : Nat) : (s.withNextPkt x).macs = s.macs := (rfl)
@[simp] theorem State.withNextPkt_insts (s : State) (x : Nat) : (s.withNextPkt x).insts = s.insts := (rfl)
@[simp] theorem State.withNextPkt_grps (s : State) (x : Nat) : (s.withNextPkt x).grps = s.grps := (rfl)
@[simp] theorem State.withNextPkt_pkts (s : State) (x : Nat) : (s.withNextPkt x).pkts = s.pkts := (rfl)
@[simp] theorem State.withNextPkt_nextPkt (s : State) (x : Nat) : (s.withNextPkt x).nextPkt = x := (rfl)
@[simp] theorem State.withNextPkt_ctxs (s : State) (x : Nat) : (s.withNextPkt x).ctxs = s.ctxs := (rfl)
@[simp] theorem State.withNextPkt_coat (s : State) (x : Nat) : (s.withNextPkt x).coat = s.coat := (rfl)
@[simp] theorem State.withNextPkt_policers (s : State) (x : Nat) : (s.withNextPkt x).policers = s.policers := (rfl)
@[simp] theorem State.withNextPkt_reasons (s : State) (x : Nat) : (s.withNextPkt x).reasons = s.reasons := (rfl)
@[simp] theorem State.withNextPkt_puntAgg (s : State) (x : Nat) : (s.withNextPkt x).puntAgg = s.puntAgg := (rfl)
@[simp] theorem State.withNextPkt_inflightA (s : State) (x : Nat) : (s.withNextPkt x).inflightA = s.inflightA := (rfl)
@[simp] theorem State.withNextPkt_inflightB (s : State) (x : Nat) : (s.withNextPkt x).inflightB = s.inflightB := (rfl)
@[simp] theorem State.withNextPkt_badWords (s : State) (x : Nat) : (s.withNextPkt x).badWords = s.badWords := (rfl)
@[simp] theorem State.withNextPkt_tables (s : State) (x : Nat) : (s.withNextPkt x).tables = s.tables := (rfl)
@[simp] theorem State.withNextPkt_easel (s : State) (x : Nat) : (s.withNextPkt x).easel = s.easel := (rfl)
@[simp] theorem State.withNextPkt_power (s : State) (x : Nat) : (s.withNextPkt x).power = s.power := (rfl)
@[simp] theorem State.withNextPkt_palette (s : State) (x : Nat) : (s.withNextPkt x).palette = s.palette := (rfl)
@[simp] theorem State.withNextPkt_sched (s : State) (x : Nat) : (s.withNextPkt x).sched = s.sched := (rfl)
@[simp] theorem State.withNextPkt_dram (s : State) (x : Nat) : (s.withNextPkt x).dram = s.dram := (rfl)
@[simp] theorem State.withNextPkt_fab (s : State) (x : Nat) : (s.withNextPkt x).fab = s.fab := (rfl)
@[simp] theorem State.withNextPkt_loom (s : State) (x : Nat) : (s.withNextPkt x).loom = s.loom := (rfl)
@[simp] theorem State.withNextPkt_emv (s : State) (x : Nat) : (s.withNextPkt x).emv = s.emv := (rfl)
@[simp] theorem State.withNextPkt_freeCtr (s : State) (x : Nat) : (s.withNextPkt x).freeCtr = s.freeCtr := (rfl)
@[simp] theorem State.withNextPkt_outputs (s : State) (x : Nat) : (s.withNextPkt x).outputs = s.outputs := (rfl)
@[simp] theorem State.withNextPkt_reg (s : State) (x : Nat) (r : Reg) (i : Nat) : (s.withNextPkt x).reg r i = s.reg r i := (rfl)
@[simp] theorem State.withNextPkt_rd (s : State) (x : Nat) (f : Fld) (i : Nat) : (s.withNextPkt x).rd f i = s.rd f i := (rfl)
@[simp] theorem State.withNextPkt_on (s : State) (x : Nat) (f : Fld) (i : Nat) : (s.withNextPkt x).on f i = s.on f i := (rfl)
@[simp] theorem State.withNextPkt_regsOk (s : State) (x : Nat) : (s.withNextPkt x).regsOk = s.regsOk := (rfl)

/-! ### `State.withCtxs` -/

@[simp] theorem State.withCtxs_pending (s : State) (x : Sparse (Option Ctx)) : (s.withCtxs x).pending = s.pending := (rfl)
@[simp] theorem State.withCtxs_regs (s : State) (x : Sparse (Option Ctx)) : (s.withCtxs x).regs = s.regs := (rfl)
@[simp] theorem State.withCtxs_frc (s : State) (x : Sparse (Option Ctx)) : (s.withCtxs x).frc = s.frc := (rfl)
@[simp] theorem State.withCtxs_time (s : State) (x : Sparse (Option Ctx)) : (s.withCtxs x).time = s.time := (rfl)
@[simp] theorem State.withCtxs_host (s : State) (x : Sparse (Option Ctx)) : (s.withCtxs x).host = s.host := (rfl)
@[simp] theorem State.withCtxs_tally (s : State) (x : Sparse (Option Ctx)) : (s.withCtxs x).tally = s.tally := (rfl)
@[simp] theorem State.withCtxs_seam (s : State) (x : Sparse (Option Ctx)) : (s.withCtxs x).seam = s.seam := (rfl)
@[simp] theorem State.withCtxs_pace (s : State) (x : Sparse (Option Ctx)) : (s.withCtxs x).pace = s.pace := (rfl)
@[simp] theorem State.withCtxs_macs (s : State) (x : Sparse (Option Ctx)) : (s.withCtxs x).macs = s.macs := (rfl)
@[simp] theorem State.withCtxs_insts (s : State) (x : Sparse (Option Ctx)) : (s.withCtxs x).insts = s.insts := (rfl)
@[simp] theorem State.withCtxs_grps (s : State) (x : Sparse (Option Ctx)) : (s.withCtxs x).grps = s.grps := (rfl)
@[simp] theorem State.withCtxs_pkts (s : State) (x : Sparse (Option Ctx)) : (s.withCtxs x).pkts = s.pkts := (rfl)
@[simp] theorem State.withCtxs_nextPkt (s : State) (x : Sparse (Option Ctx)) : (s.withCtxs x).nextPkt = s.nextPkt := (rfl)
@[simp] theorem State.withCtxs_ctxs (s : State) (x : Sparse (Option Ctx)) : (s.withCtxs x).ctxs = x := (rfl)
@[simp] theorem State.withCtxs_coat (s : State) (x : Sparse (Option Ctx)) : (s.withCtxs x).coat = s.coat := (rfl)
@[simp] theorem State.withCtxs_policers (s : State) (x : Sparse (Option Ctx)) : (s.withCtxs x).policers = s.policers := (rfl)
@[simp] theorem State.withCtxs_reasons (s : State) (x : Sparse (Option Ctx)) : (s.withCtxs x).reasons = s.reasons := (rfl)
@[simp] theorem State.withCtxs_puntAgg (s : State) (x : Sparse (Option Ctx)) : (s.withCtxs x).puntAgg = s.puntAgg := (rfl)
@[simp] theorem State.withCtxs_inflightA (s : State) (x : Sparse (Option Ctx)) : (s.withCtxs x).inflightA = s.inflightA := (rfl)
@[simp] theorem State.withCtxs_inflightB (s : State) (x : Sparse (Option Ctx)) : (s.withCtxs x).inflightB = s.inflightB := (rfl)
@[simp] theorem State.withCtxs_badWords (s : State) (x : Sparse (Option Ctx)) : (s.withCtxs x).badWords = s.badWords := (rfl)
@[simp] theorem State.withCtxs_tables (s : State) (x : Sparse (Option Ctx)) : (s.withCtxs x).tables = s.tables := (rfl)
@[simp] theorem State.withCtxs_easel (s : State) (x : Sparse (Option Ctx)) : (s.withCtxs x).easel = s.easel := (rfl)
@[simp] theorem State.withCtxs_power (s : State) (x : Sparse (Option Ctx)) : (s.withCtxs x).power = s.power := (rfl)
@[simp] theorem State.withCtxs_palette (s : State) (x : Sparse (Option Ctx)) : (s.withCtxs x).palette = s.palette := (rfl)
@[simp] theorem State.withCtxs_sched (s : State) (x : Sparse (Option Ctx)) : (s.withCtxs x).sched = s.sched := (rfl)
@[simp] theorem State.withCtxs_dram (s : State) (x : Sparse (Option Ctx)) : (s.withCtxs x).dram = s.dram := (rfl)
@[simp] theorem State.withCtxs_fab (s : State) (x : Sparse (Option Ctx)) : (s.withCtxs x).fab = s.fab := (rfl)
@[simp] theorem State.withCtxs_loom (s : State) (x : Sparse (Option Ctx)) : (s.withCtxs x).loom = s.loom := (rfl)
@[simp] theorem State.withCtxs_emv (s : State) (x : Sparse (Option Ctx)) : (s.withCtxs x).emv = s.emv := (rfl)
@[simp] theorem State.withCtxs_freeCtr (s : State) (x : Sparse (Option Ctx)) : (s.withCtxs x).freeCtr = s.freeCtr := (rfl)
@[simp] theorem State.withCtxs_outputs (s : State) (x : Sparse (Option Ctx)) : (s.withCtxs x).outputs = s.outputs := (rfl)
@[simp] theorem State.withCtxs_reg (s : State) (x : Sparse (Option Ctx)) (r : Reg) (i : Nat) : (s.withCtxs x).reg r i = s.reg r i := (rfl)
@[simp] theorem State.withCtxs_rd (s : State) (x : Sparse (Option Ctx)) (f : Fld) (i : Nat) : (s.withCtxs x).rd f i = s.rd f i := (rfl)
@[simp] theorem State.withCtxs_on (s : State) (x : Sparse (Option Ctx)) (f : Fld) (i : Nat) : (s.withCtxs x).on f i = s.on f i := (rfl)
@[simp] theorem State.withCtxs_regsOk (s : State) (x : Sparse (Option Ctx)) : (s.withCtxs x).regsOk = s.regsOk := (rfl)

/-! ### `State.withCoat` -/

@[simp] theorem State.withCoat_pending (s : State) (x : Coat) : (s.withCoat x).pending = s.pending := (rfl)
@[simp] theorem State.withCoat_regs (s : State) (x : Coat) : (s.withCoat x).regs = s.regs := (rfl)
@[simp] theorem State.withCoat_frc (s : State) (x : Coat) : (s.withCoat x).frc = s.frc := (rfl)
@[simp] theorem State.withCoat_time (s : State) (x : Coat) : (s.withCoat x).time = s.time := (rfl)
@[simp] theorem State.withCoat_host (s : State) (x : Coat) : (s.withCoat x).host = s.host := (rfl)
@[simp] theorem State.withCoat_tally (s : State) (x : Coat) : (s.withCoat x).tally = s.tally := (rfl)
@[simp] theorem State.withCoat_seam (s : State) (x : Coat) : (s.withCoat x).seam = s.seam := (rfl)
@[simp] theorem State.withCoat_pace (s : State) (x : Coat) : (s.withCoat x).pace = s.pace := (rfl)
@[simp] theorem State.withCoat_macs (s : State) (x : Coat) : (s.withCoat x).macs = s.macs := (rfl)
@[simp] theorem State.withCoat_insts (s : State) (x : Coat) : (s.withCoat x).insts = s.insts := (rfl)
@[simp] theorem State.withCoat_grps (s : State) (x : Coat) : (s.withCoat x).grps = s.grps := (rfl)
@[simp] theorem State.withCoat_pkts (s : State) (x : Coat) : (s.withCoat x).pkts = s.pkts := (rfl)
@[simp] theorem State.withCoat_nextPkt (s : State) (x : Coat) : (s.withCoat x).nextPkt = s.nextPkt := (rfl)
@[simp] theorem State.withCoat_ctxs (s : State) (x : Coat) : (s.withCoat x).ctxs = s.ctxs := (rfl)
@[simp] theorem State.withCoat_coat (s : State) (x : Coat) : (s.withCoat x).coat = x := (rfl)
@[simp] theorem State.withCoat_policers (s : State) (x : Coat) : (s.withCoat x).policers = s.policers := (rfl)
@[simp] theorem State.withCoat_reasons (s : State) (x : Coat) : (s.withCoat x).reasons = s.reasons := (rfl)
@[simp] theorem State.withCoat_puntAgg (s : State) (x : Coat) : (s.withCoat x).puntAgg = s.puntAgg := (rfl)
@[simp] theorem State.withCoat_inflightA (s : State) (x : Coat) : (s.withCoat x).inflightA = s.inflightA := (rfl)
@[simp] theorem State.withCoat_inflightB (s : State) (x : Coat) : (s.withCoat x).inflightB = s.inflightB := (rfl)
@[simp] theorem State.withCoat_badWords (s : State) (x : Coat) : (s.withCoat x).badWords = s.badWords := (rfl)
@[simp] theorem State.withCoat_tables (s : State) (x : Coat) : (s.withCoat x).tables = s.tables := (rfl)
@[simp] theorem State.withCoat_easel (s : State) (x : Coat) : (s.withCoat x).easel = s.easel := (rfl)
@[simp] theorem State.withCoat_power (s : State) (x : Coat) : (s.withCoat x).power = s.power := (rfl)
@[simp] theorem State.withCoat_palette (s : State) (x : Coat) : (s.withCoat x).palette = s.palette := (rfl)
@[simp] theorem State.withCoat_sched (s : State) (x : Coat) : (s.withCoat x).sched = s.sched := (rfl)
@[simp] theorem State.withCoat_dram (s : State) (x : Coat) : (s.withCoat x).dram = s.dram := (rfl)
@[simp] theorem State.withCoat_fab (s : State) (x : Coat) : (s.withCoat x).fab = s.fab := (rfl)
@[simp] theorem State.withCoat_loom (s : State) (x : Coat) : (s.withCoat x).loom = s.loom := (rfl)
@[simp] theorem State.withCoat_emv (s : State) (x : Coat) : (s.withCoat x).emv = s.emv := (rfl)
@[simp] theorem State.withCoat_freeCtr (s : State) (x : Coat) : (s.withCoat x).freeCtr = s.freeCtr := (rfl)
@[simp] theorem State.withCoat_outputs (s : State) (x : Coat) : (s.withCoat x).outputs = s.outputs := (rfl)
@[simp] theorem State.withCoat_reg (s : State) (x : Coat) (r : Reg) (i : Nat) : (s.withCoat x).reg r i = s.reg r i := (rfl)
@[simp] theorem State.withCoat_rd (s : State) (x : Coat) (f : Fld) (i : Nat) : (s.withCoat x).rd f i = s.rd f i := (rfl)
@[simp] theorem State.withCoat_on (s : State) (x : Coat) (f : Fld) (i : Nat) : (s.withCoat x).on f i = s.on f i := (rfl)
@[simp] theorem State.withCoat_regsOk (s : State) (x : Coat) : (s.withCoat x).regsOk = s.regsOk := (rfl)

/-! ### `State.withPolicers` -/

@[simp] theorem State.withPolicers_pending (s : State) (x : Sparse (Option Bucket)) : (s.withPolicers x).pending = s.pending := (rfl)
@[simp] theorem State.withPolicers_regs (s : State) (x : Sparse (Option Bucket)) : (s.withPolicers x).regs = s.regs := (rfl)
@[simp] theorem State.withPolicers_frc (s : State) (x : Sparse (Option Bucket)) : (s.withPolicers x).frc = s.frc := (rfl)
@[simp] theorem State.withPolicers_time (s : State) (x : Sparse (Option Bucket)) : (s.withPolicers x).time = s.time := (rfl)
@[simp] theorem State.withPolicers_host (s : State) (x : Sparse (Option Bucket)) : (s.withPolicers x).host = s.host := (rfl)
@[simp] theorem State.withPolicers_tally (s : State) (x : Sparse (Option Bucket)) : (s.withPolicers x).tally = s.tally := (rfl)
@[simp] theorem State.withPolicers_seam (s : State) (x : Sparse (Option Bucket)) : (s.withPolicers x).seam = s.seam := (rfl)
@[simp] theorem State.withPolicers_pace (s : State) (x : Sparse (Option Bucket)) : (s.withPolicers x).pace = s.pace := (rfl)
@[simp] theorem State.withPolicers_macs (s : State) (x : Sparse (Option Bucket)) : (s.withPolicers x).macs = s.macs := (rfl)
@[simp] theorem State.withPolicers_insts (s : State) (x : Sparse (Option Bucket)) : (s.withPolicers x).insts = s.insts := (rfl)
@[simp] theorem State.withPolicers_grps (s : State) (x : Sparse (Option Bucket)) : (s.withPolicers x).grps = s.grps := (rfl)
@[simp] theorem State.withPolicers_pkts (s : State) (x : Sparse (Option Bucket)) : (s.withPolicers x).pkts = s.pkts := (rfl)
@[simp] theorem State.withPolicers_nextPkt (s : State) (x : Sparse (Option Bucket)) : (s.withPolicers x).nextPkt = s.nextPkt := (rfl)
@[simp] theorem State.withPolicers_ctxs (s : State) (x : Sparse (Option Bucket)) : (s.withPolicers x).ctxs = s.ctxs := (rfl)
@[simp] theorem State.withPolicers_coat (s : State) (x : Sparse (Option Bucket)) : (s.withPolicers x).coat = s.coat := (rfl)
@[simp] theorem State.withPolicers_policers (s : State) (x : Sparse (Option Bucket)) : (s.withPolicers x).policers = x := (rfl)
@[simp] theorem State.withPolicers_reasons (s : State) (x : Sparse (Option Bucket)) : (s.withPolicers x).reasons = s.reasons := (rfl)
@[simp] theorem State.withPolicers_puntAgg (s : State) (x : Sparse (Option Bucket)) : (s.withPolicers x).puntAgg = s.puntAgg := (rfl)
@[simp] theorem State.withPolicers_inflightA (s : State) (x : Sparse (Option Bucket)) : (s.withPolicers x).inflightA = s.inflightA := (rfl)
@[simp] theorem State.withPolicers_inflightB (s : State) (x : Sparse (Option Bucket)) : (s.withPolicers x).inflightB = s.inflightB := (rfl)
@[simp] theorem State.withPolicers_badWords (s : State) (x : Sparse (Option Bucket)) : (s.withPolicers x).badWords = s.badWords := (rfl)
@[simp] theorem State.withPolicers_tables (s : State) (x : Sparse (Option Bucket)) : (s.withPolicers x).tables = s.tables := (rfl)
@[simp] theorem State.withPolicers_easel (s : State) (x : Sparse (Option Bucket)) : (s.withPolicers x).easel = s.easel := (rfl)
@[simp] theorem State.withPolicers_power (s : State) (x : Sparse (Option Bucket)) : (s.withPolicers x).power = s.power := (rfl)
@[simp] theorem State.withPolicers_palette (s : State) (x : Sparse (Option Bucket)) : (s.withPolicers x).palette = s.palette := (rfl)
@[simp] theorem State.withPolicers_sched (s : State) (x : Sparse (Option Bucket)) : (s.withPolicers x).sched = s.sched := (rfl)
@[simp] theorem State.withPolicers_dram (s : State) (x : Sparse (Option Bucket)) : (s.withPolicers x).dram = s.dram := (rfl)
@[simp] theorem State.withPolicers_fab (s : State) (x : Sparse (Option Bucket)) : (s.withPolicers x).fab = s.fab := (rfl)
@[simp] theorem State.withPolicers_loom (s : State) (x : Sparse (Option Bucket)) : (s.withPolicers x).loom = s.loom := (rfl)
@[simp] theorem State.withPolicers_emv (s : State) (x : Sparse (Option Bucket)) : (s.withPolicers x).emv = s.emv := (rfl)
@[simp] theorem State.withPolicers_freeCtr (s : State) (x : Sparse (Option Bucket)) : (s.withPolicers x).freeCtr = s.freeCtr := (rfl)
@[simp] theorem State.withPolicers_outputs (s : State) (x : Sparse (Option Bucket)) : (s.withPolicers x).outputs = s.outputs := (rfl)
@[simp] theorem State.withPolicers_reg (s : State) (x : Sparse (Option Bucket)) (r : Reg) (i : Nat) : (s.withPolicers x).reg r i = s.reg r i := (rfl)
@[simp] theorem State.withPolicers_rd (s : State) (x : Sparse (Option Bucket)) (f : Fld) (i : Nat) : (s.withPolicers x).rd f i = s.rd f i := (rfl)
@[simp] theorem State.withPolicers_on (s : State) (x : Sparse (Option Bucket)) (f : Fld) (i : Nat) : (s.withPolicers x).on f i = s.on f i := (rfl)
@[simp] theorem State.withPolicers_regsOk (s : State) (x : Sparse (Option Bucket)) : (s.withPolicers x).regsOk = s.regsOk := (rfl)

/-! ### `State.withReasons` -/

@[simp] theorem State.withReasons_pending (s : State) (x : Sparse (Option Bucket)) : (s.withReasons x).pending = s.pending := (rfl)
@[simp] theorem State.withReasons_regs (s : State) (x : Sparse (Option Bucket)) : (s.withReasons x).regs = s.regs := (rfl)
@[simp] theorem State.withReasons_frc (s : State) (x : Sparse (Option Bucket)) : (s.withReasons x).frc = s.frc := (rfl)
@[simp] theorem State.withReasons_time (s : State) (x : Sparse (Option Bucket)) : (s.withReasons x).time = s.time := (rfl)
@[simp] theorem State.withReasons_host (s : State) (x : Sparse (Option Bucket)) : (s.withReasons x).host = s.host := (rfl)
@[simp] theorem State.withReasons_tally (s : State) (x : Sparse (Option Bucket)) : (s.withReasons x).tally = s.tally := (rfl)
@[simp] theorem State.withReasons_seam (s : State) (x : Sparse (Option Bucket)) : (s.withReasons x).seam = s.seam := (rfl)
@[simp] theorem State.withReasons_pace (s : State) (x : Sparse (Option Bucket)) : (s.withReasons x).pace = s.pace := (rfl)
@[simp] theorem State.withReasons_macs (s : State) (x : Sparse (Option Bucket)) : (s.withReasons x).macs = s.macs := (rfl)
@[simp] theorem State.withReasons_insts (s : State) (x : Sparse (Option Bucket)) : (s.withReasons x).insts = s.insts := (rfl)
@[simp] theorem State.withReasons_grps (s : State) (x : Sparse (Option Bucket)) : (s.withReasons x).grps = s.grps := (rfl)
@[simp] theorem State.withReasons_pkts (s : State) (x : Sparse (Option Bucket)) : (s.withReasons x).pkts = s.pkts := (rfl)
@[simp] theorem State.withReasons_nextPkt (s : State) (x : Sparse (Option Bucket)) : (s.withReasons x).nextPkt = s.nextPkt := (rfl)
@[simp] theorem State.withReasons_ctxs (s : State) (x : Sparse (Option Bucket)) : (s.withReasons x).ctxs = s.ctxs := (rfl)
@[simp] theorem State.withReasons_coat (s : State) (x : Sparse (Option Bucket)) : (s.withReasons x).coat = s.coat := (rfl)
@[simp] theorem State.withReasons_policers (s : State) (x : Sparse (Option Bucket)) : (s.withReasons x).policers = s.policers := (rfl)
@[simp] theorem State.withReasons_reasons (s : State) (x : Sparse (Option Bucket)) : (s.withReasons x).reasons = x := (rfl)
@[simp] theorem State.withReasons_puntAgg (s : State) (x : Sparse (Option Bucket)) : (s.withReasons x).puntAgg = s.puntAgg := (rfl)
@[simp] theorem State.withReasons_inflightA (s : State) (x : Sparse (Option Bucket)) : (s.withReasons x).inflightA = s.inflightA := (rfl)
@[simp] theorem State.withReasons_inflightB (s : State) (x : Sparse (Option Bucket)) : (s.withReasons x).inflightB = s.inflightB := (rfl)
@[simp] theorem State.withReasons_badWords (s : State) (x : Sparse (Option Bucket)) : (s.withReasons x).badWords = s.badWords := (rfl)
@[simp] theorem State.withReasons_tables (s : State) (x : Sparse (Option Bucket)) : (s.withReasons x).tables = s.tables := (rfl)
@[simp] theorem State.withReasons_easel (s : State) (x : Sparse (Option Bucket)) : (s.withReasons x).easel = s.easel := (rfl)
@[simp] theorem State.withReasons_power (s : State) (x : Sparse (Option Bucket)) : (s.withReasons x).power = s.power := (rfl)
@[simp] theorem State.withReasons_palette (s : State) (x : Sparse (Option Bucket)) : (s.withReasons x).palette = s.palette := (rfl)
@[simp] theorem State.withReasons_sched (s : State) (x : Sparse (Option Bucket)) : (s.withReasons x).sched = s.sched := (rfl)
@[simp] theorem State.withReasons_dram (s : State) (x : Sparse (Option Bucket)) : (s.withReasons x).dram = s.dram := (rfl)
@[simp] theorem State.withReasons_fab (s : State) (x : Sparse (Option Bucket)) : (s.withReasons x).fab = s.fab := (rfl)
@[simp] theorem State.withReasons_loom (s : State) (x : Sparse (Option Bucket)) : (s.withReasons x).loom = s.loom := (rfl)
@[simp] theorem State.withReasons_emv (s : State) (x : Sparse (Option Bucket)) : (s.withReasons x).emv = s.emv := (rfl)
@[simp] theorem State.withReasons_freeCtr (s : State) (x : Sparse (Option Bucket)) : (s.withReasons x).freeCtr = s.freeCtr := (rfl)
@[simp] theorem State.withReasons_outputs (s : State) (x : Sparse (Option Bucket)) : (s.withReasons x).outputs = s.outputs := (rfl)
@[simp] theorem State.withReasons_reg (s : State) (x : Sparse (Option Bucket)) (r : Reg) (i : Nat) : (s.withReasons x).reg r i = s.reg r i := (rfl)
@[simp] theorem State.withReasons_rd (s : State) (x : Sparse (Option Bucket)) (f : Fld) (i : Nat) : (s.withReasons x).rd f i = s.rd f i := (rfl)
@[simp] theorem State.withReasons_on (s : State) (x : Sparse (Option Bucket)) (f : Fld) (i : Nat) : (s.withReasons x).on f i = s.on f i := (rfl)
@[simp] theorem State.withReasons_regsOk (s : State) (x : Sparse (Option Bucket)) : (s.withReasons x).regsOk = s.regsOk := (rfl)

/-! ### `State.withPuntAgg` -/

@[simp] theorem State.withPuntAgg_pending (s : State) (x : Option Bucket) : (s.withPuntAgg x).pending = s.pending := (rfl)
@[simp] theorem State.withPuntAgg_regs (s : State) (x : Option Bucket) : (s.withPuntAgg x).regs = s.regs := (rfl)
@[simp] theorem State.withPuntAgg_frc (s : State) (x : Option Bucket) : (s.withPuntAgg x).frc = s.frc := (rfl)
@[simp] theorem State.withPuntAgg_time (s : State) (x : Option Bucket) : (s.withPuntAgg x).time = s.time := (rfl)
@[simp] theorem State.withPuntAgg_host (s : State) (x : Option Bucket) : (s.withPuntAgg x).host = s.host := (rfl)
@[simp] theorem State.withPuntAgg_tally (s : State) (x : Option Bucket) : (s.withPuntAgg x).tally = s.tally := (rfl)
@[simp] theorem State.withPuntAgg_seam (s : State) (x : Option Bucket) : (s.withPuntAgg x).seam = s.seam := (rfl)
@[simp] theorem State.withPuntAgg_pace (s : State) (x : Option Bucket) : (s.withPuntAgg x).pace = s.pace := (rfl)
@[simp] theorem State.withPuntAgg_macs (s : State) (x : Option Bucket) : (s.withPuntAgg x).macs = s.macs := (rfl)
@[simp] theorem State.withPuntAgg_insts (s : State) (x : Option Bucket) : (s.withPuntAgg x).insts = s.insts := (rfl)
@[simp] theorem State.withPuntAgg_grps (s : State) (x : Option Bucket) : (s.withPuntAgg x).grps = s.grps := (rfl)
@[simp] theorem State.withPuntAgg_pkts (s : State) (x : Option Bucket) : (s.withPuntAgg x).pkts = s.pkts := (rfl)
@[simp] theorem State.withPuntAgg_nextPkt (s : State) (x : Option Bucket) : (s.withPuntAgg x).nextPkt = s.nextPkt := (rfl)
@[simp] theorem State.withPuntAgg_ctxs (s : State) (x : Option Bucket) : (s.withPuntAgg x).ctxs = s.ctxs := (rfl)
@[simp] theorem State.withPuntAgg_coat (s : State) (x : Option Bucket) : (s.withPuntAgg x).coat = s.coat := (rfl)
@[simp] theorem State.withPuntAgg_policers (s : State) (x : Option Bucket) : (s.withPuntAgg x).policers = s.policers := (rfl)
@[simp] theorem State.withPuntAgg_reasons (s : State) (x : Option Bucket) : (s.withPuntAgg x).reasons = s.reasons := (rfl)
@[simp] theorem State.withPuntAgg_puntAgg (s : State) (x : Option Bucket) : (s.withPuntAgg x).puntAgg = x := (rfl)
@[simp] theorem State.withPuntAgg_inflightA (s : State) (x : Option Bucket) : (s.withPuntAgg x).inflightA = s.inflightA := (rfl)
@[simp] theorem State.withPuntAgg_inflightB (s : State) (x : Option Bucket) : (s.withPuntAgg x).inflightB = s.inflightB := (rfl)
@[simp] theorem State.withPuntAgg_badWords (s : State) (x : Option Bucket) : (s.withPuntAgg x).badWords = s.badWords := (rfl)
@[simp] theorem State.withPuntAgg_tables (s : State) (x : Option Bucket) : (s.withPuntAgg x).tables = s.tables := (rfl)
@[simp] theorem State.withPuntAgg_easel (s : State) (x : Option Bucket) : (s.withPuntAgg x).easel = s.easel := (rfl)
@[simp] theorem State.withPuntAgg_power (s : State) (x : Option Bucket) : (s.withPuntAgg x).power = s.power := (rfl)
@[simp] theorem State.withPuntAgg_palette (s : State) (x : Option Bucket) : (s.withPuntAgg x).palette = s.palette := (rfl)
@[simp] theorem State.withPuntAgg_sched (s : State) (x : Option Bucket) : (s.withPuntAgg x).sched = s.sched := (rfl)
@[simp] theorem State.withPuntAgg_dram (s : State) (x : Option Bucket) : (s.withPuntAgg x).dram = s.dram := (rfl)
@[simp] theorem State.withPuntAgg_fab (s : State) (x : Option Bucket) : (s.withPuntAgg x).fab = s.fab := (rfl)
@[simp] theorem State.withPuntAgg_loom (s : State) (x : Option Bucket) : (s.withPuntAgg x).loom = s.loom := (rfl)
@[simp] theorem State.withPuntAgg_emv (s : State) (x : Option Bucket) : (s.withPuntAgg x).emv = s.emv := (rfl)
@[simp] theorem State.withPuntAgg_freeCtr (s : State) (x : Option Bucket) : (s.withPuntAgg x).freeCtr = s.freeCtr := (rfl)
@[simp] theorem State.withPuntAgg_outputs (s : State) (x : Option Bucket) : (s.withPuntAgg x).outputs = s.outputs := (rfl)
@[simp] theorem State.withPuntAgg_reg (s : State) (x : Option Bucket) (r : Reg) (i : Nat) : (s.withPuntAgg x).reg r i = s.reg r i := (rfl)
@[simp] theorem State.withPuntAgg_rd (s : State) (x : Option Bucket) (f : Fld) (i : Nat) : (s.withPuntAgg x).rd f i = s.rd f i := (rfl)
@[simp] theorem State.withPuntAgg_on (s : State) (x : Option Bucket) (f : Fld) (i : Nat) : (s.withPuntAgg x).on f i = s.on f i := (rfl)
@[simp] theorem State.withPuntAgg_regsOk (s : State) (x : Option Bucket) : (s.withPuntAgg x).regsOk = s.regsOk := (rfl)

/-! ### `State.withInflightA` -/

@[simp] theorem State.withInflightA_pending (s : State) (x : Nat) : (s.withInflightA x).pending = s.pending := (rfl)
@[simp] theorem State.withInflightA_regs (s : State) (x : Nat) : (s.withInflightA x).regs = s.regs := (rfl)
@[simp] theorem State.withInflightA_frc (s : State) (x : Nat) : (s.withInflightA x).frc = s.frc := (rfl)
@[simp] theorem State.withInflightA_time (s : State) (x : Nat) : (s.withInflightA x).time = s.time := (rfl)
@[simp] theorem State.withInflightA_host (s : State) (x : Nat) : (s.withInflightA x).host = s.host := (rfl)
@[simp] theorem State.withInflightA_tally (s : State) (x : Nat) : (s.withInflightA x).tally = s.tally := (rfl)
@[simp] theorem State.withInflightA_seam (s : State) (x : Nat) : (s.withInflightA x).seam = s.seam := (rfl)
@[simp] theorem State.withInflightA_pace (s : State) (x : Nat) : (s.withInflightA x).pace = s.pace := (rfl)
@[simp] theorem State.withInflightA_macs (s : State) (x : Nat) : (s.withInflightA x).macs = s.macs := (rfl)
@[simp] theorem State.withInflightA_insts (s : State) (x : Nat) : (s.withInflightA x).insts = s.insts := (rfl)
@[simp] theorem State.withInflightA_grps (s : State) (x : Nat) : (s.withInflightA x).grps = s.grps := (rfl)
@[simp] theorem State.withInflightA_pkts (s : State) (x : Nat) : (s.withInflightA x).pkts = s.pkts := (rfl)
@[simp] theorem State.withInflightA_nextPkt (s : State) (x : Nat) : (s.withInflightA x).nextPkt = s.nextPkt := (rfl)
@[simp] theorem State.withInflightA_ctxs (s : State) (x : Nat) : (s.withInflightA x).ctxs = s.ctxs := (rfl)
@[simp] theorem State.withInflightA_coat (s : State) (x : Nat) : (s.withInflightA x).coat = s.coat := (rfl)
@[simp] theorem State.withInflightA_policers (s : State) (x : Nat) : (s.withInflightA x).policers = s.policers := (rfl)
@[simp] theorem State.withInflightA_reasons (s : State) (x : Nat) : (s.withInflightA x).reasons = s.reasons := (rfl)
@[simp] theorem State.withInflightA_puntAgg (s : State) (x : Nat) : (s.withInflightA x).puntAgg = s.puntAgg := (rfl)
@[simp] theorem State.withInflightA_inflightA (s : State) (x : Nat) : (s.withInflightA x).inflightA = x := (rfl)
@[simp] theorem State.withInflightA_inflightB (s : State) (x : Nat) : (s.withInflightA x).inflightB = s.inflightB := (rfl)
@[simp] theorem State.withInflightA_badWords (s : State) (x : Nat) : (s.withInflightA x).badWords = s.badWords := (rfl)
@[simp] theorem State.withInflightA_tables (s : State) (x : Nat) : (s.withInflightA x).tables = s.tables := (rfl)
@[simp] theorem State.withInflightA_easel (s : State) (x : Nat) : (s.withInflightA x).easel = s.easel := (rfl)
@[simp] theorem State.withInflightA_power (s : State) (x : Nat) : (s.withInflightA x).power = s.power := (rfl)
@[simp] theorem State.withInflightA_palette (s : State) (x : Nat) : (s.withInflightA x).palette = s.palette := (rfl)
@[simp] theorem State.withInflightA_sched (s : State) (x : Nat) : (s.withInflightA x).sched = s.sched := (rfl)
@[simp] theorem State.withInflightA_dram (s : State) (x : Nat) : (s.withInflightA x).dram = s.dram := (rfl)
@[simp] theorem State.withInflightA_fab (s : State) (x : Nat) : (s.withInflightA x).fab = s.fab := (rfl)
@[simp] theorem State.withInflightA_loom (s : State) (x : Nat) : (s.withInflightA x).loom = s.loom := (rfl)
@[simp] theorem State.withInflightA_emv (s : State) (x : Nat) : (s.withInflightA x).emv = s.emv := (rfl)
@[simp] theorem State.withInflightA_freeCtr (s : State) (x : Nat) : (s.withInflightA x).freeCtr = s.freeCtr := (rfl)
@[simp] theorem State.withInflightA_outputs (s : State) (x : Nat) : (s.withInflightA x).outputs = s.outputs := (rfl)
@[simp] theorem State.withInflightA_reg (s : State) (x : Nat) (r : Reg) (i : Nat) : (s.withInflightA x).reg r i = s.reg r i := (rfl)
@[simp] theorem State.withInflightA_rd (s : State) (x : Nat) (f : Fld) (i : Nat) : (s.withInflightA x).rd f i = s.rd f i := (rfl)
@[simp] theorem State.withInflightA_on (s : State) (x : Nat) (f : Fld) (i : Nat) : (s.withInflightA x).on f i = s.on f i := (rfl)
@[simp] theorem State.withInflightA_regsOk (s : State) (x : Nat) : (s.withInflightA x).regsOk = s.regsOk := (rfl)

/-! ### `State.withInflightB` -/

@[simp] theorem State.withInflightB_pending (s : State) (x : Nat) : (s.withInflightB x).pending = s.pending := (rfl)
@[simp] theorem State.withInflightB_regs (s : State) (x : Nat) : (s.withInflightB x).regs = s.regs := (rfl)
@[simp] theorem State.withInflightB_frc (s : State) (x : Nat) : (s.withInflightB x).frc = s.frc := (rfl)
@[simp] theorem State.withInflightB_time (s : State) (x : Nat) : (s.withInflightB x).time = s.time := (rfl)
@[simp] theorem State.withInflightB_host (s : State) (x : Nat) : (s.withInflightB x).host = s.host := (rfl)
@[simp] theorem State.withInflightB_tally (s : State) (x : Nat) : (s.withInflightB x).tally = s.tally := (rfl)
@[simp] theorem State.withInflightB_seam (s : State) (x : Nat) : (s.withInflightB x).seam = s.seam := (rfl)
@[simp] theorem State.withInflightB_pace (s : State) (x : Nat) : (s.withInflightB x).pace = s.pace := (rfl)
@[simp] theorem State.withInflightB_macs (s : State) (x : Nat) : (s.withInflightB x).macs = s.macs := (rfl)
@[simp] theorem State.withInflightB_insts (s : State) (x : Nat) : (s.withInflightB x).insts = s.insts := (rfl)
@[simp] theorem State.withInflightB_grps (s : State) (x : Nat) : (s.withInflightB x).grps = s.grps := (rfl)
@[simp] theorem State.withInflightB_pkts (s : State) (x : Nat) : (s.withInflightB x).pkts = s.pkts := (rfl)
@[simp] theorem State.withInflightB_nextPkt (s : State) (x : Nat) : (s.withInflightB x).nextPkt = s.nextPkt := (rfl)
@[simp] theorem State.withInflightB_ctxs (s : State) (x : Nat) : (s.withInflightB x).ctxs = s.ctxs := (rfl)
@[simp] theorem State.withInflightB_coat (s : State) (x : Nat) : (s.withInflightB x).coat = s.coat := (rfl)
@[simp] theorem State.withInflightB_policers (s : State) (x : Nat) : (s.withInflightB x).policers = s.policers := (rfl)
@[simp] theorem State.withInflightB_reasons (s : State) (x : Nat) : (s.withInflightB x).reasons = s.reasons := (rfl)
@[simp] theorem State.withInflightB_puntAgg (s : State) (x : Nat) : (s.withInflightB x).puntAgg = s.puntAgg := (rfl)
@[simp] theorem State.withInflightB_inflightA (s : State) (x : Nat) : (s.withInflightB x).inflightA = s.inflightA := (rfl)
@[simp] theorem State.withInflightB_inflightB (s : State) (x : Nat) : (s.withInflightB x).inflightB = x := (rfl)
@[simp] theorem State.withInflightB_badWords (s : State) (x : Nat) : (s.withInflightB x).badWords = s.badWords := (rfl)
@[simp] theorem State.withInflightB_tables (s : State) (x : Nat) : (s.withInflightB x).tables = s.tables := (rfl)
@[simp] theorem State.withInflightB_easel (s : State) (x : Nat) : (s.withInflightB x).easel = s.easel := (rfl)
@[simp] theorem State.withInflightB_power (s : State) (x : Nat) : (s.withInflightB x).power = s.power := (rfl)
@[simp] theorem State.withInflightB_palette (s : State) (x : Nat) : (s.withInflightB x).palette = s.palette := (rfl)
@[simp] theorem State.withInflightB_sched (s : State) (x : Nat) : (s.withInflightB x).sched = s.sched := (rfl)
@[simp] theorem State.withInflightB_dram (s : State) (x : Nat) : (s.withInflightB x).dram = s.dram := (rfl)
@[simp] theorem State.withInflightB_fab (s : State) (x : Nat) : (s.withInflightB x).fab = s.fab := (rfl)
@[simp] theorem State.withInflightB_loom (s : State) (x : Nat) : (s.withInflightB x).loom = s.loom := (rfl)
@[simp] theorem State.withInflightB_emv (s : State) (x : Nat) : (s.withInflightB x).emv = s.emv := (rfl)
@[simp] theorem State.withInflightB_freeCtr (s : State) (x : Nat) : (s.withInflightB x).freeCtr = s.freeCtr := (rfl)
@[simp] theorem State.withInflightB_outputs (s : State) (x : Nat) : (s.withInflightB x).outputs = s.outputs := (rfl)
@[simp] theorem State.withInflightB_reg (s : State) (x : Nat) (r : Reg) (i : Nat) : (s.withInflightB x).reg r i = s.reg r i := (rfl)
@[simp] theorem State.withInflightB_rd (s : State) (x : Nat) (f : Fld) (i : Nat) : (s.withInflightB x).rd f i = s.rd f i := (rfl)
@[simp] theorem State.withInflightB_on (s : State) (x : Nat) (f : Fld) (i : Nat) : (s.withInflightB x).on f i = s.on f i := (rfl)
@[simp] theorem State.withInflightB_regsOk (s : State) (x : Nat) : (s.withInflightB x).regsOk = s.regsOk := (rfl)

/-! ### `State.withBadWords` -/

@[simp] theorem State.withBadWords_pending (s : State) (x : BadWords) : (s.withBadWords x).pending = s.pending := (rfl)
@[simp] theorem State.withBadWords_regs (s : State) (x : BadWords) : (s.withBadWords x).regs = s.regs := (rfl)
@[simp] theorem State.withBadWords_frc (s : State) (x : BadWords) : (s.withBadWords x).frc = s.frc := (rfl)
@[simp] theorem State.withBadWords_time (s : State) (x : BadWords) : (s.withBadWords x).time = s.time := (rfl)
@[simp] theorem State.withBadWords_host (s : State) (x : BadWords) : (s.withBadWords x).host = s.host := (rfl)
@[simp] theorem State.withBadWords_tally (s : State) (x : BadWords) : (s.withBadWords x).tally = s.tally := (rfl)
@[simp] theorem State.withBadWords_seam (s : State) (x : BadWords) : (s.withBadWords x).seam = s.seam := (rfl)
@[simp] theorem State.withBadWords_pace (s : State) (x : BadWords) : (s.withBadWords x).pace = s.pace := (rfl)
@[simp] theorem State.withBadWords_macs (s : State) (x : BadWords) : (s.withBadWords x).macs = s.macs := (rfl)
@[simp] theorem State.withBadWords_insts (s : State) (x : BadWords) : (s.withBadWords x).insts = s.insts := (rfl)
@[simp] theorem State.withBadWords_grps (s : State) (x : BadWords) : (s.withBadWords x).grps = s.grps := (rfl)
@[simp] theorem State.withBadWords_pkts (s : State) (x : BadWords) : (s.withBadWords x).pkts = s.pkts := (rfl)
@[simp] theorem State.withBadWords_nextPkt (s : State) (x : BadWords) : (s.withBadWords x).nextPkt = s.nextPkt := (rfl)
@[simp] theorem State.withBadWords_ctxs (s : State) (x : BadWords) : (s.withBadWords x).ctxs = s.ctxs := (rfl)
@[simp] theorem State.withBadWords_coat (s : State) (x : BadWords) : (s.withBadWords x).coat = s.coat := (rfl)
@[simp] theorem State.withBadWords_policers (s : State) (x : BadWords) : (s.withBadWords x).policers = s.policers := (rfl)
@[simp] theorem State.withBadWords_reasons (s : State) (x : BadWords) : (s.withBadWords x).reasons = s.reasons := (rfl)
@[simp] theorem State.withBadWords_puntAgg (s : State) (x : BadWords) : (s.withBadWords x).puntAgg = s.puntAgg := (rfl)
@[simp] theorem State.withBadWords_inflightA (s : State) (x : BadWords) : (s.withBadWords x).inflightA = s.inflightA := (rfl)
@[simp] theorem State.withBadWords_inflightB (s : State) (x : BadWords) : (s.withBadWords x).inflightB = s.inflightB := (rfl)
@[simp] theorem State.withBadWords_badWords (s : State) (x : BadWords) : (s.withBadWords x).badWords = x := (rfl)
@[simp] theorem State.withBadWords_tables (s : State) (x : BadWords) : (s.withBadWords x).tables = s.tables := (rfl)
@[simp] theorem State.withBadWords_easel (s : State) (x : BadWords) : (s.withBadWords x).easel = s.easel := (rfl)
@[simp] theorem State.withBadWords_power (s : State) (x : BadWords) : (s.withBadWords x).power = s.power := (rfl)
@[simp] theorem State.withBadWords_palette (s : State) (x : BadWords) : (s.withBadWords x).palette = s.palette := (rfl)
@[simp] theorem State.withBadWords_sched (s : State) (x : BadWords) : (s.withBadWords x).sched = s.sched := (rfl)
@[simp] theorem State.withBadWords_dram (s : State) (x : BadWords) : (s.withBadWords x).dram = s.dram := (rfl)
@[simp] theorem State.withBadWords_fab (s : State) (x : BadWords) : (s.withBadWords x).fab = s.fab := (rfl)
@[simp] theorem State.withBadWords_loom (s : State) (x : BadWords) : (s.withBadWords x).loom = s.loom := (rfl)
@[simp] theorem State.withBadWords_emv (s : State) (x : BadWords) : (s.withBadWords x).emv = s.emv := (rfl)
@[simp] theorem State.withBadWords_freeCtr (s : State) (x : BadWords) : (s.withBadWords x).freeCtr = s.freeCtr := (rfl)
@[simp] theorem State.withBadWords_outputs (s : State) (x : BadWords) : (s.withBadWords x).outputs = s.outputs := (rfl)
@[simp] theorem State.withBadWords_reg (s : State) (x : BadWords) (r : Reg) (i : Nat) : (s.withBadWords x).reg r i = s.reg r i := (rfl)
@[simp] theorem State.withBadWords_rd (s : State) (x : BadWords) (f : Fld) (i : Nat) : (s.withBadWords x).rd f i = s.rd f i := (rfl)
@[simp] theorem State.withBadWords_on (s : State) (x : BadWords) (f : Fld) (i : Nat) : (s.withBadWords x).on f i = s.on f i := (rfl)
@[simp] theorem State.withBadWords_regsOk (s : State) (x : BadWords) : (s.withBadWords x).regsOk = s.regsOk := (rfl)

/-! ### `State.withTables` -/

@[simp] theorem State.withTables_pending (s : State) (x : Tables) : (s.withTables x).pending = s.pending := (rfl)
@[simp] theorem State.withTables_regs (s : State) (x : Tables) : (s.withTables x).regs = s.regs := (rfl)
@[simp] theorem State.withTables_frc (s : State) (x : Tables) : (s.withTables x).frc = s.frc := (rfl)
@[simp] theorem State.withTables_time (s : State) (x : Tables) : (s.withTables x).time = s.time := (rfl)
@[simp] theorem State.withTables_host (s : State) (x : Tables) : (s.withTables x).host = s.host := (rfl)
@[simp] theorem State.withTables_tally (s : State) (x : Tables) : (s.withTables x).tally = s.tally := (rfl)
@[simp] theorem State.withTables_seam (s : State) (x : Tables) : (s.withTables x).seam = s.seam := (rfl)
@[simp] theorem State.withTables_pace (s : State) (x : Tables) : (s.withTables x).pace = s.pace := (rfl)
@[simp] theorem State.withTables_macs (s : State) (x : Tables) : (s.withTables x).macs = s.macs := (rfl)
@[simp] theorem State.withTables_insts (s : State) (x : Tables) : (s.withTables x).insts = s.insts := (rfl)
@[simp] theorem State.withTables_grps (s : State) (x : Tables) : (s.withTables x).grps = s.grps := (rfl)
@[simp] theorem State.withTables_pkts (s : State) (x : Tables) : (s.withTables x).pkts = s.pkts := (rfl)
@[simp] theorem State.withTables_nextPkt (s : State) (x : Tables) : (s.withTables x).nextPkt = s.nextPkt := (rfl)
@[simp] theorem State.withTables_ctxs (s : State) (x : Tables) : (s.withTables x).ctxs = s.ctxs := (rfl)
@[simp] theorem State.withTables_coat (s : State) (x : Tables) : (s.withTables x).coat = s.coat := (rfl)
@[simp] theorem State.withTables_policers (s : State) (x : Tables) : (s.withTables x).policers = s.policers := (rfl)
@[simp] theorem State.withTables_reasons (s : State) (x : Tables) : (s.withTables x).reasons = s.reasons := (rfl)
@[simp] theorem State.withTables_puntAgg (s : State) (x : Tables) : (s.withTables x).puntAgg = s.puntAgg := (rfl)
@[simp] theorem State.withTables_inflightA (s : State) (x : Tables) : (s.withTables x).inflightA = s.inflightA := (rfl)
@[simp] theorem State.withTables_inflightB (s : State) (x : Tables) : (s.withTables x).inflightB = s.inflightB := (rfl)
@[simp] theorem State.withTables_badWords (s : State) (x : Tables) : (s.withTables x).badWords = s.badWords := (rfl)
@[simp] theorem State.withTables_tables (s : State) (x : Tables) : (s.withTables x).tables = x := (rfl)
@[simp] theorem State.withTables_easel (s : State) (x : Tables) : (s.withTables x).easel = s.easel := (rfl)
@[simp] theorem State.withTables_power (s : State) (x : Tables) : (s.withTables x).power = s.power := (rfl)
@[simp] theorem State.withTables_palette (s : State) (x : Tables) : (s.withTables x).palette = s.palette := (rfl)
@[simp] theorem State.withTables_sched (s : State) (x : Tables) : (s.withTables x).sched = s.sched := (rfl)
@[simp] theorem State.withTables_dram (s : State) (x : Tables) : (s.withTables x).dram = s.dram := (rfl)
@[simp] theorem State.withTables_fab (s : State) (x : Tables) : (s.withTables x).fab = s.fab := (rfl)
@[simp] theorem State.withTables_loom (s : State) (x : Tables) : (s.withTables x).loom = s.loom := (rfl)
@[simp] theorem State.withTables_emv (s : State) (x : Tables) : (s.withTables x).emv = s.emv := (rfl)
@[simp] theorem State.withTables_freeCtr (s : State) (x : Tables) : (s.withTables x).freeCtr = s.freeCtr := (rfl)
@[simp] theorem State.withTables_outputs (s : State) (x : Tables) : (s.withTables x).outputs = s.outputs := (rfl)
@[simp] theorem State.withTables_reg (s : State) (x : Tables) (r : Reg) (i : Nat) : (s.withTables x).reg r i = s.reg r i := (rfl)
@[simp] theorem State.withTables_rd (s : State) (x : Tables) (f : Fld) (i : Nat) : (s.withTables x).rd f i = s.rd f i := (rfl)
@[simp] theorem State.withTables_on (s : State) (x : Tables) (f : Fld) (i : Nat) : (s.withTables x).on f i = s.on f i := (rfl)
@[simp] theorem State.withTables_regsOk (s : State) (x : Tables) : (s.withTables x).regsOk = s.regsOk := (rfl)

/-! ### `State.withEasel` -/

@[simp] theorem State.withEasel_pending (s : State) (x : Easel) : (s.withEasel x).pending = s.pending := (rfl)
@[simp] theorem State.withEasel_regs (s : State) (x : Easel) : (s.withEasel x).regs = s.regs := (rfl)
@[simp] theorem State.withEasel_frc (s : State) (x : Easel) : (s.withEasel x).frc = s.frc := (rfl)
@[simp] theorem State.withEasel_time (s : State) (x : Easel) : (s.withEasel x).time = s.time := (rfl)
@[simp] theorem State.withEasel_host (s : State) (x : Easel) : (s.withEasel x).host = s.host := (rfl)
@[simp] theorem State.withEasel_tally (s : State) (x : Easel) : (s.withEasel x).tally = s.tally := (rfl)
@[simp] theorem State.withEasel_seam (s : State) (x : Easel) : (s.withEasel x).seam = s.seam := (rfl)
@[simp] theorem State.withEasel_pace (s : State) (x : Easel) : (s.withEasel x).pace = s.pace := (rfl)
@[simp] theorem State.withEasel_macs (s : State) (x : Easel) : (s.withEasel x).macs = s.macs := (rfl)
@[simp] theorem State.withEasel_insts (s : State) (x : Easel) : (s.withEasel x).insts = s.insts := (rfl)
@[simp] theorem State.withEasel_grps (s : State) (x : Easel) : (s.withEasel x).grps = s.grps := (rfl)
@[simp] theorem State.withEasel_pkts (s : State) (x : Easel) : (s.withEasel x).pkts = s.pkts := (rfl)
@[simp] theorem State.withEasel_nextPkt (s : State) (x : Easel) : (s.withEasel x).nextPkt = s.nextPkt := (rfl)
@[simp] theorem State.withEasel_ctxs (s : State) (x : Easel) : (s.withEasel x).ctxs = s.ctxs := (rfl)
@[simp] theorem State.withEasel_coat (s : State) (x : Easel) : (s.withEasel x).coat = s.coat := (rfl)
@[simp] theorem State.withEasel_policers (s : State) (x : Easel) : (s.withEasel x).policers = s.policers := (rfl)
@[simp] theorem State.withEasel_reasons (s : State) (x : Easel) : (s.withEasel x).reasons = s.reasons := (rfl)
@[simp] theorem State.withEasel_puntAgg (s : State) (x : Easel) : (s.withEasel x).puntAgg = s.puntAgg := (rfl)
@[simp] theorem State.withEasel_inflightA (s : State) (x : Easel) : (s.withEasel x).inflightA = s.inflightA := (rfl)
@[simp] theorem State.withEasel_inflightB (s : State) (x : Easel) : (s.withEasel x).inflightB = s.inflightB := (rfl)
@[simp] theorem State.withEasel_badWords (s : State) (x : Easel) : (s.withEasel x).badWords = s.badWords := (rfl)
@[simp] theorem State.withEasel_tables (s : State) (x : Easel) : (s.withEasel x).tables = s.tables := (rfl)
@[simp] theorem State.withEasel_easel (s : State) (x : Easel) : (s.withEasel x).easel = x := (rfl)
@[simp] theorem State.withEasel_power (s : State) (x : Easel) : (s.withEasel x).power = s.power := (rfl)
@[simp] theorem State.withEasel_palette (s : State) (x : Easel) : (s.withEasel x).palette = s.palette := (rfl)
@[simp] theorem State.withEasel_sched (s : State) (x : Easel) : (s.withEasel x).sched = s.sched := (rfl)
@[simp] theorem State.withEasel_dram (s : State) (x : Easel) : (s.withEasel x).dram = s.dram := (rfl)
@[simp] theorem State.withEasel_fab (s : State) (x : Easel) : (s.withEasel x).fab = s.fab := (rfl)
@[simp] theorem State.withEasel_loom (s : State) (x : Easel) : (s.withEasel x).loom = s.loom := (rfl)
@[simp] theorem State.withEasel_emv (s : State) (x : Easel) : (s.withEasel x).emv = s.emv := (rfl)
@[simp] theorem State.withEasel_freeCtr (s : State) (x : Easel) : (s.withEasel x).freeCtr = s.freeCtr := (rfl)
@[simp] theorem State.withEasel_outputs (s : State) (x : Easel) : (s.withEasel x).outputs = s.outputs := (rfl)
@[simp] theorem State.withEasel_reg (s : State) (x : Easel) (r : Reg) (i : Nat) : (s.withEasel x).reg r i = s.reg r i := (rfl)
@[simp] theorem State.withEasel_rd (s : State) (x : Easel) (f : Fld) (i : Nat) : (s.withEasel x).rd f i = s.rd f i := (rfl)
@[simp] theorem State.withEasel_on (s : State) (x : Easel) (f : Fld) (i : Nat) : (s.withEasel x).on f i = s.on f i := (rfl)
@[simp] theorem State.withEasel_regsOk (s : State) (x : Easel) : (s.withEasel x).regsOk = s.regsOk := (rfl)

/-! ### `State.withPower` -/

@[simp] theorem State.withPower_pending (s : State) (x : Power) : (s.withPower x).pending = s.pending := (rfl)
@[simp] theorem State.withPower_regs (s : State) (x : Power) : (s.withPower x).regs = s.regs := (rfl)
@[simp] theorem State.withPower_frc (s : State) (x : Power) : (s.withPower x).frc = s.frc := (rfl)
@[simp] theorem State.withPower_time (s : State) (x : Power) : (s.withPower x).time = s.time := (rfl)
@[simp] theorem State.withPower_host (s : State) (x : Power) : (s.withPower x).host = s.host := (rfl)
@[simp] theorem State.withPower_tally (s : State) (x : Power) : (s.withPower x).tally = s.tally := (rfl)
@[simp] theorem State.withPower_seam (s : State) (x : Power) : (s.withPower x).seam = s.seam := (rfl)
@[simp] theorem State.withPower_pace (s : State) (x : Power) : (s.withPower x).pace = s.pace := (rfl)
@[simp] theorem State.withPower_macs (s : State) (x : Power) : (s.withPower x).macs = s.macs := (rfl)
@[simp] theorem State.withPower_insts (s : State) (x : Power) : (s.withPower x).insts = s.insts := (rfl)
@[simp] theorem State.withPower_grps (s : State) (x : Power) : (s.withPower x).grps = s.grps := (rfl)
@[simp] theorem State.withPower_pkts (s : State) (x : Power) : (s.withPower x).pkts = s.pkts := (rfl)
@[simp] theorem State.withPower_nextPkt (s : State) (x : Power) : (s.withPower x).nextPkt = s.nextPkt := (rfl)
@[simp] theorem State.withPower_ctxs (s : State) (x : Power) : (s.withPower x).ctxs = s.ctxs := (rfl)
@[simp] theorem State.withPower_coat (s : State) (x : Power) : (s.withPower x).coat = s.coat := (rfl)
@[simp] theorem State.withPower_policers (s : State) (x : Power) : (s.withPower x).policers = s.policers := (rfl)
@[simp] theorem State.withPower_reasons (s : State) (x : Power) : (s.withPower x).reasons = s.reasons := (rfl)
@[simp] theorem State.withPower_puntAgg (s : State) (x : Power) : (s.withPower x).puntAgg = s.puntAgg := (rfl)
@[simp] theorem State.withPower_inflightA (s : State) (x : Power) : (s.withPower x).inflightA = s.inflightA := (rfl)
@[simp] theorem State.withPower_inflightB (s : State) (x : Power) : (s.withPower x).inflightB = s.inflightB := (rfl)
@[simp] theorem State.withPower_badWords (s : State) (x : Power) : (s.withPower x).badWords = s.badWords := (rfl)
@[simp] theorem State.withPower_tables (s : State) (x : Power) : (s.withPower x).tables = s.tables := (rfl)
@[simp] theorem State.withPower_easel (s : State) (x : Power) : (s.withPower x).easel = s.easel := (rfl)
@[simp] theorem State.withPower_power (s : State) (x : Power) : (s.withPower x).power = x := (rfl)
@[simp] theorem State.withPower_palette (s : State) (x : Power) : (s.withPower x).palette = s.palette := (rfl)
@[simp] theorem State.withPower_sched (s : State) (x : Power) : (s.withPower x).sched = s.sched := (rfl)
@[simp] theorem State.withPower_dram (s : State) (x : Power) : (s.withPower x).dram = s.dram := (rfl)
@[simp] theorem State.withPower_fab (s : State) (x : Power) : (s.withPower x).fab = s.fab := (rfl)
@[simp] theorem State.withPower_loom (s : State) (x : Power) : (s.withPower x).loom = s.loom := (rfl)
@[simp] theorem State.withPower_emv (s : State) (x : Power) : (s.withPower x).emv = s.emv := (rfl)
@[simp] theorem State.withPower_freeCtr (s : State) (x : Power) : (s.withPower x).freeCtr = s.freeCtr := (rfl)
@[simp] theorem State.withPower_outputs (s : State) (x : Power) : (s.withPower x).outputs = s.outputs := (rfl)
@[simp] theorem State.withPower_reg (s : State) (x : Power) (r : Reg) (i : Nat) : (s.withPower x).reg r i = s.reg r i := (rfl)
@[simp] theorem State.withPower_rd (s : State) (x : Power) (f : Fld) (i : Nat) : (s.withPower x).rd f i = s.rd f i := (rfl)
@[simp] theorem State.withPower_on (s : State) (x : Power) (f : Fld) (i : Nat) : (s.withPower x).on f i = s.on f i := (rfl)
@[simp] theorem State.withPower_regsOk (s : State) (x : Power) : (s.withPower x).regsOk = s.regsOk := (rfl)

/-! ### `State.withPalette` -/

@[simp] theorem State.withPalette_pending (s : State) (x : Palette) : (s.withPalette x).pending = s.pending := (rfl)
@[simp] theorem State.withPalette_regs (s : State) (x : Palette) : (s.withPalette x).regs = s.regs := (rfl)
@[simp] theorem State.withPalette_frc (s : State) (x : Palette) : (s.withPalette x).frc = s.frc := (rfl)
@[simp] theorem State.withPalette_time (s : State) (x : Palette) : (s.withPalette x).time = s.time := (rfl)
@[simp] theorem State.withPalette_host (s : State) (x : Palette) : (s.withPalette x).host = s.host := (rfl)
@[simp] theorem State.withPalette_tally (s : State) (x : Palette) : (s.withPalette x).tally = s.tally := (rfl)
@[simp] theorem State.withPalette_seam (s : State) (x : Palette) : (s.withPalette x).seam = s.seam := (rfl)
@[simp] theorem State.withPalette_pace (s : State) (x : Palette) : (s.withPalette x).pace = s.pace := (rfl)
@[simp] theorem State.withPalette_macs (s : State) (x : Palette) : (s.withPalette x).macs = s.macs := (rfl)
@[simp] theorem State.withPalette_insts (s : State) (x : Palette) : (s.withPalette x).insts = s.insts := (rfl)
@[simp] theorem State.withPalette_grps (s : State) (x : Palette) : (s.withPalette x).grps = s.grps := (rfl)
@[simp] theorem State.withPalette_pkts (s : State) (x : Palette) : (s.withPalette x).pkts = s.pkts := (rfl)
@[simp] theorem State.withPalette_nextPkt (s : State) (x : Palette) : (s.withPalette x).nextPkt = s.nextPkt := (rfl)
@[simp] theorem State.withPalette_ctxs (s : State) (x : Palette) : (s.withPalette x).ctxs = s.ctxs := (rfl)
@[simp] theorem State.withPalette_coat (s : State) (x : Palette) : (s.withPalette x).coat = s.coat := (rfl)
@[simp] theorem State.withPalette_policers (s : State) (x : Palette) : (s.withPalette x).policers = s.policers := (rfl)
@[simp] theorem State.withPalette_reasons (s : State) (x : Palette) : (s.withPalette x).reasons = s.reasons := (rfl)
@[simp] theorem State.withPalette_puntAgg (s : State) (x : Palette) : (s.withPalette x).puntAgg = s.puntAgg := (rfl)
@[simp] theorem State.withPalette_inflightA (s : State) (x : Palette) : (s.withPalette x).inflightA = s.inflightA := (rfl)
@[simp] theorem State.withPalette_inflightB (s : State) (x : Palette) : (s.withPalette x).inflightB = s.inflightB := (rfl)
@[simp] theorem State.withPalette_badWords (s : State) (x : Palette) : (s.withPalette x).badWords = s.badWords := (rfl)
@[simp] theorem State.withPalette_tables (s : State) (x : Palette) : (s.withPalette x).tables = s.tables := (rfl)
@[simp] theorem State.withPalette_easel (s : State) (x : Palette) : (s.withPalette x).easel = s.easel := (rfl)
@[simp] theorem State.withPalette_power (s : State) (x : Palette) : (s.withPalette x).power = s.power := (rfl)
@[simp] theorem State.withPalette_palette (s : State) (x : Palette) : (s.withPalette x).palette = x := (rfl)
@[simp] theorem State.withPalette_sched (s : State) (x : Palette) : (s.withPalette x).sched = s.sched := (rfl)
@[simp] theorem State.withPalette_dram (s : State) (x : Palette) : (s.withPalette x).dram = s.dram := (rfl)
@[simp] theorem State.withPalette_fab (s : State) (x : Palette) : (s.withPalette x).fab = s.fab := (rfl)
@[simp] theorem State.withPalette_loom (s : State) (x : Palette) : (s.withPalette x).loom = s.loom := (rfl)
@[simp] theorem State.withPalette_emv (s : State) (x : Palette) : (s.withPalette x).emv = s.emv := (rfl)
@[simp] theorem State.withPalette_freeCtr (s : State) (x : Palette) : (s.withPalette x).freeCtr = s.freeCtr := (rfl)
@[simp] theorem State.withPalette_outputs (s : State) (x : Palette) : (s.withPalette x).outputs = s.outputs := (rfl)
@[simp] theorem State.withPalette_reg (s : State) (x : Palette) (r : Reg) (i : Nat) : (s.withPalette x).reg r i = s.reg r i := (rfl)
@[simp] theorem State.withPalette_rd (s : State) (x : Palette) (f : Fld) (i : Nat) : (s.withPalette x).rd f i = s.rd f i := (rfl)
@[simp] theorem State.withPalette_on (s : State) (x : Palette) (f : Fld) (i : Nat) : (s.withPalette x).on f i = s.on f i := (rfl)
@[simp] theorem State.withPalette_regsOk (s : State) (x : Palette) : (s.withPalette x).regsOk = s.regsOk := (rfl)

/-! ### `State.withSched` -/

@[simp] theorem State.withSched_pending (s : State) (x : Sched) : (s.withSched x).pending = s.pending := (rfl)
@[simp] theorem State.withSched_regs (s : State) (x : Sched) : (s.withSched x).regs = s.regs := (rfl)
@[simp] theorem State.withSched_frc (s : State) (x : Sched) : (s.withSched x).frc = s.frc := (rfl)
@[simp] theorem State.withSched_time (s : State) (x : Sched) : (s.withSched x).time = s.time := (rfl)
@[simp] theorem State.withSched_host (s : State) (x : Sched) : (s.withSched x).host = s.host := (rfl)
@[simp] theorem State.withSched_tally (s : State) (x : Sched) : (s.withSched x).tally = s.tally := (rfl)
@[simp] theorem State.withSched_seam (s : State) (x : Sched) : (s.withSched x).seam = s.seam := (rfl)
@[simp] theorem State.withSched_pace (s : State) (x : Sched) : (s.withSched x).pace = s.pace := (rfl)
@[simp] theorem State.withSched_macs (s : State) (x : Sched) : (s.withSched x).macs = s.macs := (rfl)
@[simp] theorem State.withSched_insts (s : State) (x : Sched) : (s.withSched x).insts = s.insts := (rfl)
@[simp] theorem State.withSched_grps (s : State) (x : Sched) : (s.withSched x).grps = s.grps := (rfl)
@[simp] theorem State.withSched_pkts (s : State) (x : Sched) : (s.withSched x).pkts = s.pkts := (rfl)
@[simp] theorem State.withSched_nextPkt (s : State) (x : Sched) : (s.withSched x).nextPkt = s.nextPkt := (rfl)
@[simp] theorem State.withSched_ctxs (s : State) (x : Sched) : (s.withSched x).ctxs = s.ctxs := (rfl)
@[simp] theorem State.withSched_coat (s : State) (x : Sched) : (s.withSched x).coat = s.coat := (rfl)
@[simp] theorem State.withSched_policers (s : State) (x : Sched) : (s.withSched x).policers = s.policers := (rfl)
@[simp] theorem State.withSched_reasons (s : State) (x : Sched) : (s.withSched x).reasons = s.reasons := (rfl)
@[simp] theorem State.withSched_puntAgg (s : State) (x : Sched) : (s.withSched x).puntAgg = s.puntAgg := (rfl)
@[simp] theorem State.withSched_inflightA (s : State) (x : Sched) : (s.withSched x).inflightA = s.inflightA := (rfl)
@[simp] theorem State.withSched_inflightB (s : State) (x : Sched) : (s.withSched x).inflightB = s.inflightB := (rfl)
@[simp] theorem State.withSched_badWords (s : State) (x : Sched) : (s.withSched x).badWords = s.badWords := (rfl)
@[simp] theorem State.withSched_tables (s : State) (x : Sched) : (s.withSched x).tables = s.tables := (rfl)
@[simp] theorem State.withSched_easel (s : State) (x : Sched) : (s.withSched x).easel = s.easel := (rfl)
@[simp] theorem State.withSched_power (s : State) (x : Sched) : (s.withSched x).power = s.power := (rfl)
@[simp] theorem State.withSched_palette (s : State) (x : Sched) : (s.withSched x).palette = s.palette := (rfl)
@[simp] theorem State.withSched_sched (s : State) (x : Sched) : (s.withSched x).sched = x := (rfl)
@[simp] theorem State.withSched_dram (s : State) (x : Sched) : (s.withSched x).dram = s.dram := (rfl)
@[simp] theorem State.withSched_fab (s : State) (x : Sched) : (s.withSched x).fab = s.fab := (rfl)
@[simp] theorem State.withSched_loom (s : State) (x : Sched) : (s.withSched x).loom = s.loom := (rfl)
@[simp] theorem State.withSched_emv (s : State) (x : Sched) : (s.withSched x).emv = s.emv := (rfl)
@[simp] theorem State.withSched_freeCtr (s : State) (x : Sched) : (s.withSched x).freeCtr = s.freeCtr := (rfl)
@[simp] theorem State.withSched_outputs (s : State) (x : Sched) : (s.withSched x).outputs = s.outputs := (rfl)
@[simp] theorem State.withSched_reg (s : State) (x : Sched) (r : Reg) (i : Nat) : (s.withSched x).reg r i = s.reg r i := (rfl)
@[simp] theorem State.withSched_rd (s : State) (x : Sched) (f : Fld) (i : Nat) : (s.withSched x).rd f i = s.rd f i := (rfl)
@[simp] theorem State.withSched_on (s : State) (x : Sched) (f : Fld) (i : Nat) : (s.withSched x).on f i = s.on f i := (rfl)
@[simp] theorem State.withSched_regsOk (s : State) (x : Sched) : (s.withSched x).regsOk = s.regsOk := (rfl)

/-! ### `State.withDram` -/

@[simp] theorem State.withDram_pending (s : State) (x : Dram) : (s.withDram x).pending = s.pending := (rfl)
@[simp] theorem State.withDram_regs (s : State) (x : Dram) : (s.withDram x).regs = s.regs := (rfl)
@[simp] theorem State.withDram_frc (s : State) (x : Dram) : (s.withDram x).frc = s.frc := (rfl)
@[simp] theorem State.withDram_time (s : State) (x : Dram) : (s.withDram x).time = s.time := (rfl)
@[simp] theorem State.withDram_host (s : State) (x : Dram) : (s.withDram x).host = s.host := (rfl)
@[simp] theorem State.withDram_tally (s : State) (x : Dram) : (s.withDram x).tally = s.tally := (rfl)
@[simp] theorem State.withDram_seam (s : State) (x : Dram) : (s.withDram x).seam = s.seam := (rfl)
@[simp] theorem State.withDram_pace (s : State) (x : Dram) : (s.withDram x).pace = s.pace := (rfl)
@[simp] theorem State.withDram_macs (s : State) (x : Dram) : (s.withDram x).macs = s.macs := (rfl)
@[simp] theorem State.withDram_insts (s : State) (x : Dram) : (s.withDram x).insts = s.insts := (rfl)
@[simp] theorem State.withDram_grps (s : State) (x : Dram) : (s.withDram x).grps = s.grps := (rfl)
@[simp] theorem State.withDram_pkts (s : State) (x : Dram) : (s.withDram x).pkts = s.pkts := (rfl)
@[simp] theorem State.withDram_nextPkt (s : State) (x : Dram) : (s.withDram x).nextPkt = s.nextPkt := (rfl)
@[simp] theorem State.withDram_ctxs (s : State) (x : Dram) : (s.withDram x).ctxs = s.ctxs := (rfl)
@[simp] theorem State.withDram_coat (s : State) (x : Dram) : (s.withDram x).coat = s.coat := (rfl)
@[simp] theorem State.withDram_policers (s : State) (x : Dram) : (s.withDram x).policers = s.policers := (rfl)
@[simp] theorem State.withDram_reasons (s : State) (x : Dram) : (s.withDram x).reasons = s.reasons := (rfl)
@[simp] theorem State.withDram_puntAgg (s : State) (x : Dram) : (s.withDram x).puntAgg = s.puntAgg := (rfl)
@[simp] theorem State.withDram_inflightA (s : State) (x : Dram) : (s.withDram x).inflightA = s.inflightA := (rfl)
@[simp] theorem State.withDram_inflightB (s : State) (x : Dram) : (s.withDram x).inflightB = s.inflightB := (rfl)
@[simp] theorem State.withDram_badWords (s : State) (x : Dram) : (s.withDram x).badWords = s.badWords := (rfl)
@[simp] theorem State.withDram_tables (s : State) (x : Dram) : (s.withDram x).tables = s.tables := (rfl)
@[simp] theorem State.withDram_easel (s : State) (x : Dram) : (s.withDram x).easel = s.easel := (rfl)
@[simp] theorem State.withDram_power (s : State) (x : Dram) : (s.withDram x).power = s.power := (rfl)
@[simp] theorem State.withDram_palette (s : State) (x : Dram) : (s.withDram x).palette = s.palette := (rfl)
@[simp] theorem State.withDram_sched (s : State) (x : Dram) : (s.withDram x).sched = s.sched := (rfl)
@[simp] theorem State.withDram_dram (s : State) (x : Dram) : (s.withDram x).dram = x := (rfl)
@[simp] theorem State.withDram_fab (s : State) (x : Dram) : (s.withDram x).fab = s.fab := (rfl)
@[simp] theorem State.withDram_loom (s : State) (x : Dram) : (s.withDram x).loom = s.loom := (rfl)
@[simp] theorem State.withDram_emv (s : State) (x : Dram) : (s.withDram x).emv = s.emv := (rfl)
@[simp] theorem State.withDram_freeCtr (s : State) (x : Dram) : (s.withDram x).freeCtr = s.freeCtr := (rfl)
@[simp] theorem State.withDram_outputs (s : State) (x : Dram) : (s.withDram x).outputs = s.outputs := (rfl)
@[simp] theorem State.withDram_reg (s : State) (x : Dram) (r : Reg) (i : Nat) : (s.withDram x).reg r i = s.reg r i := (rfl)
@[simp] theorem State.withDram_rd (s : State) (x : Dram) (f : Fld) (i : Nat) : (s.withDram x).rd f i = s.rd f i := (rfl)
@[simp] theorem State.withDram_on (s : State) (x : Dram) (f : Fld) (i : Nat) : (s.withDram x).on f i = s.on f i := (rfl)
@[simp] theorem State.withDram_regsOk (s : State) (x : Dram) : (s.withDram x).regsOk = s.regsOk := (rfl)

/-! ### `State.withFab` -/

@[simp] theorem State.withFab_pending (s : State) (x : Fab) : (s.withFab x).pending = s.pending := (rfl)
@[simp] theorem State.withFab_regs (s : State) (x : Fab) : (s.withFab x).regs = s.regs := (rfl)
@[simp] theorem State.withFab_frc (s : State) (x : Fab) : (s.withFab x).frc = s.frc := (rfl)
@[simp] theorem State.withFab_time (s : State) (x : Fab) : (s.withFab x).time = s.time := (rfl)
@[simp] theorem State.withFab_host (s : State) (x : Fab) : (s.withFab x).host = s.host := (rfl)
@[simp] theorem State.withFab_tally (s : State) (x : Fab) : (s.withFab x).tally = s.tally := (rfl)
@[simp] theorem State.withFab_seam (s : State) (x : Fab) : (s.withFab x).seam = s.seam := (rfl)
@[simp] theorem State.withFab_pace (s : State) (x : Fab) : (s.withFab x).pace = s.pace := (rfl)
@[simp] theorem State.withFab_macs (s : State) (x : Fab) : (s.withFab x).macs = s.macs := (rfl)
@[simp] theorem State.withFab_insts (s : State) (x : Fab) : (s.withFab x).insts = s.insts := (rfl)
@[simp] theorem State.withFab_grps (s : State) (x : Fab) : (s.withFab x).grps = s.grps := (rfl)
@[simp] theorem State.withFab_pkts (s : State) (x : Fab) : (s.withFab x).pkts = s.pkts := (rfl)
@[simp] theorem State.withFab_nextPkt (s : State) (x : Fab) : (s.withFab x).nextPkt = s.nextPkt := (rfl)
@[simp] theorem State.withFab_ctxs (s : State) (x : Fab) : (s.withFab x).ctxs = s.ctxs := (rfl)
@[simp] theorem State.withFab_coat (s : State) (x : Fab) : (s.withFab x).coat = s.coat := (rfl)
@[simp] theorem State.withFab_policers (s : State) (x : Fab) : (s.withFab x).policers = s.policers := (rfl)
@[simp] theorem State.withFab_reasons (s : State) (x : Fab) : (s.withFab x).reasons = s.reasons := (rfl)
@[simp] theorem State.withFab_puntAgg (s : State) (x : Fab) : (s.withFab x).puntAgg = s.puntAgg := (rfl)
@[simp] theorem State.withFab_inflightA (s : State) (x : Fab) : (s.withFab x).inflightA = s.inflightA := (rfl)
@[simp] theorem State.withFab_inflightB (s : State) (x : Fab) : (s.withFab x).inflightB = s.inflightB := (rfl)
@[simp] theorem State.withFab_badWords (s : State) (x : Fab) : (s.withFab x).badWords = s.badWords := (rfl)
@[simp] theorem State.withFab_tables (s : State) (x : Fab) : (s.withFab x).tables = s.tables := (rfl)
@[simp] theorem State.withFab_easel (s : State) (x : Fab) : (s.withFab x).easel = s.easel := (rfl)
@[simp] theorem State.withFab_power (s : State) (x : Fab) : (s.withFab x).power = s.power := (rfl)
@[simp] theorem State.withFab_palette (s : State) (x : Fab) : (s.withFab x).palette = s.palette := (rfl)
@[simp] theorem State.withFab_sched (s : State) (x : Fab) : (s.withFab x).sched = s.sched := (rfl)
@[simp] theorem State.withFab_dram (s : State) (x : Fab) : (s.withFab x).dram = s.dram := (rfl)
@[simp] theorem State.withFab_fab (s : State) (x : Fab) : (s.withFab x).fab = x := (rfl)
@[simp] theorem State.withFab_loom (s : State) (x : Fab) : (s.withFab x).loom = s.loom := (rfl)
@[simp] theorem State.withFab_emv (s : State) (x : Fab) : (s.withFab x).emv = s.emv := (rfl)
@[simp] theorem State.withFab_freeCtr (s : State) (x : Fab) : (s.withFab x).freeCtr = s.freeCtr := (rfl)
@[simp] theorem State.withFab_outputs (s : State) (x : Fab) : (s.withFab x).outputs = s.outputs := (rfl)
@[simp] theorem State.withFab_reg (s : State) (x : Fab) (r : Reg) (i : Nat) : (s.withFab x).reg r i = s.reg r i := (rfl)
@[simp] theorem State.withFab_rd (s : State) (x : Fab) (f : Fld) (i : Nat) : (s.withFab x).rd f i = s.rd f i := (rfl)
@[simp] theorem State.withFab_on (s : State) (x : Fab) (f : Fld) (i : Nat) : (s.withFab x).on f i = s.on f i := (rfl)
@[simp] theorem State.withFab_regsOk (s : State) (x : Fab) : (s.withFab x).regsOk = s.regsOk := (rfl)

/-! ### `State.withLoom` -/

@[simp] theorem State.withLoom_pending (s : State) (x : Loom) : (s.withLoom x).pending = s.pending := (rfl)
@[simp] theorem State.withLoom_regs (s : State) (x : Loom) : (s.withLoom x).regs = s.regs := (rfl)
@[simp] theorem State.withLoom_frc (s : State) (x : Loom) : (s.withLoom x).frc = s.frc := (rfl)
@[simp] theorem State.withLoom_time (s : State) (x : Loom) : (s.withLoom x).time = s.time := (rfl)
@[simp] theorem State.withLoom_host (s : State) (x : Loom) : (s.withLoom x).host = s.host := (rfl)
@[simp] theorem State.withLoom_tally (s : State) (x : Loom) : (s.withLoom x).tally = s.tally := (rfl)
@[simp] theorem State.withLoom_seam (s : State) (x : Loom) : (s.withLoom x).seam = s.seam := (rfl)
@[simp] theorem State.withLoom_pace (s : State) (x : Loom) : (s.withLoom x).pace = s.pace := (rfl)
@[simp] theorem State.withLoom_macs (s : State) (x : Loom) : (s.withLoom x).macs = s.macs := (rfl)
@[simp] theorem State.withLoom_insts (s : State) (x : Loom) : (s.withLoom x).insts = s.insts := (rfl)
@[simp] theorem State.withLoom_grps (s : State) (x : Loom) : (s.withLoom x).grps = s.grps := (rfl)
@[simp] theorem State.withLoom_pkts (s : State) (x : Loom) : (s.withLoom x).pkts = s.pkts := (rfl)
@[simp] theorem State.withLoom_nextPkt (s : State) (x : Loom) : (s.withLoom x).nextPkt = s.nextPkt := (rfl)
@[simp] theorem State.withLoom_ctxs (s : State) (x : Loom) : (s.withLoom x).ctxs = s.ctxs := (rfl)
@[simp] theorem State.withLoom_coat (s : State) (x : Loom) : (s.withLoom x).coat = s.coat := (rfl)
@[simp] theorem State.withLoom_policers (s : State) (x : Loom) : (s.withLoom x).policers = s.policers := (rfl)
@[simp] theorem State.withLoom_reasons (s : State) (x : Loom) : (s.withLoom x).reasons = s.reasons := (rfl)
@[simp] theorem State.withLoom_puntAgg (s : State) (x : Loom) : (s.withLoom x).puntAgg = s.puntAgg := (rfl)
@[simp] theorem State.withLoom_inflightA (s : State) (x : Loom) : (s.withLoom x).inflightA = s.inflightA := (rfl)
@[simp] theorem State.withLoom_inflightB (s : State) (x : Loom) : (s.withLoom x).inflightB = s.inflightB := (rfl)
@[simp] theorem State.withLoom_badWords (s : State) (x : Loom) : (s.withLoom x).badWords = s.badWords := (rfl)
@[simp] theorem State.withLoom_tables (s : State) (x : Loom) : (s.withLoom x).tables = s.tables := (rfl)
@[simp] theorem State.withLoom_easel (s : State) (x : Loom) : (s.withLoom x).easel = s.easel := (rfl)
@[simp] theorem State.withLoom_power (s : State) (x : Loom) : (s.withLoom x).power = s.power := (rfl)
@[simp] theorem State.withLoom_palette (s : State) (x : Loom) : (s.withLoom x).palette = s.palette := (rfl)
@[simp] theorem State.withLoom_sched (s : State) (x : Loom) : (s.withLoom x).sched = s.sched := (rfl)
@[simp] theorem State.withLoom_dram (s : State) (x : Loom) : (s.withLoom x).dram = s.dram := (rfl)
@[simp] theorem State.withLoom_fab (s : State) (x : Loom) : (s.withLoom x).fab = s.fab := (rfl)
@[simp] theorem State.withLoom_loom (s : State) (x : Loom) : (s.withLoom x).loom = x := (rfl)
@[simp] theorem State.withLoom_emv (s : State) (x : Loom) : (s.withLoom x).emv = s.emv := (rfl)
@[simp] theorem State.withLoom_freeCtr (s : State) (x : Loom) : (s.withLoom x).freeCtr = s.freeCtr := (rfl)
@[simp] theorem State.withLoom_outputs (s : State) (x : Loom) : (s.withLoom x).outputs = s.outputs := (rfl)
@[simp] theorem State.withLoom_reg (s : State) (x : Loom) (r : Reg) (i : Nat) : (s.withLoom x).reg r i = s.reg r i := (rfl)
@[simp] theorem State.withLoom_rd (s : State) (x : Loom) (f : Fld) (i : Nat) : (s.withLoom x).rd f i = s.rd f i := (rfl)
@[simp] theorem State.withLoom_on (s : State) (x : Loom) (f : Fld) (i : Nat) : (s.withLoom x).on f i = s.on f i := (rfl)
@[simp] theorem State.withLoom_regsOk (s : State) (x : Loom) : (s.withLoom x).regsOk = s.regsOk := (rfl)

/-! ### `State.withEmv` -/

@[simp] theorem State.withEmv_pending (s : State) (x : Emv) : (s.withEmv x).pending = s.pending := (rfl)
@[simp] theorem State.withEmv_regs (s : State) (x : Emv) : (s.withEmv x).regs = s.regs := (rfl)
@[simp] theorem State.withEmv_frc (s : State) (x : Emv) : (s.withEmv x).frc = s.frc := (rfl)
@[simp] theorem State.withEmv_time (s : State) (x : Emv) : (s.withEmv x).time = s.time := (rfl)
@[simp] theorem State.withEmv_host (s : State) (x : Emv) : (s.withEmv x).host = s.host := (rfl)
@[simp] theorem State.withEmv_tally (s : State) (x : Emv) : (s.withEmv x).tally = s.tally := (rfl)
@[simp] theorem State.withEmv_seam (s : State) (x : Emv) : (s.withEmv x).seam = s.seam := (rfl)
@[simp] theorem State.withEmv_pace (s : State) (x : Emv) : (s.withEmv x).pace = s.pace := (rfl)
@[simp] theorem State.withEmv_macs (s : State) (x : Emv) : (s.withEmv x).macs = s.macs := (rfl)
@[simp] theorem State.withEmv_insts (s : State) (x : Emv) : (s.withEmv x).insts = s.insts := (rfl)
@[simp] theorem State.withEmv_grps (s : State) (x : Emv) : (s.withEmv x).grps = s.grps := (rfl)
@[simp] theorem State.withEmv_pkts (s : State) (x : Emv) : (s.withEmv x).pkts = s.pkts := (rfl)
@[simp] theorem State.withEmv_nextPkt (s : State) (x : Emv) : (s.withEmv x).nextPkt = s.nextPkt := (rfl)
@[simp] theorem State.withEmv_ctxs (s : State) (x : Emv) : (s.withEmv x).ctxs = s.ctxs := (rfl)
@[simp] theorem State.withEmv_coat (s : State) (x : Emv) : (s.withEmv x).coat = s.coat := (rfl)
@[simp] theorem State.withEmv_policers (s : State) (x : Emv) : (s.withEmv x).policers = s.policers := (rfl)
@[simp] theorem State.withEmv_reasons (s : State) (x : Emv) : (s.withEmv x).reasons = s.reasons := (rfl)
@[simp] theorem State.withEmv_puntAgg (s : State) (x : Emv) : (s.withEmv x).puntAgg = s.puntAgg := (rfl)
@[simp] theorem State.withEmv_inflightA (s : State) (x : Emv) : (s.withEmv x).inflightA = s.inflightA := (rfl)
@[simp] theorem State.withEmv_inflightB (s : State) (x : Emv) : (s.withEmv x).inflightB = s.inflightB := (rfl)
@[simp] theorem State.withEmv_badWords (s : State) (x : Emv) : (s.withEmv x).badWords = s.badWords := (rfl)
@[simp] theorem State.withEmv_tables (s : State) (x : Emv) : (s.withEmv x).tables = s.tables := (rfl)
@[simp] theorem State.withEmv_easel (s : State) (x : Emv) : (s.withEmv x).easel = s.easel := (rfl)
@[simp] theorem State.withEmv_power (s : State) (x : Emv) : (s.withEmv x).power = s.power := (rfl)
@[simp] theorem State.withEmv_palette (s : State) (x : Emv) : (s.withEmv x).palette = s.palette := (rfl)
@[simp] theorem State.withEmv_sched (s : State) (x : Emv) : (s.withEmv x).sched = s.sched := (rfl)
@[simp] theorem State.withEmv_dram (s : State) (x : Emv) : (s.withEmv x).dram = s.dram := (rfl)
@[simp] theorem State.withEmv_fab (s : State) (x : Emv) : (s.withEmv x).fab = s.fab := (rfl)
@[simp] theorem State.withEmv_loom (s : State) (x : Emv) : (s.withEmv x).loom = s.loom := (rfl)
@[simp] theorem State.withEmv_emv (s : State) (x : Emv) : (s.withEmv x).emv = x := (rfl)
@[simp] theorem State.withEmv_freeCtr (s : State) (x : Emv) : (s.withEmv x).freeCtr = s.freeCtr := (rfl)
@[simp] theorem State.withEmv_outputs (s : State) (x : Emv) : (s.withEmv x).outputs = s.outputs := (rfl)
@[simp] theorem State.withEmv_reg (s : State) (x : Emv) (r : Reg) (i : Nat) : (s.withEmv x).reg r i = s.reg r i := (rfl)
@[simp] theorem State.withEmv_rd (s : State) (x : Emv) (f : Fld) (i : Nat) : (s.withEmv x).rd f i = s.rd f i := (rfl)
@[simp] theorem State.withEmv_on (s : State) (x : Emv) (f : Fld) (i : Nat) : (s.withEmv x).on f i = s.on f i := (rfl)
@[simp] theorem State.withEmv_regsOk (s : State) (x : Emv) : (s.withEmv x).regsOk = s.regsOk := (rfl)

/-! ### `State.withFreeCtr` -/

@[simp] theorem State.withFreeCtr_pending (s : State) (x : Nat) : (s.withFreeCtr x).pending = s.pending := (rfl)
@[simp] theorem State.withFreeCtr_regs (s : State) (x : Nat) : (s.withFreeCtr x).regs = s.regs := (rfl)
@[simp] theorem State.withFreeCtr_frc (s : State) (x : Nat) : (s.withFreeCtr x).frc = s.frc := (rfl)
@[simp] theorem State.withFreeCtr_time (s : State) (x : Nat) : (s.withFreeCtr x).time = s.time := (rfl)
@[simp] theorem State.withFreeCtr_host (s : State) (x : Nat) : (s.withFreeCtr x).host = s.host := (rfl)
@[simp] theorem State.withFreeCtr_tally (s : State) (x : Nat) : (s.withFreeCtr x).tally = s.tally := (rfl)
@[simp] theorem State.withFreeCtr_seam (s : State) (x : Nat) : (s.withFreeCtr x).seam = s.seam := (rfl)
@[simp] theorem State.withFreeCtr_pace (s : State) (x : Nat) : (s.withFreeCtr x).pace = s.pace := (rfl)
@[simp] theorem State.withFreeCtr_macs (s : State) (x : Nat) : (s.withFreeCtr x).macs = s.macs := (rfl)
@[simp] theorem State.withFreeCtr_insts (s : State) (x : Nat) : (s.withFreeCtr x).insts = s.insts := (rfl)
@[simp] theorem State.withFreeCtr_grps (s : State) (x : Nat) : (s.withFreeCtr x).grps = s.grps := (rfl)
@[simp] theorem State.withFreeCtr_pkts (s : State) (x : Nat) : (s.withFreeCtr x).pkts = s.pkts := (rfl)
@[simp] theorem State.withFreeCtr_nextPkt (s : State) (x : Nat) : (s.withFreeCtr x).nextPkt = s.nextPkt := (rfl)
@[simp] theorem State.withFreeCtr_ctxs (s : State) (x : Nat) : (s.withFreeCtr x).ctxs = s.ctxs := (rfl)
@[simp] theorem State.withFreeCtr_coat (s : State) (x : Nat) : (s.withFreeCtr x).coat = s.coat := (rfl)
@[simp] theorem State.withFreeCtr_policers (s : State) (x : Nat) : (s.withFreeCtr x).policers = s.policers := (rfl)
@[simp] theorem State.withFreeCtr_reasons (s : State) (x : Nat) : (s.withFreeCtr x).reasons = s.reasons := (rfl)
@[simp] theorem State.withFreeCtr_puntAgg (s : State) (x : Nat) : (s.withFreeCtr x).puntAgg = s.puntAgg := (rfl)
@[simp] theorem State.withFreeCtr_inflightA (s : State) (x : Nat) : (s.withFreeCtr x).inflightA = s.inflightA := (rfl)
@[simp] theorem State.withFreeCtr_inflightB (s : State) (x : Nat) : (s.withFreeCtr x).inflightB = s.inflightB := (rfl)
@[simp] theorem State.withFreeCtr_badWords (s : State) (x : Nat) : (s.withFreeCtr x).badWords = s.badWords := (rfl)
@[simp] theorem State.withFreeCtr_tables (s : State) (x : Nat) : (s.withFreeCtr x).tables = s.tables := (rfl)
@[simp] theorem State.withFreeCtr_easel (s : State) (x : Nat) : (s.withFreeCtr x).easel = s.easel := (rfl)
@[simp] theorem State.withFreeCtr_power (s : State) (x : Nat) : (s.withFreeCtr x).power = s.power := (rfl)
@[simp] theorem State.withFreeCtr_palette (s : State) (x : Nat) : (s.withFreeCtr x).palette = s.palette := (rfl)
@[simp] theorem State.withFreeCtr_sched (s : State) (x : Nat) : (s.withFreeCtr x).sched = s.sched := (rfl)
@[simp] theorem State.withFreeCtr_dram (s : State) (x : Nat) : (s.withFreeCtr x).dram = s.dram := (rfl)
@[simp] theorem State.withFreeCtr_fab (s : State) (x : Nat) : (s.withFreeCtr x).fab = s.fab := (rfl)
@[simp] theorem State.withFreeCtr_loom (s : State) (x : Nat) : (s.withFreeCtr x).loom = s.loom := (rfl)
@[simp] theorem State.withFreeCtr_emv (s : State) (x : Nat) : (s.withFreeCtr x).emv = s.emv := (rfl)
@[simp] theorem State.withFreeCtr_freeCtr (s : State) (x : Nat) : (s.withFreeCtr x).freeCtr = x := (rfl)
@[simp] theorem State.withFreeCtr_outputs (s : State) (x : Nat) : (s.withFreeCtr x).outputs = s.outputs := (rfl)
@[simp] theorem State.withFreeCtr_reg (s : State) (x : Nat) (r : Reg) (i : Nat) : (s.withFreeCtr x).reg r i = s.reg r i := (rfl)
@[simp] theorem State.withFreeCtr_rd (s : State) (x : Nat) (f : Fld) (i : Nat) : (s.withFreeCtr x).rd f i = s.rd f i := (rfl)
@[simp] theorem State.withFreeCtr_on (s : State) (x : Nat) (f : Fld) (i : Nat) : (s.withFreeCtr x).on f i = s.on f i := (rfl)
@[simp] theorem State.withFreeCtr_regsOk (s : State) (x : Nat) : (s.withFreeCtr x).regsOk = s.regsOk := (rfl)

/-! ### `State.withOutputs` -/

@[simp] theorem State.withOutputs_pending (s : State) (x : List Output) : (s.withOutputs x).pending = s.pending := (rfl)
@[simp] theorem State.withOutputs_regs (s : State) (x : List Output) : (s.withOutputs x).regs = s.regs := (rfl)
@[simp] theorem State.withOutputs_frc (s : State) (x : List Output) : (s.withOutputs x).frc = s.frc := (rfl)
@[simp] theorem State.withOutputs_time (s : State) (x : List Output) : (s.withOutputs x).time = s.time := (rfl)
@[simp] theorem State.withOutputs_host (s : State) (x : List Output) : (s.withOutputs x).host = s.host := (rfl)
@[simp] theorem State.withOutputs_tally (s : State) (x : List Output) : (s.withOutputs x).tally = s.tally := (rfl)
@[simp] theorem State.withOutputs_seam (s : State) (x : List Output) : (s.withOutputs x).seam = s.seam := (rfl)
@[simp] theorem State.withOutputs_pace (s : State) (x : List Output) : (s.withOutputs x).pace = s.pace := (rfl)
@[simp] theorem State.withOutputs_macs (s : State) (x : List Output) : (s.withOutputs x).macs = s.macs := (rfl)
@[simp] theorem State.withOutputs_insts (s : State) (x : List Output) : (s.withOutputs x).insts = s.insts := (rfl)
@[simp] theorem State.withOutputs_grps (s : State) (x : List Output) : (s.withOutputs x).grps = s.grps := (rfl)
@[simp] theorem State.withOutputs_pkts (s : State) (x : List Output) : (s.withOutputs x).pkts = s.pkts := (rfl)
@[simp] theorem State.withOutputs_nextPkt (s : State) (x : List Output) : (s.withOutputs x).nextPkt = s.nextPkt := (rfl)
@[simp] theorem State.withOutputs_ctxs (s : State) (x : List Output) : (s.withOutputs x).ctxs = s.ctxs := (rfl)
@[simp] theorem State.withOutputs_coat (s : State) (x : List Output) : (s.withOutputs x).coat = s.coat := (rfl)
@[simp] theorem State.withOutputs_policers (s : State) (x : List Output) : (s.withOutputs x).policers = s.policers := (rfl)
@[simp] theorem State.withOutputs_reasons (s : State) (x : List Output) : (s.withOutputs x).reasons = s.reasons := (rfl)
@[simp] theorem State.withOutputs_puntAgg (s : State) (x : List Output) : (s.withOutputs x).puntAgg = s.puntAgg := (rfl)
@[simp] theorem State.withOutputs_inflightA (s : State) (x : List Output) : (s.withOutputs x).inflightA = s.inflightA := (rfl)
@[simp] theorem State.withOutputs_inflightB (s : State) (x : List Output) : (s.withOutputs x).inflightB = s.inflightB := (rfl)
@[simp] theorem State.withOutputs_badWords (s : State) (x : List Output) : (s.withOutputs x).badWords = s.badWords := (rfl)
@[simp] theorem State.withOutputs_tables (s : State) (x : List Output) : (s.withOutputs x).tables = s.tables := (rfl)
@[simp] theorem State.withOutputs_easel (s : State) (x : List Output) : (s.withOutputs x).easel = s.easel := (rfl)
@[simp] theorem State.withOutputs_power (s : State) (x : List Output) : (s.withOutputs x).power = s.power := (rfl)
@[simp] theorem State.withOutputs_palette (s : State) (x : List Output) : (s.withOutputs x).palette = s.palette := (rfl)
@[simp] theorem State.withOutputs_sched (s : State) (x : List Output) : (s.withOutputs x).sched = s.sched := (rfl)
@[simp] theorem State.withOutputs_dram (s : State) (x : List Output) : (s.withOutputs x).dram = s.dram := (rfl)
@[simp] theorem State.withOutputs_fab (s : State) (x : List Output) : (s.withOutputs x).fab = s.fab := (rfl)
@[simp] theorem State.withOutputs_loom (s : State) (x : List Output) : (s.withOutputs x).loom = s.loom := (rfl)
@[simp] theorem State.withOutputs_emv (s : State) (x : List Output) : (s.withOutputs x).emv = s.emv := (rfl)
@[simp] theorem State.withOutputs_freeCtr (s : State) (x : List Output) : (s.withOutputs x).freeCtr = s.freeCtr := (rfl)
@[simp] theorem State.withOutputs_outputs (s : State) (x : List Output) : (s.withOutputs x).outputs = x := (rfl)
@[simp] theorem State.withOutputs_reg (s : State) (x : List Output) (r : Reg) (i : Nat) : (s.withOutputs x).reg r i = s.reg r i := (rfl)
@[simp] theorem State.withOutputs_rd (s : State) (x : List Output) (f : Fld) (i : Nat) : (s.withOutputs x).rd f i = s.rd f i := (rfl)
@[simp] theorem State.withOutputs_on (s : State) (x : List Output) (f : Fld) (i : Nat) : (s.withOutputs x).on f i = s.on f i := (rfl)
@[simp] theorem State.withOutputs_regsOk (s : State) (x : List Output) : (s.withOutputs x).regsOk = s.regsOk := (rfl)

/-! ### Registers: a write of one changes the register space alone -/

@[simp] theorem State.setReg_pending (s : State) (r : Reg) (i : Nat) (v : BitVec 320) : (s.setReg r i v).pending = s.pending := (rfl)
@[simp] theorem State.setReg_frc (s : State) (r : Reg) (i : Nat) (v : BitVec 320) : (s.setReg r i v).frc = s.frc := (rfl)
@[simp] theorem State.setReg_time (s : State) (r : Reg) (i : Nat) (v : BitVec 320) : (s.setReg r i v).time = s.time := (rfl)
@[simp] theorem State.setReg_host (s : State) (r : Reg) (i : Nat) (v : BitVec 320) : (s.setReg r i v).host = s.host := (rfl)
@[simp] theorem State.setReg_tally (s : State) (r : Reg) (i : Nat) (v : BitVec 320) : (s.setReg r i v).tally = s.tally := (rfl)
@[simp] theorem State.setReg_seam (s : State) (r : Reg) (i : Nat) (v : BitVec 320) : (s.setReg r i v).seam = s.seam := (rfl)
@[simp] theorem State.setReg_pace (s : State) (r : Reg) (i : Nat) (v : BitVec 320) : (s.setReg r i v).pace = s.pace := (rfl)
@[simp] theorem State.setReg_macs (s : State) (r : Reg) (i : Nat) (v : BitVec 320) : (s.setReg r i v).macs = s.macs := (rfl)
@[simp] theorem State.setReg_insts (s : State) (r : Reg) (i : Nat) (v : BitVec 320) : (s.setReg r i v).insts = s.insts := (rfl)
@[simp] theorem State.setReg_grps (s : State) (r : Reg) (i : Nat) (v : BitVec 320) : (s.setReg r i v).grps = s.grps := (rfl)
@[simp] theorem State.setReg_pkts (s : State) (r : Reg) (i : Nat) (v : BitVec 320) : (s.setReg r i v).pkts = s.pkts := (rfl)
@[simp] theorem State.setReg_nextPkt (s : State) (r : Reg) (i : Nat) (v : BitVec 320) : (s.setReg r i v).nextPkt = s.nextPkt := (rfl)
@[simp] theorem State.setReg_ctxs (s : State) (r : Reg) (i : Nat) (v : BitVec 320) : (s.setReg r i v).ctxs = s.ctxs := (rfl)
@[simp] theorem State.setReg_coat (s : State) (r : Reg) (i : Nat) (v : BitVec 320) : (s.setReg r i v).coat = s.coat := (rfl)
@[simp] theorem State.setReg_policers (s : State) (r : Reg) (i : Nat) (v : BitVec 320) : (s.setReg r i v).policers = s.policers := (rfl)
@[simp] theorem State.setReg_reasons (s : State) (r : Reg) (i : Nat) (v : BitVec 320) : (s.setReg r i v).reasons = s.reasons := (rfl)
@[simp] theorem State.setReg_puntAgg (s : State) (r : Reg) (i : Nat) (v : BitVec 320) : (s.setReg r i v).puntAgg = s.puntAgg := (rfl)
@[simp] theorem State.setReg_inflightA (s : State) (r : Reg) (i : Nat) (v : BitVec 320) : (s.setReg r i v).inflightA = s.inflightA := (rfl)
@[simp] theorem State.setReg_inflightB (s : State) (r : Reg) (i : Nat) (v : BitVec 320) : (s.setReg r i v).inflightB = s.inflightB := (rfl)
@[simp] theorem State.setReg_badWords (s : State) (r : Reg) (i : Nat) (v : BitVec 320) : (s.setReg r i v).badWords = s.badWords := (rfl)
@[simp] theorem State.setReg_tables (s : State) (r : Reg) (i : Nat) (v : BitVec 320) : (s.setReg r i v).tables = s.tables := (rfl)
@[simp] theorem State.setReg_easel (s : State) (r : Reg) (i : Nat) (v : BitVec 320) : (s.setReg r i v).easel = s.easel := (rfl)
@[simp] theorem State.setReg_power (s : State) (r : Reg) (i : Nat) (v : BitVec 320) : (s.setReg r i v).power = s.power := (rfl)
@[simp] theorem State.setReg_palette (s : State) (r : Reg) (i : Nat) (v : BitVec 320) : (s.setReg r i v).palette = s.palette := (rfl)
@[simp] theorem State.setReg_sched (s : State) (r : Reg) (i : Nat) (v : BitVec 320) : (s.setReg r i v).sched = s.sched := (rfl)
@[simp] theorem State.setReg_dram (s : State) (r : Reg) (i : Nat) (v : BitVec 320) : (s.setReg r i v).dram = s.dram := (rfl)
@[simp] theorem State.setReg_fab (s : State) (r : Reg) (i : Nat) (v : BitVec 320) : (s.setReg r i v).fab = s.fab := (rfl)
@[simp] theorem State.setReg_loom (s : State) (r : Reg) (i : Nat) (v : BitVec 320) : (s.setReg r i v).loom = s.loom := (rfl)
@[simp] theorem State.setReg_emv (s : State) (r : Reg) (i : Nat) (v : BitVec 320) : (s.setReg r i v).emv = s.emv := (rfl)
@[simp] theorem State.setReg_freeCtr (s : State) (r : Reg) (i : Nat) (v : BitVec 320) : (s.setReg r i v).freeCtr = s.freeCtr := (rfl)
@[simp] theorem State.setReg_outputs (s : State) (r : Reg) (i : Nat) (v : BitVec 320) : (s.setReg r i v).outputs = s.outputs := (rfl)

@[simp] theorem State.wr_pending (s : State) (f : Fld) (i v : Nat) : (s.wr f i v).pending = s.pending := (rfl)
@[simp] theorem State.wr_frc (s : State) (f : Fld) (i v : Nat) : (s.wr f i v).frc = s.frc := (rfl)
@[simp] theorem State.wr_time (s : State) (f : Fld) (i v : Nat) : (s.wr f i v).time = s.time := (rfl)
@[simp] theorem State.wr_host (s : State) (f : Fld) (i v : Nat) : (s.wr f i v).host = s.host := (rfl)
@[simp] theorem State.wr_tally (s : State) (f : Fld) (i v : Nat) : (s.wr f i v).tally = s.tally := (rfl)
@[simp] theorem State.wr_seam (s : State) (f : Fld) (i v : Nat) : (s.wr f i v).seam = s.seam := (rfl)
@[simp] theorem State.wr_pace (s : State) (f : Fld) (i v : Nat) : (s.wr f i v).pace = s.pace := (rfl)
@[simp] theorem State.wr_macs (s : State) (f : Fld) (i v : Nat) : (s.wr f i v).macs = s.macs := (rfl)
@[simp] theorem State.wr_insts (s : State) (f : Fld) (i v : Nat) : (s.wr f i v).insts = s.insts := (rfl)
@[simp] theorem State.wr_grps (s : State) (f : Fld) (i v : Nat) : (s.wr f i v).grps = s.grps := (rfl)
@[simp] theorem State.wr_pkts (s : State) (f : Fld) (i v : Nat) : (s.wr f i v).pkts = s.pkts := (rfl)
@[simp] theorem State.wr_nextPkt (s : State) (f : Fld) (i v : Nat) : (s.wr f i v).nextPkt = s.nextPkt := (rfl)
@[simp] theorem State.wr_ctxs (s : State) (f : Fld) (i v : Nat) : (s.wr f i v).ctxs = s.ctxs := (rfl)
@[simp] theorem State.wr_coat (s : State) (f : Fld) (i v : Nat) : (s.wr f i v).coat = s.coat := (rfl)
@[simp] theorem State.wr_policers (s : State) (f : Fld) (i v : Nat) : (s.wr f i v).policers = s.policers := (rfl)
@[simp] theorem State.wr_reasons (s : State) (f : Fld) (i v : Nat) : (s.wr f i v).reasons = s.reasons := (rfl)
@[simp] theorem State.wr_puntAgg (s : State) (f : Fld) (i v : Nat) : (s.wr f i v).puntAgg = s.puntAgg := (rfl)
@[simp] theorem State.wr_inflightA (s : State) (f : Fld) (i v : Nat) : (s.wr f i v).inflightA = s.inflightA := (rfl)
@[simp] theorem State.wr_inflightB (s : State) (f : Fld) (i v : Nat) : (s.wr f i v).inflightB = s.inflightB := (rfl)
@[simp] theorem State.wr_badWords (s : State) (f : Fld) (i v : Nat) : (s.wr f i v).badWords = s.badWords := (rfl)
@[simp] theorem State.wr_tables (s : State) (f : Fld) (i v : Nat) : (s.wr f i v).tables = s.tables := (rfl)
@[simp] theorem State.wr_easel (s : State) (f : Fld) (i v : Nat) : (s.wr f i v).easel = s.easel := (rfl)
@[simp] theorem State.wr_power (s : State) (f : Fld) (i v : Nat) : (s.wr f i v).power = s.power := (rfl)
@[simp] theorem State.wr_palette (s : State) (f : Fld) (i v : Nat) : (s.wr f i v).palette = s.palette := (rfl)
@[simp] theorem State.wr_sched (s : State) (f : Fld) (i v : Nat) : (s.wr f i v).sched = s.sched := (rfl)
@[simp] theorem State.wr_dram (s : State) (f : Fld) (i v : Nat) : (s.wr f i v).dram = s.dram := (rfl)
@[simp] theorem State.wr_fab (s : State) (f : Fld) (i v : Nat) : (s.wr f i v).fab = s.fab := (rfl)
@[simp] theorem State.wr_loom (s : State) (f : Fld) (i v : Nat) : (s.wr f i v).loom = s.loom := (rfl)
@[simp] theorem State.wr_emv (s : State) (f : Fld) (i v : Nat) : (s.wr f i v).emv = s.emv := (rfl)
@[simp] theorem State.wr_freeCtr (s : State) (f : Fld) (i v : Nat) : (s.wr f i v).freeCtr = s.freeCtr := (rfl)
@[simp] theorem State.wr_outputs (s : State) (f : Fld) (i v : Nat) : (s.wr f i v).outputs = s.outputs := (rfl)

@[simp] theorem State.wrBit_pending (s : State) (f : Fld) (i : Nat) (b : Bool) : (s.wrBit f i b).pending = s.pending := (rfl)
@[simp] theorem State.wrBit_frc (s : State) (f : Fld) (i : Nat) (b : Bool) : (s.wrBit f i b).frc = s.frc := (rfl)
@[simp] theorem State.wrBit_time (s : State) (f : Fld) (i : Nat) (b : Bool) : (s.wrBit f i b).time = s.time := (rfl)
@[simp] theorem State.wrBit_host (s : State) (f : Fld) (i : Nat) (b : Bool) : (s.wrBit f i b).host = s.host := (rfl)
@[simp] theorem State.wrBit_tally (s : State) (f : Fld) (i : Nat) (b : Bool) : (s.wrBit f i b).tally = s.tally := (rfl)
@[simp] theorem State.wrBit_seam (s : State) (f : Fld) (i : Nat) (b : Bool) : (s.wrBit f i b).seam = s.seam := (rfl)
@[simp] theorem State.wrBit_pace (s : State) (f : Fld) (i : Nat) (b : Bool) : (s.wrBit f i b).pace = s.pace := (rfl)
@[simp] theorem State.wrBit_macs (s : State) (f : Fld) (i : Nat) (b : Bool) : (s.wrBit f i b).macs = s.macs := (rfl)
@[simp] theorem State.wrBit_insts (s : State) (f : Fld) (i : Nat) (b : Bool) : (s.wrBit f i b).insts = s.insts := (rfl)
@[simp] theorem State.wrBit_grps (s : State) (f : Fld) (i : Nat) (b : Bool) : (s.wrBit f i b).grps = s.grps := (rfl)
@[simp] theorem State.wrBit_pkts (s : State) (f : Fld) (i : Nat) (b : Bool) : (s.wrBit f i b).pkts = s.pkts := (rfl)
@[simp] theorem State.wrBit_nextPkt (s : State) (f : Fld) (i : Nat) (b : Bool) : (s.wrBit f i b).nextPkt = s.nextPkt := (rfl)
@[simp] theorem State.wrBit_ctxs (s : State) (f : Fld) (i : Nat) (b : Bool) : (s.wrBit f i b).ctxs = s.ctxs := (rfl)
@[simp] theorem State.wrBit_coat (s : State) (f : Fld) (i : Nat) (b : Bool) : (s.wrBit f i b).coat = s.coat := (rfl)
@[simp] theorem State.wrBit_policers (s : State) (f : Fld) (i : Nat) (b : Bool) : (s.wrBit f i b).policers = s.policers := (rfl)
@[simp] theorem State.wrBit_reasons (s : State) (f : Fld) (i : Nat) (b : Bool) : (s.wrBit f i b).reasons = s.reasons := (rfl)
@[simp] theorem State.wrBit_puntAgg (s : State) (f : Fld) (i : Nat) (b : Bool) : (s.wrBit f i b).puntAgg = s.puntAgg := (rfl)
@[simp] theorem State.wrBit_inflightA (s : State) (f : Fld) (i : Nat) (b : Bool) : (s.wrBit f i b).inflightA = s.inflightA := (rfl)
@[simp] theorem State.wrBit_inflightB (s : State) (f : Fld) (i : Nat) (b : Bool) : (s.wrBit f i b).inflightB = s.inflightB := (rfl)
@[simp] theorem State.wrBit_badWords (s : State) (f : Fld) (i : Nat) (b : Bool) : (s.wrBit f i b).badWords = s.badWords := (rfl)
@[simp] theorem State.wrBit_tables (s : State) (f : Fld) (i : Nat) (b : Bool) : (s.wrBit f i b).tables = s.tables := (rfl)
@[simp] theorem State.wrBit_easel (s : State) (f : Fld) (i : Nat) (b : Bool) : (s.wrBit f i b).easel = s.easel := (rfl)
@[simp] theorem State.wrBit_power (s : State) (f : Fld) (i : Nat) (b : Bool) : (s.wrBit f i b).power = s.power := (rfl)
@[simp] theorem State.wrBit_palette (s : State) (f : Fld) (i : Nat) (b : Bool) : (s.wrBit f i b).palette = s.palette := (rfl)
@[simp] theorem State.wrBit_sched (s : State) (f : Fld) (i : Nat) (b : Bool) : (s.wrBit f i b).sched = s.sched := (rfl)
@[simp] theorem State.wrBit_dram (s : State) (f : Fld) (i : Nat) (b : Bool) : (s.wrBit f i b).dram = s.dram := (rfl)
@[simp] theorem State.wrBit_fab (s : State) (f : Fld) (i : Nat) (b : Bool) : (s.wrBit f i b).fab = s.fab := (rfl)
@[simp] theorem State.wrBit_loom (s : State) (f : Fld) (i : Nat) (b : Bool) : (s.wrBit f i b).loom = s.loom := (rfl)
@[simp] theorem State.wrBit_emv (s : State) (f : Fld) (i : Nat) (b : Bool) : (s.wrBit f i b).emv = s.emv := (rfl)
@[simp] theorem State.wrBit_freeCtr (s : State) (f : Fld) (i : Nat) (b : Bool) : (s.wrBit f i b).freeCtr = s.freeCtr := (rfl)
@[simp] theorem State.wrBit_outputs (s : State) (f : Fld) (i : Nat) (b : Bool) : (s.wrBit f i b).outputs = s.outputs := (rfl)

@[simp] theorem State.incWrap_pending (s : State) (f : Fld) (i n : Nat) : (s.incWrap f i n).pending = s.pending := (rfl)
@[simp] theorem State.incWrap_frc (s : State) (f : Fld) (i n : Nat) : (s.incWrap f i n).frc = s.frc := (rfl)
@[simp] theorem State.incWrap_time (s : State) (f : Fld) (i n : Nat) : (s.incWrap f i n).time = s.time := (rfl)
@[simp] theorem State.incWrap_host (s : State) (f : Fld) (i n : Nat) : (s.incWrap f i n).host = s.host := (rfl)
@[simp] theorem State.incWrap_tally (s : State) (f : Fld) (i n : Nat) : (s.incWrap f i n).tally = s.tally := (rfl)
@[simp] theorem State.incWrap_seam (s : State) (f : Fld) (i n : Nat) : (s.incWrap f i n).seam = s.seam := (rfl)
@[simp] theorem State.incWrap_pace (s : State) (f : Fld) (i n : Nat) : (s.incWrap f i n).pace = s.pace := (rfl)
@[simp] theorem State.incWrap_macs (s : State) (f : Fld) (i n : Nat) : (s.incWrap f i n).macs = s.macs := (rfl)
@[simp] theorem State.incWrap_insts (s : State) (f : Fld) (i n : Nat) : (s.incWrap f i n).insts = s.insts := (rfl)
@[simp] theorem State.incWrap_grps (s : State) (f : Fld) (i n : Nat) : (s.incWrap f i n).grps = s.grps := (rfl)
@[simp] theorem State.incWrap_pkts (s : State) (f : Fld) (i n : Nat) : (s.incWrap f i n).pkts = s.pkts := (rfl)
@[simp] theorem State.incWrap_nextPkt (s : State) (f : Fld) (i n : Nat) : (s.incWrap f i n).nextPkt = s.nextPkt := (rfl)
@[simp] theorem State.incWrap_ctxs (s : State) (f : Fld) (i n : Nat) : (s.incWrap f i n).ctxs = s.ctxs := (rfl)
@[simp] theorem State.incWrap_coat (s : State) (f : Fld) (i n : Nat) : (s.incWrap f i n).coat = s.coat := (rfl)
@[simp] theorem State.incWrap_policers (s : State) (f : Fld) (i n : Nat) : (s.incWrap f i n).policers = s.policers := (rfl)
@[simp] theorem State.incWrap_reasons (s : State) (f : Fld) (i n : Nat) : (s.incWrap f i n).reasons = s.reasons := (rfl)
@[simp] theorem State.incWrap_puntAgg (s : State) (f : Fld) (i n : Nat) : (s.incWrap f i n).puntAgg = s.puntAgg := (rfl)
@[simp] theorem State.incWrap_inflightA (s : State) (f : Fld) (i n : Nat) : (s.incWrap f i n).inflightA = s.inflightA := (rfl)
@[simp] theorem State.incWrap_inflightB (s : State) (f : Fld) (i n : Nat) : (s.incWrap f i n).inflightB = s.inflightB := (rfl)
@[simp] theorem State.incWrap_badWords (s : State) (f : Fld) (i n : Nat) : (s.incWrap f i n).badWords = s.badWords := (rfl)
@[simp] theorem State.incWrap_tables (s : State) (f : Fld) (i n : Nat) : (s.incWrap f i n).tables = s.tables := (rfl)
@[simp] theorem State.incWrap_easel (s : State) (f : Fld) (i n : Nat) : (s.incWrap f i n).easel = s.easel := (rfl)
@[simp] theorem State.incWrap_power (s : State) (f : Fld) (i n : Nat) : (s.incWrap f i n).power = s.power := (rfl)
@[simp] theorem State.incWrap_palette (s : State) (f : Fld) (i n : Nat) : (s.incWrap f i n).palette = s.palette := (rfl)
@[simp] theorem State.incWrap_sched (s : State) (f : Fld) (i n : Nat) : (s.incWrap f i n).sched = s.sched := (rfl)
@[simp] theorem State.incWrap_dram (s : State) (f : Fld) (i n : Nat) : (s.incWrap f i n).dram = s.dram := (rfl)
@[simp] theorem State.incWrap_fab (s : State) (f : Fld) (i n : Nat) : (s.incWrap f i n).fab = s.fab := (rfl)
@[simp] theorem State.incWrap_loom (s : State) (f : Fld) (i n : Nat) : (s.incWrap f i n).loom = s.loom := (rfl)
@[simp] theorem State.incWrap_emv (s : State) (f : Fld) (i n : Nat) : (s.incWrap f i n).emv = s.emv := (rfl)
@[simp] theorem State.incWrap_freeCtr (s : State) (f : Fld) (i n : Nat) : (s.incWrap f i n).freeCtr = s.freeCtr := (rfl)
@[simp] theorem State.incWrap_outputs (s : State) (f : Fld) (i n : Nat) : (s.incWrap f i n).outputs = s.outputs := (rfl)

@[simp] theorem State.incSat_pending (s : State) (f : Fld) (i n : Nat) : (s.incSat f i n).pending = s.pending := (rfl)
@[simp] theorem State.incSat_frc (s : State) (f : Fld) (i n : Nat) : (s.incSat f i n).frc = s.frc := (rfl)
@[simp] theorem State.incSat_time (s : State) (f : Fld) (i n : Nat) : (s.incSat f i n).time = s.time := (rfl)
@[simp] theorem State.incSat_host (s : State) (f : Fld) (i n : Nat) : (s.incSat f i n).host = s.host := (rfl)
@[simp] theorem State.incSat_tally (s : State) (f : Fld) (i n : Nat) : (s.incSat f i n).tally = s.tally := (rfl)
@[simp] theorem State.incSat_seam (s : State) (f : Fld) (i n : Nat) : (s.incSat f i n).seam = s.seam := (rfl)
@[simp] theorem State.incSat_pace (s : State) (f : Fld) (i n : Nat) : (s.incSat f i n).pace = s.pace := (rfl)
@[simp] theorem State.incSat_macs (s : State) (f : Fld) (i n : Nat) : (s.incSat f i n).macs = s.macs := (rfl)
@[simp] theorem State.incSat_insts (s : State) (f : Fld) (i n : Nat) : (s.incSat f i n).insts = s.insts := (rfl)
@[simp] theorem State.incSat_grps (s : State) (f : Fld) (i n : Nat) : (s.incSat f i n).grps = s.grps := (rfl)
@[simp] theorem State.incSat_pkts (s : State) (f : Fld) (i n : Nat) : (s.incSat f i n).pkts = s.pkts := (rfl)
@[simp] theorem State.incSat_nextPkt (s : State) (f : Fld) (i n : Nat) : (s.incSat f i n).nextPkt = s.nextPkt := (rfl)
@[simp] theorem State.incSat_ctxs (s : State) (f : Fld) (i n : Nat) : (s.incSat f i n).ctxs = s.ctxs := (rfl)
@[simp] theorem State.incSat_coat (s : State) (f : Fld) (i n : Nat) : (s.incSat f i n).coat = s.coat := (rfl)
@[simp] theorem State.incSat_policers (s : State) (f : Fld) (i n : Nat) : (s.incSat f i n).policers = s.policers := (rfl)
@[simp] theorem State.incSat_reasons (s : State) (f : Fld) (i n : Nat) : (s.incSat f i n).reasons = s.reasons := (rfl)
@[simp] theorem State.incSat_puntAgg (s : State) (f : Fld) (i n : Nat) : (s.incSat f i n).puntAgg = s.puntAgg := (rfl)
@[simp] theorem State.incSat_inflightA (s : State) (f : Fld) (i n : Nat) : (s.incSat f i n).inflightA = s.inflightA := (rfl)
@[simp] theorem State.incSat_inflightB (s : State) (f : Fld) (i n : Nat) : (s.incSat f i n).inflightB = s.inflightB := (rfl)
@[simp] theorem State.incSat_badWords (s : State) (f : Fld) (i n : Nat) : (s.incSat f i n).badWords = s.badWords := (rfl)
@[simp] theorem State.incSat_tables (s : State) (f : Fld) (i n : Nat) : (s.incSat f i n).tables = s.tables := (rfl)
@[simp] theorem State.incSat_easel (s : State) (f : Fld) (i n : Nat) : (s.incSat f i n).easel = s.easel := (rfl)
@[simp] theorem State.incSat_power (s : State) (f : Fld) (i n : Nat) : (s.incSat f i n).power = s.power := (rfl)
@[simp] theorem State.incSat_palette (s : State) (f : Fld) (i n : Nat) : (s.incSat f i n).palette = s.palette := (rfl)
@[simp] theorem State.incSat_sched (s : State) (f : Fld) (i n : Nat) : (s.incSat f i n).sched = s.sched := (rfl)
@[simp] theorem State.incSat_dram (s : State) (f : Fld) (i n : Nat) : (s.incSat f i n).dram = s.dram := (rfl)
@[simp] theorem State.incSat_fab (s : State) (f : Fld) (i n : Nat) : (s.incSat f i n).fab = s.fab := (rfl)
@[simp] theorem State.incSat_loom (s : State) (f : Fld) (i n : Nat) : (s.incSat f i n).loom = s.loom := (rfl)
@[simp] theorem State.incSat_emv (s : State) (f : Fld) (i n : Nat) : (s.incSat f i n).emv = s.emv := (rfl)
@[simp] theorem State.incSat_freeCtr (s : State) (f : Fld) (i n : Nat) : (s.incSat f i n).freeCtr = s.freeCtr := (rfl)
@[simp] theorem State.incSat_outputs (s : State) (f : Fld) (i n : Nat) : (s.incSat f i n).outputs = s.outputs := (rfl)

/-! ### Causes, outputs, free values, the counter -/

@[simp] theorem State.raise_pending (s : State) (n : Nat) : (s.raise n).pending = s.pending := (rfl)
@[simp] theorem State.raise_regs (s : State) (n : Nat) : (s.raise n).regs = s.regs := (rfl)
@[simp] theorem State.raise_frc (s : State) (n : Nat) : (s.raise n).frc = s.frc := (rfl)
@[simp] theorem State.raise_time (s : State) (n : Nat) : (s.raise n).time = s.time := (rfl)
@[simp] theorem State.raise_tally (s : State) (n : Nat) : (s.raise n).tally = s.tally := (rfl)
@[simp] theorem State.raise_seam (s : State) (n : Nat) : (s.raise n).seam = s.seam := (rfl)
@[simp] theorem State.raise_pace (s : State) (n : Nat) : (s.raise n).pace = s.pace := (rfl)
@[simp] theorem State.raise_macs (s : State) (n : Nat) : (s.raise n).macs = s.macs := (rfl)
@[simp] theorem State.raise_insts (s : State) (n : Nat) : (s.raise n).insts = s.insts := (rfl)
@[simp] theorem State.raise_grps (s : State) (n : Nat) : (s.raise n).grps = s.grps := (rfl)
@[simp] theorem State.raise_pkts (s : State) (n : Nat) : (s.raise n).pkts = s.pkts := (rfl)
@[simp] theorem State.raise_nextPkt (s : State) (n : Nat) : (s.raise n).nextPkt = s.nextPkt := (rfl)
@[simp] theorem State.raise_ctxs (s : State) (n : Nat) : (s.raise n).ctxs = s.ctxs := (rfl)
@[simp] theorem State.raise_coat (s : State) (n : Nat) : (s.raise n).coat = s.coat := (rfl)
@[simp] theorem State.raise_policers (s : State) (n : Nat) : (s.raise n).policers = s.policers := (rfl)
@[simp] theorem State.raise_reasons (s : State) (n : Nat) : (s.raise n).reasons = s.reasons := (rfl)
@[simp] theorem State.raise_puntAgg (s : State) (n : Nat) : (s.raise n).puntAgg = s.puntAgg := (rfl)
@[simp] theorem State.raise_inflightA (s : State) (n : Nat) : (s.raise n).inflightA = s.inflightA := (rfl)
@[simp] theorem State.raise_inflightB (s : State) (n : Nat) : (s.raise n).inflightB = s.inflightB := (rfl)
@[simp] theorem State.raise_badWords (s : State) (n : Nat) : (s.raise n).badWords = s.badWords := (rfl)
@[simp] theorem State.raise_tables (s : State) (n : Nat) : (s.raise n).tables = s.tables := (rfl)
@[simp] theorem State.raise_easel (s : State) (n : Nat) : (s.raise n).easel = s.easel := (rfl)
@[simp] theorem State.raise_power (s : State) (n : Nat) : (s.raise n).power = s.power := (rfl)
@[simp] theorem State.raise_palette (s : State) (n : Nat) : (s.raise n).palette = s.palette := (rfl)
@[simp] theorem State.raise_sched (s : State) (n : Nat) : (s.raise n).sched = s.sched := (rfl)
@[simp] theorem State.raise_dram (s : State) (n : Nat) : (s.raise n).dram = s.dram := (rfl)
@[simp] theorem State.raise_fab (s : State) (n : Nat) : (s.raise n).fab = s.fab := (rfl)
@[simp] theorem State.raise_loom (s : State) (n : Nat) : (s.raise n).loom = s.loom := (rfl)
@[simp] theorem State.raise_emv (s : State) (n : Nat) : (s.raise n).emv = s.emv := (rfl)
@[simp] theorem State.raise_freeCtr (s : State) (n : Nat) : (s.raise n).freeCtr = s.freeCtr := (rfl)
@[simp] theorem State.raise_outputs (s : State) (n : Nat) : (s.raise n).outputs = s.outputs := (rfl)
@[simp] theorem State.raise_reg (s : State) (n : Nat) (r : Reg) (j : Nat) : (s.raise n).reg r j = s.reg r j := (rfl)
@[simp] theorem State.raise_rd (s : State) (n : Nat) (f : Fld) (j : Nat) : (s.raise n).rd f j = s.rd f j := (rfl)
@[simp] theorem State.raise_on (s : State) (n : Nat) (f : Fld) (j : Nat) : (s.raise n).on f j = s.on f j := (rfl)
@[simp] theorem State.raise_regsOk (s : State) (n : Nat) : (s.raise n).regsOk = s.regsOk := (rfl)

@[simp] theorem State.emit_pending (s : State) (o : Output) : (s.emit o).pending = s.pending := (rfl)
@[simp] theorem State.emit_regs (s : State) (o : Output) : (s.emit o).regs = s.regs := (rfl)
@[simp] theorem State.emit_frc (s : State) (o : Output) : (s.emit o).frc = s.frc := (rfl)
@[simp] theorem State.emit_time (s : State) (o : Output) : (s.emit o).time = s.time := (rfl)
@[simp] theorem State.emit_host (s : State) (o : Output) : (s.emit o).host = s.host := (rfl)
@[simp] theorem State.emit_tally (s : State) (o : Output) : (s.emit o).tally = s.tally := (rfl)
@[simp] theorem State.emit_seam (s : State) (o : Output) : (s.emit o).seam = s.seam := (rfl)
@[simp] theorem State.emit_pace (s : State) (o : Output) : (s.emit o).pace = s.pace := (rfl)
@[simp] theorem State.emit_macs (s : State) (o : Output) : (s.emit o).macs = s.macs := (rfl)
@[simp] theorem State.emit_insts (s : State) (o : Output) : (s.emit o).insts = s.insts := (rfl)
@[simp] theorem State.emit_grps (s : State) (o : Output) : (s.emit o).grps = s.grps := (rfl)
@[simp] theorem State.emit_pkts (s : State) (o : Output) : (s.emit o).pkts = s.pkts := (rfl)
@[simp] theorem State.emit_nextPkt (s : State) (o : Output) : (s.emit o).nextPkt = s.nextPkt := (rfl)
@[simp] theorem State.emit_ctxs (s : State) (o : Output) : (s.emit o).ctxs = s.ctxs := (rfl)
@[simp] theorem State.emit_coat (s : State) (o : Output) : (s.emit o).coat = s.coat := (rfl)
@[simp] theorem State.emit_policers (s : State) (o : Output) : (s.emit o).policers = s.policers := (rfl)
@[simp] theorem State.emit_reasons (s : State) (o : Output) : (s.emit o).reasons = s.reasons := (rfl)
@[simp] theorem State.emit_puntAgg (s : State) (o : Output) : (s.emit o).puntAgg = s.puntAgg := (rfl)
@[simp] theorem State.emit_inflightA (s : State) (o : Output) : (s.emit o).inflightA = s.inflightA := (rfl)
@[simp] theorem State.emit_inflightB (s : State) (o : Output) : (s.emit o).inflightB = s.inflightB := (rfl)
@[simp] theorem State.emit_badWords (s : State) (o : Output) : (s.emit o).badWords = s.badWords := (rfl)
@[simp] theorem State.emit_tables (s : State) (o : Output) : (s.emit o).tables = s.tables := (rfl)
@[simp] theorem State.emit_easel (s : State) (o : Output) : (s.emit o).easel = s.easel := (rfl)
@[simp] theorem State.emit_power (s : State) (o : Output) : (s.emit o).power = s.power := (rfl)
@[simp] theorem State.emit_palette (s : State) (o : Output) : (s.emit o).palette = s.palette := (rfl)
@[simp] theorem State.emit_sched (s : State) (o : Output) : (s.emit o).sched = s.sched := (rfl)
@[simp] theorem State.emit_dram (s : State) (o : Output) : (s.emit o).dram = s.dram := (rfl)
@[simp] theorem State.emit_fab (s : State) (o : Output) : (s.emit o).fab = s.fab := (rfl)
@[simp] theorem State.emit_loom (s : State) (o : Output) : (s.emit o).loom = s.loom := (rfl)
@[simp] theorem State.emit_emv (s : State) (o : Output) : (s.emit o).emv = s.emv := (rfl)
@[simp] theorem State.emit_freeCtr (s : State) (o : Output) : (s.emit o).freeCtr = s.freeCtr := (rfl)
@[simp] theorem State.emit_reg (s : State) (o : Output) (r : Reg) (j : Nat) : (s.emit o).reg r j = s.reg r j := (rfl)
@[simp] theorem State.emit_rd (s : State) (o : Output) (f : Fld) (j : Nat) : (s.emit o).rd f j = s.rd f j := (rfl)
@[simp] theorem State.emit_on (s : State) (o : Output) (f : Fld) (j : Nat) : (s.emit o).on f j = s.on f j := (rfl)
@[simp] theorem State.emit_regsOk (s : State) (o : Output) : (s.emit o).regsOk = s.regsOk := (rfl)

@[simp] theorem State.freeDraw_pending (s : State)  : (s.freeDraw ).pending = s.pending := (rfl)
@[simp] theorem State.freeDraw_regs (s : State)  : (s.freeDraw ).regs = s.regs := (rfl)
@[simp] theorem State.freeDraw_frc (s : State)  : (s.freeDraw ).frc = s.frc := (rfl)
@[simp] theorem State.freeDraw_time (s : State)  : (s.freeDraw ).time = s.time := (rfl)
@[simp] theorem State.freeDraw_host (s : State)  : (s.freeDraw ).host = s.host := (rfl)
@[simp] theorem State.freeDraw_tally (s : State)  : (s.freeDraw ).tally = s.tally := (rfl)
@[simp] theorem State.freeDraw_seam (s : State)  : (s.freeDraw ).seam = s.seam := (rfl)
@[simp] theorem State.freeDraw_pace (s : State)  : (s.freeDraw ).pace = s.pace := (rfl)
@[simp] theorem State.freeDraw_macs (s : State)  : (s.freeDraw ).macs = s.macs := (rfl)
@[simp] theorem State.freeDraw_insts (s : State)  : (s.freeDraw ).insts = s.insts := (rfl)
@[simp] theorem State.freeDraw_grps (s : State)  : (s.freeDraw ).grps = s.grps := (rfl)
@[simp] theorem State.freeDraw_pkts (s : State)  : (s.freeDraw ).pkts = s.pkts := (rfl)
@[simp] theorem State.freeDraw_nextPkt (s : State)  : (s.freeDraw ).nextPkt = s.nextPkt := (rfl)
@[simp] theorem State.freeDraw_ctxs (s : State)  : (s.freeDraw ).ctxs = s.ctxs := (rfl)
@[simp] theorem State.freeDraw_coat (s : State)  : (s.freeDraw ).coat = s.coat := (rfl)
@[simp] theorem State.freeDraw_policers (s : State)  : (s.freeDraw ).policers = s.policers := (rfl)
@[simp] theorem State.freeDraw_reasons (s : State)  : (s.freeDraw ).reasons = s.reasons := (rfl)
@[simp] theorem State.freeDraw_puntAgg (s : State)  : (s.freeDraw ).puntAgg = s.puntAgg := (rfl)
@[simp] theorem State.freeDraw_inflightA (s : State)  : (s.freeDraw ).inflightA = s.inflightA := (rfl)
@[simp] theorem State.freeDraw_inflightB (s : State)  : (s.freeDraw ).inflightB = s.inflightB := (rfl)
@[simp] theorem State.freeDraw_badWords (s : State)  : (s.freeDraw ).badWords = s.badWords := (rfl)
@[simp] theorem State.freeDraw_tables (s : State)  : (s.freeDraw ).tables = s.tables := (rfl)
@[simp] theorem State.freeDraw_easel (s : State)  : (s.freeDraw ).easel = s.easel := (rfl)
@[simp] theorem State.freeDraw_power (s : State)  : (s.freeDraw ).power = s.power := (rfl)
@[simp] theorem State.freeDraw_palette (s : State)  : (s.freeDraw ).palette = s.palette := (rfl)
@[simp] theorem State.freeDraw_sched (s : State)  : (s.freeDraw ).sched = s.sched := (rfl)
@[simp] theorem State.freeDraw_dram (s : State)  : (s.freeDraw ).dram = s.dram := (rfl)
@[simp] theorem State.freeDraw_fab (s : State)  : (s.freeDraw ).fab = s.fab := (rfl)
@[simp] theorem State.freeDraw_loom (s : State)  : (s.freeDraw ).loom = s.loom := (rfl)
@[simp] theorem State.freeDraw_emv (s : State)  : (s.freeDraw ).emv = s.emv := (rfl)
@[simp] theorem State.freeDraw_outputs (s : State)  : (s.freeDraw ).outputs = s.outputs := (rfl)
@[simp] theorem State.freeDraw_reg (s : State)  (r : Reg) (j : Nat) : (s.freeDraw ).reg r j = s.reg r j := (rfl)
@[simp] theorem State.freeDraw_rd (s : State)  (f : Fld) (j : Nat) : (s.freeDraw ).rd f j = s.rd f j := (rfl)
@[simp] theorem State.freeDraw_on (s : State)  (f : Fld) (j : Nat) : (s.freeDraw ).on f j = s.on f j := (rfl)
@[simp] theorem State.freeDraw_regsOk (s : State)  : (s.freeDraw ).regsOk = s.regsOk := (rfl)

@[simp] theorem State.raise_raised (s : State) (n : Nat) : (s.raise n).host.raised = s.host.raised ++ [n] := (rfl)
@[simp] theorem State.emit_outputs (s : State) (o : Output) : (s.emit o).outputs = s.outputs ++ [o] := (rfl)
@[simp] theorem State.freeDraw_freeCtr (s : State) : s.freeDraw.freeCtr = s.freeCtr + 1 := (rfl)

@[simp] theorem State.raise_host (s : State) (n : Nat) : (s.raise n).host = { s.host with raised := s.host.raised ++ [n] } := (rfl)

/-- The FRC reaches a time it has not passed, and stays where it has (R458). -/
theorem State.advanceTo_frc (s : State) (t : Nat) (h : t < 2 ^ 80) : (s.advanceTo t).now = max s.now t := by
  unfold State.advanceTo
  split
  · show (BitVec.ofNat 80 t).toNat = _
    rw [BitVec.toNat_ofNat, Nat.mod_eq_of_lt h]
    omega
  · omega

/-- The FRC never runs back (R458). -/
theorem State.advanceTo_le (s : State) (t : Nat) : s.now ≤ (s.advanceTo t).now := by
  unfold State.advanceTo
  split
  · rename_i h
    show _ ≤ (BitVec.ofNat 80 t).toNat
    rw [BitVec.toNat_ofNat, Nat.mod_eq_of_lt h.2]
    exact Nat.le_of_lt h.1
  · exact Nat.le_refl _

@[simp] theorem State.advanceTo_pending (s : State) (t : Nat) : (s.advanceTo t).pending = s.pending := by unfold State.advanceTo; split <;> rfl
@[simp] theorem State.advanceTo_regs (s : State) (t : Nat) : (s.advanceTo t).regs = s.regs := by unfold State.advanceTo; split <;> rfl
@[simp] theorem State.advanceTo_time (s : State) (t : Nat) : (s.advanceTo t).time = s.time := by unfold State.advanceTo; split <;> rfl
@[simp] theorem State.advanceTo_host (s : State) (t : Nat) : (s.advanceTo t).host = s.host := by unfold State.advanceTo; split <;> rfl
@[simp] theorem State.advanceTo_tally (s : State) (t : Nat) : (s.advanceTo t).tally = s.tally := by unfold State.advanceTo; split <;> rfl
@[simp] theorem State.advanceTo_seam (s : State) (t : Nat) : (s.advanceTo t).seam = s.seam := by unfold State.advanceTo; split <;> rfl
@[simp] theorem State.advanceTo_pace (s : State) (t : Nat) : (s.advanceTo t).pace = s.pace := by unfold State.advanceTo; split <;> rfl
@[simp] theorem State.advanceTo_macs (s : State) (t : Nat) : (s.advanceTo t).macs = s.macs := by unfold State.advanceTo; split <;> rfl
@[simp] theorem State.advanceTo_insts (s : State) (t : Nat) : (s.advanceTo t).insts = s.insts := by unfold State.advanceTo; split <;> rfl
@[simp] theorem State.advanceTo_grps (s : State) (t : Nat) : (s.advanceTo t).grps = s.grps := by unfold State.advanceTo; split <;> rfl
@[simp] theorem State.advanceTo_pkts (s : State) (t : Nat) : (s.advanceTo t).pkts = s.pkts := by unfold State.advanceTo; split <;> rfl
@[simp] theorem State.advanceTo_nextPkt (s : State) (t : Nat) : (s.advanceTo t).nextPkt = s.nextPkt := by unfold State.advanceTo; split <;> rfl
@[simp] theorem State.advanceTo_ctxs (s : State) (t : Nat) : (s.advanceTo t).ctxs = s.ctxs := by unfold State.advanceTo; split <;> rfl
@[simp] theorem State.advanceTo_coat (s : State) (t : Nat) : (s.advanceTo t).coat = s.coat := by unfold State.advanceTo; split <;> rfl
@[simp] theorem State.advanceTo_policers (s : State) (t : Nat) : (s.advanceTo t).policers = s.policers := by unfold State.advanceTo; split <;> rfl
@[simp] theorem State.advanceTo_reasons (s : State) (t : Nat) : (s.advanceTo t).reasons = s.reasons := by unfold State.advanceTo; split <;> rfl
@[simp] theorem State.advanceTo_puntAgg (s : State) (t : Nat) : (s.advanceTo t).puntAgg = s.puntAgg := by unfold State.advanceTo; split <;> rfl
@[simp] theorem State.advanceTo_inflightA (s : State) (t : Nat) : (s.advanceTo t).inflightA = s.inflightA := by unfold State.advanceTo; split <;> rfl
@[simp] theorem State.advanceTo_inflightB (s : State) (t : Nat) : (s.advanceTo t).inflightB = s.inflightB := by unfold State.advanceTo; split <;> rfl
@[simp] theorem State.advanceTo_badWords (s : State) (t : Nat) : (s.advanceTo t).badWords = s.badWords := by unfold State.advanceTo; split <;> rfl
@[simp] theorem State.advanceTo_tables (s : State) (t : Nat) : (s.advanceTo t).tables = s.tables := by unfold State.advanceTo; split <;> rfl
@[simp] theorem State.advanceTo_easel (s : State) (t : Nat) : (s.advanceTo t).easel = s.easel := by unfold State.advanceTo; split <;> rfl
@[simp] theorem State.advanceTo_power (s : State) (t : Nat) : (s.advanceTo t).power = s.power := by unfold State.advanceTo; split <;> rfl
@[simp] theorem State.advanceTo_palette (s : State) (t : Nat) : (s.advanceTo t).palette = s.palette := by unfold State.advanceTo; split <;> rfl
@[simp] theorem State.advanceTo_sched (s : State) (t : Nat) : (s.advanceTo t).sched = s.sched := by unfold State.advanceTo; split <;> rfl
@[simp] theorem State.advanceTo_dram (s : State) (t : Nat) : (s.advanceTo t).dram = s.dram := by unfold State.advanceTo; split <;> rfl
@[simp] theorem State.advanceTo_fab (s : State) (t : Nat) : (s.advanceTo t).fab = s.fab := by unfold State.advanceTo; split <;> rfl
@[simp] theorem State.advanceTo_loom (s : State) (t : Nat) : (s.advanceTo t).loom = s.loom := by unfold State.advanceTo; split <;> rfl
@[simp] theorem State.advanceTo_emv (s : State) (t : Nat) : (s.advanceTo t).emv = s.emv := by unfold State.advanceTo; split <;> rfl
@[simp] theorem State.advanceTo_freeCtr (s : State) (t : Nat) : (s.advanceTo t).freeCtr = s.freeCtr := by unfold State.advanceTo; split <;> rfl
@[simp] theorem State.advanceTo_outputs (s : State) (t : Nat) : (s.advanceTo t).outputs = s.outputs := by unfold State.advanceTo; split <;> rfl
@[simp] theorem State.advanceTo_reg (s : State) (t : Nat) (r : Reg) (i : Nat) : (s.advanceTo t).reg r i = s.reg r i := by
  unfold State.advanceTo; split <;> rfl
@[simp] theorem State.advanceTo_rd (s : State) (t : Nat) (f : Fld) (i : Nat) : (s.advanceTo t).rd f i = s.rd f i := by
  unfold State.advanceTo; split <;> rfl
@[simp] theorem State.advanceTo_on (s : State) (t : Nat) (f : Fld) (i : Nat) : (s.advanceTo t).on f i = s.on f i := by
  unfold State.advanceTo; split <;> rfl
@[simp] theorem State.advanceTo_regsOk (s : State) (t : Nat) : (s.advanceTo t).regsOk = s.regsOk := by
  unfold State.advanceTo; split <;> rfl

end Sys2Proof.Machine
end

