-- ==== Sys2Proof/Laws/Fields.lean ====
section
/-!
SUPPORT. Which fields an operation leaves alone: a field written reads as written, and a field that shares no bit with it as before;
`State.onlyFields` collects the fields that a chain of writes may change.
-/
namespace Sys2Proof.Machine

/-- A field that shares no bit with a written one, or belongs to another entry, reads as before. -/
theorem State.rd_wr_apart (s : State) (f g : Fld) (i j v : Nat) (hg : g.fits = true)
    (ha : i = j → f.apart g = true) : (s.wr f i v).rd g j = s.rd g j := by
  by_cases hk : g.reg = f.reg ∧ j = i
  · obtain ⟨hr, rfl⟩ := hk
    have := ha rfl
    simp only [Fld.apart, hr, bne_self_eq_false, Bool.false_or, Bool.or_eq_true, decide_eq_true_eq] at this
    exact State.rd_wr_field s f g j v hr hg this
  · exact State.rd_wr_reg s f g i j v hk

theorem State.onlyFields_refl (l : List (Fld × Nat)) (s : State) : State.onlyFields l s s := fun _ _ _ _ => rfl

/-- One more field written. -/
theorem State.onlyFields_wr {l : List (Fld × Nat)} {s t : State} (h : State.onlyFields l s t) (f : Fld)
    (i v : Nat) (hm : (f, i) ∈ l) : State.onlyFields l s (t.wr f i v) := by
  intro g j hg hl
  rw [State.rd_wr_apart t f g i j v hg (fun e => hl (f, i) hm e)]
  exact h g j hg hl

/-- One more register written whole. -/
theorem State.onlyFields_setReg {l : List (Fld × Nat)} {s t : State} (h : State.onlyFields l s t) (r : Reg)
    (i : Nat) (v : BitVec 320) (hm : (⟨r, 0, 320⟩, i) ∈ l) : State.onlyFields l s (t.setReg r i v) := by
  intro g j hg hl
  rw [← h g j hg hl]
  by_cases hk : g.reg = r ∧ j = i
  · obtain ⟨rfl, rfl⟩ := hk
    have h1 := hl (⟨g.reg, 0, 320⟩, j) hm rfl
    have h2 : g.len = 0 := by
      simp [Fld.apart] at h1
      simp [Fld.fits] at hg
      omega
    simp [State.rd, bitsOf, h2, Nat.mod_one]
  · unfold State.rd
    rw [State.reg_setReg_other _ _ _ _ _ _ hk]

/-! ### Updates that touch no register change no field -/

theorem State.onlyFields_of_regs {l : List (Fld × Nat)} {s t u : State} (h : State.onlyFields l s t) (e : u.regs = t.regs) :
    State.onlyFields l s u := by
  intro g j hg hl
  rw [← h g j hg hl]
  unfold State.rd State.reg
  rw [e]

theorem State.onlyFields_withTime {l : List (Fld × Nat)} {s t : State} (h : State.onlyFields l s t) (x : Time) :
    State.onlyFields l s (t.withTime x) := h
theorem State.onlyFields_withHost {l : List (Fld × Nat)} {s t : State} (h : State.onlyFields l s t) (x : HostIf) :
    State.onlyFields l s (t.withHost x) := h
theorem State.onlyFields_withTally {l : List (Fld × Nat)} {s t : State} (h : State.onlyFields l s t) (x : Tally) :
    State.onlyFields l s (t.withTally x) := h
theorem State.onlyFields_withSeam {l : List (Fld × Nat)} {s t : State} (h : State.onlyFields l s t) (x : Seam) :
    State.onlyFields l s (t.withSeam x) := h
theorem State.onlyFields_withPace {l : List (Fld × Nat)} {s t : State} (h : State.onlyFields l s t) (x : Pace) :
    State.onlyFields l s (t.withPace x) := h
theorem State.onlyFields_withMacs {l : List (Fld × Nat)} {s t : State} (h : State.onlyFields l s t) (x : Sparse Mac) :
    State.onlyFields l s (t.withMacs x) := h
theorem State.onlyFields_withInsts {l : List (Fld × Nat)} {s t : State} (h : State.onlyFields l s t) (x : Sparse Inst) :
    State.onlyFields l s (t.withInsts x) := h
theorem State.onlyFields_withGrps {l : List (Fld × Nat)} {s t : State} (h : State.onlyFields l s t) (x : Sparse Grp) :
    State.onlyFields l s (t.withGrps x) := h
theorem State.onlyFields_withPkts {l : List (Fld × Nat)} {s t : State} (h : State.onlyFields l s t) (x : Sparse (Option Pkt)) :
    State.onlyFields l s (t.withPkts x) := h
theorem State.onlyFields_withNextPkt {l : List (Fld × Nat)} {s t : State} (h : State.onlyFields l s t) (x : Nat) :
    State.onlyFields l s (t.withNextPkt x) := h
theorem State.onlyFields_withCtxs {l : List (Fld × Nat)} {s t : State} (h : State.onlyFields l s t) (x : Sparse (Option Ctx)) :
    State.onlyFields l s (t.withCtxs x) := h
theorem State.onlyFields_withCoat {l : List (Fld × Nat)} {s t : State} (h : State.onlyFields l s t) (x : Coat) :
    State.onlyFields l s (t.withCoat x) := h
theorem State.onlyFields_withPolicers {l : List (Fld × Nat)} {s t : State} (h : State.onlyFields l s t) (x : Sparse (Option Bucket)) :
    State.onlyFields l s (t.withPolicers x) := h
theorem State.onlyFields_withReasons {l : List (Fld × Nat)} {s t : State} (h : State.onlyFields l s t) (x : Sparse (Option Bucket)) :
    State.onlyFields l s (t.withReasons x) := h
theorem State.onlyFields_withPuntAgg {l : List (Fld × Nat)} {s t : State} (h : State.onlyFields l s t) (x : Option Bucket) :
    State.onlyFields l s (t.withPuntAgg x) := h
theorem State.onlyFields_withInflightA {l : List (Fld × Nat)} {s t : State} (h : State.onlyFields l s t) (x : Nat) :
    State.onlyFields l s (t.withInflightA x) := h
theorem State.onlyFields_withInflightB {l : List (Fld × Nat)} {s t : State} (h : State.onlyFields l s t) (x : Nat) :
    State.onlyFields l s (t.withInflightB x) := h
theorem State.onlyFields_withBadWords {l : List (Fld × Nat)} {s t : State} (h : State.onlyFields l s t) (x : BadWords) :
    State.onlyFields l s (t.withBadWords x) := h
theorem State.onlyFields_withTables {l : List (Fld × Nat)} {s t : State} (h : State.onlyFields l s t) (x : Tables) :
    State.onlyFields l s (t.withTables x) := h
theorem State.onlyFields_withEasel {l : List (Fld × Nat)} {s t : State} (h : State.onlyFields l s t) (x : Easel) :
    State.onlyFields l s (t.withEasel x) := h
theorem State.onlyFields_withPower {l : List (Fld × Nat)} {s t : State} (h : State.onlyFields l s t) (x : Power) :
    State.onlyFields l s (t.withPower x) := h
theorem State.onlyFields_withPalette {l : List (Fld × Nat)} {s t : State} (h : State.onlyFields l s t) (x : Palette) :
    State.onlyFields l s (t.withPalette x) := h
theorem State.onlyFields_withSched {l : List (Fld × Nat)} {s t : State} (h : State.onlyFields l s t) (x : Sched) :
    State.onlyFields l s (t.withSched x) := h
theorem State.onlyFields_withDram {l : List (Fld × Nat)} {s t : State} (h : State.onlyFields l s t) (x : Dram) :
    State.onlyFields l s (t.withDram x) := h
theorem State.onlyFields_withFab {l : List (Fld × Nat)} {s t : State} (h : State.onlyFields l s t) (x : Fab) :
    State.onlyFields l s (t.withFab x) := h
theorem State.onlyFields_withLoom {l : List (Fld × Nat)} {s t : State} (h : State.onlyFields l s t) (x : Loom) :
    State.onlyFields l s (t.withLoom x) := h
theorem State.onlyFields_withEmv {l : List (Fld × Nat)} {s t : State} (h : State.onlyFields l s t) (x : Emv) :
    State.onlyFields l s (t.withEmv x) := h
theorem State.onlyFields_withFreeCtr {l : List (Fld × Nat)} {s t : State} (h : State.onlyFields l s t) (x : Nat) :
    State.onlyFields l s (t.withFreeCtr x) := h
theorem State.onlyFields_withOutputs {l : List (Fld × Nat)} {s t : State} (h : State.onlyFields l s t) (x : List Output) :
    State.onlyFields l s (t.withOutputs x) := h
theorem State.onlyFields_withFrc {l : List (Fld × Nat)} {s t : State} (h : State.onlyFields l s t) (x : BitVec 80) :
    State.onlyFields l s (t.withFrc x) := h
theorem State.onlyFields_raise {l : List (Fld × Nat)} {s t : State} (h : State.onlyFields l s t) (n : Nat) :
    State.onlyFields l s (t.raise n) := h
theorem State.onlyFields_emit {l : List (Fld × Nat)} {s t : State} (h : State.onlyFields l s t) (o : Output) :
    State.onlyFields l s (t.emit o) := h
theorem State.onlyFields_freeDraw {l : List (Fld × Nat)} {s t : State} (h : State.onlyFields l s t) :
    State.onlyFields l s (t.freeDraw) := h
theorem State.onlyFields_advanceTo {l : List (Fld × Nat)} {s t : State} (h : State.onlyFields l s t) (x : Nat) :
    State.onlyFields l s (t.advanceTo x) := State.onlyFields_of_regs h (State.advanceTo_regs t x)
theorem State.onlyFields_setCause {l : List (Fld × Nat)} {s t : State} (h : State.onlyFields l s t) (f : Fld)
    (i n : Nat) (hm : (f, i) ∈ l) : State.onlyFields l s (t.setCause f i n) := State.onlyFields_wr h f i 1 hm

/-- Fewer fields are fields of a longer list. -/
theorem State.onlyFields_mono {l m : List (Fld × Nat)} {s t : State} (h : State.onlyFields l s t) (hs : ∀ e ∈ l, e ∈ m) :
    State.onlyFields m s t := fun g j hg hl => h g j hg (fun e he => hl e (hs e he))

theorem State.onlyFields_trans {l : List (Fld × Nat)} {s t u : State} (h : State.onlyFields l s t) (k : State.onlyFields l t u) :
    State.onlyFields l s u := fun g j hg hl => (k g j hg hl).trans (h g j hg hl)

end Sys2Proof.Machine
end

