-- ==== Sys2Proof/Laws/Keeps.lean ====
section
/-!
SUPPORT. What no operation of the block does: none touches the queue of waiting commands, and none spoils the canonical form of the
register space. `Keeps` says both at once, so that one lemma per operation serves every invariant built on them.
-/
namespace Sys2Proof.Machine

/-- The queue is untouched, the register space keeps its canonical form, nothing sent out is taken back, and no free value is drawn
again. -/
def Keeps (s t : State) : Prop :=
  t.pending = s.pending ∧ (s.regsOk = true → t.regsOk = true) ∧ (∃ l, t.outputs = s.outputs ++ l) ∧ s.freeCtr ≤ t.freeCtr

/-- The same of what a command answers: it answers a next state, and that state keeps both. -/
def KeepsR (s : State) (o : Result) : Prop := ∃ t, o = .next t ∧ Keeps s t

theorem Keeps.refl (s : State) : Keeps s s := ⟨rfl, id, ⟨[], (List.append_nil _).symm⟩, Nat.le_refl _⟩

theorem Keeps.trans {s t u : State} (h : Keeps s t) (k : Keeps t u) : Keeps s u := by
  obtain ⟨h1, h2, ⟨l, h3⟩, h4⟩ := h
  obtain ⟨k1, k2, ⟨m, k3⟩, k4⟩ := k
  exact ⟨k1.trans h1, fun x => k2 (h2 x), ⟨l ++ m, by rw [k3, h3, List.append_assoc]⟩, Nat.le_trans h4 k4⟩

/-- An update of anything but the queue, the register space, the record of outputs and the count of free values. -/
theorem Keeps.of_eq {s t : State} (h1 : t.pending = s.pending) (h2 : t.regs = s.regs) (h3 : t.outputs = s.outputs)
    (h4 : t.freeCtr = s.freeCtr) : Keeps s t :=
  ⟨h1, fun h => by unfold State.regsOk at *; rw [h2]; exact h, ⟨[], by rw [h3, List.append_nil]⟩, Nat.le_of_eq h4.symm⟩

/-- The state of a pair that an operation answered. -/
theorem Keeps.of_pair {α : Type} {s e t : State} {p : State × α} {x : α} (h : Keeps e p.1) (hp : p = (t, x)) (hs : Keeps s e) :
    Keeps s t := by
  subst hp; exact hs.trans h

theorem Keeps.foldl {α : Type} {s e : State} {f : State → α → State} {l : List α} (he : Keeps s e)
    (h : ∀ u x, Keeps u (f u x)) : Keeps s (l.foldl f e) := by
  induction l generalizing e with
  | nil => exact he
  | cons a l ih => exact ih (he.trans (h e a))

/-- A fold over pairs whose first part is a state. -/
theorem Keeps.foldl_pair {α β : Type} {f : State × β → α → State × β} {l : List α} (h : ∀ p x, Keeps p.1 (f p x).1) (p : State × β) :
    Keeps p.1 (l.foldl f p).1 := by
  induction l generalizing p with
  | nil => exact Keeps.refl _
  | cons a l ih => exact (h p a).trans (ih _)

theorem Keeps.ite {s a b : State} {c : Prop} [Decidable c] (ha : Keeps s a) (hb : Keeps s b) : Keeps s (if c then a else b) := by
  by_cases h : c <;> simp [h, ha, hb]

theorem Keeps.ite1 {α : Type} {s : State} {a b : State × α} {c : Prop} [Decidable c] (ha : Keeps s a.1) (hb : Keeps s b.1) :
    Keeps s (if c then a else b).1 := by
  by_cases h : c <;> simp [h, ha, hb]

theorem KeepsR.ite {s : State} {a b : Result} {c : Prop} [Decidable c] (ha : KeepsR s a) (hb : KeepsR s b) :
    KeepsR s (if c then a else b) := by
  by_cases h : c <;> simp [h, ha, hb]

theorem KeepsR.next {s t : State} (h : Keeps s t) : KeepsR s (.next t) := ⟨t, rfl, h⟩

theorem KeepsR.trans {s e : State} {o : Result} (h : Keeps s e) (k : KeepsR e o) : KeepsR s o := by
  obtain ⟨t, rfl, ht⟩ := k
  exact ⟨t, rfl, h.trans ht⟩

end Sys2Proof.Machine
end

