-- ==== Sys2Proof/Laws/Frame.lean ====
section
/-!
SUPPORT. How a frame is kept: each setter and each operation that writes one part or one field keeps a frame that lists it.
-/
namespace Sys2Proof.Machine

variable {l : List Part} {m : List (Fld × Nat)} {s t u : State}

theorem State.frame_refl (l : List Part) (m : List (Fld × Nat)) (s : State) : State.frame l m s s :=
  ⟨fun p _ => by cases p <;> rfl, State.onlyFields_refl m s⟩

theorem State.frame_trans (h : State.frame l m s t) (k : State.frame l m t u) : State.frame l m s u :=
  ⟨fun p hp => by have a := h.1 p hp; have b := k.1 p hp; cases p <;> exact b.trans a, State.onlyFields_trans h.2 k.2⟩

/-- A longer frame. -/
theorem State.frame_mono {l' : List Part} {m' : List (Fld × Nat)} (h : State.frame l m s t) (hl : ∀ p ∈ l, p ∈ l') (hm : ∀ e ∈ m, e ∈ m') :
    State.frame l' m' s t := ⟨fun p hp => h.1 p (fun q => hp (hl p q)), State.onlyFields_mono h.2 hm⟩

theorem State.frame_ite {p : Prop} [Decidable p] (h : p → State.frame l m s t) (k : ¬ p → State.frame l m s u) :
    State.frame l m s (if p then t else u) := by
  split
  · exact h ‹_›
  · exact k ‹_›

/-- A frame that a step of a fold keeps, the fold keeps. -/
theorem State.frame_foldl {α : Type} (f : State → α → State) (xs : List α) (hf : ∀ t a, a ∈ xs → State.frame l m t (f t a)) (t : State)
    (h : State.frame l m s t) : State.frame l m s (xs.foldl f t) := by
  induction xs generalizing t with
  | nil => exact h
  | cons a xs ih =>
    exact ih (fun t b hb => hf t b (List.mem_cons_of_mem _ hb)) _ (State.frame_trans h (hf t a List.mem_cons_self))

theorem State.frame_wr (h : State.frame l m s t) (f : Fld) (i v : Nat) (hm : (f, i) ∈ m) :
    State.frame l m s (t.wr f i v) := ⟨h.1, State.onlyFields_wr h.2 f i v hm⟩

theorem State.frame_wrBit (h : State.frame l m s t) (f : Fld) (i : Nat) (b : Bool) (hm : (f, i) ∈ m) :
    State.frame l m s (t.wrBit f i b) := State.frame_wr h f i _ hm

theorem State.frame_incWrap (h : State.frame l m s t) (f : Fld) (i n : Nat) (hm : (f, i) ∈ m) :
    State.frame l m s (t.incWrap f i n) := State.frame_wr h f i _ hm

theorem State.frame_incSat (h : State.frame l m s t) (f : Fld) (i n : Nat) (hm : (f, i) ∈ m) :
    State.frame l m s (t.incSat f i n) := State.frame_wr h f i _ hm

theorem State.frame_setReg (h : State.frame l m s t) (r : Reg) (i : Nat) (v : BitVec 320)
    (hm : (⟨r, 0, 320⟩, i) ∈ m) : State.frame l m s (t.setReg r i v) := ⟨h.1, State.onlyFields_setReg h.2 r i v hm⟩

theorem State.frame_setCause (h : State.frame l m s t) (f : Fld) (i n : Nat) (hm : (f, i) ∈ m)
    (hp : .host ∈ l) : State.frame l m s (t.setCause f i n) :=
  ⟨fun p hp' => by have := h.1 p hp'; cases p <;> first | exact this | exact absurd hp hp', State.onlyFields_setCause h.2 f i n hm⟩

theorem State.frame_raise (h : State.frame l m s t) (n : Nat) (hp : .host ∈ l) : State.frame l m s (t.raise n) :=
  ⟨fun p hp' => by have := h.1 p hp'; cases p <;> first | exact this | exact absurd hp hp', State.onlyFields_raise h.2 n⟩

theorem State.frame_emit (h : State.frame l m s t) (o : Output) (hp : .outputs ∈ l) : State.frame l m s (t.emit o) :=
  ⟨fun p hp' => by have := h.1 p hp'; cases p <;> first | exact this | exact absurd hp hp', State.onlyFields_emit h.2 o⟩

theorem State.frame_freeDraw (h : State.frame l m s t) (hp : .freeCtr ∈ l) : State.frame l m s t.freeDraw :=
  ⟨fun p hp' => by have := h.1 p hp'; cases p <;> first | exact this | exact absurd hp hp', State.onlyFields_freeDraw h.2⟩

theorem State.frame_advanceTo (h : State.frame l m s t) (x : Nat) (hp : .frc ∈ l) : State.frame l m s (t.advanceTo x) := by
  unfold State.advanceTo
  split
  · exact ⟨fun p hp' => by have := h.1 p hp'; cases p <;> first | exact this | exact absurd hp hp', State.onlyFields_of_regs h.2 rfl⟩
  · exact h

theorem State.frame_withFrc (h : State.frame l m s t) (x) (hp : .frc ∈ l) : State.frame l m s (t.withFrc x) :=
  ⟨fun p hp' => by have := h.1 p hp'; cases p <;> first | exact this | exact absurd hp hp', State.onlyFields_of_regs h.2 rfl⟩

theorem State.frame_withTime (h : State.frame l m s t) (x) (hp : .time ∈ l) : State.frame l m s (t.withTime x) :=
  ⟨fun p hp' => by have := h.1 p hp'; cases p <;> first | exact this | exact absurd hp hp', State.onlyFields_of_regs h.2 rfl⟩

theorem State.frame_withHost (h : State.frame l m s t) (x) (hp : .host ∈ l) : State.frame l m s (t.withHost x) :=
  ⟨fun p hp' => by have := h.1 p hp'; cases p <;> first | exact this | exact absurd hp hp', State.onlyFields_of_regs h.2 rfl⟩

theorem State.frame_withTally (h : State.frame l m s t) (x) (hp : .tally ∈ l) : State.frame l m s (t.withTally x) :=
  ⟨fun p hp' => by have := h.1 p hp'; cases p <;> first | exact this | exact absurd hp hp', State.onlyFields_of_regs h.2 rfl⟩

theorem State.frame_withSeam (h : State.frame l m s t) (x) (hp : .seam ∈ l) : State.frame l m s (t.withSeam x) :=
  ⟨fun p hp' => by have := h.1 p hp'; cases p <;> first | exact this | exact absurd hp hp', State.onlyFields_of_regs h.2 rfl⟩

theorem State.frame_withPace (h : State.frame l m s t) (x) (hp : .pace ∈ l) : State.frame l m s (t.withPace x) :=
  ⟨fun p hp' => by have := h.1 p hp'; cases p <;> first | exact this | exact absurd hp hp', State.onlyFields_of_regs h.2 rfl⟩

theorem State.frame_withMacs (h : State.frame l m s t) (x) (hp : .macs ∈ l) : State.frame l m s (t.withMacs x) :=
  ⟨fun p hp' => by have := h.1 p hp'; cases p <;> first | exact this | exact absurd hp hp', State.onlyFields_of_regs h.2 rfl⟩

theorem State.frame_withInsts (h : State.frame l m s t) (x) (hp : .insts ∈ l) : State.frame l m s (t.withInsts x) :=
  ⟨fun p hp' => by have := h.1 p hp'; cases p <;> first | exact this | exact absurd hp hp', State.onlyFields_of_regs h.2 rfl⟩

theorem State.frame_withGrps (h : State.frame l m s t) (x) (hp : .grps ∈ l) : State.frame l m s (t.withGrps x) :=
  ⟨fun p hp' => by have := h.1 p hp'; cases p <;> first | exact this | exact absurd hp hp', State.onlyFields_of_regs h.2 rfl⟩

theorem State.frame_withPkts (h : State.frame l m s t) (x) (hp : .pkts ∈ l) : State.frame l m s (t.withPkts x) :=
  ⟨fun p hp' => by have := h.1 p hp'; cases p <;> first | exact this | exact absurd hp hp', State.onlyFields_of_regs h.2 rfl⟩

theorem State.frame_withNextPkt (h : State.frame l m s t) (x) (hp : .nextPkt ∈ l) : State.frame l m s (t.withNextPkt x) :=
  ⟨fun p hp' => by have := h.1 p hp'; cases p <;> first | exact this | exact absurd hp hp', State.onlyFields_of_regs h.2 rfl⟩

theorem State.frame_withCtxs (h : State.frame l m s t) (x) (hp : .ctxs ∈ l) : State.frame l m s (t.withCtxs x) :=
  ⟨fun p hp' => by have := h.1 p hp'; cases p <;> first | exact this | exact absurd hp hp', State.onlyFields_of_regs h.2 rfl⟩

theorem State.frame_withCoat (h : State.frame l m s t) (x) (hp : .coat ∈ l) : State.frame l m s (t.withCoat x) :=
  ⟨fun p hp' => by have := h.1 p hp'; cases p <;> first | exact this | exact absurd hp hp', State.onlyFields_of_regs h.2 rfl⟩

theorem State.frame_withPolicers (h : State.frame l m s t) (x) (hp : .policers ∈ l) : State.frame l m s (t.withPolicers x) :=
  ⟨fun p hp' => by have := h.1 p hp'; cases p <;> first | exact this | exact absurd hp hp', State.onlyFields_of_regs h.2 rfl⟩

theorem State.frame_withReasons (h : State.frame l m s t) (x) (hp : .reasons ∈ l) : State.frame l m s (t.withReasons x) :=
  ⟨fun p hp' => by have := h.1 p hp'; cases p <;> first | exact this | exact absurd hp hp', State.onlyFields_of_regs h.2 rfl⟩

theorem State.frame_withPuntAgg (h : State.frame l m s t) (x) (hp : .puntAgg ∈ l) : State.frame l m s (t.withPuntAgg x) :=
  ⟨fun p hp' => by have := h.1 p hp'; cases p <;> first | exact this | exact absurd hp hp', State.onlyFields_of_regs h.2 rfl⟩

theorem State.frame_withInflightA (h : State.frame l m s t) (x) (hp : .inflightA ∈ l) : State.frame l m s (t.withInflightA x) :=
  ⟨fun p hp' => by have := h.1 p hp'; cases p <;> first | exact this | exact absurd hp hp', State.onlyFields_of_regs h.2 rfl⟩

theorem State.frame_withInflightB (h : State.frame l m s t) (x) (hp : .inflightB ∈ l) : State.frame l m s (t.withInflightB x) :=
  ⟨fun p hp' => by have := h.1 p hp'; cases p <;> first | exact this | exact absurd hp hp', State.onlyFields_of_regs h.2 rfl⟩

theorem State.frame_withBadWords (h : State.frame l m s t) (x) (hp : .badWords ∈ l) : State.frame l m s (t.withBadWords x) :=
  ⟨fun p hp' => by have := h.1 p hp'; cases p <;> first | exact this | exact absurd hp hp', State.onlyFields_of_regs h.2 rfl⟩

theorem State.frame_withTables (h : State.frame l m s t) (x) (hp : .tables ∈ l) : State.frame l m s (t.withTables x) :=
  ⟨fun p hp' => by have := h.1 p hp'; cases p <;> first | exact this | exact absurd hp hp', State.onlyFields_of_regs h.2 rfl⟩

theorem State.frame_withEasel (h : State.frame l m s t) (x) (hp : .easel ∈ l) : State.frame l m s (t.withEasel x) :=
  ⟨fun p hp' => by have := h.1 p hp'; cases p <;> first | exact this | exact absurd hp hp', State.onlyFields_of_regs h.2 rfl⟩

theorem State.frame_withPower (h : State.frame l m s t) (x) (hp : .power ∈ l) : State.frame l m s (t.withPower x) :=
  ⟨fun p hp' => by have := h.1 p hp'; cases p <;> first | exact this | exact absurd hp hp', State.onlyFields_of_regs h.2 rfl⟩

theorem State.frame_withPalette (h : State.frame l m s t) (x) (hp : .palette ∈ l) : State.frame l m s (t.withPalette x) :=
  ⟨fun p hp' => by have := h.1 p hp'; cases p <;> first | exact this | exact absurd hp hp', State.onlyFields_of_regs h.2 rfl⟩

theorem State.frame_withSched (h : State.frame l m s t) (x) (hp : .sched ∈ l) : State.frame l m s (t.withSched x) :=
  ⟨fun p hp' => by have := h.1 p hp'; cases p <;> first | exact this | exact absurd hp hp', State.onlyFields_of_regs h.2 rfl⟩

theorem State.frame_withDram (h : State.frame l m s t) (x) (hp : .dram ∈ l) : State.frame l m s (t.withDram x) :=
  ⟨fun p hp' => by have := h.1 p hp'; cases p <;> first | exact this | exact absurd hp hp', State.onlyFields_of_regs h.2 rfl⟩

theorem State.frame_withFab (h : State.frame l m s t) (x) (hp : .fab ∈ l) : State.frame l m s (t.withFab x) :=
  ⟨fun p hp' => by have := h.1 p hp'; cases p <;> first | exact this | exact absurd hp hp', State.onlyFields_of_regs h.2 rfl⟩

theorem State.frame_withLoom (h : State.frame l m s t) (x) (hp : .loom ∈ l) : State.frame l m s (t.withLoom x) :=
  ⟨fun p hp' => by have := h.1 p hp'; cases p <;> first | exact this | exact absurd hp hp', State.onlyFields_of_regs h.2 rfl⟩

theorem State.frame_withEmv (h : State.frame l m s t) (x) (hp : .emv ∈ l) : State.frame l m s (t.withEmv x) :=
  ⟨fun p hp' => by have := h.1 p hp'; cases p <;> first | exact this | exact absurd hp hp', State.onlyFields_of_regs h.2 rfl⟩

theorem State.frame_withFreeCtr (h : State.frame l m s t) (x) (hp : .freeCtr ∈ l) : State.frame l m s (t.withFreeCtr x) :=
  ⟨fun p hp' => by have := h.1 p hp'; cases p <;> first | exact this | exact absurd hp hp', State.onlyFields_of_regs h.2 rfl⟩

theorem State.frame_withOutputs (h : State.frame l m s t) (x) (hp : .outputs ∈ l) : State.frame l m s (t.withOutputs x) :=
  ⟨fun p hp' => by have := h.1 p hp'; cases p <;> first | exact this | exact absurd hp hp', State.onlyFields_of_regs h.2 rfl⟩

/-! ### The coarser frame, by whole registers -/

variable {k : List Reg}

theorem State.touches_refl (l : List Part) (k : List Reg) (s : State) : State.touches l k s s :=
  ⟨(State.frame_refl l [] s).1, fun _ _ _ => rfl⟩

theorem State.touches_trans (h : State.touches l k s t) (h' : State.touches l k t u) : State.touches l k s u :=
  ⟨fun p hp => by have a := h.1 p hp; have b := h'.1 p hp; cases p <;> exact b.trans a,
    fun r i hr => (h'.2 r i hr).trans (h.2 r i hr)⟩

theorem State.touches_mono {l' : List Part} {k' : List Reg} (h : State.touches l k s t) (hl : ∀ p ∈ l, p ∈ l') (hk : ∀ r ∈ k, r ∈ k') :
    State.touches l' k' s t := ⟨fun p hp => h.1 p (fun q => hp (hl p q)), fun r i hr => h.2 r i (fun q => hr (hk r q))⟩

theorem State.touches_ite {p : Prop} [Decidable p] (h : p → State.touches l k s t) (h' : ¬ p → State.touches l k s u) :
    State.touches l k s (if p then t else u) := by
  split
  · exact h ‹_›
  · exact h' ‹_›

theorem State.touches_foldl {α : Type} (f : State → α → State) (xs : List α)
    (hf : ∀ t a, a ∈ xs → State.touches l k t (f t a)) (t : State) (h : State.touches l k s t) :
    State.touches l k s (xs.foldl f t) := by
  induction xs generalizing t with
  | nil => exact h
  | cons a xs ih =>
    exact ih (fun t b hb => hf t b (List.mem_cons_of_mem _ hb)) _ (State.touches_trans h (hf t a List.mem_cons_self))

theorem State.touches_setReg (h : State.touches l k s t) (r : Reg) (i : Nat) (v : BitVec 320) (hm : r ∈ k) :
    State.touches l k s (t.setReg r i v) :=
  ⟨h.1, fun q j hq => by
    rw [← h.2 q j hq]
    exact State.reg_setReg_other t r q i j v (fun e => hq (e.1 ▸ hm))⟩

theorem State.touches_wr (h : State.touches l k s t) (f : Fld) (i v : Nat) (hm : f.reg ∈ k) :
    State.touches l k s (t.wr f i v) := State.touches_setReg h _ _ _ hm

theorem State.touches_wrBit (h : State.touches l k s t) (f : Fld) (i : Nat) (b : Bool) (hm : f.reg ∈ k) :
    State.touches l k s (t.wrBit f i b) := State.touches_wr h f i _ hm

theorem State.touches_incWrap (h : State.touches l k s t) (f : Fld) (i n : Nat) (hm : f.reg ∈ k) :
    State.touches l k s (t.incWrap f i n) := State.touches_wr h f i _ hm

theorem State.touches_incSat (h : State.touches l k s t) (f : Fld) (i n : Nat) (hm : f.reg ∈ k) :
    State.touches l k s (t.incSat f i n) := State.touches_wr h f i _ hm

theorem State.touches_of_parts (h : State.touches l k s t) (hr : u.regs = t.regs) (hp : State.onlyParts l t u) :
    State.touches l k s u :=
  ⟨fun p hn => by have a := h.1 p hn; have b := hp p hn; cases p <;> exact b.trans a,
    fun r i hk => by rw [← h.2 r i hk]; unfold State.reg; rw [hr]⟩

theorem State.touches_raise (h : State.touches l k s t) (n : Nat) (hp : .host ∈ l) : State.touches l k s (t.raise n) :=
  State.touches_of_parts h rfl (State.frame_raise (State.frame_refl l [] t) n hp).1

theorem State.touches_setCause (h : State.touches l k s t) (f : Fld) (i n : Nat) (hm : f.reg ∈ k)
    (hp : .host ∈ l) : State.touches l k s (t.setCause f i n) := State.touches_raise (State.touches_wr h f i 1 hm) n hp

theorem State.touches_emit (h : State.touches l k s t) (o : Output) (hp : .outputs ∈ l) : State.touches l k s (t.emit o) :=
  State.touches_of_parts h rfl (State.frame_emit (State.frame_refl l [] t) o hp).1

theorem State.touches_freeDraw (h : State.touches l k s t) (hp : .freeCtr ∈ l) : State.touches l k s t.freeDraw :=
  State.touches_of_parts h rfl (State.frame_freeDraw (State.frame_refl l [] t) hp).1

theorem State.touches_advanceTo (h : State.touches l k s t) (x : Nat) (hp : .frc ∈ l) : State.touches l k s (t.advanceTo x) :=
  State.touches_of_parts h (State.advanceTo_regs t x) (State.frame_advanceTo (State.frame_refl l [] t) x hp).1

theorem State.touches_withFrc (h : State.touches l k s t) (x) (hp : .frc ∈ l) : State.touches l k s (t.withFrc x) :=
  State.touches_of_parts h rfl (State.frame_withFrc (State.frame_refl l [] t) x hp).1

theorem State.touches_withTime (h : State.touches l k s t) (x) (hp : .time ∈ l) : State.touches l k s (t.withTime x) :=
  State.touches_of_parts h rfl (State.frame_withTime (State.frame_refl l [] t) x hp).1

theorem State.touches_withHost (h : State.touches l k s t) (x) (hp : .host ∈ l) : State.touches l k s (t.withHost x) :=
  State.touches_of_parts h rfl (State.frame_withHost (State.frame_refl l [] t) x hp).1

theorem State.touches_withTally (h : State.touches l k s t) (x) (hp : .tally ∈ l) : State.touches l k s (t.withTally x) :=
  State.touches_of_parts h rfl (State.frame_withTally (State.frame_refl l [] t) x hp).1

theorem State.touches_withSeam (h : State.touches l k s t) (x) (hp : .seam ∈ l) : State.touches l k s (t.withSeam x) :=
  State.touches_of_parts h rfl (State.frame_withSeam (State.frame_refl l [] t) x hp).1

theorem State.touches_withPace (h : State.touches l k s t) (x) (hp : .pace ∈ l) : State.touches l k s (t.withPace x) :=
  State.touches_of_parts h rfl (State.frame_withPace (State.frame_refl l [] t) x hp).1

theorem State.touches_withMacs (h : State.touches l k s t) (x) (hp : .macs ∈ l) : State.touches l k s (t.withMacs x) :=
  State.touches_of_parts h rfl (State.frame_withMacs (State.frame_refl l [] t) x hp).1

theorem State.touches_withInsts (h : State.touches l k s t) (x) (hp : .insts ∈ l) : State.touches l k s (t.withInsts x) :=
  State.touches_of_parts h rfl (State.frame_withInsts (State.frame_refl l [] t) x hp).1

theorem State.touches_withGrps (h : State.touches l k s t) (x) (hp : .grps ∈ l) : State.touches l k s (t.withGrps x) :=
  State.touches_of_parts h rfl (State.frame_withGrps (State.frame_refl l [] t) x hp).1

theorem State.touches_withPkts (h : State.touches l k s t) (x) (hp : .pkts ∈ l) : State.touches l k s (t.withPkts x) :=
  State.touches_of_parts h rfl (State.frame_withPkts (State.frame_refl l [] t) x hp).1

theorem State.touches_withNextPkt (h : State.touches l k s t) (x) (hp : .nextPkt ∈ l) : State.touches l k s (t.withNextPkt x) :=
  State.touches_of_parts h rfl (State.frame_withNextPkt (State.frame_refl l [] t) x hp).1

theorem State.touches_withCtxs (h : State.touches l k s t) (x) (hp : .ctxs ∈ l) : State.touches l k s (t.withCtxs x) :=
  State.touches_of_parts h rfl (State.frame_withCtxs (State.frame_refl l [] t) x hp).1

theorem State.touches_withCoat (h : State.touches l k s t) (x) (hp : .coat ∈ l) : State.touches l k s (t.withCoat x) :=
  State.touches_of_parts h rfl (State.frame_withCoat (State.frame_refl l [] t) x hp).1

theorem State.touches_withPolicers (h : State.touches l k s t) (x) (hp : .policers ∈ l) : State.touches l k s (t.withPolicers x) :=
  State.touches_of_parts h rfl (State.frame_withPolicers (State.frame_refl l [] t) x hp).1

theorem State.touches_withReasons (h : State.touches l k s t) (x) (hp : .reasons ∈ l) : State.touches l k s (t.withReasons x) :=
  State.touches_of_parts h rfl (State.frame_withReasons (State.frame_refl l [] t) x hp).1

theorem State.touches_withPuntAgg (h : State.touches l k s t) (x) (hp : .puntAgg ∈ l) : State.touches l k s (t.withPuntAgg x) :=
  State.touches_of_parts h rfl (State.frame_withPuntAgg (State.frame_refl l [] t) x hp).1

theorem State.touches_withInflightA (h : State.touches l k s t) (x) (hp : .inflightA ∈ l) : State.touches l k s (t.withInflightA x) :=
  State.touches_of_parts h rfl (State.frame_withInflightA (State.frame_refl l [] t) x hp).1

theorem State.touches_withInflightB (h : State.touches l k s t) (x) (hp : .inflightB ∈ l) : State.touches l k s (t.withInflightB x) :=
  State.touches_of_parts h rfl (State.frame_withInflightB (State.frame_refl l [] t) x hp).1

theorem State.touches_withBadWords (h : State.touches l k s t) (x) (hp : .badWords ∈ l) : State.touches l k s (t.withBadWords x) :=
  State.touches_of_parts h rfl (State.frame_withBadWords (State.frame_refl l [] t) x hp).1

theorem State.touches_withTables (h : State.touches l k s t) (x) (hp : .tables ∈ l) : State.touches l k s (t.withTables x) :=
  State.touches_of_parts h rfl (State.frame_withTables (State.frame_refl l [] t) x hp).1

theorem State.touches_withEasel (h : State.touches l k s t) (x) (hp : .easel ∈ l) : State.touches l k s (t.withEasel x) :=
  State.touches_of_parts h rfl (State.frame_withEasel (State.frame_refl l [] t) x hp).1

theorem State.touches_withPower (h : State.touches l k s t) (x) (hp : .power ∈ l) : State.touches l k s (t.withPower x) :=
  State.touches_of_parts h rfl (State.frame_withPower (State.frame_refl l [] t) x hp).1

theorem State.touches_withPalette (h : State.touches l k s t) (x) (hp : .palette ∈ l) : State.touches l k s (t.withPalette x) :=
  State.touches_of_parts h rfl (State.frame_withPalette (State.frame_refl l [] t) x hp).1

theorem State.touches_withSched (h : State.touches l k s t) (x) (hp : .sched ∈ l) : State.touches l k s (t.withSched x) :=
  State.touches_of_parts h rfl (State.frame_withSched (State.frame_refl l [] t) x hp).1

theorem State.touches_withDram (h : State.touches l k s t) (x) (hp : .dram ∈ l) : State.touches l k s (t.withDram x) :=
  State.touches_of_parts h rfl (State.frame_withDram (State.frame_refl l [] t) x hp).1

theorem State.touches_withFab (h : State.touches l k s t) (x) (hp : .fab ∈ l) : State.touches l k s (t.withFab x) :=
  State.touches_of_parts h rfl (State.frame_withFab (State.frame_refl l [] t) x hp).1

theorem State.touches_withLoom (h : State.touches l k s t) (x) (hp : .loom ∈ l) : State.touches l k s (t.withLoom x) :=
  State.touches_of_parts h rfl (State.frame_withLoom (State.frame_refl l [] t) x hp).1

theorem State.touches_withEmv (h : State.touches l k s t) (x) (hp : .emv ∈ l) : State.touches l k s (t.withEmv x) :=
  State.touches_of_parts h rfl (State.frame_withEmv (State.frame_refl l [] t) x hp).1

theorem State.touches_withFreeCtr (h : State.touches l k s t) (x) (hp : .freeCtr ∈ l) : State.touches l k s (t.withFreeCtr x) :=
  State.touches_of_parts h rfl (State.frame_withFreeCtr (State.frame_refl l [] t) x hp).1

theorem State.touches_withOutputs (h : State.touches l k s t) (x) (hp : .outputs ∈ l) : State.touches l k s (t.withOutputs x) :=
  State.touches_of_parts h rfl (State.frame_withOutputs (State.frame_refl l [] t) x hp).1

end Sys2Proof.Machine
end

