-- ==== Sys2Proof/Laws/KeepsOps.lean ====
section
/-!
SUPPORT. The operations of the shared operations: none touches the queue, spoils the register space, takes back an output or draws a free value again.
-/
namespace Sys2Proof.Machine

theorem State.withFrc_keeps (s : State) (x : BitVec 80) : Keeps s (s.withFrc x) :=
  Keeps.of_eq rfl rfl rfl rfl

theorem State.withTime_keeps (s : State) (x : Time) : Keeps s (s.withTime x) :=
  Keeps.of_eq rfl rfl rfl rfl

theorem State.withHost_keeps (s : State) (x : HostIf) : Keeps s (s.withHost x) :=
  Keeps.of_eq rfl rfl rfl rfl

theorem State.withTally_keeps (s : State) (x : Tally) : Keeps s (s.withTally x) :=
  Keeps.of_eq rfl rfl rfl rfl

theorem State.withSeam_keeps (s : State) (x : Seam) : Keeps s (s.withSeam x) :=
  Keeps.of_eq rfl rfl rfl rfl

theorem State.withPace_keeps (s : State) (x : Pace) : Keeps s (s.withPace x) :=
  Keeps.of_eq rfl rfl rfl rfl

theorem State.withMacs_keeps (s : State) (x : Sparse Mac) : Keeps s (s.withMacs x) :=
  Keeps.of_eq rfl rfl rfl rfl

theorem State.withInsts_keeps (s : State) (x : Sparse Inst) : Keeps s (s.withInsts x) :=
  Keeps.of_eq rfl rfl rfl rfl

theorem State.withGrps_keeps (s : State) (x : Sparse Grp) : Keeps s (s.withGrps x) :=
  Keeps.of_eq rfl rfl rfl rfl

theorem State.withPkts_keeps (s : State) (x : Sparse (Option Pkt)) : Keeps s (s.withPkts x) :=
  Keeps.of_eq rfl rfl rfl rfl

theorem State.withNextPkt_keeps (s : State) (x : Nat) : Keeps s (s.withNextPkt x) :=
  Keeps.of_eq rfl rfl rfl rfl

theorem State.withCtxs_keeps (s : State) (x : Sparse (Option Ctx)) : Keeps s (s.withCtxs x) :=
  Keeps.of_eq rfl rfl rfl rfl

theorem State.withCoat_keeps (s : State) (x : Coat) : Keeps s (s.withCoat x) :=
  Keeps.of_eq rfl rfl rfl rfl

theorem State.withPolicers_keeps (s : State) (x : Sparse (Option Bucket)) : Keeps s (s.withPolicers x) :=
  Keeps.of_eq rfl rfl rfl rfl

theorem State.withReasons_keeps (s : State) (x : Sparse (Option Bucket)) : Keeps s (s.withReasons x) :=
  Keeps.of_eq rfl rfl rfl rfl

theorem State.withPuntAgg_keeps (s : State) (x : Option Bucket) : Keeps s (s.withPuntAgg x) :=
  Keeps.of_eq rfl rfl rfl rfl

theorem State.withInflightA_keeps (s : State) (x : Nat) : Keeps s (s.withInflightA x) :=
  Keeps.of_eq rfl rfl rfl rfl

theorem State.withInflightB_keeps (s : State) (x : Nat) : Keeps s (s.withInflightB x) :=
  Keeps.of_eq rfl rfl rfl rfl

theorem State.withBadWords_keeps (s : State) (x : BadWords) : Keeps s (s.withBadWords x) :=
  Keeps.of_eq rfl rfl rfl rfl

theorem State.withTables_keeps (s : State) (x : Tables) : Keeps s (s.withTables x) :=
  Keeps.of_eq rfl rfl rfl rfl

theorem State.withEasel_keeps (s : State) (x : Easel) : Keeps s (s.withEasel x) :=
  Keeps.of_eq rfl rfl rfl rfl

theorem State.withPower_keeps (s : State) (x : Power) : Keeps s (s.withPower x) :=
  Keeps.of_eq rfl rfl rfl rfl

theorem State.withPalette_keeps (s : State) (x : Palette) : Keeps s (s.withPalette x) :=
  Keeps.of_eq rfl rfl rfl rfl

theorem State.withSched_keeps (s : State) (x : Sched) : Keeps s (s.withSched x) :=
  Keeps.of_eq rfl rfl rfl rfl

theorem State.withDram_keeps (s : State) (x : Dram) : Keeps s (s.withDram x) :=
  Keeps.of_eq rfl rfl rfl rfl

theorem State.withFab_keeps (s : State) (x : Fab) : Keeps s (s.withFab x) :=
  Keeps.of_eq rfl rfl rfl rfl

theorem State.withLoom_keeps (s : State) (x : Loom) : Keeps s (s.withLoom x) :=
  Keeps.of_eq rfl rfl rfl rfl

theorem State.withEmv_keeps (s : State) (x : Emv) : Keeps s (s.withEmv x) :=
  Keeps.of_eq rfl rfl rfl rfl

theorem State.setReg_keeps (s : State) (r : Reg) (i : Nat) (v : BitVec 320) : Keeps s (s.setReg r i v) :=
  ⟨rfl, State.setReg_regsOk s r i v, ⟨[], (List.append_nil _).symm⟩, Nat.le_refl _⟩

theorem State.wr_keeps (s : State) (f : Fld) (i : Nat) (v : Nat) : Keeps s (State.wr s f i v) := by
  unfold State.wr
  repeat' first
    | with_reducible exact Keeps.refl _ | with_reducible assumption | with_reducible refine Keeps.ite ?_ ?_
    | (apply Keeps.trans; case k => with_reducible first | apply State.setReg_keeps)
    | split | dsimp only

theorem State.wrBit_keeps (s : State) (f : Fld) (i : Nat) (b : Bool) : Keeps s (State.wrBit s f i b) := by
  unfold State.wrBit
  repeat' first
    | with_reducible exact Keeps.refl _ | with_reducible assumption | with_reducible refine Keeps.ite ?_ ?_
    | (apply Keeps.trans; case k => with_reducible first | apply State.wr_keeps)
    | split | dsimp only

theorem State.incWrap_keeps (s : State) (f : Fld) (i : Nat) (n : Nat) : Keeps s (State.incWrap s f i n) := by
  unfold State.incWrap
  repeat' first
    | with_reducible exact Keeps.refl _ | with_reducible assumption | with_reducible refine Keeps.ite ?_ ?_
    | (apply Keeps.trans; case k => with_reducible first | apply State.wr_keeps)
    | split | dsimp only

theorem State.incSat_keeps (s : State) (f : Fld) (i : Nat) (n : Nat) : Keeps s (State.incSat s f i n) := by
  unfold State.incSat
  repeat' first
    | with_reducible exact Keeps.refl _ | with_reducible assumption | with_reducible refine Keeps.ite ?_ ?_
    | (apply Keeps.trans; case k => with_reducible first | apply State.wr_keeps)
    | split | dsimp only

theorem State.raiseTo_keeps (s : State) (f : Fld) (i : Nat) (v : Nat) : Keeps s (State.raiseTo s f i v) := by
  unfold State.raiseTo
  repeat' first
    | with_reducible exact Keeps.refl _ | with_reducible assumption | with_reducible refine Keeps.ite ?_ ?_
    | (apply Keeps.trans; case k => with_reducible first | apply State.wr_keeps)
    | split | dsimp only

theorem State.raise_keeps (s : State) (n : Nat) : Keeps s (State.raise s n) := by
  unfold State.raise
  repeat' first
    | with_reducible exact Keeps.refl _ | with_reducible assumption | with_reducible refine Keeps.ite ?_ ?_
    | (apply Keeps.trans; case k => with_reducible first | apply State.withHost_keeps)
    | split | dsimp only

theorem State.setCause_keeps (s : State) (f : Fld) (i : Nat) (n : Nat) : Keeps s (State.setCause s f i n) := by
  unfold State.setCause
  repeat' first
    | with_reducible exact Keeps.refl _ | with_reducible assumption | with_reducible refine Keeps.ite ?_ ?_
    | (apply Keeps.trans; case k => with_reducible first | apply State.wr_keeps | apply State.raise_keeps)
    | split | dsimp only

theorem State.emit_keeps (s : State) (o : Output) : Keeps s (s.emit o) :=
  ⟨rfl, id, ⟨[o], rfl⟩, Nat.le_refl _⟩

theorem State.freeDraws_keeps (s : State) (n : Nat) : Keeps s (s.freeDraws n) :=
  ⟨rfl, id, ⟨[], (List.append_nil _).symm⟩, Nat.le_add_right _ _⟩

theorem State.freeDraw_keeps (s : State) : Keeps s (State.freeDraw s) := by
  unfold State.freeDraw
  repeat' first
    | with_reducible exact Keeps.refl _ | with_reducible assumption | with_reducible refine Keeps.ite ?_ ?_
    | (apply Keeps.trans; case k => with_reducible first | apply State.freeDraws_keeps)
    | split | dsimp only

theorem State.advanceTo_keeps (s : State) (t : Nat) : Keeps s (State.advanceTo s t) := by
  unfold State.advanceTo
  repeat' first
    | with_reducible exact Keeps.refl _ | with_reducible assumption | with_reducible refine Keeps.ite ?_ ?_
    | (apply Keeps.trans; case k => with_reducible first | apply State.withFrc_keeps)
    | split | dsimp only

theorem State.tally1_keeps (s : State) (i bytes : Nat) : Keeps s (State.tally1 s i bytes) := by
  unfold State.tally1
  repeat' first
    | with_reducible exact Keeps.refl _ | with_reducible assumption | with_reducible refine Keeps.ite ?_ ?_
    | (apply Keeps.trans; case k => with_reducible first | apply State.withTally_keeps)
    | split | dsimp only

theorem State.pairAdd_keeps (s : State) (i : Nat) (pkts : Nat) (bytes : Int) : Keeps s (s.pairAdd i pkts bytes) := by
  unfold State.pairAdd
  refine Keeps.ite (State.withTally_keeps s _) (Keeps.ite (State.incSat_keeps s _ _ _) ?_)
  exact Keeps.ite ((State.wr_keeps s _ _ _).trans (State.incSat_keeps _ _ _ _)) (State.withTally_keeps s _)

theorem State.sampleAt_keeps (s : State) (i : Nat) : Keeps s (State.sampleAt s i) := by
  unfold State.sampleAt
  repeat' first
    | with_reducible exact Keeps.refl _ | with_reducible assumption | with_reducible refine Keeps.ite ?_ ?_
    | (apply Keeps.trans
       case k =>
         with_reducible first
           | apply State.wr_keeps | apply State.incSat_keeps | apply State.raise_keeps | apply State.incWrap_keeps)
    | split | dsimp only

theorem State.sample_keeps (s : State) (ev filt : Nat) : Keeps s (State.sample s ev filt) := by
  unfold State.sample
  repeat' first
    | with_reducible exact Keeps.refl _ | with_reducible assumption | with_reducible refine Keeps.ite ?_ ?_
    | (apply Keeps.trans; case k => with_reducible first | apply State.sampleAt_keeps)
    | with_reducible refine Keeps.foldl ?_ (fun _ _ => ?_)
    | split | dsimp only

theorem State.discardAt_keeps (s : State) (row : Nat) : Keeps s (State.discardAt s row) := by
  unfold State.discardAt
  repeat' first
    | with_reducible exact Keeps.refl _ | with_reducible assumption | with_reducible refine Keeps.ite ?_ ?_
    | (apply Keeps.trans; case k => with_reducible first | apply State.sample_keeps)
    | split | dsimp only

theorem State.undo_keeps (s : State) (j : Nat) : Keeps s (State.undo s j) := by
  unfold State.undo
  repeat' first
    | with_reducible exact Keeps.refl _ | with_reducible assumption | with_reducible refine Keeps.ite ?_ ?_
    | (apply Keeps.trans; case k => with_reducible first | apply State.incWrap_keeps)
    | split | dsimp only

theorem State.setRing_keeps (s : State) (k : Nat) (r : Ring) : Keeps s (State.setRing s k r) := by
  unfold State.setRing
  repeat' first
    | with_reducible exact Keeps.refl _ | with_reducible assumption | with_reducible refine Keeps.ite ?_ ?_
    | (apply Keeps.trans; case k => with_reducible first | apply State.idle_keeps)
    | (apply Keeps.trans; case k => with_reducible first | apply State.withHost_keeps)
    | split | dsimp only

theorem State.ringAdvance_keeps (s : State) (k : Nat) : Keeps s (State.ringAdvance s k) := by
  unfold State.ringAdvance
  repeat' first
    | with_reducible exact Keeps.refl _ | with_reducible assumption | with_reducible refine Keeps.ite ?_ ?_
    | (apply Keeps.trans; case k => with_reducible first | apply State.wr_keeps | apply State.raise_keeps)
    | split | dsimp only

theorem State.leaveL1_keeps (s : State) : Keeps s (State.leaveL1 s) := by
  unfold State.leaveL1
  repeat' first
    | with_reducible exact Keeps.refl _ | with_reducible assumption | with_reducible refine Keeps.ite ?_ ?_
    | (apply Keeps.trans; case k => with_reducible first | apply State.wr_keeps)
    | (apply Keeps.trans; case k => with_reducible first | apply State.withHost_keeps)
    | split | dsimp only

theorem State.hostPost_keeps (s : State) (a : Nat) (bs : List Byte) : Keeps s (State.hostPost s a bs) := by
  unfold State.hostPost
  repeat' first
    | with_reducible exact Keeps.refl _ | with_reducible assumption | with_reducible refine Keeps.ite ?_ ?_
    | (apply Keeps.trans
       case k =>
         with_reducible first
           | apply State.leaveL1_keeps | apply State.emit_keeps | apply State.hostWrite_keeps)
    | split | dsimp only

theorem State.ringPost_keeps (s : State) (k : Nat) (entry : List Byte) : Keeps s (State.ringPost s k entry) := by
  unfold State.ringPost
  repeat' first
    | with_reducible exact Keeps.refl _ | with_reducible assumption | with_reducible refine Keeps.ite ?_ ?_
    | (apply Keeps.trans; case k => with_reducible first | apply State.hostPost_keeps | apply State.ringAdvance_keeps)
    | split | dsimp only

theorem State.setMac_keeps (s : State) (p : Nat) (m : Mac) : Keeps s (State.setMac s p m) := by
  unfold State.setMac
  repeat' first
    | with_reducible exact Keeps.refl _ | with_reducible assumption | with_reducible refine Keeps.ite ?_ ?_
    | (apply Keeps.trans; case k => with_reducible first | apply State.idle_keeps)
    | (apply Keeps.trans; case k => with_reducible first | apply State.withMacs_keeps)
    | split | dsimp only

theorem State.setPkt_keeps (s : State) (n : Nat) (p : Pkt) : Keeps s (State.setPkt s n p) := by
  unfold State.setPkt
  repeat' first
    | with_reducible exact Keeps.refl _ | with_reducible assumption | with_reducible refine Keeps.ite ?_ ?_
    | (apply Keeps.trans; case k => with_reducible first | apply State.withPkts_keeps)
    | split | dsimp only

theorem State.dropPkt_keeps (s : State) (n : Nat) : Keeps s (State.dropPkt s n) := by
  unfold State.dropPkt
  repeat' first
    | with_reducible exact Keeps.refl _ | with_reducible assumption | with_reducible refine Keeps.ite ?_ ?_
    | (apply Keeps.trans; case k => with_reducible first | apply State.withPkts_keeps)
    | split | dsimp only

theorem State.addPkt_keeps (s : State) (p : Pkt) : Keeps s (State.addPkt s p) := by
  unfold State.addPkt
  repeat' first
    | with_reducible exact Keeps.refl _ | with_reducible assumption | with_reducible refine Keeps.ite ?_ ?_
    | (apply Keeps.trans; case k => with_reducible first | apply State.setPkt_keeps)
    | (apply Keeps.trans; case k => with_reducible first | apply State.withNextPkt_keeps)
    | split | dsimp only

theorem State.setCtx_keeps (s : State) (c : Nat) (x : Option Ctx) : Keeps s (State.setCtx s c x) := by
  unfold State.setCtx
  repeat' first
    | with_reducible exact Keeps.refl _ | with_reducible assumption | with_reducible refine Keeps.ite ?_ ?_
    | (apply Keeps.trans; case k => with_reducible first | apply State.withCtxs_keeps)
    | split | dsimp only

theorem State.setInflight_keeps (s : State) (b : Bool) (n : Nat) : Keeps s (State.setInflight s b n) := by
  unfold State.setInflight
  repeat' first
    | with_reducible exact Keeps.refl _ | with_reducible assumption | with_reducible refine Keeps.ite ?_ ?_
    | (apply Keeps.trans; case k => with_reducible first | apply State.withInflightB_keeps | apply State.withInflightA_keeps)
    | split | dsimp only

theorem State.hostError_keeps (s : State) (f : Fld) : Keeps s (State.hostError s f) := by
  unfold State.hostError
  repeat' first
    | with_reducible exact Keeps.refl _ | with_reducible assumption | with_reducible refine Keeps.ite ?_ ?_
    | (apply Keeps.trans; case k => with_reducible first | apply State.setCause_keeps)
    | split | dsimp only

theorem State.landed_keeps (s : State) (r : Reg) (f : State → State) (h : ∀ u, Keeps u (f u)) : Keeps s (s.landed r f) := by
  unfold State.landed
  exact Keeps.ite (Keeps.refl s) (Keeps.ite (State.hostError_keeps ..) (Keeps.ite (State.hostError_keeps ..) (h s)))

theorem State.trace_keeps (s : State) (n : Nat) (point stage : Nat) (detail : List Nat) (time : Option Nat) :
    Keeps s (State.trace s n point stage detail time) := by
  unfold State.trace
  repeat' first
    | with_reducible exact Keeps.refl _ | with_reducible assumption | with_reducible refine Keeps.ite ?_ ?_
    | (apply Keeps.trans
       case k =>
         with_reducible first
           | apply State.setPkt_keeps | apply State.incWrap_keeps | apply State.ringPost_keeps)
    | (apply Keeps.trans; case k => with_reducible first | apply State.withTally_keeps)
    | split | dsimp only

theorem State.untag_keeps (s : State) (p : Pkt) : Keeps s (State.untag s p) := by
  unfold State.untag
  repeat' first
    | with_reducible exact Keeps.refl _ | with_reducible assumption | with_reducible refine Keeps.ite ?_ ?_
    | (apply Keeps.trans; case k => with_reducible first | apply State.withTally_keeps)
    | split | dsimp only

theorem State.releaseStamps_keeps (s : State) (p : Pkt) : Keeps s (State.releaseStamps s p) := by
  unfold State.releaseStamps
  repeat' first
    | with_reducible exact Keeps.refl _ | with_reducible assumption | with_reducible refine Keeps.ite ?_ ?_
    | (apply Keeps.trans; case k => with_reducible first | apply State.setInflight_keeps)
    | split | dsimp only

theorem State.unstamp_keeps (s : State) (p : Pkt) : Keeps s (State.unstamp s p).1 := by
  unfold State.unstamp
  repeat' first
    | with_reducible exact Keeps.refl _ | with_reducible assumption | with_reducible refine Keeps.ite ?_ ?_
    | with_reducible refine Keeps.ite1 ?_ ?_
    | (apply Keeps.trans; case k => with_reducible first | apply State.setInflight_keeps)
    | split | dsimp only

theorem State.leaveIngress_keeps (s : State) (n : Nat) (p : Pkt) : Keeps s (State.leaveIngress s n p) := by
  unfold State.leaveIngress
  repeat' first
    | with_reducible exact Keeps.refl _ | with_reducible assumption | with_reducible refine Keeps.ite ?_ ?_
    | with_reducible refine Keeps.ite1 ?_ ?_
    | (apply Keeps.trans; case k => with_reducible first | apply State.unstamp_keeps | apply State.setPkt_keeps)
    | with_reducible refine Keeps.of_pair (State.unstamp_keeps ..) (by assumption) ?_
    | split | dsimp only

theorem State.noteFill_keeps (s : State) (port : Nat) : Keeps s (State.noteFill s port) := by
  unfold State.noteFill
  repeat' first
    | with_reducible exact Keeps.refl _ | with_reducible assumption | with_reducible refine Keeps.ite ?_ ?_
    | (apply Keeps.trans; case k => with_reducible first | apply State.setPkt_keeps)
    | with_reducible refine Keeps.foldl ?_ (fun _ _ => ?_)
    | split | dsimp only

theorem State.freeFifo_keeps (s : State) (n : Nat) (p : Pkt) : Keeps s (State.freeFifo s n p) := by
  unfold State.freeFifo
  repeat' first
    | with_reducible exact Keeps.refl _ | with_reducible assumption | with_reducible refine Keeps.ite ?_ ?_
    | (apply Keeps.trans; case k => with_reducible first | apply State.noteFill_keeps | apply State.setMac_keeps)
    | split | dsimp only

theorem State.discardPkt_keeps (s : State) (n row reason : Nat) : Keeps s (State.discardPkt s n row reason) := by
  unfold State.discardPkt
  repeat' first
    | with_reducible exact Keeps.refl _ | with_reducible assumption | with_reducible refine Keeps.ite ?_ ?_
    | (apply Keeps.trans
       case k =>
         with_reducible first
           | apply State.trace_keeps | apply State.discardAt_keeps | apply State.releaseStamps_keeps | apply State.untag_keeps
           | apply State.dropPkt_keeps)
    | split | dsimp only

end Sys2Proof.Machine
end

