-- ==== Sys2Proof/Laws/KeepsLookup.lean ====
section
/-!
SUPPORT. The operations of the lookups: none touches the queue, spoils the register space, takes back an output or draws a free value again.
-/
namespace Sys2Proof.Machine

theorem State.sramPut_keeps (s : State) (w n v : Nat) : Keeps s (State.sramPut s w n v) := by
  unfold State.sramPut
  repeat' first
    | with_reducible exact Keeps.refl _ | with_reducible assumption | with_reducible refine Keeps.ite ?_ ?_
    | with_reducible refine Keeps.foldl ?_ (fun _ _ => ?_)
    | (apply Keeps.trans; case k => with_reducible first | apply State.withTables_keeps | apply State.withBadWords_keeps)
    | split | dsimp only

theorem State.sramTouch_keeps (s : State) (w n : Nat) : Keeps s (State.sramTouch s w n) := by
  unfold State.sramTouch
  repeat' first
    | with_reducible exact Keeps.refl _ | with_reducible assumption | with_reducible refine Keeps.ite ?_ ?_
    | (apply Keeps.trans
       case k =>
         with_reducible first
           | apply State.incSat_keeps | apply State.wr_keeps | apply State.setCause_keeps)
    | split | dsimp only

theorem State.bucketsTouch_keeps (s : State) (d key : Nat) : Keeps s (State.bucketsTouch s d key) := by
  unfold State.bucketsTouch
  repeat' first
    | with_reducible exact Keeps.refl _ | with_reducible assumption | with_reducible refine Keeps.ite ?_ ?_
    | (apply Keeps.trans; case k => with_reducible first | apply State.sramTouch_keeps)
    | with_reducible refine Keeps.foldl ?_ (fun _ _ => ?_)
    | split | dsimp only

theorem State.lookupExact_keeps (s : State) (d key : Nat) : Keeps s (State.lookupExact s d key).1 := by
  unfold State.lookupExact
  repeat' first
    | with_reducible exact Keeps.refl _ | with_reducible assumption | with_reducible refine Keeps.ite ?_ ?_
    | with_reducible refine Keeps.ite1 ?_ ?_
    | (apply Keeps.trans; case k => with_reducible first | apply State.bucketsTouch_keeps)
    | split | dsimp only

theorem State.lookupDirect_keeps (s : State) (d key : Nat) : Keeps s (State.lookupDirect s d key).1 := by
  unfold State.lookupDirect
  repeat' first
    | with_reducible exact Keeps.refl _ | with_reducible assumption | with_reducible refine Keeps.ite ?_ ?_
    | with_reducible refine Keeps.ite1 ?_ ?_
    | (apply Keeps.trans; case k => with_reducible first | apply State.sramTouch_keeps)
    | split | dsimp only

theorem State.setUnit_keeps (s : State) (pos : Nat) (u : StnUnit) : Keeps s (State.setUnit s pos u) := by
  unfold State.setUnit
  repeat' first
    | with_reducible exact Keeps.refl _ | with_reducible assumption | with_reducible refine Keeps.ite ?_ ?_
    | (apply Keeps.trans; case k => with_reducible first | apply State.withTables_keeps)
    | split | dsimp only

theorem State.showSuspects_keeps (s : State) : Keeps s (State.showSuspects s) := by
  unfold State.showSuspects
  repeat' first
    | with_reducible exact Keeps.refl _ | with_reducible assumption | with_reducible refine Keeps.ite ?_ ?_
    | (apply Keeps.trans; case k => with_reducible first | apply State.wr_keeps)
    | split | dsimp only

theorem State.markSuspect_keeps (s : State) (pos : Nat) : Keeps s (State.markSuspect s pos) := by
  unfold State.markSuspect
  repeat' first
    | with_reducible exact Keeps.refl _ | with_reducible assumption | with_reducible refine Keeps.ite ?_ ?_
    | (apply Keeps.trans; case k => with_reducible first | apply State.setUnit_keeps | apply State.showSuspects_keeps)
    | split | dsimp only

theorem State.falseHit_keeps (s : State) (pos : Nat) : Keeps s (State.falseHit s pos) := by
  unfold State.falseHit
  repeat' first
    | with_reducible exact Keeps.refl _ | with_reducible assumption | with_reducible refine Keeps.ite ?_ ?_
    | (apply Keeps.trans
       case k =>
         with_reducible first
           | apply State.markSuspect_keeps | apply State.incSat_keeps | apply State.undo_keeps | apply State.sample_keeps)
    | split | dsimp only

theorem State.giveUp_keeps (s : State) : Keeps s (State.giveUp s) := by
  unfold State.giveUp
  repeat' first
    | with_reducible exact Keeps.refl _ | with_reducible assumption | with_reducible refine Keeps.ite ?_ ?_
    | (apply Keeps.trans; case k => with_reducible first | apply State.incSat_keeps | apply State.raise_keeps)
    | split | dsimp only

theorem State.searchVerify_keeps (s : State) (r : Region) (b : Bool) (key g : Nat) (n : Nat) :
    Keeps s (s.searchVerify r b key g n).1 := by
  induction n generalizing s with
  | zero =>
    unfold State.searchVerify
    split
    · exact Keeps.refl _
    · split
      · exact Keeps.refl _
      · exact (State.falseHit_keeps _ _).trans (State.giveUp_keeps _)
  | succ n ih =>
    unfold State.searchVerify
    split
    · exact Keeps.refl _
    · split
      · exact Keeps.refl _
      · exact (State.falseHit_keeps _ _).trans (ih _)

theorem State.lookupTernary_keeps (s : State) (d : Nat) (b : Bool) (gm key : Nat) :
    Keeps s (State.lookupTernary s d b gm key).1 := by
  unfold State.lookupTernary
  repeat' first
    | with_reducible exact Keeps.refl _ | with_reducible assumption | with_reducible refine Keeps.ite ?_ ?_
    | with_reducible refine Keeps.ite1 ?_ ?_
    | (apply Keeps.trans; case k => with_reducible first | apply State.searchVerify_keeps | apply State.sramTouch_keeps)
    | with_reducible refine Keeps.of_pair (State.searchVerify_keeps ..) (by assumption) ?_
    | split | dsimp only

theorem State.lpmPivot_keeps (s : State) (d : Nat) (b : Bool) (gm key : Nat) : Keeps s (State.lpmPivot s d b gm key).1 := by
  unfold State.lpmPivot
  repeat' first
    | with_reducible exact Keeps.refl _ | with_reducible assumption | with_reducible refine Keeps.ite ?_ ?_
    | with_reducible refine Keeps.ite1 ?_ ?_
    | (apply Keeps.trans; case k => with_reducible first | apply State.searchVerify_keeps)
    | with_reducible refine Keeps.of_pair (State.searchVerify_keeps ..) (by assumption) ?_
    | split | dsimp only

theorem State.lpmRoute_keeps (s : State) (d p : Nat) (key : Nat) : Keeps s (State.lpmRoute s d p key).1 := by
  unfold State.lpmRoute
  repeat' first
    | with_reducible exact Keeps.refl _ | with_reducible assumption | with_reducible refine Keeps.ite ?_ ?_
    | with_reducible refine Keeps.ite1 ?_ ?_
    | (apply Keeps.trans; case k => with_reducible first | apply State.sramTouch_keeps)
    | split | dsimp only

theorem State.lpmResult_keeps (s : State) (d r : Nat) : Keeps s (State.lpmResult s d r).1 := by
  unfold State.lpmResult
  repeat' first
    | with_reducible exact Keeps.refl _ | with_reducible assumption | with_reducible refine Keeps.ite ?_ ?_
    | with_reducible refine Keeps.ite1 ?_ ?_
    | (apply Keeps.trans; case k => with_reducible first | apply State.sramTouch_keeps)
    | split | dsimp only

theorem State.kindMismatch_keeps (s : State) : Keeps s (State.kindMismatch s) := by
  unfold State.kindMismatch
  repeat' first
    | with_reducible exact Keeps.refl _ | with_reducible assumption | with_reducible refine Keeps.ite ?_ ?_
    | (apply Keeps.trans; case k => with_reducible first | apply State.wr_keeps)
    | split | dsimp only

theorem State.lookupLpm_keeps (s : State) (d : Nat) (b : Bool) (gm key : Nat) : Keeps s (State.lookupLpm s d b gm key).1 := by
  unfold State.lookupLpm
  repeat' first
    | with_reducible exact Keeps.refl _ | with_reducible assumption | with_reducible refine Keeps.ite ?_ ?_
    | with_reducible refine Keeps.ite1 ?_ ?_
    | (apply Keeps.trans
       case k =>
         with_reducible first
           | apply State.lpmPivot_keeps | apply State.lpmRoute_keeps | apply State.kindMismatch_keeps
           | apply State.lpmResult_keeps)
    | with_reducible refine Keeps.of_pair (State.lpmPivot_keeps ..) (by assumption) ?_
    | with_reducible refine Keeps.of_pair (State.lpmRoute_keeps ..) (by assumption) ?_
    | with_reducible refine Keeps.of_pair (State.lpmResult_keeps ..) (by assumption) ?_
    | split | dsimp only

theorem State.lookupFor_keeps (s : State) (b : Bool) (t key : Nat) : Keeps s (State.lookupFor s b t key).1 := by
  unfold State.lookupFor
  repeat' first
    | with_reducible exact Keeps.refl _ | with_reducible assumption | with_reducible refine Keeps.ite ?_ ?_
    | with_reducible refine Keeps.ite1 ?_ ?_
    | (apply Keeps.trans
       case k =>
         with_reducible first
           | apply State.kindMismatch_keeps | apply State.lookupDirect_keeps | apply State.lookupExact_keeps
           | apply State.lookupLpm_keeps | apply State.lookupTernary_keeps)
    | with_reducible refine Keeps.of_pair (State.lookupDirect_keeps ..) (by assumption) ?_
    | with_reducible refine Keeps.of_pair (State.lookupExact_keeps ..) (by assumption) ?_
    | with_reducible refine Keeps.of_pair (State.lookupLpm_keeps ..) (by assumption) ?_
    | with_reducible refine Keeps.of_pair (State.lookupTernary_keeps ..) (by assumption) ?_
    | split | dsimp only

theorem State.commitLookup_keeps (s : State) (r : HitRef) : Keeps s (State.commitLookup s r) := by
  unfold State.commitLookup
  repeat' first
    | with_reducible exact Keeps.refl _ | with_reducible assumption | with_reducible refine Keeps.ite ?_ ?_
    | (apply Keeps.trans
       case k =>
         with_reducible first
           | apply State.sramTouch_keeps | apply State.sramPut_keeps | apply State.setUnit_keeps)
    | split | dsimp only

end Sys2Proof.Machine
end

