-- ==== Sys2Proof/Laws/KeepsSketch.lean ====
section
/-!
SUPPORT. The operations of the Sketch engines: none touches the queue, spoils the register space, takes back an output or draws a free value again.
-/
namespace Sys2Proof.Machine

theorem State.serve_keeps (s : State) (quad port : Nat) : Keeps s (State.serve s quad port) := by
  unfold State.serve
  repeat' first
    | with_reducible exact Keeps.refl _ | with_reducible assumption | with_reducible refine Keeps.ite ?_ ?_
    | (apply Keeps.trans; case k => with_reducible first | apply State.served_keeps)
    | (apply Keeps.trans; case k => with_reducible first | apply State.withPace_keeps)
    | split | dsimp only

theorem State.traceTag_keeps (s : State) (n : Nat) (p : Pkt) (quad : Nat) : Keeps s (State.traceTag s n p quad) := by
  unfold State.traceTag
  repeat' first
    | with_reducible exact Keeps.refl _ | with_reducible assumption | with_reducible refine Keeps.ite ?_ ?_
    | (apply Keeps.trans; case k => with_reducible first | apply State.incWrap_keeps | apply State.setPkt_keeps)
    | (apply Keeps.trans; case k => with_reducible first | apply State.withTally_keeps)
    | split | dsimp only

theorem State.grant_keeps (s : State) (port n : Nat) (p : Pkt) (c : Nat) : Keeps s (State.grant s port n p c) := by
  unfold State.grant
  repeat' first
    | with_reducible exact Keeps.refl _ | with_reducible assumption | with_reducible refine Keeps.ite ?_ ?_
    | (apply Keeps.trans
       case k =>
         with_reducible first
           | apply State.setPkt_keeps | apply State.setInflight_keeps | apply State.setCtx_keeps | apply State.incSat_keeps
           | apply State.serve_keeps | apply State.sample_keeps | apply State.traceTag_keeps | apply State.trace_keeps)
    | (apply Keeps.trans; case k => with_reducible first | apply State.withCoat_keeps)
    | split | dsimp only

theorem execContextGrant_keeps (port : Nat) (s : State) : KeepsR s (execContextGrant port s) := by
  unfold execContextGrant
  repeat' first
    | with_reducible exact Keeps.refl _ | with_reducible assumption | with_reducible refine KeepsR.next ?_
    | with_reducible refine Keeps.ite ?_ ?_ | with_reducible refine KeepsR.ite ?_ ?_
    | (apply Keeps.trans
       case k =>
         with_reducible first
           | apply State.freeFifo_keeps | apply State.tally1_keeps | apply State.discardPkt_keeps | apply State.grant_keeps)
    | split | dsimp only

theorem execEarlyLookupIssue_keeps (c : Nat) (slotFree : Bool) (s : State) : KeepsR s (execEarlyLookupIssue c slotFree s) := by
  unfold execEarlyLookupIssue
  repeat' first
    | with_reducible exact Keeps.refl _ | with_reducible assumption | with_reducible refine KeepsR.next ?_
    | with_reducible refine Keeps.ite ?_ ?_ | with_reducible refine KeepsR.ite ?_ ?_ | with_reducible refine Keeps.ite1 ?_ ?_
    | (apply Keeps.trans
       case k =>
         with_reducible first
           | apply State.incWrap_keeps | apply State.lookupFor_keeps | apply State.setPkt_keeps)
    | with_reducible refine Keeps.of_pair (State.lookupFor_keeps ..) (by assumption) ?_
    | split | dsimp only

theorem execProgramStart_keeps (c : Nat) (s : State) : KeepsR s (execProgramStart c s) := by
  unfold execProgramStart
  repeat' first
    | with_reducible exact Keeps.refl _ | with_reducible assumption | with_reducible refine KeepsR.next ?_
    | with_reducible refine Keeps.ite ?_ ?_ | with_reducible refine KeepsR.ite ?_ ?_
    | (apply Keeps.trans
       case k =>
         with_reducible first
           | apply State.putOctets_keeps | apply State.setPkt_keeps | apply State.setCtx_keeps)
    | split | dsimp only

theorem State.squash_keeps (s : State) (n : Nat) (finalTpl : Nat) : Keeps s (State.squash s n finalTpl) := by
  unfold State.squash
  repeat' first
    | with_reducible exact Keeps.refl _ | with_reducible assumption | with_reducible refine Keeps.ite ?_ ?_
    | (apply Keeps.trans
       case k =>
         with_reducible first
           | apply State.setPkt_keeps | apply State.incWrap_keeps | apply State.undo_keeps | apply State.sample_keeps
           | apply State.trace_keeps)
    | split | dsimp only

theorem State.compareEarly_keeps (s : State) (n : Nat) : Keeps s (State.compareEarly s n) := by
  unfold State.compareEarly
  repeat' first
    | with_reducible exact Keeps.refl _ | with_reducible assumption | with_reducible refine Keeps.ite ?_ ?_
    | (apply Keeps.trans; case k => with_reducible first | apply State.setPkt_keeps | apply State.squash_keeps)
    | split | dsimp only

theorem State.isample_keeps (s : State) (p : Pkt) (pc : Nat) : Keeps s (State.isample s p pc) := by
  unfold State.isample
  repeat' first
    | with_reducible exact Keeps.refl _ | with_reducible assumption | with_reducible refine Keeps.ite ?_ ?_
    | (apply Keeps.trans; case k => with_reducible first | apply State.incSat_keeps)
    | (apply Keeps.trans; case k => with_reducible first | apply State.withTally_keeps)
    | split | dsimp only

theorem State.endPass_keeps (s : State) (c : Nat) (x : Ctx) (hv : Sparse Byte) (insns reason sub : Nat) (slot : Option Nat) (drop : Bool) :
    Keeps s (State.endPass s c x hv insns reason sub slot drop) := by
  unfold State.endPass
  repeat' first
    | with_reducible exact Keeps.refl _ | with_reducible assumption | with_reducible refine Keeps.ite ?_ ?_
    | (apply Keeps.trans
       case k =>
         with_reducible first
           | apply State.setPkt_keeps | apply State.setCtx_keeps | apply State.compareEarly_keeps | apply State.incWrap_keeps
           | apply State.squash_keeps | apply State.trace_keeps)
    | split | dsimp only

theorem State.sketchUe_keeps (s : State) : Keeps s (State.sketchUe s) := by
  unfold State.sketchUe
  repeat' first
    | with_reducible exact Keeps.refl _ | with_reducible assumption | with_reducible refine Keeps.ite ?_ ?_
    | (apply Keeps.trans; case k => with_reducible first | apply State.setCause_keeps)
    | split | dsimp only

theorem State.sketchStep_keeps (s : State) (c op : Nat) (body : SInsn → Ctx → Sparse Byte → SRes) :
    Keeps s (State.sketchStep s c op body) := by
  unfold State.sketchStep
  repeat' first
    | with_reducible exact Keeps.refl _ | with_reducible assumption | with_reducible refine Keeps.ite ?_ ?_
    | (apply Keeps.trans
       case k =>
         with_reducible first
           | apply State.endPass_keeps | apply State.sketchUe_keeps | apply State.isample_keeps | apply State.incSat_keeps
           | apply State.setPkt_keeps | apply State.setCtx_keeps | apply State.raise_keeps)
    | split | dsimp only

theorem execSketchLd_keeps (c : Nat) (s : State) : KeepsR s (execSketchLd c s) := by
  unfold execSketchLd
  repeat' first
    | with_reducible exact Keeps.refl _ | with_reducible assumption | with_reducible refine KeepsR.next ?_
    | with_reducible refine Keeps.ite ?_ ?_ | with_reducible refine KeepsR.ite ?_ ?_
    | (apply Keeps.trans; case k => with_reducible first | apply State.sketchStep_keeps)
    | split | dsimp only

theorem execSketchLdh_keeps (c : Nat) (s : State) : KeepsR s (execSketchLdh c s) := by
  unfold execSketchLdh
  repeat' first
    | with_reducible exact Keeps.refl _ | with_reducible assumption | with_reducible refine KeepsR.next ?_
    | with_reducible refine Keeps.ite ?_ ?_ | with_reducible refine KeepsR.ite ?_ ?_
    | (apply Keeps.trans; case k => with_reducible first | apply State.sketchStep_keeps)
    | split | dsimp only

theorem execSketchMov_keeps (c : Nat) (s : State) : KeepsR s (execSketchMov c s) := by
  unfold execSketchMov
  repeat' first
    | with_reducible exact Keeps.refl _ | with_reducible assumption | with_reducible refine KeepsR.next ?_
    | with_reducible refine Keeps.ite ?_ ?_ | with_reducible refine KeepsR.ite ?_ ?_
    | (apply Keeps.trans; case k => with_reducible first | apply State.sketchStep_keeps)
    | split | dsimp only

theorem execSketchAdd_keeps (c : Nat) (s : State) : KeepsR s (execSketchAdd c s) := by
  unfold execSketchAdd
  repeat' first
    | with_reducible exact Keeps.refl _ | with_reducible assumption | with_reducible refine KeepsR.next ?_
    | with_reducible refine Keeps.ite ?_ ?_ | with_reducible refine KeepsR.ite ?_ ?_
    | (apply Keeps.trans; case k => with_reducible first | apply State.sketchStep_keeps)
    | split | dsimp only

theorem execSketchSub_keeps (c : Nat) (s : State) : KeepsR s (execSketchSub c s) := by
  unfold execSketchSub
  repeat' first
    | with_reducible exact Keeps.refl _ | with_reducible assumption | with_reducible refine KeepsR.next ?_
    | with_reducible refine Keeps.ite ?_ ?_ | with_reducible refine KeepsR.ite ?_ ?_
    | (apply Keeps.trans; case k => with_reducible first | apply State.sketchStep_keeps)
    | split | dsimp only

theorem execSketchAnd_keeps (c : Nat) (s : State) : KeepsR s (execSketchAnd c s) := by
  unfold execSketchAnd
  repeat' first
    | with_reducible exact Keeps.refl _ | with_reducible assumption | with_reducible refine KeepsR.next ?_
    | with_reducible refine Keeps.ite ?_ ?_ | with_reducible refine KeepsR.ite ?_ ?_
    | (apply Keeps.trans; case k => with_reducible first | apply State.sketchStep_keeps)
    | split | dsimp only

theorem execSketchOr_keeps (c : Nat) (s : State) : KeepsR s (execSketchOr c s) := by
  unfold execSketchOr
  repeat' first
    | with_reducible exact Keeps.refl _ | with_reducible assumption | with_reducible refine KeepsR.next ?_
    | with_reducible refine Keeps.ite ?_ ?_ | with_reducible refine KeepsR.ite ?_ ?_
    | (apply Keeps.trans; case k => with_reducible first | apply State.sketchStep_keeps)
    | split | dsimp only

theorem execSketchXor_keeps (c : Nat) (s : State) : KeepsR s (execSketchXor c s) := by
  unfold execSketchXor
  repeat' first
    | with_reducible exact Keeps.refl _ | with_reducible assumption | with_reducible refine KeepsR.next ?_
    | with_reducible refine Keeps.ite ?_ ?_ | with_reducible refine KeepsR.ite ?_ ?_
    | (apply Keeps.trans; case k => with_reducible first | apply State.sketchStep_keeps)
    | split | dsimp only

theorem execSketchShl_keeps (c : Nat) (s : State) : KeepsR s (execSketchShl c s) := by
  unfold execSketchShl
  repeat' first
    | with_reducible exact Keeps.refl _ | with_reducible assumption | with_reducible refine KeepsR.next ?_
    | with_reducible refine Keeps.ite ?_ ?_ | with_reducible refine KeepsR.ite ?_ ?_
    | (apply Keeps.trans; case k => with_reducible first | apply State.sketchStep_keeps)
    | split | dsimp only

theorem execSketchShr_keeps (c : Nat) (s : State) : KeepsR s (execSketchShr c s) := by
  unfold execSketchShr
  repeat' first
    | with_reducible exact Keeps.refl _ | with_reducible assumption | with_reducible refine KeepsR.next ?_
    | with_reducible refine Keeps.ite ?_ ?_ | with_reducible refine KeepsR.ite ?_ ?_
    | (apply Keeps.trans; case k => with_reducible first | apply State.sketchStep_keeps)
    | split | dsimp only

theorem execSketchCsum_keeps (c : Nat) (s : State) : KeepsR s (execSketchCsum c s) := by
  unfold execSketchCsum
  repeat' first
    | with_reducible exact Keeps.refl _ | with_reducible assumption | with_reducible refine KeepsR.next ?_
    | with_reducible refine Keeps.ite ?_ ?_ | with_reducible refine KeepsR.ite ?_ ?_
    | (apply Keeps.trans; case k => with_reducible first | apply State.sketchStep_keeps)
    | split | dsimp only

theorem execSketchXcp_keeps (c : Nat) (s : State) : KeepsR s (execSketchXcp c s) := by
  unfold execSketchXcp
  repeat' first
    | with_reducible exact Keeps.refl _ | with_reducible assumption | with_reducible refine KeepsR.next ?_
    | with_reducible refine Keeps.ite ?_ ?_ | with_reducible refine KeepsR.ite ?_ ?_
    | (apply Keeps.trans; case k => with_reducible first | apply State.sketchStep_keeps)
    | split | dsimp only

theorem execSketchSth_keeps (c : Nat) (s : State) : KeepsR s (execSketchSth c s) := by
  unfold execSketchSth
  repeat' first
    | with_reducible exact Keeps.refl _ | with_reducible assumption | with_reducible refine KeepsR.next ?_
    | with_reducible refine Keeps.ite ?_ ?_ | with_reducible refine KeepsR.ite ?_ ?_
    | (apply Keeps.trans; case k => with_reducible first | apply State.sketchStep_keeps)
    | split | dsimp only

theorem execSketchGetc_keeps (c : Nat) (s : State) : KeepsR s (execSketchGetc c s) := by
  unfold execSketchGetc
  repeat' first
    | with_reducible exact Keeps.refl _ | with_reducible assumption | with_reducible refine KeepsR.next ?_
    | with_reducible refine Keeps.ite ?_ ?_ | with_reducible refine KeepsR.ite ?_ ?_
    | (apply Keeps.trans; case k => with_reducible first | apply State.sketchStep_keeps)
    | split | dsimp only

theorem execSketchAdv_keeps (c : Nat) (s : State) : KeepsR s (execSketchAdv c s) := by
  unfold execSketchAdv
  repeat' first
    | with_reducible exact Keeps.refl _ | with_reducible assumption | with_reducible refine KeepsR.next ?_
    | with_reducible refine Keeps.ite ?_ ?_ | with_reducible refine KeepsR.ite ?_ ?_
    | (apply Keeps.trans; case k => with_reducible first | apply State.sketchStep_keeps)
    | split | dsimp only

theorem execSketchSetc_keeps (c : Nat) (s : State) : KeepsR s (execSketchSetc c s) := by
  unfold execSketchSetc
  repeat' first
    | with_reducible exact Keeps.refl _ | with_reducible assumption | with_reducible refine KeepsR.next ?_
    | with_reducible refine Keeps.ite ?_ ?_ | with_reducible refine KeepsR.ite ?_ ?_
    | (apply Keeps.trans; case k => with_reducible first | apply State.sketchStep_keeps)
    | split | dsimp only

theorem execSketchHdr_keeps (c : Nat) (s : State) : KeepsR s (execSketchHdr c s) := by
  unfold execSketchHdr
  repeat' first
    | with_reducible exact Keeps.refl _ | with_reducible assumption | with_reducible refine KeepsR.next ?_
    | with_reducible refine Keeps.ite ?_ ?_ | with_reducible refine KeepsR.ite ?_ ?_
    | (apply Keeps.trans; case k => with_reducible first | apply State.sketchStep_keeps)
    | split | dsimp only

theorem execSketchLchk_keeps (c : Nat) (s : State) : KeepsR s (execSketchLchk c s) := by
  unfold execSketchLchk
  repeat' first
    | with_reducible exact Keeps.refl _ | with_reducible assumption | with_reducible refine KeepsR.next ?_
    | with_reducible refine Keeps.ite ?_ ?_ | with_reducible refine KeepsR.ite ?_ ?_
    | (apply Keeps.trans; case k => with_reducible first | apply State.sketchStep_keeps)
    | split | dsimp only

theorem execSketchBeq_keeps (c : Nat) (s : State) : KeepsR s (execSketchBeq c s) := by
  unfold execSketchBeq
  repeat' first
    | with_reducible exact Keeps.refl _ | with_reducible assumption | with_reducible refine KeepsR.next ?_
    | with_reducible refine Keeps.ite ?_ ?_ | with_reducible refine KeepsR.ite ?_ ?_
    | (apply Keeps.trans; case k => with_reducible first | apply State.sketchStep_keeps)
    | split | dsimp only

theorem execSketchBne_keeps (c : Nat) (s : State) : KeepsR s (execSketchBne c s) := by
  unfold execSketchBne
  repeat' first
    | with_reducible exact Keeps.refl _ | with_reducible assumption | with_reducible refine KeepsR.next ?_
    | with_reducible refine Keeps.ite ?_ ?_ | with_reducible refine KeepsR.ite ?_ ?_
    | (apply Keeps.trans; case k => with_reducible first | apply State.sketchStep_keeps)
    | split | dsimp only

theorem execSketchBlt_keeps (c : Nat) (s : State) : KeepsR s (execSketchBlt c s) := by
  unfold execSketchBlt
  repeat' first
    | with_reducible exact Keeps.refl _ | with_reducible assumption | with_reducible refine KeepsR.next ?_
    | with_reducible refine Keeps.ite ?_ ?_ | with_reducible refine KeepsR.ite ?_ ?_
    | (apply Keeps.trans; case k => with_reducible first | apply State.sketchStep_keeps)
    | split | dsimp only

theorem execSketchBge_keeps (c : Nat) (s : State) : KeepsR s (execSketchBge c s) := by
  unfold execSketchBge
  repeat' first
    | with_reducible exact Keeps.refl _ | with_reducible assumption | with_reducible refine KeepsR.next ?_
    | with_reducible refine Keeps.ite ?_ ?_ | with_reducible refine KeepsR.ite ?_ ?_
    | (apply Keeps.trans; case k => with_reducible first | apply State.sketchStep_keeps)
    | split | dsimp only

theorem execSketchBts_keeps (c : Nat) (s : State) : KeepsR s (execSketchBts c s) := by
  unfold execSketchBts
  repeat' first
    | with_reducible exact Keeps.refl _ | with_reducible assumption | with_reducible refine KeepsR.next ?_
    | with_reducible refine Keeps.ite ?_ ?_ | with_reducible refine KeepsR.ite ?_ ?_
    | (apply Keeps.trans; case k => with_reducible first | apply State.sketchStep_keeps)
    | split | dsimp only

theorem execSketchBtc_keeps (c : Nat) (s : State) : KeepsR s (execSketchBtc c s) := by
  unfold execSketchBtc
  repeat' first
    | with_reducible exact Keeps.refl _ | with_reducible assumption | with_reducible refine KeepsR.next ?_
    | with_reducible refine Keeps.ite ?_ ?_ | with_reducible refine KeepsR.ite ?_ ?_
    | (apply Keeps.trans; case k => with_reducible first | apply State.sketchStep_keeps)
    | split | dsimp only

theorem execSketchJmp_keeps (c : Nat) (s : State) : KeepsR s (execSketchJmp c s) := by
  unfold execSketchJmp
  repeat' first
    | with_reducible exact Keeps.refl _ | with_reducible assumption | with_reducible refine KeepsR.next ?_
    | with_reducible refine Keeps.ite ?_ ?_ | with_reducible refine KeepsR.ite ?_ ?_
    | (apply Keeps.trans; case k => with_reducible first | apply State.sketchStep_keeps)
    | split | dsimp only

theorem execSketchCall_keeps (c : Nat) (s : State) : KeepsR s (execSketchCall c s) := by
  unfold execSketchCall
  repeat' first
    | with_reducible exact Keeps.refl _ | with_reducible assumption | with_reducible refine KeepsR.next ?_
    | with_reducible refine Keeps.ite ?_ ?_ | with_reducible refine KeepsR.ite ?_ ?_
    | (apply Keeps.trans; case k => with_reducible first | apply State.sketchStep_keeps)
    | split | dsimp only

theorem execSketchJr_keeps (c : Nat) (s : State) : KeepsR s (execSketchJr c s) := by
  unfold execSketchJr
  repeat' first
    | with_reducible exact Keeps.refl _ | with_reducible assumption | with_reducible refine KeepsR.next ?_
    | with_reducible refine Keeps.ite ?_ ?_ | with_reducible refine KeepsR.ite ?_ ?_
    | (apply Keeps.trans; case k => with_reducible first | apply State.sketchStep_keeps)
    | split | dsimp only

theorem execSketchDone_keeps (c : Nat) (s : State) : KeepsR s (execSketchDone c s) := by
  unfold execSketchDone
  repeat' first
    | with_reducible exact Keeps.refl _ | with_reducible assumption | with_reducible refine KeepsR.next ?_
    | with_reducible refine Keeps.ite ?_ ?_ | with_reducible refine KeepsR.ite ?_ ?_
    | (apply Keeps.trans; case k => with_reducible first | apply State.sketchStep_keeps)
    | split | dsimp only

theorem execSketchExc_keeps (c : Nat) (s : State) : KeepsR s (execSketchExc c s) := by
  unfold execSketchExc
  repeat' first
    | with_reducible exact Keeps.refl _ | with_reducible assumption | with_reducible refine KeepsR.next ?_
    | with_reducible refine Keeps.ite ?_ ?_ | with_reducible refine KeepsR.ite ?_ ?_
    | (apply Keeps.trans; case k => with_reducible first | apply State.sketchStep_keeps | apply State.raise_keeps)
    | split | dsimp only

theorem execSketchDrop_keeps (c : Nat) (s : State) : KeepsR s (execSketchDrop c s) := by
  unfold execSketchDrop
  repeat' first
    | with_reducible exact Keeps.refl _ | with_reducible assumption | with_reducible refine KeepsR.next ?_
    | with_reducible refine Keeps.ite ?_ ?_ | with_reducible refine KeepsR.ite ?_ ?_
    | (apply Keeps.trans; case k => with_reducible first | apply State.sketchStep_keeps | apply State.raise_keeps)
    | split | dsimp only

theorem execSketchNop_keeps (c : Nat) (s : State) : KeepsR s (execSketchNop c s) := by
  unfold execSketchNop
  repeat' first
    | with_reducible exact Keeps.refl _ | with_reducible assumption | with_reducible refine KeepsR.next ?_
    | with_reducible refine Keeps.ite ?_ ?_ | with_reducible refine KeepsR.ite ?_ ?_
    | (apply Keeps.trans; case k => with_reducible first | apply State.sketchStep_keeps)
    | split | dsimp only

theorem execHeaderVectorSend_keeps (c : Nat) (s : State) : KeepsR s (execHeaderVectorSend c s) := by
  unfold execHeaderVectorSend
  repeat' first
    | with_reducible exact Keeps.refl _ | with_reducible assumption | with_reducible refine KeepsR.next ?_
    | with_reducible refine Keeps.ite ?_ ?_ | with_reducible refine KeepsR.ite ?_ ?_
    | (apply Keeps.trans
       case k =>
         with_reducible first
           | apply State.leaveIngress_keeps | apply State.setPkt_keeps | apply State.setCtx_keeps | apply State.wr_keeps)
    | split | dsimp only

end Sys2Proof.Machine
end

