-- ==== Sys2Proof/Laws/KeepsGlaze.lean ====
section
/-!
SUPPORT. The operations of the Glaze stages: none touches the queue, spoils the register space, takes back an output or draws a free value again.
-/
namespace Sys2Proof.Machine

theorem State.setPolicer_keeps (s : State) (i : Nat) (b : Bucket) : Keeps s (State.setPolicer s i b) := by
  unfold State.setPolicer
  repeat' first
    | with_reducible exact Keeps.refl _ | with_reducible assumption | with_reducible refine Keeps.ite ?_ ?_
    | (apply Keeps.trans; case k => with_reducible first | apply State.withPolicers_keeps)
    | split | dsimp only

theorem State.notify_keeps (s : State) (k : Noted) (ring : Nat) (entry : List Byte) : Keeps s (State.notify s k ring entry) := by
  unfold State.notify
  repeat' first
    | with_reducible exact Keeps.refl _ | with_reducible assumption | with_reducible refine Keeps.ite ?_ ?_
    | (apply Keeps.trans; case k => with_reducible first | apply State.incSat_keeps | apply State.ringPost_keeps)
    | (apply Keeps.trans; case k => with_reducible first | apply State.withTables_keeps)
    | split | dsimp only

theorem State.startAction_keeps (s : State) (n : Nat) (p : Pkt) (eg : Bool) (st tpl key : Nat) (l : Lookup) :
    Keeps s (State.startAction s n p eg st tpl key l) := by
  unfold State.startAction
  repeat' first
    | with_reducible exact Keeps.refl _ | with_reducible assumption | with_reducible refine Keeps.ite ?_ ?_
    | (apply Keeps.trans; case k => with_reducible first | apply State.commitLookup_keeps | apply State.setPkt_keeps)
    | split | dsimp only

theorem State.endStage_keeps (s : State) (n : Nat) (p : Pkt) (eg : Bool) (st : Nat) : Keeps s (State.endStage s n p eg st) := by
  unfold State.endStage
  repeat' first
    | with_reducible exact Keeps.refl _ | with_reducible assumption | with_reducible refine Keeps.ite ?_ ?_
    | (apply Keeps.trans; case k => with_reducible first | apply State.setPkt_keeps | apply State.trace_keeps)
    | split | dsimp only

theorem execGlazeStage_keeps (n : Nat) (s : State) : KeepsR s (execGlazeStage n s) := by
  unfold execGlazeStage
  repeat' first
    | with_reducible exact Keeps.refl _ | with_reducible assumption | with_reducible refine KeepsR.next ?_
    | with_reducible refine Keeps.ite ?_ ?_ | with_reducible refine KeepsR.ite ?_ ?_ | with_reducible refine Keeps.ite1 ?_ ?_
    | (apply Keeps.trans
       case k =>
         with_reducible first
           | apply State.setPkt_keeps | apply State.leaveIngress_keeps | apply State.startAction_keeps
           | apply State.lookupFor_keeps)
    | with_reducible refine Keeps.of_pair (State.lookupFor_keeps ..) (by assumption) ?_
    | split | dsimp only

theorem State.actionFault_keeps (s : State) (n : Nat) (p : Pkt) (eg : Bool) (st : Nat) :
    Keeps s (State.actionFault s n p eg st) := by
  unfold State.actionFault
  repeat' first
    | with_reducible exact Keeps.refl _ | with_reducible assumption | with_reducible refine Keeps.ite ?_ ?_
    | (apply Keeps.trans
       case k =>
         with_reducible first
           | apply State.tally1_keeps | apply State.endStage_keeps | apply State.setPkt_keeps | apply State.leaveIngress_keeps)
    | split | dsimp only

theorem State.actionFetched_keeps (s : State) (w : Nat) : Keeps s (State.actionFetched s w) := by
  unfold State.actionFetched
  repeat' first
    | with_reducible exact Keeps.refl _ | with_reducible assumption | with_reducible refine Keeps.ite ?_ ?_
    | (apply Keeps.trans; case k => with_reducible first | apply State.withBadWords_keeps)
    | split | dsimp only

theorem State.actionStep_keeps (s : State) (n op : Nat) (body : AInsn → Act → Pkt → Bool → State → State × ARes)
    (h : ∀ i a p eg u, Keeps u (body i a p eg u).1) : Keeps s (s.actionStep n op body) := by
  unfold State.actionStep
  repeat' first
    | with_reducible exact Keeps.refl _ | with_reducible assumption | with_reducible refine Keeps.ite ?_ ?_
    | with_reducible refine (Keeps.of_pair (h ..) (by assumption) ?_)
    | (apply Keeps.trans
       case k =>
         with_reducible first
           | apply State.actionFault_keeps | apply State.actionFetched_keeps | apply State.endStage_keeps
           | apply State.setPkt_keeps | apply State.leaveIngress_keeps)
    | split | dsimp only

theorem writeT_keeps (i : AInsn) (a : Act) (p : Pkt) (s : State) (v : BitVec 32) : Keeps s (writeT i a p s v).1 := by
  unfold writeT
  repeat' first
    | with_reducible exact Keeps.refl _ | with_reducible assumption | with_reducible refine Keeps.ite ?_ ?_
    | with_reducible refine Keeps.ite1 ?_ ?_
    | split | dsimp only

theorem bodyLdf_keeps (i : AInsn) (a : Act) (p : Pkt) (a1 : Bool) (s : State) : Keeps s (bodyLdf i a p a1 s).1 := by
  unfold bodyLdf
  repeat' first
    | with_reducible exact Keeps.refl _ | with_reducible assumption | with_reducible refine Keeps.ite ?_ ?_
    | with_reducible refine Keeps.ite1 ?_ ?_
    | (apply Keeps.trans; case k => with_reducible first | apply writeT_keeps)
    | with_reducible refine Keeps.of_pair (writeT_keeps ..) (by assumption) ?_
    | split | dsimp only

theorem execActionLdf_keeps (n : Nat) (s : State) : KeepsR s (execActionLdf n s) := by
  unfold execActionLdf
  repeat' first
    | with_reducible exact Keeps.refl _ | with_reducible assumption | with_reducible refine KeepsR.next ?_
    | with_reducible refine Keeps.ite ?_ ?_ | with_reducible refine KeepsR.ite ?_ ?_ | with_reducible refine Keeps.ite1 ?_ ?_
    | (apply Keeps.trans; case k => with_reducible first | apply bodyLdf_keeps)
    | with_reducible apply State.actionStep_keeps | with_reducible refine Keeps.trans ?_ (State.actionStep_keeps _ _ _ _  ?_)
    | with_reducible refine Keeps.of_pair (bodyLdf_keeps ..) (by assumption) ?_
    | intro _ | split | dsimp only

theorem bodyStf_keeps (i : AInsn) (a : Act) (p : Pkt) (a1 : Bool) (s : State) : Keeps s (bodyStf i a p a1 s).1 := by
  unfold bodyStf
  repeat' first
    | with_reducible exact Keeps.refl _ | with_reducible assumption | with_reducible refine Keeps.ite ?_ ?_
    | with_reducible refine Keeps.ite1 ?_ ?_
    | split | dsimp only

theorem execActionStf_keeps (n : Nat) (s : State) : KeepsR s (execActionStf n s) := by
  unfold execActionStf
  repeat' first
    | with_reducible exact Keeps.refl _ | with_reducible assumption | with_reducible refine KeepsR.next ?_
    | with_reducible refine Keeps.ite ?_ ?_ | with_reducible refine KeepsR.ite ?_ ?_ | with_reducible refine Keeps.ite1 ?_ ?_
    | (apply Keeps.trans; case k => with_reducible first | apply bodyStf_keeps)
    | with_reducible apply State.actionStep_keeps | with_reducible refine Keeps.trans ?_ (State.actionStep_keeps _ _ _ _  ?_)
    | with_reducible refine Keeps.of_pair (bodyStf_keeps ..) (by assumption) ?_
    | intro _ | split | dsimp only

theorem execActionMov_keeps (n : Nat) (s : State) : KeepsR s (execActionMov n s) := by
  unfold execActionMov
  repeat' first
    | with_reducible exact Keeps.refl _ | with_reducible assumption | with_reducible refine KeepsR.next ?_
    | with_reducible refine Keeps.ite ?_ ?_ | with_reducible refine KeepsR.ite ?_ ?_ | with_reducible refine Keeps.ite1 ?_ ?_
    | (apply Keeps.trans; case k => with_reducible first | apply writeT_keeps)
    | with_reducible apply State.actionStep_keeps | with_reducible refine Keeps.trans ?_ (State.actionStep_keeps _ _ _ _  ?_)
    | with_reducible refine Keeps.of_pair (writeT_keeps ..) (by assumption) ?_
    | intro _ | split | dsimp only

theorem execActionAdd_keeps (n : Nat) (s : State) : KeepsR s (execActionAdd n s) := by
  unfold execActionAdd
  repeat' first
    | with_reducible exact Keeps.refl _ | with_reducible assumption | with_reducible refine KeepsR.next ?_
    | with_reducible refine Keeps.ite ?_ ?_ | with_reducible refine KeepsR.ite ?_ ?_ | with_reducible refine Keeps.ite1 ?_ ?_
    | (apply Keeps.trans; case k => with_reducible first | apply writeT_keeps)
    | with_reducible apply State.actionStep_keeps | with_reducible refine Keeps.trans ?_ (State.actionStep_keeps _ _ _ _  ?_)
    | with_reducible refine Keeps.of_pair (writeT_keeps ..) (by assumption) ?_
    | intro _ | split | dsimp only

theorem execActionSub_keeps (n : Nat) (s : State) : KeepsR s (execActionSub n s) := by
  unfold execActionSub
  repeat' first
    | with_reducible exact Keeps.refl _ | with_reducible assumption | with_reducible refine KeepsR.next ?_
    | with_reducible refine Keeps.ite ?_ ?_ | with_reducible refine KeepsR.ite ?_ ?_ | with_reducible refine Keeps.ite1 ?_ ?_
    | (apply Keeps.trans; case k => with_reducible first | apply writeT_keeps)
    | with_reducible apply State.actionStep_keeps | with_reducible refine Keeps.trans ?_ (State.actionStep_keeps _ _ _ _  ?_)
    | with_reducible refine Keeps.of_pair (writeT_keeps ..) (by assumption) ?_
    | intro _ | split | dsimp only

theorem execActionAnd_keeps (n : Nat) (s : State) : KeepsR s (execActionAnd n s) := by
  unfold execActionAnd
  repeat' first
    | with_reducible exact Keeps.refl _ | with_reducible assumption | with_reducible refine KeepsR.next ?_
    | with_reducible refine Keeps.ite ?_ ?_ | with_reducible refine KeepsR.ite ?_ ?_ | with_reducible refine Keeps.ite1 ?_ ?_
    | (apply Keeps.trans; case k => with_reducible first | apply writeT_keeps)
    | with_reducible apply State.actionStep_keeps | with_reducible refine Keeps.trans ?_ (State.actionStep_keeps _ _ _ _  ?_)
    | with_reducible refine Keeps.of_pair (writeT_keeps ..) (by assumption) ?_
    | intro _ | split | dsimp only

theorem execActionOr_keeps (n : Nat) (s : State) : KeepsR s (execActionOr n s) := by
  unfold execActionOr
  repeat' first
    | with_reducible exact Keeps.refl _ | with_reducible assumption | with_reducible refine KeepsR.next ?_
    | with_reducible refine Keeps.ite ?_ ?_ | with_reducible refine KeepsR.ite ?_ ?_ | with_reducible refine Keeps.ite1 ?_ ?_
    | (apply Keeps.trans; case k => with_reducible first | apply writeT_keeps)
    | with_reducible apply State.actionStep_keeps | with_reducible refine Keeps.trans ?_ (State.actionStep_keeps _ _ _ _  ?_)
    | with_reducible refine Keeps.of_pair (writeT_keeps ..) (by assumption) ?_
    | intro _ | split | dsimp only

theorem execActionXor_keeps (n : Nat) (s : State) : KeepsR s (execActionXor n s) := by
  unfold execActionXor
  repeat' first
    | with_reducible exact Keeps.refl _ | with_reducible assumption | with_reducible refine KeepsR.next ?_
    | with_reducible refine Keeps.ite ?_ ?_ | with_reducible refine KeepsR.ite ?_ ?_ | with_reducible refine Keeps.ite1 ?_ ?_
    | (apply Keeps.trans; case k => with_reducible first | apply writeT_keeps)
    | with_reducible apply State.actionStep_keeps | with_reducible refine Keeps.trans ?_ (State.actionStep_keeps _ _ _ _  ?_)
    | with_reducible refine Keeps.of_pair (writeT_keeps ..) (by assumption) ?_
    | intro _ | split | dsimp only

theorem execActionShl_keeps (n : Nat) (s : State) : KeepsR s (execActionShl n s) := by
  unfold execActionShl
  repeat' first
    | with_reducible exact Keeps.refl _ | with_reducible assumption | with_reducible refine KeepsR.next ?_
    | with_reducible refine Keeps.ite ?_ ?_ | with_reducible refine KeepsR.ite ?_ ?_ | with_reducible refine Keeps.ite1 ?_ ?_
    | (apply Keeps.trans; case k => with_reducible first | apply writeT_keeps)
    | with_reducible apply State.actionStep_keeps | with_reducible refine Keeps.trans ?_ (State.actionStep_keeps _ _ _ _  ?_)
    | with_reducible refine Keeps.of_pair (writeT_keeps ..) (by assumption) ?_
    | intro _ | split | dsimp only

theorem execActionShr_keeps (n : Nat) (s : State) : KeepsR s (execActionShr n s) := by
  unfold execActionShr
  repeat' first
    | with_reducible exact Keeps.refl _ | with_reducible assumption | with_reducible refine KeepsR.next ?_
    | with_reducible refine Keeps.ite ?_ ?_ | with_reducible refine KeepsR.ite ?_ ?_ | with_reducible refine Keeps.ite1 ?_ ?_
    | (apply Keeps.trans; case k => with_reducible first | apply writeT_keeps)
    | with_reducible apply State.actionStep_keeps | with_reducible refine Keeps.trans ?_ (State.actionStep_keeps _ _ _ _  ?_)
    | with_reducible refine Keeps.of_pair (writeT_keeps ..) (by assumption) ?_
    | intro _ | split | dsimp only

theorem bodyCsup_keeps (i : AInsn) (a : Act) (p : Pkt) (a1 : Bool) (s : State) : Keeps s (bodyCsup i a p a1 s).1 := by
  unfold bodyCsup
  repeat' first
    | with_reducible exact Keeps.refl _ | with_reducible assumption | with_reducible refine Keeps.ite ?_ ?_
    | with_reducible refine Keeps.ite1 ?_ ?_
    | split | dsimp only

theorem execActionCsup_keeps (n : Nat) (s : State) : KeepsR s (execActionCsup n s) := by
  unfold execActionCsup
  repeat' first
    | with_reducible exact Keeps.refl _ | with_reducible assumption | with_reducible refine KeepsR.next ?_
    | with_reducible refine Keeps.ite ?_ ?_ | with_reducible refine KeepsR.ite ?_ ?_ | with_reducible refine Keeps.ite1 ?_ ?_
    | (apply Keeps.trans; case k => with_reducible first | apply bodyCsup_keeps)
    | with_reducible apply State.actionStep_keeps | with_reducible refine Keeps.trans ?_ (State.actionStep_keeps _ _ _ _  ?_)
    | with_reducible refine Keeps.of_pair (bodyCsup_keeps ..) (by assumption) ?_
    | intro _ | split | dsimp only

theorem bodyIns_keeps (i : AInsn) (a : Act) (p : Pkt) (a1 : Bool) (s : State) : Keeps s (bodyIns i a p a1 s).1 := by
  unfold bodyIns
  repeat' first
    | with_reducible exact Keeps.refl _ | with_reducible assumption | with_reducible refine Keeps.ite ?_ ?_
    | with_reducible refine Keeps.ite1 ?_ ?_
    | (apply Keeps.trans; case k => with_reducible first | apply State.putOctets_keeps)
    | split | dsimp only

theorem execActionIns_keeps (n : Nat) (s : State) : KeepsR s (execActionIns n s) := by
  unfold execActionIns
  repeat' first
    | with_reducible exact Keeps.refl _ | with_reducible assumption | with_reducible refine KeepsR.next ?_
    | with_reducible refine Keeps.ite ?_ ?_ | with_reducible refine KeepsR.ite ?_ ?_ | with_reducible refine Keeps.ite1 ?_ ?_
    | (apply Keeps.trans; case k => with_reducible first | apply bodyIns_keeps)
    | with_reducible apply State.actionStep_keeps | with_reducible refine Keeps.trans ?_ (State.actionStep_keeps _ _ _ _  ?_)
    | with_reducible refine Keeps.of_pair (bodyIns_keeps ..) (by assumption) ?_
    | intro _ | split | dsimp only

theorem bodyDel_keeps (i : AInsn) (a : Act) (p : Pkt) (a1 : Bool) (s : State) : Keeps s (bodyDel i a p a1 s).1 := by
  unfold bodyDel
  repeat' first
    | with_reducible exact Keeps.refl _ | with_reducible assumption | with_reducible refine Keeps.ite ?_ ?_
    | with_reducible refine Keeps.ite1 ?_ ?_
    | (apply Keeps.trans; case k => with_reducible first | apply State.putOctets_keeps)
    | split | dsimp only

theorem execActionDel_keeps (n : Nat) (s : State) : KeepsR s (execActionDel n s) := by
  unfold execActionDel
  repeat' first
    | with_reducible exact Keeps.refl _ | with_reducible assumption | with_reducible refine KeepsR.next ?_
    | with_reducible refine Keeps.ite ?_ ?_ | with_reducible refine KeepsR.ite ?_ ?_ | with_reducible refine Keeps.ite1 ?_ ?_
    | (apply Keeps.trans; case k => with_reducible first | apply bodyDel_keeps)
    | with_reducible apply State.actionStep_keeps | with_reducible refine Keeps.trans ?_ (State.actionStep_keeps _ _ _ _  ?_)
    | with_reducible refine Keeps.of_pair (bodyDel_keeps ..) (by assumption) ?_
    | intro _ | split | dsimp only

theorem execActionSkz_keeps (n : Nat) (s : State) : KeepsR s (execActionSkz n s) := by
  unfold execActionSkz
  repeat' first
    | with_reducible exact Keeps.refl _ | with_reducible assumption | with_reducible refine KeepsR.next ?_
    | with_reducible refine Keeps.ite ?_ ?_ | with_reducible refine KeepsR.ite ?_ ?_
    | with_reducible apply State.actionStep_keeps | with_reducible refine Keeps.trans ?_ (State.actionStep_keeps _ _ _ _  ?_)
    | intro _ | split | dsimp only

theorem execActionSknz_keeps (n : Nat) (s : State) : KeepsR s (execActionSknz n s) := by
  unfold execActionSknz
  repeat' first
    | with_reducible exact Keeps.refl _ | with_reducible assumption | with_reducible refine KeepsR.next ?_
    | with_reducible refine Keeps.ite ?_ ?_ | with_reducible refine KeepsR.ite ?_ ?_
    | with_reducible apply State.actionStep_keeps | with_reducible refine Keeps.trans ?_ (State.actionStep_keeps _ _ _ _  ?_)
    | intro _ | split | dsimp only

theorem execActionEnd_keeps (n : Nat) (s : State) : KeepsR s (execActionEnd n s) := by
  unfold execActionEnd
  repeat' first
    | with_reducible exact Keeps.refl _ | with_reducible assumption | with_reducible refine KeepsR.next ?_
    | with_reducible refine Keeps.ite ?_ ?_ | with_reducible refine KeepsR.ite ?_ ?_
    | with_reducible apply State.actionStep_keeps | with_reducible refine Keeps.trans ?_ (State.actionStep_keeps _ _ _ _  ?_)
    | intro _ | split | dsimp only

theorem applyEntry_keeps (r : Nat) (a : Act) (p : Pkt) (s : State) : Keeps s (applyEntry r a p s).1 := by
  unfold applyEntry
  repeat' first
    | with_reducible exact Keeps.refl _ | with_reducible assumption | with_reducible refine Keeps.ite ?_ ?_
    | with_reducible refine Keeps.ite1 ?_ ?_
    | (apply Keeps.trans; case k => with_reducible first | apply State.tally1_keeps)
    | split | dsimp only

theorem bodyFwd_keeps (i : AInsn) (a : Act) (p : Pkt) (eg : Bool) (s : State) : Keeps s (bodyFwd i a p eg s).1 := by
  unfold bodyFwd
  repeat' first
    | with_reducible exact Keeps.refl _ | with_reducible assumption | with_reducible refine Keeps.ite ?_ ?_
    | with_reducible refine Keeps.ite1 ?_ ?_
    | (apply Keeps.trans; case k => with_reducible first | apply applyEntry_keeps)
    | with_reducible refine Keeps.of_pair (applyEntry_keeps ..) (by assumption) ?_
    | split | dsimp only

theorem execActionFwd_keeps (n : Nat) (s : State) : KeepsR s (execActionFwd n s) := by
  unfold execActionFwd
  repeat' first
    | with_reducible exact Keeps.refl _ | with_reducible assumption | with_reducible refine KeepsR.next ?_
    | with_reducible refine Keeps.ite ?_ ?_ | with_reducible refine KeepsR.ite ?_ ?_ | with_reducible refine Keeps.ite1 ?_ ?_
    | (apply Keeps.trans; case k => with_reducible first | apply bodyFwd_keeps)
    | with_reducible apply State.actionStep_keeps | with_reducible refine Keeps.trans ?_ (State.actionStep_keeps _ _ _ _  ?_)
    | with_reducible refine Keeps.of_pair (bodyFwd_keeps ..) (by assumption) ?_
    | intro _ | split | dsimp only

theorem bodyFwdg_keeps (i : AInsn) (a : Act) (p : Pkt) (eg : Bool) (s : State) : Keeps s (bodyFwdg i a p eg s).1 := by
  unfold bodyFwdg
  repeat' first
    | with_reducible exact Keeps.refl _ | with_reducible assumption | with_reducible refine Keeps.ite ?_ ?_
    | with_reducible refine Keeps.ite1 ?_ ?_
    | (apply Keeps.trans; case k => with_reducible first | apply applyEntry_keeps | apply State.sramTouch_keeps)
    | with_reducible refine Keeps.of_pair (applyEntry_keeps ..) (by assumption) ?_
    | split | dsimp only

theorem execActionFwdg_keeps (n : Nat) (s : State) : KeepsR s (execActionFwdg n s) := by
  unfold execActionFwdg
  repeat' first
    | with_reducible exact Keeps.refl _ | with_reducible assumption | with_reducible refine KeepsR.next ?_
    | with_reducible refine Keeps.ite ?_ ?_ | with_reducible refine KeepsR.ite ?_ ?_ | with_reducible refine Keeps.ite1 ?_ ?_
    | (apply Keeps.trans; case k => with_reducible first | apply bodyFwdg_keeps)
    | with_reducible apply State.actionStep_keeps | with_reducible refine Keeps.trans ?_ (State.actionStep_keeps _ _ _ _  ?_)
    | with_reducible refine Keeps.of_pair (bodyFwdg_keeps ..) (by assumption) ?_
    | intro _ | split | dsimp only

theorem execActionDrop_keeps (n : Nat) (s : State) : KeepsR s (execActionDrop n s) := by
  unfold execActionDrop
  repeat' first
    | with_reducible exact Keeps.refl _ | with_reducible assumption | with_reducible refine KeepsR.next ?_
    | with_reducible refine Keeps.ite ?_ ?_ | with_reducible refine KeepsR.ite ?_ ?_
    | with_reducible apply State.actionStep_keeps | with_reducible refine Keeps.trans ?_ (State.actionStep_keeps _ _ _ _  ?_)
    | intro _ | split | dsimp only

theorem execActionCopy_keeps (n : Nat) (s : State) : KeepsR s (execActionCopy n s) := by
  unfold execActionCopy
  repeat' first
    | with_reducible exact Keeps.refl _ | with_reducible assumption | with_reducible refine KeepsR.next ?_
    | with_reducible refine Keeps.ite ?_ ?_ | with_reducible refine KeepsR.ite ?_ ?_
    | with_reducible apply State.actionStep_keeps | with_reducible refine Keeps.trans ?_ (State.actionStep_keeps _ _ _ _  ?_)
    | intro _ | split | dsimp only

theorem execActionTrap_keeps (n : Nat) (s : State) : KeepsR s (execActionTrap n s) := by
  unfold execActionTrap
  repeat' first
    | with_reducible exact Keeps.refl _ | with_reducible assumption | with_reducible refine KeepsR.next ?_
    | with_reducible refine Keeps.ite ?_ ?_ | with_reducible refine KeepsR.ite ?_ ?_
    | with_reducible apply State.actionStep_keeps | with_reducible refine Keeps.trans ?_ (State.actionStep_keeps _ _ _ _  ?_)
    | intro _ | split | dsimp only

theorem bodyMirr_keeps (i : AInsn) (a : Act) (p : Pkt) (eg : Bool) (s : State) : Keeps s (bodyMirr i a p eg s).1 := by
  unfold bodyMirr
  repeat' first
    | with_reducible exact Keeps.refl _ | with_reducible assumption | with_reducible refine Keeps.ite ?_ ?_
    | with_reducible refine Keeps.ite1 ?_ ?_
    | (apply Keeps.trans; case k => with_reducible first | apply State.tally1_keeps)
    | with_reducible refine Keeps.foldl ?_ (fun _ _ => ?_)
    | split | dsimp only

theorem execActionMirr_keeps (n : Nat) (s : State) : KeepsR s (execActionMirr n s) := by
  unfold execActionMirr
  repeat' first
    | with_reducible exact Keeps.refl _ | with_reducible assumption | with_reducible refine KeepsR.next ?_
    | with_reducible refine Keeps.ite ?_ ?_ | with_reducible refine KeepsR.ite ?_ ?_ | with_reducible refine Keeps.ite1 ?_ ?_
    | (apply Keeps.trans; case k => with_reducible first | apply bodyMirr_keeps)
    | with_reducible apply State.actionStep_keeps | with_reducible refine Keeps.trans ?_ (State.actionStep_keeps _ _ _ _  ?_)
    | with_reducible refine Keeps.of_pair (bodyMirr_keeps ..) (by assumption) ?_
    | intro _ | split | dsimp only

theorem execActionRecirc_keeps (n : Nat) (s : State) : KeepsR s (execActionRecirc n s) := by
  unfold execActionRecirc
  repeat' first
    | with_reducible exact Keeps.refl _ | with_reducible assumption | with_reducible refine KeepsR.next ?_
    | with_reducible refine Keeps.ite ?_ ?_ | with_reducible refine KeepsR.ite ?_ ?_
    | with_reducible apply State.actionStep_keeps | with_reducible refine Keeps.trans ?_ (State.actionStep_keeps _ _ _ _  ?_)
    | intro _ | split | dsimp only

theorem State.trueUp_keeps (s : State) (len : Nat) (cs : List (Bool × Nat × Nat)) : Keeps s (State.trueUp s len cs) := by
  unfold State.trueUp
  repeat' first
    | with_reducible exact Keeps.refl _ | with_reducible assumption | with_reducible refine Keeps.ite ?_ ?_
    | (apply Keeps.trans; case k => with_reducible first | apply State.setPolicer_keeps | apply State.pairAdd_keeps)
    | with_reducible refine Keeps.foldl ?_ (fun _ _ => ?_)
    | split | dsimp only

theorem State.owe_keeps (s : State) (p : Pkt) (isPol : Bool) (k c : Nat) : Keeps s (State.owe s p isPol k c).1 := by
  unfold State.owe
  repeat' first
    | with_reducible exact Keeps.refl _ | with_reducible assumption | with_reducible refine Keeps.ite ?_ ?_
    | with_reducible refine Keeps.ite1 ?_ ?_
    | (apply Keeps.trans; case k => with_reducible first | apply State.trueUp_keeps)
    | split | dsimp only

theorem bodyPol_keeps (i : AInsn) (a : Act) (p : Pkt) (eg : Bool) (s : State) : Keeps s (bodyPol i a p eg s).1 := by
  unfold bodyPol
  repeat' first
    | with_reducible exact Keeps.refl _ | with_reducible assumption | with_reducible refine Keeps.ite ?_ ?_
    | with_reducible refine Keeps.ite1 ?_ ?_
    | (apply Keeps.trans
       case k =>
         with_reducible first
           | apply State.setPolicer_keeps | apply State.tally1_keeps | apply State.owe_keeps)
    | with_reducible refine Keeps.of_pair (State.owe_keeps ..) (by assumption) ?_
    | split | dsimp only

theorem execActionPol_keeps (n : Nat) (s : State) : KeepsR s (execActionPol n s) := by
  unfold execActionPol
  repeat' first
    | with_reducible exact Keeps.refl _ | with_reducible assumption | with_reducible refine KeepsR.next ?_
    | with_reducible refine Keeps.ite ?_ ?_ | with_reducible refine KeepsR.ite ?_ ?_ | with_reducible refine Keeps.ite1 ?_ ?_
    | (apply Keeps.trans; case k => with_reducible first | apply bodyPol_keeps)
    | with_reducible apply State.actionStep_keeps | with_reducible refine Keeps.trans ?_ (State.actionStep_keeps _ _ _ _  ?_)
    | with_reducible refine Keeps.of_pair (bodyPol_keeps ..) (by assumption) ?_
    | intro _ | split | dsimp only

theorem bodyCnt_keeps (i : AInsn) (a : Act) (p : Pkt) (a1 : Bool) (s : State) : Keeps s (bodyCnt i a p a1 s).1 := by
  unfold bodyCnt
  repeat' first
    | with_reducible exact Keeps.refl _ | with_reducible assumption | with_reducible refine Keeps.ite ?_ ?_
    | with_reducible refine Keeps.ite1 ?_ ?_
    | (apply Keeps.trans
       case k =>
         with_reducible first
           | apply State.incSat_keeps | apply State.pairAdd_keeps | apply State.owe_keeps)
    | with_reducible refine Keeps.of_pair (State.owe_keeps ..) (by assumption) ?_
    | split | dsimp only

theorem execActionCnt_keeps (n : Nat) (s : State) : KeepsR s (execActionCnt n s) := by
  unfold execActionCnt
  repeat' first
    | with_reducible exact Keeps.refl _ | with_reducible assumption | with_reducible refine KeepsR.next ?_
    | with_reducible refine Keeps.ite ?_ ?_ | with_reducible refine KeepsR.ite ?_ ?_ | with_reducible refine Keeps.ite1 ?_ ?_
    | (apply Keeps.trans; case k => with_reducible first | apply bodyCnt_keeps)
    | with_reducible apply State.actionStep_keeps | with_reducible refine Keeps.trans ?_ (State.actionStep_keeps _ _ _ _  ?_)
    | with_reducible refine Keeps.of_pair (bodyCnt_keeps ..) (by assumption) ?_
    | intro _ | split | dsimp only

theorem execActionHash_keeps (n : Nat) (s : State) : KeepsR s (execActionHash n s) := by
  unfold execActionHash
  repeat' first
    | with_reducible exact Keeps.refl _ | with_reducible assumption | with_reducible refine KeepsR.next ?_
    | with_reducible refine Keeps.ite ?_ ?_ | with_reducible refine KeepsR.ite ?_ ?_ | with_reducible refine Keeps.ite1 ?_ ?_
    | (apply Keeps.trans; case k => with_reducible first | apply writeT_keeps)
    | with_reducible apply State.actionStep_keeps | with_reducible refine Keeps.trans ?_ (State.actionStep_keeps _ _ _ _  ?_)
    | with_reducible refine Keeps.of_pair (writeT_keeps ..) (by assumption) ?_
    | intro _ | split | dsimp only

theorem bodyLearn_keeps (i : AInsn) (a : Act) (p : Pkt) (eg : Bool) (s : State) : Keeps s (bodyLearn i a p eg s).1 := by
  unfold bodyLearn
  repeat' first
    | with_reducible exact Keeps.refl _ | with_reducible assumption | with_reducible refine Keeps.ite ?_ ?_
    | with_reducible refine Keeps.ite1 ?_ ?_
    | (apply Keeps.trans; case k => with_reducible first | apply State.notify_keeps)
    | split | dsimp only

theorem execActionLearn_keeps (n : Nat) (s : State) : KeepsR s (execActionLearn n s) := by
  unfold execActionLearn
  repeat' first
    | with_reducible exact Keeps.refl _ | with_reducible assumption | with_reducible refine KeepsR.next ?_
    | with_reducible refine Keeps.ite ?_ ?_ | with_reducible refine KeepsR.ite ?_ ?_ | with_reducible refine Keeps.ite1 ?_ ?_
    | (apply Keeps.trans; case k => with_reducible first | apply bodyLearn_keeps)
    | with_reducible apply State.actionStep_keeps | with_reducible refine Keeps.trans ?_ (State.actionStep_keeps _ _ _ _  ?_)
    | with_reducible refine Keeps.of_pair (bodyLearn_keeps ..) (by assumption) ?_
    | intro _ | split | dsimp only

theorem execActionNop_keeps (n : Nat) (s : State) : KeepsR s (execActionNop n s) := by
  unfold execActionNop
  repeat' first
    | with_reducible exact Keeps.refl _ | with_reducible assumption | with_reducible refine KeepsR.next ?_
    | with_reducible refine Keeps.ite ?_ ?_ | with_reducible refine KeepsR.ite ?_ ?_
    | with_reducible apply State.actionStep_keeps | with_reducible refine Keeps.trans ?_ (State.actionStep_keeps _ _ _ _  ?_)
    | intro _ | split | dsimp only

end Sys2Proof.Machine
end

