-- ==== Sys2Proof/Laws/KeepsAgents.lean ====
section
/-!
SUPPORT. The operations of the table agents: none touches the queue, spoils the register space, takes back an output or draws a free value again.
-/
namespace Sys2Proof.Machine

theorem State.agDone_keeps (s : State) (a : Nat) (c : AgCode) : Keeps s (State.agDone s a c) := by
  unfold State.agDone
  repeat' first
    | with_reducible exact Keeps.refl _ | with_reducible assumption | with_reducible refine Keeps.ite ?_ ?_
    | (apply Keeps.trans; case k => with_reducible first | apply State.wr_keeps)
    | split | dsimp only

theorem State.agIndex_keeps (s : State) (a i : Nat) : Keeps s (State.agIndex s a i) := by
  unfold State.agIndex
  repeat' first
    | with_reducible exact Keeps.refl _ | with_reducible assumption | with_reducible refine Keeps.ite ?_ ?_
    | (apply Keeps.trans; case k => with_reducible first | apply State.wr_keeps)
    | split | dsimp only

theorem State.agData_keeps (s : State) (a n v : Nat) : Keeps s (State.agData s a n v) := by
  unfold State.agData
  repeat' first
    | with_reducible exact Keeps.refl _ | with_reducible assumption | with_reducible refine Keeps.ite ?_ ?_
    | (apply Keeps.trans; case k => with_reducible first | apply State.wr_keeps)
    | with_reducible refine Keeps.foldl ?_ (fun _ _ => ?_)
    | split | dsimp only

theorem State.putSlot_keeps (s : State) (d i v : Nat) : Keeps s (State.putSlot s d i v) := by
  unfold State.putSlot
  repeat' first
    | with_reducible exact Keeps.refl _ | with_reducible assumption | with_reducible refine Keeps.ite ?_ ?_
    | (apply Keeps.trans; case k => with_reducible first | apply State.sramPut_keeps)
    | split | dsimp only

theorem State.clearEntry_keeps (s : State) (d i : Nat) : Keeps s (State.clearEntry s d i) := by
  unfold State.clearEntry
  repeat' first
    | with_reducible exact Keeps.refl _ | with_reducible assumption | with_reducible refine Keeps.ite ?_ ?_
    | (apply Keeps.trans; case k => with_reducible first | apply State.putSlot_keeps)
    | with_reducible refine Keeps.foldl ?_ (fun _ _ => ?_)
    | split | dsimp only

theorem State.copyEntry_keeps (s : State) (d i j : Nat) : Keeps s (State.copyEntry s d i j) := by
  unfold State.copyEntry
  repeat' first
    | with_reducible exact Keeps.refl _ | with_reducible assumption | with_reducible refine Keeps.ite ?_ ?_
    | (apply Keeps.trans; case k => with_reducible first | apply State.putSlot_keeps)
    | split | dsimp only

theorem State.findPath_keeps (s : State) (d n : Nat) (l : List (List Nat)) (seen : List Nat) : Keeps s (s.findPath d n l seen).1 := by
  induction n generalizing s l seen with
  | zero => cases l <;> exact Keeps.refl s
  | succ n ih =>
    match l with
    | [] => exact Keeps.refl s
    | [] :: queue => exact ih _ _ _
    | (e :: p) :: queue =>
      unfold State.findPath
      dsimp only
      split
      · exact ih _ _ _
      · split
        · exact State.sramTouch_keeps ..
        · split
          · exact State.sramTouch_keeps ..
          · exact (State.sramTouch_keeps ..).trans (ih _ _ _)

theorem State.carryPath_keeps (s : State) (d : Nat) (l : List Nat) (f : Nat) : Keeps s (s.carryPath d l f).1 := by
  induction l generalizing s f with
  | nil => exact Keeps.refl s
  | cons e rest ih => exact ((State.copyEntry_keeps _ _ _ _).trans (State.clearEntry_keeps _ _ _)).trans (ih _ _)

theorem State.makeRoom_keeps (s : State) (d key : Nat) : Keeps s (s.makeRoom d key).1 := by
  unfold State.makeRoom
  dsimp only
  split
  · exact Keeps.refl s
  · split
    · exact Keeps.of_pair (State.findPath_keeps ..) (by assumption) (Keeps.refl s)
    · exact Keeps.of_pair (State.findPath_keeps ..) (by assumption) (Keeps.refl s)
    · exact (Keeps.of_pair (State.findPath_keeps ..) (by assumption) (Keeps.refl s)).trans (State.carryPath_keeps ..)

theorem State.placeNew_keeps (s : State) (a d key i : Nat) : Keeps s (State.placeNew s a d key i) := by
  unfold State.placeNew
  repeat' first
    | with_reducible exact Keeps.refl _ | with_reducible assumption | with_reducible refine Keeps.ite ?_ ?_
    | (apply Keeps.trans; case k => with_reducible first | apply State.putSlot_keeps)
    | split | dsimp only

theorem State.agSlotMeta_keeps (s : State) (a v : Nat) : Keeps s (State.agSlotMeta s a v) := by
  unfold State.agSlotMeta
  repeat' first
    | with_reducible exact Keeps.refl _ | with_reducible assumption | with_reducible refine Keeps.ite ?_ ?_
    | (apply Keeps.trans; case k => with_reducible first | apply State.wr_keeps)
    | split | dsimp only

theorem State.readEntry_keeps (s : State) (d i : Nat) : Keeps s (State.readEntry s d i) := by
  unfold State.readEntry
  repeat' first
    | with_reducible exact Keeps.refl _ | with_reducible assumption | with_reducible refine Keeps.ite ?_ ?_
    | (apply Keeps.trans; case k => with_reducible first | apply State.sramTouch_keeps)
    | with_reducible refine Keeps.foldl ?_ (fun _ _ => ?_)
    | split | dsimp only

theorem State.readExact_keeps (s : State) (a d i : Nat) : Keeps s (State.readExact s a d i) := by
  unfold State.readExact
  repeat' first
    | with_reducible exact Keeps.refl _ | with_reducible assumption | with_reducible refine Keeps.ite ?_ ?_
    | (apply Keeps.trans
       case k =>
         with_reducible first
           | apply State.agDone_keeps | apply State.readEntry_keeps | apply State.wr_keeps | apply State.agData_keeps
           | apply State.agSlotMeta_keeps | apply State.agIndex_keeps | apply State.sramPut_keeps)
    | split | dsimp only

theorem State.writeExact_keeps (s : State) (a d : Nat) : Keeps s (State.writeExact s a d) := by
  unfold State.writeExact
  repeat' first
    | with_reducible exact Keeps.refl _ | with_reducible assumption | with_reducible refine Keeps.ite ?_ ?_
    | (apply Keeps.trans
       case k =>
         with_reducible first
           | apply State.bucketsTouch_keeps | apply State.agDone_keeps | apply State.putSlot_keeps | apply State.agIndex_keeps)
    | split | dsimp only

theorem State.insertExact_keeps (s : State) (a d : Nat) : Keeps s (State.insertExact s a d) := by
  unfold State.insertExact
  repeat' first
    | with_reducible exact Keeps.refl _ | with_reducible assumption | with_reducible refine Keeps.ite ?_ ?_
    | with_reducible refine Keeps.ite1 ?_ ?_
    | (apply Keeps.trans
       case k =>
         with_reducible first
           | apply State.bucketsTouch_keeps | apply State.agDone_keeps | apply State.agIndex_keeps | apply State.makeRoom_keeps
           | apply State.placeNew_keeps)
    | with_reducible refine Keeps.of_pair (State.makeRoom_keeps ..) (by assumption) ?_
    | split | dsimp only

theorem State.deleteExact_keeps (s : State) (a d : Nat) : Keeps s (State.deleteExact s a d) := by
  unfold State.deleteExact
  repeat' first
    | with_reducible exact Keeps.refl _ | with_reducible assumption | with_reducible refine Keeps.ite ?_ ?_
    | (apply Keeps.trans
       case k =>
         with_reducible first
           | apply State.bucketsTouch_keeps | apply State.agDone_keeps | apply State.clearEntry_keeps | apply State.agIndex_keeps)
    | split | dsimp only

theorem State.searchExact_keeps (s : State) (a d : Nat) : Keeps s (State.searchExact s a d) := by
  unfold State.searchExact
  repeat' first
    | with_reducible exact Keeps.refl _ | with_reducible assumption | with_reducible refine Keeps.ite ?_ ?_
    | (apply Keeps.trans
       case k =>
         with_reducible first
           | apply State.bucketsTouch_keeps | apply State.agDone_keeps | apply State.agData_keeps | apply State.agSlotMeta_keeps
           | apply State.agIndex_keeps)
    | split | dsimp only

theorem State.mapEntry_keeps (s : State) (pos w : Nat) (f : Nat → StnUnit → StnUnit) : Keeps s (State.mapEntry s pos w f) := by
  unfold State.mapEntry
  repeat' first
    | with_reducible exact Keeps.refl _ | with_reducible assumption | with_reducible refine Keeps.ite ?_ ?_
    | (apply Keeps.trans; case k => with_reducible first | apply State.setUnit_keeps)
    | with_reducible refine Keeps.foldl ?_ (fun _ _ => ?_)
    | split | dsimp only

theorem State.agUnitMeta_keeps (s : State) (a pos : Nat) : Keeps s (State.agUnitMeta s a pos) := by
  unfold State.agUnitMeta
  repeat' first
    | with_reducible exact Keeps.refl _ | with_reducible assumption | with_reducible refine Keeps.ite ?_ ?_
    | (apply Keeps.trans; case k => with_reducible first | apply State.wr_keeps | apply State.wrBit_keeps)
    | split | dsimp only

theorem State.readStencil_keeps (s : State) (a : Nat) (r : Region) (i : Nat) : Keeps s (State.readStencil s a r i) := by
  unfold State.readStencil
  repeat' first
    | with_reducible exact Keeps.refl _ | with_reducible assumption | with_reducible refine Keeps.ite ?_ ?_
    | (apply Keeps.trans
       case k =>
         with_reducible first
           | apply State.agDone_keeps | apply State.sramTouch_keeps | apply State.wr_keeps | apply State.agData_keeps
           | apply State.agUnitMeta_keeps | apply State.agIndex_keeps | apply State.setUnit_keeps)
    | split | dsimp only

theorem State.writeStencil_keeps (s : State) (a : Nat) (r : Region) (i : Nat) : Keeps s (State.writeStencil s a r i) := by
  unfold State.writeStencil
  repeat' first
    | with_reducible exact Keeps.refl _ | with_reducible assumption | with_reducible refine Keeps.ite ?_ ?_
    | (apply Keeps.trans
       case k =>
         with_reducible first
           | apply State.agDone_keeps | apply State.setUnit_keeps | apply State.agIndex_keeps | apply State.mapEntry_keeps
           | apply State.sramPut_keeps | apply State.showSuspects_keeps)
    | split | dsimp only

theorem State.clearUnits_keeps (s : State) (pos w : Nat) : Keeps s (State.clearUnits s pos w) := by
  unfold State.clearUnits
  repeat' first
    | with_reducible exact Keeps.refl _ | with_reducible assumption | with_reducible refine Keeps.ite ?_ ?_
    | (apply Keeps.trans
       case k =>
         with_reducible first
           | apply State.setUnit_keeps | apply State.mapEntry_keeps | apply State.showSuspects_keeps)
    | split | dsimp only

theorem State.deleteStencil_keeps (s : State) (a : Nat) (r : Region) (i : Nat) : Keeps s (State.deleteStencil s a r i) := by
  unfold State.deleteStencil
  repeat' first
    | with_reducible exact Keeps.refl _ | with_reducible assumption | with_reducible refine Keeps.ite ?_ ?_
    | (apply Keeps.trans
       case k =>
         with_reducible first
           | apply State.agDone_keeps | apply State.clearUnits_keeps | apply State.agIndex_keeps)
    | split | dsimp only

theorem State.moveStencil_keeps (s : State) (a : Nat) (r : Region) (i j : Nat) : Keeps s (State.moveStencil s a r i j) := by
  unfold State.moveStencil
  repeat' first
    | with_reducible exact Keeps.refl _ | with_reducible assumption | with_reducible refine Keeps.ite ?_ ?_
    | (apply Keeps.trans
       case k =>
         with_reducible first
           | apply State.agDone_keeps | apply State.sramTouch_keeps | apply State.mapEntry_keeps | apply State.sramPut_keeps
           | apply State.setUnit_keeps | apply State.clearUnits_keeps | apply State.agIndex_keeps)
    | split | dsimp only

theorem State.searchStencil_keeps (s : State) (a d : Nat) : Keeps s (State.searchStencil s a d) := by
  unfold State.searchStencil
  repeat' first
    | with_reducible exact Keeps.refl _ | with_reducible assumption | with_reducible refine Keeps.ite ?_ ?_
    | with_reducible refine Keeps.ite1 ?_ ?_
    | (apply Keeps.trans
       case k =>
         with_reducible first
           | apply State.agDone_keeps | apply State.sramTouch_keeps | apply State.agData_keeps | apply State.agUnitMeta_keeps
           | apply State.agIndex_keeps | apply State.lpmRoute_keeps | apply State.lpmResult_keeps | apply State.wrBit_keeps
           | apply State.wr_keeps)
    | with_reducible refine Keeps.of_pair (State.lpmRoute_keeps ..) (by assumption) ?_
    | with_reducible refine Keeps.of_pair (State.lpmResult_keeps ..) (by assumption) ?_
    | split | dsimp only

theorem State.readIndex_keeps (s : State) (a base count words i : Nat) : Keeps s (State.readIndex s a base count words i) := by
  unfold State.readIndex
  repeat' first
    | with_reducible exact Keeps.refl _ | with_reducible assumption | with_reducible refine Keeps.ite ?_ ?_
    | (apply Keeps.trans
       case k =>
         with_reducible first
           | apply State.agDone_keeps | apply State.sramTouch_keeps | apply State.agData_keeps | apply State.agSlotMeta_keeps
           | apply State.agIndex_keeps | apply State.wrBit_keeps)
    | (apply Keeps.trans; case k => with_reducible first | apply State.withTables_keeps)
    | split | dsimp only

theorem State.writeIndex_keeps (s : State) (a base count words i v : Nat) :
    Keeps s (State.writeIndex s a base count words i v) := by
  unfold State.writeIndex
  repeat' first
    | with_reducible exact Keeps.refl _ | with_reducible assumption | with_reducible refine Keeps.ite ?_ ?_
    | (apply Keeps.trans
       case k =>
         with_reducible first
           | apply State.agDone_keeps | apply State.sramPut_keeps | apply State.agIndex_keeps)
    | split | dsimp only

theorem State.agCmd_keeps (s : State) (a op : Nat) (f : Space → State) (h : ∀ sp, Keeps s (f sp)) : Keeps s (s.agCmd a op f) := by
  unfold State.agCmd
  split
  · split
    · exact h _
    · exact State.agDone_keeps _ _ _
  · exact Keeps.refl s

theorem execAgentRead_keeps (a : Nat) (s : State) : KeepsR s (execAgentRead a s) := by
  unfold execAgentRead
  repeat' first
    | with_reducible exact Keeps.refl _ | with_reducible assumption | with_reducible refine KeepsR.next ?_
    | with_reducible refine Keeps.ite ?_ ?_ | with_reducible refine KeepsR.ite ?_ ?_
    | (apply Keeps.trans
       case k =>
         with_reducible first
           | apply State.readExact_keeps | apply State.readStencil_keeps | apply State.readIndex_keeps)
    | with_reducible apply State.agCmd_keeps | with_reducible refine Keeps.trans ?_ (State.agCmd_keeps _ _ _ _  ?_)
    | intro _ | split | dsimp only

theorem execAgentWrite_keeps (a : Nat) (s : State) : KeepsR s (execAgentWrite a s) := by
  unfold execAgentWrite
  repeat' first
    | with_reducible exact Keeps.refl _ | with_reducible assumption | with_reducible refine KeepsR.next ?_
    | with_reducible refine Keeps.ite ?_ ?_ | with_reducible refine KeepsR.ite ?_ ?_
    | (apply Keeps.trans
       case k =>
         with_reducible first
           | apply State.writeExact_keeps | apply State.writeStencil_keeps | apply State.writeIndex_keeps)
    | with_reducible apply State.agCmd_keeps | with_reducible refine Keeps.trans ?_ (State.agCmd_keeps _ _ _ _  ?_)
    | intro _ | split | dsimp only

theorem execAgentInsert_keeps (a : Nat) (s : State) : KeepsR s (execAgentInsert a s) := by
  unfold execAgentInsert
  repeat' first
    | with_reducible exact Keeps.refl _ | with_reducible assumption | with_reducible refine KeepsR.next ?_
    | with_reducible refine Keeps.ite ?_ ?_ | with_reducible refine KeepsR.ite ?_ ?_
    | (apply Keeps.trans; case k => with_reducible first | apply State.insertExact_keeps | apply State.agDone_keeps)
    | with_reducible apply State.agCmd_keeps | with_reducible refine Keeps.trans ?_ (State.agCmd_keeps _ _ _ _  ?_)
    | intro _ | split | dsimp only

theorem execAgentDelete_keeps (a : Nat) (s : State) : KeepsR s (execAgentDelete a s) := by
  unfold execAgentDelete
  repeat' first
    | with_reducible exact Keeps.refl _ | with_reducible assumption | with_reducible refine KeepsR.next ?_
    | with_reducible refine Keeps.ite ?_ ?_ | with_reducible refine KeepsR.ite ?_ ?_
    | (apply Keeps.trans
       case k =>
         with_reducible first
           | apply State.deleteExact_keeps | apply State.deleteStencil_keeps | apply State.writeIndex_keeps)
    | with_reducible apply State.agCmd_keeps | with_reducible refine Keeps.trans ?_ (State.agCmd_keeps _ _ _ _  ?_)
    | intro _ | split | dsimp only

theorem execAgentSearch_keeps (a : Nat) (s : State) : KeepsR s (execAgentSearch a s) := by
  unfold execAgentSearch
  repeat' first
    | with_reducible exact Keeps.refl _ | with_reducible assumption | with_reducible refine KeepsR.next ?_
    | with_reducible refine Keeps.ite ?_ ?_ | with_reducible refine KeepsR.ite ?_ ?_
    | (apply Keeps.trans
       case k =>
         with_reducible first
           | apply State.searchExact_keeps | apply State.searchStencil_keeps | apply State.agDone_keeps)
    | with_reducible apply State.agCmd_keeps | with_reducible refine Keeps.trans ?_ (State.agCmd_keeps _ _ _ _  ?_)
    | intro _ | split | dsimp only

theorem execAgentMove_keeps (a : Nat) (s : State) : KeepsR s (execAgentMove a s) := by
  unfold execAgentMove
  repeat' first
    | with_reducible exact Keeps.refl _ | with_reducible assumption | with_reducible refine KeepsR.next ?_
    | with_reducible refine Keeps.ite ?_ ?_ | with_reducible refine KeepsR.ite ?_ ?_
    | (apply Keeps.trans; case k => with_reducible first | apply State.agDone_keeps | apply State.moveStencil_keeps)
    | with_reducible apply State.agCmd_keeps | with_reducible refine Keeps.trans ?_ (State.agCmd_keeps _ _ _ _  ?_)
    | intro _ | split | dsimp only

theorem State.agStart_keeps (s : State) (a : Nat) : Keeps s (State.agStart s a) := by
  unfold State.agStart
  repeat' first
    | with_reducible exact Keeps.refl _ | with_reducible assumption | with_reducible refine Keeps.ite ?_ ?_
    | (apply Keeps.trans; case k => with_reducible first | apply State.wr_keeps | apply State.agDone_keeps)
    | split | dsimp only

end Sys2Proof.Machine
end

