-- ==== Sys2Proof/Laws/KeepsAddress.lean ====
section
/-!
SUPPORT. The operations of the register addresses: none touches the queue, spoils the register space, takes back an output or draws a free value again.
-/
namespace Sys2Proof.Machine

theorem State.storeWord_keeps (s : State) (addr v : Nat) : Keeps s (State.storeWord s addr v) := by
  unfold State.storeWord
  repeat' first
    | with_reducible exact Keeps.refl _ | with_reducible assumption | with_reducible refine Keeps.ite ?_ ?_
    | (apply Keeps.trans; case k => with_reducible first | apply State.setReg_keeps)
    | split | dsimp only

end Sys2Proof.Machine
end

