-- ==== Sys2Proof/Laws/KeepsTables.lean ====
section
/-!
SUPPORT. The operations of the tables: none touches the queue, spoils the register space, takes back an output or draws a free value again.
-/
namespace Sys2Proof.Machine

theorem State.repairUnit_keeps (s : State) (pos : Nat) : Keeps s (State.repairUnit s pos) := by
  unfold State.repairUnit
  repeat' first
    | with_reducible exact Keeps.refl _ | with_reducible assumption | with_reducible refine Keeps.ite ?_ ?_
    | (apply Keeps.trans; case k => with_reducible first | apply State.setUnit_keeps | apply State.incSat_keeps)
    | split | dsimp only

theorem State.copyUncorrectable_keeps (s : State) : Keeps s (State.copyUncorrectable s) := by
  unfold State.copyUncorrectable
  repeat' first
    | with_reducible exact Keeps.refl _ | with_reducible assumption | with_reducible refine Keeps.ite ?_ ?_
    | (apply Keeps.trans; case k => with_reducible first | apply State.setCause_keeps)
    | split | dsimp only

theorem execSuspectRepair_keeps (pos : Nat) (s : State) : KeepsR s (execSuspectRepair pos s) := by
  unfold execSuspectRepair
  repeat' first
    | with_reducible exact Keeps.refl _ | with_reducible assumption | with_reducible refine KeepsR.next ?_
    | with_reducible refine Keeps.ite ?_ ?_ | with_reducible refine KeepsR.ite ?_ ?_
    | (apply Keeps.trans
       case k =>
         with_reducible first
           | apply State.copyUncorrectable_keeps | apply State.repairUnit_keeps | apply State.setUnit_keeps
           | apply State.showSuspects_keeps)
    | with_reducible refine Keeps.foldl ?_ (fun _ _ => ?_)
    | split | dsimp only

theorem State.strikeStencil_keeps (s : State) (hits : List (Nat × Option Nat)) : Keeps s (State.strikeStencil s hits) := by
  unfold State.strikeStencil
  repeat' first
    | with_reducible exact Keeps.refl _ | with_reducible assumption | with_reducible refine Keeps.ite ?_ ?_
    | (apply Keeps.trans; case k => with_reducible first | apply State.setUnit_keeps)
    | with_reducible refine Keeps.foldl ?_ (fun _ _ => ?_)
    | split | dsimp only

theorem execStencilScrubStep_keeps (k : Nat) (hits : List (Nat × Option Nat)) (s : State) :
    KeepsR s (execStencilScrubStep k hits s) := by
  unfold execStencilScrubStep
  repeat' first
    | with_reducible exact Keeps.refl _ | with_reducible assumption | with_reducible refine KeepsR.next ?_
    | with_reducible refine Keeps.ite ?_ ?_ | with_reducible refine KeepsR.ite ?_ ?_
    | (apply Keeps.trans
       case k =>
         with_reducible first
           | apply State.advanceTo_keeps | apply State.copyUncorrectable_keeps | apply State.markSuspect_keeps
           | apply State.repairUnit_keeps | apply State.strikeStencil_keeps)
    | (apply Keeps.trans; case k => with_reducible first | apply State.withTables_keeps)
    | split | dsimp only

theorem execSramScrub_keeps (hits : List (Nat × Nat × Bool)) (s : State) : KeepsR s (execSramScrub hits s) := by
  unfold execSramScrub
  repeat' first
    | with_reducible exact Keeps.refl _ | with_reducible assumption | with_reducible refine KeepsR.next ?_
    | with_reducible refine Keeps.ite ?_ ?_ | with_reducible refine KeepsR.ite ?_ ?_
    | (apply Keeps.trans
       case k =>
         with_reducible first
           | apply State.incSat_keeps | apply State.wr_keeps | apply State.setCause_keeps)
    | with_reducible refine Keeps.foldl ?_ (fun _ _ => ?_)
    | (apply Keeps.trans; case k => with_reducible first | apply State.withBadWords_keeps)
    | split | dsimp only

theorem State.ageStart_keeps (s : State) (i : Nat) : Keeps s (State.ageStart s i) := by
  unfold State.ageStart
  repeat' first
    | with_reducible exact Keeps.refl _ | with_reducible assumption | with_reducible refine Keeps.ite ?_ ?_
    | (apply Keeps.trans; case k => with_reducible first | apply State.withTables_keeps)
    | split | dsimp only

theorem State.descWord0_keeps (s : State) (i v : Nat) : Keeps s (State.descWord0 s i v) := by
  unfold State.descWord0
  repeat' first
    | with_reducible exact Keeps.refl _ | with_reducible assumption | with_reducible refine Keeps.ite ?_ ?_
    | (apply Keeps.trans
       case k =>
         with_reducible first
           | apply State.setReg_keeps | apply State.ageStart_keeps | apply State.wr_keeps)
    | split | dsimp only

theorem execDescWord0Write_keeps (b : Bool) (t v : Nat) (s : State) : KeepsR s (execDescWord0Write b t v s) := by
  unfold execDescWord0Write
  repeat' first
    | with_reducible exact Keeps.refl _ | with_reducible assumption | with_reducible refine KeepsR.next ?_
    | with_reducible refine Keeps.ite ?_ ?_ | with_reducible refine KeepsR.ite ?_ ?_
    | (apply Keeps.trans; case k => with_reducible first | apply State.descWord0_keeps | apply State.wr_keeps)
    | with_reducible apply State.landed_keeps | with_reducible refine Keeps.trans ?_ (State.landed_keeps _ _ _  ?_)
    | intro _ | split | dsimp only

theorem State.bankWidthWrite_keeps (s : State) (k v : Nat) : Keeps s (State.bankWidthWrite s k v) := by
  unfold State.bankWidthWrite
  repeat' first
    | with_reducible exact Keeps.refl _ | with_reducible assumption | with_reducible refine Keeps.ite ?_ ?_
    | (apply Keeps.trans; case k => with_reducible first | apply State.wr_keeps)
    | split | dsimp only

theorem execBankWidthWrite_keeps (k v : Nat) (s : State) : KeepsR s (execBankWidthWrite k v s) := by
  unfold execBankWidthWrite
  repeat' first
    | with_reducible exact Keeps.refl _ | with_reducible assumption | with_reducible refine KeepsR.next ?_
    | with_reducible refine Keeps.ite ?_ ?_ | with_reducible refine KeepsR.ite ?_ ?_
    | (apply Keeps.trans; case k => with_reducible first | apply State.bankWidthWrite_keeps)
    | with_reducible apply State.landed_keeps | with_reducible refine Keeps.trans ?_ (State.landed_keeps _ _ _  ?_)
    | intro _ | split | dsimp only

theorem execAgeUnitTick_keeps (t : Nat) (s : State) : KeepsR s (execAgeUnitTick t s) := by
  unfold execAgeUnitTick
  repeat' first
    | with_reducible exact Keeps.refl _ | with_reducible assumption | with_reducible refine KeepsR.next ?_
    | with_reducible refine Keeps.ite ?_ ?_ | with_reducible refine KeepsR.ite ?_ ?_
    | (apply Keeps.trans; case k => with_reducible first | apply State.advanceTo_keeps)
    | (apply Keeps.trans; case k => with_reducible first | apply State.withTables_keeps)
    | split | dsimp only

theorem execAgeEntryVisit_keeps (t slot : Nat) (s : State) : KeepsR s (execAgeEntryVisit t slot s) := by
  unfold execAgeEntryVisit
  repeat' first
    | with_reducible exact Keeps.refl _ | with_reducible assumption | with_reducible refine KeepsR.next ?_
    | with_reducible refine Keeps.ite ?_ ?_ | with_reducible refine KeepsR.ite ?_ ?_
    | (apply Keeps.trans
       case k =>
         with_reducible first
           | apply State.readEntry_keeps | apply State.sramPut_keeps | apply State.notify_keeps)
    | split | dsimp only

theorem State.ageFlip_keeps (s : State) : Keeps s (State.ageFlip s) := by
  unfold State.ageFlip
  repeat' first
    | with_reducible exact Keeps.refl _ | with_reducible assumption | with_reducible refine Keeps.ite ?_ ?_
    | (apply Keeps.trans; case k => with_reducible first | apply State.ageStart_keeps)
    | with_reducible refine Keeps.foldl ?_ (fun _ _ => ?_)
    | (apply Keeps.trans; case k => with_reducible first | apply State.withTables_keeps)
    | split | dsimp only

end Sys2Proof.Machine
end

