-- ==== Sys2Proof/Laws/KeepsPounce.lean ====
section
/-!
SUPPORT. The operations of the Pounce engine: none touches the queue, spoils the register space, takes back an output or draws a free value again.
-/
namespace Sys2Proof.Machine

theorem State.setBudget_keeps (s : State) (b : Bucket) : Keeps s (State.setBudget s b) := by
  unfold State.setBudget
  repeat' first
    | with_reducible exact Keeps.refl _ | with_reducible assumption | with_reducible refine Keeps.ite ?_ ?_
    | (apply Keeps.trans; case k => with_reducible first | apply State.withTables_keeps)
    | split | dsimp only

theorem State.settleBudget_keeps (s : State) : Keeps s (State.settleBudget s) := by
  unfold State.settleBudget
  repeat' first
    | with_reducible exact Keeps.refl _ | with_reducible assumption | with_reducible refine Keeps.ite ?_ ?_
    | (apply Keeps.trans; case k => with_reducible first | apply State.setBudget_keeps)
    | split | dsimp only

theorem State.pncRead_keeps (s : State) (ws : List Nat) : Keeps s (State.pncRead s ws).1 := by
  unfold State.pncRead
  repeat' first
    | with_reducible exact Keeps.refl _ | with_reducible assumption | with_reducible refine Keeps.ite ?_ ?_
    | with_reducible refine Keeps.ite1 ?_ ?_
    | (apply Keeps.trans; case k => with_reducible first | apply State.incSat_keeps | apply State.setCause_keeps)
    | split | dsimp only

theorem State.pncRewrite_keeps (s : State) (w : Nat) : Keeps s (State.pncRewrite s w) := by
  unfold State.pncRewrite
  repeat' first
    | with_reducible exact Keeps.refl _ | with_reducible assumption | with_reducible refine Keeps.ite ?_ ?_
    | (apply Keeps.trans; case k => with_reducible first | apply State.withBadWords_keeps)
    | split | dsimp only

theorem State.pncSetWord0_keeps (s : State) (i v : Nat) : Keeps s (State.pncSetWord0 s i v) := by
  unfold State.pncSetWord0
  repeat' first
    | with_reducible exact Keeps.refl _ | with_reducible assumption | with_reducible refine Keeps.ite ?_ ?_
    | (apply Keeps.trans; case k => with_reducible first | apply State.setReg_keeps | apply State.wr_keeps)
    | split | dsimp only

theorem execSetDescWord0Write_keeps (b : Bool) (k v : Nat) (s : State) : KeepsR s (execSetDescWord0Write b k v s) := by
  unfold execSetDescWord0Write
  repeat' first
    | with_reducible exact Keeps.refl _ | with_reducible assumption | with_reducible refine KeepsR.next ?_
    | with_reducible refine Keeps.ite ?_ ?_ | with_reducible refine KeepsR.ite ?_ ?_
    | (apply Keeps.trans; case k => with_reducible first | apply State.pncSetWord0_keeps | apply State.wr_keeps)
    | with_reducible apply State.landed_keeps | with_reducible refine Keeps.trans ?_ (State.landed_keeps _ _ _  ?_)
    | intro _ | split | dsimp only

theorem State.putStateWord_keeps (s : State) (i : Nat) (v : BitVec 128) : Keeps s (State.putStateWord s i v) := by
  unfold State.putStateWord
  repeat' first
    | with_reducible exact Keeps.refl _ | with_reducible assumption | with_reducible refine Keeps.ite ?_ ?_
    | (apply Keeps.trans; case k => with_reducible first | apply State.pncRewrite_keeps)
    | (apply Keeps.trans; case k => with_reducible first | apply State.withTables_keeps)
    | split | dsimp only

theorem execLoadDataWrite_keeps (v : BitVec 128) (s : State) : KeepsR s (execLoadDataWrite v s) := by
  unfold execLoadDataWrite
  repeat' first
    | with_reducible exact Keeps.refl _ | with_reducible assumption | with_reducible refine KeepsR.next ?_
    | with_reducible refine Keeps.ite ?_ ?_ | with_reducible refine KeepsR.ite ?_ ?_
    | (apply Keeps.trans; case k => with_reducible first | apply State.putStateWord_keeps | apply State.wr_keeps)
    | with_reducible apply State.landed_keeps | with_reducible refine Keeps.trans ?_ (State.landed_keeps _ _ _  ?_)
    | intro _ | split | dsimp only

theorem State.inspect_keeps (s : State) (d : PncSet) (data : List Byte) (start e : Nat) :
    Keeps s (State.inspect s d data start e).1 := by
  unfold State.inspect
  repeat' first
    | with_reducible exact Keeps.refl _ | with_reducible assumption | with_reducible refine Keeps.ite ?_ ?_
    | with_reducible refine Keeps.ite1 ?_ ?_
    | (apply Keeps.trans
       case k =>
         with_reducible first
           | apply State.setBudget_keeps | apply State.incSat_keeps | apply State.pncRead_keeps)
    | with_reducible refine Keeps.of_pair (State.pncRead_keeps ..) (by assumption) ?_
    | split | dsimp only

theorem execPounceHandoff_keeps (n : Nat) (s : State) : KeepsR s (execPounceHandoff n s) := by
  unfold execPounceHandoff
  repeat' first
    | with_reducible exact Keeps.refl _ | with_reducible assumption | with_reducible refine KeepsR.next ?_
    | with_reducible refine Keeps.ite ?_ ?_ | with_reducible refine KeepsR.ite ?_ ?_ | with_reducible refine Keeps.ite1 ?_ ?_
    | (apply Keeps.trans; case k => with_reducible first | apply State.startAction_keeps | apply State.inspect_keeps)
    | with_reducible refine Keeps.of_pair (State.inspect_keeps ..) (by assumption) ?_
    | split | dsimp only

theorem State.legacySearch_keeps (s : State) (d : PncSet) (lgmask keyw key : Nat) :
    Keeps s (State.legacySearch s d lgmask keyw key).1 := by
  unfold State.legacySearch
  repeat' first
    | with_reducible exact Keeps.refl _ | with_reducible assumption | with_reducible refine Keeps.ite ?_ ?_
    | with_reducible refine Keeps.ite1 ?_ ?_
    | (apply Keeps.trans; case k => with_reducible first | apply State.incSat_keeps | apply State.pncRead_keeps)
    | with_reducible refine Keeps.of_pair (State.pncRead_keeps ..) (by assumption) ?_
    | split | dsimp only

theorem execLegacySearch_keeps (n : Nat) (s : State) : KeepsR s (execLegacySearch n s) := by
  unfold execLegacySearch
  repeat' first
    | with_reducible exact Keeps.refl _ | with_reducible assumption | with_reducible refine KeepsR.next ?_
    | with_reducible refine Keeps.ite ?_ ?_ | with_reducible refine KeepsR.ite ?_ ?_ | with_reducible refine Keeps.ite1 ?_ ?_
    | (apply Keeps.trans; case k => with_reducible first | apply State.legacySearch_keeps | apply State.startAction_keeps)
    | with_reducible refine Keeps.of_pair (State.legacySearch_keeps ..) (by assumption) ?_
    | split | dsimp only

end Sys2Proof.Machine
end

