-- ==== Sys2Proof/Laws/KeepsPace.lean ====
section
/-!
SUPPORT. The operations of the pace loop: none touches the queue, spoils the register space, takes back an output or draws a free value again.
-/
namespace Sys2Proof.Machine

theorem execFlitCrcReplay_keeps (toTraffic again : Bool) (ch : Nat) (s : State) :
    KeepsR s (execFlitCrcReplay toTraffic again ch s) := by
  unfold execFlitCrcReplay
  repeat' first
    | with_reducible exact Keeps.refl _ | with_reducible assumption | with_reducible refine KeepsR.next ?_
    | with_reducible refine Keeps.ite ?_ ?_ | with_reducible refine KeepsR.ite ?_ ?_
    | (apply Keeps.trans; case k => with_reducible first | apply State.emit_keeps)
    | (apply Keeps.trans; case k => with_reducible first | apply State.withSeam_keeps)
    | split | dsimp only

theorem execSeamReplayFailure_keeps (toTraffic : Bool) (s : State) : KeepsR s (execSeamReplayFailure toTraffic s) := by
  unfold execSeamReplayFailure
  repeat' first
    | with_reducible exact Keeps.refl _ | with_reducible assumption | with_reducible refine KeepsR.next ?_
    | with_reducible refine Keeps.ite ?_ ?_ | with_reducible refine KeepsR.ite ?_ ?_
    | (apply Keeps.trans; case k => with_reducible first | apply State.wr_keeps | apply State.setCause_keeps)
    | split | dsimp only

theorem execSeamDegraded_keeps (flitsFwd flitsTrf : Nat) (s : State) : KeepsR s (execSeamDegraded flitsFwd flitsTrf s) := by
  unfold execSeamDegraded
  repeat' first
    | with_reducible exact Keeps.refl _ | with_reducible assumption | with_reducible refine KeepsR.next ?_
    | with_reducible refine Keeps.ite ?_ ?_ | with_reducible refine KeepsR.ite ?_ ?_
    | (apply Keeps.trans; case k => with_reducible first | apply State.setCause_keeps)
    | (apply Keeps.trans; case k => with_reducible first | apply State.withSeam_keeps)
    | split | dsimp only

theorem State.declareDeficit_keeps (s : State) : Keeps s (State.declareDeficit s) := by
  unfold State.declareDeficit
  repeat' first
    | with_reducible exact Keeps.refl _ | with_reducible assumption | with_reducible refine Keeps.ite ?_ ?_
    | (apply Keeps.trans
       case k =>
         with_reducible first
           | apply State.setCause_keeps | apply State.incSat_keeps | apply State.wr_keeps)
    | (apply Keeps.trans; case k => with_reducible first | apply State.withPace_keeps)
    | split | dsimp only

theorem State.deficitRun_keeps (s : State) : Keeps s (State.deficitRun s) := by
  unfold State.deficitRun
  repeat' first
    | with_reducible exact Keeps.refl _ | with_reducible assumption | with_reducible refine Keeps.ite ?_ ?_
    | (apply Keeps.trans; case k => with_reducible first | apply State.declareDeficit_keeps)
    | (apply Keeps.trans; case k => with_reducible first | apply State.withPace_keeps)
    | split | dsimp only

theorem State.recoverMark_keeps (s : State) : Keeps s (State.recoverMark s) := by
  unfold State.recoverMark
  repeat' first
    | with_reducible exact Keeps.refl _ | with_reducible assumption | with_reducible refine Keeps.ite ?_ ?_
    | (apply Keeps.trans; case k => with_reducible first | apply State.withPace_keeps)
    | split | dsimp only

theorem execPaceWindow_keeps (counts : List Nat) (s : State) : KeepsR s (execPaceWindow counts s) := by
  unfold execPaceWindow
  repeat' first
    | with_reducible exact Keeps.refl _ | with_reducible assumption | with_reducible refine KeepsR.next ?_
    | with_reducible refine Keeps.ite ?_ ?_ | with_reducible refine KeepsR.ite ?_ ?_
    | (apply Keeps.trans
       case k =>
         with_reducible first
           | apply State.advanceTo_keeps | apply State.settleBudget_keeps | apply State.wr_keeps | apply State.freeDraws_keeps
           | apply State.deficitRun_keeps | apply State.recoverMark_keeps | apply State.sample_keeps)
    | with_reducible refine Keeps.foldl ?_ (fun _ _ => ?_)
    | (apply Keeps.trans; case k => with_reducible first | apply State.withPace_keeps)
    | split | dsimp only

theorem State.showRails_keeps (s : State) : Keeps s (State.showRails s) := by
  unfold State.showRails
  repeat' first
    | with_reducible exact Keeps.refl _ | with_reducible assumption | with_reducible refine Keeps.ite ?_ ?_
    | (apply Keeps.trans; case k => with_reducible first | apply State.wr_keeps | apply State.wrBit_keeps)
    | split | dsimp only

theorem execSupplyLoopStep_keeps (s : State) : KeepsR s (execSupplyLoopStep s) := by
  unfold execSupplyLoopStep
  repeat' first
    | with_reducible exact Keeps.refl _ | with_reducible assumption | with_reducible refine KeepsR.next ?_
    | with_reducible refine Keeps.ite ?_ ?_ | with_reducible refine KeepsR.ite ?_ ?_
    | (apply Keeps.trans; case k => with_reducible first | apply State.showRails_keeps | apply State.recoverMark_keeps)
    | (apply Keeps.trans; case k => with_reducible first | apply State.withPace_keeps)
    | split | dsimp only

theorem execShedLevel2Entry_keeps (s : State) : KeepsR s (execShedLevel2Entry s) := by
  unfold execShedLevel2Entry
  repeat' first
    | with_reducible exact Keeps.refl _ | with_reducible assumption | with_reducible refine KeepsR.next ?_
    | with_reducible refine Keeps.ite ?_ ?_ | with_reducible refine KeepsR.ite ?_ ?_
    | (apply Keeps.trans; case k => with_reducible first | apply State.advanceTo_keeps | apply State.wr_keeps)
    | (apply Keeps.trans; case k => with_reducible first | apply State.withPace_keeps)
    | split | dsimp only

theorem execShedStepDown_keeps (s : State) : KeepsR s (execShedStepDown s) := by
  unfold execShedStepDown
  repeat' first
    | with_reducible exact Keeps.refl _ | with_reducible assumption | with_reducible refine KeepsR.next ?_
    | with_reducible refine Keeps.ite ?_ ?_ | with_reducible refine KeepsR.ite ?_ ?_
    | (apply Keeps.trans
       case k =>
         with_reducible first
           | apply State.advanceTo_keeps | apply State.settleBudget_keeps | apply State.wr_keeps)
    | (apply Keeps.trans; case k => with_reducible first | apply State.withPace_keeps)
    | split | dsimp only

end Sys2Proof.Machine
end

