-- ==== Sys2Proof/Laws/KeepsCoat.lean ====
section
/-!
SUPPORT. The operations of the coat swap: none touches the queue, spoils the register space, takes back an output or draws a free value again.
-/
namespace Sys2Proof.Machine

theorem execCoatMeasure_keeps (s : State) : KeepsR s (execCoatMeasure s) := by
  unfold execCoatMeasure
  repeat' first
    | with_reducible exact Keeps.refl _ | with_reducible assumption | with_reducible refine KeepsR.next ?_
    | with_reducible refine Keeps.ite ?_ ?_ | with_reducible refine KeepsR.ite ?_ ?_
    | (apply Keeps.trans; case k => with_reducible first | apply State.withEasel_keeps)
    | split | dsimp only

theorem State.setCoatState_keeps (s : State) (n : Nat) : Keeps s (State.setCoatState s n) := by
  unfold State.setCoatState
  repeat' first
    | with_reducible exact Keeps.refl _ | with_reducible assumption | with_reducible refine Keeps.ite ?_ ?_
    | (apply Keeps.trans; case k => with_reducible first | apply State.wr_keeps)
    | split | dsimp only

theorem State.coatPause_keeps (s : State) (byTime : Bool) : Keeps s (State.coatPause s byTime) := by
  unfold State.coatPause
  repeat' first
    | with_reducible exact Keeps.refl _ | with_reducible assumption | with_reducible refine Keeps.ite ?_ ?_
    | (apply Keeps.trans; case k => with_reducible first | apply State.setCoatState_keeps)
    | (apply Keeps.trans; case k => with_reducible first | apply State.withCoat_keeps)
    | split | dsimp only

theorem State.coatRefuse_keeps (s : State) : Keeps s (State.coatRefuse s) := by
  unfold State.coatRefuse
  repeat' first
    | with_reducible exact Keeps.refl _ | with_reducible assumption | with_reducible refine Keeps.ite ?_ ?_
    | (apply Keeps.trans; case k => with_reducible first | apply State.wr_keeps)
    | split | dsimp only

theorem State.swapNow_keeps (s : State) : Keeps s (State.swapNow s) := by
  unfold State.swapNow
  repeat' first
    | with_reducible exact Keeps.refl _ | with_reducible assumption | with_reducible refine Keeps.ite ?_ ?_
    | (apply Keeps.trans; case k => with_reducible first | apply State.coatPause_keeps | apply State.coatRefuse_keeps)
    | split | dsimp only

theorem State.swapArm_keeps (s : State) : Keeps s (State.swapArm s) := by
  unfold State.swapArm
  repeat' first
    | with_reducible exact Keeps.refl _ | with_reducible assumption | with_reducible refine Keeps.ite ?_ ?_
    | (apply Keeps.trans; case k => with_reducible first | apply State.setCoatState_keeps | apply State.coatRefuse_keeps)
    | split | dsimp only

theorem State.swapCancel_keeps (s : State) : Keeps s (State.swapCancel s) := by
  unfold State.swapCancel
  repeat' first
    | with_reducible exact Keeps.refl _ | with_reducible assumption | with_reducible refine Keeps.ite ?_ ?_
    | (apply Keeps.trans; case k => with_reducible first | apply State.setCoatState_keeps | apply State.wr_keeps)
    | split | dsimp only

theorem execSwapNow_keeps (s : State) : KeepsR s (execSwapNow s) := by
  unfold execSwapNow
  repeat' first
    | with_reducible exact Keeps.refl _ | with_reducible assumption | with_reducible refine KeepsR.next ?_
    | with_reducible refine Keeps.ite ?_ ?_ | with_reducible refine KeepsR.ite ?_ ?_
    | (apply Keeps.trans; case k => with_reducible first | apply State.swapNow_keeps)
    | with_reducible apply State.landed_keeps | with_reducible refine Keeps.trans ?_ (State.landed_keeps _ _ _  ?_)
    | intro _ | split | dsimp only

theorem execSwapArm_keeps (s : State) : KeepsR s (execSwapArm s) := by
  unfold execSwapArm
  repeat' first
    | with_reducible exact Keeps.refl _ | with_reducible assumption | with_reducible refine KeepsR.next ?_
    | with_reducible refine Keeps.ite ?_ ?_ | with_reducible refine KeepsR.ite ?_ ?_
    | (apply Keeps.trans; case k => with_reducible first | apply State.swapArm_keeps)
    | with_reducible apply State.landed_keeps | with_reducible refine Keeps.trans ?_ (State.landed_keeps _ _ _  ?_)
    | intro _ | split | dsimp only

theorem execSwapCancel_keeps (s : State) : KeepsR s (execSwapCancel s) := by
  unfold execSwapCancel
  repeat' first
    | with_reducible exact Keeps.refl _ | with_reducible assumption | with_reducible refine KeepsR.next ?_
    | with_reducible refine Keeps.ite ?_ ?_ | with_reducible refine KeepsR.ite ?_ ?_
    | (apply Keeps.trans; case k => with_reducible first | apply State.swapCancel_keeps)
    | with_reducible apply State.landed_keeps | with_reducible refine Keeps.trans ?_ (State.landed_keeps _ _ _  ?_)
    | intro _ | split | dsimp only

theorem execArmedSwapTime_keeps (s : State) : KeepsR s (execArmedSwapTime s) := by
  unfold execArmedSwapTime
  repeat' first
    | with_reducible exact Keeps.refl _ | with_reducible assumption | with_reducible refine KeepsR.next ?_
    | with_reducible refine Keeps.ite ?_ ?_ | with_reducible refine KeepsR.ite ?_ ?_
    | (apply Keeps.trans; case k => with_reducible first | apply State.advanceTo_keeps | apply State.coatPause_keeps)
    | split | dsimp only

theorem State.coatFlip_keeps (s : State) : Keeps s (State.coatFlip s) := by
  unfold State.coatFlip
  repeat' first
    | with_reducible exact Keeps.refl _ | with_reducible assumption | with_reducible refine Keeps.ite ?_ ?_
    | (apply Keeps.trans
       case k =>
         with_reducible first
           | apply State.advanceTo_keeps | apply State.wrBit_keeps | apply State.setCoatState_keeps | apply State.wr_keeps
           | apply State.setCause_keeps | apply State.ageFlip_keeps)
    | (apply Keeps.trans; case k => with_reducible first | apply State.withCoat_keeps | apply State.withEasel_keeps)
    | split | dsimp only

theorem State.coatRetired_keeps (s : State) : Keeps s (State.coatRetired s) := by
  unfold State.coatRetired
  repeat' first
    | with_reducible exact Keeps.refl _ | with_reducible assumption | with_reducible refine Keeps.ite ?_ ?_
    | (apply Keeps.trans
       case k =>
         with_reducible first
           | apply State.setCoatState_keeps | apply State.wr_keeps | apply State.raise_keeps)
    | (apply Keeps.trans; case k => with_reducible first | apply State.withCoat_keeps)
    | split | dsimp only

theorem execCoatRetire_keeps (s : State) : KeepsR s (execCoatRetire s) := by
  unfold execCoatRetire
  repeat' first
    | with_reducible exact Keeps.refl _ | with_reducible assumption | with_reducible refine KeepsR.next ?_
    | with_reducible refine Keeps.ite ?_ ?_ | with_reducible refine KeepsR.ite ?_ ?_
    | (apply Keeps.trans; case k => with_reducible first | apply State.coatRetired_keeps | apply State.advanceTo_keeps)
    | (apply Keeps.trans; case k => with_reducible first | apply State.withCoat_keeps)
    | split | dsimp only

end Sys2Proof.Machine
end

