-- ==== Sys2Proof/Laws/KeepsCode.lean ====
section
/-!
SUPPORT. The operations of the DRAM codewords: none touches the queue, spoils the register space, takes back an output or draws a free value again.
-/
namespace Sys2Proof.Machine

theorem State.setBuf_keeps (s : State) (p w : Nat) : Keeps s (State.setBuf s p w) := by
  unfold State.setBuf
  repeat' first
    | with_reducible exact Keeps.refl _ | with_reducible assumption | with_reducible refine Keeps.ite ?_ ?_
    | (apply Keeps.trans; case k => with_reducible first | apply State.withPalette_keeps)
    | split | dsimp only

theorem State.setLink_keeps (s : State) (p next : Nat) : Keeps s (State.setLink s p next) := by
  unfold State.setLink
  repeat' first
    | with_reducible exact Keeps.refl _ | with_reducible assumption | with_reducible refine Keeps.ite ?_ ?_
    | (apply Keeps.trans; case k => with_reducible first | apply State.withPalette_keeps)
    | split | dsimp only

theorem State.setChan_keeps (s : State) (ch : Nat) (c : Channel) : Keeps s (State.setChan s ch c) := by
  unfold State.setChan
  repeat' first
    | with_reducible exact Keeps.refl _ | with_reducible assumption | with_reducible refine Keeps.ite ?_ ?_
    | (apply Keeps.trans; case k => with_reducible first | apply State.idle_keeps)
    | (apply Keeps.trans; case k => with_reducible first | apply State.withDram_keeps)
    | split | dsimp only

theorem State.healBuf_keeps (s : State) (p : Nat) : Keeps s (State.healBuf s p) := by
  unfold State.healBuf
  repeat' first
    | with_reducible exact Keeps.refl _ | with_reducible assumption | with_reducible refine Keeps.ite ?_ ?_
    | (apply Keeps.trans; case k => with_reducible first | apply State.withDram_keeps | apply State.withBadWords_keeps)
    | split | dsimp only

theorem State.setOctets_keeps (s : State) (p : Nat) (bs : List Byte) : Keeps s (State.setOctets s p bs) := by
  unfold State.setOctets
  repeat' first
    | with_reducible exact Keeps.refl _ | with_reducible assumption | with_reducible refine Keeps.ite ?_ ?_
    | (apply Keeps.trans; case k => with_reducible first | apply State.withPalette_keeps)
    | split | dsimp only

theorem State.putOctets_keeps (s : State) (ps : List Nat) (bs : List Byte) : Keeps s (s.putOctets ps bs) := by
  induction ps generalizing s bs with
  | nil => exact Keeps.refl s
  | cons p ps ih => exact ((State.healBuf_keeps ..).trans (State.setOctets_keeps ..)).trans (ih _ _)

theorem State.setPersist_keeps (s : State) (p : Persist) : Keeps s (State.setPersist s p) := by
  unfold State.setPersist
  repeat' first
    | with_reducible exact Keeps.refl _ | with_reducible assumption | with_reducible refine Keeps.ite ?_ ?_
    | (apply Keeps.trans; case k => with_reducible first | apply State.withEasel_keeps)
    | split | dsimp only

theorem State.showRetired_keeps (s : State) : Keeps s (State.showRetired s) := by
  unfold State.showRetired
  repeat' first
    | with_reducible exact Keeps.refl _ | with_reducible assumption | with_reducible refine Keeps.ite ?_ ?_
    | (apply Keeps.trans; case k => with_reducible first | apply State.wr_keeps)
    | split | dsimp only

theorem State.markBuf_keeps (s : State) (p : Nat) : Keeps s (State.markBuf s p) := by
  unfold State.markBuf
  repeat' first
    | with_reducible exact Keeps.refl _ | with_reducible assumption | with_reducible refine Keeps.ite ?_ ?_
    | (apply Keeps.trans; case k => with_reducible first | apply State.setPersist_keeps)
    | split | dsimp only

theorem State.markBad_keeps (s : State) (p : Nat) : Keeps s (State.markBad s p) := by
  unfold State.markBad
  repeat' first
    | with_reducible exact Keeps.refl _ | with_reducible assumption | with_reducible refine Keeps.ite ?_ ?_
    | (apply Keeps.trans; case k => with_reducible first | apply State.markBuf_keeps)
    | split | dsimp only

theorem State.trackCe_keeps (s : State) (p : Nat) : Keeps s (State.trackCe s p) := by
  unfold State.trackCe
  repeat' first
    | with_reducible exact Keeps.refl _ | with_reducible assumption | with_reducible refine Keeps.ite ?_ ?_
    | (apply Keeps.trans; case k => with_reducible first | apply State.markBad_keeps)
    | (apply Keeps.trans; case k => with_reducible first | apply State.withPalette_keeps)
    | split | dsimp only

theorem State.showErrLog_keeps (s : State) : Keeps s (State.showErrLog s) := by
  unfold State.showErrLog
  repeat' first
    | with_reducible exact Keeps.refl _ | with_reducible assumption | with_reducible refine Keeps.ite ?_ ?_
    | (apply Keeps.trans; case k => with_reducible first | apply State.setReg_keeps)
    | split | dsimp only

theorem State.errPost_keeps (s : State) (kind ch symbol : Nat) (p : Place) : Keeps s (State.errPost s kind ch symbol p) := by
  unfold State.errPost
  repeat' first
    | with_reducible exact Keeps.refl _ | with_reducible assumption | with_reducible refine Keeps.ite ?_ ?_
    | (apply Keeps.trans; case k => with_reducible first | apply State.showErrLog_keeps | apply State.raise_keeps)
    | (apply Keeps.trans; case k => with_reducible first | apply State.withDram_keeps)
    | split | dsimp only

theorem State.switching_keeps (s : State) : Keeps s (State.switching s) := by
  unfold State.switching
  repeat' first
    | with_reducible exact Keeps.refl _ | with_reducible assumption | with_reducible refine Keeps.ite ?_ ?_
    | (apply Keeps.trans
       case k =>
         with_reducible first
           | apply State.wr_keeps | apply State.setChan_keeps | apply State.emit_keeps)
    | with_reducible refine Keeps.foldl ?_ (fun _ _ => ?_)
    | split | dsimp only

theorem State.showCaches_keeps (s : State) : Keeps s (State.showCaches s) := by
  unfold State.showCaches
  repeat' first
    | with_reducible exact Keeps.refl _ | with_reducible assumption | with_reducible refine Keeps.ite ?_ ?_
    | (apply Keeps.trans; case k => with_reducible first | apply State.wr_keeps)
    | split | dsimp only

theorem State.dropLost_keeps (s : State) : Keeps s (State.dropLost s) := by
  unfold State.dropLost
  repeat' first
    | with_reducible exact Keeps.refl _ | with_reducible assumption | with_reducible refine Keeps.ite ?_ ?_
    | (apply Keeps.trans; case k => with_reducible first | apply State.wr_keeps | apply State.showCaches_keeps)
    | (apply Keeps.trans; case k => with_reducible first | apply State.withPalette_keeps)
    | split | dsimp only

theorem State.loseChannel_keeps (s : State) (ch cause : Nat) : Keeps s (State.loseChannel s ch cause) := by
  unfold State.loseChannel
  repeat' first
    | with_reducible exact Keeps.refl _ | with_reducible assumption | with_reducible refine Keeps.ite ?_ ?_
    | (apply Keeps.trans
       case k =>
         with_reducible first
           | apply State.wr_keeps | apply State.raise_keeps | apply State.setChan_keeps | apply State.dropLost_keeps
           | apply State.incSat_keeps | apply State.switching_keeps)
    | split | dsimp only

theorem State.countUe_keeps (s : State) (ch : Nat) : Keeps s (State.countUe s ch) := by
  unfold State.countUe
  repeat' first
    | with_reducible exact Keeps.refl _ | with_reducible assumption | with_reducible refine Keeps.ite ?_ ?_
    | (apply Keeps.trans; case k => with_reducible first | apply State.setChan_keeps | apply State.loseChannel_keeps)
    | split | dsimp only

theorem State.strikeDram_keeps (s : State) (ch : Nat) (dq cb : List (Nat × Nat)) (fails : List Nat) :
    Keeps s (State.strikeDram s ch dq cb fails) := by
  unfold State.strikeDram
  repeat' first
    | with_reducible exact Keeps.refl _ | with_reducible assumption | with_reducible refine Keeps.ite ?_ ?_
    | with_reducible refine Keeps.foldl ?_ (fun _ _ => ?_)
    | (apply Keeps.trans; case k => with_reducible first | apply State.withDram_keeps)
    | split | dsimp only

theorem State.strikeCanvas_keeps (s : State) (words : List (Nat × Bool)) : Keeps s (State.strikeCanvas s words) := by
  unfold State.strikeCanvas
  repeat' first
    | with_reducible exact Keeps.refl _ | with_reducible assumption | with_reducible refine Keeps.ite ?_ ?_
    | (apply Keeps.trans; case k => with_reducible first | apply State.withBadWords_keeps)
    | split | dsimp only

theorem State.openData_keeps (s : State) (ch a : Nat) : Keeps s (State.openData s ch a) := by
  unfold State.openData
  repeat' first
    | with_reducible exact Keeps.refl _ | with_reducible assumption | with_reducible refine Keeps.ite ?_ ?_
    | (apply Keeps.trans
       case k =>
         with_reducible first
           | apply State.setOctets_keeps | apply State.freeDraw_keeps | apply State.setBuf_keeps | apply State.setLink_keeps)
    | (apply Keeps.trans; case k => with_reducible first | apply State.withTally_keeps)
    | split | dsimp only

theorem State.noteWord_keeps (s : State) (ch a : Nat) (f : Found) : Keeps s (State.noteWord s ch a f) := by
  unfold State.noteWord
  repeat' first
    | with_reducible exact Keeps.refl _ | with_reducible assumption | with_reducible refine Keeps.ite ?_ ?_
    | (apply Keeps.trans
       case k =>
         with_reducible first
           | apply State.incSat_keeps | apply State.errPost_keeps | apply State.trackCe_keeps | apply State.openData_keeps
           | apply State.raise_keeps | apply State.countUe_keeps)
    | split | dsimp only

theorem State.codeword_keeps (s : State) (ch a : Nat) : Keeps s (State.codeword s ch a).1 := by
  unfold State.codeword
  repeat' first
    | with_reducible exact Keeps.refl _ | with_reducible assumption | with_reducible refine Keeps.ite ?_ ?_
    | with_reducible refine Keeps.ite1 ?_ ?_
    | (apply Keeps.trans; case k => with_reducible first | apply State.freeDraw_keeps | apply State.noteWord_keeps)
    | split | dsimp only

theorem State.codewords_keeps (s : State) (ch : Nat) (l : List Nat) : Keeps s (s.codewords ch l).1 := by
  induction l generalizing s with
  | nil => exact Keeps.refl s
  | cons a as ih =>
    have h : Keeps s ((s.codeword ch a).1.codewords ch as).1 := (State.codeword_keeps ..).trans (ih _)
    unfold State.codewords
    dsimp only
    split <;> exact h

theorem State.healBurst_keeps (s : State) (ch a : Nat) : Keeps s (State.healBurst s ch a) := by
  unfold State.healBurst
  repeat' first
    | with_reducible exact Keeps.refl _ | with_reducible assumption | with_reducible refine Keeps.ite ?_ ?_
    | (apply Keeps.trans; case k => with_reducible first | apply State.withDram_keeps)
    | split | dsimp only

theorem State.writeBack_keeps (s : State) (ch a : Nat) (stale : Bool) : Keeps s (State.writeBack s ch a stale) := by
  unfold State.writeBack
  repeat' first
    | with_reducible exact Keeps.refl _ | with_reducible assumption | with_reducible refine Keeps.ite ?_ ?_
    | (apply Keeps.trans; case k => with_reducible first | apply State.setChan_keeps)
    | split | dsimp only

theorem State.readDirect_keeps (s : State) (ch : Nat) (as : List Nat) : Keeps s (s.readDirect ch as).1 := by
  unfold State.readDirect
  exact Keeps.ite (Keeps.foldl (State.codewords_keeps ..) (fun _ _ => State.writeBack_keeps ..)) (State.codewords_keeps ..)

theorem State.dramPut_keeps (s : State) (ch : Nat) (r : Req) : Keeps s (State.dramPut s ch r) := by
  unfold State.dramPut
  repeat' first
    | with_reducible exact Keeps.refl _ | with_reducible assumption | with_reducible refine Keeps.ite ?_ ?_
    | (apply Keeps.trans; case k => with_reducible first | apply State.setChan_keeps)
    | split | dsimp only

theorem State.dramPutAll_keeps (s : State) (write : Bool) (rt : Nat) (for_ : ReadFor) (bs : List (Nat × Nat)) :
    Keeps s (State.dramPutAll s write rt for_ bs) := by
  unfold State.dramPutAll
  repeat' first
    | with_reducible exact Keeps.refl _ | with_reducible assumption | with_reducible refine Keeps.ite ?_ ?_
    | (apply Keeps.trans; case k => with_reducible first | apply State.dramPut_keeps)
    | with_reducible refine Keeps.foldl ?_ (fun _ _ => ?_)
    | split | dsimp only

theorem State.cancelReads_keeps (s : State) (k : Nat) : Keeps s (State.cancelReads s k) := by
  unfold State.cancelReads
  repeat' first
    | with_reducible exact Keeps.refl _ | with_reducible assumption | with_reducible refine Keeps.ite ?_ ?_
    | (apply Keeps.trans; case k => with_reducible first | apply State.serve_keeps | apply State.setChan_keeps)
    | with_reducible refine Keeps.foldl ?_ (fun _ _ => ?_)
    | split | dsimp only

end Sys2Proof.Machine
end

