-- ==== Sys2Proof/Laws/KeepsPalette.lean ====
section
/-!
SUPPORT. The operations of the buffers: none touches the queue, spoils the register space, takes back an output or draws a free value again.
-/
namespace Sys2Proof.Machine

theorem State.hold_keeps (s : State) (o p : Nat) (more : Bool) : Keeps s (State.hold s o p more) := by
  unfold State.hold
  repeat' first
    | with_reducible exact Keeps.refl _ | with_reducible assumption | with_reducible refine Keeps.ite ?_ ?_
    | (apply Keeps.trans; case k => with_reducible first | apply State.wr_keeps)
    | (apply Keeps.trans; case k => with_reducible first | apply State.withPalette_keeps)
    | split | dsimp only

theorem State.freeCount_keeps (s : State) (p : Nat) (more : Bool) : Keeps s (State.freeCount s p more) := by
  unfold State.freeCount
  repeat' first
    | with_reducible exact Keeps.refl _ | with_reducible assumption | with_reducible refine Keeps.ite ?_ ?_
    | (apply Keeps.trans; case k => with_reducible first | apply State.wr_keeps)
    | (apply Keeps.trans; case k => with_reducible first | apply State.withPalette_keeps)
    | split | dsimp only

theorem State.setStripeHead_keeps (s : State) (k p : Nat) : Keeps s (State.setStripeHead s k p) := by
  unfold State.setStripeHead
  repeat' first
    | with_reducible exact Keeps.refl _ | with_reducible assumption | with_reducible refine Keeps.ite ?_ ?_
    | (apply Keeps.trans; case k => with_reducible first | apply State.withPalette_keeps)
    | split | dsimp only

theorem State.setChainHead_keeps (s : State) (c p : Nat) : Keeps s (State.setChainHead s c p) := by
  unfold State.setChainHead
  repeat' first
    | with_reducible exact Keeps.refl _ | with_reducible assumption | with_reducible refine Keeps.ite ?_ ?_
    | (apply Keeps.trans; case k => with_reducible first | apply State.withPalette_keeps)
    | split | dsimp only

theorem State.popStripe_keeps {s t : State} {k p : Nat} (h : s.popStripe k = some (t, p)) : Keeps s t := by
  unfold State.popStripe at h
  dsimp only at h
  split at h
  · cases h
  · cases h; exact (State.setStripeHead_keeps ..).trans (State.withPalette_keeps ..)

theorem State.popCanvas_keeps {s t : State} {p : Nat} (h : s.popCanvas = some (t, p)) : Keeps s t := by
  unfold State.popCanvas at h
  obtain ⟨a, _, ha⟩ := List.exists_of_findSome?_eq_some h
  exact State.popStripe_keeps ha

theorem State.pushStripe_keeps (s : State) (p : Nat) : Keeps s (State.pushStripe s p) := by
  unfold State.pushStripe
  repeat' first
    | with_reducible exact Keeps.refl _ | with_reducible assumption | with_reducible refine Keeps.ite ?_ ?_
    | (apply Keeps.trans; case k => with_reducible first | apply State.setOctets_keeps | apply State.setStripeHead_keeps)
    | split | dsimp only

theorem State.popHead_keeps {s t : State} {p : Nat} (h : s.popHead = some (t, p)) : Keeps s t := by
  unfold State.popHead at h
  split at h
  · cases h
  · cases h; exact (State.withPalette_keeps _ _).trans (State.showCaches_keeps _)

theorem State.pushBundle_keeps (s : State) (ptrs : List Nat) : Keeps s (State.pushBundle s ptrs) := by
  unfold State.pushBundle
  repeat' first
    | with_reducible exact Keeps.refl _ | with_reducible assumption | with_reducible refine Keeps.ite ?_ ?_
    | (apply Keeps.trans
       case k =>
         with_reducible first
           | apply State.healBuf_keeps | apply State.setOctets_keeps | apply State.setChainHead_keeps)
    | (apply Keeps.trans; case k => with_reducible first | apply State.withPalette_keeps)
    | split | dsimp only

theorem State.pushDram_keeps (s : State) (b : Nat) : Keeps s (State.pushDram s b) := by
  unfold State.pushDram
  repeat' first
    | with_reducible exact Keeps.refl _ | with_reducible assumption | with_reducible refine Keeps.ite ?_ ?_
    | (apply Keeps.trans; case k => with_reducible first | apply State.pushBundle_keeps | apply State.showCaches_keeps)
    | (apply Keeps.trans; case k => with_reducible first | apply State.withPalette_keeps)
    | split | dsimp only

theorem State.pushFree_keeps (s : State) (p : Nat) : Keeps s (State.pushFree s p) := by
  unfold State.pushFree
  repeat' first
    | with_reducible exact Keeps.refl _ | with_reducible assumption | with_reducible refine Keeps.ite ?_ ?_
    | (apply Keeps.trans; case k => with_reducible first | apply State.pushDram_keeps | apply State.pushStripe_keeps)
    | split | dsimp only

theorem State.losePtrs_keeps (s : State) (n : Nat) : Keeps s (State.losePtrs s n) := by
  unfold State.losePtrs
  repeat' first
    | with_reducible exact Keeps.refl _ | with_reducible assumption | with_reducible refine Keeps.ite ?_ ?_
    | (apply Keeps.trans; case k => with_reducible first | apply State.wr_keeps)
    | (apply Keeps.trans; case k => with_reducible first | apply State.withPalette_keeps)
    | split | dsimp only

theorem State.popBundle_keeps {s t : State} {c : Nat} {ps : List Nat} (h : s.popBundle c = some (t, ps)) : Keeps s t := by
  unfold State.popBundle at h
  dsimp only at h
  split at h
  · cases h
  · split at h
    · cases h
      exact ((State.readDirect_keeps ..).trans (State.withPalette_keeps ..)).trans (State.setChainHead_keeps ..)
    · split at h
      · cases h
        exact ((((State.readDirect_keeps ..).trans (State.withPalette_keeps ..)).trans (State.losePtrs_keeps ..)).trans
          (State.markBad_keeps ..)).trans (State.setChainHead_keeps ..)
      · cases h
        exact ((((State.readDirect_keeps ..).trans (State.withPalette_keeps ..)).trans (State.losePtrs_keeps ..)).trans
          (State.markBad_keeps ..)).trans (State.setChainHead_keeps ..)

theorem State.refillChains_keeps (s : State) (n : Nat) : Keeps s (s.refillChains n) := by
  induction n generalizing s with
  | zero => exact Keeps.refl s
  | succ n ih =>
    unfold State.refillChains
    split
    · exact Keeps.refl s
    · split
      · exact Keeps.refl s
      · rename_i h
        obtain ⟨a, _, ha⟩ := List.exists_of_findSome?_eq_some h
        exact ((State.popBundle_keeps ha).trans (State.withPalette_keeps _ _)).trans (ih _)

theorem State.headRefill_keeps (s : State) : Keeps s (State.headRefill s) := by
  unfold State.headRefill
  repeat' first
    | with_reducible exact Keeps.refl _ | with_reducible assumption | with_reducible refine Keeps.ite ?_ ?_
    | (apply Keeps.trans; case k => with_reducible first | apply State.refillChains_keeps | apply State.showCaches_keeps)
    | (apply Keeps.trans; case k => with_reducible first | apply State.withPalette_keeps)
    | split | dsimp only

theorem execHeadCacheRefill_keeps (s : State) : KeepsR s (execHeadCacheRefill s) := by
  unfold execHeadCacheRefill
  repeat' first
    | with_reducible exact Keeps.refl _ | with_reducible assumption | with_reducible refine KeepsR.next ?_
    | with_reducible refine Keeps.ite ?_ ?_ | with_reducible refine KeepsR.ite ?_ ?_
    | (apply Keeps.trans; case k => with_reducible first | apply State.headRefill_keeps)
    | split | dsimp only

theorem State.pushBack_keeps (s : State) (n : Nat) (ps : List Nat) : Keeps s (s.pushBack n ps) := by
  induction n generalizing s ps with
  | zero => exact Keeps.refl s
  | succ n ih =>
    unfold State.pushBack
    exact Keeps.ite (Keeps.refl s) ((State.pushBundle_keeps _ _).trans (ih _ _))

theorem State.headCacheBack_keeps (s : State) : Keeps s (State.headCacheBack s) := by
  unfold State.headCacheBack
  repeat' first
    | with_reducible exact Keeps.refl _ | with_reducible assumption | with_reducible refine Keeps.ite ?_ ?_
    | (apply Keeps.trans
       case k =>
         with_reducible first
           | apply State.pushBack_keeps | apply State.incWrap_keeps | apply State.showCaches_keeps)
    | (apply Keeps.trans; case k => with_reducible first | apply State.withPalette_keeps)
    | split | dsimp only

theorem State.palError_keeps (s : State) (double : Bool) (p o : Nat) : Keeps s (State.palError s double p o) := by
  unfold State.palError
  repeat' first
    | with_reducible exact Keeps.refl _ | with_reducible assumption | with_reducible refine Keeps.ite ?_ ?_
    | (apply Keeps.trans
       case k =>
         with_reducible first
           | apply State.wr_keeps | apply State.incSat_keeps | apply State.setCause_keeps)
    | split | dsimp only

theorem State.poolEmpty_keeps (s : State) (c : Nat) : Keeps s (State.poolEmpty s c) := by
  unfold State.poolEmpty
  repeat' first
    | with_reducible exact Keeps.refl _ | with_reducible assumption | with_reducible refine Keeps.ite ?_ ?_
    | (apply Keeps.trans; case k => with_reducible first | apply State.incSat_keeps | apply State.sample_keeps)
    | split | dsimp only

theorem State.palAlloc_keeps (s : State) (c o pool : Nat) : Keeps s (s.palAlloc c o pool).1 := by
  have h0 : Keeps s (if c = 4 ∧ s.palette.headCache = [] then s.incSat F.PAL_POOL_STATUS.CACHE_EMPTY 1 else s) :=
    Keeps.ite (State.incSat_keeps ..) (Keeps.refl s)
  unfold State.palAlloc
  dsimp only
  split
  · exact h0.trans (State.poolEmpty_keeps ..)
  · split
    · exact h0.trans (State.poolEmpty_keeps ..)
    · rename_i s1 p h
      have h1 : Keeps s s1 := by
        split at h
        · exact State.popHead_keeps h
        · exact State.popCanvas_keeps h
      exact (((h1.trans (State.setBuf_keeps ..)).trans (State.setLink_keeps ..)).trans (State.hold_keeps ..)).trans
        (State.freeCount_keeps ..)

theorem State.release_keeps (s : State) (p : Nat) : Keeps s (State.release s p) := by
  unfold State.release
  repeat' first
    | with_reducible exact Keeps.refl _ | with_reducible assumption | with_reducible refine Keeps.ite ?_ ?_
    | (apply Keeps.trans
       case k =>
         with_reducible first
           | apply State.hold_keeps | apply State.setBuf_keeps | apply State.setPersist_keeps | apply State.showRetired_keeps
           | apply State.wr_keeps | apply State.freeCount_keeps | apply State.pushFree_keeps)
    | split | dsimp only

theorem State.palFree_keeps (s : State) (p o : Nat) : Keeps s (State.palFree s p o).1 := by
  unfold State.palFree
  repeat' first
    | with_reducible exact Keeps.refl _ | with_reducible assumption | with_reducible refine Keeps.ite ?_ ?_
    | with_reducible refine Keeps.ite1 ?_ ?_
    | (apply Keeps.trans
       case k =>
         with_reducible first
           | apply State.palError_keeps | apply State.release_keeps | apply State.setBuf_keeps)
    | split | dsimp only

theorem State.palRef_keeps (s : State) (p : Nat) : Keeps s (State.palRef s p).1 := by
  unfold State.palRef
  repeat' first
    | with_reducible exact Keeps.refl _ | with_reducible assumption | with_reducible refine Keeps.ite ?_ ?_
    | with_reducible refine Keeps.ite1 ?_ ?_
    | (apply Keeps.trans; case k => with_reducible first | apply State.palError_keeps | apply State.setBuf_keeps)
    | split | dsimp only

theorem State.palTransfer_keeps (s : State) (p a b : Nat) : Keeps s (State.palTransfer s p a b).1 := by
  unfold State.palTransfer
  repeat' first
    | with_reducible exact Keeps.refl _ | with_reducible assumption | with_reducible refine Keeps.ite ?_ ?_
    | with_reducible refine Keeps.ite1 ?_ ?_
    | (apply Keeps.trans
       case k =>
         with_reducible first
           | apply State.palError_keeps | apply State.setBuf_keeps | apply State.hold_keeps)
    | split | dsimp only

theorem State.palFreeAll_keeps (s : State) (ps : List Nat) (o : Nat) : Keeps s (State.palFreeAll s ps o) := by
  unfold State.palFreeAll
  repeat' first
    | with_reducible exact Keeps.refl _ | with_reducible assumption | with_reducible refine Keeps.ite ?_ ?_
    | with_reducible refine Keeps.ite1 ?_ ?_
    | (apply Keeps.trans; case k => with_reducible first | apply State.palFree_keeps)
    | with_reducible refine Keeps.of_pair (State.palFree_keeps ..) (by assumption) ?_
    | with_reducible refine Keeps.foldl ?_ (fun _ _ => ?_)
    | split | dsimp only

theorem State.allocN_keeps (s : State) (c o pool n : Nat) (got : List Nat) : Keeps s (s.allocN c o pool n got).1 := by
  induction n generalizing s got with
  | zero => exact Keeps.refl s
  | succ n ih =>
    unfold State.allocN
    split
    · exact Keeps.of_pair (State.palAlloc_keeps _ _ _ _) (by assumption) (Keeps.refl s) |>.trans (State.palFreeAll_keeps _ _ _)
    · have h1 := Keeps.of_pair (State.palAlloc_keeps _ _ _ _) (by assumption) (Keeps.refl s)
      dsimp only
      split
      · exact ((h1.trans (State.withPalette_keeps _ _)).trans (State.withPalette_keeps _ _)).trans (ih _ _)
      · exact (h1.trans (State.withPalette_keeps _ _)).trans (ih _ _)

theorem execBufferAllocate_keeps (c o pool : Nat) (s : State) : KeepsR s (execBufferAllocate c o pool s) := by
  unfold execBufferAllocate
  repeat' first
    | with_reducible exact Keeps.refl _ | with_reducible assumption | with_reducible refine KeepsR.next ?_
    | with_reducible refine Keeps.ite ?_ ?_ | with_reducible refine KeepsR.ite ?_ ?_ | with_reducible refine Keeps.ite1 ?_ ?_
    | (apply Keeps.trans; case k => with_reducible first | apply State.palAlloc_keeps)
    | with_reducible refine Keeps.of_pair (State.palAlloc_keeps ..) (by assumption) ?_
    | (apply Keeps.trans; case k => with_reducible first | apply State.withPalette_keeps)
    | split | dsimp only

theorem execBufferReference_keeps (p bytes : Nat) (s : State) : KeepsR s (execBufferReference p bytes s) := by
  unfold execBufferReference
  repeat' first
    | with_reducible exact Keeps.refl _ | with_reducible assumption | with_reducible refine KeepsR.next ?_
    | with_reducible refine Keeps.ite ?_ ?_ | with_reducible refine KeepsR.ite ?_ ?_ | with_reducible refine Keeps.ite1 ?_ ?_
    | (apply Keeps.trans; case k => with_reducible first | apply State.palRef_keeps | apply State.tally1_keeps)
    | with_reducible refine Keeps.of_pair (State.palRef_keeps ..) (by assumption) ?_
    | split | dsimp only

theorem execBufferFree_keeps (p o : Nat) (s : State) : KeepsR s (execBufferFree p o s) := by
  unfold execBufferFree
  repeat' first
    | with_reducible exact Keeps.refl _ | with_reducible assumption | with_reducible refine KeepsR.next ?_
    | with_reducible refine Keeps.ite ?_ ?_ | with_reducible refine KeepsR.ite ?_ ?_ | with_reducible refine Keeps.ite1 ?_ ?_
    | (apply Keeps.trans; case k => with_reducible first | apply State.palFree_keeps)
    | with_reducible refine Keeps.of_pair (State.palFree_keeps ..) (by assumption) ?_
    | split | dsimp only

theorem execBufferTransfer_keeps (p a b : Nat) (s : State) : KeepsR s (execBufferTransfer p a b s) := by
  unfold execBufferTransfer
  repeat' first
    | with_reducible exact Keeps.refl _ | with_reducible assumption | with_reducible refine KeepsR.next ?_
    | with_reducible refine Keeps.ite ?_ ?_ | with_reducible refine KeepsR.ite ?_ ?_ | with_reducible refine Keeps.ite1 ?_ ?_
    | (apply Keeps.trans; case k => with_reducible first | apply State.palTransfer_keeps)
    | with_reducible refine Keeps.of_pair (State.palTransfer_keeps ..) (by assumption) ?_
    | split | dsimp only

theorem State.buildStripes_keeps (s : State) : Keeps s (State.buildStripes s) := by
  unfold State.buildStripes
  repeat' first
    | with_reducible exact Keeps.refl _ | with_reducible assumption | with_reducible refine Keeps.ite ?_ ?_
    | (apply Keeps.trans; case k => with_reducible first | apply State.withPalette_keeps)
    | split | dsimp only

theorem State.buildChains_keeps (s : State) : Keeps s (State.buildChains s) := by
  unfold State.buildChains
  repeat' first
    | with_reducible exact Keeps.refl _ | with_reducible assumption | with_reducible refine Keeps.ite ?_ ?_
    | (apply Keeps.trans; case k => with_reducible first | apply State.wr_keeps | apply State.showCaches_keeps)
    | (apply Keeps.trans; case k => with_reducible first | apply State.withPalette_keeps)
    | split | dsimp only

theorem execChainRebuild_keeps (s : State) : KeepsR s (execChainRebuild s) := by
  unfold execChainRebuild
  repeat' first
    | with_reducible exact Keeps.refl _ | with_reducible assumption | with_reducible refine KeepsR.next ?_
    | with_reducible refine Keeps.ite ?_ ?_ | with_reducible refine KeepsR.ite ?_ ?_
    | (apply Keeps.trans; case k => with_reducible first | apply State.buildChains_keeps)
    | split | dsimp only

theorem State.showAudit_keeps (s : State) : Keeps s (State.showAudit s) := by
  unfold State.showAudit
  repeat' first
    | with_reducible exact Keeps.refl _ | with_reducible assumption | with_reducible refine Keeps.ite ?_ ?_
    | (apply Keeps.trans; case k => with_reducible first | apply State.wr_keeps | apply State.wrBit_keeps)
    | split | dsimp only

theorem State.auditPost_keeps (s : State) (e : Nat × Nat × Bool × Nat) : Keeps s (State.auditPost s e) := by
  unfold State.auditPost
  repeat' first
    | with_reducible exact Keeps.refl _ | with_reducible assumption | with_reducible refine Keeps.ite ?_ ?_
    | (apply Keeps.trans
       case k =>
         with_reducible first
           | apply State.incSat_keeps | apply State.showAudit_keeps | apply State.raise_keeps)
    | (apply Keeps.trans; case k => with_reducible first | apply State.withPalette_keeps)
    | split | dsimp only

theorem State.auditBuf_keeps (s : State) (p : Nat) : Keeps s (State.auditBuf s p) := by
  unfold State.auditBuf
  repeat' first
    | with_reducible exact Keeps.refl _ | with_reducible assumption | with_reducible refine Keeps.ite ?_ ?_
    | (apply Keeps.trans
       case k =>
         with_reducible first
           | apply State.auditPost_keeps | apply State.release_keeps | apply State.incSat_keeps)
    | split | dsimp only

theorem State.auditSweep_keeps (s : State) : Keeps s (State.auditSweep s) := by
  unfold State.auditSweep
  repeat' first
    | with_reducible exact Keeps.refl _ | with_reducible assumption | with_reducible refine Keeps.ite ?_ ?_
    | (apply Keeps.trans
       case k =>
         with_reducible first
           | apply State.headCacheBack_keeps | apply State.auditBuf_keeps | apply State.wr_keeps)
    | with_reducible refine Keeps.foldl ?_ (fun _ _ => ?_)
    | (apply Keeps.trans; case k => with_reducible first | apply State.withPalette_keeps)
    | split | dsimp only

theorem execAuditStart_keeps (s : State) : KeepsR s (execAuditStart s) := by
  unfold execAuditStart
  repeat' first
    | with_reducible exact Keeps.refl _ | with_reducible assumption | with_reducible refine KeepsR.next ?_
    | with_reducible refine Keeps.ite ?_ ?_ | with_reducible refine KeepsR.ite ?_ ?_
    | (apply Keeps.trans; case k => with_reducible first | apply State.auditSweep_keeps)
    | with_reducible apply State.landed_keeps | with_reducible refine Keeps.trans ?_ (State.landed_keeps _ _ _  ?_)
    | intro _ | split | dsimp only

theorem execAuditPeriod_keeps (s : State) : KeepsR s (execAuditPeriod s) := by
  unfold execAuditPeriod
  repeat' first
    | with_reducible exact Keeps.refl _ | with_reducible assumption | with_reducible refine KeepsR.next ?_
    | with_reducible refine Keeps.ite ?_ ?_ | with_reducible refine KeepsR.ite ?_ ?_
    | (apply Keeps.trans; case k => with_reducible first | apply State.advanceTo_keeps | apply State.auditSweep_keeps)
    | (apply Keeps.trans; case k => with_reducible first | apply State.withPalette_keeps)
    | split | dsimp only

theorem execAuditSweepEnd_keeps (s : State) : KeepsR s (execAuditSweepEnd s) := by
  unfold execAuditSweepEnd
  repeat' first
    | with_reducible exact Keeps.refl _ | with_reducible assumption | with_reducible refine KeepsR.next ?_
    | with_reducible refine Keeps.ite ?_ ?_ | with_reducible refine KeepsR.ite ?_ ?_
    | (apply Keeps.trans; case k => with_reducible first | apply State.wr_keeps | apply State.setCause_keeps)
    | (apply Keeps.trans; case k => with_reducible first | apply State.withPalette_keeps)
    | split | dsimp only

theorem execAuditPop_keeps (s : State) : KeepsR s (execAuditPop s) := by
  unfold execAuditPop
  repeat' first
    | with_reducible exact Keeps.refl _ | with_reducible assumption | with_reducible refine KeepsR.next ?_
    | with_reducible refine Keeps.ite ?_ ?_ | with_reducible refine KeepsR.ite ?_ ?_
    | (apply Keeps.trans; case k => with_reducible first | apply State.showAudit_keeps)
    | with_reducible apply State.landed_keeps | with_reducible refine Keeps.trans ?_ (State.landed_keeps _ _ _  ?_)
    | (apply Keeps.trans; case k => with_reducible first | apply State.withPalette_keeps)
    | intro _ | split | dsimp only

theorem State.swDone_keeps (s : State) (code : Nat) (value : Nat) : Keeps s (State.swDone s code value) := by
  unfold State.swDone
  repeat' first
    | with_reducible exact Keeps.refl _ | with_reducible assumption | with_reducible refine Keeps.ite ?_ ?_
    | (apply Keeps.trans; case k => with_reducible first | apply State.wr_keeps)
    | split | dsimp only

theorem State.swStart_keeps (s : State) : Keeps s (State.swStart s) := by
  unfold State.swStart
  repeat' first
    | with_reducible exact Keeps.refl _ | with_reducible assumption | with_reducible refine Keeps.ite ?_ ?_
    | (apply Keeps.trans; case k => with_reducible first | apply State.wr_keeps | apply State.swDone_keeps)
    | split | dsimp only

theorem execSwAlloc_keeps (s : State) : KeepsR s (execSwAlloc s) := by
  unfold execSwAlloc
  repeat' first
    | with_reducible exact Keeps.refl _ | with_reducible assumption | with_reducible refine KeepsR.next ?_
    | with_reducible refine Keeps.ite ?_ ?_ | with_reducible refine KeepsR.ite ?_ ?_ | with_reducible refine Keeps.ite1 ?_ ?_
    | (apply Keeps.trans; case k => with_reducible first | apply State.swDone_keeps | apply State.palAlloc_keeps)
    | with_reducible refine Keeps.of_pair (State.palAlloc_keeps ..) (by assumption) ?_
    | split | dsimp only

theorem execSwFree_keeps (s : State) : KeepsR s (execSwFree s) := by
  unfold execSwFree
  repeat' first
    | with_reducible exact Keeps.refl _ | with_reducible assumption | with_reducible refine KeepsR.next ?_
    | with_reducible refine Keeps.ite ?_ ?_ | with_reducible refine KeepsR.ite ?_ ?_ | with_reducible refine Keeps.ite1 ?_ ?_
    | (apply Keeps.trans; case k => with_reducible first | apply State.swDone_keeps | apply State.palFree_keeps)
    | with_reducible refine Keeps.of_pair (State.palFree_keeps ..) (by assumption) ?_
    | split | dsimp only

theorem execSwRead_keeps (s : State) : KeepsR s (execSwRead s) := by
  unfold execSwRead
  repeat' first
    | with_reducible exact Keeps.refl _ | with_reducible assumption | with_reducible refine KeepsR.next ?_
    | with_reducible refine Keeps.ite ?_ ?_ | with_reducible refine KeepsR.ite ?_ ?_
    | (apply Keeps.trans; case k => with_reducible first | apply State.swDone_keeps)
    | split | dsimp only

theorem execSwRetire_keeps (s : State) : KeepsR s (execSwRetire s) := by
  unfold execSwRetire
  repeat' first
    | with_reducible exact Keeps.refl _ | with_reducible assumption | with_reducible refine KeepsR.next ?_
    | with_reducible refine Keeps.ite ?_ ?_ | with_reducible refine KeepsR.ite ?_ ?_
    | (apply Keeps.trans; case k => with_reducible first | apply State.swDone_keeps | apply State.markBuf_keeps)
    | split | dsimp only

theorem execSwUnretire_keeps (s : State) : KeepsR s (execSwUnretire s) := by
  unfold execSwUnretire
  repeat' first
    | with_reducible exact Keeps.refl _ | with_reducible assumption | with_reducible refine KeepsR.next ?_
    | with_reducible refine Keeps.ite ?_ ?_ | with_reducible refine KeepsR.ite ?_ ?_
    | (apply Keeps.trans
       case k =>
         with_reducible first
           | apply State.swDone_keeps | apply State.setPersist_keeps | apply State.showRetired_keeps | apply State.setBuf_keeps
           | apply State.freeCount_keeps | apply State.pushFree_keeps)
    | split | dsimp only

end Sys2Proof.Machine
end

