-- ==== Sys2Proof/Laws/KeepsStamps.lean ====
section
/-!
SUPPORT. The operations of the stamps: none touches the queue, spoils the register space, takes back an output or draws a free value again.
-/
namespace Sys2Proof.Machine

theorem State.showTxts_keeps (s : State) : Keeps s (State.showTxts s) := by
  unfold State.showTxts
  repeat' first
    | with_reducible exact Keeps.refl _ | with_reducible assumption | with_reducible refine Keeps.ite ?_ ?_
    | (apply Keeps.trans
       case k =>
         with_reducible first
           | apply State.wr_keeps | apply State.setReg_keeps | apply State.wrBit_keeps)
    | split | dsimp only

theorem State.txtsPost_keeps (s : State) (e : TxStamp) : Keeps s (State.txtsPost s e) := by
  unfold State.txtsPost
  repeat' first
    | with_reducible exact Keeps.refl _ | with_reducible assumption | with_reducible refine Keeps.ite ?_ ?_
    | (apply Keeps.trans
       case k =>
         with_reducible first
           | apply State.incSat_keeps | apply State.setCause_keeps | apply State.showTxts_keeps | apply State.raise_keeps)
    | (apply Keeps.trans; case k => with_reducible first | apply State.withTime_keeps)
    | split | dsimp only

theorem State.tcwError_keeps (s : State) : Keeps s (State.tcwError s) := by
  unfold State.tcwError
  repeat' first
    | with_reducible exact Keeps.refl _ | with_reducible assumption | with_reducible refine Keeps.ite ?_ ?_
    | (apply Keeps.trans; case k => with_reducible first | apply State.wr_keeps | apply State.incWrap_keeps)
    | split | dsimp only

theorem State.tcwEgress_keeps (s : State) (hv : Sparse Byte) (stamped : Bool) (len : Nat) :
    Keeps s (State.tcwEgress s hv stamped len).1 := by
  unfold State.tcwEgress
  repeat' first
    | with_reducible exact Keeps.refl _ | with_reducible assumption | with_reducible refine Keeps.ite ?_ ?_
    | with_reducible refine Keeps.ite1 ?_ ?_
    | (apply Keeps.trans; case k => with_reducible first | apply State.tcwError_keeps)
    | split | dsimp only

theorem State.tcwIngress_keeps (s : State) (hv : Sparse Byte) (rx : Rx) (data : List Byte) :
    Keeps s (s.tcwIngress hv rx data).1 := by
  unfold State.tcwIngress
  exact Keeps.ite1 (Keeps.refl s) (Keeps.ite1 (State.tcwError_keeps s) (Keeps.ite1 (Keeps.refl s) (Keeps.refl s)))

end Sys2Proof.Machine
end

