-- ==== Sys2Proof/Laws/KeepsSched.lean ====
section
/-!
SUPPORT. The operations of the scheduler: none touches the queue, spoils the register space, takes back an output or draws a free value again.
-/
namespace Sys2Proof.Machine

theorem State.setQueue_keeps (s : State) (q : Nat) (x : Queue) : Keeps s (State.setQueue s q x) := by
  unfold State.setQueue
  repeat' first
    | with_reducible exact Keeps.refl _ | with_reducible assumption | with_reducible refine Keeps.ite ?_ ?_
    | (apply Keeps.trans; case k => with_reducible first | apply State.idle_keeps)
    | (apply Keeps.trans; case k => with_reducible first | apply State.withSched_keeps)
    | split | dsimp only

theorem State.setNodeState_keeps (s : State) (n st : Nat) : Keeps s (State.setNodeState s n st) := by
  unfold State.setNodeState
  repeat' first
    | with_reducible exact Keeps.refl _ | with_reducible assumption | with_reducible refine Keeps.ite ?_ ?_
    | (apply Keeps.trans; case k => with_reducible first | apply State.wr_keeps)
    | split | dsimp only

theorem State.setPortNode_keeps (s : State) (n : Nat) (x : Node) : Keeps s (State.setPortNode s n x) := by
  unfold State.setPortNode
  repeat' first
    | with_reducible exact Keeps.refl _ | with_reducible assumption | with_reducible refine Keeps.ite ?_ ?_
    | (apply Keeps.trans; case k => with_reducible first | apply State.idle_keeps)
    | (apply Keeps.trans; case k => with_reducible first | apply State.withSched_keeps)
    | split | dsimp only

theorem State.setSubNode_keeps (s : State) (u : Nat) (x : Node) : Keeps s (State.setSubNode s u x) := by
  unfold State.setSubNode
  repeat' first
    | with_reducible exact Keeps.refl _ | with_reducible assumption | with_reducible refine Keeps.ite ?_ ?_
    | (apply Keeps.trans; case k => with_reducible first | apply State.idle_keeps)
    | (apply Keeps.trans; case k => with_reducible first | apply State.withSched_keeps)
    | split | dsimp only

theorem State.setQueueNode_keeps (s : State) (q : Nat) (x : Node) : Keeps s (State.setQueueNode s q x) := by
  unfold State.setQueueNode
  repeat' first
    | with_reducible exact Keeps.refl _ | with_reducible assumption | with_reducible refine Keeps.ite ?_ ?_
    | (apply Keeps.trans; case k => with_reducible first | apply State.idle_keeps)
    | (apply Keeps.trans; case k => with_reducible first | apply State.withSched_keeps)
    | split | dsimp only

theorem execShaperRefill_keeps (level i : Nat) (s : State) : KeepsR s (execShaperRefill level i s) := by
  unfold execShaperRefill
  repeat' first
    | with_reducible exact Keeps.refl _ | with_reducible assumption | with_reducible refine KeepsR.next ?_
    | with_reducible refine Keeps.ite ?_ ?_ | with_reducible refine KeepsR.ite ?_ ?_
    | (apply Keeps.trans
       case k =>
         with_reducible first
           | apply State.advanceTo_keeps | apply State.setQueueNode_keeps | apply State.setSubNode_keeps
           | apply State.setPortNode_keeps)
    | split | dsimp only

theorem State.freeOwned_keeps (s : State) (ps : List Nat) : Keeps s (State.freeOwned s ps) := by
  unfold State.freeOwned
  repeat' first
    | with_reducible exact Keeps.refl _ | with_reducible assumption | with_reducible refine Keeps.ite ?_ ?_
    | with_reducible refine Keeps.ite1 ?_ ?_
    | (apply Keeps.trans; case k => with_reducible first | apply State.palFree_keeps)
    | with_reducible refine Keeps.of_pair (State.palFree_keeps ..) (by assumption) ?_
    | with_reducible refine Keeps.foldl ?_ (fun _ _ => ?_)
    | split | dsimp only

theorem State.undoCopy_keeps (s : State) (k j : Nat) : Keeps s (State.undoCopy s k j) := by
  unfold State.undoCopy
  repeat' first
    | with_reducible exact Keeps.refl _ | with_reducible assumption | with_reducible refine Keeps.ite ?_ ?_
    | (apply Keeps.trans
       case k =>
         with_reducible first
           | apply State.cancelReads_keeps | apply State.palFreeAll_keeps | apply State.setPkt_keeps | apply State.reads_keeps
           | apply State.incWrap_keeps | apply State.undo_keeps | apply State.sample_keeps)
    | split | dsimp only

theorem State.commitCopy_keeps (s : State) (q k : Nat) : Keeps s (State.commitCopy s q k) := by
  unfold State.commitCopy
  repeat' first
    | with_reducible exact Keeps.refl _ | with_reducible assumption | with_reducible refine Keeps.ite ?_ ?_
    | with_reducible refine Keeps.ite1 ?_ ?_
    | (apply Keeps.trans
       case k =>
         with_reducible first
           | apply State.palTransfer_keeps | apply State.palFreeAll_keeps | apply State.setPkt_keeps | apply State.setQueue_keeps
           | apply State.incWrap_keeps)
    | with_reducible refine Keeps.of_pair (State.palTransfer_keeps ..) (by assumption) ?_
    | with_reducible refine Keeps.foldl ?_ (fun _ _ => ?_)
    | split | dsimp only

theorem State.advanceHead_keeps (s : State) (q : Nat) : Keeps s (State.advanceHead s q) := by
  unfold State.advanceHead
  repeat' first
    | with_reducible exact Keeps.refl _ | with_reducible assumption | with_reducible refine Keeps.ite ?_ ?_
    | (apply Keeps.trans; case k => with_reducible first | apply State.commitCopy_keeps | apply State.setQueue_keeps)
    | split | dsimp only

theorem State.removePkt_keeps (s : State) (k : Nat) : Keeps s (State.removePkt s k) := by
  unfold State.removePkt
  repeat' first
    | with_reducible exact Keeps.refl _ | with_reducible assumption | with_reducible refine Keeps.ite ?_ ?_
    | (apply Keeps.trans
       case k =>
         with_reducible first
           | apply State.releaseStamps_keeps | apply State.untag_keeps | apply State.dropPkt_keeps)
    | split | dsimp only

theorem State.flushQueue_keeps (s : State) (q : Nat) : Keeps s (State.flushQueue s q) := by
  unfold State.flushQueue
  repeat' first
    | with_reducible exact Keeps.refl _ | with_reducible assumption | with_reducible refine Keeps.ite ?_ ?_
    | (apply Keeps.trans
       case k =>
         with_reducible first
           | apply State.undoCopy_keeps | apply State.freeOwned_keeps | apply State.palFreeAll_keeps | apply State.tally1_keeps
           | apply State.discardPkt_keeps | apply State.setQueue_keeps)
    | with_reducible refine Keeps.foldl ?_ (fun _ _ => ?_)
    | split | dsimp only

theorem State.flush_keeps (s : State) (q : Nat) : Keeps s (State.flush s q) := by
  unfold State.flush
  repeat' first
    | with_reducible exact Keeps.refl _ | with_reducible assumption | with_reducible refine Keeps.ite ?_ ?_
    | (apply Keeps.trans; case k => with_reducible first | apply State.flushQueue_keeps)
    | split | dsimp only

theorem State.accDone_keeps (s : State) (code : Nat) : Keeps s (State.accDone s code) := by
  unfold State.accDone
  repeat' first
    | with_reducible exact Keeps.refl _ | with_reducible assumption | with_reducible refine Keeps.ite ?_ ?_
    | (apply Keeps.trans; case k => with_reducible first | apply State.wr_keeps)
    | split | dsimp only

theorem State.flushDone_keeps (s : State) (q : Nat) : Keeps s (State.flushDone s q) := by
  unfold State.flushDone
  repeat' first
    | with_reducible exact Keeps.refl _ | with_reducible assumption | with_reducible refine Keeps.ite ?_ ?_
    | (apply Keeps.trans; case k => with_reducible first | apply State.setQueue_keeps | apply State.accDone_keeps)
    | split | dsimp only

theorem execQueueFlush_keeps (q : Nat) (s : State) : KeepsR s (execQueueFlush q s) := by
  unfold execQueueFlush
  repeat' first
    | with_reducible exact Keeps.refl _ | with_reducible assumption | with_reducible refine KeepsR.next ?_
    | with_reducible refine Keeps.ite ?_ ?_ | with_reducible refine KeepsR.ite ?_ ?_
    | (apply Keeps.trans; case k => with_reducible first | apply State.flush_keeps)
    | split | dsimp only

theorem State.postDropped_keeps (s : State) (p : Pkt) (late : Bool) : Keeps s (State.postDropped s p late) := by
  unfold State.postDropped
  repeat' first
    | with_reducible exact Keeps.refl _ | with_reducible assumption | with_reducible refine Keeps.ite ?_ ?_
    | (apply Keeps.trans; case k => with_reducible first | apply State.txtsPost_keeps)
    | split | dsimp only

theorem State.dropHeld_keeps (s : State) (n k : Nat) : Keeps s (State.dropHeld s n k) := by
  unfold State.dropHeld
  repeat' first
    | with_reducible exact Keeps.refl _ | with_reducible assumption | with_reducible refine Keeps.ite ?_ ?_
    | (apply Keeps.trans
       case k =>
         with_reducible first
           | apply State.cancelReads_keeps | apply State.palFreeAll_keeps | apply State.trueUp_keeps
           | apply State.postDropped_keeps | apply State.tally1_keeps | apply State.discardPkt_keeps)
    | split | dsimp only

theorem State.nodeFlush_keeps (s : State) (n : Nat) : Keeps s (State.nodeFlush s n) := by
  unfold State.nodeFlush
  repeat' first
    | with_reducible exact Keeps.refl _ | with_reducible assumption | with_reducible refine Keeps.ite ?_ ?_
    | (apply Keeps.trans
       case k =>
         with_reducible first
           | apply State.setNodeState_keeps | apply State.incWrap_keeps | apply State.dropHeld_keeps | apply State.flush_keeps)
    | with_reducible refine Keeps.foldl ?_ (fun _ _ => ?_)
    | split | dsimp only

theorem State.nodeEnable_keeps (s : State) (n kind target : Nat) : Keeps s (State.nodeEnable s n kind target) := by
  unfold State.nodeEnable
  repeat' first
    | with_reducible exact Keeps.refl _ | with_reducible assumption | with_reducible refine Keeps.ite ?_ ?_
    | (apply Keeps.trans
       case k =>
         with_reducible first
           | apply State.wr_keeps | apply State.wrBit_keeps | apply State.setNodeState_keeps)
    | split | dsimp only

theorem State.nodeDisable_keeps (s : State) (n : Nat) : Keeps s (State.nodeDisable s n) := by
  unfold State.nodeDisable
  repeat' first
    | with_reducible exact Keeps.refl _ | with_reducible assumption | with_reducible refine Keeps.ite ?_ ?_
    | (apply Keeps.trans; case k => with_reducible first | apply State.wr_keeps | apply State.nodeFlush_keeps)
    | split | dsimp only

theorem State.nodeCfgWrite_keeps (s : State) (n v : Nat) : Keeps s (State.nodeCfgWrite s n v) := by
  unfold State.nodeCfgWrite
  repeat' first
    | with_reducible exact Keeps.refl _ | with_reducible assumption | with_reducible refine Keeps.ite ?_ ?_
    | (apply Keeps.trans
       case k =>
         with_reducible first
           | apply State.wr_keeps | apply State.nodeEnable_keeps | apply State.nodeDisable_keeps)
    | split | dsimp only

theorem execPortNodeEnable_keeps (n v : Nat) (s : State) : KeepsR s (execPortNodeEnable n v s) := by
  unfold execPortNodeEnable
  repeat' first
    | with_reducible exact Keeps.refl _ | with_reducible assumption | with_reducible refine KeepsR.next ?_
    | with_reducible refine Keeps.ite ?_ ?_ | with_reducible refine KeepsR.ite ?_ ?_
    | (apply Keeps.trans; case k => with_reducible first | apply State.nodeCfgWrite_keeps)
    | with_reducible apply State.landed_keeps | with_reducible refine Keeps.trans ?_ (State.landed_keeps _ _ _  ?_)
    | intro _ | split | dsimp only

theorem execPortNodeDisable_keeps (n v : Nat) (s : State) : KeepsR s (execPortNodeDisable n v s) := by
  unfold execPortNodeDisable
  repeat' first
    | with_reducible exact Keeps.refl _ | with_reducible assumption | with_reducible refine KeepsR.next ?_
    | with_reducible refine Keeps.ite ?_ ?_ | with_reducible refine KeepsR.ite ?_ ?_
    | (apply Keeps.trans; case k => with_reducible first | apply State.nodeCfgWrite_keeps)
    | with_reducible apply State.landed_keeps | with_reducible refine Keeps.trans ?_ (State.landed_keeps _ _ _  ?_)
    | intro _ | split | dsimp only

theorem State.nodeCut_keeps (s : State) (n : Nat) (cut : Bool) : Keeps s (State.nodeCut s n cut) := by
  unfold State.nodeCut
  repeat' first
    | with_reducible exact Keeps.refl _ | with_reducible assumption | with_reducible refine Keeps.ite ?_ ?_
    | (apply Keeps.trans; case k => with_reducible first | apply State.dropHeld_keeps)
    | split | dsimp only

theorem State.nodeLost_keeps (s : State) (n : Nat) (cut : Bool) : Keeps s (State.nodeLost s n cut) := by
  unfold State.nodeLost
  repeat' first
    | with_reducible exact Keeps.refl _ | with_reducible assumption | with_reducible refine Keeps.ite ?_ ?_
    | (apply Keeps.trans
       case k =>
         with_reducible first
           | apply State.wr_keeps | apply State.nodeCut_keeps | apply State.nodeFlush_keeps | apply State.setNodeState_keeps)
    | (apply Keeps.trans; case k => with_reducible first | apply State.withSched_keeps)
    | split | dsimp only

theorem State.nodeReturned_keeps (s : State) (n : Nat) : Keeps s (State.nodeReturned s n) := by
  unfold State.nodeReturned
  repeat' first
    | with_reducible exact Keeps.refl _ | with_reducible assumption | with_reducible refine Keeps.ite ?_ ?_
    | (apply Keeps.trans; case k => with_reducible first | apply State.wr_keeps | apply State.setNodeState_keeps)
    | split | dsimp only

theorem execPortLinkLost_keeps (n : Nat) (cut : Bool) (s : State) : KeepsR s (execPortLinkLost n cut s) := by
  unfold execPortLinkLost
  repeat' first
    | with_reducible exact Keeps.refl _ | with_reducible assumption | with_reducible refine KeepsR.next ?_
    | with_reducible refine Keeps.ite ?_ ?_ | with_reducible refine KeepsR.ite ?_ ?_
    | (apply Keeps.trans; case k => with_reducible first | apply State.nodeLost_keeps)
    | split | dsimp only

theorem execPortLinkReturn_keeps (n : Nat) (s : State) : KeepsR s (execPortLinkReturn n s) := by
  unfold execPortLinkReturn
  repeat' first
    | with_reducible exact Keeps.refl _ | with_reducible assumption | with_reducible refine KeepsR.next ?_
    | with_reducible refine Keeps.ite ?_ ?_ | with_reducible refine KeepsR.ite ?_ ?_
    | (apply Keeps.trans; case k => with_reducible first | apply State.nodeReturned_keeps)
    | split | dsimp only

theorem execPortHoldExpiry_keeps (n : Nat) (s : State) : KeepsR s (execPortHoldExpiry n s) := by
  unfold execPortHoldExpiry
  repeat' first
    | with_reducible exact Keeps.refl _ | with_reducible assumption | with_reducible refine KeepsR.next ?_
    | with_reducible refine Keeps.ite ?_ ?_ | with_reducible refine KeepsR.ite ?_ ?_
    | (apply Keeps.trans; case k => with_reducible first | apply State.advanceTo_keeps | apply State.nodeFlush_keeps)
    | split | dsimp only

theorem execPortFlushComplete_keeps (n : Nat) (s : State) : KeepsR s (execPortFlushComplete n s) := by
  unfold execPortFlushComplete
  repeat' first
    | with_reducible exact Keeps.refl _ | with_reducible assumption | with_reducible refine KeepsR.next ?_
    | with_reducible refine Keeps.ite ?_ ?_ | with_reducible refine KeepsR.ite ?_ ?_
    | (apply Keeps.trans
       case k =>
         with_reducible first
           | apply State.flushDone_keeps | apply State.wr_keeps | apply State.setNodeState_keeps)
    | with_reducible refine Keeps.foldl ?_ (fun _ _ => ?_)
    | split | dsimp only

theorem State.splitQueue_keeps (s : State) (q : Nat) : Keeps s (State.splitQueue s q) := by
  unfold State.splitQueue
  repeat' first
    | with_reducible exact Keeps.refl _ | with_reducible assumption | with_reducible refine Keeps.ite ?_ ?_
    | (apply Keeps.trans; case k => with_reducible first | apply State.setQueue_keeps)
    | split | dsimp only

theorem State.wake_keeps (s : State) (q : Nat) : Keeps s (State.wake s q) := by
  unfold State.wake
  repeat' first
    | with_reducible exact Keeps.refl _ | with_reducible assumption | with_reducible refine Keeps.ite ?_ ?_
    | (apply Keeps.trans; case k => with_reducible first | apply State.setQueueNode_keeps | apply State.setSubNode_keeps)
    | (apply Keeps.trans; case k => with_reducible first | apply State.withSched_keeps)
    | split | dsimp only

theorem State.linkTo_keeps (s : State) (q k : Nat) : Keeps s (State.linkTo s q k) := by
  unfold State.linkTo
  repeat' first
    | with_reducible exact Keeps.refl _ | with_reducible assumption | with_reducible refine Keeps.ite ?_ ?_
    | (apply Keeps.trans
       case k =>
         with_reducible first
           | apply State.wake_keeps | apply State.setPkt_keeps | apply State.setQueue_keeps | apply State.splitQueue_keeps
           | apply State.trace_keeps)
    | split | dsimp only

theorem State.refuseAdmission_keeps (s : State) (q k test : Nat) : Keeps s (State.refuseAdmission s q k test) := by
  unfold State.refuseAdmission
  repeat' first
    | with_reducible exact Keeps.refl _ | with_reducible assumption | with_reducible refine Keeps.ite ?_ ?_
    | (apply Keeps.trans
       case k =>
         with_reducible first
           | apply State.tally1_keeps | apply State.discardPkt_keeps | apply State.setQueue_keeps)
    | split | dsimp only

theorem State.settleLaunch_keeps (s : State) (q k : Nat) : Keeps s (State.settleLaunch s q k) := by
  unfold State.settleLaunch
  repeat' first
    | with_reducible exact Keeps.refl _ | with_reducible assumption | with_reducible refine Keeps.ite ?_ ?_
    | (apply Keeps.trans; case k => with_reducible first | apply State.setPkt_keeps | apply State.incWrap_keeps)
    | split | dsimp only

theorem State.enqueueAt_keeps (s : State) (q k : Nat) : Keeps s (s.enqueueAt q k).1 := by
  unfold State.enqueueAt
  split
  · exact Keeps.refl s
  · refine Keeps.ite1 ((State.tally1_keeps ..).trans (State.discardPkt_keeps ..)) ?_
    split
    · refine Keeps.ite1 ?_ ?_
      · exact ((Keeps.ite (Keeps.foldl (Keeps.refl s) (fun _ _ => State.palTransfer_keeps ..)) (Keeps.refl s)).trans
          (State.settleLaunch_keeps ..)).trans (State.linkTo_keeps ..)
      · dsimp only
        split
        · exact ((((Keeps.of_pair (State.allocN_keeps ..) (by assumption) (Keeps.refl s)).trans (State.putOctets_keeps ..)).trans
            (State.setPkt_keeps ..)).trans (State.settleLaunch_keeps ..)).trans (State.linkTo_keeps ..)
        · have h := Keeps.of_pair (State.allocN_keeps ..) (by assumption) (Keeps.refl s)
          exact Keeps.ite1 h (h.trans (State.refuseAdmission_keeps ..))
    · exact State.refuseAdmission_keeps ..

theorem State.refAll_keeps (s : State) (ps : List Nat) : Keeps s (s.refAll ps).1 := by
  have h := Keeps.foldl_pair (l := ps) (f := fun (acc : State × List Nat × Bool) b =>
    if acc.2.2 then
      (match acc.1.palRef b with
        | (s1, true) => (s1, b :: acc.2.1, true)
        | (s1, false) => (s1, acc.2.1, false))
    else acc) (fun p b => by
      split
      · split
        · exact Keeps.of_pair (State.palRef_keeps ..) (by assumption) (Keeps.refl _)
        · exact Keeps.of_pair (State.palRef_keeps ..) (by assumption) (Keeps.refl _)
      · exact Keeps.refl _) (s, [], true)
  unfold State.refAll
  dsimp only
  split
  · exact h
  · exact h.trans (State.freeOwned_keeps _ _)

theorem State.enqueueCopy_keeps (s : State) (p : Pkt) (shared : List Nat) (c : Copy) :
    Keeps s (State.enqueueCopy s p shared c).1 := by
  unfold State.enqueueCopy
  repeat' first
    | with_reducible exact Keeps.refl _ | with_reducible assumption | with_reducible refine Keeps.ite ?_ ?_
    | with_reducible refine Keeps.ite1 ?_ ?_
    | (apply Keeps.trans
       case k =>
         with_reducible first
           | apply State.refAll_keeps | apply State.tally1_keeps | apply State.addPkt_keeps | apply State.freeOwned_keeps
           | apply State.discardPkt_keeps | apply State.enqueueAt_keeps)
    | with_reducible refine Keeps.of_pair (State.refAll_keeps ..) (by assumption) ?_
    | with_reducible refine Keeps.of_pair (State.enqueueAt_keeps ..) (by assumption) ?_
    | (apply Keeps.trans; case k => with_reducible first | apply State.withTally_keeps)
    | split | dsimp only

theorem State.enqueueCopies_keeps (s : State) (p : Pkt) (shared : List Nat) (cs : List Copy) :
    Keeps s (s.enqueueCopies p shared cs) := by
  induction cs generalizing s shared with
  | nil => unfold State.enqueueCopies; exact Keeps.refl s
  | cons c cs ih => unfold State.enqueueCopies; exact (State.enqueueCopy_keeps _ _ _ _).trans (ih _ _)

theorem execEnqueue_keeps (n : Nat) (s : State) : KeepsR s (execEnqueue n s) := by
  unfold execEnqueue
  repeat' first
    | with_reducible exact Keeps.refl _ | with_reducible assumption | with_reducible refine KeepsR.next ?_
    | with_reducible refine Keeps.ite ?_ ?_ | with_reducible refine KeepsR.ite ?_ ?_ | with_reducible refine Keeps.ite1 ?_ ?_
    | (apply Keeps.trans
       case k =>
         with_reducible first
           | apply State.enqueueCopies_keeps | apply State.removePkt_keeps | apply State.tally1_keeps
           | apply State.discardPkt_keeps | apply State.enqueueAt_keeps | apply State.setPkt_keeps | apply State.freeOwned_keeps)
    | with_reducible refine Keeps.of_pair (State.enqueueAt_keeps ..) (by assumption) ?_
    | split | dsimp only

theorem State.chargeSelection_keeps (s : State) (n u q leff : Nat) : Keeps s (State.chargeSelection s n u q leff) := by
  unfold State.chargeSelection
  repeat' first
    | with_reducible exact Keeps.refl _ | with_reducible assumption | with_reducible refine Keeps.ite ?_ ?_
    | (apply Keeps.trans
       case k =>
         with_reducible first
           | apply State.setQueueNode_keeps | apply State.setSubNode_keeps | apply State.setPortNode_keeps)
    | split | dsimp only

theorem State.readCanvas_keeps (s : State) (ps : List Nat) : Keeps s (s.readCanvas ps).1 := by
  refine Keeps.foldl_pair (fun p b => ?_) (s, false)
  have h : Keeps p.1 ((p.1.badWords.canvasCe.filter (fun a => a / 256 == ptrIndex b)).foldl (fun s _ => s.trackCe b) p.1) :=
    Keeps.foldl (Keeps.refl _) (fun _ _ => State.trackCe_keeps ..)
  dsimp only
  split
  · exact (h.trans (State.wr_keeps ..)).trans (State.markBad_keeps ..)
  · exact h

theorem State.serveCanvas_keeps (s : State) (k : Nat) : Keeps s (State.serveCanvas s k) := by
  unfold State.serveCanvas
  repeat' first
    | with_reducible exact Keeps.refl _ | with_reducible assumption | with_reducible refine Keeps.ite ?_ ?_
    | with_reducible refine Keeps.ite1 ?_ ?_
    | (apply Keeps.trans
       case k =>
         with_reducible first
           | apply State.readCanvas_keeps | apply State.setPkt_keeps | apply State.freeOwned_keeps)
    | with_reducible refine Keeps.of_pair (State.readCanvas_keeps ..) (by assumption) ?_
    | split | dsimp only

theorem State.serveDram_keeps (s : State) (k rt : Nat) : Keeps s (s.serveDram k rt) := by
  unfold State.serveDram
  split
  · exact Keeps.refl s
  · refine (Keeps.trans (Keeps.foldl_pair (fun p b => ?_) (s, false)) (State.setPkt_keeps ..)).trans (State.dramPutAll_keeps ..)
    dsimp only
    split
    · exact State.readDirect_keeps ..
    · exact (State.readDirect_keeps ..).trans (State.markBad_keeps ..)

theorem State.takeHead_keeps (s : State) (q rt : Nat) : Keeps s (State.takeHead s q rt).1 := by
  unfold State.takeHead
  repeat' first
    | with_reducible exact Keeps.refl _ | with_reducible assumption | with_reducible refine Keeps.ite ?_ ?_
    | with_reducible refine Keeps.ite1 ?_ ?_
    | (apply Keeps.trans
       case k =>
         with_reducible first
           | apply State.advanceHead_keeps | apply State.undoCopy_keeps | apply State.setQueue_keeps
           | apply State.serveDram_keeps | apply State.serveCanvas_keeps)
    | with_reducible apply State.landed_keeps | with_reducible refine Keeps.trans ?_ (State.landed_keeps _ _ _  ?_)
    | intro _ | split | dsimp only

theorem execPortSelection_keeps (n : Nat) (arriving : Bool) (s : State) : KeepsR s (execPortSelection n arriving s) := by
  unfold execPortSelection
  repeat' first
    | with_reducible exact Keeps.refl _ | with_reducible assumption | with_reducible refine KeepsR.next ?_
    | with_reducible refine Keeps.ite ?_ ?_ | with_reducible refine KeepsR.ite ?_ ?_ | with_reducible refine Keeps.ite1 ?_ ?_
    | (apply Keeps.trans
       case k =>
         with_reducible first
           | apply State.chargeSelection_keeps | apply State.takeHead_keeps | apply State.trace_keeps | apply State.sample_keeps
           | apply State.setPkt_keeps | apply State.setPortNode_keeps)
    | with_reducible refine Keeps.of_pair (State.takeHead_keeps ..) (by assumption) ?_
    | split | dsimp only

theorem State.spillTo_keeps (s : State) (q k : Nat) (p : Pkt) (bs : List Nat) : Keeps s (s.spillTo q k p bs) := by
  unfold State.spillTo
  exact ((((((State.readCanvas_keeps ..).trans (State.putOctets_keeps ..)).trans (State.dramPutAll_keeps ..)).trans
    (State.setQueue_keeps ..)).trans (State.freeOwned_keeps ..)).trans (State.setPkt_keeps ..)).trans (State.incWrap_keeps ..)

theorem execSpillMove_keeps (q : Nat) (s : State) : KeepsR s (execSpillMove q s) := by
  unfold execSpillMove
  repeat' first
    | with_reducible exact Keeps.refl _ | with_reducible assumption | with_reducible refine KeepsR.next ?_
    | with_reducible refine Keeps.ite ?_ ?_ | with_reducible refine KeepsR.ite ?_ ?_ | with_reducible refine Keeps.ite1 ?_ ?_
    | (apply Keeps.trans
       case k =>
         with_reducible first
           | apply State.splitQueue_keeps | apply State.allocN_keeps | apply State.spillTo_keeps)
    | with_reducible refine Keeps.of_pair (State.allocN_keeps ..) (by assumption) ?_
    | split | dsimp only

theorem State.copyBuffers_keeps (s : State) (ks : List Nat) : Keeps s (s.copyBuffers ks).1 := by
  induction ks generalizing s with
  | nil => exact Keeps.refl s
  | cons k ks ih =>
    unfold State.copyBuffers
    split
    · exact Keeps.of_pair (State.allocN_keeps ..) (by assumption) (Keeps.refl s)
    · have h1 := Keeps.of_pair (State.allocN_keeps ..) (by assumption) (Keeps.refl s)
      split
      · exact (Keeps.of_pair (ih _) (by assumption) h1).trans (State.palFreeAll_keeps ..)
      · exact Keeps.of_pair (ih _) (by assumption) h1

theorem State.copyBegin_keeps (s : State) (q k : Nat) (bs : List Nat) : Keeps s (State.copyBegin s q k bs) := by
  unfold State.copyBegin
  repeat' first
    | with_reducible exact Keeps.refl _ | with_reducible assumption | with_reducible refine Keeps.ite ?_ ?_
    | (apply Keeps.trans
       case k =>
         with_reducible first
           | apply State.setPkt_keeps | apply State.reads_keeps | apply State.dramPutAll_keeps | apply State.setQueue_keeps)
    | split | dsimp only

theorem State.prefetch_keeps (s : State) (q : Nat) (ks : List Nat) : Keeps s (State.prefetch s q ks) := by
  unfold State.prefetch
  repeat' first
    | with_reducible exact Keeps.refl _ | with_reducible assumption | with_reducible refine Keeps.ite ?_ ?_
    | with_reducible refine Keeps.ite1 ?_ ?_
    | (apply Keeps.trans
       case k =>
         with_reducible first
           | apply State.copyBuffers_keeps | apply State.incWrap_keeps | apply State.undo_keeps | apply State.sample_keeps
           | apply State.copyBegin_keeps)
    | with_reducible refine Keeps.of_pair (State.copyBuffers_keeps ..) (by assumption) ?_
    | with_reducible refine Keeps.foldl ?_ (fun _ _ => ?_)
    | split | dsimp only

theorem execRunAheadStep_keeps (q : Nat) (s : State) : KeepsR s (execRunAheadStep q s) := by
  unfold execRunAheadStep
  repeat' first
    | with_reducible exact Keeps.refl _ | with_reducible assumption | with_reducible refine KeepsR.next ?_
    | with_reducible refine Keeps.ite ?_ ?_ | with_reducible refine KeepsR.ite ?_ ?_
    | (apply Keeps.trans; case k => with_reducible first | apply State.prefetch_keeps)
    | with_reducible apply State.landed_keeps | with_reducible refine Keeps.trans ?_ (State.landed_keeps _ _ _  ?_)
    | intro _ | split | dsimp only

theorem execRunAheadLand_keeps (q : Nat) (s : State) : KeepsR s (execRunAheadLand q s) := by
  unfold execRunAheadLand
  refine KeepsR.next ?_
  dsimp only
  split
  · exact Keeps.refl s
  · split
    · exact Keeps.refl s
    · exact Keeps.ite (Keeps.refl s) (((State.putOctets_keeps ..).trans (State.setQueue_keeps ..)).trans
        (State.advanceHead_keeps ..))

theorem State.accStart_keeps (s : State) : Keeps s (State.accStart s) := by
  unfold State.accStart
  repeat' first
    | with_reducible exact Keeps.refl _ | with_reducible assumption | with_reducible refine Keeps.ite ?_ ?_
    | (apply Keeps.trans; case k => with_reducible first | apply State.accDone_keeps | apply State.wr_keeps)
    | split | dsimp only

theorem execAccRead_keeps (s : State) : KeepsR s (execAccRead s) := by
  unfold execAccRead
  repeat' first
    | with_reducible exact Keeps.refl _ | with_reducible assumption | with_reducible refine KeepsR.next ?_
    | with_reducible refine Keeps.ite ?_ ?_ | with_reducible refine KeepsR.ite ?_ ?_
    | (apply Keeps.trans; case k => with_reducible first | apply State.accDone_keeps | apply State.wr_keeps)
    | with_reducible refine Keeps.foldl ?_ (fun _ _ => ?_)
    | split | dsimp only

theorem State.queueCfgApply_keeps (s : State) (i old v : Nat) : Keeps s (State.queueCfgApply s i old v) := by
  unfold State.queueCfgApply
  repeat' first
    | with_reducible exact Keeps.refl _ | with_reducible assumption | with_reducible refine Keeps.ite ?_ ?_
    | (apply Keeps.trans; case k => with_reducible first | apply State.setQueue_keeps | apply State.setQueueNode_keeps)
    | (apply Keeps.trans; case k => with_reducible first | apply State.withSched_keeps)
    | split | dsimp only

theorem State.accReplace_keeps (s : State) (obj i : Nat) : Keeps s (State.accReplace s obj i).1 := by
  unfold State.accReplace
  repeat' first
    | with_reducible exact Keeps.refl _ | with_reducible assumption | with_reducible refine Keeps.ite ?_ ?_
    | with_reducible refine Keeps.ite1 ?_ ?_
    | (apply Keeps.trans
       case k =>
         with_reducible first
           | apply State.queueCfgApply_keeps | apply State.setSubNode_keeps | apply State.setQueue_keeps)
    | (apply Keeps.trans; case k => with_reducible first | apply State.withSched_keeps)
    | split | dsimp only

theorem execAccWrite_keeps (s : State) : KeepsR s (execAccWrite s) := by
  unfold execAccWrite
  repeat' first
    | with_reducible exact Keeps.refl _ | with_reducible assumption | with_reducible refine KeepsR.next ?_
    | with_reducible refine Keeps.ite ?_ ?_ | with_reducible refine KeepsR.ite ?_ ?_ | with_reducible refine Keeps.ite1 ?_ ?_
    | (apply Keeps.trans; case k => with_reducible first | apply State.accDone_keeps | apply State.accReplace_keeps)
    | with_reducible refine Keeps.of_pair (State.accReplace_keeps ..) (by assumption) ?_
    | split | dsimp only

theorem execAccFlush_keeps (s : State) : KeepsR s (execAccFlush s) := by
  unfold execAccFlush
  repeat' first
    | with_reducible exact Keeps.refl _ | with_reducible assumption | with_reducible refine KeepsR.next ?_
    | with_reducible refine Keeps.ite ?_ ?_ | with_reducible refine KeepsR.ite ?_ ?_
    | (apply Keeps.trans; case k => with_reducible first | apply State.accDone_keeps | apply State.flush_keeps)
    | split | dsimp only

theorem execQueueFlushComplete_keeps (q : Nat) (s : State) : KeepsR s (execQueueFlushComplete q s) := by
  unfold execQueueFlushComplete
  repeat' first
    | with_reducible exact Keeps.refl _ | with_reducible assumption | with_reducible refine KeepsR.next ?_
    | with_reducible refine Keeps.ite ?_ ?_ | with_reducible refine KeepsR.ite ?_ ?_
    | (apply Keeps.trans; case k => with_reducible first | apply State.flushDone_keeps)
    | split | dsimp only

theorem State.sampleQueue_keeps (s : State) (i : Nat) : Keeps s (State.sampleQueue s i) := by
  unfold State.sampleQueue
  repeat' first
    | with_reducible exact Keeps.refl _ | with_reducible assumption | with_reducible refine Keeps.ite ?_ ?_
    | (apply Keeps.trans
       case k =>
         with_reducible first
           | apply State.wr_keeps | apply State.raiseTo_keeps | apply State.incWrap_keeps)
    | split | dsimp only

theorem execQueueSample_keeps (s : State) : KeepsR s (execQueueSample s) := by
  unfold execQueueSample
  repeat' first
    | with_reducible exact Keeps.refl _ | with_reducible assumption | with_reducible refine KeepsR.next ?_
    | with_reducible refine Keeps.ite ?_ ?_ | with_reducible refine KeepsR.ite ?_ ?_
    | (apply Keeps.trans; case k => with_reducible first | apply State.advanceTo_keeps | apply State.sampleQueue_keeps)
    | with_reducible refine Keeps.foldl ?_ (fun _ _ => ?_)
    | (apply Keeps.trans; case k => with_reducible first | apply State.withSched_keeps)
    | split | dsimp only

end Sys2Proof.Machine
end

