-- ==== Sys2Proof/Laws/KeepsEthernet.lean ====
section
/-!
SUPPORT. The operations of the Ethernet ports: none touches the queue, spoils the register space, takes back an output or draws a free value again.
-/
namespace Sys2Proof.Machine

theorem State.lockOctets_keeps (s : State) : Keeps s (State.lockOctets s) := by
  unfold State.lockOctets
  repeat' first
    | with_reducible exact Keeps.refl _ | with_reducible assumption | with_reducible refine Keeps.ite ?_ ?_
    | (apply Keeps.trans; case k => with_reducible first | apply State.wrBit_keeps)
    | with_reducible refine Keeps.foldl ?_ (fun _ _ => ?_)
    | split | dsimp only

theorem State.holdCfg_keeps (s : State) (p : Nat) (old : BitVec 320) : Keeps s (State.holdCfg s p old) := by
  unfold State.holdCfg
  repeat' first
    | with_reducible exact Keeps.refl _ | with_reducible assumption | with_reducible refine Keeps.ite ?_ ?_
    | (apply Keeps.trans; case k => with_reducible first | apply State.setMac_keeps)
    | split | dsimp only

theorem State.frameEnd_keeps (s : State) (p : Nat) : Keeps s (State.frameEnd s p) := by
  unfold State.frameEnd
  repeat' first
    | with_reducible exact Keeps.refl _ | with_reducible assumption | with_reducible refine Keeps.ite ?_ ?_
    | (apply Keeps.trans; case k => with_reducible first | apply State.setMac_keeps)
    | split | dsimp only

theorem State.ethCount_keeps (s : State) (e j : Nat) (n : Nat) : Keeps s (State.ethCount s e j n) := by
  unfold State.ethCount
  repeat' first
    | with_reducible exact Keeps.refl _ | with_reducible assumption | with_reducible refine Keeps.ite ?_ ?_
    | (apply Keeps.trans; case k => with_reducible first | apply State.incWrap_keeps)
    | split | dsimp only

theorem State.pauseCheck_keeps (s : State) (p : Nat) : Keeps s (State.pauseCheck s p) := by
  unfold State.pauseCheck
  repeat' first
    | with_reducible exact Keeps.refl _ | with_reducible assumption | with_reducible refine Keeps.ite ?_ ?_
    | (apply Keeps.trans; case k => with_reducible first | apply State.setMac_keeps | apply State.emit_keeps)
    | split | dsimp only

theorem State.pausePeak_keeps (s : State) (p n : Nat) : Keeps s (State.pausePeak s p n) := by
  unfold State.pausePeak
  repeat' first
    | with_reducible exact Keeps.refl _ | with_reducible assumption | with_reducible refine Keeps.ite ?_ ?_
    | (apply Keeps.trans; case k => with_reducible first | apply State.setMac_keeps | apply State.pauseCheck_keeps)
    | split | dsimp only

theorem execPauseRepeat_keeps (p : Nat) (s : State) : KeepsR s (execPauseRepeat p s) := by
  unfold execPauseRepeat
  repeat' first
    | with_reducible exact Keeps.refl _ | with_reducible assumption | with_reducible refine KeepsR.next ?_
    | with_reducible refine Keeps.ite ?_ ?_ | with_reducible refine KeepsR.ite ?_ ?_
    | (apply Keeps.trans
       case k =>
         with_reducible first
           | apply State.advanceTo_keeps | apply State.setMac_keeps | apply State.emit_keeps)
    | split | dsimp only

theorem execPauseQuantaExpiry_keeps (p : Nat) (s : State) : KeepsR s (execPauseQuantaExpiry p s) := by
  unfold execPauseQuantaExpiry
  repeat' first
    | with_reducible exact Keeps.refl _ | with_reducible assumption | with_reducible refine KeepsR.next ?_
    | with_reducible refine Keeps.ite ?_ ?_ | with_reducible refine KeepsR.ite ?_ ?_
    | (apply Keeps.trans; case k => with_reducible first | apply State.advanceTo_keeps | apply State.setMac_keeps)
    | split | dsimp only

theorem State.rxOctets_keeps (s : State) (p n : Nat) : Keeps s (State.rxOctets s p n) := by
  unfold State.rxOctets
  repeat' first
    | with_reducible exact Keeps.refl _ | with_reducible assumption | with_reducible refine Keeps.ite ?_ ?_
    | (apply Keeps.trans; case k => with_reducible first | apply State.withTally_keeps)
    | split | dsimp only

theorem State.enterFifo_keeps (s : State) (p : Pkt) : Keeps s (State.enterFifo s p) := by
  unfold State.enterFifo
  repeat' first
    | with_reducible exact Keeps.refl _ | with_reducible assumption | with_reducible refine Keeps.ite ?_ ?_
    | (apply Keeps.trans
       case k =>
         with_reducible first
           | apply State.addPkt_keeps | apply State.setMac_keeps | apply State.rxOctets_keeps | apply State.pauseCheck_keeps)
    | split | dsimp only

theorem State.rxError_keeps (s : State) (port size : Nat) : Keeps s (State.rxError s port size) := by
  unfold State.rxError
  repeat' first
    | with_reducible exact Keeps.refl _ | with_reducible assumption | with_reducible refine Keeps.ite ?_ ?_
    | (apply Keeps.trans; case k => with_reducible first | apply State.tally1_keeps | apply State.discardAt_keeps)
    | split | dsimp only

theorem State.pauseReceived_keeps (s : State) (p quanta : Nat) : Keeps s (State.pauseReceived s p quanta) := by
  unfold State.pauseReceived
  repeat' first
    | with_reducible exact Keeps.refl _ | with_reducible assumption | with_reducible refine Keeps.ite ?_ ?_
    | (apply Keeps.trans; case k => with_reducible first | apply State.ethCount_keeps | apply State.setMac_keeps)
    | split | dsimp only

theorem execPauseFrameReceive_keeps (p quanta : Nat) (s : State) : KeepsR s (execPauseFrameReceive p quanta s) := by
  unfold execPauseFrameReceive
  repeat' first
    | with_reducible exact Keeps.refl _ | with_reducible assumption | with_reducible refine KeepsR.next ?_
    | with_reducible refine Keeps.ite ?_ ?_ | with_reducible refine KeepsR.ite ?_ ?_
    | (apply Keeps.trans; case k => with_reducible first | apply State.rxError_keeps | apply State.pauseReceived_keeps)
    | split | dsimp only

theorem State.markDrop_keeps (s : State) (port : Nat) : Keeps s (State.markDrop s port) := by
  unfold State.markDrop
  repeat' first
    | with_reducible exact Keeps.refl _ | with_reducible assumption | with_reducible refine Keeps.ite ?_ ?_
    | (apply Keeps.trans; case k => with_reducible first | apply State.wr_keeps | apply State.ethCount_keeps)
    | split | dsimp only

theorem State.fifoDrop_keeps (s : State) (port size : Nat) : Keeps s (State.fifoDrop s port size) := by
  unfold State.fifoDrop
  repeat' first
    | with_reducible exact Keeps.refl _ | with_reducible assumption | with_reducible refine Keeps.ite ?_ ?_
    | (apply Keeps.trans
       case k =>
         with_reducible first
           | apply State.pausePeak_keeps | apply State.markDrop_keeps | apply State.tally1_keeps | apply State.discardAt_keeps)
    | split | dsimp only

theorem State.countFrame_keeps (s : State) (port size : Nat) (fcsGood : Bool) :
    Keeps s (State.countFrame s port size fcsGood) := by
  unfold State.countFrame
  repeat' first
    | with_reducible exact Keeps.refl _ | with_reducible assumption | with_reducible refine Keeps.ite ?_ ?_
    | (apply Keeps.trans; case k => with_reducible first | apply State.ethCount_keeps)
    | split | dsimp only

theorem State.macControlled_keeps (s : State) (port : Nat) (octets : List Byte) :
    Keeps s (State.macControlled s port octets) := by
  unfold State.macControlled
  repeat' first
    | with_reducible exact Keeps.refl _ | with_reducible assumption | with_reducible refine Keeps.ite ?_ ?_
    | (apply Keeps.trans; case k => with_reducible first | apply State.pauseReceived_keeps | apply State.ethCount_keeps)
    | split | dsimp only

theorem execFrameReceive_keeps (port : Nat) (octets : List Byte) (fcsGood whole : Bool) (sub : Nat) (s : State) :
    KeepsR s (execFrameReceive port octets fcsGood whole sub s) := by
  unfold execFrameReceive
  repeat' first
    | with_reducible exact Keeps.refl _ | with_reducible assumption | with_reducible refine KeepsR.next ?_
    | with_reducible refine Keeps.ite ?_ ?_ | with_reducible refine KeepsR.ite ?_ ?_
    | (apply Keeps.trans
       case k =>
         with_reducible first
           | apply State.rxError_keeps | apply State.ethCount_keeps | apply State.macControlled_keeps
           | apply State.countFrame_keeps | apply State.fifoDrop_keeps | apply State.pausePeak_keeps
           | apply State.enterFifo_keeps)
    | split | dsimp only

theorem State.spoil_keeps (s : State) (n : Nat) (p : Pkt) : Keeps s (State.spoil s n p) := by
  unfold State.spoil
  repeat' first
    | with_reducible exact Keeps.refl _ | with_reducible assumption | with_reducible refine Keeps.ite ?_ ?_
    | (apply Keeps.trans
       case k =>
         with_reducible first
           | apply State.freeFifo_keeps | apply State.tally1_keeps | apply State.discardPkt_keeps | apply State.setPkt_keeps)
    | split | dsimp only

theorem State.overrun_keeps (s : State) (n : Nat) (p : Pkt) (more size : Nat) : Keeps s (State.overrun s n p more size) := by
  unfold State.overrun
  repeat' first
    | with_reducible exact Keeps.refl _ | with_reducible assumption | with_reducible refine Keeps.ite ?_ ?_
    | (apply Keeps.trans
       case k =>
         with_reducible first
           | apply State.pausePeak_keeps | apply State.markDrop_keeps | apply State.setMac_keeps | apply State.setPkt_keeps
           | apply State.freeFifo_keeps | apply State.tally1_keeps | apply State.discardPkt_keeps | apply State.pauseCheck_keeps)
    | split | dsimp only

theorem execChargeTrueUp_keeps (n : Nat) (tail : List Byte) (fcsGood : Bool) (s : State) :
    KeepsR s (execChargeTrueUp n tail fcsGood s) := by
  unfold execChargeTrueUp
  repeat' first
    | with_reducible exact Keeps.refl _ | with_reducible assumption | with_reducible refine KeepsR.next ?_
    | with_reducible refine Keeps.ite ?_ ?_ | with_reducible refine KeepsR.ite ?_ ?_
    | (apply Keeps.trans
       case k =>
         with_reducible first
           | apply State.freeFifo_keeps | apply State.dropPkt_keeps | apply State.macControlled_keeps
           | apply State.pauseCheck_keeps | apply State.frameEnd_keeps | apply State.countFrame_keeps | apply State.trueUp_keeps
           | apply State.overrun_keeps | apply State.setMac_keeps | apply State.setPkt_keeps | apply State.rxOctets_keeps
           | apply State.spoil_keeps)
    | split | dsimp only

theorem State.watchLink_keeps (s : State) (p : Nat) (bad : Bool) : Keeps s (State.watchLink s p bad) := by
  unfold State.watchLink
  repeat' first
    | with_reducible exact Keeps.refl _ | with_reducible assumption | with_reducible refine Keeps.ite ?_ ?_
    | (apply Keeps.trans; case k => with_reducible first | apply State.setMac_keeps)
    | split | dsimp only

theorem State.cutShort_keeps (s : State) (p : Nat) : Keeps s (State.cutShort s p) := by
  unfold State.cutShort
  repeat' first
    | with_reducible exact Keeps.refl _ | with_reducible assumption | with_reducible refine Keeps.ite ?_ ?_
    | (apply Keeps.trans
       case k =>
         with_reducible first
           | apply State.trueUp_keeps | apply State.spoil_keeps | apply State.frameEnd_keeps)
    | with_reducible refine Keeps.foldl ?_ (fun _ _ => ?_)
    | split | dsimp only

theorem State.linkDown_keeps (s : State) (p : Nat) (cut : Bool) : Keeps s (State.linkDown s p cut) := by
  unfold State.linkDown
  repeat' first
    | with_reducible exact Keeps.refl _ | with_reducible assumption | with_reducible refine Keeps.ite ?_ ?_
    | (apply Keeps.trans
       case k =>
         with_reducible first
           | apply State.wr_keeps | apply State.setCause_keeps | apply State.ethCount_keeps | apply State.setMac_keeps
           | apply State.cutShort_keeps | apply State.nodeLost_keeps)
    | split | dsimp only

theorem State.linkUp_keeps (s : State) (p : Nat) : Keeps s (State.linkUp s p) := by
  unfold State.linkUp
  repeat' first
    | with_reducible exact Keeps.refl _ | with_reducible assumption | with_reducible refine Keeps.ite ?_ ?_
    | (apply Keeps.trans
       case k =>
         with_reducible first
           | apply State.wr_keeps | apply State.setCause_keeps | apply State.setMac_keeps | apply State.nodeReturned_keeps)
    | split | dsimp only

theorem execLinkDown_keeps (p : Nat) (cut : Bool) (s : State) : KeepsR s (execLinkDown p cut s) := by
  unfold execLinkDown
  repeat' first
    | with_reducible exact Keeps.refl _ | with_reducible assumption | with_reducible refine KeepsR.next ?_
    | with_reducible refine Keeps.ite ?_ ?_ | with_reducible refine KeepsR.ite ?_ ?_
    | (apply Keeps.trans; case k => with_reducible first | apply State.advanceTo_keeps | apply State.linkDown_keeps)
    | split | dsimp only

theorem execLinkUp_keeps (p : Nat) (s : State) : KeepsR s (execLinkUp p s) := by
  unfold execLinkUp
  repeat' first
    | with_reducible exact Keeps.refl _ | with_reducible assumption | with_reducible refine KeepsR.next ?_
    | with_reducible refine Keeps.ite ?_ ?_ | with_reducible refine KeepsR.ite ?_ ?_
    | (apply Keeps.trans; case k => with_reducible first | apply State.advanceTo_keeps | apply State.linkUp_keeps)
    | split | dsimp only

theorem execPcsStatusChange_keeps (p : Nat) (blockLock amLock lf rf : Bool) (errs : Bool × Nat × Nat × Nat) (s : State) :
    KeepsR s (execPcsStatusChange p blockLock amLock lf rf errs s) := by
  unfold execPcsStatusChange
  repeat' first
    | with_reducible exact Keeps.refl _ | with_reducible assumption | with_reducible refine KeepsR.next ?_
    | with_reducible refine Keeps.ite ?_ ?_ | with_reducible refine KeepsR.ite ?_ ?_
    | (apply Keeps.trans
       case k =>
         with_reducible first
           | apply State.ethCount_keeps | apply State.wrBit_keeps | apply State.watchLink_keeps | apply State.emit_keeps)
    | split | dsimp only

theorem State.portCfgWrite_keeps (s : State) (p v : Nat) (cut : Bool) : Keeps s (State.portCfgWrite s p v cut) := by
  unfold State.portCfgWrite
  repeat' first
    | with_reducible exact Keeps.refl _ | with_reducible assumption | with_reducible refine Keeps.ite ?_ ?_
    | (apply Keeps.trans
       case k =>
         with_reducible first
           | apply State.wr_keeps | apply State.holdCfg_keeps | apply State.setReg_keeps | apply State.lockOctets_keeps
           | apply State.watchLink_keeps | apply State.linkDown_keeps)
    | split | dsimp only

theorem execPortEnable_keeps (p v : Nat) (s : State) : KeepsR s (execPortEnable p v s) := by
  unfold execPortEnable
  repeat' first
    | with_reducible exact Keeps.refl _ | with_reducible assumption | with_reducible refine KeepsR.next ?_
    | with_reducible refine Keeps.ite ?_ ?_ | with_reducible refine KeepsR.ite ?_ ?_
    | (apply Keeps.trans; case k => with_reducible first | apply State.portCfgWrite_keeps)
    | with_reducible apply State.landed_keeps | with_reducible refine Keeps.trans ?_ (State.landed_keeps _ _ _  ?_)
    | intro _ | split | dsimp only

theorem execPortDisable_keeps (p v : Nat) (cut : Bool) (s : State) : KeepsR s (execPortDisable p v cut s) := by
  unfold execPortDisable
  repeat' first
    | with_reducible exact Keeps.refl _ | with_reducible assumption | with_reducible refine KeepsR.next ?_
    | with_reducible refine Keeps.ite ?_ ?_ | with_reducible refine KeepsR.ite ?_ ?_
    | (apply Keeps.trans; case k => with_reducible first | apply State.portCfgWrite_keeps)
    | with_reducible apply State.landed_keeps | with_reducible refine Keeps.trans ?_ (State.landed_keeps _ _ _  ?_)
    | intro _ | split | dsimp only

end Sys2Proof.Machine
end

