-- ==== Sys2Proof/Laws/KeepsPath.lean ====
section
/-!
SUPPORT. The operations of the path of a packet: none touches the queue, spoils the register space, takes back an output or draws a free value again.
-/
namespace Sys2Proof.Machine

theorem State.puntPolice_keeps (s : State) (p : Pkt) (kind reason override : Nat) :
    Keeps s (State.puntPolice s p kind reason override).1 := by
  unfold State.puntPolice
  repeat' first
    | with_reducible exact Keeps.refl _ | with_reducible assumption | with_reducible refine Keeps.ite ?_ ?_
    | with_reducible refine Keeps.ite1 ?_ ?_
    | (apply Keeps.trans; case k => with_reducible first | apply State.tally1_keeps | apply State.discardAt_keeps)
    | (apply Keeps.trans; case k => with_reducible first | apply State.withReasons_keeps | apply State.withPuntAgg_keeps)
    | split | dsimp only

theorem State.settleHost_keeps (s : State) (p : Pkt) (reason : Nat) (data : List Byte) :
    Keeps s (State.settleHost s p reason data).1 := by
  unfold State.settleHost
  repeat' first
    | with_reducible exact Keeps.refl _ | with_reducible assumption | with_reducible refine Keeps.ite ?_ ?_
    | with_reducible refine Keeps.ite1 ?_ ?_
    | (apply Keeps.trans; case k => with_reducible first | apply State.puntPolice_keeps)
    | with_reducible refine Keeps.of_pair (State.puntPolice_keeps ..) (by assumption) ?_
    | split | dsimp only

theorem State.settleException_keeps (s : State) (p : Pkt) : Keeps s (State.settleException s p).1 := by
  unfold State.settleException
  repeat' first
    | with_reducible exact Keeps.refl _ | with_reducible assumption | with_reducible refine Keeps.ite ?_ ?_
    | with_reducible refine Keeps.ite1 ?_ ?_
    | (apply Keeps.trans; case k => with_reducible first | apply State.settleHost_keeps)
    | with_reducible refine Keeps.of_pair (State.settleHost_keeps ..) (by assumption) ?_
    | split | dsimp only

theorem State.settleCopies_keeps (s : State) (p : Pkt) : Keeps s (State.settleCopies s p).1 := by
  unfold State.settleCopies
  repeat' first
    | with_reducible exact Keeps.refl _ | with_reducible assumption | with_reducible refine Keeps.ite ?_ ?_
    | with_reducible refine Keeps.ite1 ?_ ?_
    | (apply Keeps.trans; case k => with_reducible first | apply State.puntPolice_keeps)
    | with_reducible refine Keeps.of_pair (State.puntPolice_keeps ..) (by assumption) ?_
    | split | dsimp only

theorem State.settleMain_keeps (s : State) (p : Pkt) : Keeps s (State.settleMain s p).1 := by
  unfold State.settleMain
  repeat' first
    | with_reducible exact Keeps.refl _ | with_reducible assumption | with_reducible refine Keeps.ite ?_ ?_
    | with_reducible refine Keeps.ite1 ?_ ?_
    | (apply Keeps.trans; case k => with_reducible first | apply State.settleHost_keeps)
    | with_reducible refine Keeps.of_pair (State.settleHost_keeps ..) (by assumption) ?_
    | split | dsimp only

theorem State.settle_keeps (s : State) (p : Pkt) : Keeps s (State.settle s p).1 := by
  unfold State.settle
  repeat' first
    | with_reducible exact Keeps.refl _ | with_reducible assumption | with_reducible refine Keeps.ite ?_ ?_
    | with_reducible refine Keeps.ite1 ?_ ?_
    | (apply Keeps.trans
       case k =>
         with_reducible first
           | apply State.settleException_keeps | apply State.incWrap_keeps | apply State.settleHost_keeps
           | apply State.settleCopies_keeps | apply State.settleMain_keeps | apply State.tally1_keeps
           | apply State.discardAt_keeps)
    | with_reducible refine Keeps.of_pair (State.settleException_keeps ..) (by assumption) ?_
    | with_reducible refine Keeps.of_pair (State.settleHost_keeps ..) (by assumption) ?_
    | with_reducible refine Keeps.of_pair (State.settleCopies_keeps ..) (by assumption) ?_
    | with_reducible refine Keeps.of_pair (State.settleMain_keeps ..) (by assumption) ?_
    | split | dsimp only

theorem State.settleDiscard_keeps (s : State) (n : Nat) (p : Pkt) (row reason : Nat) (pair : Option Nat) :
    Keeps s (State.settleDiscard s n p row reason pair) := by
  unfold State.settleDiscard
  repeat' first
    | with_reducible exact Keeps.refl _ | with_reducible assumption | with_reducible refine Keeps.ite ?_ ?_
    | (apply Keeps.trans
       case k =>
         with_reducible first
           | apply State.tally1_keeps | apply State.freeFifo_keeps | apply State.discardPkt_keeps | apply State.setPkt_keeps
           | apply State.pauseCheck_keeps)
    | split | dsimp only

theorem State.settleGo_keeps (s : State) (n : Nat) (p : Pkt) (fate : Fate) (copies : List Copy) (data : List Byte) :
    Keeps s (State.settleGo s n p fate copies data) := by
  unfold State.settleGo
  repeat' first
    | with_reducible exact Keeps.refl _ | with_reducible assumption | with_reducible refine Keeps.ite ?_ ?_
    | with_reducible refine Keeps.ite1 ?_ ?_
    | (apply Keeps.trans
       case k =>
         with_reducible first
           | apply State.tcwIngress_keeps | apply State.unstamp_keeps | apply State.setPkt_keeps | apply State.freeFifo_keeps
           | apply State.pauseCheck_keeps)
    | with_reducible refine Keeps.of_pair (State.tcwIngress_keeps ..) (by assumption) ?_
    | with_reducible refine Keeps.of_pair (State.unstamp_keeps ..) (by assumption) ?_
    | split | dsimp only

theorem execIngressReorderSettle_keeps (n : Nat) (s : State) : KeepsR s (execIngressReorderSettle n s) := by
  unfold execIngressReorderSettle
  repeat' first
    | with_reducible exact Keeps.refl _ | with_reducible assumption | with_reducible refine KeepsR.next ?_
    | with_reducible refine Keeps.ite ?_ ?_ | with_reducible refine KeepsR.ite ?_ ?_ | with_reducible refine Keeps.ite1 ?_ ?_
    | (apply Keeps.trans
       case k =>
         with_reducible first
           | apply State.trace_keeps | apply State.settle_keeps | apply State.settleDiscard_keeps | apply State.settleGo_keeps)
    | with_reducible refine Keeps.of_pair (State.settle_keeps ..) (by assumption) ?_
    | split | dsimp only

theorem execEgressEntry_keeps (n : Nat) (s : State) : KeepsR s (execEgressEntry n s) := by
  unfold execEgressEntry
  repeat' first
    | with_reducible exact Keeps.refl _ | with_reducible assumption | with_reducible refine KeepsR.next ?_
    | with_reducible refine Keeps.ite ?_ ?_ | with_reducible refine KeepsR.ite ?_ ?_
    | (apply Keeps.trans
       case k =>
         with_reducible first
           | apply State.setPkt_keeps | apply State.setInflight_keeps | apply State.sramTouch_keeps | apply State.tally1_keeps
           | apply State.discardPkt_keeps)
    | (apply Keeps.trans; case k => with_reducible first | apply State.withTables_keeps)
    | split | dsimp only

theorem State.leaveEgress_keeps (s : State) (n : Nat) (p : Pkt) : Keeps s (s.leaveEgress n p) := by
  unfold State.leaveEgress
  refine Keeps.ite (((State.trueUp_keeps ..).trans (State.tally1_keeps ..)).trans (State.discardPkt_keeps ..))
    (Keeps.ite (Keeps.refl s) ?_)
  extract_lets late
  split
  exact (Keeps.of_pair (State.tcwEgress_keeps ..) (by assumption) (State.setInflight_keeps s _ _)).trans (State.setPkt_keeps ..)

theorem State.restOfFrame_keeps (s : State) (n : Nat) (p : Pkt) : Keeps s (State.restOfFrame s n p) := by
  unfold State.restOfFrame
  repeat' first
    | with_reducible exact Keeps.refl _ | with_reducible assumption | with_reducible refine Keeps.ite ?_ ?_
    | (apply Keeps.trans; case k => with_reducible first | apply State.setPkt_keeps)
    | split | dsimp only

theorem State.txOctets_keeps (s : State) (n k : Nat) : Keeps s (State.txOctets s n k) := by
  unfold State.txOctets
  repeat' first
    | with_reducible exact Keeps.refl _ | with_reducible assumption | with_reducible refine Keeps.ite ?_ ?_
    | (apply Keeps.trans; case k => with_reducible first | apply State.withTally_keeps)
    | split | dsimp only

theorem State.arriveDown_keeps (s : State) (n : Nat) (p : Pkt) : Keeps s (State.arriveDown s n p) := by
  unfold State.arriveDown
  repeat' first
    | with_reducible exact Keeps.refl _ | with_reducible assumption | with_reducible refine Keeps.ite ?_ ?_
    | (apply Keeps.trans
       case k =>
         with_reducible first
           | apply State.setPkt_keeps | apply State.txOctets_keeps | apply State.setMac_keeps | apply State.emit_keeps
           | apply State.trace_keeps | apply State.removePkt_keeps)
    | split | dsimp only

theorem execQueueHandoff_keeps (n : Nat) (s : State) : KeepsR s (execQueueHandoff n s) := by
  unfold execQueueHandoff
  repeat' first
    | with_reducible exact Keeps.refl _ | with_reducible assumption | with_reducible refine KeepsR.next ?_
    | with_reducible refine Keeps.ite ?_ ?_ | with_reducible refine KeepsR.ite ?_ ?_
    | (apply Keeps.trans
       case k =>
         with_reducible first
           | apply State.leaveIngress_keeps | apply State.setPkt_keeps | apply State.arriveDown_keeps
           | apply State.leaveEgress_keeps | apply State.restOfFrame_keeps)
    | split | dsimp only

theorem State.transmit_keeps (s : State) (n : Nat) (p : Pkt) (stamp : BitVec 80) : Keeps s (State.transmit s n p stamp) := by
  unfold State.transmit
  repeat' first
    | with_reducible exact Keeps.refl _ | with_reducible assumption | with_reducible refine Keeps.ite ?_ ?_
    | (apply Keeps.trans
       case k =>
         with_reducible first
           | apply State.incWrap_keeps | apply State.txtsPost_keeps | apply State.ethCount_keeps | apply State.trueUp_keeps
           | apply State.txOctets_keeps | apply State.emit_keeps | apply State.trace_keeps | apply State.removePkt_keeps)
    | split | dsimp only

theorem State.lateDrop_keeps (s : State) (n : Nat) (p : Pkt) : Keeps s (State.lateDrop s n p) := by
  unfold State.lateDrop
  repeat' first
    | with_reducible exact Keeps.refl _ | with_reducible assumption | with_reducible refine Keeps.ite ?_ ?_
    | (apply Keeps.trans
       case k =>
         with_reducible first
           | apply State.trueUp_keeps | apply State.tally1_keeps | apply State.incWrap_keeps | apply State.postDropped_keeps
           | apply State.discardPkt_keeps)
    | split | dsimp only

theorem execFrameTransmit_keeps (n sub : Nat) (s : State) : KeepsR s (execFrameTransmit n sub s) := by
  unfold execFrameTransmit
  repeat' first
    | with_reducible exact Keeps.refl _ | with_reducible assumption | with_reducible refine KeepsR.next ?_
    | with_reducible refine Keeps.ite ?_ ?_ | with_reducible refine KeepsR.ite ?_ ?_
    | (apply Keeps.trans; case k => with_reducible first | apply State.lateDrop_keeps | apply State.transmit_keeps)
    | split | dsimp only

theorem execLaunchEligible_keeps (q : Nat) (s : State) : KeepsR s (execLaunchEligible q s) := by
  unfold execLaunchEligible
  repeat' first
    | with_reducible exact Keeps.refl _ | with_reducible assumption | with_reducible refine KeepsR.next ?_
    | with_reducible refine Keeps.ite ?_ ?_ | with_reducible refine KeepsR.ite ?_ ?_
    | (apply Keeps.trans; case k => with_reducible first | apply State.advanceTo_keeps)
    | split | dsimp only

theorem execLaunchTimeReached_keeps (k : Nat) (s : State) : KeepsR s (execLaunchTimeReached k s) := by
  unfold execLaunchTimeReached
  repeat' first
    | with_reducible exact Keeps.refl _ | with_reducible assumption | with_reducible refine KeepsR.next ?_
    | with_reducible refine Keeps.ite ?_ ?_ | with_reducible refine KeepsR.ite ?_ ?_
    | (apply Keeps.trans
       case k =>
         with_reducible first
           | apply State.advanceTo_keeps | apply State.transmit_keeps | apply State.setPkt_keeps)
    | split | dsimp only

end Sys2Proof.Machine
end

