-- ==== Sys2Proof/Laws/KeepsFlexE.lean ====
section
/-!
SUPPORT. The operations of FlexE: none touches the queue, spoils the register space, takes back an output or draws a free value again.
-/
namespace Sys2Proof.Machine

theorem State.puntMessage_keeps (s : State) (ring : Nat) (fields content : List Byte) :
    Keeps s (State.puntMessage s ring fields content).1 := by
  unfold State.puntMessage
  repeat' first
    | with_reducible exact Keeps.refl _ | with_reducible assumption | with_reducible refine Keeps.ite ?_ ?_
    | with_reducible refine Keeps.ite1 ?_ ?_
    | (apply Keeps.trans; case k => with_reducible first | apply State.withHost_keeps)
    | split | dsimp only

theorem State.setInst_keeps (s : State) (i : Nat) (x : Inst) : Keeps s (State.setInst s i x) := by
  unfold State.setInst
  repeat' first
    | with_reducible exact Keeps.refl _ | with_reducible assumption | with_reducible refine Keeps.ite ?_ ?_
    | (apply Keeps.trans; case k => with_reducible first | apply State.idle_keeps)
    | (apply Keeps.trans; case k => with_reducible first | apply State.withInsts_keeps)
    | split | dsimp only

theorem State.setGrp_keeps (s : State) (g : Nat) (x : Grp) : Keeps s (State.setGrp s g x) := by
  unfold State.setGrp
  repeat' first
    | with_reducible exact Keeps.refl _ | with_reducible assumption | with_reducible refine Keeps.ite ?_ ?_
    | (apply Keeps.trans; case k => with_reducible first | apply State.idle_keeps)
    | (apply Keeps.trans; case k => with_reducible first | apply State.withGrps_keeps)
    | split | dsimp only

theorem State.countFault_keeps (s : State) (c : Nat) : Keeps s (State.countFault s c) := by
  unfold State.countFault
  repeat' first
    | with_reducible exact Keeps.refl _ | with_reducible assumption | with_reducible refine Keeps.ite ?_ ?_
    | (apply Keeps.trans; case k => with_reducible first | apply State.ethCount_keeps | apply State.setMac_keeps)
    | split | dsimp only

theorem State.refreshClient_keeps (s : State) (c : Nat) : Keeps s (State.refreshClient s c) := by
  unfold State.refreshClient
  repeat' first
    | with_reducible exact Keeps.refl _ | with_reducible assumption | with_reducible refine Keeps.ite ?_ ?_
    | (apply Keeps.trans
       case k =>
         with_reducible first
           | apply State.countFault_keeps | apply State.linkDown_keeps | apply State.idle_keeps | apply State.setMac_keeps
           | apply State.watchLink_keeps)
    | split | dsimp only

theorem State.refreshClients_keeps (s : State) : Keeps s (State.refreshClients s) := by
  unfold State.refreshClients
  repeat' first
    | with_reducible exact Keeps.refl _ | with_reducible assumption | with_reducible refine Keeps.ite ?_ ?_
    | (apply Keeps.trans; case k => with_reducible first | apply State.refreshClient_keeps)
    | with_reducible refine Keeps.foldl ?_ (fun _ _ => ?_)
    | split | dsimp only

theorem execMarkerCandidate_keeps (i pos : Nat) (s : State) : KeepsR s (execMarkerCandidate i pos s) := by
  unfold execMarkerCandidate
  repeat' first
    | with_reducible exact Keeps.refl _ | with_reducible assumption | with_reducible refine KeepsR.next ?_
    | with_reducible refine Keeps.ite ?_ ?_ | with_reducible refine KeepsR.ite ?_ ?_
    | (apply Keeps.trans; case k => with_reducible first | apply State.ethCount_keeps | apply State.setInst_keeps)
    | split | dsimp only

theorem execOhCandidateCheck_keeps (i pos : Nat) (ok : Bool) (s : State) : KeepsR s (execOhCandidateCheck i pos ok s) := by
  unfold execOhCandidateCheck
  repeat' first
    | with_reducible exact Keeps.refl _ | with_reducible assumption | with_reducible refine KeepsR.next ?_
    | with_reducible refine Keeps.ite ?_ ?_ | with_reducible refine KeepsR.ite ?_ ?_
    | (apply Keeps.trans
       case k =>
         with_reducible first
           | apply State.setInst_keeps | apply State.wr_keeps | apply State.refreshClients_keeps)
    | split | dsimp only

theorem State.instFailed_keeps (s : State) (i : Nat) : Keeps s (State.instFailed s i) := by
  unfold State.instFailed
  repeat' first
    | with_reducible exact Keeps.refl _ | with_reducible assumption | with_reducible refine Keeps.ite ?_ ?_
    | (apply Keeps.trans
       case k =>
         with_reducible first
           | apply State.wr_keeps | apply State.setCause_keeps | apply State.setInst_keeps)
    | split | dsimp only

theorem State.lockLost_keeps (s : State) (i : Nat) : Keeps s (State.lockLost s i) := by
  unfold State.lockLost
  repeat' first
    | with_reducible exact Keeps.refl _ | with_reducible assumption | with_reducible refine Keeps.ite ?_ ?_
    | (apply Keeps.trans
       case k =>
         with_reducible first
           | apply State.wr_keeps | apply State.setCause_keeps | apply State.ethCount_keeps | apply State.setInst_keeps
           | apply State.instFailed_keeps | apply State.refreshClients_keeps)
    | split | dsimp only

theorem State.ohFrame_keeps (s : State) (i : Nat) (cr ca ccc rpf mf : Bool) (gid : Nat) (cal : List (BitVec 16)) (mgmt : List Byte) :
    Keeps s (State.ohFrame s i cr ca ccc rpf mf gid cal mgmt) := by
  unfold State.ohFrame
  repeat' first
    | with_reducible exact Keeps.refl _ | with_reducible assumption | with_reducible refine Keeps.ite ?_ ?_
    | with_reducible refine Keeps.ite1 ?_ ?_
    | (apply Keeps.trans
       case k =>
         with_reducible first
           | apply State.setInst_keeps | apply State.wrBit_keeps | apply State.ethCount_keeps | apply State.instFailed_keeps
           | apply State.puntMessage_keeps | apply State.refreshClients_keeps)
    | with_reducible refine Keeps.of_pair (State.puntMessage_keeps ..) (by assumption) ?_
    | split | dsimp only

theorem execOhPositionCheck_keeps (i : Nat) (form crc cr ca ccc rpf mf : Bool) (gid : Nat) (cal : List (BitVec 16)) (mgmt : List Byte) (s : State) :
    KeepsR s (execOhPositionCheck i form crc cr ca ccc rpf mf gid cal mgmt s) := by
  unfold execOhPositionCheck
  repeat' first
    | with_reducible exact Keeps.refl _ | with_reducible assumption | with_reducible refine KeepsR.next ?_
    | with_reducible refine Keeps.ite ?_ ?_ | with_reducible refine KeepsR.ite ?_ ?_
    | (apply Keeps.trans
       case k =>
         with_reducible first
           | apply State.setInst_keeps | apply State.ethCount_keeps | apply State.wr_keeps | apply State.lockLost_keeps
           | apply State.ohFrame_keeps)
    | split | dsimp only

theorem State.acceptCal_keeps (s : State) (i v : Nat) : Keeps s (State.acceptCal s i v) := by
  unfold State.acceptCal
  repeat' first
    | with_reducible exact Keeps.refl _ | with_reducible assumption | with_reducible refine Keeps.ite ?_ ?_
    | (apply Keeps.trans; case k => with_reducible first | apply State.setGrp_keeps)
    | with_reducible refine Keeps.foldl ?_ (fun _ _ => ?_)
    | split | dsimp only

theorem execOhFieldAccept_keeps (i : Nat) (s : State) : KeepsR s (execOhFieldAccept i s) := by
  unfold execOhFieldAccept
  repeat' first
    | with_reducible exact Keeps.refl _ | with_reducible assumption | with_reducible refine KeepsR.next ?_
    | with_reducible refine Keeps.ite ?_ ?_ | with_reducible refine KeepsR.ite ?_ ?_
    | (apply Keeps.trans
       case k =>
         with_reducible first
           | apply State.setGrp_keeps | apply State.wrBit_keeps | apply State.wr_keeps | apply State.acceptCal_keeps
           | apply State.refreshClients_keeps)
    | split | dsimp only

theorem State.askSwitch_keeps (s : State) (g : Nat) : Keeps s (State.askSwitch s g) := by
  unfold State.askSwitch
  repeat' first
    | with_reducible exact Keeps.refl _ | with_reducible assumption | with_reducible refine Keeps.ite ?_ ?_
    | (apply Keeps.trans; case k => with_reducible first | apply State.wr_keeps | apply State.setGrp_keeps)
    | split | dsimp only

theorem execTxPageSwitch_keeps (turn : Nat × Bool) (s : State) : KeepsR s (execTxPageSwitch turn s) := by
  unfold execTxPageSwitch
  repeat' first
    | with_reducible exact Keeps.refl _ | with_reducible assumption | with_reducible refine KeepsR.next ?_
    | with_reducible refine Keeps.ite ?_ ?_ | with_reducible refine KeepsR.ite ?_ ?_
    | (apply Keeps.trans
       case k =>
         with_reducible first
           | apply State.askSwitch_keeps | apply State.setGrp_keeps | apply State.wr_keeps | apply State.setCause_keeps)
    | split | dsimp only

theorem execProtHoldoffExpiry_keeps (i : Nat) (s : State) : KeepsR s (execProtHoldoffExpiry i s) := by
  unfold execProtHoldoffExpiry
  repeat' first
    | with_reducible exact Keeps.refl _ | with_reducible assumption | with_reducible refine KeepsR.next ?_
    | with_reducible refine Keeps.ite ?_ ?_ | with_reducible refine KeepsR.ite ?_ ?_
    | (apply Keeps.trans
       case k =>
         with_reducible first
           | apply State.advanceTo_keeps | apply State.setInst_keeps | apply State.wr_keeps | apply State.setGrp_keeps)
    | with_reducible refine Keeps.foldl ?_ (fun _ _ => ?_)
    | split | dsimp only

theorem execProtCaTimeout_keeps (g : Nat) (s : State) : KeepsR s (execProtCaTimeout g s) := by
  unfold execProtCaTimeout
  repeat' first
    | with_reducible exact Keeps.refl _ | with_reducible assumption | with_reducible refine KeepsR.next ?_
    | with_reducible refine Keeps.ite ?_ ?_ | with_reducible refine KeepsR.ite ?_ ?_
    | (apply Keeps.trans
       case k =>
         with_reducible first
           | apply State.advanceTo_keeps | apply State.wr_keeps | apply State.setCause_keeps)
    | split | dsimp only

theorem State.instCfgWrite_keeps (s : State) (i v : Nat) : Keeps s (State.instCfgWrite s i v) := by
  unfold State.instCfgWrite
  repeat' first
    | with_reducible exact Keeps.refl _ | with_reducible assumption | with_reducible refine Keeps.ite ?_ ?_
    | (apply Keeps.trans
       case k =>
         with_reducible first
           | apply State.setReg_keeps | apply State.wr_keeps | apply State.setInst_keeps | apply State.idle_keeps
           | apply State.refreshClients_keeps)
    | split | dsimp only

theorem execFlexeInstanceEnable_keeps (i v : Nat) (s : State) : KeepsR s (execFlexeInstanceEnable i v s) := by
  unfold execFlexeInstanceEnable
  repeat' first
    | with_reducible exact Keeps.refl _ | with_reducible assumption | with_reducible refine KeepsR.next ?_
    | with_reducible refine Keeps.ite ?_ ?_ | with_reducible refine KeepsR.ite ?_ ?_
    | (apply Keeps.trans; case k => with_reducible first | apply State.instCfgWrite_keeps)
    | with_reducible apply State.landed_keeps | with_reducible refine Keeps.trans ?_ (State.landed_keeps _ _ _  ?_)
    | intro _ | split | dsimp only

theorem State.calWrite_keeps (s : State) (g page pos v : Nat) : Keeps s (State.calWrite s g page pos v) := by
  unfold State.calWrite
  repeat' first
    | with_reducible exact Keeps.refl _ | with_reducible assumption | with_reducible refine Keeps.ite ?_ ?_
    | (apply Keeps.trans; case k => with_reducible first | apply State.ethCount_keeps | apply State.wr_keeps)
    | split | dsimp only

end Sys2Proof.Machine
end

