-- ==== Sys2Proof/Laws/KeepsPairs.lean ====
section
/-!
SUPPORT. The operations of the counter pairs: none touches the queue, spoils the register space, takes back an output or draws a free value again.
-/
namespace Sys2Proof.Machine

theorem State.healPair_keeps (s : State) (i : Nat) : Keeps s (State.healPair s i) := by
  unfold State.healPair
  repeat' first
    | with_reducible exact Keeps.refl _ | with_reducible assumption | with_reducible refine Keeps.ite ?_ ?_
    | (apply Keeps.trans; case k => with_reducible first | apply State.withDram_keeps)
    | split | dsimp only

theorem State.strikePair_keeps (s : State) (i : Nat) (strikes : List (Nat × Nat)) : Keeps s (State.strikePair s i strikes) := by
  unfold State.strikePair
  repeat' first
    | with_reducible exact Keeps.refl _ | with_reducible assumption | with_reducible refine Keeps.ite ?_ ?_
    | (apply Keeps.trans; case k => with_reducible first | apply State.strikeDram_keeps)
    | split | dsimp only

theorem State.setPair_keeps (s : State) (i : Nat) (p : Pair) : Keeps s (State.setPair s i p) := by
  unfold State.setPair
  repeat' first
    | with_reducible exact Keeps.refl _ | with_reducible assumption | with_reducible refine Keeps.ite ?_ ?_
    | (apply Keeps.trans; case k => with_reducible first | apply State.healPair_keeps)
    | (apply Keeps.trans; case k => with_reducible first | apply State.withTally_keeps)
    | split | dsimp only

theorem State.uncache_keeps (s : State) (i : Nat) : Keeps s (State.uncache s i) := by
  unfold State.uncache
  repeat' first
    | with_reducible exact Keeps.refl _ | with_reducible assumption | with_reducible refine Keeps.ite ?_ ?_
    | (apply Keeps.trans; case k => with_reducible first | apply State.withTally_keeps)
    | split | dsimp only

theorem State.pairInvalid_keeps (s : State) (i : Nat) : Keeps s (State.pairInvalid s i) := by
  unfold State.pairInvalid
  repeat' first
    | with_reducible exact Keeps.refl _ | with_reducible assumption | with_reducible refine Keeps.ite ?_ ?_
    | (apply Keeps.trans; case k => with_reducible first | apply State.setPair_keeps | apply State.wr_keeps)
    | (apply Keeps.trans; case k => with_reducible first | apply State.withTally_keeps)
    | split | dsimp only

theorem State.fetchPair_keeps (s : State) (i : Nat) : Keeps s (State.fetchPair s i) := by
  unfold State.fetchPair
  repeat' first
    | with_reducible exact Keeps.refl _ | with_reducible assumption | with_reducible refine Keeps.ite ?_ ?_
    | with_reducible refine Keeps.ite1 ?_ ?_
    | (apply Keeps.trans; case k => with_reducible first | apply State.readDirect_keeps | apply State.pairInvalid_keeps)
    | with_reducible refine Keeps.of_pair (State.readDirect_keeps ..) (by assumption) ?_
    | split | dsimp only

theorem State.clearPair_keeps (s : State) (i : Nat) (zero : Bool) : Keeps s (State.clearPair s i zero) := by
  unfold State.clearPair
  repeat' first
    | with_reducible exact Keeps.refl _ | with_reducible assumption | with_reducible refine Keeps.ite ?_ ?_
    | (apply Keeps.trans; case k => with_reducible first | apply State.uncache_keeps | apply State.setPair_keeps)
    | (apply Keeps.trans; case k => with_reducible first | apply State.withTally_keeps)
    | split | dsimp only

theorem State.cntFinish_keeps (s : State) : Keeps s (State.cntFinish s) := by
  unfold State.cntFinish
  repeat' first
    | with_reducible exact Keeps.refl _ | with_reducible assumption | with_reducible refine Keeps.ite ?_ ?_
    | (apply Keeps.trans
       case k =>
         with_reducible first
           | apply State.wr_keeps | apply State.fetchPair_keeps | apply State.clearPair_keeps)
    | split | dsimp only

theorem State.cntAccess_keeps (s : State) : Keeps s (State.cntAccess s) := by
  unfold State.cntAccess
  repeat' first
    | with_reducible exact Keeps.refl _ | with_reducible assumption | with_reducible refine Keeps.ite ?_ ?_
    | (apply Keeps.trans; case k => with_reducible first | apply State.wr_keeps | apply State.cntFinish_keeps)
    | split | dsimp only

theorem State.cntResume_keeps (s : State) : Keeps s (State.cntResume s) := by
  unfold State.cntResume
  repeat' first
    | with_reducible exact Keeps.refl _ | with_reducible assumption | with_reducible refine Keeps.ite ?_ ?_
    | (apply Keeps.trans; case k => with_reducible first | apply State.cntFinish_keeps)
    | split | dsimp only

theorem State.cntCommand_keeps (s : State) (op i : Nat) : Keeps s (State.cntCommand s op i) := by
  unfold State.cntCommand
  repeat' first
    | with_reducible exact Keeps.refl _ | with_reducible assumption | with_reducible refine Keeps.ite ?_ ?_
    | (apply Keeps.trans; case k => with_reducible first | apply State.wr_keeps | apply State.cntAccess_keeps)
    | split | dsimp only

end Sys2Proof.Machine
end

