-- ==== Sys2Proof/Laws/KeepsDram.lean ====
section
/-!
SUPPORT. The operations of the DRAM: none touches the queue, spoils the register space, takes back an output or draws a free value again.
-/
namespace Sys2Proof.Machine

theorem execErrPop_keeps (s : State) : KeepsR s (execErrPop s) := by
  unfold execErrPop
  repeat' first
    | with_reducible exact Keeps.refl _ | with_reducible assumption | with_reducible refine KeepsR.next ?_
    | with_reducible refine Keeps.ite ?_ ?_ | with_reducible refine KeepsR.ite ?_ ?_
    | (apply Keeps.trans; case k => with_reducible first | apply State.showErrLog_keeps)
    | with_reducible apply State.landed_keeps | with_reducible refine Keeps.trans ?_ (State.landed_keeps _ _ _  ?_)
    | (apply Keeps.trans; case k => with_reducible first | apply State.withDram_keeps)
    | intro _ | split | dsimp only

theorem execChannelLost_keeps (ch cause : Nat) (s : State) : KeepsR s (execChannelLost ch cause s) := by
  unfold execChannelLost
  repeat' first
    | with_reducible exact Keeps.refl _ | with_reducible assumption | with_reducible refine KeepsR.next ?_
    | with_reducible refine Keeps.ite ?_ ?_ | with_reducible refine KeepsR.ite ?_ ?_
    | (apply Keeps.trans; case k => with_reducible first | apply State.loseChannel_keeps)
    | split | dsimp only

theorem State.dropAtRead_keeps (s : State) (k : Nat) : Keeps s (State.dropAtRead s k) := by
  unfold State.dropAtRead
  repeat' first
    | with_reducible exact Keeps.refl _ | with_reducible assumption | with_reducible refine Keeps.ite ?_ ?_
    | (apply Keeps.trans
       case k =>
         with_reducible first
           | apply State.undoCopy_keeps | apply State.palFreeAll_keeps | apply State.setQueue_keeps | apply State.tally1_keeps
           | apply State.discardPkt_keeps)
    | split | dsimp only

theorem State.treatUe_keeps (s : State) (ch a : Nat) : Keeps s (State.treatUe s ch a) := by
  unfold State.treatUe
  repeat' first
    | with_reducible exact Keeps.refl _ | with_reducible assumption | with_reducible refine Keeps.ite ?_ ?_
    | (apply Keeps.trans; case k => with_reducible first | apply State.markBad_keeps | apply State.pairInvalid_keeps)
    | (apply Keeps.trans; case k => with_reducible first | apply State.withDram_keeps)
    | split | dsimp only

theorem State.checkBurst_keeps (s : State) (ch a : Nat) (stale : Bool) : Keeps s (s.checkBurst ch a stale).1 := by
  unfold State.checkBurst
  exact Keeps.foldl (Keeps.ite ((State.codewords_keeps ..).trans (State.writeBack_keeps ..)) (State.codewords_keeps ..))
    (fun _ _ => State.treatUe_keeps ..)

theorem State.served_keeps (s : State) (k : Nat) : Keeps s (State.served s k) := by
  unfold State.served
  repeat' first
    | with_reducible exact Keeps.refl _ | with_reducible assumption | with_reducible refine Keeps.ite ?_ ?_
    | (apply Keeps.trans
       case k =>
         with_reducible first
           | apply State.setPkt_keeps | apply State.palFreeAll_keeps | apply State.tally1_keeps | apply State.discardPkt_keeps)
    | (apply Keeps.trans; case k => with_reducible first | apply State.withFab_keeps)
    | split | dsimp only

theorem State.burstBack_keeps (s : State) (k : Nat) (bad : Bool) : Keeps s (State.burstBack s k bad) := by
  unfold State.burstBack
  repeat' first
    | with_reducible exact Keeps.refl _ | with_reducible assumption | with_reducible refine Keeps.ite ?_ ?_
    | (apply Keeps.trans; case k => with_reducible first | apply State.setPkt_keeps | apply State.reads_keeps)
    | split | dsimp only

theorem State.notePanic_keeps (s : State) : Keeps s (State.notePanic s) := by
  unfold State.notePanic
  repeat' first
    | with_reducible exact Keeps.refl _ | with_reducible assumption | with_reducible refine Keeps.ite ?_ ?_
    | (apply Keeps.trans; case k => with_reducible first | apply State.incSat_keeps)
    | (apply Keeps.trans; case k => with_reducible first | apply State.withDram_keeps)
    | split | dsimp only

theorem execDramReadReturn_keeps (ch : Nat) (dq cb : List (Nat × Nat)) (fails : List Nat) (s0 : State) :
    KeepsR s0 (execDramReadReturn ch dq cb fails s0) := by
  unfold execDramReadReturn
  repeat' first
    | with_reducible exact Keeps.refl _ | with_reducible assumption | with_reducible refine KeepsR.next ?_
    | with_reducible refine Keeps.ite ?_ ?_ | with_reducible refine KeepsR.ite ?_ ?_ | with_reducible refine Keeps.ite1 ?_ ?_
    | (apply Keeps.trans
       case k =>
         with_reducible first
           | apply State.strikeDram_keeps | apply State.setChan_keeps | apply State.checkBurst_keeps | apply State.serve_keeps
           | apply State.burstBack_keeps | apply State.reads_keeps | apply State.served_keeps | apply State.notePanic_keeps
           | apply State.dropAtRead_keeps)
    | with_reducible refine Keeps.of_pair (State.checkBurst_keeps ..) (by assumption) ?_
    | split | dsimp only

theorem execPatrolScrub_keeps (ch : Nat) (dq cb : List (Nat × Nat)) (fails : List Nat) (s : State) :
    KeepsR s (execPatrolScrub ch dq cb fails s) := by
  unfold execPatrolScrub
  repeat' first
    | with_reducible exact Keeps.refl _ | with_reducible assumption | with_reducible refine KeepsR.next ?_
    | with_reducible refine Keeps.ite ?_ ?_ | with_reducible refine KeepsR.ite ?_ ?_ | with_reducible refine Keeps.ite1 ?_ ?_
    | (apply Keeps.trans
       case k =>
         with_reducible first
           | apply State.advanceTo_keeps | apply State.setChan_keeps | apply State.checkBurst_keeps
           | apply State.strikeDram_keeps)
    | with_reducible refine Keeps.of_pair (State.checkBurst_keeps ..) (by assumption) ?_
    | split | dsimp only

theorem execCaParityError_keeps (ch fails : Nat) (s : State) : KeepsR s (execCaParityError ch fails s) := by
  unfold execCaParityError
  repeat' first
    | with_reducible exact Keeps.refl _ | with_reducible assumption | with_reducible refine KeepsR.next ?_
    | with_reducible refine Keeps.ite ?_ ?_ | with_reducible refine KeepsR.ite ?_ ?_
    | (apply Keeps.trans
       case k =>
         with_reducible first
           | apply State.incSat_keeps | apply State.errPost_keeps | apply State.loseChannel_keeps)
    | with_reducible refine Keeps.foldl ?_ (fun _ _ => ?_)
    | split | dsimp only

theorem State.refreshNow_keeps (s : State) (ch : Nat) : Keeps s (State.refreshNow s ch) := by
  unfold State.refreshNow
  repeat' first
    | with_reducible exact Keeps.refl _ | with_reducible assumption | with_reducible refine Keeps.ite ?_ ?_
    | (apply Keeps.trans; case k => with_reducible first | apply State.setChan_keeps | apply State.emit_keeps)
    | with_reducible refine Keeps.foldl ?_ (fun _ _ => ?_)
    | split | dsimp only

theorem State.drawNbr_keeps (s : State) (ch bank row : Nat) : Keeps s (State.drawNbr s ch bank row) := by
  unfold State.drawNbr
  repeat' first
    | with_reducible exact Keeps.refl _ | with_reducible assumption | with_reducible refine Keeps.ite ?_ ?_
    | (apply Keeps.trans; case k => with_reducible first | apply State.freeDraw_keeps | apply State.setChan_keeps)
    | split | dsimp only

theorem State.activate_keeps (s : State) (ch bank row : Nat) : Keeps s (State.activate s ch bank row) := by
  unfold State.activate
  repeat' first
    | with_reducible exact Keeps.refl _ | with_reducible assumption | with_reducible refine Keeps.ite ?_ ?_
    | (apply Keeps.trans
       case k =>
         with_reducible first
           | apply State.setChan_keeps | apply State.emit_keeps | apply State.drawNbr_keeps)
    | split | dsimp only

theorem State.issueBurst_keeps (s : State) (ch : Nat) (r : Req) : Keeps s (State.issueBurst s ch r) := by
  unfold State.issueBurst
  repeat' first
    | with_reducible exact Keeps.refl _ | with_reducible assumption | with_reducible refine Keeps.ite ?_ ?_
    | (apply Keeps.trans
       case k =>
         with_reducible first
           | apply State.setChan_keeps | apply State.healBurst_keeps | apply State.emit_keeps)
    | split | dsimp only

theorem State.issueFor_keeps (s : State) (ch : Nat) (r : Req) : Keeps s (State.issueFor s ch r) := by
  unfold State.issueFor
  repeat' first
    | with_reducible exact Keeps.refl _ | with_reducible assumption | with_reducible refine Keeps.ite ?_ ?_
    | (apply Keeps.trans
       case k =>
         with_reducible first
           | apply State.issueBurst_keeps | apply State.setChan_keeps | apply State.emit_keeps | apply State.drawNbr_keeps
           | apply State.activate_keeps)
    | split | dsimp only

theorem State.issueNext_keeps (s : State) (ch : Nat) : Keeps s (State.issueNext s ch) := by
  unfold State.issueNext
  repeat' first
    | with_reducible exact Keeps.refl _ | with_reducible assumption | with_reducible refine Keeps.ite ?_ ?_
    | (apply Keeps.trans
       case k =>
         with_reducible first
           | apply State.notePanic_keeps | apply State.setChan_keeps | apply State.refreshNow_keeps | apply State.issueFor_keeps)
    | split | dsimp only

theorem execDramCommandIssue_keeps (ch : Nat) (strikes : List (Nat × Nat)) (s : State) :
    KeepsR s (execDramCommandIssue ch strikes s) := by
  unfold execDramCommandIssue
  repeat' first
    | with_reducible exact Keeps.refl _ | with_reducible assumption | with_reducible refine KeepsR.next ?_
    | with_reducible refine Keeps.ite ?_ ?_ | with_reducible refine KeepsR.ite ?_ ?_
    | (apply Keeps.trans; case k => with_reducible first | apply State.issueNext_keeps | apply State.strikeDram_keeps)
    | split | dsimp only

theorem execRefresh_keeps (ch : Nat) (s : State) : KeepsR s (execRefresh ch s) := by
  unfold execRefresh
  repeat' first
    | with_reducible exact Keeps.refl _ | with_reducible assumption | with_reducible refine KeepsR.next ?_
    | with_reducible refine Keeps.ite ?_ ?_ | with_reducible refine KeepsR.ite ?_ ?_
    | (apply Keeps.trans
       case k =>
         with_reducible first
           | apply State.advanceTo_keeps | apply State.setChan_keeps | apply State.refreshNow_keeps)
    | split | dsimp only

theorem State.tempWrite_keeps (s : State) (v : Nat) : Keeps s (State.tempWrite s v) := by
  unfold State.tempWrite
  repeat' first
    | with_reducible exact Keeps.refl _ | with_reducible assumption | with_reducible refine Keeps.ite ?_ ?_
    | (apply Keeps.trans; case k => with_reducible first | apply State.wr_keeps | apply State.setCause_keeps)
    | (apply Keeps.trans; case k => with_reducible first | apply State.withDram_keeps)
    | split | dsimp only

theorem execTempWrite_keeps (v : Nat) (s : State) : KeepsR s (execTempWrite v s) := by
  unfold execTempWrite
  repeat' first
    | with_reducible exact Keeps.refl _ | with_reducible assumption | with_reducible refine KeepsR.next ?_
    | with_reducible refine Keeps.ite ?_ ?_ | with_reducible refine KeepsR.ite ?_ ?_
    | (apply Keeps.trans; case k => with_reducible first | apply State.tempWrite_keeps)
    | with_reducible apply State.landed_keeps | with_reducible refine Keeps.trans ?_ (State.landed_keeps _ _ _  ?_)
    | intro _ | split | dsimp only

theorem execTempStale_keeps (s : State) : KeepsR s (execTempStale s) := by
  unfold execTempStale
  repeat' first
    | with_reducible exact Keeps.refl _ | with_reducible assumption | with_reducible refine KeepsR.next ?_
    | with_reducible refine Keeps.ite ?_ ?_ | with_reducible refine KeepsR.ite ?_ ?_
    | (apply Keeps.trans; case k => with_reducible first | apply State.advanceTo_keeps | apply State.setCause_keeps)
    | split | dsimp only

theorem State.trained_keeps (s : State) (ch : Nat) : Keeps s (State.trained s ch) := by
  unfold State.trained
  repeat' first
    | with_reducible exact Keeps.refl _ | with_reducible assumption | with_reducible refine Keeps.ite ?_ ?_
    | (apply Keeps.trans; case k => with_reducible first | apply State.wr_keeps | apply State.setChan_keeps)
    | split | dsimp only

theorem State.trainFailed_keeps (s : State) (ch : Nat) : Keeps s (State.trainFailed s ch) := by
  unfold State.trainFailed
  repeat' first
    | with_reducible exact Keeps.refl _ | with_reducible assumption | with_reducible refine Keeps.ite ?_ ?_
    | (apply Keeps.trans; case k => with_reducible first | apply State.errPost_keeps | apply State.loseChannel_keeps)
    | split | dsimp only

theorem State.trainOne_keeps (s : State) (failed : List Nat) (ch : Nat) : Keeps s (State.trainOne s failed ch) := by
  unfold State.trainOne
  repeat' first
    | with_reducible exact Keeps.refl _ | with_reducible assumption | with_reducible refine Keeps.ite ?_ ?_
    | (apply Keeps.trans
       case k =>
         with_reducible first
           | apply State.emit_keeps | apply State.trainFailed_keeps | apply State.trained_keeps)
    | split | dsimp only

theorem State.fullTraining_keeps (s : State) (failed : List Nat) : Keeps s (State.fullTraining s failed) := by
  unfold State.fullTraining
  repeat' first
    | with_reducible exact Keeps.refl _ | with_reducible assumption | with_reducible refine Keeps.ite ?_ ?_
    | (apply Keeps.trans; case k => with_reducible first | apply State.trainOne_keeps)
    | with_reducible refine Keeps.foldl ?_ (fun _ _ => ?_)
    | split | dsimp only

theorem execFullTraining_keeps (failed : List Nat) (s : State) : KeepsR s (execFullTraining failed s) := by
  unfold execFullTraining
  repeat' first
    | with_reducible exact Keeps.refl _ | with_reducible assumption | with_reducible refine KeepsR.next ?_
    | with_reducible refine Keeps.ite ?_ ?_ | with_reducible refine KeepsR.ite ?_ ?_
    | (apply Keeps.trans; case k => with_reducible first | apply State.trainOne_keeps)
    | with_reducible refine Keeps.foldl ?_ (fun _ _ => ?_)
    | split | dsimp only

theorem execPeriodicTrainingStep_keeps (ch : Nat) (s : State) : KeepsR s (execPeriodicTrainingStep ch s) := by
  unfold execPeriodicTrainingStep
  repeat' first
    | with_reducible exact Keeps.refl _ | with_reducible assumption | with_reducible refine KeepsR.next ?_
    | with_reducible refine Keeps.ite ?_ ?_ | with_reducible refine KeepsR.ite ?_ ?_
    | (apply Keeps.trans
       case k =>
         with_reducible first
           | apply State.setChan_keeps | apply State.wr_keeps | apply State.advanceTo_keeps)
    | split | dsimp only

theorem State.freqGo_keeps (s : State) : Keeps s (State.freqGo s) := by
  unfold State.freqGo
  repeat' first
    | with_reducible exact Keeps.refl _ | with_reducible assumption | with_reducible refine Keeps.ite ?_ ?_
    | (apply Keeps.trans
       case k =>
         with_reducible first
           | apply State.setCause_keeps | apply State.wr_keeps | apply State.switching_keeps)
    | (apply Keeps.trans; case k => with_reducible first | apply State.withDram_keeps)
    | split | dsimp only

theorem execFreqGo_keeps (target : Nat) (s : State) : KeepsR s (execFreqGo target s) := by
  unfold execFreqGo
  repeat' first
    | with_reducible exact Keeps.refl _ | with_reducible assumption | with_reducible refine KeepsR.next ?_
    | with_reducible refine Keeps.ite ?_ ?_ | with_reducible refine KeepsR.ite ?_ ?_
    | (apply Keeps.trans; case k => with_reducible first | apply State.wr_keeps | apply State.freqGo_keeps)
    | with_reducible apply State.landed_keeps | with_reducible refine Keeps.trans ?_ (State.landed_keeps _ _ _  ?_)
    | intro _ | split | dsimp only

theorem State.startTraining_keeps (s : State) : Keeps s (State.startTraining s) := by
  unfold State.startTraining
  repeat' first
    | with_reducible exact Keeps.refl _ | with_reducible assumption | with_reducible refine Keeps.ite ?_ ?_
    | (apply Keeps.trans; case k => with_reducible first | apply State.wr_keeps)
    | with_reducible refine Keeps.foldl ?_ (fun _ _ => ?_)
    | split | dsimp only

theorem execFreqSwitchComplete_keeps (s : State) : KeepsR s (execFreqSwitchComplete s) := by
  unfold execFreqSwitchComplete
  repeat' first
    | with_reducible exact Keeps.refl _ | with_reducible assumption | with_reducible refine KeepsR.next ?_
    | with_reducible refine Keeps.ite ?_ ?_ | with_reducible refine KeepsR.ite ?_ ?_
    | (apply Keeps.trans
       case k =>
         with_reducible first
           | apply State.setChan_keeps | apply State.emit_keeps | apply State.wr_keeps | apply State.startTraining_keeps)
    | with_reducible refine Keeps.foldl ?_ (fun _ _ => ?_)
    | split | dsimp only

theorem execTrainingStepEnd_keeps (ch : Nat) (s : State) : KeepsR s (execTrainingStepEnd ch s) := by
  unfold execTrainingStepEnd
  repeat' first
    | with_reducible exact Keeps.refl _ | with_reducible assumption | with_reducible refine KeepsR.next ?_
    | with_reducible refine Keeps.ite ?_ ?_ | with_reducible refine KeepsR.ite ?_ ?_
    | (apply Keeps.trans
       case k =>
         with_reducible first
           | apply State.incSat_keeps | apply State.startTraining_keeps | apply State.wr_keeps | apply State.switching_keeps
           | apply State.setChan_keeps)
    | (apply Keeps.trans; case k => with_reducible first | apply State.withDram_keeps)
    | split | dsimp only

theorem execFreqTrainingComplete_keeps (bad worse : List Nat) (s : State) : KeepsR s (execFreqTrainingComplete bad worse s) := by
  unfold execFreqTrainingComplete
  repeat' first
    | with_reducible exact Keeps.refl _ | with_reducible assumption | with_reducible refine KeepsR.next ?_
    | with_reducible refine Keeps.ite ?_ ?_ | with_reducible refine KeepsR.ite ?_ ?_
    | (apply Keeps.trans
       case k =>
         with_reducible first
           | apply State.errPost_keeps | apply State.wr_keeps | apply State.fullTraining_keeps | apply State.setCause_keeps
           | apply State.cntResume_keeps)
    | with_reducible refine Keeps.foldl ?_ (fun _ _ => ?_)
    | split | dsimp only

end Sys2Proof.Machine
end

