-- ==== Sys2Proof/Laws/KeepsFabric.lean ====
section
/-!
SUPPORT. The operations of the fabric: none touches the queue, spoils the register space, takes back an output or draws a free value again.
-/
namespace Sys2Proof.Machine

theorem State.fabErr_keeps (s : State) (j : Nat) (n : Nat) : Keeps s (State.fabErr s j n) := by
  unfold State.fabErr
  repeat' first
    | with_reducible exact Keeps.refl _ | with_reducible assumption | with_reducible refine Keeps.ite ?_ ?_
    | (apply Keeps.trans; case k => with_reducible first | apply State.incWrap_keeps)
    | split | dsimp only

theorem State.setLane_keeps (s : State) (l : Nat) (x : Lane) : Keeps s (State.setLane s l x) := by
  unfold State.setLane
  repeat' first
    | with_reducible exact Keeps.refl _ | with_reducible assumption | with_reducible refine Keeps.ite ?_ ?_
    | (apply Keeps.trans; case k => with_reducible first | apply State.idle_keeps)
    | (apply Keeps.trans; case k => with_reducible first | apply State.withFab_keeps)
    | split | dsimp only

theorem State.spray_keeps (s : State) (d : Nat) : Keeps s (State.spray s d).1 := by
  unfold State.spray
  repeat' first
    | with_reducible exact Keeps.refl _ | with_reducible assumption | with_reducible refine Keeps.ite ?_ ?_
    | with_reducible refine Keeps.ite1 ?_ ?_
    | (apply Keeps.trans; case k => with_reducible first | apply State.withFab_keeps)
    | split | dsimp only

theorem State.reachDue_keeps (s : State) : Keeps s (State.reachDue s) := by
  unfold State.reachDue
  repeat' first
    | with_reducible exact Keeps.refl _ | with_reducible assumption | with_reducible refine Keeps.ite ?_ ?_
    | (apply Keeps.trans; case k => with_reducible first | apply State.setLane_keeps)
    | with_reducible refine Keeps.foldl ?_ (fun _ _ => ?_)
    | split | dsimp only

theorem State.tellReach_keeps (s : State) : Keeps s (State.tellReach s) := by
  unfold State.tellReach
  repeat' first
    | with_reducible exact Keeps.refl _ | with_reducible assumption | with_reducible refine Keeps.ite ?_ ?_
    | (apply Keeps.trans; case k => with_reducible first | apply State.reachDue_keeps)
    | (apply Keeps.trans; case k => with_reducible first | apply State.withFab_keeps)
    | split | dsimp only

theorem State.recycle_keeps (s : State) (old : List Nat) : Keeps s (State.recycle s old) := by
  unfold State.recycle
  repeat' first
    | with_reducible exact Keeps.refl _ | with_reducible assumption | with_reducible refine Keeps.ite ?_ ?_
    | (apply Keeps.trans
       case k =>
         with_reducible first
           | apply State.wrBit_keeps | apply State.wr_keeps | apply State.tellReach_keeps)
    | with_reducible refine Keeps.foldl ?_ (fun _ _ => ?_)
    | (apply Keeps.trans; case k => with_reducible first | apply State.withFab_keeps)
    | split | dsimp only

theorem State.wiring_keeps (s : State) : Keeps s (State.wiring s) := by
  unfold State.wiring
  repeat' first
    | with_reducible exact Keeps.refl _ | with_reducible assumption | with_reducible refine Keeps.ite ?_ ?_
    | (apply Keeps.trans; case k => with_reducible first | apply State.setCause_keeps)
    | with_reducible refine Keeps.foldl ?_ (fun _ _ => ?_)
    | split | dsimp only

theorem State.reassign_keeps (s : State) (relayed : Bool) (w : Swatch) : Keeps s (State.reassign s relayed w) := by
  unfold State.reassign
  repeat' first
    | with_reducible exact Keeps.refl _ | with_reducible assumption | with_reducible refine Keeps.ite ?_ ?_
    | with_reducible refine Keeps.ite1 ?_ ?_
    | (apply Keeps.trans
       case k =>
         with_reducible first
           | apply State.fabErr_keeps | apply State.spray_keeps | apply State.discardAt_keeps | apply State.setLane_keeps)
    | with_reducible refine Keeps.of_pair (State.spray_keeps ..) (by assumption) ?_
    | split | dsimp only

theorem State.placeAgain_keeps (s : State) (n : Nat) : Keeps s (s.placeAgain n) := by
  induction n generalizing s with
  | zero => exact Keeps.refl s
  | succ n ih =>
    unfold State.placeAgain
    split
    · exact Keeps.refl s
    · dsimp only
      split
      · have h := Keeps.of_pair (State.spray_keeps ..) (by assumption) (State.withFab_keeps s _)
        exact (((h.trans (State.fabErr_keeps ..)).trans (State.fabErr_keeps ..)).trans (State.discardAt_keeps ..)).trans (ih _)
      · have h := Keeps.of_pair (State.spray_keeps ..) (by assumption) (State.withFab_keeps s _)
        split
        · exact Keeps.refl s
        · exact ((h.trans (State.setLane_keeps ..)).trans (State.fabErr_keeps ..)).trans (ih _)

theorem State.leaveCycles_keeps (s : State) (l : Nat) : Keeps s (State.leaveCycles s l) := by
  unfold State.leaveCycles
  repeat' first
    | with_reducible exact Keeps.refl _ | with_reducible assumption | with_reducible refine Keeps.ite ?_ ?_
    | (apply Keeps.trans; case k => with_reducible first | apply State.setLane_keeps | apply State.reassign_keeps)
    | with_reducible refine Keeps.foldl ?_ (fun _ _ => ?_)
    | (apply Keeps.trans; case k => with_reducible first | apply State.withFab_keeps)
    | split | dsimp only

theorem State.withLanes_keeps (s : State) (f : State → State) (h : ∀ u, Keeps u (f u)) : Keeps s (s.withLanes f) := by
  unfold State.withLanes
  exact (Keeps.foldl ((h s).trans ((State.recycle_keeps _ _).trans (State.wiring_keeps _))) (fun _ _ =>
    State.leaveCycles_keeps ..)).trans (State.placeAgain_keeps ..)

theorem execLaneLock_keeps (l : Nat) (s : State) : KeepsR s (execLaneLock l s) := by
  unfold execLaneLock
  repeat' first
    | with_reducible exact Keeps.refl _ | with_reducible assumption | with_reducible refine KeepsR.next ?_
    | with_reducible refine Keeps.ite ?_ ?_ | with_reducible refine KeepsR.ite ?_ ?_
    | (apply Keeps.trans; case k => with_reducible first | apply State.wr_keeps)
    | with_reducible apply State.withLanes_keeps | with_reducible refine Keeps.trans ?_ (State.withLanes_keeps _ _  ?_)
    | intro _ | split | dsimp only

theorem State.laneDown_keeps (s : State) (l : Nat) (after : State → State) (h : ∀ u, Keeps u (after u)) :
    Keeps s (s.laneDown l after) := by
  unfold State.laneDown
  exact ((State.withLanes_keeps _ _ (fun u => ((State.wr_keeps ..).trans (State.setLane_keeps ..)).trans (h _))).trans
    (State.setCause_keeps ..)).trans (State.incSat_keeps ..)

theorem execLaneDown_keeps (l : Nat) (s : State) : KeepsR s (execLaneDown l s) :=
  KeepsR.next (Keeps.ite (Keeps.refl s) (State.laneDown_keeps s l id (fun u => Keeps.refl u)))

theorem State.laneEnWrite_keeps (s : State) (w v : Nat) : Keeps s (s.laneEnWrite w v) := by
  unfold State.laneEnWrite
  exact (Keeps.foldl (Keeps.refl s) (fun _ _ => State.laneDown_keeps _ _ _ (fun _ => State.wr_keeps ..))).trans
    (State.withLanes_keeps _ _ (fun _ => State.wr_keeps ..))

theorem execLaneEnWrite_keeps (w v : Nat) (s : State) : KeepsR s (execLaneEnWrite w v s) := by
  unfold execLaneEnWrite
  repeat' first
    | with_reducible exact Keeps.refl _ | with_reducible assumption | with_reducible refine KeepsR.next ?_
    | with_reducible refine Keeps.ite ?_ ?_ | with_reducible refine KeepsR.ite ?_ ?_
    | (apply Keeps.trans; case k => with_reducible first | apply State.laneEnWrite_keeps)
    | with_reducible apply State.landed_keeps | with_reducible refine Keeps.trans ?_ (State.landed_keeps _ _ _  ?_)
    | intro _ | split | dsimp only

theorem execReachabilitySend_keeps (s : State) : KeepsR s (execReachabilitySend s) := by
  unfold execReachabilitySend
  repeat' first
    | with_reducible exact Keeps.refl _ | with_reducible assumption | with_reducible refine KeepsR.next ?_
    | with_reducible refine Keeps.ite ?_ ?_ | with_reducible refine KeepsR.ite ?_ ?_
    | (apply Keeps.trans; case k => with_reducible first | apply State.advanceTo_keeps | apply State.reachDue_keeps)
    | (apply Keeps.trans; case k => with_reducible first | apply State.withFab_keeps)
    | split | dsimp only

theorem State.chargeClass_keeps (s : State) (c leff : Nat) : Keeps s (State.chargeClass s c leff) := by
  unfold State.chargeClass
  repeat' first
    | with_reducible exact Keeps.refl _ | with_reducible assumption | with_reducible refine Keeps.ite ?_ ?_
    | (apply Keeps.trans; case k => with_reducible first | apply State.withSched_keeps)
    | split | dsimp only

theorem State.build_keeps (s : State) (n : Nat) : Keeps s (s.build n) := by
  induction n generalizing s with
  | zero => exact Keeps.refl s
  | succ n ih =>
    unfold State.build
    split
    · exact Keeps.refl s
    · dsimp only
      have hd (c : Prop) [Decidable c] (k j : Nat) (l : List Nat) (u : State) :
          Keeps u (if c then (u.trace k 7 0 l).removePkt j else u) :=
        Keeps.ite ((State.trace_keeps ..).trans (State.removePkt_keeps ..)) (Keeps.refl u)
      split
      · have h := Keeps.of_pair (State.spray_keeps ..) (by assumption) (State.withFab_keeps s _)
        exact (((h.trans (State.fabErr_keeps ..)).trans (State.discardAt_keeps ..)).trans (hd ..)).trans (ih _)
      · have h := Keeps.of_pair (State.spray_keeps ..) (by assumption) (State.withFab_keeps s _)
        split
        · exact Keeps.refl s
        · exact ((h.trans (State.setLane_keeps ..)).trans (hd ..)).trans (ih _)

theorem State.fillLanes_keeps (s : State) : Keeps s (State.fillLanes s) := by
  unfold State.fillLanes
  repeat' first
    | with_reducible exact Keeps.refl _ | with_reducible assumption | with_reducible refine Keeps.ite ?_ ?_
    | (apply Keeps.trans; case k => with_reducible first | apply State.placeAgain_keeps | apply State.build_keeps)
    | split | dsimp only

theorem execVoqDequeue_keeps (words : List (Nat × Bool)) (s00 : State) : KeepsR s00 (execVoqDequeue words s00) := by
  unfold execVoqDequeue
  repeat' first
    | with_reducible exact Keeps.refl _ | with_reducible assumption | with_reducible refine KeepsR.next ?_
    | with_reducible refine Keeps.ite ?_ ?_ | with_reducible refine KeepsR.ite ?_ ?_ | with_reducible refine Keeps.ite1 ?_ ?_
    | (apply Keeps.trans
       case k =>
         with_reducible first
           | apply State.strikeCanvas_keeps | apply State.fillLanes_keeps | apply State.chargeClass_keeps
           | apply State.takeHead_keeps | apply State.setQueue_keeps | apply State.trace_keeps | apply State.setPkt_keeps)
    | with_reducible refine Keeps.of_pair (State.takeHead_keeps ..) (by assumption) ?_
    | (apply Keeps.trans; case k => with_reducible first | apply State.withSched_keeps | apply State.withFab_keeps)
    | split | dsimp only

theorem execSlotTransmit_keeps (l : Nat) (s : State) : KeepsR s (execSlotTransmit l s) := by
  unfold execSlotTransmit
  repeat' first
    | with_reducible exact Keeps.refl _ | with_reducible assumption | with_reducible refine KeepsR.next ?_
    | with_reducible refine Keeps.ite ?_ ?_ | with_reducible refine KeepsR.ite ?_ ?_
    | (apply Keeps.trans
       case k =>
         with_reducible first
           | apply State.setLane_keeps | apply State.emit_keeps | apply State.fillLanes_keeps)
    | split | dsimp only

theorem State.setStream_keeps (s : State) (st : Nat) (x : Stream) : Keeps s (State.setStream s st x) := by
  unfold State.setStream
  repeat' first
    | with_reducible exact Keeps.refl _ | with_reducible assumption | with_reducible refine Keeps.ite ?_ ?_
    | (apply Keeps.trans; case k => with_reducible first | apply State.idle_keeps)
    | (apply Keeps.trans; case k => with_reducible first | apply State.withFab_keeps)
    | split | dsimp only

theorem State.setDeadline_keeps (s : State) (st : Nat) : Keeps s (State.setDeadline s st) := by
  unfold State.setDeadline
  repeat' first
    | with_reducible exact Keeps.refl _ | with_reducible assumption | with_reducible refine Keeps.ite ?_ ?_
    | (apply Keeps.trans; case k => with_reducible first | apply State.setStream_keeps)
    | split | dsimp only

theorem State.dropHeldSw_keeps (s : State) (st : Nat) (h : Held) : Keeps s (State.dropHeldSw s st h) := by
  unfold State.dropHeldSw
  repeat' first
    | with_reducible exact Keeps.refl _ | with_reducible assumption | with_reducible refine Keeps.ite ?_ ?_
    | with_reducible refine Keeps.ite1 ?_ ?_
    | (apply Keeps.trans
       case k =>
         with_reducible first
           | apply State.setStream_keeps | apply State.palFree_keeps | apply State.incWrap_keeps | apply State.discardAt_keeps)
    | with_reducible refine Keeps.of_pair (State.palFree_keeps ..) (by assumption) ?_
    | split | dsimp only

theorem State.releasePacket_keeps (s : State) (st : Nat) (hs : List Held) : Keeps s (State.releasePacket s st hs) := by
  unfold State.releasePacket
  repeat' first
    | with_reducible exact Keeps.refl _ | with_reducible assumption | with_reducible refine Keeps.ite ?_ ?_
    | (apply Keeps.trans
       case k =>
         with_reducible first
           | apply State.setStream_keeps | apply State.addPkt_keeps | apply State.incWrap_keeps)
    | with_reducible refine Keeps.foldl ?_ (fun _ _ => ?_)
    | (apply Keeps.trans; case k => with_reducible first | apply State.withPalette_keeps)
    | split | dsimp only

theorem State.advanceStream_keeps (s : State) (st n : Nat) : Keeps s (s.advanceStream st n) := by
  induction n generalizing s with
  | zero => exact Keeps.refl s
  | succ n ih =>
    unfold State.advanceStream
    dsimp only
    split
    · exact Keeps.refl s
    · split
      · exact ((State.dropHeldSw_keeps _ _ _).trans (State.setStream_keeps _ _ _)).trans (ih _)
      · split
        · exact Keeps.refl s
        · exact (State.releasePacket_keeps _ _ _).trans (ih _)

theorem State.runStream_keeps (s : State) (st : Nat) : Keeps s (State.runStream s st) := by
  unfold State.runStream
  repeat' first
    | with_reducible exact Keeps.refl _ | with_reducible assumption | with_reducible refine Keeps.ite ?_ ?_
    | (apply Keeps.trans; case k => with_reducible first | apply State.advanceStream_keeps | apply State.setDeadline_keeps)
    | split | dsimp only

theorem State.arrive_keeps (s : State) (w : Swatch) : Keeps s (State.arrive s w) := by
  unfold State.arrive
  repeat' first
    | with_reducible exact Keeps.refl _ | with_reducible assumption | with_reducible refine Keeps.ite ?_ ?_
    | with_reducible refine Keeps.ite1 ?_ ?_
    | (apply Keeps.trans
       case k =>
         with_reducible first
           | apply State.fabErr_keeps | apply State.discardAt_keeps | apply State.incWrap_keeps | apply State.sample_keeps
           | apply State.palAlloc_keeps | apply State.setStream_keeps | apply State.putOctets_keeps | apply State.runStream_keeps)
    | with_reducible refine Keeps.of_pair (State.palAlloc_keeps ..) (by assumption) ?_
    | split | dsimp only

theorem State.relay_keeps (s : State) (w : Swatch) : Keeps s (State.relay s w) := by
  unfold State.relay
  repeat' first
    | with_reducible exact Keeps.refl _ | with_reducible assumption | with_reducible refine Keeps.ite ?_ ?_
    | with_reducible refine Keeps.ite1 ?_ ?_
    | (apply Keeps.trans
       case k =>
         with_reducible first
           | apply State.fabErr_keeps | apply State.discardAt_keeps | apply State.spray_keeps | apply State.setLane_keeps)
    | with_reducible refine Keeps.of_pair (State.spray_keeps ..) (by assumption) ?_
    | split | dsimp only

theorem State.onSwatch_keeps (s : State) (l kind : Nat) (octets : List Byte) (f : Swatch → State) (h : ∀ w, Keeps s (f w)) :
    Keeps s (s.onSwatch l kind octets f) := by
  unfold State.onSwatch
  exact Keeps.ite (Keeps.refl s) (Keeps.ite ((State.fabErr_keeps _ _ _).trans (State.discardAt_keeps _ _)) (Keeps.ite (Keeps.refl s) (h _)))

theorem execSwatchReceive_keeps (l : Nat) (octets : List Byte) (s : State) : KeepsR s (execSwatchReceive l octets s) := by
  unfold execSwatchReceive
  repeat' first
    | with_reducible exact Keeps.refl _ | with_reducible assumption | with_reducible refine KeepsR.next ?_
    | with_reducible refine Keeps.ite ?_ ?_ | with_reducible refine KeepsR.ite ?_ ?_
    | (apply Keeps.trans; case k => with_reducible first | apply State.arrive_keeps | apply State.relay_keeps)
    | with_reducible apply State.onSwatch_keeps | with_reducible refine Keeps.trans ?_ (State.onSwatch_keeps _ _ _ _ _  ?_)
    | intro _ | split | dsimp only

theorem State.countRefused_keeps (s : State) (x : Stream) (cls n o bytes : Nat) (lost : Bool) :
    Keeps s (s.countRefused x cls n o bytes lost) := by
  have hl (u : State) (b : Nat) (l : Bool) : Keeps u (if l then u.tally1 (1024 + cls) b else u) :=
    Keeps.ite (State.tally1_keeps ..) (Keeps.refl u)
  induction n generalizing s o bytes lost with
  | zero => exact hl ..
  | succ n ih =>
    unfold State.countRefused
    extract_lets seen
    split
    · exact (hl ..).trans (ih _ _ _ _)
    · exact ih _ _ _ _

theorem State.gapOnce_keeps (s : State) (st : Nat) : Keeps s (State.gapOnce s st) := by
  unfold State.gapOnce
  repeat' first
    | with_reducible exact Keeps.refl _ | with_reducible assumption | with_reducible refine Keeps.ite ?_ ?_
    | (apply Keeps.trans
       case k =>
         with_reducible first
           | apply State.countRefused_keeps | apply State.dropHeldSw_keeps | apply State.setStream_keeps
           | apply State.incWrap_keeps | apply State.runStream_keeps)
    | with_reducible refine Keeps.foldl ?_ (fun _ _ => ?_)
    | split | dsimp only

theorem State.gapRelease_keeps (s : State) (st n : Nat) : Keeps s (s.gapRelease st n) := by
  induction n generalizing s with
  | zero => exact Keeps.refl s
  | succ n ih =>
    unfold State.gapRelease
    split
    · split
      · exact (State.gapOnce_keeps _ _).trans (ih _)
      · exact Keeps.refl s
    · exact Keeps.refl s

theorem execGapRelease_keeps (src cls : Nat) (s : State) : KeepsR s (execGapRelease src cls s) := by
  unfold execGapRelease
  repeat' first
    | with_reducible exact Keeps.refl _ | with_reducible assumption | with_reducible refine KeepsR.next ?_
    | with_reducible refine Keeps.ite ?_ ?_ | with_reducible refine KeepsR.ite ?_ ?_
    | (apply Keeps.trans; case k => with_reducible first | apply State.advanceTo_keeps | apply State.gapRelease_keeps)
    | split | dsimp only

theorem State.sendCredit_keeps (s : State) (d : Nat) (cs : List Nat) : Keeps s (State.sendCredit s d cs) := by
  unfold State.sendCredit
  repeat' first
    | with_reducible exact Keeps.refl _ | with_reducible assumption | with_reducible refine Keeps.ite ?_ ?_
    | with_reducible refine Keeps.ite1 ?_ ?_
    | (apply Keeps.trans; case k => with_reducible first | apply State.spray_keeps | apply State.setLane_keeps)
    | with_reducible refine Keeps.of_pair (State.spray_keeps ..) (by assumption) ?_
    | split | dsimp only

theorem execCreditIssue_keeps (d c : Nat) (s : State) : KeepsR s (execCreditIssue d c s) := by
  unfold execCreditIssue
  repeat' first
    | with_reducible exact Keeps.refl _ | with_reducible assumption | with_reducible refine KeepsR.next ?_
    | with_reducible refine Keeps.ite ?_ ?_ | with_reducible refine KeepsR.ite ?_ ?_
    | (apply Keeps.trans; case k => with_reducible first | apply State.setStream_keeps | apply State.sendCredit_keeps)
    | split | dsimp only

theorem execCreditRefresh_keeps (s : State) : KeepsR s (execCreditRefresh s) := by
  unfold execCreditRefresh
  repeat' first
    | with_reducible exact Keeps.refl _ | with_reducible assumption | with_reducible refine KeepsR.next ?_
    | with_reducible refine Keeps.ite ?_ ?_ | with_reducible refine KeepsR.ite ?_ ?_
    | (apply Keeps.trans; case k => with_reducible first | apply State.advanceTo_keeps | apply State.sendCredit_keeps)
    | with_reducible refine Keeps.foldl ?_ (fun _ _ => ?_)
    | (apply Keeps.trans; case k => with_reducible first | apply State.withFab_keeps)
    | split | dsimp only

theorem State.newEpoch_keeps (s : State) (d epoch : Nat) : Keeps s (State.newEpoch s d epoch) := by
  unfold State.newEpoch
  repeat' first
    | with_reducible exact Keeps.refl _ | with_reducible assumption | with_reducible refine Keeps.ite ?_ ?_
    | with_reducible refine Keeps.ite1 ?_ ?_
    | (apply Keeps.trans
       case k =>
         with_reducible first
           | apply State.wr_keeps | apply State.palFree_keeps | apply State.fabErr_keeps | apply State.discardAt_keeps
           | apply State.setStream_keeps | apply State.idle_keeps | apply State.setQueue_keeps)
    | with_reducible refine Keeps.of_pair (State.palFree_keeps ..) (by assumption) ?_
    | with_reducible refine Keeps.foldl ?_ (fun _ _ => ?_)
    | (apply Keeps.trans; case k => with_reducible first | apply State.withFab_keeps)
    | split | dsimp only

theorem State.addCredit_keeps (s : State) (st units : Nat) : Keeps s (State.addCredit s st units) := by
  unfold State.addCredit
  repeat' first
    | with_reducible exact Keeps.refl _ | with_reducible assumption | with_reducible refine Keeps.ite ?_ ?_
    | (apply Keeps.trans; case k => with_reducible first | apply State.setQueue_keeps | apply State.incSat_keeps)
    | split | dsimp only

theorem State.creditMessage_keeps (s : State) (d m : Nat) : Keeps s (State.creditMessage s d m) := by
  unfold State.creditMessage
  repeat' first
    | with_reducible exact Keeps.refl _ | with_reducible assumption | with_reducible refine Keeps.ite ?_ ?_
    | (apply Keeps.trans; case k => with_reducible first | apply State.fabErr_keeps | apply State.addCredit_keeps)
    | (apply Keeps.trans; case k => with_reducible first | apply State.withFab_keeps)
    | split | dsimp only

theorem execCreditSwatchReceive_keeps (l : Nat) (octets : List Byte) (s : State) :
    KeepsR s (execCreditSwatchReceive l octets s) := by
  unfold execCreditSwatchReceive
  repeat' first
    | with_reducible exact Keeps.refl _ | with_reducible assumption | with_reducible refine KeepsR.next ?_
    | with_reducible refine Keeps.ite ?_ ?_ | with_reducible refine KeepsR.ite ?_ ?_
    | (apply Keeps.trans
       case k =>
         with_reducible first
           | apply State.relay_keeps | apply State.newEpoch_keeps | apply State.creditMessage_keeps | apply State.wr_keeps)
    | with_reducible apply State.onSwatch_keeps | with_reducible refine Keeps.trans ?_ (State.onSwatch_keeps _ _ _ _ _  ?_)
    | with_reducible refine Keeps.foldl ?_ (fun _ _ => ?_)
    | intro _ | split | dsimp only

theorem execLinkControlReceive_keeps (l : Nat) (octets : List Byte) (s : State) :
    KeepsR s (execLinkControlReceive l octets s) := by
  unfold execLinkControlReceive
  repeat' first
    | with_reducible exact Keeps.refl _ | with_reducible assumption | with_reducible refine KeepsR.next ?_
    | with_reducible refine Keeps.ite ?_ ?_ | with_reducible refine KeepsR.ite ?_ ?_
    | (apply Keeps.trans
       case k =>
         with_reducible first
           | apply State.wr_keeps | apply State.wrBit_keeps | apply State.setLane_keeps)
    | with_reducible apply State.onSwatch_keeps | with_reducible refine Keeps.trans ?_ (State.onSwatch_keeps _ _ _ _ _  ?_)
    | with_reducible apply State.withLanes_keeps | with_reducible refine Keeps.trans ?_ (State.withLanes_keeps _ _  ?_)
    | with_reducible refine Keeps.foldl ?_ (fun _ _ => ?_)
    | intro _ | split | dsimp only

theorem execUnreachExpiry_keeps (d : Nat) (s : State) : KeepsR s (execUnreachExpiry d s) := by
  unfold execUnreachExpiry
  repeat' first
    | with_reducible exact Keeps.refl _ | with_reducible assumption | with_reducible refine KeepsR.next ?_
    | with_reducible refine Keeps.ite ?_ ?_ | with_reducible refine KeepsR.ite ?_ ?_
    | (apply Keeps.trans
       case k =>
         with_reducible first
           | apply State.advanceTo_keeps | apply State.flush_keeps | apply State.wr_keeps | apply State.raise_keeps)
    | with_reducible refine Keeps.foldl ?_ (fun _ _ => ?_)
    | (apply Keeps.trans; case k => with_reducible first | apply State.withFab_keeps)
    | split | dsimp only

end Sys2Proof.Machine
end

