-- ==== Sys2Proof/Laws/KeepsPon1.lean ====
section
/-!
SUPPORT. The operations of activation and ranging: none touches the queue, spoils the register space, takes back an output or draws a free value again.
-/
namespace Sys2Proof.Machine

theorem State.setTree_keeps (s : State) (n : Nat) (t : Tree) : Keeps s (State.setTree s n t) := by
  unfold State.setTree
  repeat' first
    | with_reducible exact Keeps.refl _ | with_reducible assumption | with_reducible refine Keeps.ite ?_ ?_
    | (apply Keeps.trans; case k => with_reducible first | apply State.idle_keeps)
    | (apply Keeps.trans; case k => with_reducible first | apply State.withLoom_keeps)
    | split | dsimp only

theorem State.setOnu_keeps (s : State) (r : Nat) (x : Onu) : Keeps s (State.setOnu s r x) := by
  unfold State.setOnu
  repeat' first
    | with_reducible exact Keeps.refl _ | with_reducible assumption | with_reducible refine Keeps.ite ?_ ?_
    | (apply Keeps.trans; case k => with_reducible first | apply State.idle_keeps)
    | (apply Keeps.trans; case k => with_reducible first | apply State.withLoom_keeps)
    | split | dsimp only

theorem State.setAlloc_keeps (s : State) (a : Nat) (x : AllocSt) : Keeps s (State.setAlloc s a x) := by
  unfold State.setAlloc
  repeat' first
    | with_reducible exact Keeps.refl _ | with_reducible assumption | with_reducible refine Keeps.ite ?_ ?_
    | (apply Keeps.trans; case k => with_reducible first | apply State.idle_keeps)
    | (apply Keeps.trans; case k => with_reducible first | apply State.withLoom_keeps)
    | split | dsimp only

theorem State.setKey_keeps (s : State) (k : Nat) (v : Option Nat) : Keeps s (State.setKey s k v) := by
  unfold State.setKey
  repeat' first
    | with_reducible exact Keeps.refl _ | with_reducible assumption | with_reducible refine Keeps.ite ?_ ?_
    | (apply Keeps.trans; case k => with_reducible first | apply State.withLoom_keeps)
    | split | dsimp only

theorem State.loomEvent_keeps (s : State) (n : Nat) : Keeps s (State.loomEvent s n) := by
  unfold State.loomEvent
  repeat' first
    | with_reducible exact Keeps.refl _ | with_reducible assumption | with_reducible refine Keeps.ite ?_ ?_
    | (apply Keeps.trans; case k => with_reducible first | apply State.raise_keeps)
    | split | dsimp only

theorem State.actCnt_keeps (s : State) (n j : Nat) : Keeps s (State.actCnt s n j) := by
  unfold State.actCnt
  repeat' first
    | with_reducible exact Keeps.refl _ | with_reducible assumption | with_reducible refine Keeps.ite ?_ ?_
    | (apply Keeps.trans; case k => with_reducible first | apply State.incWrap_keeps)
    | split | dsimp only

theorem State.grantCnt_keeps (s : State) (n j : Nat) (k : Nat) : Keeps s (State.grantCnt s n j k) := by
  unfold State.grantCnt
  repeat' first
    | with_reducible exact Keeps.refl _ | with_reducible assumption | with_reducible refine Keeps.ite ?_ ?_
    | (apply Keeps.trans; case k => with_reducible first | apply State.incWrap_keeps)
    | split | dsimp only

theorem State.sepCnt_keeps (s : State) (n j : Nat) : Keeps s (State.sepCnt s n j) := by
  unfold State.sepCnt
  repeat' first
    | with_reducible exact Keeps.refl _ | with_reducible assumption | with_reducible refine Keeps.ite ?_ ?_
    | (apply Keeps.trans; case k => with_reducible first | apply State.incWrap_keeps)
    | split | dsimp only

theorem State.loomErr_keeps (s : State) (n : Nat) : Keeps s (State.loomErr s n) := by
  unfold State.loomErr
  repeat' first
    | with_reducible exact Keeps.refl _ | with_reducible assumption | with_reducible refine Keeps.ite ?_ ?_
    | (apply Keeps.trans; case k => with_reducible first | apply State.wr_keeps)
    | split | dsimp only

theorem State.setOnuState_keeps (s : State) (r st : Nat) : Keeps s (State.setOnuState s r st) := by
  unfold State.setOnuState
  repeat' first
    | with_reducible exact Keeps.refl _ | with_reducible assumption | with_reducible refine Keeps.ite ?_ ?_
    | (apply Keeps.trans; case k => with_reducible first | apply State.wr_keeps | apply State.wrBit_keeps)
    | split | dsimp only

theorem State.sayUrgent_keeps (s : State) (n onu : Nat) (kind : PloamKind) (times : Nat) (cmd : Bool) :
    Keeps s (State.sayUrgent s n onu kind times cmd) := by
  unfold State.sayUrgent
  repeat' first
    | with_reducible exact Keeps.refl _ | with_reducible assumption | with_reducible refine Keeps.ite ?_ ?_
    | (apply Keeps.trans; case k => with_reducible first | apply State.setTree_keeps)
    | split | dsimp only

theorem State.sayAssign_keeps (s : State) (n onu : Nat) (kind : PloamKind) (cmd : Bool) :
    Keeps s (State.sayAssign s n onu kind cmd) := by
  unfold State.sayAssign
  repeat' first
    | with_reducible exact Keeps.refl _ | with_reducible assumption | with_reducible refine Keeps.ite ?_ ?_
    | (apply Keeps.trans; case k => with_reducible first | apply State.setTree_keeps)
    | split | dsimp only

theorem State.hostPloam_keeps (s : State) (n onu tag : Nat) (content : List Byte) :
    Keeps s (State.hostPloam s n onu tag content).1 := by
  unfold State.hostPloam
  repeat' first
    | with_reducible exact Keeps.refl _ | with_reducible assumption | with_reducible refine Keeps.ite ?_ ?_
    | with_reducible refine Keeps.ite1 ?_ ?_
    | (apply Keeps.trans; case k => with_reducible first | apply State.actCnt_keeps | apply State.setTree_keeps)
    | split | dsimp only

theorem State.readHist_keeps (s : State) (a : Nat) : Keeps s (State.readHist s a) := by
  unfold State.readHist
  repeat' first
    | with_reducible exact Keeps.refl _ | with_reducible assumption | with_reducible refine Keeps.ite ?_ ?_
    | with_reducible refine Keeps.ite1 ?_ ?_
    | (apply Keeps.trans; case k => with_reducible first | apply State.readDirect_keeps)
    | with_reducible refine Keeps.of_pair (State.readDirect_keeps ..) (by assumption) ?_
    | (apply Keeps.trans; case k => with_reducible first | apply State.withDram_keeps)
    | split | dsimp only

theorem State.writeHist_keeps (s : State) (a : Nat) : Keeps s (State.writeHist s a) := by
  unfold State.writeHist
  repeat' first
    | with_reducible exact Keeps.refl _ | with_reducible assumption | with_reducible refine Keeps.ite ?_ ?_
    | (apply Keeps.trans; case k => with_reducible first | apply State.withDram_keeps)
    | split | dsimp only

theorem State.withdrawn1_keeps (s : State) (n : Nat) : Keeps s (State.withdrawn1 s n) := by
  unfold State.withdrawn1
  repeat' first
    | with_reducible exact Keeps.refl _ | with_reducible assumption | with_reducible refine Keeps.ite ?_ ?_
    | (apply Keeps.trans
       case k =>
         with_reducible first
           | apply State.grantCnt_keeps | apply State.undo_keeps | apply State.sample_keeps)
    | split | dsimp only

theorem State.withdrawMap_keeps (s : State) (n : Nat) (hit : Grant → Bool) (keep : Nat × Nat → Bool) (m : BwMap) :
    Keeps s (s.withdrawMap n hit keep m).1 := by
  unfold State.withdrawMap
  refine Keeps.foldl_pair (fun p g => ?_) (s, m)
  have hs : Keeps p.1 (p.1.withdrawn1 n) := State.withdrawn1_keeps ..
  split
  · exact Keeps.refl _
  · dsimp only
    split
    · exact hs
    · split
      · exact hs
      · exact hs

theorem State.withdraw_keeps (s : State) (n : Nat) (hit : Grant → Bool) (keep : Nat × Nat → Bool) :
    Keeps s (s.withdraw n hit keep) := by
  unfold State.withdraw
  exact (Keeps.foldl (Keeps.foldl_pair (f := fun (acc : State × List BwMap) m =>
    ((acc.1.withdrawMap n hit keep m).1, acc.2 ++ [(acc.1.withdrawMap n hit keep m).2]))
    (fun p m => State.withdrawMap_keeps ..) (s, [])) (fun _ _ => State.withdrawn1_keeps ..)).trans (State.setTree_keeps ..)

theorem State.withdrawOnu_keeps (s : State) (n i : Nat) : Keeps s (State.withdrawOnu s n i) := by
  unfold State.withdrawOnu
  repeat' first
    | with_reducible exact Keeps.refl _ | with_reducible assumption | with_reducible refine Keeps.ite ?_ ?_
    | (apply Keeps.trans; case k => with_reducible first | apply State.withdraw_keeps)
    | split | dsimp only

theorem State.withdrawAlloc_keeps (s : State) (n a : Nat) : Keeps s (State.withdrawAlloc s n a) := by
  unfold State.withdrawAlloc
  repeat' first
    | with_reducible exact Keeps.refl _ | with_reducible assumption | with_reducible refine Keeps.ite ?_ ?_
    | (apply Keeps.trans; case k => with_reducible first | apply State.withdraw_keeps)
    | split | dsimp only

theorem State.endService_keeps (s : State) (n i : Nat) (cmd : Bool) : Keeps s (State.endService s n i cmd) := by
  unfold State.endService
  repeat' first
    | with_reducible exact Keeps.refl _ | with_reducible assumption | with_reducible refine Keeps.ite ?_ ?_
    | (apply Keeps.trans
       case k =>
         with_reducible first
           | apply State.withdrawOnu_keeps | apply State.wr_keeps | apply State.setOnu_keeps | apply State.setTree_keeps
           | apply State.loomEvent_keeps | apply State.sayUrgent_keeps | apply State.deactivate_keeps)
    | split | dsimp only

theorem State.deactivate_keeps (s : State) (n i fail : Nat) (cmd : Bool) : Keeps s (State.deactivate s n i fail cmd) := by
  unfold State.deactivate
  repeat' first
    | with_reducible exact Keeps.refl _ | with_reducible assumption | with_reducible refine Keeps.ite ?_ ?_
    | (apply Keeps.trans
       case k =>
         with_reducible first
           | apply State.setOnuState_keeps | apply State.wr_keeps | apply State.endService_keeps)
    | split | dsimp only

theorem State.clearKeys_keeps (s : State) (r : Nat) : Keeps s (State.clearKeys s r) := by
  unfold State.clearKeys
  repeat' first
    | with_reducible exact Keeps.refl _ | with_reducible assumption | with_reducible refine Keeps.ite ?_ ?_
    | (apply Keeps.trans; case k => with_reducible first | apply State.setKey_keeps)
    | with_reducible refine Keeps.foldl ?_ (fun _ _ => ?_)
    | split | dsimp only

theorem State.freeOnu_keeps (s : State) (r : Nat) : Keeps s (State.freeOnu s r) := by
  unfold State.freeOnu
  repeat' first
    | with_reducible exact Keeps.refl _ | with_reducible assumption | with_reducible refine Keeps.ite ?_ ?_
    | (apply Keeps.trans
       case k =>
         with_reducible first
           | apply State.setOnuState_keeps | apply State.clearKeys_keeps | apply State.setOnu_keeps | apply State.idle_keeps)
    | split | dsimp only

theorem State.rangeFailed_keeps (s : State) (n i fail : Nat) : Keeps s (State.rangeFailed s n i fail) := by
  unfold State.rangeFailed
  repeat' first
    | with_reducible exact Keeps.refl _ | with_reducible assumption | with_reducible refine Keeps.ite ?_ ?_
    | (apply Keeps.trans
       case k =>
         with_reducible first
           | apply State.wr_keeps | apply State.setOnu_keeps | apply State.setOnuState_keeps | apply State.sayAssign_keeps
           | apply State.deactivate_keeps)
    | split | dsimp only

theorem State.onuRefuse_keeps (s : State) (n code : Nat) : Keeps s (State.onuRefuse s n code) := by
  unfold State.onuRefuse
  repeat' first
    | with_reducible exact Keeps.refl _ | with_reducible assumption | with_reducible refine Keeps.ite ?_ ?_
    | (apply Keeps.trans; case k => with_reducible first | apply State.wr_keeps)
    | split | dsimp only

theorem State.onuCmd_keeps (s : State) (n op : Nat) (f : Nat → Nat → Option State) (h : ∀ i st t, f i st = some t → Keeps s t) :
    Keeps s (s.onuCmd n op f) := by
  unfold State.onuCmd
  dsimp only
  split
  · exact Keeps.refl s
  · split
    · exact (h _ _ _ (by assumption)).trans (State.wr_keeps _ _ _ _)
    · exact State.onuRefuse_keeps _ _ _

theorem State.onuCmdStart_keeps (s : State) (n op : Nat) : Keeps s (State.onuCmdStart s n op) := by
  unfold State.onuCmdStart
  repeat' first
    | with_reducible exact Keeps.refl _ | with_reducible assumption | with_reducible refine Keeps.ite ?_ ?_
    | (apply Keeps.trans; case k => with_reducible first | apply State.onuRefuse_keeps | apply State.wr_keeps)
    | split | dsimp only

theorem execOnuDeactivate_keeps (n : Nat) (s : State) : KeepsR s (execOnuDeactivate n s) := by
  refine KeepsR.next (State.onuCmd_keeps _ _ _ _ fun i st t h => ?_)
  split at h
  · cases h
  · cases h
    exact (State.deactivate_keeps ..)

theorem execOnuDisable_keeps (n : Nat) (s : State) : KeepsR s (execOnuDisable n s) := by
  refine KeepsR.next (State.onuCmd_keeps _ _ _ _ fun i st t h => ?_)
  split at h
  · cases h
  · cases h
    exact ((State.setOnuState_keeps ..).trans (State.sayUrgent_keeps ..)).trans (State.endService_keeps ..)

theorem execOnuEnable_keeps (n : Nat) (s : State) : KeepsR s (execOnuEnable n s) := by
  refine KeepsR.next (State.onuCmd_keeps _ _ _ _ fun i st t h => ?_)
  split at h
  · cases h
  · cases h
    exact (State.freeOnu_keeps ..).trans (State.sayUrgent_keeps ..)

theorem execOnuReqReg_keeps (n : Nat) (s : State) : KeepsR s (execOnuReqReg n s) := by
  refine KeepsR.next (State.onuCmd_keeps _ _ _ _ fun i st t h => ?_)
  split at h
  · cases h
  · cases h
    exact (State.sayAssign_keeps ..)

theorem State.onuWrite_keeps (s : State) (r w v : Nat) : Keeps s (State.onuWrite s r w v) := by
  unfold State.onuWrite
  repeat' first
    | with_reducible exact Keeps.refl _ | with_reducible assumption | with_reducible refine Keeps.ite ?_ ?_
    | (apply Keeps.trans; case k => with_reducible first | apply State.loomErr_keeps | apply State.wr_keeps)
    | split | dsimp only

theorem State.showBudget_keeps (s : State) : Keeps s (State.showBudget s) := by
  unfold State.showBudget
  repeat' first
    | with_reducible exact Keeps.refl _ | with_reducible assumption | with_reducible refine Keeps.ite ?_ ?_
    | (apply Keeps.trans; case k => with_reducible first | apply State.wr_keeps)
    | split | dsimp only

theorem State.treeLink_keeps (s : State) (n : Nat) (up : Bool) : Keeps s (State.treeLink s n up) := by
  unfold State.treeLink
  repeat' first
    | with_reducible exact Keeps.refl _ | with_reducible assumption | with_reducible refine Keeps.ite ?_ ?_
    | (apply Keeps.trans
       case k =>
         with_reducible first
           | apply State.wrBit_keeps | apply State.nodeReturned_keeps | apply State.nodeLost_keeps)
    | split | dsimp only

theorem State.mboxDone_keeps (s : State) (code len : Nat) : Keeps s (State.mboxDone s code len) := by
  unfold State.mboxDone
  repeat' first
    | with_reducible exact Keeps.refl _ | with_reducible assumption | with_reducible refine Keeps.ite ?_ ?_
    | (apply Keeps.trans; case k => with_reducible first | apply State.wr_keeps | apply State.setCause_keeps)
    | split | dsimp only

theorem State.ucodeMove_keeps (s : State) (n : Nat) : Keeps s (State.ucodeMove s n) := by
  unfold State.ucodeMove
  repeat' first
    | with_reducible exact Keeps.refl _ | with_reducible assumption | with_reducible refine Keeps.ite ?_ ?_
    | (apply Keeps.trans; case k => with_reducible first | apply State.setCause_keeps | apply State.mboxDone_keeps)
    | (apply Keeps.trans; case k => with_reducible first | apply State.withEasel_keeps)
    | split | dsimp only

theorem State.treeStop_keeps (s : State) (n : Nat) : Keeps s (State.treeStop s n) := by
  unfold State.treeStop
  repeat' first
    | with_reducible exact Keeps.refl _ | with_reducible assumption | with_reducible refine Keeps.ite ?_ ?_
    | (apply Keeps.trans
       case k =>
         with_reducible first
           | apply State.wr_keeps | apply State.ucodeMove_keeps | apply State.treeLink_keeps | apply State.freeOnu_keeps
           | apply State.onuRefuse_keeps | apply State.setTree_keeps | apply State.idle_keeps | apply State.showBudget_keeps
           | apply State.lockOctets_keeps | apply State.emit_keeps)
    | with_reducible refine Keeps.foldl ?_ (fun _ _ => ?_)
    | split | dsimp only

theorem State.treeCfgWrite_keeps (s : State) (n v : Nat) : Keeps s (State.treeCfgWrite s n v) := by
  unfold State.treeCfgWrite
  repeat' first
    | with_reducible exact Keeps.refl _ | with_reducible assumption | with_reducible refine Keeps.ite ?_ ?_
    | (apply Keeps.trans
       case k =>
         with_reducible first
           | apply State.store_keeps | apply State.setReg_keeps | apply State.loomErr_keeps | apply State.treeStop_keeps
           | apply State.wr_keeps | apply State.setTree_keeps | apply State.showBudget_keeps | apply State.lockOctets_keeps
           | apply State.emit_keeps)
    | split | dsimp only

theorem execTreeEnable_keeps (n v : Nat) (s : State) : KeepsR s (execTreeEnable n v s) := by
  unfold execTreeEnable
  repeat' first
    | with_reducible exact Keeps.refl _ | with_reducible assumption | with_reducible refine KeepsR.next ?_
    | with_reducible refine Keeps.ite ?_ ?_ | with_reducible refine KeepsR.ite ?_ ?_
    | (apply Keeps.trans; case k => with_reducible first | apply State.treeCfgWrite_keeps)
    | with_reducible apply State.landed_keeps | with_reducible refine Keeps.trans ?_ (State.landed_keeps _ _ _  ?_)
    | intro _ | split | dsimp only

theorem execTreeDisable_keeps (n v : Nat) (s : State) : KeepsR s (execTreeDisable n v s) := by
  unfold execTreeDisable
  repeat' first
    | with_reducible exact Keeps.refl _ | with_reducible assumption | with_reducible refine KeepsR.next ?_
    | with_reducible refine Keeps.ite ?_ ?_ | with_reducible refine KeepsR.ite ?_ ?_
    | (apply Keeps.trans; case k => with_reducible first | apply State.treeCfgWrite_keeps)
    | with_reducible apply State.landed_keeps | with_reducible refine Keeps.trans ?_ (State.landed_keeps _ _ _  ?_)
    | intro _ | split | dsimp only

theorem State.optCfgWrite_keeps (s : State) (n v : Nat) : Keeps s (State.optCfgWrite s n v) := by
  unfold State.optCfgWrite
  repeat' first
    | with_reducible exact Keeps.refl _ | with_reducible assumption | with_reducible refine Keeps.ite ?_ ?_
    | (apply Keeps.trans; case k => with_reducible first | apply State.wr_keeps | apply State.loomErr_keeps)
    | split | dsimp only

theorem execPbrResetPulse_keeps (n : Nat) (s : State) : KeepsR s (execPbrResetPulse n s) := by
  unfold execPbrResetPulse
  repeat' first
    | with_reducible exact Keeps.refl _ | with_reducible assumption | with_reducible refine KeepsR.next ?_
    | with_reducible refine Keeps.ite ?_ ?_ | with_reducible refine KeepsR.ite ?_ ?_
    | (apply Keeps.trans; case k => with_reducible first | apply State.setTree_keeps | apply State.emit_keeps)
    | split | dsimp only

theorem execSnWindowOpen_keeps (n : Nat) (s : State) : KeepsR s (execSnWindowOpen n s) := by
  unfold execSnWindowOpen
  repeat' first
    | with_reducible exact Keeps.refl _ | with_reducible assumption | with_reducible refine KeepsR.next ?_
    | with_reducible refine Keeps.ite ?_ ?_ | with_reducible refine KeepsR.ite ?_ ?_
    | (apply Keeps.trans
       case k =>
         with_reducible first
           | apply State.advanceTo_keeps | apply State.sayUrgent_keeps | apply State.setTree_keeps | apply State.actCnt_keeps)
    | with_reducible refine Keeps.foldl ?_ (fun _ _ => ?_)
    | split | dsimp only

theorem State.acceptSn_keeps (s : State) (n i sn : Nat) (rtdEst : Int) : Keeps s (State.acceptSn s n i sn rtdEst) := by
  unfold State.acceptSn
  repeat' first
    | with_reducible exact Keeps.refl _ | with_reducible assumption | with_reducible refine Keeps.ite ?_ ?_
    | (apply Keeps.trans
       case k =>
         with_reducible first
           | apply State.wr_keeps | apply State.setOnuState_keeps | apply State.setOnu_keeps | apply State.sayAssign_keeps)
    | split | dsimp only

theorem State.matchSn_keeps (s : State) (n sn : Nat) (rtdEst : Int) (content : List Byte) :
    Keeps s (State.matchSn s n sn rtdEst content) := by
  unfold State.matchSn
  repeat' first
    | with_reducible exact Keeps.refl _ | with_reducible assumption | with_reducible refine Keeps.ite ?_ ?_
    | with_reducible refine Keeps.ite1 ?_ ?_
    | (apply Keeps.trans
       case k =>
         with_reducible first
           | apply State.actCnt_keeps | apply State.deactivate_keeps | apply State.acceptSn_keeps | apply State.setCause_keeps
           | apply State.puntMessage_keeps)
    | with_reducible refine Keeps.of_pair (State.puntMessage_keeps ..) (by assumption) ?_
    | split | dsimp only

theorem State.burstOver_keeps (s : State) (n : Nat) : Keeps s (State.burstOver s n) := by
  unfold State.burstOver
  repeat' first
    | with_reducible exact Keeps.refl _ | with_reducible assumption | with_reducible refine Keeps.ite ?_ ?_
    | (apply Keeps.trans; case k => with_reducible first | apply State.setTree_keeps)
    | split | dsimp only

theorem execSerialNumberOnu_keeps (n : Nat) (decoded : Bool) (sn : Nat) (arrival : Int) (delay : Nat) (micOk : Bool) (content : List Byte) (s : State) :
    KeepsR s (execSerialNumberOnu n decoded sn arrival delay micOk content s) := by
  unfold execSerialNumberOnu
  repeat' first
    | with_reducible exact Keeps.refl _ | with_reducible assumption | with_reducible refine KeepsR.next ?_
    | with_reducible refine Keeps.ite ?_ ?_ | with_reducible refine KeepsR.ite ?_ ?_
    | (apply Keeps.trans
       case k =>
         with_reducible first
           | apply State.burstOver_keeps | apply State.actCnt_keeps | apply State.matchSn_keeps)
    | split | dsimp only

theorem State.sndisClear_keeps (s : State) (k : Nat) : Keeps s (State.sndisClear s k) := by
  unfold State.sndisClear
  repeat' first
    | with_reducible exact Keeps.refl _ | with_reducible assumption | with_reducible refine Keeps.ite ?_ ?_
    | (apply Keeps.trans; case k => with_reducible first | apply State.sayUrgent_keeps | apply State.wr_keeps)
    | with_reducible refine Keeps.foldl ?_ (fun _ _ => ?_)
    | split | dsimp only

theorem execSndisClear_keeps (k : Nat) (s : State) : KeepsR s (execSndisClear k s) := by
  unfold execSndisClear
  repeat' first
    | with_reducible exact Keeps.refl _ | with_reducible assumption | with_reducible refine KeepsR.next ?_
    | with_reducible refine Keeps.ite ?_ ?_ | with_reducible refine KeepsR.ite ?_ ?_
    | (apply Keeps.trans; case k => with_reducible first | apply State.sndisClear_keeps)
    | with_reducible apply State.landed_keeps | with_reducible refine Keeps.trans ?_ (State.landed_keeps _ _ _  ?_)
    | intro _ | split | dsimp only

theorem State.lockPhase_keeps (s : State) (r phase gain : Nat) : Keeps s (State.lockPhase s r phase gain) := by
  unfold State.lockPhase
  repeat' first
    | with_reducible exact Keeps.refl _ | with_reducible assumption | with_reducible refine Keeps.ite ?_ ?_
    | (apply Keeps.trans
       case k =>
         with_reducible first
           | apply State.wr_keeps | apply State.setOnu_keeps | apply State.writeHist_keeps)
    | split | dsimp only

theorem State.registration_keeps (s : State) (n i : Nat) (content : List Byte) : Keeps s (State.registration s n i content) := by
  unfold State.registration
  repeat' first
    | with_reducible exact Keeps.refl _ | with_reducible assumption | with_reducible refine Keeps.ite ?_ ?_
    | with_reducible refine Keeps.ite1 ?_ ?_
    | (apply Keeps.trans; case k => with_reducible first | apply State.puntMessage_keeps)
    | with_reducible refine Keeps.of_pair (State.puntMessage_keeps ..) (by assumption) ?_
    | split | dsimp only

theorem State.ranged_keeps (s : State) (n i : Nat) (arrival : Int) (phase gain : Nat) :
    Keeps s (State.ranged s n i arrival phase gain) := by
  unfold State.ranged
  repeat' first
    | with_reducible exact Keeps.refl _ | with_reducible assumption | with_reducible refine Keeps.ite ?_ ?_
    | (apply Keeps.trans
       case k =>
         with_reducible first
           | apply State.actCnt_keeps | apply State.deactivate_keeps | apply State.wr_keeps | apply State.incWrap_keeps
           | apply State.setOnuState_keeps | apply State.lockPhase_keeps | apply State.setOnu_keeps | apply State.sayAssign_keeps)
    | split | dsimp only

theorem execRangingResponse_keeps (n i : Nat) (arrival : Int) (micOk : Bool) (phase gain : Nat) (content : List Byte) (s : State) :
    KeepsR s (execRangingResponse n i arrival micOk phase gain content s) := by
  unfold execRangingResponse
  repeat' first
    | with_reducible exact Keeps.refl _ | with_reducible assumption | with_reducible refine KeepsR.next ?_
    | with_reducible refine Keeps.ite ?_ ?_ | with_reducible refine KeepsR.ite ?_ ?_
    | (apply Keeps.trans
       case k =>
         with_reducible first
           | apply State.burstOver_keeps | apply State.actCnt_keeps | apply State.wr_keeps | apply State.rangeFailed_keeps
           | apply State.ranged_keeps | apply State.registration_keeps)
    | split | dsimp only

theorem execRangingWindowClose_keeps (n i : Nat) (s : State) : KeepsR s (execRangingWindowClose n i s) := by
  unfold execRangingWindowClose
  repeat' first
    | with_reducible exact Keeps.refl _ | with_reducible assumption | with_reducible refine KeepsR.next ?_
    | with_reducible refine Keeps.ite ?_ ?_ | with_reducible refine KeepsR.ite ?_ ?_
    | (apply Keeps.trans; case k => with_reducible first | apply State.rangeFailed_keeps)
    | split | dsimp only

theorem execTo2Expiry_keeps (n i : Nat) (s : State) : KeepsR s (execTo2Expiry n i s) := by
  unfold execTo2Expiry
  repeat' first
    | with_reducible exact Keeps.refl _ | with_reducible assumption | with_reducible refine KeepsR.next ?_
    | with_reducible refine Keeps.ite ?_ ?_ | with_reducible refine KeepsR.ite ?_ ?_
    | (apply Keeps.trans; case k => with_reducible first | apply State.advanceTo_keeps | apply State.deactivate_keeps)
    | split | dsimp only

theorem execUpstreamPloam_keeps (n i : Nat) (micOk : Bool) (ack : Option Nat) (content : List Byte) (s : State) :
    KeepsR s (execUpstreamPloam n i micOk ack content s) := by
  unfold execUpstreamPloam
  repeat' first
    | with_reducible exact Keeps.refl _ | with_reducible assumption | with_reducible refine KeepsR.next ?_
    | with_reducible refine Keeps.ite ?_ ?_ | with_reducible refine KeepsR.ite ?_ ?_ | with_reducible refine Keeps.ite1 ?_ ?_
    | (apply Keeps.trans; case k => with_reducible first | apply State.actCnt_keeps | apply State.puntMessage_keeps)
    | with_reducible refine Keeps.of_pair (State.puntMessage_keeps ..) (by assumption) ?_
    | split | dsimp only

end Sys2Proof.Machine
end

