-- ==== Sys2Proof/Laws/KeepsPon2.lean ====
section
/-!
SUPPORT. The operations of grants and bursts: none touches the queue, spoils the register space, takes back an output or draws a free value again.
-/
namespace Sys2Proof.Machine

theorem State.setRegWord_keeps (s : State) (r : Reg) (i w v mask : Nat) : Keeps s (State.setRegWord s r i w v mask) := by
  unfold State.setRegWord
  repeat' first
    | with_reducible exact Keeps.refl _ | with_reducible assumption | with_reducible refine Keeps.ite ?_ ?_
    | (apply Keeps.trans; case k => with_reducible first | apply State.setReg_keeps)
    | split | dsimp only

theorem State.allocWrite_keeps (s : State) (a w v : Nat) : Keeps s (State.allocWrite s a w v) := by
  unfold State.allocWrite
  repeat' first
    | with_reducible exact Keeps.refl _ | with_reducible assumption | with_reducible refine Keeps.ite ?_ ?_
    | (apply Keeps.trans
       case k =>
         with_reducible first
           | apply State.setRegWord_keeps | apply State.loomErr_keeps | apply State.withdrawAlloc_keeps)
    | split | dsimp only

theorem execAllocEnable_keeps (a v : Nat) (s : State) : KeepsR s (execAllocEnable a v s) := by
  unfold execAllocEnable
  repeat' first
    | with_reducible exact Keeps.refl _ | with_reducible assumption | with_reducible refine KeepsR.next ?_
    | with_reducible refine Keeps.ite ?_ ?_ | with_reducible refine KeepsR.ite ?_ ?_
    | (apply Keeps.trans; case k => with_reducible first | apply State.allocWrite_keeps)
    | with_reducible apply State.landed_keeps | with_reducible refine Keeps.trans ?_ (State.landed_keeps _ _ _  ?_)
    | intro _ | split | dsimp only

theorem State.gemWrite_keeps (s : State) (g w v : Nat) : Keeps s (State.gemWrite s g w v) := by
  unfold State.gemWrite
  repeat' first
    | with_reducible exact Keeps.refl _ | with_reducible assumption | with_reducible refine Keeps.ite ?_ ?_
    | (apply Keeps.trans; case k => with_reducible first | apply State.setRegWord_keeps | apply State.loomErr_keeps)
    | split | dsimp only

theorem execGemEnable_keeps (g v : Nat) (s : State) : KeepsR s (execGemEnable g v s) := by
  unfold execGemEnable
  repeat' first
    | with_reducible exact Keeps.refl _ | with_reducible assumption | with_reducible refine KeepsR.next ?_
    | with_reducible refine Keeps.ite ?_ ?_ | with_reducible refine KeepsR.ite ?_ ?_
    | (apply Keeps.trans; case k => with_reducible first | apply State.gemWrite_keeps)
    | with_reducible apply State.landed_keeps | with_reducible refine Keeps.trans ?_ (State.landed_keeps _ _ _  ?_)
    | intro _ | split | dsimp only

theorem State.profileWrite_keeps (s : State) (k w v : Nat) : Keeps s (State.profileWrite s k w v) := by
  unfold State.profileWrite
  repeat' first
    | with_reducible exact Keeps.refl _ | with_reducible assumption | with_reducible refine Keeps.ite ?_ ?_
    | (apply Keeps.trans
       case k =>
         with_reducible first
           | apply State.loomErr_keeps | apply State.wr_keeps | apply State.setRegWord_keeps | apply State.setTree_keeps)
    | split | dsimp only

theorem State.cycleTakes_keeps (s : State) (n : Nat) : Keeps s (State.cycleTakes s n) := by
  unfold State.cycleTakes
  repeat' first
    | with_reducible exact Keeps.refl _ | with_reducible assumption | with_reducible refine Keeps.ite ?_ ?_
    | (apply Keeps.trans; case k => with_reducible first | apply State.setAlloc_keeps | apply State.setTree_keeps)
    | with_reducible refine Keeps.foldl ?_ (fun _ _ => ?_)
    | split | dsimp only

theorem State.enterCycle_keeps (s : State) (n c a total : Nat) : Keeps s (State.enterCycle s n c a total) := by
  unfold State.enterCycle
  repeat' first
    | with_reducible exact Keeps.refl _ | with_reducible assumption | with_reducible refine Keeps.ite ?_ ?_
    | (apply Keeps.trans; case k => with_reducible first | apply State.grantCnt_keeps | apply State.setAlloc_keeps)
    | split | dsimp only

theorem execDbaCycle_keeps (n : Nat) (s : State) : KeepsR s (execDbaCycle n s) := by
  unfold execDbaCycle
  repeat' first
    | with_reducible exact Keeps.refl _ | with_reducible assumption | with_reducible refine KeepsR.next ?_
    | with_reducible refine Keeps.ite ?_ ?_ | with_reducible refine KeepsR.ite ?_ ?_
    | (apply Keeps.trans
       case k =>
         with_reducible first
           | apply State.cycleTakes_keeps | apply State.enterCycle_keeps | apply State.grantCnt_keeps | apply State.setTree_keeps)
    | with_reducible refine Keeps.foldl ?_ (fun _ _ => ?_)
    | split | dsimp only

theorem execBwmapCompute_keeps (n : Nat) (s : State) : KeepsR s (execBwmapCompute n s) := by
  unfold execBwmapCompute
  repeat' first
    | with_reducible exact Keeps.refl _ | with_reducible assumption | with_reducible refine KeepsR.next ?_
    | with_reducible refine Keeps.ite ?_ ?_ | with_reducible refine KeepsR.ite ?_ ?_
    | (apply Keeps.trans; case k => with_reducible first | apply State.setTree_keeps)
    | with_reducible refine Keeps.foldl ?_ (fun _ _ => ?_)
    | split | dsimp only

theorem State.sendPloam_keeps (s : State) (n : Nat) (w : Waiting) : Keeps s (State.sendPloam s n w).1 := by
  unfold State.sendPloam
  repeat' first
    | with_reducible exact Keeps.refl _ | with_reducible assumption | with_reducible refine Keeps.ite ?_ ?_
    | with_reducible refine Keeps.ite1 ?_ ?_
    | (apply Keeps.trans; case k => with_reducible first | apply State.setTree_keeps | apply State.setOnu_keeps)
    | split | dsimp only

theorem State.ploamSent_keeps (s : State) (n f : Nat) (w : Waiting) : Keeps s (State.ploamSent s n f w) := by
  unfold State.ploamSent
  repeat' first
    | with_reducible exact Keeps.refl _ | with_reducible assumption | with_reducible refine Keeps.ite ?_ ?_
    | (apply Keeps.trans
       case k =>
         with_reducible first
           | apply State.wr_keeps | apply State.deactivate_keeps | apply State.freeOnu_keeps | apply State.setOnuState_keeps
           | apply State.setTree_keeps | apply State.actCnt_keeps)
    | split | dsimp only

theorem State.keySwitches_keeps (s : State) (n f : Nat) : Keeps s (State.keySwitches s n f) := by
  unfold State.keySwitches
  repeat' first
    | with_reducible exact Keeps.refl _ | with_reducible assumption | with_reducible refine Keeps.ite ?_ ?_
    | (apply Keeps.trans; case k => with_reducible first | apply State.setTree_keeps | apply State.setOnu_keeps)
    | with_reducible refine Keeps.foldl ?_ (fun _ _ => ?_)
    | split | dsimp only

theorem State.commitMarks_keeps (s : State) (n f : Nat) (m : BwMap) : Keeps s (State.commitMarks s n f m) := by
  unfold State.commitMarks
  repeat' first
    | with_reducible exact Keeps.refl _ | with_reducible assumption | with_reducible refine Keeps.ite ?_ ?_
    | (apply Keeps.trans
       case k =>
         with_reducible first
           | apply State.setAlloc_keeps | apply State.setOnu_keeps | apply State.grantCnt_keeps)
    | with_reducible refine Keeps.foldl ?_ (fun _ _ => ?_)
    | split | dsimp only

theorem State.commitMap_keeps (s : State) (n : Nat) (gs : List Grant) : Keeps s (State.commitMap s n gs) := by
  unfold State.commitMap
  repeat' first
    | with_reducible exact Keeps.refl _ | with_reducible assumption | with_reducible refine Keeps.ite ?_ ?_
    | (apply Keeps.trans; case k => with_reducible first | apply State.setAlloc_keeps | apply State.grantCnt_keeps)
    | with_reducible refine Keeps.foldl ?_ (fun _ _ => ?_)
    | split | dsimp only

theorem State.sendAllPloam_keeps (s : State) (n : Nat) (ws : List Waiting) : Keeps s (s.sendAllPloam n ws).1 :=
  Keeps.foldl_pair (f := fun (acc : State × List Ploam) w => ((acc.1.sendPloam n w).1, acc.2 ++ [(acc.1.sendPloam n w).2]))
    (fun p w => State.sendPloam_keeps p.1 n w) (s, [])

theorem State.profileSent_keeps (s : State) (n f p : Nat) : Keeps s (State.profileSent s n f p) := by
  unfold State.profileSent
  repeat' first
    | with_reducible exact Keeps.refl _ | with_reducible assumption | with_reducible refine Keeps.ite ?_ ?_
    | (apply Keeps.trans; case k => with_reducible first | apply State.setTree_keeps)
    | split | dsimp only

theorem State.frameTurn_keeps (s : State) (n f at_ : Nat) : Keeps s (State.frameTurn s n f at_) := by
  unfold State.frameTurn
  repeat' first
    | with_reducible exact Keeps.refl _ | with_reducible assumption | with_reducible refine Keeps.ite ?_ ?_
    | (apply Keeps.trans
       case k =>
         with_reducible first
           | apply State.advanceTo_keeps | apply State.wr_keeps | apply State.setTree_keeps | apply State.treeLink_keeps
           | apply State.keySwitches_keeps)
    | split | dsimp only

theorem State.frameCommit_keeps (s : State) (n f at_ : Nat) : Keeps s (State.frameCommit s n f at_) := by
  unfold State.frameCommit
  repeat' first
    | with_reducible exact Keeps.refl _ | with_reducible assumption | with_reducible refine Keeps.ite ?_ ?_
    | (apply Keeps.trans
       case k =>
         with_reducible first
           | apply State.setTree_keeps | apply State.grantCnt_keeps | apply State.commitMap_keeps | apply State.commitMarks_keeps
           | apply State.setOnu_keeps)
    | with_reducible refine Keeps.foldl ?_ (fun _ _ => ?_)
    | split | dsimp only

theorem State.frameSend_keeps (s : State) (n f at_ : Nat) (map : List Grant) : Keeps s (s.frameSend n f at_ map) := by
  unfold State.frameSend
  refine Keeps.trans ?_ (State.emit_keeps _ _)
  have h2 : ∀ (ws hw : List Waiting) (x : Tree), Keeps s (hw.foldl (fun s w => s.ploamSent n f w) ((s.setTree n x).sendAllPloam n ws).1) :=
    fun ws hw x => Keeps.foldl ((State.setTree_keeps _ _ _).trans (State.sendAllPloam_keeps _ _ _)) (fun _ _ => State.ploamSent_keeps _ _ _ _)
  split
  · exact Keeps.ite ((h2 _ _ _).trans (State.profileSent_keeps _ _ _ _)) (h2 _ _ _)
  · exact h2 _ _ _

theorem execDownstreamFrame_keeps (n : Nat) (s : State) : KeepsR s (execDownstreamFrame n s) := by
  unfold execDownstreamFrame
  repeat' first
    | with_reducible exact Keeps.refl _ | with_reducible assumption | with_reducible refine KeepsR.next ?_
    | with_reducible refine Keeps.ite ?_ ?_ | with_reducible refine KeepsR.ite ?_ ?_
    | (apply Keeps.trans
       case k =>
         with_reducible first
           | apply State.ucodeMove_keeps | apply State.frameTurn_keeps | apply State.frameCommit_keeps
           | apply State.frameSend_keeps)
    | split | dsimp only

theorem State.losBurst_keeps (s : State) (n f : Nat) (sd : Bool) : Keeps s (State.losBurst s n f sd) := by
  unfold State.losBurst
  repeat' first
    | with_reducible exact Keeps.refl _ | with_reducible assumption | with_reducible refine Keeps.ite ?_ ?_
    | (apply Keeps.trans; case k => with_reducible first | apply State.setTree_keeps | apply State.setCause_keeps)
    | split | dsimp only

theorem State.missBurst_keeps (s : State) (n : Nat) (g : Grant) : Keeps s (State.missBurst s n g) := by
  unfold State.missBurst
  repeat' first
    | with_reducible exact Keeps.refl _ | with_reducible assumption | with_reducible refine Keeps.ite ?_ ?_
    | (apply Keeps.trans
       case k =>
         with_reducible first
           | apply State.grantCnt_keeps | apply State.incSat_keeps | apply State.wr_keeps | apply State.setOnuState_keeps
           | apply State.setOnu_keeps | apply State.loomEvent_keeps)
    | split | dsimp only

theorem State.dropPartial_keeps (s : State) (n a : Nat) : Keeps s (State.dropPartial s n a) := by
  unfold State.dropPartial
  repeat' first
    | with_reducible exact Keeps.refl _ | with_reducible assumption | with_reducible refine Keeps.ite ?_ ?_
    | (apply Keeps.trans
       case k =>
         with_reducible first
           | apply State.setAlloc_keeps | apply State.grantCnt_keeps | apply State.discardAt_keeps)
    | split | dsimp only

theorem State.endBurst_keeps (s : State) (n : Nat) : Keeps s (State.endBurst s n) := by
  unfold State.endBurst
  repeat' first
    | with_reducible exact Keeps.refl _ | with_reducible assumption | with_reducible refine Keeps.ite ?_ ?_
    | (apply Keeps.trans; case k => with_reducible first | apply State.dropPartial_keeps)
    | with_reducible refine Keeps.foldl ?_ (fun _ _ => ?_)
    | split | dsimp only

theorem State.nextBurst_keeps {s t : State} {n : Nat} {g : Grant} (h : s.nextBurst n = some (t, g)) : Keeps s t := by
  unfold State.nextBurst at h
  dsimp only at h
  split at h
  · cases h
  · cases h
    exact Keeps.foldl ((State.endBurst_keeps ..).trans (State.setTree_keeps ..)) (fun _ _ => State.setAlloc_keeps _ _ _)

theorem execBurstMissed_keeps (n : Nat) (sd : Bool) (s : State) : KeepsR s (execBurstMissed n sd s) := by
  unfold execBurstMissed
  repeat' first
    | with_reducible exact Keeps.refl _ | with_reducible assumption | with_reducible refine KeepsR.next ?_
    | with_reducible refine Keeps.ite ?_ ?_ | with_reducible refine KeepsR.ite ?_ ?_
    | (apply Keeps.trans; case k => with_reducible first | apply State.losBurst_keeps | apply State.missBurst_keeps)
    | with_reducible refine Keeps.trans ?_ (State.nextBurst_keeps (by assumption))
    | split | dsimp only

theorem State.takeReports_keeps (s : State) (g : Grant) (es : List (Nat × Nat)) (rs : List (Nat × Option Nat)) :
    Keeps s (s.takeReports g es rs) := by
  induction es generalizing s rs with
  | nil => unfold State.takeReports; exact Keeps.refl s
  | cons e es ih =>
    cases rs with
    | nil => unfold State.takeReports; exact Keeps.refl s
    | cons r rs => unfold State.takeReports; exact ((State.writeHist_keeps ..).trans (State.setAlloc_keeps ..)).trans (ih _ _)

theorem State.drift_keeps (s : State) (n i : Nat) (off : Int) : Keeps s (State.drift s n i off) := by
  unfold State.drift
  repeat' first
    | with_reducible exact Keeps.refl _ | with_reducible assumption | with_reducible refine Keeps.ite ?_ ?_
    | (apply Keeps.trans
       case k =>
         with_reducible first
           | apply State.setOnu_keeps | apply State.deactivate_keeps | apply State.wr_keeps | apply State.grantCnt_keeps
           | apply State.sayAssign_keeps)
    | split | dsimp only

theorem execBurstReceive_keeps (n : Nat) (off : Int) (hdr bad phase gain : Nat) (reports : List (Nat × Option Nat)) (s : State) :
    KeepsR s (execBurstReceive n off hdr bad phase gain reports s) := by
  unfold execBurstReceive
  repeat' first
    | with_reducible exact Keeps.refl _ | with_reducible assumption | with_reducible refine KeepsR.next ?_
    | with_reducible refine Keeps.ite ?_ ?_ | with_reducible refine KeepsR.ite ?_ ?_
    | (apply Keeps.trans
       case k =>
         with_reducible first
           | apply State.readHist_keeps | apply State.grantCnt_keeps | apply State.discardAt_keeps | apply State.losBurst_keeps
           | apply State.missBurst_keeps | apply State.wr_keeps | apply State.lockPhase_keeps | apply State.setOnuState_keeps
           | apply State.setOnu_keeps | apply State.setTree_keeps | apply State.takeReports_keeps | apply State.drift_keeps)
    | with_reducible refine Keeps.trans ?_ (State.nextBurst_keeps (by assumption))
    | split | dsimp only

theorem execReassemblyTimeout_keeps (a : Nat) (s : State) : KeepsR s (execReassemblyTimeout a s) := by
  unfold execReassemblyTimeout
  repeat' first
    | with_reducible exact Keeps.refl _ | with_reducible assumption | with_reducible refine KeepsR.next ?_
    | with_reducible refine Keeps.ite ?_ ?_ | with_reducible refine KeepsR.ite ?_ ?_
    | (apply Keeps.trans; case k => with_reducible first | apply State.advanceTo_keeps | apply State.dropPartial_keeps)
    | split | dsimp only

theorem State.upstreamFrame_keeps (s : State) (n a g port : Nat) (stamp : BitVec 80) (anchor : Bool) (data : List Byte) :
    Keeps s (State.upstreamFrame s n a g port stamp anchor data) := by
  unfold State.upstreamFrame
  repeat' first
    | with_reducible exact Keeps.refl _ | with_reducible assumption | with_reducible refine Keeps.ite ?_ ?_
    | (apply Keeps.trans
       case k =>
         with_reducible first
           | apply State.setAlloc_keeps | apply State.sepCnt_keeps | apply State.discardAt_keeps | apply State.fifoDrop_keeps
           | apply State.enterFifo_keeps)
    | split | dsimp only

theorem State.omccFrame_keeps (s : State) (n i : Nat) (stamp : BitVec 80) (data : List Byte) :
    Keeps s (State.omccFrame s n i stamp data) := by
  unfold State.omccFrame
  repeat' first
    | with_reducible exact Keeps.refl _ | with_reducible assumption | with_reducible refine Keeps.ite ?_ ?_
    | with_reducible refine Keeps.ite1 ?_ ?_
    | (apply Keeps.trans
       case k =>
         with_reducible first
           | apply State.puntMessage_keeps | apply State.sepCnt_keeps | apply State.discardAt_keeps)
    | with_reducible refine Keeps.of_pair (State.puntMessage_keeps ..) (by assumption) ?_
    | split | dsimp only

theorem execUpstreamXgemFrame_keeps (n j port idx : Nat) (last bad : Bool) (octets : List Byte) (s : State) :
    KeepsR s (execUpstreamXgemFrame n j port idx last bad octets s) := by
  unfold execUpstreamXgemFrame
  repeat' first
    | with_reducible exact Keeps.refl _ | with_reducible assumption | with_reducible refine KeepsR.next ?_
    | with_reducible refine Keeps.ite ?_ ?_ | with_reducible refine KeepsR.ite ?_ ?_
    | (apply Keeps.trans
       case k =>
         with_reducible first
           | apply State.dropPartial_keeps | apply State.discardAt_keeps | apply State.sepCnt_keeps | apply State.setAlloc_keeps
           | apply State.grantCnt_keeps | apply State.omccFrame_keeps | apply State.upstreamFrame_keeps)
    | split | dsimp only

theorem execDownstreamGemExit_keeps (k : Nat) (s : State) : KeepsR s (execDownstreamGemExit k s) := by
  unfold execDownstreamGemExit
  repeat' first
    | with_reducible exact Keeps.refl _ | with_reducible assumption | with_reducible refine KeepsR.next ?_
    | with_reducible refine Keeps.ite ?_ ?_ | with_reducible refine KeepsR.ite ?_ ?_
    | (apply Keeps.trans
       case k =>
         with_reducible first
           | apply State.trueUp_keeps | apply State.sepCnt_keeps | apply State.discardPkt_keeps | apply State.setTree_keeps
           | apply State.txOctets_keeps | apply State.trace_keeps | apply State.removePkt_keeps)
    | split | dsimp only

theorem State.hostOmcc_keeps (s : State) (n i : Nat) (data : List Byte) : Keeps s (State.hostOmcc s n i data).1 := by
  unfold State.hostOmcc
  repeat' first
    | with_reducible exact Keeps.refl _ | with_reducible assumption | with_reducible refine Keeps.ite ?_ ?_
    | with_reducible refine Keeps.ite1 ?_ ?_
    | (apply Keeps.trans; case k => with_reducible first | apply State.actCnt_keeps | apply State.setTree_keeps)
    | split | dsimp only

theorem State.keyDone_keeps (s : State) (code : Nat) : Keeps s (State.keyDone s code) := by
  unfold State.keyDone
  repeat' first
    | with_reducible exact Keeps.refl _ | with_reducible assumption | with_reducible refine Keeps.ite ?_ ?_
    | (apply Keeps.trans; case k => with_reducible first | apply State.wr_keeps)
    | split | dsimp only

theorem State.keyStart_keeps (s : State) : Keeps s (State.keyStart s) := by
  unfold State.keyStart
  repeat' first
    | with_reducible exact Keeps.refl _ | with_reducible assumption | with_reducible refine Keeps.ite ?_ ?_
    | (apply Keeps.trans; case k => with_reducible first | apply State.keyDone_keeps | apply State.wr_keeps)
    | split | dsimp only

theorem execKeyWrite_keeps (s : State) : KeepsR s (execKeyWrite s) := by
  unfold execKeyWrite
  repeat' first
    | with_reducible exact Keeps.refl _ | with_reducible assumption | with_reducible refine KeepsR.next ?_
    | with_reducible refine Keeps.ite ?_ ?_ | with_reducible refine KeepsR.ite ?_ ?_
    | (apply Keeps.trans; case k => with_reducible first | apply State.keyDone_keeps | apply State.setKey_keeps)
    | split | dsimp only

theorem execKeyClear_keeps (s : State) : KeepsR s (execKeyClear s) := by
  unfold execKeyClear
  repeat' first
    | with_reducible exact Keeps.refl _ | with_reducible assumption | with_reducible refine KeepsR.next ?_
    | with_reducible refine Keeps.ite ?_ ?_ | with_reducible refine KeepsR.ite ?_ ?_
    | (apply Keeps.trans; case k => with_reducible first | apply State.setKey_keeps | apply State.keyDone_keeps)
    | split | dsimp only

theorem execKeySwitch_keeps (s : State) : KeepsR s (execKeySwitch s) := by
  unfold execKeySwitch
  repeat' first
    | with_reducible exact Keeps.refl _ | with_reducible assumption | with_reducible refine KeepsR.next ?_
    | with_reducible refine Keeps.ite ?_ ?_ | with_reducible refine KeepsR.ite ?_ ?_
    | (apply Keeps.trans
       case k =>
         with_reducible first
           | apply State.keyDone_keeps | apply State.setTree_keeps | apply State.setOnu_keeps)
    | split | dsimp only

theorem State.rogueFollows_keeps (s : State) (n : Nat) : Keeps s (State.rogueFollows s n) := by
  unfold State.rogueFollows
  repeat' first
    | with_reducible exact Keeps.refl _ | with_reducible assumption | with_reducible refine Keeps.ite ?_ ?_
    | (apply Keeps.trans; case k => with_reducible first | apply State.wr_keeps | apply State.setCause_keeps)
    | split | dsimp only

theorem execRogueFrameEval_keeps (n : Nat) (seen : List (Nat × Nat)) (sdNow : Bool) (s : State) :
    KeepsR s (execRogueFrameEval n seen sdNow s) := by
  unfold execRogueFrameEval
  repeat' first
    | with_reducible exact Keeps.refl _ | with_reducible assumption | with_reducible refine KeepsR.next ?_
    | with_reducible refine Keeps.ite ?_ ?_ | with_reducible refine KeepsR.ite ?_ ?_
    | (apply Keeps.trans
       case k =>
         with_reducible first
           | apply State.setTree_keeps | apply State.wrBit_keeps | apply State.incSat_keeps | apply State.setCause_keeps
           | apply State.wr_keeps | apply State.rogueFollows_keeps)
    | with_reducible refine Keeps.foldl ?_ (fun _ _ => ?_)
    | split | dsimp only

theorem State.probeGo_keeps (s : State) (n : Nat) : Keeps s (State.probeGo s n) := by
  unfold State.probeGo
  repeat' first
    | with_reducible exact Keeps.refl _ | with_reducible assumption | with_reducible refine Keeps.ite ?_ ?_
    | (apply Keeps.trans
       case k =>
         with_reducible first
           | apply State.wr_keeps | apply State.withdrawOnu_keeps | apply State.setTree_keeps)
    | split | dsimp only

theorem execProbeGo_keeps (n onu frames : Nat) (s : State) : KeepsR s (execProbeGo n onu frames s) := by
  unfold execProbeGo
  repeat' first
    | with_reducible exact Keeps.refl _ | with_reducible assumption | with_reducible refine KeepsR.next ?_
    | with_reducible refine Keeps.ite ?_ ?_ | with_reducible refine KeepsR.ite ?_ ?_
    | (apply Keeps.trans; case k => with_reducible first | apply State.wr_keeps | apply State.probeGo_keeps)
    | with_reducible apply State.landed_keeps | with_reducible refine Keeps.trans ?_ (State.landed_keeps _ _ _  ?_)
    | intro _ | split | dsimp only

theorem execProbeEnd_keeps (n : Nat) (s : State) : KeepsR s (execProbeEnd n s) := by
  unfold execProbeEnd
  repeat' first
    | with_reducible exact Keeps.refl _ | with_reducible assumption | with_reducible refine KeepsR.next ?_
    | with_reducible refine Keeps.ite ?_ ?_ | with_reducible refine KeepsR.ite ?_ ?_
    | (apply Keeps.trans; case k => with_reducible first | apply State.wr_keeps | apply State.loomEvent_keeps)
    | split | dsimp only

end Sys2Proof.Machine
end

