-- ==== Sys2Proof/Laws/KeepsTimeCmds.lean ====
section
/-!
SUPPORT. The operations of the time commands: none touches the queue, spoils the register space, takes back an output or draws a free value again.
-/
namespace Sys2Proof.Machine

theorem execSysrefLoss_keeps (s : State) : KeepsR s (execSysrefLoss s) := by
  unfold execSysrefLoss
  repeat' first
    | with_reducible exact Keeps.refl _ | with_reducible assumption | with_reducible refine KeepsR.next ?_
    | with_reducible refine Keeps.ite ?_ ?_ | with_reducible refine KeepsR.ite ?_ ?_
    | (apply Keeps.trans; case k => with_reducible first | apply State.setCause_keeps)
    | split | dsimp only

theorem execSysrefReturn_keeps (s : State) : KeepsR s (execSysrefReturn s) := by
  unfold execSysrefReturn
  repeat' first
    | with_reducible exact Keeps.refl _ | with_reducible assumption | with_reducible refine KeepsR.next ?_
    | with_reducible refine Keeps.ite ?_ ?_ | with_reducible refine KeepsR.ite ?_ ?_
    | (apply Keeps.trans; case k => with_reducible first | apply State.wr_keeps)
    | split | dsimp only

theorem State.ppsSync_keeps (s : State) : Keeps s (State.ppsSync s) := by
  unfold State.ppsSync
  repeat' first
    | with_reducible exact Keeps.refl _ | with_reducible assumption | with_reducible refine Keeps.ite ?_ ?_
    | (apply Keeps.trans; case k => with_reducible first | apply State.withTime_keeps)
    | split | dsimp only

theorem State.timeWarm_keeps (s : State) : Keeps s (State.timeWarm s) := by
  unfold State.timeWarm
  repeat' first
    | with_reducible exact Keeps.refl _ | with_reducible assumption | with_reducible refine Keeps.ite ?_ ?_
    | (apply Keeps.trans; case k => with_reducible first | apply State.wrBit_keeps | apply State.ppsSync_keeps)
    | (apply Keeps.trans; case k => with_reducible first | apply State.withTime_keeps)
    | split | dsimp only

theorem State.flipAnchor_keeps (s : State) : Keeps s (State.flipAnchor s) := by
  unfold State.flipAnchor
  repeat' first
    | with_reducible exact Keeps.refl _ | with_reducible assumption | with_reducible refine Keeps.ite ?_ ?_
    | (apply Keeps.trans; case k => with_reducible first | apply State.wr_keeps | apply State.ppsSync_keeps)
    | (apply Keeps.trans; case k => with_reducible first | apply State.withTime_keeps)
    | split | dsimp only

theorem State.anchorArm_keeps (s : State) : Keeps s (State.anchorArm s) := by
  unfold State.anchorArm
  repeat' first
    | with_reducible exact Keeps.refl _ | with_reducible assumption | with_reducible refine Keeps.ite ?_ ?_
    | (apply Keeps.trans; case k => with_reducible first | apply State.flipAnchor_keeps | apply State.wr_keeps)
    | split | dsimp only

theorem State.anchorCancel_keeps (s : State) : Keeps s (State.anchorCancel s) := by
  unfold State.anchorCancel
  repeat' first
    | with_reducible exact Keeps.refl _ | with_reducible assumption | with_reducible refine Keeps.ite ?_ ?_
    | (apply Keeps.trans; case k => with_reducible first | apply State.wr_keeps)
    | split | dsimp only

theorem execAnchorArm_keeps (s : State) : KeepsR s (execAnchorArm s) := by
  unfold execAnchorArm
  repeat' first
    | with_reducible exact Keeps.refl _ | with_reducible assumption | with_reducible refine KeepsR.next ?_
    | with_reducible refine Keeps.ite ?_ ?_ | with_reducible refine KeepsR.ite ?_ ?_
    | (apply Keeps.trans; case k => with_reducible first | apply State.anchorArm_keeps)
    | with_reducible apply State.landed_keeps | with_reducible refine Keeps.trans ?_ (State.landed_keeps _ _ _  ?_)
    | intro _ | split | dsimp only

theorem execAnchorCancel_keeps (s : State) : KeepsR s (execAnchorCancel s) := by
  unfold execAnchorCancel
  repeat' first
    | with_reducible exact Keeps.refl _ | with_reducible assumption | with_reducible refine KeepsR.next ?_
    | with_reducible refine Keeps.ite ?_ ?_ | with_reducible refine KeepsR.ite ?_ ?_
    | (apply Keeps.trans; case k => with_reducible first | apply State.anchorCancel_keeps)
    | with_reducible apply State.landed_keeps | with_reducible refine Keeps.trans ?_ (State.landed_keeps _ _ _  ?_)
    | intro _ | split | dsimp only

theorem execAnchorFlip_keeps (s : State) : KeepsR s (execAnchorFlip s) := by
  unfold execAnchorFlip
  repeat' first
    | with_reducible exact Keeps.refl _ | with_reducible assumption | with_reducible refine KeepsR.next ?_
    | with_reducible refine Keeps.ite ?_ ?_ | with_reducible refine KeepsR.ite ?_ ?_
    | (apply Keeps.trans; case k => with_reducible first | apply State.advanceTo_keeps | apply State.flipAnchor_keeps)
    | split | dsimp only

theorem State.latchSecond_keeps (s : State) : Keeps s (State.latchSecond s) := by
  unfold State.latchSecond
  repeat' first
    | with_reducible exact Keeps.refl _ | with_reducible assumption | with_reducible refine Keeps.ite ?_ ?_
    | (apply Keeps.trans
       case k =>
         with_reducible first
           | apply State.countFault_keeps | apply State.setReg_keeps | apply State.incWrap_keeps)
    | with_reducible refine Keeps.foldl ?_ (fun _ _ => ?_)
    | split | dsimp only

theorem execSecondLatch_keeps (s : State) : KeepsR s (execSecondLatch s) := by
  unfold execSecondLatch
  repeat' first
    | with_reducible exact Keeps.refl _ | with_reducible assumption | with_reducible refine KeepsR.next ?_
    | with_reducible refine Keeps.ite ?_ ?_ | with_reducible refine KeepsR.ite ?_ ?_
    | (apply Keeps.trans; case k => with_reducible first | apply State.advanceTo_keeps | apply State.latchSecond_keeps)
    | (apply Keeps.trans; case k => with_reducible first | apply State.withTime_keeps)
    | split | dsimp only

theorem State.txtsPop_keeps (s : State) : Keeps s (State.txtsPop s) := by
  unfold State.txtsPop
  repeat' first
    | with_reducible exact Keeps.refl _ | with_reducible assumption | with_reducible refine Keeps.ite ?_ ?_
    | (apply Keeps.trans; case k => with_reducible first | apply State.showTxts_keeps)
    | (apply Keeps.trans; case k => with_reducible first | apply State.withTime_keeps)
    | split | dsimp only

theorem execTxtsPop_keeps (s : State) : KeepsR s (execTxtsPop s) := by
  unfold execTxtsPop
  repeat' first
    | with_reducible exact Keeps.refl _ | with_reducible assumption | with_reducible refine KeepsR.next ?_
    | with_reducible refine Keeps.ite ?_ ?_ | with_reducible refine KeepsR.ite ?_ ?_
    | (apply Keeps.trans; case k => with_reducible first | apply State.txtsPop_keeps)
    | with_reducible apply State.landed_keeps | with_reducible refine Keeps.trans ?_ (State.landed_keeps _ _ _  ?_)
    | intro _ | split | dsimp only

theorem execPpsOutRise_keeps (s : State) : KeepsR s (execPpsOutRise s) := by
  unfold execPpsOutRise
  repeat' first
    | with_reducible exact Keeps.refl _ | with_reducible assumption | with_reducible refine KeepsR.next ?_
    | with_reducible refine Keeps.ite ?_ ?_ | with_reducible refine KeepsR.ite ?_ ?_
    | (apply Keeps.trans; case k => with_reducible first | apply State.advanceTo_keeps | apply State.emit_keeps)
    | (apply Keeps.trans; case k => with_reducible first | apply State.withTime_keeps)
    | split | dsimp only

theorem execPpsOutFall_keeps (s : State) : KeepsR s (execPpsOutFall s) := by
  unfold execPpsOutFall
  repeat' first
    | with_reducible exact Keeps.refl _ | with_reducible assumption | with_reducible refine KeepsR.next ?_
    | with_reducible refine Keeps.ite ?_ ?_ | with_reducible refine KeepsR.ite ?_ ?_
    | (apply Keeps.trans; case k => with_reducible first | apply State.advanceTo_keeps | apply State.emit_keeps)
    | (apply Keeps.trans; case k => with_reducible first | apply State.withTime_keeps)
    | split | dsimp only

theorem State.ppsCapture_keeps (s : State) (t : BitVec 80) : Keeps s (State.ppsCapture s t) := by
  unfold State.ppsCapture
  repeat' first
    | with_reducible exact Keeps.refl _ | with_reducible assumption | with_reducible refine Keeps.ite ?_ ?_
    | (apply Keeps.trans; case k => with_reducible first | apply State.wr_keeps | apply State.setCause_keeps)
    | (apply Keeps.trans; case k => with_reducible first | apply State.withTime_keeps)
    | split | dsimp only

theorem execPpsInEdge_keeps (sub : Nat) (s : State) : KeepsR s (execPpsInEdge sub s) := by
  unfold execPpsInEdge
  repeat' first
    | with_reducible exact Keeps.refl _ | with_reducible assumption | with_reducible refine KeepsR.next ?_
    | with_reducible refine Keeps.ite ?_ ?_ | with_reducible refine KeepsR.ite ?_ ?_
    | (apply Keeps.trans; case k => with_reducible first | apply State.incWrap_keeps | apply State.ppsCapture_keeps)
    | split | dsimp only

end Sys2Proof.Machine
end

