-- ==== Sys2Proof/Laws/KeepsEvents.lean ====
section
/-!
SUPPORT. The operations of the event controller: none touches the queue, spoils the register space, takes back an output or draws a free value again.
-/
namespace Sys2Proof.Machine

theorem State.setVec_keeps (s : State) (v : Nat) (x : Vec) : Keeps s (State.setVec s v x) := by
  unfold State.setVec
  repeat' first
    | with_reducible exact Keeps.refl _ | with_reducible assumption | with_reducible refine Keeps.ite ?_ ?_
    | (apply Keeps.trans; case k => with_reducible first | apply State.idle_keeps)
    | (apply Keeps.trans; case k => with_reducible first | apply State.withHost_keeps)
    | split | dsimp only

theorem State.setPending_keeps (s : State) (n : Nat) (b : Bool) : Keeps s (State.setPending s n b) := by
  unfold State.setPending
  repeat' first
    | with_reducible exact Keeps.refl _ | with_reducible assumption | with_reducible refine Keeps.ite ?_ ?_
    | (apply Keeps.trans; case k => with_reducible first | apply State.wr_keeps | apply State.incWrap_keeps)
    | split | dsimp only

theorem State.countFire_keeps (s : State) (v : Nat) : Keeps s (State.countFire s v) := by
  unfold State.countFire
  repeat' first
    | with_reducible exact Keeps.refl _ | with_reducible assumption | with_reducible refine Keeps.ite ?_ ?_
    | (apply Keeps.trans; case k => with_reducible first | apply State.setVec_keeps)
    | split | dsimp only

theorem State.fireSource_keeps (s : State) (n : Nat) : Keeps s (State.fireSource s n) := by
  unfold State.fireSource
  repeat' first
    | with_reducible exact Keeps.refl _ | with_reducible assumption | with_reducible refine Keeps.ite ?_ ?_
    | (apply Keeps.trans; case k => with_reducible first | apply State.setPending_keeps | apply State.countFire_keeps)
    | split | dsimp only

theorem execEventFire_keeps (s : State) : KeepsR s (execEventFire s) := by
  unfold execEventFire
  repeat' first
    | with_reducible exact Keeps.refl _ | with_reducible assumption | with_reducible refine KeepsR.next ?_
    | with_reducible refine Keeps.ite ?_ ?_ | with_reducible refine KeepsR.ite ?_ ?_
    | (apply Keeps.trans; case k => with_reducible first | apply State.fireSource_keeps)
    | (apply Keeps.trans; case k => with_reducible first | apply State.withHost_keeps)
    | split | dsimp only

theorem execCoalesceTime_keeps (v : Nat) (s : State) : KeepsR s (execCoalesceTime v s) := by
  unfold execCoalesceTime
  repeat' first
    | with_reducible exact Keeps.refl _ | with_reducible assumption | with_reducible refine KeepsR.next ?_
    | with_reducible refine Keeps.ite ?_ ?_ | with_reducible refine KeepsR.ite ?_ ?_
    | (apply Keeps.trans; case k => with_reducible first | apply State.advanceTo_keeps | apply State.setVec_keeps)
    | split | dsimp only

theorem execVectorArbitration_keeps (v : Nat) (s : State) : KeepsR s (execVectorArbitration v s) := by
  unfold execVectorArbitration
  repeat' first
    | with_reducible exact Keeps.refl _ | with_reducible assumption | with_reducible refine KeepsR.next ?_
    | with_reducible refine Keeps.ite ?_ ?_ | with_reducible refine KeepsR.ite ?_ ?_
    | (apply Keeps.trans
       case k =>
         with_reducible first
           | apply State.setPending_keeps | apply State.setVec_keeps | apply State.emit_keeps)
    | (apply Keeps.trans; case k => with_reducible first | apply State.withHost_keeps)
    | split | dsimp only

theorem State.setMsixWord_keeps (s : State) (i : Nat) (v : BitVec 32) : Keeps s (State.setMsixWord s i v) := by
  unfold State.setMsixWord
  repeat' first
    | with_reducible exact Keeps.refl _ | with_reducible assumption | with_reducible refine Keeps.ite ?_ ?_
    | (apply Keeps.trans; case k => with_reducible first | apply State.withHost_keeps)
    | split | dsimp only

theorem State.sendMsix_keeps (s : State) (v : Nat) : Keeps s (State.sendMsix s v) := by
  unfold State.sendMsix
  repeat' first
    | with_reducible exact Keeps.refl _ | with_reducible assumption | with_reducible refine Keeps.ite ?_ ?_
    | (apply Keeps.trans
       case k =>
         with_reducible first
           | apply State.leaveL1_keeps | apply State.setVec_keeps | apply State.emit_keeps)
    | split | dsimp only

theorem execMsixSend_keeps (v : Nat) (s : State) : KeepsR s (execMsixSend v s) := by
  unfold execMsixSend
  repeat' first
    | with_reducible exact Keeps.refl _ | with_reducible assumption | with_reducible refine KeepsR.next ?_
    | with_reducible refine Keeps.ite ?_ ?_ | with_reducible refine KeepsR.ite ?_ ?_
    | (apply Keeps.trans; case k => with_reducible first | apply State.sendMsix_keeps)
    | split | dsimp only

theorem State.sendAll_keeps (s : State) : Keeps s (State.sendAll s) := by
  unfold State.sendAll
  repeat' first
    | with_reducible exact Keeps.refl _ | with_reducible assumption | with_reducible refine Keeps.ite ?_ ?_
    | (apply Keeps.trans; case k => with_reducible first | apply State.sendMsix_keeps)
    | with_reducible refine Keeps.foldl ?_ (fun _ _ => ?_)
    | split | dsimp only

theorem State.dueAgain_keeps (s : State) (v : Nat) : Keeps s (State.dueAgain s v) := by
  unfold State.dueAgain
  repeat' first
    | with_reducible exact Keeps.refl _ | with_reducible assumption | with_reducible refine Keeps.ite ?_ ?_
    | (apply Keeps.trans; case k => with_reducible first | apply State.setVec_keeps)
    | split | dsimp only

theorem State.evcComplete_keeps (s : State) (v src : Nat) : Keeps s (State.evcComplete s v src) := by
  unfold State.evcComplete
  repeat' first
    | with_reducible exact Keeps.refl _ | with_reducible assumption | with_reducible refine Keeps.ite ?_ ?_
    | (apply Keeps.trans
       case k =>
         with_reducible first
           | apply State.setVec_keeps | apply State.dueAgain_keeps | apply State.setCause_keeps)
    | split | dsimp only

theorem execEvcComplete_keeps (v src : Nat) (s : State) : KeepsR s (execEvcComplete v src s) := by
  unfold execEvcComplete
  repeat' first
    | with_reducible exact Keeps.refl _ | with_reducible assumption | with_reducible refine KeepsR.next ?_
    | with_reducible refine Keeps.ite ?_ ?_ | with_reducible refine KeepsR.ite ?_ ?_
    | (apply Keeps.trans; case k => with_reducible first | apply State.evcComplete_keeps)
    | with_reducible apply State.landed_keeps | with_reducible refine Keeps.trans ?_ (State.landed_keeps _ _ _  ?_)
    | intro _ | split | dsimp only

theorem State.evcPendingWrite_keeps (s : State) (w value : Nat) : Keeps s (State.evcPendingWrite s w value) := by
  unfold State.evcPendingWrite
  repeat' first
    | with_reducible exact Keeps.refl _ | with_reducible assumption | with_reducible refine Keeps.ite ?_ ?_
    | (apply Keeps.trans; case k => with_reducible first | apply State.countFire_keeps | apply State.wr_keeps)
    | with_reducible refine Keeps.foldl ?_ (fun _ _ => ?_)
    | split | dsimp only

theorem execEvcPendingWrite_keeps (w value : Nat) (s : State) : KeepsR s (execEvcPendingWrite w value s) := by
  unfold execEvcPendingWrite
  repeat' first
    | with_reducible exact Keeps.refl _ | with_reducible assumption | with_reducible refine KeepsR.next ?_
    | with_reducible refine Keeps.ite ?_ ?_ | with_reducible refine KeepsR.ite ?_ ?_
    | (apply Keeps.trans; case k => with_reducible first | apply State.evcPendingWrite_keeps)
    | with_reducible apply State.landed_keeps | with_reducible refine Keeps.trans ?_ (State.landed_keeps _ _ _  ?_)
    | intro _ | split | dsimp only

theorem State.evcMaskWrite_keeps (s : State) (w value : Nat) : Keeps s (State.evcMaskWrite s w value) := by
  unfold State.evcMaskWrite
  repeat' first
    | with_reducible exact Keeps.refl _ | with_reducible assumption | with_reducible refine Keeps.ite ?_ ?_
    | (apply Keeps.trans; case k => with_reducible first | apply State.countFire_keeps | apply State.wr_keeps)
    | with_reducible refine Keeps.foldl ?_ (fun _ _ => ?_)
    | split | dsimp only

theorem execEvcMaskWrite_keeps (w value : Nat) (s : State) : KeepsR s (execEvcMaskWrite w value s) := by
  unfold execEvcMaskWrite
  repeat' first
    | with_reducible exact Keeps.refl _ | with_reducible assumption | with_reducible refine KeepsR.next ?_
    | with_reducible refine Keeps.ite ?_ ?_ | with_reducible refine KeepsR.ite ?_ ?_
    | (apply Keeps.trans; case k => with_reducible first | apply State.evcMaskWrite_keeps)
    | with_reducible apply State.landed_keeps | with_reducible refine Keeps.trans ?_ (State.landed_keeps _ _ _  ?_)
    | intro _ | split | dsimp only

theorem State.rescan_keeps (s : State) (words : Nat) : Keeps s (State.rescan s words) := by
  unfold State.rescan
  repeat' first
    | with_reducible exact Keeps.refl _ | with_reducible assumption | with_reducible refine Keeps.ite ?_ ?_
    | (apply Keeps.trans; case k => with_reducible first | apply State.fireSource_keeps)
    | with_reducible refine Keeps.foldl ?_ (fun _ _ => ?_)
    | split | dsimp only

theorem execEvcRescan_keeps (words : Nat) (s : State) : KeepsR s (execEvcRescan words s) := by
  unfold execEvcRescan
  repeat' first
    | with_reducible exact Keeps.refl _ | with_reducible assumption | with_reducible refine KeepsR.next ?_
    | with_reducible refine Keeps.ite ?_ ?_ | with_reducible refine KeepsR.ite ?_ ?_
    | (apply Keeps.trans; case k => with_reducible first | apply State.rescan_keeps)
    | with_reducible apply State.landed_keeps | with_reducible refine Keeps.trans ?_ (State.landed_keeps _ _ _  ?_)
    | intro _ | split | dsimp only

theorem execD3hotEntry_keeps (s : State) : KeepsR s (execD3hotEntry s) := by
  unfold execD3hotEntry
  repeat' first
    | with_reducible exact Keeps.refl _ | with_reducible assumption | with_reducible refine KeepsR.next ?_
    | with_reducible refine Keeps.ite ?_ ?_ | with_reducible refine KeepsR.ite ?_ ?_
    | (apply Keeps.trans; case k => with_reducible first | apply State.sendAll_keeps | apply State.wr_keeps)
    | (apply Keeps.trans; case k => with_reducible first | apply State.withHost_keeps)
    | split | dsimp only

theorem execD0Return_keeps (s : State) : KeepsR s (execD0Return s) := by
  unfold execD0Return
  repeat' first
    | with_reducible exact Keeps.refl _ | with_reducible assumption | with_reducible refine KeepsR.next ?_
    | with_reducible refine Keeps.ite ?_ ?_ | with_reducible refine KeepsR.ite ?_ ?_
    | (apply Keeps.trans; case k => with_reducible first | apply State.wr_keeps | apply State.sendAll_keeps)
    | (apply Keeps.trans; case k => with_reducible first | apply State.withHost_keeps)
    | split | dsimp only

theorem State.resetRegs_keeps (s : State) (rs : List Reg) : Keeps s (State.resetRegs s rs) := by
  unfold State.resetRegs
  repeat' first
    | with_reducible exact Keeps.refl _ | with_reducible assumption | with_reducible refine Keeps.ite ?_ ?_
    | (apply Keeps.trans; case k => with_reducible first | apply State.setReg_keeps)
    | with_reducible refine Keeps.foldl ?_ (fun _ _ => ?_)
    | split | dsimp only

theorem State.loadRegs_keeps (s : State) (rs : List Reg) (image : Sparse (BitVec 320)) : Keeps s (State.loadRegs s rs image) := by
  unfold State.loadRegs
  repeat' first
    | with_reducible exact Keeps.refl _ | with_reducible assumption | with_reducible refine Keeps.ite ?_ ?_
    | (apply Keeps.trans; case k => with_reducible first | apply State.setReg_keeps | apply State.resetRegs_keeps)
    | with_reducible refine Keeps.foldl ?_ (fun _ _ => ?_)
    | split | dsimp only

theorem execL2Entry_keeps (s : State) : KeepsR s (execL2Entry s) := by
  unfold execL2Entry
  repeat' first
    | with_reducible exact Keeps.refl _ | with_reducible assumption | with_reducible refine KeepsR.next ?_
    | with_reducible refine Keeps.ite ?_ ?_ | with_reducible refine KeepsR.ite ?_ ?_
    | (apply Keeps.trans; case k => with_reducible first | apply State.wr_keeps)
    | (apply Keeps.trans; case k => with_reducible first | apply State.withHost_keeps)
    | split | dsimp only

theorem State.puntLink_keeps (s : State) (k : Nat) (up : Bool) : Keeps s (State.puntLink s k up) := by
  unfold State.puntLink
  repeat' first
    | with_reducible exact Keeps.refl _ | with_reducible assumption | with_reducible refine Keeps.ite ?_ ?_
    | (apply Keeps.trans; case k => with_reducible first | apply State.nodeReturned_keeps | apply State.nodeLost_keeps)
    | split | dsimp only

theorem State.ringsOff_keeps (s : State) : Keeps s (State.ringsOff s) := by
  unfold State.ringsOff
  repeat' first
    | with_reducible exact Keeps.refl _ | with_reducible assumption | with_reducible refine Keeps.ite ?_ ?_
    | (apply Keeps.trans
       case k =>
         with_reducible first
           | apply State.wr_keeps | apply State.setReg_keeps | apply State.setRing_keeps | apply State.idle_keeps
           | apply State.puntLink_keeps)
    | with_reducible refine Keeps.foldl ?_ (fun _ _ => ?_)
    | split | dsimp only

theorem State.sourcesIdle_keeps (s : State) : Keeps s (State.sourcesIdle s) := by
  unfold State.sourcesIdle
  repeat' first
    | with_reducible exact Keeps.refl _ | with_reducible assumption | with_reducible refine Keeps.ite ?_ ?_
    | (apply Keeps.trans; case k => with_reducible first | apply State.resetRegs_keeps)
    | (apply Keeps.trans; case k => with_reducible first | apply State.withHost_keeps)
    | split | dsimp only

theorem State.hostReset_keeps (s : State) : Keeps s (State.hostReset s) := by
  unfold State.hostReset
  repeat' first
    | with_reducible exact Keeps.refl _ | with_reducible assumption | with_reducible refine Keeps.ite ?_ ?_
    | (apply Keeps.trans
       case k =>
         with_reducible first
           | apply State.ringsOff_keeps | apply State.sourcesIdle_keeps | apply State.resetRegs_keeps)
    | (apply Keeps.trans; case k => with_reducible first | apply State.withHost_keeps)
    | split | dsimp only

theorem State.mergeShadow_keeps (s : State) : Keeps s (State.mergeShadow s) := by
  unfold State.mergeShadow
  repeat' first
    | with_reducible exact Keeps.refl _ | with_reducible assumption | with_reducible refine Keeps.ite ?_ ?_
    | (apply Keeps.trans; case k => with_reducible first | apply State.setPending_keeps | apply State.setVec_keeps)
    | with_reducible refine Keeps.foldl ?_ (fun _ _ => ?_)
    | split | dsimp only

theorem execPerstRelease_keeps (speed width : Nat) (good : Bool) (s : State) :
    KeepsR s (execPerstRelease speed width good s) := by
  unfold execPerstRelease
  repeat' first
    | with_reducible exact Keeps.refl _ | with_reducible assumption | with_reducible refine KeepsR.next ?_
    | with_reducible refine Keeps.ite ?_ ?_ | with_reducible refine KeepsR.ite ?_ ?_
    | (apply Keeps.trans
       case k =>
         with_reducible first
           | apply State.hostReset_keeps | apply State.loadRegs_keeps | apply State.resetRegs_keeps | apply State.setCause_keeps
           | apply State.mergeShadow_keeps | apply State.advanceTo_keeps | apply State.wr_keeps)
    | (apply Keeps.trans; case k => with_reducible first | apply State.withHost_keeps)
    | split | dsimp only

end Sys2Proof.Machine
end

