-- ==== Sys2Proof/Laws/KeepsRings.lean ====
section
/-!
SUPPORT. The operations of the rings: none touches the queue, spoils the register space, takes back an output or draws a free value again.
-/
namespace Sys2Proof.Machine

theorem State.doorbell_keeps (s : State) (k half value : Nat) : Keeps s (State.doorbell s k half value) := by
  unfold State.doorbell
  repeat' first
    | with_reducible exact Keeps.refl _ | with_reducible assumption | with_reducible refine Keeps.ite ?_ ?_
    | (apply Keeps.trans; case k => with_reducible first | apply State.hostError_keeps | apply State.setRing_keeps)
    | split | dsimp only

theorem execDoorbellWrite_keeps (k half value : Nat) (s : State) : KeepsR s (execDoorbellWrite k half value s) := by
  unfold execDoorbellWrite
  repeat' first
    | with_reducible exact Keeps.refl _ | with_reducible assumption | with_reducible refine KeepsR.next ?_
    | with_reducible refine Keeps.ite ?_ ?_ | with_reducible refine KeepsR.ite ?_ ?_
    | (apply Keeps.trans; case k => with_reducible first | apply State.doorbell_keeps)
    | split | dsimp only

theorem State.puntEntry_keeps (s : State) (ring buf orig : Nat) (fields content : List Byte) :
    Keeps s (State.puntEntry s ring buf orig fields content) := by
  unfold State.puntEntry
  repeat' first
    | with_reducible exact Keeps.refl _ | with_reducible assumption | with_reducible refine Keeps.ite ?_ ?_
    | (apply Keeps.trans
       case k =>
         with_reducible first
           | apply State.hostPost_keeps | apply State.ringPost_keeps | apply State.sample_keeps)
    | split | dsimp only

theorem State.takeMessage_keeps {s t : State} {r : Nat} {m : Msg} (h : s.takeMessage r = some (m, t)) : Keeps s t := by
  unfold State.takeMessage at h
  split at h
  · cases h
  · cases h; exact State.withHost_keeps _ _

theorem execPuntWrite_keeps (ring buf : Nat) (s : State) : KeepsR s (execPuntWrite ring buf s) := by
  unfold execPuntWrite
  repeat' first
    | with_reducible exact Keeps.refl _ | with_reducible assumption | with_reducible refine KeepsR.next ?_
    | with_reducible refine Keeps.ite ?_ ?_ | with_reducible refine KeepsR.ite ?_ ?_
    | (apply Keeps.trans
       case k =>
         with_reducible first
           | apply State.puntEntry_keeps | apply State.txOctets_keeps | apply State.trace_keeps | apply State.removePkt_keeps)
    | with_reducible refine Keeps.trans ?_ (State.takeMessage_keeps (by assumption))
    | split | dsimp only

theorem State.injectDone_keeps (s : State) (k status : Nat) : Keeps s (State.injectDone s k status) := by
  unfold State.injectDone
  repeat' first
    | with_reducible exact Keeps.refl _ | with_reducible assumption | with_reducible refine Keeps.ite ?_ ?_
    | (apply Keeps.trans; case k => with_reducible first | apply State.hostPost_keeps | apply State.ringAdvance_keeps)
    | split | dsimp only

theorem State.handOn_keeps (s : State) (r : Nat) (d data : List Byte) : Keeps s (State.handOn s r d data).1 := by
  unfold State.handOn
  repeat' first
    | with_reducible exact Keeps.refl _ | with_reducible assumption | with_reducible refine Keeps.ite ?_ ?_
    | with_reducible refine Keeps.ite1 ?_ ?_
    | (apply Keeps.trans
       case k =>
         with_reducible first
           | apply State.enterFifo_keeps | apply State.addPkt_keeps | apply State.enqueueAt_keeps | apply State.dropPkt_keeps
           | apply State.hostPloam_keeps | apply State.hostOmcc_keeps | apply State.emit_keeps)
    | with_reducible refine Keeps.of_pair (State.enqueueAt_keeps ..) (by assumption) ?_
    | with_reducible refine Keeps.of_pair (State.hostPloam_keeps ..) (by assumption) ?_
    | with_reducible refine Keeps.of_pair (State.hostOmcc_keeps ..) (by assumption) ?_
    | split | dsimp only

theorem execInjectFetch_keeps (r : Nat) (desc content : List Byte) (s : State) : KeepsR s (execInjectFetch r desc content s) := by
  unfold execInjectFetch
  repeat' first
    | with_reducible exact Keeps.refl _ | with_reducible assumption | with_reducible refine KeepsR.next ?_
    | with_reducible refine Keeps.ite ?_ ?_ | with_reducible refine KeepsR.ite ?_ ?_ | with_reducible refine Keeps.ite1 ?_ ?_
    | (apply Keeps.trans
       case k =>
         with_reducible first
           | apply State.discardAt_keeps | apply State.injectDone_keeps | apply State.handOn_keeps)
    | with_reducible refine Keeps.of_pair (State.handOn_keeps ..) (by assumption) ?_
    | split | dsimp only

theorem State.ringFail_keeps (s : State) (k : Nat) : Keeps s (State.ringFail s k) := by
  unfold State.ringFail
  repeat' first
    | with_reducible exact Keeps.refl _ | with_reducible assumption | with_reducible refine Keeps.ite ?_ ?_
    | (apply Keeps.trans
       case k =>
         with_reducible first
           | apply State.wr_keeps | apply State.hostError_keeps | apply State.raise_keeps)
    | split | dsimp only

theorem execDmaError_keeps (k : Nat) (buffer : Bool) (s : State) : KeepsR s (execDmaError k buffer s) := by
  unfold execDmaError
  repeat' first
    | with_reducible exact Keeps.refl _ | with_reducible assumption | with_reducible refine KeepsR.next ?_
    | with_reducible refine Keeps.ite ?_ ?_ | with_reducible refine KeepsR.ite ?_ ?_
    | (apply Keeps.trans
       case k =>
         with_reducible first
           | apply State.discardAt_keeps | apply State.injectDone_keeps | apply State.ringFail_keeps | apply State.tally1_keeps
           | apply State.discardPkt_keeps)
    | with_reducible refine Keeps.trans ?_ (State.takeMessage_keeps (by assumption))
    | split | dsimp only

theorem State.ringEnable_keeps (s : State) (k : Nat) : Keeps s (State.ringEnable s k) := by
  unfold State.ringEnable
  repeat' first
    | with_reducible exact Keeps.refl _ | with_reducible assumption | with_reducible refine Keeps.ite ?_ ?_
    | (apply Keeps.trans
       case k =>
         with_reducible first
           | apply State.wr_keeps | apply State.setReg_keeps | apply State.setRing_keeps | apply State.idle_keeps
           | apply State.puntLink_keeps)
    | split | dsimp only

theorem State.ringDisable_keeps (s : State) (k : Nat) : Keeps s (State.ringDisable s k) := by
  unfold State.ringDisable
  repeat' first
    | with_reducible exact Keeps.refl _ | with_reducible assumption | with_reducible refine Keeps.ite ?_ ?_
    | (apply Keeps.trans; case k => with_reducible first | apply State.wr_keeps | apply State.puntLink_keeps)
    | split | dsimp only

theorem execRingEnable_keeps (k : Nat) (s : State) : KeepsR s (execRingEnable k s) := by
  unfold execRingEnable
  repeat' first
    | with_reducible exact Keeps.refl _ | with_reducible assumption | with_reducible refine KeepsR.next ?_
    | with_reducible refine Keeps.ite ?_ ?_ | with_reducible refine KeepsR.ite ?_ ?_
    | (apply Keeps.trans; case k => with_reducible first | apply State.ringEnable_keeps)
    | with_reducible apply State.landed_keeps | with_reducible refine Keeps.trans ?_ (State.landed_keeps _ _ _  ?_)
    | intro _ | split | dsimp only

theorem execRingDisable_keeps (k : Nat) (s : State) : KeepsR s (execRingDisable k s) := by
  unfold execRingDisable
  repeat' first
    | with_reducible exact Keeps.refl _ | with_reducible assumption | with_reducible refine KeepsR.next ?_
    | with_reducible refine Keeps.ite ?_ ?_ | with_reducible refine KeepsR.ite ?_ ?_
    | (apply Keeps.trans; case k => with_reducible first | apply State.ringDisable_keeps)
    | with_reducible apply State.landed_keeps | with_reducible refine Keeps.trans ?_ (State.landed_keeps _ _ _  ?_)
    | intro _ | split | dsimp only

end Sys2Proof.Machine
end

