-- ==== Sys2Proof/Laws/KeepsTallyCmds.lean ====
section
/-!
SUPPORT. The operations of Tally: none touches the queue, spoils the register space, takes back an output or draws a free value again.
-/
namespace Sys2Proof.Machine

theorem execCntRead_keeps (i : Nat) (strikes : List (Nat × Nat)) (s : State) : KeepsR s (execCntRead i strikes s) := by
  unfold execCntRead
  repeat' first
    | with_reducible exact Keeps.refl _ | with_reducible assumption | with_reducible refine KeepsR.next ?_
    | with_reducible refine Keeps.ite ?_ ?_ | with_reducible refine KeepsR.ite ?_ ?_
    | (apply Keeps.trans; case k => with_reducible first | apply State.strikePair_keeps | apply State.cntCommand_keeps)
    | with_reducible apply State.landed_keeps | with_reducible refine Keeps.trans ?_ (State.landed_keeps _ _ _  ?_)
    | intro _ | split | dsimp only

theorem execCntReadClear_keeps (i : Nat) (strikes : List (Nat × Nat)) (s : State) : KeepsR s (execCntReadClear i strikes s) := by
  unfold execCntReadClear
  repeat' first
    | with_reducible exact Keeps.refl _ | with_reducible assumption | with_reducible refine KeepsR.next ?_
    | with_reducible refine Keeps.ite ?_ ?_ | with_reducible refine KeepsR.ite ?_ ?_
    | (apply Keeps.trans; case k => with_reducible first | apply State.strikePair_keeps | apply State.cntCommand_keeps)
    | with_reducible apply State.landed_keeps | with_reducible refine Keeps.trans ?_ (State.landed_keeps _ _ _  ?_)
    | intro _ | split | dsimp only

theorem execCntZero_keeps (i : Nat) (s : State) : KeepsR s (execCntZero i s) := by
  unfold execCntZero
  repeat' first
    | with_reducible exact Keeps.refl _ | with_reducible assumption | with_reducible refine KeepsR.next ?_
    | with_reducible refine Keeps.ite ?_ ?_ | with_reducible refine KeepsR.ite ?_ ?_
    | (apply Keeps.trans; case k => with_reducible first | apply State.cntCommand_keeps)
    | with_reducible apply State.landed_keeps | with_reducible refine Keeps.trans ?_ (State.landed_keeps _ _ _  ?_)
    | intro _ | split | dsimp only

theorem execCounterCacheWriteback_keeps (i : Nat) (strikes : List (Nat × Nat)) (s0 : State) :
    KeepsR s0 (execCounterCacheWriteback i strikes s0) := by
  unfold execCounterCacheWriteback
  repeat' first
    | with_reducible exact Keeps.refl _ | with_reducible assumption | with_reducible refine KeepsR.next ?_
    | with_reducible refine Keeps.ite ?_ ?_ | with_reducible refine KeepsR.ite ?_ ?_
    | (apply Keeps.trans
       case k =>
         with_reducible first
           | apply State.strikePair_keeps | apply State.uncache_keeps | apply State.incSat_keeps | apply State.fetchPair_keeps
           | apply State.setPair_keeps)
    | split | dsimp only

theorem State.freezeNow_keeps (s : State) : Keeps s (State.freezeNow s) := by
  unfold State.freezeNow
  repeat' first
    | with_reducible exact Keeps.refl _ | with_reducible assumption | with_reducible refine Keeps.ite ?_ ?_
    | with_reducible refine Keeps.foldl ?_ (fun _ _ => ?_)
    | (apply Keeps.trans; case k => with_reducible first | apply State.withTally_keeps)
    | split | dsimp only

theorem State.thawNow_keeps (s : State) : Keeps s (State.thawNow s) := by
  unfold State.thawNow
  repeat' first
    | with_reducible exact Keeps.refl _ | with_reducible assumption | with_reducible refine Keeps.ite ?_ ?_
    | (apply Keeps.trans; case k => with_reducible first | apply State.wr_keeps)
    | (apply Keeps.trans; case k => with_reducible first | apply State.withTally_keeps)
    | split | dsimp only

theorem State.freezeDone_keeps (s : State) : Keeps s (State.freezeDone s) := by
  unfold State.freezeDone
  repeat' first
    | with_reducible exact Keeps.refl _ | with_reducible assumption | with_reducible refine Keeps.ite ?_ ?_
    | (apply Keeps.trans; case k => with_reducible first | apply State.setCause_keeps)
    | split | dsimp only

theorem State.freezeCmd_keeps (s : State) (cmd : Nat) : Keeps s (State.freezeCmd s cmd) := by
  unfold State.freezeCmd
  repeat' first
    | with_reducible exact Keeps.refl _ | with_reducible assumption | with_reducible refine Keeps.ite ?_ ?_
    | (apply Keeps.trans
       case k =>
         with_reducible first
           | apply State.wr_keeps | apply State.thawNow_keeps | apply State.incSat_keeps)
    | (apply Keeps.trans; case k => with_reducible first | apply State.withTally_keeps)
    | split | dsimp only

theorem execFreeze_keeps (s : State) : KeepsR s (execFreeze s) := by
  unfold execFreeze
  repeat' first
    | with_reducible exact Keeps.refl _ | with_reducible assumption | with_reducible refine KeepsR.next ?_
    | with_reducible refine Keeps.ite ?_ ?_ | with_reducible refine KeepsR.ite ?_ ?_
    | (apply Keeps.trans; case k => with_reducible first | apply State.freezeCmd_keeps)
    | with_reducible apply State.landed_keeps | with_reducible refine Keeps.trans ?_ (State.landed_keeps _ _ _  ?_)
    | intro _ | split | dsimp only

theorem execThaw_keeps (s : State) : KeepsR s (execThaw s) := by
  unfold execThaw
  repeat' first
    | with_reducible exact Keeps.refl _ | with_reducible assumption | with_reducible refine KeepsR.next ?_
    | with_reducible refine Keeps.ite ?_ ?_ | with_reducible refine KeepsR.ite ?_ ?_
    | (apply Keeps.trans; case k => with_reducible first | apply State.freezeCmd_keeps)
    | with_reducible apply State.landed_keeps | with_reducible refine Keeps.trans ?_ (State.landed_keeps _ _ _  ?_)
    | intro _ | split | dsimp only

theorem execSnapshot_keeps (s : State) : KeepsR s (execSnapshot s) := by
  unfold execSnapshot
  repeat' first
    | with_reducible exact Keeps.refl _ | with_reducible assumption | with_reducible refine KeepsR.next ?_
    | with_reducible refine Keeps.ite ?_ ?_ | with_reducible refine KeepsR.ite ?_ ?_
    | (apply Keeps.trans; case k => with_reducible first | apply State.freezeCmd_keeps)
    | with_reducible apply State.landed_keeps | with_reducible refine Keeps.trans ?_ (State.landed_keeps _ _ _  ?_)
    | intro _ | split | dsimp only

theorem execFreezeInstant_keeps (s : State) : KeepsR s (execFreezeInstant s) := by
  unfold execFreezeInstant
  repeat' first
    | with_reducible exact Keeps.refl _ | with_reducible assumption | with_reducible refine KeepsR.next ?_
    | with_reducible refine Keeps.ite ?_ ?_ | with_reducible refine KeepsR.ite ?_ ?_
    | (apply Keeps.trans
       case k =>
         with_reducible first
           | apply State.wr_keeps | apply State.freezeNow_keeps | apply State.freezeDone_keeps | apply State.thawNow_keeps)
    | split | dsimp only

theorem execSnapshotComplete_keeps (s : State) : KeepsR s (execSnapshotComplete s) := by
  unfold execSnapshotComplete
  repeat' first
    | with_reducible exact Keeps.refl _ | with_reducible assumption | with_reducible refine KeepsR.next ?_
    | with_reducible refine Keeps.ite ?_ ?_ | with_reducible refine KeepsR.ite ?_ ?_
    | (apply Keeps.trans
       case k =>
         with_reducible first
           | apply State.fetchPair_keeps | apply State.hostPost_keeps | apply State.thawNow_keeps | apply State.freezeDone_keeps)
    | with_reducible refine Keeps.foldl ?_ (fun _ _ => ?_)
    | split | dsimp only

theorem State.bwLatch_keeps (s : State) (octets max : Fld) (i n : Nat) : Keeps s (State.bwLatch s octets max i n) := by
  unfold State.bwLatch
  repeat' first
    | with_reducible exact Keeps.refl _ | with_reducible assumption | with_reducible refine Keeps.ite ?_ ?_
    | (apply Keeps.trans; case k => with_reducible first | apply State.wr_keeps | apply State.raiseTo_keeps)
    | split | dsimp only

theorem execBwWindowBoundary_keeps (s : State) : KeepsR s (execBwWindowBoundary s) := by
  unfold execBwWindowBoundary
  repeat' first
    | with_reducible exact Keeps.refl _ | with_reducible assumption | with_reducible refine KeepsR.next ?_
    | with_reducible refine Keeps.ite ?_ ?_ | with_reducible refine KeepsR.ite ?_ ?_
    | (apply Keeps.trans
       case k =>
         with_reducible first
           | apply State.advanceTo_keeps | apply State.bwLatch_keeps | apply State.rxOctets_keeps | apply State.txOctets_keeps
           | apply State.incWrap_keeps)
    | with_reducible refine Keeps.foldl ?_ (fun _ _ => ?_)
    | (apply Keeps.trans; case k => with_reducible first | apply State.withTally_keeps)
    | split | dsimp only

theorem execIsampClear_keeps (s : State) : KeepsR s (execIsampClear s) := by
  unfold execIsampClear
  repeat' first
    | with_reducible exact Keeps.refl _ | with_reducible assumption | with_reducible refine KeepsR.next ?_
    | with_reducible refine Keeps.ite ?_ ?_ | with_reducible refine KeepsR.ite ?_ ?_
    | (apply Keeps.trans; case k => with_reducible first | apply State.resetRegs_keeps)
    | with_reducible apply State.landed_keeps | with_reducible refine Keeps.trans ?_ (State.landed_keeps _ _ _  ?_)
    | intro _ | split | dsimp only

end Sys2Proof.Machine
end

