-- ==== Sys2Proof/Laws/KeepsEmvex.lean ====
section
/-!
SUPPORT. The operations of Emvex: none touches the queue, spoils the register space, takes back an output or draws a free value again.
-/
namespace Sys2Proof.Machine

theorem State.setEmvLane_keeps (s : State) (l : Nat) (x : EmvLane) : Keeps s (State.setEmvLane s l x) := by
  unfold State.setEmvLane
  repeat' first
    | with_reducible exact Keeps.refl _ | with_reducible assumption | with_reducible refine Keeps.ite ?_ ?_
    | (apply Keeps.trans; case k => with_reducible first | apply State.idle_keeps)
    | (apply Keeps.trans; case k => with_reducible first | apply State.withEmv_keeps)
    | split | dsimp only

theorem State.emvAlarm_keeps (s : State) (f : Fld) : Keeps s (State.emvAlarm s f) := by
  unfold State.emvAlarm
  repeat' first
    | with_reducible exact Keeps.refl _ | with_reducible assumption | with_reducible refine Keeps.ite ?_ ?_
    | (apply Keeps.trans; case k => with_reducible first | apply State.setCause_keeps)
    | split | dsimp only

theorem State.emvSend_keeps (s : State) (l type dst : Nat) (body : List Byte) : Keeps s (State.emvSend s l type dst body) := by
  unfold State.emvSend
  repeat' first
    | with_reducible exact Keeps.refl _ | with_reducible assumption | with_reducible refine Keeps.ite ?_ ?_
    | (apply Keeps.trans; case k => with_reducible first | apply State.emit_keeps | apply State.setEmvLane_keeps)
    | split | dsimp only

theorem State.sendDown_keeps (s : State) (type : Nat) (body : List Byte) (fromPeer : Bool) :
    Keeps s (State.sendDown s type body fromPeer) := by
  unfold State.sendDown
  repeat' first
    | with_reducible exact Keeps.refl _ | with_reducible assumption | with_reducible refine Keeps.ite ?_ ?_
    | (apply Keeps.trans; case k => with_reducible first | apply State.emvSend_keeps)
    | with_reducible refine Keeps.foldl ?_ (fun _ _ => ?_)
    | split | dsimp only

theorem State.sendUp_keeps (s : State) (type : Nat) (body : List Byte) : Keeps s (State.sendUp s type body) := by
  unfold State.sendUp
  repeat' first
    | with_reducible exact Keeps.refl _ | with_reducible assumption | with_reducible refine Keeps.ite ?_ ?_
    | (apply Keeps.trans; case k => with_reducible first | apply State.emvSend_keeps)
    | split | dsimp only

theorem execAnnounceSend_keeps (s : State) : KeepsR s (execAnnounceSend s) := by
  unfold execAnnounceSend
  repeat' first
    | with_reducible exact Keeps.refl _ | with_reducible assumption | with_reducible refine KeepsR.next ?_
    | with_reducible refine Keeps.ite ?_ ?_ | with_reducible refine KeepsR.ite ?_ ?_
    | (apply Keeps.trans; case k => with_reducible first | apply State.advanceTo_keeps | apply State.emvSend_keeps)
    | with_reducible refine Keeps.foldl ?_ (fun _ _ => ?_)
    | (apply Keeps.trans; case k => with_reducible first | apply State.withEmv_keeps)
    | split | dsimp only

theorem execTimeSend_keeps (sub : Nat) (s : State) : KeepsR s (execTimeSend sub s) := by
  unfold execTimeSend
  repeat' first
    | with_reducible exact Keeps.refl _ | with_reducible assumption | with_reducible refine KeepsR.next ?_
    | with_reducible refine Keeps.ite ?_ ?_ | with_reducible refine KeepsR.ite ?_ ?_
    | (apply Keeps.trans; case k => with_reducible first | apply State.advanceTo_keeps | apply State.emvSend_keeps)
    | with_reducible refine Keeps.foldl ?_ (fun _ _ => ?_)
    | (apply Keeps.trans; case k => with_reducible first | apply State.withEmv_keeps)
    | split | dsimp only

theorem State.holdover_keeps (s : State) : Keeps s (State.holdover s) := by
  unfold State.holdover
  repeat' first
    | with_reducible exact Keeps.refl _ | with_reducible assumption | with_reducible refine Keeps.ite ?_ ?_
    | (apply Keeps.trans; case k => with_reducible first | apply State.setCause_keeps)
    | split | dsimp only

theorem State.followNone_keeps (s : State) : Keeps s (State.followNone s) := by
  unfold State.followNone
  repeat' first
    | with_reducible exact Keeps.refl _ | with_reducible assumption | with_reducible refine Keeps.ite ?_ ?_
    | (apply Keeps.trans; case k => with_reducible first | apply State.wr_keeps)
    | (apply Keeps.trans; case k => with_reducible first | apply State.withEmv_keeps)
    | split | dsimp only

theorem State.followUp_keeps (s : State) (l : Nat) : Keeps s (State.followUp s l) := by
  unfold State.followUp
  repeat' first
    | with_reducible exact Keeps.refl _ | with_reducible assumption | with_reducible refine Keeps.ite ?_ ?_
    | (apply Keeps.trans
       case k =>
         with_reducible first
           | apply State.wr_keeps | apply State.followNone_keeps | apply State.incWrap_keeps | apply State.holdover_keeps)
    | (apply Keeps.trans; case k => with_reducible first | apply State.withEmv_keeps)
    | split | dsimp only

theorem State.takeUplink_keeps (s : State) (l : Nat) : Keeps s (State.takeUplink s l) := by
  unfold State.takeUplink
  repeat' first
    | with_reducible exact Keeps.refl _ | with_reducible assumption | with_reducible refine Keeps.ite ?_ ?_
    | (apply Keeps.trans; case k => with_reducible first | apply State.followUp_keeps | apply State.emvAlarm_keeps)
    | split | dsimp only

theorem State.uplinkLost_keeps (s : State) : Keeps s (State.uplinkLost s) := by
  unfold State.uplinkLost
  repeat' first
    | with_reducible exact Keeps.refl _ | with_reducible assumption | with_reducible refine Keeps.ite ?_ ?_
    | (apply Keeps.trans
       case k =>
         with_reducible first
           | apply State.emvAlarm_keeps | apply State.followNone_keeps | apply State.holdover_keeps
           | apply State.takeUplink_keeps)
    | split | dsimp only

theorem State.reconsider_keeps (s : State) : Keeps s (State.reconsider s) := by
  unfold State.reconsider
  repeat' first
    | with_reducible exact Keeps.refl _ | with_reducible assumption | with_reducible refine Keeps.ite ?_ ?_
    | (apply Keeps.trans
       case k =>
         with_reducible first
           | apply State.takeUplink_keeps | apply State.followUp_keeps | apply State.wr_keeps)
    | split | dsimp only

theorem State.laneFell_keeps (s : State) (l : Nat) : Keeps s (State.laneFell s l) := by
  unfold State.laneFell
  repeat' first
    | with_reducible exact Keeps.refl _ | with_reducible assumption | with_reducible refine Keeps.ite ?_ ?_
    | (apply Keeps.trans; case k => with_reducible first | apply State.wr_keeps)
    | (apply Keeps.trans; case k => with_reducible first | apply State.withEmv_keeps)
    | split | dsimp only

theorem execUplinkLost_keeps (lock : Bool) (s : State) : KeepsR s (execUplinkLost lock s) := by
  unfold execUplinkLost
  repeat' first
    | with_reducible exact Keeps.refl _ | with_reducible assumption | with_reducible refine KeepsR.next ?_
    | with_reducible refine Keeps.ite ?_ ?_ | with_reducible refine KeepsR.ite ?_ ?_
    | (apply Keeps.trans
       case k =>
         with_reducible first
           | apply State.advanceTo_keeps | apply State.laneFell_keeps | apply State.uplinkLost_keeps)
    | split | dsimp only

theorem execEmvexLaneDown_keeps (l : Nat) (lock : Bool) (s : State) : KeepsR s (execEmvexLaneDown l lock s) := by
  unfold execEmvexLaneDown
  repeat' first
    | with_reducible exact Keeps.refl _ | with_reducible assumption | with_reducible refine KeepsR.next ?_
    | with_reducible refine Keeps.ite ?_ ?_ | with_reducible refine KeepsR.ite ?_ ?_
    | (apply Keeps.trans; case k => with_reducible first | apply State.advanceTo_keeps | apply State.laneFell_keeps)
    | split | dsimp only

theorem State.standBy_keeps (s : State) : Keeps s (State.standBy s) := by
  unfold State.standBy
  repeat' first
    | with_reducible exact Keeps.refl _ | with_reducible assumption | with_reducible refine Keeps.ite ?_ ?_
    | (apply Keeps.trans; case k => with_reducible first | apply State.wr_keeps | apply State.reconsider_keeps)
    | split | dsimp only

theorem State.becomeActing_keeps (s : State) : Keeps s (State.becomeActing s) := by
  unfold State.becomeActing
  repeat' first
    | with_reducible exact Keeps.refl _ | with_reducible assumption | with_reducible refine Keeps.ite ?_ ?_
    | (apply Keeps.trans
       case k =>
         with_reducible first
           | apply State.wr_keeps | apply State.incWrap_keeps | apply State.emvAlarm_keeps | apply State.followNone_keeps)
    | (apply Keeps.trans; case k => with_reducible first | apply State.withEmv_keeps)
    | split | dsimp only

theorem execSecondaryTakeover_keeps (s : State) : KeepsR s (execSecondaryTakeover s) := by
  unfold execSecondaryTakeover
  repeat' first
    | with_reducible exact Keeps.refl _ | with_reducible assumption | with_reducible refine KeepsR.next ?_
    | with_reducible refine Keeps.ite ?_ ?_ | with_reducible refine KeepsR.ite ?_ ?_
    | (apply Keeps.trans; case k => with_reducible first | apply State.advanceTo_keeps | apply State.becomeActing_keeps)
    | split | dsimp only

theorem State.emvRevert_keeps (s : State) : Keeps s (State.emvRevert s) := by
  unfold State.emvRevert
  repeat' first
    | with_reducible exact Keeps.refl _ | with_reducible assumption | with_reducible refine Keeps.ite ?_ ?_
    | (apply Keeps.trans; case k => with_reducible first | apply State.standBy_keeps)
    | split | dsimp only

theorem execRevert_keeps (s : State) : KeepsR s (execRevert s) := by
  unfold execRevert
  repeat' first
    | with_reducible exact Keeps.refl _ | with_reducible assumption | with_reducible refine KeepsR.next ?_
    | with_reducible refine Keeps.ite ?_ ?_ | with_reducible refine KeepsR.ite ?_ ?_
    | (apply Keeps.trans; case k => with_reducible first | apply State.emvRevert_keeps)
    | with_reducible apply State.landed_keeps | with_reducible refine Keeps.trans ?_ (State.landed_keeps _ _ _  ?_)
    | intro _ | split | dsimp only

theorem State.emvDiscard_keeps (s : State) : Keeps s (State.emvDiscard s) := by
  unfold State.emvDiscard
  repeat' first
    | with_reducible exact Keeps.refl _ | with_reducible assumption | with_reducible refine Keeps.ite ?_ ?_
    | (apply Keeps.trans; case k => with_reducible first | apply State.withEmv_keeps)
    | split | dsimp only

theorem State.emvHear_keeps (s : State) (l type : Nat) (m : List Byte) (fcs : Bool) :
    Keeps s (State.emvHear s l type m fcs).1 := by
  unfold State.emvHear
  repeat' first
    | with_reducible exact Keeps.refl _ | with_reducible assumption | with_reducible refine Keeps.ite ?_ ?_
    | with_reducible refine Keeps.ite1 ?_ ?_
    | (apply Keeps.trans; case k => with_reducible first | apply State.emvDiscard_keeps | apply State.setEmvLane_keeps)
    | split | dsimp only

theorem State.putMap_keeps (s : State) (v ver : Nat) : Keeps s (State.putMap s v ver) := by
  unfold State.putMap
  repeat' first
    | with_reducible exact Keeps.refl _ | with_reducible assumption | with_reducible refine Keeps.ite ?_ ?_
    | (apply Keeps.trans; case k => with_reducible first | apply State.wr_keeps | apply State.emvAlarm_keeps)
    | with_reducible refine Keeps.foldl ?_ (fun _ _ => ?_)
    | (apply Keeps.trans; case k => with_reducible first | apply State.withEmv_keeps)
    | split | dsimp only

theorem State.sendMap_keeps (s : State) : Keeps s (State.sendMap s) := by
  unfold State.sendMap
  repeat' first
    | with_reducible exact Keeps.refl _ | with_reducible assumption | with_reducible refine Keeps.ite ?_ ?_
    | (apply Keeps.trans; case k => with_reducible first | apply State.sendDown_keeps)
    | split | dsimp only

theorem execMapSend_keeps (s : State) : KeepsR s (execMapSend s) := by
  unfold execMapSend
  repeat' first
    | with_reducible exact Keeps.refl _ | with_reducible assumption | with_reducible refine KeepsR.next ?_
    | with_reducible refine Keeps.ite ?_ ?_ | with_reducible refine KeepsR.ite ?_ ?_
    | (apply Keeps.trans; case k => with_reducible first | apply State.advanceTo_keeps | apply State.sendMap_keeps)
    | (apply Keeps.trans; case k => with_reducible first | apply State.withEmv_keeps)
    | split | dsimp only

theorem execMapReceive_keeps (l : Nat) (m : List Byte) (fcs : Bool) (s : State) : KeepsR s (execMapReceive l m fcs s) := by
  unfold execMapReceive
  repeat' first
    | with_reducible exact Keeps.refl _ | with_reducible assumption | with_reducible refine KeepsR.next ?_
    | with_reducible refine Keeps.ite ?_ ?_ | with_reducible refine KeepsR.ite ?_ ?_ | with_reducible refine Keeps.ite1 ?_ ?_
    | (apply Keeps.trans
       case k =>
         with_reducible first
           | apply State.emvHear_keeps | apply State.emvDiscard_keeps | apply State.putMap_keeps | apply State.sendDown_keeps)
    | with_reducible refine Keeps.of_pair (State.emvHear_keeps ..) (by assumption) ?_
    | split | dsimp only

theorem State.mapAdd_keeps (s : State) (md : Nat) : Keeps s (State.mapAdd s md) := by
  unfold State.mapAdd
  repeat' first
    | with_reducible exact Keeps.refl _ | with_reducible assumption | with_reducible refine Keeps.ite ?_ ?_
    | (apply Keeps.trans; case k => with_reducible first | apply State.putMap_keeps | apply State.sendMap_keeps)
    | split | dsimp only

theorem State.join_keeps (s : State) (md : Nat) : Keeps s (State.join s md) := by
  unfold State.join
  repeat' first
    | with_reducible exact Keeps.refl _ | with_reducible assumption | with_reducible refine Keeps.ite ?_ ?_
    | (apply Keeps.trans; case k => with_reducible first | apply State.mapAdd_keeps | apply State.sendUp_keeps)
    | split | dsimp only

theorem execJoinReceive_keeps (l : Nat) (m : List Byte) (fcs : Bool) (s : State) : KeepsR s (execJoinReceive l m fcs s) := by
  unfold execJoinReceive
  repeat' first
    | with_reducible exact Keeps.refl _ | with_reducible assumption | with_reducible refine KeepsR.next ?_
    | with_reducible refine Keeps.ite ?_ ?_ | with_reducible refine KeepsR.ite ?_ ?_ | with_reducible refine Keeps.ite1 ?_ ?_
    | (apply Keeps.trans
       case k =>
         with_reducible first
           | apply State.emvHear_keeps | apply State.emvDiscard_keeps | apply State.join_keeps)
    | with_reducible refine Keeps.of_pair (State.emvHear_keeps ..) (by assumption) ?_
    | split | dsimp only

theorem State.mapRemove_keeps (s : State) (md : Nat) : Keeps s (State.mapRemove s md) := by
  unfold State.mapRemove
  repeat' first
    | with_reducible exact Keeps.refl _ | with_reducible assumption | with_reducible refine Keeps.ite ?_ ?_
    | (apply Keeps.trans
       case k =>
         with_reducible first
           | apply State.emvAlarm_keeps | apply State.putMap_keeps | apply State.sendMap_keeps)
    | split | dsimp only

theorem execMapRemove_keeps (md : Nat) (s : State) : KeepsR s (execMapRemove md s) := by
  unfold execMapRemove
  repeat' first
    | with_reducible exact Keeps.refl _ | with_reducible assumption | with_reducible refine KeepsR.next ?_
    | with_reducible refine Keeps.ite ?_ ?_ | with_reducible refine KeepsR.ite ?_ ?_
    | (apply Keeps.trans; case k => with_reducible first | apply State.wr_keeps | apply State.mapRemove_keeps)
    | with_reducible apply State.landed_keeps | with_reducible refine Keeps.trans ?_ (State.landed_keeps _ _ _  ?_)
    | intro _ | split | dsimp only

theorem State.hearActing_keeps (s : State) (acts primary : Bool) : Keeps s (State.hearActing s acts primary) := by
  unfold State.hearActing
  repeat' first
    | with_reducible exact Keeps.refl _ | with_reducible assumption | with_reducible refine Keeps.ite ?_ ?_
    | (apply Keeps.trans; case k => with_reducible first | apply State.standBy_keeps | apply State.becomeActing_keeps)
    | split | dsimp only

theorem execAnnounceReceive_keeps (l : Nat) (m : List Byte) (fcs : Bool) (s : State) :
    KeepsR s (execAnnounceReceive l m fcs s) := by
  unfold execAnnounceReceive
  repeat' first
    | with_reducible exact Keeps.refl _ | with_reducible assumption | with_reducible refine KeepsR.next ?_
    | with_reducible refine Keeps.ite ?_ ?_ | with_reducible refine KeepsR.ite ?_ ?_ | with_reducible refine Keeps.ite1 ?_ ?_
    | (apply Keeps.trans
       case k =>
         with_reducible first
           | apply State.emvHear_keeps | apply State.wr_keeps | apply State.wrBit_keeps | apply State.setEmvLane_keeps
           | apply State.laneFell_keeps | apply State.emvAlarm_keeps | apply State.uplinkLost_keeps | apply State.join_keeps
           | apply State.hearActing_keeps | apply State.reconsider_keeps)
    | with_reducible refine Keeps.of_pair (State.emvHear_keeps ..) (by assumption) ?_
    | (apply Keeps.trans; case k => with_reducible first | apply State.withEmv_keeps)
    | split | dsimp only

theorem State.steer_keeps (s : State) (offset : Int) : Keeps s (State.steer s offset) := by
  unfold State.steer
  repeat' first
    | with_reducible exact Keeps.refl _ | with_reducible assumption | with_reducible refine Keeps.ite ?_ ?_
    | (apply Keeps.trans
       case k =>
         with_reducible first
           | apply State.freeDraw_keeps | apply State.wr_keeps | apply State.flipAnchor_keeps)
    | split | dsimp only

theorem State.takeTime_keeps (s : State) (offset : Int) : Keeps s (State.takeTime s offset) := by
  unfold State.takeTime
  repeat' first
    | with_reducible exact Keeps.refl _ | with_reducible assumption | with_reducible refine Keeps.ite ?_ ?_
    | (apply Keeps.trans; case k => with_reducible first | apply State.steer_keeps | apply State.wr_keeps)
    | (apply Keeps.trans; case k => with_reducible first | apply State.withEmv_keeps)
    | split | dsimp only

theorem execTimeReceive_keeps (l : Nat) (m : List Byte) (fcs : Bool) (sub : Nat) (s : State) :
    KeepsR s (execTimeReceive l m fcs sub s) := by
  unfold execTimeReceive
  repeat' first
    | with_reducible exact Keeps.refl _ | with_reducible assumption | with_reducible refine KeepsR.next ?_
    | with_reducible refine Keeps.ite ?_ ?_ | with_reducible refine KeepsR.ite ?_ ?_ | with_reducible refine Keeps.ite1 ?_ ?_
    | (apply Keeps.trans
       case k =>
         with_reducible first
           | apply State.emvHear_keeps | apply State.setEmvLane_keeps | apply State.uplinkLost_keeps | apply State.takeTime_keeps)
    | with_reducible refine Keeps.of_pair (State.emvHear_keeps ..) (by assumption) ?_
    | split | dsimp only

theorem State.prepare_keeps (s : State) (id coat t : Nat) : Keeps s (State.prepare s id coat t) := by
  unfold State.prepare
  repeat' first
    | with_reducible exact Keeps.refl _ | with_reducible assumption | with_reducible refine Keeps.ite ?_ ?_
    | (apply Keeps.trans
       case k =>
         with_reducible first
           | apply State.setEmvLane_keeps | apply State.wr_keeps | apply State.swapArm_keeps)
    | with_reducible refine Keeps.foldl ?_ (fun _ _ => ?_)
    | (apply Keeps.trans; case k => with_reducible first | apply State.withEmv_keeps)
    | split | dsimp only

theorem State.sendReply_keeps (s : State) (c : Commit) : Keeps s (State.sendReply s c) := by
  unfold State.sendReply
  repeat' first
    | with_reducible exact Keeps.refl _ | with_reducible assumption | with_reducible refine Keeps.ite ?_ ?_
    | (apply Keeps.trans; case k => with_reducible first | apply State.wr_keeps | apply State.sendUp_keeps)
    | (apply Keeps.trans; case k => with_reducible first | apply State.withEmv_keeps)
    | split | dsimp only

theorem State.replyNow_keeps (s : State) : Keeps s (State.replyNow s) := by
  unfold State.replyNow
  repeat' first
    | with_reducible exact Keeps.refl _ | with_reducible assumption | with_reducible refine Keeps.ite ?_ ?_
    | (apply Keeps.trans; case k => with_reducible first | apply State.sendReply_keeps)
    | split | dsimp only

theorem execPrepareReceive_keeps (l : Nat) (m : List Byte) (fcs : Bool) (s : State) :
    KeepsR s (execPrepareReceive l m fcs s) := by
  unfold execPrepareReceive
  repeat' first
    | with_reducible exact Keeps.refl _ | with_reducible assumption | with_reducible refine KeepsR.next ?_
    | with_reducible refine Keeps.ite ?_ ?_ | with_reducible refine KeepsR.ite ?_ ?_ | with_reducible refine Keeps.ite1 ?_ ?_
    | (apply Keeps.trans
       case k =>
         with_reducible first
           | apply State.emvHear_keeps | apply State.emvDiscard_keeps | apply State.sendDown_keeps | apply State.prepare_keeps
           | apply State.replyNow_keeps)
    | with_reducible refine Keeps.of_pair (State.emvHear_keeps ..) (by assumption) ?_
    | split | dsimp only

theorem execReplyReceive_keeps (l : Nat) (m : List Byte) (fcs : Bool) (s : State) : KeepsR s (execReplyReceive l m fcs s) := by
  unfold execReplyReceive
  repeat' first
    | with_reducible exact Keeps.refl _ | with_reducible assumption | with_reducible refine KeepsR.next ?_
    | with_reducible refine Keeps.ite ?_ ?_ | with_reducible refine KeepsR.ite ?_ ?_ | with_reducible refine Keeps.ite1 ?_ ?_
    | (apply Keeps.trans
       case k =>
         with_reducible first
           | apply State.emvHear_keeps | apply State.emvDiscard_keeps | apply State.setEmvLane_keeps | apply State.replyNow_keeps)
    | with_reducible refine Keeps.of_pair (State.emvHear_keeps ..) (by assumption) ?_
    | split | dsimp only

theorem execReplyTimeout_keeps (s : State) : KeepsR s (execReplyTimeout s) := by
  unfold execReplyTimeout
  repeat' first
    | with_reducible exact Keeps.refl _ | with_reducible assumption | with_reducible refine KeepsR.next ?_
    | with_reducible refine Keeps.ite ?_ ?_ | with_reducible refine KeepsR.ite ?_ ?_
    | (apply Keeps.trans; case k => with_reducible first | apply State.advanceTo_keeps | apply State.sendReply_keeps)
    | split | dsimp only

theorem State.commitGo_keeps (s : State) : Keeps s (State.commitGo s) := by
  unfold State.commitGo
  repeat' first
    | with_reducible exact Keeps.refl _ | with_reducible assumption | with_reducible refine Keeps.ite ?_ ?_
    | (apply Keeps.trans
       case k =>
         with_reducible first
           | apply State.emvAlarm_keeps | apply State.setReg_keeps | apply State.wr_keeps | apply State.sendDown_keeps
           | apply State.prepare_keeps | apply State.replyNow_keeps)
    | split | dsimp only

theorem execCommitGo_keeps (coat t : Nat) (s : State) : KeepsR s (execCommitGo coat t s) := by
  unfold execCommitGo
  repeat' first
    | with_reducible exact Keeps.refl _ | with_reducible assumption | with_reducible refine KeepsR.next ?_
    | with_reducible refine Keeps.ite ?_ ?_ | with_reducible refine KeepsR.ite ?_ ?_
    | (apply Keeps.trans; case k => with_reducible first | apply State.wr_keeps | apply State.commitGo_keeps)
    | with_reducible apply State.landed_keeps | with_reducible refine Keeps.trans ?_ (State.landed_keeps _ _ _  ?_)
    | intro _ | split | dsimp only

theorem execCancelReceive_keeps (l : Nat) (m : List Byte) (fcs : Bool) (s : State) : KeepsR s (execCancelReceive l m fcs s) := by
  unfold execCancelReceive
  repeat' first
    | with_reducible exact Keeps.refl _ | with_reducible assumption | with_reducible refine KeepsR.next ?_
    | with_reducible refine Keeps.ite ?_ ?_ | with_reducible refine KeepsR.ite ?_ ?_ | with_reducible refine Keeps.ite1 ?_ ?_
    | (apply Keeps.trans
       case k =>
         with_reducible first
           | apply State.emvHear_keeps | apply State.emvDiscard_keeps | apply State.sendDown_keeps | apply State.swapCancel_keeps)
    | with_reducible refine Keeps.of_pair (State.emvHear_keeps ..) (by assumption) ?_
    | split | dsimp only

theorem execCommitDeadline_keeps (s : State) : KeepsR s (execCommitDeadline s) := by
  unfold execCommitDeadline
  repeat' first
    | with_reducible exact Keeps.refl _ | with_reducible assumption | with_reducible refine KeepsR.next ?_
    | with_reducible refine Keeps.ite ?_ ?_ | with_reducible refine KeepsR.ite ?_ ?_
    | (apply Keeps.trans
       case k =>
         with_reducible first
           | apply State.advanceTo_keeps | apply State.wr_keeps | apply State.sendDown_keeps | apply State.swapCancel_keeps
           | apply State.emvAlarm_keeps)
    | split | dsimp only

theorem execCommitCompare_keeps (s : State) : KeepsR s (execCommitCompare s) := by
  unfold execCommitCompare
  repeat' first
    | with_reducible exact Keeps.refl _ | with_reducible assumption | with_reducible refine KeepsR.next ?_
    | with_reducible refine Keeps.ite ?_ ?_ | with_reducible refine KeepsR.ite ?_ ?_
    | (apply Keeps.trans
       case k =>
         with_reducible first
           | apply State.advanceTo_keeps | apply State.wr_keeps | apply State.emvAlarm_keeps)
    | (apply Keeps.trans; case k => with_reducible first | apply State.withEmv_keeps)
    | split | dsimp only

theorem State.reportSwap_keeps (s : State) : Keeps s (State.reportSwap s) := by
  unfold State.reportSwap
  repeat' first
    | with_reducible exact Keeps.refl _ | with_reducible assumption | with_reducible refine Keeps.ite ?_ ?_
    | (apply Keeps.trans; case k => with_reducible first | apply State.sendReply_keeps)
    | (apply Keeps.trans; case k => with_reducible first | apply State.withEmv_keeps)
    | split | dsimp only

theorem execCoatFlip_keeps (s : State) : KeepsR s (execCoatFlip s) := by
  unfold execCoatFlip
  repeat' first
    | with_reducible exact Keeps.refl _ | with_reducible assumption | with_reducible refine KeepsR.next ?_
    | with_reducible refine Keeps.ite ?_ ?_ | with_reducible refine KeepsR.ite ?_ ?_
    | (apply Keeps.trans; case k => with_reducible first | apply State.coatFlip_keeps | apply State.reportSwap_keeps)
    | split | dsimp only

end Sys2Proof.Machine
end

