-- ==== Sys2Proof/Laws/KeepsHostAccess.lean ====
section
/-!
SUPPORT. The operations of host accesses: none touches the queue, spoils the register space, takes back an output or draws a free value again.
-/
namespace Sys2Proof.Machine

theorem State.store_keeps (s : State) (r : Reg) (i w v : Nat) : Keeps s (State.store s r i w v) := by
  unfold State.store
  repeat' first
    | with_reducible exact Keeps.refl _ | with_reducible assumption | with_reducible refine Keeps.ite ?_ ?_
    | (apply Keeps.trans; case k => with_reducible first | apply State.setReg_keeps)
    | split | dsimp only

theorem State.sktWrite_keeps (s : State) (r : Reg) (i w v : Nat) : Keeps s (State.sktWrite s r i w v) := by
  unfold State.sktWrite
  repeat' first
    | with_reducible exact Keeps.refl _ | with_reducible assumption | with_reducible refine Keeps.ite ?_ ?_
    | (apply Keeps.trans
       case k =>
         with_reducible first
           | apply State.wr_keeps | apply State.store_keeps | apply State.sketchUe_keeps)
    | (apply Keeps.trans; case k => with_reducible first | apply State.withBadWords_keeps)
    | split | dsimp only

theorem State.glzWrite_keeps (s : State) (r : Reg) (i w v : Nat) : Keeps s (State.glzWrite s r i w v) := by
  unfold State.glzWrite
  repeat' first
    | with_reducible exact Keeps.refl _ | with_reducible assumption | with_reducible refine Keeps.ite ?_ ?_
    | (apply Keeps.trans; case k => with_reducible first | apply State.wr_keeps | apply State.store_keeps)
    | (apply Keeps.trans; case k => with_reducible first | apply State.withBadWords_keeps)
    | split | dsimp only

theorem State.agentWrite_keeps (s : State) (r : Reg) (a i w v : Nat) : Keeps s (State.agentWrite s r a i w v) := by
  unfold State.agentWrite
  repeat' first
    | with_reducible exact Keeps.refl _ | with_reducible assumption | with_reducible refine Keeps.ite ?_ ?_
    | (apply Keeps.trans
       case k =>
         with_reducible first
           | apply State.wr_keeps | apply State.store_keeps | apply State.agStart_keeps)
    | split | dsimp only

theorem State.pncWrite_keeps (s : State) (r : Reg) (i w v : Nat) : Keeps s (State.pncWrite s r i w v) := by
  unfold State.pncWrite
  repeat' first
    | with_reducible exact Keeps.refl _ | with_reducible assumption | with_reducible refine Keeps.ite ?_ ?_
    | (apply Keeps.trans
       case k =>
         with_reducible first
           | apply State.wr_keeps | apply State.pncSetWord0_keeps | apply State.store_keeps | apply State.pncRewrite_keeps)
    | split | dsimp only

theorem State.loadWrite_keeps (s : State) (w v : Nat) : Keeps s (State.loadWrite s w v) := by
  unfold State.loadWrite
  repeat' first
    | with_reducible exact Keeps.refl _ | with_reducible assumption | with_reducible refine Keeps.ite ?_ ?_
    | (apply Keeps.trans
       case k =>
         with_reducible first
           | apply State.setRegWord_keeps | apply State.putStateWord_keeps | apply State.wr_keeps)
    | split | dsimp only

theorem State.budgetWrite_keeps (s : State) (v : Nat) : Keeps s (State.budgetWrite s v) := by
  unfold State.budgetWrite
  repeat' first
    | with_reducible exact Keeps.refl _ | with_reducible assumption | with_reducible refine Keeps.ite ?_ ?_
    | (apply Keeps.trans
       case k =>
         with_reducible first
           | apply State.settleBudget_keeps | apply State.store_keeps | apply State.wr_keeps)
    | split | dsimp only

theorem State.voqClassWrite_keeps (s : State) (c v : Nat) : Keeps s (State.voqClassWrite s c v) := by
  unfold State.voqClassWrite
  repeat' first
    | with_reducible exact Keeps.refl _ | with_reducible assumption | with_reducible refine Keeps.ite ?_ ?_
    | (apply Keeps.trans; case k => with_reducible first | apply State.store_keeps)
    | (apply Keeps.trans; case k => with_reducible first | apply State.withSched_keeps)
    | split | dsimp only

theorem State.nodeShaperWrite_keeps (s : State) (n w v : Nat) : Keeps s (State.nodeShaperWrite s n w v) := by
  unfold State.nodeShaperWrite
  repeat' first
    | with_reducible exact Keeps.refl _ | with_reducible assumption | with_reducible refine Keeps.ite ?_ ?_
    | (apply Keeps.trans; case k => with_reducible first | apply State.setRegWord_keeps | apply State.setReg_keeps)
    | (apply Keeps.trans; case k => with_reducible first | apply State.withSched_keeps)
    | split | dsimp only

theorem State.accWrite_keeps (s : State) (r : Reg) (i v : Nat) : Keeps s (State.accWrite s r i v) := by
  unfold State.accWrite
  repeat' first
    | with_reducible exact Keeps.refl _ | with_reducible assumption | with_reducible refine Keeps.ite ?_ ?_
    | (apply Keeps.trans
       case k =>
         with_reducible first
           | apply State.wr_keeps | apply State.store_keeps | apply State.accStart_keeps)
    | split | dsimp only

theorem State.ringCfgWrite_keeps (s : State) (k w v : Nat) : Keeps s (State.ringCfgWrite s k w v) := by
  unfold State.ringCfgWrite
  repeat' first
    | with_reducible exact Keeps.refl _ | with_reducible assumption | with_reducible refine Keeps.ite ?_ ?_
    | (apply Keeps.trans
       case k =>
         with_reducible first
           | apply State.hostError_keeps | apply State.setReg_keeps | apply State.ringEnable_keeps
           | apply State.ringDisable_keeps)
    | split | dsimp only

theorem State.anchorWrite_keeps (s : State) (a w v : Nat) : Keeps s (State.anchorWrite s a w v) := by
  unfold State.anchorWrite
  repeat' first
    | with_reducible exact Keeps.refl _ | with_reducible assumption | with_reducible refine Keeps.ite ?_ ?_
    | (apply Keeps.trans; case k => with_reducible first | apply State.wr_keeps | apply State.store_keeps)
    | split | dsimp only

theorem State.ppsWrite_keeps (s : State) (v : Nat) : Keeps s (State.ppsWrite s v) := by
  unfold State.ppsWrite
  repeat' first
    | with_reducible exact Keeps.refl _ | with_reducible assumption | with_reducible refine Keeps.ite ?_ ?_
    | (apply Keeps.trans; case k => with_reducible first | apply State.store_keeps | apply State.ppsSync_keeps)
    | split | dsimp only

theorem State.traceCfgWrite_keeps (s : State) (v : Nat) : Keeps s (State.traceCfgWrite s v) := by
  unfold State.traceCfgWrite
  repeat' first
    | with_reducible exact Keeps.refl _ | with_reducible assumption | with_reducible refine Keeps.ite ?_ ?_
    | (apply Keeps.trans; case k => with_reducible first | apply State.store_keeps | apply State.freeDraw_keeps)
    | with_reducible refine Keeps.foldl ?_ (fun _ _ => ?_)
    | (apply Keeps.trans; case k => with_reducible first | apply State.withTally_keeps)
    | split | dsimp only

theorem State.onuCmdWrite_keeps (s : State) (n v : Nat) : Keeps s (State.onuCmdWrite s n v) := by
  unfold State.onuCmdWrite
  repeat' first
    | with_reducible exact Keeps.refl _ | with_reducible assumption | with_reducible refine Keeps.ite ?_ ?_
    | (apply Keeps.trans
       case k =>
         with_reducible first
           | apply State.wr_keeps | apply State.store_keeps | apply State.onuCmdStart_keeps)
    | split | dsimp only

theorem State.keyRegWrite_keeps (s : State) (r : Reg) (w v : Nat) : Keeps s (State.keyRegWrite s r w v) := by
  unfold State.keyRegWrite
  repeat' first
    | with_reducible exact Keeps.refl _ | with_reducible assumption | with_reducible refine Keeps.ite ?_ ?_
    | (apply Keeps.trans; case k => with_reducible first | apply State.setRegWord_keeps | apply State.keyStart_keeps)
    | split | dsimp only

theorem State.probeWrite_keeps (s : State) (n v : Nat) : Keeps s (State.probeWrite s n v) := by
  unfold State.probeWrite
  repeat' first
    | with_reducible exact Keeps.refl _ | with_reducible assumption | with_reducible refine Keeps.ite ?_ ?_
    | (apply Keeps.trans; case k => with_reducible first | apply State.store_keeps | apply State.probeGo_keeps)
    | split | dsimp only

theorem State.sndisWrite_keeps (s : State) (k w v : Nat) : Keeps s (State.sndisWrite s k w v) := by
  unfold State.sndisWrite
  repeat' first
    | with_reducible exact Keeps.refl _ | with_reducible assumption | with_reducible refine Keeps.ite ?_ ?_
    | (apply Keeps.trans; case k => with_reducible first | apply State.sndisClear_keeps | apply State.store_keeps)
    | split | dsimp only

theorem State.auditWrite_keeps (s : State) (v : Nat) : Keeps s (State.auditWrite s v) := by
  unfold State.auditWrite
  repeat' first
    | with_reducible exact Keeps.refl _ | with_reducible assumption | with_reducible refine Keeps.ite ?_ ?_
    | (apply Keeps.trans
       case k =>
         with_reducible first
           | apply State.store_keeps | apply State.auditSweep_keeps | apply State.showAudit_keeps)
    | (apply Keeps.trans; case k => with_reducible first | apply State.withPalette_keeps)
    | split | dsimp only

theorem State.mboxStart_keeps (s : State) : Keeps s (State.mboxStart s) := by
  unfold State.mboxStart
  repeat' first
    | with_reducible exact Keeps.refl _ | with_reducible assumption | with_reducible refine Keeps.ite ?_ ?_
    | (apply Keeps.trans; case k => with_reducible first | apply State.mboxDone_keeps | apply State.wr_keeps)
    | split | dsimp only

theorem State.mboxWrite_keeps (s : State) (w v : Nat) : Keeps s (State.mboxWrite s w v) := by
  unfold State.mboxWrite
  repeat' first
    | with_reducible exact Keeps.refl _ | with_reducible assumption | with_reducible refine Keeps.ite ?_ ?_
    | (apply Keeps.trans; case k => with_reducible first | apply State.store_keeps | apply State.mboxStart_keeps)
    | split | dsimp only

theorem State.clientCfgWrite_keeps (s : State) (c w v : Nat) : Keeps s (State.clientCfgWrite s c w v) := by
  unfold State.clientCfgWrite
  repeat' first
    | with_reducible exact Keeps.refl _ | with_reducible assumption | with_reducible refine Keeps.ite ?_ ?_
    | (apply Keeps.trans
       case k =>
         with_reducible first
           | apply State.holdCfg_keeps | apply State.store_keeps | apply State.refreshClients_keeps)
    | split | dsimp only

theorem State.writeWord_keeps (s : State) (r : Reg) (i w v : Nat) : Keeps s (State.writeWord s r i w v) := by
  unfold State.writeWord
  repeat' first
    | with_reducible exact Keeps.refl _ | with_reducible assumption | with_reducible refine Keeps.ite ?_ ?_
    | (apply Keeps.trans
       case k =>
         with_reducible first
           | apply State.store_keeps | apply State.portCfgWrite_keeps | apply State.instCfgWrite_keeps
           | apply State.calWrite_keeps | apply State.refreshClients_keeps | apply State.clientCfgWrite_keeps
           | apply State.sktWrite_keeps | apply State.wr_keeps | apply State.glzWrite_keeps | apply State.swapNow_keeps
           | apply State.swapArm_keeps | apply State.swapCancel_keeps | apply State.descWord0_keeps
           | apply State.bankWidthWrite_keeps | apply State.agentWrite_keeps | apply State.pncWrite_keeps
           | apply State.loadWrite_keeps | apply State.budgetWrite_keeps | apply State.auditWrite_keeps
           | apply State.swStart_keeps | apply State.accWrite_keeps | apply State.voqClassWrite_keeps
           | apply State.nodeCfgWrite_keeps | apply State.nodeShaperWrite_keeps | apply State.tempWrite_keeps
           | apply State.freqGo_keeps | apply State.showErrLog_keeps | apply State.laneEnWrite_keeps
           | apply State.treeCfgWrite_keeps | apply State.optCfgWrite_keeps | apply State.onuCmdWrite_keeps
           | apply State.sndisWrite_keeps | apply State.onuWrite_keeps | apply State.profileWrite_keeps
           | apply State.probeWrite_keeps | apply State.keyRegWrite_keeps | apply State.allocWrite_keeps
           | apply State.gemWrite_keeps | apply State.anchorWrite_keeps | apply State.anchorArm_keeps
           | apply State.anchorCancel_keeps | apply State.txtsPop_keeps | apply State.ppsWrite_keeps
           | apply State.evcMaskWrite_keeps | apply State.evcPendingWrite_keeps | apply State.rescan_keeps
           | apply State.evcComplete_keeps | apply State.ringCfgWrite_keeps | apply State.cntAccess_keeps
           | apply State.freezeCmd_keeps | apply State.traceCfgWrite_keeps | apply State.resetRegs_keeps
           | apply State.mboxWrite_keeps | apply State.emvRevert_keeps | apply State.mapRemove_keeps | apply State.commitGo_keeps)
    | (apply Keeps.trans; case k => with_reducible first | apply State.withDram_keeps)
    | split | dsimp only

theorem State.readClear_keeps (s : State) (r : Reg) (i w m : Nat) : Keeps s (State.readClear s r i w m) := by
  unfold State.readClear
  repeat' first
    | with_reducible exact Keeps.refl _ | with_reducible assumption | with_reducible refine Keeps.ite ?_ ?_
    | (apply Keeps.trans; case k => with_reducible first | apply State.wr_keeps | apply State.setReg_keeps)
    | (apply Keeps.trans; case k => with_reducible first | apply State.withTally_keeps)
    | split | dsimp only

theorem State.readWord_keeps (s : State) (r : Reg) (i w a m : Nat) : Keeps s (State.readWord s r i w a m).1 := by
  unfold State.readWord
  repeat' first
    | with_reducible exact Keeps.refl _ | with_reducible assumption | with_reducible refine Keeps.ite ?_ ?_
    | with_reducible refine Keeps.ite1 ?_ ?_
    | (apply Keeps.trans; case k => with_reducible first | apply State.readClear_keeps)
    | (apply Keeps.trans; case k => with_reducible first | apply State.withHost_keeps)
    | split | dsimp only

theorem State.read32_keeps (s : State) (a : Nat) : Keeps s (State.read32 s a).1 := by
  unfold State.read32
  repeat' first
    | with_reducible exact Keeps.refl _ | with_reducible assumption | with_reducible refine Keeps.ite ?_ ?_
    | with_reducible refine Keeps.ite1 ?_ ?_
    | (apply Keeps.trans; case k => with_reducible first | apply State.readWord_keeps)
    | with_reducible refine Keeps.of_pair (State.readWord_keeps ..) (by assumption) ?_
    | (apply Keeps.trans; case k => with_reducible first | apply State.withHost_keeps)
    | split | dsimp only

theorem State.readHalves_keeps (s : State) (a : Nat) : Keeps s (s.readHalves a).1 := by
  have h : ∀ p q : State × Nat, Keeps s q.1 → Keeps s (q.1, p.2 + q.2 * 2 ^ 32).1 := fun _ _ h => h
  exact h (s.read32 a) ((s.read32 a).1.read32 (a + 4))
    ((State.read32_keeps s a).trans (State.read32_keeps (s.read32 a).1 (a + 4)))

theorem State.read64_keeps (s : State) (a : Nat) : Keeps s (s.read64 a).1 := by
  unfold State.read64
  refine Keeps.ite1 (State.readHalves_keeps s a) ?_
  split
  · exact Keeps.ite1 (State.readHalves_keeps s a) (State.readWord_keeps ..)
  · exact State.readHalves_keeps s a

theorem State.busyWrite_keeps {s t : State} {r : Reg} {i : Nat} (h : s.busyWrite r i = some t) : Keeps s t := by
  have hw (c : Bool) (u : State) (hu : Keeps s u) (h : (if c then some u else none) = some t) : Keeps s t := by
    cases c
    · exact absurd h (by simp)
    · exact Option.some.inj h ▸ hu
  unfold State.busyWrite at h
  dsimp only at h
  split at h
  all_goals first
    | exact hw _ _ (Keeps.refl s) h
    | exact hw _ _ (State.wr_keeps ..) h
    | exact absurd h (by simp)

theorem State.write32_keeps (s : State) (a v : Nat) : Keeps s (State.write32 s a v) := by
  unfold State.write32
  repeat' first
    | with_reducible exact Keeps.refl _ | with_reducible assumption | with_reducible refine Keeps.ite ?_ ?_
    | (apply Keeps.trans; case k => with_reducible first | apply State.setMsixWord_keeps | apply State.writeWord_keeps)
    | with_reducible refine Keeps.trans ?_ (State.busyWrite_keeps (by assumption))
    | (apply Keeps.trans; case k => with_reducible first | apply State.withEasel_keeps | apply State.withHost_keeps)
    | split | dsimp only

theorem State.write64_keeps (s : State) (a v : Nat) : Keeps s (State.write64 s a v) := by
  unfold State.write64
  repeat' first
    | with_reducible exact Keeps.refl _ | with_reducible assumption | with_reducible refine Keeps.ite ?_ ?_
    | (apply Keeps.trans; case k => with_reducible first | apply State.write32_keeps | apply State.writeWord_keeps)
    | (apply Keeps.trans; case k => with_reducible first | apply State.withHost_keeps)
    | split | dsimp only

theorem State.cfgWrite_keeps (s : State) (addr v : Nat) : Keeps s (State.cfgWrite s addr v) := by
  unfold State.cfgWrite
  repeat' first
    | with_reducible exact Keeps.refl _ | with_reducible assumption | with_reducible refine Keeps.ite ?_ ?_
    | (apply Keeps.trans; case k => with_reducible first | apply State.sendAll_keeps)
    | (apply Keeps.trans; case k => with_reducible first | apply State.withHost_keeps)
    | split | dsimp only

theorem State.hostWrite_keeps (s : State) (space addr width v : Nat) : Keeps s (State.hostWrite s space addr width v) := by
  unfold State.hostWrite
  repeat' first
    | with_reducible exact Keeps.refl _ | with_reducible assumption | with_reducible refine Keeps.ite ?_ ?_
    | (apply Keeps.trans
       case k =>
         with_reducible first
           | apply State.cfgWrite_keeps | apply State.hostError_keeps | apply State.doorbell_keeps | apply State.write64_keeps
           | apply State.write32_keeps)
    | split | dsimp only

theorem State.hostRead_keeps (s : State) (space addr width : Nat) : Keeps s (State.hostRead s space addr width).1 := by
  unfold State.hostRead
  repeat' first
    | with_reducible exact Keeps.refl _ | with_reducible assumption | with_reducible refine Keeps.ite ?_ ?_
    | with_reducible refine Keeps.ite1 ?_ ?_
    | (apply Keeps.trans
       case k =>
         with_reducible first
           | apply State.hostError_keeps | apply State.read64_keeps | apply State.read32_keeps)
    | with_reducible refine Keeps.of_pair (State.read64_keeps ..) (by assumption) ?_
    | with_reducible refine Keeps.of_pair (State.read32_keeps ..) (by assumption) ?_
    | split | dsimp only

theorem State.reads_keeps (s : State) (space addr width : Nat) : Keeps s (State.reads s space addr width) := by
  unfold State.reads
  repeat' first
    | with_reducible exact Keeps.refl _ | with_reducible assumption | with_reducible refine Keeps.ite ?_ ?_
    | with_reducible refine Keeps.ite1 ?_ ?_
    | (apply Keeps.trans; case k => with_reducible first | apply State.hostRead_keeps)
    | with_reducible refine Keeps.of_pair (State.hostRead_keeps ..) (by assumption) ?_
    | (apply Keeps.trans; case k => with_reducible first | apply State.withHost_keeps)
    | split | dsimp only

theorem execRegisterWrite_keeps (space addr width data : Nat) (s : State) :
    KeepsR s (execRegisterWrite space addr width data s) := by
  unfold execRegisterWrite
  repeat' first
    | with_reducible exact Keeps.refl _ | with_reducible assumption | with_reducible refine KeepsR.next ?_
    | with_reducible refine Keeps.ite ?_ ?_ | with_reducible refine KeepsR.ite ?_ ?_
    | (apply Keeps.trans; case k => with_reducible first | apply State.hostWrite_keeps)
    | split | dsimp only

theorem execBadRegisterAccess_keeps (write : Bool) (space addr width data : Nat) (s : State) :
    KeepsR s (execBadRegisterAccess write space addr width data s) := by
  unfold execBadRegisterAccess
  repeat' first
    | with_reducible exact Keeps.refl _ | with_reducible assumption | with_reducible refine KeepsR.next ?_
    | with_reducible refine Keeps.ite ?_ ?_ | with_reducible refine KeepsR.ite ?_ ?_
    | (apply Keeps.trans; case k => with_reducible first | apply State.hostWrite_keeps | apply State.reads_keeps)
    | split | dsimp only

theorem execRead64LowWord_keeps (addr : Nat) (s : State) : KeepsR s (execRead64LowWord addr s) := by
  unfold execRead64LowWord
  repeat' first
    | with_reducible exact Keeps.refl _ | with_reducible assumption | with_reducible refine KeepsR.next ?_
    | with_reducible refine Keeps.ite ?_ ?_ | with_reducible refine KeepsR.ite ?_ ?_
    | (apply Keeps.trans; case k => with_reducible first | apply State.reads_keeps)
    | split | dsimp only

theorem execWrite64LowWord_keeps (addr data : Nat) (s : State) : KeepsR s (execWrite64LowWord addr data s) := by
  unfold execWrite64LowWord
  repeat' first
    | with_reducible exact Keeps.refl _ | with_reducible assumption | with_reducible refine KeepsR.next ?_
    | with_reducible refine Keeps.ite ?_ ?_ | with_reducible refine KeepsR.ite ?_ ?_
    | (apply Keeps.trans; case k => with_reducible first | apply State.hostWrite_keeps)
    | split | dsimp only

theorem execReadClearField_keeps (space addr width : Nat) (s : State) : KeepsR s (execReadClearField space addr width s) := by
  unfold execReadClearField
  repeat' first
    | with_reducible exact Keeps.refl _ | with_reducible assumption | with_reducible refine KeepsR.next ?_
    | with_reducible refine Keeps.ite ?_ ?_ | with_reducible refine KeepsR.ite ?_ ?_
    | (apply Keeps.trans; case k => with_reducible first | apply State.reads_keeps)
    | split | dsimp only

theorem execLatchingRead_keeps (addr width : Nat) (s : State) : KeepsR s (execLatchingRead addr width s) := by
  unfold execLatchingRead
  repeat' first
    | with_reducible exact Keeps.refl _ | with_reducible assumption | with_reducible refine KeepsR.next ?_
    | with_reducible refine Keeps.ite ?_ ?_ | with_reducible refine KeepsR.ite ?_ ?_
    | (apply Keeps.trans; case k => with_reducible first | apply State.reads_keeps)
    | split | dsimp only

end Sys2Proof.Machine
end

