-- ==== Sys2Proof/Laws/KeepsImage.lean ====
section
/-!
SUPPORT. The operations of the Ground image: none touches the queue, spoils the register space, takes back an output or draws a free value again.
-/
namespace Sys2Proof.Machine

theorem State.setFlash_keeps (s : State) (m : Sparse Byte) : Keeps s (State.setFlash s m) := by
  unfold State.setFlash
  repeat' first
    | with_reducible exact Keeps.refl _ | with_reducible assumption | with_reducible refine Keeps.ite ?_ ?_
    | (apply Keeps.trans; case k => with_reducible first | apply State.withEasel_keeps)
    | split | dsimp only

theorem State.flashSpoil_keeps (s : State) (a n : Nat) : Keeps s (State.flashSpoil s a n) := by
  unfold State.flashSpoil
  repeat' first
    | with_reducible exact Keeps.refl _ | with_reducible assumption | with_reducible refine Keeps.ite ?_ ?_
    | (apply Keeps.trans; case k => with_reducible first | apply State.setFlash_keeps | apply State.freeDraws_keeps)
    | split | dsimp only

theorem State.writeBoot_keeps (s : State) (primary : Nat) (trial tried : Bool) :
    Keeps s (State.writeBoot s primary trial tried) := by
  unfold State.writeBoot
  repeat' first
    | with_reducible exact Keeps.refl _ | with_reducible assumption | with_reducible refine Keeps.ite ?_ ?_
    | (apply Keeps.trans; case k => with_reducible first | apply State.setFlash_keeps)
    | split | dsimp only

theorem State.logWrite_keeps (s : State) : Keeps s (State.logWrite s) := by
  unfold State.logWrite
  repeat' first
    | with_reducible exact Keeps.refl _ | with_reducible assumption | with_reducible refine Keeps.ite ?_ ?_
    | (apply Keeps.trans; case k => with_reducible first | apply State.setFlash_keeps)
    | (apply Keeps.trans; case k => with_reducible first | apply State.withEasel_keeps)
    | split | dsimp only

theorem State.otpCommand_keeps (s : State) : Keeps s (State.otpCommand s).1 := by
  unfold State.otpCommand
  repeat' first
    | with_reducible exact Keeps.refl _ | with_reducible assumption | with_reducible refine Keeps.ite ?_ ?_
    | with_reducible refine Keeps.ite1 ?_ ?_
    | (apply Keeps.trans; case k => with_reducible first | apply State.wr_keeps | apply State.raiseTo_keeps)
    | (apply Keeps.trans; case k => with_reducible first | apply State.withEasel_keeps)
    | split | dsimp only

end Sys2Proof.Machine
end

