-- ==== Sys2Proof/Laws/KeepsStart.lean ====
section
/-!
SUPPORT. The operations of the starts: none touches the queue, spoils the register space, takes back an output or draws a free value again.
-/
namespace Sys2Proof.Machine

theorem State.abortMailbox_keeps (s : State) : Keeps s (State.abortMailbox s).1 := by
  unfold State.abortMailbox
  repeat' first
    | with_reducible exact Keeps.refl _ | with_reducible assumption | with_reducible refine Keeps.ite ?_ ?_
    | with_reducible refine Keeps.ite1 ?_ ?_
    | (apply Keeps.trans; case k => with_reducible first | apply State.otpCommand_keeps | apply State.flashSpoil_keeps)
    | with_reducible refine Keeps.of_pair (State.otpCommand_keeps ..) (by assumption) ?_
    | (apply Keeps.trans; case k => with_reducible first | apply State.withEasel_keeps)
    | split | dsimp only

theorem State.coldReset_keeps (s : State) : Keeps s s.coldReset := by
  have h := State.abortMailbox_keeps s
  refine h.trans ⟨rfl, fun hr => Sparse.filter_wfFrom regsReset _ _ 0 hr, ⟨[], (List.append_nil _).symm⟩, Nat.le_refl _⟩

theorem State.applyDevice_keeps (s : State) (d : List Byte) : Keeps s (State.applyDevice s d) := by
  unfold State.applyDevice
  repeat' first
    | with_reducible exact Keeps.refl _ | with_reducible assumption | with_reducible refine Keeps.ite ?_ ?_
    | (apply Keeps.trans; case k => with_reducible first | apply State.wr_keeps | apply State.wrBit_keeps)
    | with_reducible refine Keeps.foldl ?_ (fun _ _ => ?_)
    | (apply Keeps.trans; case k => with_reducible first | apply State.withTally_keeps | apply State.withEasel_keeps)
    | split | dsimp only

theorem State.applySystem_keeps (s : State) (y : List Byte) : Keeps s (State.applySystem s y) := by
  unfold State.applySystem
  repeat' first
    | with_reducible exact Keeps.refl _ | with_reducible assumption | with_reducible refine Keeps.ite ?_ ?_
    | (apply Keeps.trans; case k => with_reducible first | apply State.wr_keeps)
    | (apply Keeps.trans; case k => with_reducible first | apply State.withEmv_keeps)
    | split | dsimp only

theorem State.startWarn_keeps (s : State) : Keeps s (State.startWarn s) := by
  unfold State.startWarn
  repeat' first
    | with_reducible exact Keeps.refl _ | with_reducible assumption | with_reducible refine Keeps.ite ?_ ?_
    | (apply Keeps.trans; case k => with_reducible first | apply State.wr_keeps | apply State.logWrite_keeps)
    | split | dsimp only

theorem State.easelWrite_keeps (s : State) (a v : Nat) : Keeps s (State.easelWrite s a v) := by
  unfold State.easelWrite
  repeat' first
    | with_reducible exact Keeps.refl _ | with_reducible assumption | with_reducible refine Keeps.ite ?_ ?_
    | (apply Keeps.trans; case k => with_reducible first | apply State.write32_keeps | apply State.hostError_keeps)
    | split | dsimp only

theorem after_keeps (r : Result) (s : State) (h : KeepsR s r) : Keeps s (after r s) := by
  obtain ⟨t, rfl, ht⟩ := h
  exact ht

theorem State.runAgent_keeps (s : State) (a : Nat) : Keeps s (s.runAgent a) := by
  unfold State.runAgent
  split
  · exact after_keeps _ _ (execAgentRead_keeps _ _)
  · exact after_keeps _ _ (execAgentWrite_keeps _ _)
  · exact after_keeps _ _ (execAgentInsert_keeps _ _)
  · exact after_keeps _ _ (execAgentDelete_keeps _ _)
  · exact after_keeps _ _ (execAgentSearch_keeps _ _)
  · exact after_keeps _ _ (execAgentMove_keeps _ _)
  · exact Keeps.refl s

theorem State.runAcc_keeps (s : State) : Keeps s s.runAcc := by
  unfold State.runAcc
  split
  · exact after_keeps _ _ (execAccRead_keeps _)
  · exact after_keeps _ _ (execAccWrite_keeps _)
  · have h := after_keeps _ s (execAccFlush_keeps s)
    exact Keeps.ite (h.trans (after_keeps _ _ (execQueueFlushComplete_keeps _ _))) h
  · exact Keeps.refl s

theorem State.runSw_keeps (s : State) : Keeps s s.runSw := by
  unfold State.runSw
  split
  · exact after_keeps _ _ (execSwAlloc_keeps _)
  · exact after_keeps _ _ (execSwFree_keeps _)
  · exact after_keeps _ _ (execSwRead_keeps _)
  · exact after_keeps _ _ (execSwRetire_keeps _)
  · exact after_keeps _ _ (execSwUnretire_keeps _)
  · exact Keeps.refl s

theorem State.settleWrite_keeps (s : State) : Keeps s (State.settleWrite s) := by
  unfold State.settleWrite
  repeat' first
    | with_reducible exact Keeps.refl _ | with_reducible assumption | with_reducible refine Keeps.ite ?_ ?_
    | (apply Keeps.trans
       case k =>
         with_reducible first
           | apply State.runAcc_keeps | apply State.runSw_keeps | apply State.runAgent_keeps)
    | with_reducible refine Keeps.foldl ?_ (fun _ _ => ?_)
    | split | dsimp only

theorem State.easelWrites_keeps (s : State) (a n : Nat) (b : List Byte) : Keeps s (s.easelWrites a n b) := by
  induction n generalizing s a b with
  | zero => exact Keeps.refl s
  | succ n ih =>
    unfold State.easelWrites
    exact Keeps.ite (Keeps.refl s) (((State.easelWrite_keeps ..).trans (State.settleWrite_keeps ..)).trans (ih _ _ _))

theorem State.regRecords_keeps (s : State) (n : Nat) (b : List Byte) : Keeps s (s.regRecords n b) := by
  induction n generalizing s b with
  | zero => exact Keeps.refl s
  | succ n ih =>
    unfold State.regRecords
    exact Keeps.ite (Keeps.refl s) ((State.easelWrites_keeps _ _ _ _).trans (ih _ _))

theorem State.applyRegs_keeps (s : State) (b : List Byte) : Keeps s (s.applyRegs b) := by
  unfold State.applyRegs
  exact Keeps.ite ((State.regRecords_keeps _ _ _).trans (State.startWarn_keeps _)) (State.regRecords_keeps _ _ _)

theorem State.putImage_keeps (s : State) (a n : Nat) (b : List Byte) : Keeps s (s.putImage a n b) := by
  induction n generalizing s a b with
  | zero => exact Keeps.refl s
  | succ n ih =>
    unfold State.putImage
    refine Keeps.ite (Keeps.refl s) ?_
    split
    · exact ih _ _ _
    · rename_i r i o _
      refine Keeps.trans ?_ (ih _ _ _)
      have h1 := State.store_keeps s r i (o / (r.unit / 8)) (natLE (b.take (r.unit / 8)))
      dsimp only
      split
      · exact h1.trans (State.withBadWords_keeps _ _)
      · exact h1.trans (State.withBadWords_keeps _ _)
      · exact h1.trans (State.pncRewrite_keeps _ _)
      · exact h1.trans (State.pncRewrite_keeps _ _)
      · exact h1

theorem State.coatEntry_keeps {s t : State} {guard bank : Bool} {mem i : Nat} {b : List Byte}
    (h : s.coatEntry guard bank mem i b = some t) : Keeps s t := by
  unfold State.coatEntry at h
  split at h
  · split at h
    · cases h
    · cases h; exact State.putStateWord_keeps _ _ _
  · dsimp only at h
    split at h
    · cases h
    · cases h; exact (State.putImage_keeps _ _ _ _).trans (State.descWord0_keeps _ _ _)
  · dsimp only at h
    split at h
    · cases h
    · cases h; exact (State.putImage_keeps _ _ _ _).trans (State.pncSetWord0_keeps _ _ _)
  · split at h
    · cases h
    · split at h
      · cases h
      · cases h; exact State.putImage_keeps _ _ _ _

theorem State.coatEntries_keeps (s : State) (guard bank : Bool) (mem i n : Nat) (b : List Byte) :
    Keeps s (s.coatEntries guard bank mem i n b).1 := by
  induction n generalizing s i b with
  | zero => exact Keeps.refl s
  | succ n ih =>
    unfold State.coatEntries
    split
    · exact Keeps.ite (State.wr_keeps _ _ _ _) (Keeps.refl s)
    · exact (State.coatEntry_keeps (by assumption)).trans (ih _ _ _)

theorem State.coatRecords_keeps (s : State) (guard bank : Bool) (n : Nat) (b : List Byte) :
    Keeps s (s.coatRecords guard bank n b).1 := by
  induction n generalizing s b with
  | zero => exact Keeps.refl s
  | succ n ih =>
    unfold State.coatRecords
    split
    · exact Keeps.refl s
    · dsimp only
      split
      · exact (State.coatEntries_keeps ..).trans (ih _ _)
      · exact State.coatEntries_keeps ..

theorem State.drawSeed_keeps (f : Fld) (s : State) (t : Nat) : Keeps s (State.drawSeed f s t) := by
  unfold State.drawSeed
  repeat' first
    | with_reducible exact Keeps.refl _ | with_reducible assumption | with_reducible refine Keeps.ite ?_ ?_
    | (apply Keeps.trans; case k => with_reducible first | apply State.wr_keeps | apply State.freeDraw_keeps)
    | split | dsimp only

theorem State.drawSeeds_keeps (s : State) : Keeps s (State.drawSeeds s) := by
  unfold State.drawSeeds
  repeat' first
    | with_reducible exact Keeps.refl _ | with_reducible assumption | with_reducible refine Keeps.ite ?_ ?_
    | (apply Keeps.trans; case k => with_reducible first | apply State.drawSeed_keeps)
    | with_reducible refine Keeps.foldl ?_ (fun _ _ => ?_)
    | split | dsimp only

theorem State.applyCoat_keeps (s : State) (b : List Byte) : Keeps s (s.applyCoat b) := by
  unfold State.applyCoat
  exact (Keeps.ite (State.coatRecords_keeps ..) ((State.coatRecords_keeps ..).trans (State.startWarn_keeps _))).trans
    (State.drawSeeds_keeps _)

theorem State.applyTables_keeps (s : State) (n : Nat) (b : List Byte) : Keeps s (s.applyTables n b) := by
  induction n generalizing s b with
  | zero => exact Keeps.refl s
  | succ n ih =>
    unfold State.applyTables
    refine Keeps.ite (Keeps.refl s) (Keeps.trans ?_ (ih _ _))
    have h2 : ∀ (u : State) (g : Nat → BitVec 320), Keeps u ((List.range 32).foldl (fun s j => s.setReg .TBL_AG_DATA j (g j)) u) :=
      fun u g => Keeps.foldl (Keeps.refl u) (fun _ _ => State.setReg_keeps _ _ _ _)
    have h3 := (((State.store_keeps s .TBL_AG_META 0 0 (natLE ((b.drop 8).take 8))).trans
      (State.setReg_keeps _ .TBL_AG_KEY 0 (BitVec.ofNat 320 (natLE ((b.drop 16).take 40))))).trans
      (State.setReg_keeps _ .TBL_AG_MASK 0 (BitVec.ofNat 320 (natLE ((b.drop 56).take 40))))).trans
      (h2 _ (fun j => BitVec.ofNat 320 (natLE ((b.drop (96 + 8 * j)).take 8))))
    have h4 := ((h3.trans (State.store_keeps _ .TBL_AG_CMD 0 0 (natLE ((b.drop 0).take 8)))).trans (State.agStart_keeps _ 0)).trans
      (State.runAgent_keeps _ 0)
    exact Keeps.ite (h4.trans (State.startWarn_keeps _)) h4

theorem State.applyUcode_keeps (s : State) (k : Nat) : Keeps s (State.applyUcode s k) := by
  unfold State.applyUcode
  repeat' first
    | with_reducible exact Keeps.refl _ | with_reducible assumption | with_reducible refine Keeps.ite ?_ ?_
    | (apply Keeps.trans; case k => with_reducible first | apply State.withEasel_keeps)
    | split | dsimp only

theorem State.takeMarks_keeps (s : State) : Keeps s (State.takeMarks s) := by
  unfold State.takeMarks
  repeat' first
    | with_reducible exact Keeps.refl _ | with_reducible assumption | with_reducible refine Keeps.ite ?_ ?_
    | (apply Keeps.trans
       case k =>
         with_reducible first
           | apply State.showRetired_keeps | apply State.setPersist_keeps | apply State.wr_keeps)
    | with_reducible refine Keeps.foldl ?_ (fun _ _ => ?_)
    | split | dsimp only

theorem State.palStart_keeps (s : State) (cold : Bool) : Keeps s (State.palStart s cold) := by
  unfold State.palStart
  repeat' first
    | with_reducible exact Keeps.refl _ | with_reducible assumption | with_reducible refine Keeps.ite ?_ ?_
    | (apply Keeps.trans
       case k =>
         with_reducible first
           | apply State.takeMarks_keeps | apply State.buildStripes_keeps | apply State.wr_keeps | apply State.buildChains_keeps
           | apply State.headRefill_keeps | apply State.pushDram_keeps | apply State.showAudit_keeps)
    | with_reducible refine Keeps.foldl ?_ (fun _ _ => ?_)
    | (apply Keeps.trans; case k => with_reducible first | apply State.withPalette_keeps)
    | split | dsimp only

theorem State.restorePersist_keeps (s : State) : Keeps s (State.restorePersist s) := by
  unfold State.restorePersist
  repeat' first
    | with_reducible exact Keeps.refl _ | with_reducible assumption | with_reducible refine Keeps.ite ?_ ?_
    | (apply Keeps.trans; case k => with_reducible first | apply State.wr_keeps)
    | (apply Keeps.trans; case k => with_reducible first | apply State.withEasel_keeps)
    | split | dsimp only

theorem State.nextEpoch_keeps (s : State) : Keeps s (State.nextEpoch s) := by
  unfold State.nextEpoch
  repeat' first
    | with_reducible exact Keeps.refl _ | with_reducible assumption | with_reducible refine Keeps.ite ?_ ?_
    | (apply Keeps.trans; case k => with_reducible first | apply State.setPersist_keeps | apply State.wr_keeps)
    | (apply Keeps.trans; case k => with_reducible first | apply State.withFab_keeps)
    | split | dsimp only

theorem State.drawKey_keeps (s : State) : Keeps s (State.drawKey s) := by
  unfold State.drawKey
  repeat' first
    | with_reducible exact Keeps.refl _ | with_reducible assumption | with_reducible refine Keeps.ite ?_ ?_
    | (apply Keeps.trans; case k => with_reducible first | apply State.freeDraw_keeps)
    | (apply Keeps.trans; case k => with_reducible first | apply State.withTables_keeps)
    | split | dsimp only

theorem State.parkChannels_keeps (s : State) : Keeps s (State.parkChannels s) := by
  unfold State.parkChannels
  repeat' first
    | with_reducible exact Keeps.refl _ | with_reducible assumption | with_reducible refine Keeps.ite ?_ ?_
    | (apply Keeps.trans; case k => with_reducible first | apply State.emit_keeps)
    | with_reducible refine Keeps.foldl ?_ (fun _ _ => ?_)
    | split | dsimp only

theorem State.seamStart_keeps (s : State) (failFwd failTrf : Nat) : Keeps s (State.seamStart s failFwd failTrf).1 := by
  unfold State.seamStart
  repeat' first
    | with_reducible exact Keeps.refl _ | with_reducible assumption | with_reducible refine Keeps.ite ?_ ?_
    | with_reducible refine Keeps.ite1 ?_ ?_
    | (apply Keeps.trans; case k => with_reducible first | apply State.setCause_keeps | apply State.wr_keeps)
    | split | dsimp only

theorem State.managerStart_keeps (s : State) (peerActing : Bool) : Keeps s (State.managerStart s peerActing) := by
  unfold State.managerStart
  repeat' first
    | with_reducible exact Keeps.refl _ | with_reducible assumption | with_reducible refine Keeps.ite ?_ ?_
    | (apply Keeps.trans; case k => with_reducible first | apply State.wr_keeps | apply State.incWrap_keeps)
    | (apply Keeps.trans; case k => with_reducible first | apply State.withEmv_keeps)
    | split | dsimp only

theorem State.becomeReady_keeps (s : State) (took : Nat) (peerActing : Bool) : Keeps s (State.becomeReady s took peerActing) := by
  unfold State.becomeReady
  repeat' first
    | with_reducible exact Keeps.refl _ | with_reducible assumption | with_reducible refine Keeps.ite ?_ ?_
    | (apply Keeps.trans
       case k =>
         with_reducible first
           | apply State.wr_keeps | apply State.managerStart_keeps | apply State.raise_keeps)
    | (apply Keeps.trans
       case k =>
         with_reducible first
           | apply State.withPace_keeps | apply State.withEasel_keeps | apply State.withFab_keeps | apply State.withEmv_keeps)
    | split | dsimp only

theorem State.runImage_keeps (s : State) (k : Nat) : Keeps s (State.runImage s k) := by
  unfold State.runImage
  repeat' first
    | with_reducible exact Keeps.refl _ | with_reducible assumption | with_reducible refine Keeps.ite ?_ ?_
    | (apply Keeps.trans; case k => with_reducible first | apply State.wr_keeps | apply State.wrBit_keeps)
    | (apply Keeps.trans; case k => with_reducible first | apply State.withEasel_keeps)
    | split | dsimp only

theorem State.startFrom_keeps (s : State) (k failFwd failTrf : Nat) (failed : List Nat) (took : Nat) (peerActing : Bool) :
    Keeps s (State.startFrom s k failFwd failTrf failed took peerActing) := by
  unfold State.startFrom
  repeat' first
    | with_reducible exact Keeps.refl _ | with_reducible assumption | with_reducible refine Keeps.ite ?_ ?_
    | with_reducible refine Keeps.ite1 ?_ ?_
    | (apply Keeps.trans
       case k =>
         with_reducible first
           | apply State.runImage_keeps | apply State.applyDevice_keeps | apply State.applySystem_keeps
           | apply State.seamStart_keeps | apply State.showRails_keeps | apply State.advanceTo_keeps | apply State.drawKey_keeps
           | apply State.nextEpoch_keeps | apply State.restorePersist_keeps | apply State.setPersist_keeps
           | apply State.parkChannels_keeps | apply State.fullTraining_keeps | apply State.applyRegs_keeps
           | apply State.applyCoat_keeps | apply State.applyUcode_keeps | apply State.palStart_keeps
           | apply State.applyTables_keeps | apply State.becomeReady_keeps)
    | with_reducible refine Keeps.of_pair (State.seamStart_keeps ..) (by assumption) ?_
    | with_reducible refine Keeps.foldl ?_ (fun _ _ => ?_)
    | (apply Keeps.trans; case k => with_reducible first | apply State.withEasel_keeps)
    | split | dsimp only

theorem State.bootSelect_keeps (s : State) : Keeps s (State.bootSelect s).1 := by
  unfold State.bootSelect
  repeat' first
    | with_reducible exact Keeps.refl _ | with_reducible assumption | with_reducible refine Keeps.ite ?_ ?_
    | with_reducible refine Keeps.ite1 ?_ ?_
    | (apply Keeps.trans; case k => with_reducible first | apply State.writeBoot_keeps | apply State.setCause_keeps)
    | split | dsimp only

theorem State.slotFailed_keeps (s : State) (k reason : Nat) : Keeps s (State.slotFailed s k reason) := by
  unfold State.slotFailed
  repeat' first
    | with_reducible exact Keeps.refl _ | with_reducible assumption | with_reducible refine Keeps.ite ?_ ?_
    | (apply Keeps.trans; case k => with_reducible first | apply State.wr_keeps)
    | split | dsimp only

theorem State.startSlots_keeps (s : State) (k failFwd failTrf : Nat) (failed : List Nat) (took : Nat) (peerActing : Bool) :
    Keeps s (State.startSlots s k failFwd failTrf failed took peerActing) := by
  unfold State.startSlots
  repeat' first
    | with_reducible exact Keeps.refl _ | with_reducible assumption | with_reducible refine Keeps.ite ?_ ?_
    | (apply Keeps.trans
       case k =>
         with_reducible first
           | apply State.startFrom_keeps | apply State.slotFailed_keeps | apply State.wr_keeps | apply State.advanceTo_keeps)
    | split | dsimp only

theorem State.coldStart_keeps (s : State) (failFwd failTrf : Nat) (failed : List Nat) (flashOk peerActing : Bool) (took : Nat) :
    Keeps s (State.coldStart s failFwd failTrf failed flashOk peerActing took) := by
  unfold State.coldStart
  repeat' first
    | with_reducible exact Keeps.refl _ | with_reducible assumption | with_reducible refine Keeps.ite ?_ ?_
    | with_reducible refine Keeps.ite1 ?_ ?_
    | (apply Keeps.trans
       case k =>
         with_reducible first
           | apply State.coldReset_keeps | apply State.logWrite_keeps | apply State.wrBit_keeps | apply State.slotFailed_keeps
           | apply State.wr_keeps | apply State.advanceTo_keeps | apply State.bootSelect_keeps | apply State.startSlots_keeps)
    | with_reducible refine Keeps.of_pair (State.bootSelect_keeps ..) (by assumption) ?_
    | (apply Keeps.trans; case k => with_reducible first | apply State.withPower_keeps)
    | split | dsimp only

theorem execColdStart_keeps (failFwd failTrf : Nat) (failed : List Nat) (flashOk peerActing : Bool) (took : Nat) (s : State) :
    KeepsR s (execColdStart failFwd failTrf failed flashOk peerActing took s) := by
  unfold execColdStart
  repeat' first
    | with_reducible exact Keeps.refl _ | with_reducible assumption | with_reducible refine KeepsR.next ?_
    | with_reducible refine Keeps.ite ?_ ?_ | with_reducible refine KeepsR.ite ?_ ?_
    | (apply Keeps.trans; case k => with_reducible first | apply State.coldStart_keeps)
    | split | dsimp only

theorem State.nodesWarm_keeps (s : State) : Keeps s (State.nodesWarm s) := by
  unfold State.nodesWarm
  repeat' first
    | with_reducible exact Keeps.refl _ | with_reducible assumption | with_reducible refine Keeps.ite ?_ ?_
    | (apply Keeps.trans; case k => with_reducible first | apply State.wrBit_keeps | apply State.setNodeState_keeps)
    | with_reducible refine Keeps.foldl ?_ (fun _ _ => ?_)
    | split | dsimp only

theorem State.palWarm_keeps (s : State) : Keeps s s.palWarm := by
  unfold State.palWarm
  exact Keeps.foldl ((State.withPalette_keeps ..).trans (State.pushBack_keeps ..)) (fun _ _ =>
    Keeps.ite (State.emit_keeps ..) (Keeps.refl _))

theorem State.retrain_keeps (failed : List Nat) (s : State) (ch : Nat) : Keeps s (State.retrain failed s ch) := by
  unfold State.retrain
  repeat' first
    | with_reducible exact Keeps.refl _ | with_reducible assumption | with_reducible refine Keeps.ite ?_ ?_
    | (apply Keeps.trans
       case k =>
         with_reducible first
           | apply State.emit_keeps | apply State.trainFailed_keeps | apply State.trained_keeps)
    | split | dsimp only

theorem State.cacheBack_keeps (s : State) : Keeps s (State.cacheBack s) := by
  unfold State.cacheBack
  repeat' first
    | with_reducible exact Keeps.refl _ | with_reducible assumption | with_reducible refine Keeps.ite ?_ ?_
    | with_reducible refine Keeps.foldl ?_ (fun _ _ => ?_)
    | (apply Keeps.trans; case k => with_reducible first | apply State.withTally_keeps)
    | split | dsimp only

/-- What a warm restart leaves of one register (R21): its kept fields as they were, the rest at its Reset value; none where that is the
Reset value as a whole. -/
theorem warmRegs_wfFrom (m : Sparse (BitVec 320)) : ∀ lo, Sparse.wfFrom regsReset lo m = true →
    Sparse.wfFrom regsReset lo (warmRegs m) = true := by
  induction m with
  | nil => intro lo _; rfl
  | cons e m ih =>
    intro lo h
    simp only [Sparse.wfFrom, Bool.and_eq_true, decide_eq_true_eq] at h
    obtain ⟨⟨h1, _⟩, h3⟩ := h
    unfold warmRegs at ih ⊢
    rw [List.filterMap_cons]
    split
    · exact Sparse.wfFrom_mono regsReset _ (by omega) (ih _ h3)
    · rename_i b hb
      have hk : b.1 = e.1 ∧ ¬ b.2 = regsReset b.1 := by
        simp only [Option.ite_none_left_eq_some, Option.some.injEq] at hb
        obtain ⟨hd, rfl⟩ := hb
        exact ⟨rfl, hd⟩
      obtain ⟨j, v⟩ := b
      simp only at hk
      obtain ⟨rfl, hd⟩ := hk
      simp only [Sparse.wfFrom, Bool.and_eq_true, decide_eq_true_eq, Bool.not_eq_true', decide_eq_false_iff_not]
      exact ⟨⟨h1, hd⟩, ih _ h3⟩

theorem State.warmReset_keeps (s : State) : Keeps s s.warmReset := by
  have h := (State.palWarm_keeps s).trans (State.cacheBack_keeps _)
  refine h.trans ⟨rfl, fun hr => warmRegs_wfFrom _ 0 hr, ⟨[], (List.append_nil _).symm⟩, Nat.le_refl _⟩

theorem State.warmImage_keeps (s : State) (k : Nat) : Keeps s (State.warmImage s k) := by
  unfold State.warmImage
  repeat' first
    | with_reducible exact Keeps.refl _ | with_reducible assumption | with_reducible refine Keeps.ite ?_ ?_
    | (apply Keeps.trans
       case k =>
         with_reducible first
           | apply State.wr_keeps | apply State.wrBit_keeps | apply State.applySystem_keeps | apply State.applyUcode_keeps)
    | (apply Keeps.trans; case k => with_reducible first | apply State.withEasel_keeps)
    | split | dsimp only

theorem State.warmFrom_keeps (s : State) (k : Nat) (fresh : Bool) (failFwd failTrf : Nat) (failed : List Nat) (peerActing : Bool) (took : Nat) :
    Keeps s (State.warmFrom s k fresh failFwd failTrf failed peerActing took) := by
  unfold State.warmFrom
  repeat' first
    | with_reducible exact Keeps.refl _ | with_reducible assumption | with_reducible refine Keeps.ite ?_ ?_
    | with_reducible refine Keeps.ite1 ?_ ?_
    | (apply Keeps.trans
       case k =>
         with_reducible first
           | apply State.abortMailbox_keeps | apply State.emit_keeps | apply State.runImage_keeps | apply State.warmReset_keeps
           | apply State.seamStart_keeps | apply State.showRails_keeps | apply State.advanceTo_keeps | apply State.timeWarm_keeps
           | apply State.warmImage_keeps | apply State.wr_keeps | apply State.parkChannels_keeps | apply State.nextEpoch_keeps
           | apply State.drawKey_keeps | apply State.retrain_keeps | apply State.applyRegs_keeps | apply State.palStart_keeps
           | apply State.nodesWarm_keeps | apply State.freeDraw_keeps | apply State.becomeReady_keeps | apply State.rescan_keeps
           | apply State.mboxDone_keeps)
    | with_reducible refine Keeps.of_pair (State.abortMailbox_keeps ..) (by assumption) ?_
    | with_reducible refine Keeps.of_pair (State.seamStart_keeps ..) (by assumption) ?_
    | with_reducible refine Keeps.foldl ?_ (fun _ _ => ?_)
    | (apply Keeps.trans; case k => with_reducible first | apply State.withTables_keeps | apply State.withEasel_keeps)
    | split | dsimp only

theorem State.keepFunction_keeps (s old : State) : Keeps s (State.keepFunction s old) := by
  unfold State.keepFunction
  repeat' first
    | with_reducible exact Keeps.refl _ | with_reducible assumption | with_reducible refine Keeps.ite ?_ ?_
    | (apply Keeps.trans; case k => with_reducible first | apply State.setReg_keeps)
    | (apply Keeps.trans; case k => with_reducible first | apply State.withHost_keeps)
    | split | dsimp only

theorem State.warmFailed_keeps (s : State) (region : Bool) (failFwd failTrf : Nat) (failed : List Nat) (peerActing : Bool) (took : Nat) :
    Keeps s (State.warmFailed s region failFwd failTrf failed peerActing took) := by
  unfold State.warmFailed
  repeat' first
    | with_reducible exact Keeps.refl _ | with_reducible assumption | with_reducible refine Keeps.ite ?_ ?_
    | (apply Keeps.trans
       case k =>
         with_reducible first
           | apply State.keepFunction_keeps | apply State.coldReset_keeps | apply State.logWrite_keeps | apply State.wr_keeps
           | apply State.wrBit_keeps | apply State.startSlots_keeps)
    | (apply Keeps.trans; case k => with_reducible first | apply State.withEasel_keeps)
    | split | dsimp only

theorem State.pauseEnds_keeps (s : State) : Keeps s (State.pauseEnds s) := by
  unfold State.pauseEnds
  repeat' first
    | with_reducible exact Keeps.refl _ | with_reducible assumption | with_reducible refine Keeps.ite ?_ ?_
    | (apply Keeps.trans; case k => with_reducible first | apply State.coatFlip_keeps | apply State.reportSwap_keeps)
    | split | dsimp only

theorem State.warmStart_keeps (s : State) (failFwd failTrf : Nat) (failed : List Nat) (varnishOk peerActing : Bool) (took : Nat) :
    Keeps s (State.warmStart s failFwd failTrf failed varnishOk peerActing took) := by
  unfold State.warmStart
  repeat' first
    | with_reducible exact Keeps.refl _ | with_reducible assumption | with_reducible refine Keeps.ite ?_ ?_
    | (apply Keeps.trans
       case k =>
         with_reducible first
           | apply State.pauseEnds_keeps | apply State.warmFailed_keeps | apply State.warmFrom_keeps)
    | split | dsimp only

theorem execWarmRestart_keeps (pulse : Nat × Bool) (failFwd failTrf : Nat) (failed : List Nat) (varnishOk peerActing : Bool) (took : Nat) (s : State) :
    KeepsR s (execWarmRestart pulse failFwd failTrf failed varnishOk peerActing took s) := by
  unfold execWarmRestart
  repeat' first
    | with_reducible exact Keeps.refl _ | with_reducible assumption | with_reducible refine KeepsR.next ?_
    | with_reducible refine Keeps.ite ?_ ?_ | with_reducible refine KeepsR.ite ?_ ?_
    | (apply Keeps.trans; case k => with_reducible first | apply State.warmStart_keeps | apply State.logWrite_keeps)
    | split | dsimp only

end Sys2Proof.Machine
end

