-- ==== Sys2Proof/Laws/KeepsMailbox.lean ====
section
/-!
SUPPORT. The operations of the mailbox: none touches the queue, spoils the register space, takes back an output or draws a free value again.
-/
namespace Sys2Proof.Machine

theorem State.mboxRun_keeps (s : State) (op : Nat) (f : State → State) (h : ∀ u, Keeps u (f u)) : Keeps s (s.mboxRun op f) := by
  unfold State.mboxRun
  exact Keeps.ite (h s) (Keeps.refl s)

theorem State.mboxResult_keeps (s : State) (code : Nat) (bs : List Byte) : Keeps s (State.mboxResult s code bs) := by
  unfold State.mboxResult
  repeat' first
    | with_reducible exact Keeps.refl _ | with_reducible assumption | with_reducible refine Keeps.ite ?_ ?_
    | (apply Keeps.trans; case k => with_reducible first | apply State.putOctets_keeps | apply State.mboxDone_keeps)
    | (apply Keeps.trans; case k => with_reducible first | apply State.withEasel_keeps)
    | split | dsimp only

theorem State.verifyFail_keeps (s : State) (reason : Nat) : Keeps s (State.verifyFail s reason) := by
  unfold State.verifyFail
  repeat' first
    | with_reducible exact Keeps.refl _ | with_reducible assumption | with_reducible refine Keeps.ite ?_ ?_
    | (apply Keeps.trans; case k => with_reducible first | apply State.mboxResult_keeps)
    | split | dsimp only

theorem execGetInfo_keeps (flashOk : Bool) (s : State) : KeepsR s (execGetInfo flashOk s) := by
  unfold execGetInfo
  repeat' first
    | with_reducible exact Keeps.refl _ | with_reducible assumption | with_reducible refine KeepsR.next ?_
    | with_reducible refine Keeps.ite ?_ ?_ | with_reducible refine KeepsR.ite ?_ ?_
    | (apply Keeps.trans; case k => with_reducible first | apply State.mboxDone_keeps | apply State.mboxResult_keeps)
    | with_reducible apply State.mboxRun_keeps | with_reducible refine Keeps.trans ?_ (State.mboxRun_keeps _ _ _  ?_)
    | intro _ | split | dsimp only

theorem execFlashRead_keeps (flashOk : Bool) (s : State) : KeepsR s (execFlashRead flashOk s) := by
  unfold execFlashRead
  repeat' first
    | with_reducible exact Keeps.refl _ | with_reducible assumption | with_reducible refine KeepsR.next ?_
    | with_reducible refine Keeps.ite ?_ ?_ | with_reducible refine KeepsR.ite ?_ ?_
    | (apply Keeps.trans; case k => with_reducible first | apply State.mboxDone_keeps | apply State.mboxResult_keeps)
    | with_reducible apply State.mboxRun_keeps | with_reducible refine Keeps.trans ?_ (State.mboxRun_keeps _ _ _  ?_)
    | intro _ | split | dsimp only

theorem execFlashWrite_keeps (flashOk : Bool) (s : State) : KeepsR s (execFlashWrite flashOk s) := by
  unfold execFlashWrite
  repeat' first
    | with_reducible exact Keeps.refl _ | with_reducible assumption | with_reducible refine KeepsR.next ?_
    | with_reducible refine Keeps.ite ?_ ?_ | with_reducible refine KeepsR.ite ?_ ?_
    | (apply Keeps.trans
       case k =>
         with_reducible first
           | apply State.mboxDone_keeps | apply State.flashSpoil_keeps | apply State.setFlash_keeps)
    | with_reducible apply State.mboxRun_keeps | with_reducible refine Keeps.trans ?_ (State.mboxRun_keeps _ _ _  ?_)
    | (apply Keeps.trans; case k => with_reducible first | apply State.withEasel_keeps)
    | intro _ | split | dsimp only

theorem execVerifySlot_keeps (flashOk : Bool) (s : State) : KeepsR s (execVerifySlot flashOk s) := by
  unfold execVerifySlot
  repeat' first
    | with_reducible exact Keeps.refl _ | with_reducible assumption | with_reducible refine KeepsR.next ?_
    | with_reducible refine Keeps.ite ?_ ?_ | with_reducible refine KeepsR.ite ?_ ?_
    | (apply Keeps.trans; case k => with_reducible first | apply State.mboxDone_keeps | apply State.verifyFail_keeps)
    | with_reducible apply State.mboxRun_keeps | with_reducible refine Keeps.trans ?_ (State.mboxRun_keeps _ _ _  ?_)
    | intro _ | split | dsimp only

theorem execSetBoot_keeps (flashOk : Bool) (s : State) : KeepsR s (execSetBoot flashOk s) := by
  unfold execSetBoot
  repeat' first
    | with_reducible exact Keeps.refl _ | with_reducible assumption | with_reducible refine KeepsR.next ?_
    | with_reducible refine Keeps.ite ?_ ?_ | with_reducible refine KeepsR.ite ?_ ?_
    | (apply Keeps.trans; case k => with_reducible first | apply State.mboxDone_keeps | apply State.writeBoot_keeps)
    | with_reducible apply State.mboxRun_keeps | with_reducible refine Keeps.trans ?_ (State.mboxRun_keeps _ _ _  ?_)
    | intro _ | split | dsimp only

theorem execConfirm_keeps (flashOk : Bool) (s : State) : KeepsR s (execConfirm flashOk s) := by
  unfold execConfirm
  repeat' first
    | with_reducible exact Keeps.refl _ | with_reducible assumption | with_reducible refine KeepsR.next ?_
    | with_reducible refine Keeps.ite ?_ ?_ | with_reducible refine KeepsR.ite ?_ ?_
    | (apply Keeps.trans
       case k =>
         with_reducible first
           | apply State.mboxDone_keeps | apply State.writeBoot_keeps | apply State.wr_keeps)
    | with_reducible apply State.mboxRun_keeps | with_reducible refine Keeps.trans ?_ (State.mboxRun_keeps _ _ _  ?_)
    | intro _ | split | dsimp only

theorem execLogRead_keeps (flashOk : Bool) (s : State) : KeepsR s (execLogRead flashOk s) := by
  unfold execLogRead
  repeat' first
    | with_reducible exact Keeps.refl _ | with_reducible assumption | with_reducible refine KeepsR.next ?_
    | with_reducible refine Keeps.ite ?_ ?_ | with_reducible refine KeepsR.ite ?_ ?_
    | (apply Keeps.trans; case k => with_reducible first | apply State.mboxDone_keeps | apply State.mboxResult_keeps)
    | with_reducible apply State.mboxRun_keeps | with_reducible refine Keeps.trans ?_ (State.mboxRun_keeps _ _ _  ?_)
    | intro _ | split | dsimp only

theorem execSwitchFw_keeps (flashOk : Bool) (took : Nat) (s : State) : KeepsR s (execSwitchFw flashOk took s) := by
  unfold execSwitchFw
  repeat' first
    | with_reducible exact Keeps.refl _ | with_reducible assumption | with_reducible refine KeepsR.next ?_
    | with_reducible refine Keeps.ite ?_ ?_ | with_reducible refine KeepsR.ite ?_ ?_
    | (apply Keeps.trans
       case k =>
         with_reducible first
           | apply State.verifyFail_keeps | apply State.holdover_keeps | apply State.advanceTo_keeps | apply State.wr_keeps
           | apply State.setCause_keeps | apply State.mboxDone_keeps)
    | with_reducible apply State.mboxRun_keeps | with_reducible refine Keeps.trans ?_ (State.mboxRun_keeps _ _ _  ?_)
    | (apply Keeps.trans; case k => with_reducible first | apply State.withTables_keeps | apply State.withEasel_keeps)
    | intro _ | split | dsimp only

theorem execLoomLoad_keeps (flashOk : Bool) (s : State) : KeepsR s (execLoomLoad flashOk s) := by
  unfold execLoomLoad
  repeat' first
    | with_reducible exact Keeps.refl _ | with_reducible assumption | with_reducible refine KeepsR.next ?_
    | with_reducible refine Keeps.ite ?_ ?_ | with_reducible refine KeepsR.ite ?_ ?_
    | (apply Keeps.trans; case k => with_reducible first | apply State.verifyFail_keeps | apply State.mboxDone_keeps)
    | with_reducible apply State.mboxRun_keeps | with_reducible refine Keeps.trans ?_ (State.mboxRun_keeps _ _ _  ?_)
    | (apply Keeps.trans; case k => with_reducible first | apply State.withEasel_keeps)
    | intro _ | split | dsimp only

theorem execLoomSwap_keeps (s : State) : KeepsR s (execLoomSwap s) := by
  unfold execLoomSwap
  repeat' first
    | with_reducible exact Keeps.refl _ | with_reducible assumption | with_reducible refine KeepsR.next ?_
    | with_reducible refine Keeps.ite ?_ ?_ | with_reducible refine KeepsR.ite ?_ ?_
    | (apply Keeps.trans
       case k =>
         with_reducible first
           | apply State.mboxDone_keeps | apply State.setCause_keeps | apply State.ucodeMove_keeps)
    | with_reducible apply State.mboxRun_keeps | with_reducible refine Keeps.trans ?_ (State.mboxRun_keeps _ _ _  ?_)
    | with_reducible refine Keeps.foldl ?_ (fun _ _ => ?_)
    | (apply Keeps.trans; case k => with_reducible first | apply State.withEasel_keeps)
    | intro _ | split | dsimp only

theorem execStageCoat_keeps (flashOk : Bool) (s : State) : KeepsR s (execStageCoat flashOk s) := by
  unfold execStageCoat
  repeat' first
    | with_reducible exact Keeps.refl _ | with_reducible assumption | with_reducible refine KeepsR.next ?_
    | with_reducible refine Keeps.ite ?_ ?_ | with_reducible refine KeepsR.ite ?_ ?_ | with_reducible refine Keeps.ite1 ?_ ?_
    | (apply Keeps.trans
       case k =>
         with_reducible first
           | apply State.mboxDone_keeps | apply State.verifyFail_keeps | apply State.coatRecords_keeps)
    | with_reducible apply State.mboxRun_keeps | with_reducible refine Keeps.trans ?_ (State.mboxRun_keeps _ _ _  ?_)
    | with_reducible refine Keeps.of_pair (State.coatRecords_keeps ..) (by assumption) ?_
    | intro _ | split | dsimp only

theorem execRestartWarm_keeps (flashOk : Bool) (s : State) : KeepsR s (execRestartWarm flashOk s) := by
  unfold execRestartWarm
  repeat' first
    | with_reducible exact Keeps.refl _ | with_reducible assumption | with_reducible refine KeepsR.next ?_
    | with_reducible refine Keeps.ite ?_ ?_ | with_reducible refine KeepsR.ite ?_ ?_
    | (apply Keeps.trans; case k => with_reducible first | apply State.mboxDone_keeps | apply State.verifyFail_keeps)
    | with_reducible apply State.mboxRun_keeps | with_reducible refine Keeps.trans ?_ (State.mboxRun_keeps _ _ _  ?_)
    | (apply Keeps.trans; case k => with_reducible first | apply State.withEasel_keeps)
    | intro _ | split | dsimp only

theorem execRestartCold_keeps (s : State) : KeepsR s (execRestartCold s) := by
  unfold execRestartCold
  repeat' first
    | with_reducible exact Keeps.refl _ | with_reducible assumption | with_reducible refine KeepsR.next ?_
    | with_reducible refine Keeps.ite ?_ ?_ | with_reducible refine KeepsR.ite ?_ ?_
    | (apply Keeps.trans; case k => with_reducible first | apply State.coldReset_keeps)
    | with_reducible apply State.mboxRun_keeps | with_reducible refine Keeps.trans ?_ (State.mboxRun_keeps _ _ _  ?_)
    | intro _ | split | dsimp only

theorem execAttest_keeps (s : State) : KeepsR s (execAttest s) := by
  unfold execAttest
  repeat' first
    | with_reducible exact Keeps.refl _ | with_reducible assumption | with_reducible refine KeepsR.next ?_
    | with_reducible refine Keeps.ite ?_ ?_ | with_reducible refine KeepsR.ite ?_ ?_
    | (apply Keeps.trans; case k => with_reducible first | apply State.mboxResult_keeps)
    | with_reducible apply State.mboxRun_keeps | with_reducible refine Keeps.trans ?_ (State.mboxRun_keeps _ _ _  ?_)
    | intro _ | split | dsimp only

theorem execGetIdentity_keeps (s : State) : KeepsR s (execGetIdentity s) := by
  unfold execGetIdentity
  repeat' first
    | with_reducible exact Keeps.refl _ | with_reducible assumption | with_reducible refine KeepsR.next ?_
    | with_reducible refine Keeps.ite ?_ ?_ | with_reducible refine KeepsR.ite ?_ ?_
    | (apply Keeps.trans; case k => with_reducible first | apply State.mboxResult_keeps)
    | with_reducible apply State.mboxRun_keeps | with_reducible refine Keeps.trans ?_ (State.mboxRun_keeps _ _ _  ?_)
    | intro _ | split | dsimp only

theorem State.otpRun_keeps (s : State) : Keeps s (State.otpRun s) := by
  unfold State.otpRun
  repeat' first
    | with_reducible exact Keeps.refl _ | with_reducible assumption | with_reducible refine Keeps.ite ?_ ?_
    | with_reducible refine Keeps.ite1 ?_ ?_
    | (apply Keeps.trans; case k => with_reducible first | apply State.otpCommand_keeps | apply State.mboxDone_keeps)
    | with_reducible refine Keeps.of_pair (State.otpCommand_keeps ..) (by assumption) ?_
    | split | dsimp only

theorem execKeyProgram_keeps (s : State) : KeepsR s (execKeyProgram s) := by
  unfold execKeyProgram
  repeat' first
    | with_reducible exact Keeps.refl _ | with_reducible assumption | with_reducible refine KeepsR.next ?_
    | with_reducible refine Keeps.ite ?_ ?_ | with_reducible refine KeepsR.ite ?_ ?_
    | (apply Keeps.trans; case k => with_reducible first | apply State.otpRun_keeps)
    | with_reducible apply State.mboxRun_keeps | with_reducible refine Keeps.trans ?_ (State.mboxRun_keeps _ _ _  ?_)
    | intro _ | split | dsimp only

theorem execKeyRevoke_keeps (s : State) : KeepsR s (execKeyRevoke s) := by
  unfold execKeyRevoke
  repeat' first
    | with_reducible exact Keeps.refl _ | with_reducible assumption | with_reducible refine KeepsR.next ?_
    | with_reducible refine Keeps.ite ?_ ?_ | with_reducible refine KeepsR.ite ?_ ?_
    | (apply Keeps.trans; case k => with_reducible first | apply State.otpRun_keeps)
    | with_reducible apply State.mboxRun_keeps | with_reducible refine Keeps.trans ?_ (State.mboxRun_keeps _ _ _  ?_)
    | intro _ | split | dsimp only

theorem execRaiseVersion_keeps (s : State) : KeepsR s (execRaiseVersion s) := by
  unfold execRaiseVersion
  repeat' first
    | with_reducible exact Keeps.refl _ | with_reducible assumption | with_reducible refine KeepsR.next ?_
    | with_reducible refine Keeps.ite ?_ ?_ | with_reducible refine KeepsR.ite ?_ ?_
    | (apply Keeps.trans; case k => with_reducible first | apply State.otpRun_keeps)
    | with_reducible apply State.mboxRun_keeps | with_reducible refine Keeps.trans ?_ (State.mboxRun_keeps _ _ _  ?_)
    | intro _ | split | dsimp only

theorem State.mirrorWrite_keeps (s : State) (flashOk : Bool) : Keeps s (State.mirrorWrite s flashOk) := by
  unfold State.mirrorWrite
  repeat' first
    | with_reducible exact Keeps.refl _ | with_reducible assumption | with_reducible refine Keeps.ite ?_ ?_
    | (apply Keeps.trans; case k => with_reducible first | apply State.setCause_keeps | apply State.wr_keeps)
    | (apply Keeps.trans; case k => with_reducible first | apply State.withEasel_keeps)
    | split | dsimp only

theorem execVarnishMirror_keeps (flashOk : Bool) (s : State) : KeepsR s (execVarnishMirror flashOk s) := by
  unfold execVarnishMirror
  repeat' first
    | with_reducible exact Keeps.refl _ | with_reducible assumption | with_reducible refine KeepsR.next ?_
    | with_reducible refine Keeps.ite ?_ ?_ | with_reducible refine KeepsR.ite ?_ ?_
    | (apply Keeps.trans; case k => with_reducible first | apply State.mirrorWrite_keeps)
    | split | dsimp only

theorem execMirrorNow_keeps (flashOk : Bool) (s : State) : KeepsR s (execMirrorNow flashOk s) := by
  unfold execMirrorNow
  repeat' first
    | with_reducible exact Keeps.refl _ | with_reducible assumption | with_reducible refine KeepsR.next ?_
    | with_reducible refine Keeps.ite ?_ ?_ | with_reducible refine KeepsR.ite ?_ ?_
    | (apply Keeps.trans; case k => with_reducible first | apply State.mirrorWrite_keeps | apply State.mboxDone_keeps)
    | with_reducible apply State.mboxRun_keeps | with_reducible refine Keeps.trans ?_ (State.mboxRun_keeps _ _ _  ?_)
    | intro _ | split | dsimp only

end Sys2Proof.Machine
end

