-- ==== Sys2Proof/Laws/KeepsPowerStage.lean ====
section
/-!
SUPPORT. The operations of the power stage: none touches the queue, spoils the register space, takes back an output or draws a free value again.
-/
namespace Sys2Proof.Machine

theorem State.railsUp_keeps (s : State) : Keeps s (State.railsUp s) := by
  unfold State.railsUp
  repeat' first
    | with_reducible exact Keeps.refl _ | with_reducible assumption | with_reducible refine Keeps.ite ?_ ?_
    | (apply Keeps.trans; case k => with_reducible first | apply State.wr_keeps)
    | (apply Keeps.trans; case k => with_reducible first | apply State.withPower_keeps)
    | split | dsimp only

theorem execPowerUp_keeps (s : State) : KeepsR s (execPowerUp s) := by
  unfold execPowerUp
  repeat' first
    | with_reducible exact Keeps.refl _ | with_reducible assumption | with_reducible refine KeepsR.next ?_
    | with_reducible refine Keeps.ite ?_ ?_ | with_reducible refine KeepsR.ite ?_ ?_
    | (apply Keeps.trans; case k => with_reducible first | apply State.railsUp_keeps)
    | split | dsimp only

theorem execVinRestore_keeps (s : State) : KeepsR s (execVinRestore s) := by
  unfold execVinRestore
  repeat' first
    | with_reducible exact Keeps.refl _ | with_reducible assumption | with_reducible refine KeepsR.next ?_
    | with_reducible refine Keeps.ite ?_ ?_ | with_reducible refine KeepsR.ite ?_ ?_
    | (apply Keeps.trans; case k => with_reducible first | apply State.railsUp_keeps)
    | split | dsimp only

theorem execPowerShutdown_keeps (cause : Nat) (s : State) : KeepsR s (execPowerShutdown cause s) := by
  unfold execPowerShutdown
  repeat' first
    | with_reducible exact Keeps.refl _ | with_reducible assumption | with_reducible refine KeepsR.next ?_
    | with_reducible refine Keeps.ite ?_ ?_ | with_reducible refine KeepsR.ite ?_ ?_
    | (apply Keeps.trans
       case k =>
         with_reducible first
           | apply State.coldReset_keeps | apply State.wr_keeps | apply State.incSat_keeps)
    | (apply Keeps.trans; case k => with_reducible first | apply State.withPower_keeps)
    | split | dsimp only

theorem execPorstNAssert_keeps (dur : Nat) (acts : Bool) (s : State) : KeepsR s (execPorstNAssert dur acts s) := by
  unfold execPorstNAssert
  repeat' first
    | with_reducible exact Keeps.refl _ | with_reducible assumption | with_reducible refine KeepsR.next ?_
    | with_reducible refine Keeps.ite ?_ ?_ | with_reducible refine KeepsR.ite ?_ ?_
    | (apply Keeps.trans; case k => with_reducible first | apply State.railsUp_keeps | apply State.coldReset_keeps)
    | (apply Keeps.trans; case k => with_reducible first | apply State.withPower_keeps)
    | split | dsimp only

theorem State.powerAlarm_keeps (s : State) (f : Fld) (k : Nat) (holds clear : Bool) :
    Keeps s (State.powerAlarm s f k holds clear) := by
  unfold State.powerAlarm
  repeat' first
    | with_reducible exact Keeps.refl _ | with_reducible assumption | with_reducible refine Keeps.ite ?_ ?_
    | (apply Keeps.trans; case k => with_reducible first | apply State.setCause_keeps)
    | (apply Keeps.trans; case k => with_reducible first | apply State.withPower_keeps)
    | split | dsimp only

theorem execTelemetryUpdate_keeps (vin iin pin : Nat) (tjF tjT tStage : Int) (icoreF icoreT : Nat) (vddqBad : Bool) (s : State) :
    KeepsR s (execTelemetryUpdate vin iin pin tjF tjT tStage icoreF icoreT vddqBad s) := by
  unfold execTelemetryUpdate
  repeat' first
    | with_reducible exact Keeps.refl _ | with_reducible assumption | with_reducible refine KeepsR.next ?_
    | with_reducible refine Keeps.ite ?_ ?_ | with_reducible refine KeepsR.ite ?_ ?_
    | (apply Keeps.trans
       case k =>
         with_reducible first
           | apply State.advanceTo_keeps | apply State.wr_keeps | apply State.incWrap_keeps | apply State.powerAlarm_keeps)
    | (apply Keeps.trans; case k => with_reducible first | apply State.withPower_keeps)
    | split | dsimp only

theorem execTelemStale_keeps (s : State) : KeepsR s (execTelemStale s) := by
  unfold execTelemStale
  repeat' first
    | with_reducible exact Keeps.refl _ | with_reducible assumption | with_reducible refine KeepsR.next ?_
    | with_reducible refine Keeps.ite ?_ ?_ | with_reducible refine KeepsR.ite ?_ ?_
    | (apply Keeps.trans; case k => with_reducible first | apply State.advanceTo_keeps | apply State.powerAlarm_keeps)
    | split | dsimp only

end Sys2Proof.Machine
end

