-- ==== Sys2Proof/Laws/KeepsIdle.lean ====
section
/-!
SUPPORT. The operations of the idle step: none touches the queue, spoils the register space, takes back an output or draws a free value again.
-/
namespace Sys2Proof.Machine

theorem State.idle_keeps (s : State) : Keeps s (State.idle s) := by
  unfold State.idle
  repeat' first
    | with_reducible exact Keeps.refl _ | with_reducible assumption | with_reducible refine Keeps.ite ?_ ?_
    | (apply Keeps.trans; case k => with_reducible first | apply State.advanceTo_keeps)
    | split | dsimp only

end Sys2Proof.Machine
end

