-- ==== Sys2Proof/Laws/KeepsStep.lean ====
section
/-!
SUPPORT. Every command answers a next state and keeps what `Keeps` says; so does every step.
-/
namespace Sys2Proof.Machine

/-- Every command answers a next state, never touches the queue, keeps the register space canonical, takes back no output and draws no
free value twice. -/
theorem exec_keeps (c : Instr) (s : State) : KeepsR s (exec c s) := by
  cases c with
  | registerWrite space addr width data => exact execRegisterWrite_keeps space addr width data s
  | badRegisterAccess write space addr width data => exact execBadRegisterAccess_keeps write space addr width data s
  | read64LowWord addr => exact execRead64LowWord_keeps addr s
  | write64LowWord addr data => exact execWrite64LowWord_keeps addr data s
  | readClearField space addr width => exact execReadClearField_keeps space addr width s
  | latchingRead addr width => exact execLatchingRead_keeps addr width s
  | flitCrcReplay toTraffic again ch => exact execFlitCrcReplay_keeps toTraffic again ch s
  | seamReplayFailure toTraffic => exact execSeamReplayFailure_keeps toTraffic s
  | seamDegraded flitsFwd flitsTrf => exact execSeamDegraded_keeps flitsFwd flitsTrf s
  | frameReceive port octets fcsGood whole sub => exact execFrameReceive_keeps port octets fcsGood whole sub s
  | pauseRepeat p => exact execPauseRepeat_keeps p s
  | pauseFrameReceive p quanta => exact execPauseFrameReceive_keeps p quanta s
  | pauseQuantaExpiry p => exact execPauseQuantaExpiry_keeps p s
  | contextGrant port => exact execContextGrant_keeps port s
  | earlyLookupIssue c slotFree => exact execEarlyLookupIssue_keeps c slotFree s
  | programStart c => exact execProgramStart_keeps c s
  | sketchLd c => exact execSketchLd_keeps c s
  | sketchLdh c => exact execSketchLdh_keeps c s
  | sketchMov c => exact execSketchMov_keeps c s
  | sketchAdd c => exact execSketchAdd_keeps c s
  | sketchSub c => exact execSketchSub_keeps c s
  | sketchAnd c => exact execSketchAnd_keeps c s
  | sketchOr c => exact execSketchOr_keeps c s
  | sketchXor c => exact execSketchXor_keeps c s
  | sketchShl c => exact execSketchShl_keeps c s
  | sketchShr c => exact execSketchShr_keeps c s
  | sketchCsum c => exact execSketchCsum_keeps c s
  | sketchXcp c => exact execSketchXcp_keeps c s
  | sketchSth c => exact execSketchSth_keeps c s
  | sketchGetc c => exact execSketchGetc_keeps c s
  | sketchAdv c => exact execSketchAdv_keeps c s
  | sketchSetc c => exact execSketchSetc_keeps c s
  | sketchHdr c => exact execSketchHdr_keeps c s
  | sketchLchk c => exact execSketchLchk_keeps c s
  | sketchBeq c => exact execSketchBeq_keeps c s
  | sketchBne c => exact execSketchBne_keeps c s
  | sketchBlt c => exact execSketchBlt_keeps c s
  | sketchBge c => exact execSketchBge_keeps c s
  | sketchBts c => exact execSketchBts_keeps c s
  | sketchBtc c => exact execSketchBtc_keeps c s
  | sketchJmp c => exact execSketchJmp_keeps c s
  | sketchCall c => exact execSketchCall_keeps c s
  | sketchJr c => exact execSketchJr_keeps c s
  | sketchDone c => exact execSketchDone_keeps c s
  | sketchExc c => exact execSketchExc_keeps c s
  | sketchDrop c => exact execSketchDrop_keeps c s
  | sketchNop c => exact execSketchNop_keeps c s
  | headerVectorSend c => exact execHeaderVectorSend_keeps c s
  | queueHandoff n => exact execQueueHandoff_keeps n s
  | glazeStage n => exact execGlazeStage_keeps n s
  | actionLdf n => exact execActionLdf_keeps n s
  | actionStf n => exact execActionStf_keeps n s
  | actionMov n => exact execActionMov_keeps n s
  | actionAdd n => exact execActionAdd_keeps n s
  | actionSub n => exact execActionSub_keeps n s
  | actionAnd n => exact execActionAnd_keeps n s
  | actionOr n => exact execActionOr_keeps n s
  | actionXor n => exact execActionXor_keeps n s
  | actionShl n => exact execActionShl_keeps n s
  | actionShr n => exact execActionShr_keeps n s
  | actionCsup n => exact execActionCsup_keeps n s
  | actionIns n => exact execActionIns_keeps n s
  | actionDel n => exact execActionDel_keeps n s
  | actionSkz n => exact execActionSkz_keeps n s
  | actionSknz n => exact execActionSknz_keeps n s
  | actionEnd n => exact execActionEnd_keeps n s
  | actionFwd n => exact execActionFwd_keeps n s
  | actionFwdg n => exact execActionFwdg_keeps n s
  | actionDrop n => exact execActionDrop_keeps n s
  | actionCopy n => exact execActionCopy_keeps n s
  | actionTrap n => exact execActionTrap_keeps n s
  | actionMirr n => exact execActionMirr_keeps n s
  | actionRecirc n => exact execActionRecirc_keeps n s
  | actionPol n => exact execActionPol_keeps n s
  | actionCnt n => exact execActionCnt_keeps n s
  | actionHash n => exact execActionHash_keeps n s
  | actionLearn n => exact execActionLearn_keeps n s
  | actionNop n => exact execActionNop_keeps n s
  | ingressReorderSettle n => exact execIngressReorderSettle_keeps n s
  | chargeTrueUp n tail fcsGood => exact execChargeTrueUp_keeps n tail fcsGood s
  | enqueue n => exact execEnqueue_keeps n s
  | portSelection n arriving => exact execPortSelection_keeps n arriving s
  | egressEntry n => exact execEgressEntry_keeps n s
  | frameTransmit n sub => exact execFrameTransmit_keeps n sub s
  | paceWindow counts => exact execPaceWindow_keeps counts s
  | supplyLoopStep => exact execSupplyLoopStep_keeps s
  | shedLevel2Entry => exact execShedLevel2Entry_keeps s
  | shedStepDown => exact execShedStepDown_keeps s
  | portEnable p v => exact execPortEnable_keeps p v s
  | portDisable p v cut => exact execPortDisable_keeps p v cut s
  | linkDown p cut => exact execLinkDown_keeps p cut s
  | linkUp p => exact execLinkUp_keeps p s
  | secondLatch => exact execSecondLatch_keeps s
  | ohCandidateCheck ix pos ok => exact execOhCandidateCheck_keeps ix pos ok s
  | ohPositionCheck ix form crc cr ca ccc rpf mf gid cal mgmt => exact execOhPositionCheck_keeps ix form crc cr ca ccc rpf mf gid cal mgmt s
  | ohFieldAccept ix => exact execOhFieldAccept_keeps ix s
  | txPageSwitch g => exact execTxPageSwitch_keeps g s
  | protHoldoffExpiry ix => exact execProtHoldoffExpiry_keeps ix s
  | protCaTimeout g => exact execProtCaTimeout_keeps g s
  | swapNow => exact execSwapNow_keeps s
  | swapArm => exact execSwapArm_keeps s
  | swapCancel => exact execSwapCancel_keeps s
  | armedSwapTime => exact execArmedSwapTime_keeps s
  | coatFlip => exact execCoatFlip_keeps s
  | coatRetire => exact execCoatRetire_keeps s
  | coatMeasure => exact execCoatMeasure_keeps s
  | agentRead a => exact execAgentRead_keeps a s
  | agentWrite a => exact execAgentWrite_keeps a s
  | agentInsert a => exact execAgentInsert_keeps a s
  | agentDelete a => exact execAgentDelete_keeps a s
  | agentSearch a => exact execAgentSearch_keeps a s
  | agentMove a => exact execAgentMove_keeps a s
  | suspectRepair pos => exact execSuspectRepair_keeps pos s
  | stencilScrubStep k hits => exact execStencilScrubStep_keeps k hits s
  | sramScrub hits => exact execSramScrub_keeps hits s
  | descWord0Write b t v => exact execDescWord0Write_keeps b t v s
  | bankWidthWrite k v => exact execBankWidthWrite_keeps k v s
  | ageUnitTick t => exact execAgeUnitTick_keeps t s
  | ageEntryVisit t slot => exact execAgeEntryVisit_keeps t slot s
  | pounceHandoff n => exact execPounceHandoff_keeps n s
  | legacySearch n => exact execLegacySearch_keeps n s
  | setDescWord0Write b k v => exact execSetDescWord0Write_keeps b k v s
  | loadDataWrite v => exact execLoadDataWrite_keeps v s
  | bufferAllocate c o pool => exact execBufferAllocate_keeps c o pool s
  | bufferReference p bytes => exact execBufferReference_keeps p bytes s
  | bufferFree p o => exact execBufferFree_keeps p o s
  | bufferTransfer p a b => exact execBufferTransfer_keeps p a b s
  | headCacheRefill => exact execHeadCacheRefill_keeps s
  | spillMove q => exact execSpillMove_keeps q s
  | runAheadStep q => exact execRunAheadStep_keeps q s
  | runAheadLand q => exact execRunAheadLand_keeps q s
  | queueFlush q => exact execQueueFlush_keeps q s
  | chainRebuild => exact execChainRebuild_keeps s
  | auditStart => exact execAuditStart_keeps s
  | auditPeriod => exact execAuditPeriod_keeps s
  | auditSweepEnd => exact execAuditSweepEnd_keeps s
  | auditPop => exact execAuditPop_keeps s
  | swAlloc => exact execSwAlloc_keeps s
  | swFree => exact execSwFree_keeps s
  | swRead => exact execSwRead_keeps s
  | swRetire => exact execSwRetire_keeps s
  | swUnretire => exact execSwUnretire_keeps s
  | shaperRefill level ix => exact execShaperRefill_keeps level ix s
  | voqDequeue words => exact execVoqDequeue_keeps words s
  | portNodeEnable n v => exact execPortNodeEnable_keeps n v s
  | portLinkLost n cut => exact execPortLinkLost_keeps n cut s
  | portLinkReturn n => exact execPortLinkReturn_keeps n s
  | portHoldExpiry n => exact execPortHoldExpiry_keeps n s
  | portFlushComplete n => exact execPortFlushComplete_keeps n s
  | portNodeDisable n v => exact execPortNodeDisable_keeps n v s
  | queueFlushComplete q => exact execQueueFlushComplete_keeps q s
  | accRead => exact execAccRead_keeps s
  | accWrite => exact execAccWrite_keeps s
  | accFlush => exact execAccFlush_keeps s
  | queueSample => exact execQueueSample_keeps s
  | dramCommandIssue ch strikes => exact execDramCommandIssue_keeps ch strikes s
  | dramReadReturn ch dq cb fails => exact execDramReadReturn_keeps ch dq cb fails s
  | refresh ch => exact execRefresh_keeps ch s
  | tempWrite v => exact execTempWrite_keeps v s
  | tempStale => exact execTempStale_keeps s
  | patrolScrub ch dq cb fails => exact execPatrolScrub_keeps ch dq cb fails s
  | fullTraining failed => exact execFullTraining_keeps failed s
  | periodicTrainingStep ch => exact execPeriodicTrainingStep_keeps ch s
  | trainingStepEnd ch => exact execTrainingStepEnd_keeps ch s
  | channelLost ch cause => exact execChannelLost_keeps ch cause s
  | errPop => exact execErrPop_keeps s
  | freqGo target => exact execFreqGo_keeps target s
  | freqSwitchComplete => exact execFreqSwitchComplete_keeps s
  | freqTrainingComplete bad worse => exact execFreqTrainingComplete_keeps bad worse s
  | laneLock l => exact execLaneLock_keeps l s
  | laneDown l => exact execLaneDown_keeps l s
  | laneEnWrite w v => exact execLaneEnWrite_keeps w v s
  | slotTransmit l => exact execSlotTransmit_keeps l s
  | swatchReceive l octets => exact execSwatchReceive_keeps l octets s
  | creditSwatchReceive l octets => exact execCreditSwatchReceive_keeps l octets s
  | linkControlReceive l octets => exact execLinkControlReceive_keeps l octets s
  | creditIssue d c => exact execCreditIssue_keeps d c s
  | creditRefresh => exact execCreditRefresh_keeps s
  | reachabilitySend => exact execReachabilitySend_keeps s
  | unreachExpiry d => exact execUnreachExpiry_keeps d s
  | gapRelease src cls => exact execGapRelease_keeps src cls s
  | treeEnable n v => exact execTreeEnable_keeps n v s
  | treeDisable n v => exact execTreeDisable_keeps n v s
  | downstreamFrame n => exact execDownstreamFrame_keeps n s
  | bwmapCompute n => exact execBwmapCompute_keeps n s
  | dbaCycle n => exact execDbaCycle_keeps n s
  | burstReceive n off hdr bad phase gain reports => exact execBurstReceive_keeps n off hdr bad phase gain reports s
  | burstMissed n sd => exact execBurstMissed_keeps n sd s
  | pbrResetPulse n => exact execPbrResetPulse_keeps n s
  | snWindowOpen n => exact execSnWindowOpen_keeps n s
  | serialNumberOnu n decoded sn arrival delay micOk content => exact execSerialNumberOnu_keeps n decoded sn arrival delay micOk content s
  | rangingResponse n ix arrival micOk phase gain content => exact execRangingResponse_keeps n ix arrival micOk phase gain content s
  | rangingWindowClose n ix => exact execRangingWindowClose_keeps n ix s
  | to2Expiry n ix => exact execTo2Expiry_keeps n ix s
  | onuDeactivate n => exact execOnuDeactivate_keeps n s
  | onuDisable n => exact execOnuDisable_keeps n s
  | onuEnable n => exact execOnuEnable_keeps n s
  | onuReqReg n => exact execOnuReqReg_keeps n s
  | upstreamPloam n ix micOk ack content => exact execUpstreamPloam_keeps n ix micOk ack content s
  | sndisClear k => exact execSndisClear_keeps k s
  | reassemblyTimeout a => exact execReassemblyTimeout_keeps a s
  | upstreamXgemFrame n j port idx last bad octets => exact execUpstreamXgemFrame_keeps n j port idx last bad octets s
  | downstreamGemExit k => exact execDownstreamGemExit_keeps k s
  | keyWrite => exact execKeyWrite_keeps s
  | keyClear => exact execKeyClear_keeps s
  | keySwitch => exact execKeySwitch_keeps s
  | rogueFrameEval n seen sdNow => exact execRogueFrameEval_keeps n seen sdNow s
  | probeGo n onu frames => exact execProbeGo_keeps n onu frames s
  | probeEnd n => exact execProbeEnd_keeps n s
  | allocEnable a v => exact execAllocEnable_keeps a v s
  | gemEnable g v => exact execGemEnable_keeps g v s
  | sysrefLoss => exact execSysrefLoss_keeps s
  | sysrefReturn => exact execSysrefReturn_keeps s
  | anchorArm => exact execAnchorArm_keeps s
  | anchorCancel => exact execAnchorCancel_keeps s
  | anchorFlip => exact execAnchorFlip_keeps s
  | txtsPop => exact execTxtsPop_keeps s
  | launchEligible q => exact execLaunchEligible_keeps q s
  | launchTimeReached k => exact execLaunchTimeReached_keeps k s
  | ppsOutRise => exact execPpsOutRise_keeps s
  | ppsOutFall => exact execPpsOutFall_keeps s
  | ppsInEdge sub => exact execPpsInEdge_keeps sub s
  | doorbellWrite k half value => exact execDoorbellWrite_keeps k half value s
  | puntWrite ring buf => exact execPuntWrite_keeps ring buf s
  | injectFetch r desc content => exact execInjectFetch_keeps r desc content s
  | dmaError k buffer => exact execDmaError_keeps k buffer s
  | ringEnable k => exact execRingEnable_keeps k s
  | ringDisable k => exact execRingDisable_keeps k s
  | eventFire => exact execEventFire_keeps s
  | coalesceTime v => exact execCoalesceTime_keeps v s
  | vectorArbitration v => exact execVectorArbitration_keeps v s
  | msixSend v => exact execMsixSend_keeps v s
  | evcComplete v src => exact execEvcComplete_keeps v src s
  | evcPendingWrite w value => exact execEvcPendingWrite_keeps w value s
  | evcMaskWrite w value => exact execEvcMaskWrite_keeps w value s
  | evcRescan words => exact execEvcRescan_keeps words s
  | d3hotEntry => exact execD3hotEntry_keeps s
  | d0Return => exact execD0Return_keeps s
  | l2Entry => exact execL2Entry_keeps s
  | perstRelease speed width good => exact execPerstRelease_keeps speed width good s
  | cntRead ix strikes => exact execCntRead_keeps ix strikes s
  | cntReadClear ix strikes => exact execCntReadClear_keeps ix strikes s
  | cntZero ix => exact execCntZero_keeps ix s
  | counterCacheWriteback ix strikes => exact execCounterCacheWriteback_keeps ix strikes s
  | freeze => exact execFreeze_keeps s
  | freezeInstant => exact execFreezeInstant_keeps s
  | thaw => exact execThaw_keeps s
  | snapshot => exact execSnapshot_keeps s
  | snapshotComplete => exact execSnapshotComplete_keeps s
  | bwWindowBoundary => exact execBwWindowBoundary_keeps s
  | isampClear => exact execIsampClear_keeps s
  | powerUp => exact execPowerUp_keeps s
  | powerShutdown cause => exact execPowerShutdown_keeps cause s
  | vinRestore => exact execVinRestore_keeps s
  | telemetryUpdate vin iin pin tjF tjT tStage icoreF icoreT vddqBad => exact execTelemetryUpdate_keeps vin iin pin tjF tjT tStage icoreF icoreT vddqBad s
  | coldStart failFwd failTrf failed flashOk peerActing took => exact execColdStart_keeps failFwd failTrf failed flashOk peerActing took s
  | warmRestart pulse failFwd failTrf failed varnishOk peerActing took => exact execWarmRestart_keeps pulse failFwd failTrf failed varnishOk peerActing took s
  | varnishMirror flashOk => exact execVarnishMirror_keeps flashOk s
  | getInfo flashOk => exact execGetInfo_keeps flashOk s
  | flashRead flashOk => exact execFlashRead_keeps flashOk s
  | flashWrite flashOk => exact execFlashWrite_keeps flashOk s
  | verifySlot flashOk => exact execVerifySlot_keeps flashOk s
  | setBoot flashOk => exact execSetBoot_keeps flashOk s
  | confirm flashOk => exact execConfirm_keeps flashOk s
  | switchFw flashOk took => exact execSwitchFw_keeps flashOk took s
  | loomLoad flashOk => exact execLoomLoad_keeps flashOk s
  | loomSwap => exact execLoomSwap_keeps s
  | stageCoat flashOk => exact execStageCoat_keeps flashOk s
  | restartWarm flashOk => exact execRestartWarm_keeps flashOk s
  | attest => exact execAttest_keeps s
  | getIdentity => exact execGetIdentity_keeps s
  | keyProgram => exact execKeyProgram_keeps s
  | keyRevoke => exact execKeyRevoke_keeps s
  | raiseVersion => exact execRaiseVersion_keeps s
  | logRead flashOk => exact execLogRead_keeps flashOk s
  | mirrorNow flashOk => exact execMirrorNow_keeps flashOk s
  | restartCold => exact execRestartCold_keeps s
  | announceSend => exact execAnnounceSend_keeps s
  | timeSend sub => exact execTimeSend_keeps sub s
  | mapSend => exact execMapSend_keeps s
  | announceReceive l m fcs => exact execAnnounceReceive_keeps l m fcs s
  | timeReceive l m fcs sub => exact execTimeReceive_keeps l m fcs sub s
  | mapReceive l m fcs => exact execMapReceive_keeps l m fcs s
  | joinReceive l m fcs => exact execJoinReceive_keeps l m fcs s
  | prepareReceive l m fcs => exact execPrepareReceive_keeps l m fcs s
  | replyReceive l m fcs => exact execReplyReceive_keeps l m fcs s
  | replyTimeout => exact execReplyTimeout_keeps s
  | cancelReceive l m fcs => exact execCancelReceive_keeps l m fcs s
  | uplinkLost lock => exact execUplinkLost_keeps lock s
  | secondaryTakeover => exact execSecondaryTakeover_keeps s
  | revert => exact execRevert_keeps s
  | commitGo coat t => exact execCommitGo_keeps coat t s
  | commitDeadline => exact execCommitDeadline_keeps s
  | commitCompare => exact execCommitCompare_keeps s
  | mapRemove md => exact execMapRemove_keeps md s
  | pcsStatusChange p blockLock amLock lf rf errs => exact execPcsStatusChange_keeps p blockLock amLock lf rf errs s
  | markerCandidate ix pos => exact execMarkerCandidate_keeps ix pos s
  | flexeInstanceEnable ix v => exact execFlexeInstanceEnable_keeps ix v s
  | caParityError ch fails => exact execCaParityError_keeps ch fails s
  | porstNAssert dur acts => exact execPorstNAssert_keeps dur acts s
  | telemStale => exact execTelemStale_keeps s
  | emvexLaneDown l lock => exact execEmvexLaneDown_keeps l lock s

/-- A step never stops. -/
theorem step_next (s : State) : ∃ t, step s = .next t := by
  unfold step
  split
  · exact ⟨_, rfl⟩
  · obtain ⟨t, h, _⟩ := exec_keeps _ _
    exact ⟨t, h⟩

/-- What a step leaves of the queue, the register space, the record of outputs and the count of free values. -/
theorem step_keeps {s t : State} (h : step s = .next t) :
    t.pending = s.pending.tail ∧ (s.regsOk = true → t.regsOk = true) ∧ (∃ l, t.outputs = s.outputs ++ l) ∧ s.freeCtr ≤ t.freeCtr := by
  unfold step at h
  split at h
  · rename_i hp
    cases h
    obtain ⟨h1, h2, h3, h4⟩ := State.idle_keeps s
    exact ⟨by rw [h1, hp]; rfl, h2, h3, h4⟩
  · rename_i c rest hp
    obtain ⟨u, hu, h1, h2, h3, h4⟩ := exec_keeps c { s with pending := rest }
    rw [hu] at h
    cases h
    exact ⟨by rw [h1, hp]; rfl, h2, h3, h4⟩

end Sys2Proof.Machine
end

