-- ==== Sys2Proof/Laws/Strikes.lean ====
section
/-!
SUPPORT. No error strikes: the state is as it was.
-/
namespace Sys2Proof.Machine

@[simp] theorem State.strikeDram_nil (s : State) (ch : Nat) : s.strikeDram ch [] [] [] = s := by
  simp [State.strikeDram, State.withDram]

@[simp] theorem State.strikePair_nil (s : State) (i : Nat) : s.strikePair i [] = s := by
  simp [State.strikePair]

@[simp] theorem State.strikeCanvas_nil (s : State) : s.strikeCanvas [] = s := by
  simp [State.strikeCanvas, State.withBadWords]

end Sys2Proof.Machine
end

