-- ==== Sys2Proof/Machine/Package.lean ====
section
/-!
DEFINITION. The package and its supply: ratings, the most power a configuration draws, the junction (R593 to R595, R611), and the ball
assignment (R24, R607 to R610).
-/
namespace Sys2Proof.Machine

/-! ### Ratings, power and temperature -/

/-- R593: VIN, VDDQ and VIO_FLASH in mV and a junction temperature in °C within the absolute maximum ratings. -/
def withinRatings (vin vddq vio tj : Int) : Bool :=
  decide (-300 ≤ vin) && decide (vin ≤ 66000) && decide (-300 ≤ vddq) && decide (vddq ≤ 1500) && decide (-300 ≤ vio) &&
    decide (vio ≤ 4000) && decide (tj ≤ 125)

/-- R594: the case and junction in °C, VIN, VDDQ and VIO_FLASH in mV and the input current in mA are within the operating conditions of a
grade, X or C. -/
def withinConditions (gradeX : Bool) (tcase tj vin vddq vio iin : Int) : Bool :=
  decide ((if gradeX then -40 else 0) ≤ tcase) && decide (tcase ≤ if gradeX then 95 else 90) && decide (tj ≤ 115) &&
    decide (6000 ≤ vin) && decide (vin ≤ 60000) && decide (iin ≤ 50000) && decide (1140 ≤ vddq) && decide (vddq ≤ 1260) &&
    ((decide (1710 ≤ vio) && decide (vio ≤ 1890)) || (decide (3135 ≤ vio) && decide (vio ≤ 3465)))

/-- R595: an Ethernet lane of a LANE_RATE code, in mW. -/
def laneMw (rate : Nat) : Nat := if rate = 3 then 1125 else if rate = 2 then 700 else 400

/-- The sum of a number over the indices below a bound that a test picks. -/
def sumOver (n : Nat) (p : Nat → Bool) (f : Nat → Nat) : Nat := (((List.range n).filter p).map f).sum

/-- R595: the most power in mW that the module draws as it is configured, with `offered` million packets a second offered. -/
def State.maxPower (s : State) (offered : Nat) : Nat :=
  let economy := s.rd F.EAS_PACE_CFG.CLASS = 1
  let core := if economy then 80000 + 115000 * offered / 3600 else 92000 + 180000 * offered / 4800
  let ports := sumOver 64 (fun p => s.on F.ETH_PORT_CFG.EN p) (fun p => s.portLanes p * laneMw (s.rd F.ETH_PORT_CFG.LANE_RATE p))
  let trees := sumOver 48 s.treeEn (fun n => if s.rd F.LOOM_TREE_CFG.TYPE n = 1 then 1000 else 500)
  let fabric := sumOver 96 (fun l => (s.rd F.FAB_LANE_EN.EN (l / 64)).testBit (l % 64)) (fun _ => 1125)
  let dram := s.channelCount * (2900 + 200 * s.rd F.DMC_FREQ_STATUS.CURRENT)
  core + ports + trees + fabric + dram + sumOver 18 s.wired (fun _ => 100) +
    (if s.rd F.HST_PCIE_STATUS.SPEED = 0 then 0 else 2200) + 8000

/-- R611: the highest junction temperature, in m°C, with the case at `tcase` m°C and `p` mW drawn. -/
def junctionMax (tcase : Int) (p : Nat) : Int := tcase + 35 * (p : Int) / 1000

/-! ### Balls (R24, R607 to R610) -/

/-- R24: the letters of ball rows. -/
def rowLetters : List Char :=
  ['A', 'B', 'C', 'D', 'E', 'F', 'G', 'H', 'J', 'K', 'L', 'M', 'N', 'P', 'T', 'U', 'V', 'W', 'Y']

/-- R24: the name of row `r`, from 1 for A to 72 for CT. -/
def rowName (r : Nat) : List Char :=
  let c (i : Nat) : Char := rowLetters.getD i 'A'
  if r ≤ 19 then [c (r - 1)] else [c ((r - 20) / 19), c ((r - 20) % 19)]

/-- The signals of a SerDes lane. -/
inductive LaneSig where
  | txp | txn | rxp | rxn
  deriving DecidableEq, Repr

/-- The signals of a DDR4 channel (R609). -/
inductive DdrSig where
  | dq (n : Nat) | cb (n : Nat) | dqsT (n : Nat) | dqsC (n : Nat) | a (n : Nat) | ba (n : Nat) | bg (n : Nat) | csN (n : Nat) | cke (n : Nat)
  | odt (n : Nat) | ckT (n : Nat) | ckC (n : Nat) | zq | actN | par | alertN | resetN
  deriving DecidableEq, Repr

/-- What a ball carries; `p` tells the P from the N ball of a clock. -/
inductive Ball where
  | gnd | vin | vddq | vioFlash
  | ln (n : Nat) (g : LaneSig) | fb (n : Nat) (g : LaneSig) | pcie (n : Nat) (g : LaneSig) | emvex (n : Nat) (g : LaneSig)
  | lref (k : Nat) (p : Bool) | fref (k : Nat) (p : Bool) | pcieRefclk (p : Bool) | sysref (p : Bool)
  | pbrReset (n : Nat) | pbrSd (n : Nat)
  | mc (k : Nat) (g : DdrSig)
  | porstN | warmrstN | pciePerstN | pwrOk | eventN | wakeN | ppsIn | ppsOut | testEn
  | spiClk | spiCsN | spiDqs | spiResetN | spiIo (n : Nat)
  deriving DecidableEq, Repr

/-- R608: the ball of a lane in the `i`-th of its six rows. -/
def laneBall (f : LaneSig → Ball) (i : Nat) : Ball :=
  match i with
  | 0 => f .txp
  | 1 => f .txn
  | 3 => f .rxp
  | 4 => f .rxn
  | _ => .gnd

/-- R609: the signals of row `b` of a channel's block, in column order; VDDQ and GND fill the rest. -/
def channelRow (b : Nat) : List DdrSig :=
  match b with
  | 0 => (List.range 18).map .dq
  | 1 => (List.range 18).map (fun j => .dq (18 + j))
  | 2 => (List.range 18).map (fun j => .dq (36 + j))
  | 3 => (List.range 10).map (fun j => .dq (54 + j)) ++ (List.range 8).map .cb
  | 4 => (List.range 8).map (fun j => .cb (8 + j)) ++ [.zq]
  | 5 => (List.range 18).map .dqsT
  | 6 => (List.range 18).map .dqsC
  | 7 => [.dqsT 18, .dqsC 18, .dqsT 19, .dqsC 19]
  | 8 => (List.range 18).map .a
  | 9 => [.ba 0, .ba 1, .bg 0, .bg 1, .actN, .csN 0, .csN 1, .cke 0, .cke 1, .odt 0, .odt 1, .ckT 0, .ckC 0, .ckT 1, .ckC 1, .par, .alertN,
      .resetN]
  | _ => []

/-- R609: the ball in row `b` and column `j` of channel `k`'s block. -/
def channelBall (k b j : Nat) : Ball :=
  match (channelRow b)[j]? with
  | some g => .mc k g
  | none => if b = 7 then .vddq else .gnd

/-- R608, R610: row G from column 53 on. -/
def rowG : List Ball :=
  [.porstN, .warmrstN, .pciePerstN, .pwrOk, .eventN, .wakeN, .ppsIn, .ppsOut, .sysref true, .sysref false, .gnd, .spiClk, .spiCsN, .spiDqs,
   .spiResetN, .vioFlash]

/-- R608, R610: row H from column 53 on. -/
def rowH : List Ball := (List.range 8).map .spiIo ++ [.vioFlash, .testEn]

/-- R607 to R610: the ball in row `r`, 1 for A to 72 for CT, and column `c`, 1 to 72. -/
def ballAt (r c : Nat) : Ball :=
  if r ≤ 6 then
    if c ≤ 4 then (if r ≤ 2 then .lref (c - 1) (r == 1) else .gnd)
    else if c ≤ 68 then laneBall (.ln (c - 5)) (r - 1)
    else .gnd
  else if r ≤ 8 then
    if c < 5 then .gnd
    else if c ≤ 52 then (if r = 7 then .pbrReset (c - 5) else .pbrSd (c - 5))
    else ((if r = 7 then rowG else rowH)[c - 53]?).getD .gnd
  else if r ≤ 52 then channelBall (4 * ((r - 9) / 11) + (c - 1) / 18) ((r - 9) % 11) ((c - 1) % 18)
  else if r ≤ 60 then
    if 33 ≤ c then (if r = 53 ∨ r = 55 ∨ r = 57 ∨ r = 59 then .vin else .gnd)
    else if 58 < r then .gnd
    else if c ≤ 8 then laneBall (.pcie (c - 1)) (r - 53)
    else if c = 9 then (if r ≤ 54 then .pcieRefclk (r == 53) else .gnd)
    else if 11 ≤ c ∧ c ≤ 28 then laneBall (.emvex (c - 11)) (r - 53)
    else .gnd
  else
    let k := (r - 61) / 6
    let i := (r - 61) % 6
    if c = 1 ∧ i ≤ 1 then .fref k (i == 0)
    else if 13 ≤ c ∧ c ≤ 60 then laneBall (.fb (48 * k + (c - 13))) i
    else .gnd

end Sys2Proof.Machine
end

