-- ==== Sys2Proof/Machine/Pins.lean ====
section
/-!
DEFINITION. The levels of the part's output pins (R397, R464, R482, R504, R510, R600, R605, R606).
-/
namespace Sys2Proof.Machine

/-- An open-drain pin: pulled low, or released. -/
def openDrain (asserted : Bool) : Drive := if asserted then .low else .floating

/-- EVENT_N (R504, R605). -/
def State.eventPin (s : State) : Drive := openDrain (s.power.on && s.eventN)

/-- WAKE_N (R510, R605). -/
def State.wakePin (s : State) : Drive := openDrain (s.power.on && s.host.wakeN)

/-- PWR_OK (R600, R605). -/
def State.pwrOkPin (s : State) : Drive := if s.on F.EAS_PWR_STATUS.PWR_OK then .high else .low

/-- PPS_OUT (R482, R605). -/
def State.ppsPin (s : State) : Drive := if s.time.ppsOut then .high else .low

/-- PBR_RESET of tree `n`'s lane outside a pulse (R397, R605): at high impedance until the Ground image has set LOOM_OPT_CFG. -/
def State.pbrPin (s : State) (n : Nat) : Drive :=
  if !s.easel.readyOnce then .floating
  else if (!s.treeEn n) == s.on F.LOOM_OPT_CFG.RESET_POL n then .low
  else .high

/-- R332, R606: what a DDR4 channel's pins are held at while it is not enabled. -/
def State.ddrPins (s : State) (ch : Nat) : Option DdrPins := if ch < s.channelCount then none else some DdrPins.off

end Sys2Proof.Machine
end

