-- ==== Sys2Proof/Tests/Slice0.lean ====
section
/-!
SUPPORT. Tests: an ill-formed command for each check of well-formedness, which the check refuses; figures of the spec's worked examples;
and, for each statement of Certificates/Slice0/Obligations.lean that has hypotheses, a witness for each of its clauses: a concrete state
and operands that meet the clause's hypotheses together. The witnesses' propositions are the hypotheses as the statements have them.
-/
namespace Sys2Proof.Tests
open Sys2Proof Sys2Proof.Machine
set_option Elab.async false
set_option linter.unusedVariables false

/-! ### Ill-formed commands are refused -/

theorem test_wf_refuses_1 :
    (Instr.registerWrite 3 0 0 0).wf = false ∧
    (Instr.registerWrite 0 (2 ^ 26) 0 0).wf = false ∧
    (Instr.registerWrite 0 0 0 (2 ^ 64)).wf = false ∧
    (Instr.badRegisterAccess false 3 0 0 0).wf = false ∧
    (Instr.badRegisterAccess false 0 (2 ^ 26) 0 0).wf = false ∧
    (Instr.badRegisterAccess false 0 0 0 (2 ^ 64)).wf = false ∧
    (Instr.read64LowWord (2 ^ 26)).wf = false ∧
    (Instr.write64LowWord (2 ^ 26) 0).wf = false ∧
    (Instr.write64LowWord 0 (2 ^ 32)).wf = false ∧
    (Instr.readClearField 3 0 0).wf = false ∧
    (Instr.readClearField 0 (2 ^ 26) 0).wf = false ∧
    (Instr.latchingRead (2 ^ 26) 0).wf = false ∧
    (Instr.flitCrcReplay false false 4).wf = false ∧
    (Instr.frameReceive 176 (List.replicate 272 0) false false 0).wf = false ∧
    (Instr.frameReceive 0 (List.replicate 272 0) false false 640).wf = false ∧
    (Instr.pauseRepeat 64).wf = false ∧
    (Instr.pauseFrameReceive 64 0).wf = false ∧
    (Instr.pauseFrameReceive 0 65536).wf = false ∧
    (Instr.pauseQuantaExpiry 64).wf = false ∧
    (Instr.contextGrant 212).wf = false := by
  decide

theorem test_wf_refuses_2 :
    (Instr.earlyLookupIssue 4096 false).wf = false ∧
    (Instr.programStart 4096).wf = false ∧
    (Instr.sketchLd 4096).wf = false ∧
    (Instr.sketchLdh 4096).wf = false ∧
    (Instr.sketchMov 4096).wf = false ∧
    (Instr.sketchAdd 4096).wf = false ∧
    (Instr.sketchSub 4096).wf = false ∧
    (Instr.sketchAnd 4096).wf = false ∧
    (Instr.sketchOr 4096).wf = false ∧
    (Instr.sketchXor 4096).wf = false ∧
    (Instr.sketchShl 4096).wf = false ∧
    (Instr.sketchShr 4096).wf = false ∧
    (Instr.sketchCsum 4096).wf = false ∧
    (Instr.sketchXcp 4096).wf = false ∧
    (Instr.sketchSth 4096).wf = false ∧
    (Instr.sketchGetc 4096).wf = false ∧
    (Instr.sketchAdv 4096).wf = false ∧
    (Instr.sketchSetc 4096).wf = false ∧
    (Instr.sketchHdr 4096).wf = false ∧
    (Instr.sketchLchk 4096).wf = false := by
  decide

theorem test_wf_refuses_3 :
    (Instr.sketchBeq 4096).wf = false ∧
    (Instr.sketchBne 4096).wf = false ∧
    (Instr.sketchBlt 4096).wf = false ∧
    (Instr.sketchBge 4096).wf = false ∧
    (Instr.sketchBts 4096).wf = false ∧
    (Instr.sketchBtc 4096).wf = false ∧
    (Instr.sketchJmp 4096).wf = false ∧
    (Instr.sketchCall 4096).wf = false ∧
    (Instr.sketchJr 4096).wf = false ∧
    (Instr.sketchDone 4096).wf = false ∧
    (Instr.sketchExc 4096).wf = false ∧
    (Instr.sketchDrop 4096).wf = false ∧
    (Instr.sketchNop 4096).wf = false ∧
    (Instr.headerVectorSend 4096).wf = false ∧
    (Instr.portSelection 512 false).wf = false ∧
    (Instr.frameTransmit 512 0).wf = false ∧
    (Instr.frameTransmit 0 640).wf = false ∧
    (Instr.paceWindow []).wf = false ∧
    (Instr.portEnable 64 0).wf = false ∧
    (Instr.portEnable 0 (2 ^ 64)).wf = false := by
  decide

theorem test_wf_refuses_4 :
    (Instr.portDisable 64 0 false).wf = false ∧
    (Instr.portDisable 0 (2 ^ 64) false).wf = false ∧
    (Instr.linkDown 64 false).wf = false ∧
    (Instr.linkUp 64).wf = false ∧
    (Instr.ohCandidateCheck 64 0 false).wf = false ∧
    (Instr.ohPositionCheck 64 false false false false false false false 0 [] []).wf = false ∧
    (Instr.ohPositionCheck 0 false false false false false false false (2 ^ 20) [] []).wf = false ∧
    (Instr.ohFieldAccept 64).wf = false ∧
    (Instr.txPageSwitch (16, true)).wf = false ∧
    (Instr.protHoldoffExpiry 64).wf = false ∧
    (Instr.protCaTimeout 16).wf = false ∧
    (Instr.agentRead 8).wf = false ∧
    (Instr.agentWrite 8).wf = false ∧
    (Instr.agentInsert 8).wf = false ∧
    (Instr.agentDelete 8).wf = false ∧
    (Instr.agentSearch 8).wf = false ∧
    (Instr.agentMove 8).wf = false ∧
    (Instr.suspectRepair 524288).wf = false ∧
    (Instr.stencilScrubStep 128 []).wf = false ∧
    (Instr.stencilScrubStep 0 [(524288, none)]).wf = false := by
  decide

theorem test_wf_refuses_5 :
    (Instr.sramScrub [(5, 0, true)]).wf = false ∧
    (Instr.descWord0Write false 256 0).wf = false ∧
    (Instr.descWord0Write false 0 (2 ^ 64)).wf = false ∧
    (Instr.bankWidthWrite 128 0).wf = false ∧
    (Instr.bankWidthWrite 0 4).wf = false ∧
    (Instr.ageUnitTick 256).wf = false ∧
    (Instr.ageEntryVisit 256 0).wf = false ∧
    (Instr.setDescWord0Write false 64 0).wf = false ∧
    (Instr.setDescWord0Write false 0 (2 ^ 64)).wf = false ∧
    (Instr.bufferAllocate 7 0 0).wf = false ∧
    (Instr.bufferAllocate 0 64 0).wf = false ∧
    (Instr.bufferAllocate 0 0 2).wf = false ∧
    (Instr.bufferReference (2 ^ 32) 0).wf = false ∧
    (Instr.bufferFree (2 ^ 32) 0).wf = false ∧
    (Instr.bufferFree 0 64).wf = false ∧
    (Instr.bufferTransfer (2 ^ 32) 0 0).wf = false ∧
    (Instr.bufferTransfer 0 64 0).wf = false ∧
    (Instr.bufferTransfer 0 0 64).wf = false ∧
    (Instr.spillMove 1064960).wf = false ∧
    (Instr.runAheadStep 1064960).wf = false := by
  decide

theorem test_wf_refuses_6 :
    (Instr.runAheadLand 1064960).wf = false ∧
    (Instr.queueFlush 1064960).wf = false ∧
    (Instr.shaperRefill 3 0).wf = false ∧
    (Instr.shaperRefill 0 1048576).wf = false ∧
    (Instr.voqDequeue [(167772160, true)]).wf = false ∧
    (Instr.portNodeEnable 512 0).wf = false ∧
    (Instr.portNodeEnable 0 (2 ^ 32)).wf = false ∧
    (Instr.portLinkLost 512 false).wf = false ∧
    (Instr.portLinkReturn 512).wf = false ∧
    (Instr.portHoldExpiry 512).wf = false ∧
    (Instr.portFlushComplete 512).wf = false ∧
    (Instr.portNodeDisable 512 0).wf = false ∧
    (Instr.portNodeDisable 0 (2 ^ 32)).wf = false ∧
    (Instr.queueFlushComplete 1064960).wf = false ∧
    (Instr.dramCommandIssue 16 []).wf = false ∧
    (Instr.dramCommandIssue 0 [(2 ^ 40, 0)]).wf = false ∧
    (Instr.dramReadReturn 16 [] [] []).wf = false ∧
    (Instr.dramReadReturn 0 [(2 ^ 40, 0)] [] []).wf = false ∧
    (Instr.dramReadReturn 0 [] [(0, 2 ^ 16)] []).wf = false ∧
    (Instr.dramReadReturn 0 [] [] [20]).wf = false := by
  decide

theorem test_wf_refuses_7 :
    (Instr.refresh 16).wf = false ∧
    (Instr.tempWrite 256).wf = false ∧
    (Instr.patrolScrub 16 [] [] []).wf = false ∧
    (Instr.patrolScrub 0 [(2 ^ 40, 0)] [] []).wf = false ∧
    (Instr.patrolScrub 0 [] [(0, 2 ^ 16)] []).wf = false ∧
    (Instr.patrolScrub 0 [] [] [20]).wf = false ∧
    (Instr.fullTraining [16]).wf = false ∧
    (Instr.periodicTrainingStep 16).wf = false ∧
    (Instr.trainingStepEnd 16).wf = false ∧
    (Instr.channelLost 16 1).wf = false ∧
    (Instr.channelLost 0 3).wf = false ∧
    (Instr.freqGo 4).wf = false ∧
    (Instr.freqTrainingComplete [] [16]).wf = false ∧
    (Instr.freqTrainingComplete [16] []).wf = false ∧
    (Instr.laneLock 96).wf = false ∧
    (Instr.laneDown 96).wf = false ∧
    (Instr.laneEnWrite 2 0).wf = false ∧
    (Instr.laneEnWrite 0 (2 ^ 64)).wf = false ∧
    (Instr.slotTransmit 96).wf = false ∧
    (Instr.swatchReceive 96 (List.replicate 272 0)).wf = false := by
  decide

theorem test_wf_refuses_8 :
    (Instr.swatchReceive 0 []).wf = false ∧
    (Instr.creditSwatchReceive 96 (List.replicate 272 0)).wf = false ∧
    (Instr.creditSwatchReceive 0 []).wf = false ∧
    (Instr.linkControlReceive 96 (List.replicate 272 0)).wf = false ∧
    (Instr.linkControlReceive 0 []).wf = false ∧
    (Instr.creditIssue 2048 0).wf = false ∧
    (Instr.creditIssue 0 8).wf = false ∧
    (Instr.unreachExpiry 2048).wf = false ∧
    (Instr.gapRelease 2048 0).wf = false ∧
    (Instr.gapRelease 0 8).wf = false ∧
    (Instr.treeEnable 48 0).wf = false ∧
    (Instr.treeEnable 0 (2 ^ 64)).wf = false ∧
    (Instr.treeDisable 48 0).wf = false ∧
    (Instr.treeDisable 0 (2 ^ 64)).wf = false ∧
    (Instr.downstreamFrame 48).wf = false ∧
    (Instr.bwmapCompute 48).wf = false ∧
    (Instr.dbaCycle 48).wf = false ∧
    (Instr.burstReceive 48 0 0 0 0 0 []).wf = false ∧
    (Instr.burstMissed 48 false).wf = false ∧
    (Instr.pbrResetPulse 48).wf = false := by
  decide

theorem test_wf_refuses_9 :
    (Instr.snWindowOpen 48).wf = false ∧
    (Instr.serialNumberOnu 48 false 0 0 0 false []).wf = false ∧
    (Instr.serialNumberOnu 0 false (2 ^ 64) 0 0 false []).wf = false ∧
    (Instr.rangingResponse 48 0 0 false 0 0 []).wf = false ∧
    (Instr.rangingResponse 0 256 0 false 0 0 []).wf = false ∧
    (Instr.rangingWindowClose 48 0).wf = false ∧
    (Instr.rangingWindowClose 0 256).wf = false ∧
    (Instr.to2Expiry 48 0).wf = false ∧
    (Instr.to2Expiry 0 256).wf = false ∧
    (Instr.onuDeactivate 48).wf = false ∧
    (Instr.onuDisable 48).wf = false ∧
    (Instr.onuEnable 48).wf = false ∧
    (Instr.onuReqReg 48).wf = false ∧
    (Instr.upstreamPloam 48 0 false none []).wf = false ∧
    (Instr.upstreamPloam 0 256 false none []).wf = false ∧
    (Instr.sndisClear 64).wf = false ∧
    (Instr.reassemblyTimeout 32768).wf = false ∧
    (Instr.upstreamXgemFrame 48 0 0 0 false false (List.replicate 272 0)).wf = false ∧
    (Instr.upstreamXgemFrame 0 0 65536 0 false false (List.replicate 272 0)).wf = false ∧
    (Instr.upstreamXgemFrame 0 0 0 4 false false (List.replicate 272 0)).wf = false := by
  decide

theorem test_wf_refuses_10 :
    (Instr.rogueFrameEval 48 [] false).wf = false ∧
    (Instr.probeGo 48 0 0).wf = false ∧
    (Instr.probeGo 0 256 0).wf = false ∧
    (Instr.probeGo 0 0 256).wf = false ∧
    (Instr.probeEnd 48).wf = false ∧
    (Instr.allocEnable 32768 0).wf = false ∧
    (Instr.allocEnable 0 (2 ^ 64)).wf = false ∧
    (Instr.gemEnable 65536 0).wf = false ∧
    (Instr.gemEnable 0 (2 ^ 64)).wf = false ∧
    (Instr.launchEligible 1048576).wf = false ∧
    (Instr.ppsInEdge 640).wf = false ∧
    (Instr.doorbellWrite 67 0 0).wf = false ∧
    (Instr.doorbellWrite 0 3 0).wf = false ∧
    (Instr.doorbellWrite 0 0 (2 ^ 64)).wf = false ∧
    (Instr.puntWrite 32 0).wf = false ∧
    (Instr.puntWrite 0 (2 ^ 64)).wf = false ∧
    (Instr.injectFetch 32 (List.replicate 64 0) []).wf = false ∧
    (Instr.injectFetch 0 [] []).wf = false ∧
    (Instr.dmaError 67 false).wf = false ∧
    (Instr.ringEnable 67).wf = false := by
  decide

theorem test_wf_refuses_11 :
    (Instr.ringDisable 67).wf = false ∧
    (Instr.coalesceTime 64).wf = false ∧
    (Instr.vectorArbitration 64).wf = false ∧
    (Instr.msixSend 64).wf = false ∧
    (Instr.evcComplete 64 0).wf = false ∧
    (Instr.evcComplete 0 256).wf = false ∧
    (Instr.evcPendingWrite 8 0).wf = false ∧
    (Instr.evcPendingWrite 0 (2 ^ 32)).wf = false ∧
    (Instr.evcMaskWrite 8 0).wf = false ∧
    (Instr.evcMaskWrite 0 (2 ^ 32)).wf = false ∧
    (Instr.evcRescan 256).wf = false ∧
    (Instr.perstRelease 8 0 false).wf = false ∧
    (Instr.perstRelease 0 16 false).wf = false ∧
    (Instr.cntRead 0 [(2 ^ 40, 0)]).wf = false ∧
    (Instr.cntRead 17039360 []).wf = false ∧
    (Instr.cntReadClear 0 [(2 ^ 40, 0)]).wf = false ∧
    (Instr.cntReadClear 17039360 []).wf = false ∧
    (Instr.cntZero 17039360).wf = false ∧
    (Instr.counterCacheWriteback 0 [(2 ^ 40, 0)]).wf = false ∧
    (Instr.counterCacheWriteback 17039360 []).wf = false := by
  decide

theorem test_wf_refuses_12 :
    (Instr.powerShutdown 0).wf = false ∧
    (Instr.telemetryUpdate 65536 0 0 0 0 0 0 0 false).wf = false ∧
    (Instr.telemetryUpdate 0 65536 0 0 0 0 0 0 false).wf = false ∧
    (Instr.telemetryUpdate 0 0 65536 0 0 0 0 0 false).wf = false ∧
    (Instr.telemetryUpdate 0 0 0 0 0 0 65536 0 false).wf = false ∧
    (Instr.telemetryUpdate 0 0 0 0 0 0 0 65536 false).wf = false ∧
    (Instr.coldStart 0 0 [16] false false 0).wf = false ∧
    (Instr.coldStart 0 0 [] false false 1800000001).wf = false ∧
    (Instr.warmRestart (0, false) 0 0 [16] false false 0).wf = false ∧
    (Instr.warmRestart (0, false) 0 0 [] false false 250000001).wf = false ∧
    (Instr.switchFw false 500000001).wf = false ∧
    (Instr.timeSend 640).wf = false ∧
    (Instr.announceReceive 18 [] false).wf = false ∧
    (Instr.timeReceive 18 [] false 0).wf = false ∧
    (Instr.timeReceive 0 [] false 640).wf = false ∧
    (Instr.mapReceive 18 [] false).wf = false ∧
    (Instr.joinReceive 18 [] false).wf = false ∧
    (Instr.prepareReceive 18 [] false).wf = false ∧
    (Instr.replyReceive 18 [] false).wf = false ∧
    (Instr.cancelReceive 18 [] false).wf = false := by
  decide

theorem test_wf_refuses_13 :
    (Instr.commitGo 65536 0).wf = false ∧
    (Instr.commitGo 0 (2 ^ 64)).wf = false ∧
    (Instr.mapRemove 2048).wf = false ∧
    (Instr.pcsStatusChange 64 false false false false (false, 0, 0, 0)).wf = false ∧
    (Instr.markerCandidate 64 0).wf = false ∧
    (Instr.flexeInstanceEnable 64 0).wf = false ∧
    (Instr.flexeInstanceEnable 0 (2 ^ 32)).wf = false ∧
    (Instr.caParityError 16 0).wf = false ∧
    (Instr.emvexLaneDown 18 false).wf = false := by
  decide

/-! ### States for the tests -/

/-- A state after reset in which the part is READY: powered, out of reset, with the Seam up. -/
def up : State :=
  let s := (State.reset.withEasel { State.reset.easel with readyOnce := true }).withPower { State.reset.power with on := true, released := true }
  (s.wr F.EAS_SEAM_STATUS.UP 0 1).wr F.EAS_BOOT_STATUS.STATE 0 2

/-- That state with some fields set. -/
def st (l : List (Fld × Nat × Nat)) : State := l.foldl (fun s e => s.wr e.1 e.2.1 e.2.2) up


/-- A frame of 60 octets that has arrived on port 3 and is to leave on it. -/
def pk : Pkt := Pkt.fresh (List.replicate 60 7) ⟨3, 3, 0, false, 0, 0, 0, false, true, false, 64, 64, 0, []⟩

/-- A Sketch instruction word of the opcode, registers, target and immediate given (R136). -/
def sw (op rd ra rb ib tgt imm : Nat) : Nat :=
  op * 2 ^ 58 + rd * 2 ^ 54 + ra * 2 ^ 50 + rb * 2 ^ 46 + ib * 2 ^ 45 + tgt * 2 ^ 32 + imm

/-- An action instruction word of the opcode, temporaries and immediate given (R176). -/
def aw (op td ta tb ib imm : Nat) : Nat :=
  op * 2 ^ 58 + td * 2 ^ 56 + ta * 2 ^ 54 + tb * 2 ^ 52 + ib * 2 ^ 51 + imm

/-- A context of packet 0 that runs. -/
def skC : Ctx := ⟨0, [(1, 7), (2, 9)], 20, 5, true, false, 3⟩

/-- The packet of context 2, with its header window in the header vector. -/
def skP : Pkt := { pk with hv := hvSet (Sparse.putOctets [] 0 ((List.range 60).map (BitVec.ofNat 8))) 0x106 2 60, loc := .ctx 2 }

/-- A state in which context 2 is about to execute a word at address 5 of the active bank. -/
def skS (x : Ctx) (p : Pkt) (w : Nat) : State := ((st [(F.SKT_PROG.INSN, 5, w)]).setCtx 2 (some x)).setPkt 0 p

/-- An action program at address 5 with its temporaries. -/
def acA : Act := ⟨5, 1, [(1, 7), (2, 9)], 0x1234, 99, 3, false, 0, true⟩

/-- A packet in ingress stage 2 whose action program runs. -/
def acP : Pkt := { skP with loc := .acting 2, act := some acA, drec := hvSet [] 0x18 2 60 }

/-- A state in which that packet is about to execute a word at address 5. -/
def acS (p : Pkt) (w : Nat) : State := (st [(F.GLZ_ACT.INSN, 5, w)]).setPkt 0 p

/-- A state with one port node up, one subscriber node and one queue. -/
def scS (l : List (Fld × Nat × Nat)) : State :=
  let s := st ([(F.SCH_PNODE_CFG.EN, 1, 1), (F.SCH_PNODE_CFG.KIND, 1, 0), (F.SCH_PNODE_CFG.TARGET, 1, 3), (F.SCH_PNODE_STATUS.STATE, 1, 1),
    (F.SCH_PNODE_STATUS.LINK, 1, 1), (F.EAS_SEAM_STATUS.UP, 0, 1), (F.SCH_ADM.LIMIT_DP0, 0, 100), (F.ETH_PORT_STATUS.LINK, 3, 1),
    (F.PAL_CLASS_CFG.CEIL, 0, 1000)] ++ l)
  s.withSched { s.sched with subCfg := [(5, BitVec.ofNat 64 (1 + 2 ^ 32))], queueCfg := [(9, BitVec.ofNat 64 (1 + 5 * 2 ^ 32))] }

/-- A packet bound for queue 9. -/
def qP : Pkt := { pk with carry := { pk.carry with queue := 9 }, fate := .forward }

/-- The next state of a command. -/
def nx (c : Instr) (s : State) : State := match exec c s with | .next t => t | _ => s

/-- A state in which command agent 0 is busy with a command on an exact-match table. -/
def agS (op : Nat) (l : List (Fld × Nat × Nat)) : State :=
  st ([(F.TBL_AG_STATUS.BUSY, 0, 1), (F.TBL_AG_CMD.OP, 0, op), (F.TBL_AG_CMD.TABLE, 0, 3), (F.TBL_DESC.KIND, 3, 2), (F.TBL_DESC.PART_CNT, 3, 1),
    (F.TBL_AG_KEY.KEY, 0, 12345), (F.TBL_AG_DATA.WORD, 0, 77)] ++ l)

/-- A state in which buffer 7 has the metadata word given. -/
def plS (w : Nat) (l : List (Fld × Nat × Nat)) : State :=
  (st ([(F.PAL_CLASS_CFG.CEIL, 0, 1000), (F.PAL_CLASS_CFG.CEIL, 6, 1000), (F.PAL_POOL_CFG.SIZE, 0, 655360)] ++ l)).setBuf 7 w

/-- A state in which a packet stands at a Pounce stage. -/
def pnS (l : List (Fld × Nat × Nat)) (v : Nat) (p : Pkt) : State :=
  ((st l).setReg .PNC_SET 5 (BitVec.ofNat 320 v)).setPkt 0 p

/-- A state in which DRAM channel 1 serves. -/
def drS (c : Channel) (l : List (Fld × Nat × Nat)) : State :=
  (st ([(F.DMC_CFG.CHANNELS, 0, 1), (F.DMC_CH_STATUS.UP, 1, 1)] ++ l)).setChan 1 c

/-- A state of a module of a mesh with lane 3 up. -/
def fbS (l : List (Fld × Nat × Nat)) : State :=
  let s := st ([(F.FAB_CFG.MODE, 0, 3), (F.FAB_CFG.MOD_ID, 0, 1), (F.FAB_LANE_EN.EN, 0, 8), (F.FAB_LANE_STATUS.UP, 3, 1),
    (F.FAB_DEST_STATUS.REACHABLE, 5, 1), (F.FAB_DEST_STATUS.EPOCH_KNOWN, 5, 1), (F.FAB_PEER.EXPECT, 0, 32)] ++ l)
  s.withFab { s.fab with quiet := some 0 }

theorem test_wf_accepts :
    (Instr.registerWrite 0 0x100100 4 0xFFFFFFFF).wf = true ∧ (Instr.frameReceive 0 [] true true 0).wf = true ∧
    (Instr.sketchLd 0).wf = true ∧ Instr.restartCold.wf = true := by
  decide

/-! ### Figures of the spec -/

/-- Chapter 4, "encoding two instructions": `LD g4, [cur+2], 16` is 0x0500_0000_0000_F002. -/
theorem test_sketch_ld_word : sketchDecode 0x050000000000F002 = ⟨0x01, 4, 0, 0, false, 0, false, 0xF002⟩ := by decide +kernel

/-- Chapter 4, "encoding two instructions": `BEQ g1, 0x0800, 6` is 0x8004_2006_0000_0800. -/
theorem test_sketch_beq_word : sketchDecode 0x8004200600000800 = ⟨0x20, 0, 1, 0, true, 6, false, 0x800⟩ := by decide +kernel

/-- Chapter 5, "an IPv4 route spread over six paths": instruction 49 is 0x0A00_0000_0002_B034. -/
theorem test_action_ldf_word : actionDecode 0x0A0000000002B034 = ⟨0x02, 2, 0, 0, false, 0x2B034⟩ := by decide +kernel

/-- Chapter 7, "a scan on a slow port": START 54 and LEN 0 on 1,000 octets inspect from 54 up to 512. -/
theorem test_inspected_range : inspectRange (54 * 2 ^ 71) 80 1000 = (54, 512) := by decide

/-- Chapter 14, "residence across two modules": F0 50,000,000,000 ns and RATE 512 take the stamp 52,147,483,648 ns and 0x8000 to T0 and
2,147,483,649.5 ns; T0 is 2,147,482,646 ns modulo 2^32, and the low 32 bits are 0xFFFF_FC17. -/
theorem test_local_time :
    (st [(F.TIM_ANCHOR.F0, 1, 50000000000), (F.TIM_ANCHOR.T0, 1, 2147482646), (F.TIM_ANCHOR.RATE, 1, 512)]).localOf 1
      (52147483648 * 65536 + 0x8000) / 65536 % 2 ^ 32 = 0xFFFFFC17 := by decide +kernel

/-- Chapter 12, "ranging an ONU at 23.4 km": the state of record 7 of tree 12 in its ranging window. -/
def ranged : State :=
  (st [(F.LOOM_TREE_CFG.EN, 12, 1), (F.LOOM_TREE_CFG.DIFF_KM, 12, 40), (F.LOOM_TREE_TIMING.RANGE_MARGIN, 12, 4),
    (F.LOOM_TREE_STATUS.TEQD, 12, 402), (F.LOOM_ONU.STATE, 3079, 2)]).setOnu 3079
    { Onu.idle with rtdEst := 229490 * 16, window := true }

/-- Its answer 229.52 µs after E0 gives RTD 3,672,320 and EQD 2,759,680. -/
theorem test_ranging_eqd :
    (nx (.rangingResponse 12 7 (229520 * 16) true 0 0 []) ranged).rd F.LOOM_ONU.RTD 3079 = 3672320 ∧
    (nx (.rangingResponse 12 7 (229520 * 16) true 0 0 []) ranged).rd F.LOOM_ONU.EQD 3079 = 2759680 := by decide +kernel

/-- An answer 233.60 µs after E0 is late: it is counted and ATTEMPTS becomes 1. -/
theorem test_ranging_late :
    (nx (.rangingResponse 12 7 (233600 * 16) true 0 0 []) ranged).rd F.LOOM_ONU.ATTEMPTS 3079 = 1 ∧
    (nx (.rangingResponse 12 7 (233600 * 16) true 0 0 []) ranged).rd F.LOOM_ACT_CNT.COUNT 152 = 1 := by decide +kernel

/-- Chapter 19, the three balls worked out: MC6 DQS_T5 is AF42, LN17 RXP is D22 and FB60 RXN is CP25. -/
theorem test_balls :
    ballAt 25 42 = .mc 6 (.dqsT 5) ∧ rowName 25 = ['A', 'F'] ∧ ballAt 4 22 = .ln 17 .rxp ∧ rowName 4 = ['D'] ∧
    ballAt 71 25 = .fb 60 .rxn ∧ rowName 71 = ['C', 'P'] := by decide

/-! ### Witnesses -/

theorem witness_SysrefAndTheAnchorSets_1 :
    ∃ (s : State), s.rd F.TIM_STATUS.SYSREF_LOSS = 0 :=
  ⟨up, by decide +kernel⟩

theorem witness_SysrefAndTheAnchorSets_2 :
    ∃ (s : State), s.takes .TIM_ANCHOR_CTRL = true ∧ s.now < s.armedF0 :=
  ⟨st [(F.TIM_ANCHOR.F0, 1, 5)], by decide +kernel⟩

theorem witness_SysrefAndTheAnchorSets_3 :
    ∃ (s : State), s.takes .TIM_ANCHOR_CTRL = true ∧ s.armedF0 < s.now ∧ s.timeValid = true :=
  ⟨(st [(F.TIM_STATUS.VALID, 0, 1)]).withFrc 70000, by decide +kernel⟩

theorem witness_SysrefAndTheAnchorSets_4 :
    ∃ (s : State), s.takes .TIM_ANCHOR_CTRL = true ∧ s.rd F.TIM_STATUS.ARMED = 1 ∧ s.now < s.armedF0 :=
  ⟨st [(F.TIM_ANCHOR.F0, 1, 5), (F.TIM_STATUS.ARMED, 0, 1)], by decide +kernel⟩

theorem witness_SysrefAndTheAnchorSets_5 :
    ∃ (s : State), s.takes .TIM_ANCHOR_CTRL = true ∧ s.armedF0 ≤ s.now :=
  ⟨up, by decide +kernel⟩

theorem witness_SysrefAndTheAnchorSets_6 :
    ∃ (s : State), s.rd F.TIM_STATUS.ARMED = 1 ∧ s.timeValid = true :=
  ⟨st [(F.TIM_ANCHOR.F0, 1, 5), (F.TIM_STATUS.ARMED, 0, 1), (F.TIM_STATUS.VALID, 0, 1)], by decide +kernel⟩

theorem witness_SysrefAndTheAnchorSets_7 :
    ∃ (s : State), s.rd F.TIM_STATUS.ARMED = 1 ∧ s.timeValid = false :=
  ⟨st [(F.TIM_ANCHOR.F0, 1, 5), (F.TIM_STATUS.ARMED, 0, 1)], by decide +kernel⟩

theorem witness_SecondsAreLatchedAndStampsPopped_1 :
    ∃ (s : State), s.timeValid = true :=
  ⟨st [(F.TIM_STATUS.VALID, 0, 1), (F.ETH_RAW.COUNT, 5, 9), (F.ETH_LATCHED.COUNT, 7, 3)], by decide +kernel⟩

theorem witness_SecondsAreLatchedAndStampsPopped_2 :
    ∃ (s : State), s.timeValid = false :=
  ⟨up, by decide +kernel⟩

theorem witness_SecondsAreLatchedAndStampsPopped_3 :
    ∃ (s : State) (e : TxStamp) (q : List TxStamp), s.takes .TIM_TXTS_POP = true ∧ s.time.txts = e :: q ∧ q.length < 512 :=
  ⟨up.withTime { up.time with txts := [⟨1, 2, 3, false, false, false⟩, ⟨70000, 5, 3, true, false, false⟩] }, ⟨1, 2, 3, false, false,
    false⟩, [⟨70000, 5, 3, true, false, false⟩], by decide +kernel⟩

theorem witness_SecondsAreLatchedAndStampsPopped_4 :
    ∃ (s : State), s.takes .TIM_TXTS_POP = true ∧ s.time.txts = [] :=
  ⟨up, by decide +kernel⟩

theorem witness_PulsesPerSecondGoOutAndAreStamped_1 :
    ∃ (s : State), s.rd F.TIM_PPS_CFG.OUT_EN = 1 ∧ s.timeValid = true :=
  ⟨st [(F.TIM_PPS_CFG.OUT_EN, 0, 1), (F.TIM_PPS_CFG.WIDTH, 0, 3), (F.TIM_STATUS.VALID, 0, 1)], by decide +kernel⟩

theorem witness_PulsesPerSecondGoOutAndAreStamped_2 :
    ∃ (s : State), ((s.rd F.TIM_PPS_CFG.OUT_EN = 0 ∨ s.timeValid = false)) :=
  ⟨up, by decide +kernel⟩

theorem witness_PulsesPerSecondGoOutAndAreStamped_3 :
    ∃ (s : State), s.time.ppsOut = true ∧ s.time.ppsFall < 2 ^ 80 :=
  ⟨up.withTime { up.time with ppsOut := true, ppsFall := 77 }, by decide +kernel⟩

theorem witness_PulsesPerSecondGoOutAndAreStamped_4 :
    ∃ (s : State) (sub : Nat), s.rd F.TIM_PPS_CFG.IN_EN = 1 ∧ ((∀ l, s.time.ppsLast = some l → l + ms 500 ≤ (s.stampAt sub).toNat)) :=
  ⟨st [(F.TIM_PPS_CFG.IN_EN, 0, 1)], 3, by decide +kernel⟩

theorem witness_PulsesPerSecondGoOutAndAreStamped_5 :
    ∃ (s : State) (sub : Nat) (l : Nat), s.rd F.TIM_PPS_CFG.IN_EN = 1 ∧ s.time.ppsLast = some l ∧ (s.stampAt sub).toNat < l + ms 500 :=
  ⟨(st [(F.TIM_PPS_CFG.IN_EN, 0, 1)]).withTime { up.time with ppsLast := some 0 }, 3, 0, by decide +kernel⟩

theorem witness_PulsesPerSecondGoOutAndAreStamped_6 :
    ∃ (s : State) (sub : Nat), s.rd F.TIM_PPS_CFG.IN_EN = 0 :=
  ⟨up, 3, by decide +kernel⟩

theorem witness_RefusedAccessesSayWhy_1 :
    ∃ (s : State) (space : Nat) (addr : Nat) (width : Nat) (v : Nat), s.host.asleep = false ∧ s.inReset = false ∧ space ≠ cfgSpace ∧
      goodAccess addr width = false :=
  ⟨up, bar0, 2, 4, 7, by decide +kernel⟩

theorem witness_RefusedAccessesSayWhy_2 :
    ∃ (s : State) (addr : Nat) (width : Nat) (v : Nat), s.host.asleep = false ∧ s.inReset = false ∧ goodAccess addr width = true ∧
      s.easel.readyOnce = true ∧ trafficWindow addr = true ∧ s.rd F.EAS_SEAM_STATUS.UP = 0 :=
  ⟨st [(F.EAS_SEAM_STATUS.UP, 0, 0)], Reg.PAL_ERR_STATUS.info.base, 4, 1, by decide +kernel⟩

theorem witness_RefusedAccessesSayWhy_3 :
    ∃ (s : State) (addr : Nat) (v : Nat), s.host.asleep = false ∧ s.inReset = false ∧ addr % 4 = 0 ∧ s.easel.readyOnce = false ∧
      easWindow addr = false ∧ hstWindow addr = false :=
  ⟨(st [(F.SCH_PORT_HOLD.TIME, 0, 9)]).withEasel { up.easel with readyOnce := false }, Reg.SCH_PORT_HOLD.info.base, 1,
    by decide +kernel⟩

theorem witness_RefusedAccessesSayWhy_4 :
    ∃ (s : State) (c : Instr) (r : Reg), writeOf c = some r ∧ c.wf = true ∧ (s.host.asleep = true ∨ s.inReset = true) :=
  ⟨up.withHost { up.host with asleep := true }, .anchorArm, .TIM_ANCHOR_CTRL, by decide +kernel⟩

theorem witness_RefusedAccessesSayWhy_5 :
    ∃ (s : State) (c : Instr) (r : Reg), writeOf c = some r ∧ c.wf = true ∧ s.host.asleep = false ∧ s.inReset = false ∧ s.gateBoot
      r.info.base = true :=
  ⟨up.withEasel { up.easel with readyOnce := false }, .portEnable 3 1, .ETH_PORT_CFG, by decide +kernel⟩

theorem witness_RefusedAccessesSayWhy_6 :
    ∃ (s : State) (c : Instr) (r : Reg), writeOf c = some r ∧ c.wf = true ∧ s.host.asleep = false ∧ s.inReset = false ∧ s.gateBoot
      r.info.base = false ∧ s.gateSeam r.info.base = true :=
  ⟨st [(F.EAS_SEAM_STATUS.UP, 0, 0)], .errPop, .DMC_ERR_POP, by decide +kernel⟩

theorem witness_HostWriteFollowsTheAccessCodes_1 :
    ∃ (s : State) (addr : Nat) (v : Nat) (r : Reg) (i : Nat) (o : Nat), s.reaches addr 8 = true ∧ Reg.find addr = some (r, i, o) ∧
      r.plain = true ∧ r.info.width ≠ 32 :=
  ⟨((st [(F.EAS_SEAM_STATUS.UP, 0, 1)]).withEasel { up.easel with readyOnce := true }).wr F.PAL_ERR_STATUS.DOUBLE_FREE 0 1,
    Reg.PAL_ERR_STATUS.info.base, 5, .PAL_ERR_STATUS, 0, 0, by decide +kernel⟩

theorem witness_HostReadsClearAndLatch_1 :
    ∃ (s : State) (addr : Nat) (r : Reg) (i : Nat) (o : Nat), s.reaches addr 8 = true ∧ Reg.find addr = some (r, i, o) ∧ r.shown = true
      ∧ r.info.width ≠ 32 ∧ s.tally.frozenPairs = none :=
  ⟨((st [(F.EAS_SEAM_STATUS.UP, 0, 1)]).withEasel { up.easel with readyOnce := true }).wr F.SCH_ACC_DATA.WORD 0 9,
    Reg.SCH_ACC_DATA.info.base, .SCH_ACC_DATA, 0, 0, by decide +kernel⟩

theorem witness_HostReadsClearAndLatch_2 :
    ∃ (s : State) (addr : Nat), s.reaches addr 8 = true ∧ Reg.find addr = some (.TIM_TXTS_HEAD, 0, 0) ∧ s.tally.frozenPairs = none :=
  ⟨((st [(F.EAS_SEAM_STATUS.UP, 0, 1)]).withEasel { up.easel with readyOnce := true }).wr F.TIM_TXTS_HEAD.TS 0 5,
    Reg.TIM_TXTS_HEAD.info.base, by decide +kernel⟩

theorem witness_HostReadsClearAndLatch_3 :
    ∃ (s : State) (addr : Nat) (x : BitVec 64) (y : BitVec 64), s.reaches (addr + 8) 8 = true ∧ Reg.find (addr + 8) = some
      (.TIM_TXTS_HEAD, 0, 8) ∧ Sparse.read none s.host.wordLatch addr = some (x, y) ∧ s.tally.frozenPairs = none :=
  ⟨((st [(F.EAS_SEAM_STATUS.UP, 0, 1)]).withEasel { up.easel with readyOnce := true }).withHost
    { up.host with wordLatch := [(Reg.TIM_TXTS_HEAD.info.base, some (3, 4))] }, Reg.TIM_TXTS_HEAD.info.base, 3, 4, by decide +kernel⟩

theorem witness_SixtyFourBitRegistersByTwoAccesses_1 :
    ∃ (s : State) (addr : Nat) (r : Reg) (i : Nat) (o : Nat), s.reaches addr 4 = true ∧ Reg.find addr = some (r, i, o) ∧ o % 8 = 0 ∧
      r.info.width ≠ 32 ∧ r.shown = true ∧ s.tally.frozenPairs = none ∧ r.info.wo = 0 :=
  ⟨((st [(F.EAS_SEAM_STATUS.UP, 0, 1)]).withEasel { up.easel with readyOnce := true }).wr F.SCH_ACC_DATA.WORD 0 (2 ^ 40 + 9),
    Reg.SCH_ACC_DATA.info.base, .SCH_ACC_DATA, 0, 0, by decide +kernel⟩

theorem witness_SixtyFourBitRegistersByTwoAccesses_2 :
    ∃ (s : State) (addr : Nat) (r : Reg) (i : Nat) (o : Nat) (h : BitVec 32), s.reaches (addr + 4) 4 = true ∧ Reg.find (addr + 4) = some
      (r, i, o) ∧ o % 8 = 4 ∧ r.info.width ≠ 32 ∧ Sparse.read none s.host.readLatch (addr + 4) = some h :=
  ⟨((st [(F.EAS_SEAM_STATUS.UP, 0, 1)]).withEasel { up.easel with readyOnce := true }).withHost
    { up.host with readLatch := [(Reg.SCH_ACC_DATA.info.base + 4, some 7)] }, Reg.SCH_ACC_DATA.info.base, .SCH_ACC_DATA, 0, 4, 7,
    by decide +kernel⟩

theorem witness_SixtyFourBitRegistersByTwoAccesses_3 :
    ∃ (s : State) (addr : Nat) (v : Nat) (r : Reg) (i : Nat) (o : Nat), s.reaches addr 4 = true ∧ Reg.find addr = some (r, i, o) ∧ o % 8
      = 0 ∧ r.info.width ≠ 32 ∧ v < 2 ^ 32 ∧ s.busyWrite r i = none :=
  ⟨((st [(F.EAS_SEAM_STATUS.UP, 0, 1)]).withEasel { up.easel with readyOnce := true }), Reg.SCH_ACC_DATA.info.base, 5, .SCH_ACC_DATA, 0,
    0, by decide +kernel⟩

theorem witness_SixtyFourBitRegistersByTwoAccesses_4 :
    ∃ (s : State) (addr : Nat) (v : Nat) (r : Reg) (i : Nat) (o : Nat) (low : BitVec 32), s.reaches (addr + 4) 4 = true ∧ Reg.find (addr
      + 4) = some (r, i, o) ∧ o % 8 = 4 ∧ r.info.width ≠ 32 ∧ v < 2 ^ 32 ∧ Sparse.read none s.host.writeHold addr = some low :=
  ⟨((st [(F.EAS_SEAM_STATUS.UP, 0, 1)]).withEasel { up.easel with readyOnce := true }).withHost
    { up.host with writeHold := [(Reg.SCH_ACC_DATA.info.base, some 7)] }, Reg.SCH_ACC_DATA.info.base, 9, .SCH_ACC_DATA, 0, 4, 7,
    by decide +kernel⟩

theorem witness_SeamReplaysAreCountedAndSixteenFail_1 :
    ∃ (s : State) (toTraffic : Bool), s.rd F.EAS_SEAM_STATUS.UP = 1 ∧ 16 ≤ (if toTraffic then s.seam.failedFwd else s.seam.failedTrf) :=
  ⟨(st [(F.EAS_SEAM_STATUS.UP, 0, 1)]).withSeam ⟨16, 0, 20, 0⟩, true, by decide +kernel⟩

theorem witness_SeamReplaysAreCountedAndSixteenFail_2 :
    ∃ (s : State) (f : Nat) (g : Nat), ((f < 1000000 * s.seam.replaysFwd ∨ g < 1000000 * s.seam.replaysTrf)) :=
  ⟨up.withSeam ⟨0, 0, 2, 0⟩, 1999999, 0, by decide +kernel⟩

theorem witness_SeamReplaysAreCountedAndSixteenFail_3 :
    ∃ (s : State) (f : Nat) (g : Nat), 1000000 * s.seam.replaysFwd ≤ f ∧ 1000000 * s.seam.replaysTrf ≤ g :=
  ⟨up.withSeam ⟨0, 0, 2, 0⟩, 2000000, 0, by decide +kernel⟩

theorem witness_PaceSupplyAndLoadShedding_1 :
    ∃ (s : State) (counts : List Nat), counts.length = 16 ∧ ((∀ m, m < 16 → s.rd F.EAS_PM_RAW.TARGET m ≠ 0)) :=
  ⟨st ((List.range 16).map (fun m => (F.EAS_PM_RAW.TARGET, m, 1000))), List.replicate 15 1010 ++ [990], by decide +kernel⟩

theorem witness_PaceSupplyAndLoadShedding_2 :
    ∃ (s : State) (b : Nat), b = s.pace.windowAt / ns 10000 * ns 10000 ∧ s.pace.loopAt < b ∧ tenWindows s.pace.lowF b ≠ [] ∧ tenWindows
      s.pace.lowT b ≠ [] ∧ s.pace.railF ≤ 72 ∧ s.pace.railT ≤ 72 :=
  ⟨up.withPace { up.pace with lowF := [(ns 20000, 1029)], lowT := [(ns 20000, 1061)], railF := 72, windowAt := ns 20000 }, ns 20000,
    by decide +kernel⟩

theorem witness_PaceSupplyAndLoadShedding_3 :
    ∃ (s : State), s.pace.windowAt / ns 10000 * ns 10000 ≤ s.pace.loopAt :=
  ⟨up, by decide +kernel⟩

theorem witness_PaceSupplyAndLoadShedding_4 :
    ∃ (s : State), s.rd F.EAS_PACE_STATUS.SHED_LEVEL = 1 ∧ s.rd F.EAS_PACE_STATUS.PACE < 1000 :=
  ⟨st [(F.EAS_PACE_STATUS.SHED_LEVEL, 0, 1), (F.EAS_PACE_STATUS.PACE, 0, 999)], by decide +kernel⟩

theorem witness_PaceSupplyAndLoadShedding_5 :
    ∃ (s : State) (since : Nat), s.rd F.EAS_PACE_STATUS.SHED_LEVEL ≠ 0 ∧ s.pace.recoverAt = some since :=
  ⟨(st [(F.EAS_PACE_STATUS.SHED_LEVEL, 0, 2)]).withPace { up.pace with recoverAt := some 5 }, 5, by decide +kernel⟩

theorem witness_PaceSupplyAndLoadShedding_6 :
    ∃ (s : State), s.rd F.EAS_PACE_STATUS.SHED_LEVEL = 0 :=
  ⟨up, by decide +kernel⟩

theorem witness_CoatsSwapFlipAndRetire_1 :
    ∃ (s : State), s.takes .GLZ_COAT_CTRL = true ∧ s.coatState = 0 :=
  ⟨up, by decide +kernel⟩

theorem witness_CoatsSwapFlipAndRetire_2 :
    ∃ (s : State), s.takes .GLZ_COAT_CTRL = true ∧ s.coatState ≠ 0 :=
  ⟨st [(F.GLZ_COAT_STATUS.STATE, 0, 2)], by decide +kernel⟩

theorem witness_CoatsSwapFlipAndRetire_3 :
    ∃ (s : State), s.takes .GLZ_COAT_CTRL = true ∧ s.coatState = 1 :=
  ⟨st [(F.GLZ_COAT_STATUS.STATE, 0, 1)], by decide +kernel⟩

theorem witness_CoatsSwapFlipAndRetire_4 :
    ∃ (s : State), s.coatState = 1 ∧ s.timeValid = true :=
  ⟨st [(F.GLZ_COAT_STATUS.STATE, 0, 1), (F.TIM_STATUS.VALID, 0, 1)], by decide +kernel⟩

theorem witness_CoatsSwapFlipAndRetire_5 :
    ∃ (s : State), s.coatState = 2 :=
  ⟨st [(F.GLZ_COAT_STATUS.STATE, 0, 2)], by decide +kernel⟩

theorem witness_CoatsSwapFlipAndRetire_6 :
    ∃ (s : State), s.coatState = 3 ∧ ((s.inflight (!s.activeBank) = 0 ∨ s.winnerLives = false)) :=
  ⟨st [(F.GLZ_COAT_STATUS.STATE, 0, 3)], by decide +kernel⟩

theorem witness_CoatsSwapFlipAndRetire_7 :
    ∃ (s : State), s.easel.measPending = true :=
  ⟨up.withEasel { up.easel with measPending := true }, by decide +kernel⟩

theorem witness_FrameReceiveQueuesAGoodFrame_1 :
    ∃ (s : State) (port : Nat) (sub : Nat) (octets : List Byte), ((port < 64 ∨ (112 ≤ port ∧ port < 176))) ∧ ((port < 64 → s.rd
      F.ETH_PORT_CFG.FLEXE_PHY port = 0)) ∧ macControl octets = none ∧ s.portUp port = true ∧ 60 ≤ octets.length ∧ octets.length + 4 ≤
      s.maxFrame port ∧ (s.mac port).fill + (octets.length + 4) ≤ s.fifoSize port :=
  ⟨st [(F.ETH_PORT_CFG.EN, 3, 1), (F.ETH_PORT_STATUS.LINK, 3, 1)], 3, 1, (List.replicate 12 1 ++ List.replicate 48 0),
    by decide +kernel⟩

theorem witness_RefusedFramesAndTheChargeTrueUp_1 :
    ∃ (s : State) (port : Nat) (sub : Nat) (octets : List Byte) (good : Bool), port < 64 ∧ s.rd F.ETH_PORT_CFG.FLEXE_PHY port = 0 ∧
      ((s.rd F.ETH_PORT_STATUS.LINK port = 0 ∨ octets.length < 60)) :=
  ⟨st [(F.ETH_PORT_CFG.EN, 3, 1), (F.ETH_PORT_STATUS.LINK, 3, 1)], 3, 1, List.replicate 59 1, true, by decide +kernel⟩

theorem witness_RefusedFramesAndTheChargeTrueUp_2 :
    ∃ (s : State) (port : Nat) (sub : Nat) (octets : List Byte), port < 64 ∧ s.rd F.ETH_PORT_CFG.FLEXE_PHY port = 0 ∧ macControl octets
      = none ∧ s.portUp port = true ∧ 60 ≤ octets.length ∧ octets.length + 4 ≤ s.maxFrame port ∧ s.fifoSize port < (s.mac port).fill +
      (octets.length + 4) :=
  ⟨(st [(F.ETH_PORT_CFG.EN, 3, 1), (F.ETH_PORT_STATUS.LINK, 3, 1)]).setMac 3 { Mac.idle with fill := 400000 }, 3, 1, (List.replicate 12
    1 ++ List.replicate 48 0), by decide +kernel⟩

theorem witness_RefusedFramesAndTheChargeTrueUp_3 :
    ∃ (s : State) (n : Nat) (p : Pkt) (tail : List Byte), s.pkt n = some p ∧ p.rx.arrived = false ∧ p.loc ≠ .gone ∧ ((p.loc = .fifo →
      macControl (p.data ++ tail) = none)) ∧ 60 ≤ (p.data ++ tail).length ∧ (p.data ++ tail).length + 4 ≤ s.maxFrame p.rx.inPort ∧
      ((s.countFrame p.rx.inPort ((p.data ++ tail).length + 4) true).trueUp (p.data ++ tail).length p.charges).overran p (tail.length +
      4) = false :=
  ⟨(st [(F.ETH_PORT_CFG.EN, 3, 1), (F.ETH_PORT_STATUS.LINK, 3, 1)]).setPkt 0 { pk with rx := { pk.rx with arrived := false } }, 0,
    { pk with rx := { pk.rx with arrived := false } }, [1, 2, 3], by decide +kernel⟩

theorem witness_PauseStopsAndResumesThePort_1 :
    ∃ (s : State) (p : Nat) (q : Nat), p < 64 ∧ s.rd F.ETH_PORT_STATUS.LINK p = 0 :=
  ⟨up, 3, 9, by decide +kernel⟩

theorem witness_PauseStopsAndResumesThePort_2 :
    ∃ (s : State) (p : Nat) (q : Nat), p < 64 ∧ s.rd F.ETH_PORT_STATUS.LINK p = 1 ∧ s.inForce p F.ETH_PORT_CFG.PAUSE_RX p = 0 :=
  ⟨st [(F.ETH_PORT_CFG.EN, 3, 1), (F.ETH_PORT_STATUS.LINK, 3, 1)], 3, 9, by decide +kernel⟩

theorem witness_PauseStopsAndResumesThePort_3 :
    ∃ (s : State) (p : Nat) (q : Nat), p < 64 ∧ s.rd F.ETH_PORT_STATUS.LINK p = 1 ∧ s.inForce p F.ETH_PORT_CFG.PAUSE_RX p = 1 :=
  ⟨st [(F.ETH_PORT_CFG.EN, 3, 1), (F.ETH_PORT_STATUS.LINK, 3, 1), (F.ETH_PORT_CFG.PAUSE_RX, 3, 1)], 3, 9, by decide +kernel⟩

theorem witness_PauseStopsAndResumesThePort_4 :
    ∃ (s : State) (p : Nat), (s.mac p).txPaused = true :=
  ⟨up.setMac 3 { Mac.idle with txPaused := true, txResume := 50 }, 3, by decide +kernel⟩

theorem witness_PauseStopsAndResumesThePort_5 :
    ∃ (s : State) (p : Nat), p < 64 ∧ (s.mac p).pauseSent = true ∧ s.inForce p F.ETH_PORT_CFG.PAUSE_TX p = 1 ∧ s.aboveXon p = true :=
  ⟨(st [(F.ETH_PORT_CFG.PAUSE_TX, 3, 1)]).setMac 3 { Mac.idle with pauseSent := true, fill := 400000 }, 3, by decide +kernel⟩

theorem witness_EthernetPortsAndTheirLinks_1 :
    ∃ (s : State) (p : Nat) (v : Nat), p < 64 ∧ s.takes .ETH_PORT_CFG = true ∧ s.rd F.ETH_PORT_CFG.EN p = 0 ∧ (s.setReg .ETH_PORT_CFG p
      (portCfgStored (setBits v 0 1 1))).portRefused p = true :=
  ⟨st [(F.LOOM_TREE_CFG.EN, 0, 1), (F.ETH_OCTET_CFG.MODE, 0, 1)], 3, 0, by decide +kernel⟩

theorem witness_EthernetPortsAndTheirLinks_2 :
    ∃ (s : State) (p : Nat) (v : Nat), p < 64 ∧ s.takes .ETH_PORT_CFG = true ∧ s.rd F.ETH_PORT_CFG.EN p = 0 ∧ (s.setReg .ETH_PORT_CFG p
      (portCfgStored (setBits v 0 1 1))).portRefused p = false :=
  ⟨up, 3, 0, by decide +kernel⟩

theorem witness_EthernetPortsAndTheirLinks_3 :
    ∃ (s : State) (p : Nat) (v : Nat) (cut : Bool), p < 64 ∧ s.takes .ETH_PORT_CFG = true ∧ s.rd F.ETH_PORT_CFG.EN p = 1 ∧ bitsOf v 1 8
      ≠ bitsOf (s.reg .ETH_PORT_CFG p).toNat 1 8 :=
  ⟨st [(F.ETH_PORT_CFG.EN, 3, 1), (F.ETH_PORT_STATUS.LINK, 3, 1)], 3, 3, false, by decide +kernel⟩

theorem witness_EthernetPortsAndTheirLinks_4 :
    ∃ (s : State) (p : Nat) (v : Nat) (cut : Bool), p < 64 ∧ s.takes .ETH_PORT_CFG = true ∧ s.rd F.ETH_PORT_CFG.EN p = 1 ∧ s.rd
      F.ETH_PORT_STATUS.LINK p = 1 ∧ bitsOf v 1 8 = bitsOf (s.reg .ETH_PORT_CFG p).toNat 1 8 :=
  ⟨st [(F.ETH_PORT_CFG.EN, 3, 1), (F.ETH_PORT_STATUS.LINK, 3, 1)], 3, bitsOf ((st [(F.ETH_PORT_CFG.EN, 3, 1), (F.ETH_PORT_STATUS.LINK,
    3, 1)]).reg .ETH_PORT_CFG 3).toNat 1 8 * 2, false, by decide +kernel⟩

theorem witness_EthernetPortsAndTheirLinks_5 :
    ∃ (s : State) (p : Nat) (since : Nat) (cut : Bool), p < 64 ∧ (s.mac p).badSince = some since ∧ s.rd F.ETH_PORT_STATUS.LINK p = 1 :=
  ⟨(st [(F.ETH_PORT_CFG.EN, 3, 1), (F.ETH_PORT_STATUS.LINK, 3, 1)]).setMac 3 { Mac.idle with badSince := some 4 }, 3, 4, false,
    by decide +kernel⟩

theorem witness_EthernetPortsAndTheirLinks_6 :
    ∃ (s : State) (p : Nat) (since : Nat), p < 64 ∧ (s.mac p).goodSince = some since ∧ s.rd F.ETH_PORT_STATUS.LINK p = 0 ∧ s.rd
      F.ETH_PORT_CFG.EN p = 1 ∧ s.halted = false :=
  ⟨(st [(F.ETH_PORT_CFG.EN, 3, 1)]).setMac 3 { Mac.idle with goodSince := some 4 }, 3, 4, by decide +kernel⟩

theorem witness_EthernetPortsAndTheirLinks_7 :
    ∃ (s : State) (p : Nat) (since : Nat), 112 ≤ p ∧ p < 176 ∧ (s.mac p).goodSince = some since ∧ (s.mac p).up = false ∧ s.rd
      F.FLX_CLIENT_CFG.EN (p - 112) = 1 ∧ s.halted = false :=
  ⟨(st [(F.FLX_CLIENT_CFG.EN, 1, 1)]).setMac 113 { Mac.idle with goodSince := some 4 }, 113, 4, by decide +kernel⟩

theorem witness_EthernetPortsAndTheirLinks_8 :
    ∃ (s : State) (p : Nat) (since : Nat) (cut : Bool), 112 ≤ p ∧ p < 176 ∧ (s.mac p).badSince = some since ∧ (s.mac p).up = true :=
  ⟨up.setMac 113 { Mac.idle with badSince := some 4, up := true }, 113, 4, false, by decide +kernel⟩

theorem witness_EthernetPortsAndTheirLinks_9 :
    ∃ (s : State) (p : Nat) (corr : Nat) (bad : Nat) (syms : Nat) (bl : Bool) (am : Bool) (lf : Bool) (rf : Bool) (hb : Bool), p < 64 :=
  ⟨st [(F.ETH_PORT_CFG.EN, 3, 1)], 3, 1, 2, 3, true, true, true, false, false, by decide +kernel⟩

theorem witness_EthernetPortsAndTheirLinks_10 :
    ∃ (s : State) (p : Nat) (corr : Nat) (bad : Nat) (syms : Nat) (bl : Bool) (am : Bool) (lf : Bool) (rf : Bool) (hb : Bool), 112 ≤ p ∧
      p < 176 :=
  ⟨up, 113, 1, 2, 3, true, true, false, false, false, by decide +kernel⟩

theorem witness_FlexeLockIsFoundAndLost_1 :
    ∃ (s : State) (i : Nat) (pos : Nat), s.rd F.FLX_INST_CFG.EN i = 1 ∧ s.rd F.FLX_INST_STATUS.OH_LOCK i = 0 ∧ (s.inst
      i).candidates.length < 16 :=
  ⟨st [(F.FLX_INST_CFG.EN, 2, 1), (F.FLX_INST_CFG.GROUP, 2, 5)], 2, 77, by decide +kernel⟩

theorem witness_FlexeLockIsFoundAndLost_2 :
    ∃ (s : State) (i : Nat) (pos : Nat), s.rd F.FLX_INST_CFG.EN i = 1 ∧ s.rd F.FLX_INST_STATUS.OH_LOCK i = 0 ∧ 16 ≤ (s.inst
      i).candidates.length :=
  ⟨(st [(F.FLX_INST_CFG.EN, 2, 1), (F.FLX_INST_CFG.GROUP, 2, 5)]).setInst 2 { Inst.idle with candidates := List.range 16 }, 2, 77,
    by decide +kernel⟩

theorem witness_FlexeLockIsFoundAndLost_3 :
    ∃ (s : State) (i : Nat) (pos : Nat), s.rd F.FLX_INST_CFG.EN i = 1 ∧ s.rd F.FLX_INST_STATUS.OH_LOCK i = 0 ∧ pos ∈ (s.inst
      i).candidates :=
  ⟨(st [(F.FLX_INST_CFG.EN, 2, 1), (F.FLX_INST_CFG.GROUP, 2, 5)]).setInst 2 { Inst.idle with candidates := [5, 77] }, 2, 77,
    by decide +kernel⟩

theorem witness_FlexeLockIsFoundAndLost_4 :
    ∃ (s : State) (i : Nat) (gid : Nat) (form : Bool) (crc : Bool) (cr : Bool) (ca : Bool) (ccc : Bool) (rpf : Bool) (mf : Bool) (cal :
      List (BitVec 16)) (mgmt : List Byte), s.rd F.FLX_INST_CFG.EN i = 1 ∧ s.rd F.FLX_INST_STATUS.OH_LOCK i = 1 ∧ (s.inst i).phase < 7 ∧
      ((form = true ∨ s.rd F.FLX_INST_STATUS.MISS_CNT i < 4)) :=
  ⟨st [(F.FLX_INST_CFG.EN, 2, 1), (F.FLX_INST_CFG.GROUP, 2, 5), (F.FLX_INST_STATUS.OH_LOCK, 2, 1), (F.FLX_INST_STATUS.MISS_CNT, 2, 3)],
    2, 4, false, true, false, false, false, false, false, [], [], by decide +kernel⟩

theorem witness_FlexeLockIsFoundAndLost_5 :
    ∃ (s : State) (i : Nat) (gid : Nat) (crc : Bool) (cr : Bool) (ca : Bool) (ccc : Bool) (rpf : Bool) (mf : Bool) (cal : List (BitVec
      16)) (mgmt : List Byte), s.rd F.FLX_INST_CFG.EN i = 1 ∧ s.rd F.FLX_INST_STATUS.OH_LOCK i = 1 ∧ 4 ≤ s.rd F.FLX_INST_STATUS.MISS_CNT
      i :=
  ⟨st [(F.FLX_INST_CFG.EN, 2, 1), (F.FLX_INST_CFG.GROUP, 2, 5), (F.FLX_INST_STATUS.OH_LOCK, 2, 1), (F.FLX_INST_STATUS.MISS_CNT, 2, 4)],
    2, 4, true, false, false, false, false, false, [], [], by decide +kernel⟩

theorem witness_FlexeLockIsFoundAndLost_6 :
    ∃ (s : State) (i : Nat) (gid : Nat) (cr : Bool) (ca : Bool) (ccc : Bool) (rpf : Bool) (mf : Bool) (cal : List (BitVec 16)) (mgmt :
      List Byte), s.rd F.FLX_INST_CFG.EN i = 1 ∧ s.rd F.FLX_INST_STATUS.OH_LOCK i = 1 ∧ (s.inst i).phase = 7 :=
  ⟨(st [(F.FLX_INST_CFG.EN, 2, 1), (F.FLX_INST_CFG.GROUP, 2, 5), (F.FLX_INST_STATUS.OH_LOCK, 2, 1)]).setInst 2
    { Inst.idle with phase := 7 }, 2, 4, false, false, false, false, false, [], [], by decide +kernel⟩

theorem witness_FlexePagesProtectionAndInstances_1 :
    ∃ (s : State) (i : Nat), s.rd F.FLX_INST_STATUS.OH_LOCK i = 1 :=
  ⟨(st [(F.FLX_INST_CFG.EN, 2, 1), (F.FLX_INST_CFG.GROUP, 2, 5), (F.FLX_INST_STATUS.OH_LOCK, 2, 1)]).setInst 2
    { Inst.idle with ccc := ⟨1, 3⟩ }, 2, by decide +kernel⟩

theorem witness_FlexePagesProtectionAndInstances_2 :
    ∃ (s : State) (g : Nat), (s.grp g).flipping = true :=
  ⟨up.setGrp 5 { Grp.idle with flipping := true }, 5, by decide +kernel⟩

theorem witness_FlexePagesProtectionAndInstances_3 :
    ∃ (s : State) (g : Nat), s.rd F.FLX_GRP_STATUS.CR_TX g = 0 ∧ (s.grp g).flipping = false ∧ s.rd F.FLX_GRP_CFG.EN g = 1 :=
  ⟨st [(F.FLX_GRP_CFG.EN, 5, 1)], 5, by decide +kernel⟩

theorem witness_FlexePagesProtectionAndInstances_4 :
    ∃ (s : State) (i : Nat) (since : Nat), (s.inst i).failedAt = some since ∧ s.rd F.FLX_GRP_CFG.PROT_EN (s.instGroup i) = 1 ∧ s.rd
      F.FLX_GRP_STATUS.PROT_ACTIVE (s.instGroup i) = 0 :=
  ⟨(st [(F.FLX_INST_CFG.EN, 2, 1), (F.FLX_INST_CFG.GROUP, 2, 5), (F.FLX_INST_STATUS.OH_LOCK, 2, 1), (F.FLX_GRP_CFG.PROT_EN, 5,
    1)]).setInst 2 { Inst.idle with failedAt := some 3 }, 2, 3, by decide +kernel⟩

theorem witness_FlexePagesProtectionAndInstances_5 :
    ∃ (s : State) (g : Nat), s.rd F.FLX_GRP_STATUS.CR_TX g = 1 ∧ (s.grp g).flipping = false :=
  ⟨st [(F.FLX_GRP_STATUS.CR_TX, 5, 1)], 5, by decide +kernel⟩

theorem witness_FlexePagesProtectionAndInstances_6 :
    ∃ (s : State) (i : Nat) (v : Nat), i < 64 ∧ s.takes .FLX_INST_CFG = true ∧ bitsOf v 7 2 < s.phyInstances (bitsOf v 1 6) ∧
      s.groupInstances i (bitsOf v 12 4) < 16 ∧ s.rateDiffers i (bitsOf v 1 6) (bitsOf v 12 4) = false :=
  ⟨st [(F.ETH_PORT_CFG.EN, 5, 1), (F.ETH_PORT_CFG.FLEXE_PHY, 5, 1), (F.ETH_PORT_CFG.FEC, 5, 3), (F.ETH_PORT_CFG.SPEED, 5, 3)], 2, 11,
    by decide +kernel⟩

theorem witness_FlexePagesProtectionAndInstances_7 :
    ∃ (s : State) (i : Nat) (v : Nat), i < 64 ∧ s.takes .FLX_INST_CFG = true ∧ ((s.phyInstances (bitsOf v 1 6) ≤ bitsOf v 7 2 ∨ 16 ≤
      s.groupInstances i (bitsOf v 12 4) ∨ s.rateDiffers i (bitsOf v 1 6) (bitsOf v 12 4) = true)) :=
  ⟨st [(F.FLX_INST_CFG.EN, 1, 1), (F.FLX_INST_CFG.PORT, 1, 7), (F.ETH_PORT_CFG.SPEED, 7, 4), (F.FLX_INST_CFG.GROUP, 1, 5)], 2, 20481,
    by decide +kernel⟩

theorem witness_SketchContextsArriveAndLeave_1 :
    ∃ (s : State) (port : Nat) (n : Nat) (c : Nat) (p : Pkt), s.waiting port = some n ∧ s.pkt n = some p ∧ s.admits = true ∧
      s.stampRetired n p = false ∧ s.roundRobin (s.quadOf port p) = some port ∧ s.freeCtx (s.quadOf port p) = some c :=
  ⟨((st [(F.EAS_SEAM_STATUS.UP, 0, 1)]).withPace { up.pace with admitOpen := true }).setPkt 4 pk |>.setMac 3
    { Mac.idle with order := [4] }, 3, 4, 0, pk, by decide +kernel⟩

theorem witness_SketchContextsArriveAndLeave_2 :
    ∃ (s : State) (port : Nat) (n : Nat) (p : Pkt), s.waiting port = some n ∧ s.pkt n = some p ∧ s.admits = true ∧ s.stampRetired n p =
      true :=
  ⟨((st [(F.EAS_SEAM_STATUS.UP, 0, 1)]).withPace { up.pace with admitOpen := true }).setPkt 4
    { pk with stamped := true, pass := 2, coatGen := 0 } |>.setMac 3 { Mac.idle with order := [4] } |>.withCoat
    { up.coat with gen := 2 }, 3, 4, { pk with stamped := true, pass := 2, coatGen := 0 }, by decide +kernel⟩

theorem witness_SketchContextsArriveAndLeave_3 :
    ∃ (s : State) (c : Nat) (x : Ctx) (p : Pkt), s.ctx c = some x ∧ s.pkt x.pkt = some p ∧ x.running = false ∧ x.ended = false ∧
      p.present 256 = true :=
  ⟨((st []).setCtx 2 (some { skC with running := false })).setPkt 0 skP, 2, { skC with running := false }, skP, by decide +kernel⟩

theorem witness_SketchContextsArriveAndLeave_4 :
    ∃ (s : State) (c : Nat) (x : Ctx) (p : Pkt) (pr : Nat), s.ctx c = some x ∧ s.pkt x.pkt = some p ∧ x.running = false ∧ x.ended =
      false ∧ p.early = none ∧ p.present 64 = true ∧ pr = bankNo p.coat * 64 + hvGet p.hv 0x102 1 ∧ s.rd F.SKT_PROFILE.EL_EN pr = 1 ∧
      s.guardHolds pr p = true ∧ s.rd F.SKT_PROFILE.EL_TPL pr ≠ 0xFF ∧ s.rd F.GLZ_TPL.KIND (bankNo p.coat * 256 + s.rd
      F.SKT_PROFILE.EL_TPL pr) ≠ 5 :=
  ⟨((st [(F.SKT_PROFILE.EL_EN, 0, 1), (F.SKT_PROFILE.EL_TPL, 0, 4)]).setCtx 2 (some { skC with running := false })).setPkt 0 skP, 2,
    { skC with running := false }, skP, 0, by decide +kernel⟩

theorem witness_SketchContextsArriveAndLeave_5 :
    ∃ (s : State) (c : Nat) (x : Ctx) (p : Pkt), s.ctx c = some x ∧ s.pkt x.pkt = some p ∧ x.ended = true ∧ s.pipeInDepth p.pipe < 256 :=
  ⟨((st []).setCtx 2 (some { skC with running := false, ended := true })).setPkt 0 skP, 2, { skC with running := false, ended := true },
    skP, by decide +kernel⟩

theorem witness_SketchDataInstructions_1 :
    ∃ (s : State) (c : Nat) (x : Ctx) (p : Pkt) (i : SInsn), s.sketchReady c 0x03 x p i ∧ (fun _ _ _ => True) i x p.hv :=
  ⟨skS (skC) (skP) (sw 0x3 3 1 2 0 9 0), 2, skC, skP, sketchDecode (sw 0x3 3 1 2 0 9 0), by constructor <;> decide +kernel,
    by decide +kernel⟩

theorem witness_SketchDataInstructions_2 :
    ∃ (s : State) (c : Nat) (x : Ctx) (p : Pkt) (i : SInsn), s.sketchReady c 0x04 x p i ∧ (fun _ _ _ => True) i x p.hv :=
  ⟨skS (skC) (skP) (sw 0x4 3 1 2 0 9 0), 2, skC, skP, sketchDecode (sw 0x4 3 1 2 0 9 0), by constructor <;> decide +kernel,
    by decide +kernel⟩

theorem witness_SketchDataInstructions_3 :
    ∃ (s : State) (c : Nat) (x : Ctx) (p : Pkt) (i : SInsn), s.sketchReady c 0x05 x p i ∧ (fun _ _ _ => True) i x p.hv :=
  ⟨skS (skC) (skP) (sw 0x5 3 1 2 0 9 0), 2, skC, skP, sketchDecode (sw 0x5 3 1 2 0 9 0), by constructor <;> decide +kernel,
    by decide +kernel⟩

theorem witness_SketchDataInstructions_4 :
    ∃ (s : State) (c : Nat) (x : Ctx) (p : Pkt) (i : SInsn), s.sketchReady c 0x06 x p i ∧ (fun _ _ _ => True) i x p.hv :=
  ⟨skS (skC) (skP) (sw 0x6 3 1 2 0 9 0), 2, skC, skP, sketchDecode (sw 0x6 3 1 2 0 9 0), by constructor <;> decide +kernel,
    by decide +kernel⟩

theorem witness_SketchDataInstructions_5 :
    ∃ (s : State) (c : Nat) (x : Ctx) (p : Pkt) (i : SInsn), s.sketchReady c 0x07 x p i ∧ (fun _ _ _ => True) i x p.hv :=
  ⟨skS (skC) (skP) (sw 0x7 3 1 2 0 9 0), 2, skC, skP, sketchDecode (sw 0x7 3 1 2 0 9 0), by constructor <;> decide +kernel,
    by decide +kernel⟩

theorem witness_SketchDataInstructions_6 :
    ∃ (s : State) (c : Nat) (x : Ctx) (p : Pkt) (i : SInsn), s.sketchReady c 0x08 x p i ∧ (fun _ _ _ => True) i x p.hv :=
  ⟨skS (skC) (skP) (sw 0x8 3 1 2 0 9 0), 2, skC, skP, sketchDecode (sw 0x8 3 1 2 0 9 0), by constructor <;> decide +kernel,
    by decide +kernel⟩

theorem witness_SketchDataInstructions_7 :
    ∃ (s : State) (c : Nat) (x : Ctx) (p : Pkt) (i : SInsn), s.sketchReady c 0x09 x p i ∧ (fun _ _ _ => True) i x p.hv :=
  ⟨skS (skC) (skP) (sw 0x9 3 1 2 0 9 0), 2, skC, skP, sketchDecode (sw 0x9 3 1 2 0 9 0), by constructor <;> decide +kernel,
    by decide +kernel⟩

theorem witness_SketchDataInstructions_8 :
    ∃ (s : State) (c : Nat) (x : Ctx) (p : Pkt) (i : SInsn), s.sketchReady c 0x0A x p i ∧ (fun _ _ _ => True) i x p.hv :=
  ⟨skS (skC) (skP) (sw 0xa 3 1 2 0 9 0), 2, skC, skP, sketchDecode (sw 0xa 3 1 2 0 9 0), by constructor <;> decide +kernel,
    by decide +kernel⟩

theorem witness_SketchDataInstructions_9 :
    ∃ (s : State) (c : Nat) (x : Ctx) (p : Pkt) (i : SInsn), s.sketchReady c 0x0E x p i ∧ (fun _ _ _ => True) i x p.hv :=
  ⟨skS (skC) (skP) (sw 0xe 3 1 2 0 9 0), 2, skC, skP, sketchDecode (sw 0xe 3 1 2 0 9 0), by constructor <;> decide +kernel,
    by decide +kernel⟩

theorem witness_SketchDataInstructions_10 :
    ∃ (s : State) (c : Nat) (x : Ctx) (p : Pkt) (i : SInsn), s.sketchReady c 0x01 x p i ∧ (fun i x hv => windowCheck (winLen hv)
      (windowAddr (bitsOf i.imm 0 9) (i.imm.testBit 17) (i.imm.testBit 18) x.cursor (x.reg i.ra)) ((bitsOf i.imm 9 3 + (bitsOf i.imm 12
      5 + 1) + 7) / 8) = 0) i x p.hv :=
  ⟨skS (skC) (skP) (sw 0x1 3 1 2 0 9 83461), 2, skC, skP, sketchDecode (sw 0x1 3 1 2 0 9 83461), by constructor <;> decide +kernel,
    by decide +kernel⟩

theorem witness_SketchDataInstructions_11 :
    ∃ (s : State) (c : Nat) (x : Ctx) (p : Pkt) (i : SInsn), s.sketchReady c 0x02 x p i ∧ ((fun i _ hv => hvSize i.imm ≠ 0 ∧ bitsOf
      i.imm 0 9 + hvSize i.imm ≤ 512 ∧ (winLen hv < 256 → bitsOf i.imm 0 9 < 256 → min (bitsOf i.imm 0 9 + hvSize i.imm) 256 ≤ winLen
      hv)) i x p.hv) :=
  ⟨skS (skC) (skP) (sw 0x2 3 1 2 0 9 519), 2, skC, skP, sketchDecode (sw 0x2 3 1 2 0 9 519), by constructor <;> decide +kernel,
    by decide +kernel⟩

theorem witness_SketchDataInstructions_12 :
    ∃ (s : State) (c : Nat) (x : Ctx) (p : Pkt) (i : SInsn), s.sketchReady c 0x0B x p i ∧ ((fun i x hv => (sketchB i x).toNat % 2 = 0 ∧
      2 ≤ (sketchB i x).toNat ∧ (sketchB i x).toNat ≤ 64 ∧ windowCheck (winLen hv) x.cursor (sketchB i x).toNat = 0) i x p.hv) :=
  ⟨skS (skC) (skP) (sw 0xb 3 1 2 1 9 8), 2, skC, skP, sketchDecode (sw 0xb 3 1 2 1 9 8), by constructor <;> decide +kernel,
    by decide +kernel⟩

theorem witness_SketchDataInstructions_13 :
    ∃ (s : State) (c : Nat) (x : Ctx) (p : Pkt) (i : SInsn), s.sketchReady c 0x01 x p i ∧ (fun i x hv => windowCheck (winLen hv)
      (windowAddr (bitsOf i.imm 0 9) (i.imm.testBit 17) (i.imm.testBit 18) x.cursor (x.reg i.ra)) ((bitsOf i.imm 9 3 + (bitsOf i.imm 12
      5 + 1) + 7) / 8) ≠ 0) i x p.hv :=
  ⟨skS (skC) (skP) (sw 0x1 3 1 2 0 9 83501), 2, skC, skP, sketchDecode (sw 0x1 3 1 2 0 9 83501), by constructor <;> decide +kernel,
    by decide +kernel⟩

theorem witness_SketchDataInstructions_14 :
    ∃ (s : State) (c : Nat) (x : Ctx) (p : Pkt) (i : SInsn), s.sketchReady c 0x02 x p i ∧ ((fun i _ _ => hvSize i.imm = 0 ∨ 512 < bitsOf
      i.imm 0 9 + hvSize i.imm) i x p.hv) :=
  ⟨skS (skC) (skP) (sw 0x2 3 1 2 0 9 1023), 2, skC, skP, sketchDecode (sw 0x2 3 1 2 0 9 1023), by constructor <;> decide +kernel,
    by decide +kernel⟩

theorem witness_SketchDataInstructions_15 :
    ∃ (s : State) (c : Nat) (x : Ctx) (p : Pkt) (i : SInsn), s.sketchReady c 0x02 x p i ∧ ((fun i _ hv => hvSize i.imm ≠ 0 ∧ bitsOf
      i.imm 0 9 + hvSize i.imm ≤ 512 ∧ winLen hv < 256 ∧ bitsOf i.imm 0 9 < 256 ∧ winLen hv < min (bitsOf i.imm 0 9 + hvSize i.imm) 256)
      i x p.hv) :=
  ⟨skS (skC) (skP) (sw 0x2 3 1 2 0 9 571), 2, skC, skP, sketchDecode (sw 0x2 3 1 2 0 9 571), by constructor <;> decide +kernel,
    by decide +kernel⟩

theorem witness_SketchDataInstructions_16 :
    ∃ (s : State) (c : Nat) (x : Ctx) (p : Pkt) (i : SInsn), s.sketchReady c 0x0B x p i ∧ ((fun i x _ => (sketchB i x).toNat % 2 = 1 ∨
      (sketchB i x).toNat < 2 ∨ 64 < (sketchB i x).toNat) i x p.hv) :=
  ⟨skS (skC) (skP) (sw 0xb 3 1 2 1 9 7), 2, skC, skP, sketchDecode (sw 0xb 3 1 2 1 9 7), by constructor <;> decide +kernel,
    by decide +kernel⟩

theorem witness_SketchDataInstructions_17 :
    ∃ (s : State) (c : Nat) (x : Ctx) (p : Pkt) (i : SInsn), s.sketchReady c 0x0B x p i ∧ ((fun i x hv => (sketchB i x).toNat % 2 = 0 ∧
      2 ≤ (sketchB i x).toNat ∧ (sketchB i x).toNat ≤ 64 ∧ windowCheck (winLen hv) x.cursor (sketchB i x).toNat ≠ 0) i x p.hv) :=
  ⟨skS (skC) (skP) (sw 0xb 3 1 2 1 9 64), 2, skC, skP, sketchDecode (sw 0xb 3 1 2 1 9 64), by constructor <;> decide +kernel,
    by decide +kernel⟩

theorem witness_SketchDataInstructions_18 :
    ∃ (s : State) (c : Nat) (x : Ctx) (p : Pkt) (i : SInsn), s.sketchReady c 0x0D x p i :=
  ⟨skS (skC) (skP) (sw 0xd 3 1 2 0 9 1328), 2, skC, skP, sketchDecode (sw 0xd 3 1 2 0 9 1328), by constructor <;> decide +kernel⟩

theorem witness_SketchDataInstructions_19 :
    ∃ (s : State) (c : Nat) (a : Nat) (n : Nat) (x : Ctx) (p : Pkt) (i : SInsn), s.sketchReady c 0x0C x p i ∧ n = bitsOf i.imm 18 6 + 1
      ∧ a = windowAddr (bitsOf i.imm 0 9) (i.imm.testBit 24) (i.imm.testBit 25) x.cursor (x.reg i.ra) ∧ windowCheck (winLen p.hv) a n =
      0 ∧ sketchWritable (bitsOf i.imm 9 9) n = true :=
  ⟨skS (skC) (skP) (sw 0xc 3 1 2 0 9 983042), 2, 22, 4, skC, skP, sketchDecode (sw 0xc 3 1 2 0 9 983042),
    by constructor <;> decide +kernel, by decide +kernel, by decide +kernel, by decide +kernel, by decide +kernel⟩

theorem witness_SketchDataInstructions_20 :
    ∃ (s : State) (c : Nat) (x : Ctx) (p : Pkt) (i : SInsn), s.sketchReady c 0x10 x p i :=
  ⟨skS (skC) (skP) (sw 0x10 3 1 2 1 9 237), 2, skC, skP, sketchDecode (sw 0x10 3 1 2 1 9 237), by constructor <;> decide +kernel⟩

theorem witness_SketchDataInstructions_21 :
    ∃ (s : State) (c : Nat) (x : Ctx) (p : Pkt) (i : SInsn), s.sketchReady c 0x11 x p i :=
  ⟨skS (skC) (skP) (sw 0x11 3 1 2 1 9 256), 2, skC, skP, sketchDecode (sw 0x11 3 1 2 1 9 256), by constructor <;> decide +kernel⟩

theorem witness_SketchDataInstructions_22 :
    ∃ (s : State) (c : Nat) (h : Nat) (x : Ctx) (p : Pkt) (i : SInsn), s.sketchReady c 0x12 x p i ∧ h = (if i.ib then bitsOf i.imm 16 9
      else (x.reg i.rb).toNat) ∧ 0 < h ∧ x.cursor < 256 ∧ hvGet p.hv 0x113 1 < 16 ∧ i.imm.testBit 25 = false :=
  ⟨skS (skC) (skP) (sw 0x12 3 1 2 1 9 393216), 2, 6, skC, skP, sketchDecode (sw 0x12 3 1 2 1 9 393216),
    by constructor <;> decide +kernel, by decide +kernel, by decide +kernel, by decide +kernel, by decide +kernel, by decide +kernel⟩

theorem witness_SketchDataInstructions_23 :
    ∃ (s : State) (c : Nat) (x : Ctx) (p : Pkt) (i : SInsn), s.sketchReady c 0x12 x p i ∧ (if i.ib then bitsOf i.imm 16 9 else (x.reg
      i.rb).toNat) ≠ 0 ∧ 16 ≤ hvGet p.hv 0x113 1 :=
  ⟨skS (skC) ({ skP with hv := hvSet skP.hv 0x113 1 16 }) (sw 0x12 3 1 2 1 9 393216), 2, skC,
    { skP with hv := hvSet skP.hv 0x113 1 16 }, sketchDecode (sw 0x12 3 1 2 1 9 393216), by constructor <;> decide +kernel,
    by decide +kernel, by decide +kernel⟩

theorem witness_SketchDataInstructions_24 :
    ∃ (s : State) (c : Nat) (x : Ctx) (p : Pkt) (i : SInsn), s.sketchReady c 0x12 x p i ∧ (fun i x _ => (if i.ib then bitsOf i.imm 16 9
      else (x.reg i.rb).toNat) = 0) i x p.hv :=
  ⟨skS (skC) (skP) (sw 0x12 3 1 2 1 9 0), 2, skC, skP, sketchDecode (sw 0x12 3 1 2 1 9 0), by constructor <;> decide +kernel,
    by decide +kernel⟩

theorem witness_SketchDataInstructions_25 :
    ∃ (s : State) (c : Nat) (x : Ctx) (p : Pkt) (i : SInsn), s.sketchReady c 0x12 x p i ∧ ((fun i x hv => (if i.ib then bitsOf i.imm 16
      9 else (x.reg i.rb).toNat) ≠ 0 ∧ hvGet hv 0x113 1 < 16 ∧ x.cursor = 256) i x p.hv) :=
  ⟨skS ({ skC with cursor := 256 }) (skP) (sw 0x12 3 1 2 1 9 393216), 2, { skC with cursor := 256 }, skP, sketchDecode (sw 0x12 3 1 2 1
    9 393216), by constructor <;> decide +kernel, by decide +kernel⟩

theorem witness_SketchDataInstructions_26 :
    ∃ (s : State) (c : Nat) (x : Ctx) (p : Pkt) (i : SInsn), s.sketchReady c 0x0C x p i ∧ ((fun i x hv => windowCheck (winLen hv)
      (windowAddr (bitsOf i.imm 0 9) (i.imm.testBit 24) (i.imm.testBit 25) x.cursor (x.reg i.ra)) (bitsOf i.imm 18 6 + 1) = 0 ∧
      sketchWritable (bitsOf i.imm 9 9) (bitsOf i.imm 18 6 + 1) = false) i x p.hv) :=
  ⟨skS (skC) (skP) (sw 0xc 3 1 2 0 9 917506), 2, skC, skP, sketchDecode (sw 0xc 3 1 2 0 9 917506), by constructor <;> decide +kernel,
    by decide +kernel⟩

theorem witness_SketchDataInstructions_27 :
    ∃ (s : State) (c : Nat) (x : Ctx) (p : Pkt) (i : SInsn), s.sketchReady c 0x0C x p i ∧ (fun i x hv => windowCheck (winLen hv)
      (windowAddr (bitsOf i.imm 0 9) (i.imm.testBit 24) (i.imm.testBit 25) x.cursor (x.reg i.ra)) (bitsOf i.imm 18 6 + 1) ≠ 0) i x p.hv :=
  ⟨skS (skC) (skP) (sw 0xc 3 1 2 0 9 983110), 2, skC, skP, sketchDecode (sw 0xc 3 1 2 0 9 983110), by constructor <;> decide +kernel,
    by decide +kernel⟩

theorem witness_SketchDataInstructions_28 :
    ∃ (s : State) (c : Nat) (x : Ctx) (p : Pkt) (i : SInsn), s.sketchReady c 0x13 x p i ∧ (fun i x _ => 65535 < (x.cursor + (sketchB i
      x).toNat) % 2 ^ 32) i x p.hv :=
  ⟨skS (skC) (skP) (sw 0x13 3 1 2 1 9 65535), 2, skC, skP, sketchDecode (sw 0x13 3 1 2 1 9 65535), by constructor <;> decide +kernel,
    by decide +kernel⟩

theorem witness_SketchDataInstructions_29 :
    ∃ (s : State) (c : Nat) (x : Ctx) (p : Pkt) (i : SInsn), s.sketchReady c 0x13 x p i ∧ (x.cursor + (sketchB i x).toNat) % 2 ^ 32 ≤
      65535 :=
  ⟨skS (skC) (skP) (sw 0x13 3 1 2 1 9 9), 2, skC, skP, sketchDecode (sw 0x13 3 1 2 1 9 9), by constructor <;> decide +kernel,
    by decide +kernel⟩

theorem witness_SketchBranchesGoToTheirTarget_1 :
    ∃ (s : State) (c : Nat) (x : Ctx) (p : Pkt) (i : SInsn), s.sketchReady c 0x20 x p i :=
  ⟨skS (skC) (skP) (sw 0x20 3 1 2 0 9 0), 2, skC, skP, sketchDecode (sw 0x20 3 1 2 0 9 0), by constructor <;> decide +kernel⟩

theorem witness_SketchBranchesGoToTheirTarget_2 :
    ∃ (s : State) (c : Nat) (x : Ctx) (p : Pkt) (i : SInsn), s.sketchReady c 0x21 x p i :=
  ⟨skS (skC) (skP) (sw 0x21 3 1 2 0 9 0), 2, skC, skP, sketchDecode (sw 0x21 3 1 2 0 9 0), by constructor <;> decide +kernel⟩

theorem witness_SketchBranchesGoToTheirTarget_3 :
    ∃ (s : State) (c : Nat) (x : Ctx) (p : Pkt) (i : SInsn), s.sketchReady c 0x22 x p i :=
  ⟨skS (skC) (skP) (sw 0x22 3 1 2 0 9 0), 2, skC, skP, sketchDecode (sw 0x22 3 1 2 0 9 0), by constructor <;> decide +kernel⟩

theorem witness_SketchBranchesGoToTheirTarget_4 :
    ∃ (s : State) (c : Nat) (x : Ctx) (p : Pkt) (i : SInsn), s.sketchReady c 0x23 x p i :=
  ⟨skS (skC) (skP) (sw 0x23 3 1 2 0 9 0), 2, skC, skP, sketchDecode (sw 0x23 3 1 2 0 9 0), by constructor <;> decide +kernel⟩

theorem witness_SketchBranchesGoToTheirTarget_5 :
    ∃ (s : State) (c : Nat) (x : Ctx) (p : Pkt) (i : SInsn), s.sketchReady c 0x24 x p i :=
  ⟨skS (skC) (skP) (sw 0x24 3 1 2 0 9 0), 2, skC, skP, sketchDecode (sw 0x24 3 1 2 0 9 0), by constructor <;> decide +kernel⟩

theorem witness_SketchBranchesGoToTheirTarget_6 :
    ∃ (s : State) (c : Nat) (x : Ctx) (p : Pkt) (i : SInsn), s.sketchReady c 0x25 x p i :=
  ⟨skS (skC) (skP) (sw 0x25 3 1 2 0 9 0), 2, skC, skP, sketchDecode (sw 0x25 3 1 2 0 9 0), by constructor <;> decide +kernel⟩

theorem witness_SketchBranchesGoToTheirTarget_7 :
    ∃ (s : State) (c : Nat) (x : Ctx) (p : Pkt) (i : SInsn), s.sketchReady c 0x26 x p i :=
  ⟨skS (skC) (skP) (sw 0x26 3 1 2 0 9 0), 2, skC, skP, sketchDecode (sw 0x26 3 1 2 0 9 0), by constructor <;> decide +kernel⟩

theorem witness_SketchBranchesGoToTheirTarget_8 :
    ∃ (s : State) (c : Nat) (x : Ctx) (p : Pkt) (i : SInsn), s.sketchReady c 0x28 x p i :=
  ⟨skS (skC) (skP) (sw 0x28 3 1 2 0 9 0), 2, skC, skP, sketchDecode (sw 0x28 3 1 2 0 9 0), by constructor <;> decide +kernel⟩

theorem witness_SketchBranchesGoToTheirTarget_9 :
    ∃ (s : State) (c : Nat) (x : Ctx) (p : Pkt) (i : SInsn), s.sketchReady c 0x3E x p i :=
  ⟨skS (skC) (skP) (sw 0x3e 3 1 2 0 9 0), 2, skC, skP, sketchDecode (sw 0x3e 3 1 2 0 9 0), by constructor <;> decide +kernel⟩

theorem witness_SketchBranchesGoToTheirTarget_10 :
    ∃ (s : State) (c : Nat) (x : Ctx) (p : Pkt) (i : SInsn), s.sketchReady c 0x27 x p i :=
  ⟨skS (skC) (skP) (sw 0x27 3 1 2 0 9 0), 2, skC, skP, sketchDecode (sw 0x27 3 1 2 0 9 0), by constructor <;> decide +kernel⟩

theorem witness_SketchProgramsEndWithTheirReason_1 :
    ∃ (s : State) (c : Nat) (x : Ctx) (p : Pkt) (i : SInsn), s.sketchReady c 0x30 x p i :=
  ⟨skS (skC) (skP) (sw 0x30 3 1 2 0 9 0), 2, skC, skP, sketchDecode (sw 0x30 3 1 2 0 9 0), by constructor <;> decide +kernel⟩

theorem witness_SketchProgramsEndWithTheirReason_2 :
    ∃ (s : State) (c : Nat) (x : Ctx) (p : Pkt) (i : SInsn), s.sketchReady c 0x31 x p i ∧ 8 ≤ bitsOf i.imm 0 6 :=
  ⟨skS (skC) (skP) (sw 0x31 3 1 2 0 9 73), 2, skC, skP, sketchDecode (sw 0x31 3 1 2 0 9 73), by constructor <;> decide +kernel,
    by decide +kernel⟩

theorem witness_SketchProgramsEndWithTheirReason_3 :
    ∃ (s : State) (c : Nat) (x : Ctx) (p : Pkt) (i : SInsn), s.sketchReady c 0x32 x p i ∧ 8 ≤ bitsOf i.imm 0 6 :=
  ⟨skS (skC) (skP) (sw 0x32 3 1 2 0 9 9), 2, skC, skP, sketchDecode (sw 0x32 3 1 2 0 9 9), by constructor <;> decide +kernel,
    by decide +kernel⟩

theorem witness_SketchProgramsEndWithTheirReason_4 :
    ∃ (s : State) (c : Nat) (x : Ctx) (p : Pkt) (i : SInsn), s.sketchReady c 0x31 x p i ∧ (fun i _ _ => bitsOf i.imm 0 6 < 8) i x p.hv :=
  ⟨skS (skC) (skP) (sw 0x31 3 1 2 0 9 7), 2, skC, skP, sketchDecode (sw 0x31 3 1 2 0 9 7), by constructor <;> decide +kernel,
    by decide +kernel⟩

theorem witness_SketchProgramsEndWithTheirReason_5 :
    ∃ (s : State) (c : Nat) (x : Ctx) (p : Pkt) (i : SInsn), s.sketchReady c 0x32 x p i ∧ (fun i _ _ => bitsOf i.imm 0 6 < 8) i x p.hv :=
  ⟨skS (skC) (skP) (sw 0x32 3 1 2 0 9 7), 2, skC, skP, sketchDecode (sw 0x32 3 1 2 0 9 7), by constructor <;> decide +kernel,
    by decide +kernel⟩

theorem witness_SketchProgramsEndWithTheirReason_6 :
    ∃ (s : State) (c : Nat) (x : Ctx) (p : Pkt) (e : (Nat → Instr) × Nat), e ∈ sketchInstrs ∧ s.ctx c = some x ∧ s.pkt x.pkt = some p ∧
      x.running = true ∧ 256 ≤ x.insns :=
  ⟨skS ({ skC with insns := 256 }) (skP) (sw 0x3 3 1 2 0 9 0), 2, { skC with insns := 256 }, skP, (.sketchMov, 3),
    by unfold sketchInstrs; repeat (first | exact List.mem_cons_self | apply List.mem_cons_of_mem), by decide +kernel,
    by decide +kernel, by decide +kernel, by decide +kernel⟩

theorem witness_SketchProgramsEndWithTheirReason_7 :
    ∃ (s : State) (c : Nat) (x : Ctx) (p : Pkt) (e : (Nat → Instr) × Nat), e ∈ sketchInstrs ∧ s.ctx c = some x ∧ s.pkt x.pkt = some p ∧
      x.running = true ∧ x.insns < 256 ∧ 4096 ≤ x.pc :=
  ⟨skS ({ skC with pc := 4096 }) (skP) (sw 0x3 3 1 2 0 9 0), 2, { skC with pc := 4096 }, skP, (.sketchMov, 3),
    by unfold sketchInstrs; repeat (first | exact List.mem_cons_self | apply List.mem_cons_of_mem), by decide +kernel,
    by decide +kernel, by decide +kernel, by decide +kernel, by decide +kernel⟩

theorem witness_ActionArithmeticWritesOneTemporary_1 :
    ∃ (s : State) (n : Nat) (p : Pkt) (a : Act) (i : AInsn) (eg : Bool) (st : Nat), s.actionReady n 0x02 p a i eg st ∧ (fun i _ _ =>
      bitsOf i.imm 0 12 + (bitsOf i.imm 12 5 + 1) ≤ spaceBits (bitsOf i.imm 17 2)) i a p :=
  ⟨List.foldl (fun s (e : Fld × Nat × Nat) => s.wr e.1 e.2.1 e.2.2) (acS (acP) (aw 0x2 3 1 2 0 28684)) [], 0, acP, acA, actionDecode (aw
    0x2 3 1 2 0 28684), false, 2, by constructor <;> decide +kernel, by decide +kernel⟩

theorem witness_ActionArithmeticWritesOneTemporary_2 :
    ∃ (s : State) (n : Nat) (p : Pkt) (a : Act) (i : AInsn) (eg : Bool) (st : Nat), s.actionReady n 0x04 p a i eg st ∧ (fun _ _ _ =>
      True) i a p :=
  ⟨List.foldl (fun s (e : Fld × Nat × Nat) => s.wr e.1 e.2.1 e.2.2) (acS (acP) (aw 0x4 3 1 2 0 0)) [], 0, acP, acA, actionDecode (aw 0x4
    3 1 2 0 0), false, 2, by constructor <;> decide +kernel, by decide +kernel⟩

theorem witness_ActionArithmeticWritesOneTemporary_3 :
    ∃ (s : State) (n : Nat) (p : Pkt) (a : Act) (i : AInsn) (eg : Bool) (st : Nat), s.actionReady n 0x05 p a i eg st ∧ (fun _ _ _ =>
      True) i a p :=
  ⟨List.foldl (fun s (e : Fld × Nat × Nat) => s.wr e.1 e.2.1 e.2.2) (acS (acP) (aw 0x5 3 1 2 0 0)) [], 0, acP, acA, actionDecode (aw 0x5
    3 1 2 0 0), false, 2, by constructor <;> decide +kernel, by decide +kernel⟩

theorem witness_ActionArithmeticWritesOneTemporary_4 :
    ∃ (s : State) (n : Nat) (p : Pkt) (a : Act) (i : AInsn) (eg : Bool) (st : Nat), s.actionReady n 0x06 p a i eg st ∧ (fun _ _ _ =>
      True) i a p :=
  ⟨List.foldl (fun s (e : Fld × Nat × Nat) => s.wr e.1 e.2.1 e.2.2) (acS (acP) (aw 0x6 3 1 2 0 0)) [], 0, acP, acA, actionDecode (aw 0x6
    3 1 2 0 0), false, 2, by constructor <;> decide +kernel, by decide +kernel⟩

theorem witness_ActionArithmeticWritesOneTemporary_5 :
    ∃ (s : State) (n : Nat) (p : Pkt) (a : Act) (i : AInsn) (eg : Bool) (st : Nat), s.actionReady n 0x07 p a i eg st ∧ (fun _ _ _ =>
      True) i a p :=
  ⟨List.foldl (fun s (e : Fld × Nat × Nat) => s.wr e.1 e.2.1 e.2.2) (acS (acP) (aw 0x7 3 1 2 0 0)) [], 0, acP, acA, actionDecode (aw 0x7
    3 1 2 0 0), false, 2, by constructor <;> decide +kernel, by decide +kernel⟩

theorem witness_ActionArithmeticWritesOneTemporary_6 :
    ∃ (s : State) (n : Nat) (p : Pkt) (a : Act) (i : AInsn) (eg : Bool) (st : Nat), s.actionReady n 0x08 p a i eg st ∧ (fun _ _ _ =>
      True) i a p :=
  ⟨List.foldl (fun s (e : Fld × Nat × Nat) => s.wr e.1 e.2.1 e.2.2) (acS (acP) (aw 0x8 3 1 2 0 0)) [], 0, acP, acA, actionDecode (aw 0x8
    3 1 2 0 0), false, 2, by constructor <;> decide +kernel, by decide +kernel⟩

theorem witness_ActionArithmeticWritesOneTemporary_7 :
    ∃ (s : State) (n : Nat) (p : Pkt) (a : Act) (i : AInsn) (eg : Bool) (st : Nat), s.actionReady n 0x09 p a i eg st ∧ (fun _ _ _ =>
      True) i a p :=
  ⟨List.foldl (fun s (e : Fld × Nat × Nat) => s.wr e.1 e.2.1 e.2.2) (acS (acP) (aw 0x9 3 1 2 0 0)) [], 0, acP, acA, actionDecode (aw 0x9
    3 1 2 0 0), false, 2, by constructor <;> decide +kernel, by decide +kernel⟩

theorem witness_ActionArithmeticWritesOneTemporary_8 :
    ∃ (s : State) (n : Nat) (p : Pkt) (a : Act) (i : AInsn) (eg : Bool) (st : Nat), s.actionReady n 0x0A p a i eg st ∧ (fun _ _ _ =>
      True) i a p :=
  ⟨List.foldl (fun s (e : Fld × Nat × Nat) => s.wr e.1 e.2.1 e.2.2) (acS (acP) (aw 0xa 3 1 2 0 0)) [], 0, acP, acA, actionDecode (aw 0xa
    3 1 2 0 0), false, 2, by constructor <;> decide +kernel, by decide +kernel⟩

theorem witness_ActionArithmeticWritesOneTemporary_9 :
    ∃ (s : State) (n : Nat) (p : Pkt) (a : Act) (i : AInsn) (eg : Bool) (st : Nat), s.actionReady n 0x0B p a i eg st ∧ (fun _ _ _ =>
      True) i a p :=
  ⟨List.foldl (fun s (e : Fld × Nat × Nat) => s.wr e.1 e.2.1 e.2.2) (acS (acP) (aw 0xb 3 1 2 0 0)) [], 0, acP, acA, actionDecode (aw 0xb
    3 1 2 0 0), false, 2, by constructor <;> decide +kernel, by decide +kernel⟩

theorem witness_ActionArithmeticWritesOneTemporary_10 :
    ∃ (s : State) (n : Nat) (p : Pkt) (a : Act) (i : AInsn) (eg : Bool) (st : Nat), s.actionReady n 0x21 p a i eg st ∧ (fun _ _ _ =>
      True) i a p :=
  ⟨List.foldl (fun s (e : Fld × Nat × Nat) => s.wr e.1 e.2.1 e.2.2) (acS (acP) (aw 0x21 3 1 2 0 0)) [], 0, acP, acA, actionDecode (aw
    0x21 3 1 2 0 0), false, 2, by constructor <;> decide +kernel, by decide +kernel⟩

theorem witness_StagesBeginEditSkipAndEnd_1 :
    ∃ (s : State) (n : Nat) (p : Pkt) (eg : Bool) (st : Nat), s.pkt n = some p ∧ s.halted = false ∧ s.inPipeOrder p eg (· == p.loc) =
      true ∧ nextStage p = some (eg, st, 0xFF) :=
  ⟨(st []).setPkt 0 ({ skP with loc := .pipeIn, hv := hvSet skP.hv 0x122 1 255, stamped := true }), 0,
    { skP with loc := .pipeIn, hv := hvSet skP.hv 0x122 1 255, stamped := true }, false, 1, by decide +kernel⟩

theorem witness_StagesBeginEditSkipAndEnd_2 :
    ∃ (s : State) (n : Nat) (i : Nat) (p : Pkt) (eg : Bool) (st : Nat) (tpl : Nat), s.pkt n = some p ∧ s.halted = false ∧ s.inPipeOrder
      p eg (· == p.loc) = true ∧ nextStage p = some (eg, st, tpl) ∧ tpl ≠ 0xFF ∧ i = bankNo (stageBank p eg) * 256 + tpl ∧ ((p.early =
      none ∨ st ≠ 1 ∨ eg = true ∨ hvGet p.hv 0x116 1 ≠ 3)) ∧ s.rd F.GLZ_TPL.KIND i = 0 :=
  ⟨(st [(F.GLZ_TPL.NEXT, 4, 9), (F.GLZ_TPL.MISS_PC, 4, 77)]).setPkt 0 ({ skP with loc := .pipeIn, hv := hvSet skP.hv 0x122 1 4 }), 0, 4,
    { skP with loc := .pipeIn, hv := hvSet skP.hv 0x122 1 4 }, false, 1, 4, by decide +kernel⟩

theorem witness_StagesBeginEditSkipAndEnd_3 :
    ∃ (s : State) (n : Nat) (i : Nat) (p : Pkt) (eg : Bool) (st : Nat) (tpl : Nat), s.pkt n = some p ∧ s.halted = false ∧ s.inPipeOrder
      p eg (· == p.loc) = true ∧ nextStage p = some (eg, st, tpl) ∧ tpl ≠ 0xFF ∧ i = bankNo (stageBank p eg) * 256 + tpl ∧ ((p.early =
      none ∨ st ≠ 1 ∨ eg = true ∨ hvGet p.hv 0x116 1 ≠ 3)) ∧ s.rd F.GLZ_TPL.KIND i = 5 :=
  ⟨(st [(F.GLZ_TPL.NEXT, 4, 9), (F.GLZ_TPL.KIND, 4, 5)]).setPkt 0 ({ skP with loc := .pipeIn, hv := hvSet skP.hv 0x122 1 4 }), 0, 4,
    { skP with loc := .pipeIn, hv := hvSet skP.hv 0x122 1 4 }, false, 1, 4, by decide +kernel⟩

theorem witness_StagesBeginEditSkipAndEnd_4 :
    ∃ (s : State) (n : Nat) (i : Nat) (p : Pkt) (eg : Bool) (st : Nat) (tpl : Nat) (l : _), s.pkt n = some p ∧ s.halted = false ∧
      s.inPipeOrder p eg (· == p.loc) = true ∧ nextStage p = some (eg, st, tpl) ∧ tpl ≠ 0xFF ∧ i = bankNo (stageBank p eg) * 256 + tpl ∧
      ((p.early = none ∨ st ≠ 1 ∨ eg = true ∨ hvGet p.hv 0x116 1 ≠ 3)) ∧ s.rd F.GLZ_TPL.KIND i ≠ 5 ∧ l = (s.lookupFor (stageBank p eg)
      tpl (s.keyOf (stageBank p eg) tpl p.hv)).2 :=
  ⟨(st [(F.GLZ_TPL.NEXT, 4, 9), (F.GLZ_TPL.KIND, 4, 1), (F.TBL_DESC.KIND, 0, 1), (F.TBL_DESC.PART_CNT, 0, 1)]).setPkt 0
    ({ skP with loc := .pipeIn, hv := hvSet skP.hv 0x122 1 4 }), 0, 4, { skP with loc := .pipeIn, hv := hvSet skP.hv 0x122 1 4 }, false,
    1, 4, ((((st [(F.GLZ_TPL.NEXT, 4, 9), (F.GLZ_TPL.KIND, 4, 1), (F.TBL_DESC.KIND, 0, 1), (F.TBL_DESC.PART_CNT, 0, 1)]).setPkt 0
    ({ skP with loc := .pipeIn, hv := hvSet skP.hv 0x122 1 4 })).lookupFor false 4 (((st [(F.GLZ_TPL.NEXT, 4, 9), (F.GLZ_TPL.KIND, 4,
    1), (F.TBL_DESC.KIND, 0, 1), (F.TBL_DESC.PART_CNT, 0, 1)]).setPkt 0
    ({ skP with loc := .pipeIn, hv := hvSet skP.hv 0x122 1 4 })).keyOf false 4
    ({ skP with loc := .pipeIn, hv := hvSet skP.hv 0x122 1 4 }).hv)).2), by decide +kernel⟩

theorem witness_StagesBeginEditSkipAndEnd_5 :
    ∃ (s : State) (n : Nat) (i : Nat) (p : Pkt) (eg : Bool) (st : Nat) (tpl : Nat) (e : _), s.pkt n = some p ∧ s.halted = false ∧
      s.inPipeOrder p eg (· == p.loc) = true ∧ nextStage p = some (eg, st, tpl) ∧ tpl ≠ 0xFF ∧ i = bankNo (stageBank p eg) * 256 + tpl ∧
      p.early = some e ∧ st = 1 ∧ eg = false ∧ hvGet p.hv 0x116 1 = 3 :=
  ⟨(st [(F.GLZ_TPL.NEXT, 4, 9)]).setPkt 0
    ({ skP with loc := .pipeIn, early := some ⟨4, 9, Lookup.found 5 .none⟩, hv := hvSet (hvSet skP.hv 0x122 1 4) 0x116 1 3 }), 0, 4,
    { skP with loc := .pipeIn, early := some ⟨4, 9, Lookup.found 5 .none⟩, hv := hvSet (hvSet skP.hv 0x122 1 4) 0x116 1 3 }, false, 1,
    4, ⟨4, 9, Lookup.found 5 .none⟩, by decide +kernel⟩

theorem witness_StagesBeginEditSkipAndEnd_6 :
    ∃ (s : State) (n : Nat) (p : Pkt) (a : Act) (i : AInsn) (eg : Bool) (st : Nat), s.actionReady n 0x03 p a i eg st ∧ ((fun _ i _ p _
      => let off := bitsOf i.imm 0 12; let w := bitsOf i.imm 12 5 + 1; let n := (off % 8 + w + 7) / 8; off + w ≤ spaceBits (bitsOf i.imm
      17 2) ∧ (bitsOf i.imm 17 2 = 0 ∧ stfWritable p (off / 8) n = true ∨ bitsOf i.imm 17 2 = 2 ∧ 0x10 ≤ off / 8 ∧ off / 8 + n ≤ 0x16))
      s i a p eg) :=
  ⟨List.foldl (fun s (e : Fld × Nat × Nat) => s.wr e.1 e.2.1 e.2.2) (acS (acP) (aw 0x3 3 1 2 0 36884)) [], 0, acP, acA, actionDecode (aw
    0x3 3 1 2 0 36884), false, 2, by constructor <;> decide +kernel, by decide +kernel⟩

theorem witness_StagesBeginEditSkipAndEnd_7 :
    ∃ (s : State) (n : Nat) (p : Pkt) (a : Act) (i : AInsn) (eg : Bool) (st : Nat), s.actionReady n 0x03 p a i eg st ∧ (¬ (fun _ i _ p _
      => let off := bitsOf i.imm 0 12; let w := bitsOf i.imm 12 5 + 1; let n := (off % 8 + w + 7) / 8; off + w ≤ spaceBits (bitsOf i.imm
      17 2) ∧ (bitsOf i.imm 17 2 = 0 ∧ stfWritable p (off / 8) n = true ∨ bitsOf i.imm 17 2 = 2 ∧ 0x10 ≤ off / 8 ∧ off / 8 + n ≤ 0x16))
      s i a p eg) :=
  ⟨List.foldl (fun s (e : Fld × Nat × Nat) => s.wr e.1 e.2.1 e.2.2) (acS (acP) (aw 0x3 3 1 2 0 167956)) [], 0, acP, acA, actionDecode
    (aw 0x3 3 1 2 0 167956), false, 2, by constructor <;> decide +kernel, by decide +kernel⟩

theorem witness_StagesBeginEditSkipAndEnd_8 :
    ∃ (s : State) (n : Nat) (p : Pkt) (a : Act) (i : AInsn) (eg : Bool) (st : Nat), s.actionReady n 0x0C p a i eg st ∧ ((fun _ i _ p _
      => bitsOf i.imm 0 9 + 2 ≤ 512 ∧ stfWritable p (bitsOf i.imm 0 9) 2 = true) s i a p eg) :=
  ⟨List.foldl (fun s (e : Fld × Nat × Nat) => s.wr e.1 e.2.1 e.2.2) (acS (acP) (aw 0xc 3 1 2 0 8)) [], 0, acP, acA, actionDecode (aw 0xc
    3 1 2 0 8), false, 2, by constructor <;> decide +kernel, by decide +kernel⟩

theorem witness_StagesBeginEditSkipAndEnd_9 :
    ∃ (s : State) (n : Nat) (p : Pkt) (a : Act) (i : AInsn) (eg : Bool) (st : Nat), s.actionReady n 0x0C p a i eg st ∧ (¬ (fun _ i _ p _
      => bitsOf i.imm 0 9 + 2 ≤ 512 ∧ stfWritable p (bitsOf i.imm 0 9) 2 = true) s i a p eg) :=
  ⟨List.foldl (fun s (e : Fld × Nat × Nat) => s.wr e.1 e.2.1 e.2.2) (acS (acP) (aw 0xc 3 1 2 0 272)) [], 0, acP, acA, actionDecode (aw
    0xc 3 1 2 0 272), false, 2, by constructor <;> decide +kernel, by decide +kernel⟩

theorem witness_StagesBeginEditSkipAndEnd_10 :
    ∃ (s : State) (n : Nat) (p : Pkt) (a : Act) (i : AInsn) (eg : Bool) (st : Nat), s.actionReady n 0x0D p a i eg st ∧ ((fun _ i _ p _
      => bitsOf i.imm 0 8 ≤ hvGet p.drec 0x18 2 ∧ hvGet p.drec 0x18 2 + (bitsOf i.imm 8 7 + 1) ≤ 256) s i a p eg) :=
  ⟨List.foldl (fun s (e : Fld × Nat × Nat) => s.wr e.1 e.2.1 e.2.2) (acS (acP) (aw 0xd 3 1 2 0 778)) [], 0, acP, acA, actionDecode (aw
    0xd 3 1 2 0 778), false, 2, by constructor <;> decide +kernel, by decide +kernel⟩

theorem witness_StagesBeginEditSkipAndEnd_11 :
    ∃ (s : State) (n : Nat) (p : Pkt) (a : Act) (i : AInsn) (eg : Bool) (st : Nat), s.actionReady n 0x0D p a i eg st ∧ (¬ (fun _ i _ p _
      => bitsOf i.imm 0 8 ≤ hvGet p.drec 0x18 2 ∧ hvGet p.drec 0x18 2 + (bitsOf i.imm 8 7 + 1) ≤ 256) s i a p eg) :=
  ⟨List.foldl (fun s (e : Fld × Nat × Nat) => s.wr e.1 e.2.1 e.2.2) (acS (acP) (aw 0xd 3 1 2 0 61)) [], 0, acP, acA, actionDecode (aw
    0xd 3 1 2 0 61), false, 2, by constructor <;> decide +kernel, by decide +kernel⟩

theorem witness_StagesBeginEditSkipAndEnd_12 :
    ∃ (s : State) (n : Nat) (p : Pkt) (a : Act) (i : AInsn) (eg : Bool) (st : Nat), s.actionReady n 0x0E p a i eg st ∧ (fun _ i _ p _ =>
      bitsOf i.imm 0 8 + (bitsOf i.imm 8 7 + 1) ≤ hvGet p.drec 0x18 2) s i a p eg :=
  ⟨List.foldl (fun s (e : Fld × Nat × Nat) => s.wr e.1 e.2.1 e.2.2) (acS (acP) (aw 0xe 3 1 2 0 778)) [], 0, acP, acA, actionDecode (aw
    0xe 3 1 2 0 778), false, 2, by constructor <;> decide +kernel, by decide +kernel⟩

theorem witness_StagesBeginEditSkipAndEnd_13 :
    ∃ (s : State) (n : Nat) (p : Pkt) (a : Act) (i : AInsn) (eg : Bool) (st : Nat), s.actionReady n 0x0E p a i eg st ∧ ¬ (fun _ i _ p _
      => bitsOf i.imm 0 8 + (bitsOf i.imm 8 7 + 1) ≤ hvGet p.drec 0x18 2) s i a p eg :=
  ⟨List.foldl (fun s (e : Fld × Nat × Nat) => s.wr e.1 e.2.1 e.2.2) (acS (acP) (aw 0xe 3 1 2 0 826)) [], 0, acP, acA, actionDecode (aw
    0xe 3 1 2 0 826), false, 2, by constructor <;> decide +kernel, by decide +kernel⟩

theorem witness_StagesBeginEditSkipAndEnd_14 :
    ∃ (s : State) (n : Nat) (p : Pkt) (a : Act) (i : AInsn) (eg : Bool) (st : Nat), s.actionReady n 0x10 p a i eg st :=
  ⟨List.foldl (fun s (e : Fld × Nat × Nat) => s.wr e.1 e.2.1 e.2.2) (acS (acP) (aw 0x10 3 1 2 0 3)) [], 0, acP, acA, actionDecode (aw
    0x10 3 1 2 0 3), false, 2, by constructor <;> decide +kernel⟩

theorem witness_StagesBeginEditSkipAndEnd_15 :
    ∃ (s : State) (n : Nat) (p : Pkt) (a : Act) (i : AInsn) (eg : Bool) (st : Nat), s.actionReady n 0x11 p a i eg st :=
  ⟨List.foldl (fun s (e : Fld × Nat × Nat) => s.wr e.1 e.2.1 e.2.2) (acS (acP) (aw 0x11 3 1 2 0 15)) [], 0, acP, acA, actionDecode (aw
    0x11 3 1 2 0 15), false, 2, by constructor <;> decide +kernel⟩

theorem witness_StagesBeginEditSkipAndEnd_16 :
    ∃ (s : State) (n : Nat) (p : Pkt) (a : Act) (i : AInsn) (eg : Bool) (st : Nat), s.actionReady n 0x3E p a i eg st :=
  ⟨List.foldl (fun s (e : Fld × Nat × Nat) => s.wr e.1 e.2.1 e.2.2) (acS (acP) (aw 0x3e 3 1 2 0 0)) [], 0, acP, acA, actionDecode (aw
    0x3e 3 1 2 0 0), false, 2, by constructor <;> decide +kernel⟩

theorem witness_StagesBeginEditSkipAndEnd_17 :
    ∃ (s : State) (n : Nat) (p : Pkt) (a : Act) (i : AInsn) (eg : Bool) (st : Nat), s.actionReady n 0x12 p a i eg st :=
  ⟨List.foldl (fun s (e : Fld × Nat × Nat) => s.wr e.1 e.2.1 e.2.2) (acS (acP) (aw 0x12 3 1 2 0 0)) [], 0, acP, acA, actionDecode (aw
    0x12 3 1 2 0 0), false, 2, by constructor <;> decide +kernel⟩

theorem witness_StagesBeginEditSkipAndEnd_18 :
    ∃ (s : State) (n : Nat) (op : Nat) (p : Pkt) (a : Act) (i : AInsn) (eg : Bool) (st : Nat), s.actionReady n op p a i eg st ∧ op ∉
      actionOps :=
  ⟨List.foldl (fun s (e : Fld × Nat × Nat) => s.wr e.1 e.2.1 e.2.2) (acS (acP) (aw 0x1 3 1 2 0 0)) [], 0, 1, acP, acA, actionDecode (aw
    0x1 3 1 2 0 0), false, 2, by constructor <;> decide +kernel, by decide +kernel⟩

theorem witness_ForwardingChoosesTheDestination_1 :
    ∃ (s : State) (n : Nat) (r : Nat) (p : Pkt) (a : Act) (i : AInsn) (st : Nat), s.actionReady n 0x18 p a i false st ∧ r = (if i.ib
      then a.res.toNat % 2 ^ 64 else (a.tmp i.ta).toNat * 2 ^ 32 + (a.tmp i.tb).toNat) ∧ bitsOf r 52 2 = 0 ∧ bitsOf r 31 1 = 1 :=
  ⟨acS { acP with act := some { acA with res := 15032385541 } } (aw 0x18 3 1 2 1 0), 0, 15032385541,
    { acP with act := some { acA with res := 15032385541 } }, { acA with res := 15032385541 }, actionDecode (aw 0x18 3 1 2 1 0), 2,
    by constructor <;> decide +kernel, by decide +kernel, by decide +kernel, by decide +kernel⟩

theorem witness_ForwardingChoosesTheDestination_2 :
    ∃ (s : State) (n : Nat) (p : Pkt) (a : Act) (i : AInsn) (eg : Bool) (st : Nat), s.actionReady n 0x18 p a i eg st ∧ ((eg = true ∨
      bitsOf (if i.ib then a.res.toNat % 2 ^ 64 else (a.tmp i.ta).toNat * 2 ^ 32 + (a.tmp i.tb).toNat) 52 2 ≠ 0)) :=
  ⟨acS { acP with loc := .egActing 2 } (aw 0x18 3 1 2 1 0), 0, { acP with loc := .egActing 2 }, acA, actionDecode (aw 0x18 3 1 2 1 0),
    true, 2, by constructor <;> decide +kernel, by decide +kernel⟩

theorem witness_ForwardingChoosesTheDestination_3 :
    ∃ (s : State) (n : Nat) (r : Nat) (p : Pkt) (a : Act) (i : AInsn) (st : Nat), s.actionReady n 0x18 p a i false st ∧ r = (if i.ib
      then a.res.toNat % 2 ^ 64 else (a.tmp i.ta).toNat * 2 ^ 32 + (a.tmp i.tb).toNat) ∧ bitsOf r 52 2 = 0 ∧ bitsOf r 31 1 = 0 :=
  ⟨List.foldl (fun s (e : Fld × Nat × Nat) => s.wr e.1 e.2.1 e.2.2) (acS (acP) (aw 0x18 3 1 2 1 0)) [], 0, 0x1234, acP, acA,
    actionDecode (aw 0x18 3 1 2 1 0), 2, by constructor <;> decide +kernel, by decide +kernel, by decide +kernel, by decide +kernel⟩

theorem witness_ForwardingChoosesTheDestination_4 :
    ∃ (s : State) (n : Nat) (g : Nat) (w : Nat) (r : Nat) (p : Pkt) (a : Act) (i : AInsn) (st : Nat), s.actionReady n 0x19 p a i false
      st ∧ g = (actionB i a).toNat % 4096 ∧ 0 < s.rd F.GLZ_IGRP.SIZE g ∧ s.rd F.GLZ_IGRP.BASE g + s.rd F.GLZ_IGRP.SIZE g ≤ 4194304 ∧ w =
      indirWord (s.rd F.GLZ_IGRP.BASE g + ((a.tmp i.ta).rotateRight (s.rd F.GLZ_IGRP.ROT g)).toNat / 65536 * s.rd F.GLZ_IGRP.SIZE g /
      65536) ∧ s.sramUe w 1 = false ∧ r = s.sramVal w 1 ∧ bitsOf r 31 1 = 1 ∧ bitsOf r 52 2 = 0 :=
  ⟨(fun (u : State) => u.withTables { u.tables with sram := [(indirWord 5, 15032385541)] }) <| List.foldl (fun s (e : Fld × Nat × Nat)
    => s.wr e.1 e.2.1 e.2.2) (acS (acP) (aw 0x19 3 1 2 0 0)) [(F.GLZ_IGRP.SIZE, 9, 3), (F.GLZ_IGRP.BASE, 9, 5)], 0, 9, indirWord 5,
    15032385541, acP, acA, actionDecode (aw 0x19 3 1 2 0 0), 2, by constructor <;> decide +kernel, by decide +kernel, by decide +kernel,
    by decide +kernel, by decide +kernel, by decide +kernel, by decide +kernel, by decide +kernel, by decide +kernel⟩

theorem witness_ForwardingChoosesTheDestination_5 :
    ∃ (s : State) (n : Nat) (g : Nat) (w : Nat) (r : Nat) (p : Pkt) (a : Act) (i : AInsn) (st : Nat), s.actionReady n 0x19 p a i false
      st ∧ g = (actionB i a).toNat % 4096 ∧ 0 < s.rd F.GLZ_IGRP.SIZE g ∧ s.rd F.GLZ_IGRP.BASE g + s.rd F.GLZ_IGRP.SIZE g ≤ 4194304 ∧ w =
      indirWord (s.rd F.GLZ_IGRP.BASE g + ((a.tmp i.ta).rotateRight (s.rd F.GLZ_IGRP.ROT g)).toNat / 65536 * s.rd F.GLZ_IGRP.SIZE g /
      65536) ∧ s.sramUe w 1 = false ∧ r = s.sramVal w 1 ∧ bitsOf r 31 1 = 1 ∧ bitsOf r 52 2 = 2 :=
  ⟨(fun (u : State) => u.withTables { u.tables with sram := [(indirWord 5, 9007214287126533)] }) <| List.foldl (fun s (e : Fld × Nat ×
    Nat) => s.wr e.1 e.2.1 e.2.2) (acS (acP) (aw 0x19 3 1 2 0 0)) [(F.GLZ_IGRP.SIZE, 9, 3), (F.GLZ_IGRP.BASE, 9, 5)], 0, 9, indirWord 5,
    9007214287126533, acP, acA, actionDecode (aw 0x19 3 1 2 0 0), 2, by constructor <;> decide +kernel, by decide +kernel,
    by decide +kernel, by decide +kernel, by decide +kernel, by decide +kernel, by decide +kernel, by decide +kernel, by decide +kernel⟩

theorem witness_ForwardingChoosesTheDestination_6 :
    ∃ (s : State) (n : Nat) (g : Nat) (w : Nat) (r : Nat) (p : Pkt) (a : Act) (i : AInsn) (st : Nat), s.actionReady n 0x19 p a i false
      st ∧ g = (actionB i a).toNat % 4096 ∧ 0 < s.rd F.GLZ_IGRP.SIZE g ∧ s.rd F.GLZ_IGRP.BASE g + s.rd F.GLZ_IGRP.SIZE g ≤ 4194304 ∧ w =
      indirWord (s.rd F.GLZ_IGRP.BASE g + ((a.tmp i.ta).rotateRight (s.rd F.GLZ_IGRP.ROT g)).toNat / 65536 * s.rd F.GLZ_IGRP.SIZE g /
      65536) ∧ s.sramUe w 1 = false ∧ r = s.sramVal w 1 ∧ bitsOf r 31 1 = 1 ∧ bitsOf r 52 2 = 1 ∧ dflag p 0 = true :=
  ⟨(fun (u : State) => u.withTables { u.tables with sram := [(indirWord 5, 4503614659756037)] }) <| List.foldl (fun s (e : Fld × Nat ×
    Nat) => s.wr e.1 e.2.1 e.2.2) (acS ({ acP with drec := hvSet acP.drec 0 1 1 }) (aw 0x19 3 1 2 0 0)) [(F.GLZ_IGRP.SIZE, 9, 3),
    (F.GLZ_IGRP.BASE, 9, 5)], 0, 9, indirWord 5, 4503614659756037, { acP with drec := hvSet acP.drec 0 1 1 }, acA, actionDecode (aw 0x19
    3 1 2 0 0), 2, by constructor <;> decide +kernel, by decide +kernel, by decide +kernel, by decide +kernel, by decide +kernel,
    by decide +kernel, by decide +kernel, by decide +kernel, by decide +kernel, by decide +kernel⟩

theorem witness_ForwardingChoosesTheDestination_7 :
    ∃ (s : State) (n : Nat) (g : Nat) (w : Nat) (p : Pkt) (a : Act) (i : AInsn) (st : Nat), s.actionReady n 0x19 p a i false st ∧ g =
      (actionB i a).toNat % 4096 ∧ 0 < s.rd F.GLZ_IGRP.SIZE g ∧ s.rd F.GLZ_IGRP.BASE g + s.rd F.GLZ_IGRP.SIZE g ≤ 4194304 ∧ w =
      indirWord (s.rd F.GLZ_IGRP.BASE g + ((a.tmp i.ta).rotateRight (s.rd F.GLZ_IGRP.ROT g)).toNat / 65536 * s.rd F.GLZ_IGRP.SIZE g /
      65536) ∧ ((s.sramUe w 1 = true ∨ bitsOf (s.sramVal w 1) 31 1 = 0)) :=
  ⟨(fun (u : State) => u.withBadWords { u.badWords with sramUe := [indirWord 5] }) <| List.foldl (fun s (e : Fld × Nat × Nat) => s.wr
    e.1 e.2.1 e.2.2) (acS (acP) (aw 0x19 3 1 2 0 0)) [(F.GLZ_IGRP.SIZE, 9, 3), (F.GLZ_IGRP.BASE, 9, 5)], 0, 9, indirWord 5, acP, acA,
    actionDecode (aw 0x19 3 1 2 0 0), 2, by constructor <;> decide +kernel, by decide +kernel, by decide +kernel, by decide +kernel,
    by decide +kernel, by decide +kernel⟩

theorem witness_ForwardingChoosesTheDestination_8 :
    ∃ (s : State) (n : Nat) (p : Pkt) (a : Act) (i : AInsn) (eg : Bool) (st : Nat), s.actionReady n 0x19 p a i eg st ∧ ((eg = true ∨
      s.rd F.GLZ_IGRP.SIZE ((actionB i a).toNat % 4096) = 0 ∨ 4194304 < s.rd F.GLZ_IGRP.BASE ((actionB i a).toNat % 4096) + s.rd
      F.GLZ_IGRP.SIZE ((actionB i a).toNat % 4096))) :=
  ⟨List.foldl (fun s (e : Fld × Nat × Nat) => s.wr e.1 e.2.1 e.2.2) (acS (acP) (aw 0x19 3 1 2 0 0)) [], 0, acP, acA, actionDecode (aw
    0x19 3 1 2 0 0), false, 2, by constructor <;> decide +kernel, by decide +kernel⟩

theorem witness_ForwardingChoosesTheDestination_9 :
    ∃ (s : State) (n : Nat) (p : Pkt) (a : Act) (i : AInsn) (st : Nat), s.actionReady n 0x1E p a i true st :=
  ⟨List.foldl (fun s (e : Fld × Nat × Nat) => s.wr e.1 e.2.1 e.2.2) (acS ({ acP with loc := .egActing 2, stamped := true }) (aw 0x1e 3 1
    2 0 0)) [], 0, { acP with loc := .egActing 2, stamped := true }, acA, actionDecode (aw 0x1e 3 1 2 0 0), 2,
    by constructor <;> decide +kernel⟩

theorem witness_ForwardingChoosesTheDestination_10 :
    ∃ (s : State) (n : Nat) (p : Pkt) (a : Act) (i : AInsn) (st : Nat), s.actionReady n 0x1E p a i false st :=
  ⟨List.foldl (fun s (e : Fld × Nat × Nat) => s.wr e.1 e.2.1 e.2.2) (acS (acP) (aw 0x1e 3 1 2 0 0)) [], 0, acP, acA, actionDecode (aw
    0x1e 3 1 2 0 0), 2, by constructor <;> decide +kernel⟩

theorem witness_DropsCopiesAndMirrorsStandByTheirRule_1 :
    ∃ (s : State) (n : Nat) (p : Pkt) (a : Act) (i : AInsn) (eg : Bool) (st : Nat), s.actionReady n 0x1A p a i eg st ∧ (fun _ i a _ _ =>
      8 ≤ (actionB i a).toNat % 64) s i a p eg :=
  ⟨List.foldl (fun s (e : Fld × Nat × Nat) => s.wr e.1 e.2.1 e.2.2) (acS (acP) (aw 0x1a 3 1 2 1 9)) [], 0, acP, acA, actionDecode (aw
    0x1a 3 1 2 1 9), false, 2, by constructor <;> decide +kernel, by decide +kernel⟩

theorem witness_DropsCopiesAndMirrorsStandByTheirRule_2 :
    ∃ (s : State) (n : Nat) (p : Pkt) (a : Act) (i : AInsn) (eg : Bool) (st : Nat), s.actionReady n 0x1A p a i eg st ∧ ¬ (fun _ i a _ _
      => 8 ≤ (actionB i a).toNat % 64) s i a p eg :=
  ⟨List.foldl (fun s (e : Fld × Nat × Nat) => s.wr e.1 e.2.1 e.2.2) (acS (acP) (aw 0x1a 3 1 2 1 7)) [], 0, acP, acA, actionDecode (aw
    0x1a 3 1 2 1 7), false, 2, by constructor <;> decide +kernel, by decide +kernel⟩

theorem witness_DropsCopiesAndMirrorsStandByTheirRule_3 :
    ∃ (s : State) (n : Nat) (p : Pkt) (a : Act) (i : AInsn) (eg : Bool) (st : Nat), s.actionReady n 0x1B p a i eg st ∧ ((fun _ i a _ eg
      => eg = false ∧ 8 ≤ (actionB i a).toNat % 64) s i a p eg) :=
  ⟨List.foldl (fun s (e : Fld × Nat × Nat) => s.wr e.1 e.2.1 e.2.2) (acS (acP) (aw 0x1b 3 1 2 1 9)) [], 0, acP, acA, actionDecode (aw
    0x1b 3 1 2 1 9), false, 2, by constructor <;> decide +kernel, by decide +kernel⟩

theorem witness_DropsCopiesAndMirrorsStandByTheirRule_4 :
    ∃ (s : State) (n : Nat) (p : Pkt) (a : Act) (i : AInsn) (eg : Bool) (st : Nat), s.actionReady n 0x1B p a i eg st ∧ (¬ (fun _ i a _
      eg => eg = false ∧ 8 ≤ (actionB i a).toNat % 64) s i a p eg) :=
  ⟨List.foldl (fun s (e : Fld × Nat × Nat) => s.wr e.1 e.2.1 e.2.2) (acS (acP) (aw 0x1b 3 1 2 1 7)) [], 0, acP, acA, actionDecode (aw
    0x1b 3 1 2 1 7), false, 2, by constructor <;> decide +kernel, by decide +kernel⟩

theorem witness_DropsCopiesAndMirrorsStandByTheirRule_5 :
    ∃ (s : State) (n : Nat) (p : Pkt) (a : Act) (i : AInsn) (eg : Bool) (st : Nat), s.actionReady n 0x1C p a i eg st ∧ ((fun _ i a _ eg
      => eg = false ∧ 8 ≤ (actionB i a).toNat % 64) s i a p eg) :=
  ⟨List.foldl (fun s (e : Fld × Nat × Nat) => s.wr e.1 e.2.1 e.2.2) (acS (acP) (aw 0x1c 3 1 2 1 9)) [], 0, acP, acA, actionDecode (aw
    0x1c 3 1 2 1 9), false, 2, by constructor <;> decide +kernel, by decide +kernel⟩

theorem witness_DropsCopiesAndMirrorsStandByTheirRule_6 :
    ∃ (s : State) (n : Nat) (p : Pkt) (a : Act) (i : AInsn) (eg : Bool) (st : Nat), s.actionReady n 0x1C p a i eg st ∧ (¬ (fun _ i a _
      eg => eg = false ∧ 8 ≤ (actionB i a).toNat % 64) s i a p eg) :=
  ⟨List.foldl (fun s (e : Fld × Nat × Nat) => s.wr e.1 e.2.1 e.2.2) (acS (acP) (aw 0x1c 3 1 2 1 7)) [], 0, acP, acA, actionDecode (aw
    0x1c 3 1 2 1 7), false, 2, by constructor <;> decide +kernel, by decide +kernel⟩

theorem witness_DropsCopiesAndMirrorsStandByTheirRule_7 :
    ∃ (s : State) (n : Nat) (p : Pkt) (a : Act) (i : AInsn) (eg : Bool) (st : Nat), s.actionReady n 0x1D p a i eg st ∧ ((fun s i a _ eg
      => eg = false ∧ s.on F.GLZ_MIRROR.EN ((actionB i a).toNat % 16) = true) s i a p eg) :=
  ⟨List.foldl (fun s (e : Fld × Nat × Nat) => s.wr e.1 e.2.1 e.2.2) (acS (acP) (aw 0x1d 3 1 2 1 9)) [(F.GLZ_MIRROR.EN, 9, 1)], 0, acP,
    acA, actionDecode (aw 0x1d 3 1 2 1 9), false, 2, by constructor <;> decide +kernel, by decide +kernel⟩

theorem witness_DropsCopiesAndMirrorsStandByTheirRule_8 :
    ∃ (s : State) (n : Nat) (p : Pkt) (a : Act) (i : AInsn) (eg : Bool) (st : Nat), s.actionReady n 0x1D p a i eg st ∧ (¬ (fun s i a _
      eg => eg = false ∧ s.on F.GLZ_MIRROR.EN ((actionB i a).toNat % 16) = true) s i a p eg) :=
  ⟨List.foldl (fun s (e : Fld × Nat × Nat) => s.wr e.1 e.2.1 e.2.2) (acS (acP) (aw 0x1d 3 1 2 1 9)) [], 0, acP, acA, actionDecode (aw
    0x1d 3 1 2 1 9), false, 2, by constructor <;> decide +kernel, by decide +kernel⟩

theorem witness_PolicersCountersAndLearning_1 :
    ∃ (s : State) (n : Nat) (k : Nat) (owes : Bool) (late : Bool) (p : Pkt) (a : Act) (i : AInsn) (st : Nat), s.actionReady n 0x1F p a i
      false st ∧ k = (actionB i a).toNat % 65536 ∧ 0 < s.rd F.GLZ_POL.RATE k ∧ (chargeOf p.hv : Int) ≤ (s.policer k).level ∧ owes =
      (hvGet p.hv 0x104 2 == 0xFFFF) ∧ late = (p.rx.arrived && !p.cut) ∧ ((owes = true → hvGet p.drec 0x16 1 < 8)) :=
  ⟨List.foldl (fun s (e : Fld × Nat × Nat) => s.wr e.1 e.2.1 e.2.2) (acS ({ acP with hv := hvSet acP.hv 0x104 2 0xFFFF }) (aw 0x1f 3 1 2
    0 0)) [(F.GLZ_POL.RATE, 9, 8), (F.GLZ_POL.BURST, 9, 100)], 0, 9, true, true, { acP with hv := hvSet acP.hv 0x104 2 0xFFFF }, acA,
    actionDecode (aw 0x1f 3 1 2 0 0), 2, by constructor <;> decide +kernel, by decide +kernel, by decide +kernel, by decide +kernel,
    by decide +kernel, by decide +kernel, by decide +kernel⟩

theorem witness_PolicersCountersAndLearning_2 :
    ∃ (s : State) (n : Nat) (k : Nat) (p : Pkt) (a : Act) (i : AInsn) (st : Nat), s.actionReady n 0x1F p a i false st ∧ k = (actionB i
      a).toNat % 65536 ∧ ((s.rd F.GLZ_POL.RATE k = 0 ∨ (s.policer k).level < (chargeOf p.hv : Int))) :=
  ⟨List.foldl (fun s (e : Fld × Nat × Nat) => s.wr e.1 e.2.1 e.2.2) (acS ({ acP with stamped := true, hv := hvSet acP.hv 0x104 2 90 })
    (aw 0x1f 3 1 2 0 0)) [(F.GLZ_POL.RATE, 9, 8)], 0, 9, { acP with stamped := true, hv := hvSet acP.hv 0x104 2 90 }, acA, actionDecode
    (aw 0x1f 3 1 2 0 0), 2, by constructor <;> decide +kernel, by decide +kernel, by decide +kernel⟩

theorem witness_PolicersCountersAndLearning_3 :
    ∃ (s : State) (n : Nat) (p : Pkt) (a : Act) (i : AInsn) (st : Nat), s.actionReady n 0x1F p a i true st :=
  ⟨List.foldl (fun s (e : Fld × Nat × Nat) => s.wr e.1 e.2.1 e.2.2) (acS ({ acP with loc := .egActing 2 }) (aw 0x1f 3 1 2 0 0)) [], 0,
    { acP with loc := .egActing 2 }, acA, actionDecode (aw 0x1f 3 1 2 0 0), 2, by constructor <;> decide +kernel⟩

theorem witness_PolicersCountersAndLearning_4 :
    ∃ (s : State) (n : Nat) (k : Nat) (owes : Bool) (late : Bool) (p : Pkt) (a : Act) (i : AInsn) (eg : Bool) (st : Nat), s.actionReady
      n 0x20 p a i eg st ∧ k = (actionB i a).toNat % 2 ^ 25 ∧ 98304 ≤ k ∧ k < 262144 ∧ owes = (hvGet p.hv 0x104 2 == 0xFFFF) ∧ late =
      (p.rx.arrived && !p.cut) ∧ ((owes = true → hvGet p.drec 0x16 1 < 8)) :=
  ⟨List.foldl (fun s (e : Fld × Nat × Nat) => s.wr e.1 e.2.1 e.2.2) (acS ({ acP with hv := hvSet acP.hv 0x104 2 0xFFFF, cut := true })
    (aw 0x20 3 1 2 1 98304)) [], 0, 98304, true, false, { acP with hv := hvSet acP.hv 0x104 2 0xFFFF, cut := true }, acA, actionDecode
    (aw 0x20 3 1 2 1 98304), false, 2, by constructor <;> decide +kernel, by decide +kernel, by decide +kernel, by decide +kernel,
    by decide +kernel, by decide +kernel, by decide +kernel⟩

theorem witness_PolicersCountersAndLearning_5 :
    ∃ (s : State) (n : Nat) (k : Nat) (p : Pkt) (a : Act) (i : AInsn) (eg : Bool) (st : Nat), s.actionReady n 0x20 p a i eg st ∧ k =
      (actionB i a).toNat % 2 ^ 25 ∧ 262144 ≤ k ∧ k < 262144 + s.tally.dramPairs ∧ hvGet p.hv 0x104 2 ≠ 0xFFFF ∧ s.pairLost k = false ∧
      ((Sparse.read Pair.zero s.tally.cache k ≠ Pair.zero ∨ s.tally.cache.length < 65536)) :=
  ⟨(fun (u : State) => u.withTally { u.tally with dramPairs := 4 }) <| List.foldl (fun s (e : Fld × Nat × Nat) => s.wr e.1 e.2.1 e.2.2)
    (acS ({ acP with hv := hvSet acP.hv 0x104 2 64 }) (aw 0x20 3 1 2 1 262144)) [], 0, 262144,
    { acP with hv := hvSet acP.hv 0x104 2 64 }, acA, actionDecode (aw 0x20 3 1 2 1 262144), false, 2, by constructor <;> decide +kernel,
    by decide +kernel, by decide +kernel, by decide +kernel, by decide +kernel, by decide +kernel, by decide +kernel⟩

theorem witness_PolicersCountersAndLearning_6 :
    ∃ (s : State) (n : Nat) (p : Pkt) (a : Act) (i : AInsn) (eg : Bool) (st : Nat), s.actionReady n 0x20 p a i eg st ∧ (((actionB i
      a).toNat % 2 ^ 25 < 98304 ∨ 262144 + s.tally.dramPairs ≤ (actionB i a).toNat % 2 ^ 25)) :=
  ⟨List.foldl (fun s (e : Fld × Nat × Nat) => s.wr e.1 e.2.1 e.2.2) (acS (acP) (aw 0x20 3 1 2 1 98303)) [], 0, acP, acA, actionDecode
    (aw 0x20 3 1 2 1 98303), false, 2, by constructor <;> decide +kernel, by decide +kernel⟩

theorem witness_PolicersCountersAndLearning_7 :
    ∃ (s : State) (n : Nat) (p : Pkt) (a : Act) (i : AInsn) (st : Nat) (e : (Nat → Instr) × Nat), (e ∈ [((.actionPol : Nat → Instr),
      0x1F), (.actionCnt, 0x20)]) ∧ s.actionReady n e.2 p a i false st ∧ hvGet p.hv 0x104 2 = 0xFFFF ∧ 8 ≤ hvGet p.drec 0x16 1 ∧ ((e.2 =
      0x1F → 0 < s.rd F.GLZ_POL.RATE ((actionB i a).toNat % 65536) ∧ (chargeOf p.hv : Int) ≤ (s.policer ((actionB i a).toNat %
      65536)).level)) ∧ ((e.2 = 0x20 → s.programPair ((actionB i a).toNat % 2 ^ 25) = true)) :=
  ⟨List.foldl (fun s (e : Fld × Nat × Nat) => s.wr e.1 e.2.1 e.2.2) (acS
    ({ acP with hv := hvSet acP.hv 0x104 2 0xFFFF, drec := hvSet acP.drec 0x16 1 8 }) (aw 0x20 3 1 2 1 98304)) [], 0,
    { acP with hv := hvSet acP.hv 0x104 2 0xFFFF, drec := hvSet acP.drec 0x16 1 8 }, acA, actionDecode (aw 0x20 3 1 2 1 98304), 2,
    (.actionCnt, 0x20), by simp, by constructor <;> decide +kernel, by decide +kernel, by decide +kernel, by decide +kernel,
    by decide +kernel⟩

theorem witness_PolicersCountersAndLearning_8 :
    ∃ (s : State) (n : Nat) (set : Nat) (p : Pkt) (a : Act) (i : AInsn) (eg : Bool) (st : Nat) (k : Noted), s.actionReady n 0x22 p a i
      eg st ∧ k.kind = 0 ∧ k.bank = bankNo (stageBank p eg) ∧ k.table = s.rd F.GLZ_TPL.TABLE (k.bank * 256 + a.tpl) ∧ k.key = a.key ∧
      k.keyw = s.rd F.TBL_DESC.KEYW (k.bank * 256 + k.table) ∧ k.time = s.now ∧ set = Config.filterHash s.tables.hashKey (notedOctets k)
      % 1024 ∧ ((∃ e, e ∈ Sparse.read [] s.tables.filter set ∧ e.same k = true ∧ s.now < e.time + ms 1)) :=
  ⟨(fun (u : State) => u.withTables { u.tables with filter := Sparse.write [] [] (Config.filterHash 0 (notedOctets ⟨0, 0, 0, 99, 0, 0⟩) % 1024) [⟨0, 0, 0, 99, 0, 0⟩] }) <| List.foldl (fun s (e : Fld × Nat × Nat) => s.wr e.1 e.2.1 e.2.2) (acS (acP) (aw 0x22 3 1 2 0 0)) [], 0, Config.filterHash 0 (notedOctets ⟨0, 0, 0, 99, 0, 0⟩) % 1024, acP, acA, actionDecode (aw 0x22 3 1 2 0 0), false, 2, ⟨0, 0, 0, 99, 0, 0⟩, by constructor <;> decide +kernel, by decide +kernel, by decide +kernel, by decide +kernel, by decide +kernel, by decide +kernel, by decide +kernel, by
    refine congrArg (fun h => Config.filterHash h (notedOctets (⟨0, 0, 0, 99, 0, 0⟩ : Noted)) % 1024) ?_
    decide +kernel, by
    refine ⟨⟨0, 0, 0, 99, 0, 0⟩, ?_, by decide +kernel, by decide +kernel⟩
    have h := Sparse.read_write_self [] [] (Config.filterHash 0 (notedOctets ⟨0, 0, 0, 99, 0, 0⟩) % 1024) [(⟨0, 0, 0, 99, 0, 0⟩ : Noted)]
    exact Eq.subst (motive := fun l => (⟨0, 0, 0, 99, 0, 0⟩ : Noted) ∈ l) h.symm (List.mem_singleton.mpr rfl)⟩

theorem witness_PolicersCountersAndLearning_9 :
    ∃ (s : State) (n : Nat) (set : Nat) (p : Pkt) (a : Act) (i : AInsn) (eg : Bool) (st : Nat) (k : Noted), s.actionReady n 0x22 p a i
      eg st ∧ k.kind = 0 ∧ k.bank = bankNo (stageBank p eg) ∧ k.table = s.rd F.GLZ_TPL.TABLE (k.bank * 256 + a.tpl) ∧ k.key = a.key ∧
      k.keyw = s.rd F.TBL_DESC.KEYW (k.bank * 256 + k.table) ∧ k.time = s.now ∧ set = Config.filterHash s.tables.hashKey (notedOctets k)
      % 1024 ∧ Sparse.read [] s.tables.filter set = [] ∧ s.ringFull 64 = true :=
  ⟨List.foldl (fun s (e : Fld × Nat × Nat) => s.wr e.1 e.2.1 e.2.2) (acS (acP) (aw 0x22 3 1 2 0 0)) [], 0, Config.filterHash 0 (notedOctets ⟨0, 0, 0, 99, 0, 0⟩) % 1024, acP, acA, actionDecode (aw 0x22 3 1 2 0 0), false, 2, ⟨0, 0, 0, 99, 0, 0⟩, by constructor <;> decide +kernel, by decide +kernel, by decide +kernel, by decide +kernel, by decide +kernel, by decide +kernel, by decide +kernel, by
    refine congrArg (fun h => Config.filterHash h (notedOctets (⟨0, 0, 0, 99, 0, 0⟩ : Noted)) % 1024) ?_
    decide +kernel, by decide +kernel, by decide +kernel⟩

theorem witness_PolicersCountersAndLearning_10 :
    ∃ (s : State) (n : Nat) (set : Nat) (p : Pkt) (a : Act) (i : AInsn) (eg : Bool) (st : Nat) (k : Noted), s.actionReady n 0x22 p a i
      eg st ∧ k.kind = 0 ∧ k.bank = bankNo (stageBank p eg) ∧ k.table = s.rd F.GLZ_TPL.TABLE (k.bank * 256 + a.tpl) ∧ k.key = a.key ∧
      k.keyw = s.rd F.TBL_DESC.KEYW (k.bank * 256 + k.table) ∧ k.time = s.now ∧ set = Config.filterHash s.tables.hashKey (notedOctets k)
      % 1024 ∧ Sparse.read [] s.tables.filter set = [] ∧ s.ringFull 64 = false ∧ a.pos < 16 :=
  ⟨(fun (u : State) => u.setRing 64 ⟨8, 0⟩) <| List.foldl (fun s (e : Fld × Nat × Nat) => s.wr e.1 e.2.1 e.2.2) (acS (acP) (aw 0x22 3 1 2 0 0)) [(F.HST_RING_STATUS.RUN, 64, 1)], 0, Config.filterHash 0 (notedOctets ⟨0, 0, 0, 99, 0, 0⟩) % 1024, acP, acA, actionDecode (aw 0x22 3 1 2 0 0), false, 2, ⟨0, 0, 0, 99, 0, 0⟩, by constructor <;> decide +kernel, by decide +kernel, by decide +kernel, by decide +kernel, by decide +kernel, by decide +kernel, by decide +kernel, by
    refine congrArg (fun h => Config.filterHash h (notedOctets (⟨0, 0, 0, 99, 0, 0⟩ : Noted)) % 1024) ?_
    decide +kernel, by decide +kernel, by decide +kernel, by decide +kernel⟩

theorem witness_PacketsPassAndAreSettled_1 :
    ∃ (s : State) (n : Nat) (st : Nat) (p : Pkt), s.pkt n = some p ∧ s.halted = false ∧ p.loc = .stageDone st ∧ ((hvGet p.drec 0x13 1 =
      0xFF ∨ 12 ≤ st)) :=
  ⟨(up).setPkt 4 ({ skP with loc := .stageDone 3, drec := hvSet [] 0x13 1 0xFF, stamped := true }), 4, 3,
    { skP with loc := .stageDone 3, drec := hvSet [] 0x13 1 0xFF, stamped := true }, by decide +kernel⟩

theorem witness_PacketsPassAndAreSettled_2 :
    ∃ (s : State) (n : Nat) (st : Nat) (p : Pkt), s.pkt n = some p ∧ s.halted = false ∧ p.loc = .stageDone st ∧ hvGet p.drec 0x13 1 ≠
      0xFF ∧ st < 12 :=
  ⟨(up).setPkt 4 ({ skP with loc := .stageDone 3 }), 4, 3, { skP with loc := .stageDone 3 }, by decide +kernel⟩

theorem witness_PacketsPassAndAreSettled_3 :
    ∃ (s : State) (n : Nat) (p : Pkt), s.pkt n = some p ∧ s.halted = false ∧ p.loc = .seamUp :=
  ⟨((st [(F.EAS_SEAM_STATUS.UP, 0, 1)])).setPkt 4 ({ skP with loc := .seamUp }), 4, { skP with loc := .seamUp }, by decide +kernel⟩

theorem witness_PacketsPassAndAreSettled_4 :
    ∃ (s : State) (n : Nat) (p : Pkt), s.pkt n = some p ∧ s.halted = false ∧ p.loc = .seamDown ∧ s.nodeKind p.node ≤ 3 :=
  ⟨((st [(F.EAS_SEAM_STATUS.UP, 0, 1)])).setPkt 4 ({ skP with loc := .seamDown, node := 1 }), 4,
    { skP with loc := .seamDown, node := 1 }, by decide +kernel⟩

theorem witness_PacketsPassAndAreSettled_5 :
    ∃ (s : State) (n : Nat) (port : Nat) (p : Pkt), s.pkt n = some p ∧ s.halted = false ∧ p.loc = .seamDown ∧ s.nodeKind p.node = 4 ∧
      port = 208 + s.nodeTarget p.node ∧ s.rd F.EAS_SEAM_STATUS.UP = 1 ∧ s.firstInChannel p = true ∧ ((s.realTime p = true ∨
      s.realTimeReady .seamDown = false)) :=
  ⟨((st [(F.SCH_PNODE_CFG.KIND, 1, 4), (F.SCH_PNODE_CFG.TARGET, 1, 2)])).setPkt 4 ({ skP with loc := .seamDown, node := 1 }), 4, 210,
    { skP with loc := .seamDown, node := 1 }, by decide +kernel⟩

theorem witness_PacketsPassAndAreSettled_6 :
    ∃ (s : State) (n : Nat) (st : Nat) (p : Pkt), s.pkt n = some p ∧ s.halted = false ∧ p.loc = .egStageDone st ∧ p.fault = false ∧
      hvGet p.drec 0x13 1 ≠ 0xFF ∧ st < 4 :=
  ⟨(up).setPkt 4 ({ skP with loc := .egStageDone 2 }), 4, 2, { skP with loc := .egStageDone 2 }, by decide +kernel⟩

theorem witness_PacketsPassAndAreSettled_7 :
    ∃ (s : State) (n : Nat) (st : Nat) (p : Pkt), s.pkt n = some p ∧ s.halted = false ∧ p.loc = .egStageDone st ∧ ((hvGet p.drec 0x13 1
      = 0xFF ∨ 4 ≤ st)) ∧ p.fault = false ∧ dflag p 1 = false ∧ s.exitTurn p.node = some n ∧ 64 ≤ s.txFree p.node :=
  ⟨((fun (u : State) => u.setPortNode 1 { Node.idle with out := [4] }) up).setPkt 4
    ({ skP with loc := .egStageDone 4, node := 1, egStamped := true }), 4, 4,
    { skP with loc := .egStageDone 4, node := 1, egStamped := true }, by decide +kernel⟩

theorem witness_PacketsPassAndAreSettled_8 :
    ∃ (s : State) (n : Nat) (st : Nat) (p : Pkt), s.pkt n = some p ∧ s.halted = false ∧ p.loc = .egStageDone st ∧ ((hvGet p.drec 0x13 1
      = 0xFF ∨ 4 ≤ st ∨ p.fault = true)) ∧ ((p.fault = true ∨ dflag p 1 = true)) ∧ p.charges = [] :=
  ⟨((fun (u : State) => u.setPortNode 1 { Node.idle with out := [4] }) up).setPkt 4
    ({ skP with loc := .egStageDone 2, node := 1, egStamped := true, fault := true }), 4, 2,
    { skP with loc := .egStageDone 2, node := 1, egStamped := true, fault := true }, by decide +kernel⟩

theorem witness_PacketsPassAndAreSettled_9 :
    ∃ (s : State) (n : Nat) (p : Pkt), s.pkt n = some p ∧ s.halted = false ∧ p.loc = .txFifo ∧ p.inFifo < p.data.length :=
  ⟨((fun (u : State) => u.setPortNode 1 { Node.idle with out := [4] }) up).setPkt 4
    ({ skP with loc := .txFifo, node := 1, inFifo := 20 }), 4, { skP with loc := .txFifo, node := 1, inFifo := 20 }, by decide +kernel⟩

theorem witness_PacketsPassAndAreSettled_10 :
    ∃ (s : State) (n : Nat) (p : Pkt), s.pkt n = some p ∧ p.loc = .reorder ∧ (s.mac p.rx.oport).order.head? = some n ∧ p.rx.arrived =
      true ∧ s.halted = false ∧ p.rx.bad = true :=
  ⟨((up.setMac 3 { Mac.idle with order := [4, 6] })).setPkt 4
    ({ skP with loc := .reorder, rx := { pk.rx with arrived := true, bad := true } }), 4,
    { skP with loc := .reorder, rx := { pk.rx with arrived := true, bad := true } }, by decide +kernel⟩

theorem witness_PacketsPassAndAreSettled_11 :
    ∃ (s : State) (n : Nat) (p : Pkt) (st : _), s.pkt n = some p ∧ p.loc = .reorder ∧ (s.mac p.rx.oport).order.head? = some n ∧
      p.rx.arrived = true ∧ s.halted = false ∧ p.rx.bad = false ∧ p.rx.overflow = false ∧ p.excess = false ∧ hvHas p.hv 7 = false ∧
      ((hvHas p.hv 5 = true → hvGet p.hv 0x124 2 ≤ p.data.length)) ∧ p.fault = false ∧ dflag p 2 = false ∧ hvGet p.drec 0x06 2 = 0 ∧
      dflag p 1 = true ∧ p.dropStage = some st :=
  ⟨((up.setMac 3 { Mac.idle with order := [4, 6] })).setPkt 4
    ({ skP with loc := .reorder, drec := hvSet [] 0 1 2, dropStage := some 7, rx := { pk.rx with arrived := true } }), 4,
    { skP with loc := .reorder, drec := hvSet [] 0 1 2, dropStage := some 7, rx := { pk.rx with arrived := true } }, 7,
    by decide +kernel⟩

theorem witness_PacketsPassAndAreSettled_12 :
    ∃ (s : State) (n : Nat) (p : Pkt), s.pkt n = some p ∧ p.loc = .reorder ∧ (s.mac p.rx.oport).order.head? = some n ∧ p.rx.arrived =
      true ∧ s.halted = false ∧ p.rx.bad = false ∧ p.rx.overflow = false ∧ p.excess = false ∧ hvHas p.hv 7 = false ∧ ((hvHas p.hv 5 =
      true → hvGet p.hv 0x124 2 ≤ p.data.length)) ∧ p.fault = false ∧ dflag p 2 = false ∧ hvGet p.drec 0x06 2 = 0 ∧ dflag p 1 = false ∧
      dflag p 3 = true ∧ 3 ≤ p.pass :=
  ⟨((up.setMac 3 { Mac.idle with order := [4, 6] })).setPkt 4
    ({ skP with loc := .reorder, drec := hvSet [] 0 1 8, pass := 3, rx := { pk.rx with arrived := true } }), 4,
    { skP with loc := .reorder, drec := hvSet [] 0 1 8, pass := 3, rx := { pk.rx with arrived := true } }, by decide +kernel⟩

theorem witness_PacketsPassAndAreSettled_13 :
    ∃ (s : State) (n : Nat) (p : Pkt), s.pkt n = some p ∧ p.loc = .reorder ∧ (s.mac p.rx.oport).order.head? = some n ∧ p.rx.arrived =
      true ∧ s.halted = false ∧ p.rx.bad = false ∧ p.rx.overflow = false ∧ p.excess = false ∧ hvHas p.hv 7 = false ∧ ((hvHas p.hv 5 =
      true → hvGet p.hv 0x124 2 ≤ p.data.length)) ∧ p.fault = false ∧ dflag p 2 = false ∧ hvGet p.drec 0x06 2 = 0 ∧ dflag p 1 = false ∧
      ((dflag p 3 = true ∧ p.pass < 3 ∨ dflag p 3 = false ∧ dflag p 0 = true)) ∧ s.octetsAt p.pipe .seamUp + (rebuild p).length ≤ 98304 :=
  ⟨((up.setMac 3 { Mac.idle with order := [4, 6] })).setPkt 4
    ({ skP with loc := .reorder, drec := hvSet [] 0 1 1, stamped := true, rx := { pk.rx with arrived := true } }), 4,
    { skP with loc := .reorder, drec := hvSet [] 0 1 1, stamped := true, rx := { pk.rx with arrived := true } }, by decide +kernel⟩

theorem witness_EgressEntryAndTransmission_1 :
    ∃ (s : State) (n : Nat) (p : Pkt), s.pkt n = some p ∧ p.loc = .egressIn ∧ s.coatState ≠ 2 ∧ s.halted = false ∧ s.inPipeOrder p true
      (· == .egressIn) = true ∧ ((s.rd F.GLZ_EPROF.ADJ_EN (bankNo s.activeBank * 64 + p.carry.eprof % 64) = 0 ∨ p.carry.adj = 0xFFFFF)) :=
  ⟨(up).setPkt 4 ({ skP with loc := .egressIn, node := 1 }), 4, { skP with loc := .egressIn, node := 1 }, by decide +kernel⟩

theorem witness_EgressEntryAndTransmission_2 :
    ∃ (s : State) (n : Nat) (p : Pkt), s.pkt n = some p ∧ p.loc = .egressIn ∧ s.coatState ≠ 2 ∧ s.halted = false ∧ s.inPipeOrder p true
      (· == .egressIn) = true ∧ s.rd F.GLZ_EPROF.ADJ_EN (bankNo s.activeBank * 64 + p.carry.eprof % 64) = 1 ∧ p.carry.adj ≠ 0xFFFFF ∧
      ((s.sramUe (adjWord p.carry.adj) 2 = true ∨ (s.sramVal (adjWord p.carry.adj) 2).testBit 127 = false)) :=
  ⟨((st [(F.GLZ_EPROF.ADJ_EN, 0, 1)])).setPkt 4 ({ skP with loc := .egressIn, node := 1, carry := { pk.carry with adj := 77 } }), 4,
    { skP with loc := .egressIn, node := 1, carry := { pk.carry with adj := 77 } }, by decide +kernel⟩

theorem witness_EgressEntryAndTransmission_3 :
    ∃ (s : State) (n : Nat) (p : Pkt), s.pkt n = some p ∧ p.loc = .egressIn ∧ s.coatState ≠ 2 ∧ s.halted = false ∧ s.inPipeOrder p true
      (· == .egressIn) = true ∧ s.rd F.GLZ_EPROF.ADJ_EN (bankNo s.activeBank * 64 + p.carry.eprof % 64) = 1 ∧ p.carry.adj ≠ 0xFFFFF ∧
      s.sramUe (adjWord p.carry.adj) 2 = false ∧ (s.sramVal (adjWord p.carry.adj) 2).testBit 127 = true :=
  ⟨((st [(F.GLZ_EPROF.ADJ_EN, 0, 1)]).withTables
    { up.tables with sram := [(adjWord 77, 5#64), (adjWord 77 + 1, 0x8000000000000000#64)] }).setPkt 4
    ({ skP with loc := .egressIn, node := 1, carry := { pk.carry with adj := 77 } }), 4,
    { skP with loc := .egressIn, node := 1, carry := { pk.carry with adj := 77 } }, by decide +kernel⟩

theorem witness_EgressEntryAndTransmission_4 :
    ∃ (s : State) (n : Nat) (sub : Nat) (k : Nat) (p : Pkt), s.halted = false ∧ s.nodeState n = 1 ∧ s.macStopped n = false ∧
      ((s.nodeKind n = 0 ∨ s.nodeKind n = 2)) ∧ s.nextFrame n = some (k, p) ∧ p.late = false ∧ ((∀ f, p.launch = some f → f ≤ s.now)) ∧
      (tcwOf p.hv).word = 0 :=
  ⟨(((fun (u : State) => u.setPortNode 1 { Node.idle with out := [4] }) (scS []))).setPkt 4
    ({ qP with loc := .txFifo, inFifo := 60, node := 1, egStamped := false }), 1, 1, 4,
    { qP with loc := .txFifo, inFifo := 60, node := 1, egStamped := false }, by decide +kernel⟩

theorem witness_EgressEntryAndTransmission_5 :
    ∃ (s : State) (n : Nat) (sub : Nat) (k : Nat) (f : Nat) (p : Pkt), s.nextFrame n = some (k, p) ∧ p.late = false ∧ p.launch = some f
      ∧ s.now < f :=
  ⟨(((fun (u : State) => u.setPortNode 1 { Node.idle with out := [4] }) (scS []))).setPkt 4
    ({ qP with loc := .txFifo, inFifo := 60, node := 1, launch := some (us 9) }), 1, 1, 4, us 9,
    { qP with loc := .txFifo, inFifo := 60, node := 1, launch := some (us 9) }, by decide +kernel⟩

theorem witness_EgressEntryAndTransmission_6 :
    ∃ (s : State) (q : Nat) (k : Nat) (f : Nat) (rest : List Nat) (p : Pkt), (s.queue q).packets = k :: rest ∧ s.pkt k = some p ∧
      p.launch = some f ∧ p.late = false ∧ f < 2 ^ 80 :=
  ⟨((scS []).setQueue 9 { Queue.idle with state := 2, depth := 60, head := [4] }).setPkt 4
    ({ qP with launch := some (us 9), loc := .queued 9 }), 9, 4, us 9, [], { qP with launch := some (us 9), loc := .queued 9 },
    by decide +kernel⟩

theorem witness_EgressEntryAndTransmission_7 :
    ∃ (s : State) (k : Nat) (f : Nat) (p : Pkt), s.pkt k = some p ∧ p.launch = some f ∧ p.late = false ∧ f < 2 ^ 80 ∧ s.now ≤ f ∧
      s.halted = false ∧ p.loc ≠ .enqueueIn ∧ p.loc ≠ .txFifo :=
  ⟨((scS []).setQueue 9 { Queue.idle with state := 2, depth := 60, head := [4] }).setPkt 4
    ({ qP with launch := some (us 9), loc := .queued 9 }), 4, us 9, { qP with launch := some (us 9), loc := .queued 9 },
    by decide +kernel⟩

theorem witness_EgressEntryAndTransmission_8 :
    ∃ (s : State) (k : Nat) (f : Nat) (p : Pkt), s.pkt k = some p ∧ p.launch = some f ∧ p.late = false ∧ f < 2 ^ 80 ∧ s.now ≤ f ∧
      s.halted = false ∧ s.nextFrame p.node = some (k, p) ∧ s.nodeState p.node = 1 ∧ s.macStopped p.node = false ∧ (tcwOf p.hv).word = 0 :=
  ⟨(((fun (u : State) => u.setPortNode 1 { Node.idle with out := [4] }) (scS []))).setPkt 4
    ({ qP with loc := .txFifo, inFifo := 60, node := 1, launch := some (us 9) }), 4, us 9,
    { qP with loc := .txFifo, inFifo := 60, node := 1, launch := some (us 9) }, by decide +kernel⟩

theorem witness_QueuesAdmitAndPortsSelect_1 :
    ∃ (s : State) (s1 : State) (n : Nat) (q : Nat) (p : Pkt) (bs : List Nat), s.pkt n = some p ∧ p.loc = .enqueueIn ∧ s.halted = false ∧
      p.fate ≠ .copiesOnly ∧ p.copies = [] ∧ s.queueFor p = some q ∧ s.unreachable q = false ∧ s.admission q p.length p.carry.dp = 0 ∧
      p.canvas = [] ∧ s.allocN (enqueueClass p q) (classOwner (enqueueClass p q)) 0 (max 1 ((p.data.length + 255) / 256)) [] = (s1, some
      bs) :=
  ⟨(scS []).setPkt 4 ({ qP with loc := .enqueueIn }), (((scS []).setPkt 4 { qP with loc := .enqueueIn }).allocN (enqueueClass
    { qP with loc := .enqueueIn } 9) (classOwner (enqueueClass { qP with loc := .enqueueIn } 9)) 0 1 []).1, 4, 9,
    { qP with loc := .enqueueIn }, (((scS []).setPkt 4 { qP with loc := .enqueueIn }).allocN (enqueueClass { qP with loc := .enqueueIn }
    9) (classOwner (enqueueClass { qP with loc := .enqueueIn } 9)) 0 1 []).2.getD [], by decide +kernel⟩

theorem witness_QueuesAdmitAndPortsSelect_2 :
    ∃ (s : State) (n : Nat) (q : Nat) (k : Nat) (p : Pkt), s.pkt n = some p ∧ p.loc = .enqueueIn ∧ s.halted = false ∧ p.fate ≠
      .copiesOnly ∧ p.copies = [] ∧ s.queueFor p = some q ∧ s.unreachable q = false ∧ s.admission q p.length p.carry.dp = k ∧ k ≠ 0 :=
  ⟨(scS [(F.SCH_ADM.LIMIT_DP0, 0, 0)]).setPkt 4 ({ qP with loc := .enqueueIn }), 4, 9, 3, { qP with loc := .enqueueIn },
    by decide +kernel⟩

theorem witness_QueuesAdmitAndPortsSelect_3 :
    ∃ (s : State) (n : Nat) (q : Nat) (p : Pkt), s.pkt n = some p ∧ p.loc = .enqueueIn ∧ s.halted = false ∧ p.fate ≠ .copiesOnly ∧
      p.copies = [] ∧ s.queueFor p = some q ∧ s.unreachable q = true :=
  ⟨((fun (u : State) => u.withFab { u.fab with gone := [5] }) (scS [])).setPkt 4
    ({ qP with loc := .enqueueIn, carry := { pk.carry with destMod := 5 } }), 4, voqBase + 40,
    { qP with loc := .enqueueIn, carry := { pk.carry with destMod := 5 } }, by decide +kernel⟩

theorem witness_QueuesAdmitAndPortsSelect_4 :
    ∃ (s : State) (n : Nat) (k : Nat) (arriving : Bool) (p : Pkt) (u : Cand) (q : Cand) (rest : List Nat), s.halted = false ∧ s.rd
      F.SCH_PNODE_CFG.EN n = 1 ∧ s.nodeState n = 1 ∧ (s.portNode n).allowed = true ∧ pick (s.subCands n) = some u ∧ pick (s.queueCands
      u.idx) = some q ∧ (s.queue q.idx).head = k :: rest ∧ (s.queue q.idx).copies = [] ∧ s.pkt k = some p ∧ s.nodeCredit n p.length =
      true ∧ s.mayLeave n q.idx arriving = true :=
  ⟨((scS []).setQueue 9 { Queue.idle with state := 2, depth := 60, head := [4] }).setPkt 4 { qP with loc := .queued 9, canvas := [3] },
    1, 4, false, { qP with loc := .queued 9, canvas := [3] }, ⟨5, false, 0, 0⟩, ⟨9, false, 0, 0⟩, [], by decide +kernel⟩

theorem witness_PortNodesFollowTheirLink_1 :
    ∃ (s : State) (n : Nat) (v : Nat), n < 512 ∧ s.takes .SCH_PNODE_CFG = true ∧ s.rd F.SCH_PNODE_CFG.EN n = 0 ∧ s.nodeState n = 0 ∧
      targetOk (bitsOf v 1 3) (bitsOf v 8 8) = true ∧ s.nodeFor (bitsOf v 1 3) (bitsOf v 8 8) = none :=
  ⟨st [(F.ETH_PORT_STATUS.LINK, 5, 1)], 2, 5 * 256 + 9 * 65536 + 1, by decide +kernel⟩

theorem witness_PortNodesFollowTheirLink_2 :
    ∃ (s : State) (n : Nat) (v : Nat), n < 512 ∧ s.takes .SCH_PNODE_CFG = true ∧ s.rd F.SCH_PNODE_CFG.EN n = 0 ∧ ((targetOk (bitsOf v 1
      3) (bitsOf v 8 8) = false ∨ ∃ m, m < 512 ∧ m ≠ n ∧ s.rd F.SCH_PNODE_CFG.EN m = 1 ∧ s.nodeKind m = bitsOf v 1 3 ∧ s.nodeTarget m =
      bitsOf v 8 8)) :=
  ⟨scS [], 2, 3 * 256 + 1, by decide +kernel⟩

theorem witness_PortNodesFollowTheirLink_3 :
    ∃ (s : State) (n : Nat) (v : Nat), n < 512 ∧ s.takes .SCH_PNODE_CFG = true ∧ s.rd F.SCH_PNODE_CFG.EN n = 1 ∧ ((bitsOf v 1 3 ≠
      s.nodeKind n ∨ bitsOf v 8 8 ≠ s.nodeTarget n)) :=
  ⟨scS [], 1, 4 * 256 + 1, by decide +kernel⟩

theorem witness_PortNodesFollowTheirLink_4 :
    ∃ (s : State) (n : Nat) (v : Nat), n < 512 ∧ s.takes .SCH_PNODE_CFG = true ∧ s.rd F.SCH_PNODE_CFG.EN n = 1 ∧ bitsOf v 1 3 =
      s.nodeKind n ∧ bitsOf v 8 8 = s.nodeTarget n ∧ ((s.nodeState n = 1 ∨ s.nodeState n = 2 ∨ s.nodeState n = 4)) :=
  ⟨(scS []).setQueue 9 { Queue.idle with state := 2, depth := 60, head := [4] } |>.setPkt 4 { qP with loc := .queued 9 }, 1, 3 * 256,
    by decide +kernel⟩

theorem witness_PortNodesFollowTheirLink_5 :
    ∃ (s : State) (n : Nat) (cut : Bool), s.linkOf n = false ∧ s.rd F.SCH_PNODE_STATUS.LINK n = 1 ∧ s.nodeState n = 1 :=
  ⟨scS [(F.ETH_PORT_STATUS.LINK, 3, 0)], 1, false, by decide +kernel⟩

theorem witness_PortNodesFollowTheirLink_6 :
    ∃ (s : State) (n : Nat), s.linkOf n = true ∧ s.rd F.SCH_PNODE_STATUS.LINK n = 0 :=
  ⟨scS [(F.SCH_PNODE_STATUS.LINK, 1, 0), (F.SCH_PNODE_STATUS.STATE, 1, 3)], 1, by decide +kernel⟩

theorem witness_PortNodesFollowTheirLink_7 :
    ∃ (s : State) (n : Nat), s.nodeState n = 2 ∧ Sparse.read 0 s.sched.holdEnd n < 2 ^ 80 :=
  ⟨((scS [(F.SCH_PNODE_STATUS.STATE, 1, 2)]).setQueue 9 { Queue.idle with state := 2, depth := 60, head := [4] } |>.setPkt 4
    { qP with loc := .queued 9 }).withSched
    { (scS []).sched with holdEnd := [(1, 99)], queues := [(9, { Queue.idle with state := 2, depth := 60, head := [4] })] }, 1,
    by decide +kernel⟩

theorem witness_PortNodesFollowTheirLink_8 :
    ∃ (s : State) (n : Nat), s.nodeState n = 3 :=
  ⟨(scS [(F.SCH_PNODE_STATUS.STATE, 1, 3), (F.SCH_PNODE_STATUS.RET_PENDING, 1, 1)]).setQueue 9 { Queue.idle with state := 3 }, 1,
    by decide +kernel⟩

theorem witness_QueuesSpillRunAheadAndFlush_1 :
    ∃ (s : State) (s1 : State) (q : Nat) (k : Nat) (rest : List Nat) (bs : List Nat) (p : Pkt), (s.queue q).tail = k :: rest ∧ (s.queue
      q).split = true ∧ s.pkt k = some p ∧ p.rx.arrived = true ∧ s.shareOf q < s.canvasOf q + s.rd F.PAL_SPILL_CFG.SPILL_HYST * 1024 ∧
      s.allocN 4 4 1 (max 1 ((p.length + 255) / 256)) [] = (s1, some bs) :=
  ⟨((scS [(F.PAL_CLASS_CFG.CEIL, 4, 1000), (F.PAL_SHARE.SHARE_MAX, 0, 0), (F.PAL_SPILL_CFG.SPILL_HYST, 0, 1), (F.PAL_FREE_CNT.COUNT, 1,
    50)]).setQueue 9 { Queue.idle with state := 2, depth := 60, head := [], split := true, tail := [4, 6] } |>.setPkt 4
    { qP with loc := .queued 9, canvas := [3] }) |> fun (u : State) => u.withPalette { u.palette with headCache := [0x80000, 0x80001] },
    ((((scS [(F.PAL_CLASS_CFG.CEIL, 4, 1000), (F.PAL_SHARE.SHARE_MAX, 0, 0), (F.PAL_SPILL_CFG.SPILL_HYST, 0, 1), (F.PAL_FREE_CNT.COUNT,
    1, 50)]).setQueue 9 { Queue.idle with state := 2, depth := 60, head := [], split := true, tail := [4, 6] } |>.setPkt 4
    { qP with loc := .queued 9, canvas := [3] }) |> fun (u : State) => u.withPalette
    { u.palette with headCache := [0x80000, 0x80001] }).allocN 4 4 1 1 []).1, 9, 4, [6], ((((scS [(F.PAL_CLASS_CFG.CEIL, 4, 1000),
    (F.PAL_SHARE.SHARE_MAX, 0, 0), (F.PAL_SPILL_CFG.SPILL_HYST, 0, 1), (F.PAL_FREE_CNT.COUNT, 1, 50)]).setQueue 9
    { Queue.idle with state := 2, depth := 60, head := [], split := true, tail := [4, 6] } |>.setPkt 4
    { qP with loc := .queued 9, canvas := [3] }) |> fun (u : State) => u.withPalette
    { u.palette with headCache := [0x80000, 0x80001] }).allocN 4 4 1 1 []).2.getD [], { qP with loc := .queued 9, canvas := [3] },
    by decide +kernel⟩

theorem witness_QueuesSpillRunAheadAndFlush_2 :
    ∃ (s : State) (s1 : State) (q : Nat) (k : Nat) (bs : List Nat) (p : Pkt), s.rd F.PAL_SPILL_CFG.RA_EN = 1 ∧ (s.queue q).copies = [] ∧
      ((s.queue q).head.map s.lenOf).sum < s.rd F.PAL_SPILL_CFG.RA_MIN * 1024 ∧ s.dramStopped = false ∧ fitChunk s.lenOf (max 1 (s.rd
      F.PAL_SPILL_CFG.RA_CHUNK) * 1024) (s.queue q).spill = [k] ∧ s.pkt k = some p ∧ s.allocN 5 62 0 (max 1 ((p.length + 255) / 256)) []
      = (s1, some bs) :=
  ⟨(scS [(F.PAL_CLASS_CFG.CEIL, 5, 1000), (F.PAL_SPILL_CFG.RA_EN, 0, 1), (F.PAL_SPILL_CFG.RA_MIN, 0, 1)]).setQueue 9
    { Queue.idle with state := 2, depth := 60, spill := [4], split := true } |>.setPkt 4
    { qP with loc := .queued 9, dram := [0x80000] }, (((scS [(F.PAL_CLASS_CFG.CEIL, 5, 1000), (F.PAL_SPILL_CFG.RA_EN, 0, 1),
    (F.PAL_SPILL_CFG.RA_MIN, 0, 1)]).setQueue 9 { Queue.idle with state := 2, depth := 60, spill := [4], split := true } |>.setPkt 4
    { qP with loc := .queued 9, dram := [0x80000] }).allocN 5 62 0 1 []).1, 9, 4, (((scS [(F.PAL_CLASS_CFG.CEIL, 5, 1000),
    (F.PAL_SPILL_CFG.RA_EN, 0, 1), (F.PAL_SPILL_CFG.RA_MIN, 0, 1)]).setQueue 9
    { Queue.idle with state := 2, depth := 60, spill := [4], split := true } |>.setPkt 4
    { qP with loc := .queued 9, dram := [0x80000] }).allocN 5 62 0 1 []).2.getD [], { qP with loc := .queued 9, dram := [0x80000] },
    by decide +kernel⟩

theorem witness_QueuesSpillRunAheadAndFlush_3 :
    ∃ (s : State) (s1 : State) (q : Nat) (k : Nat) (p : Pkt), s.rd F.PAL_SPILL_CFG.RA_EN = 1 ∧ (s.queue q).copies = [] ∧ ((s.queue
      q).head.map s.lenOf).sum < s.rd F.PAL_SPILL_CFG.RA_MIN * 1024 ∧ s.dramStopped = false ∧ fitChunk s.lenOf (max 1 (s.rd
      F.PAL_SPILL_CFG.RA_CHUNK) * 1024) (s.queue q).spill = [k] ∧ s.pkt k = some p ∧ s.allocN 5 62 0 (max 1 ((p.length + 255) / 256)) []
      = (s1, none) :=
  ⟨(scS [(F.PAL_CLASS_CFG.CEIL, 5, 0), (F.PAL_SPILL_CFG.RA_EN, 0, 1), (F.PAL_SPILL_CFG.RA_MIN, 0, 1)]).setQueue 9
    { Queue.idle with state := 2, depth := 60, spill := [4], split := true } |>.setPkt 4
    { qP with loc := .queued 9, dram := [0x80000] }, (((scS [(F.PAL_CLASS_CFG.CEIL, 5, 0), (F.PAL_SPILL_CFG.RA_EN, 0, 1),
    (F.PAL_SPILL_CFG.RA_MIN, 0, 1)]).setQueue 9 { Queue.idle with state := 2, depth := 60, spill := [4], split := true } |>.setPkt 4
    { qP with loc := .queued 9, dram := [0x80000] }).allocN 5 62 0 1 []).1, 9, 4, { qP with loc := .queued 9, dram := [0x80000] },
    by decide +kernel⟩

theorem witness_QueuesSpillRunAheadAndFlush_4 :
    ∃ (s : State) (q : Nat) (c : Nat × Bool) (p : Pkt), (s.queue q).copies.find? (fun c => !c.2) = some c ∧ s.pkt c.1 = some p ∧ p.reads
      = 0 ∧ (s.queue q).head ≠ [] :=
  ⟨(scS []).setQueue 9 { Queue.idle with state := 2, depth := 60, head := [3], spill := [4], copies := [(4, false)] } |>.setPkt 4
    { qP with loc := .queued 9, dram := [0x80000], canvas := [7] }, 9, (4, false),
    { qP with loc := .queued 9, dram := [0x80000], canvas := [7] }, by decide +kernel⟩

theorem witness_QueuesSpillRunAheadAndFlush_5 :
    ∃ (s : State) (q : Nat) (k : Nat) (rest : List Nat) (p : Pkt), (s.queue q).head = [] ∧ (s.queue q).spill = k :: rest ∧ (s.queue
      q).copies = [(k, false)] ∧ s.pkt k = some p ∧ p.reads = 0 :=
  ⟨(scS []).setQueue 9 { Queue.idle with state := 2, depth := 60, head := [], spill := [4], copies := [(4, false)] } |>.setPkt 4
    { qP with loc := .queued 9, dram := [0x80000] }, 9, 4, [], { qP with loc := .queued 9, dram := [0x80000] }, by decide +kernel⟩

theorem witness_QueuesSpillRunAheadAndFlush_6 :
    ∃ (s : State) (q : Nat) (c : Nat × Bool) (p : Pkt), (s.queue q).copies.find? (fun c => !c.2) = some c ∧ s.pkt c.1 = some p ∧ p.reads
      ≠ 0 :=
  ⟨(scS []).setQueue 9 { Queue.idle with state := 2, depth := 60, head := [3], spill := [4], copies := [(4, false)] } |>.setPkt 4
    { qP with reads := 2 }, 9, (4, false), { qP with reads := 2 }, by decide +kernel⟩

theorem witness_QueuesSpillRunAheadAndFlush_7 :
    ∃ (s : State) (q : Nat), (s.queue q).state ≠ 0 :=
  ⟨(scS []).setQueue 9 { Queue.idle with state := 2, depth := 60, head := [4] } |>.setPkt 4 { qP with loc := .queued 9 }, 9,
    by decide +kernel⟩

theorem witness_QueuesSpillRunAheadAndFlush_8 :
    ∃ (s : State) (q : Nat), (s.queue q).state = 3 ∧ ((q < voqBase → s.nodeState (s.nodeOf q) ≠ 3)) :=
  ⟨(scS [(F.SCH_ACC_STATUS.BUSY, 0, 1), (F.SCH_ACC_CMD.OP, 0, 2), (F.SCH_ACC_CMD.INDEX, 0, 9)]).setQueue 9
    { Queue.idle with state := 3 }, 9, by decide +kernel⟩

theorem witness_ShapersAccessPortAndSamples_1 :
    ∃ (s : State) (i : Nat) (x : Node), x = (s.queueNode i).since s.fab.startAt ∧ x.due s.now < 2 ^ 80 :=
  ⟨(scS []).setQueueNode 9 { Node.idle with level := 7, period := 3 }, 9, { Node.idle with level := 7, period := 3 }, by decide +kernel⟩

theorem witness_ShapersAccessPortAndSamples_2 :
    ∃ (s : State) (i : Nat) (x : Node), x = (s.subNode i).since s.fab.startAt ∧ x.due s.now < 2 ^ 80 :=
  ⟨(scS []).setSubNode 5 { Node.idle with level := 7, period := 3 }, 5, { Node.idle with level := 7, period := 3 }, by decide +kernel⟩

theorem witness_ShapersAccessPortAndSamples_3 :
    ∃ (s : State) (i : Nat) (x : Node), x = (s.portNode i).since s.fab.startAt ∧ x.due s.now < 2 ^ 80 :=
  ⟨(scS []).setPortNode 1 { Node.idle with level := 7, period := 3 }, 1, { Node.idle with level := 7, period := 3 }, by decide +kernel⟩

theorem witness_ShapersAccessPortAndSamples_4 :
    ∃ (s : State) (obj : Nat) (i : Nat), s.rd F.SCH_ACC_STATUS.BUSY = 1 ∧ s.rd F.SCH_ACC_CMD.OP = 0 ∧ s.rd F.SCH_ACC_CMD.OBJ = obj ∧
      s.rd F.SCH_ACC_CMD.INDEX = i :=
  ⟨scS [(F.SCH_ACC_STATUS.BUSY, 0, 1), (F.SCH_ACC_CMD.INDEX, 0, 9)], 0, 9, by decide +kernel⟩

theorem witness_ShapersAccessPortAndSamples_5 :
    ∃ (s : State) (i : Nat), s.rd F.SCH_ACC_STATUS.BUSY = 1 ∧ s.rd F.SCH_ACC_CMD.OP = 1 ∧ s.rd F.SCH_ACC_CMD.OBJ = 1 ∧ s.rd
      F.SCH_ACC_CMD.INDEX = i ∧ i < 1048576 :=
  ⟨scS [(F.SCH_ACC_STATUS.BUSY, 0, 1), (F.SCH_ACC_CMD.OP, 0, 1), (F.SCH_ACC_CMD.OBJ, 0, 1), (F.SCH_ACC_CMD.INDEX, 0, 9),
    (F.SCH_ACC_DATA.WORD, 0, 77)], 9, by decide +kernel⟩

theorem witness_ShapersAccessPortAndSamples_6 :
    ∃ (s : State) (i : Nat), s.rd F.SCH_ACC_STATUS.BUSY = 1 ∧ s.rd F.SCH_ACC_CMD.OP = 1 ∧ s.rd F.SCH_ACC_CMD.OBJ = 0 ∧ s.rd
      F.SCH_ACC_CMD.INDEX = i ∧ i < 1048576 ∧ bitsOf (s.accWord 0) 32 18 ≠ cfgParent (s.queueCfg i) ∧ cfgEn (s.queueCfg i) = true :=
  ⟨scS [(F.SCH_ACC_STATUS.BUSY, 0, 1), (F.SCH_ACC_CMD.OP, 0, 1), (F.SCH_ACC_CMD.INDEX, 0, 9), (F.SCH_ACC_DATA.WORD, 0, 1)], 9,
    by decide +kernel⟩

theorem witness_ShapersAccessPortAndSamples_7 :
    ∃ (s : State) (i : Nat), s.rd F.SCH_ACC_STATUS.BUSY = 1 ∧ s.rd F.SCH_ACC_CMD.OP = 2 ∧ s.rd F.SCH_ACC_CMD.OBJ = 0 ∧ s.rd
      F.SCH_ACC_CMD.INDEX = i ∧ i < 1048576 ∧ (s.queue i).state = 0 :=
  ⟨scS [(F.SCH_ACC_STATUS.BUSY, 0, 1), (F.SCH_ACC_CMD.OP, 0, 2), (F.SCH_ACC_CMD.INDEX, 0, 9)], 9, by decide +kernel⟩

theorem witness_ShapersAccessPortAndSamples_8 :
    ∃ (s : State) (i : Nat), s.rd F.SCH_ACC_STATUS.BUSY = 1 ∧ s.rd F.SCH_ACC_CMD.OP = 2 ∧ s.rd F.SCH_ACC_CMD.OBJ = 0 ∧ s.rd
      F.SCH_ACC_CMD.INDEX = i ∧ i < 1048576 ∧ (s.queue i).state ≠ 0 :=
  ⟨(scS [(F.SCH_ACC_STATUS.BUSY, 0, 1), (F.SCH_ACC_CMD.OP, 0, 2), (F.SCH_ACC_CMD.INDEX, 0, 9)]).setQueue 9
    { Queue.idle with state := 2, depth := 60, head := [4] } |>.setPkt 4 { qP with loc := .queued 9 }, 9, by decide +kernel⟩

theorem witness_ShapersAccessPortAndSamples_9 :
    ∃ (s : State), s.rd F.SCH_SAMPLE_CFG.PERIOD ≠ 0 ∧ s.boundary s.sched.sampledAt (us (s.rd F.SCH_SAMPLE_CFG.PERIOD)) < 2 ^ 80 :=
  ⟨(scS [(F.SCH_SAMPLE_CFG.PERIOD, 0, 5), (F.SCH_WATCH.EN, 2, 1), (F.SCH_WATCH.QUEUE, 2, 9)]).setQueue 9
    { Queue.idle with state := 2, depth := 60, head := [4] }, by decide +kernel⟩

theorem witness_AgentsReadWriteInsertAndDelete_1 :
    ∃ (s : State) (a : Nat) (i : Nat), s.agRuns a 0 = true ∧ s.rd F.TBL_AG_CMD.SPACE a = 5 ∧ s.rd F.TBL_AG_CMD.INDEX a = i ∧ i < 4194304 :=
  ⟨st [(F.TBL_AG_STATUS.BUSY, 2, 1), (F.TBL_AG_CMD.SPACE, 2, 5), (F.TBL_AG_CMD.INDEX, 2, 4194303)], 2, 4194303, by decide +kernel⟩

theorem witness_AgentsReadWriteInsertAndDelete_2 :
    ∃ (s : State) (a : Nat) (i : Nat), s.agRuns a 1 = true ∧ s.rd F.TBL_AG_CMD.SPACE a = 5 ∧ s.rd F.TBL_AG_CMD.INDEX a = i ∧ i < 4194304 :=
  ⟨st [(F.TBL_AG_STATUS.BUSY, 2, 1), (F.TBL_AG_CMD.SPACE, 2, 5), (F.TBL_AG_CMD.INDEX, 2, 7), (F.TBL_AG_CMD.OP, 2, 1),
    (F.TBL_AG_DATA.WORD, 64, 99)], 2, 7, by decide +kernel⟩

theorem witness_AgentsReadWriteInsertAndDelete_3 :
    ∃ (s : State) (a : Nat) (i : Nat), s.rd F.TBL_AG_CMD.SPACE a = 5 ∧ s.rd F.TBL_AG_CMD.INDEX a = i ∧ 4194304 ≤ i ∧ s.agRuns a 0 = true :=
  ⟨st [(F.TBL_AG_STATUS.BUSY, 2, 1), (F.TBL_AG_CMD.SPACE, 2, 5), (F.TBL_AG_CMD.INDEX, 2, 4194304)], 2, 4194304, by decide +kernel⟩

theorem witness_AgentsReadWriteInsertAndDelete_4 :
    ∃ (s : State) (a : Nat) (i : Nat), s.rd F.TBL_AG_CMD.SPACE a = 5 ∧ s.rd F.TBL_AG_CMD.INDEX a = i ∧ 4194304 ≤ i ∧ s.agRuns a 1 = true :=
  ⟨st [(F.TBL_AG_STATUS.BUSY, 2, 1), (F.TBL_AG_CMD.SPACE, 2, 5), (F.TBL_AG_CMD.INDEX, 2, 4194304), (F.TBL_AG_CMD.OP, 2, 1),
    (F.TBL_AG_DATA.WORD, 64, 99)], 2, 4194304, by decide +kernel⟩

theorem witness_AgentsReadWriteInsertAndDelete_5 :
    ∃ (s : State) (a : Nat) (c : AgCode) (e : Instr × Nat), e ∈ [(Instr.agentRead a, 0), (.agentWrite a, 1), (.agentInsert a, 2),
      (.agentDelete a, 3), (.agentSearch a, 4), (.agentMove a, 5)] ∧ s.agRuns a e.2 = true ∧ s.agSpace a = .inr c :=
  ⟨st [(F.TBL_AG_STATUS.BUSY, 2, 1), (F.TBL_AG_CMD.SPACE, 2, 6)], 2, .badCmd, (.agentRead 2, 0), by decide +kernel⟩

theorem witness_AgentsReadWriteInsertAndDelete_6 :
    ∃ (s : State) (a : Nat) (d : Nat) (key : Nat) (i : _), s.agSpace a = .inl (.exact d) ∧ key = s.agKey a d ∧ s.bucketsUe d key = false
      ∧ s.agRuns a 2 = true ∧ s.exactFind d key = some i :=
  ⟨(nx (.agentInsert 0) (agS 2 [])).wr F.TBL_AG_CMD.OP 0 2 |>.wr F.TBL_AG_STATUS.BUSY 0 1, 0, 3, 12345, (((agS 0 []).exactCandidates 3
    12345).filterMap ((agS 0 []).freeIn 3)).headD 0, by decide +kernel⟩

theorem witness_AgentsReadWriteInsertAndDelete_7 :
    ∃ (s : State) (a : Nat) (d : Nat) (key : Nat) (f : _) (fs : _), s.agSpace a = .inl (.exact d) ∧ key = s.agKey a d ∧ s.bucketsUe d
      key = false ∧ s.agRuns a 2 = true ∧ s.exactFind d key = none ∧ s.rd F.TBL_DESC.KEYW d = 0 ∧ (s.exactCandidates d key).filterMap
      (s.freeIn d) = f :: fs :=
  ⟨agS 2 [], 0, 3, 12345, (((agS 0 []).exactCandidates 3 12345).filterMap ((agS 0 []).freeIn 3)).headD 0, (((agS 0 []).exactCandidates 3
    12345).filterMap ((agS 0 []).freeIn 3)).tail, by decide +kernel⟩

theorem witness_AgentsReadWriteInsertAndDelete_8 :
    ∃ (s : State) (a : Nat) (d : Nat) (key : Nat) (i : _), s.agSpace a = .inl (.exact d) ∧ key = s.agKey a d ∧ s.bucketsUe d key = false
      ∧ s.agRuns a 4 = true ∧ s.exactFind d key = some i :=
  ⟨(nx (.agentInsert 0) (agS 2 [])).wr F.TBL_AG_CMD.OP 0 4 |>.wr F.TBL_AG_STATUS.BUSY 0 1, 0, 3, 12345, (((agS 0 []).exactCandidates 3
    12345).filterMap ((agS 0 []).freeIn 3)).headD 0, by decide +kernel⟩

theorem witness_AgentsReadWriteInsertAndDelete_9 :
    ∃ (s : State) (a : Nat) (d : Nat) (key : Nat), s.agSpace a = .inl (.exact d) ∧ key = s.agKey a d ∧ s.bucketsUe d key = false ∧
      s.exactFind d key = none ∧ s.agRuns a 4 = true :=
  ⟨agS 4 [], 0, 3, 12345, by decide +kernel⟩

theorem witness_AgentsReadWriteInsertAndDelete_10 :
    ∃ (s : State) (a : Nat) (d : Nat) (key : Nat), s.agSpace a = .inl (.exact d) ∧ key = s.agKey a d ∧ s.bucketsUe d key = false ∧
      s.exactFind d key = none ∧ s.agRuns a 3 = true :=
  ⟨agS 3 [], 0, 3, 12345, by decide +kernel⟩

theorem witness_AgentsReadWriteInsertAndDelete_11 :
    ∃ (s : State) (a : Nat) (d : Nat) (key : Nat) (i : _), s.agSpace a = .inl (.exact d) ∧ key = s.agKey a d ∧ s.bucketsUe d key = false
      ∧ s.agRuns a 3 = true ∧ s.exactFind d key = some i ∧ s.rd F.TBL_DESC.KEYW d = 0 ∧ ((s.rd F.TBL_AG_CMD.IF_AGED a = 0 ∨ slotAged
      (s.slotVal d i) = 1)) :=
  ⟨(nx (.agentInsert 0) (agS 2 [])).wr F.TBL_AG_CMD.OP 0 3 |>.wr F.TBL_AG_STATUS.BUSY 0 1, 0, 3, 12345, (((agS 0 []).exactCandidates 3
    12345).filterMap ((agS 0 []).freeIn 3)).headD 0, by decide +kernel⟩

theorem witness_AgentsReadWriteInsertAndDelete_12 :
    ∃ (s : State) (a : Nat) (d : Nat) (key : Nat) (i : _), s.agSpace a = .inl (.exact d) ∧ key = s.agKey a d ∧ s.bucketsUe d key = false
      ∧ s.agRuns a 3 = true ∧ s.exactFind d key = some i ∧ s.rd F.TBL_AG_CMD.IF_AGED a = 1 ∧ slotAged (s.slotVal d i) = 0 :=
  ⟨(nx (.agentInsert 0) (agS 2 [])).wr F.TBL_AG_CMD.OP 0 3 |>.wr F.TBL_AG_STATUS.BUSY 0 1 |>.wr F.TBL_AG_CMD.IF_AGED 0 1, 0, 3, 12345,
    (((agS 0 []).exactCandidates 3 12345).filterMap ((agS 0 []).freeIn 3)).headD 0, by decide +kernel⟩

theorem witness_StencilEntriesMoveAndAreRepaired_1 :
    ∃ (s : State) (a : Nat) (i : Nat) (j : Nat) (d : Nat) (p : Nat) (q : Nat) (r : Region), s.agRuns a 5 = true ∧ s.agSpace a = .inl
      (.stencil r d) ∧ s.rd F.TBL_AG_CMD.INDEX a = i ∧ s.rd F.TBL_AG_CMD.INDEX2 a = j ∧ i < r.entries ∧ j < r.entries ∧ r.width = 1 ∧ p
      = r.pos i ∧ q = r.pos j ∧ (s.unit p).tag ≠ 0 ∧ (s.unit q).tag ≠ 0 :=
  ⟨((st [(F.TBL_AG_STATUS.BUSY, 0, 1), (F.TBL_AG_CMD.OP, 0, 5), (F.TBL_AG_CMD.TABLE, 0, 3), (F.TBL_DESC.KIND, 3, 3),
    (F.TBL_DESC.FIRST_BANK, 3, 2), (F.TBL_DESC.NBANKS, 3, 1), (F.TBL_AG_CMD.INDEX, 0, 4), (F.TBL_AG_CMD.INDEX2, 0, 6)]).setUnit 8196
    ({ StnUnit.free with key := 3, copyKey := 5, mask := 7, copyMask := 7, tag := 1, gen := 15 })).setUnit 8198
    ({ StnUnit.free with key := 3, copyKey := 5, mask := 7, copyMask := 7, tag := 1, gen := 15 }), 0, 4, 6, 3, 8196, 8198, (((st
    [(F.TBL_AG_STATUS.BUSY, 0, 1), (F.TBL_AG_CMD.OP, 0, 5), (F.TBL_AG_CMD.TABLE, 0, 3), (F.TBL_DESC.KIND, 3, 3), (F.TBL_DESC.FIRST_BANK,
    3, 2), (F.TBL_DESC.NBANKS, 3, 1), (F.TBL_AG_CMD.INDEX, 0, 4), (F.TBL_AG_CMD.INDEX2, 0, 6)]).setUnit 8196
    ({ StnUnit.free with key := 3, copyKey := 5, mask := 7, copyMask := 7, tag := 1, gen := 15 })).setUnit 8198
    ({ StnUnit.free with key := 3, copyKey := 5, mask := 7, copyMask := 7, tag := 1, gen := 15 })).mainRegion 3, by decide +kernel⟩

theorem witness_StencilEntriesMoveAndAreRepaired_2 :
    ∃ (s : State) (a : Nat) (i : Nat) (j : Nat) (d : Nat) (p : Nat) (q : Nat) (r : Region), s.agRuns a 5 = true ∧ s.agSpace a = .inl
      (.stencil r d) ∧ s.rd F.TBL_AG_CMD.INDEX a = i ∧ s.rd F.TBL_AG_CMD.INDEX2 a = j ∧ i < r.entries ∧ j < r.entries ∧ r.width = 1 ∧ p
      = r.pos i ∧ q = r.pos j ∧ (s.unit p).tag ≠ 0 ∧ (s.unit q).tag = 0 ∧ s.sramUe (assocWord p) 2 = false ∧ (s.unit p).copyUe = false :=
  ⟨((st [(F.TBL_AG_STATUS.BUSY, 0, 1), (F.TBL_AG_CMD.OP, 0, 5), (F.TBL_AG_CMD.TABLE, 0, 3), (F.TBL_DESC.KIND, 3, 3),
    (F.TBL_DESC.FIRST_BANK, 3, 2), (F.TBL_DESC.NBANKS, 3, 1), (F.TBL_AG_CMD.INDEX, 0, 4), (F.TBL_AG_CMD.INDEX2, 0, 6)]).setUnit 8196
    ({ StnUnit.free with key := 3, copyKey := 5, mask := 7, copyMask := 7, tag := 1, gen := 15 })), 0, 4, 6, 3, 8196, 8198, (((st
    [(F.TBL_AG_STATUS.BUSY, 0, 1), (F.TBL_AG_CMD.OP, 0, 5), (F.TBL_AG_CMD.TABLE, 0, 3), (F.TBL_DESC.KIND, 3, 3), (F.TBL_DESC.FIRST_BANK,
    3, 2), (F.TBL_DESC.NBANKS, 3, 1), (F.TBL_AG_CMD.INDEX, 0, 4), (F.TBL_AG_CMD.INDEX2, 0, 6)]).setUnit 8196
    ({ StnUnit.free with key := 3, copyKey := 5, mask := 7, copyMask := 7, tag := 1, gen := 15 }))).mainRegion 3, by decide +kernel⟩

theorem witness_StencilEntriesMoveAndAreRepaired_3 :
    ∃ (s : State) (a : Nat) (i : Nat) (d : Nat) (p : Nat) (r : Region), s.agRuns a 3 = true ∧ s.agSpace a = .inl (.stencil r d) ∧ s.rd
      F.TBL_AG_CMD.INDEX a = i ∧ i < r.entries ∧ r.width = 1 ∧ p = r.pos i :=
  ⟨((st [(F.TBL_AG_STATUS.BUSY, 0, 1), (F.TBL_AG_CMD.OP, 0, 5), (F.TBL_AG_CMD.TABLE, 0, 3), (F.TBL_DESC.KIND, 3, 3),
    (F.TBL_DESC.FIRST_BANK, 3, 2), (F.TBL_DESC.NBANKS, 3, 1), (F.TBL_AG_CMD.INDEX, 0, 4), (F.TBL_AG_CMD.INDEX2, 0, 6)]).wr
    F.TBL_AG_CMD.OP 0 3).setUnit 8196 ({ StnUnit.free with key := 3, copyKey := 5, mask := 7, copyMask := 7, tag := 1, gen := 15 }), 0,
    4, 3, 8196, (((st [(F.TBL_AG_STATUS.BUSY, 0, 1), (F.TBL_AG_CMD.OP, 0, 5), (F.TBL_AG_CMD.TABLE, 0, 3), (F.TBL_DESC.KIND, 3, 3),
    (F.TBL_DESC.FIRST_BANK, 3, 2), (F.TBL_DESC.NBANKS, 3, 1), (F.TBL_AG_CMD.INDEX, 0, 4), (F.TBL_AG_CMD.INDEX2, 0, 6)]).wr
    F.TBL_AG_CMD.OP 0 3).setUnit 8196
    ({ StnUnit.free with key := 3, copyKey := 5, mask := 7, copyMask := 7, tag := 1, gen := 15 })).mainRegion 3, by decide +kernel⟩

theorem witness_StencilEntriesMoveAndAreRepaired_4 :
    ∃ (s : State) (pos : Nat), (s.unit pos).suspect = true ∧ s.rd F.STN_BANK_CFG.WIDTH (pos / 4096) = 0 ∧ (s.unit pos).copyUe = true :=
  ⟨up.setUnit 8198
    { { StnUnit.free with key := 3, copyKey := 5, mask := 7, copyMask := 7, tag := 1, gen := 15 } with suspect := true, copyUe := true },
    8198, by decide +kernel⟩

theorem witness_StencilEntriesMoveAndAreRepaired_5 :
    ∃ (s : State) (pos : Nat), (s.unit pos).suspect = true ∧ s.rd F.STN_BANK_CFG.WIDTH (pos / 4096) = 0 ∧ (s.unit pos).copyUe = false :=
  ⟨up.setUnit 8198 { { StnUnit.free with key := 3, copyKey := 5, mask := 7, copyMask := 7, tag := 1, gen := 15 } with suspect := true },
    8198, by decide +kernel⟩

theorem witness_StencilEntriesMoveAndAreRepaired_6 :
    ∃ (s : State) (k : Nat) (row : Nat) (pos : Nat) (due : Nat), Sparse.read 0 s.tables.scrubRow k = row ∧ pos = 4096 * k + row ∧ due =
      Sparse.read 0 s.tables.scrubAt k + us (s.rd F.STN_SCRUB_CFG.PERIOD) ∧ due < 2 ^ 80 ∧ (s.unit pos).copyUe = false :=
  ⟨up.setUnit 8192 { StnUnit.free with key := 3, copyKey := 5, mask := 7, copyMask := 7, tag := 1, gen := 15 }, 2, 0, 8192, us (up.rd
    F.STN_SCRUB_CFG.PERIOD), by decide +kernel⟩

theorem witness_TablesAreScrubbedDescribedAndAged_1 :
    ∃ (s : State), s.badWords.sramUe = [] :=
  ⟨up.withBadWords { up.badWords with sramCe := [4, 9] }, by decide +kernel⟩

theorem witness_TablesAreScrubbedDescribedAndAged_2 :
    ∃ (s : State) (w : Nat), s.badWords.sramUe = [w] ∧ s.badWords.sramCe = [] :=
  ⟨up.withBadWords { up.badWords with sramUe := [9] }, 9, by decide +kernel⟩

theorem witness_TablesAreScrubbedDescribedAndAged_3 :
    ∃ (s : State) (b : Bool) (i : Nat) (v : Nat), s.takes .TBL_DESC = true ∧ s.bankWritable b = false :=
  ⟨up, false, 3, 1, by decide +kernel⟩

theorem witness_TablesAreScrubbedDescribedAndAged_4 :
    ∃ (s : State) (b : Bool) (i : Nat) (v : Nat), s.takes .TBL_DESC = true ∧ s.bankWritable b = true ∧ i < 256 ∧ bitsOf v 0 3 = 0 :=
  ⟨up, true, 255, 8, by decide +kernel⟩

theorem witness_TablesAreScrubbedDescribedAndAged_5 :
    ∃ (s : State) (b : Bool) (i : Nat) (v : Nat), s.takes .TBL_DESC = true ∧ s.bankWritable b = true ∧ i < 256 ∧ 4 < bitsOf v 0 3 :=
  ⟨up, true, 3, 5, by decide +kernel⟩

theorem witness_TablesAreScrubbedDescribedAndAged_6 :
    ∃ (s : State) (b : Bool) (i : Nat) (k : Nat) (v : Nat) (w : Nat), s.takes .TBL_DESC = true ∧ s.bankWritable b = true ∧ i < 256 ∧ k =
      bankNo b * 256 + i ∧ bitsOf v 3 2 ≠ 3 ∧ w = setBits (setBits (setBits (setBits (s.reg .TBL_DESC k).toNat 0 64 (v % 2 ^ 64)) 5 3 0)
      47 1 0) 63 1 0 ∧ s.descOk k w = true :=
  ⟨up, true, 3, 259, 2 + 256 * 4 + 65536 * 3, setBits (setBits (setBits (setBits (up.reg .TBL_DESC 259).toNat 0 64 (2 + 256 * 4 + 65536
    * 3)) 5 3 0) 47 1 0) 63 1 0, by decide +kernel⟩

theorem witness_TablesAreScrubbedDescribedAndAged_7 :
    ∃ (s : State) (k : Nat) (v : Nat), s.takes .STN_BANK_CFG = true ∧ ((∀ i, i < 512 → s.rd F.TBL_DESC.KIND i = 0)) ∧ ((∀ e ∈
      s.tables.stn, e.1 / 4096 = k → e.2.tag = 0)) :=
  ⟨up, 3, 7, by decide +kernel⟩

theorem witness_TablesAreScrubbedDescribedAndAged_8 :
    ∃ (s : State) (k : Nat) (v : Nat) (e : Nat × StnUnit), s.takes .STN_BANK_CFG = true ∧ e ∈ s.tables.stn ∧ e.1 / 4096 = k ∧ e.2.tag ≠
      0 :=
  ⟨up.setUnit 8198 { StnUnit.free with key := 3, copyKey := 5, mask := 7, copyMask := 7, tag := 1, gen := 15 }, 2, 1, (8198,
    { StnUnit.free with key := 3, copyKey := 5, mask := 7, copyMask := 7, tag := 1, gen := 15 }), by decide +kernel⟩

theorem witness_TablesAreScrubbedDescribedAndAged_9 :
    ∃ (s : State) (k : Nat) (v : Nat) (i : Nat), s.takes .STN_BANK_CFG = true ∧ i < 512 ∧ (s.desc i).kind ≠ 0 ∧ (s.desc i).banks.any
      (fun b => decide (b.1 ≤ k) && decide (k < b.1 + b.2.1)) = true :=
  ⟨(st [(F.TBL_AG_STATUS.BUSY, 0, 1), (F.TBL_AG_CMD.OP, 0, 5), (F.TBL_AG_CMD.TABLE, 0, 3), (F.TBL_DESC.KIND, 3, 3),
    (F.TBL_DESC.FIRST_BANK, 3, 2), (F.TBL_DESC.NBANKS, 3, 1), (F.TBL_AG_CMD.INDEX, 0, 4), (F.TBL_AG_CMD.INDEX2, 0, 6)]), 2, 1, 3,
    by decide +kernel⟩

theorem witness_TablesAreScrubbedDescribedAndAged_10 :
    ∃ (s : State) (i : Nat) (k : Nat), i < 256 ∧ k = bankNo s.activeBank * 256 + i ∧ s.isAgeing k = true ∧ (s.age k).next < 2 ^ 80 :=
  ⟨(st [(F.TBL_DESC.KIND, 3, 2), (F.TBL_DESC.PART_CNT, 3, 1), (F.TBL_DESC.AGE_UNIT, 3, 1), (F.TBL_DESC.AGE_LIMIT, 3, 2)]).withTables
    { up.tables with ages := [(3, ⟨255, 40, 2⟩)] }, 3, 3, by decide +kernel⟩

theorem witness_TablesAreScrubbedDescribedAndAged_11 :
    ∃ (s : State) (i : Nat) (k : Nat) (slot : Nat), i < 256 ∧ k = bankNo s.activeBank * 256 + i ∧ s.isAgeing k = true ∧ slot <
      s.slotCount k ∧ slotAgeEn (s.slotVal k slot) = 1 ∧ slotAged (s.slotVal k slot) = 0 ∧ ((slotWidth (s.slotVal k slot) = 1 ∨
      slotWidth (s.slotVal k slot) = 2)) ∧ s.slotUe k slot = false ∧ (s.age k).limit ≤ ((s.age k).u + 256 - slotAgeTs (s.slotVal k
      slot)) % 256 :=
  ⟨((st [(F.TBL_DESC.KIND, 3, 2), (F.TBL_DESC.PART_CNT, 3, 1), (F.TBL_DESC.AGE_UNIT, 3, 1), (F.TBL_DESC.AGE_LIMIT, 3, 2)]).withTables
    { up.tables with ages := [(3, ⟨5, 40, 2⟩)] }).sramPut ((st [(F.TBL_DESC.KIND, 3, 2), (F.TBL_DESC.PART_CNT, 3, 1),
    (F.TBL_DESC.AGE_UNIT, 3, 1), (F.TBL_DESC.AGE_LIMIT, 3, 2)]).slotWord 3 2) 4 (setBits (setBits 0 37 1 1) 35 2 1), 3, 3, 2,
    by decide +kernel⟩

theorem witness_TablesAreScrubbedDescribedAndAged_12 :
    ∃ (s : State) (i : Nat) (k : Nat) (slot : Nat), i < 256 ∧ k = bankNo s.activeBank * 256 + i ∧ s.isAgeing k = true ∧ slot <
      s.slotCount k ∧ s.slotUe k slot = true :=
  ⟨(st [(F.TBL_DESC.KIND, 3, 2), (F.TBL_DESC.PART_CNT, 3, 1), (F.TBL_DESC.AGE_UNIT, 3, 1), (F.TBL_DESC.AGE_LIMIT, 3, 2)]).withBadWords
    { up.badWords with sramUe := [(st [(F.TBL_DESC.KIND, 3, 2), (F.TBL_DESC.PART_CNT, 3, 1), (F.TBL_DESC.AGE_UNIT, 3, 1), (F.TBL_DESC.AGE_LIMIT, 3, 2)]).slotWord 3 2] },
    3, 3, 2, by decide +kernel⟩

theorem witness_PounceSetsAndSearches_1 :
    ∃ (s : State) (b : Bool) (k : Nat) (v : Nat), k < 64 ∧ s.takes .PNC_SET = true ∧ s.bankWritable b = false :=
  ⟨up, false, 63, 1, by decide +kernel⟩

theorem witness_PounceSetsAndSearches_2 :
    ∃ (s : State) (b : Bool) (k : Nat) (i : Nat) (v : Nat) (w : Nat), k < 64 ∧ s.takes .PNC_SET = true ∧ s.bankWritable b = true ∧ i =
      bankNo b * 64 + k ∧ w = setBits (s.reg .PNC_SET i).toNat 0 64 (Nat.land v 0x3fff001fff3f) :=
  ⟨up, true, 63, 127, 1 + (1 <<< 32), setBits (up.reg .PNC_SET 127).toNat 0 64 (Nat.land (1 + (1 <<< 32)) 0x3fff001fff3f),
    by decide +kernel⟩

theorem witness_PounceSetsAndSearches_3 :
    ∃ (s : State) (v : BitVec 128), s.takes .PNC_LOAD_DATA = true ∧ s.pncFree true (s.rd F.PNC_LOAD_ADDR.STATE) = true :=
  ⟨up, 7, by decide +kernel⟩

theorem witness_PounceSetsAndSearches_4 :
    ∃ (s : State) (v : BitVec 128), s.takes .PNC_LOAD_DATA = true ∧ s.pncFree true (s.rd F.PNC_LOAD_ADDR.STATE) = false :=
  ⟨(up).setReg .PNC_SET 5 (BitVec.ofNat 320 (1 + (8 <<< 96))), 7, by decide +kernel⟩

theorem witness_PounceSetsAndSearches_5 :
    ∃ (s : State) (n : Nat) (p : Pkt) (eg : Bool) (st : Nat) (a : Act) (d : PncSet), s.handoff n = some (p, eg, st, a, some d) ∧ d.mode
      = 0 :=
  ⟨pnS [(F.GLZ_TPL.TABLE, 3, 5), (F.GLZ_TPL.MISS_PC, 3, 8), (F.GLZ_TPL.NI_PC, 3, 9)] 0
    ({ acP with act := some { acA with pounce := true, key := 3 * 2 ^ 71 + 20 * 2 ^ 61 } }), 0,
    { acP with act := some { acA with pounce := true, key := 3 * 2 ^ 71 + 20 * 2 ^ 61 } }, false, 2,
    { acA with pounce := true, key := 3 * 2 ^ 71 + 20 * 2 ^ 61 }, pncSetOf (0), by decide +kernel⟩

theorem witness_PounceSetsAndSearches_6 :
    ∃ (s : State) (n : Nat) (p : Pkt) (eg : Bool) (st : Nat) (a : Act) (d : PncSet), s.handoff n = some (p, eg, st, a, some d) ∧ (d.mode
      = 1 ∨ d.mode = 2) ∧ p.rx.arrived = true ∧ ((let r := inspectRange a.key (keyBits (s.handoffWidth p eg a)) p.data.length; r.1 < r.2
      ∧ s.budgetNow.level < ((8 * (r.2 - r.1) : Nat) : Int))) :=
  ⟨(fun (u : State) => u.withTables { u.tables with budget := some ⟨159, 0, 0⟩ }) <| pnS [(F.GLZ_TPL.TABLE, 3, 5), (F.GLZ_TPL.MISS_PC,
    3, 8), (F.GLZ_TPL.NI_PC, 3, 9)] (1 + (8 <<< 96))
    ({ acP with act := some { acA with pounce := true, key := 3 * 2 ^ 71 + 20 * 2 ^ 61 } }), 0,
    { acP with act := some { acA with pounce := true, key := 3 * 2 ^ 71 + 20 * 2 ^ 61 } }, false, 2,
    { acA with pounce := true, key := 3 * 2 ^ 71 + 20 * 2 ^ 61 }, pncSetOf ((1 + (8 <<< 96))), by decide +kernel⟩

theorem witness_PounceSetsAndSearches_7 :
    ∃ (s : State) (n : Nat) (p : Pkt) (eg : Bool) (st : Nat) (a : Act) (d : PncSet) (r : _) (lo : _) (hi : _), s.handoff n = some (p,
      eg, st, a, some d) ∧ (d.mode = 1 ∨ d.mode = 2) ∧ p.rx.arrived = true ∧ (lo, hi) = inspectRange a.key (keyBits (s.handoffWidth p eg
      a)) p.data.length ∧ lo < hi ∧ ((8 * (hi - lo) : Nat) : Int) ≤ s.budgetNow.level ∧ s.badWords.pounceUe = [] ∧ s.badWords.pounceCe =
      [] ∧ r = pounceScan (s.setStates d) (d.mode == 2) ((p.data.take hi).drop lo) 0 lo ⟨none, 0, []⟩ :=
  ⟨pnS [(F.GLZ_TPL.TABLE, 3, 5), (F.GLZ_TPL.MISS_PC, 3, 8), (F.GLZ_TPL.NI_PC, 3, 9)] (1 + (8 <<< 96) + (1 <<< 32))
    ({ acP with act := some { acA with pounce := true, key := 3 * 2 ^ 71 + 20 * 2 ^ 61 } }), 0,
    { acP with act := some { acA with pounce := true, key := 3 * 2 ^ 71 + 20 * 2 ^ 61 } }, false, 2,
    { acA with pounce := true, key := 3 * 2 ^ 71 + 20 * 2 ^ 61 }, pncSetOf ((1 + (8 <<< 96) + (1 <<< 32))), pounceScan ((pnS
    [(F.GLZ_TPL.TABLE, 3, 5), (F.GLZ_TPL.MISS_PC, 3, 8), (F.GLZ_TPL.NI_PC, 3, 9)] (1 + (8 <<< 96) + (1 <<< 32))
    ({ acP with act := some { acA with pounce := true, key := 3 * 2 ^ 71 + 20 * 2 ^ 61 } })).setStates (pncSetOf ((1 + (8 <<< 96) + (1
    <<< 32))))) ((pncSetOf ((1 + (8 <<< 96) + (1 <<< 32)))).mode == 2)
    ((({ acP with act := some { acA with pounce := true, key := 3 * 2 ^ 71 + 20 * 2 ^ 61 } }).data.take 23).drop 3) 0 3 ⟨none, 0, []⟩,
    3, 23, by decide +kernel, by decide +kernel, by decide +kernel, by decide +kernel, by decide +kernel, by decide +kernel,
    by decide +kernel, by decide +kernel, rfl⟩

theorem witness_PounceSetsAndSearches_8 :
    ∃ (s : State) (n : Nat) (p : Pkt) (eg : Bool) (st : Nat) (a : Act) (d : PncSet), s.handoff n = some (p, eg, st, a, some d) ∧ d.mode
      = 3 ∧ s.handoffWidth p eg a ≠ (if d.wide then 1 else 0) :=
  ⟨pnS [(F.GLZ_TPL.TABLE, 3, 5), (F.GLZ_TPL.MISS_PC, 3, 8), (F.GLZ_TPL.NI_PC, 3, 9), (F.GLZ_TPL.KEYW, 3, 1)] (3 + (4 <<< 32))
    ({ acP with act := some { acA with pounce := true, key := 3 * 2 ^ 71 + 20 * 2 ^ 61 } }), 0,
    { acP with act := some { acA with pounce := true, key := 3 * 2 ^ 71 + 20 * 2 ^ 61 } }, false, 2,
    { acA with pounce := true, key := 3 * 2 ^ 71 + 20 * 2 ^ 61 }, pncSetOf ((3 + (4 <<< 32))), by decide +kernel⟩

theorem witness_PounceSetsAndSearches_9 :
    ∃ (s : State) (n : Nat) (p : Pkt) (eg : Bool) (st : Nat) (a : Act) (d : PncSet) (i : _), s.handoff n = some (p, eg, st, a, some d) ∧
      d.mode = 3 ∧ s.handoffWidth p eg a = (if d.wide then 1 else 0) ∧ s.badWords.pounceUe = [] ∧ s.badWords.pounceCe = [] ∧
      s.legacyFind d a.key (s.rd F.PNC_LGMASK.MASK (s.rd F.PNC_SET.LGMASK (bankNo (stageBank p eg) * 64 + s.rd F.GLZ_TPL.TABLE (bankNo
      (stageBank p eg) * 256 + a.tpl))) % (if d.wide then 2 ^ 160 else 2 ^ 80)) = some i :=
  ⟨pnS [(F.GLZ_TPL.TABLE, 3, 5), (F.GLZ_TPL.MISS_PC, 3, 8), (F.GLZ_TPL.NI_PC, 3, 9), (F.PNC_RES.RES, 2, 5), (F.PNC_LKEY.KEY, 2, 3 * 2 ^
    71 + 20 * 2 ^ 61), (F.PNC_LGMASK.MASK, 0, 2 ^ 80 - 1)] (3 + (4 <<< 32))
    ({ acP with act := some { acA with pounce := true, key := 3 * 2 ^ 71 + 20 * 2 ^ 61 } }), 0,
    { acP with act := some { acA with pounce := true, key := 3 * 2 ^ 71 + 20 * 2 ^ 61 } }, false, 2,
    { acA with pounce := true, key := 3 * 2 ^ 71 + 20 * 2 ^ 61 }, pncSetOf ((3 + (4 <<< 32))), 2, by decide +kernel⟩

theorem witness_BuffersAreOwnedAndCounted_1 :
    ∃ (s : State) (s1 : State) (c : Nat) (o : Nat) (p : Nat), c ≤ 6 ∧ c ≠ 4 ∧ ((c = 6 → ownerClass o = 6)) ∧ s.mayAlloc c 0 = true ∧
      s.popCanvas = some (s1, p) :=
  ⟨(plS 0 []), (match (((plS 0 [])).popCanvas) with | some x => x | none => ((plS 0 []), 0)).1, 0, 0, (match (((plS 0 [])).popCanvas)
    with | some x => x | none => ((plS 0 []), 0)).2, by decide +kernel⟩

theorem witness_BuffersAreOwnedAndCounted_2 :
    ∃ (s : State) (c : Nat) (o : Nat) (p : Nat) (rest : List Nat), ((c = 4 ∧ s.palette.rebuilding = false ∧ s.dramStopped = false ∨ c =
      6 ∧ ownerClass o = 6)) ∧ s.mayAlloc c 1 = true ∧ s.palette.headCache = p :: rest :=
  ⟨(plS 0 [(F.PAL_POOL_CFG.SIZE, 1, 100), (F.PAL_CLASS_CFG.CEIL, 4, 60), (F.PAL_CLASS_CFG.CEIL, 6, 60)]).withPalette
    { up.palette with headCache := [2147483655, 2147483656] }, 4, 4, 2147483655, [2147483656], by decide +kernel⟩

theorem witness_BuffersAreOwnedAndCounted_3 :
    ∃ (s : State) (o : Nat), ((s.palette.rebuilding = true ∨ s.dramStopped = true ∨ s.mayAlloc 4 1 = false)) :=
  ⟨up.withPalette { up.palette with rebuilding := true }, 4, by decide +kernel⟩

theorem witness_BuffersAreOwnedAndCounted_4 :
    ∃ (s : State) (c : Nat) (o : Nat), c ≤ 5 ∧ c ≠ 4 ∧ s.mayAlloc c 0 = false :=
  ⟨up.wr F.PAL_CLASS_CFG.CEIL 0 0, 0, 1, by decide +kernel⟩

theorem witness_BuffersAreOwnedAndCounted_5 :
    ∃ (s : State) (p : Nat) (n : Nat), s.ptrOk p = true ∧ bufState (s.bufWord p) = 1 ∧ bufRef (s.bufWord p) < 255 :=
  ⟨plS (mkWord 254 1 1 0) [], 7, 60, by decide +kernel⟩

theorem witness_BuffersAreOwnedAndCounted_6 :
    ∃ (s : State) (p : Nat) (n : Nat), s.ptrOk p = true ∧ bufState (s.bufWord p) = 1 ∧ bufRef (s.bufWord p) = 255 :=
  ⟨plS (mkWord 255 1 1 0) [], 7, 60, by decide +kernel⟩

theorem witness_BuffersAreOwnedAndCounted_7 :
    ∃ (s : State) (p : Nat) (o : Nat), s.ptrOk p = true ∧ bufState (s.bufWord p) = 1 ∧ ownerClass o ≠ 7 ∧ bufOwner (s.bufWord p) = o ∧ 1
      < bufRef (s.bufWord p) :=
  ⟨plS (mkWord 2 1 1 0) [], 7, 1, by decide +kernel⟩

theorem witness_BuffersAreOwnedAndCounted_8 :
    ∃ (s : State) (p : Nat) (o : Nat), s.ptrOk p = true ∧ bufState (s.bufWord p) = 1 ∧ ownerClass o ≠ 7 ∧ bufOwner (s.bufWord p) = o ∧
      bufRef (s.bufWord p) = 1 ∧ s.marked p = false ∧ ptrPool p = 0 :=
  ⟨plS (mkWord 1 1 1 0) [], 7, 1, by decide +kernel⟩

theorem witness_BuffersAreOwnedAndCounted_9 :
    ∃ (s : State) (p : Nat) (o : Nat), s.ptrOk p = true ∧ bufState (s.bufWord p) = 1 ∧ ownerClass o ≠ 7 ∧ bufOwner (s.bufWord p) = o ∧
      bufRef (s.bufWord p) = 1 ∧ s.marked p = false ∧ ptrPool p = 1 ∧ s.palette.pushCache.length < 1024 ∧ s.palette.pushCache.length + 1
      < 63 + (s.rd F.PAL_POOL_CFG.HC_LOW 1 - s.palette.headCache.length) :=
  ⟨(plS 0 [(F.PAL_POOL_CFG.SIZE, 1, 100)]).setBuf 2147483655 (mkWord 1 4 1 0), 2147483655, 4, by decide +kernel⟩

theorem witness_BuffersAreOwnedAndCounted_10 :
    ∃ (s : State) (p : Nat) (o : Nat), s.ptrOk p = true ∧ ownerClass o ≠ 7 ∧ ((bufState (s.bufWord p) = 0 ∨ bufState (s.bufWord p) = 2)) :=
  ⟨plS (mkWord 0 1 0 0) [], 7, 1, by decide +kernel⟩

theorem witness_BuffersAreOwnedAndCounted_11 :
    ∃ (s : State) (p : Nat) (o : Nat), s.ptrOk p = true ∧ ((ownerClass o = 7 ∨ (bufState (s.bufWord p) = 1 ∨ bufState (s.bufWord p) = 3)
      ∧ bufOwner (s.bufWord p) ≠ o)) :=
  ⟨plS (mkWord 3 1 1 0) [], 7, 2, by decide +kernel⟩

theorem witness_BuffersAreOwnedAndCounted_12 :
    ∃ (s : State) (p : Nat) (a : Nat) (b : Nat), s.ptrOk p = true ∧ ((bufState (s.bufWord p) = 1 ∨ bufState (s.bufWord p) = 3)) ∧
      bufOwner (s.bufWord p) = a ∧ ownerClass b ≠ 7 :=
  ⟨plS (mkWord 3 1 3 0) [], 7, 1, 2, by decide +kernel⟩

theorem witness_FreeListsAuditAndSoftware_1 :
    ∃ (s : State), s.palette.headCache.length < s.rd F.PAL_POOL_CFG.HC_LOW 1 ∧ s.palette.rebuilding = false ∧ s.rd F.PAL_POOL_CFG.HC_LOW
      1 ≤ s.palette.headCache.length + s.palette.pushCache.length :=
  ⟨(st [(F.PAL_POOL_CFG.HC_LOW, 1, 2)]).withPalette { up.palette with pushCache := [0x80001, 0x80002] }, by decide +kernel⟩

theorem witness_FreeListsAuditAndSoftware_2 :
    ∃ (s : State), s.palette.rebuilding = true :=
  ⟨up.withPalette { up.palette with rebuilding := true, headCache := [0x80002] }, by decide +kernel⟩

theorem witness_FreeListsAuditAndSoftware_3 :
    ∃ (s : State), s.takes .PAL_AUDIT_CTRL = true ∧ s.rd F.PAL_AUDIT_STATUS.RUNNING = 0 :=
  ⟨up, by decide +kernel⟩

theorem witness_FreeListsAuditAndSoftware_4 :
    ∃ (s : State), s.takes .PAL_AUDIT_CTRL = true ∧ s.rd F.PAL_AUDIT_STATUS.RUNNING = 1 :=
  ⟨st [(F.PAL_AUDIT_STATUS.RUNNING, 0, 1)], by decide +kernel⟩

theorem witness_FreeListsAuditAndSoftware_5 :
    ∃ (s : State) (due : Nat), s.rd F.PAL_AUDIT_CTRL.PERIOD ≠ 0 ∧ due = s.palette.auditAt + ms (1000 * s.rd F.PAL_AUDIT_CTRL.PERIOD) ∧
      due < 2 ^ 80 :=
  ⟨st [(F.PAL_AUDIT_CTRL.PERIOD, 0, 2)], ms 2000, by decide +kernel⟩

theorem witness_FreeListsAuditAndSoftware_6 :
    ∃ (s : State) (same : Bool), s.rd F.PAL_AUDIT_STATUS.RUNNING = 1 ∧ same = decide (s.palette.tally = (s.rd F.PAL_FREE_CNT.COUNT 0 +
      s.rd F.PAL_FREE_CNT.COUNT 1 : Nat)) :=
  ⟨(st [(F.PAL_AUDIT_STATUS.RUNNING, 0, 1)]).withPalette { up.palette with tally := 5 }, false, by decide +kernel⟩

theorem witness_FreeListsAuditAndSoftware_7 :
    ∃ (s : State), s.takes .PAL_AUDIT_CTRL = true :=
  ⟨up.withPalette { up.palette with audit := [(7, 3, true, 9), (8, 3, false, 9)] }, by decide +kernel⟩

theorem witness_FreeListsAuditAndSoftware_8 :
    ∃ (s : State) (s1 : State) (o : Nat) (p : Nat), s.swRuns 1 = true ∧ s.rd F.PAL_SW_CMD.OWNER = o ∧ ownerClass o = 6 ∧ s.rd
      F.PAL_SW_CMD.POOL = 0 ∧ s.mayAlloc 6 0 = true ∧ s.popCanvas = some (s1, p) ∧ p < 2 ^ 32 :=
  ⟨(plS 0 [(F.PAL_SW_RESULT.BUSY, 0, 1), (F.PAL_SW_CMD.OP, 0, 1), (F.PAL_SW_CMD.OWNER, 0, 48)]), (match (((plS 0 [(F.PAL_SW_RESULT.BUSY,
    0, 1), (F.PAL_SW_CMD.OP, 0, 1), (F.PAL_SW_CMD.OWNER, 0, 48)])).popCanvas) with | some x => x | none => ((plS 0
    [(F.PAL_SW_RESULT.BUSY, 0, 1), (F.PAL_SW_CMD.OP, 0, 1), (F.PAL_SW_CMD.OWNER, 0, 48)]), 0)).1, 48, (match (((plS 0
    [(F.PAL_SW_RESULT.BUSY, 0, 1), (F.PAL_SW_CMD.OP, 0, 1), (F.PAL_SW_CMD.OWNER, 0, 48)])).popCanvas) with | some x => x | none => ((plS
    0 [(F.PAL_SW_RESULT.BUSY, 0, 1), (F.PAL_SW_CMD.OP, 0, 1), (F.PAL_SW_CMD.OWNER, 0, 48)]), 0)).2, by decide +kernel⟩

theorem witness_FreeListsAuditAndSoftware_9 :
    ∃ (s : State), s.swRuns 1 = true ∧ ownerClass (s.rd F.PAL_SW_CMD.OWNER) ≠ 6 :=
  ⟨plS 0 [(F.PAL_SW_RESULT.BUSY, 0, 1), (F.PAL_SW_CMD.OP, 0, 1), (F.PAL_SW_CMD.PTR, 0, 7)], by decide +kernel⟩

theorem witness_FreeListsAuditAndSoftware_10 :
    ∃ (s : State) (e : Instr × Nat), e ∈ [(Instr.swFree, 2), (.swRead, 3), (.swRetire, 4), (.swUnretire, 5)] ∧ s.swRuns e.2 = true ∧
      s.ptrOk (s.rd F.PAL_SW_CMD.PTR) = false :=
  ⟨plS 0 [(F.PAL_SW_RESULT.BUSY, 0, 1), (F.PAL_SW_CMD.OP, 0, 2), (F.PAL_SW_CMD.PTR, 0, 655360)], (.swFree, 2), by decide +kernel⟩

theorem witness_FreeListsAuditAndSoftware_11 :
    ∃ (s : State) (p : Nat), s.rd F.PAL_SW_CMD.PTR = p ∧ s.ptrOk p = true ∧ s.swRuns 2 = true ∧ bufState (s.bufWord p) = 1 ∧ ownerClass
      (s.rd F.PAL_SW_CMD.OWNER) ≠ 7 ∧ bufOwner (s.bufWord p) = s.rd F.PAL_SW_CMD.OWNER ∧ 1 < bufRef (s.bufWord p) :=
  ⟨plS (mkWord 2 1 1 0) [(F.PAL_SW_RESULT.BUSY, 0, 1), (F.PAL_SW_CMD.OP, 0, 2), (F.PAL_SW_CMD.PTR, 0, 7), (F.PAL_SW_CMD.OWNER, 0, 1)],
    7, by decide +kernel⟩

theorem witness_FreeListsAuditAndSoftware_12 :
    ∃ (s : State) (p : Nat), s.rd F.PAL_SW_CMD.PTR = p ∧ s.ptrOk p = true ∧ s.swRuns 3 = true :=
  ⟨plS (mkWord 2 1 1 9) [(F.PAL_SW_RESULT.BUSY, 0, 1), (F.PAL_SW_CMD.OP, 0, 3), (F.PAL_SW_CMD.PTR, 0, 7)], 7, by decide +kernel⟩

theorem witness_FreeListsAuditAndSoftware_13 :
    ∃ (s : State) (p : Nat), s.rd F.PAL_SW_CMD.PTR = p ∧ s.ptrOk p = true ∧ s.swRuns 4 = true ∧ bufState (s.bufWord p) ≠ 2 ∧ p ∉
      s.easel.persist.marks :=
  ⟨plS (mkWord 2 1 1 0) [(F.PAL_SW_RESULT.BUSY, 0, 1), (F.PAL_SW_CMD.OP, 0, 4), (F.PAL_SW_CMD.PTR, 0, 7)], 7, by decide +kernel⟩

theorem witness_FreeListsAuditAndSoftware_14 :
    ∃ (s : State) (p : Nat), s.rd F.PAL_SW_CMD.PTR = p ∧ s.ptrOk p = true ∧ s.swRuns 5 = true ∧ bufState (s.bufWord p) ≠ 2 :=
  ⟨plS (mkWord 2 1 1 0) [(F.PAL_SW_RESULT.BUSY, 0, 1), (F.PAL_SW_CMD.OP, 0, 5), (F.PAL_SW_CMD.PTR, 0, 7)], 7, by decide +kernel⟩

theorem witness_FreeListsAuditAndSoftware_15 :
    ∃ (s : State) (p : Nat), s.rd F.PAL_SW_CMD.PTR = p ∧ s.ptrOk p = true ∧ s.swRuns 5 = true ∧ bufState (s.bufWord p) = 2 :=
  ⟨plS (mkWord 0 1 2 0) [(F.PAL_SW_RESULT.BUSY, 0, 1), (F.PAL_SW_CMD.OP, 0, 5), (F.PAL_SW_CMD.PTR, 0, 7)], 7, by decide +kernel⟩

theorem witness_DramCommandsReadsAndErrors_1 :
    ∃ (s : State) (ch : Nat) (r : Req), s.chanServes ch = true ∧ (s.chan ch).requests = [r] ∧ (s.chan ch).owed = 0 ∧ Sparse.read none
      (s.chan ch).openRows (s.place r.addr).key = some (s.place r.addr).row :=
  ⟨drS ({ Channel.idle with requests := [⟨0, false, 64, 0, .nothing, false, false⟩], openRows := [(0, some 0)] }) [], 1, ⟨0, false, 64,
    0, .nothing, false, false⟩, by decide +kernel⟩

theorem witness_DramCommandsReadsAndErrors_2 :
    ∃ (s : State) (ch : Nat) (r : Req) (row : _), s.chanServes ch = true ∧ (s.chan ch).requests = [r] ∧ (s.chan ch).owed = 0 ∧
      Sparse.read none (s.chan ch).openRows (s.place r.addr).key = some row ∧ row ≠ (s.place r.addr).row :=
  ⟨drS ({ Channel.idle with requests := [⟨0, false, 64, 0, .nothing, false, false⟩], openRows := [(0, some 9)] }) [], 1, ⟨0, false, 64,
    0, .nothing, false, false⟩, 9, by decide +kernel⟩

theorem witness_DramCommandsReadsAndErrors_3 :
    ∃ (s : State) (ch : Nat) (r : Req) (e : _), s.chanServes ch = true ∧ (s.chan ch).requests = [r] ∧ (s.chan ch).owed = 0 ∧ Sparse.read
      none (s.chan ch).openRows (s.place r.addr).key = none ∧ (s.chan ch).nbr = [e] ∧ e.1 = (s.place r.addr).key ∧ s.rd
      F.DMC_REFRESH_CFG.NBR_EN = 0 :=
  ⟨drS ({ Channel.idle with requests := [⟨0, false, 64, 0, .nothing, false, false⟩], nbr := [(0, 8)] }) [(F.DMC_REFRESH_CFG.NBR_EN, 0,
    0)], 1, ⟨0, false, 64, 0, .nothing, false, false⟩, (0, 8), by decide +kernel⟩

theorem witness_DramCommandsReadsAndErrors_4 :
    ∃ (s : State) (ch : Nat) (r : Req), s.chanServes ch = true ∧ (s.chan ch).requests = [r] ∧ (s.chan ch).owed = 0 ∧ Sparse.read none
      (s.chan ch).openRows (s.place r.addr).key = none ∧ (s.chan ch).nbr = [] :=
  ⟨drS ({ Channel.idle with requests := [⟨0, false, 64, 0, .nothing, false, false⟩] }) [(F.DMC_REFRESH_CFG.NBR_EN, 0, 1)], 1, ⟨0, false,
    64, 0, .nothing, false, false⟩, by decide +kernel⟩

theorem witness_DramCommandsReadsAndErrors_5 :
    ∃ (s : State) (ch : Nat), s.chanServes ch = true ∧ 8 ≤ (s.chan ch).owed :=
  ⟨drS ({ Channel.idle with owed := 8 }) [], 1, by decide +kernel⟩

theorem witness_DramCommandsReadsAndErrors_6 :
    ∃ (s : State) (ch : Nat), s.chanServes ch = false :=
  ⟨drS ({ Channel.idle with owed := 8 }) [(F.DMC_CH_STATUS.TRAINING, 1, 1)], 1, by decide +kernel⟩

theorem witness_DramCommandsReadsAndErrors_7 :
    ∃ (s : State) (u : State) (ch : Nat) (strikes : List (Nat × Nat)), exec (.dramCommandIssue ch []) s = .next u :=
  ⟨drS ({ Channel.idle with owed := 8 }) [], ((drS ({ Channel.idle with owed := 8 }) []).issueNext 1).strikeDram 1 [] [] [], 1, [(64,
    3)], rfl⟩

theorem witness_DramCommandsReadsAndErrors_8 :
    ∃ (s : State) (ch : Nat) (due : Nat), s.chanLives ch = true ∧ s.rd F.DMC_CH_STATUS.UP ch = 1 ∧ s.rd F.DMC_FREQ_STATUS.STATE ≠ 2 ∧
      (due = (s.chan ch).refreshedAt + ns (if s.rd F.DMC_TEMP.STALE = 1 ∨ 85 < s.dramTemp then 3900 else 7800)) ∧ due < 2 ^ 80 :=
  ⟨drS ({ Channel.idle with refreshedAt := 77 }) [(F.DMC_TEMP.STALE, 0, 0), (F.DMC_TEMP.TEMP, 0, 50)], 1, 77 + ns 7800,
    by decide +kernel⟩

theorem witness_DramCommandsReadsAndErrors_9 :
    ∃ (s : State) (v : Nat), s.takes .DMC_TEMP = true :=
  ⟨up, 300, by decide +kernel⟩

theorem witness_DramCommandsReadsAndErrors_10 :
    ∃ (s : State), s.rd F.DMC_TEMP.STALE = 0 ∧ s.dram.tempAt + ms 2000 < 2 ^ 80 :=
  ⟨st [(F.DMC_TEMP.STALE, 0, 0)], by decide +kernel⟩

theorem witness_DramCommandsReadsAndErrors_11 :
    ∃ (s : State) (ch : Nat), (s.chan ch).inFlight = [] :=
  ⟨drS Channel.idle [], 1, by decide +kernel⟩

theorem witness_DramCommandsReadsAndErrors_12 :
    ∃ (s : State) (ch : Nat) (r : Req) (rest : List Req), (s.chan ch).inFlight = r :: rest ∧ s.rd F.DMC_CH_STATUS.LOST ch = 0 ∧ ((∀ a ∈
      burstWords r.addr, s.wordError ch a = 0)) ∧ r.for_ = .nothing :=
  ⟨(drS ({ Channel.idle with inFlight := [⟨0, false, 64, 0, .nothing, false, false⟩, ⟨0, false, 128, 0, .nothing, false, false⟩] }) []),
    1, ⟨0, false, 64, 0, .nothing, false, false⟩, [⟨0, false, 128, 0, .nothing, false, false⟩], by decide +kernel⟩

theorem witness_DramCommandsReadsAndErrors_13 :
    ∃ (s : State) (ch : Nat) (r : Req) (rest : List Req) (k : Nat) (p : Pkt), (s.chan ch).inFlight = r :: rest ∧ s.rd
      F.DMC_CH_STATUS.LOST ch = 0 ∧ ((∀ a ∈ burstWords r.addr, s.wordError ch a = 0)) ∧ s.pkt k = some p ∧ r.for_ = .copy k :=
  ⟨(drS ({ Channel.idle with inFlight := [⟨0, false, 64, 0, .copy 9, false, false⟩, ⟨0, false, 128, 0, .nothing, false, false⟩] })
    []).setPkt 9 { qP with reads := 3 }, 1, ⟨0, false, 64, 0, .copy 9, false, false⟩, [⟨0, false, 128, 0, .nothing, false, false⟩], 9,
    { qP with reads := 3 }, by decide +kernel⟩

theorem witness_DramCommandsReadsAndErrors_14 :
    ∃ (s : State) (ch : Nat) (r : Req) (rest : List Req) (k : Nat) (p : Pkt), (s.chan ch).inFlight = r :: rest ∧ s.rd
      F.DMC_CH_STATUS.LOST ch = 0 ∧ ((∀ a ∈ burstWords r.addr, s.wordError ch a = 0)) ∧ s.pkt k = some p ∧ r.for_ = .serve k ∧ 1 <
      p.reads :=
  ⟨(drS ({ Channel.idle with inFlight := [⟨0, false, 64, 0, .serve 9, false, false⟩, ⟨0, false, 128, 0, .nothing, false, false⟩] })
    []).setPkt 9 { qP with reads := 3 }, 1, ⟨0, false, 64, 0, .serve 9, false, false⟩, [⟨0, false, 128, 0, .nothing, false, false⟩], 9,
    { qP with reads := 3 }, by decide +kernel⟩

theorem witness_DramCommandsReadsAndErrors_15 :
    ∃ (s : State) (ch : Nat) (r : Req) (rest : List Req) (k : Nat) (p : Pkt), (s.chan ch).inFlight = r :: rest ∧ s.rd
      F.DMC_CH_STATUS.LOST ch = 0 ∧ ((∀ a ∈ burstWords r.addr, s.wordError ch a = 0)) ∧ s.pkt k = some p ∧ r.for_ = .serve k ∧ p.reads =
      1 ∧ p.spoilt = false ∧ k ∉ s.fab.building :=
  ⟨(drS ({ Channel.idle with inFlight := [⟨0, false, 64, 0, .serve 9, false, false⟩, ⟨0, false, 128, 0, .nothing, false, false⟩] })
    []).setPkt 9 { qP with reads := 1 }, 1, ⟨0, false, 64, 0, .serve 9, false, false⟩, [⟨0, false, 128, 0, .nothing, false, false⟩], 9,
    { qP with reads := 1 }, by decide +kernel⟩

theorem witness_DramCommandsReadsAndErrors_16 :
    ∃ (s : State) (ch : Nat) (r : Req) (rest : List Req) (k : Nat) (p : Pkt), (s.chan ch).inFlight = r :: rest ∧ s.rd
      F.DMC_CH_STATUS.LOST ch = 0 ∧ ((∀ a ∈ burstWords r.addr, s.wordError ch a = 0)) ∧ s.pkt k = some p ∧ r.for_ = .serve k ∧ p.reads =
      1 ∧ p.spoilt = true :=
  ⟨(drS ({ Channel.idle with inFlight := [⟨0, false, 64, 0, .serve 9, false, false⟩, ⟨0, false, 128, 0, .nothing, false, false⟩] })
    []).setPkt 9 { qP with reads := 1, spoilt := true }, 1, ⟨0, false, 64, 0, .serve 9, false, false⟩, [⟨0, false, 128, 0, .nothing,
    false, false⟩], 9, { qP with reads := 1, spoilt := true }, by decide +kernel⟩

theorem witness_DramCommandsReadsAndErrors_17 :
    ∃ (s : State) (ch : Nat) (a : Nat) (x : Nat) (r : Req) (rest : List Req), (s.chan ch).inFlight = r :: rest ∧ s.chanLives ch = true ∧
      s.rd F.DMC_CH_STATUS.LOST ch = 0 ∧ r.for_ = .nothing ∧ r.stale = false ∧ s.dram.log.length < 32 ∧ a ∈ burstWords r.addr ∧
      symbolsHit (s.wordError ch a) = [x] ∧ ((∀ b ∈ burstWords r.addr, b ≠ a → s.wordError ch b = 0)) :=
  ⟨(let x := (drS
    ({ Channel.idle with inFlight := [⟨0, false, 64, 0, .nothing, false, false⟩, ⟨0, false, 128, 0, .nothing, false, false⟩] }) []);
    x.withDram { x.dram with struck := [(wordKey 1 72, 0x30)] }), 1, 72, 1, ⟨0, false, 64, 0, .nothing, false, false⟩, [⟨0, false, 128,
    0, .nothing, false, false⟩], by decide +kernel⟩

theorem witness_DramCommandsReadsAndErrors_18 :
    ∃ (s : State) (ch : Nat) (a : Nat) (x : Nat) (y : Nat) (r : Req) (rest : List Req), (s.chan ch).inFlight = r :: rest ∧ s.rd
      F.DMC_CH_STATUS.LOST ch = 0 ∧ s.dram.log.length < 32 ∧ a ∈ burstWords r.addr ∧ symbolsHit (s.wordError ch a) = [x, y] ∧ ((∀ b ∈
      burstWords r.addr, b ≠ a → s.wordError ch b = 0)) :=
  ⟨(let x := (drS
    ({ Channel.idle with inFlight := [⟨0, false, 64, 0, .serve 9, false, false⟩, ⟨0, false, 128, 0, .nothing, false, false⟩] })
    []).setPkt 9 { qP with reads := 1 }; x.withDram { x.dram with struck := [(wordKey 1 72, 0x31)] }), 1, 72, 0, 1, ⟨0, false, 64, 0,
    .serve 9, false, false⟩, [⟨0, false, 128, 0, .nothing, false, false⟩], by decide +kernel⟩

theorem witness_DramCommandsReadsAndErrors_19 :
    ∃ (s : State) (ch : Nat) (r : Req) (rest : List Req), (s.chan ch).inFlight = r :: rest ∧ s.rd F.DMC_CH_STATUS.LOST ch = 1 ∧ ((∀ a ∈
      burstWords r.addr, (symbolsHit (s.wordError ch a)).length < 3)) :=
  ⟨(drS ({ Channel.idle with inFlight := [⟨0, false, 64, 0, .serve 9, false, false⟩, ⟨0, false, 128, 0, .nothing, false, false⟩] })
    [(F.DMC_CH_STATUS.LOST, 1, 1)]).setPkt 9 { qP with reads := 1 }, 1, ⟨0, false, 64, 0, .serve 9, false, false⟩, [⟨0, false, 128, 0,
    .nothing, false, false⟩], by decide +kernel⟩

theorem witness_DramCommandsReadsAndErrors_20 :
    ∃ (s : State) (ch : Nat) (a : Nat) (e : Nat), ch < 16 ∧ s.rd F.DMC_ERR_CFG.SCRUB_PERIOD = 0 :=
  ⟨drS Channel.idle [(F.DMC_ERR_CFG.SCRUB_PERIOD, 0, 0)], 1, 64, 3, by decide +kernel⟩

theorem witness_DramCommandsReadsAndErrors_21 :
    ∃ (s : State) (ch : Nat) (d : Nat), ch < 16 ∧ d < (if s.rd F.DMC_CFG.DEV_WIDTH = 1 then 10 else 20) ∧ s.rd
      F.DMC_ERR_CFG.SCRUB_PERIOD = 0 ∧ s.dram.dead = [] :=
  ⟨drS Channel.idle [(F.DMC_ERR_CFG.SCRUB_PERIOD, 0, 0), (F.DMC_CFG.DEV_WIDTH, 0, 1)], 1, 3, by decide +kernel⟩

theorem witness_DramCommandsReadsAndErrors_22 :
    ∃ (s : State) (ch : Nat) (due : Nat), ch < 16 ∧ s.chanServes ch = true ∧ (s.chan ch).requests = [] ∧ s.rd F.DMC_ERR_CFG.SCRUB_PERIOD
      ≠ 0 ∧ ((∀ a ∈ burstWords (s.chan ch).scrubPtr, s.wordError ch a = 0)) ∧ due < 2 ^ 80 ∧ due = max (s.chan ch).scrubAt s.fab.startAt
      + ms (3600000 * s.rd F.DMC_ERR_CFG.SCRUB_PERIOD) / (s.chanBytes / 64) :=
  ⟨drS ({ Channel.idle with scrubPtr := 64 }) [(F.DMC_ERR_CFG.SCRUB_PERIOD, 0, 3)], 1, max ((drS ({ Channel.idle with scrubPtr := 64 })
    [(F.DMC_ERR_CFG.SCRUB_PERIOD, 0, 3)]).chan 1).scrubAt (drS ({ Channel.idle with scrubPtr := 64 }) [(F.DMC_ERR_CFG.SCRUB_PERIOD, 0,
    3)]).fab.startAt + ms (3600000 * 3) / ((drS ({ Channel.idle with scrubPtr := 64 }) [(F.DMC_ERR_CFG.SCRUB_PERIOD, 0, 3)]).chanBytes /
    64), by decide +kernel⟩

theorem witness_DramCommandsReadsAndErrors_23 :
    ∃ (s : State), s.takes .DMC_ERR_POP = true :=
  ⟨up.withDram { up.dram with log := [1, 3] }, by decide +kernel⟩

theorem witness_DramCommandsReadsAndErrors_24 :
    ∃ (s : State) (ch : Nat) (cause : Nat), cause ≠ 1 :=
  ⟨drS Channel.idle [], 1, 2, by decide +kernel⟩

theorem witness_DramCommandsReadsAndErrors_25 :
    ∃ (s : State) (ch : Nat) (lim : Nat), s.chanLives ch = true ∧ lim = s.rd F.DMC_ERR_CFG.UE_LOST ∧ ((lim = 0 ∨ ((s.chan
      ch).ueAt.filter (fun t => decide (s.now < t + ms 1000))).length < lim)) :=
  ⟨drS ({ Channel.idle with ueAt := [0] }) [(F.DMC_ERR_CFG.UE_LOST, 0, 2)], 1, 2, by decide +kernel⟩

theorem witness_DramCommandsReadsAndErrors_26 :
    ∃ (s : State) (ch : Nat) (lim : Nat), s.chanLives ch = true ∧ lim = s.rd F.DMC_ERR_CFG.UE_LOST ∧ lim ≠ 0 ∧ lim ≤ ((s.chan
      ch).ueAt.filter (fun t => decide (s.now < t + ms 1000))).length :=
  ⟨drS ({ Channel.idle with ueAt := [0, 0] }) [(F.DMC_ERR_CFG.UE_LOST, 0, 2)], 1, 2, by decide +kernel⟩

theorem witness_DramCommandsReadsAndErrors_27 :
    ∃ (s : State) (ch : Nat) (k : Nat), s.chanLives ch = true :=
  ⟨drS Channel.idle [], 1, 3, by decide +kernel⟩

theorem witness_DramTrainingAndFrequencyChange_1 :
    ∃ (s : State) (failed : List Nat) (ch : Nat), ((s.rd F.DMC_FREQ_STATUS.STATE = 0 ∨ s.rd F.DMC_FREQ_STATUS.STATE = 4)) ∧ s.chanLives
      ch = true ∧ s.rd F.DMC_CH_STATUS.UP ch = 0 :=
  ⟨drS Channel.idle [(F.DMC_TEMP.TEMP, 0, 50), (F.DMC_CH_STATUS.UP, 1, 0)], [1], 1, by decide +kernel⟩

theorem witness_DramTrainingAndFrequencyChange_2 :
    ∃ (s : State) (ch : Nat), s.chanLives ch = true ∧ s.rd F.DMC_CH_STATUS.UP ch = 1 ∧ s.training = false ∧ ((s.rd
      F.DMC_FREQ_STATUS.STATE = 0 ∨ s.rd F.DMC_FREQ_STATUS.STATE = 4)) ∧ 0 < (s.chan ch).steps :=
  ⟨drS ({ Channel.idle with steps := 2 }) [], 1, by decide +kernel⟩

theorem witness_DramTrainingAndFrequencyChange_3 :
    ∃ (s : State) (ch : Nat), s.chanLives ch = true ∧ s.rd F.DMC_CH_STATUS.UP ch = 1 ∧ s.training = false ∧ ((s.rd
      F.DMC_FREQ_STATUS.STATE = 0 ∨ s.rd F.DMC_FREQ_STATUS.STATE = 4)) ∧ (s.chan ch).steps = 0 ∧ s.tempMoved ch = true :=
  ⟨drS ({ Channel.idle with steps := 0 }) [(F.DMC_TEMP.TEMP, 0, 50), (F.DMC_TRAIN_CFG.TEMP_DELTA, 0, 8)], 1, by decide +kernel⟩

theorem witness_DramTrainingAndFrequencyChange_4 :
    ∃ (s : State) (ch : Nat), s.chanLives ch = true ∧ s.rd F.DMC_CH_STATUS.UP ch = 1 ∧ s.training = false ∧ ((s.rd
      F.DMC_FREQ_STATUS.STATE = 0 ∨ s.rd F.DMC_FREQ_STATUS.STATE = 4)) ∧ (s.chan ch).steps = 0 ∧ s.tempMoved ch = false ∧ s.rd
      F.DMC_TRAIN_CFG.PERIODIC_EN = 1 ∧ (s.chan ch).periodicAt + ms 128 < 2 ^ 80 :=
  ⟨drS ({ Channel.idle with periodicAt := 7 }) [(F.DMC_TRAIN_CFG.PERIODIC_EN, 0, 1), (F.DMC_TRAIN_CFG.TEMP_DELTA, 0, 8),
    (F.DMC_TEMP.TEMP, 0, 50), (F.DMC_CH_STATUS.TEMP_AT_TRAIN, 1, 50)], 1, by decide +kernel⟩

theorem witness_DramTrainingAndFrequencyChange_5 :
    ∃ (s : State) (ch : Nat), s.rd F.DMC_CH_STATUS.TRAINING ch = 1 ∧ ((s.rd F.DMC_FREQ_STATUS.STATE = 0 ∨ s.rd F.DMC_FREQ_STATUS.STATE =
      4)) :=
  ⟨drS ({ Channel.idle with steps := 1 }) [(F.DMC_CH_STATUS.TRAINING, 1, 1)], 1, by decide +kernel⟩

theorem witness_DramTrainingAndFrequencyChange_6 :
    ∃ (s : State) (ch : Nat), s.rd F.DMC_CH_STATUS.TRAINING ch = 1 ∧ s.rd F.DMC_FREQ_STATUS.STATE = 1 :=
  ⟨drS ({ Channel.idle with steps := 3 }) [(F.DMC_CH_STATUS.TRAINING, 1, 1), (F.DMC_FREQ_STATUS.STATE, 0, 1)], 1, by decide +kernel⟩

theorem witness_DramTrainingAndFrequencyChange_7 :
    ∃ (s : State) (v : Nat), v < 4 ∧ s.takes .DMC_FREQ_CTRL = true ∧ s.speedOk v = false :=
  ⟨drS Channel.idle [(F.DMC_CFG.RANKS, 0, 1)], 3, by decide +kernel⟩

theorem witness_DramTrainingAndFrequencyChange_8 :
    ∃ (s : State) (v : Nat), v < 4 ∧ s.takes .DMC_FREQ_CTRL = true ∧ s.speedOk v = true ∧ ((s.rd F.DMC_FREQ_STATUS.STATE = 0 ∨ s.rd
      F.DMC_FREQ_STATUS.STATE = 4)) ∧ v = s.rd F.DMC_FREQ_STATUS.CURRENT :=
  ⟨st [(F.DMC_FREQ_STATUS.STATE, 0, 4)], (st [(F.DMC_FREQ_STATUS.STATE, 0, 4)]).rd F.DMC_FREQ_STATUS.CURRENT, by decide +kernel⟩

theorem witness_DramTrainingAndFrequencyChange_9 :
    ∃ (s : State) (v : Nat), v < 4 ∧ s.takes .DMC_FREQ_CTRL = true ∧ s.speedOk v = true ∧ ((s.rd F.DMC_FREQ_STATUS.STATE = 0 ∨ s.rd
      F.DMC_FREQ_STATUS.STATE = 4)) ∧ v ≠ s.rd F.DMC_FREQ_STATUS.CURRENT :=
  ⟨drS Channel.idle [(F.DMC_FREQ_STATUS.CURRENT, 0, 2)], 1, by decide +kernel⟩

theorem witness_DramTrainingAndFrequencyChange_10 :
    ∃ (s : State) (v : Nat), v < 4 ∧ s.takes .DMC_FREQ_CTRL = true ∧ s.speedOk v = true ∧ ((s.rd F.DMC_FREQ_STATUS.STATE = 1 ∨ s.rd
      F.DMC_FREQ_STATUS.STATE = 2)) :=
  ⟨drS Channel.idle [(F.DMC_FREQ_STATUS.STATE, 0, 1)], 1, by decide +kernel⟩

theorem witness_DramTrainingAndFrequencyChange_11 :
    ∃ (s : State) (v : Nat), v < 4 ∧ s.takes .DMC_FREQ_CTRL = true ∧ s.speedOk v = true ∧ s.rd F.DMC_FREQ_STATUS.STATE = 3 :=
  ⟨drS Channel.idle [(F.DMC_FREQ_STATUS.STATE, 0, 3)], 1, by decide +kernel⟩

theorem witness_DramTrainingAndFrequencyChange_12 :
    ∃ (s : State), s.rd F.DMC_FREQ_STATUS.STATE = 2 ∧ ((∀ ch, ch < 16 → s.chanLives ch = true → (s.chan ch).inFlight = [])) :=
  ⟨drS Channel.idle [(F.DMC_FREQ_STATUS.STATE, 0, 2)], by decide +kernel⟩

theorem witness_DramTrainingAndFrequencyChange_13 :
    ∃ (s : State) (bad : List Nat), s.rd F.DMC_FREQ_STATUS.STATE = 3 ∧ s.dram.goHeld = false ∧ s.rd F.TLY_CNT_ACC.BUSY = 0 ∧ bad = [] :=
  ⟨drS Channel.idle [(F.DMC_FREQ_STATUS.STATE, 0, 3), (F.DMC_FREQ_STATUS.PENDING, 0, 2)], [], by decide +kernel⟩

theorem witness_DramTrainingAndFrequencyChange_14 :
    ∃ (s : State) (bad : List Nat), s.rd F.DMC_FREQ_STATUS.STATE = 3 ∧ s.dram.goHeld = false ∧ s.rd F.TLY_CNT_ACC.BUSY = 0 ∧ ((∃ ch ∈
      bad, s.chanLives ch = true)) :=
  ⟨drS Channel.idle [(F.DMC_FREQ_STATUS.STATE, 0, 3), (F.DMC_FREQ_STATUS.PENDING, 0, 2)], [1], by decide +kernel⟩

theorem witness_DramTrainingAndFrequencyChange_15 :
    ∃ (s : State) (bad : List Nat) (ch : Nat), s.rd F.DMC_FREQ_STATUS.STATE = 3 ∧ s.dram.goHeld = false ∧ ch ∈ bad ∧ s.chanLives ch =
      true ∧ s.rd F.TLY_CNT_ACC.BUSY = 0 :=
  ⟨drS Channel.idle [(F.DMC_FREQ_STATUS.STATE, 0, 3), (F.DMC_FREQ_STATUS.PENDING, 0, 2)], [1], 1, by decide +kernel⟩

theorem witness_LanesComeUpSpeakAndGoDown_1 :
    ∃ (s : State) (l : Nat), l < 96 ∧ s.fabMode ≠ 0 ∧ s.laneEn l = true :=
  ⟨fbS [(F.FAB_LANE_STATUS.UP, 3, 0)], 3, by decide +kernel⟩

theorem witness_LanesComeUpSpeakAndGoDown_2 :
    ∃ (s : State) (l : Nat), l < 96 ∧ s.rd F.FAB_LANE_STATUS.UP l = 1 :=
  ⟨fbS [], 3, by decide +kernel⟩

theorem witness_LanesComeUpSpeakAndGoDown_3 :
    ∃ (s : State) (w : Nat) (v : Nat), w < 2 ∧ s.takes .FAB_LANE_EN = true :=
  ⟨fbS [], 0, 16, by decide +kernel⟩

theorem witness_LanesComeUpSpeakAndGoDown_4 :
    ∃ (s : State) (l : Nat) (o : List Byte) (w : Swatch), l < 96 ∧ s.fabMode ≠ 0 ∧ s.laneEn l = true ∧ s.rd F.FAB_LANE_STATUS.UP l = 1 ∧
      w = swatchOf o ∧ w.good = true ∧ w.kind = 3 ∧ w.cls < 2 :=
  ⟨fbS [], 3, (Swatch.octets ⟨checked (hdrHead 3 5 9 + 1 * 2 ^ 101 + 2 ^ 84), padTo 256 []⟩), swatchOf ((Swatch.octets ⟨checked (hdrHead
    3 5 9 + 1 * 2 ^ 101 + 2 ^ 84), padTo 256 []⟩)), by decide +kernel⟩

theorem witness_LanesComeUpSpeakAndGoDown_5 :
    ∃ (s : State) (l : Nat) (o : List Byte) (e : Instr), e ∈ [Instr.swatchReceive l o, .creditSwatchReceive l o, .linkControlReceive l
      o] ∧ l < 96 ∧ s.fabMode ≠ 0 ∧ s.laneEn l = true ∧ s.rd F.FAB_LANE_STATUS.UP l = 1 ∧ (swatchOf o).good = false :=
  ⟨fbS [], 3, [1], .swatchReceive 3 [1], by decide +kernel⟩

theorem witness_LanesComeUpSpeakAndGoDown_6 :
    ∃ (s : State), s.fabMode ≠ 0 ∧ s.fab.reachAt + us 100 < 2 ^ 80 :=
  ⟨fbS [], by decide +kernel⟩

theorem witness_LanesComeUpSpeakAndGoDown_7 :
    ∃ (s : State) (l : Nat) (w : Swatch) (ws : List Swatch), l < 96 ∧ s.fabMode ≠ 0 ∧ s.laneEn l = true ∧ s.fabSpeaks = true ∧ s.halted
      = false ∧ (s.lane l).pos ≠ 19 ∧ (s.lane l).relayData = w :: ws :=
  ⟨((fbS []).setLane 3 { Lane.idle with pos := 18, relayData := [⟨checked (hdrHead 3 5 9 + 1 * 2 ^ 101 + 2 ^ 84), padTo 256 []⟩] }), 3,
    ⟨checked (hdrHead 3 5 9 + 1 * 2 ^ 101 + 2 ^ 84), padTo 256 []⟩, [], by decide +kernel⟩

theorem witness_LanesComeUpSpeakAndGoDown_8 :
    ∃ (s : State) (l : Nat) (w : Swatch) (ws : List Swatch), l < 96 ∧ s.fabMode ≠ 0 ∧ s.laneEn l = true ∧ s.fabSpeaks = true ∧ s.halted
      = false ∧ (s.lane l).pos = 19 ∧ (s.lane l).relayCred = w :: ws :=
  ⟨((fbS []).setLane 3 { Lane.idle with pos := 19, relayCred := [⟨checked (hdrHead 3 5 9 + 1 * 2 ^ 101 + 2 ^ 84), padTo 256 []⟩] }), 3,
    ⟨checked (hdrHead 3 5 9 + 1 * 2 ^ 101 + 2 ^ 84), padTo 256 []⟩, [], by decide +kernel⟩

theorem witness_LanesComeUpSpeakAndGoDown_9 :
    ∃ (s : State) (l : Nat) (w : Swatch) (ws : List Swatch), l < 96 ∧ s.fabMode ≠ 0 ∧ s.laneEn l = true ∧ s.fabSpeaks = true ∧ s.halted
      = false ∧ (s.lane l).pos ≠ 19 ∧ (s.lane l).relayData = [] ∧ (s.lane l).tx = w :: ws ∧ s.fab.again = [] ∧ s.fab.building = [] :=
  ⟨((fbS []).setLane 3 { Lane.idle with pos := 18, tx := [⟨checked (hdrHead 3 5 9 + 1 * 2 ^ 101 + 2 ^ 84), padTo 256 []⟩] }), 3,
    ⟨checked (hdrHead 3 5 9 + 1 * 2 ^ 101 + 2 ^ 84), padTo 256 []⟩, [], by decide +kernel⟩

theorem witness_LanesComeUpSpeakAndGoDown_10 :
    ∃ (s : State) (l : Nat) (w : Swatch) (ws : List Swatch), l < 96 ∧ s.fabMode ≠ 0 ∧ s.laneEn l = true ∧ s.fabSpeaks = true ∧ s.halted
      = false ∧ (s.lane l).pos = 19 ∧ (s.lane l).relayCred = [] ∧ (s.lane l).credits = w :: ws :=
  ⟨((fbS []).setLane 3 { Lane.idle with pos := 19, credits := [⟨checked (hdrHead 3 5 9 + 1 * 2 ^ 101 + 2 ^ 84), padTo 256 []⟩] }), 3,
    ⟨checked (hdrHead 3 5 9 + 1 * 2 ^ 101 + 2 ^ 84), padTo 256 []⟩, [], by decide +kernel⟩

theorem witness_LanesComeUpSpeakAndGoDown_11 :
    ∃ (s : State) (l : Nat), l < 96 ∧ s.fabMode ≠ 0 ∧ s.laneEn l = true ∧ ((s.fabSpeaks = false ∨ s.halted = true)) :=
  ⟨(fbS []).withFab { (fbS []).fab with quiet := none }, 3, by decide +kernel⟩

theorem witness_SwatchesCreditsAndStreams_1 :
    ∃ (s : State) (d : Nat) (c : Nat) (k : Nat) (q : Nat) (rest : List Nat) (p : Pkt) (x : Cand), s.fabSpeaks = true ∧ s.halted = false
      ∧ s.fab.again = [] ∧ s.fab.building = [] ∧ pick s.classCands = some x ∧ x.idx = c ∧ d = ((s.classDests c).find? (fun d => decide
      (Sparse.read 0 s.sched.lastMod c < d))).getD ((s.classDests c).headD 0) ∧ q = voqBase + 8 * d + c ∧ (s.queue q).head = k :: rest ∧
      (s.queue q).copies = [] ∧ s.pkt k = some p ∧ p.voq = 8 * d + c ∧ swatchCount p.length ≤ 8 :=
  ⟨((fbS [(F.PAL_CLASS_CFG.CEIL, 0, 9)]).setLane 3 { Lane.idle with heard := true, bits := 2 ^ 5 }).setQueue (voqBase + 8 * 5 + 2)
    { Queue.idle with state := 2, depth := 60, head := [4], cred := 1 } |>.setPkt 4
    { qP with loc := .voq 42, carry := { qP.carry with cls := 2, destMod := 5 } } |> fun (u : State) => u.withSched
    { u.sched with voqCfg := [(42, 1)] }, 5, 2, 4, (voqBase + 8 * 5 + 2), [],
    { qP with loc := .voq 42, carry := { qP.carry with cls := 2, destMod := 5 } }, ⟨2, false, 0, 0⟩, by decide +kernel⟩

theorem witness_SwatchesCreditsAndStreams_2 :
    ∃ (s : State), ((s.fabSpeaks = false ∨ s.halted = true)) :=
  ⟨(fbS []).withFab { (fbS []).fab with quiet := none }, by decide +kernel⟩

theorem witness_SwatchesCreditsAndStreams_3 :
    ∃ (s : State) (d : Nat) (c : Nat), d < 2048 ∧ c < 8 ∧ d ≠ s.own ∧ s.fabSpeaks = true ∧ s.peerMarked d = true ∧ s.rd
      F.FAB_DEST_STATUS.EPOCH_KNOWN d = 1 ∧ (s.stream (8 * d + c)).out < s.rd F.FAB_CRED_CFG.WINDOW c ∧ s.rd F.PAL_CLASS_STATUS.USED 2 ≤
      s.rd F.FAB_RX_CFG.STOP_LEVEL :=
  ⟨fbS [(F.FAB_CRED_CFG.WINDOW, 2, 3)], 5, 2, by decide +kernel⟩

theorem witness_SwatchesCreditsAndStreams_4 :
    ∃ (s : State) (due : Nat), due = s.fab.refreshAt + us (s.rd F.FAB_RX_CFG.REFRESH) ∧ due < 2 ^ 80 :=
  ⟨fbS [], us ((fbS []).rd F.FAB_RX_CFG.REFRESH), by decide +kernel⟩

theorem witness_SwatchesCreditsAndStreams_5 :
    ∃ (s : State) (l : Nat) (d : Nat) (m : Nat) (st : Nat) (o : List Byte) (w : Swatch) (diff : BitVec 32), l < 96 ∧ s.fabMode ≠ 0 ∧
      s.laneEn l = true ∧ s.rd F.FAB_LANE_STATUS.UP l = 1 ∧ w = swatchOf o ∧ w.good = true ∧ w.kind = 2 ∧ w.dst = s.own ∧ w.src = d ∧
      s.rd F.FAB_DEST_STATUS.EPOCH_KNOWN d = 1 ∧ s.rd F.FAB_DEST_STATUS.PEER_EPOCH d = natBE (w.payload.take 1) ∧ natBE ((w.payload.drop
      1).take 1) = 1 ∧ m = natBE ((w.payload.drop 8).take 8) ∧ bitsOf m 52 8 = s.rd F.FAB_CFG.EPOCH ∧ st = 8 * d + bitsOf m 61 3 ∧ diff
      = BitVec.ofNat 32 m - Sparse.read 0 s.fab.lasts st ∧ diff.msb = false :=
  ⟨fbS [(F.FAB_DEST_STATUS.PEER_EPOCH, 5, 3), (F.FAB_CFG.EPOCH, 0, 4)], 3, 5, 2 * 2 ^ 61 + 4 * 2 ^ 52 + 9, 42, (⟨checked (hdrHead 2 5
    1), padTo 256 ([3, 1, 0, 0, 0, 0, 0, 0] ++ octetsBE 8 (2 * 2 ^ 61 + 4 * 2 ^ 52 + 9))⟩ : Swatch).octets, swatchOf ((⟨checked (hdrHead
    2 5 1), padTo 256 ([3, 1, 0, 0, 0, 0, 0, 0] ++ octetsBE 8 (2 * 2 ^ 61 + 4 * 2 ^ 52 + 9))⟩ : Swatch).octets), 9, by decide +kernel⟩

theorem witness_SwatchesCreditsAndStreams_6 :
    ∃ (s : State) (l : Nat) (st : Nat) (off : Nat) (o : List Byte) (w : Swatch) (s1 : _) (p : _), l < 96 ∧ s.fabMode ≠ 0 ∧ s.halted =
      false ∧ s.laneEn l = true ∧ s.rd F.FAB_LANE_STATUS.UP l = 1 ∧ w = swatchOf o ∧ w.good = true ∧ w.kind = 0 ∧ w.dst = s.own ∧ st = 8
      * w.src + w.cls ∧ s.rd F.FAB_DEST_STATUS.EPOCH_KNOWN w.src = 1 ∧ off = (s.stream st).off w.seq ∧ off = 0 ∧ w.first = true ∧ w.last
      = true ∧ (s.stream st).held = [] ∧ s.reorderUsed < 131072 ∧ s.palAlloc 2 3 0 = (s1, some p) :=
  ⟨fbS [(F.PAL_CLASS_CFG.CEIL, 2, 100)], 3, 42, 0, (dataSwatch 5 1 2 0 0 1 qP).octets, swatchOf ((dataSwatch 5 1 2 0 0 1 qP).octets),
    (((fbS [(F.PAL_CLASS_CFG.CEIL, 2, 100)])).palAlloc 2 3 0).1, (((fbS [(F.PAL_CLASS_CFG.CEIL, 2, 100)])).palAlloc 2 3 0).2.getD 0,
    by decide +kernel⟩

theorem witness_SwatchesCreditsAndStreams_7 :
    ∃ (s : State) (l : Nat) (st : Nat) (off : Nat) (o : List Byte) (w : Swatch) (s1 : _), l < 96 ∧ s.fabMode ≠ 0 ∧ s.halted = false ∧
      s.laneEn l = true ∧ s.rd F.FAB_LANE_STATUS.UP l = 1 ∧ w = swatchOf o ∧ w.good = true ∧ w.kind = 0 ∧ w.dst = s.own ∧ st = 8 * w.src
      + w.cls ∧ s.rd F.FAB_DEST_STATUS.EPOCH_KNOWN w.src = 1 ∧ off = (s.stream st).off w.seq ∧ off < 8192 ∧ (s.stream st).held.any (fun
      h => h.seq == w.seq) = false ∧ s.reorderUsed < 131072 ∧ s.palAlloc 2 3 0 = (s1, none) :=
  ⟨fbS [(F.PAL_CLASS_CFG.CEIL, 2, 0)], 3, 42, 0, (dataSwatch 5 1 2 0 0 1 qP).octets, swatchOf ((dataSwatch 5 1 2 0 0 1 qP).octets),
    (((fbS [(F.PAL_CLASS_CFG.CEIL, 2, 0)])).palAlloc 2 3 0).1, by decide +kernel⟩

theorem witness_SwatchesCreditsAndStreams_8 :
    ∃ (s : State) (l : Nat) (st : Nat) (off : Nat) (o : List Byte) (w : Swatch), l < 96 ∧ s.fabMode ≠ 0 ∧ s.halted = false ∧ s.laneEn l
      = true ∧ s.rd F.FAB_LANE_STATUS.UP l = 1 ∧ w = swatchOf o ∧ w.good = true ∧ w.kind = 0 ∧ w.dst = s.own ∧ st = 8 * w.src + w.cls ∧
      s.rd F.FAB_DEST_STATUS.EPOCH_KNOWN w.src = 1 ∧ off = (s.stream st).off w.seq ∧ 32768 ≤ off :=
  ⟨fbS [], 3, 42, 32768, (dataSwatch 5 1 2 32768 0 1 qP).octets, swatchOf ((dataSwatch 5 1 2 32768 0 1 qP).octets), by decide +kernel⟩

theorem witness_SwatchesCreditsAndStreams_9 :
    ∃ (s : State) (src : Nat) (cls : Nat) (st : Nat) (due : Nat) (off : Nat) (h : Held), src < 2048 ∧ cls < 8 ∧ st = 8 * src + cls ∧
      (s.stream st).held = [h] ∧ (s.stream st).refused = [] ∧ (s.stream st).since ≠ none ∧ (s.stream st).deadline = some due ∧ due < 2 ^
      80 ∧ h.sw.first = false ∧ off = (s.stream st).off h.seq :=
  ⟨(fbS []).setStream 42
    { Stream.idle with held := [⟨3, 0, 7, (dataSwatch 5 1 2 3 1 2 { qP with data := List.replicate 300 1 })⟩], deadline := some 9, since := some 0 },
    5, 2, 42, 9, 3, ⟨3, 0, 7, (dataSwatch 5 1 2 3 1 2 { qP with data := List.replicate 300 1 })⟩, by decide +kernel⟩

theorem witness_SwatchesCreditsAndStreams_10 :
    ∃ (s : State) (d : Nat) (due : Nat), d < 2048 ∧ d ≠ s.own ∧ s.fabMode ≠ 0 ∧ s.rd F.FAB_DEST_STATUS.REACHABLE d = 0 ∧ d ∉ s.fab.gone
      ∧ due = s.unreachSince d + us (s.rd F.FAB_RX_CFG.UNREACH) ∧ due < 2 ^ 80 :=
  ⟨(fbS [(F.FAB_DEST_STATUS.REACHABLE, 5, 0)]), 5, (fbS [(F.FAB_DEST_STATUS.REACHABLE, 5, 0)]).unreachSince 5 + us ((fbS []).rd
    F.FAB_RX_CFG.UNREACH), by decide +kernel⟩

theorem witness_TreesAndEntriesAreEnabled_1 :
    ∃ (s : State) (n : Nat) (v : Nat), n < 48 ∧ s.takes .LOOM_TREE_CFG = true ∧ s.rd F.LOOM_TREE_CFG.EN n = 0 ∧ s.treeRefused n (setBits
      v 0 1 1) = false :=
  ⟨(st [(F.ETH_OCTET_CFG.MODE, 0, 1), (F.LOOM_OPT_CFG.GUARD, 2, 64)]).withEasel { up.easel with mLoom0 := some 1 }, 2, (20 * 2 ^ 16 + 5
    * 2 ^ 8), by decide +kernel⟩

theorem witness_TreesAndEntriesAreEnabled_2 :
    ∃ (s : State) (n : Nat) (v : Nat), n < 48 ∧ s.takes .LOOM_TREE_CFG = true ∧ s.rd F.LOOM_TREE_CFG.EN n = 0 ∧ s.treeRefused n (setBits
      v 0 1 1) = true :=
  ⟨up, 47, (20 * 2 ^ 16 + 5 * 2 ^ 8), by decide +kernel⟩

theorem witness_TreesAndEntriesAreEnabled_3 :
    ∃ (s : State) (n : Nat) (v : Nat) (e : Instr × Nat), e ∈ [(Instr.treeEnable n v, 1), (.treeDisable n v, 0)] ∧ n < 48 ∧ s.takes
      .LOOM_TREE_CFG = true ∧ s.rd F.LOOM_TREE_CFG.EN n = e.2 ∧ ((e.2 = 1 → s.treeChanges n (setBits v 0 1 1) = false)) :=
  ⟨(st [(F.LOOM_TREE_CFG.EN, 2, 1), (F.LOOM_TREE_CFG.MIN_KM, 2, 0), (F.LOOM_TREE_CFG.DIFF_KM, 2, 20), (F.LOOM_OPT_CFG.GUARD, 2, 64)]),
    2, 20 * 2 ^ 16, (.treeEnable 2 (20 * 2 ^ 16), 1), by decide +kernel⟩

theorem witness_TreesAndEntriesAreEnabled_4 :
    ∃ (s : State) (n : Nat) (v : Nat) (e : Instr), e ∈ [Instr.treeEnable n v, .treeDisable n v] ∧ n < 48 ∧ s.takes .LOOM_TREE_CFG = true
      ∧ s.rd F.LOOM_TREE_CFG.EN n = 1 ∧ s.treeChanges n (setBits v 0 1 0) = true :=
  ⟨(st [(F.LOOM_TREE_CFG.EN, 2, 1), (F.LOOM_TREE_CFG.MIN_KM, 2, 0), (F.LOOM_TREE_CFG.DIFF_KM, 2, 20), (F.LOOM_OPT_CFG.GUARD, 2, 64)]),
    2, 4, .treeDisable 2 4, by decide +kernel⟩

theorem witness_TreesAndEntriesAreEnabled_5 :
    ∃ (s : State) (n : Nat) (v : Nat), n < 48 ∧ s.takes .LOOM_TREE_CFG = true ∧ s.rd F.LOOM_TREE_CFG.EN n = 1 ∧ s.treeChanges n (setBits
      v 0 1 0) = false :=
  ⟨((st [(F.LOOM_TREE_CFG.EN, 2, 1), (F.LOOM_TREE_CFG.MIN_KM, 2, 0), (F.LOOM_TREE_CFG.DIFF_KM, 2, 20), (F.LOOM_OPT_CFG.GUARD, 2, 64),
    (F.LOOM_ONU.STATE, 517, 3), (F.LOOM_ONU.SN, 517, 9), (F.LOOM_TREE_STATUS.UP, 2, 1), (F.SCH_PNODE_CFG.EN, 1, 1),
    (F.SCH_PNODE_CFG.KIND, 1, 1), (F.SCH_PNODE_CFG.TARGET, 1, 2), (F.SCH_PNODE_STATUS.STATE, 1, 1)]).setTree 2
    { Tree.idle with sfc := 7 }), 2, (20 * 2 ^ 16), by decide +kernel⟩

theorem witness_TreesAndEntriesAreEnabled_6 :
    ∃ (s : State) (n : Nat) (k : Nat), s.treeEn n = true ∧ (s.tree n).resetDue = k + 1 :=
  ⟨((st [(F.LOOM_TREE_CFG.EN, 2, 1), (F.LOOM_TREE_CFG.MIN_KM, 2, 0), (F.LOOM_TREE_CFG.DIFF_KM, 2, 20), (F.LOOM_OPT_CFG.GUARD, 2, 64),
    (F.LOOM_OPT_CFG.RESET_WIDTH, 2, 3)]).setTree 2 { Tree.idle with resetDue := 2 }), 2, 1, by decide +kernel⟩

theorem witness_TreesAndEntriesAreEnabled_7 :
    ∃ (s : State) (n : Nat) (i : Nat), s.treeEn n = true ∧ s.on F.LOOM_TREE_CFG.SN_EN n = true ∧ i < 256 ∧ s.couldAccept n i = true :=
  ⟨((st [(F.LOOM_TREE_CFG.EN, 2, 1), (F.LOOM_TREE_CFG.MIN_KM, 2, 0), (F.LOOM_TREE_CFG.DIFF_KM, 2, 20), (F.LOOM_OPT_CFG.GUARD, 2, 64),
    (F.LOOM_TREE_CFG.SN_EN, 2, 1), (F.LOOM_SNDIS.EN, 3, 1), (F.LOOM_SNDIS.ALL, 3, 1), (F.LOOM_ONU.STATE, 517, 6)]).setTree 2
    { Tree.idle with sfc := 7 }), 2, 0, by decide +kernel⟩

theorem witness_TreesAndEntriesAreEnabled_8 :
    ∃ (s : State) (a : Nat) (v : Nat), a < 12288 ∧ s.takes .LOOM_ALLOC = true :=
  ⟨(st [(F.LOOM_TREE_CFG.EN, 2, 1), (F.LOOM_TREE_CFG.MIN_KM, 2, 0), (F.LOOM_TREE_CFG.DIFF_KM, 2, 20), (F.LOOM_OPT_CFG.GUARD, 2, 64)]),
    12, 2 ^ 30 + 2 ^ 34, by decide +kernel⟩

theorem witness_TreesAndEntriesAreEnabled_9 :
    ∃ (s : State) (a : Nat) (v : Nat), 12288 ≤ a ∧ a < 32768 ∧ s.takes .LOOM_ALLOC = true ∧ s.rd F.LOOM_ALLOC.EN a = 0 ∧ s.allocRefused
      a (setBits v 0 1 1) = false :=
  ⟨(st [(F.LOOM_TREE_CFG.EN, 2, 1), (F.LOOM_TREE_CFG.MIN_KM, 2, 0), (F.LOOM_TREE_CFG.DIFF_KM, 2, 20), (F.LOOM_OPT_CFG.GUARD, 2, 64)]),
    12300, 2 * 2 + 1100 * 2 ^ 16 + 5 * 2 ^ 8, by decide +kernel⟩

theorem witness_TreesAndEntriesAreEnabled_10 :
    ∃ (s : State) (a : Nat) (v : Nat), 12288 ≤ a ∧ a < 32768 ∧ s.takes .LOOM_ALLOC = true ∧ s.rd F.LOOM_ALLOC.EN a = 0 ∧ s.allocRefused
      a (setBits v 0 1 1) = true ∧ bitsOf v 1 6 < 48 :=
  ⟨(st [(F.LOOM_TREE_CFG.EN, 2, 1), (F.LOOM_TREE_CFG.MIN_KM, 2, 0), (F.LOOM_TREE_CFG.DIFF_KM, 2, 20), (F.LOOM_OPT_CFG.GUARD, 2, 64)]),
    12288, 2 * 2 + 1023 * 2 ^ 16, by decide +kernel⟩

theorem witness_TreesAndEntriesAreEnabled_11 :
    ∃ (s : State) (g : Nat) (v : Nat), g < 65536 ∧ s.takes .LOOM_GEM = true ∧ s.treeEn (bitsOf v 1 6) = true ∧ 256 ≤ bitsOf v 16 16 ∧
      bitsOf v 16 16 ≠ 0xFFFF ∧ ((∀ h, s.gemFor (bitsOf v 1 6) (bitsOf v 16 16) = some h → h = g)) :=
  ⟨(st [(F.LOOM_TREE_CFG.EN, 2, 1), (F.LOOM_TREE_CFG.MIN_KM, 2, 0), (F.LOOM_TREE_CFG.DIFF_KM, 2, 20), (F.LOOM_OPT_CFG.GUARD, 2, 64)]),
    65535, 2 * 2 + 256 * 2 ^ 16 + 5 * 2 ^ 8 + 9 * 2 ^ 32, by decide +kernel⟩

theorem witness_TreesAndEntriesAreEnabled_12 :
    ∃ (s : State) (g : Nat) (v : Nat), g < 65536 ∧ s.takes .LOOM_GEM = true ∧ bitsOf v 1 6 < 48 ∧ ((s.treeEn (bitsOf v 1 6) = false ∨
      bitsOf v 16 16 < 256 ∨ bitsOf v 16 16 = 0xFFFF ∨ (∃ h, s.gemFor (bitsOf v 1 6) (bitsOf v 16 16) = some h ∧ h ≠ g))) :=
  ⟨(st [(F.LOOM_TREE_CFG.EN, 2, 1), (F.LOOM_TREE_CFG.MIN_KM, 2, 0), (F.LOOM_TREE_CFG.DIFF_KM, 2, 20), (F.LOOM_OPT_CFG.GUARD, 2, 64)]),
    65535, 2 * 2 + 255 * 2 ^ 16, by decide +kernel⟩

theorem witness_OnuRecordsFollowTheirStates_1 :
    ∃ (s : State) (n : Nat) (sn : Nat) (delay : Nat) (arrival : Int) (mic : Bool) (content : List Byte), s.treeEn n = true ∧ (s.tree
      n).snOpen ≠ none :=
  ⟨((st [(F.LOOM_TREE_CFG.EN, 2, 1), (F.LOOM_TREE_CFG.MIN_KM, 2, 0), (F.LOOM_TREE_CFG.DIFF_KM, 2, 20), (F.LOOM_OPT_CFG.GUARD, 2,
    64)]).setTree 2 { Tree.idle with snOpen := some 3 }), 2, 5, 3, 100, true, [], by decide +kernel⟩

theorem witness_OnuRecordsFollowTheirStates_2 :
    ∃ (s : State) (n : Nat) (i : Nat) (sn : Nat) (delay : Nat) (arrival : Int) (content : List Byte), s.treeEn n = true ∧ (s.tree
      n).snOpen ≠ none ∧ s.on F.LOOM_TREE_CFG.SN_MODE n = false ∧ ((∀ k, k < 64 → s.sndisFor n k = true → s.rd F.LOOM_SNDIS.SN k ≠ sn))
      ∧ ((∀ j, j < 256 → s.rd F.LOOM_ONU.SN (256 * n + j) = sn → s.onuState (256 * n + j) = 0)) ∧ i < 256 ∧ s.couldAccept n i = true ∧
      s.on F.LOOM_ONU.PROV (256 * n + i) = false ∧ ((∀ j, j < i → s.couldAccept n j = false)) :=
  ⟨((st [(F.LOOM_TREE_CFG.EN, 2, 1), (F.LOOM_TREE_CFG.MIN_KM, 2, 0), (F.LOOM_TREE_CFG.DIFF_KM, 2, 20), (F.LOOM_OPT_CFG.GUARD, 2, 64),
    (F.LOOM_ONU.STATE, 512, 3)]).setTree 2 { Tree.idle with snOpen := some 3 }), 2, 1, 5, 3, 100, [], by decide +kernel⟩

theorem witness_OnuRecordsFollowTheirStates_3 :
    ∃ (s : State) (n : Nat) (i : Nat) (arrival : Int) (phase : Nat) (gain : Nat) (content : List Byte), s.treeEn n = true ∧ i < 256 ∧
      s.onuState (256 * n + i) = 2 ∧ (s.onu (256 * n + i)).window = true ∧ (s.onu (256 * n + i)).rtdEst - (s.timing n
      F.LOOM_TREE_TIMING.RANGE_MARGIN * 16000 : Int) ≤ arrival ∧ arrival ≤ (s.onu (256 * n + i)).rtdEst + (s.timing n
      F.LOOM_TREE_TIMING.RANGE_MARGIN * 16000 : Int) ∧ (160000 * s.rd F.LOOM_TREE_CFG.MIN_KM n - 16000 : Int) ≤ arrival ∧ arrival ≤
      (160000 * (s.rd F.LOOM_TREE_CFG.MIN_KM n + s.rd F.LOOM_TREE_CFG.DIFF_KM n) + 16000 : Int) :=
  ⟨((st [(F.LOOM_TREE_CFG.EN, 2, 1), (F.LOOM_TREE_CFG.MIN_KM, 2, 0), (F.LOOM_TREE_CFG.DIFF_KM, 2, 20), (F.LOOM_OPT_CFG.GUARD, 2, 64),
    (F.LOOM_ONU.STATE, 517, 2), (F.LOOM_TREE_TIMING.RANGE_MARGIN, 2, 1), (F.LOOM_ONU.SN, 517, 77)])).setOnu 517
    { Onu.idle with window := true, rtdEst := 50000 }, 2, 5, 50100, 70, 9, [], by decide +kernel⟩

theorem witness_OnuRecordsFollowTheirStates_4 :
    ∃ (s : State) (n : Nat) (i : Nat) (k : Nat) (c : Instr) (arrival : Int) (mic : Bool) (phase : Nat) (gain : Nat) (content : List
      Byte), s.treeEn n = true ∧ i < 256 ∧ s.onuState (256 * n + i) = 2 ∧ (s.onu (256 * n + i)).window = true ∧ ((c =
      .rangingWindowClose n i ∧ k = 2 ∨ c = .rangingResponse n i arrival mic phase gain content ∧ k = 1 ∧ (s.onu (256 * n + i)).rtdEst +
      (s.timing n F.LOOM_TREE_TIMING.RANGE_MARGIN * 16000 : Int) < arrival)) :=
  ⟨((st [(F.LOOM_TREE_CFG.EN, 2, 1), (F.LOOM_TREE_CFG.MIN_KM, 2, 0), (F.LOOM_TREE_CFG.DIFF_KM, 2, 20), (F.LOOM_OPT_CFG.GUARD, 2, 64),
    (F.LOOM_ONU.STATE, 517, 2), (F.LOOM_TREE_TIMING.RANGE_MARGIN, 2, 1), (F.LOOM_ONU.SN, 517, 77)])).setOnu 517
    { Onu.idle with window := true, rtdEst := 50000 }, 2, 5, 1, .rangingResponse 2 5 66001 true 1 2 [], 66001, true, 1, 2, [],
    by decide +kernel⟩

theorem witness_OnuRecordsFollowTheirStates_5 :
    ∃ (s : State) (n : Nat) (i : Nat), s.treeEn n = true ∧ i < 256 ∧ s.onuState (256 * n + i) = 4 :=
  ⟨(st [(F.LOOM_TREE_CFG.EN, 2, 1), (F.LOOM_TREE_CFG.MIN_KM, 2, 0), (F.LOOM_TREE_CFG.DIFF_KM, 2, 20), (F.LOOM_OPT_CFG.GUARD, 2, 64),
    (F.LOOM_ONU.STATE, 517, 4), (F.LOOM_PHASE.VALID, 517, 1)]).setOnu 517 { Onu.idle with to2At := 900 }, 2, 5, by decide +kernel⟩

theorem witness_OnuRecordsFollowTheirStates_6 :
    ∃ (s : State) (n : Nat) (i : Nat) (op : Nat) (st : Nat) (c : Instr), n < 48 ∧ s.rd F.LOOM_ONU_CMD_STATUS.BUSY n = 1 ∧ s.rd
      F.LOOM_ONU_CMD.OP n = op ∧ s.rd F.LOOM_ONU_CMD.ONU n = i ∧ ((op = 1 ∧ c = .onuDeactivate n ∧ s.onuState (256 * n + i) ≠ 0 ∧
      s.onuState (256 * n + i) ≠ 6 ∧ st = 5 ∨ op = 2 ∧ c = .onuDisable n ∧ s.onuState (256 * n + i) ≠ 0 ∧ st = 6 ∨ op = 3 ∧ c =
      .onuEnable n ∧ s.onuState (256 * n + i) = 6 ∧ st = 0 ∨ op = 4 ∧ c = .onuReqReg n ∧ s.onuState (256 * n + i) = 3 ∧ st = 3)) :=
  ⟨(st [(F.LOOM_TREE_CFG.EN, 2, 1), (F.LOOM_TREE_CFG.MIN_KM, 2, 0), (F.LOOM_TREE_CFG.DIFF_KM, 2, 20), (F.LOOM_OPT_CFG.GUARD, 2, 64),
    (F.LOOM_ONU_CMD_STATUS.BUSY, 2, 1), (F.LOOM_ONU_CMD.OP, 2, 1), (F.LOOM_ONU_CMD.ONU, 2, 5), (F.LOOM_ONU.STATE, 517, 3),
    (F.LOOM_ONU.SN, 517, 77)]), 2, 5, 1, 5, .onuDeactivate 2, by decide +kernel⟩

theorem witness_OnuRecordsFollowTheirStates_7 :
    ∃ (s : State) (n : Nat) (i : Nat) (op : Nat) (c : Instr), n < 48 ∧ s.rd F.LOOM_ONU_CMD_STATUS.BUSY n = 1 ∧ s.rd F.LOOM_ONU_CMD.OP n
      = op ∧ s.rd F.LOOM_ONU_CMD.ONU n = i ∧ ((op = 1 ∧ c = .onuDeactivate n ∧ (s.onuState (256 * n + i) = 0 ∨ s.onuState (256 * n + i)
      = 6) ∨ op = 2 ∧ c = .onuDisable n ∧ s.onuState (256 * n + i) = 0 ∨ op = 3 ∧ c = .onuEnable n ∧ s.onuState (256 * n + i) ≠ 6 ∨ op =
      4 ∧ c = .onuReqReg n ∧ s.onuState (256 * n + i) ≠ 3)) :=
  ⟨(st [(F.LOOM_TREE_CFG.EN, 2, 1), (F.LOOM_TREE_CFG.MIN_KM, 2, 0), (F.LOOM_TREE_CFG.DIFF_KM, 2, 20), (F.LOOM_OPT_CFG.GUARD, 2, 64),
    (F.LOOM_ONU_CMD_STATUS.BUSY, 2, 1), (F.LOOM_ONU_CMD.OP, 2, 3), (F.LOOM_ONU_CMD.ONU, 2, 5), (F.LOOM_ONU.STATE, 517, 3),
    (F.LOOM_ONU.SN, 517, 77)]), 2, 5, 3, .onuEnable 2, by decide +kernel⟩

theorem witness_OnuRecordsFollowTheirStates_8 :
    ∃ (s : State) (n : Nat) (i : Nat) (ack : Option Nat) (content : List Byte), s.treeEn n = true ∧ i < 256 :=
  ⟨(st [(F.LOOM_TREE_CFG.EN, 2, 1), (F.LOOM_TREE_CFG.MIN_KM, 2, 0), (F.LOOM_TREE_CFG.DIFF_KM, 2, 20), (F.LOOM_OPT_CFG.GUARD, 2, 64)]),
    2, 5, none, [], by decide +kernel⟩

theorem witness_OnuRecordsFollowTheirStates_9 :
    ∃ (s : State) (n : Nat) (i : Nat) (k : Nat) (content : List Byte), s.treeEn n = true ∧ i < 256 ∧ s.rd F.LOOM_PLOAM_CFG.RING = k ∧
      s.ringFull k = false ∧ (s.host.messages.filter (fun m => m.ring == k)).length < ((s.ring k).tail - s.ringW k).toNat :=
  ⟨((st [(F.LOOM_TREE_CFG.EN, 2, 1), (F.LOOM_TREE_CFG.MIN_KM, 2, 0), (F.LOOM_TREE_CFG.DIFF_KM, 2, 20), (F.LOOM_OPT_CFG.GUARD, 2, 64),
    (F.HST_RING_CFG.SIZE_LOG2, 1, 6), (F.HST_RING_STATUS.RUN, 1, 1), (F.LOOM_PLOAM_CFG.RING, 0, 1)])).setRing 1 ⟨5, 0⟩, 2, 5, 1, [7],
    by decide +kernel⟩

theorem witness_OnuRecordsFollowTheirStates_10 :
    ∃ (s : State) (k : Nat), k < 64 ∧ s.takes .LOOM_SNDIS = true :=
  ⟨(st [(F.LOOM_TREE_CFG.EN, 2, 1), (F.LOOM_TREE_CFG.MIN_KM, 2, 0), (F.LOOM_TREE_CFG.DIFF_KM, 2, 20), (F.LOOM_OPT_CFG.GUARD, 2, 64),
    (F.LOOM_SNDIS.EN, 3, 1), (F.LOOM_SNDIS.ALL, 3, 1), (F.LOOM_SNDIS.SN, 3, 55)]), 3, by decide +kernel⟩

theorem witness_GrantsFramesAndBursts_1 :
    ∃ (s : State) (n : Nat) (a : Nat), s.treeEn n = true ∧ (s.tree n).frameAt = some a :=
  ⟨((st [(F.LOOM_TREE_CFG.EN, 2, 1), (F.LOOM_TREE_CFG.MIN_KM, 2, 0), (F.LOOM_TREE_CFG.DIFF_KM, 2, 20), (F.LOOM_OPT_CFG.GUARD, 2, 64),
    (F.LOOM_PROFILE.VALID, 8, 1), (F.LOOM_ONU.STATE, 517, 1)]).setTree 2
    { Tree.idle with frameAt := some 100, sfc := 7, xgem := [(9, 0, [1])], maps := [⟨8, [⟨8, 5, [(12300, 90)], 0, 64, 200, 0, false⟩], []⟩], special := [⟨8, 5, [], 0, 0, 0, 2, false⟩], assign := [⟨5, .assign 3, 4, 1, false, none⟩], urgent := List.replicate 9 ⟨1023, .disableSn true 3, 4, 1, false, none⟩ }),
    2, 100, by decide +kernel⟩

theorem witness_GrantsFramesAndBursts_2 :
    ∃ (s : State) (n : Nat), s.treeEn n = true ∧ (s.tree n).frameAt = none ∧ s.nextFrameAt n < 2 ^ 80 :=
  ⟨((st [(F.LOOM_TREE_CFG.EN, 2, 1), (F.LOOM_TREE_CFG.MIN_KM, 2, 0), (F.LOOM_TREE_CFG.DIFF_KM, 2, 20), (F.LOOM_OPT_CFG.GUARD, 2, 64),
    (F.SCH_PNODE_CFG.EN, 1, 1), (F.SCH_PNODE_CFG.KIND, 1, 1), (F.SCH_PNODE_CFG.TARGET, 1, 2), (F.SCH_PNODE_STATUS.STATE, 1,
    1)])).advanceTo 12345, 2, by decide +kernel⟩

theorem witness_GrantsFramesAndBursts_3 :
    ∃ (s : State) (n : Nat), s.treeEn n = true ∧ (s.tree n).frameAt ≠ none ∧ ((∀ m ∈ (s.tree n).maps, m.frame ≠ (s.tree n).sfc + 2)) :=
  ⟨(((st [(F.LOOM_TREE_CFG.EN, 2, 1), (F.LOOM_TREE_CFG.MIN_KM, 2, 0), (F.LOOM_TREE_CFG.DIFF_KM, 2, 20), (F.LOOM_OPT_CFG.GUARD, 2, 64),
    (F.LOOM_ALLOC.EN, 12300, 1), (F.LOOM_ALLOC.TREE, 12300, 2), (F.LOOM_ALLOC.ONU, 12300, 5), (F.LOOM_ALLOC.ALLOC_ID, 12300, 1100),
    (F.LOOM_ALLOC.EN, 12301, 1), (F.LOOM_ALLOC.TREE, 12301, 2), (F.LOOM_ALLOC.ONU, 12301, 6), (F.LOOM_ALLOC.ALLOC_ID, 12301, 1030),
    (F.LOOM_ALLOC.BE_MAX, 12300, 99999), (F.LOOM_ALLOC.DBRU, 12300, 1), (F.LOOM_ALLOC.FIXED, 12301, 640), (F.LOOM_ALLOC.WEIGHT, 12300,
    1), (F.LOOM_ONU.STATE, 517, 3), (F.LOOM_ONU.STATE, 518, 3), (F.LOOM_ONU.STATE, 519, 4), (F.LOOM_DBA_CFG.CYCLE, 2, 8)]).setTree 2
    { Tree.idle with frameAt := some 100, sfc := 700, cycleStart := 700, cycleLen := 8 })).setAlloc 12300
    { AllocSt.idle with total := 9000 } |>.setAlloc 12301 { AllocSt.idle with total := 90000 }, 2, by decide +kernel⟩

theorem witness_GrantsFramesAndBursts_4 :
    ∃ (s : State) (n : Nat), s.treeEn n = true ∧ (s.tree n).cycleStart + (s.tree n).cycleLen ≤ (s.tree n).sfc + 2 :=
  ⟨((st [(F.LOOM_TREE_CFG.EN, 2, 1), (F.LOOM_TREE_CFG.MIN_KM, 2, 0), (F.LOOM_TREE_CFG.DIFF_KM, 2, 20), (F.LOOM_OPT_CFG.GUARD, 2, 64),
    (F.LOOM_ALLOC.EN, 12300, 1), (F.LOOM_ALLOC.TREE, 12300, 2), (F.LOOM_ALLOC.ONU, 12300, 5), (F.LOOM_ALLOC.ALLOC_ID, 12300, 1100),
    (F.LOOM_ALLOC.EN, 12301, 1), (F.LOOM_ALLOC.TREE, 12301, 2), (F.LOOM_ALLOC.ONU, 12301, 6), (F.LOOM_ALLOC.ALLOC_ID, 12301, 1030),
    (F.LOOM_ALLOC.BE_MAX, 12300, 99999), (F.LOOM_ALLOC.DBRU, 12300, 1), (F.LOOM_ALLOC.FIXED, 12301, 640), (F.LOOM_ALLOC.WEIGHT, 12300,
    1), (F.LOOM_ONU.STATE, 517, 3), (F.LOOM_ONU.STATE, 518, 3), (F.LOOM_ONU.STATE, 519, 4), (F.LOOM_DBA_CFG.CYCLE, 2, 8)])).setAlloc
    12300 { AllocSt.idle with demand := 9000, deferred := 9 } |>.setAlloc 12301 { AllocSt.idle with granted := 90000 }, 2,
    by decide +kernel⟩

theorem witness_GrantsFramesAndBursts_5 :
    ∃ (s : State) (n : Nat) (g : Grant) (rest : List Grant) (off : Int) (bad : Nat) (phase : Nat) (gain : Nat) (reports : List (Nat ×
      Option Nat)), (s.tree n).expected = g :: rest ∧ s.grantDead g = false ∧ off.natAbs ≤ s.dba n F.LOOM_DBA_CFG.ARR_TOL * 16 ∧ (s.onu
      (256 * n + g.onu)).offsets.length < 15 :=
  ⟨(((st [(F.LOOM_TREE_CFG.EN, 2, 1), (F.LOOM_TREE_CFG.MIN_KM, 2, 0), (F.LOOM_TREE_CFG.DIFF_KM, 2, 20), (F.LOOM_OPT_CFG.GUARD, 2, 64),
    (F.LOOM_ALLOC.EN, 12300, 1), (F.LOOM_ALLOC.TREE, 12300, 2), (F.LOOM_ALLOC.ONU, 12300, 5), (F.LOOM_ALLOC.ALLOC_ID, 12300, 1100),
    (F.LOOM_ALLOC.EN, 12301, 1), (F.LOOM_ALLOC.TREE, 12301, 2), (F.LOOM_ALLOC.ONU, 12301, 6), (F.LOOM_ALLOC.ALLOC_ID, 12301, 1030),
    (F.LOOM_ALLOC.BE_MAX, 12300, 99999), (F.LOOM_ALLOC.DBRU, 12300, 1), (F.LOOM_ALLOC.FIXED, 12301, 640), (F.LOOM_ALLOC.WEIGHT, 12300,
    1), (F.LOOM_ONU.STATE, 517, 3), (F.LOOM_ONU.STATE, 518, 3), (F.LOOM_ONU.STATE, 519, 4), (F.LOOM_DBA_CFG.CYCLE, 2, 8)]).setTree 2
    { Tree.idle with expected := [⟨7, 5, [(12300, 90)], 0, 64, 200, 0, false⟩] })).wr F.LOOM_ONU.STATE 517 4, 2, ⟨7, 5, [(12300, 90)],
    0, 64, 200, 0, false⟩, [], 3, 2, 1, 2, [(7, some 9)], by decide +kernel⟩

theorem witness_GrantsFramesAndBursts_6 :
    ∃ (s : State) (n : Nat) (g : Grant) (rest : List Grant) (off : Int) (hdr : Nat) (bad : Nat) (phase : Nat) (gain : Nat) (reports :
      List (Nat × Option Nat)), (s.tree n).expected = g :: rest ∧ s.grantDead g = true :=
  ⟨(((st [(F.LOOM_TREE_CFG.EN, 2, 1), (F.LOOM_TREE_CFG.MIN_KM, 2, 0), (F.LOOM_TREE_CFG.DIFF_KM, 2, 20), (F.LOOM_OPT_CFG.GUARD, 2, 64),
    (F.LOOM_ALLOC.EN, 12300, 1), (F.LOOM_ALLOC.TREE, 12300, 2), (F.LOOM_ALLOC.ONU, 12300, 5), (F.LOOM_ALLOC.ALLOC_ID, 12300, 1100),
    (F.LOOM_ALLOC.EN, 12301, 1), (F.LOOM_ALLOC.TREE, 12301, 2), (F.LOOM_ALLOC.ONU, 12301, 6), (F.LOOM_ALLOC.ALLOC_ID, 12301, 1030),
    (F.LOOM_ALLOC.BE_MAX, 12300, 99999), (F.LOOM_ALLOC.DBRU, 12300, 1), (F.LOOM_ALLOC.FIXED, 12301, 640), (F.LOOM_ALLOC.WEIGHT, 12300,
    1), (F.LOOM_ONU.STATE, 517, 3), (F.LOOM_ONU.STATE, 518, 3), (F.LOOM_ONU.STATE, 519, 4), (F.LOOM_DBA_CFG.CYCLE, 2, 8)]).setTree 2
    { Tree.idle with expected := [⟨7, 5, [(12300, 90)], 0, 64, 200, 0, true⟩] })), 2, ⟨7, 5, [(12300, 90)], 0, 64, 200, 0, true⟩, [], 3,
    5, 2, 1, 2, [(7, some 9)], by decide +kernel⟩

theorem witness_GrantsFramesAndBursts_7 :
    ∃ (s : State) (n : Nat) (g : Grant) (rest : List Grant) (sd : Bool), (s.tree n).expected = g :: rest ∧ s.grantDead g = false :=
  ⟨(((st [(F.LOOM_TREE_CFG.EN, 2, 1), (F.LOOM_TREE_CFG.MIN_KM, 2, 0), (F.LOOM_TREE_CFG.DIFF_KM, 2, 20), (F.LOOM_OPT_CFG.GUARD, 2, 64),
    (F.LOOM_ALLOC.EN, 12300, 1), (F.LOOM_ALLOC.TREE, 12300, 2), (F.LOOM_ALLOC.ONU, 12300, 5), (F.LOOM_ALLOC.ALLOC_ID, 12300, 1100),
    (F.LOOM_ALLOC.EN, 12301, 1), (F.LOOM_ALLOC.TREE, 12301, 2), (F.LOOM_ALLOC.ONU, 12301, 6), (F.LOOM_ALLOC.ALLOC_ID, 12301, 1030),
    (F.LOOM_ALLOC.BE_MAX, 12300, 99999), (F.LOOM_ALLOC.DBRU, 12300, 1), (F.LOOM_ALLOC.FIXED, 12301, 640), (F.LOOM_ALLOC.WEIGHT, 12300,
    1), (F.LOOM_ONU.STATE, 517, 3), (F.LOOM_ONU.STATE, 518, 3), (F.LOOM_ONU.STATE, 519, 4), (F.LOOM_DBA_CFG.CYCLE, 2, 8),
    (F.LOOM_TREE_TIMING.LOB_LIMIT, 2, 1)]).setTree 2 { Tree.idle with expected := [⟨7, 5, [(12300, 90)], 0, 64, 200, 0, false⟩] })), 2,
    ⟨7, 5, [(12300, 90)], 0, 64, 200, 0, false⟩, [], true, by decide +kernel⟩

theorem witness_GrantsFramesAndBursts_8 :
    ∃ (s : State) (a : Nat), (s.alloc a).partial_ ≠ none :=
  ⟨((st [(F.LOOM_TREE_CFG.EN, 2, 1), (F.LOOM_TREE_CFG.MIN_KM, 2, 0), (F.LOOM_TREE_CFG.DIFF_KM, 2, 20), (F.LOOM_OPT_CFG.GUARD, 2, 64),
    (F.LOOM_ALLOC.EN, 12300, 1), (F.LOOM_ALLOC.TREE, 12300, 2), (F.LOOM_ALLOC.ONU, 12300, 5), (F.LOOM_ALLOC.ALLOC_ID, 12300, 1100),
    (F.LOOM_ALLOC.EN, 12301, 1), (F.LOOM_ALLOC.TREE, 12301, 2), (F.LOOM_ALLOC.ONU, 12301, 6), (F.LOOM_ALLOC.ALLOC_ID, 12301, 1030),
    (F.LOOM_ALLOC.BE_MAX, 12300, 99999), (F.LOOM_ALLOC.DBRU, 12300, 1), (F.LOOM_ALLOC.FIXED, 12301, 640), (F.LOOM_ALLOC.WEIGHT, 12300,
    1), (F.LOOM_ONU.STATE, 517, 3), (F.LOOM_ONU.STATE, 518, 3), (F.LOOM_ONU.STATE, 519, 4), (F.LOOM_DBA_CFG.CYCLE, 2, 8)])).setAlloc
    12300 { AllocSt.idle with partial_ := some (4660, [1]), burstAt := 5 }, 12300, by decide +kernel⟩

theorem witness_SubscribersAreKeptApart_1 :
    ∃ (s : State) (n : Nat) (j : Nat) (port : Nat) (idx : Nat) (c : Nat) (last : Bool) (octets : List Byte) (g : Grant) (e : Nat × Nat),
      (s.tree n).burst = some g ∧ g.allocs[j]? = some e ∧ s.gemChecks n g.frame g.onu port idx octets = .inl c :=
  ⟨(((st [(F.LOOM_TREE_CFG.EN, 2, 1), (F.LOOM_TREE_CFG.MIN_KM, 2, 0), (F.LOOM_TREE_CFG.DIFF_KM, 2, 20), (F.LOOM_OPT_CFG.GUARD, 2, 64),
    (F.LOOM_GEM.EN, 9, 1), (F.LOOM_GEM.TREE, 9, 2), (F.LOOM_GEM.PORT_ID, 9, 4660), (F.LOOM_GEM.ONU, 9, 5), (F.LOOM_GEM.SUB_CTX, 9, 5),
    (F.LOOM_ONU.STATE, 517, 3), (F.LOOM_GEM.ENC, 9, 1)]).setTree 2
    { Tree.idle with burst := some ⟨7, 5, [(12300, 90)], 0, 64, 200, 0, false⟩ })), 2, 0, 4660, 0, 2, true, [1, 2], ⟨7, 5, [(12300,
    90)], 0, 64, 200, 0, false⟩, (12300, 90), by decide +kernel⟩

theorem witness_SubscribersAreKeptApart_2 :
    ∃ (s : State) (n : Nat) (j : Nat) (port : Nat) (idx : Nat) (k : Nat) (octets : List Byte) (clear : List Byte) (g : Grant) (e : Nat ×
      Nat), (s.tree n).burst = some g ∧ g.allocs[j]? = some e ∧ s.gemChecks n g.frame g.onu port idx octets = .inr (some k, clear) ∧
      (s.alloc e.1).partial_ = none ∧ clear.length ≤ 9728 ∧ s.rd F.LOOM_ALLOC.POL_RATE e.1 = 0 ∧ s.bound k clear = true ∧ (s.mac (64 +
      n)).fill + (clear.length + 4) ≤ s.fifoSize (64 + n) :=
  ⟨(((st [(F.LOOM_TREE_CFG.EN, 2, 1), (F.LOOM_TREE_CFG.MIN_KM, 2, 0), (F.LOOM_TREE_CFG.DIFF_KM, 2, 20), (F.LOOM_OPT_CFG.GUARD, 2, 64),
    (F.LOOM_GEM.EN, 9, 1), (F.LOOM_GEM.TREE, 9, 2), (F.LOOM_GEM.PORT_ID, 9, 4660), (F.LOOM_GEM.ONU, 9, 5), (F.LOOM_GEM.SUB_CTX, 9, 5),
    (F.LOOM_ONU.STATE, 517, 3)]).setTree 2 { Tree.idle with burst := some ⟨7, 5, [(12300, 90)], 0, 64, 200, 0, false⟩ })), 2, 0, 4660,
    0, 9, List.replicate 60 3, List.replicate 60 3, ⟨7, 5, [(12300, 90)], 0, 64, 200, 0, false⟩, (12300, 90), by decide +kernel⟩

theorem witness_SubscribersAreKeptApart_3 :
    ∃ (s : State) (k : Nat) (c : Nat) (p : Pkt), s.pkt k = some p ∧ p.loc = .txFifo ∧ s.nodeKind p.node = 1 ∧ s.nodeState p.node = 1 ∧
      s.halted = false ∧ s.txReady p = true ∧ s.gemWaits (s.nodeTarget p.node) = false ∧ s.gemExitFails (s.nodeTarget p.node) (hvGet
      p.drec 0x14 2) p = some c :=
  ⟨(((st [(F.LOOM_TREE_CFG.EN, 2, 1), (F.LOOM_TREE_CFG.MIN_KM, 2, 0), (F.LOOM_TREE_CFG.DIFF_KM, 2, 20), (F.LOOM_OPT_CFG.GUARD, 2, 64),
    (F.LOOM_GEM.EN, 9, 1), (F.LOOM_GEM.TREE, 9, 2), (F.LOOM_GEM.PORT_ID, 9, 4660), (F.LOOM_GEM.ONU, 9, 5), (F.LOOM_GEM.SUB_CTX, 9, 5),
    (F.LOOM_ONU.STATE, 517, 3), (F.SCH_PNODE_CFG.EN, 1, 1), (F.SCH_PNODE_CFG.KIND, 1, 1), (F.SCH_PNODE_CFG.TARGET, 1, 2),
    (F.SCH_PNODE_STATUS.STATE, 1, 1), (F.LOOM_GEM.SUB_CTX, 9, 6)])).setPkt 3
    { qP with loc := .txFifo, node := 1, drec := hvSet [] 0x14 2 9, inFifo := qP.data.length }).withSched
    { up.sched with queueCfg := [(9, BitVec.ofNat 64 (1 + 5 * 2 ^ 32))] }, 3, 7,
    { qP with loc := .txFifo, node := 1, drec := hvSet [] 0x14 2 9, inFifo := qP.data.length }, by decide +kernel⟩

theorem witness_SubscribersAreKeptApart_4 :
    ∃ (s : State) (k : Nat) (p : Pkt), s.pkt k = some p ∧ p.loc = .txFifo ∧ s.nodeKind p.node = 1 ∧ s.nodeState p.node = 1 ∧ s.halted =
      false ∧ s.txReady p = true ∧ s.gemWaits (s.nodeTarget p.node) = false ∧ s.gemExitFails (s.nodeTarget p.node) (hvGet p.drec 0x14 2)
      p = none :=
  ⟨(((st [(F.LOOM_TREE_CFG.EN, 2, 1), (F.LOOM_TREE_CFG.MIN_KM, 2, 0), (F.LOOM_TREE_CFG.DIFF_KM, 2, 20), (F.LOOM_OPT_CFG.GUARD, 2, 64),
    (F.LOOM_GEM.EN, 9, 1), (F.LOOM_GEM.TREE, 9, 2), (F.LOOM_GEM.PORT_ID, 9, 4660), (F.LOOM_GEM.ONU, 9, 5), (F.LOOM_GEM.SUB_CTX, 9, 5),
    (F.LOOM_ONU.STATE, 517, 3), (F.SCH_PNODE_CFG.EN, 1, 1), (F.SCH_PNODE_CFG.KIND, 1, 1), (F.SCH_PNODE_CFG.TARGET, 1, 2),
    (F.SCH_PNODE_STATUS.STATE, 1, 1)])).setPkt 3
    { qP with loc := .txFifo, node := 1, drec := hvSet [] 0x14 2 9, inFifo := qP.data.length }).withSched
    { up.sched with queueCfg := [(9, BitVec.ofNat 64 (1 + 5 * 2 ^ 32))] }, 3,
    { qP with loc := .txFifo, node := 1, drec := hvSet [] 0x14 2 9, inFifo := qP.data.length }, by decide +kernel⟩

theorem witness_SubscribersAreKeptApart_5 :
    ∃ (s : State), s.keyRuns 1 = true ∧ ((s.rd F.LOOM_KEY_CMD.KIND = 1 ∨ s.onuState s.keyRecord ∉ [0, 5, 6])) :=
  ⟨(st [(F.LOOM_TREE_CFG.EN, 2, 1), (F.LOOM_TREE_CFG.MIN_KM, 2, 0), (F.LOOM_TREE_CFG.DIFF_KM, 2, 20), (F.LOOM_OPT_CFG.GUARD, 2, 64),
    (F.LOOM_KEY_STATUS.BUSY, 0, 1), (F.LOOM_KEY_CMD.TREE, 0, 2), (F.LOOM_KEY_CMD.ONU, 0, 5), (F.LOOM_KEY_CMD.IDX, 0, 1),
    (F.LOOM_KEY_DATA.DATA, 0, 10), (F.LOOM_KEY_CMD.OP, 0, 1), (F.LOOM_ONU.STATE, 517, 3)]), by decide +kernel⟩

theorem witness_SubscribersAreKeptApart_6 :
    ∃ (s : State), s.keyRuns 1 = true ∧ s.rd F.LOOM_KEY_CMD.KIND ≠ 1 ∧ s.onuState s.keyRecord ∈ [0, 5, 6] :=
  ⟨(st [(F.LOOM_TREE_CFG.EN, 2, 1), (F.LOOM_TREE_CFG.MIN_KM, 2, 0), (F.LOOM_TREE_CFG.DIFF_KM, 2, 20), (F.LOOM_OPT_CFG.GUARD, 2, 64),
    (F.LOOM_KEY_STATUS.BUSY, 0, 1), (F.LOOM_KEY_CMD.TREE, 0, 2), (F.LOOM_KEY_CMD.ONU, 0, 5), (F.LOOM_KEY_CMD.IDX, 0, 1),
    (F.LOOM_KEY_DATA.DATA, 0, 10), (F.LOOM_KEY_CMD.OP, 0, 1)]), by decide +kernel⟩

theorem witness_SubscribersAreKeptApart_7 :
    ∃ (s : State), s.keyRuns 2 = true :=
  ⟨(st [(F.LOOM_TREE_CFG.EN, 2, 1), (F.LOOM_TREE_CFG.MIN_KM, 2, 0), (F.LOOM_TREE_CFG.DIFF_KM, 2, 20), (F.LOOM_OPT_CFG.GUARD, 2, 64),
    (F.LOOM_KEY_STATUS.BUSY, 0, 1), (F.LOOM_KEY_CMD.TREE, 0, 2), (F.LOOM_KEY_CMD.ONU, 0, 5), (F.LOOM_KEY_CMD.IDX, 0, 1),
    (F.LOOM_KEY_DATA.DATA, 0, 10), (F.LOOM_KEY_CMD.OP, 0, 2)]).setKey 2069 (some 4), by decide +kernel⟩

theorem witness_SubscribersAreKeptApart_8 :
    ∃ (s : State) (q : Nat) (x : Nat), s.keyRuns 3 = true ∧ s.key s.keyPlace = some x ∧ s.rd F.LOOM_KEY_CMD.KIND ≠ 1 ∧ s.rd
      F.LOOM_KEY_DATA.DATA % 2 ^ 51 = q :=
  ⟨(st [(F.LOOM_TREE_CFG.EN, 2, 1), (F.LOOM_TREE_CFG.MIN_KM, 2, 0), (F.LOOM_TREE_CFG.DIFF_KM, 2, 20), (F.LOOM_OPT_CFG.GUARD, 2, 64),
    (F.LOOM_KEY_STATUS.BUSY, 0, 1), (F.LOOM_KEY_CMD.TREE, 0, 2), (F.LOOM_KEY_CMD.ONU, 0, 5), (F.LOOM_KEY_CMD.IDX, 0, 1),
    (F.LOOM_KEY_DATA.DATA, 0, 10), (F.LOOM_KEY_CMD.OP, 0, 3)]).setKey 2069 (some 4), 10, 4, by decide +kernel⟩

theorem witness_SubscribersAreKeptApart_9 :
    ∃ (s : State), s.keyRuns 3 = true ∧ s.key s.keyPlace = none :=
  ⟨(st [(F.LOOM_TREE_CFG.EN, 2, 1), (F.LOOM_TREE_CFG.MIN_KM, 2, 0), (F.LOOM_TREE_CFG.DIFF_KM, 2, 20), (F.LOOM_OPT_CFG.GUARD, 2, 64),
    (F.LOOM_KEY_STATUS.BUSY, 0, 1), (F.LOOM_KEY_CMD.TREE, 0, 2), (F.LOOM_KEY_CMD.ONU, 0, 5), (F.LOOM_KEY_CMD.IDX, 0, 1),
    (F.LOOM_KEY_DATA.DATA, 0, 10), (F.LOOM_KEY_CMD.OP, 0, 3)]), by decide +kernel⟩

theorem witness_SubscribersAreKeptApart_10 :
    ∃ (s : State) (n : Nat) (seen : List (Nat × Nat)) (sd : Bool), s.treeEn n = true :=
  ⟨((st [(F.LOOM_TREE_CFG.EN, 2, 1), (F.LOOM_TREE_CFG.MIN_KM, 2, 0), (F.LOOM_TREE_CFG.DIFF_KM, 2, 20), (F.LOOM_OPT_CFG.GUARD, 2, 64),
    (F.LOOM_DBA_CFG.ROGUE_NS, 2, 50), (F.LOOM_DBA_CFG.ROGUE_FRAMES, 2, 1)]).setTree 2 { Tree.idle with probeLeft := 4 }), 2, [(30, 70),
    (60, 200)], true, by decide +kernel⟩

theorem witness_SubscribersAreKeptApart_11 :
    ∃ (s : State) (n : Nat) (onu : Nat) (frames : Nat), s.treeEn n = true ∧ s.takes .LOOM_PROBE = true ∧ s.rd
      F.LOOM_PROBE_STATUS.RUNNING n = 0 :=
  ⟨((st [(F.LOOM_TREE_CFG.EN, 2, 1), (F.LOOM_TREE_CFG.MIN_KM, 2, 0), (F.LOOM_TREE_CFG.DIFF_KM, 2, 20), (F.LOOM_OPT_CFG.GUARD, 2,
    64)]).setTree 2 { Tree.idle with obs := [true, false, true] }), 2, 5, 3, by decide +kernel⟩

theorem witness_SubscribersAreKeptApart_12 :
    ∃ (s : State) (n : Nat) (onu : Nat) (frames : Nat), s.treeEn n = true ∧ s.takes .LOOM_PROBE = true ∧ s.rd
      F.LOOM_PROBE_STATUS.RUNNING n = 1 :=
  ⟨(st [(F.LOOM_TREE_CFG.EN, 2, 1), (F.LOOM_TREE_CFG.MIN_KM, 2, 0), (F.LOOM_TREE_CFG.DIFF_KM, 2, 20), (F.LOOM_OPT_CFG.GUARD, 2, 64),
    (F.LOOM_PROBE_STATUS.RUNNING, 2, 1)]), 2, 5, 3, by decide +kernel⟩

theorem witness_SubscribersAreKeptApart_13 :
    ∃ (s : State) (n : Nat), n < 48 ∧ s.rd F.LOOM_PROBE_STATUS.RUNNING n = 1 ∧ (s.tree n).probeLeft = 0 :=
  ⟨(st [(F.LOOM_TREE_CFG.EN, 2, 1), (F.LOOM_TREE_CFG.MIN_KM, 2, 0), (F.LOOM_TREE_CFG.DIFF_KM, 2, 20), (F.LOOM_OPT_CFG.GUARD, 2, 64),
    (F.LOOM_PROBE_STATUS.RUNNING, 2, 1), (F.LOOM_PROBE_STATUS.BASELINE, 2, 1)]), 2, by decide +kernel⟩

theorem witness_RingsCarryEntries_1 :
    ∃ (s : State) (k : Nat) (half : Nat) (v : Nat) (tail : BitVec 32) (head : BitVec 32), s.host.asleep = false ∧ s.inReset = false ∧ k
      < 67 ∧ ((64 ≤ k → half ≠ 0)) ∧ (tail = (if half = 1 ∨ 64 ≤ k then (s.ring k).tail else BitVec.ofNat 32 v)) ∧ head = (if half = 0
      then (s.ring k).head else if half = 1 then BitVec.ofNat 32 v else BitVec.ofNat 32 (v / 2 ^ 32)) ∧ ((k < 64 → (tail - head).toNat ≤
      s.ringSize k)) ∧ (s.ringW k - head).toNat ≤ s.ringSize k :=
  ⟨(st [(F.HST_RING_CFG.EN, 5, 1), (F.HST_RING_CFG.SIZE_LOG2, 5, 6), (F.HST_RING_CFG.BUF_SIZE, 5, 256), (F.HST_RING_STATUS.RUN, 5, 1),
    (F.HST_RING_STATUS.W, 5, 5)]).setRing 5 ⟨64, 0⟩, 5, 2, 60 + 3 * 2 ^ 32, 60, 3, by decide +kernel⟩

theorem witness_RingsCarryEntries_2 :
    ∃ (s : State) (k : Nat) (v : Nat), s.host.asleep = false ∧ s.inReset = false ∧ k < 67 ∧ s.ringSize k < (s.ringW k - BitVec.ofNat 32
      (v / 2 ^ 32)).toNat :=
  ⟨(st [(F.HST_RING_CFG.EN, 66, 1), (F.HST_RING_CFG.SIZE_LOG2, 66, 6), (F.HST_RING_CFG.BUF_SIZE, 66, 256), (F.HST_RING_STATUS.RUN, 66,
    1)]).setRing 66 ⟨64, 0⟩, 66, 2 ^ 32 * 7, by decide +kernel⟩

theorem witness_RingsCarryEntries_3 :
    ∃ (s : State) (k : Nat), s.takes .HST_RING_CFG = true ∧ k < 67 ∧ s.rd F.HST_RING_CFG.EN k = 0 :=
  ⟨up, 66, by decide +kernel⟩

theorem witness_RingsCarryEntries_4 :
    ∃ (s : State) (k : Nat), s.takes .HST_RING_CFG = true ∧ k < 67 ∧ s.rd F.HST_RING_CFG.EN k = 1 :=
  ⟨(st [(F.HST_RING_CFG.EN, 5, 1), (F.HST_RING_CFG.SIZE_LOG2, 5, 6), (F.HST_RING_CFG.BUF_SIZE, 5, 256), (F.HST_RING_STATUS.RUN, 5, 1),
    (F.SCH_PNODE_CFG.EN, 1, 1), (F.SCH_PNODE_CFG.KIND, 1, 3), (F.SCH_PNODE_CFG.TARGET, 1, 5), (F.SCH_PNODE_STATUS.STATE, 1, 1)]).setRing
    5 ⟨64, 0⟩, 5, by decide +kernel⟩

theorem witness_RingsCarryEntries_5 :
    ∃ (s : State) (k : Nat) (buf : Nat) (m : Msg), k < 32 ∧ s.ringFull k = false ∧ s.host.messages.find? (fun x => x.ring == k) = some m :=
  ⟨(fun (u : State) => u.withHost { u.host with messages := [⟨5, List.replicate 51 1, List.replicate 300 3⟩] }) <| (st
    [(F.HST_RING_CFG.EN, 5, 1), (F.HST_RING_CFG.SIZE_LOG2, 5, 6), (F.HST_RING_CFG.BUF_SIZE, 5, 256), (F.HST_RING_STATUS.RUN, 5,
    1)]).setRing 5 ⟨64, 0⟩, 5, 4096, ⟨5, List.replicate 51 1, List.replicate 300 3⟩, by decide +kernel⟩

theorem witness_RingsCarryEntries_6 :
    ∃ (s : State) (k : Nat) (buf : Nat) (n : Nat) (p : Pkt) (data : List Byte), k < 32 ∧ s.ringFull k = false ∧ ((∀ x ∈ s.host.messages,
      x.ring ≠ k)) ∧ s.puntHead k = some (n, p) ∧ data = (if p.trunc = 0 then p.data else p.data.take p.trunc) :=
  ⟨(((st [(F.HST_RING_CFG.EN, 5, 1), (F.HST_RING_CFG.SIZE_LOG2, 5, 6), (F.HST_RING_CFG.BUF_SIZE, 5, 256), (F.HST_RING_STATUS.RUN, 5, 1),
    (F.SCH_PNODE_CFG.EN, 1, 1), (F.SCH_PNODE_CFG.KIND, 1, 3), (F.SCH_PNODE_CFG.TARGET, 1, 5), (F.SCH_PNODE_STATUS.STATE, 1, 1)]).setRing
    5 ⟨64, 0⟩).setPkt 8 { qP with loc := .hostOut 5, node := 1 } |>.setPortNode 1 { Node.idle with out := [8] }), 5, 4096, 8,
    { qP with loc := .hostOut 5, node := 1 }, ({ qP with loc := .hostOut 5, node := 1 }).data, by decide +kernel⟩

theorem witness_RingsCarryEntries_7 :
    ∃ (s : State) (r : Nat) (d : List Byte) (content : List Byte), r < 32 ∧ s.ringFull (32 + r) = false ∧ d.length = 64 ∧ s.descBad d =
      true :=
  ⟨(st [(F.HST_RING_CFG.EN, 35, 1), (F.HST_RING_CFG.SIZE_LOG2, 35, 6), (F.HST_RING_CFG.BUF_SIZE, 35, 256), (F.HST_RING_STATUS.RUN, 35,
    1)]).setRing 35 ⟨64, 0⟩, 3, (octetsBE 8 77 ++ octetsBE 2 60 ++ [5, 0] ++ octetsBE 2 9 ++ List.replicate 50 0), [],
    by decide +kernel⟩

theorem witness_RingsCarryEntries_8 :
    ∃ (s : State) (r : Nat) (d : List Byte) (content : List Byte), r < 32 ∧ s.ringFull (32 + r) = false ∧ d.length = 64 ∧ s.descBad d =
      false ∧ descField d 10 1 = 0 ∧ content.length = descField d 8 2 ∧ (s.mac (176 + r)).fill + content.length ≤ 32768 :=
  ⟨(st [(F.HST_RING_CFG.EN, 35, 1), (F.HST_RING_CFG.SIZE_LOG2, 35, 6), (F.HST_RING_CFG.BUF_SIZE, 35, 256), (F.HST_RING_STATUS.RUN, 35,
    1)]).setRing 35 ⟨64, 0⟩, 3, (octetsBE 8 77 ++ octetsBE 2 60 ++ [0, 0] ++ octetsBE 2 9 ++ List.replicate 50 0), List.replicate 60 2,
    by decide +kernel⟩

theorem witness_RingsCarryEntries_9 :
    ∃ (s : State) (r : Nat) (n : Nat) (onu : Nat) (d : List Byte) (content : List Byte), r < 32 ∧ s.ringFull (32 + r) = false ∧ d.length
      = 64 ∧ s.descBad d = false ∧ content.length = descField d 8 2 ∧ (s.mac (176 + r)).fill + content.length ≤ 32768 ∧ n = descField d
      14 1 ∧ descField d 10 1 = 2 ∧ onu = (if natBE (content.take 2) % 1024 = 1023 then 1023 else descField d 15 1) ∧ ((onu = 1023 ∨
      s.onuState (256 * n + onu) ∉ [0, 5, 6])) :=
  ⟨((st [(F.HST_RING_CFG.EN, 35, 1), (F.HST_RING_CFG.SIZE_LOG2, 35, 6), (F.HST_RING_CFG.BUF_SIZE, 35, 256), (F.HST_RING_STATUS.RUN, 35,
    1)]).setRing 35 ⟨64, 0⟩).withLoom { up.loom with trees := [] } |>.wr F.LOOM_TREE_CFG.EN 2 1 |>.wr F.LOOM_ONU.STATE 517 3, 3, 2, 5,
    (octetsBE 8 77 ++ octetsBE 2 48 ++ [2, 0] ++ octetsBE 2 9 ++ [2, 5] ++ List.replicate 48 0), List.replicate 48 2, by decide +kernel⟩

theorem witness_RingsCarryEntries_10 :
    ∃ (s : State) (r : Nat) (n : Nat) (onu : Nat) (d : List Byte) (content : List Byte), r < 32 ∧ s.ringFull (32 + r) = false ∧ d.length
      = 64 ∧ s.descBad d = false ∧ content.length = descField d 8 2 ∧ (s.mac (176 + r)).fill + content.length ≤ 32768 ∧ n = descField d
      14 1 ∧ descField d 10 1 = 3 ∧ onu = descField d 15 1 ∧ s.onuState (256 * n + onu) ∉ [0, 5, 6] :=
  ⟨((st [(F.HST_RING_CFG.EN, 35, 1), (F.HST_RING_CFG.SIZE_LOG2, 35, 6), (F.HST_RING_CFG.BUF_SIZE, 35, 256), (F.HST_RING_STATUS.RUN, 35,
    1)]).setRing 35 ⟨64, 0⟩).wr F.LOOM_TREE_CFG.EN 2 1 |>.wr F.LOOM_ONU.STATE 517 3, 3, 2, 5, (octetsBE 8 77 ++ octetsBE 2 48 ++ [3, 0]
    ++ octetsBE 2 9 ++ [2, 5] ++ List.replicate 48 0), List.replicate 48 2, by decide +kernel⟩

theorem witness_RingsCarryEntries_11 :
    ∃ (s : State) (r : Nat) (n : Nat) (onu : Nat) (d : List Byte) (content : List Byte), r < 32 ∧ s.ringFull (32 + r) = false ∧ d.length
      = 64 ∧ s.descBad d = false ∧ content.length = descField d 8 2 ∧ (s.mac (176 + r)).fill + content.length ≤ 32768 ∧ n = descField d
      14 1 ∧ descField d 10 1 = 4 :=
  ⟨((st [(F.HST_RING_CFG.EN, 35, 1), (F.HST_RING_CFG.SIZE_LOG2, 35, 6), (F.HST_RING_CFG.BUF_SIZE, 35, 256), (F.HST_RING_STATUS.RUN, 35,
    1)]).setRing 35 ⟨64, 0⟩).wr F.FLX_INST_CFG.EN 7 1, 3, 0, 5, (octetsBE 8 77 ++ octetsBE 2 48 ++ [4, 0] ++ octetsBE 2 9 ++
    List.replicate 13 0 ++ [7] ++ List.replicate 36 0), List.replicate 48 2, by decide +kernel⟩

theorem witness_RingsCarryEntries_12 :
    ∃ (s : State) (k : Nat), 32 ≤ k ∧ k < 64 ∧ s.ringFull k = false :=
  ⟨(st [(F.HST_RING_CFG.EN, 35, 1), (F.HST_RING_CFG.SIZE_LOG2, 35, 6), (F.HST_RING_CFG.BUF_SIZE, 35, 256), (F.HST_RING_STATUS.RUN, 35,
    1)]).setRing 35 ⟨64, 0⟩, 35, by decide +kernel⟩

theorem witness_RingsCarryEntries_13 :
    ∃ (s : State) (k : Nat) (n : Nat) (b : Bool) (p : Pkt), k < 32 ∧ s.ringFull k = false ∧ ((∀ x ∈ s.host.messages, x.ring ≠ k)) ∧
      s.puntHead k = some (n, p) :=
  ⟨(((st [(F.HST_RING_CFG.EN, 5, 1), (F.HST_RING_CFG.SIZE_LOG2, 5, 6), (F.HST_RING_CFG.BUF_SIZE, 5, 256), (F.HST_RING_STATUS.RUN, 5, 1),
    (F.SCH_PNODE_CFG.EN, 1, 1), (F.SCH_PNODE_CFG.KIND, 1, 3), (F.SCH_PNODE_CFG.TARGET, 1, 5), (F.SCH_PNODE_STATUS.STATE, 1, 1)]).setRing
    5 ⟨64, 0⟩).setPkt 8 { qP with loc := .hostOut 5, node := 1 } |>.setPortNode 1 { Node.idle with out := [8] }), 5, 8, false,
    { qP with loc := .hostOut 5, node := 1 }, by decide +kernel⟩

theorem witness_EventsBecomeMessages_1 :
    ∃ (s : State) (n : Nat) (rest : List Nat), s.host.raised = n :: rest ∧ n < 244 ∧ s.host.asleep = false :=
  ⟨(st [(F.EVC_SRC_CFG.VECTOR, 14, 3), (F.EVC_MASK.MASK, 0, 0), (F.EVC_COAL.COUNT, 3, 2), (F.EVC_COAL.TIME, 3, 9)]).raise 14 |>.raise 3,
    14, [3], by decide +kernel⟩

theorem witness_EventsBecomeMessages_2 :
    ∃ (s : State) (n : Nat) (rest : List Nat), s.host.raised = n :: rest ∧ n < 244 ∧ s.host.asleep = true :=
  ⟨(fun (u : State) => u.withHost { u.host with asleep := true }) <| (up.raise 14 |>.raise 3), 14, [3], by decide +kernel⟩

theorem witness_EventsBecomeMessages_3 :
    ∃ (s : State) (v : Nat), (s.vec v).window = true ∧ (s.vec v).due = false ∧ s.host.asleep = false :=
  ⟨(st [(F.EVC_SRC_CFG.VECTOR, 14, 3)]).setVec 3 { Vec.idle with window := true, needTime := 9, opened := 5 }, 3, by decide +kernel⟩

theorem witness_EventsBecomeMessages_4 :
    ∃ (s : State) (v : Nat) (n : Nat), v < 64 ∧ (s.vec v).due = true ∧ (s.vec v).active = none ∧ s.host.asleep = false ∧ n < 256 ∧
      s.vectorOf n = v ∧ s.srcPending n = true ∧ s.srcMasked n = false ∧ s.srcActive n = false ∧ ((∀ m, m < n → s.vectorOf m = v →
      s.srcPending m = true → s.srcMasked m = true ∨ s.srcActive m = true)) :=
  ⟨(st [(F.EVC_SRC_CFG.VECTOR, 14, 3), (F.EVC_PENDING.PENDING, 0, 2 ^ 14), (F.EVC_MASK.MASK, 0, 0)]).setVec 3
    { Vec.idle with due := true }, 3, 14, by decide +kernel⟩

theorem witness_EventsBecomeMessages_5 :
    ∃ (s : State) (v : Nat), s.canSend v = true :=
  ⟨up.withHost
    { up.host with link := .l0, msixEnable := true, vecs := Sparse.write Vec.idle [] 3 { Vec.idle with message := true }, msix := Sparse.write 1 [] 15 0 },
    3, by decide +kernel⟩

theorem witness_EventsBecomeMessages_6 :
    ∃ (s : State) (v : Nat) (n : Nat), v < 64 ∧ n < 256 ∧ s.takes .EVC_COMPLETE = true ∧ (s.vec v).active = some n :=
  ⟨(st [(F.EVC_SRC_CFG.VECTOR, 14, 3)]).setVec 3 { Vec.idle with active := some 14 }, 3, 14, by decide +kernel⟩

theorem witness_EventsBecomeMessages_7 :
    ∃ (s : State) (v : Nat) (n : Nat), v < 64 ∧ n < 256 ∧ s.takes .EVC_COMPLETE = true ∧ (s.vec v).active ≠ some n :=
  ⟨(st [(F.EVC_SRC_CFG.VECTOR, 14, 3)]).setVec 3 { Vec.idle with active := some 15 }, 3, 14, by decide +kernel⟩

theorem witness_EventsBecomeMessages_8 :
    ∃ (s : State) (w : Nat) (v : Nat), w < 8 ∧ s.takes .EVC_PENDING = true ∧ s.takes .EVC_MASK = true :=
  ⟨(st [(F.EVC_SRC_CFG.VECTOR, 14, 3), (F.EVC_MASK.MASK, 0, 0)]).setVec 3 { Vec.idle with due := false }, 0, 2 ^ 33 + 2 ^ 14,
    by decide +kernel⟩

theorem witness_EventsBecomeMessages_9 :
    ∃ (s : State) (words : Nat), words < 256 ∧ s.takes .EVC_RESCAN = true :=
  ⟨(st [(F.EVC_SRC_CFG.VECTOR, 14, 3), (F.GLZ_COAT_STATUS.DONE, 0, 1)]).setVec 3 { Vec.idle with due := false }, 1, by decide +kernel⟩

theorem witness_EventsBecomeMessages_10 :
    ∃ (s : State), s.host.asleep = false :=
  ⟨up.withHost
    { up.host with link := .l0, msixEnable := true, vecs := Sparse.write Vec.idle [] 3 { Vec.idle with message := true }, msix := Sparse.write 1 [] 15 0 },
    by decide +kernel⟩

theorem witness_EventsBecomeMessages_11 :
    ∃ (s : State), s.host.d3hot = true :=
  ⟨(fun (u : State) => u.withHost { u.host with d3hot := true }) <| up.withHost
    { up.host with link := .l0, msixEnable := true, vecs := Sparse.write Vec.idle [] 3 { Vec.idle with message := true }, msix := Sparse.write 1 [] 15 0 },
    by decide +kernel⟩

theorem witness_EventsBecomeMessages_12 :
    ∃ (s : State), s.host.asleep = false ∧ s.host.link ≠ .down :=
  ⟨up.withHost
    { up.host with link := .l0, msixEnable := true, vecs := Sparse.write Vec.idle [] 3 { Vec.idle with message := true }, msix := Sparse.write 1 [] 15 0 },
    by decide +kernel⟩

theorem witness_EventsBecomeMessages_13 :
    ∃ (s : State) (speed : Nat) (width : Nat) (im : SleepImage), s.power.released = true ∧ s.host.asleep = true ∧ s.host.saved = some im
      ∧ s.host.shadow = [] :=
  ⟨(fun (u : State) => (u.withPower { u.power with released := true }).withHost
    { u.host with asleep := true, saved := some ⟨[], [(3, Vec.idle)], [], []⟩ }) <| (st []), 5, 3, ⟨[], [(3, Vec.idle)], [], []⟩,
    by decide +kernel⟩

theorem witness_EventsBecomeMessages_14 :
    ∃ (s : State) (speed : Nat) (width : Nat) (good : Bool), s.power.released = true ∧ s.host.asleep = false :=
  ⟨(fun (u : State) => (u.withPower { u.power with released := true }).setRing 5 ⟨7, 7⟩) <| (st [(F.HST_RING_CFG.EN, 5, 1),
    (F.HST_RING_STATUS.RUN, 5, 1)]), 5, 3, true, by decide +kernel⟩

theorem witness_CounterPairsFreezeAndSnapshot_1 :
    ∃ (s : State) (i : Nat), i < s.pairCount ∧ i < 2 ^ 25 ∧ s.takes .TLY_CNT_ACC = true ∧ s.rd F.TLY_CNT_ACC.BUSY = 0 ∧ ((i < 262144 ∨
      s.dramStopped = false ∧ s.pairLost i = false ∧ s.wordError (s.pairChannel i) (s.pairAddr i) = 0 ∧ s.wordError (s.pairChannel i)
      (s.pairAddr i + 8) = 0)) :=
  ⟨((fun (u : State) => u.withTally { u.tally with pairs := [(7, ⟨9, 2, false⟩)] }) <| (st [])), 7, by decide +kernel⟩

theorem witness_CounterPairsFreezeAndSnapshot_2 :
    ∃ (s : State) (i : Nat), i < s.pairCount ∧ i < 2 ^ 25 ∧ s.takes .TLY_CNT_ACC = true ∧ s.rd F.TLY_CNT_ACC.BUSY = 0 ∧ ((i < 262144 ∨
      s.dramStopped = false ∧ s.pairLost i = false ∧ s.wordError (s.pairChannel i) (s.pairAddr i) = 0 ∧ s.wordError (s.pairChannel i)
      (s.pairAddr i + 8) = 0)) ∧ s.tally.frozenPairs = none :=
  ⟨((fun (u : State) => u.withTally
    { u.tally with pairs := [(262150, ⟨9, 2, true⟩)], cache := [(262150, ⟨1, 1, false⟩)], dramPairs := 9 }) <| (st [(F.DMC_CFG.CHANNELS,
    0, 1)])), 262150, by decide +kernel⟩

theorem witness_CounterPairsFreezeAndSnapshot_3 :
    ∃ (s : State) (i : Nat), i < 2 ^ 25 ∧ s.pairCount ≤ i ∧ s.takes .TLY_CNT_ACC = true ∧ s.rd F.TLY_CNT_ACC.BUSY = 0 :=
  ⟨up, 2 ^ 25 - 1, by decide +kernel⟩

theorem witness_CounterPairsFreezeAndSnapshot_4 :
    ∃ (s : State) (i : Nat), i < s.pairCount ∧ i < 2 ^ 25 ∧ s.takes .TLY_CNT_ACC = true ∧ s.rd F.TLY_CNT_ACC.BUSY = 0 ∧ s.pairLost i =
      true :=
  ⟨(fun (u : State) => u.withTally
    { u.tally with pairs := [(262150, ⟨9, 2, true⟩)], cache := [(262150, ⟨1, 1, false⟩)], dramPairs := 9 }) <| st [(F.DMC_CFG.CHANNELS,
    0, 1), (F.DMC_CH_STATUS.LOST, 262150 % 6, 1), (F.DMC_CH_STATUS.LOST, 262150 % 8, 1), (F.DMC_CH_STATUS.LOST, 262150 % 12, 1)],
    262150, by decide +kernel⟩

theorem witness_CounterPairsFreezeAndSnapshot_5 :
    ∃ (s : State) (i : Nat), i < s.pairCount ∧ i < 2 ^ 25 ∧ s.takes .TLY_CNT_ACC = true ∧ s.rd F.TLY_CNT_ACC.BUSY = 0 ∧ s.dramStopped =
      true ∧ 262144 ≤ i ∧ s.pairLost i = false :=
  ⟨(fun (u : State) => u.withTally
    { u.tally with pairs := [(262150, ⟨9, 2, true⟩)], cache := [(262150, ⟨1, 1, false⟩)], dramPairs := 9 }) <| st [(F.DMC_CFG.CHANNELS,
    0, 1), (F.DMC_FREQ_STATUS.STATE, 0, 3)], 262150, by decide +kernel⟩

theorem witness_CounterPairsFreezeAndSnapshot_6 :
    ∃ (s : State) (i : Nat) (c : Instr), s.takes .TLY_CNT_ACC = true ∧ s.rd F.TLY_CNT_ACC.BUSY = 1 ∧ c ∈ [Instr.cntRead i [],
      .cntReadClear i [], .cntZero i] :=
  ⟨st [(F.TLY_CNT_ACC.BUSY, 0, 1)], 3, .cntZero (3), by decide +kernel⟩

theorem witness_CounterPairsFreezeAndSnapshot_7 :
    ∃ (s : State) (i : Nat), Sparse.read Pair.zero s.tally.cache i ≠ Pair.zero ∧ s.freezeState = 0 ∧ s.dramStopped = false ∧ s.pairLost
      i = false ∧ ((i < 262144 ∨ s.wordError (s.pairChannel i) (s.pairAddr i) = 0 ∧ s.wordError (s.pairChannel i) (s.pairAddr i + 8) =
      0)) :=
  ⟨(fun (u : State) => u.withTally
    { u.tally with dramPairs := 9, cache := [(262147, ⟨9, 1, false⟩)], pairs := [(262147, ⟨5, 1, false⟩)] }) <| st [(F.DMC_CFG.CHANNELS,
    0, 1)], 262147, by decide +kernel⟩

theorem witness_CounterPairsFreezeAndSnapshot_8 :
    ∃ (s : State) (i : Nat), Sparse.read Pair.zero s.tally.cache i ≠ Pair.zero ∧ s.freezeState = 0 ∧ s.dramStopped = false ∧ s.pairLost
      i = true :=
  ⟨(fun (u : State) => u.withTally
    { u.tally with pairs := [(262150, ⟨9, 2, true⟩)], cache := [(262150, ⟨1, 1, false⟩)], dramPairs := 9 }) <| st [(F.DMC_CFG.CHANNELS,
    0, 1), (F.DMC_CH_STATUS.LOST, 262150 % 6, 1), (F.DMC_CH_STATUS.LOST, 262150 % 8, 1), (F.DMC_CH_STATUS.LOST, 262150 % 12, 1)],
    262150, by decide +kernel⟩

theorem witness_CounterPairsFreezeAndSnapshot_9 :
    ∃ (s : State) (i : Nat), ((s.freezeState ≠ 0 ∨ s.dramStopped = true)) :=
  ⟨(fun (u : State) => u.withTally
    { u.tally with pairs := [(262150, ⟨9, 2, true⟩)], cache := [(262150, ⟨1, 1, false⟩)], dramPairs := 9 }) <| st [(F.DMC_CFG.CHANNELS,
    0, 1), (F.DMC_FREQ_STATUS.STATE, 0, 3)], 262150, by decide +kernel⟩

theorem witness_CounterPairsFreezeAndSnapshot_10 :
    ∃ (s : State), s.takes .TLY_FREEZE = true ∧ s.freezeState = 0 :=
  ⟨up, by decide +kernel⟩

theorem witness_CounterPairsFreezeAndSnapshot_11 :
    ∃ (s : State), s.takes .TLY_FREEZE = true ∧ s.freezeState = 0 ∧ s.rd F.TLY_SNAP_RANGE.COUNT ≠ 0 ∧ s.rd F.TLY_SNAP_RANGE.FIRST + s.rd
      F.TLY_SNAP_RANGE.COUNT ≤ s.pairCount :=
  ⟨st [(F.TLY_SNAP_RANGE.COUNT, 0, 2), (F.TLY_SNAP_RANGE.FIRST, 0, 3)], by decide +kernel⟩

theorem witness_CounterPairsFreezeAndSnapshot_12 :
    ∃ (s : State), s.takes .TLY_FREEZE = true ∧ s.freezeState = 0 ∧ s.pairCount < s.rd F.TLY_SNAP_RANGE.FIRST + s.rd
      F.TLY_SNAP_RANGE.COUNT :=
  ⟨st [(F.TLY_SNAP_RANGE.COUNT, 0, 2), (F.TLY_SNAP_RANGE.FIRST, 0, 262143)], by decide +kernel⟩

theorem witness_CounterPairsFreezeAndSnapshot_13 :
    ∃ (s : State), s.freezeState = 1 ∧ s.tally.thawHeld = false :=
  ⟨(fun (u : State) => u.withTally { u.tally with pairs := [(7, ⟨9, 2, false⟩)], cache := [(7, ⟨1, 1, false⟩)] }) <| st
    [(F.TLY_FREEZE.STATE, 0, 1)], by decide +kernel⟩

theorem witness_CounterPairsFreezeAndSnapshot_14 :
    ∃ (s : State), s.freezeState = 1 ∧ s.tally.thawHeld = true :=
  ⟨(fun (u : State) => u.withTally { u.tally with pairs := [(7, ⟨9, 2, false⟩)], cache := [(7, ⟨1, 1, false⟩)], thawHeld := true }) <|
    st [(F.TLY_FREEZE.STATE, 0, 1)], by decide +kernel⟩

theorem witness_CounterPairsFreezeAndSnapshot_15 :
    ∃ (s : State), s.freezeState = 1 ∧ s.takes .TLY_FREEZE = true :=
  ⟨(fun (u : State) => u.withTally { u.tally with pairs := [(7, ⟨9, 2, false⟩)], cache := [(7, ⟨1, 1, false⟩)] }) <| st
    [(F.TLY_FREEZE.STATE, 0, 1)], by decide +kernel⟩

theorem witness_CounterPairsFreezeAndSnapshot_16 :
    ∃ (s : State), s.freezeState = 3 ∧ s.tally.frozenPairs = none :=
  ⟨(fun (u : State) => u.withTally { u.tally with pairs := [(7, ⟨9, 2, false⟩)], cache := [(7, ⟨1, 1, false⟩)] }) <| st
    [(F.TLY_FREEZE.STATE, 0, 3)], by decide +kernel⟩

theorem witness_CounterPairsFreezeAndSnapshot_17 :
    ∃ (s : State), s.takes .TLY_FREEZE = true ∧ s.freezeState = 2 :=
  ⟨(fun (u : State) => u.withTally { u.tally with pairs := [(7, ⟨9, 2, false⟩)], frozenPairs := some [(7, ⟨1, 1, false⟩)] }) <| st
    [(F.TLY_FREEZE.STATE, 0, 2)], by decide +kernel⟩

theorem witness_CounterPairsFreezeAndSnapshot_18 :
    ∃ (s : State), s.freezeState = 3 ∧ s.tally.frozenPairs ≠ none ∧ s.dmaStopped = false ∧ s.snapWaits = false ∧ ((∀ j, j < s.rd
      F.TLY_SNAP_RANGE.COUNT → s.rd F.TLY_SNAP_RANGE.FIRST + j < 262144 ∨ ∀ a ∈ [s.pairAddr (s.rd F.TLY_SNAP_RANGE.FIRST + j),
      s.pairAddr (s.rd F.TLY_SNAP_RANGE.FIRST + j) + 8], s.wordError (s.pairChannel (s.rd F.TLY_SNAP_RANGE.FIRST + j)) a = 0)) :=
  ⟨(fun (u : State) => u.withTally { u.tally with pairs := [(7, ⟨9, 2, false⟩)], frozenPairs := some [(7, ⟨1, 1, false⟩)] }) <| st
    [(F.TLY_FREEZE.STATE, 0, 3), (F.TLY_SNAP_RANGE.COUNT, 0, 2), (F.TLY_SNAP_RANGE.FIRST, 0, 6), (F.TLY_SNAP_BASE.BASE, 0, 4096)],
    by decide +kernel⟩

theorem witness_CounterPairsFreezeAndSnapshot_19 :
    ∃ (s : State), s.freezeState = 3 ∧ s.tally.frozenPairs ≠ none ∧ ((s.dmaStopped = true ∨ s.snapWaits = true)) :=
  ⟨(fun (u : State) => u.withTally { u.tally with pairs := [(7, ⟨9, 2, false⟩)], frozenPairs := some [(7, ⟨1, 1, false⟩)] }) <| (fun (u
    : State) => u.withHost { u.host with d3hot := true }) <| st [(F.TLY_FREEZE.STATE, 0, 3), (F.TLY_SNAP_RANGE.COUNT, 0, 2),
    (F.TLY_SNAP_RANGE.FIRST, 0, 6), (F.TLY_SNAP_BASE.BASE, 0, 4096)], by decide +kernel⟩

theorem witness_CounterPairsFreezeAndSnapshot_20 :
    ∃ (s : State), s.takes .TLY_ISAMP_CFG = true :=
  ⟨st [(F.TLY_ISAMP_HIST.COUNT, 4, 8)], by decide +kernel⟩

theorem witness_PowerAndTheResetPin_1 :
    ∃ (s : State), s.power.on = false :=
  ⟨up.withPower { up.power with on := false }, by decide +kernel⟩

theorem witness_PowerAndTheResetPin_2 :
    ∃ (s : State), s.power.on = false ∧ s.power.latched = false ∧ s.rd F.EAS_PWR_STATUS.LAST_SHUTDOWN ≤ 2 :=
  ⟨up.withPower { up.power with on := false, latched := false }, by decide +kernel⟩

theorem witness_PowerAndTheResetPin_3 :
    ∃ (s : State) (cause : Nat), s.power.on = true ∧ 1 ≤ cause ∧ cause ≤ 5 :=
  ⟨(fun (u : State) => u.withPower { u.power with on := true, released := true }) <| st [(F.ETH_PORT_CFG.EN, 1, 1),
    (F.EAS_PWR_STATUS.SHUTDOWNS, 0, 255)], 3, by decide +kernel⟩

theorem witness_PowerAndTheResetPin_4 :
    ∃ (s : State) (dur : Nat) (acts : Bool), s.power.on = true ∧ ((10000 ≤ dur ∨ 1000 ≤ dur ∧ acts = true)) :=
  ⟨(fun (u : State) => u.withPower { u.power with on := true, released := true }) <| st [(F.ETH_PORT_CFG.EN, 1, 1)], 1000, true,
    by decide +kernel⟩

theorem witness_PowerAndTheResetPin_5 :
    ∃ (s : State) (vin : Nat) (iin : Nat) (pin : Nat) (icF : Nat) (icT : Nat) (tF : Int) (tT : Int) (tS : Int) (vddq : Bool), s.inReset
      = false :=
  ⟨(fun (u : State) => u.withPower { u.power with on := true, released := true }) <| st [(F.EAS_PWR_CFG.VIN_WARN, 0, 480),
    (F.EAS_PWR_TELEM.SEQ, 0, 65535)], 40000, 70000, 3, 1, 2, -5, 90, 115, true, by decide +kernel⟩

theorem witness_PowerAndTheResetPin_6 :
    ∃ (s : State), s.inReset = false ∧ s.power.inAlarm.toNat.testBit 6 = false :=
  ⟨(fun (u : State) => u.withPower { u.power with on := true, released := true }) <| st [], by decide +kernel⟩

theorem witness_StartsEndReadyOrSayWhy_1 :
    ∃ (s : State) (s0 : State) (s1 : State) (failFwd : Nat) (failTrf : Nat) (k : Nat) (took : Nat) (failed : List Nat) (peer : Bool)
      (trial : Bool), s.power.on = true ∧ ((s.power.released = false ∨ s.rd F.EAS_BOOT_STATUS.STATE = 0)) ∧ s.power.shortReset = false ∧
      s0 = (s.coldReset.withPower { s.coldReset.power with released := true, shortReset := false }).wrBit
      F.EAS_BOOT_STATUS.UNPROVISIONED 0 (s.rd F.EAS_OTP_STATUS.PROGRAMMED == 0) ∧ s0.bootSelect = (s1, k, trial) :=
  ⟨(fun (u : State) => u.withPower { u.power with on := true, released := false }) <| st [], ((((fun (u : State) => u.withPower
    { u.power with on := true, released := false }) <| st []).coldReset.withPower
    { ((fun (u : State) => u.withPower { u.power with on := true, released := false }) <| st []).coldReset.power with released := true, shortReset := false }).wrBit
    F.EAS_BOOT_STATUS.UNPROVISIONED 0 (((fun (u : State) => u.withPower { u.power with on := true, released := false }) <| st []).rd
    F.EAS_OTP_STATUS.PROGRAMMED == 0)), (((((fun (u : State) => u.withPower { u.power with on := true, released := false }) <| st
    []).coldReset.withPower
    { ((fun (u : State) => u.withPower { u.power with on := true, released := false }) <| st []).coldReset.power with released := true, shortReset := false }).wrBit
    F.EAS_BOOT_STATUS.UNPROVISIONED 0 (((fun (u : State) => u.withPower { u.power with on := true, released := false }) <| st []).rd
    F.EAS_OTP_STATUS.PROGRAMMED == 0))).bootSelect.1, 0, 1, (((((fun (u : State) => u.withPower
    { u.power with on := true, released := false }) <| st []).coldReset.withPower
    { ((fun (u : State) => u.withPower { u.power with on := true, released := false }) <| st []).coldReset.power with released := true, shortReset := false }).wrBit
    F.EAS_BOOT_STATUS.UNPROVISIONED 0 (((fun (u : State) => u.withPower { u.power with on := true, released := false }) <| st []).rd
    F.EAS_OTP_STATUS.PROGRAMMED == 0))).bootSelect.2.1, 2000000, [], true, (((((fun (u : State) => u.withPower
    { u.power with on := true, released := false }) <| st []).coldReset.withPower
    { ((fun (u : State) => u.withPower { u.power with on := true, released := false }) <| st []).coldReset.power with released := true, shortReset := false }).wrBit
    F.EAS_BOOT_STATUS.UNPROVISIONED 0 (((fun (u : State) => u.withPower { u.power with on := true, released := false }) <| st []).rd
    F.EAS_OTP_STATUS.PROGRAMMED == 0))).bootSelect.2.2, by decide +kernel⟩

theorem witness_StartsEndReadyOrSayWhy_2 :
    ∃ (s : State) (failFwd : Nat) (failTrf : Nat) (took : Nat) (failed : List Nat) (peer : Bool), s.power.on = true ∧ ((s.power.released
      = false ∨ s.rd F.EAS_BOOT_STATUS.STATE = 0)) :=
  ⟨(fun (u : State) => u.withPower { u.power with on := true, released := false }) <| st [], 0, 1, 0, [], false, by decide +kernel⟩

theorem witness_StartsEndReadyOrSayWhy_3 :
    ∃ (s : State) (failFwd : Nat) (failTrf : Nat) (took : Nat) (failed : List Nat) (flash : Bool) (peer : Bool), ((s.power.on = false ∨
      s.power.released = true ∧ s.rd F.EAS_BOOT_STATUS.STATE ≠ 0)) :=
  ⟨(fun (u : State) => u.withPower { u.power with on := true, released := true }) <| st [], 0, 1, 0, [], true, false, by decide +kernel⟩

theorem witness_StartsEndReadyOrSayWhy_4 :
    ∃ (s : State) (dur : Nat) (failFwd : Nat) (failTrf : Nat) (took : Nat) (acts : Bool) (ok : Bool) (peer : Bool) (failed : List Nat),
      s.easel.warmAsked = none ∧ s.inReset = false ∧ 1000 ≤ dur ∧ s.rd F.EAS_BOOT_STATUS.STATE 0 = 2 :=
  ⟨(fun (u : State) => u.withPower { u.power with on := true, released := true }) <| st [(F.EAS_BOOT_STATUS.STATE, 0, 2)], 1000, 0, 1,
    0, true, true, true, [], by decide +kernel⟩

theorem witness_StartsEndReadyOrSayWhy_5 :
    ∃ (s : State) (dur : Nat) (failFwd : Nat) (failTrf : Nat) (took : Nat) (k : Nat) (acts : Bool) (ok : Bool) (peer : Bool) (failed :
      List Nat), s.easel.warmAsked = some (some k) :=
  ⟨(fun (u : State) => u.withEasel { u.easel with warmAsked := some (some 1) }) <| (fun (u : State) => u.withPower
    { u.power with on := true, released := true }) <| st [(F.EAS_BOOT_STATUS.STATE, 0, 2)], 0, 0, 1, 0, 1, true, true, true, [],
    by decide +kernel⟩

theorem witness_StartsEndReadyOrSayWhy_6 :
    ∃ (s : State) (dur : Nat) (failFwd : Nat) (failTrf : Nat) (took : Nat) (acts : Bool) (ok : Bool) (peer : Bool) (failed : List Nat),
      s.easel.warmAsked = none ∧ s.inReset = false ∧ 1000 ≤ dur ∧ s.rd F.EAS_BOOT_STATUS.STATE 0 ≠ 2 :=
  ⟨(fun (u : State) => u.withPower { u.power with on := true, released := true }) <| st [(F.EAS_BOOT_STATUS.STATE, 0, 3)], 1000, 0, 1,
    0, true, true, true, [], by decide +kernel⟩

theorem witness_MailboxReadsAndAttests_1 :
    ∃ (s : State) (c : Instr) (op : Nat) (n : Nat) (bs : List Byte), s.rd F.EAS_MBOX_STATUS.BUSY 0 = 1 ∧ s.rd F.EAS_MBOX_CMD.OP = op ∧
      ((c = .getInfo true ∧ op = 0x01 ∧ n = 642 ∧ bs = s.flash 0 64 ++ s.flash 0x80000 64 ++ s.flash (slotAt 0) 256 ++ s.flash (slotAt
      1) 256 ++ octetsBE 1 (s.rd F.EAS_BOOT_STATUS.FAIL_A) ++ octetsBE 1 (s.rd F.EAS_BOOT_STATUS.FAIL_B) ∨ c = .flashRead true ∧ op =
      0x02 ∧ n = s.argLen ∧ s.argLen ≤ 65536 ∧ s.argAddr + s.argLen ≤ 0x4000000 ∧ bs = s.flash s.argAddr s.argLen ∨ c = .logRead true ∧
      op = 0x11 ∧ n = 65536 ∧ s.rd F.EAS_MBOX_CMD.ARG < 224 ∧ bs = s.flash (0x3200000 + 65536 * s.rd F.EAS_MBOX_CMD.ARG) 65536 ∨ c =
      .attest ∧ op = 0x0C ∧ n = 768 ∧ bs = s.report (s.mboxOctets 32) ++ padTo 384 (Config.deviceSign (s.report (s.mboxOctets 32))) ∨ c
      = .getIdentity ∧ op = 0x0D ∧ n = 404 ∧ bs = padTo 384 Config.deviceModulus ++ octetsBE 4 65537 ++ octetsBE 16
      s.easel.serial.toNat)) :=
  ⟨(st [(F.EAS_MBOX_STATUS.BUSY, 0, 1), (F.EAS_MBOX_CMD.OP, 0, 2), (F.EAS_MBOX_CMD.LEN, 0, 60)]), .flashRead true, 2, 60, ((st
    [(F.EAS_MBOX_STATUS.BUSY, 0, 1), (F.EAS_MBOX_CMD.OP, 0, 2), (F.EAS_MBOX_CMD.LEN, 0, 60)])).flash 0 60, by decide +kernel⟩

theorem witness_MailboxReadsAndAttests_2 :
    ∃ (s : State), s.rd F.EAS_MBOX_STATUS.BUSY 0 = 1 ∧ s.rd F.EAS_MBOX_CMD.OP = 0x04 :=
  ⟨(st [(F.EAS_MBOX_STATUS.BUSY, 0, 1), (F.EAS_MBOX_CMD.OP, 0, 4)]), by decide +kernel⟩

theorem witness_MailboxReadsAndAttests_3 :
    ∃ (s : State) (took : Nat), s.rd F.EAS_MBOX_STATUS.BUSY 0 = 1 ∧ s.rd F.EAS_MBOX_CMD.OP = 0x07 :=
  ⟨(st [(F.EAS_MBOX_STATUS.BUSY, 0, 1), (F.EAS_MBOX_CMD.OP, 0, 7)]), 9, by decide +kernel⟩

theorem witness_MailboxReadsAndAttests_4 :
    ∃ (s : State), s.rd F.EAS_MBOX_STATUS.BUSY 0 = 1 ∧ s.rd F.EAS_MBOX_CMD.OP = 0x08 :=
  ⟨(st [(F.EAS_MBOX_STATUS.BUSY, 0, 1), (F.EAS_MBOX_CMD.OP, 0, 8)]), by decide +kernel⟩

theorem witness_MailboxReadsAndAttests_5 :
    ∃ (s : State) (mask : Nat), s.rd F.EAS_MBOX_STATUS.BUSY 0 = 1 ∧ s.rd F.EAS_MBOX_CMD.OP = 0x09 ∧ mask = natBE (s.mboxOctets 8) % 2 ^
      48 ∧ s.easel.swapping = 0 ∧ (if s.easel.lastLoaded then s.easel.mLoom1 else s.easel.mLoom0) = none :=
  ⟨(st [(F.EAS_MBOX_STATUS.BUSY, 0, 1), (F.EAS_MBOX_CMD.OP, 0, 9)]), 0, by decide +kernel⟩

theorem witness_MailboxReadsAndAttests_6 :
    ∃ (s : State) (mask : Nat), s.rd F.EAS_MBOX_STATUS.BUSY 0 = 1 ∧ s.rd F.EAS_MBOX_CMD.OP = 0x09 ∧ mask = natBE (s.mboxOctets 8) % 2 ^
      48 ∧ s.easel.swapping = 0 ∧ (if s.easel.lastLoaded then s.easel.mLoom1 else s.easel.mLoom0) ≠ none :=
  ⟨(fun (u : State) => u.withEasel { u.easel with lastLoaded := true, mLoom1 := some 5, mbox := [(7, 13)] }) <| (st
    [(F.EAS_MBOX_STATUS.BUSY, 0, 1), (F.EAS_MBOX_CMD.OP, 0, 9), (F.LOOM_TREE_CFG.EN, 3, 1)]), 13, by decide +kernel⟩

theorem witness_MailboxReadsAndAttests_7 :
    ∃ (s : State), s.rd F.EAS_MBOX_STATUS.BUSY 0 = 1 ∧ s.rd F.EAS_MBOX_CMD.OP = 0x0A :=
  ⟨(st [(F.EAS_MBOX_STATUS.BUSY, 0, 1), (F.EAS_MBOX_CMD.OP, 0, 10)]), by decide +kernel⟩

theorem witness_MailboxReadsAndAttests_8 :
    ∃ (s : State) (c : Instr), s.rd F.EAS_MBOX_STATUS.BUSY 0 = 1 ∧ ((c = .getInfo false ∧ s.rd F.EAS_MBOX_CMD.OP = 0x01 ∨ c = .flashRead
      false ∧ s.rd F.EAS_MBOX_CMD.OP = 0x02 ∧ s.argLen ≤ 65536 ∧ s.argAddr + s.argLen ≤ 0x4000000 ∨ c = .setBoot false ∧ s.rd
      F.EAS_MBOX_CMD.OP = 0x05 ∨ c = .confirm false ∧ s.rd F.EAS_MBOX_CMD.OP = 0x06 ∨ c = .logRead false ∧ s.rd F.EAS_MBOX_CMD.OP = 0x11
      ∧ s.rd F.EAS_MBOX_CMD.ARG < 224)) :=
  ⟨(st [(F.EAS_MBOX_STATUS.BUSY, 0, 1), (F.EAS_MBOX_CMD.OP, 0, 5)]), .setBoot false, by decide +kernel⟩

theorem witness_MailboxWritesAndRestarts_1 :
    ∃ (s : State), s.rd F.EAS_MBOX_STATUS.BUSY 0 = 1 ∧ s.rd F.EAS_MBOX_CMD.OP = 0x03 ∧ s.argLen ≤ 65536 ∧ s.flashWritable = true ∧
      s.argAddr % 65536 = 0 :=
  ⟨(fun (u : State) => u.withEasel { u.easel with mbox := [(0, 4), (1, 5)], flash := [(0x3200001, 9), (0x3200005, 9), (0x3210000, 3)] })
    <| (st [(F.EAS_MBOX_STATUS.BUSY, 0, 1), (F.EAS_MBOX_CMD.OP, 0, 3), (F.EAS_MBOX_CMD.ADDR, 0, 0x3200000), (F.EAS_MBOX_CMD.LEN, 0,
    3)]), by decide +kernel⟩

theorem witness_MailboxWritesAndRestarts_2 :
    ∃ (s : State) (c : Instr) (k : Nat) (trial : Bool), s.rd F.EAS_MBOX_STATUS.BUSY 0 = 1 ∧ ((c = .setBoot true ∧ s.rd F.EAS_MBOX_CMD.OP
      = 0x05 ∧ k = s.argSlot ∧ trial = s.argFlag ∨ c = .confirm true ∧ s.rd F.EAS_MBOX_CMD.OP = 0x06 ∧ k = s.rd
      F.EAS_BOOT_STATUS.RUN_SLOT ∧ trial = false)) :=
  ⟨(st [(F.EAS_MBOX_STATUS.BUSY, 0, 1), (F.EAS_MBOX_CMD.OP, 0, 5), (F.EAS_MBOX_CMD.SLOT, 0, 1), (F.EAS_MBOX_CMD.FLAG, 0, 1)]), .setBoot
    true, 1, true, by decide +kernel⟩

theorem witness_MailboxWritesAndRestarts_3 :
    ∃ (s : State) (k : Nat), s.rd F.EAS_MBOX_STATUS.BUSY 0 = 1 ∧ s.rd F.EAS_MBOX_CMD.ARG = k ∧ k < 4 ∧ s.rd F.EAS_MBOX_CMD.OP = 0x0E ∧
      (s.rd F.EAS_OTP_STATUS.PROGRAMMED).testBit k = false ∧ ((s.rd F.EAS_OTP_STATUS.PROGRAMMED = 0 ∨ s.keyLive (s.rd
      F.EAS_BOOT_STATUS.KEY_SLOT) = true)) :=
  ⟨(fun (u : State) => u.withEasel { u.easel with mbox := [(31, 4)] }) <| (st [(F.EAS_MBOX_STATUS.BUSY, 0, 1), (F.EAS_MBOX_CMD.OP, 0,
    14), (F.EAS_MBOX_CMD.ARG, 0, 2)]), 2, by decide +kernel⟩

theorem witness_MailboxWritesAndRestarts_4 :
    ∃ (s : State) (k : Nat), s.rd F.EAS_MBOX_STATUS.BUSY 0 = 1 ∧ s.rd F.EAS_MBOX_CMD.ARG = k ∧ k < 4 ∧ s.rd F.EAS_MBOX_CMD.OP = 0x0F ∧ k
      ≠ s.rd F.EAS_BOOT_STATUS.KEY_SLOT ∧ ((∃ j, j < 4 ∧ j ≠ k ∧ s.keyLive j = true)) :=
  ⟨(st [(F.EAS_MBOX_STATUS.BUSY, 0, 1), (F.EAS_MBOX_CMD.OP, 0, 15), (F.EAS_MBOX_CMD.ARG, 0, 2), (F.EAS_OTP_STATUS.PROGRAMMED, 0, 7)]),
    2, by decide +kernel⟩

theorem witness_MailboxWritesAndRestarts_5 :
    ∃ (s : State) (k : Nat), s.rd F.EAS_MBOX_STATUS.BUSY 0 = 1 ∧ s.rd F.EAS_MBOX_CMD.ARG = k ∧ k < 4 ∧ s.rd F.EAS_MBOX_CMD.OP = 0x0F ∧ k
      = s.rd F.EAS_BOOT_STATUS.KEY_SLOT :=
  ⟨(st [(F.EAS_MBOX_STATUS.BUSY, 0, 1), (F.EAS_MBOX_CMD.OP, 0, 15), (F.EAS_MBOX_CMD.ARG, 0, 0)]), 0, by decide +kernel⟩

theorem witness_MailboxWritesAndRestarts_6 :
    ∃ (s : State), s.rd F.EAS_MBOX_STATUS.BUSY 0 = 1 ∧ s.rd F.EAS_MBOX_CMD.OP = 0x10 ∧ s.easel.secVersion < 128 :=
  ⟨(fun (u : State) => u.withEasel { u.easel with secVersion := 5 }) <| (st [(F.EAS_MBOX_STATUS.BUSY, 0, 1), (F.EAS_MBOX_CMD.OP, 0,
    16)]), by decide +kernel⟩

theorem witness_MailboxWritesAndRestarts_7 :
    ∃ (s : State) (c : Instr), ((c = .varnishMirror true ∧ s.easel.dirtySince ≠ none ∧ s.rd F.EAS_BOOT_STATUS.STATE = 2 ∨ c = .mirrorNow
      true ∧ s.rd F.EAS_MBOX_STATUS.BUSY 0 = 1 ∧ s.rd F.EAS_MBOX_CMD.OP = 0x12)) :=
  ⟨(fun (u : State) => u.withEasel { u.easel with mbox := [(31, 4)] }) <| (st [(F.EAS_MBOX_STATUS.BUSY, 0, 1), (F.EAS_MBOX_CMD.OP, 0,
    18)]), .mirrorNow true, by decide +kernel⟩

theorem witness_MailboxWritesAndRestarts_8 :
    ∃ (s : State), s.rd F.EAS_MBOX_STATUS.BUSY 0 = 1 ∧ s.rd F.EAS_MBOX_CMD.OP = 0x0B ∧ s.rd F.EAS_BOOT_STATUS.STATE = 2 ∧ s.argFlag =
      false :=
  ⟨(st [(F.EAS_MBOX_STATUS.BUSY, 0, 1), (F.EAS_MBOX_CMD.OP, 0, 11), (F.EAS_BOOT_STATUS.STATE, 0, 2)]), by decide +kernel⟩

theorem witness_MailboxWritesAndRestarts_9 :
    ∃ (s : State), s.rd F.EAS_MBOX_STATUS.BUSY 0 = 1 ∧ s.rd F.EAS_MBOX_CMD.OP = 0x0B ∧ s.rd F.EAS_BOOT_STATUS.STATE = 2 ∧ s.argFlag =
      true :=
  ⟨(st [(F.EAS_MBOX_STATUS.BUSY, 0, 1), (F.EAS_MBOX_CMD.OP, 0, 11), (F.EAS_BOOT_STATUS.STATE, 0, 2), (F.EAS_MBOX_CMD.FLAG, 0, 1)]),
    by decide +kernel⟩

theorem witness_MailboxWritesAndRestarts_10 :
    ∃ (s : State), s.rd F.EAS_MBOX_STATUS.BUSY 0 = 1 ∧ s.rd F.EAS_MBOX_CMD.OP = 0x13 :=
  ⟨(st [(F.EAS_MBOX_STATUS.BUSY, 0, 1), (F.EAS_MBOX_CMD.OP, 0, 19)]), by decide +kernel⟩

theorem witness_EmvexLanesTimeAndMap_1 :
    ∃ (s : State), s.emvReady = true :=
  ⟨((fun (u : State) => u.withEmv { u.emv with children := (List.range 16).map (fun i => 65535 - 65000 * i) }) <| st
    [(F.EAS_BOOT_STATUS.STATE, 0, 2), (F.EMV_CFG.ROLE, 0, 1), (F.FAB_CFG.MOD_ID, 0, 17), (F.EMV_STATUS.FOLLOW, 0, 3)]),
    by decide +kernel⟩

theorem witness_EmvexLanesTimeAndMap_2 :
    ∃ (s : State) (sub : Nat), s.emvReady = true :=
  ⟨((fun (u : State) => u.withEmv { u.emv with children := (List.range 16).map (fun i => 65535 - 65000 * i) }) <| st
    [(F.EAS_BOOT_STATUS.STATE, 0, 2), (F.EMV_CFG.ROLE, 0, 1), (F.FAB_CFG.MOD_ID, 0, 17), (F.EMV_STATUS.FOLLOW, 0, 3)]), 7,
    by decide +kernel⟩

theorem witness_EmvexLanesTimeAndMap_3 :
    ∃ (s : State), s.emvReady = true ∧ s.acting = true ∧ s.emvRole = 3 :=
  ⟨((fun (u : State) => u.withEmv { u.emv with children := (List.range 16).map (fun i => 65535 - 65000 * i) }) <| st
    [(F.EAS_BOOT_STATUS.STATE, 0, 2), (F.EMV_CFG.ROLE, 0, 3), (F.FAB_CFG.MOD_ID, 0, 17), (F.EMV_STATUS.ACTING, 0, 1),
    (F.EMV_STATUS.FOLLOW, 0, 3)]), by decide +kernel⟩

theorem witness_EmvexLanesTimeAndMap_4 :
    ∃ (s : State) (l : Nat) (sub : Nat) (m : List Byte) (c : Instr), s.emvReady = true ∧ l < 18 ∧ c ∈ [.announceReceive l m false,
      .timeReceive l m false sub, .mapReceive l m false, .joinReceive l m false, .prepareReceive l m false, .replyReceive l m false,
      .cancelReceive l m false] :=
  ⟨(st [(F.EAS_BOOT_STATUS.STATE, 0, 2), (F.EMV_CFG.ROLE, 0, 1), (F.FAB_CFG.MOD_ID, 0, 17), (F.EMV_STATUS.FOLLOW, 0, 3)]), 3, 1, [1, 9],
    .announceReceive 3 [1, 9] false, by decide +kernel⟩

theorem witness_EmvexLanesTimeAndMap_5 :
    ∃ (s : State) (l : Nat) (m : List Byte), s.emvReady = true ∧ l < 18 ∧ emvField m 0 1 = 1 ∧ emvField m 1 1 = 1 :=
  ⟨(st [(F.EAS_BOOT_STATUS.STATE, 0, 2), (F.EMV_CFG.ROLE, 0, 0), (F.FAB_CFG.MOD_ID, 0, 17), (F.EMV_STATUS.FOLLOW, 0, 0)]), 0, ([1, 1, 0,
    16, 0, 0, 1, 1, 0, 0, 0, 0, 0, 0, 0, 0] ++ ([] : List Byte) ++ List.replicate 300 0), by decide +kernel⟩

theorem witness_EmvexLanesTimeAndMap_6 :
    ∃ (s : State) (l : Nat) (sub : Nat) (m : List Byte), s.emvReady = true ∧ l < 18 ∧ emvField m 0 1 = 1 ∧ emvField m 1 1 = 2 ∧ s.follow
      ≠ some l :=
  ⟨(st [(F.EAS_BOOT_STATUS.STATE, 0, 2), (F.EMV_CFG.ROLE, 0, 0), (F.FAB_CFG.MOD_ID, 0, 17), (F.EMV_STATUS.FOLLOW, 0, 3)]), 0, 5, ([1, 2,
    0, 16, 0, 0, 4, 1, 0, 0, 0, 0, 0, 0, 0, 0] ++ (octetsBE 10 65536000 ++ octetsBE 10 7 ++ octetsBE 10 9 : List Byte) ++ List.replicate
    300 0), by decide +kernel⟩

theorem witness_EmvexLanesTimeAndMap_7 :
    ∃ (s : State) (l : Nat) (sub : Nat) (m : List Byte), s.emvReady = true ∧ l < 18 ∧ emvField m 0 1 = 1 ∧ emvField m 1 1 = 2 ∧ s.follow
      = some l ∧ (emvField m 6 1).testBit 2 = true ∧ emvField m 26 10 ≠ 0 :=
  ⟨(st [(F.EAS_BOOT_STATUS.STATE, 0, 2), (F.EMV_CFG.ROLE, 0, 0), (F.FAB_CFG.MOD_ID, 0, 17), (F.EMV_STATUS.FOLLOW, 0, 0)]), 0, 5, ([1, 2,
    0, 16, 0, 0, 4, 1, 0, 0, 0, 0, 0, 0, 0, 0] ++ (octetsBE 10 65536000 ++ octetsBE 10 7 ++ octetsBE 10 9 : List Byte) ++ List.replicate
    300 0), by decide +kernel⟩

theorem witness_EmvexLanesTimeAndMap_8 :
    ∃ (s : State) (l : Nat) (sub : Nat) (m : List Byte), s.emvReady = true ∧ l < 18 ∧ emvField m 0 1 = 1 ∧ emvField m 1 1 = 2 ∧ s.follow
      = some l ∧ (emvField m 6 1).testBit 2 = false :=
  ⟨(st [(F.EAS_BOOT_STATUS.STATE, 0, 2), (F.EMV_CFG.ROLE, 0, 0), (F.FAB_CFG.MOD_ID, 0, 17), (F.EMV_STATUS.FOLLOW, 0, 0)]), 0, 5, ([1, 2,
    0, 16, 0, 0, 0, 1, 0, 0, 0, 0, 0, 0, 0, 0] ++ (octetsBE 10 65536000 ++ octetsBE 10 7 ++ octetsBE 10 9 : List Byte) ++ List.replicate
    300 0), by decide +kernel⟩

theorem witness_EmvexLanesTimeAndMap_9 :
    ∃ (s : State) (l : Nat) (m : List Byte), s.emvReady = true ∧ l < 18 ∧ emvField m 0 1 = 1 ∧ emvField m 1 1 = 3 ∧ s.follow = some l ∧
      s.emv.mapHeard = false :=
  ⟨(st [(F.EAS_BOOT_STATUS.STATE, 0, 2), (F.EMV_CFG.ROLE, 0, 0), (F.FAB_CFG.MOD_ID, 0, 17), (F.EMV_STATUS.FOLLOW, 0, 0)]), 0, ([1, 3, 0,
    16, 0, 0, 4, 1, 0, 0, 0, 0, 0, 0, 0, 0] ++ (octetsBE 4 77 ++ [3, 4, 5] : List Byte) ++ List.replicate 300 0), by decide +kernel⟩

theorem witness_EmvexLanesTimeAndMap_10 :
    ∃ (s : State) (l : Nat) (md : Nat) (m : List Byte), s.emvReady = true ∧ l < 18 ∧ emvField m 0 1 = 1 ∧ emvField m 1 1 = 4 ∧ s.follow
      ≠ some l ∧ emvField m 16 2 = md ∧ md < 2048 ∧ s.emvRole = 3 ∧ s.acting = true :=
  ⟨(st [(F.EAS_BOOT_STATUS.STATE, 0, 2), (F.EMV_CFG.ROLE, 0, 3), (F.FAB_CFG.MOD_ID, 0, 17), (F.EMV_STATUS.ACTING, 0, 1),
    (F.EMV_STATUS.FOLLOW, 0, 3)]), 3, 18, ([1, 4, 0, 16, 0, 0, 4, 1, 0, 0, 0, 0, 0, 0, 0, 0] ++ ([0, 18] : List Byte) ++ List.replicate
    300 0), by decide +kernel⟩

theorem witness_EmvexLanesTimeAndMap_11 :
    ∃ (s : State) (l : Nat) (md : Nat) (m : List Byte) (f : _), s.emvReady = true ∧ l < 18 ∧ emvField m 0 1 = 1 ∧ emvField m 1 1 = 4 ∧
      s.follow ≠ some l ∧ emvField m 16 2 = md ∧ md < 2048 ∧ s.emvRole ≠ 3 ∧ s.follow = some f :=
  ⟨(st [(F.EAS_BOOT_STATUS.STATE, 0, 2), (F.EMV_CFG.ROLE, 0, 1), (F.FAB_CFG.MOD_ID, 0, 17), (F.EMV_STATUS.FOLLOW, 0, 0)]), 3, 18, ([1,
    4, 0, 16, 0, 0, 4, 1, 0, 0, 0, 0, 0, 0, 0, 0] ++ ([0, 18] : List Byte) ++ List.replicate 300 0), 0, by decide +kernel⟩

theorem witness_EmvexLanesTimeAndMap_12 :
    ∃ (s : State) (md : Nat), md < 2048 ∧ s.takes .EMV_MAP_CTRL = true ∧ s.emvRole = 3 ∧ s.acting = true ∧ s.mapBit md = true :=
  ⟨(st [(F.EAS_BOOT_STATUS.STATE, 0, 2), (F.EMV_CFG.ROLE, 0, 3), (F.FAB_CFG.MOD_ID, 0, 17), (F.EMV_STATUS.ACTING, 0, 1),
    (F.EMV_STATUS.FOLLOW, 0, 3), (F.EMV_MAP.MAP, 0, 2 ^ 17 + 2 ^ 3)]), 3, by decide +kernel⟩

theorem witness_EmvexLanesTimeAndMap_13 :
    ∃ (s : State) (md : Nat), md < 2048 ∧ s.takes .EMV_MAP_CTRL = true ∧ ((s.emvRole ≠ 3 ∨ s.acting = false)) :=
  ⟨(st [(F.EAS_BOOT_STATUS.STATE, 0, 2), (F.EMV_CFG.ROLE, 0, 2), (F.FAB_CFG.MOD_ID, 0, 17), (F.EMV_STATUS.ACTING, 0, 1),
    (F.EMV_STATUS.FOLLOW, 0, 3)]), 2047, by decide +kernel⟩

theorem witness_EmvexLanesTimeAndMap_14 :
    ∃ (s : State) (l : Nat), s.follow = some l :=
  ⟨(st [(F.EAS_BOOT_STATUS.STATE, 0, 2), (F.EMV_CFG.ROLE, 0, 0), (F.FAB_CFG.MOD_ID, 0, 17), (F.EMV_STATUS.FOLLOW, 0, 0),
    (F.EMV_LANE_STATUS.UP, 0, 1)]), 0, by decide +kernel⟩

theorem witness_EmvexLanesTimeAndMap_15 :
    ∃ (s : State) (l : Nat) (due : Nat), s.follow = some l ∧ due = (s.emvLane l).heardAt.getD 0 + s.emvLoss ∧ due < 2 ^ 80 :=
  ⟨(st [(F.EAS_BOOT_STATUS.STATE, 0, 2), (F.EMV_CFG.ROLE, 0, 0), (F.FAB_CFG.MOD_ID, 0, 17), (F.EMV_STATUS.FOLLOW, 0, 0),
    (F.EMV_LANE_STATUS.UP, 0, 1)]), 0, (((st [(F.EAS_BOOT_STATUS.STATE, 0, 2), (F.EMV_CFG.ROLE, 0, 0), (F.FAB_CFG.MOD_ID, 0, 17),
    (F.EMV_STATUS.FOLLOW, 0, 0), (F.EMV_LANE_STATUS.UP, 0, 1)])).emvLane (0)).heardAt.getD 0 + ((st [(F.EAS_BOOT_STATUS.STATE, 0, 2),
    (F.EMV_CFG.ROLE, 0, 0), (F.FAB_CFG.MOD_ID, 0, 17), (F.EMV_STATUS.FOLLOW, 0, 0), (F.EMV_LANE_STATUS.UP, 0, 1)])).emvLoss,
    by decide +kernel⟩

theorem witness_EmvexLanesTimeAndMap_16 :
    ∃ (s : State) (l : Nat), s.follow ≠ some l ∧ s.laneUp l = true :=
  ⟨(st [(F.EAS_BOOT_STATUS.STATE, 0, 2), (F.EMV_CFG.ROLE, 0, 1), (F.FAB_CFG.MOD_ID, 0, 17), (F.EMV_STATUS.FOLLOW, 0, 3),
    (F.EMV_LANE_STATUS.UP, 1, 1)]), 1, by decide +kernel⟩

theorem witness_EmvexLanesTimeAndMap_17 :
    ∃ (s : State), s.emvReady = true ∧ s.emvRole ≠ 0 ∧ s.acting = false ∧ s.laneUp 1 = false :=
  ⟨(st [(F.EAS_BOOT_STATUS.STATE, 0, 2), (F.EMV_CFG.ROLE, 0, 1), (F.FAB_CFG.MOD_ID, 0, 17), (F.EMV_STATUS.FOLLOW, 0, 3),
    (F.EMV_CFG.PRIMARY, 0, 0)]), by decide +kernel⟩

theorem witness_EmvexLanesTimeAndMap_18 :
    ∃ (s : State), s.emvReady = true ∧ s.emvRole ≠ 0 ∧ s.emvPrimary = false ∧ s.acting = true ∧ s.takes .EMV_CTRL = true :=
  ⟨(st [(F.EAS_BOOT_STATUS.STATE, 0, 2), (F.EMV_CFG.ROLE, 0, 1), (F.FAB_CFG.MOD_ID, 0, 17), (F.EMV_STATUS.ACTING, 0, 1),
    (F.EMV_STATUS.FOLLOW, 0, 3), (F.EMV_CFG.PRIMARY, 0, 0)]), by decide +kernel⟩

theorem witness_CoatCommitsAcrossModules_1 :
    ∃ (s : State) (coat : Nat) (T : Nat), coat < 65536 ∧ T < 2 ^ 64 ∧ s.emvRole = 3 ∧ s.acting = true ∧ s.takes .EMV_COMMIT_CTRL = true
      ∧ s.rd F.EMV_COMMIT_STATUS.STATE ≠ 1 ∧ s.rd F.EMV_COMMIT_STATUS.STATE ≠ 2 ∧ s.localNow + ms 10 ≤ T * 65536 :=
  ⟨((fun (u : State) => u.withEmv { u.emv with children := (List.range 16).map (fun i => 65535 - 65000 * i) }) <| st
    [(F.EAS_BOOT_STATUS.STATE, 0, 2), (F.EMV_CFG.ROLE, 0, 3), (F.FAB_CFG.MOD_ID, 0, 17), (F.EMV_STATUS.ACTING, 0, 1),
    (F.EMV_STATUS.FOLLOW, 0, 3)]), 3, 50000000, by decide +kernel⟩

theorem witness_CoatCommitsAcrossModules_2 :
    ∃ (s : State) (coat : Nat) (T : Nat), coat < 65536 ∧ T < 2 ^ 64 ∧ s.takes .EMV_COMMIT_CTRL = true ∧ ((s.emvRole ≠ 3 ∨ s.acting =
      false ∨ s.rd F.EMV_COMMIT_STATUS.STATE = 1 ∨ s.rd F.EMV_COMMIT_STATUS.STATE = 2 ∨ T * 65536 < s.localNow + ms 10)) :=
  ⟨(st [(F.EAS_BOOT_STATUS.STATE, 0, 2), (F.EMV_CFG.ROLE, 0, 3), (F.FAB_CFG.MOD_ID, 0, 17), (F.EMV_STATUS.ACTING, 0, 1),
    (F.EMV_STATUS.FOLLOW, 0, 3)]), 3, 9999999, by decide +kernel⟩

theorem witness_CoatCommitsAcrossModules_3 :
    ∃ (s : State) (l : Nat) (m : List Byte), s.emvReady = true ∧ l < 18 ∧ emvField m 0 1 = 1 ∧ emvField m 1 1 = 5 ∧ s.follow = some l ∧
      s.emvRole = 0 :=
  ⟨(st [(F.EAS_BOOT_STATUS.STATE, 0, 2), (F.EMV_CFG.ROLE, 0, 0), (F.FAB_CFG.MOD_ID, 0, 17), (F.EMV_STATUS.FOLLOW, 0, 0)]), 0, ([1, 5, 0,
    16, 0, 0, 4, 1, 0, 0, 0, 0, 0, 0, 0, 0] ++ (octetsBE 4 77 ++ octetsBE 2 3 ++ octetsBE 8 50000000 : List Byte) ++ List.replicate 300
    0), by decide +kernel⟩

theorem witness_CoatCommitsAcrossModules_4 :
    ∃ (s : State) (l : Nat) (m : List Byte) (c : Commit), s.emvReady = true ∧ l < 18 ∧ emvField m 0 1 = 1 ∧ emvField m 1 1 = 6 ∧
      s.follow ≠ some l ∧ s.emv.commit = some c ∧ emvField m 16 4 = c.id :=
  ⟨((fun (u : State) => u.withEmv { u.emv with commit := some (⟨9, 50000000, 3, 0, false, 700, false, true⟩ : Commit) }) <| st
    [(F.EAS_BOOT_STATUS.STATE, 0, 2), (F.EMV_CFG.ROLE, 0, 1), (F.FAB_CFG.MOD_ID, 0, 17), (F.EMV_STATUS.FOLLOW, 0, 3)]), 3, ([1, 6, 0,
    16, 0, 0, 4, 1, 0, 0, 0, 0, 0, 0, 0, 0] ++ (octetsBE 4 9 ++ [0, 3, 0, 0, 0, 1, 0, 5, 2] : List Byte) ++ List.replicate 300 0), (⟨9,
    50000000, 3, 0, false, 700, false, true⟩ : Commit), by decide +kernel⟩

theorem witness_CoatCommitsAcrossModules_5 :
    ∃ (s : State) (c : Commit), s.emv.commit = some c ∧ c.sent = false ∧ s.emvRole ≠ 0 ∧ s.emvRole = 3 ∧ s.acting = true :=
  ⟨((fun (u : State) => u.withEmv { u.emv with commit := some (⟨9, 50000000, 3, 0, false, 700, false, true⟩ : Commit) }) <| st
    [(F.EAS_BOOT_STATUS.STATE, 0, 2), (F.EMV_CFG.ROLE, 0, 3), (F.FAB_CFG.MOD_ID, 0, 17), (F.EMV_STATUS.ACTING, 0, 1),
    (F.EMV_STATUS.FOLLOW, 0, 3)]), (⟨9, 50000000, 3, 0, false, 700, false, true⟩ : Commit), by decide +kernel⟩

theorem witness_CoatCommitsAcrossModules_6 :
    ∃ (s : State) (c : Commit) (f : _), s.emv.commit = some c ∧ c.sent = false ∧ s.emvRole ≠ 0 ∧ s.emvRole ≠ 3 ∧ s.follow = some f :=
  ⟨((fun (u : State) => u.withEmv { u.emv with commit := some (⟨9, 50000000, 3, 0, false, 700, false, true⟩ : Commit) }) <| st
    [(F.EAS_BOOT_STATUS.STATE, 0, 2), (F.EMV_CFG.ROLE, 0, 1), (F.FAB_CFG.MOD_ID, 0, 17), (F.EMV_STATUS.FOLLOW, 0, 0)]), (⟨9, 50000000,
    3, 0, false, 700, false, true⟩ : Commit), 0, by decide +kernel⟩

theorem witness_CoatCommitsAcrossModules_7 :
    ∃ (s : State) (l : Nat) (m : List Byte) (c : Commit), s.emvReady = true ∧ l < 18 ∧ emvField m 0 1 = 1 ∧ emvField m 1 1 = 7 ∧
      s.follow = some l ∧ s.emv.commit = some c ∧ emvField m 16 4 = c.id ∧ c.own = 0 ∧ c.swapped = false ∧ s.coatState = 1 :=
  ⟨((fun (u : State) => u.withEmv { u.emv with commit := some (⟨9, 50000000, 3, 0, false, 700, false, true⟩ : Commit) }) <| st
    [(F.EAS_BOOT_STATUS.STATE, 0, 2), (F.EMV_CFG.ROLE, 0, 1), (F.FAB_CFG.MOD_ID, 0, 17), (F.EMV_STATUS.FOLLOW, 0, 0),
    (F.GLZ_COAT_STATUS.STATE, 0, 1)]), 0, ([1, 7, 0, 16, 0, 0, 4, 1, 0, 0, 0, 0, 0, 0, 0, 0] ++ (octetsBE 4 9 : List Byte) ++
    List.replicate 300 0), (⟨9, 50000000, 3, 0, false, 700, false, true⟩ : Commit), by decide +kernel⟩

theorem witness_CoatCommitsAcrossModules_8 :
    ∃ (s : State) (c : Commit), s.emv.commit = some c ∧ s.emvRole = 3 ∧ s.acting = true ∧ s.rd F.EMV_COMMIT_STATUS.STATE = 1 :=
  ⟨((fun (u : State) => u.withEmv { u.emv with commit := some (⟨9, 50000000, 3, 0, false, 700, false, true⟩ : Commit) }) <| st
    [(F.EAS_BOOT_STATUS.STATE, 0, 2), (F.EMV_CFG.ROLE, 0, 3), (F.FAB_CFG.MOD_ID, 0, 17), (F.EMV_STATUS.ACTING, 0, 1),
    (F.EMV_STATUS.FOLLOW, 0, 3), (F.EMV_COMMIT_STATUS.STATE, 0, 1), (F.EMV_MAP.MAP, 0, 2 ^ 17 + 2 ^ 3)]), (⟨9, 50000000, 3, 0, false,
    700, false, true⟩ : Commit), by decide +kernel⟩

theorem witness_CoatCommitsAcrossModules_9 :
    ∃ (s : State) (c : Commit) (heard : List Nat), s.emv.commit = some c ∧ s.emvRole = 3 ∧ s.acting = true ∧ c.live = true ∧ heard =
      s.mapModules.filterMap (s.announcedCoat (s.frcOfLocal (c.at_ * 65536))) :=
  ⟨((fun (u : State) => u.withEmv { u.emv with commit := some (⟨9, 50000000, 3, 0, false, 700, false, true⟩ : Commit) }) <| st
    [(F.EAS_BOOT_STATUS.STATE, 0, 2), (F.EMV_CFG.ROLE, 0, 3), (F.FAB_CFG.MOD_ID, 0, 17), (F.EMV_STATUS.ACTING, 0, 1),
    (F.EMV_STATUS.FOLLOW, 0, 3), (F.EMV_COMMIT_STATUS.STATE, 0, 2), (F.EMV_MAP.MAP, 0, 2 ^ 17 + 2 ^ 3)]), (⟨9, 50000000, 3, 0, false,
    700, false, true⟩ : Commit), (((fun (u : State) => u.withEmv
    { u.emv with commit := some (⟨9, 50000000, 3, 0, false, 700, false, true⟩ : Commit) }) <| st [(F.EAS_BOOT_STATUS.STATE, 0, 2),
    (F.EMV_CFG.ROLE, 0, 3), (F.FAB_CFG.MOD_ID, 0, 17), (F.EMV_STATUS.ACTING, 0, 1), (F.EMV_STATUS.FOLLOW, 0, 3),
    (F.EMV_COMMIT_STATUS.STATE, 0, 2), (F.EMV_MAP.MAP, 0, 2 ^ 17 + 2 ^ 3)])).mapModules.filterMap ((((fun (u : State) => u.withEmv
    { u.emv with commit := some (⟨9, 50000000, 3, 0, false, 700, false, true⟩ : Commit) }) <| st [(F.EAS_BOOT_STATUS.STATE, 0, 2),
    (F.EMV_CFG.ROLE, 0, 3), (F.FAB_CFG.MOD_ID, 0, 17), (F.EMV_STATUS.ACTING, 0, 1), (F.EMV_STATUS.FOLLOW, 0, 3),
    (F.EMV_COMMIT_STATUS.STATE, 0, 2), (F.EMV_MAP.MAP, 0, 2 ^ 17 + 2 ^ 3)])).announcedCoat ((((fun (u : State) => u.withEmv
    { u.emv with commit := some (⟨9, 50000000, 3, 0, false, 700, false, true⟩ : Commit) }) <| st [(F.EAS_BOOT_STATUS.STATE, 0, 2),
    (F.EMV_CFG.ROLE, 0, 3), (F.FAB_CFG.MOD_ID, 0, 17), (F.EMV_STATUS.ACTING, 0, 1), (F.EMV_STATUS.FOLLOW, 0, 3),
    (F.EMV_COMMIT_STATUS.STATE, 0, 2), (F.EMV_MAP.MAP, 0, 2 ^ 17 + 2 ^ 3)])).frcOfLocal (((⟨9, 50000000, 3, 0, false, 700, false, true⟩
    : Commit)).at_ * 65536))), by decide +kernel⟩

end Sys2Proof.Tests
end

/-!
## Refused accesses (O10)

The statement fails in its last clause: a command that stands for a host write of a register is not without effect in reset and in
sleep. The soft errors that the model gives CNT_READ as operands (assumption 21) strike the DRAM of the pair's channel before the gates
are asked.
-/
namespace Sys2Proof.Machine

/-- In sleep and in reset a host write commanded by a row of its own is lost (R597, R601). -/
theorem State.landed_of_silent {s : State} (h : s.host.asleep = true ∨ s.inReset = true) (r : Reg) (f : State → State) :
    s.landed r f = s := by
  have hgate : (s.host.asleep || s.inReset) = true := (Bool.or_eq_true _ _).mpr h
  exact if_pos hgate

/-- Soft errors strike a memory and leave the host interface as it is. -/
@[simp] theorem State.strikePair_host (s : State) (i : Nat) (strikes : List (Nat × Nat)) :
    (s.strikePair i strikes).host = s.host := by
  unfold State.strikePair
  split <;> rfl

/-- In sleep CNT_READ still leaves behind the errors that strike the pair's channel. -/
theorem exec_cntRead_of_asleep {s : State} (h : s.host.asleep = true) (i : Nat) (strikes : List (Nat × Nat)) :
    exec (.cntRead i strikes) s = .next (s.strikePair i strikes) :=
  congrArg Host.Outcome.next (State.landed_of_silent (Or.inl ((congrArg HostIf.asleep (State.strikePair_host s i strikes)).trans h)) _ _)

/-- A module that is powered, out of reset and asleep, its DRAM without errors. -/
def sleeping : State :=
  (State.reset.withPower { State.reset.power with released := true }).withHost { State.reset.host with asleep := true }

/-- One flipped bit in the channel of the first pair in DRAM stays there. -/
theorem strikePair_sleeping_ne : sleeping.strikePair 262144 [(0, 1)] ≠ sleeping := fun h =>
  absurd (congrArg (fun s : State => s.dram.struck) h) (by decide)

/-- Refutes O10 in the clause on sleep: CNT_READ of the first pair in DRAM, with one flipped bit as its operand, leaves that bit in the
DRAM of a module that is asleep. -/
theorem not_refusedAccessesSayWhy : ¬ Obligations.RefusedAccessesSayWhy := by
  unfold Obligations.RefusedAccessesSayWhy
  intro h
  obtain ⟨-, -, -, hwrite⟩ := h
  obtain ⟨hsilent, -, -⟩ := hwrite sleeping (.cntRead 262144 [(0, 1)]) .TLY_CNT_ACC rfl (by decide)
  have hsame := hsilent (Or.inl rfl)
  rw [exec_cntRead_of_asleep rfl] at hsame
  exact strikePair_sleeping_ne (Host.Outcome.next.inj hsame)

end Sys2Proof.Machine

/-!
## The two 32-bit accesses of a 64-bit register (O13)

Each access is followed through the gates of `hostRead` and `hostWrite` to the half it names (R15, R16).
-/
namespace Sys2Proof.Machine

/-! ### An access that reaches a register passes every gate -/

theorem State.reaches_iff (s : State) (a w : Nat) : s.reaches a w = true ↔
    (s.host.asleep = false ∧ s.inReset = false ∧ goodAccess a w = true ∧ s.gateBoot a = false ∧ s.gateSeam a = false) ∧
      inMbox a = false ∧ inMsix a = false ∧ inPba a = false := by
  simp only [State.reaches, Bool.and_eq_true, Bool.not_eq_true', and_assoc]

theorem bar0_ne_cfgSpace : bar0 ≠ cfgSpace := by decide

theorem bar0_ne_bar2 : bar0 ≠ bar2 := by decide

theorem State.hostRead_of_reaches {s : State} {a : Nat} (h : s.reaches a 4 = true) : s.hostRead bar0 a 4 = s.read32 a := by
  obtain ⟨hgates, -⟩ := (s.reaches_iff a 4).mp h
  simp only [State.hostRead, hgates, bar0_ne_cfgSpace, bar0_ne_bar2, Bool.or_self, Bool.not_true, Bool.false_eq_true,
    Nat.reduceEqDiff, if_false]

theorem State.hostWrite_of_reaches {s : State} {a : Nat} (h : s.reaches a 4 = true) (v : Nat) :
    s.hostWrite bar0 a 4 v = s.write32 a (v % 2 ^ 32) := by
  obtain ⟨hgates, -⟩ := (s.reaches_iff a 4).mp h
  simp only [State.hostWrite, hgates, bar0_ne_cfgSpace, bar0_ne_bar2, Bool.or_self, Bool.not_true, Bool.false_eq_true,
    Nat.reduceEqDiff, if_false]

/-- What a 32-bit read that reaches a register returns stands in `readData`. -/
theorem State.reads_of_reaches {s : State} {a : Nat} (h : s.reaches a 4 = true) :
    s.reads bar0 a 4 =
      (s.read32 a).1.withHost { (s.read32 a).1.host with readData := BitVec.ofNat 64 (s.read32 a).2 } := by
  unfold State.reads
  rw [State.hostRead_of_reaches h]

/-! ### A word of a register that shows what is stored in it -/

/-- A register that is not 32 bits wide is accessed by 64-bit words (R12). -/
theorem Reg.unit_eq_of_width_ne {r : Reg} (h : r.info.width ≠ 32) : r.unit = 64 := by
  have hw (r : Reg) : r.info.width = 32 ∨ 64 ≤ r.info.width := by cases r <;> decide
  exact Nat.min_eq_left ((hw r).resolve_left h)

theorem State.viewReg_of_shown {s : State} {r : Reg} (hr : r.shown = true) (hf : s.tally.frozenPairs = none) (i : Nat) :
    s.viewReg r i = (s.reg r i).toNat := by
  unfold State.viewReg
  split
  -- only these two views ask whether the counters are frozen, and they are not; every other one is of a register that is not `shown`
  case h_9 | h_10 =>
    simp only [hf, Option.isNone_none, Option.isSome_none, Bool.false_and, Bool.false_eq_true, if_true, if_false]
  all_goals exact absurd hr (by decide)

/-- Outside a freeze a read clears RC fields of the register read and changes nothing else. -/
theorem State.readClear_touches {s : State} (hf : s.tally.frozenPairs = none) (l : List Part) (r : Reg) (i w m : Nat) :
    State.touches l [r] s (s.readClear r i w m) := by
  simp only [State.readClear, hf, Option.isSome_none, Bool.false_eq_true, and_false, if_false]
  split
  · exact State.touches_refl _ _ s
  · exact State.touches_setReg (State.touches_refl _ _ s) r i _ List.mem_cons_self

/-- Clearing RC fields leaves the host interface as it is. -/
@[simp] theorem State.readClear_host (s : State) (r : Reg) (i w m : Nat) : (s.readClear r i w m).host = s.host := by
  unfold State.readClear
  dsimp only
  split
  · rfl
  · split
    · rfl
    · rfl

@[simp] theorem andNot_zero (x : Nat) : andNot x 0 = x :=
  congrArg (x - ·) (Nat.and_zero x)

theorem land_ones_of_lt {x n : Nat} (h : x < 2 ^ n) : Nat.land x (2 ^ n - 1) = x :=
  (Nat.and_two_pow_sub_one_eq_mod x n).trans (Nat.mod_eq_of_lt h)

/-- Outside a freeze a read of a word returns it, where it has no WO field, and does no more than clear its RC fields (R17). -/
theorem State.readWord_of_shown {s : State} {r : Reg} (hr : r.shown = true) (hf : s.tally.frozenPairs = none)
    (hwo : r.info.wo = 0) (hw : r.info.width ≠ 32) (i w a : Nat) :
    s.readWord r i w a (2 ^ 64 - 1) = (s.readClear r i w (2 ^ 64 - 1), bitsOf (s.reg r i).toNat (64 * w) 64) := by
  have hl : latching r = false := by
    simp only [Reg.shown, Bool.and_eq_true, Bool.not_eq_true'] at hr
    exact hr.1
  have hwo' : bitsOf r.info.wo (64 * w) 64 = 0 := by
    rw [hwo, bitsOf, Nat.zero_div, Nat.zero_mod]
  simp only [State.readWord, hl, Bool.not_false, if_true, State.viewReg_of_shown hr hf, Reg.unit_eq_of_width_ne hw, hwo',
    andNot_zero, land_ones_of_lt (bitsOf_lt _ _ 64)]

/-! ### The two halves of a 64-bit word -/

theorem bitsOf_mod_half (v lo : Nat) : bitsOf v lo 64 % 2 ^ 32 = bitsOf v lo 32 :=
  Nat.mod_mod_of_dvd _ (by decide)

theorem bitsOf_div_half (v lo : Nat) : bitsOf v lo 64 / 2 ^ 32 = bitsOf v (lo + 32) 32 := by
  unfold bitsOf
  rw [Nat.pow_add, ← Nat.div_div_eq_div_mul]
  omega

/-! ### The four accesses, by the half they name -/

section Access

variable {s : State} {a : Nat} {r : Reg} {i o : Nat}
  (h : s.reaches a 4 = true) (hfind : Reg.find a = some (r, i, o)) (hw : r.info.width ≠ 32)
include h hfind hw

/-- R15: a read of the low word latches the high one for the place after it. -/
theorem State.read32_low (ho : o % 8 = 0) {t : State} {v : Nat} (hr : s.readWord r i (o / 8) a (2 ^ 64 - 1) = (t, v)) :
    s.read32 a =
      (t.withHost { t.host with readLatch := Sparse.write none t.host.readLatch (a + 4) (some (BitVec.ofNat 32 (v / 2 ^ 32))) },
        v % 2 ^ 32) := by
  obtain ⟨-, hplace⟩ := (s.reaches_iff a 4).mp h
  simp only [State.read32, hplace, hfind, hw, ho, hr, Bool.false_eq_true, if_false, if_true]

/-- R15: a read of the high word returns what is latched, and uses it up. -/
theorem State.read32_high (ho : o % 8 = 4) {x : BitVec 32} (hx : Sparse.read none s.host.readLatch a = some x) :
    s.read32 a = (s.withHost { s.host with readLatch := Sparse.write none s.host.readLatch a none }, x.toNat) := by
  obtain ⟨-, hplace⟩ := (s.reaches_iff a 4).mp h
  simp only [State.read32, hplace, hfind, hw, ho, hx, Nat.reduceEqDiff, Bool.false_eq_true, if_false]

/-- R16: a write of the low word is held. -/
theorem State.write32_low (ho : o % 8 = 0) (hb : s.busyWrite r i = none) (v : Nat) :
    s.write32 a v = s.withHost { s.host with writeHold := Sparse.write none s.host.writeHold a (some (BitVec.ofNat 32 v)) } := by
  obtain ⟨-, hplace⟩ := (s.reaches_iff a 4).mp h
  simp only [State.write32, hplace, hfind, hw, ho, hb, Bool.false_eq_true, if_false, if_true]

/-- R16: a write of the high word applies the low word that is held with it. -/
theorem State.write32_high (ho : o % 8 = 4) {low : BitVec 32} (hl : Sparse.read none s.host.writeHold (a - 4) = some low) (v : Nat) :
    s.write32 a v =
      (s.withHost { s.host with writeHold := Sparse.write none s.host.writeHold (a - 4) none }).writeWord r i (o / 8)
        (low.toNat + v * 2 ^ 32) := by
  obtain ⟨-, hplace⟩ := (s.reaches_iff a 4).mp h
  simp only [State.write32, hplace, hfind, hw, ho, hl, Nat.reduceEqDiff, Bool.false_eq_true, if_false]

end Access

/-! ### The four commands -/

/-- R15, the low word: a read returns it and latches the high word; it changes no part but the host's, and the register by its RC fields. -/
theorem exec_read64LowWord_of_shown {s : State} {a : Nat} {r : Reg} {i o : Nat} (h : s.reaches a 4 = true)
    (hfind : Reg.find a = some (r, i, o)) (ho : o % 8 = 0) (hw : r.info.width ≠ 32) (hr : r.shown = true)
    (hf : s.tally.frozenPairs = none) (hwo : r.info.wo = 0) :
    exec (.read64LowWord a) s = .next ((s.readClear r i (o / 8) (2 ^ 64 - 1)).withHost
      { s.host with
        readData := BitVec.ofNat 64 (bitsOf (s.reg r i).toNat (8 * o) 32)
        readLatch := Sparse.write none s.host.readLatch (a + 4)
          (some (BitVec.ofNat 32 (bitsOf (s.reg r i).toNat (8 * o + 32) 32))) }) := by
  have hread := State.read32_low h hfind hw ho (State.readWord_of_shown hr hf hwo hw i (o / 8) a)
  have hbit : 64 * (o / 8) = 8 * o := by omega
  rw [hbit, bitsOf_mod_half, bitsOf_div_half, State.readClear_host] at hread
  rw [exec_read64LowWord, execRead64LowWord, State.reads_of_reaches h, hread]
  rfl

/-- R15, the high word: a read returns the latched word, which is used up. -/
theorem exec_readClearField_of_latched {s : State} {a : Nat} {r : Reg} {i o : Nat} {x : BitVec 32} (h : s.reaches a 4 = true)
    (hfind : Reg.find a = some (r, i, o)) (ho : o % 8 = 4) (hw : r.info.width ≠ 32)
    (hx : Sparse.read none s.host.readLatch a = some x) :
    exec (.readClearField bar0 a 4) s = .next (s.withHost
      { s.host with
        readData := BitVec.ofNat 64 x.toNat
        readLatch := Sparse.write none s.host.readLatch a none }) := by
  rw [exec_readClearField, execReadClearField, State.reads_of_reaches h, State.read32_high h hfind hw ho hx]
  rfl

/-- R16, the low word: a write is held. -/
theorem exec_write64LowWord_of_idle {s : State} {a v : Nat} {r : Reg} {i o : Nat} (h : s.reaches a 4 = true)
    (hfind : Reg.find a = some (r, i, o)) (ho : o % 8 = 0) (hw : r.info.width ≠ 32) (hv : v < 2 ^ 32)
    (hb : s.busyWrite r i = none) :
    exec (.write64LowWord a v) s = .next (s.withHost
      { s.host with writeHold := Sparse.write none s.host.writeHold a (some (BitVec.ofNat 32 v)) }) := by
  rw [exec_write64LowWord, execWrite64LowWord, State.hostWrite_of_reaches h, Nat.mod_eq_of_lt hv,
    State.write32_low h hfind hw ho hb]

/-- R16, the high word: a write applies both words. -/
theorem exec_registerWrite_of_held {s : State} {a v : Nat} {r : Reg} {i o : Nat} {low : BitVec 32} (h : s.reaches a 4 = true)
    (hfind : Reg.find a = some (r, i, o)) (ho : o % 8 = 4) (hw : r.info.width ≠ 32) (hv : v < 2 ^ 32)
    (hl : Sparse.read none s.host.writeHold (a - 4) = some low) :
    exec (.registerWrite bar0 a 4 v) s = .next
      ((s.withHost { s.host with writeHold := Sparse.write none s.host.writeHold (a - 4) none }).writeWord r i (o / 8)
        (low.toNat + v * 2 ^ 32)) := by
  rw [exec_registerWrite, execRegisterWrite, State.hostWrite_of_reaches h, Nat.mod_eq_of_lt hv,
    State.write32_high h hfind hw ho hl]

/-- Settles O13: each of the four accesses is one of the commands above, a latch or a held word standing for each register entry
(assumption 10). -/
theorem sixtyFourBitRegistersByTwoAccesses : Obligations.SixtyFourBitRegistersByTwoAccesses := by
  unfold Obligations.SixtyFourBitRegistersByTwoAccesses
  refine ⟨?readLow, ?readHigh, ?writeLow, ?writeHigh⟩
  case readLow =>
    intro s a r i o h hfind ho hw hr hf hwo
    refine ⟨_, exec_read64LowWord_of_shown h hfind ho hw hr hf hwo, rfl, rfl, rfl, ?_⟩
    exact (State.touches_withHost (State.readClear_touches hf _ r i (o / 8) _) _ List.mem_cons_self).1
  case readHigh =>
    intro s a r i o x h hfind ho hw hx
    exact ⟨_, exec_readClearField_of_latched h hfind ho hw hx, rfl, rfl, State.frame_withHost (State.frame_refl _ _ s) _ List.mem_cons_self⟩
  case writeLow =>
    intro s a v r i o h hfind ho hw hv hb
    exact ⟨_, exec_write64LowWord_of_idle h hfind ho hw hv hb, rfl, State.frame_withHost (State.frame_refl _ _ s) _ List.mem_cons_self⟩
  case writeHigh =>
    intro s a v r i o low h hfind ho hw hv hl
    exact exec_registerWrite_of_held h hfind ho hw hv hl

end Sys2Proof.Machine
